-- ==== Sys2Proof/Word.lean ====
section
/-! DEFINITION. The word types of the Z5 and the association list that every sparse piece of state uses. -/

namespace Sys2Proof

/-- One byte of memory. -/
abbrev Byte := BitVec 8
/-- One vector register of one lane (R10). -/
abbrev Word := BitVec 32
/-- One uniform register, an address or a counter (R10). -/
abbrev DWord := BitVec 64
/-- One bit a lane: a predicate register or a set of lanes (R10). -/
abbrev Lanes := BitVec 32
/-- One instruction (R167). -/
abbrev Code := BitVec 96

/-- A sparse table: key and value pairs, keys strictly rising. -/
abbrev NMap (α : Type) := List (Nat × α)

namespace NMap

variable {α : Type}

/-- The value at a key, if the table lists one. -/
def find? : NMap α → Nat → Option α
  | [], _ => none
  | (k, v) :: m, n => if k = n then some v else find? m n

/-- The value at a key, or `d` for a key that is not listed. -/
def getD (m : NMap α) (n : Nat) (d : α) : α := (m.find? n).getD d

/-- Sets the value at a key. -/
def set : NMap α → Nat → α → NMap α
  | [], n, v => [(n, v)]
  | (k, w) :: m, n, v =>
    if k = n then (n, v) :: m
    else if n < k then (n, v) :: (k, w) :: m
    else (k, w) :: set m n v

/-- Removes a key. -/
def erase : NMap α → Nat → NMap α
  | [], _ => []
  | (k, w) :: m, n => if k = n then erase m n else (k, w) :: erase m n

/-- The listed keys. -/
def keys (m : NMap α) : List Nat := m.map Prod.fst

/-- The listed values. -/
def vals (m : NMap α) : List α := m.map Prod.snd

/-- Changes every listed value. -/
def mapVals (f : Nat → α → α) (m : NMap α) : NMap α := m.map (fun e => (e.1, f e.1 e.2))

/-- The entries whose key is below a bound. -/
def below (m : NMap α) (n : Nat) : NMap α := m.filter (fun e => decide (e.1 < n))

/-- The entries whose key satisfies a test. -/
def keep (m : NMap α) (p : Nat → Bool) : NMap α := m.filter (fun e => p e.1)

/-- Strictly rising keys: the one form of a table. -/
def sorted (m : NMap α) : Bool := decide (m.keys.Pairwise (· < ·))

end NMap

/-- The lanes of a set, ascending. -/
def lanesOf (m : Lanes) : List Nat := (List.range 32).filter (fun i => m.getLsbD i)

/-- The set that holds the lanes of a list. -/
def maskOf (ls : List Nat) : Lanes := ls.foldl (fun m i => m ||| (1#32 <<< i)) 0

/-- Bits `lo` and above of a number, `n` of them. -/
def bits (x lo n : Nat) : Nat := (x / 2 ^ lo) % 2 ^ n

/-- One bit of a number. -/
def bitAt (x i : Nat) : Bool := bits x i 1 == 1

/-- Rounds up to a multiple (of a nonzero step). -/
def roundUp (x step : Nat) : Nat := if step = 0 then x else ((x + step - 1) / step) * step

/-- Quotient rounded up. -/
def ceilDiv (x y : Nat) : Nat := if y = 0 then 0 else (x + y - 1) / y

/-- The number a byte list holds, least significant byte first (R1). -/
def leNat : List Byte → Nat
  | [] => 0
  | b :: bs => b.toNat + 256 * leNat bs

/-- `n` bytes of a number, least significant byte first (R1). -/
def leBytes : Nat → Nat → List Byte
  | 0, _ => []
  | n + 1, x => BitVec.ofNat 8 x :: leBytes n (x / 256)

end Sys2Proof
end

