-- ==== Sys2Proof/Syntax.lean ====
section
/-! DEFINITION. The syntax of Ndenel N1 instructions and of the machine's other steps: one constructor of
`Instr` for each row of spec/opcode_table.json. -/

namespace Sys2Proof

/-- Number formats (R84). `b8 uns ext p` is a binary8 format of precision `p` (1 to 7). -/
inductive Fmt where
  | f64 | f32 | f16 | bf16
  | i8 | i16 | i32 | i64
  | n8 | n16 | n32 | n64
  | b8 (uns ext : Bool) (p : BitVec 3)
deriving DecidableEq, Repr

/-- Operand specifiers (R174). -/
inductive Opr where
  | v (n : BitVec 8)
  | s (n : BitVec 6)
  | p (n : BitVec 4)
  | acc (n : BitVec 4)
  | wq (n : BitVec 2)
  | byp
  | const (c : BitVec 6)
deriving DecidableEq, Repr

/-- An operand field that an instruction does not use holds zero (R175), which is the specifier of `v0`. -/
def Opr.zero : Opr := .v 0

/-- Guard (R173): `GN` and `GP`. -/
structure Guard where
  gn : Bool
  gp : BitVec 4
deriving DecidableEq, Repr

/-- Format A (R179). -/
structure FmtA where
  g : Guard
  sub : BitVec 8
  fx : BitVec 2
  pd : BitVec 4
  ty2 : Fmt
  sat : BitVec 2
  rnd : BitVec 3
  ty : Fmt
  c : Opr
  fc : Bool
  b : Opr
  fb : Bool
  a : Opr
  fa : Bool
  d : Opr
deriving DecidableEq, Repr

/-- Format B (R180). -/
structure FmtB where
  g : Guard
  sub : BitVec 8
  pd : BitVec 4
  rnd : BitVec 3
  ty : Fmt
  imm : BitVec 32
  a : Opr
  fa : Bool
  d : Opr
deriving DecidableEq, Repr

/-- Format M (R181). -/
structure FmtM where
  g : Guard
  w : BitVec 3
  fm : Bool
  pol : BitVec 2
  ord : BitVec 2
  qn : BitVec 2
  sp : BitVec 3
  aop : BitVec 4
  ofs : BitVec 20
  c : Opr
  fc : Bool
  b : Opr
  fb : Bool
  a : Opr
  fa : Bool
  d : Opr
deriving DecidableEq, Repr

/-- Format E (R182). -/
structure FmtE where
  g : Guard
  sub : BitVec 8
  fx : BitVec 2
  pd : BitVec 4
  imm8 : BitVec 8
  cls : BitVec 3
  scp : BitVec 3
  cv : BitVec 9
  c : Opr
  fc : Bool
  b : Opr
  fb : Bool
  a : Opr
  fa : Bool
  d : Opr
deriving DecidableEq, Repr

/-- Format C (R183). -/
structure FmtC where
  g : Guard
  sub : BitVec 8
  offs : BitVec 32
  a : Opr
  fa : Bool
  d : Opr
deriving DecidableEq, Repr

/-- Format G (R184). -/
structure FmtG where
  g : Guard
  bay : BitVec 16
  li : BitVec 32
  ws : BitVec 32
deriving DecidableEq, Repr

/-- Format S (R185). -/
structure FmtS where
  g : Guard
  sub : BitVec 8
  imm16 : BitVec 16
  fx : BitVec 2
  srn : BitVec 10
  a : Opr
  fa : Bool
  d : Opr
deriving DecidableEq, Repr

/-- Format X (R186). -/
structure FmtX where
  g : Guard
  sat : BitVec 2
  rnd : BitVec 3
  ty : Fmt
  dst : BitVec 2
  act : BitVec 3
  kc : BitVec 5
  spb : BitVec 3
  spa : BitVec 3
  skp : Bool
  sg : Bool
  cv : BitVec 9
  c : Opr
  fc : Bool
  b : Opr
  fb : Bool
  a : Opr
  fa : Bool
  d : Opr
deriving DecidableEq, Repr

/-- Where a page fault record comes from (R351 `SRC`): a crew that faulted, an engine operation, or a Mask Unit
or handler access of a crew that waits. -/
inductive FaultSrc where
  | crew (blk crew : Nat)
  | engine (op : Nat)
deriving DecidableEq, Repr

/-- Every instruction (R189, R190) and every other step of the machine. Instructions carry their format's fields;
events carry which agent acts and the choices the spec leaves to it. -/
inductive Instr where
  /-- IADD (R205) -/
  | iadd (f : FmtA)
  /-- ISUB (R205) -/
  | isub (f : FmtA)
  /-- IMUL (R205) -/
  | imul (f : FmtA)
  /-- IMULH (R205) -/
  | imulh (f : FmtA)
  /-- IMAD (R205) -/
  | imad (f : FmtA)
  /-- IDIV (R206) -/
  | idiv (f : FmtA)
  /-- IREM (R206) -/
  | irem (f : FmtA)
  /-- IMIN (R205) -/
  | imin (f : FmtA)
  /-- IMAX (R205) -/
  | imax (f : FmtA)
  /-- IABS (R205) -/
  | iabs (f : FmtA)
  /-- INEG (R205) -/
  | ineg (f : FmtA)
  /-- AND (R207) -/
  | land (f : FmtA)
  /-- OR (R207) -/
  | lor (f : FmtA)
  /-- XOR (R207) -/
  | lxor (f : FmtA)
  /-- NOT (R207) -/
  | lnot (f : FmtA)
  /-- SHL (R207) -/
  | shl (f : FmtA)
  /-- SHR (R207) -/
  | shr (f : FmtA)
  /-- SRA (R207) -/
  | sra (f : FmtA)
  /-- ROTL (R207) -/
  | rotl (f : FmtA)
  /-- BFX (R208) -/
  | bfx (f : FmtA)
  /-- BFI (R208) -/
  | bfi (f : FmtA)
  /-- POPC (R207) -/
  | popc (f : FmtA)
  /-- CLZ (R207) -/
  | clz (f : FmtA)
  /-- BREV (R207) -/
  | brev (f : FmtA)
  /-- ICMP (R209) -/
  | icmp (f : FmtA)
  /-- SEL (R210) -/
  | sel (f : FmtA)
  /-- MOV (R211) -/
  | mov (f : FmtA)
  /-- LEA (R212) -/
  | lea (f : FmtA)
  /-- IADDI (R213) -/
  | iaddi (f : FmtB)
  /-- MOVI (R213) -/
  | movi (f : FmtB)
  /-- ICMPI (R213) -/
  | icmpi (f : FmtB)
  /-- ANDI (R213) -/
  | andi (f : FmtB)
  /-- ORI (R213) -/
  | ori (f : FmtB)
  /-- XORI (R213) -/
  | xori (f : FmtB)
  /-- PAND (R214) -/
  | pand (f : FmtA)
  /-- POR (R214) -/
  | por (f : FmtA)
  /-- PXOR (R214) -/
  | pxor (f : FmtA)
  /-- PNOT (R214) -/
  | pnot (f : FmtA)
  /-- P2S (R215) -/
  | p2s (f : FmtA)
  /-- S2P (R215) -/
  | s2p (f : FmtA)
  /-- SHFL (R216) -/
  | shfl (f : FmtA)
  /-- VOTE_ALL (R217) -/
  | voteAll (f : FmtA)
  /-- VOTE_ANY (R217) -/
  | voteAny (f : FmtA)
  /-- VOTE_UNI (R217) -/
  | voteUni (f : FmtA)
  /-- VOTE_BALLOT (R217) -/
  | voteBallot (f : FmtA)
  /-- MATCH_ANY (R218) -/
  | matchAny (f : FmtA)
  /-- MATCH_ALL (R218) -/
  | matchAll (f : FmtA)
  /-- REDUX (R219) -/
  | redux (f : FmtA)
  /-- SCAN (R219) -/
  | scan (f : FmtA)
  /-- ELECT (R220) -/
  | elect (f : FmtA)
  /-- REGACQ (R222) -/
  | regacq (f : FmtA)
  /-- REGACQ_GRANT (R13) -/
  | regacqGrant (core : Nat)
  /-- REGREL (R223) -/
  | regrel (f : FmtA)
  /-- FECTL_TEST (R225) -/
  | fectlTest (f : FmtA)
  /-- FECTL_WAIT (R225) -/
  | fectlWait (f : FmtA)
  /-- FECTL_CANCEL (R225) -/
  | fectlCancel (f : FmtA)
  /-- FADD (R229) -/
  | fadd (f : FmtA)
  /-- FSUB (R229) -/
  | fsub (f : FmtA)
  /-- FMUL (R229) -/
  | fmul (f : FmtA)
  /-- FFMA (R229) -/
  | ffma (f : FmtA)
  /-- FMIN (R230) -/
  | fmin (f : FmtA)
  /-- FMAX (R230) -/
  | fmax (f : FmtA)
  /-- FSGN (R231) -/
  | fsgn (f : FmtA)
  /-- FCMP (R232) -/
  | fcmp (f : FmtA)
  /-- FCLASS (R233) -/
  | fclass (f : FmtA)
  /-- FDIV (R234) -/
  | fdiv (f : FmtA)
  /-- FSQRT (R234) -/
  | fsqrt (f : FmtA)
  /-- FEX2 (R234) -/
  | fex2 (f : FmtA)
  /-- FLG2 (R234) -/
  | flg2 (f : FmtA)
  /-- FRCPA (R234) -/
  | frcpa (f : FmtA)
  /-- FRSQA (R234) -/
  | frsqa (f : FmtA)
  /-- CVT (R235) -/
  | cvt (f : FmtA)
  /-- PACK (R236) -/
  | pack (f : FmtA)
  /-- UNPACK (R237) -/
  | unpack (f : FmtA)
  /-- BQUANT (R238) -/
  | bquant (f : FmtA)
  /-- RAND (R239) -/
  | rand (f : FmtA)
  /-- SPLIT (R240) -/
  | split (f : FmtA)
  /-- SAMPLE (R241) -/
  | sample (f : FmtA)
  /-- TOPK (R242) -/
  | topk (f : FmtA)
  /-- GMBIND (R161) -/
  | gmbind (f : FmtA)
  /-- GMSTEP (R162) -/
  | gmstep (f : FmtA)
  /-- GMFETCH (R163) -/
  | gmfetch (f : FmtA)
  /-- GMSTK_SPILL (R164) -/
  | gmstkSpill (f : FmtA)
  /-- GMSTK_FILL (R164) -/
  | gmstkFill (f : FmtA)
  /-- GMSTK_RD (R164) -/
  | gmstkRd (f : FmtA)
  /-- LD (R248) -/
  | ld (f : FmtM)
  /-- ST (R250) -/
  | st (f : FmtM)
  /-- ATOM (R252) -/
  | atom (f : FmtM)
  /-- RED (R253) -/
  | red (f : FmtM)
  /-- FENCE_ACQ (R254) -/
  | fenceAcq (f : FmtM)
  /-- FENCE_REL (R254) -/
  | fenceRel (f : FmtM)
  /-- FENCE_AR (R58) -/
  | fenceAr (f : FmtM)
  /-- COPY (R256) -/
  | copy (f : FmtE)
  /-- COPYC (R257) -/
  | copyc (f : FmtE)
  /-- STREAM_F (R75) -/
  | streamF (f : FmtE)
  /-- STREAM_D (R76) -/
  | streamD (f : FmtE)
  /-- SREL_F (R75) -/
  | srelF (f : FmtE)
  /-- SREL_D (R76) -/
  | srelD (f : FmtE)
  /-- GATHER (R259) -/
  | gather (f : FmtE)
  /-- WAITCNT (R260) -/
  | waitcnt (f : FmtE)
  /-- MONARM (R261) -/
  | monarm (f : FmtE)
  /-- MONWAIT (R83) -/
  | monwait (f : FmtE)
  /-- BAR (R262) -/
  | bar (f : FmtE)
  /-- CSET (R264) -/
  | cset (f : FmtE)
  /-- TRIGGER (R147) -/
  | trigger (f : FmtE)
  /-- WAIT_DEP (R147) -/
  | waitDep (f : FmtE)
  /-- WAIT_DEP_RELEASE (R147) -/
  | waitDepRelease (blk crew : Nat)
  /-- TASK (R137) -/
  | task (f : FmtE)
  /-- TASK_DONE (R141) -/
  | taskDone (f : FmtE)
  /-- TASK_POST (R140) -/
  | taskPost (die idx : Nat)
  /-- DQPOST (R143) -/
  | dqpost (f : FmtE)
  /-- DQTAKE (R143) -/
  | dqtake (f : FmtE)
  /-- DQSTEAL (R143) -/
  | dqsteal (f : FmtE)
  /-- QSUBMIT (R268) -/
  | qsubmit (f : FmtE)
  /-- POOLTAKE (R158) -/
  | pooltake (f : FmtE)
  /-- POOLGIVE (R158) -/
  | poolgive (f : FmtE)
  /-- COLL (R270) -/
  | coll (f : FmtE)
  /-- COLL_COMBINE (R271) -/
  | collCombine (group seq level idx : Nat)
  /-- BRA (R273) -/
  | bra (f : FmtC)
  /-- BRX (R273) -/
  | brx (f : FmtC)
  /-- CALL (R273) -/
  | call (f : FmtC)
  /-- CALLX (R273) -/
  | callx (f : FmtC)
  /-- RET (R274) -/
  | ret (f : FmtC)
  /-- EXIT (R275) -/
  | exit (f : FmtC)
  /-- NOP (R272) -/
  | nop (f : FmtC)
  /-- REGION (R276) -/
  | region (f : FmtG)
  /-- IMPLICIT_HEAD (R277) -/
  | implicitHead (blk crew : Nat)
  /-- SWITCHPT (R133) -/
  | switchpt (f : FmtS)
  /-- SWITCH_RELAUNCH (R135) -/
  | switchRelaunch (blk core : Nat)
  /-- TRAP (R283) -/
  | trap (f : FmtS)
  /-- BRK (R283) -/
  | brk (f : FmtS)
  /-- TRAPRET (R284) -/
  | trapret (f : FmtS)
  /-- SREAD (R286) -/
  | sread (f : FmtS)
  /-- SWRITE (R287) -/
  | swrite (f : FmtS)
  /-- SHAPE (R289) -/
  | shape (f : FmtA)
  /-- FMTWIN (R290) -/
  | fmtwin (f : FmtA)
  /-- MMA (R292) -/
  | mma (f : FmtX)
  /-- ACLR (R293) -/
  | aclr (f : FmtX)
  /-- ALOAD (R293) -/
  | aload (f : FmtX)
  /-- ADRAIN (R294) -/
  | adrain (f : FmtX)
  /-- MX_OPERATION (R123) -/
  | mxOperation (op : Nat)
  /-- PASS (R32) -/
  | pass (f : FmtE)
  /-- PASS_OPEN (R32) -/
  | passOpen (blk : Nat)
  /-- SEAL (R35) -/
  | seal (f : FmtE)
  /-- SEAL_COMMIT (R35) -/
  | sealCommit (blk : Nat)
  /-- LRES (R37) -/
  | lres (f : FmtE)
  /-- LHOLD (R38) -/
  | lhold (f : FmtE)
  /-- LDROP (R38) -/
  | ldrop (f : FmtE)
  /-- ISSUE_CYCLE (R19) -/
  | issueCycle (core slot : Nat)
  /-- STORE_PATH_PERFORM (R54) -/
  | storePathPerform (blk crew : Nat)
  /-- LOAD_PERFORM (R55) -/
  | loadPerform (blk crew idx : Nat)
  /-- ACQUIRE_COMPLETE (R56) -/
  | acquireComplete (blk crew idx : Nat)
  /-- EVICT (R59) -/
  | evict (l1 word : Nat)
  /-- ENGINE_COMMAND_START (R64) -/
  | engineCommandStart (op : Nat)
  /-- ENGINE_OPERATION_COMPLETE (R65) -/
  | engineOperationComplete (op : Nat)
  /-- COPY_OPERATION (R80) -/
  | copyOperation (op seg ofs len : Nat)
  /-- STAMP_WRITE (R82) -/
  | stampWrite (op : Nat)
  /-- FILL_ITERATION (R75) -/
  | fillIteration (core len : Nat)
  /-- DRAIN_ITERATION (R76) -/
  | drainIteration (core len : Nat)
  /-- CHANNEL_PROTECTION_STOP (R78) -/
  | channelProtectionStop (op : Nat)
  /-- CHANNEL_IDLE (R74) -/
  | channelIdle (core dir : Nat)
  /-- MONITOR_WAKE (R83) -/
  | monitorWake (blk crew : Nat)
  /-- MONWAIT_TIMEOUT (R83) -/
  | monwaitTimeout (blk crew : Nat)
  /-- CREW_RETIRE (R275) -/
  | crewRetire (blk crew : Nat)
  /-- BLOCK_END (R275) -/
  | blockEnd (blk : Nat)
  /-- GRID_COMPLETE (R42) -/
  | gridComplete (grid : Nat)
  /-- CONE_CYCLE_EXPIRY (R41) -/
  | coneCycleExpiry (grid : Nat)
  /-- CONE_ENERGY_EXPIRY (R41) -/
  | coneEnergyExpiry (grid : Nat)
  /-- CONE_DEADLINE_EXPIRY (R41) -/
  | coneDeadlineExpiry (grid : Nat)
  /-- CUT_ARRIVAL (R41) -/
  | cutArrival (grid core : Nat)
  /-- COMPLETION_RECORD_WRITE (R345) -/
  | completionRecordWrite (pkt : Nat)
  /-- BLOCK_PLACE (R344) -/
  | blockPlace (die : Nat)
  /-- CARVE_OUT_CHANGE (R50) -/
  | carveOutChange (core split fuse : Nat)
  /-- SWITCH_FLAG_PRESSURE (R132) -/
  | switchFlagPressure (waiting blk : Nat)
  /-- SWITCH_FLAG_IDLE (R132) -/
  | switchFlagIdle (blk : Nat)
  /-- SWITCH_FLAG_RESTORE (R132) -/
  | switchFlagRestore (blk : Nat)
  /-- PREEMPTION_SAVE (R280) -/
  | preemptionSave (blk : Nat)
  /-- BLOCK_RESTORE (R358) -/
  | blockRestore (blk core : Nat)
  /-- PARKED_BLOCK_EVICT (R362) -/
  | parkedBlockEvict (blk : Nat)
  /-- LATE_FAULT_ROLLBACK (R278) -/
  | lateFaultRollback (blk crew : Nat)
  /-- HANDLER_ENTRY (R348) -/
  | handlerEntry (core slot : Nat)
  /-- WAIT_CYCLE_PROBE (R361) -/
  | waitCycleProbe (blk crew : Nat)
  /-- PAGE_FAULT_RECORD (R351) -/
  | pageFaultRecord (src : FaultSrc)
  /-- FAULT_SERVICE_SAVE (R352) -/
  | faultServiceSave (blk : Nat)
  /-- TIMING_ERROR (R383) -/
  | timingError (blk crew pc : Nat)
  /-- PARITY_ERROR (R383) -/
  | parityError (blk crew pc kind idx : Nat)
  /-- HBM_UNCORRECTABLE (R383) -/
  | hbmUncorrectable (page : Nat)
  /-- MCE_RETIRE (R353) -/
  | mceRetire (kind idx : Nat)
  /-- MASK_UNIT_WRITEBACK (R161) -/
  | maskUnitWriteback (quad rec : Nat)
  /-- PACKET_READ (R334) -/
  | packetRead (ctx q : Nat)
  /-- LAUNCH (R337) -/
  | launch (pkt : Nat)
  /-- GRAPH (R340) -/
  | graph (pkt : Nat)
  /-- COPY_PACKET (R340) -/
  | copyPacket (pkt : Nat)
  /-- SIGNAL (R340) -/
  | signal (pkt : Nat)
  /-- WAIT (R340) -/
  | waitPacket (pkt : Nat)
  /-- WAIT_PACKET_TIMEOUT (R340) -/
  | waitPacketTimeout (pkt : Nat)
  /-- SETDET (R341) -/
  | setdet (pkt : Nat)
  /-- POOLSET (R340) -/
  | poolset (pkt : Nat)
  /-- PRIORITY_AGING (R343) -/
  | priorityAging (pkt : Nat)
  /-- KERN (R145) -/
  | kern (run node : Nat)
  /-- COPY_NODE (R145) -/
  | copyNode (run node : Nat)
  /-- LOOP (R146) -/
  | loop (run node : Nat)
  /-- LOOP_RUN_END (R146) -/
  | loopRunEnd (run node : Nat)
  /-- COND (R145) -/
  | cond (run node : Nat)
  /-- SIGNAL_NODE (R145) -/
  | signalNode (run node : Nat)
  /-- WAIT_NODE (R145) -/
  | waitNode (run node : Nat)
  /-- WAIT_NODE_TIMEOUT (R145) -/
  | waitNodeTimeout (run node : Nat)
  /-- DOORBELL_WRITE (R334) -/
  | doorbellWrite (ctx q val : Nat)
  /-- CONTEXT_SLOT_WRITE (R332) -/
  | contextSlotWrite (ctx val : Nat)
  /-- FRRIDX_WRITE (R352) -/
  | frridxWrite (ctx val : Nat)
  /-- INVCTL_INVALIDATE (R366) -/
  | invctlInvalidate (ctx val : Nat)
  /-- INVALIDATION_DONE (R366) -/
  | invalidationDone (ctx : Nat)
  /-- FWCTL_VERIFY (R370) -/
  | fwctlVerify (val : Nat)
  /-- FIRMWARE_VERIFY_DONE (R370) -/
  | firmwareVerifyDone
  /-- RSTCTL_RESET (R371) -/
  | rstctlReset (val : Nat)
  /-- FUNDAMENTAL_RESET (R371) -/
  | fundamentalReset
  /-- HOT_RESET (R371) -/
  | hotReset
  /-- FUNCTION_LEVEL_RESET (R371) -/
  | functionLevelReset
  /-- HOST_LINK_UP (R370) -/
  | hostLinkUp
  /-- ROUTE_ENTRY_WRITE (R374) -/
  | routeEntryWrite (idx val : Nat)
  /-- CONTROL_REGISTER_WRITE (R369) -/
  | controlRegisterWrite (ofs val : Nat)
  /-- HOST_CXL_STORE (R368) -/
  | hostCxlStore (addr : Nat) (data : List Byte)
  /-- FLIT_CRC_RETRY (R375) -/
  | flitCrcRetry (port lane : Nat)
  /-- LANE_DROP (R375) -/
  | laneDrop (port lane : Nat)
  /-- CLOCK_THROTTLE (R388) -/
  | clockThrottle (die : Nat)
  /-- GET_VERSION (R377) -/
  | getVersion
  /-- GET_CAPABILITIES (R377) -/
  | getCapabilities
  /-- NEGOTIATE_ALGORITHMS (R377) -/
  | negotiateAlgorithms (asym hash : Nat)
  /-- GET_DIGESTS (R377) -/
  | getDigests
  /-- GET_CERTIFICATE (R377) -/
  | getCertificate (slot ofs len : Nat)
  /-- CHALLENGE (R377) -/
  | challenge (slot : Nat) (nonce : List Byte)
  /-- GET_MEASUREMENTS (R377) -/
  | getMeasurements (idx : Nat) (sign : Bool) (nonce : List Byte)
  /-- CHUNK_SEND (R377) -/
  | chunkSend (handle seq : Nat) (last : Bool) (data : List Byte)
  /-- CHUNK_GET (R377) -/
  | chunkGet (handle seq : Nat)
  /-- ARITHMETIC_CLOCK_RESTORE (R2) -/
  | arithmeticClockRestore (die : Nat)
  /-- FIRMWARE_STAGING_WINDOW_WRITE (R370) -/
  | firmwareStagingWindowWrite (ofs : Nat) (data : List Byte)
deriving DecidableEq, Repr

/-- One move of the agenda: the nanoseconds that pass and the step that is then taken. -/
structure Move where
  ns : Nat
  ev : Instr
deriving DecidableEq, Repr

/-- The fields of an instruction, by format; an event has none. -/
inductive Body where
  | a (f : FmtA) | b (f : FmtB) | m (f : FmtM) | e (f : FmtE)
  | c (f : FmtC) | g (f : FmtG) | s (f : FmtS) | x (f : FmtX)
  | event
deriving DecidableEq, Repr

/-- The fields of an instruction. -/
def Instr.body : Instr → Body
  | .iadd f => .a f
  | .isub f => .a f
  | .imul f => .a f
  | .imulh f => .a f
  | .imad f => .a f
  | .idiv f => .a f
  | .irem f => .a f
  | .imin f => .a f
  | .imax f => .a f
  | .iabs f => .a f
  | .ineg f => .a f
  | .land f => .a f
  | .lor f => .a f
  | .lxor f => .a f
  | .lnot f => .a f
  | .shl f => .a f
  | .shr f => .a f
  | .sra f => .a f
  | .rotl f => .a f
  | .bfx f => .a f
  | .bfi f => .a f
  | .popc f => .a f
  | .clz f => .a f
  | .brev f => .a f
  | .icmp f => .a f
  | .sel f => .a f
  | .mov f => .a f
  | .lea f => .a f
  | .iaddi f => .b f
  | .movi f => .b f
  | .icmpi f => .b f
  | .andi f => .b f
  | .ori f => .b f
  | .xori f => .b f
  | .pand f => .a f
  | .por f => .a f
  | .pxor f => .a f
  | .pnot f => .a f
  | .p2s f => .a f
  | .s2p f => .a f
  | .shfl f => .a f
  | .voteAll f => .a f
  | .voteAny f => .a f
  | .voteUni f => .a f
  | .voteBallot f => .a f
  | .matchAny f => .a f
  | .matchAll f => .a f
  | .redux f => .a f
  | .scan f => .a f
  | .elect f => .a f
  | .regacq f => .a f
  | .regacqGrant _ => .event
  | .regrel f => .a f
  | .fectlTest f => .a f
  | .fectlWait f => .a f
  | .fectlCancel f => .a f
  | .fadd f => .a f
  | .fsub f => .a f
  | .fmul f => .a f
  | .ffma f => .a f
  | .fmin f => .a f
  | .fmax f => .a f
  | .fsgn f => .a f
  | .fcmp f => .a f
  | .fclass f => .a f
  | .fdiv f => .a f
  | .fsqrt f => .a f
  | .fex2 f => .a f
  | .flg2 f => .a f
  | .frcpa f => .a f
  | .frsqa f => .a f
  | .cvt f => .a f
  | .pack f => .a f
  | .unpack f => .a f
  | .bquant f => .a f
  | .rand f => .a f
  | .split f => .a f
  | .sample f => .a f
  | .topk f => .a f
  | .gmbind f => .a f
  | .gmstep f => .a f
  | .gmfetch f => .a f
  | .gmstkSpill f => .a f
  | .gmstkFill f => .a f
  | .gmstkRd f => .a f
  | .ld f => .m f
  | .st f => .m f
  | .atom f => .m f
  | .red f => .m f
  | .fenceAcq f => .m f
  | .fenceRel f => .m f
  | .fenceAr f => .m f
  | .copy f => .e f
  | .copyc f => .e f
  | .streamF f => .e f
  | .streamD f => .e f
  | .srelF f => .e f
  | .srelD f => .e f
  | .gather f => .e f
  | .waitcnt f => .e f
  | .monarm f => .e f
  | .monwait f => .e f
  | .bar f => .e f
  | .cset f => .e f
  | .trigger f => .e f
  | .waitDep f => .e f
  | .waitDepRelease _ _ => .event
  | .task f => .e f
  | .taskDone f => .e f
  | .taskPost _ _ => .event
  | .dqpost f => .e f
  | .dqtake f => .e f
  | .dqsteal f => .e f
  | .qsubmit f => .e f
  | .pooltake f => .e f
  | .poolgive f => .e f
  | .coll f => .e f
  | .collCombine _ _ _ _ => .event
  | .bra f => .c f
  | .brx f => .c f
  | .call f => .c f
  | .callx f => .c f
  | .ret f => .c f
  | .exit f => .c f
  | .nop f => .c f
  | .region f => .g f
  | .implicitHead _ _ => .event
  | .switchpt f => .s f
  | .switchRelaunch _ _ => .event
  | .trap f => .s f
  | .brk f => .s f
  | .trapret f => .s f
  | .sread f => .s f
  | .swrite f => .s f
  | .shape f => .a f
  | .fmtwin f => .a f
  | .mma f => .x f
  | .aclr f => .x f
  | .aload f => .x f
  | .adrain f => .x f
  | .mxOperation _ => .event
  | .pass f => .e f
  | .passOpen _ => .event
  | .seal f => .e f
  | .sealCommit _ => .event
  | .lres f => .e f
  | .lhold f => .e f
  | .ldrop f => .e f
  | .issueCycle _ _ => .event
  | .storePathPerform _ _ => .event
  | .loadPerform _ _ _ => .event
  | .acquireComplete _ _ _ => .event
  | .evict _ _ => .event
  | .engineCommandStart _ => .event
  | .engineOperationComplete _ => .event
  | .copyOperation _ _ _ _ => .event
  | .stampWrite _ => .event
  | .fillIteration _ _ => .event
  | .drainIteration _ _ => .event
  | .channelProtectionStop _ => .event
  | .channelIdle _ _ => .event
  | .monitorWake _ _ => .event
  | .monwaitTimeout _ _ => .event
  | .crewRetire _ _ => .event
  | .blockEnd _ => .event
  | .gridComplete _ => .event
  | .coneCycleExpiry _ => .event
  | .coneEnergyExpiry _ => .event
  | .coneDeadlineExpiry _ => .event
  | .cutArrival _ _ => .event
  | .completionRecordWrite _ => .event
  | .blockPlace _ => .event
  | .carveOutChange _ _ _ => .event
  | .switchFlagPressure _ _ => .event
  | .switchFlagIdle _ => .event
  | .switchFlagRestore _ => .event
  | .preemptionSave _ => .event
  | .blockRestore _ _ => .event
  | .parkedBlockEvict _ => .event
  | .lateFaultRollback _ _ => .event
  | .handlerEntry _ _ => .event
  | .waitCycleProbe _ _ => .event
  | .pageFaultRecord _ => .event
  | .faultServiceSave _ => .event
  | .timingError _ _ _ => .event
  | .parityError _ _ _ _ _ => .event
  | .hbmUncorrectable _ => .event
  | .mceRetire _ _ => .event
  | .maskUnitWriteback _ _ => .event
  | .packetRead _ _ => .event
  | .launch _ => .event
  | .graph _ => .event
  | .copyPacket _ => .event
  | .signal _ => .event
  | .waitPacket _ => .event
  | .waitPacketTimeout _ => .event
  | .setdet _ => .event
  | .poolset _ => .event
  | .priorityAging _ => .event
  | .kern _ _ => .event
  | .copyNode _ _ => .event
  | .loop _ _ => .event
  | .loopRunEnd _ _ => .event
  | .cond _ _ => .event
  | .signalNode _ _ => .event
  | .waitNode _ _ => .event
  | .waitNodeTimeout _ _ => .event
  | .doorbellWrite _ _ _ => .event
  | .contextSlotWrite _ _ => .event
  | .frridxWrite _ _ => .event
  | .invctlInvalidate _ _ => .event
  | .invalidationDone _ => .event
  | .fwctlVerify _ => .event
  | .firmwareVerifyDone => .event
  | .rstctlReset _ => .event
  | .fundamentalReset => .event
  | .hotReset => .event
  | .functionLevelReset => .event
  | .hostLinkUp => .event
  | .routeEntryWrite _ _ => .event
  | .controlRegisterWrite _ _ => .event
  | .hostCxlStore _ _ => .event
  | .flitCrcRetry _ _ => .event
  | .laneDrop _ _ => .event
  | .clockThrottle _ => .event
  | .getVersion => .event
  | .getCapabilities => .event
  | .negotiateAlgorithms _ _ => .event
  | .getDigests => .event
  | .getCertificate _ _ _ => .event
  | .challenge _ _ => .event
  | .getMeasurements _ _ _ => .event
  | .chunkSend _ _ _ _ => .event
  | .chunkGet _ _ => .event
  | .arithmeticClockRestore _ => .event
  | .firmwareStagingWindowWrite _ _ => .event

/-- The guard of an instruction. -/
def Body.guard : Body → Guard
  | .a f => f.g | .b f => f.g | .m f => f.g | .e f => f.g | .c f => f.g | .g f => f.g | .s f => f.g | .x f => f.g
  | .event => ⟨false, 15⟩

/-- Is this constructor an instruction that a crew issues (and not an event)? -/
def Instr.issues (i : Instr) : Bool := i.body != .event

end Sys2Proof
end

