-- ==== Sys2Proof/Decode.lean ====
section
/-! DEFINITION. Decoding of instruction words, total and rejecting by name, and the encoder written from the same
tables (R167, R173–R189). Line words (R167). -/

namespace Sys2Proof

/-- Why a word is no instruction; every one of them is `UND` at issue (R174–R177, R189). -/
inductive DecodeError where
  /-- an opcode that the map does not list (R189) -/
  | opcode
  /-- a reserved bit that is not zero (R179–R186) -/
  | reserved
  /-- an operand number that names nothing (R174) -/
  | operand
  /-- a reserved format code (R84) -/
  | format
  /-- an operation selector that the description does not list (R177, R190) -/
  | selector
deriving DecidableEq, Repr

/-- The code of a format (R84). -/
def Fmt.code : Fmt → BitVec 6
  | .f64 => 0x00 | .f32 => 0x01 | .f16 => 0x02 | .bf16 => 0x03
  | .i8 => 0x04 | .i16 => 0x05 | .i32 => 0x06 | .i64 => 0x07
  | .n8 => 0x08 | .n16 => 0x09 | .n32 => 0x0A | .n64 => 0x0B
  | .b8 uns ext p => (1#1 ++ BitVec.ofBool uns ++ BitVec.ofBool ext ++ p : BitVec 6)

/-- The format of a code; none for a reserved code (R84). -/
def Fmt.ofCode (c : BitVec 6) : Option Fmt :=
  if c.extractLsb' 5 1 = 1#1 then
    if c.extractLsb' 0 3 = 0#3 then none
    else some (.b8 (c.getLsbD 4) (c.getLsbD 3) (c.extractLsb' 0 3))
  else
    match c.toNat with
    | 0x00 => some .f64 | 0x01 => some .f32 | 0x02 => some .f16 | 0x03 => some .bf16
    | 0x04 => some .i8 | 0x05 => some .i16 | 0x06 => some .i32 | 0x07 => some .i64
    | 0x08 => some .n8 | 0x09 => some .n16 | 0x0A => some .n32 | 0x0B => some .n64
    | _ => none

/-- The 10-bit specifier of an operand (R174). -/
def Opr.code : Opr → BitVec 10
  | .v n => 0#2 ++ n
  | .s n => (1#2 ++ 0#2 ++ n : BitVec 10)
  | .p n => (2#2 ++ 0#4 ++ n : BitVec 10)
  | .acc n => (3#2 ++ 0#4 ++ n : BitVec 10)
  | .wq n => (3#2 ++ 0b010000#6 ++ n : BitVec 10)
  | .byp => 0x380
  | .const c => (3#2 ++ 3#2 ++ c : BitVec 10)

/-- The operand of a specifier; none where R174 says `UND`. -/
def Opr.ofCode (x : BitVec 10) : Option Opr :=
  let n := x.extractLsb' 0 8
  match (x.extractLsb' 8 2).toNat with
  | 0 => some (.v n)
  | 1 => if n.extractLsb' 6 2 = 0#2 then some (.s (n.extractLsb' 0 6)) else none
  | 2 => if n.extractLsb' 4 4 = 0#4 then some (.p (n.extractLsb' 0 4)) else none
  | _ =>
    if n.extractLsb' 6 2 = 3#2 then some (.const (n.extractLsb' 0 6))
    else if n.extractLsb' 4 4 = 0#4 then some (.acc (n.extractLsb' 0 4))
    else if n.extractLsb' 2 6 = 0b010000#6 then some (.wq (n.extractLsb' 0 2))
    else if n = 0x80#8 then some .byp
    else none

namespace Decode

/-- The operand field that begins at a bit. -/
def opr (w : Code) (at_ : Nat) : Except DecodeError Opr :=
  match Opr.ofCode (w.extractLsb' at_ 10) with
  | some o => .ok o
  | none => .error .operand

/-- The format field that begins at a bit. -/
def fmt (w : Code) (at_ : Nat) : Except DecodeError Fmt :=
  match Fmt.ofCode (w.extractLsb' at_ 6) with
  | some f => .ok f
  | none => .error .format

/-- Reserved bits are zero. -/
def zeros (w : Code) (at_ n : Nat) : Except DecodeError Unit :=
  if w.extractLsb' at_ n = 0#n then .ok () else .error .reserved

/-- Guard of every format (R173). -/
def guard (w : Code) : Guard := ⟨w.getLsbD 14, w.extractLsb' 10 4⟩

/-- Fields of format A (R179). -/
def fmtA (w : Code) : Except DecodeError FmtA := do
  zeros w 89 7
  let ty2 ← fmt w 69
  let ty ← fmt w 58
  let c ← opr w 48
  let b ← opr w 37
  let a ← opr w 26
  let d ← opr w 15
  return { g := guard w, sub := w.extractLsb' 81 8, fx := w.extractLsb' 79 2, pd := w.extractLsb' 75 4, ty2 := ty2, sat := w.extractLsb' 67 2, rnd := w.extractLsb' 64 3, ty := ty, c := c, fc := w.getLsbD 47, b := b, fb := w.getLsbD 36, a := a, fa := w.getLsbD 25, d := d }

/-- Fields of format B (R180). -/
def fmtB (w : Code) : Except DecodeError FmtB := do
  zeros w 89 7
  let ty ← fmt w 68
  let a ← opr w 26
  let d ← opr w 15
  return { g := guard w, sub := w.extractLsb' 81 8, pd := w.extractLsb' 77 4, rnd := w.extractLsb' 74 3, ty := ty, imm := w.extractLsb' 36 32, a := a, fa := w.getLsbD 25, d := d }

/-- Fields of format M (R181). -/
def fmtM (w : Code) : Except DecodeError FmtM := do
  zeros w 95 1
  let c ← opr w 48
  let b ← opr w 37
  let a ← opr w 26
  let d ← opr w 15
  return { g := guard w, w := w.extractLsb' 92 3, fm := w.getLsbD 91, pol := w.extractLsb' 89 2, ord := w.extractLsb' 87 2, qn := w.extractLsb' 85 2, sp := w.extractLsb' 82 3, aop := w.extractLsb' 78 4, ofs := w.extractLsb' 58 20, c := c, fc := w.getLsbD 47, b := b, fb := w.getLsbD 36, a := a, fa := w.getLsbD 25, d := d }

/-- Fields of format E (R182). -/
def fmtE (w : Code) : Except DecodeError FmtE := do
  zeros w 95 1
  let c ← opr w 48
  let b ← opr w 37
  let a ← opr w 26
  let d ← opr w 15
  return { g := guard w, sub := w.extractLsb' 87 8, fx := w.extractLsb' 85 2, pd := w.extractLsb' 81 4, imm8 := w.extractLsb' 73 8, cls := w.extractLsb' 70 3, scp := w.extractLsb' 67 3, cv := w.extractLsb' 58 9, c := c, fc := w.getLsbD 47, b := b, fb := w.getLsbD 36, a := a, fa := w.getLsbD 25, d := d }

/-- Fields of format C (R183). -/
def fmtC (w : Code) : Except DecodeError FmtC := do
  zeros w 76 20
  let a ← opr w 26
  let d ← opr w 15
  return { g := guard w, sub := w.extractLsb' 68 8, offs := w.extractLsb' 36 32, a := a, fa := w.getLsbD 25, d := d }

/-- Fields of format G (R184). -/
def fmtG (w : Code) : Except DecodeError FmtG := do
  zeros w 95 1
  return { g := guard w, bay := w.extractLsb' 79 16, li := w.extractLsb' 47 32, ws := w.extractLsb' 15 32 }

/-- Fields of format S (R185). -/
def fmtS (w : Code) : Except DecodeError FmtS := do
  zeros w 72 24
  let a ← opr w 26
  let d ← opr w 15
  return { g := guard w, sub := w.extractLsb' 64 8, imm16 := w.extractLsb' 48 16, fx := w.extractLsb' 46 2, srn := w.extractLsb' 36 10, a := a, fa := w.getLsbD 25, d := d }

/-- Fields of format X (R186). -/
def fmtX (w : Code) : Except DecodeError FmtX := do
  let ty ← fmt w 85
  let c ← opr w 48
  let b ← opr w 37
  let a ← opr w 26
  let d ← opr w 15
  return { g := guard w, sat := w.extractLsb' 94 2, rnd := w.extractLsb' 91 3, ty := ty, dst := w.extractLsb' 83 2, act := w.extractLsb' 80 3, kc := w.extractLsb' 75 5, spb := w.extractLsb' 72 3, spa := w.extractLsb' 69 3, skp := w.getLsbD 68, sg := w.getLsbD 67, cv := w.extractLsb' 58 9, c := c, fc := w.getLsbD 47, b := b, fb := w.getLsbD 36, a := a, fa := w.getLsbD 25, d := d }

/-- The constructor that a selector value picks (R190). -/
def pick (xs : List Instr) (n : Nat) : Except DecodeError Instr :=
  match xs[n]? with
  | some i => .ok i
  | none => .error .selector

end Decode

open Decode in
/-- Decodes a 96-bit word (R189, R190). -/
def decode (w : Code) : Except DecodeError Instr :=
  match (w.extractLsb' 0 10).toNat with
  | 0x001 => (fmtA w).map .iadd
  | 0x002 => (fmtA w).map .isub
  | 0x003 => (fmtA w).map .imul
  | 0x004 => (fmtA w).map .imulh
  | 0x005 => (fmtA w).map .imad
  | 0x006 => (fmtA w).map .idiv
  | 0x007 => (fmtA w).map .irem
  | 0x008 => (fmtA w).map .imin
  | 0x009 => (fmtA w).map .imax
  | 0x00A => (fmtA w).map .iabs
  | 0x00B => (fmtA w).map .ineg
  | 0x00C => (fmtA w).map .land
  | 0x00D => (fmtA w).map .lor
  | 0x00E => (fmtA w).map .lxor
  | 0x00F => (fmtA w).map .lnot
  | 0x010 => (fmtA w).map .shl
  | 0x011 => (fmtA w).map .shr
  | 0x012 => (fmtA w).map .sra
  | 0x013 => (fmtA w).map .rotl
  | 0x014 => (fmtA w).map .bfx
  | 0x015 => (fmtA w).map .bfi
  | 0x016 => (fmtA w).map .popc
  | 0x017 => (fmtA w).map .clz
  | 0x018 => (fmtA w).map .brev
  | 0x019 => (fmtA w).map .icmp
  | 0x01A => (fmtA w).map .sel
  | 0x01B => (fmtA w).map .mov
  | 0x01C => (fmtA w).map .lea
  | 0x01D => (fmtB w).map .iaddi
  | 0x01E => (fmtB w).map .movi
  | 0x01F => (fmtB w).map .icmpi
  | 0x020 => (fmtB w).map .andi
  | 0x021 => (fmtB w).map .ori
  | 0x022 => (fmtB w).map .xori
  | 0x081 => (fmtA w).map .pand
  | 0x082 => (fmtA w).map .por
  | 0x083 => (fmtA w).map .pxor
  | 0x084 => (fmtA w).map .pnot
  | 0x085 => (fmtA w).map .p2s
  | 0x086 => (fmtA w).map .s2p
  | 0x087 => (fmtA w).map .shfl
  | 0x088 => (fmtA w).bind fun f => pick [.voteAll f, .voteAny f, .voteUni f, .voteBallot f] f.sub.toNat
  | 0x089 => (fmtA w).bind fun f => pick [.matchAny f, .matchAll f] f.sub.toNat
  | 0x08A => (fmtA w).map .redux
  | 0x08B => (fmtA w).map .scan
  | 0x08C => (fmtA w).map .elect
  | 0x08D => (fmtA w).map .regacq
  | 0x08E => (fmtA w).map .regrel
  | 0x08F => (fmtA w).bind fun f => pick [.fectlTest f, .fectlWait f, .fectlCancel f] f.sub.toNat
  | 0x101 => (fmtA w).map .fadd
  | 0x102 => (fmtA w).map .fsub
  | 0x103 => (fmtA w).map .fmul
  | 0x104 => (fmtA w).map .ffma
  | 0x105 => (fmtA w).map .fmin
  | 0x106 => (fmtA w).map .fmax
  | 0x107 => (fmtA w).map .fsgn
  | 0x108 => (fmtA w).map .fcmp
  | 0x109 => (fmtA w).map .fclass
  | 0x10A => (fmtA w).map .fdiv
  | 0x10B => (fmtA w).map .fsqrt
  | 0x10C => (fmtA w).map .fex2
  | 0x10D => (fmtA w).map .flg2
  | 0x10E => (fmtA w).map .frcpa
  | 0x10F => (fmtA w).map .frsqa
  | 0x181 => (fmtA w).map .cvt
  | 0x182 => (fmtA w).map .pack
  | 0x183 => (fmtA w).map .unpack
  | 0x184 => (fmtA w).map .bquant
  | 0x185 => (fmtA w).map .rand
  | 0x186 => (fmtA w).map .split
  | 0x187 => (fmtA w).map .sample
  | 0x188 => (fmtA w).map .topk
  | 0x189 => (fmtA w).map .gmbind
  | 0x18A => (fmtA w).map .gmstep
  | 0x18B => (fmtA w).map .gmfetch
  | 0x18C => (fmtA w).bind fun f => pick [.gmstkSpill f, .gmstkFill f, .gmstkRd f] f.sub.toNat
  | 0x201 => (fmtM w).map .ld
  | 0x202 => (fmtM w).map .st
  | 0x203 => (fmtM w).map .atom
  | 0x204 => (fmtM w).map .red
  | 0x205 => (fmtM w).bind fun f => if f.ord = 0 then .error .selector else pick [.fenceAcq f, .fenceRel f, .fenceAr f] (f.ord.toNat - 1)
  | 0x281 => (fmtE w).map .copy
  | 0x282 => (fmtE w).map .copyc
  | 0x283 => (fmtE w).bind fun f => pick [.streamF f, .streamD f] f.sub.toNat
  | 0x284 => (fmtE w).bind fun f => pick [.srelF f, .srelD f] f.sub.toNat
  | 0x285 => (fmtE w).map .gather
  | 0x286 => (fmtE w).map .waitcnt
  | 0x287 => (fmtE w).map .monarm
  | 0x288 => (fmtE w).map .monwait
  | 0x289 => (fmtE w).map .bar
  | 0x28A => (fmtE w).map .cset
  | 0x28B => (fmtE w).map .trigger
  | 0x28C => (fmtE w).bind fun f => if f.sub = 0 then .error .selector else pick [.waitDep f] (f.sub.toNat - 1)
  | 0x28D => (fmtE w).bind fun f => pick [.task f, .taskDone f] f.sub.toNat
  | 0x28E => (fmtE w).map .dqpost
  | 0x28F => (fmtE w).map .dqtake
  | 0x290 => (fmtE w).map .dqsteal
  | 0x291 => (fmtE w).map .qsubmit
  | 0x292 => (fmtE w).map .pooltake
  | 0x293 => (fmtE w).map .poolgive
  | 0x294 => (fmtE w).map .coll
  | 0x301 => (fmtC w).map .bra
  | 0x302 => (fmtC w).map .brx
  | 0x303 => (fmtC w).map .call
  | 0x304 => (fmtC w).map .callx
  | 0x305 => (fmtC w).map .ret
  | 0x306 => (fmtC w).map .exit
  | 0x307 => (fmtG w).map .region
  | 0x308 => (fmtS w).map .switchpt
  | 0x309 => (fmtS w).map .trap
  | 0x30A => (fmtS w).map .trapret
  | 0x30B => (fmtS w).map .sread
  | 0x30C => (fmtS w).map .swrite
  | 0x30D => (fmtS w).map .brk
  | 0x30E => (fmtC w).map .nop
  | 0x381 => (fmtA w).map .shape
  | 0x382 => (fmtA w).map .fmtwin
  | 0x383 => (fmtX w).map .mma
  | 0x384 => (fmtX w).map .aclr
  | 0x385 => (fmtX w).map .aload
  | 0x386 => (fmtX w).map .adrain
  | 0x387 => (fmtE w).map .pass
  | 0x388 => (fmtE w).map .seal
  | 0x389 => (fmtE w).map .lres
  | 0x38A => (fmtE w).map .lhold
  | 0x38B => (fmtE w).map .ldrop
  | _ => .error .opcode

/-- Decodes the twelve bytes of a slot, the first byte at the lowest address (R1, R167). -/
def decodeBytes (bs : List Byte) : Except DecodeError Instr := decode (BitVec.ofNat 96 (leNat bs))

/-- The instruction of a table row's word: its bits laid out as the slot's bytes. -/
def decodeTableWord (nbits w : Nat) : Option Instr :=
  if nbits ≤ 96 then (decodeBytes (leBytes 12 w)).toOption else none

/-- The opcode of an instruction (R189); an event has none. -/
def Instr.opc : Instr → BitVec 10
  | .iadd _ => 0x001
  | .isub _ => 0x002
  | .imul _ => 0x003
  | .imulh _ => 0x004
  | .imad _ => 0x005
  | .idiv _ => 0x006
  | .irem _ => 0x007
  | .imin _ => 0x008
  | .imax _ => 0x009
  | .iabs _ => 0x00A
  | .ineg _ => 0x00B
  | .land _ => 0x00C
  | .lor _ => 0x00D
  | .lxor _ => 0x00E
  | .lnot _ => 0x00F
  | .shl _ => 0x010
  | .shr _ => 0x011
  | .sra _ => 0x012
  | .rotl _ => 0x013
  | .bfx _ => 0x014
  | .bfi _ => 0x015
  | .popc _ => 0x016
  | .clz _ => 0x017
  | .brev _ => 0x018
  | .icmp _ => 0x019
  | .sel _ => 0x01A
  | .mov _ => 0x01B
  | .lea _ => 0x01C
  | .iaddi _ => 0x01D
  | .movi _ => 0x01E
  | .icmpi _ => 0x01F
  | .andi _ => 0x020
  | .ori _ => 0x021
  | .xori _ => 0x022
  | .pand _ => 0x081
  | .por _ => 0x082
  | .pxor _ => 0x083
  | .pnot _ => 0x084
  | .p2s _ => 0x085
  | .s2p _ => 0x086
  | .shfl _ => 0x087
  | .voteAll _ => 0x088
  | .voteAny _ => 0x088
  | .voteUni _ => 0x088
  | .voteBallot _ => 0x088
  | .matchAny _ => 0x089
  | .matchAll _ => 0x089
  | .redux _ => 0x08A
  | .scan _ => 0x08B
  | .elect _ => 0x08C
  | .regacq _ => 0x08D
  | .regrel _ => 0x08E
  | .fectlTest _ => 0x08F
  | .fectlWait _ => 0x08F
  | .fectlCancel _ => 0x08F
  | .fadd _ => 0x101
  | .fsub _ => 0x102
  | .fmul _ => 0x103
  | .ffma _ => 0x104
  | .fmin _ => 0x105
  | .fmax _ => 0x106
  | .fsgn _ => 0x107
  | .fcmp _ => 0x108
  | .fclass _ => 0x109
  | .fdiv _ => 0x10A
  | .fsqrt _ => 0x10B
  | .fex2 _ => 0x10C
  | .flg2 _ => 0x10D
  | .frcpa _ => 0x10E
  | .frsqa _ => 0x10F
  | .cvt _ => 0x181
  | .pack _ => 0x182
  | .unpack _ => 0x183
  | .bquant _ => 0x184
  | .rand _ => 0x185
  | .split _ => 0x186
  | .sample _ => 0x187
  | .topk _ => 0x188
  | .gmbind _ => 0x189
  | .gmstep _ => 0x18A
  | .gmfetch _ => 0x18B
  | .gmstkSpill _ => 0x18C
  | .gmstkFill _ => 0x18C
  | .gmstkRd _ => 0x18C
  | .ld _ => 0x201
  | .st _ => 0x202
  | .atom _ => 0x203
  | .red _ => 0x204
  | .fenceAcq _ => 0x205
  | .fenceRel _ => 0x205
  | .fenceAr _ => 0x205
  | .copy _ => 0x281
  | .copyc _ => 0x282
  | .streamF _ => 0x283
  | .streamD _ => 0x283
  | .srelF _ => 0x284
  | .srelD _ => 0x284
  | .gather _ => 0x285
  | .waitcnt _ => 0x286
  | .monarm _ => 0x287
  | .monwait _ => 0x288
  | .bar _ => 0x289
  | .cset _ => 0x28A
  | .trigger _ => 0x28B
  | .waitDep _ => 0x28C
  | .task _ => 0x28D
  | .taskDone _ => 0x28D
  | .dqpost _ => 0x28E
  | .dqtake _ => 0x28F
  | .dqsteal _ => 0x290
  | .qsubmit _ => 0x291
  | .pooltake _ => 0x292
  | .poolgive _ => 0x293
  | .coll _ => 0x294
  | .bra _ => 0x301
  | .brx _ => 0x302
  | .call _ => 0x303
  | .callx _ => 0x304
  | .ret _ => 0x305
  | .exit _ => 0x306
  | .nop _ => 0x30E
  | .region _ => 0x307
  | .switchpt _ => 0x308
  | .trap _ => 0x309
  | .brk _ => 0x30D
  | .trapret _ => 0x30A
  | .sread _ => 0x30B
  | .swrite _ => 0x30C
  | .shape _ => 0x381
  | .fmtwin _ => 0x382
  | .mma _ => 0x383
  | .aclr _ => 0x384
  | .aload _ => 0x385
  | .adrain _ => 0x386
  | .pass _ => 0x387
  | .seal _ => 0x388
  | .lres _ => 0x389
  | .lhold _ => 0x38A
  | .ldrop _ => 0x38B
  | _ => 0

namespace Encode

/-- The word of a format A instruction (R179). -/
def fmtA (o : BitVec 10) (f : FmtA) : Code :=
  (0#7 ++ f.sub ++ f.fx ++ f.pd ++ f.ty2.code ++ f.sat ++ f.rnd ++ f.ty.code ++ f.c.code ++ BitVec.ofBool f.fc ++ f.b.code ++ BitVec.ofBool f.fb ++ f.a.code ++ BitVec.ofBool f.fa ++ f.d.code ++ BitVec.ofBool f.g.gn ++ f.g.gp ++ o : BitVec 96)

/-- The word of a format B instruction (R180). -/
def fmtB (o : BitVec 10) (f : FmtB) : Code :=
  (0#7 ++ f.sub ++ f.pd ++ f.rnd ++ f.ty.code ++ f.imm ++ f.a.code ++ BitVec.ofBool f.fa ++ f.d.code ++ BitVec.ofBool f.g.gn ++ f.g.gp ++ o : BitVec 96)

/-- The word of a format M instruction (R181). -/
def fmtM (o : BitVec 10) (f : FmtM) : Code :=
  (0#1 ++ f.w ++ BitVec.ofBool f.fm ++ f.pol ++ f.ord ++ f.qn ++ f.sp ++ f.aop ++ f.ofs ++ f.c.code ++ BitVec.ofBool f.fc ++ f.b.code ++ BitVec.ofBool f.fb ++ f.a.code ++ BitVec.ofBool f.fa ++ f.d.code ++ BitVec.ofBool f.g.gn ++ f.g.gp ++ o : BitVec 96)

/-- The word of a format E instruction (R182). -/
def fmtE (o : BitVec 10) (f : FmtE) : Code :=
  (0#1 ++ f.sub ++ f.fx ++ f.pd ++ f.imm8 ++ f.cls ++ f.scp ++ f.cv ++ f.c.code ++ BitVec.ofBool f.fc ++ f.b.code ++ BitVec.ofBool f.fb ++ f.a.code ++ BitVec.ofBool f.fa ++ f.d.code ++ BitVec.ofBool f.g.gn ++ f.g.gp ++ o : BitVec 96)

/-- The word of a format C instruction (R183). -/
def fmtC (o : BitVec 10) (f : FmtC) : Code :=
  (0#20 ++ f.sub ++ f.offs ++ f.a.code ++ BitVec.ofBool f.fa ++ f.d.code ++ BitVec.ofBool f.g.gn ++ f.g.gp ++ o : BitVec 96)

/-- The word of a format G instruction (R184). -/
def fmtG (o : BitVec 10) (f : FmtG) : Code :=
  (0#1 ++ f.bay ++ f.li ++ f.ws ++ BitVec.ofBool f.g.gn ++ f.g.gp ++ o : BitVec 96)

/-- The word of a format S instruction (R185). -/
def fmtS (o : BitVec 10) (f : FmtS) : Code :=
  (0#24 ++ f.sub ++ f.imm16 ++ f.fx ++ f.srn ++ f.a.code ++ BitVec.ofBool f.fa ++ f.d.code ++ BitVec.ofBool f.g.gn ++ f.g.gp ++ o : BitVec 96)

/-- The word of a format X instruction (R186). -/
def fmtX (o : BitVec 10) (f : FmtX) : Code :=
  (f.sat ++ f.rnd ++ f.ty.code ++ f.dst ++ f.act ++ f.kc ++ f.spb ++ f.spa ++ BitVec.ofBool f.skp ++ BitVec.ofBool f.sg ++ f.cv ++ f.c.code ++ BitVec.ofBool f.fc ++ f.b.code ++ BitVec.ofBool f.fb ++ f.a.code ++ BitVec.ofBool f.fa ++ f.d.code ++ BitVec.ofBool f.g.gn ++ f.g.gp ++ o : BitVec 96)

end Encode

/-- The word of an instruction; an event has no word. -/
def encode (i : Instr) : Option Code :=
  match i.body with
  | .a f => some (Encode.fmtA i.opc f)
  | .b f => some (Encode.fmtB i.opc f)
  | .m f => some (Encode.fmtM i.opc f)
  | .e f => some (Encode.fmtE i.opc f)
  | .c f => some (Encode.fmtC i.opc f)
  | .g f => some (Encode.fmtG i.opc f)
  | .s f => some (Encode.fmtS i.opc f)
  | .x f => some (Encode.fmtX i.opc f)
  | .event => none

/-- The bytes of a slot (R1, R167). -/
def encodeBytes (w : Code) : List Byte := leBytes 12 w.toNat

/-! ## Fetch lines (R167–R169) -/

/-- Number of ones modulo 2. -/
def oddOnes (x : Nat) : Nat → Bool
  | 0 => false
  | n + 1 => xor (x.testBit n) (oddOnes x n)

/-- The line word of a 64-byte line held as a number (R167). -/
def lineWord (line : Nat) : Nat := bits line 480 32

/-- The 96 bits of a slot. -/
def lineSlot (line slot : Nat) : Code := BitVec.ofNat 96 (line >>> (96 * slot))

/-- Do the reserved bits of the line word hold zero, and `LWP` keep bits 29:0 even (R167)? -/
def lineWordOk (line : Nat) : Bool :=
  let lw := lineWord line
  bits lw 30 2 == 0 && bits lw 9 15 == 0 && !oddOnes lw 30

/-- Does the slot's parity bit keep its 96 bits even (R167)? -/
def slotOk (line slot : Nat) : Bool :=
  !(xor (oddOnes (line >>> (96 * slot)) 96) ((lineWord line).testBit (24 + slot)))

/-- `TGT`: is the slot a legal branch target (R167)? -/
def slotTarget (line slot : Nat) : Bool := (lineWord line).testBit slot

/-- `PAIR`: may slots `i` and `i + 1` issue together (R167)? -/
def slotPair (line i : Nat) : Bool := i < 4 && (lineWord line).testBit (5 + i)

/-- The line word that makes a line whole: parity bits from the slots and the given `TGT` and `PAIR` (R167). -/
def makeLine (slots : List Code) (tgt pair : Nat) : Nat :=
  let body := (List.range 5).foldl (fun n i => n + (slots.getD i 0).toNat * 2 ^ (96 * i)) 0
  let slp := (List.range 5).foldl
    (fun n i => if oddOnes (slots.getD i 0).toNat 96 then n + 2 ^ (24 + i) else n) 0
  let lw := tgt + pair * 32 + slp
  body + (if oddOnes lw 29 then lw + 2 ^ 29 else lw) * 2 ^ 480

/-- Slot index of a slot address (R169). -/
def slotIndex (pc : Nat) : Nat := (pc / 64) * 5 + (pc % 64) / 12

/-- Address of a slot index (R169). -/
def slotAddr (t : Nat) : Nat := (t / 5) * 64 + (t % 5) * 12

/-- Is an address a slot's (R169)? -/
def isSlot (a : Nat) : Bool := a % 64 % 12 == 0 && decide (a % 64 ≤ 48)

end Sys2Proof
end

