-- ==== Sys2Proof/Machine/Numbers.lean ====
section
/-! DEFINITION. Number formats and exact arithmetic (05_numbers R84–R98): values as exact dyadic numbers, decoding and
rounding of every format, flags, and the exact results that the floating-point instructions round. -/

namespace Sys2Proof.Machine

/-- `FSTAT` bits (R28, R97). -/
abbrev Flags := BitVec 6
def Flags.none : Flags := 0
def Flags.invalid : Flags := 1
def Flags.divZero : Flags := 2
def Flags.overflow : Flags := 4
def Flags.underflow : Flags := 8
def Flags.inexact : Flags := 16
def Flags.snan : Flags := 32
/-- A flag that is raised when a condition holds. -/
def Flags.when (c : Bool) (f : Flags) : Flags := if c then f else 0

/-- An exact value: a NaN (signalling or not), an infinity, or a number `m * 2^e` with its sign. -/
inductive Num where
  | nan (sig : Bool)
  | inf (neg : Bool)
  | fin (neg : Bool) (m : Nat) (e : Int)
deriving DecidableEq, Repr

/-- Width of a format in bits. -/
def fmtBits : Fmt → Nat
  | .f64 | .i64 | .n64 => 64
  | .f32 | .i32 | .n32 => 32
  | .f16 | .bf16 | .i16 | .n16 => 16
  | .i8 | .n8 | .b8 _ _ _ => 8

def fmtIsB8 : Fmt → Bool
  | .b8 _ _ _ => true
  | _ => false

/-- The IEEE formats, `bf16` among them (R85). -/
def fmtIsIeee : Fmt → Bool
  | .f64 | .f32 | .f16 | .bf16 => true
  | _ => false

def fmtIsFloat (f : Fmt) : Bool := fmtIsIeee f || fmtIsB8 f

def fmtSigned : Fmt → Bool
  | .i8 | .i16 | .i32 | .i64 => true
  | _ => false

def fmtIsInt : Fmt → Bool
  | .i8 | .i16 | .i32 | .i64 | .n8 | .n16 | .n32 | .n64 => true
  | _ => false

/-- Precision: significant bits of a format with an exponent (R85, R88). -/
def fmtPrec : Fmt → Nat
  | .f64 => 53 | .f32 => 24 | .f16 => 11 | .bf16 => 8
  | .b8 _ _ p => p.toNat
  | _ => 0

/-- Exponent width of a binary8 format (R88). -/
def b8Width (uns : Bool) (p : BitVec 3) : Nat := (if uns then 9 else 8) - p.toNat

/-- Bias (R85, R88). -/
def fmtBias : Fmt → Nat
  | .f64 => 1023 | .f32 => 127 | .f16 => 15 | .bf16 => 127
  | .b8 uns _ p => 2 ^ (b8Width uns p - 1)
  | _ => 0

/-- Exponent of the spacing of subnormal values. -/
def fmtQmin (f : Fmt) : Int := 1 - (fmtBias f : Int) - ((fmtPrec f : Int) - 1)

/-- The largest code magnitude of a finite value (R85, R89). -/
def fmtMaxMag : Fmt → Nat
  | .f64 => 0x7FEFFFFFFFFFFFFF | .f32 => 0x7F7FFFFF | .f16 => 0x7BFF | .bf16 => 0x7F7F
  | .b8 false false _ => 0x7F | .b8 false true _ => 0x7E
  | .b8 true false _ => 0xFE | .b8 true true _ => 0xFD
  | _ => 0

/-- Is the format's sign bit the top bit of its code? -/
def fmtHasSign : Fmt → Bool
  | .b8 uns _ _ => !uns
  | _ => true

/-- The value of a code magnitude of a format with an exponent (R85, R88). -/
def magValue (f : Fmt) (neg : Bool) (mag : Nat) : Num :=
  let t := fmtPrec f - 1
  let e := mag / 2 ^ t
  let fr := mag % 2 ^ t
  if e = 0 then .fin neg fr (fmtQmin f)
  else .fin neg (2 ^ t + fr) (fmtQmin f + (e : Int) - 1)

/-- Default NaN of a format (R86, R88). -/
def fmtNan : Fmt → Nat
  | .f64 => 0x7FF8000000000000 | .f32 => 0x7FC00000 | .f16 => 0x7E00 | .bf16 => 0x7FC0
  | .b8 uns _ _ => if uns then 0xFF else 0x80
  | _ => 0

/-- Magnitude code of infinity of a format that has one. -/
def fmtInfMag : Fmt → Nat
  | .f64 => 0x7FF0000000000000 | .f32 => 0x7F800000 | .f16 => 0x7C00 | .bf16 => 0x7F80
  | .b8 uns _ _ => if uns then 0xFE else 0x7F
  | _ => 0

/-- The code of a magnitude and a sign; a binary8 zero has no sign (R88). -/
def withSign (f : Fmt) (neg : Bool) (mag : Nat) : Nat :=
  if neg && fmtHasSign f && !(fmtIsB8 f && mag == 0) then mag + 2 ^ (fmtBits f - 1) else mag

/-- The integer that the low bits of a number hold, read as the format directs. -/
def asInt (f : Fmt) (x : Nat) : Int :=
  let w := fmtBits f
  let y := x % 2 ^ w
  if fmtSigned f && decide (2 ^ (w - 1) ≤ y) then (y : Int) - 2 ^ w else y

/-- Decodes an element of any format (R85, R87, R88). -/
def numOf (f : Fmt) (code : Nat) : Num :=
  let x := code % 2 ^ fmtBits f
  match f with
  | .b8 uns ext _ =>
    if uns then
      if x = 0xFF then .nan false
      else if ext && x == 0xFE then .inf false
      else magValue f false x
    else
      if x = 0x80 then .nan false
      else if ext && x % 128 == 0x7F then .inf (decide (128 ≤ x))
      else magValue f (decide (128 ≤ x)) (x % 128)
  | _ =>
    if fmtIsIeee f then
      let w := fmtBits f
      let neg := decide (2 ^ (w - 1) ≤ x)
      let mag := x % 2 ^ (w - 1)
      if fmtInfMag f < mag then .nan (!(mag.testBit (fmtPrec f - 2)))
      else if mag = fmtInfMag f then .inf neg
      else magValue f neg mag
    else
      let i := asInt f x
      .fin (decide (i < 0)) i.natAbs 0

/-- A finite number as an integer at a scale: `v = n * 2^s`. -/
def Num.atScale (neg : Bool) (m : Nat) (e s : Int) : Int :=
  let n : Int := (m * 2 ^ (e - s).toNat : Nat)
  if neg then -n else n

/-- The number of an integer at a scale; an exact zero sum takes `zneg` as its sign. -/
def Num.ofScaled (n s : Int) (zneg : Bool) : Num :=
  if n = 0 then .fin zneg 0 0 else .fin (decide (n < 0)) n.natAbs s

def Num.isNan : Num → Bool
  | .nan _ => true
  | _ => false

def Num.isSig : Num → Bool
  | .nan s => s
  | _ => false

def Num.isZero : Num → Bool
  | .fin _ 0 _ => true
  | _ => false

def Num.neg : Num → Num
  | .nan s => .nan s
  | .inf n => .inf (!n)
  | .fin n m e => .fin (!n) m e

def Num.abs : Num → Num
  | .nan s => .nan s
  | .inf _ => .inf false
  | .fin _ m e => .fin false m e

def Num.sign : Num → Bool
  | .nan _ => false
  | .inf n => n
  | .fin n _ _ => n

/-- Exact sum; `none` when it is invalid (R229). `rdn` decides the sign of an exact zero (R94). -/
def Num.add (a b : Num) (rdn : Bool) : Option Num :=
  match a, b with
  | .nan _, _ | _, .nan _ => some (.nan false)
  | .inf x, .inf y => if x = y then some (.inf x) else none
  | .inf x, _ => some (.inf x)
  | _, .inf y => some (.inf y)
  | .fin n1 m1 e1, .fin n2 m2 e2 =>
    if m1 = 0 ∧ m2 = 0 then some (.fin (if n1 = n2 then n1 else rdn) 0 0)
    else
      let s := min e1 e2
      some (Num.ofScaled (Num.atScale n1 m1 e1 s + Num.atScale n2 m2 e2 s) s rdn)

/-- Exact product; `none` when it is invalid. -/
def Num.mul (a b : Num) : Option Num :=
  match a, b with
  | .nan _, _ | _, .nan _ => some (.nan false)
  | .inf x, y => if y.isZero then none else some (.inf (xor x y.sign))
  | x, .inf y => if x.isZero then none else some (.inf (xor x.sign y))
  | .fin n1 m1 e1, .fin n2 m2 e2 => some (.fin (xor n1 n2) (m1 * m2) (e1 + e2))

/-- Compares two values that are no NaN; −0 equals +0. -/
def Num.cmp (a b : Num) : Ordering :=
  match a, b with
  | .nan _, _ | _, .nan _ => .eq
  | .inf x, .inf y => if x = y then .eq else if x then .lt else .gt
  | .inf x, _ => if x then .lt else .gt
  | _, .inf y => if y then .gt else .lt
  | .fin n1 m1 e1, .fin n2 m2 e2 =>
    let s := min e1 e2
    compare (Num.atScale n1 m1 e1 s) (Num.atScale n2 m2 e2 s)

/-- `a < b`, neither a NaN. -/
def Num.lt (a b : Num) : Bool := a.cmp b == .lt
def Num.le (a b : Num) : Bool := a.cmp b != .gt

/-! ## Rounding (R94, R95) -/

/-- A magnitude to be rounded: `m * 2^e`, or, with `st`, an irrational value strictly between `m` and `m + 1`
times `2^e` with `e` far below the target's spacing. -/
structure Mag where
  m : Nat
  e : Int
  st : Bool
deriving DecidableEq, Repr

/-- Does rounding move away from zero? `r / 2^sh` is the part below the spacing, `odd` the parity of the code next
toward zero (R94: ties to the code with bit 0 clear), `word` the draw (R95). -/
def roundsUp (mode : Nat) (neg : Bool) (odd : Bool) (r sh : Nat) (st : Bool) (word : Nat) : Bool :=
  let inex := r != 0 || st
  let cmp := compare (2 * r) (2 ^ sh)
  match mode with
  | 0 => cmp == .gt || (cmp == .eq && (st || odd))
  | 1 => false
  | 2 => inex && !neg
  | 3 => inex && neg
  | 4 => cmp != .lt
  | _ => decide (word < r * 2 ^ 32 / 2 ^ sh)

/-- The multiple of `2^q` that a magnitude rounds to, and whether it is inexact. `base` is added to the multiple to
give the parity of the code. -/
def roundAt (mode : Nat) (neg : Bool) (x : Mag) (q : Int) (base word : Nat) : Nat × Bool :=
  if q ≤ x.e then (x.m * 2 ^ (x.e - q).toNat, x.st)
  else
    let sh := (q - x.e).toNat
    let k := x.m / 2 ^ sh
    let r := x.m % 2 ^ sh
    (if roundsUp mode neg ((k + base) % 2 == 1) r sh x.st word then k + 1 else k, r != 0 || x.st)

/-- Exponent of the leading bit of a nonzero magnitude. -/
def Mag.top (x : Mag) : Int := x.e + (Nat.log2 x.m : Int)

/-- Rounds to a format with an exponent, the range unbounded above: the code magnitude it would have, and whether it
is inexact (R94). -/
def roundMag (f : Fmt) (mode : Nat) (neg : Bool) (x : Mag) (word : Nat) : Nat × Bool :=
  if x.m = 0 ∧ x.st = false then (0, false)
  else
    let q := max (x.top - ((fmtPrec f : Int) - 1)) (fmtQmin f)
    let base := (q - fmtQmin f).toNat * 2 ^ (fmtPrec f - 1)
    let (k, inex) := roundAt mode neg x q base word
    (base + k, inex)

/-- Tiny (R97): below the smallest normal magnitude when rounded to the precision with an unbounded exponent. -/
def isTiny (f : Fmt) (mode : Nat) (neg : Bool) (x : Mag) (word : Nat) : Bool :=
  if x.m = 0 then x.st
  else
    let q := x.top - ((fmtPrec f : Int) - 1)
    let (k, _) := roundAt mode neg x q ((q - fmtQmin f).natAbs * 2 ^ (fmtPrec f - 1)) word
    decide (q + (Nat.log2 k : Int) < 1 - (fmtBias f : Int))

/-- Does a mode round an overflowing magnitude to the largest finite value (R96, IEEE 754)? Log 20 for `sr`. -/
def overflowToMax (mode : Nat) (neg : Bool) : Bool :=
  match mode with
  | 1 => true
  | 2 => neg
  | 3 => !neg
  | _ => false

/-- Rounds a magnitude to an IEEE format: the code and the flags (R94, R97). -/
def roundIeee (f : Fmt) (mode : Nat) (neg : Bool) (x : Mag) (word : Nat) : Nat × Flags :=
  let (mag, inex) := roundMag f mode neg x word
  if fmtMaxMag f < mag then
    (withSign f neg (if overflowToMax mode neg then fmtMaxMag f else fmtInfMag f),
      Flags.overflow ||| Flags.inexact)
  else
    (withSign f neg mag,
      Flags.when inex Flags.inexact |||
        Flags.when (inex && isTiny f mode neg x word) Flags.underflow)

/-- Conversion to a binary8 format under a saturation mode, rows in order (R96): 1 `sat`, 2 `satnan`, 3 `ovf`. -/
def roundB8 (f : Fmt) (mode sat : Nat) (v : Num) (st : Bool) (word : Nat) : Nat × Flags :=
  let uns := !fmtHasSign f
  let ext := match f with
    | .b8 _ e _ => e
    | _ => false
  let maxc (neg : Bool) := withSign f neg (fmtMaxMag f)
  let infc (neg : Bool) := withSign f neg (fmtInfMag f)
  match v with
  | .nan sig => if sat = 1 then (0, Flags.invalid) else (fmtNan f, Flags.when sig Flags.invalid)
  | .inf neg =>
    if uns && neg then (if sat = 3 then fmtNan f else 0, Flags.invalid)
    else if sat = 3 then if ext then (infc neg, 0) else (fmtNan f, Flags.invalid)
    else (maxc neg, Flags.overflow ||| Flags.inexact)
  | .fin neg m e =>
    let x : Mag := ⟨m, e, st⟩
    let (mag, inex) := roundMag f mode neg x word
    if uns && neg && mag != 0 then (if sat = 3 then fmtNan f else 0, Flags.invalid)
    else if fmtMaxMag f < mag then
      let fl := Flags.overflow ||| Flags.inexact
      if sat = 3 && !overflowToMax mode neg then
        if ext then (infc neg, fl) else (fmtNan f, fl ||| Flags.invalid)
      else (maxc neg, fl)
    else if m = 0 ∧ st = false then (0, 0)
    else if mag = 0 then (0, Flags.underflow ||| Flags.inexact)
    else
      (withSign f neg mag,
        Flags.when inex Flags.inexact |||
          Flags.when (inex && isTiny f mode neg x word) Flags.underflow)

/-- Least value of an integer format. -/
def intLo (f : Fmt) : Int := if fmtSigned f then -(2 ^ (fmtBits f - 1)) else 0
/-- Greatest value of an integer format. -/
def intHi (f : Fmt) : Int := if fmtSigned f then 2 ^ (fmtBits f - 1) - 1 else 2 ^ fmtBits f - 1

/-- The low bits of an integer (R87: wraps). -/
def wrapTo (w : Nat) (i : Int) : Nat := (i % (2 ^ w : Int)).toNat

/-- Conversion to an integer format: nearest bound and invalid out of range, 0 and invalid for NaN (R96). -/
def roundInt (f : Fmt) (mode : Nat) (v : Num) (st : Bool) (word : Nat) : Nat × Flags :=
  let bound (neg : Bool) := wrapTo (fmtBits f) (if neg then intLo f else intHi f)
  match v with
  | .nan _ => (0, Flags.invalid)
  | .inf neg => (bound neg, Flags.invalid)
  | .fin neg m e =>
    let (k, inex) := roundAt mode neg ⟨m, e, st⟩ 0 0 word
    let i : Int := if neg then -(k : Int) else k
    if i < intLo f ∨ intHi f < i then (bound neg, Flags.invalid)
    else (wrapTo (fmtBits f) i, Flags.when inex Flags.inexact)

/-- Rounds an exact value, or one with a sticky part, to any format. NaN results are quiet here. -/
def roundTo (f : Fmt) (mode sat : Nat) (v : Num) (st : Bool) (word : Nat) : Nat × Flags :=
  if fmtIsInt f then roundInt f mode v st word
  else if fmtIsB8 f then roundB8 f mode sat v st word
  else
    match v with
    | .nan sig => (fmtNan f, Flags.when sig Flags.invalid)
    | .inf neg => (withSign f neg (fmtInfMag f), 0)
    | .fin neg m e => roundIeee f mode neg ⟨m, e, st⟩ word

/-- Converts a code of one format to another: R235, with R86 and R96 for NaNs. Integer to integer is `convInt`. -/
def convert (ty ty2 : Fmt) (mode sat : Nat) (code word : Nat) : Nat × Flags :=
  let v := numOf ty2 code
  if ty = ty2 ∧ fmtIsFloat ty = true then
    match v with
    | .nan _ => roundTo ty mode sat v false word
    | _ => (code % 2 ^ fmtBits ty, 0)
  else roundTo ty mode sat v false word

/-- Integer to integer: wraps, or with `clip` takes the nearest bound (R235). -/
def convInt (ty ty2 : Fmt) (clip : Bool) (code : Nat) : Nat :=
  let i := asInt ty2 code
  wrapTo (fmtBits ty) (if clip then min (max i (intLo ty)) (intHi ty) else i)

/-- Can a format hold an inline constant exactly (R174)? -/
def constFits (f : Fmt) (c : BitVec 6) : Bool :=
  if fmtIsB8 f then (roundB8 f 0 1 (.fin (decide (c.toInt < 0)) c.toInt.natAbs 0) false 0).2 == 0 else true

/-- The code of an inline constant in a format: sign-extended, or converted exactly (R174). -/
def constCode (f : Fmt) (c : BitVec 6) : Nat :=
  if fmtIsFloat f then (roundTo f 0 1 (.fin (decide (c.toInt < 0)) c.toInt.natAbs 0) false 0).1
  else wrapTo (fmtBits f) c.toInt

/-! ## Exact results of the floating-point instructions (R229–R234) -/

/-- Rounds the result of an arithmetic instruction in an IEEE format. An invalid operation gives the default NaN and
the invalid flag; a NaN operand gives the default NaN, and invalid if it signals (R86, R97). -/
def finish (f : Fmt) (mode word : Nat) (ops : List Num) (x : Option Num) (st : Bool) : Nat × Flags :=
  let sig := Flags.when (ops.any Num.isSig) Flags.invalid
  match x with
  | none => (fmtNan f, Flags.invalid)
  | some v =>
    if ops.any Num.isNan then (fmtNan f, sig)
    else roundTo f mode 0 v st word

/-- `fadd`, `fsub` (R229). -/
def fpAdd (f : Fmt) (mode word : Nat) (sub : Bool) (a b : Nat) : Nat × Flags :=
  let x := numOf f a
  let y := numOf f b
  finish f mode word [x, y] (x.add (if sub then y.neg else y) (mode == 3)) false

/-- `fmul` (R229). -/
def fpMul (f : Fmt) (mode word : Nat) (a b : Nat) : Nat × Flags :=
  let x := numOf f a
  let y := numOf f b
  finish f mode word [x, y] (x.mul y) false

/-- `ffma` (R229): the product is exact. An invalid product raises invalid whatever `c` is. -/
def fpFma (f : Fmt) (mode word : Nat) (na nc : Bool) (a b c : Nat) : Nat × Flags :=
  let x := numOf f a
  let y := numOf f b
  let z := numOf f c
  let z' := if nc then z.neg else z
  match x.mul y with
  | none => (fmtNan f, Flags.invalid)
  | some p => finish f mode word [x, y, z] ((if na then p.neg else p).add z' (mode == 3)) false

/-- `fmin`, `fmax` in the `num` or the `nan` form (R230). -/
def fpMinMax (f : Fmt) (isMax nanForm : Bool) (a b : Nat) : Nat × Flags :=
  let x := numOf f a
  let y := numOf f b
  let fl := Flags.when (x.isSig || y.isSig) Flags.invalid
  let a' := a % 2 ^ fmtBits f
  let b' := b % 2 ^ fmtBits f
  if x.isNan && y.isNan then (fmtNan f, fl)
  else if x.isNan then (if nanForm then fmtNan f else b', fl)
  else if y.isNan then (if nanForm then fmtNan f else a', fl)
  else
    let aLess := match x.cmp y with
      | .lt => true
      | .gt => false
      | .eq => x.sign || !y.sign
    (if xor aLess isMax then a' else b', 0)

/-- Position of the highest set bit search for the integer square root: `n` bits remain to be tried. -/
def isqrtFrom (x : Nat) : Nat → Nat → Nat
  | 0, r => r
  | n + 1, r =>
    let t := r + 2 ^ n
    isqrtFrom x n (if t * t ≤ x then t else r)

/-- Integer square root. -/
def isqrt (x : Nat) : Nat := isqrtFrom x (Nat.log2 x / 2 + 1) 0

/-- The quotient of two nonzero magnitudes to 160 significant bits or more, with its sticky part. -/
def magDiv (m1 : Nat) (e1 : Int) (m2 : Nat) (e2 : Int) : Mag :=
  let s := 160 + Nat.log2 m2
  let n := m1 * 2 ^ s
  ⟨n / m2, e1 - e2 - s, n % m2 != 0⟩

/-- The square root of a nonzero magnitude, with its sticky part. -/
def magSqrt (m : Nat) (e : Int) : Mag :=
  let s : Nat := if e % 2 = 0 then 320 else 321
  let n := m * 2 ^ s
  let r := isqrt n
  ⟨r, (e - s) / 2, r * r != n⟩

/-- `fdiv` (R234). -/
def fpDiv (f : Fmt) (mode word : Nat) (a b : Nat) : Nat × Flags :=
  let x := numOf f a
  let y := numOf f b
  let sgn := xor x.sign y.sign
  let sig := Flags.when (x.isSig || y.isSig) Flags.invalid
  match x, y with
  | .nan _, _ | _, .nan _ => (fmtNan f, sig)
  | .inf _, .inf _ => (fmtNan f, Flags.invalid)
  | .inf _, _ => (withSign f sgn (fmtInfMag f), 0)
  | _, .inf _ => (withSign f sgn 0, 0)
  | .fin _ m1 e1, .fin _ m2 e2 =>
    if m2 = 0 then
      if m1 = 0 then (fmtNan f, Flags.invalid) else (withSign f sgn (fmtInfMag f), Flags.divZero)
    else if m1 = 0 then (withSign f sgn 0, 0)
    else roundIeee f mode sgn (magDiv m1 e1 m2 e2) word

/-- `fsqrt` (R234). -/
def fpSqrt (f : Fmt) (mode word : Nat) (a : Nat) : Nat × Flags :=
  match numOf f a with
  | .nan s => (fmtNan f, Flags.when s Flags.invalid)
  | .inf neg => if neg then (fmtNan f, Flags.invalid) else (fmtInfMag f, 0)
  | .fin neg m e =>
    if m = 0 then (withSign f neg 0, 0)
    else if neg then (fmtNan f, Flags.invalid)
    else roundIeee f mode false (magSqrt m e) word

/-- ⌊ln 2 × 2^384⌋. -/
def ln2Fixed : Nat := 0xb17217f7d1cf79abc9e3b39803f2f6af40f343267298b62d8a0d175b8baafa2be7b876206debac98559552fb4afa1b10

/-- The terms of the exponential series at a fixed point of 384 bits: term `k` from term `k - 1`. -/
def expTerms (t : Nat) : Nat → Nat → Nat → Nat → Nat
  | 0, _, _, acc => acc
  | n + 1, k, term, acc =>
    let next := term * t / 2 ^ 384 / k
    expTerms t n (k + 1) next (acc + next)

/-- `2^x` for a finite `x` that is no integer: an integer part and 384 bits of the power of the fraction. Log 21. -/
def magExp2 (neg : Bool) (m : Nat) (e : Int) : Mag :=
  let v := Num.atScale neg m e (min e 0)
  let d : Int := 2 ^ (min e 0).natAbs
  let n := v / d
  let fr := (v % d).toNat
  if n < -20000 then ⟨1, -20000, true⟩
  else if 20000 < n then ⟨1, 20000, true⟩
  else
    let t := fr * ln2Fixed / d.toNat
    ⟨expTerms t 96 1 (2 ^ 384) (2 ^ 384), n - 384, true⟩

/-- Is a finite number an integer, and which? -/
def Num.asInteger (neg : Bool) (m : Nat) (e : Int) : Option Int :=
  if 0 ≤ e then some (Num.atScale neg m e 0)
  else if m % 2 ^ e.natAbs = 0 then
    some (if neg then -((m / 2 ^ e.natAbs : Nat) : Int) else (m / 2 ^ e.natAbs : Nat))
  else none

/-- `fex2` (R98, R234). -/
def fpExp2 (f : Fmt) (mode word : Nat) (a : Nat) : Nat × Flags :=
  match numOf f a with
  | .nan s => (fmtNan f, Flags.when s Flags.invalid)
  | .inf neg => if neg then (0, 0) else (fmtInfMag f, 0)
  | .fin neg m e =>
    match Num.asInteger neg m e with
    | some n => roundIeee f mode false ⟨1, min (max n (-20000)) 20000, false⟩ word
    | none => roundIeee f mode false (magExp2 neg m e) word

/-- Binary digits of log2 of a fixed-point number in [1, 2) with `w` fraction bits, by repeated squaring. -/
def log2Digits (w : Nat) : Nat → Nat → Nat → Nat
  | 0, _, acc => acc
  | n + 1, x, acc =>
    let y := x * x / 2 ^ w
    if 2 ^ (w + 1) ≤ y then log2Digits w n (y / 2) (2 * acc + 1)
    else log2Digits w n y (2 * acc)

/-- `flg2` (R98, R234). Log 21. -/
def fpLog2 (f : Fmt) (mode word : Nat) (a : Nat) : Nat × Flags :=
  match numOf f a with
  | .nan s => (fmtNan f, Flags.when s Flags.invalid)
  | .inf neg => if neg then (fmtNan f, Flags.invalid) else (fmtInfMag f, 0)
  | .fin neg m e =>
    if m = 0 then (withSign f true (fmtInfMag f), Flags.divZero)
    else if neg then (fmtNan f, Flags.invalid)
    else
      let top := Nat.log2 m
      let n : Int := e + top
      if m = 2 ^ top then
        roundTo f mode 0 (.fin (decide (n < 0)) n.natAbs 0) false word
      else
        let digits := log2Digits 640 200 (m * 2 ^ 640 / 2 ^ top) 0
        let v : Int := n * 2 ^ 200 + digits
        if v < 0 then roundIeee f mode true ⟨v.natAbs - 1, -200, true⟩ word
        else roundIeee f mode false ⟨v.natAbs, -200, true⟩ word

/-- The rounding of `frcpa` and `frsqa`: min(12, p) bits with the exponent unbounded, then the range (R98, R234). -/
def roundApprox (f : Fmt) (neg : Bool) (x : Mag) : Nat × Flags :=
  let q := x.top - ((min 12 (fmtPrec f) : Nat) - 1 : Int)
  let (k, inex) := roundAt 0 neg x q 0 0
  let y : Mag := ⟨k, q, false⟩
  let (mag, inex2) := roundMag f 0 neg y 0
  if fmtMaxMag f < mag then (withSign f neg (fmtInfMag f), Flags.overflow ||| Flags.inexact)
  else
    (withSign f neg mag,
      Flags.when (inex || inex2) Flags.inexact ||| Flags.when inex2 Flags.underflow)

/-- `frcpa` (R234). -/
def fpRcpA (f : Fmt) (a : Nat) : Nat × Flags :=
  match numOf f a with
  | .nan s => (fmtNan f, Flags.when s Flags.invalid)
  | .inf neg => (withSign f neg 0, 0)
  | .fin neg m e =>
    if m = 0 then (withSign f neg (fmtInfMag f), Flags.divZero)
    else roundApprox f neg (magDiv 1 0 m e)

/-- `frsqa` (R234). -/
def fpRsqA (f : Fmt) (a : Nat) : Nat × Flags :=
  match numOf f a with
  | .nan s => (fmtNan f, Flags.when s Flags.invalid)
  | .inf neg => if neg then (fmtNan f, Flags.invalid) else (0, 0)
  | .fin neg m e =>
    if m = 0 then (withSign f neg (fmtInfMag f), Flags.divZero)
    else if neg then (fmtNan f, Flags.invalid)
    else
      -- 1/√v = √(2^2k / v) / 2^k, with the quotient's remainder folded into the sticky part
      let e' : Int := if e % 2 = 0 then e else e - 1
      let m' := if e % 2 = 0 then m else 2 * m
      let n := 2 ^ (640 + 2 * (Nat.log2 m' / 2)) / m'
      let r := isqrt n
      let s : Int := (320 + (Nat.log2 m' / 2 : Nat) : Int)
      roundApprox f false ⟨r, -(e' / 2) - s, !(r * r * m' == 2 ^ (640 + 2 * (Nat.log2 m' / 2)))⟩

end Sys2Proof.Machine
end

