-- ==== Sys2Proof/Machine/Legal.lean ====
section
/-! DEFINITION. The encoding checks of every instruction description: what raises `UND` at issue beyond a word that
does not decode (R173–R177, R201, R204, R228, R244, R255, R272, R281, R288, R291, R295). -/

namespace Sys2Proof.Machine

open Sys2Proof

/-! ## Operand kinds (R174) -/

def oprIsV : Opr → Bool
  | .v _ => true
  | _ => false
def oprIsS : Opr → Bool
  | .s _ => true
  | _ => false
def oprIsP : Opr → Bool
  | .p _ => true
  | _ => false
def oprIsK : Opr → Bool
  | .const _ => true
  | _ => false
def oprIsWq : Opr → Bool
  | .wq _ => true
  | _ => false
def oprIsAcc : Opr → Bool
  | .acc _ => true
  | _ => false
/-- A uniform source: an `s` register or an inline constant. -/
def oprIsSK (o : Opr) : Bool := oprIsS o || oprIsK o
/-- Number of the register an operand names. -/
def oprNum : Opr → Nat
  | .v n => n.toNat
  | .s n => n.toNat
  | .p n => n.toNat
  | .acc n => n.toNat
  | .wq n => n.toNat
  | .byp => 0
  | .const c => c.toNat

/-- A `v` operand of `n` consecutive registers begins at a multiple of `n` (R10, R246). -/
def vAligned (n : Nat) : Opr → Bool
  | .v r => r.toNat % n == 0
  | _ => true
/-- An `s` operand that must be even. -/
def sEven : Opr → Bool
  | .s r => r.toNat % 2 == 0
  | _ => false

/-- F/E action only on a vector register (R175). -/
def feOk (o : Opr) (f : Bool) : Bool := !f || oprIsV o
/-- A source field the instruction does not use is zero (R175). -/
def unused (o : Opr) (f : Bool) : Bool := o == Opr.zero && !f
/-- A vector, uniform or constant source of `n` registers a lane. -/
def srcVSK (n : Nat) (o : Opr) (f : Bool) : Bool := (oprIsV o || oprIsSK o) && vAligned n o && feOk o f
/-- A vector source. -/
def srcV (n : Nat) (o : Opr) (f : Bool) : Bool := oprIsV o && vAligned n o && feOk o f
/-- A uniform source. -/
def srcS (o : Opr) (f : Bool) : Bool := oprIsS o && !f
def srcSK (o : Opr) (f : Bool) : Bool := oprIsSK o && !f
def srcP (o : Opr) (f : Bool) : Bool := oprIsP o && !f
/-- A destination in `v`, or in `s` when every source is uniform (R201, R226). -/
def dstVS (n : Nat) (d : Opr) (srcs : List Opr) : Bool :=
  (oprIsV d && vAligned n d) || (oprIsS d && srcs.all oprIsSK)
def dstV (n : Nat) (d : Opr) : Bool := oprIsV d && vAligned n d

/-- Registers of a value of a format in one lane. -/
def fmtRegs (f : Fmt) : Nat := if fmtBits f = 64 then 2 else 1

/-- `TY` classes of R205 and R210. -/
def tyW : Fmt → Bool
  | .i32 | .n32 | .i64 | .n64 => true
  | _ => false
def tyP : Fmt → Bool
  | .i16 | .n16 | .i8 | .n8 => true
  | _ => false
def tyWide (f : Fmt) : Bool := tyW f || f == .f32 || f == .f64
def ty8 (f : Fmt) : Bool := fmtBits f == 8
def ty16 (f : Fmt) : Bool := fmtBits f == 16

/-- Fields that no class 0 or 1 instruction uses (R204); `ty2` and `rnd` are checked apart where used. -/
def baseA (f : FmtA) : Bool := f.fx == 0 && f.sat == 0
/-- `TY2` zero. -/
def noTy2 (f : FmtA) : Bool := f.ty2 == .f64
def noRnd (f : FmtA) : Bool := f.rnd == 0
def noC (f : FmtA) : Bool := unused f.c f.fc
def noB (f : FmtA) : Bool := unused f.b f.fb
def noA (f : FmtA) : Bool := unused f.a f.fa
def noD (f : FmtA) : Bool := f.d == Opr.zero
def pdOff (f : FmtA) : Bool := f.pd == 15
/-- Only the named low bits of `SUB` may be set. -/
def subBelow (f : FmtA) (n : Nat) : Bool := decide (f.sub.toNat < n)

/-! ## Class 0 (R201, R205–R213) -/

def legalInt (f : FmtA) : Bool := baseA f && noTy2 f && noRnd f
/-- Two-source integer operation. -/
def legalI2 (f : FmtA) (ty : Fmt → Bool) (subs : Nat) : Bool :=
  legalInt f && pdOff f && ty f.ty && subBelow f subs && noC f &&
  srcVSK (fmtRegs f.ty) f.a f.fa && srcVSK (fmtRegs f.ty) f.b f.fb && dstVS (fmtRegs f.ty) f.d [f.a, f.b]
/-- One-source integer operation. -/
def legalI1 (f : FmtA) (ty : Fmt → Bool) (subs : Nat) : Bool :=
  legalInt f && pdOff f && ty f.ty && subBelow f subs && noC f && noB f &&
  srcVSK (fmtRegs f.ty) f.a f.fa && dstVS (fmtRegs f.ty) f.d [f.a]
/-- Shifts and `bfx`: `B` is one 32-bit operand (R202). -/
def legalShift (f : FmtA) : Bool :=
  legalInt f && pdOff f && tyW f.ty && subBelow f 1 && noC f &&
  srcVSK (fmtRegs f.ty) f.a f.fa && srcVSK 1 f.b f.fb && dstVS (fmtRegs f.ty) f.d [f.a, f.b]
def legalImad (f : FmtA) : Bool :=
  legalInt f && pdOff f && tyW f.ty && subBelow f 2 && srcVSK (fmtRegs f.ty) f.a f.fa &&
  srcVSK (fmtRegs f.ty) f.b f.fb && srcVSK (fmtRegs f.ty) f.c f.fc && dstVS (fmtRegs f.ty) f.d [f.a, f.b, f.c]
def legalBfi (f : FmtA) : Bool :=
  legalInt f && pdOff f && tyW f.ty && subBelow f 1 && srcVSK (fmtRegs f.ty) f.a f.fa &&
  srcVSK (fmtRegs f.ty) f.b f.fb && srcVSK 1 f.c f.fc && dstVS (fmtRegs f.ty) f.d [f.a, f.b, f.c]
def legalIcmp (f : FmtA) : Bool :=
  legalInt f && tyW f.ty && noD f && decide (f.sub.toNat % 8 < 6) && subBelow f 32 &&
  srcVSK (fmtRegs f.ty) f.a f.fa && srcVSK (fmtRegs f.ty) f.b f.fb &&
  (if f.sub.toNat / 8 = 0 then noC f else srcP f.c f.fc)
/-- `sel`: its third source is a predicate, so its destination is never uniform (R201). -/
def legalSel (f : FmtA) : Bool :=
  legalInt f && pdOff f && tyWide f.ty && subBelow f 1 && srcVSK (fmtRegs f.ty) f.a f.fa &&
  srcVSK (fmtRegs f.ty) f.b f.fb && srcP f.c f.fc && dstV (fmtRegs f.ty) f.d
def legalMov (f : FmtA) : Bool :=
  legalInt f && pdOff f && tyWide f.ty && subBelow f 1 && noB f && noC f &&
  (if oprIsWq f.d then
     fmtBits f.ty == 32 && srcVSK 1 f.a f.fa
   else if oprIsWq f.a then
     fmtBits f.ty == 32 && !f.fa && (oprIsV f.d || oprIsS f.d)
   else srcVSK (fmtRegs f.ty) f.a f.fa && (oprIsS f.d || dstV (fmtRegs f.ty) f.d))
def legalLea (f : FmtA) : Bool :=
  baseA f && noRnd f && pdOff f && (f.ty == .n64 || f.ty == .i64) && (f.ty2 == .i32 || f.ty2 == .n32) &&
  subBelow f 7 && noC f && srcVSK 2 f.a f.fa && srcVSK 1 f.b f.fb && dstVS 2 f.d [f.a, f.b]

/-- Format B instructions share these. -/
def legalImm (f : FmtB) (subs : Nat) : Bool :=
  f.rnd == 0 && tyW f.ty && decide (f.sub.toNat < subs) && srcVSK (fmtRegs f.ty) f.a f.fa
def legalIaddi (f : FmtB) : Bool := legalImm f 2 && f.pd == 15 && dstVS (fmtRegs f.ty) f.d [f.a]
def legalLogi (f : FmtB) : Bool := legalImm f 1 && f.pd == 15 && dstVS (fmtRegs f.ty) f.d [f.a]
def legalIcmpi (f : FmtB) : Bool := legalImm f 6 && f.d == Opr.zero
def legalMovi (f : FmtB) : Bool :=
  f.rnd == 0 && f.pd == 15 && unused f.a f.fa && dstVS (fmtRegs f.ty) f.d [] &&
  ((f.sub == 0 && (tyW f.ty || f.ty == .f32)) || (f.sub == 1 && tyW f.ty && fmtBits f.ty == 64))

/-! ## Class 1 (R214–R225) -/

def legalLane (f : FmtA) : Bool := baseA f && noTy2 f
def legalPred2 (f : FmtA) : Bool :=
  legalLane f && noRnd f && pdOff f && f.ty == .f64 && subBelow f 4 && oprIsP f.d && srcP f.a f.fa &&
  srcP f.b f.fb && noC f
def legalPnot (f : FmtA) : Bool :=
  legalLane f && noRnd f && pdOff f && f.ty == .f64 && subBelow f 1 && oprIsP f.d && srcP f.a f.fa && noB f && noC f
def legalP2s (f : FmtA) : Bool :=
  legalLane f && noRnd f && pdOff f && f.ty == .f64 && subBelow f 1 && oprIsS f.d && srcP f.a f.fa && noB f && noC f
def legalS2p (f : FmtA) : Bool :=
  legalLane f && noRnd f && pdOff f && f.ty == .f64 && subBelow f 1 && oprIsP f.d && srcSK f.a f.fa && noB f && noC f
def legalShfl (f : FmtA) : Bool :=
  legalLane f && noRnd f && tyWide f.ty && subBelow f 24 && dstV (fmtRegs f.ty) f.d &&
  srcV (fmtRegs f.ty) f.a f.fa && srcVSK 1 f.b f.fb && noC f
def legalVote (f : FmtA) (n : Nat) : Bool :=
  legalLane f && noRnd f && f.ty == .f64 && f.sub.toNat == n && srcP f.a f.fa && noB f && noC f &&
  (if n = 3 then oprIsS f.d && pdOff f else noD f)
def legalMatch (f : FmtA) (n : Nat) : Bool :=
  legalLane f && noRnd f && tyWide f.ty && f.sub.toNat == n && dstV 1 f.d && srcV (fmtRegs f.ty) f.a f.fa &&
  noB f && noC f && (n == 1 || pdOff f)
/-- `TY`, `SUB`, `RND` of `redux` and `scan` (R219, R112). -/
def legalFold (f : FmtA) : Bool :=
  let op := f.sub.toNat % 8
  legalLane f && decide (op < 6) && (tyW f.ty || (fmtIsIeee f.ty && decide (op < 3))) &&
  (f.rnd == 0 || (fmtIsIeee f.ty && op == 0 && decide (f.rnd.toNat < 5))) &&
  srcV (fmtRegs f.ty) f.a f.fa && noB f && noC f && pdOff f
def legalRedux (f : FmtA) : Bool := legalFold f && subBelow f 6 && oprIsS f.d
def legalScan (f : FmtA) : Bool := legalFold f && subBelow f 16 && dstV (fmtRegs f.ty) f.d
def legalElect (f : FmtA) : Bool :=
  legalLane f && noRnd f && f.ty == .f64 && subBelow f 1 && oprIsS f.d && noA f && noB f && noC f
def legalReg (f : FmtA) : Bool :=
  legalLane f && noRnd f && pdOff f && f.ty == .f64 && f.sub != 0 && subBelow f 8 && noD f && noA f && noB f && noC f
def legalFectl (f : FmtA) (n : Nat) : Bool :=
  legalLane f && noRnd f && f.ty == .f64 && f.sub.toNat == n && oprIsV f.a && !f.fa && noD f && noB f && noC f &&
  (n != 1 || pdOff f)

/-! ## Class 2 (R226, R228, R232) -/

/-- `FX` only where a draw is made (R228). -/
def fxOk (f : FmtA) (draws : Bool) : Bool := draws || f.fx == 0
/-- Rounding field of an instruction that rounds; `sr` never with a uniform destination (R228). -/
def rndOk (f : FmtA) : Bool := decide (f.rnd.toNat < 6) && !(f.rnd == 5 && oprIsS f.d)
/-- A floating-point source: constants must be exact in the format (R174). -/
def srcF (ty : Fmt) (o : Opr) (f : Bool) : Bool :=
  srcVSK (fmtRegs ty) o f && (match o with | .const c => constFits ty c | _ => true)
def legalF2 (f : FmtA) (rounds : Bool) (subs : Nat) : Bool :=
  fmtIsIeee f.ty && noTy2 f && f.sat == 0 && pdOff f && subBelow f subs && noC f &&
  (if rounds then rndOk f else noRnd f) && fxOk f (rounds && f.rnd == 5) &&
  srcF f.ty f.a f.fa && srcF f.ty f.b f.fb && dstVS (fmtRegs f.ty) f.d [f.a, f.b]
def legalF1 (f : FmtA) (rounds : Bool) : Bool :=
  fmtIsIeee f.ty && noTy2 f && f.sat == 0 && pdOff f && subBelow f 1 && noB f && noC f &&
  (if rounds then rndOk f else noRnd f) && fxOk f (rounds && f.rnd == 5) &&
  srcF f.ty f.a f.fa && dstVS (fmtRegs f.ty) f.d [f.a]
def legalFfma (f : FmtA) : Bool :=
  fmtIsIeee f.ty && noTy2 f && f.sat == 0 && pdOff f && subBelow f 4 && rndOk f && fxOk f (f.rnd == 5) &&
  srcF f.ty f.a f.fa && srcF f.ty f.b f.fb && srcF f.ty f.c f.fc && dstVS (fmtRegs f.ty) f.d [f.a, f.b, f.c]
def legalFsgn (f : FmtA) : Bool :=
  fmtIsIeee f.ty && noTy2 f && f.sat == 0 && pdOff f && subBelow f 4 && noRnd f && f.fx == 0 && noC f &&
  srcF f.ty f.a f.fa &&
  (if f.sub.toNat < 2 then noB f && dstVS (fmtRegs f.ty) f.d [f.a]
   else srcF f.ty f.b f.fb && dstVS (fmtRegs f.ty) f.d [f.a, f.b])
def legalFcmp (f : FmtA) : Bool :=
  fmtIsIeee f.ty && noTy2 f && f.sat == 0 && subBelow f 128 && noRnd f && f.fx == 0 && noD f &&
  (!(f.sub.getLsbD 6) || ty16 f.ty) && srcF f.ty f.a f.fa && srcF f.ty f.b f.fb &&
  (if f.sub.toNat / 8 % 4 = 0 then noC f else srcP f.c f.fc)

/-! ## Class 3 (R228, R235–R243) -/

/-- Saturation field of a result format (R177). -/
def satOk (ty : Fmt) (sat : BitVec 2) : Bool := if fmtIsB8 ty then sat != 0 else sat == 0
def legalCvt (f : FmtA) : Bool :=
  let k := f.sub.toNat % 4
  let ii := fmtIsInt f.ty && fmtIsInt f.ty2
  subBelow f 8 && (k == 0 || ty8 f.ty2 || (ty16 f.ty2 && decide (k < 2))) && (!(f.sub.getLsbD 2) || ii) &&
  satOk f.ty f.sat && rndOk f && (!ii || noRnd f) && fxOk f (f.rnd == 5) && pdOff f && noB f && noC f &&
  srcF f.ty2 f.a f.fa && dstVS (fmtRegs f.ty) f.d [f.a]
/-- Accepted pairs of `pack` (R236). -/
def legalPack (f : FmtA) : Bool :=
  let fromF32 := f.ty2 == .f32 && (f.ty == .f16 || f.ty == .bf16 || fmtIsB8 f.ty || f.ty == .i8 || f.ty == .n8)
  let fromHalf := (f.ty2 == .f16 || f.ty2 == .bf16) && fmtIsB8 f.ty
  let fromInt := (f.ty2 == .i32 || f.ty2 == .n32) && tyP f.ty
  let pair := ty8 f.ty && fmtBits f.ty2 == 32
  (fromF32 || fromHalf || (fromInt && noRnd f)) && satOk f.ty f.sat && decide (f.rnd.toNat < 6) &&
  fxOk f (f.rnd == 5) && pdOff f && noC f && subBelow f 1 && dstV 1 f.d &&
  srcV (if pair then 2 else 1) f.a f.fa && srcV (if pair then 2 else 1) f.b f.fb
def legalUnpack (f : FmtA) : Bool :=
  let k := f.sub.toNat % 4
  let scl := f.sub.getLsbD 2
  let toHalf := f.ty == .f16 || f.ty == .bf16
  let rows :=
    if scl then (fmtIsB8 f.ty2 || f.ty2 == .i8) && (f.ty == .f32 || toHalf)
    else (f.ty == .f32 && (fmtIsB8 f.ty2 || f.ty2 == .f16 || f.ty2 == .bf16)) ||
      (f.ty == .i32 && (f.ty2 == .i8 || f.ty2 == .i16)) || (f.ty == .n32 && (f.ty2 == .n8 || f.ty2 == .n16)) ||
      (toHalf && fmtIsB8 f.ty2)
  rows && decide (k < (if ty16 f.ty2 || toHalf then 2 else 4)) && subBelow f 8 && f.sat == 0 &&
  decide (f.rnd.toNat < 6) && fxOk f (f.rnd == 5) && pdOff f && noC f && dstV 1 f.d && srcV 1 f.a f.fa &&
  (if scl then (oprIsV f.b || oprIsS f.b) && feOk f.b f.fb else noB f)
def legalBquant (f : FmtA) : Bool :=
  (fmtIsB8 f.ty || f.ty == .i8) && f.ty2 == .f32 && decide (f.rnd.toNat < 6) && fxOk f (f.rnd == 5) &&
  satOk f.ty f.sat && subBelow f 2 && pdOff f && dstV 1 f.d && srcV 1 f.a f.fa && noB f && noC f
/-- Key operand of `rand` and `split` (R108). -/
def keyOk (f : FmtA) : Bool :=
  if f.sub.getLsbD 2 then sEven f.b && !f.fb else noB f
def legalRand (f : FmtA) : Bool :=
  let form := f.sub.toNat % 4
  f.ty == .f64 && noTy2 f && noRnd f && f.sat == 0 && subBelow f 8 && pdOff f && noA f && noC f && keyOk f &&
  dstV (if form = 1 then 2 else if form = 2 then 4 else 1) f.d
def legalSplit (f : FmtA) : Bool :=
  f.ty == .f64 && noTy2 f && noRnd f && f.sat == 0 && (f.sub == 0 || f.sub == 4) && pdOff f && noA f && noC f &&
  keyOk f && (dstV 4 f.d || sEven f.d)
def legalSample (f : FmtA) : Bool :=
  f.ty == .f32 && noTy2 f && noRnd f && f.sat == 0 && subBelow f 2 && oprIsS f.d && srcV 1 f.a f.fa && noC f &&
  fxOk f (f.sub.getLsbD 0) && (if f.sub.getLsbD 0 then noB f else srcVSK 1 f.b f.fb)
def legalTopk (f : FmtA) : Bool :=
  f.ty == .f32 && f.ty2 == .n32 && noRnd f && f.sat == 0 && f.fx == 0 && f.sub != 0 && subBelow f 33 && pdOff f &&
  dstV 2 f.d && srcV 1 f.a f.fa && srcV 1 f.b f.fb && noC f
/-- Fields that no Mask Unit instruction uses. -/
def legalGm (f : FmtA) (sub : Nat) : Bool :=
  f.ty == .f64 && noTy2 f && noRnd f && f.sat == 0 && f.fx == 0 && f.sub.toNat == sub && srcS f.a f.fa
def legalGmbind (f : FmtA) : Bool := legalGm f 0 && noD f && noB f && noC f && pdOff f
def legalGmstep (f : FmtA) : Bool := legalGm f 0 && noD f && srcSK f.b f.fb && noC f
def legalGmfetch (f : FmtA) : Bool := legalGm f 0 && oprIsV f.d && srcSK f.b f.fb && srcS f.c f.fc
def legalGmstk (f : FmtA) (n : Nat) : Bool :=
  legalGm f n && pdOff f && noC f && (if n = 1 then noD f && srcS f.b f.fb else oprIsS f.d && noB f)

/-! ## Format M (R181, R244–R246) -/

/-- Registers of a width in one lane. -/
def widthRegs (w : Nat) : Nat := if w = 4 then 4 else if w = 3 then 2 else 1
def legalM (f : FmtM) : Bool :=
  decide (f.w.toNat < 5) && decide (f.sp.toNat < 4) && decide (f.pol.toNat < 3) && (f.sp == 0 || f.pol == 0) &&
  (f.sp == 2 || f.qn == 0)
/-- Address operand: a pair in `g`, one register elsewhere (R245). -/
def addrOk (f : FmtM) : Bool :=
  (oprIsV f.a || oprIsS f.a) && vAligned (if f.sp = 0 then 2 else 1) f.a && feOk f.a f.fa
/-- Data destination; `s` only with an `s` address and never 16 bytes wide (R246). -/
def dataDst (f : FmtM) : Bool :=
  dstV (widthRegs f.w.toNat) f.d || (oprIsS f.d && oprIsS f.a && f.w != 4)
def dataSrc (f : FmtM) (o : Opr) (fe : Bool) : Bool :=
  srcVSK (widthRegs f.w.toNat) o fe && (oprIsV o || f.w != 4)
def legalLd (f : FmtM) : Bool :=
  legalM f && addrOk f && decide (f.ord.toNat < 2) && f.aop == 0 && dataDst f && unused f.b f.fb && unused f.c f.fc &&
  (!f.fm || (f.sp == 0 && decide (1 ≤ f.w.toNat) && decide (f.w.toNat ≤ 3)))
def legalSt (f : FmtM) : Bool :=
  legalM f && addrOk f && (f.ord == 0 || f.ord == 2) && f.aop == 0 && !f.fm && f.d == Opr.zero &&
  dataSrc f f.b f.fb && unused f.c f.fc
def legalAtom (f : FmtM) : Bool :=
  legalM f && addrOk f && decide (f.sp.toNat < 3) && (f.w == 2 || f.w == 3) && !f.fm && decide (f.aop.toNat < 13) &&
  dataDst f && dataSrc f f.b f.fb && (if f.aop = 9 then dataSrc f f.c f.fc else unused f.c f.fc)
def legalRed (f : FmtM) : Bool :=
  legalM f && addrOk f && decide (f.sp.toNat < 3) && (f.w == 2 || f.w == 3) && !f.fm && decide (f.aop.toNat < 13) &&
  f.aop != 8 && f.aop != 9 && (f.ord == 0 || f.ord == 2) && f.d == Opr.zero && dataSrc f f.b f.fb && unused f.c f.fc
def legalFence (f : FmtM) (ord : Nat) : Bool :=
  f.w == 2 && !f.fm && f.pol == 0 && f.ord.toNat == ord && f.sp == 0 && f.qn == 0 && f.aop == 0 && f.ofs == 0 &&
  f.d == Opr.zero && unused f.a f.fa && unused f.b f.fb && unused f.c f.fc

/-! ## Format E (R182, R255–R270, R295) -/

def eNoA (f : FmtE) : Bool := unused f.a f.fa
def eNoB (f : FmtE) : Bool := unused f.b f.fb
def eNoC (f : FmtE) : Bool := unused f.c f.fc
def eNoD (f : FmtE) : Bool := f.d == Opr.zero
/-- Fields at zero that most format E instructions leave unused. -/
def legalE (f : FmtE) : Bool := f.fx == 0 && f.cls == 0 && f.scp == 0
def ePd (f : FmtE) : Bool := f.pd == 15
def eCv (f : FmtE) : Bool := f.cv == 0
/-- A space code (R256). -/
def spaceOk (n : Nat) : Bool := n == 0 || n == 1 || (decide (4 ≤ n) && decide (n < 8))
def legalCopyBody (f : FmtE) : Bool :=
  let sub := f.sub.toNat
  legalE f && ePd f && eNoD f && decide (sub < 128) && spaceOk (sub % 8) && spaceOk (sub / 8 % 8) &&
  srcS f.a f.fa && srcS f.b f.fb && srcSK f.c f.fc &&
  (if f.sub.getLsbD 6 then spaceOk f.imm8.toNat && sEven f.a && sEven f.c else f.imm8 == 0)
def legalCopy (f : FmtE) : Bool := legalCopyBody f && eCv f
def legalStream (f : FmtE) (n : Nat) : Bool :=
  legalE f && ePd f && eCv f && eNoD f && f.imm8 == 0 && f.sub.toNat == n && srcS f.a f.fa && srcSK f.b f.fb && eNoC f
def legalSrel (f : FmtE) (n : Nat) : Bool :=
  legalE f && ePd f && eCv f && eNoD f && f.imm8 == 0 && f.sub.toNat == n && eNoA f && eNoB f && eNoC f
def legalGather (f : FmtE) : Bool :=
  legalE f && ePd f && eCv f && eNoD f && f.imm8 == 0 && decide (f.sub.toNat < 8) && srcV 2 f.a f.fa &&
  srcSK f.b f.fb && eNoC f
def legalWaitcnt (f : FmtE) : Bool :=
  f.fx == 0 && f.scp == 0 && decide (f.cls.toNat < 5) && f.sub == 0 && ePd f && eCv f && eNoD f && eNoA f && eNoB f &&
  eNoC f
def legalMonarm (f : FmtE) : Bool :=
  legalE f && ePd f && eCv f && eNoD f && f.sub == 0 && spaceOk f.imm8.toNat && srcS f.a f.fa && eNoB f && eNoC f
def legalMonwait (f : FmtE) : Bool :=
  legalE f && eCv f && eNoD f && decide (f.sub.toNat < 3) && spaceOk f.imm8.toNat && srcS f.a f.fa && srcSK f.b f.fb &&
  srcSK f.c f.fc
/-- `bar`: the count `B` is given at the higher scopes; absent it reads as a count of 0 (R262). -/
def legalBar (f : FmtE) : Bool :=
  f.fx == 0 && f.cls == 0 && f.imm8 == 0 && ePd f && eNoD f && eNoA f && eNoC f && decide (f.sub.toNat < 2) &&
  decide (1 ≤ f.scp.toNat) && decide (f.scp.toNat < 6) &&
  (eNoB f || (f.scp != 1 && srcSK f.b f.fb))
def legalCset (f : FmtE) : Bool :=
  legalE f && ePd f && eNoD f && f.sub == 0 && f.imm8 == 0 && srcSK f.a f.fa && eNoB f && eNoC f
def legalBareE (f : FmtE) (sub : Nat) : Bool :=
  legalE f && ePd f && eCv f && eNoD f && f.sub.toNat == sub && f.imm8 == 0 && eNoA f && eNoB f && eNoC f
def legalTask (f : FmtE) : Bool :=
  f.cls == 0 && f.scp == 0 && ePd f && eCv f && eNoD f && f.sub == 0 && decide (f.imm8.toNat < 2) &&
  (srcV 2 f.a f.fa || srcS f.a f.fa) && eNoB f && eNoC f
def legalTaskDone (f : FmtE) : Bool :=
  legalE f && ePd f && eCv f && eNoD f && f.sub == 1 && f.imm8 == 0 && (srcV 1 f.a f.fa || srcS f.a f.fa) && eNoB f &&
  eNoC f
def legalDqpost (f : FmtE) : Bool :=
  legalE f && eCv f && eNoD f && f.sub == 0 && f.imm8 == 0 && srcV 1 f.a f.fa && eNoB f && eNoC f
def legalDqtake (f : FmtE) : Bool :=
  legalE f && eCv f && f.sub == 0 && f.imm8 == 0 && oprIsV f.d && eNoA f && eNoB f && eNoC f
def legalDqsteal (f : FmtE) : Bool :=
  legalE f && eCv f && f.sub == 0 && f.imm8 == 0 && oprIsV f.d && eNoA f && srcSK f.b f.fb && eNoC f
def legalQsubmit (f : FmtE) : Bool :=
  legalE f && ePd f && eCv f && eNoD f && f.sub == 0 && f.imm8 == 0 && srcSK f.a f.fa && srcSK f.b f.fb && eNoC f
def legalPooltake (f : FmtE) : Bool :=
  legalE f && eCv f && f.sub == 0 && f.imm8 == 0 && dstV 2 f.d && srcSK f.a f.fa && eNoB f && eNoC f
def legalPoolgive (f : FmtE) : Bool :=
  legalE f && ePd f && eCv f && eNoD f && f.sub == 0 && f.imm8 == 0 && srcSK f.a f.fa && srcV 2 f.b f.fb && eNoC f
def legalColl (f : FmtE) : Bool :=
  legalE f && ePd f && eCv f && eNoD f && decide (f.sub.toNat < 7) && f.imm8 == 0 && srcS f.a f.fa && eNoB f && eNoC f
def legalPassSeal (f : FmtE) : Bool :=
  legalE f && ePd f && eCv f && eNoD f && f.sub == 0 && f.imm8 == 0 && srcSK f.a f.fa && eNoB f && eNoC f
def legalLadder (f : FmtE) (drop : Bool) : Bool :=
  legalE f && eCv f && f.sub == 0 && f.imm8 == 0 && sEven f.d && srcS f.a f.fa && srcSK f.b f.fb &&
  (if drop then srcSK f.c f.fc else eNoC f)

/-! ## Formats C, G, S (R184, R272, R281, R286, R287) -/

def cNoA (f : FmtC) : Bool := unused f.a f.fa
def targetOk (f : FmtC) : Bool :=
  (oprIsV f.a || oprIsS f.a) && vAligned 2 f.a && feOk f.a f.fa
def linkOk (f : FmtC) : Bool := oprIsS f.d || dstV 2 f.d
def legalBra (f : FmtC) : Bool := f.sub == 0 && cNoA f && f.d == Opr.zero
def legalBrx (f : FmtC) : Bool := f.sub == 0 && f.offs == 0 && targetOk f && f.d == Opr.zero
def legalCall (f : FmtC) : Bool := f.sub == 0 && cNoA f && linkOk f
def legalCallx (f : FmtC) : Bool := f.sub == 0 && f.offs == 0 && targetOk f && linkOk f
def legalBareC (f : FmtC) : Bool := f.sub == 0 && f.offs == 0 && cNoA f && f.d == Opr.zero
/-- Number of octets in a mask. -/
def popcount (x : Nat) (n : Nat) : Nat := ((List.range n).filter (fun i => x.testBit i)).length
def legalRegion (f : FmtG) : Bool := !f.g.gn && f.g.gp == 15 && decide (popcount f.ws.toNat 32 ≤ 4)
def unguarded (g : Guard) : Bool := !g.gn && g.gp == 15
def legalS (f : FmtS) : Bool := f.sub == 0 && f.imm16 == 0 && f.fx == 0 && f.srn == 0 && unused f.a f.fa && f.d == Opr.zero
def legalSwitchpt (f : FmtS) : Bool := unguarded f.g && legalS { f with imm16 := 0 } && decide (f.imm16.toNat < 64)
def legalTrap (f : FmtS) : Bool := legalS { f with imm16 := 0 }
def legalTrapret (f : FmtS) : Bool := unguarded f.g && legalS { f with sub := 0 } && decide (f.sub.toNat < 2)

/-- How a special register is held and read (R28, R187): per thread or uniform, its width, writable. -/
structure SrInfo where
  thread : Bool
  bits : Nat
  writable : Bool
deriving DecidableEq, Repr

/-- The special registers by number (R187). -/
def srInfo (n : Nat) : Option SrInfo :=
  match n with
  | 0x000 => some ⟨true, 5, false⟩
  | 0x001 => some ⟨false, 4, false⟩
  | 0x002 => some ⟨false, 24, false⟩
  | 0x003 | 0x004 => some ⟨false, 16, false⟩
  | 0x005 => some ⟨false, 64, false⟩
  | 0x006 => some ⟨false, 2, false⟩
  | 0x007 => some ⟨false, 6, false⟩
  | 0x008 => some ⟨false, 2, false⟩
  | 0x009 => some ⟨false, 10, false⟩
  | 0x00A => some ⟨true, 64, true⟩
  | 0x00B => some ⟨false, 2, false⟩
  | 0x010 | 0x011 => some ⟨false, 16, false⟩
  | 0x012 | 0x013 | 0x014 => some ⟨false, 64, false⟩
  | 0x018 => some ⟨true, 64, true⟩
  | 0x019 | 0x01A | 0x01B | 0x01C => some ⟨false, 32, false⟩
  | 0x020 | 0x021 => some ⟨false, 64, false⟩
  | 0x024 => some ⟨false, 6, true⟩
  | 0x028 | 0x029 => some ⟨false, 32, false⟩
  | 0x030 | 0x031 | 0x032 | 0x033 | 0x034 => some ⟨false, 16, false⟩
  | 0x038 | 0x039 => some ⟨false, 32, true⟩
  | 0x03C => some ⟨false, 6, false⟩
  | 0x03D => some ⟨false, 64, false⟩
  | _ => none

def legalSread (f : FmtS) : Bool :=
  match srInfo f.srn.toNat with
  | none => false
  | some r =>
    f.sub == 0 && f.imm16 == 0 && unused f.a f.fa && ((r.thread && r.bits == 64) || f.fx == 0) &&
    (if r.thread then dstV (if r.bits = 64 then 2 else 1) f.d else oprIsS f.d)
def legalSwrite (f : FmtS) : Bool :=
  match srInfo f.srn.toNat with
  | none => false
  | some r =>
    r.writable && f.sub == 0 && f.imm16 == 0 && f.d == Opr.zero && (r.thread || f.fx == 0) &&
    (if r.thread then srcVSK 2 f.a f.fa else srcSK f.a f.fa)

/-! ## Matrix (R112, R117, R118, R124, R125, R288, R291) -/

def legalShape (f : FmtA) : Bool :=
  f.ty == .f64 && noTy2 f && noRnd f && baseA f && pdOff f && noC f && subBelow f 1 && oprIsS f.d && srcS f.a f.fa &&
  noB f
def legalFmtwin (f : FmtA) : Bool :=
  f.ty == .f64 && noTy2 f && noRnd f && baseA f && pdOff f && noC f && subBelow f 16 && noD f && srcS f.a f.fa &&
  srcS f.b f.fb
/-- F/E actions and `CV` of a format X instruction. -/
def legalX (f : FmtX) : Bool := !f.fa && !f.fb && !f.fc && (f.sg || f.cv == 0)
/-- The conversion and activation fields that only `adrain` uses. -/
def xNoOut (f : FmtX) : Bool := f.sat == 0 && f.rnd == 0 && f.ty == .f64 && f.dst == 0 && f.act == 0
def xNoIn (f : FmtX) : Bool := f.kc == 0 && f.spa == 0 && f.spb == 0 && !f.skp
def xSpace (n : Nat) : Bool := n == 0 || (decide (4 ≤ n) && decide (n < 8))
def legalMma (f : FmtX) : Bool :=
  legalX f && xNoOut f && decide (f.kc.toNat < 17) && xSpace f.spa.toNat && xSpace f.spb.toNat && oprIsAcc f.d &&
  (oprIsS f.a || (f.a == .byp && f.spa == 0)) && oprIsS f.b && oprIsSK f.c
def legalAclr (f : FmtX) : Bool :=
  legalX f && xNoOut f && xNoIn f && !f.sg && oprIsAcc f.d && f.a == Opr.zero && f.b == Opr.zero && f.c == Opr.zero
def legalAload (f : FmtX) : Bool :=
  legalX f && xNoOut f && xNoIn f && !f.sg && oprIsAcc f.d && oprIsS f.a && f.b == Opr.zero && oprIsSK f.c
/-- The destination formats and activations of a tile kind (R125). -/
def drainFormat (kind ty : Fmt) (act : Nat) : Bool :=
  match kind with
  | .i32 => (ty == .i32 || ty == .i16 || ty == .i8) && act != 2
  | .f64 => (ty == .f64 || ty == .f32) && act != 2
  | _ => ty == .f32 || ty == .f16 || ty == .bf16 || fmtIsB8 ty || ty == .i8 || ty == .i16 || ty == .i32

/-- `TY` and `ACT` are ones that some tile kind allows, and a pair of registers is named by its even one (R125, R174, R291). -/
def legalAdrain (f : FmtX) : Bool :=
  legalX f && xNoIn f && [Fmt.f32, .i32, .f64].any (fun kind => drainFormat kind f.ty f.act.toNat) &&
  !(f.dst == 1 && f.ty == .f64 && oprNum f.d % 2 == 1) && decide (f.rnd.toNat < 5) && satOk f.ty f.sat && decide (f.dst.toNat < 3) &&
  decide (f.act.toNat < 4) && (if f.act = 3 then oprIsS f.b else f.b == Opr.zero) &&
  (if f.dst = 0 then oprIsAcc f.d && oprIsS f.a && oprIsSK f.c
   else if f.dst = 1 then !f.sg && oprIsV f.d && oprIsAcc f.a && oprIsS f.c
   else oprIsAcc f.d && f.a == Opr.zero && f.c == Opr.zero)

/-- The encoding checks of an instruction; an event passes. -/
def legal : Instr → Bool
  | .iadd f => legalI2 f (fun t => tyW t || tyP t) 2
  | .isub f => legalI2 f (fun t => tyW t || tyP t) 2
  | .imul f => legalI2 f tyW 2
  | .imulh f => legalI2 f tyW 1
  | .imad f => legalImad f
  | .idiv f => legalI2 f tyW 1
  | .irem f => legalI2 f tyW 1
  | .imin f => legalI2 f (fun t => tyW t || tyP t) 1
  | .imax f => legalI2 f (fun t => tyW t || tyP t) 1
  | .iabs f => legalI1 f fmtSigned 2
  | .ineg f => legalI1 f (fun t => tyW t || tyP t) 2
  | .land f => legalI2 f tyW 1
  | .lor f => legalI2 f tyW 1
  | .lxor f => legalI2 f tyW 1
  | .lnot f => legalI1 f tyW 1
  | .shl f => legalShift f
  | .shr f => legalShift f
  | .sra f => legalShift f
  | .rotl f => legalShift f
  | .bfx f => legalShift f
  | .bfi f => legalBfi f
  | .popc f => legalI1 f tyW 1
  | .clz f => legalI1 f tyW 1
  | .brev f => legalI1 f tyW 1
  | .icmp f => legalIcmp f
  | .sel f => legalSel f
  | .mov f => legalMov f
  | .lea f => legalLea f
  | .iaddi f => legalIaddi f
  | .movi f => legalMovi f
  | .icmpi f => legalIcmpi f
  | .andi f => legalLogi f
  | .ori f => legalLogi f
  | .xori f => legalLogi f
  | .pand f => legalPred2 f
  | .por f => legalPred2 f
  | .pxor f => legalPred2 f
  | .pnot f => legalPnot f
  | .p2s f => legalP2s f
  | .s2p f => legalS2p f
  | .shfl f => legalShfl f
  | .voteAll f => legalVote f 0
  | .voteAny f => legalVote f 1
  | .voteUni f => legalVote f 2
  | .voteBallot f => legalVote f 3
  | .matchAny f => legalMatch f 0
  | .matchAll f => legalMatch f 1
  | .redux f => legalRedux f
  | .scan f => legalScan f
  | .elect f => legalElect f
  | .regacq f => legalReg f
  | .regacqGrant _ => true
  | .regrel f => legalReg f
  | .fectlTest f => legalFectl f 0
  | .fectlWait f => legalFectl f 1
  | .fectlCancel f => legalFectl f 2
  | .fadd f => legalF2 f true 1
  | .fsub f => legalF2 f true 1
  | .fmul f => legalF2 f true 1
  | .ffma f => legalFfma f
  | .fmin f => legalF2 f false 2
  | .fmax f => legalF2 f false 2
  | .fsgn f => legalFsgn f
  | .fcmp f => legalFcmp f
  | .fclass f => legalF1 f false
  | .fdiv f => legalF2 f true 1
  | .fsqrt f => legalF1 f true
  | .fex2 f => legalF1 f true && f.ty != .f64
  | .flg2 f => legalF1 f true && f.ty != .f64
  | .frcpa f => legalF1 f false
  | .frsqa f => legalF1 f false
  | .cvt f => legalCvt f
  | .pack f => legalPack f
  | .unpack f => legalUnpack f
  | .bquant f => legalBquant f
  | .rand f => legalRand f
  | .split f => legalSplit f
  | .sample f => legalSample f
  | .topk f => legalTopk f
  | .gmbind f => legalGmbind f
  | .gmstep f => legalGmstep f
  | .gmfetch f => legalGmfetch f
  | .gmstkSpill f => legalGmstk f 0
  | .gmstkFill f => legalGmstk f 1
  | .gmstkRd f => legalGmstk f 2
  | .ld f => legalLd f
  | .st f => legalSt f
  | .atom f => legalAtom f
  | .red f => legalRed f
  | .fenceAcq f => legalFence f 1
  | .fenceRel f => legalFence f 2
  | .fenceAr f => legalFence f 3
  | .copy f => legalCopy f
  | .copyc f => legalCopyBody f
  | .streamF f => legalStream f 0
  | .streamD f => legalStream f 1
  | .srelF f => legalSrel f 0
  | .srelD f => legalSrel f 1
  | .gather f => legalGather f
  | .waitcnt f => legalWaitcnt f
  | .monarm f => legalMonarm f
  | .monwait f => legalMonwait f
  | .bar f => legalBar f
  | .cset f => legalCset f
  | .trigger f => legalBareE f 0
  | .waitDep f => legalBareE f 1
  | .waitDepRelease _ _ => true
  | .task f => legalTask f
  | .taskDone f => legalTaskDone f
  | .taskPost _ _ => true
  | .dqpost f => legalDqpost f
  | .dqtake f => legalDqtake f
  | .dqsteal f => legalDqsteal f
  | .qsubmit f => legalQsubmit f
  | .pooltake f => legalPooltake f
  | .poolgive f => legalPoolgive f
  | .coll f => legalColl f
  | .collCombine _ _ _ _ => true
  | .bra f => legalBra f
  | .brx f => legalBrx f
  | .call f => legalCall f
  | .callx f => legalCallx f
  | .ret f => legalBrx f
  | .exit f => legalBareC f
  | .nop f => legalBareC f
  | .region f => legalRegion f
  | .implicitHead _ _ => true
  | .switchpt f => legalSwitchpt f
  | .switchRelaunch _ _ => true
  | .trap f => legalTrap f
  | .brk f => legalTrap f
  | .trapret f => legalTrapret f
  | .sread f => legalSread f
  | .swrite f => legalSwrite f
  | .shape f => legalShape f
  | .fmtwin f => legalFmtwin f
  | .mma f => legalMma f
  | .aclr f => legalAclr f
  | .aload f => legalAload f
  | .adrain f => legalAdrain f
  | .mxOperation _ => true
  | .pass f => legalPassSeal f
  | .passOpen _ => true
  | .seal f => legalPassSeal f
  | .sealCommit _ => true
  | .lres f => legalLadder f false
  | .lhold f => legalLadder f false
  | .ldrop f => legalLadder f true
  | .issueCycle _ _ => true
  | .storePathPerform _ _ => true
  | .loadPerform _ _ _ => true
  | .acquireComplete _ _ _ => true
  | .evict _ _ => true
  | .engineCommandStart _ => true
  | .engineOperationComplete _ => true
  | .copyOperation _ _ _ _ => true
  | .stampWrite _ => true
  | .fillIteration _ _ => true
  | .drainIteration _ _ => true
  | .channelProtectionStop _ => true
  | .channelIdle _ _ => true
  | .monitorWake _ _ => true
  | .monwaitTimeout _ _ => true
  | .crewRetire _ _ => true
  | .blockEnd _ => true
  | .gridComplete _ => true
  | .coneCycleExpiry _ => true
  | .coneEnergyExpiry _ => true
  | .coneDeadlineExpiry _ => true
  | .cutArrival _ _ => true
  | .completionRecordWrite _ => true
  | .blockPlace _ => true
  | .carveOutChange _ _ _ => true
  | .switchFlagPressure _ _ => true
  | .switchFlagIdle _ => true
  | .switchFlagRestore _ => true
  | .preemptionSave _ => true
  | .blockRestore _ _ => true
  | .parkedBlockEvict _ => true
  | .lateFaultRollback _ _ => true
  | .handlerEntry _ _ => true
  | .waitCycleProbe _ _ => true
  | .pageFaultRecord _ => true
  | .faultServiceSave _ => true
  | .timingError _ _ _ => true
  | .parityError _ _ _ _ _ => true
  | .hbmUncorrectable _ => true
  | .mceRetire _ _ => true
  | .maskUnitWriteback _ _ => true
  | .packetRead _ _ => true
  | .launch _ => true
  | .graph _ => true
  | .copyPacket _ => true
  | .signal _ => true
  | .waitPacket _ => true
  | .waitPacketTimeout _ => true
  | .setdet _ => true
  | .poolset _ => true
  | .priorityAging _ => true
  | .kern _ _ => true
  | .copyNode _ _ => true
  | .loop _ _ => true
  | .loopRunEnd _ _ => true
  | .cond _ _ => true
  | .signalNode _ _ => true
  | .waitNode _ _ => true
  | .waitNodeTimeout _ _ => true
  | .doorbellWrite _ _ _ => true
  | .contextSlotWrite _ _ => true
  | .frridxWrite _ _ => true
  | .invctlInvalidate _ _ => true
  | .invalidationDone _ => true
  | .fwctlVerify _ => true
  | .firmwareVerifyDone => true
  | .rstctlReset _ => true
  | .fundamentalReset => true
  | .hotReset => true
  | .functionLevelReset => true
  | .hostLinkUp => true
  | .routeEntryWrite _ _ => true
  | .controlRegisterWrite _ _ => true
  | .hostCxlStore _ _ => true
  | .flitCrcRetry _ _ => true
  | .laneDrop _ _ => true
  | .clockThrottle _ => true
  | .getVersion => true
  | .getCapabilities => true
  | .negotiateAlgorithms _ _ => true
  | .getDigests => true
  | .getCertificate _ _ _ => true
  | .challenge _ _ => true
  | .getMeasurements _ _ _ => true
  | .chunkSend _ _ _ _ => true
  | .chunkGet _ _ => true
  | .arithmeticClockRestore _ => true
  | .firmwareStagingWindowWrite _ _ => true

end Sys2Proof.Machine
end

