-- ==== Sys2Proof/Config.lean ====
section
/-! DEFINITION. Values that the spec leaves open or to an implementation: constants without a body, so that
nothing can be proved of their value. The first argument of a free value is a counter of the state. -/

namespace Sys2Proof.Config

/-- A byte the spec leaves open: memory whose contents are not preserved (R50, R371), free accumulator bytes. -/
opaque freeByte : Nat → Nat → Byte
/-- A register or memory word the spec leaves open. -/
opaque freeWord : Nat → Nat → DWord
/-- A choice the spec leaves open between listed possibilities. -/
opaque freeChoice : Nat → Nat → Nat
/-- Fiftieths of a cycle per ns of a die whose clock firmware has lowered (R2, R388); read modulo 47. -/
opaque throttledRate : Nat → Nat → Nat
/-- Nanojoules the Cone Monitor attributes to a grid at a time (R40). -/
opaque energy : Nat → Nat → Nat
/-- Does an image carry a valid SLH-DSA-SHAKE-256f signature under the ROM's root key (R370)? -/
opaque imageSigned : List Byte → Bool
/-- Units that the ROM's own tests find at a boot, as kind and index (R370, R371). -/
opaque romTests : Nat → List (Nat × Nat)
/-- Bytes of the device at a CXL port, as the ROM finds it at a boot (R373). -/
opaque cxlCapacity : Nat → Nat → Nat
/-- An SLH-DSA-SHAKE-256f signature by the device identity key (R377). -/
opaque signature : List Byte → List Byte
/-- The certificate chain of slot 0 (R377). -/
opaque certificates : List Byte
/-- The body of an SPDM response whose bytes the spec leaves to SPDM 1.3 (R377). -/
opaque spdmBody : Nat → List Nat → List Byte

/-- A request of R377, as the bytes of SPDM 1.3 name it; `other` for one that is not to be sent in chunks. -/
inductive SpdmRequest where
  | other
  | getVersion
  | getCapabilities
  | negotiateAlgorithms (asym hash : Nat)
  | getDigests
  | getCertificate (slot ofs len : Nat)
  | challenge (slot : Nat) (nonce : List Byte)
  | getMeasurements (idx : Nat) (sign : Bool) (nonce : List Byte)
deriving DecidableEq, Repr, Inhabited

/-- What the bytes of a large request ask for: SPDM 1.3's to say (R377). -/
opaque spdmRequest : List Byte → SpdmRequest

end Sys2Proof.Config
end

