-- ==== Sys2Proof/Machine/State.lean ====
section
/-! DEFINITION. The machine's state as plain data, its reset value, and the reasons a step can stop.
INVENTORY.md lists each piece with the rule that names it. -/

namespace Sys2Proof.Machine

open Sys2Proof

/-! ## Memory (R45–R48) -/

/-- Byte memory: listed bytes, addresses strictly rising, none equal to what its address reads as unlisted. An
unlisted byte reads 0, or, where an event has preserved nothing, a free byte (R50, R371): `fill` holds its draw for each
package number of physical addresses, and for 0 in memories that no package number divides. -/
structure Memory where
  cells : List Host.Cell
  fill : NMap Nat
deriving DecidableEq, Repr

/-- Where a byte lies once translated: a physical address, a core's scratchpad, a block's accumulator tiles. -/
inductive Place where
  | g (phys : Nat)
  | sp (core addr : Nat)
  | acc (blk addr : Nat)
deriving DecidableEq, Repr

/-- How the words of an aligned pair stand to its 8-byte stores (R48): how many have been performed, and which of the 8
bytes are still as the last of them wrote them, bit by bit. -/
structure Pair where
  count : Nat
  last : Nat
deriving DecidableEq, Repr

/-- A Read Copy of a 4-byte word (R52): its bytes and, for the model, its pair as it stood when the copy was taken. -/
structure ReadCopy where
  val : Word
  pair : Pair
deriving DecidableEq, Repr

/-- A translation held by a TLB (R366): context, first virtual address, page bits, leaf entry, Format Table entry. -/
structure TlbEntry where
  ctx : Nat
  va : Nat
  log : Nat
  pte : DWord
  fmt : Option (List Byte)
deriving DecidableEq, Repr

/-! ## Threads and crews (R6, R10, R276) -/

/-- What a thread waits for (R19, R360). -/
inductive Wait where
  /-- a barrier: its scope and number, the arrival's place in Issue Order, and its generation once the arrival's release
  has completed (R262) -/
  | bar (scp cv seq : Nat) (gen : Option Nat)
  | sig (cv : Nat)
  | pass (k : Nat)
  | seal
  | switchPt (id : Nat)
  | waitDep
  | regacq (mask : Nat)
  | monwait
  /-- `waitcnt`: class and the operations it covers that were outstanding, or whose faults were held, when it issued
  (R260) -/
  | cnt (cls : Nat) (ops : List Nat)
  /-- a busy stream channel (R74) -/
  | chan (dir : Nat)
  /-- `fectl`: a vector register of the lane, by its key, to become full (R225) -/
  | full (key : Nat)
  /-- `pooltake`: its lanes have not all acted; its sequence number (R158) -/
  | take (seq : Nat)
  /-- `copyc` by a crew that has arrived (R257) -/
  | copyc (cv : Nat)
  /-- queue, task table, queue ring, hold count, stage: re-tried at each issue -/
  | retry
  /-- an instruction that does not issue yet, for a register that is empty or interlocked (R16, R17, R227) -/
  | operands
deriving DecidableEq, Repr

/-- Replay counts (R63, R143, R144, R158): no-return atomics, `dqpost`, queue pushes, `poolgive`. -/
structure Counts where
  red : Nat
  dq : Nat
  wq : Nat
  pool : Nat
deriving DecidableEq, Repr

def Counts.zero : Counts := ⟨0, 0, 0, 0⟩

/-- Where a load's or atomic's result goes: `n` registers of a lane, or a uniform register; `tag` is the producer's
sequence number, which its empty bits and interlocks carry. -/
structure Dest where
  vec : Bool
  reg : Nat
  n : Nat
  lane : Nat
  tag : Nat
deriving DecidableEq, Repr

/-- A thread checkpoint (R276). `v` and `empty` list the live-in registers by key `32 * register + lane`. -/
structure ThreadCkpt where
  pc : Nat
  /-- the crew's sequence number at the checkpoint: results of younger instructions are cancelled by a rollback -/
  seq : Nat
  li : BitVec 32
  ws : BitVec 32
  bay : BitVec 16
  v : NMap Word
  empty : NMap Nat
  p : NMap Bool
  dctr : List DWord
  /-- how often the thread had passed each switch point (R133) -/
  sw : NMap Nat
  /-- pops that `fectl.cancel` has withdrawn since, of registers that awaited them at the checkpoint: queue, destination
  (R24, R225) -/
  pops : List (Nat × Dest)
deriving DecidableEq, Repr

/-- One lane's flow of control (R6). -/
structure Thread where
  pc : Nat
  exited : Bool
  ltid : List DWord
  dctr : List DWord
  head : ThreadCkpt
  cnt : Counts
  /-- how many counted operations are still to be discarded on replay (R63) -/
  skip : Counts
  wait : Option Wait
  /-- when its present wait began, or its handler's part or the thread itself ended (R361) -/
  since : Option Nat
  /-- set when the thread went back to its head and has issued nothing since -/
  atHead : Bool
  /-- in a handler: where the interrupted thread stands, and what it waits for (R284, R361) -/
  ipc : Nat
  iwait : Option Wait
  /-- in a handler: `trapret.skip` has completed an instruction that ends its region, whose implicit head is still to be
  taken (R277, R361) -/
  iends : Bool
  /-- has executed the instruction it waits at (bar, seal, pass, switchpt, signature, `copyc`) -/
  arrived : Bool
  /-- its head is the implicit one of an instruction whose results are not all written yet (R277) -/
  headDue : Bool
  /-- how often the thread has passed each switch point (R133) -/
  sw : NMap Nat
  /-- arrivals at `bar` since its head: scope, number, place in Issue Order, generation once performed (R263) -/
  bars : List (Nat × Nat × Nat × Option Nat)
  /-- fold indices of the logical threads that had exited at an earlier switch, in a lane that still runs (R135) -/
  gone : List Nat
deriving DecidableEq, Repr

/-- An interlocked register (R227, R252): kind 0 `v`, 1 `s`, 2 `p`, and the producer's sequence number. -/
structure Lock where
  kind : Nat
  reg : Nat
  tag : Nat
deriving DecidableEq, Repr

/-- How loaded bytes become a register value: raw, or decoded and scaled (R92, R249); a scale byte comes from its own
place, under its own page's cache policy, and has its own virtual address. -/
inductive LoadConv where
  | raw
  | fmt (efmt dfmt : Fmt) (scale : Option (Place × Nat × Nat))
deriving DecidableEq, Repr

/-- A load that has issued and not been performed (R55). `va` is the address that the place was translated from, for a page
that is withdrawn in between (R353); `lanes` are the threads that it is of (R61). -/
structure Load where
  seq : Nat
  place : Place
  n : Nat
  pol : Nat
  conv : LoadConv
  dest : Dest
  va : Nat
  lanes : Lanes
deriving DecidableEq, Repr

/-- A result that another unit returns: the registers that wait for it and their value (R15). -/
structure Return where
  dest : Dest
  val : Nat
deriving DecidableEq, Repr

/-- An acquire that has not completed (R56): its sequence number. `mark` is set for one that also waits for the
Store Path entries of the same number (`fence.ar`, atomics with `.acq`). -/
structure Acq where
  seq : Nat
  mark : Bool
deriving DecidableEq, Repr

/-- What a release does once its marker leaves the Store Path (R57). -/
inductive Act where
  | none
  /-- an arrival at a barrier, with the count of blocks that its issue gave (R262) -/
  | bar (scp cv n : Nat)
  | trigger
  | qsubmit (q n : Nat)
  | taskDone (tids : List Nat)
  | dqpost (record : List Byte) (pd : Nat) (lanes : Lanes)
  | poolgive (pool : Nat) (addrs : List (Nat × Place))
  /-- one lane's `pooltake`: the pool, its pair, its predicate (R158); its thread waits until every lane has acted -/
  | pooltake (pool : Nat) (dest : Option Dest) (pd lane : Nat)
  /-- the exit of a crew's last thread (R57, R147) -/
  | exit
  | srel (dir : Nat)
deriving DecidableEq, Repr

/-- An entry of a Store Path (R52); `va` and `lanes` as in `Load`. -/
inductive SpEntry where
  | store (seq : Nat) (place : Place) (data : List Byte) (va : Nat) (lanes : Lanes)
  | atomic (seq : Nat) (place : Place) (n aop : Nat) (b c : DWord) (dest : Option Dest) (va : Nat) (lanes : Lanes)
  | marker (seq : Nat) (act : Act)
deriving DecidableEq, Repr

/-- A trap that has been raised and whose handler has not been entered (R346, R347). -/
structure PendTrap where
  cause : Nat
  taddr : Nat
  pc : Nat
  lanes : Lanes
  imm : Nat
  /-- 0 faulting instruction, 1 slot that follows, 2 heads (R348) -/
  resume : Nat
  /-- found after issue: the crew is rolled back first (R347) -/
  late : Bool
  /-- `ACC` of a fault record of this cause (R351) -/
  acc : Nat
deriving DecidableEq, Repr

/-- A handler that runs (R284, R348). -/
structure Handler where
  trap : PendTrap
  /-- handler threads that have not ended -/
  live : Lanes
  fstat : BitVec 6
deriving DecidableEq, Repr

/-- A crew parked in `monwait` (R83): condition, operand, deadline in cycles, predicate register, path, and since when
(R362). -/
structure Park where
  cond : Nat
  operand : Nat
  deadline : Option Nat
  pd : Nat
  lanes : Lanes
  act : Lanes
  since : Nat
deriving DecidableEq, Repr

/-- A monitor (R83): word, space code, and how its crew is parked. -/
structure Monitor where
  addr : Nat
  space : Nat
  parked : Option Park
deriving DecidableEq, Repr

/-- An engine protection fault that no `waitcnt` has raised (R260): the operation, the place of the crew's command in its
Issue Order, and what the access does (R351). -/
structure EngFault where
  op : Nat
  seq : Nat
  cls : Nat
  taddr : Nat
  acc : Nat
deriving DecidableEq, Repr

/-- An instruction whose hardware error has rolled its crew back (R383): its slot, whether the error was one of timing or of
parity, how often it has come in succession, and whether the crew has issued the instruction again since. -/
structure Retry where
  pc : Nat
  timing : Bool
  n : Nat
  issued : Bool
deriving DecidableEq, Repr

/-- 32 threads issued together (R6). `v` and `empty` are keyed `32 * register + lane`. The trap bank of its issue slot
(R285), while its handler runs, is `v` registers 256–271, `s` registers 64–71 and `p` registers 16–30. -/
structure Crew where
  slot : Nat
  s : NMap DWord
  sFill : Option Nat
  p : NMap Lanes
  pFill : Option Nat
  v : NMap Word
  vFill : NMap (Option Nat)
  /-- values the vector registers have held before (R24) -/
  held : NMap (List Word)
  empty : NMap Nat
  fstat : BitVec 6
  xheld : BitVec 3
  xmark : BitVec 3
  threads : NMap Thread
  ckS : NMap DWord
  ckFstat : BitVec 6
  ckSeq : Nat
  ckMark : BitVec 3
  seq : Nat
  storePath : List SpEntry
  loads : List Load
  /-- results of other units on their way to the registers -/
  returns : List Return
  acqs : List Acq
  locks : List Lock
  monitor : Option Monitor
  starve : Nat
  /-- wait counts of the crew's path groups, by program counter (R20) -/
  aged : NMap Nat
  /-- operations issued, by engine class, youngest first (R260) -/
  issued : NMap (List Nat)
  faults : List EngFault
  trap : Option PendTrap
  handler : Option Handler
  pendingPf : Option (Nat × Nat × Nat)
  /-- the fault-ring record awaited, once written -/
  pfSeq : Option Nat
  /-- a fault noticed late that has not rolled the crew back yet: cause, address, access (R24, R347) -/
  late : Option (Nat × Nat × Nat × PendTrap)
  /-- probes that the crew has sent in its present wait (R361) -/
  probes : Nat
  retired : Bool
  /-- has executed `trigger` (R147) -/
  triggered : Bool
  /-- instructions whose hardware errors have rolled the crew back (R383) -/
  retry : List Retry
  /-- how often the crew has passed each switch point (R133) -/
  swCount : NMap Nat
  /-- quality that the crew's latest `seal` gives (R35) -/
  sealQ : Option Nat
deriving DecidableEq, Repr

/-! ## Blocks (R6, R9) -/

/-- What the first signature of a convergence register recorded (R122): fields and operand values. -/
structure SigRec where
  instr : Instr
  vals : List DWord
deriving DecidableEq, Repr

/-- A crew's arrival at a `copyc` (R257): its sequence number, segment and stamp operands. -/
structure CopyArr where
  crew : Nat
  seq : Nat
  dst : Nat
  src : Nat
  len : Nat
  stamp : Option (Nat × Nat)
deriving DecidableEq, Repr

/-- Signatures, `copyc` arrivals, and the core barrier of one slot (R122, R257, R262). -/
structure Conv where
  cset : Option (BitVec 16)
  sig : Option SigRec
  /-- threads that have signed: crew and lane -/
  signed : List (Nat × Nat)
  /-- the operation that the signers count -/
  sigOp : Option Nat
  /-- `SUB` and `IMM8` of the first arrival -/
  copyFields : Option (Nat × Nat)
  copies : List CopyArr
  /-- the operation that the arrivals count -/
  copyOp : Option Nat
  /-- crews that have arrived at the core barrier of the slot in this generation, once for each arrival -/
  barArrived : List Nat
  barGen : Nat
deriving DecidableEq, Repr

def Conv.reset : Conv := ⟨none, none, [], none, none, [], none, [], 0⟩

/-- A format window (R93): byte range, format, block length, scale offset, stage size. -/
structure Window where
  base : Nat
  len : Nat
  efmt : Fmt
  blk : Nat
  scale : Nat
  stage : Nat
deriving DecidableEq, Repr

/-- A grant of `shape` (R119). -/
structure Grant where
  req : DWord
  m : Nat
  n : Nat
  k : Nat
  a : Fmt
  b : Fmt
deriving DecidableEq, Repr

/-- A Serial Phase Buffer entry (R68, R357). -/
structure SpbEntry where
  ltid : DWord
  count : Nat
  ofs : Nat
  operand : DWord
  aop : Nat
  w : Nat
deriving DecidableEq, Repr

/-- A layout record as the channel read it (R70). -/
structure Layout where
  base : Nat
  ext : List Nat
  str : List Nat
  box : List Nat
  ovr : Bool
  setwin : Bool
  fidx : Nat
  esz : Nat
  ndim : Nat
  nstg : Nat
  win : Nat
  rbase : Nat
  stgsz : Nat
  iter : Nat
  first : Nat
  nstep : Nat
deriving DecidableEq, Repr

/-- A stream channel (R74–R79). -/
structure Channel where
  op : Nat
  blk : Nat
  rec_ : Nat
  start : Nat
  lay : Layout
  /-- format in force: entry bytes, or none (R72) -/
  fmt : Option (List Byte)
  /-- iterations moved, released, handed over -/
  moved : Nat
  released : Nat
  handed : Nat
  /-- bytes of the iteration in transfer that have moved -/
  ptr : Nat
  stopped : Bool
  /-- idle again; the record of its last stream stays for `WPTR` -/
  done : Bool
deriving DecidableEq, Repr

/-- A core's deque (R142). -/
structure Deque where
  owner : Option Nat
  base : Nat
  lim : Nat
  bottom : Nat
  top : Nat
deriving DecidableEq, Repr

/-- Where a block stands. -/
inductive BlockState where
  | resident
  | saved
  | switching
  | ended
deriving DecidableEq, Repr

/-- A block (R6). -/
structure Block where
  grid : Nat
  lin : Nat
  vid : Nat
  core : Nat
  st : BlockState
  bays : List Nat
  crews : NMap Crew
  convs : NMap Conv
  grant : Option Grant
  kinds : NMap Fmt
  wins : NMap Window
  bypass : Option Memory
  acc : Memory
  spb : List SpbEntry
  spbCount : NMap Nat
  pass : Option Nat
  /-- quality of the crew that arrived last at `seal` -/
  sealQ : Option Nat
  flag : Option Nat
  /-- what the first crew's arrival has sampled at a switch point: at the `n`-th pass over point `id`, number `id + 64 n`
  (R133) -/
  sampled : NMap Bool
  switchId : Nat
  triggered : Bool
  /-- no crew of the block has issued yet (R171) -/
  fresh : Bool
  /-- higher-scope barrier at which the block's crews arrive: crews arrived, once for each arrival -/
  barCrews : NMap (List Nat)
  /-- arrivals at `pass`, `seal` and `switchpt` that a `trapret.skip` has left standing: crew, wait, lanes, place in Issue
  Order (R361) -/
  standing : List (Nat × Wait × Lanes × Nat)
  frame : Nat
  /-- the pool that the frame's object came from (R354) -/
  framePool : Nat
  why : Nat
  fseq : Option Nat
  savedAt : Nat
  placedAt : Nat
  /-- queues, deque, channels and bays that go with a saved block (R142, R144, R79, R280) -/
  savedWq : NMap (List Word)
  savedDq : Option Deque
  savedFill : Option Channel
  savedDrain : Option Channel
  savedBays : NMap (List Byte)
  /-- has flagged a resident block for pressure while it waits for its relaunch (R132) -/
  pressed : Bool
deriving DecidableEq, Repr

/-! ## Grids (R6, R337, R338) and kernel records (R316–R319) -/

/-- A variant record with its switch map: for each switch point its resume address and register bytes. -/
structure Variant where
  vid : Nat
  crews : Nat
  fold : Nat
  ext : Nat
  bays : Nat
  tiles : Nat
  slots : Nat
  carve : Nat
  tag : Nat
  entry : Nat
  maps : List (Nat × List Nat)
deriving DecidableEq, Repr

/-- A switch point (R318). -/
structure SwPoint where
  id : Nat
  w : Nat
  ranges : List (Nat × Nat)
deriving DecidableEq, Repr

/-- A parsed kernel record (R316). -/
structure Kernel where
  vars : List Variant
  sws : List SwPoint
  ladder : Bool
  ls : Nat
  lopen : Nat
  ltsize : Nat
  lbs : Nat
  swsize : Nat
deriving DecidableEq, Repr

/-- A launch's ladder (R29). -/
structure Ladder where
  hdr : Nat
  base : Nat
  tsize : Nat
  t : Nat
  s : Nat
  opn : Bool
deriving DecidableEq, Repr

/-- A launch's cone (R40); 0 means not set. -/
structure Cone where
  cyc : Nat
  nj : Nat
  ns : Nat
deriving DecidableEq, Repr

/-- How a grid stands. -/
inductive GridState where
  | running
  | cut
  | faulted
  | done
deriving DecidableEq, Repr

/-- A launched grid. -/
structure Grid where
  ctx : Nat
  level : Nat
  prio : Nat
  pkt : Nat
  kern : Kernel
  kdesc : Nat
  ladder : Option Ladder
  cone : Cone
  /-- the grid whose cone and children count this grid belongs to (R40, R148) -/
  parent : Option Nat
  depth : Nat
  producer : Option Nat
  key : BitVec 128
  args : DWord
  tcnt : Nat
  fst : Bool
  x : Nat
  y : Nat
  z : Nat
  policy : Nat
  fixedVar : Nat
  split : Nat
  fuse : Bool
  switchWait : Nat
  qgrp : Nat
  pkgB : Nat
  podB : Nat
  quadB : Nat
  dieB : Nat
  swArea : Nat
  cmpl : Nat
  /-- memory as it stood when the packet was read: what code is fetched from (R170) -/
  code : Memory
  handed : Nat
  launched : Nat
  ended : Nat
  st : GridState
  /-- the die whose cycles the grid counts: that on which it issued first (log 106) -/
  clkDie : Nat
  firstCycle : Option Nat
  endCycle : Nat
  cutCores : List Nat
  skips : Nat
  replays : Nat
  vused : List Nat
  floor : Nat
  fq : Nat
  recordDone : Bool
deriving DecidableEq, Repr

/-! ## Engines (R64–R82, R259, R271) -/

/-- One address range of a copy: space codes and addresses, virtual in `g`. -/
structure Seg where
  dsp : Nat
  dst : Nat
  ssp : Nat
  src : Nat
  len : Nat
deriving DecidableEq, Repr

/-- What an engine operation does. -/
inductive EngKind where
  | copy (segs : List Seg) (stamp : Option (Nat × Nat × Nat))
  | stream (dir core : Nat)
  /-- matrix operation with its operand values, the windows and the accumulator kind it took, and who held the bays of
  the quad at its issue: core, bay, block (R121) -/
  | mx (i : Instr) (vals : List DWord) (wins : NMap Window) (kind : Fmt) (held : List (Nat × Nat × Nat))
  | gather (scat : Bool) (size sp : Nat) (addrs : List (Nat × Nat))
  /-- a collective with its descriptor's address, its group and sequence number once it has started, and the destination
  range that its issue checked (R34) -/
  | coll (op desc group seq : Nat) (dst len : Nat)
deriving DecidableEq, Repr

/-- An engine operation (R64, R65). `issuers` are the crews that count it, with the sequence number of each; a crew that
signs more than once is listed again (R123). -/
structure EngOp where
  id : Nat
  cls : Nat
  blk : Nat
  issuers : List (Nat × Nat)
  /-- the packet or graph node that commands it, for a copy of no block -/
  pkt : Option Nat
  lanes : Lanes
  kind : EngKind
  /-- false while a `copyc` has not seen its last arrival -/
  ready : Bool
  started : Bool
  /-- bytes or parts already moved: (segment or dimension index, count) -/
  moved : List (Nat × Nat × Nat)
  stamped : Bool
  /-- stopped by a protection fault: its address, and what the access does (R78, R351) -/
  fault : Option (Nat × Nat)
  /-- a page fault that waits for service: address, access, record once written -/
  pf : Option (Nat × Nat × Option Nat)
  done : Bool
  engine : Nat
deriving DecidableEq, Repr

/-- A collective reduction in progress (R271). -/
structure CollRun where
  group : Nat
  seq : Nat
  sub : Nat
  fmt : Nat
  count : Nat
  k : Nat
  logs : Nat
  /-- contributions: slot, operation, destination (virtual) -/
  slots : List (Nat × Nat × Nat)
  /-- values present: level, index, elements -/
  vals : List (Nat × Nat × List Nat)
  /-- grids that have contributed (R382) -/
  grids : List Nat
  stopped : Bool
deriving DecidableEq, Repr

/-! ## Cores, quads, dies -/

/-- A register-mapped queue (R144). `pops` are the lanes left waiting, oldest first. -/
structure WQueue where
  elems : List Word
  grid : Option Nat
  pops : List (Nat × Nat × Dest)
deriving DecidableEq, Repr

/-- An issue slot: the crew picked last, the crew whose handler runs, crews whose traps wait (R18, R348). Its trap bank
is held by that crew, as registers above its own (`Crew.v`, `Crew.s`, `Crew.p`). -/
structure Slot where
  last : Nat
  busy : Option (Nat × Nat)
  waiting : List (Nat × Nat)
deriving DecidableEq, Repr

def Slot.reset : Slot := ⟨0, none, []⟩

/-- A core (R9, R49). -/
structure Core where
  split : Nat
  draining : Option Nat
  sp : Memory
  wqs : NMap WQueue
  dq : Deque
  fill : Option Channel
  drain : Option Channel
  /-- waiters in `regacq`, oldest first: block, crew, mask (R13) -/
  acqWait : List (Nat × Nat × Nat)
  nominal : Bool
  slots : NMap Slot
deriving DecidableEq, Repr

def Core.reset : Core :=
  { split := 384, draining := none, sp := ⟨[], []⟩, wqs := [], dq := ⟨none, 0, 0, 0, 0⟩, fill := none, drain := none,
    acqWait := [], nominal := false, slots := [] }

/-- A stream resident in a Mask Unit (R161): record address, `STATE`, `DEPTH`, `SPILL`, `STACK`, and the grids that have
named it while it was resident (R385). -/
structure GmStream where
  addr : Nat
  ctx : Nat
  va : Nat
  state : Nat
  depth : Nat
  spill : Nat
  stack : List Nat
  grids : List Nat
deriving DecidableEq, Repr

/-- A quad (R51, R160, R339). -/
structure Quad where
  fused : Bool
  streams : List GmStream
  bars : Nat
  /-- grids that hold quad barriers here -/
  holders : List (Nat × Nat)
deriving DecidableEq, Repr

def Quad.reset : Quad := ⟨false, [], 64, []⟩

/-- A task in the Dependence Table (R139, R140). -/
structure TaskEntry where
  gen : Nat
  tmap : Nat
  ctx : Nat
  core : Nat
  blk : Nat
  entry : DWord
  args : List DWord
  /-- handles and resolved tiles, read then write -/
  reads : List (Nat × Nat)
  writes : List (Nat × Nat)
  key : BitVec 128
  /-- indices of the tasks it waits for -/
  waits : List Nat
  posted : Bool
  order : Nat
deriving DecidableEq, Repr

/-- A block in a dispatcher's queue (R344): grid, linear index, cycle at which it joined, and whether it has flagged a
resident block for pressure (R132). -/
structure Queued where
  grid : Nat
  lin : Nat
  since : Nat
  pressed : Bool
deriving DecidableEq, Repr

/-- A die: Dependence Table, queued blocks, die barriers, clock (R139, R344, R388). -/
structure Die where
  clk : Nat
  throttled : Option Nat
  bce : Nat
  tasks : NMap TaskEntry
  gens : NMap Nat
  order : Nat
  retiredTiles : List (Nat × Nat × Nat)
  queue : List Queued
  bars : Nat
  holders : List (Nat × Nat)
deriving DecidableEq, Repr

def Die.reset : Die :=
  { clk := 0, throttled := none, bce := 0, tasks := [], gens := [], order := 0, retiredTiles := [], queue := [],
    bars := 64, holders := [] }

/-- A barrier instance above core scope (R262): grid, scope, unit, index. -/
structure BarInst where
  grid : Nat
  scp : Nat
  unit : Nat
  cv : Nat
  count : Option Nat
  blocks : List Nat
  gen : Nat
deriving DecidableEq, Repr

/-- An object pool (R157). -/
structure Pool where
  head : Nat
  base : Nat
  limit : Nat
  osz : Nat
  ctx : Option Nat
  free : Nat
deriving DecidableEq, Repr

/-! ## Contexts, queues, packets, graphs (R332–R345) -/

/-- A resident context: the slot register and the descriptor as read (R332). -/
structure Ctx where
  desc : Nat
  ptroot : Nat
  ftab : Nat
  qtab : Nat
  traph : Nat
  level : Nat
  debug : Bool
  ovs : Bool
  /-- the slot register was cleared while work was in flight -/
  leaving : Bool
deriving DecidableEq, Repr

/-- Fault-ring block and manifest registers of a context (R350, R369). -/
structure Ring where
  base : Nat
  log : Nat
  widx : Nat
  ridx : Nat
  savePool : Nat
  invAddr : Nat
  invCtl : Nat
  manBase : Nat
  manSz : Nat
  /-- unserviced records: sequence number and 64 KiB page -/
  pend : List (Nat × Nat)
  /-- `MCE` records that wait for room: unit kind and the `CMPL` address that each names (R351, R353) -/
  held : List (Nat × Nat)
deriving DecidableEq, Repr

def Ring.reset : Ring := ⟨0, 0, 0, 0, 0, 0, 0, 0, 0, [], []⟩

/-- Where a packet stands (R336). -/
inductive PktState where
  | read
  | started
  | ended
  | completed
deriving DecidableEq, Repr

/-- A packet in flight: its queue, place in the queue, bytes (with the `LEXT`'s), and what it has come to. -/
structure Packet where
  ctx : Nat
  q : Nat
  idx : Nat
  bytes : List Byte
  lext : List Byte
  st : PktState
  level : Nat
  prio : Nat
  device : Bool
  /-- grid that submitted it through `qsubmit` (R148) -/
  by_ : Option Nat
  grid : Option Nat
  graph : Option Nat
  op : Option Nat
  /-- graph run and node that this packet stands for -/
  node : Option (Nat × Nat)
  status : Nat
  reason : Nat
  runs : Nat
  cycles : Nat
  energy : Nat
  skips : Nat
  replays : Nat
  tstart : Nat
  /-- when it was read, and when it completed -/
  tread : Nat
  tend : Nat
  /-- since when it has been able to start (R343) -/
  able : Option Nat
  aged : Bool
  /-- memory when the packet was read (R170) -/
  code : Memory
deriving DecidableEq, Repr

/-- Run state of a queue (R333, R341). -/
structure QueueRun where
  level : Option Nat
  /-- the entry was found malformed and has not been corrected since (R333) -/
  bad : Bool
  /-- packets that `qsubmit` submitted: their place in the queue and the grid (R148) -/
  subs : NMap Nat
deriving DecidableEq, Repr

/-- A graph node's record (R342). -/
structure NodeRec where
  kind : Nat
  succ : List Nat
  b0 : Nat
  b1 : Nat
  addr : Nat
  xtra : Nat
deriving DecidableEq, Repr

/-- A node of a running graph: when it started, the status it ended with (0 for one that no `COND` took), runs of a
`LOOP`, whether the word of a `COND` was zero, and the packet that the node launched. -/
structure NodeRun where
  started : Option Nat
  status : Option Nat
  runs : Nat
  zero : Bool
  pkt : Option Nat
  /-- the first status other than `DONE` with which it ended in an earlier run of its loop, with its runs (R342) -/
  odd : Option (Nat × Nat)
deriving DecidableEq, Repr

/-- A running graph (R145, R342). -/
structure GraphRun where
  pkt : Nat
  ctx : Nat
  nodes : List NodeRec
  runs : NMap NodeRun
deriving DecidableEq, Repr

/-! ## Host boundary (R367–R377) -/

/-- `DEVSTAT` bits 2:0 (R369). -/
inductive DevState where
  | reset | awaiting | verifying | ready | refused
deriving DecidableEq, Repr

/-- Control and bring-up state (R369–R371). -/
structure Ctl where
  dev : DevState
  linkUp : Bool
  pkgId : BitVec 10
  fw : Memory
  fwLen : Nat
  /-- bytes that the ROM has mapped at each CXL port's base, up to 1 TiB (R373) -/
  cxl : List Nat
  /-- 64 KiB pages of the HBM that were withdrawn when the ROM built the map, ascending: not in the host's range (R367) -/
  hdm : List Nat
deriving DecidableEq, Repr

/-- SPDM responder (R377): how far the connection is, measurement 1, pending chunks and the last response. -/
structure Spdm where
  phase : Nat
  negotiated : Bool
  meas1 : List Byte
  reply : List Byte
  large : List Byte
  handle : Nat
  chunkIn : List Byte
deriving DecidableEq, Repr

/-- An Aedgor port (R375): the lanes in use, bit by bit, and its retries as `4 * time + lane`. -/
structure Port where
  lanes : BitVec 4
  retired : Bool
  retries : List Nat
deriving DecidableEq, Repr

def Port.reset : Port := ⟨15, false, []⟩

/-! ## The issuing path and the machine -/

/-- A path of a crew that issue has picked (R19): block, crew, lanes, program counter; whether it issues as path B of
its cycle; and, for the model, whether a translation fault of this instruction is noticed late (R24). -/
structure Path where
  blk : Nat
  crew : Nat
  lanes : Lanes
  pc : Nat
  isB : Bool
  late : Bool
deriving DecidableEq, Repr

/-- The whole machine. -/
structure State where
  time : Nat
  ctl : Ctl
  routes : NMap DWord
  ctxs : NMap Ctx
  rings : NMap Ring
  degraded : List DWord
  ports : NMap Port
  spdm : Spdm
  mem : Memory
  owners : NMap Nat
  copies : NMap (NMap ReadCopy)
  /-- pairs of words of global memory that an 8-byte store has written (R48) -/
  pairs : NMap Pair
  tlb : List TlbEntry
  pools : NMap Pool
  queues : NMap QueueRun
  packets : NMap Packet
  nextPkt : Nat
  graphs : NMap GraphRun
  grids : NMap Grid
  nextGrid : Nat
  blocks : NMap Block
  nextBlock : Nat
  cores : NMap Core
  quads : NMap Quad
  dies : NMap Die
  bars : List BarInst
  pkgBars : Nat
  podBars : Nat
  colls : List CollRun
  ops : List EngOp
  nextOp : Nat
  wdCtx : Nat
  /-- the queue of each context that started a packet last (R343) -/
  wdQ : NMap Nat
  /-- HBM pages whose access is being retried after an uncorrectable error (R383) -/
  hbmRetry : List Nat
  ladders : List Nat
  free : Nat
  path : Path
  issue : List Path
  agenda : List Move
deriving DecidableEq, Repr

/-- Why a step of this machine stops for good. No rule of the spec stops the whole machine, so nothing raises it. -/
inductive Fault where
  /-- raised by nothing; safe -/
  | halted
deriving DecidableEq, Repr

/-- Why a step has no meaning. -/
inductive Refusal where
  /-- an instruction that the model does not model yet, by its mnemonic; raised by the dispatch only; safe -/
  | notModelled (mnemonic : String)
deriving DecidableEq, Repr

def Ctl.reset : Ctl := ⟨.reset, false, 0, ⟨[], []⟩, 0, [], []⟩
def Spdm.reset : Spdm := ⟨0, false, [], [], [], 0, []⟩

/-- The machine right after power-on reset: every field as R369–R371 state it, and where they state nothing the value
that the log names. -/
def State.reset : State :=
  { time := 0, ctl := Ctl.reset, routes := [], ctxs := [], rings := [], degraded := [], ports := [],
    spdm := Spdm.reset, mem := ⟨[], []⟩, owners := [], copies := [], pairs := [], tlb := [], pools := [],
    queues := [], packets := [], nextPkt := 0, graphs := [], grids := [], nextGrid := 0, blocks := [], nextBlock := 0,
    cores := [], quads := [], dies := [], bars := [], pkgBars := 32, podBars := 16, colls := [], ops := [],
    nextOp := 0, wdCtx := 0, wdQ := [], hbmRetry := [], ladders := [], free := 0, path := ⟨0, 0, 0, 0, false, false⟩, issue := [],
    agenda := [] }

end Sys2Proof.Machine
end

