-- ==== Sys2Proof/Machine/Ops.lean ====
section
/-! DEFINITION. The named operations over memory, registers, cores, blocks and crews; address translation; traps:
raising one, entering the handler and returning from it. -/

namespace Sys2Proof.Machine

open Sys2Proof

/-! ## Byte memory -/

namespace Memory

/-- What an address reads as when no byte is listed for it. -/
def base (m : Memory) (a : Nat) : Byte :=
  match m.fill.find? (a / 2 ^ 48) with
  | none => 0
  | some n => Config.freeByte n (a % 2 ^ 48)

/-- Reads one byte. -/
def read1 (m : Memory) (a : Nat) : Byte := (NMap.find? m.cells a).getD (m.base a)

/-- Writes one byte, keeping the canonical form. -/
def write1 (m : Memory) (a : Nat) (b : Byte) : Memory :=
  { m with cells := if b = m.base a then NMap.erase m.cells a else NMap.set m.cells a b }

/-- Reads `n` bytes. -/
def read (m : Memory) (a : Nat) : Nat → List Byte
  | 0 => []
  | n + 1 => m.read1 a :: m.read (a + 1) n

/-- Writes bytes at rising addresses. -/
def write (m : Memory) (a : Nat) : List Byte → Memory
  | [] => m
  | b :: bs => (m.write1 a b).write (a + 1) bs

/-- The canonical form: keys strictly rising, no entry equal to what its address reads as unlisted, one draw a package. -/
def wf (m : Memory) : Bool := NMap.sorted m.cells && m.cells.all (fun e => e.2 != m.base e.1) && NMap.sorted m.fill

/-- Two package numbers trade the memory that they name, each byte at its local address. -/
def swapPkg (m : Memory) (a b : Nat) : Memory :=
  let other := fun p => if p = a then b else if p = b then a else p
  m.cells.foldl (fun n e => n.write1 (other (e.1 / 2 ^ 48) * 2 ^ 48 + e.1 % 2 ^ 48) e.2)
    ⟨[], m.fill.foldl (fun f e => NMap.set f (other e.1) e.2) []⟩

/-- Nothing that a package number names is preserved: every byte of it reads as one of draw `n` (R371). -/
def lose (m : Memory) (pkg n : Nat) : Memory :=
  ⟨m.cells.filter (fun e => e.1 / 2 ^ 48 != pkg), m.fill.set pkg n⟩

/-- The number at an address (R1). -/
def nat (m : Memory) (a n : Nat) : Nat := leNat (m.read a n)

end Memory

/-! ## Cores, quads, dies: global core number `192 * die + 4 * quad + core` -/

def quadOf (core : Nat) : Nat := core / 4
def dieOf (core : Nat) : Nat := core / 192

namespace State

def core (s : State) (c : Nat) : Core := s.cores.getD c Core.reset
def setCore (s : State) (c : Nat) (x : Core) : State := { s with cores := s.cores.set c x }
def quad (s : State) (q : Nat) : Quad := s.quads.getD q Quad.reset
def setQuad (s : State) (q : Nat) (x : Quad) : State := { s with quads := s.quads.set q x }
def die (s : State) (d : Nat) : Die := s.dies.getD d Die.reset
def setDie (s : State) (d : Nat) (x : Die) : State := { s with dies := s.dies.set d x }
def slot (s : State) (c i : Nat) : Slot := (s.core c).slots.getD i Slot.reset
def setSlot (s : State) (c i : Nat) (x : Slot) : State :=
  s.setCore c { s.core c with slots := (s.core c).slots.set i x }
def ring (s : State) (c : Nat) : Ring := s.rings.getD c Ring.reset
def setRing (s : State) (c : Nat) (x : Ring) : State := { s with rings := s.rings.set c x }
def block? (s : State) (b : Nat) : Option Block := s.blocks.find? b
def setBlock (s : State) (b : Nat) (x : Block) : State := { s with blocks := s.blocks.set b x }
def grid? (s : State) (g : Nat) : Option Grid := s.grids.find? g
def setGrid (s : State) (g : Nat) (x : Grid) : State := { s with grids := s.grids.set g x }
/-- Changes a block that exists. -/
def updBlock (s : State) (b : Nat) (f : Block → Block) : State :=
  match s.block? b with
  | some x => s.setBlock b (f x)
  | none => s
def updGrid (s : State) (g : Nat) (f : Grid → Grid) : State :=
  match s.grid? g with
  | some x => s.setGrid g (f x)
  | none => s
def crew? (s : State) (b c : Nat) : Option Crew := (s.block? b).bind (fun x => x.crews.find? c)
def setCrew (s : State) (b c : Nat) (x : Crew) : State :=
  s.updBlock b (fun k => { k with crews := k.crews.set c x })
def updCrew (s : State) (b c : Nat) (f : Crew → Crew) : State :=
  match s.crew? b c with
  | some x => s.setCrew b c (f x)
  | none => s
/-- Cycles of a core's die since package reset (R28). -/
def clock (s : State) (core : Nat) : Nat := (s.die (dieOf core)).clk / 50
/-- A fresh number for free values. -/
def draw (s : State) : State := { s with free := s.free + 1 }
/-- Blocks that are resident on a core. -/
def residents (s : State) (c : Nat) : List Nat :=
  (s.blocks.filter (fun e => e.2.st == .resident && e.2.core == c)).map Prod.fst

end State

/-- Scratchpad bytes of a split (R49). -/
def splitBytes (split : Nat) : Nat := split * 1024
/-- Bay bytes of a split (R49). -/
def bayBytes (split : Nat) : Nat := splitBytes split / 16

/-! ## Registers of a crew -/

/-- A checkpointed register that awaits a producer takes its value (R24, R278). -/
def ThreadCkpt.filled (h : ThreadCkpt) (k tag : Nat) (x : Word) : ThreadCkpt :=
  if h.empty.find? k = some tag then { h with v := h.v.set k x, empty := h.empty.erase k } else h

/-- A checkpointed register takes the value of an interlocked producer that is not younger than the checkpoint (R277). -/
def ThreadCkpt.takes (h : ThreadCkpt) (k tag : Nat) (x : Word) : ThreadCkpt :=
  if tag ≤ h.seq ∧ (h.v.find? k).isSome then { h with v := h.v.set k x } else h

/-- A checkpointed predicate bit takes the value of such a producer. -/
def ThreadCkpt.takesP (h : ThreadCkpt) (n tag : Nat) (x : Bool) : ThreadCkpt :=
  if tag ≤ h.seq then { h with p := h.p.set n x } else h

namespace Crew

/-- Uniform register, bank registers above 63. -/
def getS (c : Crew) (n : Nat) : DWord :=
  match c.s.find? n with
  | some x => x
  | none =>
    match c.sFill with
    | none => 0
    | some k => Config.freeWord k n

def setS (c : Crew) (n : Nat) (x : DWord) : Crew := { c with s := c.s.set n x }

/-- Predicate register; `p15` reads as all ones (R10). -/
def getP (c : Crew) (n : Nat) : Lanes :=
  if n = 15 then BitVec.allOnes 32
  else
    match c.p.find? n with
    | some x => x
    | none =>
      match c.pFill with
      | none => 0
      | some k => (Config.freeWord k (1000 + n)).setWidth 32

/-- Writes the bits of the lanes in `m`; a write to `p15` is discarded (R10). -/
def setP (c : Crew) (n : Nat) (m x : Lanes) : Crew :=
  if n = 15 then c else { c with p := c.p.set n ((c.getP n &&& ~~~m) ||| (x &&& m)) }

/-- Key of a vector register of a lane. -/
def key (r lane : Nat) : Nat := 32 * r + lane

/-- Vector register of a lane. -/
def getV (c : Crew) (r lane : Nat) : Word :=
  match c.v.find? (key r lane) with
  | some x => x
  | none =>
    match c.vFill.getD (r / 64) none with
    | none => 0
    | some k => (Config.freeWord k (2000 + key r lane)).setWidth 32

/-- The value a register holds joins those it has held (R24). -/
def remember (c : Crew) (r lane : Nat) : NMap (List Word) :=
  let old := c.getV r lane
  let h := c.held.getD (key r lane) []
  if h.contains old then c.held else c.held.set (key r lane) (old :: h)

/-- Writes a vector register of a lane and makes it full (R15). -/
def setV (c : Crew) (r lane : Nat) (x : Word) : Crew :=
  { c with held := c.remember r lane, v := c.v.set (key r lane) x, empty := c.empty.erase (key r lane) }

/-- Is the register empty in the lane (R15)? -/
def isEmpty (c : Crew) (r lane : Nat) : Bool := (c.empty.find? (key r lane)).isSome

/-- Marks a register empty in a lane until the producer `tag` writes it (R15). -/
def markEmpty (c : Crew) (r lane tag : Nat) : Crew := { c with empty := c.empty.set (key r lane) tag }

/-- Writes `n` consecutive vector registers, the lowest with the low bits (R85). -/
def setVs (c : Crew) (r lane : Nat) : Nat → Nat → Crew
  | 0, _ => c
  | n + 1, x => (c.setV r lane (BitVec.ofNat 32 x)).setVs (r + 1) lane n (x / 2 ^ 32)

/-- Reads `n` consecutive vector registers. -/
def getVs (c : Crew) (r lane : Nat) : Nat → Nat
  | 0 => 0
  | n + 1 => (c.getV r lane).toNat + 2 ^ 32 * c.getVs (r + 1) lane n

/-- Does the crew hold register block `r / 64` (R12)? -/
def holds (c : Crew) (r : Nat) : Bool := r < 64 || r ≥ 256 || c.xheld.getLsbD (r / 64 - 1)

def thread? (c : Crew) (l : Nat) : Option Thread := c.threads.find? l

def updThread (c : Crew) (l : Nat) (f : Thread → Thread) : Crew :=
  match c.threads.find? l with
  | some t => { c with threads := c.threads.set l (f t) }
  | none => c

/-- Changes the threads of a set of lanes. -/
def updThreads (c : Crew) (m : Lanes) (f : Thread → Thread) : Crew :=
  { c with threads := c.threads.mapVals (fun l t => if m.getLsbD l then f t else t) }

/-- Lanes whose threads satisfy a test. -/
def lanesWhere (c : Crew) (p : Thread → Bool) : Lanes :=
  maskOf ((c.threads.filter (fun e => p e.2)).map Prod.fst)

/-- Non-exited lanes. -/
def liveLanes (c : Crew) : Lanes := c.lanesWhere (fun t => !t.exited)

/-- Has every thread exited (R275)? -/
def allExited (c : Crew) : Bool := c.threads.all (fun e => e.2.exited)

/-- ORs flags into `FSTAT`, the handler's own while one runs (R97, R284). -/
def orFlags (c : Crew) (fl : Flags) : Crew :=
  match c.handler with
  | some h => { c with handler := some { h with fstat := h.fstat ||| fl } }
  | none => { c with fstat := c.fstat ||| fl }

def getFstat (c : Crew) : Flags :=
  match c.handler with
  | some h => h.fstat
  | none => c.fstat

def setFstat (c : Crew) (fl : Flags) : Crew :=
  match c.handler with
  | some h => { c with handler := some { h with fstat := fl } }
  | none => { c with fstat := fl }

/-- Next sequence number of the crew's Issue Order (R52). -/
def bump (c : Crew) : Crew := { c with seq := c.seq + 1 }

def inHandler (c : Crew) : Bool := c.handler.isSome

/-- The threads that may issue: those that have not exited; in a handler, those of them that have not ended it (R284). -/
def running (c : Crew) : List Thread :=
  ((c.threads.filter (fun e => !e.2.exited && c.handler.all (fun h => h.live.getLsbD e.1))).map Prod.snd)

/-- Since when the crew has waited (R361): each of its threads that may issue waits, in an instruction or for its operands
(R17), and the last of its threads began to wait, or ended, then. A crew with a thread that can still go on does not wait
(log 126). -/
def waitSince (c : Crew) : Option Nat :=
  if c.running.isEmpty || c.running.any (fun t => t.wait.isNone) then none
  else some (((c.threads.filter (fun e => c.handler.all (fun h => h.trap.lanes.getLsbD e.1))).filterMap (fun e => e.2.since)).foldl max 0)

/-- Number of the register that a vector register name means (R285). -/
def vName (c : Crew) (r : Nat) : Nat := if c.inHandler && decide (r < 16) then 256 + r else r
def sName (c : Crew) (r : Nat) : Nat := if c.inHandler && decide (r < 8) then 64 + r else r
def pName (c : Crew) (r : Nat) : Nat := if c.inHandler && decide (r < 15) then 16 + r else r

/-- An acquire joins those to complete (R56). -/
def acquire (c : Crew) (seq : Nat) (mark : Bool) : Crew := { c with acqs := c.acqs ++ [⟨seq, mark⟩] }

/-- Writes a pending result, in the checkpoints that await it too: registers still waiting for this producer take it,
an exited thread's are discarded (R15, R275, R278). -/
def deliver (c : Crew) (d : Dest) (x : Nat) : Crew :=
  if d.vec then
    if (c.threads.find? d.lane).all (·.exited) then c
    else (List.range d.n).foldl (fun c i =>
      let r := d.reg + i
      let x := BitVec.ofNat 32 (x / 2 ^ (32 * i))
      let held := c.locks.contains ⟨0, r, d.tag⟩
      let k := key r d.lane
      let c := c.updThread d.lane (fun t =>
        { t with head := if held then t.head.takes k d.tag x else t.head.filled k d.tag x })
      if c.empty.find? (key r d.lane) == some d.tag || held then c.setV r d.lane x
      else c) c
  else if c.locks.contains ⟨1, d.reg, d.tag⟩ then
    let c := if d.tag ≤ c.ckSeq then { c with ckS := c.ckS.set d.reg (BitVec.ofNat 64 x) } else c
    c.setS d.reg (BitVec.ofNat 64 x)
  else c

/-- Writes a pending predicate result in the lanes of a set, in the checkpoints that it is older than too. -/
def deliverP (c : Crew) (n : Nat) (m x : Lanes) (tag : Nat) : Crew :=
  if n = 15 then c
  else
    { (c.setP n m x) with threads := c.threads.mapVals (fun l t =>
        if m.getLsbD l then { t with head := t.head.takesP n tag (x.getLsbD l) } else t) }

/-- A producer has written everything: its interlocks end. -/
def unlock (c : Crew) (tag : Nat) : Crew := { c with locks := c.locks.filter (fun l => l.tag != tag) }

/-- Appends entries to the Store Path. -/
def push (c : Crew) (es : List SpEntry) : Crew := { c with storePath := c.storePath ++ es }

end Crew

/-! ## Physical memory and the units' writes (R52, R54, R64, R389) -/

/-- The L1 of a core: the quad's own when fused (R51). -/
def l1Of (s : State) (core : Nat) : Nat := if (s.quad (quadOf core)).fused then 1000 + quadOf core else core

/-- The cores that an L1 serves. -/
def l1Cores (l1 : Nat) : List Nat :=
  if l1 < 1000 then [l1] else [4 * (l1 - 1000), 4 * (l1 - 1000) + 1, 4 * (l1 - 1000) + 2, 4 * (l1 - 1000) + 3]

/-- The registry's name of a core: package and core (R52). -/
def ownerId (s : State) (core : Nat) : Nat := s.ctl.pkgId.toNat * 1024 + core

/-- The 4-byte words that a byte range touches. -/
def wordsOf (a n : Nat) : List Nat := (List.range ((a + n + 3) / 4 - a / 4)).map (· + a / 4)

/-- The pair that a word or a byte of it belongs to, as it stands. -/
def pairAt (pairs : NMap Pair) (p : Nat) : Pair := pairs.getD p ⟨0, 0⟩

/-- The bits of a pair's bytes that a range covers. -/
def pairBits (p a n : Nat) : Nat :=
  (((List.range 8).filter (fun i => decide (a ≤ 8 * p + i) && decide (8 * p + i < a + n))).map (2 ^ ·)).sum

/-- The pairs of memory after a write: an 8-byte store of a whole pair is its last one, any other write takes the bytes that
it covers away from that. -/
def pairsAfter (pairs : NMap Pair) (a n : Nat) : NMap Pair :=
  if n = 8 ∧ a % 8 = 0 then pairs.set (a / 8) ⟨(pairAt pairs (a / 8)).count + 1, 255⟩
  else
    (List.range ((a + n + 7) / 8 - a / 8)).foldl (fun m i =>
      match m.find? (a / 8 + i) with
      | none => m
      | some e => m.set (a / 8 + i) { e with last := e.last - (e.last &&& pairBits (a / 8 + i) a n) }) pairs

/-- A write that no crew's Store Path performs: the words' owner becomes none (R64, R389). -/
def unitWrite (s : State) (phys : Nat) (data : List Byte) : State :=
  { s with
    mem := s.mem.write phys data
    pairs := pairsAfter s.pairs phys data.length
    owners := (wordsOf phys data.length).foldl (fun o w => o.erase w) s.owners }

/-- Reads bytes where an access is performed. -/
def readPlace (s : State) (p : Place) (n : Nat) : List Byte :=
  match p with
  | .g a => s.mem.read a n
  | .sp c a => (s.core c).sp.read a n
  | .acc b a =>
    match s.block? b with
    | some k => k.acc.read a n
    | none => List.replicate n 0

/-- Writes bytes where an access is performed, as a unit does. -/
def writePlace (s : State) (p : Place) (data : List Byte) : State :=
  match p with
  | .g a => unitWrite s a data
  | .sp c a => s.setCore c { s.core c with sp := (s.core c).sp.write a data }
  | .acc b a => s.updBlock b (fun k => { k with acc := k.acc.write a data })

/-- An access to a place has succeeded: its HBM page is no longer being tried again (R383). -/
def hbmDone (s : State) (p : Place) : State :=
  match p with
  | .g a => { s with hbmRetry := s.hbmRetry.filter (fun q => q != a % 2 ^ 48 / 65536) }
  | _ => s

/-- The Invalidation Set of an L1: words with a Read Copy that none of its cores owns (R52). -/
def invalSet (s : State) (l1 : Nat) : List Nat :=
  (s.copies.getD l1 []).keys.filter (fun w =>
    match s.owners.find? w with
    | none => true
    | some o => !((l1Cores l1).map (ownerId s)).contains o)

/-- A Read Copy of a word as the home is now. -/
def copyNow (mem : Memory) (pairs : NMap Pair) (w : Nat) : ReadCopy :=
  ⟨BitVec.ofNat 32 (mem.nat (4 * w) 4), pairAt pairs (w / 2)⟩

/-- A store of a crew performed at its place (R54): value, owner, the core's own Read Copy. -/
def performStore (s : State) (core : Nat) (p : Place) (data : List Byte) : State :=
  match p with
  | .g a =>
    let me := ownerId s core
    let l1 := l1Of s core
    let ws := wordsOf a data.length
    let mem := s.mem.write a data
    let pairs := pairsAfter s.pairs a data.length
    let upd := fun (m : NMap ReadCopy) (w : Nat) =>
      match m.find? w with
      | none => m
      | some _ =>
        let whole := decide (a ≤ 4 * w) && decide (4 * w + 4 ≤ a + data.length)
        if whole || s.owners.find? w == some me then m.set w (copyNow mem pairs w)
        else m.erase w
    { s with
      mem := mem
      pairs := pairs
      owners := ws.foldl (fun o w => o.set w me) s.owners
      copies := if (s.copies.find? l1).isSome then s.copies.set l1 (ws.foldl upd (s.copies.getD l1 [])) else s.copies }
  | _ => writePlace s p data

/-! ## Address map and translation (R47, R363–R366, R372, R374) -/

/-- What an access does. -/
inductive Acc where
  | read | write | exec
deriving DecidableEq, Repr

/-- What a translation answers. -/
inductive Xlat where
  | ok (phys : Nat) (pte : DWord) (log : Nat) (fmt : Option (List Byte))
  | pf
  | prot
deriving DecidableEq, Repr

/-- Sign-agreeing upper bits of a 64-bit address (R47); a range that runs past the last address leaves the space (R80). -/
def canonical (va : Nat) : Bool := decide (va < 2 ^ 64) && bits va 57 7 == (if bitAt va 56 then 127 else 0)

/-- A unit of a kind is in the degraded-unit map (R384). -/
def isDegraded (s : State) (kind idx : Nat) : Bool :=
  s.degraded.any (fun e => e.toNat % 256 == kind && bits e.toNat 8 24 == idx)

/-- 64 KiB pages of the HBM (R372). -/
def hbmPages : Nat := 0xC0_0000_0000 / 65536

/-- HBM channel of a 64 KiB page: interleaving is internal to the package (R372). Log 22. -/
def hbmChannel (page : Nat) : Nat := Config.freeChoice 0 page % 192

/-- Is a local address of a package present (R372, R373, R384), and in which tier? `none` for absent. Of another package
this one knows only the layout that every package has (log 112). -/
def tierOf (s : State) (mine : Bool) (loc : Nat) : Option Bool :=
  if loc < 0xC0_0000_0000 then some false
  else if 0x8000_0000_0000 ≤ loc ∧ loc < 0x8400_0000_0000 then
    let port := (loc - 0x8000_0000_0000) / 0x100_0000_0000
    if mine && (isDegraded s 8 port || decide (s.ctl.cxl.getD port 0 ≤ loc % 0x100_0000_0000)) then none else some true
  else none

/-- Has a 64 KiB page of the package's own HBM been withdrawn, by its local address (R353, R384)? -/
def pageGone (s : State) (loc : Nat) : Bool :=
  isDegraded s 5 (loc / 65536) ||
    s.degraded.any (fun d => d.toNat % 256 == 4 && bits d.toNat 8 24 == hbmChannel (loc / 65536))

/-- Is a package reached: this one, or through a valid route entry whose port works (R374, R375)? -/
def routeOk (s : State) (pkg : Nat) : Bool :=
  if pkg = s.ctl.pkgId.toNat then true
  else
    let e := (s.routes.getD pkg 0).toNat
    bitAt e 63 && bits e 6 57 == 0 && decide (e % 64 < 36) && !(s.ports.getD (e % 64) Port.reset).retired &&
      !isDegraded s 7 (e % 64)

/-- Checks of a leaf for one access (R364, R365, R372), but for the route that it takes. -/
def leafCheck (s : State) (e : DWord) (log va : Nat) (acc : Acc) : Xlat :=
  let x := e.toNat
  let page := bits x 8 50 * 256
  let phys := page + va % 2 ^ log
  let loc := phys % 2 ^ 48
  let mine := phys / 2 ^ 48 == s.ctl.pkgId.toNat
  if page % 2 ^ log ≠ 0 ∨ bitAt x 7 = true then .prot
  else if tierOf s mine loc != some (bitAt x 5) then .prot
  else if !(match acc with | .read => bitAt x 2 | .write => bitAt x 3 | .exec => bitAt x 4) then .prot
  else if mine && !(bitAt x 5) && pageGone s loc then .pf
  else .ok phys e log none

/-- The page-table walk from a level (R363–R365): levels 1 to 5. -/
def walk (s : State) (va : Nat) (acc : Acc) : Nat → Nat → Nat → Xlat
  | 0, _, _ => .prot
  | fuel + 1, level, table =>
    let idx := if level = 5 then bits va 16 5 else bits va (48 - 9 * (level - 1)) (if level = 5 then 5 else 9)
    let e := BitVec.ofNat 64 (s.mem.nat (table + 8 * idx) 8)
    let x := e.toNat
    let log := if level = 3 then 30 else if level = 4 then 21 else 16
    if !bitAt x 0 then .pf
    else if bitAt x 1 then
      if level < 3 then .prot else leafCheck s e log va acc
    else
      let next := bits x 8 50 * 256
      if level = 5 ∨ bits x 58 6 ≠ 0 ∨ bits x 2 3 ≠ 0 ∨ bitAt x 7 = true then .prot
      else if next % (if level = 4 then 256 else 4096) ≠ 0 then .prot
      else walk s va acc fuel (level + 1) next

/-- A translated access whose package is not reached raises `PROT` (R374). -/
def routed (s : State) (x : Xlat) : Xlat :=
  match x with
  | .ok p e log f => if routeOk s (p / 2 ^ 48) then .ok p e log f else .prot
  | r => r

/-- A fresh walk of a context's tables. -/
def walkCtx (s : State) (c : Ctx) (va : Nat) (acc : Acc) : Xlat :=
  routed s (if canonical va then walk s va acc 5 1 c.ptroot else .prot)

/-- Where a present page puts an address, whichever of the accesses its permissions allow (R364). -/
def placeOf (s : State) (c : Ctx) (va : Nat) : Option Nat :=
  [Acc.read, .write, .exec].findSome? (fun acc =>
    match walkCtx s c va acc with
    | .ok p _ _ _ => some p
    | _ => none)

/-- Reads `n` bytes of a context's virtual memory as a unit does, page by page. -/
def readVirt (s : State) (c : Ctx) (va : Nat) : Nat → Option (List Byte)
  | 0 => some []
  | n + 1 =>
    match walkCtx s c va .read with
    | .ok p _ _ _ => (readVirt s c (va + 1) n).map (fun bs => s.mem.read1 p :: bs)
    | _ => none

/-- A translation of a context through its TLBs, before its route: a held translation that the tables no longer give may
still be used (R366), so which of the two applies is free. DESIGN CHOICE, log 115: a Format Table that is absent, or whose
entry's own page cannot be read, gives an empty entry, which raises `PROT` at the load's address. -/
def xlat (s : State) (ctx : Nat) (va : Nat) (acc : Acc) : Xlat :=
  match s.ctxs.find? ctx with
  | none => .prot
  | some c =>
    let fresh := if canonical va then walk s va acc 5 1 c.ptroot else .prot
    let fmtOf := fun (e : DWord) =>
      if bits e.toNat 58 6 = 0 then none
      else if c.ftab = 0 then some []
      else some ((readVirt s c (c.ftab + 16 * bits e.toNat 58 6) 16).getD [])
    let freshF := match fresh with
      | .ok p e log _ => .ok p e log (fmtOf e)
      | r => r
    if !canonical va then .prot
    else
      match s.tlb.find? (fun t => t.ctx == ctx && t.va == va / 2 ^ t.log * 2 ^ t.log) with
      | none => freshF
      | some t =>
        let held := match leafCheck s t.pte t.log va acc with
          | .ok p e log _ => .ok p e log t.fmt
          | r => r
        if held = freshF then freshF
        else if Config.freeChoice s.free va % 2 = 0 then held else freshF

/-- A translation of a context, with the route that the access takes (R366, R374). -/
def translate (s : State) (ctx : Nat) (va : Nat) (acc : Acc) : Xlat := routed s (xlat s ctx va acc)

/-- Has the page of a translated place been withdrawn since? -/
def withdrawn (s : State) (p : Place) : Bool :=
  match p with
  | .g a => a / 2 ^ 48 == s.ctl.pkgId.toNat && decide (a % 2 ^ 48 < 0xC0_0000_0000) && pageGone s (a % 2 ^ 48)
  | _ => false

/-- Where a translated access is performed: at its place or, when the page has been withdrawn since, where its address is
mapped by then; none while it is mapped nowhere (R353). -/
def standingPlace (s : State) (ctx : Nat) (p : Place) (va : Nat) (acc : Acc) : Option Place :=
  if withdrawn s p then
    match translate s ctx va acc with
    | .ok q _ _ _ => some (.g q)
    | _ => none
  else some p

/-- Does an access fail for its route alone (R374)? -/
def badRoute (s : State) (ctx va : Nat) (acc : Acc) : Bool :=
  match xlat s ctx va acc with
  | .ok p _ _ _ => !routeOk s (p / 2 ^ 48)
  | _ => false

/-- The translations of an access stay in the TLBs (R366). -/
def tlbKeep (s : State) (ctx va : Nat) (x : Xlat) : State :=
  match x with
  | .ok _ e log f =>
    let t : TlbEntry := ⟨ctx, va / 2 ^ log * 2 ^ log, log, e, f⟩
    if s.tlb.contains t then s
    else { s with tlb := t :: s.tlb.filter (fun o => !(o.ctx == ctx && o.va == t.va && o.log == log)), free := s.free + 1 }
  | _ => s

/-- Writes bytes of a context's virtual memory as a unit does (R389); bytes that cannot be reached are not written. -/
def writeVirt (s : State) (c : Ctx) (va : Nat) : List Byte → State
  | [] => s
  | b :: bs =>
    let s' := match walkCtx s c va .write with
      | .ok p _ _ _ => unitWrite s p [b]
      | _ => s
    writeVirt s' c (va + 1) bs

/-- The number at a virtual address, read by a unit. -/
def natVirt (s : State) (c : Ctx) (va n : Nat) : Option Nat := (readVirt s c va n).map leNat

/-- Where the pages of a virtual range lie that are present, whatever their permissions: address and length. -/
def chunksOf (s : State) (c : Ctx) (va n : Nat) : List (Nat × Nat) :=
  (List.range (n / 65536 + 2)).filterMap (fun i =>
    let lo := max va ((va / 65536 + i) * 65536)
    let hi := min (va + n) ((va / 65536 + i + 1) * 65536)
    if lo < hi then (placeOf s c lo).map (fun p => (p, hi - lo)) else none)

/-- Headers of ladders whose launch has not completed: where the header lies, and where its bytes and its tile entries do
(R31). -/
def liveHeaders (s : State) : List (Nat × List (Nat × Nat)) :=
  s.grids.filterMap (fun e =>
    match e.2.ladder, s.ctxs.find? e.2.ctx with
    | some l, some c =>
      if e.2.recordDone then none
      else (placeOf s c l.hdr).map (fun p => (p, chunksOf s c l.hdr (64 + 8 * l.t)))
    | _, _ => none)

/-- A write of another agent into a live ladder's header or tile entries leaves every header field unpredictable (R31). -/
def spoil (s : State) (a n : Nat) : State :=
  (liveHeaders s).foldl (fun s h =>
    if h.2.any (fun e => decide (a < e.1 + e.2) && decide (e.1 < a + n)) then
      (unitWrite s h.1 ((List.range 64).map (fun i => Config.freeByte s.free i))).draw
    else s) s

/-- `spoil` for a place. -/
def spoilPlace (s : State) (p : Place) (n : Nat) : State :=
  match p with
  | .g a => spoil s a n
  | _ => s

/-- A unit's write at a place, with what it does to a live ladder's header (R31). -/
def storePlace (s : State) (p : Place) (data : List Byte) : State := spoilPlace (writePlace s p data) p data.length

/-- A unit's write to virtual memory, with what it does to a live ladder's header (R31): every one but the Z5's own updates
of a header is made so. -/
def storeVirt (s : State) (c : Ctx) (va : Nat) (data : List Byte) : State :=
  (chunksOf s c va data.length).foldl (fun s p => spoil s p.1 p.2) (writeVirt s c va data)

/-! ## Trap causes (R346) -/

def cUnd : Nat := 1
def cBtgt : Nat := 2
def cFe : Nat := 3
def cPf : Nat := 4
def cProt : Nat := 5
def cAlign : Nat := 6
def cSeal : Nat := 7
def cGstk : Nat := 8
def cGempty : Nat := 9
def cDlk : Nat := 10
def cSw : Nat := 11
def cDbg : Nat := 12
def cMce : Nat := 13

/-! ## Grids that end (R353) -/

/-- Every grid below a grid, itself among them (R40). -/
def family (s : State) (g : Nat) : List Nat :=
  let rec go : Nat → List Nat → List Nat
    | 0, acc => acc
    | n + 1, acc =>
      let more := (s.grids.filter (fun e =>
        match e.2.parent with
        | some p => acc.contains p && !acc.contains e.1
        | none => false)).map Prod.fst
      go n (acc ++ more)
  go 8 [g]

/-- Virtual addresses of a ladder header's fields (R31). -/
def ladderCtl (l : Ladder) : Nat := l.hdr + 0x14
def tileEntry (l : Ladder) (t : Nat) : Nat := l.hdr + 64 + 8 * t

/-- Sets bits in a ladder header's `CTL`, as one atomic update at its home L2 (R31, R389). -/
def setCtl (s : State) (c : Ctx) (l : Ladder) (mask : Nat) : State :=
  match natVirt s c (ladderCtl l) 4 with
  | some v => writeVirt s c (ladderCtl l) (leBytes 4 (v ||| mask))
  | none => s

/-- Ends a grid: its crews stop, `CUT` is set in its ladder's header, and the floor is taken (R41, R353). -/
def endGrid (s : State) (g : Nat) (how : GridState) : State :=
  match s.grid? g with
  | none => s
  | some gr =>
    if gr.st != .running then s
    else
      let cyc := (s.die gr.clkDie).clk / 50
      match gr.ladder, s.ctxs.find? gr.ctx with
      | some l, some c =>
        let s := setCtl s c l 8
        let fl := (natVirt s c (l.hdr + 0x10) 2).getD 0xFFFF
        let fq := (natVirt s c (l.hdr + 0x12) 2).getD 0
        s.setGrid g { gr with st := how, endCycle := cyc, floor := fl, fq := fq }
      | _, _ => s.setGrid g { gr with st := how, endCycle := cyc }

/-- Does a context's fault ring hold as many unserviced records as it can (R351)? -/
def ringFull (s : State) (ctx : Nat) : Bool := decide (2 ^ (s.ring ctx).log ≤ (s.ring ctx).widx - (s.ring ctx).ridx)

/-- Writes a fault-ring record and advances `FRWIDX` (R351); answers its number, or none when the ring is full. -/
def ringRecord (s : State) (ctx va cause src acc unit grid : Nat) : State × Option Nat :=
  let r := s.ring ctx
  if ringFull s ctx then (s, none)
  else
    match s.ctxs.find? ctx with
    | none => (s, none)
    | some c =>
      let bytes := leBytes 8 va ++ leBytes 1 cause ++ leBytes 1 src ++ leBytes 1 acc ++ leBytes 1 unit ++
        leBytes 4 r.widx ++ leBytes 8 grid ++ leBytes 8 0
      let s := storeVirt s c (r.base + 32 * (r.widx % 2 ^ r.log)) bytes
      (s.setRing ctx { r with
        widx := r.widx + 1
        pend := r.pend ++ [(r.widx, if cause = cMce then 2 ^ 64 else va / 65536)] }, some r.widx)

/-- A cause that cannot enter the handler, or is raised in one: the grid ends with `FAULT` (R349). -/
def doubleFault (s : State) (g va cause acc : Nat) : State :=
  match s.grid? g with
  | none => s
  | some gr =>
    let (s, _) := ringRecord s gr.ctx va cause 4 acc 0 gr.cmpl
    endGrid s g .faulted

/-! ## Raising a trap (R178, R346, R347) -/

/-- Raises a trap in a crew: the trap waits for its issue slot's bank (R348). A second trap of one cycle has no effect
(R178). In a handler the grid ends (R349), once the fault ring has room for the record (R351). -/
def raiseTrap (s : State) (b c : Nat) (t : PendTrap) : State :=
  match s.block? b, s.crew? b c with
  | some k, some cr =>
    if cr.trap.isSome then s
    else if cr.inHandler then
      if (s.grid? k.grid).any (fun g => ringFull s g.ctx) then s.setCrew b c { cr with trap := some t }
      else doubleFault s k.grid t.taddr t.cause t.acc
    else
      let s := s.setCrew b c { cr with trap := some t }
      let sl := s.slot k.core cr.slot
      s.setSlot k.core cr.slot { sl with waiting := sl.waiting ++ [(b, c)] }
  | _, _ => s

/-- Checks of a handler's first fetch (R349): executable, and the slot's target bit set. -/
inductive TrapEntry where
  | enter
  | waitFault
  | double
deriving DecidableEq, Repr

/-- The line that holds an address in a grid's code (R170), with its translation. -/
def fetchLine (s : State) (g : Grid) (pc : Nat) : Xlat × Nat :=
  match translate s g.ctx pc .exec with
  | .ok p e log f => (.ok p e log f, g.code.nat (p / 64 * 64) 64)
  | r => (r, 0)

/-- May the handler at `TRAPH` be entered (R332, R349)? -/
def trapEntry (s : State) (g : Grid) : TrapEntry :=
  match s.ctxs.find? g.ctx with
  | none => .double
  | some c =>
    if c.traph = 0 ∨ isSlot c.traph = false then .double
    else
      match fetchLine s g c.traph with
      | (.pf, _) => .waitFault
      | (.prot, _) => .double
      | (.ok _ _ _ _, line) => if slotTarget line ((c.traph % 64) / 12) then .enter else .double

/-- Is a wait that of a `waitcnt`, which goes on with the operations that it covers after the handler of a fault that it
has raised (R260)? -/
def Wait.covers : Wait → Bool
  | .cnt _ _ => true
  | _ => false

/-- Takes the exception that a crew has raised: the trap bank takes its entry values and the handler threads start at
`TRAPH` (R285, R348). -/
def enterHandler (s : State) (b c : Nat) (cr : Crew) (t : PendTrap) (traph : Nat) : State :=
  let bank := ((cr.s.below 64).set 64 (BitVec.ofNat 64 t.imm)).set 65 (BitVec.ofNat 64 t.resume)
  let free := (List.range 5).foldl (fun m i => NMap.set m (67 + i) (Config.freeWord s.free i))
    (bank.set 66 (BitVec.ofNat 64 t.pc))
  let preds := (List.range 15).foldl (fun m i => NMap.set m (16 + i) (0 : Lanes)) (cr.p.below 16)
  let cr := { cr with
    s := free
    p := preds
    v := cr.v.below 8192
    empty := cr.empty.below 8192
    vFill := cr.vFill.set 4 (some s.free)
    trap := none
    probes := 0
    handler := some { trap := t, live := t.lanes, fstat := 0 } }
  let cr := cr.updThreads t.lanes (fun th =>
    { th with ipc := th.pc, iwait := if t.cause = cDlk ∨ th.wait.any Wait.covers = true then th.wait else none, iends := false, pc := traph, wait := none, since := none })
  (s.setCrew b c cr).draw

/-- Does a thread wait in an instruction that ends its region (R25, R189)? -/
def Wait.endsRegion : Wait → Bool
  | .sig _ | .seal | .chan _ | .copyc _ => true
  | _ => false

/-- A handler thread ends: with `skip`, an interrupted thread whose resume point is the faulting instruction resumes at
the slot that follows (R284). -/
def endHandlerThreads (cr : Crew) (h : Handler) (lanes : Lanes) (skip : Bool) (now : Nat) : Crew :=
  let cr := { cr with handler := some { h with live := h.live &&& ~~~lanes }, probes := 0 }.updThreads lanes (fun t =>
    { t with since := some now })
  if skip && h.trap.resume == 0 then
    cr.updThreads lanes (fun t =>
      { t with ipc := slotAddr (slotIndex t.ipc + 1), iwait := none, iends := t.iwait.any Wait.endsRegion, atHead := false })
  else cr

/-- Ends a handler: the interrupted threads resume where the cause says (R115, R284, R346). A thread that exited in the
handler stays exited. -/
def leaveHandler (cr : Crew) (h : Handler) : Crew :=
  let cr := { cr with handler := none }
  cr.updThreads h.trap.lanes (fun th =>
    if th.exited then th
    else if h.trap.resume = 2 then { th with pc := th.head.pc, dctr := th.head.dctr, wait := none, since := none }
    else if h.trap.resume = 1 then { th with pc := slotAddr (slotIndex th.ipc + 1), wait := none, since := none, atHead := false }
    else { th with pc := th.ipc, wait := th.iwait, since := none })

end Sys2Proof.Machine
end

