-- ==== Sys2Proof/Machine/Random.lean ====
section
/-! DEFINITION. The counter-based generator NR4x32 and the draws of a thread (06_random R107–R111). -/

namespace Sys2Proof.Machine

open Sys2Proof

/-- The four output words of one call (R107). -/
structure Draw where
  w0 : Word
  w1 : Word
  w2 : Word
  w3 : Word
deriving DecidableEq, Repr

/-- The rounds that remain, with the four state words and the two key words (R107). -/
def nrRounds : Nat → Word → Word → Word → Word → Word → Word → Draw
  | 0, x0, x1, x2, x3, _, _ => ⟨x0, x1, x2, x3⟩
  | n + 1, x0, x1, x2, x3, k0, k1 =>
    let p0 : DWord := 0xD256D193#64 * x0.setWidth 64
    let p1 : DWord := 0xCA6F8F45#64 * x2.setWidth 64
    let hi := fun (p : DWord) => (p.extractLsb' 32 32 : Word)
    let lo := fun (p : DWord) => (p.extractLsb' 0 32 : Word)
    nrRounds n (hi p1 ^^^ x1 ^^^ k0) ((lo p1).rotateLeft 13) (hi p0 ^^^ x3 ^^^ k1) ((lo p0).rotateLeft 13)
      (k0 + 0x9E3779B9#32) (k1 + 0xBB67AE85#32)

/-- NR4x32 (R107). -/
def nr4x32 (key : BitVec 128) (ltid dctr : DWord) : Draw :=
  nrRounds 10 (dctr.extractLsb' 0 32) (dctr.extractLsb' 32 32) (ltid.extractLsb' 0 32) (ltid.extractLsb' 32 32)
    (key.extractLsb' 0 32 ^^^ key.extractLsb' 32 32) (key.extractLsb' 64 32 ^^^ key.extractLsb' 96 32)

/-- Output word `i mod 4` (R95). -/
def Draw.word (d : Draw) (i : Nat) : Word :=
  match i % 4 with
  | 0 => d.w0 | 1 => d.w1 | 2 => d.w2 | _ => d.w3

/-- The draw as a 128-bit number, w0 lowest (R113). -/
def Draw.key (d : Draw) : BitVec 128 := (d.w3 ++ d.w2 ++ d.w1 ++ d.w0 : BitVec 128)

/-- The uniform of a draw as an `f32` code: (w0 >> 8) × 2^−24 (R111). -/
def Draw.uniform (d : Draw) : Nat := (roundIeee .f32 0 false ⟨(d.w0 >>> 8).toNat, -24, false⟩ 0).1

/-- One draw of a thread for logical thread `fx` under a key, without the counter's advance (R108, R110). -/
def drawOf (t : Thread) (key : BitVec 128) (fx : Nat) : Draw := nr4x32 key (t.ltid.getD fx 0) (t.dctr.getD fx 0)

/-- The counter after a draw (R109). -/
def Thread.drew (t : Thread) (fx : Nat) : Thread := { t with dctr := t.dctr.set fx (t.dctr.getD fx 0 + 1) }

end Sys2Proof.Machine
end

