-- ==== Sys2Proof/Machine/Operands.lean ====
section
/-! DEFINITION. The issuing path, which registers an instruction names, its operand forms, and the shared course of
every issue: encoding check, register blocks, full/empty bits, effect, advance (R12, R16, R17, R173, R178, R201–R203,
R226, R227). -/

namespace Sys2Proof.Machine

open Sys2Proof

/-! ## What an instruction names -/

/-- A source operand: how many registers a lane, and its F/E action. -/
structure Src where
  o : Opr
  n : Nat
  fe : Bool
deriving DecidableEq, Repr

/-- A destination operand. -/
structure Dst where
  o : Opr
  n : Nat
deriving DecidableEq, Repr

/-- The registers that an instruction reads and writes. -/
structure Uses where
  src : List Src
  dst : List Dst
deriving DecidableEq, Repr

/-- The predicate destination; `p15` discards (R176). -/
def pdDst (pd : BitVec 4) : List Dst := if pd = 15 then [] else [⟨.p pd, 1⟩]

def uA1 (n m : Nat) (f : FmtA) : Uses := ⟨[⟨f.a, n, f.fa⟩], ⟨f.d, m⟩ :: pdDst f.pd⟩
def uA2 (n k m : Nat) (f : FmtA) : Uses := ⟨[⟨f.a, n, f.fa⟩, ⟨f.b, k, f.fb⟩], ⟨f.d, m⟩ :: pdDst f.pd⟩
def uA3 (n k j m : Nat) (f : FmtA) : Uses :=
  ⟨[⟨f.a, n, f.fa⟩, ⟨f.b, k, f.fb⟩, ⟨f.c, j, f.fc⟩], ⟨f.d, m⟩ :: pdDst f.pd⟩
/-- Destination only, or predicate destination only. -/
def uA0 (m : Nat) (f : FmtA) : Uses := ⟨[], ⟨f.d, m⟩ :: pdDst f.pd⟩
def uNone : Uses := ⟨[], []⟩
/-- Integer or IEEE forms of one, two and three sources of the format's width. -/
def uT1 (f : FmtA) : Uses := uA1 (fmtRegs f.ty) (fmtRegs f.ty) f
def uT2 (f : FmtA) : Uses := uA2 (fmtRegs f.ty) (fmtRegs f.ty) (fmtRegs f.ty) f
def uT3 (f : FmtA) : Uses := uA3 (fmtRegs f.ty) (fmtRegs f.ty) (fmtRegs f.ty) (fmtRegs f.ty) f
/-- Compares: predicate destination, and `C` when a combine reads it. -/
def uCmp (f : FmtA) (comb : Bool) : Uses :=
  ⟨[⟨f.a, fmtRegs f.ty, f.fa⟩, ⟨f.b, fmtRegs f.ty, f.fb⟩] ++ (if comb then [⟨f.c, 1, false⟩] else []), pdDst f.pd⟩
def uB (f : FmtB) (d : List Dst) : Uses := ⟨[⟨f.a, fmtRegs f.ty, f.fa⟩], d⟩
/-- Format M: address, data, compare value, destination. -/
def uM (f : FmtM) (b c d : Bool) : Uses :=
  let n := widthRegs f.w.toNat
  ⟨[⟨f.a, if f.sp = 0 then 2 else 1, f.fa⟩] ++ (if b then [⟨f.b, n, f.fb⟩] else []) ++
    (if c then [⟨f.c, n, f.fc⟩] else []), if d then [⟨f.d, n⟩] else []⟩
/-- Format E with the named sources. -/
def uE (f : FmtE) (srcs : List Src) (d : List Dst) : Uses := ⟨srcs, d ++ pdDst f.pd⟩
def eA (f : FmtE) (n : Nat) : Src := ⟨f.a, n, f.fa⟩
def eB (f : FmtE) (n : Nat) : Src := ⟨f.b, n, f.fb⟩
def eC (f : FmtE) (n : Nat) : Src := ⟨f.c, n, f.fc⟩
/-- A register and the one above it, both uniform. -/
def sPair (o : Opr) : List Opr :=
  match o with
  | .s n => [.s n, .s (n + 1)]
  | _ => [o]
def sPairDst (o : Opr) : List Dst := (sPair o).map (fun x => ⟨x, 1⟩)
def sPairSrc (o : Opr) : List Src := (sPair o).map (fun x => ⟨x, 1, false⟩)
def uX (o : List Opr) (d : List Dst) : Uses := ⟨o.map (fun x => ⟨x, 1, false⟩), d⟩

/-- The sources of `copy` and `copyc`, with the stamp's registers (R256). -/
def uCopy (f : FmtE) : Uses :=
  if f.sub.getLsbD 6 then uE f (sPairSrc f.a ++ [eB f 1] ++ sPairSrc f.c) []
  else uE f [eA f 1, eB f 1, eC f 1] []

/-- The registers an instruction names. -/
def uses : Instr → Uses
  | .iadd f => uT2 f
  | .isub f => uT2 f
  | .imul f => uT2 f
  | .imulh f => uT2 f
  | .imad f => uT3 f
  | .idiv f => uT2 f
  | .irem f => uT2 f
  | .imin f => uT2 f
  | .imax f => uT2 f
  | .iabs f => uT1 f
  | .ineg f => uT1 f
  | .land f => uT2 f
  | .lor f => uT2 f
  | .lxor f => uT2 f
  | .lnot f => uT1 f
  | .shl f => uA2 (fmtRegs f.ty) 1 (fmtRegs f.ty) f
  | .shr f => uA2 (fmtRegs f.ty) 1 (fmtRegs f.ty) f
  | .sra f => uA2 (fmtRegs f.ty) 1 (fmtRegs f.ty) f
  | .rotl f => uA2 (fmtRegs f.ty) 1 (fmtRegs f.ty) f
  | .bfx f => uA2 (fmtRegs f.ty) 1 (fmtRegs f.ty) f
  | .bfi f => uA3 (fmtRegs f.ty) (fmtRegs f.ty) 1 (fmtRegs f.ty) f
  | .popc f => uT1 f
  | .clz f => uT1 f
  | .brev f => uT1 f
  | .icmp f => uCmp f (f.sub.toNat / 8 != 0)
  | .sel f => uA3 (fmtRegs f.ty) (fmtRegs f.ty) 1 (fmtRegs f.ty) f
  | .mov f => uT1 f
  | .lea f => uA2 2 1 2 f
  | .iaddi f => uB f [⟨f.d, fmtRegs f.ty⟩]
  | .movi f => ⟨if f.sub = 1 then [⟨f.d, 2, false⟩] else [], [⟨f.d, fmtRegs f.ty⟩]⟩
  | .icmpi f => uB f (pdDst f.pd)
  | .andi f => uB f [⟨f.d, fmtRegs f.ty⟩]
  | .ori f => uB f [⟨f.d, fmtRegs f.ty⟩]
  | .xori f => uB f [⟨f.d, fmtRegs f.ty⟩]
  | .pand f => uA2 1 1 1 f
  | .por f => uA2 1 1 1 f
  | .pxor f => uA2 1 1 1 f
  | .pnot f => uA1 1 1 f
  | .p2s f => uA1 1 1 f
  | .s2p f => uA1 1 1 f
  | .shfl f => uA2 (fmtRegs f.ty) 1 (fmtRegs f.ty) f
  | .voteAll f => ⟨[⟨f.a, 1, f.fa⟩], pdDst f.pd⟩
  | .voteAny f => ⟨[⟨f.a, 1, f.fa⟩], pdDst f.pd⟩
  | .voteUni f => ⟨[⟨f.a, 1, f.fa⟩], pdDst f.pd⟩
  | .voteBallot f => uA1 1 1 f
  | .matchAny f => uA1 (fmtRegs f.ty) 1 f
  | .matchAll f => uA1 (fmtRegs f.ty) 1 f
  | .redux f => uA1 (fmtRegs f.ty) 1 f
  | .scan f => uT1 f
  | .elect f => uA0 1 f
  | .regacq _ => uNone
  | .regacqGrant _ => uNone
  | .regrel _ => uNone
  | .fectlTest f => ⟨[], pdDst f.pd⟩
  | .fectlWait f => ⟨[], pdDst f.pd⟩
  | .fectlCancel f => ⟨[], pdDst f.pd⟩
  | .fadd f => uT2 f
  | .fsub f => uT2 f
  | .fmul f => uT2 f
  | .ffma f => uT3 f
  | .fmin f => uT2 f
  | .fmax f => uT2 f
  | .fsgn f => if f.sub.toNat < 2 then uT1 f else uT2 f
  | .fcmp f => uCmp f (f.sub.toNat / 8 % 4 != 0)
  | .fclass f => uT1 f
  | .fdiv f => uT2 f
  | .fsqrt f => uT1 f
  | .fex2 f => uT1 f
  | .flg2 f => uT1 f
  | .frcpa f => uT1 f
  | .frsqa f => uT1 f
  | .cvt f => uA1 (fmtRegs f.ty2) (fmtRegs f.ty) f
  | .pack f => uA2 (if fmtBits f.ty = 8 ∧ fmtBits f.ty2 = 32 then 2 else 1) (if fmtBits f.ty = 8 ∧ fmtBits f.ty2 = 32 then 2 else 1) 1 f
  | .unpack f => if f.sub.getLsbD 2 then uA2 1 1 1 f else uA1 1 1 f
  | .bquant f => uA1 1 1 f
  | .rand f => ⟨(if f.sub.getLsbD 2 then sPairSrc f.b else []), [⟨f.d, if f.sub.toNat % 4 = 1 then 2 else if f.sub.toNat % 4 = 2 then 4 else 1⟩]⟩
  | .split f => ⟨(if f.sub.getLsbD 2 then sPairSrc f.b else []), if oprIsV f.d then [⟨f.d, 4⟩] else sPairDst f.d⟩
  | .sample f => if f.sub.getLsbD 0 then uA1 1 1 f else uA2 1 1 1 f
  | .topk f => uA2 1 1 2 f
  | .gmbind f => ⟨[⟨f.a, 1, false⟩], []⟩
  | .gmstep f => ⟨[⟨f.a, 1, false⟩, ⟨f.b, 1, false⟩], pdDst f.pd⟩
  | .gmfetch f => ⟨[⟨f.a, 1, false⟩, ⟨f.b, 1, false⟩], [⟨f.d, 1⟩, ⟨f.c, 1⟩] ++ pdDst f.pd⟩
  | .gmstkSpill f => uA1 1 1 f
  | .gmstkFill f => ⟨[⟨f.a, 1, false⟩, ⟨f.b, 1, false⟩], []⟩
  | .gmstkRd f => uA1 1 1 f
  | .ld f => uM f false false true
  | .st f => uM f true false false
  | .atom f => uM f true (f.aop == 9) true
  | .red f => uM f true false false
  | .fenceAcq _ => uNone
  | .fenceRel _ => uNone
  | .fenceAr _ => uNone
  | .copy f => uCopy f
  | .copyc f => uCopy f
  | .streamF f => uE f [eA f 1, eB f 1] []
  | .streamD f => uE f [eA f 1, eB f 1] []
  | .srelF _ => uNone
  | .srelD _ => uNone
  | .gather f => uE f [eA f 2, eB f 1] []
  | .waitcnt _ => uNone
  | .monarm f => uE f [eA f 1] []
  | .monwait f => uE f [eA f 1, eB f 1, eC f 1] []
  | .bar f => if f.b = Opr.zero then uNone else uE f [eB f 1] []
  | .cset f => uE f [eA f 1] []
  | .trigger _ => uNone
  | .waitDep _ => uNone
  | .waitDepRelease _ _ => uNone
  | .task f => uE f [eA f 2] []
  | .taskDone f => uE f [eA f 1] []
  | .taskPost _ _ => uNone
  | .dqpost f => uE f [eA f 1] []
  | .dqtake f => uE f [] [⟨f.d, 1⟩]
  | .dqsteal f => uE f [eB f 1] [⟨f.d, 1⟩]
  | .qsubmit f => uE f [eA f 1, eB f 1] []
  | .pooltake f => uE f [eA f 1] [⟨f.d, 2⟩]
  | .poolgive f => uE f [eA f 1, eB f 2] []
  | .coll f => uE f [eA f 1] []
  | .collCombine _ _ _ _ => uNone
  | .bra _ => uNone
  | .brx f => ⟨[⟨f.a, 2, f.fa⟩], []⟩
  | .call f => ⟨[], [⟨f.d, 2⟩]⟩
  | .callx f => ⟨[⟨f.a, 2, f.fa⟩], [⟨f.d, 2⟩]⟩
  | .ret f => ⟨[⟨f.a, 2, f.fa⟩], []⟩
  | .exit _ => uNone
  | .nop _ => uNone
  | .region _ => uNone
  | .implicitHead _ _ => uNone
  | .switchpt _ => uNone
  | .switchRelaunch _ _ => uNone
  | .trap _ => uNone
  | .brk _ => uNone
  | .trapret _ => uNone
  | .sread f => ⟨[], [⟨f.d, if f.srn = 0x00A ∨ f.srn = 0x018 then 2 else 1⟩]⟩
  | .swrite f => ⟨[⟨f.a, 2, f.fa⟩], []⟩
  | .shape f => uA1 1 1 f
  | .fmtwin f => ⟨[⟨f.a, 1, false⟩, ⟨f.b, 1, false⟩], []⟩
  | .mma f => uX [f.a, f.b, f.c] []
  | .aclr _ => uNone
  | .aload f => uX [f.a, f.c] []
  | .adrain f => uX ((if f.act = 3 then [f.b] else []) ++ (if f.dst = 0 then [f.a, f.c] else if f.dst = 1 then [f.c] else [])) []
  | .mxOperation _ => uNone
  | .pass f => uE f [eA f 1] []
  | .passOpen _ => uNone
  | .seal f => uE f [eA f 1] []
  | .sealCommit _ => uNone
  | .lres f => uE f [eA f 1, eB f 1] (sPairDst f.d)
  | .lhold f => uE f [eA f 1, eB f 1] (sPairDst f.d)
  | .ldrop f => uE f [eA f 1, eB f 1, eC f 1] (sPairDst f.d)
  | .issueCycle _ _ => uNone
  | .storePathPerform _ _ => uNone
  | .loadPerform _ _ _ => uNone
  | .acquireComplete _ _ _ => uNone
  | .evict _ _ => uNone
  | .engineCommandStart _ => uNone
  | .engineOperationComplete _ => uNone
  | .copyOperation _ _ _ _ => uNone
  | .stampWrite _ => uNone
  | .fillIteration _ _ => uNone
  | .drainIteration _ _ => uNone
  | .channelProtectionStop _ => uNone
  | .channelIdle _ _ => uNone
  | .monitorWake _ _ => uNone
  | .monwaitTimeout _ _ => uNone
  | .crewRetire _ _ => uNone
  | .blockEnd _ => uNone
  | .gridComplete _ => uNone
  | .coneCycleExpiry _ => uNone
  | .coneEnergyExpiry _ => uNone
  | .coneDeadlineExpiry _ => uNone
  | .cutArrival _ _ => uNone
  | .completionRecordWrite _ => uNone
  | .blockPlace _ => uNone
  | .carveOutChange _ _ _ => uNone
  | .switchFlagPressure _ _ => uNone
  | .switchFlagIdle _ => uNone
  | .switchFlagRestore _ => uNone
  | .preemptionSave _ => uNone
  | .blockRestore _ _ => uNone
  | .parkedBlockEvict _ => uNone
  | .lateFaultRollback _ _ => uNone
  | .handlerEntry _ _ => uNone
  | .waitCycleProbe _ _ => uNone
  | .pageFaultRecord _ => uNone
  | .faultServiceSave _ => uNone
  | .timingError _ _ _ => uNone
  | .parityError _ _ _ _ _ => uNone
  | .hbmUncorrectable _ => uNone
  | .mceRetire _ _ => uNone
  | .maskUnitWriteback _ _ => uNone
  | .packetRead _ _ => uNone
  | .launch _ => uNone
  | .graph _ => uNone
  | .copyPacket _ => uNone
  | .signal _ => uNone
  | .waitPacket _ => uNone
  | .waitPacketTimeout _ => uNone
  | .setdet _ => uNone
  | .poolset _ => uNone
  | .priorityAging _ => uNone
  | .kern _ _ => uNone
  | .copyNode _ _ => uNone
  | .loop _ _ => uNone
  | .loopRunEnd _ _ => uNone
  | .cond _ _ => uNone
  | .signalNode _ _ => uNone
  | .waitNode _ _ => uNone
  | .waitNodeTimeout _ _ => uNone
  | .doorbellWrite _ _ _ => uNone
  | .contextSlotWrite _ _ => uNone
  | .frridxWrite _ _ => uNone
  | .invctlInvalidate _ _ => uNone
  | .invalidationDone _ => uNone
  | .fwctlVerify _ => uNone
  | .firmwareVerifyDone => uNone
  | .rstctlReset _ => uNone
  | .fundamentalReset => uNone
  | .hotReset => uNone
  | .functionLevelReset => uNone
  | .hostLinkUp => uNone
  | .routeEntryWrite _ _ => uNone
  | .controlRegisterWrite _ _ => uNone
  | .hostCxlStore _ _ => uNone
  | .flitCrcRetry _ _ => uNone
  | .laneDrop _ _ => uNone
  | .clockThrottle _ => uNone
  | .getVersion => uNone
  | .getCapabilities => uNone
  | .negotiateAlgorithms _ _ => uNone
  | .getDigests => uNone
  | .getCertificate _ _ _ => uNone
  | .challenge _ _ => uNone
  | .getMeasurements _ _ _ => uNone
  | .chunkSend _ _ _ _ => uNone
  | .chunkGet _ _ => uNone
  | .arithmeticClockRestore _ => uNone
  | .firmwareStagingWindowWrite _ _ => uNone

/-- Does an instruction end its region whatever its operands (R25, R189, R190)? A remote store adds to it at issue. -/
def endsRegion : Instr → Bool
  | .mov f => oprIsWq f.a
  | .rand _ => true
  | .split _ => true
  | .sample _ => true
  | .gmstep _ => true
  | .atom _ => true
  | .copy _ => true
  | .copyc _ => true
  | .streamF _ => true
  | .streamD _ => true
  | .srelF _ => true
  | .srelD _ => true
  | .gather _ => true
  | .trigger _ => true
  | .task _ => true
  | .taskDone _ => true
  | .dqtake _ => true
  | .dqsteal _ => true
  | .qsubmit _ => true
  | .pooltake _ => true
  | .coll _ => true
  | .mma _ => true
  | .aclr _ => true
  | .aload _ => true
  | .adrain _ => true
  | .seal _ => true
  | .lhold _ => true
  | .ldrop _ => true
  | .gmstkSpill _ => true
  | .gmstkFill _ => true
  | _ => false

/-- The fold index of an instruction that draws or accesses `LTID` or `DCTR` (R129, R177). -/
def foldIndex (i : Instr) : Nat :=
  match i.body with
  | .a f => f.fx.toNat
  | .e f => f.fx.toNat
  | .s f => f.fx.toNat
  | _ => 0

/-- Opcode class (R188). -/
def opClass (i : Instr) : Nat := i.opc.toNat / 128

/-! ## The issuing path -/

/-- What an instruction issues with: the machine, the path's block, grid and crew, the threads that take part and
those that are active (R173). -/
structure Cx where
  s : State
  b : Nat
  blk : Block
  g : Grid
  c : Nat
  cr : Crew
  pc : Nat
  late : Bool
  lanes : Lanes
  act : Lanes

/-- The threads of the picked path that still stand at its program counter; in a handler, its own threads (R347). -/
def pathLanes (cr : Crew) (p : Path) : Lanes :=
  let here := cr.lanesWhere (fun t => !t.exited && t.pc == p.pc)
  p.lanes &&& here &&& (match cr.handler with
    | some h => h.live
    | none => BitVec.allOnes 32)

/-- The active threads: guard true (R173). -/
def activeLanes (cr : Crew) (g : Guard) (lanes : Lanes) : Lanes :=
  let p := cr.getP (cr.pName g.gp.toNat)
  lanes &&& (if g.gn then ~~~p else p)

/-- The issuing path of a state. -/
def Cx.of (s : State) (g : Guard) : Option Cx :=
  let p := s.path
  match s.block? p.blk, s.crew? p.blk p.crew with
  | some k, some cr =>
    match s.grid? k.grid with
    | some gr =>
      let lanes := pathLanes cr p
      if lanes = 0 then none
      else some { s := s, b := p.blk, blk := k, g := gr, c := p.crew, cr := cr, pc := p.pc, late := p.late,
                  lanes := lanes, act := activeLanes cr g lanes }
    | none => none
  | _, _ => none

namespace Cx

/-- The machine with the crew replaced. -/
def put (x : Cx) (cr : Crew) : State := x.s.setCrew x.b x.c cr
/-- The issue continues on a changed machine. -/
def on (x : Cx) (s : State) : Cx :=
  { x with s := s, blk := (s.block? x.b).getD x.blk, cr := (s.crew? x.b x.c).getD x.cr,
           g := (s.grid? x.blk.grid).getD x.g }
/-- The variant the block runs (R128). -/
def variant (x : Cx) : Option Variant := x.g.kern.vars.find? (fun v => v.vid == x.blk.vid)
/-- Logical threads a lane (R129). -/
def fold (x : Cx) : Nat := (x.variant.map (·.fold)).getD 1
def acts (x : Cx) : List Nat := lanesOf x.act
/-- The lowest-numbered active lane. -/
def first (x : Cx) : Nat := x.acts.headD 0
/-- Handler threads of a trap: the active ones, or the path's when none is active (log 30). -/
def trapLanes (x : Cx) : Lanes := if x.act = 0 then x.lanes else x.act
/-- The slot that follows (R169). -/
def nextPc (x : Cx) : Nat := slotAddr (slotIndex x.pc + 1)

/-- The value a source supplies in a lane: `n` vector registers, a uniform register's low `32 n` bits, or a constant's
code (R174, R202, R226). -/
def val (x : Cx) (o : Opr) (n lane : Nat) (k : BitVec 6 → Nat) : Nat :=
  match o with
  | .v r => x.cr.getVs (x.cr.vName r.toNat) lane n
  | .s r => (x.cr.getS (x.cr.sName r.toNat)).toNat % 2 ^ (32 * n)
  | .p r => if (x.cr.getP (x.cr.pName r.toNat)).getLsbD lane then 1 else 0
  | .const c => k c
  | _ => 0

/-- A uniform 64-bit value: an `s` register, or a constant sign-extended. -/
def uni (x : Cx) (o : Opr) : Nat := x.val o 2 0 (fun c => wrapTo 64 c.toInt)
/-- A predicate register. -/
def pred (x : Cx) (o : Opr) : Lanes :=
  match o with
  | .p r => x.cr.getP (x.cr.pName r.toNat)
  | _ => 0
/-- The value of the uniform register above an even one (R256). -/
def uniHi (x : Cx) (o : Opr) : Nat :=
  match o with
  | .s r => (x.cr.getS (x.cr.sName (r.toNat + 1))).toNat
  | _ => 0

end Cx

/-- Writes a value to a vector register of a lane or to a uniform register. -/
def Crew.putOpr (c : Crew) (o : Opr) (n lane x : Nat) : Crew :=
  match o with
  | .v r => c.setVs (c.vName r.toNat) lane n x
  | .s r => c.setS (c.sName r.toNat) (BitVec.ofNat 64 x)
  | _ => c

/-- Writes a predicate destination in the lanes of `m` (R176). -/
def Crew.putPd (c : Crew) (pd : BitVec 4) (m v : Lanes) : Crew :=
  if pd = 15 then c else c.setP (c.pName pd.toNat) m v

/-- The lanes that a destination is written for: the active ones, or one for a uniform destination (R203). -/
def dstLanes (x : Cx) (d : Opr) : List Nat := if oprIsS d then [x.first] else x.acts

/-! ## Full/empty bits and interlocks (R16, R17, R227, R252) -/

/-- Vector registers that an operand names, by the crew's own numbers. -/
def vNames (cr : Crew) (o : Opr) (n : Nat) : List Nat :=
  match o with
  | .v r => (List.range n).map (fun i => cr.vName (r.toNat + i))
  | _ => []

/-- Is a register of the operand empty in one of the lanes? -/
def emptyIn (cr : Crew) (o : Opr) (n : Nat) (lanes : List Nat) : Bool :=
  (vNames cr o n).any (fun r => lanes.any (fun l => cr.isEmpty r l))

/-- The registers an operand names, each by its kind and the crew's own number. -/
def named (cr : Crew) (o : Opr) (n : Nat) : List (Nat × Nat) :=
  match o with
  | .v _ => (vNames cr o n).map (fun r => (0, r))
  | .s r => [(1, cr.sName r.toNat)]
  | .p r => [(2, cr.pName r.toNat)]
  | _ => []

/-- The destinations of an instruction: those that its operands name, and the registers that a register `adrain` writes,
as many as its operand `C` holds (R294). -/
def dstsOf (cr : Crew) (i : Instr) : List Dst :=
  (uses i).dst ++ (match i with
    | .adrain f =>
      match f.d, f.c with
      | .v r, .s c => ((List.range (bits (cr.getS (cr.sName c.toNat)).toNat 16 4)).filter (fun j => decide (r.toNat + j < 256))).map
          (fun j => ⟨.v (BitVec.ofNat 8 (r.toNat + j)), 1⟩)
      | _, _ => []
    | _ => [])

/-- Is a named register interlocked (R227, R252)? The guard predicate counts as a source. -/
def lockedBy (cr : Crew) (i : Instr) : Bool :=
  let ns := ((uses i).src.flatMap (fun x => named cr x.o x.n)) ++ ((dstsOf cr i).flatMap (fun x => named cr x.o x.n)) ++
    named cr (.p i.body.guard.gp) 1
  cr.locks.any (fun l => ns.contains (l.kind, l.reg))

/-- Are the destinations full and nothing that the instruction names interlocked: what R17 and R227 ask for before it
issues at all, be it to raise `FE`? -/
def dstsReady (cr : Crew) (i : Instr) (lanes : List Nat) : Bool :=
  !((dstsOf cr i).any (fun x => emptyIn cr x.o x.n lanes)) && !(lockedBy cr i)

/-- Do the operands let the instruction issue: sources full unless they trap, destinations full, nothing interlocked
(R16, R17)? With an empty source of each kind, R16 asks both for a wait and for `FE`; `issueState` then raises `FE`
without waiting for the `fe=blk` source (DESIGN CHOICE, log 107). -/
def operandsReady (cr : Crew) (i : Instr) (lanes : List Nat) : Bool :=
  !((uses i).src.any (fun x => !x.fe && emptyIn cr x.o x.n lanes)) && dstsReady cr i lanes

/-- Does a source under `fe=trap` find an active lane empty (R16)? -/
def feTraps (cr : Crew) (i : Instr) (lanes : List Nat) : Bool :=
  (uses i).src.any (fun x => x.fe && emptyIn cr x.o x.n lanes)

/-- The register that `fectl` names as its `A`, which it neither waits for nor reads (R225). -/
def fectlA : Instr → List Opr
  | .fectlTest f => [f.a]
  | .fectlWait f => [f.a]
  | .fectlCancel f => [f.a]
  | _ => []

/-- Vector registers an instruction names, for the check of R12: those of its operands, those that a register `adrain`
writes, and the `A` of `fectl`. -/
def namedV (cr : Crew) (i : Instr) : List Nat :=
  (uses i).src.flatMap (fun x => vNames cr x.o x.n) ++ (dstsOf cr i).flatMap (fun x => vNames cr x.o x.n) ++
    (fectlA i).flatMap (fun o => vNames cr o 1)

/-! ## The course of an issue -/

/-- What an effect comes to. -/
inductive Res where
  /-- complete: the path goes on at the next slot; `ends` when it ends its region by its target (R190) -/
  | done (s : State) (ends : Bool)
  /-- the effect has moved the threads itself -/
  | raw (s : State)
  /-- cannot be taken now: the threads wait here and try again -/
  | stall (s : State)
  /-- a trap found at issue, before any change of state (R178) -/
  | trap (cause taddr : Nat)
  /-- the same of an instruction that both reads and writes, with what the access at fault does (R351) -/
  | trapAt (cause taddr acc : Nat)
  /-- a trap whose `TADDR` the spec does not give: a free value (log 31) -/
  | trapOpen (cause : Nat)
  /-- a trap with its code and resume point (R283) -/
  | trapImm (cause imm resume : Nat)
  /-- a translation fault: cause, address, access bits of R351 -/
  | xfault (cause va acc : Nat)

/-- The registers of the octets of a live-in mask that the crew holds (R224). -/
def liveRegs (cr : Crew) (li : BitVec 32) : List Nat :=
  ((List.range 32).filter (fun o => li.getLsbD o)).flatMap (fun o => (List.range 8).map (fun r => 8 * o + r))
    |>.filter cr.holds

/-- The checkpoint of a lane at a slot (R276). -/
def Crew.checkpoint (cr : Crew) (lane pc : Nat) (li ws : BitVec 32) (bay : BitVec 16) (dctr : List DWord) : ThreadCkpt :=
  let rs := liveRegs cr li
  { pc := pc, seq := cr.seq, li := li, ws := ws, bay := bay
    v := rs.map (fun r => (Crew.key r lane, cr.getV r lane))
    empty := rs.filterMap (fun r => (cr.empty.find? (Crew.key r lane)).map (fun t => (Crew.key r lane, t)))
    p := (List.range 15).map (fun i => (i, (cr.getP i).getLsbD lane))
    dctr := dctr
    sw := ((cr.threads.find? lane).map (·.sw)).getD []
    pops := [] }

/-- The crew checkpoint: `s` registers and `FSTAT` (R276); what issued before it has passed its checks, an instruction
that is tried again among it (R383). -/
def Crew.crewCkpt (cr : Crew) : Crew :=
  { cr with ckS := cr.s.below 64, ckFstat := cr.fstat, ckSeq := cr.seq, ckMark := cr.xmark
            retry := cr.retry.filter (fun r => !r.issued) }

/-- Threads of a set leave their slots: an instruction that is tried again has issued when one of them stands at it
(R383). -/
def Crew.retryIssued (cr : Crew) (lanes : Lanes) : List Retry :=
  cr.retry.map (fun r =>
    if cr.threads.any (fun e => lanes.getLsbD e.1 && e.2.pc == r.pc) then { r with issued := true } else r)

/-- The threads of a set, where they stand, take the implicit head of the instruction that they have issued, and the crew
its checkpoint (R277): results still to be written fill both when they come (`Crew.deliver`), and IMPLICIT_HEAD says when
all have (log 11). -/
def Crew.implicitHeads (cr : Crew) (lanes : Lanes) : Crew :=
  { cr with threads := cr.threads.mapVals (fun l t =>
      if lanes.getLsbD l then
        { t with
          head := cr.checkpoint l t.pc t.head.li t.head.ws t.head.bay t.dctr
          cnt := Counts.zero, skip := Counts.zero, atHead := true, headDue := true, bars := [] }
      else t) }.crewCkpt

/-- A thread goes on at a slot. One of a handler leaves the interrupted thread as it was, at its head or not (R63). -/
def Thread.goTo (t : Thread) (pc : Nat) (handler : Bool) : Thread :=
  { t with pc := pc, wait := none, since := none, arrived := false, atHead := handler && t.atHead }

/-- Threads of a set go on at the next slot; after an instruction that ends its region they take its implicit head
(R277). -/
def Crew.advance (cr : Crew) (lanes : Lanes) (next : Nat) (ends : Bool) : Crew :=
  let cr := { cr.updThreads lanes (fun t => t.goTo next cr.inHandler) with probes := 0, retry := cr.retryIssued lanes }
  if ends then cr.implicitHeads lanes else cr

/-- Threads that have waited go on at the slot that follows their own. -/
def Crew.resume (cr : Crew) (lanes : Lanes) (ends : Bool) : Crew :=
  let cr := { cr.updThreads lanes (fun t => t.goTo (slotAddr (slotIndex t.pc + 1)) cr.inHandler) with
    probes := 0, retry := cr.retryIssued lanes }
  if ends then cr.implicitHeads lanes else cr

/-- A thread waits, since now unless it has waited at its instruction before (R361). -/
def Thread.waits (t : Thread) (w : Wait) (arrived : Bool) (now : Nat) : Thread :=
  { t with wait := some w, arrived := arrived, since := some (t.since.getD now) }

/-- The machine after a completed instruction of the path. -/
def complete (x : Cx) (s : State) (ends : Bool) : State :=
  s.updCrew x.b x.c (fun cr => cr.advance x.lanes x.nextPc (ends && !cr.inHandler))

/-- The machine after an instruction that has to wait: its active threads try again. -/
def stalled (x : Cx) (s : State) : State :=
  s.updCrew x.b x.c (fun cr =>
    cr.updThreads x.act (fun t => t.waits (t.wait.getD .retry) t.arrived (s.clock x.blk.core)))

/-- A trap of the path's instruction; `acc` is what its access does (R351). -/
def Cx.raise (x : Cx) (cause taddr imm resume : Nat) (late : Bool) (acc : Nat := 0) : State :=
  raiseTrap x.s x.b x.c
    { cause := cause, taddr := taddr, pc := x.pc, lanes := x.trapLanes, imm := imm, resume := resume, late := late, acc := acc }

/-- A trap of the path's instruction whose `TADDR` the spec does not give: a free value (log 31). -/
def Cx.raiseOpen (x : Cx) (cause acc : Nat) : State :=
  ({ x with s := x.s.draw } : Cx).raise cause (Config.freeWord x.s.free x.pc).toNat 0 0 false acc

/-- The destinations of an instruction wait for a value: vector registers empty, others interlocked (R15, R227). -/
def Crew.hollow (cr : Crew) (u : Uses) (lanes : List Nat) : Crew :=
  let cr := cr.bump
  let marked := u.dst.foldl (fun c d => (vNames c d.o d.n).foldl (fun c r =>
    lanes.foldl (fun c l => c.markEmpty r l cr.seq) c) c) cr
  { marked with locks := marked.locks ++
      (u.dst.filter (fun d => !oprIsV d.o)).flatMap (fun d => (named cr d.o d.n).map (fun k => ⟨k.1, k.2, cr.seq⟩)) }

/-- What an access is that `ACC` names (R351). -/
def accOf (acc : Nat) : Acc := if bitAt acc 0 then .write else if bitAt acc 1 then .exec else .read

/-- A translation fault of the path's instruction. `PROT` found at issue is a trap, as is one for the route that an access
takes (R374); any other waits for the crew's rollback (R24, R347, R352). A fault noticed late lets the threads go on
meanwhile, the destinations empty. In a handler a `PF` waits for service in place (R349). Once path A has trapped, path B's
faulting instruction has no effect (R178). -/
def Cx.xlatFault (x : Cx) (i : Instr) (cause va acc : Nat) : State :=
  if x.cr.trap.isSome then x.s
  else if x.cr.inHandler then
    if cause = cPf then
      x.put { x.cr with pendingPf := some (va, acc, 4) }
    else x.raise cause va 0 0 false acc
  else if cause = cProt && (!x.late || badRoute x.s x.g.ctx va (accOf acc)) then x.raise cause va 0 0 false acc
  else if x.cr.late.isSome then stalled x x.s
  else
    let t : PendTrap := { cause := cause, taddr := va, pc := x.pc, lanes := x.trapLanes, imm := 0, resume := 2, late := true, acc := acc }
    let cr := { x.cr with late := some (cause, va, acc, t) }
    let cr := if x.late then (cr.hollow (uses i) x.acts).advance x.lanes x.nextPc false else cr
    x.put cr

/-- Instructions that no handler may execute, and `trapret` outside one (R224, R282, R284). -/
def handlerUnd (cr : Crew) (i : Instr) : Bool :=
  match i with
  | .trapret _ => !cr.inHandler
  | .switchpt _ | .regacq _ | .regrel _ => cr.inHandler
  | _ => cr.inHandler && opClass i == 7

/-- Instructions that issue only once every older one has passed its fault checks (R25, R133, R275, R322). -/
def waitsForOlder (i : Instr) : Bool :=
  match i with
  | .region _ | .exit _ | .switchpt _ => true
  | _ => endsRegion i

/-- Has an instruction that has issued not passed its fault checks: a fault noticed late, or a `pooltake` whose link words
are still to be read (R322)? -/
def Crew.checksDue (cr : Crew) : Bool :=
  cr.late.isSome || cr.storePath.any (fun e =>
    match e with
    | .marker _ (.pooltake _ (some _) _ _) => true
    | _ => false)

/-- What an instruction that raises a cause was about, as `ACC` of R351 says it: bit 0 a write, bit 1 a fetch. -/
def trapAcc (i : Instr) (cause : Nat) : Nat :=
  if cause = cBtgt then 2
  else if cause = cSeal then 1
  else if cause = cProt ∨ cause = cAlign then
    match i with
    | .st _ | .atom _ | .red _ | .poolgive _ => 1
    | .copy _ | .copyc _ => if cause = cAlign then 1 else 0
    | .adrain f => if f.dst = 0 then 1 else 0
    | .bra _ | .brx _ | .call _ | .callx _ | .ret _ => 2
    | _ => 0
  else 0

/-- Has an instruction an effect when no thread is active? Only `redux`, which gives the identity (R99, R219); R173 and R203
let any other do nothing (log 127). -/
def actsEmpty : Instr → Bool
  | .redux _ => true
  | _ => false

/-- The shared course of an issue, in the order of R178: encoding, register blocks, full/empty, fold index, then the
instruction's own effect. -/
def issueState (i : Instr) (s : State) (eff : Cx → Res) : State :=
  match Cx.of s i.body.guard with
  | none => s
  | some x =>
    if !legal i || handlerUnd x.cr i then x.raise cUnd x.pc 0 0 false
    else if x.act = 0 && !actsEmpty i then complete x s false
    else if !(namedV x.cr i).all x.cr.holds then x.raise cProt x.pc 0 0 false
    else if waitsForOlder i && x.cr.checksDue then stalled x s
    else if dstsReady x.cr i x.acts && feTraps x.cr i x.acts then x.raise cFe x.pc 0 0 false
    else if !operandsReady x.cr i x.acts then stalled x s
    else if x.fold ≤ foldIndex i then x.raiseOpen cProt 0
    else
      match eff x with
      | .done s' ends => complete x s' (ends || endsRegion i)
      | .raw s' => s'
      | .stall s' => stalled x s'
      | .trap cause taddr => x.raise cause taddr 0 0 false (trapAcc i cause)
      | .trapAt cause taddr acc => x.raise cause taddr 0 0 false acc
      | .trapOpen cause => x.raiseOpen cause (trapAcc i cause)
      | .trapImm cause imm resume => x.raise cause x.pc imm resume false
      | .xfault cause va acc => x.xlatFault i cause va acc

/-- The active threads wait at the instruction for an event of their own; inactive threads of the path go on. -/
def parkAt (x : Cx) (s : State) (w : Wait) : State :=
  s.updCrew x.b x.c (fun cr =>
    let cr := cr.advance (x.lanes &&& ~~~x.act) x.nextPc false
    cr.updThreads x.act (fun t => t.waits w true (s.clock x.blk.core)))

/-- Results of another unit for lanes of a vector register: empty until LOAD_PERFORM writes them (R15; log 92). -/
def Crew.awaitReturns (cr : Crew) (o : Opr) (n : Nat) (lanes : List Nat) (val : Nat → Nat) : Crew :=
  let cr := cr.bump
  match o with
  | .v r =>
    let marked := (vNames cr o n).foldl (fun c k => lanes.foldl (fun c l => c.markEmpty k l cr.seq) c) cr
    { marked with returns := marked.returns ++ lanes.map (fun l => ⟨⟨true, cr.vName r.toNat, n, l, cr.seq⟩, val l⟩) }
  | _ => cr

/-! ## Replay counts (R63, R143, R144, R158) -/

/-- Do counted operations of the crew count for a replay? Not those of a handler that runs between a rollback and the
replay (log 108). -/
def Crew.tallies (cr : Crew) : Bool := cr.handler.all (fun h => h.trap.resume != 2)

/-- Is a lane's next counted operation of a kind discarded on replay? -/
def Crew.skips (cr : Crew) (lane : Nat) (kind : Counts → Nat) : Bool :=
  cr.tallies && (cr.threads.find? lane).any (fun t => decide (0 < kind t.skip))

/-- A thread's counted operation: one that is to be discarded is used up, any other is counted. -/
def Thread.tally (t : Thread) (kind : Counts → Nat) (put : Counts → Nat → Counts) : Thread :=
  if 0 < kind t.skip then { t with skip := put t.skip (kind t.skip - 1) } else { t with cnt := put t.cnt (kind t.cnt + 1) }

/-- A counted operation of the threads of a set. -/
def Crew.tally (cr : Crew) (lanes : Lanes) (kind : Counts → Nat) (put : Counts → Nat → Counts) : Crew :=
  if cr.tallies then cr.updThreads lanes (fun t => t.tally kind put) else cr

/-- An instruction's meaning: the shared course with its effect. -/
def issueWith (i : Instr) (s : State) (eff : Cx → Res) : Host.Outcome State Fault Refusal := .next (issueState i s eff)

/-- The effect of an instruction that changes only its crew. -/
def crewRes (x : Cx) (cr : Crew) : Res := .done (x.put cr) false

end Sys2Proof.Machine
end

