-- ==== Sys2Proof/Machine/Access.lean ====
section
/-! DEFINITION. Accesses of units on behalf of a crew: translation with its fault, and reads of byte ranges
(R47, R352, R365, R366). -/

namespace Sys2Proof.Machine

open Sys2Proof

/-- `ACC` of a fault record (R351). -/
def accBits : Acc → Nat
  | .read => 0
  | .write => 1
  | .exec => 2

/-- A failed access: cause and virtual address. -/
structure AccFault where
  cause : Nat
  va : Nat
deriving DecidableEq, Repr

/-- Bytes before the end of a 64 KiB page. -/
def inPage (va n : Nat) : Nat := min n (65536 - va % 65536)

/-- The physical address of one access that stays in its page, with the translation kept (R366). -/
def physOf (s : State) (ctx va : Nat) (acc : Acc) : Except AccFault (Nat × State) :=
  match translate s ctx va acc with
  | .ok p e log f => .ok (p, tlbKeep s ctx va (.ok p e log f))
  | .pf => .error ⟨cPf, va⟩
  | .prot => .error ⟨cProt, va⟩

/-- The physical pieces of a range of at most 64 KiB. -/
def piecesOf (s : State) (ctx va n : Nat) (acc : Acc) : Except AccFault (List (Nat × Nat) × State) :=
  let k := inPage va n
  match physOf s ctx va acc with
  | .error e => .error e
  | .ok (p, s) =>
    if k = n then .ok ([(p, n)], s)
    else
      match physOf s ctx (va + k) acc with
      | .error e => .error e
      | .ok (p', s) => .ok ([(p, k), (p', n - k)], s)

/-- Reads a range at its home (R243, R389); its accesses have then succeeded (R383). -/
def fetchVirt (s : State) (ctx va n : Nat) : Except AccFault (List Byte × State) :=
  match piecesOf s ctx va n .read with
  | .error e => .error e
  | .ok (ps, s) => .ok (ps.flatMap (fun p => s.mem.read p.1 p.2), ps.foldl (fun s p => hbmDone s (.g p.1)) s)

/-- A number at a virtual address. -/
def fetchNat (s : State) (ctx va n : Nat) : Except AccFault (Nat × State) :=
  (fetchVirt s ctx va n).map (fun r => (leNat r.1, r.2))

end Sys2Proof.Machine
end

