-- ==== Sys2Proof/Machine/Flags.lean ====
section
/-! DEFINITION. Conditions, clipping and flag computations shared by the integer, lane and floating-point instructions
(R97, R205, R209, R230, R232). -/

namespace Sys2Proof.Machine

open Sys2Proof

/-- A result in an integer format: wrapped, or clipped to its range (R205). -/
def clipWrap (f : Fmt) (clip : Bool) (x : Int) : Nat :=
  wrapTo (fmtBits f) (if clip then min (max x (intLo f)) (intHi f) else x)

/-- The six integer conditions of R209. -/
def icond (n : Nat) (a b : Int) : Bool :=
  match n with
  | 0 => a == b
  | 1 => a != b
  | 2 => decide (a < b)
  | 3 => decide (a ≤ b)
  | 4 => decide (b < a)
  | _ => decide (b ≤ a)

/-- The combine of R209 and R232. -/
def combine (n : Nat) (cond c : Bool) : Bool :=
  match n with
  | 0 => cond
  | 1 => cond && c
  | 2 => cond || c
  | _ => xor cond c

/-- A floating-point comparison and its flags (R232). -/
def fcond (n : Nat) (quiet : Bool) (a b : Num) : Bool × Flags :=
  let nan := a.isNan || b.isNan
  let sig := a.isSig || b.isSig
  let ordered := decide (2 ≤ n) && decide (n ≤ 5)
  let c :=
    match n with
    | 0 => !nan && a.cmp b == .eq
    | 1 => nan || a.cmp b != .eq
    | 2 => !nan && a.cmp b == .lt
    | 3 => !nan && a.cmp b != .gt
    | 4 => !nan && a.cmp b == .gt
    | 5 => !nan && a.cmp b != .lt
    | 6 => nan
    | _ => !nan
  (c, Flags.when (sig || (nan && ordered && !quiet)) Flags.invalid)

/-- Elements that a 32- or 64-bit operand holds in a format: its width and how many (R85, R202). -/
def elemCount (f : Fmt) : Nat := if fmtBits f < 32 then 32 / fmtBits f else 1

/-- Element `i` of packed bits. -/
def elem (f : Fmt) (x i : Nat) : Nat := x / 2 ^ (fmtBits f * i) % 2 ^ fmtBits f

/-- Packs elements, element 0 lowest (R85). -/
def packElems (f : Fmt) (xs : List Nat) : Nat :=
  xs.foldr (fun x n => x % 2 ^ fmtBits f + 2 ^ fmtBits f * n) 0

/-- An inline constant in every element of an operand (R202, R226). -/
def constElems (f : Fmt) (k : BitVec 6) : Nat := packElems f (List.replicate (elemCount f) (constCode f k))

/-- A result as an `s` register receives it: sign-extended for `i32`, zero-extended for the others (R202). -/
def toUniform (f : Fmt) (x : Nat) : Nat :=
  if f = .i32 then wrapTo 64 (asInt .i32 x) else x

/-- Writes one result a lane of the destination, in the registers of a format (R202, R203). -/
def writeLanes (x : Cx) (d : Opr) (f : Fmt) (res : Nat → Nat) : Crew :=
  (dstLanes x d).foldl (fun cr l =>
    cr.putOpr d (fmtRegs f) l (if oprIsS d then toUniform f (res l) else res l)) x.cr

/-- Writes the predicate bit of each active lane (R203). -/
def writePred (x : Cx) (cr : Crew) (pd : BitVec 4) (res : Nat → Bool) : Crew :=
  cr.putPd pd x.act (maskOf (x.acts.filter res))

/-- Flags of all lanes together (R97). -/
def allFlags (ls : List Nat) (fl : Nat → Flags) : Flags := ls.foldl (fun f l => f ||| fl l) 0

end Sys2Proof.Machine
end

