-- ==== Sys2Proof/Machine/WQueue.lean ====
section
/-! DEFINITION. The register-mapped queues of a core: binding, pops and pushes (R144, R211). -/

namespace Sys2Proof.Machine

open Sys2Proof

/-- Words a queue holds (R144). -/
def wqCapacity : Nat := 256

/-- Queue `q` of a core. -/
def wqOf (s : State) (core q : Nat) : WQueue := (s.core core).wqs.getD q ⟨[], none, []⟩

def setWq (s : State) (core q : Nat) (x : WQueue) : State :=
  s.setCore core { s.core core with wqs := (s.core core).wqs.set q x }

/-- The queue as a block of grid `g` names it: bound to that grid, or to be bound when it is empty and unbound;
none when another grid's binding makes the block wait. -/
def wqBind (w : WQueue) (g : Nat) : Option WQueue :=
  match w.grid with
  | some h => if h = g then some w else none
  | none => some { w with grid := some g }

/-- Hands queued elements to the lanes that wait, oldest first, in lane order. -/
def wqFeed : Nat → State → Nat → Nat → State
  | 0, s, _, _ => s
  | n + 1, s, core, q =>
    let w := wqOf s core q
    match w.elems, w.pops with
    | e :: es, (b, c, d) :: ps =>
      let s := setWq s core q { w with elems := es, pops := ps }
      wqFeed n (s.updCrew b c (fun cr => cr.deliver d e.toNat)) core q
    | _, _ => s

/-- A pop into a vector register: the active lanes wait in ascending order, and take what the queue holds. -/
def wqPopV (x : Cx) (q : Nat) (r : BitVec 8) : Res :=
  let core := x.blk.core
  match wqBind (wqOf x.s core q) x.blk.grid with
  | none => .stall x.s
  | some w =>
    let cr := x.cr.bump
    let reg := cr.vName r.toNat
    let cr' := x.acts.foldl (fun c l => c.markEmpty reg l cr.seq) cr
    let pops := x.acts.map (fun l => (x.b, x.c, (⟨true, reg, 1, l, cr.seq⟩ : Dest)))
    let s := setWq (x.put cr') core q { w with pops := w.pops ++ pops }
    .done (wqFeed w.elems.length s core q) false

/-- A pop of one element into a uniform register: the crew waits while the queue is empty or other lanes wait. -/
def wqPopS (x : Cx) (q : Nat) (d : Opr) (f : Fmt) : Res :=
  let core := x.blk.core
  match wqBind (wqOf x.s core q) x.blk.grid with
  | none => .stall x.s
  | some w =>
    match w.pops, w.elems with
    | [], e :: es =>
      .done ((setWq x.s core q { w with elems := es }).updCrew x.b x.c
        (fun cr => cr.putOpr d 1 0 (toUniform f e.toNat))) false
    | _, _ => .stall (setWq x.s core q w)

/-- A push: the lanes not discarded on replay are appended in ascending order; it waits while they do not fit. -/
def wqPush (x : Cx) (q : Nat) (lanes : List Nat) (val : Nat → Nat) : Res :=
  let core := x.blk.core
  match wqBind (wqOf x.s core q) x.blk.grid with
  | none => .stall x.s
  | some w =>
    let live := lanes.filter (fun l => !x.cr.skips l (·.wq))
    if wqCapacity + w.pops.length < w.elems.length + live.length then .stall (setWq x.s core q w)
    else
      let cr := x.cr.tally (maskOf lanes) (·.wq) (fun c n => { c with wq := n })
      let s := setWq (x.put cr) core q { w with elems := w.elems ++ live.map (fun l => BitVec.ofNat 32 (val l)) }
      .done (wqFeed (w.elems.length + live.length) s core q) false

/-- Withdraws a lane that waits for an element (R225): the queue and the place in a register where the element would have
gone, when the register's producer `tag` was such a pop. -/
def wqWithdraw (s : State) (core b c reg lane tag : Nat) : State × Option (Nat × Dest) :=
  (List.range 4).foldl (fun (s, hit) q =>
    let w := wqOf s core q
    let mine := fun (e : Nat × Nat × Dest) => e.1 == b && e.2.1 == c && e.2.2.reg == reg && e.2.2.lane == lane && e.2.2.tag == tag
    match w.pops.find? mine with
    | some e => (setWq s core q { w with pops := w.pops.filter (fun e => !mine e) }, some (q, e.2.2))
    | none => (s, hit)) (s, none)

/-- A withdrawn pop waits again, before those that have come since, and takes what the queue holds (R24). -/
def wqRejoin (s : State) (core b c : Nat) (p : Nat × Dest) : State :=
  let w := wqOf s core p.1
  wqFeed w.elems.length (setWq s core p.1 { w with pops := (b, c, p.2) :: w.pops }) core p.1

/-- The bindings of a grid end on a core, and what its queues hold is discarded (R144). -/
def wqUnbind (s : State) (core g : Nat) : State :=
  (List.range 4).foldl (fun s q =>
    let w := wqOf s core q
    if w.grid = some g then setWq s core q ⟨[], none, []⟩ else s) s

end Sys2Proof.Machine
end

