-- ==== Sys2Proof/Machine/Integer.lean ====
section
/-! DEFINITION. Integer arithmetic, logic, shifts, comparison, selection, moves and immediates (13_isa_integer
R205–R213). -/

namespace Sys2Proof.Machine

open Sys2Proof

/-- An inline constant of this chapter: sign-extended to the width whatever the code, in every element (R202, R210). -/
def constWide (f : Fmt) (k : BitVec 6) : Nat :=
  packElems f (List.replicate (elemCount f) (wrapTo (fmtBits f) k.toInt))

/-- The bits a source of the instruction's format supplies in a lane. -/
def intSrc (x : Cx) (f : Fmt) (o : Opr) (lane : Nat) : Nat := x.val o (fmtRegs f) lane (constWide f)
/-- A single 32-bit source: shift counts, field specifications, indices (R202). -/
def src32 (x : Cx) (o : Opr) (lane : Nat) : Nat := x.val o 1 lane (fun k => wrapTo 32 k.toInt)

/-- The result of an exact operation on every element, wrapped or clipped (R205). -/
def intValue (f : Fmt) (clip : Bool) (op : Int → Int → Int → Int) (a b c : Nat) : Nat :=
  packElems f ((List.range (elemCount f)).map (fun i =>
    clipWrap f clip (op (asInt f (elem f a i)) (asInt f (elem f b i)) (asInt f (elem f c i)))))

/-- An integer instruction of format A whose result is exact and then wraps or clips. -/
def intRes (f : FmtA) (op : Int → Int → Int → Int) (x : Cx) : Res :=
  crewRes x (writeLanes x f.d f.ty (fun l =>
    intValue f.ty (f.sub.getLsbD 0) op (intSrc x f.ty f.a l) (intSrc x f.ty f.b l) (intSrc x f.ty f.c l)))

/-- A bit-pattern operation of width `w` with a single 32-bit second source (R207, R208). -/
def bitRes (f : FmtA) (op : Nat → Nat → Nat → Nat) (b : Cx → Nat → Nat) (x : Cx) : Res :=
  crewRes x (writeLanes x f.d f.ty (fun l => op (fmtBits f.ty) (intSrc x f.ty f.a l) (b x l)))

/-- Quotient and remainder (R206). -/
def divide (f : Fmt) (a b : Int) : Int × Int :=
  if b = 0 then (if fmtSigned f then -1 else 2 ^ fmtBits f - 1, a)
  else if fmtSigned f ∧ a = intLo f ∧ b = -1 then (intLo f, 0)
  else (a.tdiv b, a - a.tdiv b * b)

def execIadd (f : FmtA) (s : State) : Host.Outcome State Fault Refusal :=
  issueWith (.iadd f) s (intRes f (fun a b _ => a + b))
def execIsub (f : FmtA) (s : State) : Host.Outcome State Fault Refusal :=
  issueWith (.isub f) s (intRes f (fun a b _ => a - b))
def execImul (f : FmtA) (s : State) : Host.Outcome State Fault Refusal :=
  issueWith (.imul f) s (intRes f (fun a b _ => a * b))
/-- The high half of the full product, rounded down (R205). -/
def execImulh (f : FmtA) (s : State) : Host.Outcome State Fault Refusal :=
  issueWith (.imulh f) s (intRes f (fun a b _ => (a * b) / 2 ^ fmtBits f.ty))
def execImad (f : FmtA) (s : State) : Host.Outcome State Fault Refusal :=
  issueWith (.imad f) s (intRes f (fun a b c => a * b + c))
def execIdiv (f : FmtA) (s : State) : Host.Outcome State Fault Refusal :=
  issueWith (.idiv f) s (intRes f (fun a b _ => (divide f.ty a b).1))
def execIrem (f : FmtA) (s : State) : Host.Outcome State Fault Refusal :=
  issueWith (.irem f) s (intRes f (fun a b _ => (divide f.ty a b).2))
def execImin (f : FmtA) (s : State) : Host.Outcome State Fault Refusal :=
  issueWith (.imin f) s (intRes f (fun a b _ => min a b))
def execImax (f : FmtA) (s : State) : Host.Outcome State Fault Refusal :=
  issueWith (.imax f) s (intRes f (fun a b _ => max a b))
def execIabs (f : FmtA) (s : State) : Host.Outcome State Fault Refusal :=
  issueWith (.iabs f) s (intRes f (fun a _ _ => (a.natAbs : Int)))
def execIneg (f : FmtA) (s : State) : Host.Outcome State Fault Refusal :=
  issueWith (.ineg f) s (intRes f (fun a _ _ => -a))

/-- The second source of a logic instruction, of the format's width. -/
def bitB (f : FmtA) (x : Cx) (l : Nat) : Nat := intSrc x f.ty f.b l

def execLand (f : FmtA) (s : State) : Host.Outcome State Fault Refusal :=
  issueWith (.land f) s (bitRes f (fun _ a b => a &&& b) (bitB f))
def execLor (f : FmtA) (s : State) : Host.Outcome State Fault Refusal :=
  issueWith (.lor f) s (bitRes f (fun _ a b => a ||| b) (bitB f))
def execLxor (f : FmtA) (s : State) : Host.Outcome State Fault Refusal :=
  issueWith (.lxor f) s (bitRes f (fun _ a b => a ^^^ b) (bitB f))
def execLnot (f : FmtA) (s : State) : Host.Outcome State Fault Refusal :=
  issueWith (.lnot f) s (bitRes f (fun w a _ => 2 ^ w - 1 - a) (fun _ _ => 0))

/-- The shift count (R207). -/
def shiftB (f : FmtA) (x : Cx) (l : Nat) : Nat := src32 x f.b l

/-- Shifts and rotation of a `w`-bit pattern (R207). -/
def shlBits (w a n : Nat) : Nat := if w ≤ n then 0 else a * 2 ^ n % 2 ^ w
def shrBits (w a n : Nat) : Nat := if w ≤ n then 0 else a / 2 ^ n
def sraBits (w a n : Nat) : Nat :=
  wrapTo w ((if a < 2 ^ (w - 1) then (a : Int) else (a : Int) - 2 ^ w) / 2 ^ min n (w - 1))
def rotlBits (w a n : Nat) : Nat := a * 2 ^ (n % w) % 2 ^ w + a / 2 ^ (w - n % w)

def execShl (f : FmtA) (s : State) : Host.Outcome State Fault Refusal := issueWith (.shl f) s (bitRes f shlBits (shiftB f))
def execShr (f : FmtA) (s : State) : Host.Outcome State Fault Refusal := issueWith (.shr f) s (bitRes f shrBits (shiftB f))
def execSra (f : FmtA) (s : State) : Host.Outcome State Fault Refusal := issueWith (.sra f) s (bitRes f sraBits (shiftB f))
def execRotl (f : FmtA) (s : State) : Host.Outcome State Fault Refusal :=
  issueWith (.rotl f) s (bitRes f rotlBits (shiftB f))

/-- Position and length of a bit field (R208). -/
def fieldSpec (w spec : Nat) : Nat × Nat :=
  let pos := spec % 256
  let len := spec / 256 % 256
  (pos, if len = 0 ∨ w ≤ pos then 0 else min len (w - pos))

/-- `bfx` (R208). -/
def bfxBits (f : Fmt) (a spec : Nat) : Nat :=
  let (pos, n) := fieldSpec (fmtBits f) spec
  let x := bits a pos n
  if fmtSigned f && decide (0 < n) && x.testBit (n - 1) then wrapTo (fmtBits f) ((x : Int) - 2 ^ n) else x

/-- `bfi` (R208). -/
def bfiBits (w a b spec : Nat) : Nat :=
  let (pos, n) := fieldSpec w spec
  if n = 0 then a else a - bits a pos n * 2 ^ pos + b % 2 ^ n * 2 ^ pos

def execBfx (f : FmtA) (s : State) : Host.Outcome State Fault Refusal :=
  issueWith (.bfx f) s (bitRes f (fun _ a b => bfxBits f.ty a b) (shiftB f))
def execBfi (f : FmtA) (s : State) : Host.Outcome State Fault Refusal :=
  issueWith (.bfi f) s (fun x => crewRes x (writeLanes x f.d f.ty (fun l =>
    bfiBits (fmtBits f.ty) (intSrc x f.ty f.a l) (intSrc x f.ty f.b l) (src32 x f.c l))))
def execPopc (f : FmtA) (s : State) : Host.Outcome State Fault Refusal :=
  issueWith (.popc f) s (bitRes f (fun w a _ => popcount a w) (fun _ _ => 0))
def execClz (f : FmtA) (s : State) : Host.Outcome State Fault Refusal :=
  issueWith (.clz f) s (bitRes f (fun w a _ => if a = 0 then w else w - 1 - Nat.log2 a) (fun _ _ => 0))
def execBrev (f : FmtA) (s : State) : Host.Outcome State Fault Refusal :=
  issueWith (.brev f) s (bitRes f (fun w a _ =>
    (List.range w).foldl (fun n i => if a.testBit (w - 1 - i) then n + 2 ^ i else n) 0) (fun _ _ => 0))

/-- A comparison that writes the predicate destination, with its combine (R209). -/
def icmpRes (pd : BitVec 4) (comb : Nat) (c : Opr) (cond : Cx → Nat → Bool) (x : Cx) : Res :=
  crewRes x (writePred x x.cr pd (fun l => combine comb (cond x l) ((x.pred c).getLsbD l)))

def execIcmp (f : FmtA) (s : State) : Host.Outcome State Fault Refusal :=
  issueWith (.icmp f) s (icmpRes f.pd (f.sub.toNat / 8 % 4) f.c (fun x l =>
    icond (f.sub.toNat % 8) (asInt f.ty (intSrc x f.ty f.a l)) (asInt f.ty (intSrc x f.ty f.b l))))

/-- Any 32- or 64-bit code is moved as bits (R210, R211). -/
def execSel (f : FmtA) (s : State) : Host.Outcome State Fault Refusal :=
  issueWith (.sel f) s (fun x => crewRes x (writeLanes x f.d f.ty (fun l =>
    if (x.pred f.c).getLsbD l then intSrc x f.ty f.a l else intSrc x f.ty f.b l)))

def execMov (f : FmtA) (s : State) : Host.Outcome State Fault Refusal :=
  issueWith (.mov f) s (fun x =>
    match f.d, f.a with
    | .wq q, .v _ => wqPush x q.toNat x.acts (fun l => intSrc x f.ty f.a l)
    | .wq q, _ => wqPush x q.toNat [x.first] (fun l => intSrc x f.ty f.a l)
    | .v r, .wq q => wqPopV x q.toNat r
    | d, .wq q => wqPopS x q.toNat d f.ty
    | d, _ => crewRes x (writeLanes x d f.ty (fun l => intSrc x f.ty f.a l)))

/-- `lea` (R212): the index is extended as `TY2` directs. -/
def execLea (f : FmtA) (s : State) : Host.Outcome State Fault Refusal :=
  issueWith (.lea f) s (fun x => crewRes x (writeLanes x f.d f.ty (fun l =>
    wrapTo 64 ((intSrc x f.ty f.a l : Int) + asInt f.ty2 (src32 x f.b l) * 2 ^ f.sub.toNat))))

/-- `IMM` extended to the width: sign-extended for `i` codes, zero-extended for the others (R213). -/
def immOf (f : Fmt) (imm : BitVec 32) : Nat := if fmtSigned f then wrapTo (fmtBits f) imm.toInt else imm.toNat

/-- The source of a format B instruction. -/
def immSrc (x : Cx) (f : FmtB) (l : Nat) : Nat := intSrc x f.ty f.a l

def execIaddi (f : FmtB) (s : State) : Host.Outcome State Fault Refusal :=
  issueWith (.iaddi f) s (fun x => crewRes x (writeLanes x f.d f.ty (fun l =>
    intValue f.ty (f.sub.getLsbD 0) (fun a b _ => a + b) (immSrc x f l) (immOf f.ty f.imm) 0)))
def execMovi (f : FmtB) (s : State) : Host.Outcome State Fault Refusal :=
  issueWith (.movi f) s (fun x => crewRes x (writeLanes x f.d f.ty (fun l =>
    if f.sub = 1 then intSrc x f.ty f.d l % 2 ^ 32 + f.imm.toNat * 2 ^ 32 else immOf f.ty f.imm)))
def execIcmpi (f : FmtB) (s : State) : Host.Outcome State Fault Refusal :=
  issueWith (.icmpi f) s (icmpRes f.pd 0 .zero (fun x l =>
    icond f.sub.toNat (asInt f.ty (immSrc x f l)) (asInt f.ty (immOf f.ty f.imm))))
def execAndi (f : FmtB) (s : State) : Host.Outcome State Fault Refusal :=
  issueWith (.andi f) s (fun x => crewRes x (writeLanes x f.d f.ty (fun l => immSrc x f l &&& immOf f.ty f.imm)))
def execOri (f : FmtB) (s : State) : Host.Outcome State Fault Refusal :=
  issueWith (.ori f) s (fun x => crewRes x (writeLanes x f.d f.ty (fun l => immSrc x f l ||| immOf f.ty f.imm)))
def execXori (f : FmtB) (s : State) : Host.Outcome State Fault Refusal :=
  issueWith (.xori f) s (fun x => crewRes x (writeLanes x f.d f.ty (fun l => immSrc x f l ^^^ immOf f.ty f.imm)))

end Sys2Proof.Machine
end

