-- ==== Sys2Proof/Machine/Lane.lean ====
section
/-! DEFINITION. Predicate logic, lane exchange, extended register blocks, full/empty control (13_isa_integer
R214–R225; R12, R13). -/

namespace Sys2Proof.Machine

open Sys2Proof

/-! ## Predicates (R214, R215) -/

/-- `op[.na][.nb] d, a, b` on predicate registers (R214). -/
def predRes (f : FmtA) (op : Lanes → Lanes → Lanes) (x : Cx) : Res :=
  let inv := fun (i : Nat) (p : Lanes) => if f.sub.getLsbD i then ~~~p else p
  match f.d with
  | .p d => crewRes x (x.cr.putPd d x.act (op (inv 0 (x.pred f.a)) (inv 1 (x.pred f.b))))
  | _ => crewRes x x.cr

def execPand (f : FmtA) (s : State) : Host.Outcome State Fault Refusal :=
  issueWith (.pand f) s (predRes f (fun a b => a &&& b))
def execPor (f : FmtA) (s : State) : Host.Outcome State Fault Refusal :=
  issueWith (.por f) s (predRes f (fun a b => a ||| b))
def execPxor (f : FmtA) (s : State) : Host.Outcome State Fault Refusal :=
  issueWith (.pxor f) s (predRes f (fun a b => a ^^^ b))
def execPnot (f : FmtA) (s : State) : Host.Outcome State Fault Refusal :=
  issueWith (.pnot f) s (predRes f (fun a _ => ~~~a))

/-- Writes a mask to a uniform destination, bits 63:32 zero. -/
def maskToUniform (x : Cx) (d : Opr) (m : Lanes) : Crew := x.cr.putOpr d 2 0 m.toNat

def execP2s (f : FmtA) (s : State) : Host.Outcome State Fault Refusal :=
  issueWith (.p2s f) s (fun x => crewRes x (maskToUniform x f.d (x.pred f.a &&& x.act)))
def execS2p (f : FmtA) (s : State) : Host.Outcome State Fault Refusal :=
  issueWith (.s2p f) s (fun x =>
    match f.d with
    | .p d => crewRes x (x.cr.putPd d x.act (BitVec.ofNat 32 (x.uni f.a)))
    | _ => crewRes x x.cr)

/-! ## Lane exchange (R216–R220) -/

/-- The source lane of `shfl` (R216): mode, segment width, lane, index. -/
def shflSource (mode s i b : Nat) : Option Nat :=
  let base := i - i % s
  match mode with
  | 0 => some (base + b % s)
  | 1 => if base + b ≤ i then some (i - b) else none
  | 2 => if i + b < base + s then some (i + b) else none
  | _ => some (base + ((i - base) ^^^ (b % s)))

def execShfl (f : FmtA) (s : State) : Host.Outcome State Fault Refusal :=
  issueWith (.shfl f) s (fun x =>
    let from_ := fun l =>
      (shflSource (f.sub.toNat % 4) (32 / 2 ^ (f.sub.toNat / 4 % 8)) l (src32 x f.b l)).filter (fun j => x.act.getLsbD j)
    crewRes x (writePred x (writeLanes x f.d f.ty (fun l => intSrc x f.ty f.a ((from_ l).getD l))) f.pd
      (fun l => (from_ l).isSome)))

/-- `vote` forms that write the predicate of every active lane (R217). -/
def voteRes (f : FmtA) (test : Lanes → Lanes → Bool) (x : Cx) : Res :=
  crewRes x (writePred x x.cr f.pd (fun _ => test (x.pred f.a) x.act))

def execVoteAll (f : FmtA) (s : State) : Host.Outcome State Fault Refusal :=
  issueWith (.voteAll f) s (voteRes f (fun p act => p &&& act == act))
def execVoteAny (f : FmtA) (s : State) : Host.Outcome State Fault Refusal :=
  issueWith (.voteAny f) s (voteRes f (fun p act => p &&& act != 0))
def execVoteUni (f : FmtA) (s : State) : Host.Outcome State Fault Refusal :=
  issueWith (.voteUni f) s (voteRes f (fun p act => p &&& act == act || p &&& act == 0))
def execVoteBallot (f : FmtA) (s : State) : Host.Outcome State Fault Refusal :=
  issueWith (.voteBallot f) s (fun x => crewRes x (maskToUniform x f.d (x.pred f.a &&& x.act)))

/-- The active lanes whose value equals a lane's own (R218). -/
def matchMask (x : Cx) (f : FmtA) (l : Nat) : Lanes :=
  maskOf (x.acts.filter (fun j => intSrc x f.ty f.a j == intSrc x f.ty f.a l))

def execMatchAny (f : FmtA) (s : State) : Host.Outcome State Fault Refusal :=
  issueWith (.matchAny f) s (fun x => crewRes x (writeLanes x f.d .n32 (fun l => (matchMask x f l).toNat)))
def execMatchAll (f : FmtA) (s : State) : Host.Outcome State Fault Refusal :=
  issueWith (.matchAll f) s (fun x =>
    let all := matchMask x f x.first == x.act
    crewRes x (writePred x (writeLanes x f.d .n32 (fun _ => if all then x.act.toNat else 0)) f.pd (fun _ => all)))

/-- The combining operation of `redux` and `scan`, with its flags (R219). -/
def laneOp (ty : Fmt) (op rnd : Nat) (a b : Nat) : Nat × Flags :=
  let w := 2 ^ fmtBits ty
  let a := a % w
  let b := b % w
  if fmtIsFloat ty then
    match op with
    | 0 => fpAdd ty rnd 0 false a b
    | 1 => fpMinMax ty false false a b
    | _ => fpMinMax ty true false a b
  else
    (match op with
      | 0 => (a + b) % w
      | 1 => if asInt ty a ≤ asInt ty b then a else b
      | 2 => if asInt ty a ≤ asInt ty b then b else a
      | 3 => a &&& b
      | 4 => a ||| b
      | _ => a ^^^ b, 0)

/-- The identity of an operation (R219). -/
def laneIdentity (ty : Fmt) (op : Nat) : Nat :=
  if fmtIsFloat ty then
    match op with
    | 0 => 0
    | 1 => fmtInfMag ty
    | _ => withSign ty true (fmtInfMag ty)
  else
    match op with
    | 1 => wrapTo (fmtBits ty) (intHi ty)
    | 2 => wrapTo (fmtBits ty) (intLo ty)
    | 3 => 2 ^ fmtBits ty - 1
    | _ => 0

/-- A combination with absent operands (R99). -/
def combineOpt (op : Nat → Nat → Nat × Flags) (a b : Option Nat) : Option Nat × Flags :=
  match a, b with
  | some a, some b => (some (op a b).1, (op a b).2)
  | some a, none => (some a, 0)
  | none, b => (b, 0)

/-- One level of the balanced tree (R99). -/
def treeLevel (op : Nat → Nat → Nat × Flags) : List (Option Nat) → List (Option Nat) × Flags
  | a :: b :: rest =>
    let r := combineOpt op a b
    let (t, fl) := treeLevel op rest
    (r.1 :: t, r.2 ||| fl)
  | l => (l, 0)

/-- The balanced pairwise tree over `2^n` values (R99). -/
def treeReduce (op : Nat → Nat → Nat × Flags) : Nat → List (Option Nat) → List (Option Nat) × Flags
  | 0, l => (l, 0)
  | n + 1, l =>
    let (l', fl) := treeLevel op l
    let (r, fl') := treeReduce op n l'
    (r, fl ||| fl')

/-- The prefix scan's steps with rising distance (R100). -/
def scanSteps (op : Nat → Nat → Nat × Flags) : Nat → Nat → List (Option Nat) → List (Option Nat) × Flags
  | 0, _, l => (l, 0)
  | n + 1, d, l =>
    let step := (List.range l.length).map (fun i =>
      if d ≤ i then combineOpt op (l.getD (i - d) none) (l.getD i none) else (l.getD i none, (0 : Flags)))
    let (r, fl) := scanSteps op n (2 * d) (step.map Prod.fst)
    (r, step.foldl (fun f e => f ||| e.2) fl)

/-- The lanes' values, absent where inactive. -/
def laneValues (x : Cx) (f : FmtA) : List (Option Nat) :=
  (List.range 32).map (fun l => if x.act.getLsbD l then some (intSrc x f.ty f.a l % 2 ^ fmtBits f.ty) else none)

def execRedux (f : FmtA) (s : State) : Host.Outcome State Fault Refusal :=
  issueWith (.redux f) s (fun x =>
    let op := f.sub.toNat % 8
    let (r, fl) := treeReduce (laneOp f.ty op f.rnd.toNat) 5 (laneValues x f)
    let v := (r.getD 0 none).getD (laneIdentity f.ty op)
    crewRes x ((x.cr.putOpr f.d 2 0 (toUniform f.ty v)).orFlags fl))

def execScan (f : FmtA) (s : State) : Host.Outcome State Fault Refusal :=
  issueWith (.scan f) s (fun x =>
    let op := f.sub.toNat % 8
    let id := laneIdentity f.ty op
    let (r, fl) := scanSteps (laneOp f.ty op f.rnd.toNat) 5 1 (laneValues x f)
    let incl := fun l => (r.getD l none).getD id
    let below := fun l => (x.acts.filter (fun j => decide (j < l))).getLast?
    let res := fun l =>
      if f.sub.getLsbD 3 then
        match below l with
        | some j => incl j
        | none => id
      else incl l
    crewRes x ((writeLanes x f.d f.ty res).orFlags fl))

def execElect (f : FmtA) (s : State) : Host.Outcome State Fault Refusal :=
  issueWith (.elect f) s (fun x => crewRes x (writePred x (x.cr.putOpr f.d 2 0 x.first) f.pd (fun l => l == x.first)))

/-! ## Extended register blocks (R12, R13, R222–R224) -/

/-- Free register blocks of a core: 96 less a base block and the extended blocks of every crew that has not retired
(R9, R275). -/
def freeBlocks (s : State) (core : Nat) : Nat :=
  let used := (s.blocks.filter (fun e => e.2.core == core && e.2.st == .resident)).map (fun e =>
    (e.2.crews.filter (fun c => !c.2.retired)).map (fun c => 1 + popcount c.2.xheld.toNat 3))
  96 - used.flatten.sum

/-- The crew takes extended blocks, every register zero and full (R222). -/
def Crew.takeBlocks (c : Crew) (m : BitVec 3) : Crew :=
  (List.range 3).foldl (fun c i =>
    if m.getLsbD i && !c.xheld.getLsbD i then
      let lo := 2048 * (i + 1)
      let out := fun (k : Nat) => decide (k < lo) || decide (lo + 2048 ≤ k)
      { c with
        xheld := c.xheld ||| (1#3 <<< i)
        v := c.v.keep out
        held := c.held.keep out
        empty := c.empty.keep out
        vFill := c.vFill.erase (i + 1) }
    else c) c

def execRegacq (f : FmtA) (s : State) : Host.Outcome State Fault Refusal :=
  issueWith (.regacq f) s (fun x =>
    let need : BitVec 3 := f.sub.setWidth 3 &&& ~~~x.cr.xheld
    let core := x.s.core x.blk.core
    if need = 0 then crewRes x x.cr
    else if core.acqWait.isEmpty && decide (popcount need.toNat 3 ≤ freeBlocks x.s x.blk.core) then
      crewRes x (x.cr.takeBlocks need)
    else
      let m := f.sub.toNat % 8
      let cr := x.cr.updThreads x.act (fun t => t.waits (.regacq m) false (x.s.clock x.blk.core))
      let cr := cr.advance (x.lanes &&& ~~~x.act) x.nextPc false
      .raw ((x.put cr).setCore x.blk.core { core with acqWait := core.acqWait ++ [(x.b, x.c, m)] }))

/-- Threads that wait in `regacq` for a mask. -/
def Crew.acquiring (cr : Crew) (m : Nat) : Lanes := cr.lanesWhere (fun t => t.wait == some (.regacq m))

/-- REGACQ_GRANT: the oldest request of the core takes its blocks once enough are free; one whose threads have left it is
dropped (R13, R222). -/
def execRegacqGrant (core : Nat) (s : State) : Host.Outcome State Fault Refusal :=
  .next (
    let k := s.core core
    match k.acqWait with
    | [] => s
    | (b, c, m) :: rest =>
      let s' := s.setCore core { k with acqWait := rest }
      match s.crew? b c with
      | none => s'
      | some cr =>
        let lanes := cr.acquiring m
        let need := BitVec.ofNat 3 m &&& ~~~cr.xheld
        if lanes = 0 then s'
        else if freeBlocks s core < popcount need.toNat 3 then s
        else s'.setCrew b c ((cr.takeBlocks need).resume lanes false))

def execRegrel (f : FmtA) (s : State) : Host.Outcome State Fault Refusal :=
  issueWith (.regrel f) s (fun x =>
    crewRes x { x.cr with xmark := x.cr.xmark ||| (f.sub.setWidth 3 &&& x.cr.xheld) })

/-! ## Full/empty control (R225) -/

/-- The register that `fectl` inspects. -/
def fectlReg (x : Cx) (f : FmtA) : Nat :=
  match f.a with
  | .v r => x.cr.vName r.toNat
  | _ => 0

def execFectlTest (f : FmtA) (s : State) : Host.Outcome State Fault Refusal :=
  issueWith (.fectlTest f) s (fun x =>
    crewRes x (writePred x x.cr f.pd (fun l => !x.cr.isEmpty (fectlReg x f) l)))

/-- The lanes of `go` and the inactive threads of the path go on; the others are not ready until the register is full. -/
def goOrWait (x : Cx) (s : State) (go : Lanes) (reg : Nat) : State :=
  let left := x.act &&& ~~~go
  s.updCrew x.b x.c (fun cr =>
    let cr := cr.advance (x.lanes &&& ~~~left) x.nextPc false
    { cr with threads := cr.threads.mapVals (fun l t =>
        if left.getLsbD l then t.waits (.full (Crew.key reg l)) false (s.clock x.blk.core) else t) })

def execFectlWait (f : FmtA) (s : State) : Host.Outcome State Fault Refusal :=
  issueWith (.fectlWait f) s (fun x =>
    let reg := fectlReg x f
    .raw (goOrWait x x.s (maskOf (x.acts.filter (fun l => !x.cr.isEmpty reg l))) reg))

/-- A lane whose pop has been withdrawn receives 0 and is full. The checkpoint keeps the register empty, and the pop with it:
R24 cancels no producer that is older than the head, so a rollback has the lane wait at the queue again (log 140). -/
def Crew.withdrawn (cr : Crew) (q : Nat) (d : Dest) : Crew :=
  (cr.setV d.reg d.lane 0).updThread d.lane (fun t =>
    if t.head.empty.find? (Crew.key d.reg d.lane) = some d.tag then { t with head := { t.head with pops := t.head.pops ++ [(q, d)] } }
    else t)

/-- Lanes that wait for a pop are withdrawn (R225). Those that were not waiting for one are left out. -/
def withdrawLanes (x : Cx) (reg : Nat) : List Nat → State × List Nat
  | [] => (x.s, [])
  | l :: ls =>
    let (s, out) := withdrawLanes x reg ls
    match wqWithdraw s x.blk.core x.b x.c reg l ((x.cr.empty.find? (Crew.key reg l)).getD 0) with
    | (s', some (q, d)) => (s'.updCrew x.b x.c (fun cr => cr.withdrawn q d), l :: out)
    | (_, none) => (s, out)

def execFectlCancel (f : FmtA) (s : State) : Host.Outcome State Fault Refusal :=
  issueWith (.fectlCancel f) s (fun x =>
    let reg := fectlReg x f
    let full := x.acts.filter (fun l => !x.cr.isEmpty reg l)
    let (s, out) := withdrawLanes x reg (x.acts.filter (fun l => x.cr.isEmpty reg l))
    let go := maskOf (full ++ out)
    .raw (goOrWait x (s.updCrew x.b x.c (fun cr => cr.putPd f.pd go (maskOf full))) go reg))

end Sys2Proof.Machine
end

