-- ==== Sys2Proof/Machine/Float.lean ====
section
/-! DEFINITION. Floating-point arithmetic (14_isa_float R226–R234). -/

namespace Sys2Proof.Machine

open Sys2Proof

/-! ## Shared: draws, elements, flags -/

/-- A lane's draw for logical thread `fx` under the grid's key (R108). -/
def laneDraw (x : Cx) (fx lane : Nat) : Draw :=
  match x.cr.threads.find? lane with
  | some t => drawOf t x.g.key fx
  | none => ⟨0, 0, 0, 0⟩

/-- The active threads' counters advance (R109, R110). -/
def drawn (x : Cx) (fx : Nat) (cr : Crew) : Crew := cr.updThreads x.act (fun t => t.drew fx)

/-- The word of an element under `sr`; any other mode reads none (R95). -/
def srWord (x : Cx) (rnd fx lane i : Nat) : Nat := if rnd = 5 then ((laneDraw x fx lane).word i).toNat else 0

/-- Counters advance when the rounding draws (R110). -/
def srDrawn (x : Cx) (rnd fx : Nat) (cr : Crew) : Crew := if rnd = 5 then drawn x fx cr else cr

/-- Writes a result a lane, of `n` registers, and ORs the flags of all lanes into `FSTAT` (R97, R203). -/
def flaggedLanes (x : Cx) (d : Opr) (n : Nat) (res : Nat → Nat × Flags) : Crew :=
  let rs := (dstLanes x d).map (fun l => (l, res l))
  let cr := rs.foldl (fun cr e => cr.putOpr d n e.1 e.2.1) x.cr
  cr.orFlags (rs.foldl (fun fl e => fl ||| e.2.2) 0)

/-- Packs results of elements with their flags. -/
def packFlagged (f : Fmt) (rs : List (Nat × Flags)) : Nat × Flags :=
  (packElems f (rs.map Prod.fst), rs.foldl (fun fl e => fl ||| e.2) 0)

/-- Sources of a floating-point instruction (R226). -/
def fpSrc (x : Cx) (f : Fmt) (o : Opr) (lane : Nat) : Nat := x.val o (fmtRegs f) lane (constElems f)

/-- A floating-point instruction: `op` answers one element from the rounding word and the elements of the sources. -/
def fpRes (f : FmtA) (op : Nat → Nat → Nat → Nat → Nat × Flags) (x : Cx) : Res :=
  let rnd := f.rnd.toNat
  let fx := f.fx.toNat
  let res := fun l =>
    packFlagged f.ty ((List.range (elemCount f.ty)).map (fun i =>
      let e := fun o => elem f.ty (fpSrc x f.ty o l) i
      op (srWord x rnd fx l i) (e f.a) (e f.b) (e f.c)))
  crewRes x (srDrawn x rnd fx (flaggedLanes x f.d (fmtRegs f.ty) res))

/-! ## R229–R231 -/

def execFadd (f : FmtA) (s : State) : Host.Outcome State Fault Refusal :=
  issueWith (.fadd f) s (fpRes f (fun w a b _ => fpAdd f.ty f.rnd.toNat w false a b))
def execFsub (f : FmtA) (s : State) : Host.Outcome State Fault Refusal :=
  issueWith (.fsub f) s (fpRes f (fun w a b _ => fpAdd f.ty f.rnd.toNat w true a b))
def execFmul (f : FmtA) (s : State) : Host.Outcome State Fault Refusal :=
  issueWith (.fmul f) s (fpRes f (fun w a b _ => fpMul f.ty f.rnd.toNat w a b))
def execFfma (f : FmtA) (s : State) : Host.Outcome State Fault Refusal :=
  issueWith (.ffma f) s (fpRes f (fun w a b c =>
    fpFma f.ty f.rnd.toNat w (f.sub.getLsbD 0) (f.sub.getLsbD 1) a b c))
def execFmin (f : FmtA) (s : State) : Host.Outcome State Fault Refusal :=
  issueWith (.fmin f) s (fpRes f (fun _ a b _ => fpMinMax f.ty false (f.sub == 1) a b))
def execFmax (f : FmtA) (s : State) : Host.Outcome State Fault Refusal :=
  issueWith (.fmax f) s (fpRes f (fun _ a b _ => fpMinMax f.ty true (f.sub == 1) a b))

/-- Sign-bit operations (R231). -/
def fpSign (f : Fmt) (op a b : Nat) : Nat :=
  let top := 2 ^ (fmtBits f - 1)
  let sa := decide (top ≤ a)
  let sb := decide (top ≤ b)
  let sgn :=
    match op with
    | 0 => !sa
    | 1 => false
    | 2 => sb
    | _ => xor sa sb
  a % top + (if sgn then top else 0)

def execFsgn (f : FmtA) (s : State) : Host.Outcome State Fault Refusal :=
  issueWith (.fsgn f) s (fpRes f (fun _ a b _ => (fpSign f.ty f.sub.toNat a b, 0)))

/-! ## R232, R233 -/

def execFcmp (f : FmtA) (s : State) : Host.Outcome State Fault Refusal :=
  issueWith (.fcmp f) s (fun x =>
    let sub := f.sub.toNat
    let i := if f.sub.getLsbD 6 then 1 else 0
    let rs := x.acts.map (fun l =>
      (l, fcond (sub % 8) (f.sub.getLsbD 5) (numOf f.ty (elem f.ty (fpSrc x f.ty f.a l) i))
        (numOf f.ty (elem f.ty (fpSrc x f.ty f.b l) i))))
    let cond := fun l => rs.any (fun e => e.1 == l && e.2.1)
    let cr := writePred x x.cr f.pd (fun l => combine (sub / 8 % 4) (cond l) ((x.pred f.c).getLsbD l))
    crewRes x (cr.orFlags (rs.foldl (fun fl e => fl ||| e.2.2) 0)))

/-- The class bit of an element (R233). -/
def fpClass (f : Fmt) (a : Nat) : Nat :=
  let sub := fun (m : Nat) => decide (m < 2 ^ (fmtPrec f - 1))
  match numOf f a with
  | .nan sig => if sig then 1 else 2
  | .inf neg => if neg then 4 else 512
  | .fin neg m _ =>
    if m = 0 then (if neg then 32 else 64)
    else if sub m then (if neg then 16 else 128)
    else if neg then 8 else 256

def execFclass (f : FmtA) (s : State) : Host.Outcome State Fault Refusal :=
  issueWith (.fclass f) s (fpRes f (fun _ a _ _ => (fpClass f.ty a, 0)))

/-! ## R234 -/

def execFdiv (f : FmtA) (s : State) : Host.Outcome State Fault Refusal :=
  issueWith (.fdiv f) s (fpRes f (fun w a b _ => fpDiv f.ty f.rnd.toNat w a b))
def execFsqrt (f : FmtA) (s : State) : Host.Outcome State Fault Refusal :=
  issueWith (.fsqrt f) s (fpRes f (fun w a _ _ => fpSqrt f.ty f.rnd.toNat w a))
def execFex2 (f : FmtA) (s : State) : Host.Outcome State Fault Refusal :=
  issueWith (.fex2 f) s (fpRes f (fun w a _ _ => fpExp2 f.ty f.rnd.toNat w a))
def execFlg2 (f : FmtA) (s : State) : Host.Outcome State Fault Refusal :=
  issueWith (.flg2 f) s (fpRes f (fun w a _ _ => fpLog2 f.ty f.rnd.toNat w a))
def execFrcpa (f : FmtA) (s : State) : Host.Outcome State Fault Refusal :=
  issueWith (.frcpa f) s (fpRes f (fun _ a _ _ => fpRcpA f.ty a))
def execFrsqa (f : FmtA) (s : State) : Host.Outcome State Fault Refusal :=
  issueWith (.frsqa f) s (fpRes f (fun _ a _ _ => fpRsqA f.ty a))

end Sys2Proof.Machine
end

