-- ==== Sys2Proof/Machine/Convert.lean ====
section
/-! DEFINITION. Conversions, packing and block quantization (14_isa_float R235–R238). -/

namespace Sys2Proof.Machine

open Sys2Proof

/-- One conversion under R235: integer to integer wraps or clips, anything else rounds. -/
def cvtCode (ty ty2 : Fmt) (rnd sat : Nat) (clip : Bool) (code word : Nat) : Nat × Flags :=
  if fmtIsInt ty && fmtIsInt ty2 then (convInt ty ty2 clip code, 0)
  else convert ty ty2 rnd sat code word

/-- A code as a 32-bit or 64-bit register value: `i8` and `i16` sign-extended to 32 bits (R235). -/
def widenCode (f : Fmt) (x : Nat) : Nat :=
  match f with
  | .i8 | .i16 => wrapTo 32 (asInt f x)
  | _ => x

/-- A constant operand of `cvt` stands for the source format (R174). -/
def execCvt (f : FmtA) (s : State) : Host.Outcome State Fault Refusal :=
  issueWith (.cvt f) s (fun x =>
    let rnd := f.rnd.toNat
    let fx := f.fx.toNat
    let k := f.sub.toNat % 4
    let res := fun l =>
      let r := cvtCode f.ty f.ty2 rnd f.sat.toNat (f.sub.getLsbD 2) (elem f.ty2 (fpSrc x f.ty2 f.a l) k) (srWord x rnd fx l 0)
      (widenCode f.ty r.1, r.2)
    crewRes x (srDrawn x rnd fx (flaggedLanes x f.d (fmtRegs f.ty) res)))

/-- The sources of `pack` in element order (R236). -/
def packSources (x : Cx) (f : FmtA) (l : Nat) : List Nat :=
  let a1 := x.val f.a 1 l (constElems f.ty2)
  let b1 := x.val f.b 1 l (constElems f.ty2)
  if fmtBits f.ty = 8 ∧ fmtBits f.ty2 = 32 then
    let a := x.val f.a 2 l (constElems f.ty2)
    let b := x.val f.b 2 l (constElems f.ty2)
    [a % 2 ^ 32, a / 2 ^ 32, b % 2 ^ 32, b / 2 ^ 32]
  else if fmtBits f.ty = 8 then [elem f.ty2 a1 0, elem f.ty2 a1 1, elem f.ty2 b1 0, elem f.ty2 b1 1]
  else [a1, b1]

def execPack (f : FmtA) (s : State) : Host.Outcome State Fault Refusal :=
  issueWith (.pack f) s (fun x =>
    let rnd := f.rnd.toNat
    let fx := f.fx.toNat
    let res := fun l =>
      packFlagged f.ty ((packSources x f l).zipIdx.map (fun e =>
        cvtCode f.ty f.ty2 rnd f.sat.toNat true e.1 (srWord x rnd fx l e.2)))
    crewRes x (srDrawn x rnd fx (flaggedLanes x f.d 1 res)))

/-- Multiplies an exact value by a power of two. -/
def Num.scale (v : Num) (k : Int) : Num :=
  match v with
  | .fin n m e => .fin n m (e + k)
  | v => v

/-- A block scale (R90): its exponent, or none for NaN. -/
def scaleExp (code : Nat) : Option Int := if code % 256 = 255 then none else some ((code % 256 : Nat) - 128)

/-- Decodes an element under a block scale (R90, R237). -/
def scaledNum (f : Fmt) (code : Nat) (sc : Nat) : Num :=
  match scaleExp sc with
  | none => .nan false
  | some k => (numOf f code).scale k

/-- One widened element (R237). -/
def unpackCode (f : FmtA) (code word : Nat) (sc : Option Nat) : Nat × Flags :=
  match sc with
  | some k => roundTo f.ty f.rnd.toNat 0 (scaledNum f.ty2 code k) false word
  | none => cvtCode f.ty f.ty2 f.rnd.toNat 0 false code word

def execUnpack (f : FmtA) (s : State) : Host.Outcome State Fault Refusal :=
  issueWith (.unpack f) s (fun x =>
    let rnd := f.rnd.toNat
    let fx := f.fx.toNat
    let k := f.sub.toNat % 4
    let idx := if fmtBits f.ty = 16 then [2 * k, 2 * k + 1] else [k]
    let res := fun l =>
      let a := x.val f.a 1 l (constElems f.ty2)
      let sc := if f.sub.getLsbD 2 then some (x.val f.b 1 l (fun c => wrapTo 32 c.toInt) % 256) else none
      packFlagged f.ty (idx.zipIdx.map (fun e =>
        unpackCode f (elem f.ty2 a e.1) (srWord x rnd fx l e.2) sc))
    crewRes x (srDrawn x rnd fx (flaggedLanes x f.d 1 res)))

/-! ## `bquant` (R238) -/

/-- The smallest integer `e` with `a ≤ m * 2^e`, for a nonzero finite `a` and a positive `m`. -/
def leastExp (am : Nat) (ae : Int) (mm : Nat) (me : Int) : Int :=
  let e0 : Int := ae + Nat.log2 am - me - Nat.log2 mm
  let fits := fun (e : Int) => (Num.fin false am ae).le (.fin false mm (me + e))
  if fits (e0 - 1) then e0 - 1 else if fits e0 then e0 else e0 + 1

/-- Largest finite value of the target, 127 for `i8`, as a number. -/
def bquantMax (f : Fmt) : Nat × Int :=
  if f = .i8 then (127, 0)
  else
    match numOf f (fmtMaxMag f) with
    | .fin _ m e => (m, e)
    | _ => (1, 0)

/-- Exponent and scale code of a block of values. -/
def bquantScale (f : Fmt) (vs : List Num) : Int × Nat :=
  if vs.any Num.isNan then (0, 255)
  else
    let amax := vs.foldl (fun a v => if a.lt v.abs then v.abs else a) (.fin false 0 0)
    let (mm, me) := bquantMax f
    let e : Int :=
      match amax with
      | .fin _ 0 _ => 0
      | .fin _ m ex => leastExp m ex mm me
      | _ => 126
    let e := min (max e (-128)) 126
    (e, (e + 128).toNat)

def execBquant (f : FmtA) (s : State) : Host.Outcome State Fault Refusal :=
  issueWith (.bquant f) s (fun x =>
    let rnd := f.rnd.toNat
    let fx := f.fx.toNat
    let blk := if f.sub.getLsbD 0 then 32 else 16
    let v := fun l => numOf .f32 (x.val f.a 1 l (constElems .f32))
    let scaleOf := fun b => bquantScale f.ty ((x.acts.filter (fun l => l / blk == b)).map v)
    let s0 := scaleOf 0
    let s1 := scaleOf 1
    let res := fun l =>
      let sc := if l / blk = 0 then s0 else s1
      let q := roundTo f.ty rnd f.sat.toNat ((v l).scale (-sc.1)) false (srWord x rnd fx l 0)
      (sc.2 * 256 + q.1, q.2)
    crewRes x (srDrawn x rnd fx (flaggedLanes x f.d 1 res)))

end Sys2Proof.Machine
end

