-- ==== Sys2Proof/Machine/MemInstr.lean ====
section
/-! DEFINITION. Loads, stores, atomics and fences as they issue (15_isa_memory R244–R254; R46–R48, R62, R63, R68,
R69; R31, R34). -/

namespace Sys2Proof.Machine

open Sys2Proof

/-! ## Ladder checks on writes (R31, R34) -/

/-- Address of slot `j` of tile `t` (R30). -/
def Ladder.slotAddr (l : Ladder) (t j : Nat) : Nat := l.base + (t * l.s + j) * l.tsize

/-- May the grid not write these virtual bytes: into the header, the tile entries, or a slot other than the block's
saggar (R31, R34)? -/
def Ladder.forbids (l : Ladder) (tile : Nat) (pass : Option Nat) (va n : Nat) : Bool :=
  let meets := fun lo len => decide (va < lo + len) && decide (lo < va + n)
  let mine :=
    match pass with
    | none => false
    | some k =>
      let lo := l.slotAddr tile (k % l.s)
      decide (lo ≤ max va l.base) && decide (min (va + n) (l.base + l.t * l.s * l.tsize) ≤ lo + l.tsize)
  meets l.hdr (64 + 8 * l.t) || (meets l.base (l.t * l.s * l.tsize) && !mine)

/-- The check of a write by a block's grid. -/
def sealForbids (g : Grid) (k : Block) (va n : Nat) : Bool :=
  match g.ladder with
  | none => false
  | some l => decide (0 < n) && l.forbids k.lin k.pass va n

/-- The virtual addresses, among the present pages of a range, that a physical address lies at. -/
def aliasVas (s : State) (c : Ctx) (lo len p : Nat) : List Nat :=
  (List.range (len / 65536 + 2)).filterMap (fun i =>
    let va := (lo / 65536 + i) * 65536
    (placeOf s c va).bind (fun q => if q / 65536 = p / 65536 then some (va + p % 65536) else none))

/-- The check of R247 on a translated access: some address of the ladder at which the bytes lie is one that the grid may
not write. -/
def sealForbidsAt (s : State) (g : Grid) (k : Block) (p n : Nat) : Bool :=
  match g.ladder, s.ctxs.find? g.ctx with
  | some l, some c =>
    (aliasVas s c l.hdr (64 + 8 * l.t) p ++ aliasVas s c l.base (l.t * l.s * l.tsize) p).any (fun va => sealForbids g k va n)
  | _, _ => false

/-! ## Addresses (R245–R247) -/

/-- Where one lane's access goes: lane, address formed, place, and for global ones the page's leaf entry, its size and
its Format Table entry. -/
structure LaneAcc where
  lane : Nat
  va : Nat
  place : Place
  pte : DWord
  log : Nat
  fmt : Option (List Byte)
deriving DecidableEq, Repr

/-- The address that a lane forms, before any check. -/
def formAddr (x : Cx) (f : FmtM) (lane : Nat) : Int :=
  if f.sp = 0 then
    wrapTo 64 ((x.val f.a 2 lane (fun c => wrapTo 64 c.toInt) : Int) + f.ofs.toInt)
  else (x.val f.a 1 lane (fun c => wrapTo 32 c.toInt) : Int) + f.ofs.toInt

/-- Address bits for `TADDR`. -/
def tAddr (a : Int) : Nat := wrapTo 64 a

/-- A byte of the block's bays as a scratchpad address of its core (R46). -/
def bayPlace (s : State) (k : Block) (ofs : Nat) : Option Place :=
  let sz := bayBytes (s.core k.core).split
  match k.bays[ofs / sz]? with
  | some bay => some (.sp k.core (bay * sz + ofs % sz))
  | none => none

/-- Does a block of the grid hold the bay of a scratchpad byte of a core? -/
def bayHeld (s : State) (grid core ofs : Nat) : Bool :=
  let sz := bayBytes (s.core core).split
  decide (ofs < splitBytes (s.core core).split) &&
  s.blocks.any (fun e => e.2.grid == grid && e.2.core == core && e.2.st == .resident && e.2.bays.contains (ofs / sz))

/-- The place of an address outside global memory, by space code of format M; none where R46 rejects it. -/
def localPlace (x : Cx) (sp qn ofs : Nat) : Option Place :=
  match sp with
  | 1 => bayPlace x.s x.blk ofs
  | 2 =>
    let core := 4 * quadOf x.blk.core + qn
    if bayHeld x.s x.blk.grid core ofs then some (.sp core ofs) else none
  | _ => if ofs < 16384 * ((x.variant.map (·.tiles)).getD 0) then some (.acc x.b ofs) else none

/-- The lowest lane that meets a condition. -/
def firstLane (lanes : List Nat) (p : Nat → Bool) : Option Nat := lanes.find? p

/-- Translates one lane's global access. -/
def xlatLane (ctx : Nat) (acc : Acc) (va l : Nat) (s : State) : Except AccFault (LaneAcc × State) :=
  match translate s ctx va acc with
  | .pf => .error ⟨cPf, va⟩
  | .prot => .error ⟨cProt, va⟩
  | .ok p e log f => .ok (⟨l, va, .g p, e, log, f⟩, tlbKeep s ctx va (.ok p e log f))

/-- Translates the lanes' global accesses in lane order. -/
def xlatLanes (ctx : Nat) (acc : Acc) (addr : Nat → Int) : List Nat → State → Except AccFault (List LaneAcc × State)
  | [], s => .ok ([], s)
  | l :: ls, s =>
    match xlatLane ctx acc (addr l).toNat l s with
    | .error e => .error e
    | .ok (a, s) =>
      match xlatLanes ctx acc addr ls s with
      | .error e => .error e
      | .ok (as, s) => .ok (a :: as, s)

/-- Causes 1 and 2 of R247 for an access by lanes. `align` is the access width; outside global memory the first and the last
byte must lie in the space (log 70). -/
def accessTrap (x : Cx) (lanes : List Nat) (sp qn : Nat) (addr : Nat → Int) (align : Nat) : Option Res :=
  let bad := fun l =>
    if sp = 0 then !canonical (addr l).toNat
    else decide (addr l < 0) || (localPlace x sp qn (addr l).toNat).isNone ||
      (localPlace x sp qn ((addr l).toNat + align - 1)).isNone
  match firstLane lanes bad with
  | some l => some (.trap cProt (tAddr (addr l)))
  | none => (firstLane lanes (fun l => (addr l).toNat % align != 0)).map (fun l => .trap cAlign (tAddr (addr l)))

/-- Causes 1 to 3 of R247 for an access by lanes, or where each lane's access goes. -/
def accessLanes (x : Cx) (lanes : List Nat) (sp qn : Nat) (addr : Nat → Int) (acc : Acc) (align : Nat) :
    Except Res (List LaneAcc × State) :=
  match accessTrap x lanes sp qn addr align with
  | some r => .error r
  | none =>
    if sp = 0 then
      match xlatLanes x.g.ctx acc addr lanes x.s with
      | .error e => .error (.xfault e.cause e.va (accBits acc))
      | .ok r => .ok r
    else
      .ok (lanes.filterMap (fun l =>
        (localPlace x sp qn (addr l).toNat).map (fun p => ⟨l, (addr l).toNat, p, 0, 0, none⟩)), x.s)

/-- Is a place on another package (R47)? -/
def isRemote (s : State) (p : Place) : Bool :=
  match p with
  | .g a => a / 2 ^ 48 != s.ctl.pkgId.toNat
  | _ => false

/-- Bytes of a width code. -/
def widthBytes (w : BitVec 3) : Nat := 2 ^ w.toNat

/-! ## Loads (R248, R249) -/

/-- A Format Table entry that an access uses (R91): `SOFF`, block length or 0, element format, decode target. -/
structure FmtEntry where
  soff : Int
  blk : Nat
  efmt : Fmt
  dfmt : Fmt
deriving DecidableEq, Repr

/-- Can a format be scaled by blocks (R91)? -/
def fmtScalable (f : Fmt) : Bool := fmtIsB8 f || f == .i8

/-- Parses an entry; none where its use raises `PROT`. -/
def fmtEntry (b : List Byte) : Option FmtEntry :=
  let n := leNat b
  match Fmt.ofCode (BitVec.ofNat 6 (bits n 64 6)), Fmt.ofCode (BitVec.ofNat 6 (bits n 72 6)) with
  | some e, some d =>
    let blk := if bits n 70 2 = 0 then 0 else 8 * 2 ^ bits n 70 2
    let so : Int := if bitAt n 63 then (bits n 0 64 : Int) - 2 ^ 64 else bits n 0 64
    if b.length = 16 ∧ bits n 78 2 = 0 ∧ bits n 80 48 = 0 ∧ fmtIsIeee d = true ∧ (blk = 0 ∨ fmtScalable e = true) then
      some ⟨so, blk, e, d⟩
    else none
  | _, _ => none

/-- First virtual address of the page of an access. -/
def pageBase (a : LaneAcc) : Nat := a.va / 2 ^ a.log * 2 ^ a.log

/-- The scale byte of a stored element (R249). -/
def scaleVa (a : LaneAcc) (e : FmtEntry) : Nat :=
  wrapTo 64 ((pageBase a : Int) + e.soff + ((a.va - pageBase a) / (e.blk * (fmtBits e.efmt / 8)) : Nat))

/-- The cache policy under which a place is read: words of another package on a page without `RC` are never held in L1
(R47, R62). -/
def pagePol (s : State) (f : FmtM) (p : Place) (pte : DWord) : Nat :=
  if f.pol = 0 ∧ isRemote s p = true ∧ bitAt pte.toNat 6 = false then 1 else f.pol.toNat

/-- The cache policy of a lane's access. -/
def loadPol (s : State) (f : FmtM) (a : LaneAcc) : Nat := pagePol s f a.place a.pte

/-- What a lane's `ld.fmt` reads: bytes, conversion with the scale's place, and the decode target (R92, R249). -/
structure FmtPlan where
  acc : LaneAcc
  n : Nat
  conv : LoadConv
  dfmt : Option Fmt
deriving DecidableEq, Repr

/-- The plan of a lane. An entry that cannot be used and a scale that cannot be reached fault with the lane's
translation. -/
def fmtPlan (x : Cx) (f : FmtM) (w : Nat) (s : State) (a : LaneAcc) : Except Res (FmtPlan × State) :=
  match a.fmt with
  | none => .ok (⟨a, w, .raw, none⟩, s)
  | some b =>
    match fmtEntry b with
    | none => .error (.trap cProt a.va)
    | some e =>
      if e.blk = 0 then .ok (⟨a, fmtBits e.efmt / 8, .fmt e.efmt e.dfmt none, some e.dfmt⟩, s)
      else
        match translate s x.g.ctx (scaleVa a e) .read with
        | .pf => .error (.xfault cPf (scaleVa a e) 0)
        | .prot =>
          -- `TADDR` is the address that the lane formed (R247); a route that fails is found at issue (R374)
          .error (if badRoute s x.g.ctx (scaleVa a e) .read then .trap cProt a.va else .xfault cProt a.va 0)
        | .ok p pte log g =>
          .ok (⟨a, fmtBits e.efmt / 8, .fmt e.efmt e.dfmt (some (.g p, pagePol s f (.g p) pte, scaleVa a e)), some e.dfmt⟩,
            tlbKeep s x.g.ctx (scaleVa a e) (.ok p pte log g))

/-- Translations and plans of the lanes of an `ld.fmt`: cause 3 of R247 takes its lanes in order, each with its element and
then its scale. -/
def fmtPlans (x : Cx) (f : FmtM) (w : Nat) (addr : Nat → Int) : List Nat → State → Except Res (List FmtPlan × State)
  | [], s => .ok ([], s)
  | l :: ls, s =>
    match xlatLane x.g.ctx .read (addr l).toNat l s with
    | .error e => .error (.xfault e.cause e.va 0)
    | .ok (a, s) =>
      match fmtPlan x f w s a with
      | .error e => .error e
      | .ok (p, s) =>
        match fmtPlans x f w addr ls s with
        | .error e => .error e
        | .ok (ps, s) => .ok (p :: ps, s)

/-- Cause 4 of R247: alignment to the element, then the decode target's width. -/
def fmtTrap (w : Nat) (ps : List FmtPlan) : Option Res :=
  match ps.find? (fun p => p.acc.va % p.n != 0) with
  | some p => some (.trap cAlign p.acc.va)
  | none => (ps.find? (fun p => p.dfmt.any (fun d => fmtBits d / 8 != w))).map (fun p => .trap cProt p.acc.va)

/-- The load's destinations wait for their values: `v` lanes empty, a uniform register interlocked (R15, R227). -/
def awaitDest (x : Cx) (d : Opr) (n : Nat) (cr : Crew) : Crew :=
  let cr := cr.bump
  match d with
  | .s r => { cr with locks := cr.locks ++ [⟨1, cr.sName r.toNat, cr.seq⟩] }
  | _ => (vNames cr d n).foldl (fun c r => x.acts.foldl (fun c l => c.markEmpty r l cr.seq) c) cr

/-- The destination of a lane's part: `i` counts 8-byte parts of a 16-byte load. -/
def destOf (cr : Crew) (d : Opr) (n lane i : Nat) : Dest :=
  match d with
  | .v r => ⟨true, cr.vName r.toNat + 2 * i, n, lane, cr.seq⟩
  | .s r => ⟨false, cr.sName r.toNat, 2, lane, cr.seq⟩
  | _ => ⟨true, 0, 0, lane, cr.seq⟩

/-- The threads that an access is of: the lane's, or for a uniform destination every active one (R203). -/
def accessOf (x : Cx) (d : Opr) (lane : Nat) : Lanes := if oprIsS d then x.act else 1#32 <<< lane

/-- A place `i` bytes further. -/
def Place.add (p : Place) (i : Nat) : Place :=
  match p with
  | .g a => .g (a + i)
  | .sp c a => .sp c (a + i)
  | .acc b a => .acc b (a + i)

/-- Issues the loads of the planned lanes. -/
def issueLoads (x : Cx) (f : FmtM) (s : State) (ps : List (LaneAcc × Nat × LoadConv)) : State :=
  let regs := widthRegs f.w.toNat
  s.updCrew x.b x.c (fun cr =>
    let cr := awaitDest x f.d regs cr
    let parts := fun (p : LaneAcc × Nat × LoadConv) =>
      let (a, n, conv) := p
      let pol := loadPol s f a
      if n = 16 then
        [⟨cr.seq, a.place, 8, pol, conv, destOf cr f.d 2 a.lane 0, a.va, accessOf x f.d a.lane⟩,
         ⟨cr.seq, a.place.add 8, 8, pol, conv, destOf cr f.d 2 a.lane 1, a.va + 8, accessOf x f.d a.lane⟩]
      else [⟨cr.seq, a.place, n, pol, conv, destOf cr f.d regs a.lane 0, a.va, accessOf x f.d a.lane⟩]
    let cr := { cr with loads := cr.loads ++ ps.flatMap parts }
    if f.ord.getLsbD 0 then cr.acquire cr.seq false else cr)

def execLd (f : FmtM) (s : State) : Host.Outcome State Fault Refusal :=
  issueWith (.ld f) s (fun x =>
    let n := widthBytes f.w
    let lanes := dstLanes x f.d
    if f.fm then
      match accessTrap x lanes f.sp.toNat f.qn.toNat (formAddr x f) 1 with
      | some r => r
      | none =>
        match fmtPlans x f n (formAddr x f) lanes x.s with
        | .error r => r
        | .ok (ps, s) =>
          match fmtTrap n ps with
          | some r => r
          | none => .done (issueLoads x f s (ps.map (fun p => (p.acc, p.n, p.conv)))) false
    else
      match accessLanes x lanes f.sp.toNat f.qn.toNat (formAddr x f) .read n with
      | .error r => r
      | .ok (as, s) => .done (issueLoads x f s (as.map (fun a => (a, n, LoadConv.raw)))) false)

/-! ## Stores (R250) -/

/-- Is the operation of an atomic on floating-point numbers (R251)? -/
def atomFloat (f : FmtM) : Bool := decide (10 ≤ f.aop.toNat)

/-- The format of a floating-point atomic's operands (R251). -/
def atomFmt (w : Nat) : Fmt := if w = 64 then .f64 else .f32

/-- The data of a lane: an inline constant is sign-extended to the width (R246), or converted to the format of a
floating-point atomic (R174). -/
def memData (x : Cx) (f : FmtM) (o : Opr) (lane : Nat) : Nat :=
  x.val o (widthRegs f.w.toNat) lane (fun c =>
    if atomFloat f then constCode (atomFmt (8 * widthBytes f.w)) c else wrapTo (8 * widthBytes f.w) c.toInt)
    % 2 ^ (8 * widthBytes f.w)

/-- The lowest lane whose write R31 or R34 forbids, where its access goes once translated (R247). -/
def sealLane (x : Cx) (f : FmtM) (as : List LaneAcc) : Option LaneAcc :=
  as.find? (fun a =>
    match a.place with
    | .g p => sealForbidsAt x.s x.g x.blk p (widthBytes f.w)
    | _ => false)

/-- The marker of a release, when the instruction is one (R57). -/
def relMarker (f : FmtM) (seq : Nat) : List SpEntry := if f.ord.getLsbD 1 then [.marker seq .none] else []

/-- Entries of a lane's store; 16 bytes are two stores. -/
def storeEntries (seq : Nat) (a : LaneAcc) (n v : Nat) : List SpEntry :=
  let me : Lanes := 1#32 <<< a.lane
  if n = 16 then
    [.store seq a.place (leBytes 8 v) a.va me, .store seq (a.place.add 8) (leBytes 8 (v / 2 ^ 64)) (a.va + 8) me]
  else [.store seq a.place (leBytes n v) a.va me]

def execSt (f : FmtM) (s : State) : Host.Outcome State Fault Refusal :=
  issueWith (.st f) s (fun x =>
    let n := widthBytes f.w
    match accessLanes x x.acts f.sp.toNat f.qn.toNat (formAddr x f) .write n with
    | .error r => r
    | .ok (as, s) =>
      match sealLane x f as with
      | some a => .trap cSeal a.va
      | none =>
        let remote := as.any (fun a => isRemote s a.place)
        if remote && x.cr.checksDue then .stall x.s
        else
          .done (s.updCrew x.b x.c (fun cr =>
            let cr := cr.bump
            cr.push (relMarker f cr.seq ++
              as.flatMap (fun a => storeEntries cr.seq a n (memData x f f.b a.lane))))) remote)

/-! ## Atomics (R251–R253) -/

/-- The new value of an atomic (R251). -/
def atomNew (aop w : Nat) (m b c : Nat) : Nat :=
  let f := atomFmt w
  let i := fun (x : Nat) => asInt (if w = 64 then .i64 else .i32) x
  match aop with
  | 0 => (m + b) % 2 ^ w
  | 1 => if i m ≤ i b then m else b
  | 2 => if i m ≤ i b then b else m
  | 3 => min m b
  | 4 => max m b
  | 5 => m &&& b
  | 6 => m ||| b
  | 7 => m ^^^ b
  | 8 => b
  | 9 => if m = c then b else m
  | 10 => (fpAdd f 0 0 false m b).1
  | 11 => (fpMinMax f false false m b).1
  | _ => (fpMinMax f true false m b).1

def execAtom (f : FmtM) (s : State) : Host.Outcome State Fault Refusal :=
  issueWith (.atom f) s (fun x =>
    let n := widthBytes f.w
    let lanes := dstLanes x f.d
    match accessLanes x lanes f.sp.toNat f.qn.toNat (formAddr x f) .write n with
    | .error r => r
    | .ok (as, s) =>
      match sealLane x f as with
      | some a => .trap cSeal a.va
      | none =>
        if atomFloat f && decide (1 ≤ x.g.level) then .trap cProt (tAddr (formAddr x f x.first))
        else
          .done (s.updCrew x.b x.c (fun cr =>
            let cr := cr.bump
            let regs := named cr f.d (widthRegs f.w.toNat)
            let cr := { cr with locks := cr.locks ++ regs.map (fun r => ⟨r.1, r.2, cr.seq⟩) }
            let entry := fun (a : LaneAcc) =>
              SpEntry.atomic cr.seq a.place n f.aop.toNat (BitVec.ofNat 64 (memData x f f.b a.lane))
                (BitVec.ofNat 64 (memData x f f.c a.lane)) (some (destOf cr f.d (widthRegs f.w.toNat) a.lane 0)) a.va
                (accessOf x f.d a.lane)
            let cr := cr.push (relMarker f cr.seq ++ as.map entry)
            if f.ord.getLsbD 0 then cr.acquire cr.seq true else cr)) false)

/-- Is a lane's next no-return atomic discarded on replay (R63)? -/
def redSkipped (cr : Crew) (lane : Nat) : Bool := cr.skips lane (·.red)

/-- Counts a no-return atomic in each active thread, or uses up one to be discarded (R63). -/
def redCounted (x : Cx) (cr : Crew) : Crew := cr.tally x.act (·.red) (fun c n => { c with red := n })

/-- The logical identity that keys a lane's serial-phase entries (R68): logical thread 0 (log 32). -/
def laneLtid (cr : Crew) (lane : Nat) : DWord := ((cr.threads.find? lane).map (fun t => t.ltid.getD 0 0)).getD 0

/-- Puts the lanes' floating-point operations into the Serial Phase Buffer (R68). -/
def spbAdd (x : Cx) (f : FmtM) (as : List LaneAcc) (k : Block) : Block :=
  as.foldl (fun k a =>
    let id := 32 * x.c + a.lane
    let n := k.spbCount.getD id 0
    { k with
      spb := k.spb ++ [⟨laneLtid x.cr a.lane, n, a.va, BitVec.ofNat 64 (memData x f f.b a.lane), f.aop.toNat, f.w.toNat⟩]
      spbCount := k.spbCount.set id (n + 1) }) k

def execRed (f : FmtM) (s : State) : Host.Outcome State Fault Refusal :=
  issueWith (.red f) s (fun x =>
    let n := widthBytes f.w
    match accessLanes x x.acts f.sp.toNat f.qn.toNat (formAddr x f) .write n with
    | .error r => r
    | .ok (as, s) =>
      match sealLane x f as with
      | some a => .trap cSeal a.va
      | none =>
        let live := as.filter (fun a => !redSkipped x.cr a.lane)
        let serial := atomFloat f && decide (1 ≤ x.g.level)
        -- one homed on another package ends its region, and waits for the checks of everything older (R25, R190)
        let remote := as.any (fun a => isRemote s a.place)
        if serial && f.sp != 1 then .trap cProt (tAddr (formAddr x f x.first))
        else if serial && decide (2048 < x.blk.spb.length + live.length) then
          .trap cProt ((live[2048 - x.blk.spb.length]?.map (·.va)).getD 0)
        else if serial then
          .done ((s.updBlock x.b (fun k => spbAdd x f live k)).updCrew x.b x.c (fun cr =>
            let cr := redCounted x cr.bump
            cr.push (relMarker f cr.seq))) false
        else if remote && x.cr.checksDue then .stall x.s
        else
          .done (s.updCrew x.b x.c (fun cr =>
            let cr := redCounted x cr.bump
            let entry := fun (a : LaneAcc) =>
              SpEntry.atomic cr.seq a.place n f.aop.toNat (BitVec.ofNat 64 (memData x f f.b a.lane)) 0 none a.va
                (1#32 <<< a.lane)
            cr.push (relMarker f cr.seq ++ live.map entry))) remote)

/-! ## Fences (R56–R58, R254) -/

def execFenceAcq (f : FmtM) (s : State) : Host.Outcome State Fault Refusal :=
  issueWith (.fenceAcq f) s (fun x =>
    let cr := x.cr.bump
    crewRes x (cr.acquire cr.seq false))
def execFenceRel (f : FmtM) (s : State) : Host.Outcome State Fault Refusal :=
  issueWith (.fenceRel f) s (fun x =>
    let cr := x.cr.bump
    crewRes x (cr.push [.marker cr.seq .none]))
def execFenceAr (f : FmtM) (s : State) : Host.Outcome State Fault Refusal :=
  issueWith (.fenceAr f) s (fun x =>
    let cr := x.cr.bump
    crewRes x ((cr.push [.marker cr.seq .none]).acquire cr.seq true))

end Sys2Proof.Machine
end

