-- ==== Sys2Proof/Machine/EngineOps.lean ====
section
/-! DEFINITION. Engine operations: issue, counters in issue order, start, accesses, protection stop, completion
(03_memory R64, R65; 04_engines R78, R80–R82; 15_isa_memory R259, R260). -/

namespace Sys2Proof.Machine

open Sys2Proof

/-! ## Counters (R64, R65) -/

/-- The sequence number of a crew's command in an operation. -/
def EngOp.seqOf (o : EngOp) (c : Nat) : Option Nat := (o.issuers.find? (fun i => i.1 == c)).map Prod.snd

/-- Operations of a crew and class that the state lists. -/
def opsOf (s : State) (b c cls : Nat) : List EngOp :=
  s.ops.filter (fun o => o.pkt.isNone && o.blk == b && o.cls == cls && (o.seqOf c).isSome)

/-- Outstanding operations of a crew and class: one that finished early is held until every older one has (R65). -/
def outstanding (s : State) (b c cls : Nat) : List Nat :=
  let es := opsOf s b c cls
  (es.filter (fun e => es.any (fun o => !o.done && decide ((o.seqOf c).getD 0 ≤ (e.seqOf c).getD 0)))).map (·.id)

/-- Drops operations that count nowhere any more. -/
def tidyOps (s : State) : State :=
  { s with ops := s.ops.filter (fun o => !o.done || o.issuers.any (fun i => (outstanding s o.blk i.1 o.cls).contains o.id)) }

/-- Changes one operation. -/
def updOp (s : State) (id : Nat) (f : EngOp → EngOp) : State :=
  { s with ops := s.ops.map (fun o => if o.id = id then f o else o) }

def op? (s : State) (id : Nat) : Option EngOp := s.ops.find? (fun o => o.id == id)

/-- The context of an operation. -/
def opCtx (s : State) (o : EngOp) : Nat :=
  match o.pkt with
  | some p => ((s.packets.find? p).map (·.ctx)).getD 0
  | none => (((s.block? o.blk).bind (fun k => s.grid? k.grid)).map (·.ctx)).getD 0

/-- A crew counts an operation as issued. -/
def Crew.issuedOp (cr : Crew) (cls id : Nat) : Crew :=
  { cr with issued := cr.issued.set cls ((id :: cr.issued.getD cls []).take 256) }

/-- Issues one operation of the path's crew: it enters its Engine Queue and its counter rises by one (R64). -/
def issueOp (x : Cx) (s : State) (cls : Nat) (kind : EngKind) (ready started : Bool) : State :=
  let id := s.nextOp
  let seq := (((s.crew? x.b x.c).map (·.seq)).getD 0) + 1
  let o : EngOp :=
    { id := id, cls := cls, blk := x.b, issuers := [(x.c, seq)], pkt := none, lanes := x.act, kind := kind,
      ready := ready, started := started, moved := [], stamped := false, fault := none, pf := none, done := false,
      engine := 0 }
  { s with ops := s.ops ++ [o], nextOp := id + 1 }.updCrew x.b x.c (fun cr => cr.bump.issuedOp cls id)

/-! ## Accesses (R46, R64, R80, R389) -/

/-- The place of a byte outside global memory for an engine of a block: space code 1 or 4 + n (R256). -/
def unitPlace (s : State) (k : Block) (space ofs : Nat) : Option Place :=
  if space = 1 then bayPlace s k ofs
  else
    let core := 4 * quadOf k.core + (space - 4)
    if bayHeld s k.grid core ofs then some (.sp core ofs) else none

/-- The places of a range outside global memory, byte by byte. -/
def unitPlaces (s : State) (k : Block) (space : Nat) : Nat → Nat → Except AccFault (List (Place × Nat))
  | _, 0 => .ok []
  | ofs, n + 1 =>
    match unitPlace s k space ofs with
    | none => .error ⟨cProt, ofs⟩
    | some p =>
      match unitPlaces s k space (ofs + 1) n with
      | .error e => .error e
      | .ok ps => .ok ((p, 1) :: ps)

/-- The places of a range of at most 64 KiB. A copy of no block reaches global memory only. -/
def engPlaces (s : State) (ctx : Nat) (k : Option Block) (space addr n : Nat) (acc : Acc) :
    Except AccFault (List (Place × Nat) × State) :=
  if space = 0 then
    match piecesOf s ctx addr n acc with
    | .error e => .error e
    | .ok (ps, s) => .ok (ps.map (fun p => (.g p.1, p.2)), s)
  else
    match k with
    | none => .error ⟨cProt, addr⟩
    | some k => (unitPlaces s k space addr n).map (fun ps => (ps, s))

/-- Reads pieces. -/
def readPieces (s : State) (ps : List (Place × Nat)) : List Byte := ps.flatMap (fun p => readPlace s p.1 p.2)

/-- Accesses to pieces have succeeded (R383). -/
def piecesDone (s : State) (ps : List (Place × Nat)) : State := ps.foldl (fun s p => hbmDone s p.1) s

/-- Writes one piece, at once when it is whole; `none` bytes are left as they are. -/
def writePiece (s : State) (p : Place) (data : List (Option Byte)) : State :=
  if data.all Option.isSome then writePlace s p (data.map (·.getD 0))
  else
    data.zipIdx.foldl (fun s e =>
      match e.1 with
      | some b => writePlace s (p.add e.2) [b]
      | none => s) s

/-- Writes pieces. -/
def writePieces (s : State) : List (Place × Nat) → List (Option Byte) → State
  | [], _ => s
  | (p, n) :: ps, data =>
    let s' := writePiece s p (data.take n)
    writePieces (if (data.take n).any Option.isSome then spoilPlace s' p n else s') ps (data.drop n)

/-- Is an engine's write to a global byte cancelled: the cut has reached the block's core and the byte lies in the
slot array (R41)? -/
def cutCancels (s : State) (k : Block) (va : Nat) : Bool :=
  match s.grid? k.grid with
  | none => false
  | some g =>
    match g.ladder with
    | none => false
    | some l => g.cutCores.contains k.core && decide (l.base ≤ va) && decide (va < l.base + l.t * l.s * l.tsize)

/-- An access of an operation fails: a page fault waits for service, anything else stops it (R78). R41 abandons the service
that is pending when a cut comes, and completes the engine writes that it does not cancel; it does not say what a write
does that faults only after the cut, be it one that the cut cancels or not: it waits for service as any other, and the
block's end with it (DESIGN CHOICE, log 128). -/
def opFault (s : State) (id : Nat) (e : AccFault) (acc : Acc) : State :=
  updOp s id (fun o =>
    if e.cause = cPf then { o with pf := some (e.va, accBits acc, none) } else { o with fault := some (e.va, accBits acc) })

/-! ## Start (R64, R80) -/

/-- Has every store and atomic older than a sequence number left a crew's Store Path? -/
def olderPerformed (s : State) (b c seq : Nat) : Bool :=
  match s.crew? b c with
  | none => true
  | some cr => cr.storePath.all (fun e =>
      match e with
      | .store n _ _ _ _ => decide (seq ≤ n)
      | .atomic n _ _ _ _ _ _ _ _ => decide (seq ≤ n)
      | .marker _ _ => true)

/-- The commands of an operation's class and block that issued before it: the list is in issue order. -/
def olderOps (s : State) (o : EngOp) : List EngOp :=
  (s.ops.takeWhile (fun q => q.id != o.id)).filter (fun q => q.ready && q.pkt.isNone && q.blk == o.blk && q.cls == o.cls)

/-- May a command leave its queue: older commands of the queue have, and older stores are performed? -/
def opMayStart (s : State) (o : EngOp) : Bool :=
  o.ready && !o.started && !o.done &&
  o.issuers.all (fun i =>
    olderPerformed s o.blk i.1 i.2 &&
    (olderOps s o).all (fun q => q.started || q.done || (q.seqOf i.1).isNone))

/-- A command that waited for its last arrival or signer issues now: it comes last in issue order. -/
def issueReady (s : State) (id : Nat) (kind : EngKind) : State :=
  match op? s id with
  | none => s
  | some o => { s with ops := s.ops.filter (fun q => q.id != id) ++ [{ o with kind := kind, ready := true }] }

/-! ## Protection stop and completion (R65, R78, R260) -/

/-- CHANNEL_PROTECTION_STOP: an operation that met a protection violation completes; each commanding crew holds the
fault, and where one has retired the grid ends; a packet's copy
reports `FAULT` (R78, R260). -/
def execChannelProtectionStop (op : Nat) (s : State) : Host.Outcome State Fault Refusal :=
  .next (
    match op? s op with
    | none => s
    | some o =>
      match o.fault with
      | none => s
      | some va =>
        if o.done then s
        else
          let s := updOp s op (fun o => { o with done := true, pf := none })
          let s := o.issuers.foldl (fun s i =>
            match s.block? o.blk, s.crew? o.blk i.1 with
            | some k, some cr =>
              if cr.retired then endGrid s k.grid .faulted
              else s.setCrew o.blk i.1 { cr with faults := cr.faults ++ [⟨op, i.2, o.cls, va.1, va.2⟩] }
            | _, _ => s) s
          let s := match o.pkt with
            | some p => { s with packets := s.packets.mapVals (fun i k => if i = p then { k with status := 7 } else k) }
            | none => s
          tidyOps s)

/-- Bytes of a copy's segments. -/
def copyTotal (segs : List Seg) : Nat := (segs.map (·.len)).sum
def movedTotal (o : EngOp) : Nat := (o.moved.map (fun m => m.2.2)).sum

/-- The channel of a core and direction, 0 fill, 1 drain, with the stream that it last ran. -/
def lastChan (k : Core) (dir : Nat) : Option Channel := if dir = 0 then k.fill else k.drain

/-- The stream that runs on a channel; none while it is idle (R74). -/
def chanOf (k : Core) (dir : Nat) : Option Channel := (lastChan k dir).filter (fun ch => !ch.done)

/-- Have all writes of an operation been performed? -/
def opFinished (s : State) (o : EngOp) : Bool :=
  match o.kind with
  | .copy segs stamp => movedTotal o == copyTotal segs && (stamp.isNone || o.stamped)
  | .stream dir core =>
    match chanOf (s.core core) dir with
    | some ch => ch.op == o.id && (ch.moved == ch.lay.iter || (ch.stopped && ch.ptr == 0))
    | none => (s.block? o.blk).all (fun k => k.st != .saved)
  | .gather _ _ _ addrs => o.moved.length == addrs.length
  | .mx _ _ _ _ _ => o.stamped
  | .coll _ _ _ _ _ _ => o.stamped

/-- ENGINE_OPERATION_COMPLETE (R65). -/
def execEngineOperationComplete (op : Nat) (s : State) : Host.Outcome State Fault Refusal :=
  .next (
    match op? s op with
    | none => s
    | some o =>
      if o.started && !o.done && o.fault.isNone && o.pf.isNone && opFinished s o then
        tidyOps (updOp s op (fun o => { o with done := true }))
      else s)

end Sys2Proof.Machine
end

