-- ==== Sys2Proof/Machine/Copy.lean ====
section
/-! DEFINITION. Bulk copies, block-collective copies, gathers, `waitcnt` (04_engines R80–R82; 15_isa_memory R256,
R257, R259, R260). -/

namespace Sys2Proof.Machine

open Sys2Proof

/-! ## Operands (R256) -/

/-- An address operand: a whole register in `g`, bits 31:0 elsewhere. -/
def spaceAddr (space v : Nat) : Nat := if space = 0 then v else v % 2 ^ 32

/-- The segment that `copy` or `copyc` names. -/
def copySeg (x : Cx) (f : FmtE) : Seg :=
  let ds := f.sub.toNat % 8
  let ss := f.sub.toNat / 8 % 8
  ⟨ds, spaceAddr ds (x.uni f.a), ss, spaceAddr ss (x.uni f.b), x.uni f.c % 2 ^ 32⟩

/-- The stamp's space, address and value. -/
def copyStamp (x : Cx) (f : FmtE) : Option (Nat × Nat × Nat) :=
  if f.sub.getLsbD 6 then some (f.imm8.toNat, spaceAddr f.imm8.toNat (x.uniHi f.a), x.uniHi f.c) else none

/-- The traps of a copy at issue: length, stamp alignment, ladder slots (R34, R256). -/
def copyTrap (x : Cx) (f : FmtE) : Option Res :=
  let seg := copySeg x f
  let len := x.uni f.c
  let forbids := fun (sp va n : Nat) => decide (sp = 0) && sealForbids x.g x.blk va n
  if len = 0 ∨ 2 ^ 32 ≤ len then some (.trap cProt len)
  else
    match copyStamp x f with
    | some (sp, a, _) =>
      if a % 8 ≠ 0 then some (.trap cAlign (x.uniHi f.a))
      else if forbids seg.dsp seg.dst seg.len then some (.trap cSeal (x.uni f.a))
      else if forbids sp a 8 then some (.trap cSeal (x.uniHi f.a))
      else none
    | none => if forbids seg.dsp seg.dst seg.len then some (.trap cSeal (x.uni f.a)) else none

def execCopy (f : FmtE) (s : State) : Host.Outcome State Fault Refusal :=
  issueWith (.copy f) s (fun x =>
    match copyTrap x f with
    | some r => r
    | none => .done (issueOp x x.s 0 (.copy [copySeg x f] (copyStamp x f)) true false) false)

/-! ## `copyc` (R81, R257) -/

/-- Barrier and convergence slots of a block. -/
def slotBudget (s : State) (k : Block) : Nat :=
  (((s.grid? k.grid).bind (fun g => g.kern.vars.find? (fun v => v.vid == k.vid))).map (·.slots)).getD 0

def Block.conv (k : Block) (cv : Nat) : Conv := k.convs.getD cv Conv.reset
def Block.setConv (k : Block) (cv : Nat) (v : Conv) : Block := { k with convs := k.convs.set cv v }

/-- Crews of a set that are still to arrive: neither arrived nor exited. -/
def awaited (k : Block) (set : BitVec 16) (arrived : List Nat) : List Nat :=
  (List.range 16).filter (fun j => set.getLsbD j && !arrived.contains j &&
    (k.crews.find? j).any (fun cr => !cr.allExited))

/-- Starts the collective copy of a register once the last crew of its set has arrived or exited. -/
def copycCheck (s : State) (b cv : Nat) : State :=
  match s.block? b with
  | none => s
  | some k =>
    let v := k.conv cv
    match v.cset, v.copyOp with
    | some set, some id =>
      if (awaited k set (v.copies.map (·.crew))).isEmpty then
        let segs := v.copies.map (fun a => (⟨(v.copyFields.getD (0, 0)).1 % 8, a.dst, (v.copyFields.getD (0, 0)).1 / 8 % 8, a.src, a.len⟩ : Seg))
        let low := (List.range 16).findSome? (fun j => v.copies.find? (fun a => a.crew == j))
        let stamp := (low.bind (·.stamp)).map (fun st => ((v.copyFields.getD (0, 0)).2, st.1, st.2))
        let s := issueReady s id (.copy segs stamp)
        s.updBlock b (fun k => k.setConv cv { v with copies := [], copyFields := none, copyOp := none })
      else s
    | _, _ => s

def execCopyc (f : FmtE) (s : State) : Host.Outcome State Fault Refusal :=
  issueWith (.copyc f) s (fun x =>
    let cv := f.cv.toNat
    let v := x.blk.conv cv
    match copyTrap x f with
    | some r => r
    | none =>
      if slotBudget x.s x.blk ≤ cv then .trapOpen cProt
      else
        match v.cset with
        | none => .trapOpen cProt
        | some set =>
          let fields := (f.sub.toNat, f.imm8.toNat)
          if !set.getLsbD x.c then .trapOpen cProt
          else if v.copies.any (fun a => a.crew == x.c) then
            .raw (parkAt x x.s (.copyc cv))
          else if v.copyFields.any (fun g => g != fields) then .trapOpen cProt
          else
            let seg := copySeg x f
            let seq := x.cr.seq + 1
            let arr : CopyArr := ⟨x.c, seq, seg.dst, seg.src, seg.len, (copyStamp x f).map (fun st => (st.2.1, st.2.2))⟩
            let (s, id) :=
              match v.copyOp with
              | some id =>
                (updOp (x.put (x.cr.bump.issuedOp 0 id)) id (fun o => { o with issuers := o.issuers ++ [(x.c, seq)] }), id)
              | none => (issueOp x x.s 0 (.copy [] none) false false, x.s.nextOp)
            let s := s.updBlock x.b (fun k =>
              k.setConv cv { v with copyFields := some fields, copies := v.copies ++ [arr], copyOp := some id })
            .done (copycCheck s x.b cv) false)

/-! ## Moving bytes (R64, R80, R82) -/

/-- Is a place among the bytes that a segment reads (R80)? -/
def inSource (s : State) (ctx : Nat) (k : Option Block) (seg : Seg) (p : Place) : Bool :=
  match p with
  | .g a =>
    seg.ssp == 0 && (List.range (seg.len / 65536 + 2)).any (fun i =>
      let lo := max seg.src ((seg.src / 65536 + i) * 65536)
      let hi := min (seg.src + seg.len) ((seg.src / 65536 + i + 1) * 65536)
      decide (lo < hi) &&
      (match translate s ctx lo .read with
        | .ok q _ _ _ => decide (q ≤ a) && decide (a < q + (hi - lo))
        | _ => false))
  | _ =>
    match k with
    | none => false
    | some k => seg.ssp != 0 && decide (seg.len ≤ 524288) &&
        (List.range seg.len).any (fun i => unitPlace s k seg.ssp (seg.src + i) == some p)

/-- The bytes that reach a range: a destination byte that overlaps the source is unpredictable (R80), and bytes whose
write a cut cancels are left (R41). -/
def copyBytes (s : State) (ctx : Nat) (k : Option Block) (seg : Seg) (ofs : Nat) (dst : List (Place × Nat))
    (data : List Byte) : List (Option Byte) :=
  let flat := dst.flatMap (fun p => (List.range p.2).map (fun i => p.1.add i))
  (flat.zip data).zipIdx.map (fun e =>
    if seg.dsp == 0 && (k.any (fun k => cutCancels s k (seg.dst + ofs + e.2))) then none
    else if inSource s ctx k seg e.1.1 then some (Config.freeByte s.free e.2)
    else some e.1.2)

/-- Do two parts of one segment overlap? -/
def partsMeet (m : Nat × Nat × Nat) (seg ofs len : Nat) : Bool :=
  m.1 == seg && decide (ofs < m.2.1 + m.2.2) && decide (m.2.1 < ofs + len)

/-- Moves one part of a segment. -/
def movePart (s : State) (o : EngOp) (i : Nat) (seg : Seg) (ofs len : Nat) : State :=
  let ctx := opCtx s o
  let k := if o.pkt.isSome then none else s.block? o.blk
  match engPlaces s ctx k seg.ssp (seg.src + ofs) len .read with
  | .error e => opFault s o.id e .read
  | .ok (src, s) =>
    match engPlaces s ctx k seg.dsp (seg.dst + ofs) len .write with
    | .error e => opFault s o.id e .write
    | .ok (dst, s) =>
      let data := copyBytes s ctx k seg ofs dst (readPieces s src)
      let s := (piecesDone (writePieces s dst data) (src ++ dst)).draw
      updOp s o.id (fun o => { o with moved := o.moved ++ [(i, ofs, len)] })

/-- Element bytes of a gather's size code. -/
def gatherBytes (size : Nat) : Nat := 2 ^ (size % 4)

/-- Moves one lane's element of a gather; among lanes of a scatter that meet, the highest comes last (R259). -/
def moveLane (s : State) (o : EngOp) (scat : Bool) (size sp : Nat) (addrs : List (Nat × Nat)) (lane : Nat) : State :=
  let n := gatherBytes size
  match addrs.find? (fun e => e.1 == lane), s.block? o.blk with
  | some (_, va), some k =>
    -- the pieces that higher lanes have written, by where their addresses lie
    let written := (addrs.filter (fun e => decide (lane < e.1) && o.moved.any (fun m => m.1 == e.1))).filterMap (fun e =>
      (engPlaces s (opCtx s o) (some k) 0 e.2 n .write).toOption.map Prod.fst)
    if o.moved.any (fun m => m.1 == lane) then s
    else
      match engPlaces s (opCtx s o) (some k) 0 va n (if scat then .write else .read),
            engPlaces s (opCtx s o) (some k) 1 (sp + lane * n) n (if scat then .read else .write) with
      | .error e, _ => opFault s o.id e (if scat then .write else .read)
      | _, .error e => opFault s o.id e (if scat then .read else .write)
      | .ok (g, s'), .ok (l, _) =>
        let s := s'
        let (src, dst) := if scat then (l, g) else (g, l)
        let data := (readPieces s src).zipIdx.map (fun e =>
          if scat && (written.contains dst || cutCancels s k (va + e.2)) then none else some e.1)
        updOp (piecesDone (writePieces s dst data) (src ++ dst)) o.id (fun o => { o with moved := o.moved ++ [(lane, 0, n)] })
  | _, _ => s

/-- COPY_OPERATION: an engine moves a part of its operation: bytes of a copy's segment, or a gather's lane. -/
def execCopyOperation (op seg ofs len : Nat) (s : State) : Host.Outcome State Fault Refusal :=
  .next (
    match op? s op with
    | none => s
    | some o =>
      if !o.started || o.done || o.fault.isSome || o.pf.isSome then s
      else
        match o.kind with
        | .copy segs _ =>
          match segs[seg]? with
          | none => s
          | some g =>
            if len = 0 ∨ 65536 < len ∨ g.len < ofs + len ∨ o.moved.any (fun m => partsMeet m seg ofs len) = true then s
            else movePart s o seg g ofs len
        | .gather scat size sp addrs => moveLane s o scat size sp addrs seg
        | _ => s)

/-- STAMP_WRITE: after every payload write, one atomic 8-byte store (R82). -/
def execStampWrite (op : Nat) (s : State) : Host.Outcome State Fault Refusal :=
  .next (
    match op? s op with
    | none => s
    | some o =>
      match o.kind with
      | .copy segs (some (sp, a, v)) =>
        if !o.started || o.done || o.fault.isSome || o.pf.isSome || o.stamped || movedTotal o != copyTotal segs then s
        else
          let k := if o.pkt.isSome then none else s.block? o.blk
          match engPlaces s (opCtx s o) k sp a 8 .write with
          | .error e => opFault s op e .write
          | .ok (dst, s) =>
            let data := (leBytes 8 v).zipIdx.map (fun e =>
              if sp == 0 && k.any (fun k => cutCancels s k (a + e.2)) then none else some e.1)
            updOp (piecesDone (writePieces s dst data) dst) op (fun o => { o with stamped := true })
      | _ => s)

/-! ## `gather` (R259) -/

def execGather (f : FmtE) (s : State) : Host.Outcome State Fault Refusal :=
  issueWith (.gather f) s (fun x =>
    let size := f.sub.toNat % 4
    let scat := f.sub.getLsbD 2
    let n := gatherBytes size
    let b := x.uni f.b % 2 ^ 32
    let va := fun l => x.val f.a 2 l (fun c => wrapTo 64 c.toInt)
    let spEnd := x.blk.bays.length * bayBytes (x.s.core x.blk.core).split
    let unaligned := fun l => va l % n != 0 || (b + l * n) % n != 0
    let beyond := fun l => decide (spEnd < b + l * n + n)
    match x.acts.find? (fun l => unaligned l || beyond l) with
    | some l =>
      -- the side of memory is read by a gather and written by a scatter, the scratchpad's the other way round (R351)
      if va l % n ≠ 0 then .trapAt cAlign (va l) (if scat then 1 else 0)
      else .trapAt (if unaligned l then cAlign else cProt) (b + l * n) (if scat then 0 else 1)
    | none =>
      match (if scat then x.acts.find? (fun l => sealForbids x.g x.blk (va l) n) else none) with
      | some l => .trap cSeal (va l)
      | none =>
        .done (issueOp x x.s 3 (.gather scat size b (x.acts.map (fun l => (l, va l)))) true false) false)

/-! ## `waitcnt` (R260) -/

/-- The operations that a `waitcnt` covers, all but the `n` youngest of its class: those still outstanding, and those whose
faults nothing has raised. -/
def coveredOps (x : Cx) (cls n : Nat) : List Nat :=
  let young := (x.cr.issued.getD cls []).take n
  let faulted := (x.cr.faults.filter (fun e => e.cls == cls)).map (·.op)
  (outstanding x.s x.b x.c cls ++ faulted).filter (fun id => !young.contains id)

/-- What a thread that waits already covers since its `waitcnt` issued. -/
def Thread.covered (t : Thread) (cls : Nat) : Option (List Nat) :=
  match t.wait with
  | some (.cnt c ops) => if c = cls then some ops else none
  | _ => none

/-- What the active threads wait for: each what its wait covers, or what a new wait covers. -/
def waitTargets (x : Cx) (cls n : Nat) : List Nat :=
  (x.acts.flatMap (fun l => ((x.cr.threads.find? l).bind (·.covered cls)).getD (coveredOps x cls n))).dedup

/-- The fault of the crew's oldest command in a list of faults. -/
def eldest (fs : List EngFault) : Option EngFault := fs.find? (fun e => fs.all (fun o => decide (e.seq ≤ o.seq)))

/-- The oldest fault of the operations of a list. -/
def heldFault (cr : Crew) (cls : Nat) (ops : List Nat) : Option EngFault :=
  eldest (cr.faults.filter (fun e => e.cls == cls && ops.contains e.op))

def execWaitcnt (f : FmtE) (s : State) : Host.Outcome State Fault Refusal :=
  issueWith (.waitcnt f) s (fun x =>
    let cls := f.cls.toNat
    let n := f.imm8.toNat
    let ops := waitTargets x cls n
    let left := outstanding x.s x.b x.c cls
    if ops.any (fun id => left.contains id) then .raw (parkAt x x.s (.cnt cls ops))
    else
      match heldFault x.cr cls ops with
      | some e =>
        -- path B's instruction has no effect once path A has trapped (R178)
        if x.cr.trap.isSome then .raw x.s else
        let cr := { x.cr with faults := x.cr.faults.filter (fun o => o.op != e.op) }
        .raw (({ x with s := x.put (cr.updThreads x.act (fun t => { t with wait := some (.cnt cls ops) })), cr := cr } : Cx).raise
          cProt e.taddr 0 0 false e.acc)
      | none =>
        let cr := x.cr.bump
        crewRes x (cr.acquire cr.seq false))

end Sys2Proof.Machine
end

