-- ==== Sys2Proof/Machine/Select.lean ====
section
/-! DEFINITION. Random numbers and selection (14_isa_float R239–R242; 06_random R107–R116; 10_generation R153,
R154). -/

namespace Sys2Proof.Machine

open Sys2Proof

/-! ## Draws (R239, R240) -/

/-- The key of `rand` and `split`: `RKEY`, or the named pair (R108). -/
def drawKey (x : Cx) (f : FmtA) : BitVec 128 :=
  if f.sub.getLsbD 2 then BitVec.ofNat 128 (x.uni f.b + 2 ^ 64 * x.uniHi f.b) else x.g.key

/-- A lane's draw under a key. -/
def keyedDraw (x : Cx) (key : BitVec 128) (fx lane : Nat) : Draw :=
  match x.cr.threads.find? lane with
  | some t => drawOf t key fx
  | none => ⟨0, 0, 0, 0⟩

def execRand (f : FmtA) (s : State) : Host.Outcome State Fault Refusal :=
  issueWith (.rand f) s (fun x =>
    let fx := f.fx.toNat
    let key := drawKey x f
    let form := f.sub.toNat % 4
    let n := if form = 1 then 2 else if form = 2 then 4 else 1
    let res := fun l =>
      let d := keyedDraw x key fx l
      if form = 3 then d.uniform else d.key.toNat
    crewRes x (drawn x fx (x.cr.awaitReturns f.d n x.acts res)))

def execSplit (f : FmtA) (s : State) : Host.Outcome State Fault Refusal :=
  issueWith (.split f) s (fun x =>
    let fx := f.fx.toNat
    let key := drawKey x f
    let k := fun l => (keyedDraw x key fx l).key.toNat
    let cr :=
      match f.d with
      | .s r =>
        let v := k x.first
        (x.cr.putOpr (.s r) 2 0 (v % 2 ^ 64)).putOpr (.s (r + 1)) 2 0 (v / 2 ^ 64)
      | d => x.acts.foldl (fun cr l => cr.putOpr d 4 l (k l)) x.cr
    crewRes x (drawn x fx cr))

/-! ## `sample` (R153, R241) -/

/-- A weight as sampling treats it, at a scale of 2^−149, given whether some active lane is +∞ (R153). -/
def sampleWeight (anyInf : Bool) (v : Num) : Nat :=
  match v with
  | .nan _ => 0
  | .inf neg => if neg then 0 else 1
  | .fin neg m e => if anyInf || neg then 0 else m * 2 ^ (e + 149).toNat

/-- The smallest lane whose prefix sum exceeds `u` times the whole sum; `u` is `um * 2^ue`, exact. -/
def samplePick (ws : List Nat) (um : Nat) (ue : Int) : Option Nat :=
  let total := ws.sum
  let lhs := um * total * 2 ^ ue.toNat
  (List.range ws.length).find? (fun i => decide (lhs < (ws.take (i + 1)).sum * 2 ^ (-ue).toNat))

/-- The chosen lane, or none, with whether `u` is out of range. -/
def sampleResult (ws : List Nat) (u : Num) : Option Nat × Bool :=
  match u with
  | .fin neg m e =>
    if m = 0 then (if ws.sum = 0 then none else samplePick ws 0 0, false)
    else if neg || !((Num.fin false m e).lt (.fin false 1 0)) then (none, true)
    else (if ws.sum = 0 then none else samplePick ws m e, false)
  | _ => (none, true)

def execSample (f : FmtA) (s : State) : Host.Outcome State Fault Refusal :=
  issueWith (.sample f) s (fun x =>
    let int := f.sub.getLsbD 0
    let fx := f.fx.toNat
    let w := fun l => numOf .f32 (x.val f.a 1 l (constElems .f32))
    let vals := (List.range 32).map (fun l => if x.act.getLsbD l then w l else .fin false 0 0)
    let anyInf := vals.any (fun v => v == .inf false)
    let u := if int then (laneDraw x fx x.first).uniform else x.val f.b 1 x.first (constElems .f32)
    let (r, bad) := sampleResult (vals.map (sampleWeight anyInf)) (numOf .f32 u)
    let cr := x.cr.putOpr f.d 2 0 (r.getD (2 ^ 64 - 1))
    let cr := cr.putPd f.pd x.lanes (if r.isSome then BitVec.allOnes 32 else 0)
    let cr := cr.orFlags (Flags.when (vals.any Num.isNan) Flags.snan ||| Flags.when bad Flags.invalid)
    crewRes x (if int then drawn x fx cr else cr))

/-! ## `topk` (R154, R242) -/

/-- Does a value rank above another under the total order of R154? -/
def valAbove (a b : Nat) : Bool :=
  match numOf .f32 a, numOf .f32 b with
  | .nan _, _ => false
  | _, .nan _ => true
  | x, y => y.lt x

/-- Does the pair of a lane rank above another's? Pairs are value, index, lane. -/
def pairAbove (a b : Nat × Nat × Nat) : Bool :=
  if valAbove a.1 b.1 then true
  else if valAbove b.1 a.1 then false
  else if a.2.1 ≠ b.2.1 then decide (a.2.1 < b.2.1)
  else decide (a.2.2 < b.2.2)

/-- Pairs in falling rank. -/
def rankPairs (ps : List (Nat × Nat × Nat)) : List (Nat × Nat × Nat) :=
  (List.range ps.length).filterMap (fun r => ps.find? (fun p => (ps.filter (fun q => pairAbove q p)).length == r))

/-- The padding of `topk`. -/
def topkPad : Nat × Nat := (0x7FC00000, 0xFFFFFFFF)

def execTopk (f : FmtA) (s : State) : Host.Outcome State Fault Refusal :=
  issueWith (.topk f) s (fun x =>
    let ps := x.acts.map (fun l => (x.val f.a 1 l (constElems .f32), x.val f.b 1 l (constElems .n32), l))
    let out := (rankPairs ps).take f.sub.toNat
    let cr := x.acts.zipIdx.foldl (fun cr e =>
      let p := ((out[e.2]?).map (fun p => (p.1, p.2.1))).getD topkPad
      cr.putOpr f.d 2 e.1 (p.1 + 2 ^ 32 * p.2)) x.cr
    crewRes x cr)

end Sys2Proof.Machine
end

