-- ==== Sys2Proof/Machine/Collective.lean ====
section
/-! DEFINITION. Engine commands that start, and fabric collectives (03_memory R64; 04_engines R80; 15_isa_memory R270,
R271; 10_generation R155; 27_fleet R381, R382). -/

namespace Sys2Proof.Machine

open Sys2Proof

/-! ## The collective descriptor (R270) -/

structure CollDesc where
  src : Nat
  dst : Nat
  count : Nat
  slot : Nat
  logs : Nat
  k : Nat
  group : Nat
  seq : Nat
  fmt : Nat
deriving DecidableEq, Repr

def collDesc (n : Nat) : CollDesc :=
  ⟨bits n 0 64, bits n 64 64, bits n 128 32, bits n 160 16, bits n 176 8, bits n 184 8, bits n 192 32, bits n 224 32,
    bits n 256 8⟩

/-- The element formats of an operation. -/
def collFormat (op : Nat) (f : Fmt) : Bool :=
  if op < 3 then f == .f32 || f == .f64 || f == .bf16
  else if op < 6 then f == .i32 || f == .i64 || f == .n32 || f == .n64
  else f == .f32

/-- The format that a code names, if it has one. -/
def collFmt (d : CollDesc) : Option Fmt := if d.fmt < 64 then Fmt.ofCode (BitVec.ofNat 6 d.fmt) else none

/-- Bytes of an element, or of a pair. -/
def collElem (op : Nat) (d : CollDesc) : Nat := if op = 6 then 8 else ((collFmt d).map (fun f => fmtBits f / 8)).getD 1

/-- Elements of a contribution. -/
def collElems (op : Nat) (d : CollDesc) : Nat := if op = 6 then d.count * d.k else d.count

/-- Does a descriptor keep its limits? -/
def collOk (op n : Nat) (d : CollDesc) : Bool :=
  (collFmt d).any (collFormat op) && d.src % collElem op d == 0 && d.dst % collElem op d == 0 &&
  decide (1 ≤ d.count) && decide (d.count ≤ 2 ^ 24) && decide (d.logs ≤ 12) && decide (d.slot < 2 ^ d.logs) &&
  (if op = 6 then decide (1 ≤ d.k) && decide (d.k ≤ 32) else d.k == 0) && bits n 264 248 == 0

/-- The bytes that a collective may write: its own `DST`, where the descriptor keeps its limits. -/
def collRange (op n : Nat) : Nat × Nat :=
  let d := collDesc n
  if collOk op n d then (d.dst, collElem op d * collElems op d) else (0, 0)

/-- Does a collective's destination touch a slot of the slot array that its block may not write (R34)? -/
def collForbids (g : Grid) (k : Block) (r : Nat × Nat) : Bool := r.2 != 0 && sealForbids g k r.1 r.2

/-- `coll` issues once its crew's older stores are performed, so that its descriptor gives the range that R34 checks. In a
grid with a ladder it does not issue before the descriptor's page is there; a descriptor that may not be read stops the
operation in its engine (log 114). -/
def execColl (f : FmtE) (s : State) : Host.Outcome State Fault Refusal :=
  issueWith (.coll f) s (fun x =>
    let a := x.uni f.a
    let op := f.sub.toNat
    if a % 64 ≠ 0 then .trap cAlign a
    else if !x.cr.storePath.isEmpty then .stall x.s
    else
      match fetchVirt x.s x.g.ctx a 64 with
      | .error e =>
        if e.cause = cPf ∧ x.g.ladder.isSome = true then .xfault cPf e.va 0
        else .done (issueOp x x.s 4 (.coll op a 0 0 0 0) true false) false
      | .ok (bs, s) =>
        let r := collRange op (leNat bs)
        if collForbids x.g x.blk r then .trap cSeal r.1
        else .done (issueOp x s 4 (.coll op a 0 0 r.1 r.2) true false) false)

/-! ## Reading and writing ranges of any length -/

/-- Places of a virtual range, in parts that keep to 64 KiB. -/
def longPieces (s : State) (ctx : Nat) (acc : Acc) : Nat → Nat → Nat → Except AccFault (List (Nat × Nat) × State)
  | 0, _, _ => .ok ([], s)
  | fuel + 1, va, n =>
    if n = 0 then .ok ([], s)
    else
      let k := min n 65536
      match piecesOf s ctx va k acc with
      | .error e => .error e
      | .ok (ps, s) => (longPieces s ctx acc fuel (va + k) (n - k)).map (fun r => (ps ++ r.1, r.2))

/-- Splits bytes into numbers of `w` bytes. -/
def chunk (w : Nat) : Nat → List Byte → List Nat
  | 0, _ => []
  | n + 1, bs => leNat (bs.take w) :: chunk w n (bs.drop w)

/-! ## Runs (R271) -/

def collRun? (s : State) (group seq : Nat) : Option CollRun := s.colls.find? (fun r => r.group == group && r.seq == seq)
def setRun (s : State) (r : CollRun) : State :=
  { s with colls := r :: s.colls.filter (fun o => !(o.group == r.group && o.seq == r.seq)) }

/-- Stops every operation of a reduction, each with its own descriptor's address. -/
def stopRun (s : State) (r : CollRun) : State :=
  let s := setRun s { r with stopped := true, vals := [] }
  r.slots.foldl (fun s e =>
    updOp s e.2.1 (fun o =>
      match o.kind with
      | .coll _ desc _ _ _ _ => if o.done || o.stamped || o.fault.isSome then o else { o with fault := some (desc, 0), pf := none }
      | _ => o)) s

/-- Has a contributor's grid ended with a fault before every slot was filled (R382)? -/
def runFaulted (s : State) (r : CollRun) : Bool :=
  decide (r.slots.length < 2 ^ r.logs) && r.grids.any (fun g => (s.grid? g).any (fun g => g.st == .faulted))

/-- The bytes of an element and the combination of two elements, or of two rows, the lower slot on the left. -/
def combineRows (r : CollRun) (a b : List Nat) : List Nat :=
  let f := (Fmt.ofCode (BitVec.ofNat 6 r.fmt)).getD .f32
  if r.sub < 6 then (a.zip b).map (fun e => (laneOp f (r.sub % 3) 0 e.1 e.2).1)
  else
    let row := fun (l : List Nat) (i : Nat) => (l.drop (i * r.k)).take r.k
    (List.range r.count).flatMap (fun i =>
      let ps := (row a i ++ row b i).zipIdx.map (fun e => (e.1 % 2 ^ 32, e.1 / 2 ^ 32, e.2))
      ((rankPairs ps).take r.k).map (fun p => p.1 + 2 ^ 32 * p.2.1))

def collVal (r : CollRun) (level idx : Nat) : Option (List Nat) :=
  (r.vals.find? (fun v => v.1 == level && v.2.1 == idx)).map (fun v => v.2.2)

/-- Writes the complete result to the contributors that have not received it; a cut writes none. -/
def deliverRun (s : State) (r : CollRun) : State :=
  match collVal r r.logs 0 with
  | none => s
  | some out =>
    if r.stopped || r.grids.any (fun g => (s.grid? g).any (fun g => g.st == .cut)) then s
    else
      let w := if r.sub = 6 then 8 else (fmtBits ((Fmt.ofCode (BitVec.ofNat 6 r.fmt)).getD .f32)) / 8
      let data := out.flatMap (leBytes w)
      r.slots.foldl (fun s e =>
        match op? s e.2.1 with
        | none => s
        | some o =>
          if o.done || o.stamped || o.fault.isSome || o.pf.isSome then s
          else
            match longPieces s (opCtx s o) .write (data.length + 1) e.2.2 data.length with
            | .error err => opFault s o.id err .write
            | .ok (ps, s) =>
              let ps := ps.map (fun p => (Place.g p.1, p.2))
              updOp (piecesDone (writePieces s ps (data.map some)) ps) o.id (fun o => { o with stamped := true })) s

/-- The reduction that a contribution joins: its own, or one that the contribution begins. -/
def joinRun (s : State) (op : Nat) (d : CollDesc) : CollRun :=
  (collRun? s d.group d.seq).getD ⟨d.group, d.seq, op, d.fmt, d.count, d.k, d.logs, [], [], [], false⟩

/-- A collective reads its descriptor and its contribution, and fills its slot. A descriptor that now names a range that
its issue has not checked and the block may not write stops it (log 114). -/
def collStart (s : State) (o : EngOp) (op desc : Nat) : State :=
  let ctx := opCtx s o
  match fetchVirt s ctx desc 64 with
  | .error e => opFault s o.id e .read
  | .ok (bs, s) =>
    let n := leNat bs
    let d := collDesc n
    let r := joinRun s op d
    let range := collRange op n
    let mine := updOp s o.id (fun o => { o with started := true, kind := .coll op desc d.group d.seq range.1 range.2 })
    let checked := match o.kind with
      | .coll _ _ _ _ dst len => range == (dst, len)
      | _ => false
    let gid := ((s.block? o.blk).map (·.grid)).toList
    let r := { r with grids := r.grids ++ gid }
    let beyond := !checked && (s.block? o.blk).any (fun k => (s.grid? k.grid).any (fun g => collForbids g k range))
    if beyond then updOp mine o.id (fun o => { o with fault := some (desc, 0) }) else
    let bad := !collOk op n d || r.stopped || runFaulted s r || r.slots.any (fun e => e.1 == d.slot) || r.sub != op || r.fmt != d.fmt ||
      r.count != d.count || r.k != d.k || r.logs != d.logs
    if bad then stopRun mine { r with slots := r.slots ++ [(d.slot, o.id, d.dst)] }
    else
      let w := collElem op d
      let len := collElems op d
      match longPieces s ctx .read (w * len + 1) d.src (w * len) with
      | .error e => opFault (if e.cause = cPf then s else mine) o.id e .read
      | .ok (ps, s) =>
        let data := chunk w len (ps.flatMap (fun p => s.mem.read p.1 p.2))
        let s := piecesDone (updOp s o.id (fun o =>
          { o with started := true, kind := .coll op desc d.group d.seq range.1 range.2 })) (ps.map (fun p => (.g p.1, p.2)))
        let r := { r with slots := r.slots ++ [(d.slot, o.id, d.dst)], vals := r.vals ++ [(0, d.slot, data)] }
        deliverRun (setRun s r) r

/-- The next Bulk Copy Engine of a die, retired ones left out (R80, R384). On a die whose engines are all retired copies go on
in the last one: the spec says nothing of it (DESIGN CHOICE, log 143). -/
def nextBce (s : State) (die last : Nat) : Nat :=
  ((List.range 16).map (fun i => (last + i) % 16)).find? (fun e => !isDegraded s 3 (16 * die + e)) |>.getD last

/-- ENGINE_COMMAND_START: the oldest command of its queue reaches its engine once every older store and atomic of its
crew has been performed (R64); copies go to the die's engines in turn (R80). -/
def execEngineCommandStart (op : Nat) (s : State) : Host.Outcome State Fault Refusal :=
  .next (
    match op? s op with
    | none => s
    | some o =>
      if !opMayStart s o || o.fault.isSome || o.pf.isSome then s
      else
        match o.kind with
        | .coll c desc _ _ _ _ => collStart s o c desc
        | .copy _ _ =>
          let die := ((s.block? o.blk).map (fun k => dieOf k.core)).getD 0
          let d := s.die die
          let e := nextBce s die d.bce
          updOp (s.setDie die { d with bce := (e + 1) % 16 }) op (fun o => { o with started := true, engine := e })
        | _ => updOp s op (fun o => { o with started := true }))

/-- COLL_COMBINE: two slots combine once both are present; at the root the result is written. A contributor whose grid
ended with a fault before every slot was filled stops the reduction (R382). -/
def execCollCombine (group seq level idx : Nat) (s : State) : Host.Outcome State Fault Refusal :=
  .next (
    match collRun? s group seq with
    | none => s
    | some r =>
      if r.stopped then s
      else if runFaulted s r then stopRun s r
      else if level = r.logs then deliverRun s r
      else
        match collVal r level (2 * idx), collVal r level (2 * idx + 1) with
        | some a, some b =>
          if (collVal r (level + 1) idx).isSome || decide (r.logs ≤ level) then s
          else
            let r := { r with vals := r.vals ++ [(level + 1, idx, combineRows r a b)] }
            deliverRun (setRun s r) r
        | _, _ => s)

end Sys2Proof.Machine
end

