-- ==== Sys2Proof/Machine/Stream.lean ====
section
/-! DEFINITION. Stream channels: layout records, formats in force, rings, fill and drain (04_engines R70–R79;
15_isa_memory R258). -/

namespace Sys2Proof.Machine

open Sys2Proof

/-! ## Layout records (R70–R73) -/

/-- Parses a layout record; none when a field breaks the limits of R70. -/
def layoutOf (n : Nat) : Option Layout :=
  let u := fun ofs len => bits n (8 * ofs) (8 * len)
  let ext := (List.range 5).map (fun d => u (8 + 4 * d) 4)
  let box := (List.range 5).map (fun d => if u (0x2C + d) 1 = 0 then 256 else u (0x2C + d) 1)
  let fmt := u 0x31 1
  let shape := u 0x32 1
  let ring := u 0x33 1
  let step := u 0x3C 4
  let l : Layout :=
    { base := u 0 8, ext := ext, str := (List.range 4).map (fun d => u (0x1C + 4 * d) 4), box := box,
      ovr := bitAt fmt 7, setwin := bitAt fmt 6, fidx := fmt % 64, esz := 2 ^ (shape % 4), ndim := bits shape 2 3,
      nstg := ring % 16, win := ring / 16, rbase := 256 * u 0x34 2, stgsz := 256 * u 0x36 2, iter := u 0x38 4,
      first := step % 8, nstep := step / 256 }
  if canonical l.base ∧ ext.all (fun e => decide (1 ≤ e)) ∧ 1 ≤ l.ndim ∧ l.ndim ≤ 5 ∧ shape / 32 = 0 ∧
      (List.range 5).all (fun d => decide (d < l.ndim) || (ext.getD d 0 == 1 && box.getD d 0 == 1)) ∧
      2 ≤ l.nstg ∧ l.nstg ≤ 8 ∧ l.stgsz ≠ 0 ∧ 1 ≤ l.iter ∧ l.first < l.ndim ∧ step / 8 % 32 = 0 ∧ l.nstep ≠ 0 then
    some l
  else none

namespace Layout

/-- Elements of a box. -/
def boxElems (l : Layout) : Nat := l.box.foldl (· * ·) 1
/-- Element bytes of a stage (R72). -/
def elemBytes (l : Layout) : Nat := l.esz * l.boxElems
/-- Box positions of a dimension (R71). -/
def positions (l : Layout) (d : Nat) : Nat := ceilDiv (l.ext.getD d 1) (l.box.getD d 1)
/-- Boxes that tile the tensor. -/
def boxCount (l : Layout) : Nat := ((List.range 5).map l.positions).foldl (· * ·) 1
/-- Dimensions with the fastest first (R71). -/
def order (l : Layout) : List Nat := l.first :: (List.range 5).filter (fun d => d != l.first)
/-- The box position of a linear box index, by dimension. -/
def boxPos (l : Layout) (idx : Nat) : List Nat :=
  let r := l.order.foldl (fun (acc : NMap Nat × Nat) d =>
    (acc.1.set d (acc.2 % l.positions d), acc.2 / l.positions d)) ([], idx)
  (List.range 5).map (fun d => r.1.getD d 0)
/-- Coordinates in a box of an element's place in the stage (R72). -/
def boxCoord (l : Layout) (e : Nat) : List Nat :=
  ((List.range 5).foldl (fun (acc : List Nat × Nat) d =>
    (acc.1 ++ [acc.2 % l.box.getD d 1], acc.2 / l.box.getD d 1)) ([], e)).1
/-- Coordinates in the tensor; none outside the extents. -/
def coord (l : Layout) (idx e : Nat) : Option (List Nat) :=
  let p := l.boxPos idx
  let b := l.boxCoord e
  let c := (List.range 5).map (fun d => p.getD d 0 * l.box.getD d 1 + b.getD d 0)
  if (List.range 5).all (fun d => decide (c.getD d 0 < l.ext.getD d 1)) then some c else none
/-- Address of an element (R71). DESIGN CHOICE, log 139: an address that passes 2^64 − 1 wraps. -/
def elemVa (l : Layout) (c : List Nat) : Nat :=
  (l.base + c.getD 0 0 * l.esz +
    ((List.range 4).map (fun d => c.getD (d + 1) 0 * l.str.getD d 0 * 16)).sum) % 2 ^ 64

end Layout

/-- The format in force: entry, offset of the scales in a stage, bytes of a stage's box with its scales (R72). -/
structure InForce where
  entry : Option FmtEntry
  sofs : Nat
  total : Nat
deriving DecidableEq, Repr

/-- What a stage holds under a format. -/
def inForce (l : Layout) (b : Option (List Byte)) : Option InForce :=
  match b with
  | none => some ⟨none, l.elemBytes, l.elemBytes⟩
  | some bs =>
    match fmtEntry bs with
    | none => none
    | some e =>
      if e.blk = 0 then some ⟨some e, l.elemBytes, l.elemBytes⟩
      else
        let so := roundUp l.elemBytes 64
        some ⟨some e, so, so + l.elemBytes / e.blk⟩

/-- The entry of a page: what its leaf selects, whatever it permits. -/
def pageFormat (s : State) (ctx va : Nat) : Except AccFault (Option (List Byte) × State) :=
  match [Acc.read, .write, .exec].findSome? (fun acc => match translate s ctx va acc with
    | .ok p e log f => some (p, e, log, f)
    | _ => none) with
  | some (p, e, log, f) => .ok (f, tlbKeep s ctx va (.ok p e log f))
  | none =>
    match translate s ctx va .read with
    | .pf => .error ⟨cPf, va⟩
    | _ => .error ⟨cProt, va⟩

/-- The format entry that the record selects (R72). The Format Table lies in the context's virtual memory (log 89); an
index that a context without one names selects no valid entry (log 115). -/
def selectFormat (s : State) (ctx : Nat) (l : Layout) : Except AccFault (Option (List Byte) × State) :=
  if l.ovr then
    if l.fidx = 0 then .ok (none, s)
    else
      match s.ctxs.find? ctx with
      | none => .error ⟨cProt, l.base⟩
      | some c =>
        if c.ftab = 0 then .ok (some [], s)
        else (fetchVirt s ctx (c.ftab + 16 * l.fidx) 16).map (fun r => (some r.1, r.2))
  else pageFormat s ctx l.base

/-- Does every block of a box begin at a multiple of the block's bytes from the base of its page? Pages begin at multiples
of it, so the tensor's base and the strides that it uses must (R72). -/
def blocksAligned (l : Layout) (bytes : Nat) : Bool :=
  l.base % bytes == 0 &&
  (List.range 4).all (fun d => decide (l.ext.getD (d + 1) 1 ≤ 1) || l.str.getD d 0 * 16 % bytes == 0)

/-- Does a record keep the limits of R72 and R73 for a block? -/
def layoutFits (s : State) (k : Block) (l : Layout) (f : InForce) : Bool :=
  let blk := (f.entry.map (·.blk)).getD 0
  let bytes := k.bays.length * bayBytes (s.core k.core).split
  (blk == 0 || (l.box.getD 0 1 % blk == 0 && l.esz == 1 && blocksAligned l blk)) && decide (f.total ≤ l.stgsz) &&
  decide (l.rbase + l.nstg * l.stgsz ≤ bytes)

/-! ## Bytes of a box (R71, R72) -/

/-- The page of a stream's address: its base and the entry its bytes use; a page that does not match stops the stream, at
the address of the page that the stream touches first (R72; log 34). The page of a scale is not one that the rule compares
(log 116). -/
def streamPage (s : State) (ctx va : Nat) (acc : Acc) (l : Layout) (f : InForce) :
    Except AccFault (Nat × Nat × Option FmtEntry × State) :=
  match translate s ctx va acc with
  | .pf => .error ⟨cPf, va⟩
  | .prot => .error ⟨cProt, va⟩
  | .ok p e log b =>
    let s := tlbKeep s ctx va (.ok p e log b)
    let base := va / 2 ^ log * 2 ^ log
    if l.ovr then .ok (p, base, f.entry, s)
    else
      let own := b.map fmtEntry
      match f.entry, own with
      | none, none => .ok (p, base, none, s)
      | some e, some (some o) =>
        if e.blk = o.blk ∧ e.efmt = o.efmt then .ok (p, base, some o, s) else .error ⟨cProt, va⟩
      | _, _ => .error ⟨cProt, va⟩

/-- Where byte `o` of a stage's box lies in memory, physical and virtual: none for padding or a byte outside the extents (R72). -/
def boxByte (s : State) (ctx : Nat) (l : Layout) (f : InForce) (idx o : Nat) (acc : Acc) :
    Except AccFault (Option (Nat × Nat) × State) :=
  if o < l.elemBytes then
    match l.coord idx (o / l.esz) with
    | none => .ok (none, s)
    | some c =>
      let va := (l.elemVa c + o % l.esz) % 2 ^ 64
      match streamPage s ctx va acc l f with
      | .error e => .error e
      | .ok (p, _, _, s) => .ok (some (p, va), s)
  else if o < f.sofs then .ok (none, s)
  else
    match f.entry with
    | none => .ok (none, s)
    | some e =>
      match l.coord idx ((o - f.sofs) * e.blk) with
      | none => .ok (none, s)
      | some c =>
        let va := l.elemVa c
        match streamPage s ctx va acc l f with
        | .error e => .error e
        | .ok (_, base, pe, s) =>
          let soff := ((pe.map (·.soff)).getD 0)
          let sva := wrapTo 64 ((base : Int) + soff + ((va - base) / e.blk : Nat))
          match physOf s ctx sva acc with
          | .error e => .error e
          | .ok (p, s) => .ok (some (p, sva), s)

/-- Stage of an iteration, as an `sp` offset (R71). -/
def Layout.stage (l : Layout) (i : Nat) : Nat := l.rbase + i % l.nstg * l.stgsz

/-- The box index of an iteration; none when it is empty (R71). -/
def Channel.boxOf (ch : Channel) (i : Nat) : Option Nat :=
  let b := ch.start + i * ch.lay.nstep
  if b < ch.lay.boxCount then some b else none

/-- Moves bytes from `o` on of an iteration's stage, in ascending order (R66). A byte whose write a cut cancels is translated
as any other, so one whose page is absent then waits for service before it is dropped (DESIGN CHOICE, log 128). -/
def moveStage (s : State) (k : Block) (ctx : Nat) (ch : Channel) (f : InForce) (idx : Nat) (dir : Nat) :
    Nat → Nat → Except AccFault State
  | _, 0 => .ok s
  | o, n + 1 =>
    if f.total ≤ o then .ok s
    else
      match boxByte s ctx ch.lay f idx o (if dir = 0 then .read else .write) with
      | .error e => .error e
      | .ok (p, s) =>
        let sp := bayPlace s k (ch.lay.stage ch.moved + o)
        let s :=
          match sp, p, dir with
          | some q, some a, 0 => hbmDone (writePlace s q [s.mem.read1 a.1]) (.g a.1)
          | some q, none, 0 =>
            if ch.lay.elemBytes ≤ o && decide (o < f.sofs) then s else writePlace s q [0]
          | some q, some a, _ =>
            if cutCancels s k a.2 then s
            else hbmDone (spoil (writePlace s (.g a.1) (readPlace s q 1)) a.1 1) (.g a.1)
          | _, _, _ => s
        moveStage s k ctx ch f idx dir (o + 1) n

/-! ## Ranges that a drain stream writes (R34) -/

/-- Does a drain stream write a byte range that meets a test: some byte of its boxes within the extents, or some
scale? A scale whose page is not there yet may. -/
def drainTouches (s : State) (ctx : Nat) (l : Layout) (f : InForce) (start : Nat) (hit : Nat → Nat → Bool) : Bool :=
  (List.range (min l.iter l.boxCount)).any (fun i =>
    let idx := start + i * l.nstep
    decide (idx < l.boxCount) &&
    (List.range l.boxElems).any (fun e =>
      match l.coord idx e with
      | none => false
      | some c =>
        let va := l.elemVa c
        hit va l.esz ||
        (match f.entry with
          | none => false
          | some fe =>
            fe.blk != 0 && e % fe.blk == 0 &&
            (match streamPage s ctx va .write l f with
              | .ok (_, base, pe, _) =>
                hit (wrapTo 64 ((base : Int) + ((pe.map (·.soff)).getD 0) + ((va - base) / fe.blk : Nat))) 1
              | .error e => e.cause == cPf))))

/-- The first address of a drain stream whose page must be there before its scales can be checked (R34). -/
def drainPf (s : State) (ctx : Nat) (l : Layout) (f : InForce) (start : Nat) : Option Nat :=
  if f.sofs = f.total then none
  else
    (List.range (min l.iter l.boxCount)).findSome? (fun i =>
      let idx := start + i * l.nstep
      if l.boxCount ≤ idx then none
      else
        ((List.range l.boxElems).filterMap (l.coord idx)).findSome? (fun c =>
          match translate s ctx (l.elemVa c) .write with
          | .pf => some (l.elemVa c)
          | _ => none))

/-- Does a drain stream write a forbidden slot? -/
def drainForbids (s : State) (x : Cx) (l : Layout) (f : InForce) (start : Nat) : Bool :=
  x.g.ladder.isSome && drainTouches s x.g.ctx l f start (sealForbids x.g x.blk)

/-! ## `stream` (R73–R76, R258) -/

def setChan (k : Core) (dir : Nat) (c : Option Channel) : Core :=
  if dir = 0 then { k with fill := c } else { k with drain := c }

/-- The window that a fill sets over its ring, or clears (R75). -/
def setRing (k : Block) (l : Layout) (f : InForce) : Block :=
  match f.entry with
  | none => { k with wins := k.wins.erase l.win }
  | some e => { k with wins := k.wins.set l.win ⟨l.rbase, l.nstg * l.stgsz, e.efmt, e.blk, f.sofs, l.stgsz⟩ }

/-- A page fault of the channel's read of a record: the crew waits in place until it is serviced (R78). -/
def waitService (x : Cx) (va : Nat) : Res := .raw (x.put { x.cr with pendingPf := some (va, 0, if x.cr.inHandler then 4 else 2) })

/-- The format of a record, or the address at which its stream stops at once: a page of its base that may not be accessed
is met by the channel, not by `stream` (R73, R78). The spec does not say which format is in force then: the stream starts as
if there were none, its limits are judged without scales, `SETWIN` clears the window, and it stops at `BASE` though no box
need lie on that page (DESIGN CHOICE, log 141). -/
def streamFormat (s : State) (ctx : Nat) (l : Layout) : Except AccFault (Option (List Byte) × Option Nat × State) :=
  match selectFormat s ctx l with
  | .ok (b, s) => .ok (b, none, s)
  | .error e => if l.ovr || e.cause == cPf then .error e else .ok (none, some e.va, s)

/-- `stream` on an idle channel, older stores performed: reads the record, checks it, starts the stream. -/
def streamRes (dir : Nat) (f : FmtE) (x : Cx) : Res :=
  let a := x.uni f.a
  let core := x.s.core x.blk.core
  if a % 64 ≠ 0 then .trap cAlign a
  else if (chanOf core dir).isSome then .raw (parkAt x x.s (.chan dir))
  else if !x.cr.storePath.isEmpty then .stall x.s
  else
    match fetchNat x.s x.g.ctx a 64 with
    | .error e => if e.cause = cPf then waitService x e.va else .trap cProt a
    | .ok (n, s) =>
      match layoutOf n with
      | none => .trap cProt a
      | some l =>
        match streamFormat s x.g.ctx l with
        | .error e => if e.cause = cPf then waitService x e.va else .trap cProt a
        | .ok (b, stop, s) =>
          match inForce l b with
          | none => .trap cProt a
          | some inf =>
            let pf := if dir = 1 && x.g.ladder.isSome then drainPf s x.g.ctx l inf (x.uni f.b % 2 ^ 32) else none
            if !layoutFits s x.blk l inf then .trap cProt a
            else if pf.isSome then waitService x (pf.getD 0)
            else if dir = 1 && drainForbids s x l inf (x.uni f.b % 2 ^ 32) then .trap cSeal a
            else
              let id := s.nextOp
              let s := updOp (issueOp x s 1 (.stream dir x.blk.core) true true) id (fun o => { o with fault := stop.map (fun va => (va, dir)) })
              let ch : Channel :=
                { op := id, blk := x.b, rec_ := a, start := x.uni f.b % 2 ^ 32, lay := l, fmt := b, moved := 0,
                  released := 0, handed := 0, ptr := 0, stopped := false, done := false }
              let s := s.setCore x.blk.core (setChan (s.core x.blk.core) dir (some ch))
              .done (if dir = 0 && l.setwin then s.updBlock x.b (fun k => setRing k l inf) else s) false

def execStreamF (f : FmtE) (s : State) : Host.Outcome State Fault Refusal := issueWith (.streamF f) s (streamRes 0 f)
def execStreamD (f : FmtE) (s : State) : Host.Outcome State Fault Refusal := issueWith (.streamD f) s (streamRes 1 f)

/-! ## `srel` (R66, R75, R76) -/

/-- Stages given up whose release is still in a Store Path of the block. -/
def pendingRel (k : Block) (dir : Nat) : Nat :=
  (k.crews.vals.map (fun cr => (cr.storePath.filter (fun e =>
    match e with
    | .marker _ (.srel d) => d == dir
    | _ => false)).length)).sum

/-- Releases or hands over a stage once its marker leaves the Store Path. -/
def performSrel (s : State) (b dir : Nat) : State :=
  match s.block? b with
  | none => s
  | some k =>
    let core := s.core k.core
    match chanOf core dir with
    | none => s
    | some ch =>
      if ch.blk ≠ b then s
      else
        s.setCore k.core (setChan core dir (some (if dir = 0 then { ch with released := ch.released + 1 }
          else { ch with handed := ch.handed + 1 })))

def srelRes (dir : Nat) (x : Cx) : Res :=
  match chanOf (x.s.core x.blk.core) dir with
  | none => .trapOpen cProt
  | some ch =>
    let n := (if dir = 0 then ch.released else ch.handed) + pendingRel x.blk dir
    if ch.blk ≠ x.b ∨ ch.lay.iter ≤ n then .trapOpen cProt
    else if (if dir = 0 then decide (ch.moved ≤ n) else decide (ch.moved + ch.lay.nstg ≤ n)) then .stall x.s
    else
      let cr := x.cr.bump
      crewRes x (cr.push [.marker cr.seq (.srel dir)])

def execSrelF (f : FmtE) (s : State) : Host.Outcome State Fault Refusal := issueWith (.srelF f) s (srelRes 0)
def execSrelD (f : FmtE) (s : State) : Host.Outcome State Fault Refusal := issueWith (.srelD f) s (srelRes 1)

/-! ## Channel steps (R75, R76, R78) -/

/-- May the channel start or go on with its current iteration? -/
def chanMoves (ch : Channel) (dir : Nat) : Bool :=
  decide (ch.moved < ch.lay.iter) &&
  (if dir = 0 then decide (ch.moved < ch.released + ch.lay.nstg) else decide (ch.moved < ch.handed)) &&
  (!ch.stopped || ch.ptr != 0)

/-- The pointer after bytes have moved: padding counts with the last element byte (R77). -/
def ptrAfter (l : Layout) (f : InForce) (o : Nat) : Nat := if l.elemBytes ≤ o ∧ o < f.sofs then f.sofs else o

/-- One step of a channel: bytes of the iteration in transfer, or an empty iteration. -/
def chanStep (s : State) (core dir len : Nat) : State :=
  let k := s.core core
  match chanOf k dir with
  | none => s
  | some ch =>
    match op? s ch.op, s.block? ch.blk with
    | some o, some blk =>
      if o.done || o.fault.isSome || o.pf.isSome || !chanMoves ch dir then s
      else
        match ch.boxOf ch.moved, inForce ch.lay ch.fmt with
        | some idx, some f =>
          let n := min (len + 1) (f.total - ch.ptr)
          match moveStage s blk (opCtx s o) ch f idx dir ch.ptr n with
          | .error e => opFault s o.id e (if dir = 0 then .read else .write)
          | .ok s =>
            let p := ptrAfter ch.lay f (ch.ptr + n)
            let ch := if f.total ≤ p then { ch with moved := ch.moved + 1, ptr := 0 } else { ch with ptr := p }
            s.setCore core (setChan (s.core core) dir (some ch))
        | _, _ => s.setCore core (setChan k dir (some { ch with moved := ch.moved + 1, ptr := 0 }))
    | _, _ => s

/-- FILL_ITERATION: the fill channel moves `len + 1` more bytes of its iteration into the stage (R75). -/
def execFillIteration (core len : Nat) (s : State) : Host.Outcome State Fault Refusal := .next (chanStep s core 0 len)

/-- DRAIN_ITERATION: the drain channel moves `len + 1` more bytes of a handed-over stage to memory (R76). -/
def execDrainIteration (core len : Nat) (s : State) : Host.Outcome State Fault Refusal := .next (chanStep s core 1 len)

/-- CHANNEL_IDLE: the operation has completed and, for a fill, every delivered stage has been released, or the block's
last crew has retired (R74). Its pointer stays as it is (R77). -/
def execChannelIdle (core dir : Nat) (s : State) : Host.Outcome State Fault Refusal :=
  .next (
    let k := s.core core
    match chanOf k dir with
    | none => s
    | some ch =>
      let opDone := (op? s ch.op).all (·.done)
      if opDone && (ch.stopped || dir != 0 || decide (ch.moved ≤ ch.released)) then s.setCore core (setChan k dir (some { ch with done := true }))
      else s)

end Sys2Proof.Machine
end

