-- ==== Sys2Proof/Machine/Sync.lean ====
section
/-! DEFINITION. Barriers, crew sets, the Serial Phase Buffer, dependent kernels, monitors (03_memory R68; 04_engines
R83; 09_tasks_graphs R147; 15_isa_memory R260–R265). -/

namespace Sys2Proof.Machine

open Sys2Proof

/-! ## The Serial Phase Buffer (R68) -/

/-- Key order of the buffer's entries. -/
def spbBefore (a b : SpbEntry) : Bool :=
  decide (a.ltid.toNat < b.ltid.toNat) || (a.ltid == b.ltid && decide (a.count ≤ b.count))

/-- Insertion into a list in key order. -/
def spbInsert (e : SpbEntry) : List SpbEntry → List SpbEntry
  | [] => [e]
  | a :: as => if spbBefore e a then e :: a :: as else a :: spbInsert e as

def spbSort (l : List SpbEntry) : List SpbEntry := l.foldr spbInsert []

/-- A phase boundary of a block: the buffer applies its entries in ascending key order and is empty. -/
def phaseBoundary (s : State) (b : Nat) : State :=
  match s.block? b with
  | none => s
  | some k =>
    let s := (spbSort k.spb).foldl (fun s e =>
      match bayPlace s k e.ofs with
      | none => s
      | some p =>
        let n := 2 ^ e.w
        writePlace s p (leBytes n (atomNew e.aop (8 * n) (leNat (readPlace s p n)) e.operand.toNat 0))) s
    s.updBlock b (fun k => { k with spb := [], spbCount := [] })

/-! ## Barriers (R262) -/

/-- Crews of a block that have not exited. -/
def liveCrews (k : Block) : List Nat := (k.crews.filter (fun e => !e.2.allExited)).map Prod.fst

/-- Non-exited participants of a core barrier. -/
def barCrewsOf (k : Block) (v : Conv) : List Nat :=
  match v.cset with
  | some set => (liveCrews k).filter (fun j => set.getLsbD j)
  | none => liveCrews k

/-- Does a thread wait at a generation of a barrier? -/
def Thread.barredAt (t : Thread) (scp cv gen : Nat) : Bool :=
  match t.wait with
  | some (.bar x v _ g) => x == scp && v == cv && g == some gen
  | _ => false

/-- The threads of a crew that wait at a barrier generation go on, and the crew acquires. -/
def barRelease (cr : Crew) (scp cv gen : Nat) : Crew :=
  let lanes := cr.lanesWhere (·.barredAt scp cv gen)
  if lanes = 0 then cr
  else
    let cr := (cr.resume lanes false).bump
    cr.acquire cr.seq false

/-- Releases every crew of a block that waits at a generation. -/
def barReleaseBlock (k : Block) (scp cv gen : Nat) : Block :=
  { k with crews := k.crews.mapVals (fun _ cr => barRelease cr scp cv gen) }

/-- Completes a core barrier once every participant has arrived. -/
def coreBarCheck (s : State) (b cv : Nat) : State :=
  match s.block? b with
  | none => s
  | some k =>
    let v := k.conv cv
    let ps := barCrewsOf k v
    if v.barArrived.isEmpty || !ps.all (fun j => v.barArrived.contains j) then s
    else
      let s := phaseBoundary s b
      s.updBlock b (fun k => (barReleaseBlock k 1 cv v.barGen).setConv cv { v with barArrived := [], barGen := v.barGen + 1 })

/-- The unit whose instance of a barrier a block meets (R262). -/
def barUnit (scp core : Nat) : Nat := if scp = 2 then quadOf core else if scp = 3 then dieOf core else 0

/-- Barriers of a scope that the launch allocates (R339). -/
def barAlloc (g : Grid) (scp : Nat) : Nat :=
  match scp with
  | 2 => g.quadB
  | 3 => g.dieB
  | 4 => g.pkgB
  | _ => g.podB

/-- The instance of a barrier, or a fresh one. -/
def barInst (s : State) (grid scp unit cv : Nat) : BarInst :=
  (s.bars.find? (fun i => i.grid == grid && i.scp == scp && i.unit == unit && i.cv == cv)).getD
    ⟨grid, scp, unit, cv, none, [], 0⟩

def setBar (s : State) (i : BarInst) : State :=
  { s with bars := i :: s.bars.filter (fun o => !(o.grid == i.grid && o.scp == i.scp && o.unit == i.unit && o.cv == i.cv)) }

/-- The blocks of an instance's unit. -/
def barBlocks (s : State) (i : BarInst) : List Nat :=
  (s.blocks.filter (fun e => e.2.grid == i.grid && barUnit i.scp e.2.core == i.unit && e.2.st == .resident)).map Prod.fst

/-- Completes an instance once its count of blocks has arrived, and starts its next generation. -/
def instCheck (s : State) (grid scp unit cv : Nat) : State :=
  let i := barInst s grid scp unit cv
  match i.count with
  | none => s
  | some n =>
    if i.blocks.length < n then s
    else
      let s := setBar s { i with blocks := [], count := none, gen := i.gen + 1 }
      let s := i.blocks.foldl (fun s b => s.updBlock b (fun k => { k with barCrews := k.barCrews.erase (512 * scp + cv) })) s
      (barBlocks s i).foldl (fun s b => s.updBlock b (fun k => barReleaseBlock k scp cv i.gen)) s

/-- The block arrives at a higher-scope barrier, once in a generation, when all of its non-exited crews have; their
arrivals stay noted until the generation completes, so that one can be withdrawn (R263). Crews that have arrived and exited
before their arrivals were performed leave those standing (R262; log 71). -/
def blockBarCheck (s : State) (b scp cv : Nat) : State :=
  match s.block? b with
  | none => s
  | some k =>
    let key := 512 * scp + cv
    let arrived := k.barCrews.getD key []
    let live := liveCrews k
    let unit := barUnit scp k.core
    let i := barInst s k.grid scp unit cv
    if arrived.isEmpty || i.blocks.contains b || !live.all (fun j => arrived.contains j) then s
    else
      let s := phaseBoundary s b
      instCheck (setBar s { i with blocks := i.blocks ++ [b] }) k.grid scp unit cv

/-- The generation of a barrier that runs for a block. -/
def barGenOf (s : State) (k : Block) (scp cv : Nat) : Nat :=
  if scp = 1 then (k.conv cv).barGen else (barInst s k.grid scp (barUnit scp k.core) cv).gen

/-- An arrival that has been performed belongs to a generation: its threads wait for that one. -/
def Thread.arrivedIn (t : Thread) (scp cv seq gen : Nat) : Thread :=
  { t with
    wait := if t.wait = some (.bar scp cv seq none) then some (.bar scp cv seq (some gen)) else t.wait
    iwait := if t.iwait = some (.bar scp cv seq none) then some (.bar scp cv seq (some gen)) else t.iwait
    bars := t.bars.map (fun e => if e = (scp, cv, seq, none) then (scp, cv, seq, some gen) else e) }

/-- A crew's arrival of one issue of `bar` with a count, once its release marker has left the Store Path. -/
def performBar (s : State) (b c scp cv n seq : Nat) : State :=
  match s.block? b with
  | none => s
  | some k =>
    let gen := barGenOf s k scp cv
    let s := s.updCrew b c (fun cr => { cr with threads := cr.threads.mapVals (fun _ t => t.arrivedIn scp cv seq gen) })
    if scp = 1 then
      coreBarCheck (s.updBlock b (fun k =>
        let v := k.conv cv
        k.setConv cv { v with barArrived := v.barArrived ++ [c] })) b cv
    else
      let key := 512 * scp + cv
      -- the generation may have begun since the issue: its count is this arrival's when none other has given one
      let i := barInst s k.grid scp (barUnit scp k.core) cv
      let s := if i.count.isSome then s else setBar s { i with count := some n }
      blockBarCheck (s.updBlock b (fun k => { k with barCrews := k.barCrews.set key (k.barCrews.getD key [] ++ [c]) })) b scp cv

/-- Traps of `bar`. -/
def barTrap (x : Cx) (f : FmtE) : Option Res :=
  let scp := f.scp.toNat
  let cv := f.cv.toNat
  if scp = 1 then
    let v := x.blk.conv cv
    if slotBudget x.s x.blk ≤ cv ∨ v.sig.isSome = true ∨ v.copies ≠ [] then some (.trapOpen cProt) else none
  else
    let n := if f.b = Opr.zero then 0 else x.uni f.b
    let i := barInst x.s x.blk.grid scp (barUnit scp x.blk.core) cv
    if barAlloc x.g scp ≤ cv ∨ n = 0 ∨ 2 ^ 32 ≤ n ∨ i.count.any (fun m => m != n) = true then some (.trapOpen cProt)
    else none

/-- `bar` acts once per issue with an active lane (R255): the crew arrives with a release, and the path's active threads
wait for the generation that this arrival turns out to belong to; with `arrive` they go on. -/
def execBar (f : FmtE) (s : State) : Host.Outcome State Fault Refusal :=
  issueWith (.bar f) s (fun x =>
    match barTrap x f with
    | some r => r
    | none =>
      let scp := f.scp.toNat
      let cv := f.cv.toNat
      let n := if f.b = Opr.zero then 0 else x.uni f.b
      let seq := x.cr.seq + 1
      let s :=
        if scp = 1 then x.s
        else
          let i := barInst x.s x.blk.grid scp (barUnit scp x.blk.core) cv
          setBar x.s { i with count := some n }
      let s := s.updCrew x.b x.c (fun cr =>
        (cr.bump.push [.marker seq (.bar scp cv n)]).updThreads x.act (fun t => { t with bars := t.bars ++ [(scp, cv, seq, none)] }))
      if f.sub.getLsbD 0 then .done s false else .raw (parkAt x s (.bar scp cv seq none)))

/-- Is an arrival of the crew at a barrier still on its way? -/
def Crew.arriving (cr : Crew) (scp cv : Nat) : Bool :=
  cr.storePath.any (fun e =>
    match e with
    | .marker _ (.bar x v _) => x == scp && v == cv
    | _ => false)

def execCset (f : FmtE) (s : State) : Host.Outcome State Fault Refusal :=
  issueWith (.cset f) s (fun x =>
    let cv := f.cv.toNat
    let a := x.uni f.a
    let v := x.blk.conv cv
    let crews := (x.variant.map (·.crews)).getD 0
    if slotBudget x.s x.blk ≤ cv ∨ a = 0 ∨ 2 ^ crews ≤ a ∨ v.sig.isSome = true ∨ v.copies ≠ [] ∨ v.barArrived ≠ [] ∨
        x.blk.crews.vals.any (fun cr => cr.arriving 1 cv) = true then
      .trapOpen cProt
    else .done (x.s.updBlock x.b (fun k => k.setConv cv { v with cset := some (BitVec.ofNat 16 a) })) false)

/-! ## Dependent kernels (R147, R265) -/

/-- Has the release of the crew's exit completed (R57)? -/
def Crew.exitDone (cr : Crew) : Bool :=
  cr.allExited && cr.storePath.all (fun e =>
    match e with
    | .marker _ .exit => false
    | _ => true)

/-- Marks the block triggered once every crew has executed `trigger` or exited, the releases of both completed. -/
def triggerCheck (s : State) (b : Nat) : State :=
  s.updBlock b (fun k =>
    { k with triggered := k.triggered || k.crews.vals.all (fun cr => cr.triggered || cr.exitDone) })

/-- The release of an `exit` completes. With the last crew's the block's last phase ends first (R68). -/
def performExit (s : State) (b : Nat) : State :=
  triggerCheck (if (s.block? b).any (fun k => k.crews.vals.all (·.exitDone)) then phaseBoundary s b else s) b

/-- The effect of `trigger` once its release has completed. -/
def performTrigger (s : State) (b c : Nat) : State := triggerCheck (s.updCrew b c (fun cr => { cr with triggered := true })) b

def execTrigger (f : FmtE) (s : State) : Host.Outcome State Fault Refusal :=
  issueWith (.trigger f) s (fun x =>
    let cr := x.cr.bump
    crewRes x (cr.push [.marker cr.seq .trigger]))

/-- Has every block of the producer grid triggered or ended? A grid that has stopped launches no more of them (R41); those
that run end once the cut has reached them. -/
def producerReady (s : State) (g : Grid) : Bool :=
  match g.producer with
  | none => true
  | some p =>
    match s.grid? p with
    | none => true
    | some pg =>
      (pg.st != .running || decide (pg.x * pg.y * pg.z ≤ pg.launched)) &&
        s.blocks.all (fun e => e.2.grid != p || e.2.triggered || e.2.st == .ended)

def execWaitDep (f : FmtE) (s : State) : Host.Outcome State Fault Refusal :=
  issueWith (.waitDep f) s (fun x =>
    if producerReady x.s x.g then
      let cr := x.cr.bump
      crewRes x (cr.acquire cr.seq false)
    else .raw (parkAt x x.s .waitDep))

/-- WAIT_DEP_RELEASE: a waiting `wait.dep` is released once every producer block has triggered or ended. -/
def execWaitDepRelease (blk crew : Nat) (s : State) : Host.Outcome State Fault Refusal :=
  .next (
    match s.block? blk, s.crew? blk crew with
    | some k, some cr =>
      let lanes := cr.lanesWhere (fun t => t.wait == some .waitDep)
      if lanes = 0 || !(s.grid? k.grid).all (producerReady s) then s
      else
        let cr := (cr.resume lanes false).bump
        s.setCrew blk crew (cr.acquire cr.seq false)
    | _, _ => s)

/-! ## Monitors (R83, R261) -/

/-- The condition of `monwait`: 0 `ge` unsigned, 1 `eq`, 2 `ne`. -/
def monCond (cond w b : Nat) : Bool :=
  match cond with
  | 0 => decide (b ≤ w)
  | 1 => w == b
  | _ => w != b

/-- Reads a monitored word at its home. -/
def monRead (s : State) (ctx : Nat) (k : Block) (sp a : Nat) : Except AccFault (Nat × State) :=
  match engPlaces s ctx (some k) sp a 8 .read with
  | .error e => .error e
  | .ok (ps, s) => .ok (leNat (readPieces s ps), piecesDone s ps)

/-- `monarm` checks the word's address as an access to it would be checked (log 73). -/
def execMonarm (f : FmtE) (s : State) : Host.Outcome State Fault Refusal :=
  issueWith (.monarm f) s (fun x =>
    let sp := f.imm8.toNat % 8
    let a := spaceAddr sp (x.uni f.a)
    if a % 8 ≠ 0 then .trap cAlign a
    else if x.cr.monitor.any (fun m => m.parked.isSome) then .stall x.s
    else
      match monRead x.s x.g.ctx x.blk sp a with
      | .error e => if sp = 0 then .xfault e.cause e.va 0 else .trap e.cause e.va
      | .ok (_, s) => .done (s.updCrew x.b x.c (fun cr => { cr with monitor := some ⟨a, sp, none⟩ })) false)

/-- Completes `monwait` for a path: predicate in every lane, acquire. -/
def monDone (cr : Crew) (lanes : Lanes) (pd : Nat) (hit : Bool) : Crew :=
  let cr := cr.setP pd lanes (if hit then BitVec.allOnes 32 else 0)
  let cr := cr.bump
  cr.acquire cr.seq false

/-- The register number of a predicate destination, 15 for none. -/
def pdNum (cr : Crew) (pd : BitVec 4) : Nat := if pd = 15 then 15 else cr.pName pd.toNat

def execMonwait (f : FmtE) (s : State) : Host.Outcome State Fault Refusal :=
  issueWith (.monwait f) s (fun x =>
    let sp := f.imm8.toNat % 8
    let a := spaceAddr sp (x.uni f.a)
    if a % 8 ≠ 0 then .trap cAlign a
    else if x.cr.monitor.any (fun m => m.parked.isSome) then .stall x.s
    else
      match monRead x.s x.g.ctx x.blk sp a with
      | .error e => if sp = 0 then .xfault e.cause e.va 0 else .trap e.cause e.va
      | .ok (w, s) =>
        let pd := pdNum x.cr f.pd
        if monCond f.sub.toNat w (x.uni f.b) then
          .done (s.updCrew x.b x.c (fun cr => monDone { cr with monitor := some ⟨a, sp, none⟩ } x.lanes pd true)) false
        else
          let t := x.uni f.c
          let deadline := if t = 0 then none else some (x.s.clock x.blk.core + t)
          let park : Park := ⟨f.sub.toNat, x.uni f.b, deadline, pd, x.lanes, x.act, x.s.clock x.blk.core⟩
          let s := s.updCrew x.b x.c (fun cr => { cr with monitor := some ⟨a, sp, some park⟩ })
          -- every thread of the path waits: the predicate is written in all of its lanes
          .raw (s.updCrew x.b x.c (fun cr =>
            cr.updThreads x.lanes (fun t => t.waits .monwait true (x.s.clock x.blk.core)))))

/-- A parked crew reads its word; `timeout` when its timeout has expired, which ends the wait whatever the read gives (R83).
The spec does not say what a read does that no longer translates, or may no longer be made: it finds nothing, and before
its timeout the crew stays parked (DESIGN CHOICE, log 109). -/
def monLook (s : State) (blk crew : Nat) (timeout : Bool) : State :=
  match s.block? blk, s.crew? blk crew with
  | some k, some cr =>
    match cr.monitor with
    | some m =>
      match m.parked, s.grid? k.grid with
      | some p, some g =>
        if timeout && !p.deadline.any (fun d => decide (d ≤ s.clock k.core)) then s
        else
          let (hit, s) :=
            match monRead s g.ctx k m.space m.addr with
            | .error _ => (false, s)
            | .ok (w, s) => (monCond p.cond w p.operand, s)
          if hit || timeout then
            let lanes := cr.lanesWhere (fun t => t.wait == some .monwait)
            let cr := monDone { cr with monitor := some { m with parked := none } } p.lanes p.pd hit
            s.setCrew blk crew (cr.resume lanes false)
          else s
      | _, _ => s
    | none => s
  | _, _ => s

/-- MONITOR_WAKE: a write to the word wakes the parked crew, which reads it again (R83). -/
def execMonitorWake (blk crew : Nat) (s : State) : Host.Outcome State Fault Refusal := .next (monLook s blk crew false)

/-- MONWAIT_TIMEOUT: the timeout has expired and no read is pending (R83). -/
def execMonwaitTimeout (blk crew : Nat) (s : State) : Host.Outcome State Fault Refusal := .next (monLook s blk crew true)

end Sys2Proof.Machine
end

