-- ==== Sys2Proof/Machine/Matrix.lean ====
section
/-! DEFINITION. The matrix unit: grants, windows, tiles, products, draining, issue by signature (05_numbers R90–R106;
07_matrix R117–R127; 16_isa_control R288–R294). -/

namespace Sys2Proof.Machine

open Sys2Proof

/-! ## Grants (R118, R119, R289) -/

/-- Is an 8-bit element format? -/
def fmtIs8 (f : Fmt) : Bool := fmtIsB8 f || f == .i8

/-- The pairs of R118. -/
def pairOk (a b : Fmt) : Bool := (fmtIs8 a && fmtIs8 b) || (a == b && fmtIsIeee a)

/-- The K-group of a pair. -/
def kGroup (a : Fmt) : Nat := if fmtIs8 a then 32 else 16

/-- The smallest of 16, 32, 64 that is at least the request. -/
def shapeUp (n : Nat) : Nat := if n ≤ 16 then 16 else if n ≤ 32 then 32 else 64

/-- The grant in the layout of the request. -/
def Grant.word (g : Grant) : Nat := g.m + 2 ^ 8 * g.n + 2 ^ 16 * g.k + 2 ^ 32 * g.a.code.toNat + 2 ^ 40 * g.b.code.toNat

/-- The grant of a request; none when it breaks R119. -/
def grantOf (r : Nat) (a b : Fmt) : Option Grant :=
  let m := bits r 0 8
  let n := bits r 8 8
  let k := bits r 16 9
  if bits r 25 7 ≠ 0 ∨ bits r 38 2 ≠ 0 ∨ bits r 46 18 ≠ 0 ∨ m = 0 ∨ 64 < m ∨ n = 0 ∨ 64 < n ∨ k = 0 ∨ 256 < k then none
  else some ⟨BitVec.ofNat 64 r, shapeUp m, shapeUp n, roundUp k (kGroup a), a, b⟩

def execShape (f : FmtA) (s : State) : Host.Outcome State Fault Refusal :=
  issueWith (.shape f) s (fun x =>
    let r := x.uni f.a
    match Fmt.ofCode (BitVec.ofNat 6 (bits r 32 6)), Fmt.ofCode (BitVec.ofNat 6 (bits r 40 6)) with
    | some a, some b =>
      if !pairOk a b then .trap cUnd x.pc
      else
        match grantOf r a b with
        | none => .trapOpen cProt
        | some g =>
          match x.blk.grant with
          | some old =>
            if old.req = g.req then crewRes x (x.cr.putOpr f.d 2 0 old.word) else .trapOpen cProt
          | none =>
            .done ((x.s.updBlock x.b (fun k => { k with grant := some g })).updCrew x.b x.c
              (fun cr => cr.putOpr f.d 2 0 g.word)) false
    | _, _ => .trap cUnd x.pc)

/-! ## Format windows (R93, R290) -/

/-- Bytes of a block's scratchpad space. -/
def spBytes (s : State) (k : Block) : Nat := k.bays.length * bayBytes (s.core k.core).split

/-- The window that `fmtwin` sets; none where it raises `PROT`. -/
def fmtWindow (limit base len b : Nat) : Option Window :=
  match Fmt.ofCode (BitVec.ofNat 6 (bits b 0 6)) with
  | none => none
  | some e =>
    let blk := if bits b 6 2 = 0 then 0 else 8 * 2 ^ bits b 6 2
    let esz := fmtBits e / 8
    let so := bits b 32 32
    if !(fmtIs8 e || fmtIsIeee e) || (blk != 0 && !fmtIs8 e) || base % esz != 0 || bits b 8 24 != 0 ||
        decide (limit < base + len) || (blk != 0 && decide (limit < so + ceilDiv len (blk * esz))) then none
    else some ⟨base, len, e, blk, so, 0⟩

def execFmtwin (f : FmtA) (s : State) : Host.Outcome State Fault Refusal :=
  issueWith (.fmtwin f) s (fun x =>
    let n := f.sub.toNat % 16
    let a := x.uni f.a
    if bits a 32 32 = 0 then .done (x.s.updBlock x.b (fun k => { k with wins := k.wins.erase n })) false
    else
      match fmtWindow (spBytes x.s x.blk) (bits a 0 32) (bits a 32 32) (x.uni f.b) with
      | none => .trapOpen cProt
      | some w => .done (x.s.updBlock x.b (fun k => { k with wins := k.wins.set n w })) false)

/-! ## Operands (R46, R93, R120) -/

/-- An operand of a product: its space code, first byte, rows, pitch, elements a row, format, window. -/
structure MxOperand where
  space : Nat
  base : Nat
  rows : Nat
  pitch : Nat
  k : Nat
  efmt : Fmt
  win : Option Window
deriving DecidableEq, Repr

def MxOperand.esz (o : MxOperand) : Nat := fmtBits o.efmt / 8
/-- Bytes from the first to past the last. -/
def MxOperand.span (o : MxOperand) : Nat := (o.rows - 1) * o.pitch + o.k * o.esz

/-- The lowest-numbered window that contains a byte (R93). -/
def windowAt (wins : NMap Window) (ofs : Nat) : Option Window :=
  (NMap.vals wins).find? (fun w => decide (w.base ≤ ofs) && decide (ofs < w.base + w.len))

/-- The pitch in force: none when it breaks R120. -/
def pitchOf (pitch k esz : Nat) : Option Nat :=
  if pitch = 0 then some (k * esz) else if pitch % esz ≠ 0 ∨ pitch < k * esz then none else some pitch

/-- An operand in `sp` or `spq.n`; none when its pitch is bad. -/
def mxOperand (wins : NMap Window) (space base rows pitch k : Nat) (f : Fmt) : Option MxOperand :=
  (pitchOf pitch k (fmtBits f / 8)).map (fun p => ⟨space, base, rows, p, k, f, if space = 0 then windowAt wins base else none⟩)

/-- Are the bytes of a range there: the block's bays, or bays that the grid holds on the named core (R46)? -/
def rangeHeld (s : State) (k : Block) (space base n : Nat) : Bool :=
  if space = 0 then decide (base + n ≤ spBytes s k)
  else
    let core := 4 * quadOf k.core + (space - 4)
    let sz := bayBytes (s.core core).split
    decide (base + n ≤ splitBytes (s.core core).split) &&
      (List.range ((base + n - 1) / sz + 1 - base / sz)).all (fun i => bayHeld s k.grid core ((base / sz + i) * sz))

/-- Does an operand stay in its window, and in the stage of its first byte, with the grant's format (R93)? -/
def MxOperand.fits (o : MxOperand) : Bool :=
  match o.win with
  | none => true
  | some w =>
    o.efmt == w.efmt && decide (o.base + o.span ≤ w.base + w.len) &&
    (w.stage == 0 || (o.base - w.base) / w.stage == (o.base + o.span - 1 - w.base) / w.stage)

/-- Is the operand scaled by blocks? -/
def MxOperand.scaled (o : MxOperand) : Bool := o.win.any (fun w => w.blk != 0)

/-- Who holds the bays of a block's quad for its grid: core, bay, block. -/
def quadBays (s : State) (k : Block) : List (Nat × Nat × Nat) :=
  s.blocks.flatMap (fun e =>
    if e.2.st == .resident && e.2.grid == k.grid && quadOf e.2.core == quadOf k.core then
      e.2.bays.map (fun b => (e.2.core, b, e.1)) else [])

/-- Does the block that held a byte's bay at the issue of an operation hold it still (R121)? -/
def stillHeld (s : State) (held : List (Nat × Nat × Nat)) (core ofs : Nat) : Bool :=
  held.any (fun h => h.1 == core && h.2.1 == ofs / bayBytes (s.core core).split &&
    (s.block? h.2.2).any (fun b => b.st == .resident && b.core == core && b.bays.contains h.2.1))

/-- Bytes of an operand's space as the operation reads them; where the block that held the bay does so no longer, open
(R121). -/
def mxRead (s : State) (k : Block) (held : List (Nat × Nat × Nat)) (space ofs n : Nat) : Nat :=
  leNat ((List.range n).map (fun i =>
    match unitPlace s k (if space = 0 then 1 else space) (ofs + i) with
    | some p =>
      if space = 0 || stillHeld s held (4 * quadOf k.core + (space - 4)) (ofs + i) then (readPlace s p 1).headD 0
      else Config.freeByte s.free (ofs + i)
    | none => Config.freeByte s.free (ofs + i)))

/-- Where the scale of the element at a byte offset lies (R120). -/
def scaleAt (w : Window) (ofs : Nat) (esz : Nat) : Nat :=
  let o := ofs - w.base
  if w.stage = 0 then w.scale + o / (w.blk * esz)
  else
    let j := o / w.stage
    w.base + j * w.stage + w.scale + (o - j * w.stage) / (w.blk * esz)

/-- Element `c` of row `r`, scaled. -/
def MxOperand.elem (s : State) (k : Block) (held : List (Nat × Nat × Nat)) (o : MxOperand) (r c : Nat) : Num :=
  let ofs := o.base + r * o.pitch + c * o.esz
  let code := mxRead s k held o.space ofs o.esz
  match o.win with
  | some w => if w.blk = 0 then numOf o.efmt code else scaledNum o.efmt code (mxRead s k held 0 (scaleAt w ofs o.esz) 1)
  | none => numOf o.efmt code

/-! ## Sums (R101–R104) -/

/-- An exact sum of numbers, with R102; an exact zero is +0. -/
def exactSum (ps : List (Option Num)) : Num :=
  if ps.any (fun p => p.all Num.isNan) then .nan false
  else
    let infs := ps.filterMap (fun p => match p with
      | some (.inf n) => some n
      | _ => none)
    match infs with
    | n :: ns => if ns.all (· == n) then .inf n else .nan false
    | [] => ps.foldl (fun t p => (t.add (p.getD (.fin false 0 0)) false).getD (.nan false)) (.fin false 0 0)

/-- The exact sum of a group's products. -/
def groupSum (ps : List (Num × Num)) : Num := exactSum (ps.map (fun p => p.1.mul p.2))

/-- Adds a sum to an accumulator of a floating-point kind in one `rne` rounding. -/
def accAdd (f : Fmt) (acc : Nat) (v : Num) : Nat := (roundTo f 0 0 (((numOf f acc).add v false).getD (.nan false)) false 0).1

/-- The high and low part of an `f32` (R103). -/
def splitF32 (code : Nat) : Num × Num :=
  let x := numOf .f32 code
  match x with
  | .fin _ _ _ =>
    let hi := numOf .f32 (code / 65536 * 65536)
    let d := (x.add hi.neg false).getD (.fin false 0 0)
    (hi, numOf .bf16 (roundTo .bf16 0 0 d false 0).1)
  | _ => (x, .fin false 0 0)

/-- One group of an `f32` product (R103). -/
def groupF32 (acc : Nat) (ps : List ((Num × Num) × (Num × Num))) : Nat :=
  let a1 := accAdd .f32 acc (groupSum (ps.map (fun p => (p.1.2, p.2.1))))
  let a2 := accAdd .f32 a1 (groupSum (ps.map (fun p => (p.1.1, p.2.2))))
  accAdd .f32 a2 (groupSum (ps.map (fun p => (p.1.1, p.2.1))))

/-- ⌊log2⌋ of a nonzero number. -/
def floorLog (v : Num) : Option Int :=
  match v with
  | .fin _ m e => if m = 0 then none else some (e + (Nat.log2 m : Int))
  | _ => none

/-- The largest ⌊log2⌋ of a row or column; none when it is all zero. -/
def topLog (vs : List Num) : Option Int :=
  vs.foldl (fun t v => match t, floorLog v with
    | none, x => x
    | t, none => t
    | some a, some b => some (max a b)) none

/-- `rtz` of a number times a power of two (R104). -/
def fixedAt (v : Num) (sh : Int) : Int :=
  match v with
  | .fin n m e =>
    let q : Nat := if 0 ≤ e + sh then m * 2 ^ (e + sh).toNat else m / 2 ^ (-(e + sh)).toNat
    if n then -(q : Int) else q
  | _ => 0

/-- The 8 slices of an integer, σ0 first (R104): `s` counts down the slices still to be taken. -/
def slices : Nat → Int → List Int
  | 0, m => [m]
  | s + 1, m =>
    let r := m % 128
    let d := if 64 ≤ r then r - 128 else r
    slices s ((m - d) / 128) ++ [d]

/-- The product of two sliced numbers with its weights (R104). -/
def sliceProduct (a b : List Int) : Int :=
  (a.zipIdx.map (fun x => (b.zipIdx.map (fun y =>
    if x.2 + y.2 ≤ 8 then x.1 * y.1 * 2 ^ (7 * (14 - x.2 - y.2)) else 0)).sum)).sum

/-- The value V of an `f64` element (R104). -/
def sumF64 (row col : List Num) : Num :=
  let special := (row ++ col).any (fun v => match v with
    | .fin _ _ _ => false
    | _ => true)
  if special then groupSum (row.zip col)
  else
    match topLog row, topLog col with
    | some e, some f =>
      let t : Int := ((row.zip col).map (fun p =>
        sliceProduct (slices 7 (fixedAt p.1 (54 - e))) (slices 7 (fixedAt p.2 (54 - f))))).sum
      Num.ofScaled t (e + f - 108) false
    | _, _ => .fin false 0 0

/-! ## Tiles (R117) -/

/-- Byte offset of a tile's element. -/
def tileOfs (t m n : Nat) : Nat := 16384 * t + 4 * (64 * m + n)

/-- An element in its kind. -/
def tileGet (acc : Memory) (kind : Fmt) (t m n : Nat) : Nat :=
  acc.nat (tileOfs t m n) 4 + (if kind = .f64 then 2 ^ 32 * acc.nat (tileOfs (t + 1) m n) 4 else 0)

def tilePut (acc : Memory) (kind : Fmt) (t m n v : Nat) : Memory :=
  let acc := acc.write (tileOfs t m n) (leBytes 4 v)
  if kind = .f64 then acc.write (tileOfs (t + 1) m n) (leBytes 4 (v / 2 ^ 32)) else acc

/-- The index pairs of the granted elements, row by row. -/
def tileCells (g : Grant) : List (Nat × Nat) := (List.range g.m).flatMap (fun m => (List.range g.n).map (fun n => (m, n)))

/-- The tile that an operand names. -/
def accIdx (o : Opr) : Nat :=
  match o with
  | .acc n => n.toNat
  | _ => 0

/-- Accumulator tiles of a block's variant. -/
def tileBudget (x : Cx) : Nat := (x.variant.map (·.tiles)).getD 0

/-- The checks of a tile under a grant: `UND` for an odd pair, `PROT` beyond the budget (R11, R117). -/
def tileTrap (x : Cx) (g : Option Grant) (t : Nat) : Option Res :=
  let wide := g.any (fun g => g.a == .f64)
  if wide && t % 2 == 1 then some (.trap cUnd x.pc)
  else if tileBudget x ≤ t + (if wide then 1 else 0) then some (.trapOpen cProt)
  else none

/-! ## Issue, with or without a signature (R122, R123) -/

/-- The operand values that an operation takes. -/
def mxVals (x : Cx) (f : FmtX) : List DWord :=
  [f.a, f.b, f.c].map (fun o => if oprIsS o || oprIsSK o then BitVec.ofNat 64 (x.uni o) else 0)

/-- What an operation's issue changes in its block at once: the tile kind of an `mma`, the bypass tile (R93, R127). -/
def mxMark (k : Block) (i : Instr) (kind : Fmt) : Block :=
  match i with
  | .mma f => { k with kinds := k.kinds.set (accIdx f.d) kind }
  | .adrain f => if f.dst = 2 then { k with bypass := some (k.bypass.getD ⟨[], []⟩) } else k
  | _ => k

/-- Threads that must sign: crew and lane. -/
def signers (k : Block) (set : BitVec 16) : List (Nat × Nat) :=
  (k.crews.filter (fun e => set.getLsbD e.1)).flatMap (fun e => (lanesOf e.2.liveLanes).map (fun l => (e.1, l)))

/-- The accumulator kind that an operation takes at its issue (R93, R118). -/
def mxKind (k : Block) (i : Instr) (vals : List DWord) : Fmt :=
  match k.grant with
  | none => .f32
  | some g =>
    if g.a = .f64 then .f64
    else if g.a = .i8 ∧ g.b = .i8 then
      match i with
      | .mma f =>
        let at_ := fun (n : Nat) => (vals.getD n 0).toNat % 2 ^ 32
        let scaled := fun (space n : Nat) => space == 0 && (windowAt k.wins (at_ n)).any (fun w => w.blk != 0)
        if (f.a != .byp && scaled f.spa.toNat 0) || scaled f.spb.toNat 1 then .f32 else .i32
      | .adrain f => k.kinds.getD (accIdx (if f.dst = 1 then f.a else f.d)) .i32
      | _ => .i32
    else .f32

/-- The signed operation of a register issues once every member has signed (R122). -/
def signatureCheck (s : State) (b cv : Nat) : State :=
  match s.block? b with
  | none => s
  | some k =>
    let v := k.conv cv
    match v.cset, v.sig, v.sigOp with
    | some set, some r, some id =>
      if (signers k set).all (fun t => v.signed.contains t) then
        let kind := mxKind k r.instr r.vals
        let s := issueReady s id (.mx r.instr r.vals k.wins kind (quadBays s k))
        let s := s.updBlock b (fun k => (mxMark k r.instr kind).setConv cv { v with sig := none, signed := [], sigOp := none })
        s.updBlock b (fun k => { k with crews := k.crews.mapVals (fun j cr =>
          if set.getLsbD j then
            let lanes := cr.lanesWhere (fun t => t.wait == some (.sig cv))
            if lanes = 0 then cr else cr.resume lanes true
          else cr) })
      else s
    | _, _, _ => s

/-- A path signs a convergence register. -/
def signRes (x : Cx) (i : Instr) (vals : List DWord) (cv : Nat) : Res :=
  let v := x.blk.conv cv
  if slotBudget x.s x.blk ≤ cv then .trapOpen cProt
  else
    match v.cset with
    | none => .trapOpen cProt
    | some set =>
      if !set.getLsbD x.c || v.sig.any (fun r => r != ⟨i, vals⟩) then .trapOpen cProt
      else
        let new := (x.acts.map (fun l => (x.c, l))).filter (fun t => !v.signed.contains t)
        let seq := x.cr.seq + 1
        let first := !v.signed.any (fun t => t.1 == x.c)
        let (s, id) :=
          match v.sigOp with
          | some id =>
            let s := x.put (if first then x.cr.bump.issuedOp 2 id else x.cr.bump)
            (updOp s id (fun o => { o with issuers := o.issuers ++ [(x.c, seq)] }), id)
          | none => (issueOp x x.s 2 (.mx i vals [] .f32 []) false false, x.s.nextOp)
        let s := s.updBlock x.b (fun k =>
          k.setConv cv { v with sig := some ⟨i, vals⟩, signed := v.signed ++ new, sigOp := some id })
        let s := s.updCrew x.b x.c (fun cr =>
          let cr := cr.advance (x.lanes &&& ~~~x.act) x.nextPc true
          (cr.updThreads x.act (fun t => t.waits (.sig cv) true (s.clock x.blk.core))).crewCkpt)
        .raw (signatureCheck s x.b cv)

/-- Issues an operation of class `mx`, or signs for it. -/
def mxIssue (x : Cx) (i : Instr) (f : FmtX) : Res :=
  let vals := mxVals x f
  if f.sg then signRes x i vals f.cv.toNat
  else
    let kind := mxKind x.blk i vals
    .done ((issueOp x x.s 2 (.mx i vals x.blk.wins kind (quadBays x.s x.blk)) true false).updBlock x.b (fun k => mxMark k i kind)) false

/-! ## `mma` (R120, R124, R127, R292) -/

/-- Elements along K of an `mma`. -/
def mmaK (g : Grant) (f : FmtX) : Nat := if f.kc = 0 then g.k else f.kc.toNat * kGroup g.a

/-- The A operand in memory, and B. -/
def mmaA (g : Grant) (f : FmtX) (wins : NMap Window) (a c : Nat) : Option MxOperand :=
  mxOperand wins f.spa.toNat (a % 2 ^ 32) g.m (bits c 0 16) (mmaK g f) g.a
def mmaB (g : Grant) (f : FmtX) (wins : NMap Window) (b c : Nat) : Option MxOperand :=
  mxOperand wins f.spb.toNat (b % 2 ^ 32) g.n (bits c 16 16) (mmaK g f) g.b

/-- Is an operand in order? -/
def operandOk (s : State) (k : Block) (o : Option MxOperand) : Bool :=
  o.any (fun o => rangeHeld s k o.space o.base o.span && o.fits)

/-- The traps of an `mma` (R292). With A from the bypass tile the pitch of A in C is not looked at: the spec does not say
whether an unused one is checked (DESIGN CHOICE, log 142). -/
def mmaTrap (x : Cx) (f : FmtX) : Option Res :=
  match x.blk.grant with
  | none => some (match tileTrap x none (accIdx f.d) with
    | some r => r
    | none => .trapOpen cProt)
  | some g =>
    match (if f.skp && (g.a == .f32 || g.a == .f64) then some (.trap cUnd x.pc) else tileTrap x (some g) (accIdx f.d)) with
    | some r => some r
    | none =>
      let k := mmaK g f
      let c := x.uni f.c
      let aOk := if f.a = .byp then x.blk.bypass.isSome && k == g.n else operandOk x.s x.blk (mmaA g f x.blk.wins (x.uni f.a) c)
      let header := x.uni f.b % 2 ^ 32
      let hOk := !f.skp || (decide (32 ≤ header) && rangeHeld x.s x.blk f.spb.toNat (header - 32) 32)
      if g.k < k || !aOk || !operandOk x.s x.blk (mmaB g f x.blk.wins (x.uni f.b) c) || !hOk then some (.trapOpen cProt)
      else none

def execMma (f : FmtX) (s : State) : Host.Outcome State Fault Refusal :=
  issueWith (.mma f) s (fun x =>
    match mmaTrap x f with
    | some r => r
    | none => mxIssue x (.mma f) f)

/-- Is a chunk skipped: the bound of the row's sum times the header's bound is below the threshold (R124)? -/
def chunkSkips (row : List Num) (bound threshold : Nat) : Bool :=
  let alpha := row.foldl (fun t v =>
    (roundTo .f32 2 0 (((numOf .f32 t).add v.abs false).getD (.nan false)) false 0).1) 0
  let p := (fpMul .f32 2 0 alpha bound).1
  let (x, y) := (numOf .f32 p, numOf .f32 threshold)
  !x.isNan && !y.isNan && !(numOf .f32 bound).isNan && !(numOf .f32 alpha).isNan && x.lt y

/-- One element of a product: its accumulator after every group that is not skipped. -/
def mmaElem (g : Grant) (kind : Fmt) (acc : Nat) (row col : List Num) (codes : List (Nat × Nat)) (skips : List Nat) : Nat :=
  let kg := kGroup g.a
  let groups := (List.range (row.length / kg)).filter (fun i => !skips.contains (i * kg / 32))
  let part := fun (l : List Num) (i : Nat) => (l.drop (i * kg)).take kg
  if g.a = .f64 then accAdd .f64 acc (sumF64 row col)
  else if g.a = .f32 then
    groups.foldl (fun acc i =>
      groupF32 acc (((codes.drop (i * kg)).take kg).map (fun c => (splitF32 c.1, splitF32 c.2)))) acc
  else if kind = .i32 then
    wrapTo 32 (groups.foldl (fun (t : Int) i =>
      t + ((part row i).zip (part col i)).foldl (fun (u : Int) p => u + fixedAt p.1 0 * fixedAt p.2 0) 0) (acc : Int))
  else groups.foldl (fun acc i => accAdd .f32 acc (groupSum ((part row i).zip (part col i)))) acc

/-- The elements of the bypass tile, as an M × N operand. -/
def byElem (k : Block) (g : Grant) (m c : Nat) : Nat :=
  let esz := fmtBits g.a / 8
  (k.bypass.getD ⟨[], []⟩).nat ((m * g.n + c) * esz) esz

/-- Performs an `mma`. -/
def runMma (s : State) (b : Nat) (k : Block) (g : Grant) (f : FmtX) (vals : List DWord) (wins : NMap Window) (kind : Fmt)
    (held : List (Nat × Nat × Nat)) : State :=
  let val := fun (i : Nat) => (vals.getD i 0).toNat
  let kk := mmaK g f
  match mmaB g f wins (val 1) (val 2) with
  | none => s
  | some ob =>
    let oa := (mmaA g f wins (val 0) (val 2)).getD ob
    let byp := f.a == .byp
    let aNum := fun m => (List.range kk).map (fun c => if byp then numOf g.a (byElem k g m c) else oa.elem s k held m c)
    let aCode := fun m => (List.range kk).map (fun c =>
      if byp then byElem k g m c else mxRead s k held oa.space (oa.base + m * oa.pitch + c * oa.esz) oa.esz)
    let bNum := fun n => (List.range kk).map (fun c => ob.elem s k held n c)
    let bCode := fun n => (List.range kk).map (fun c => mxRead s k held ob.space (ob.base + n * ob.pitch + c * ob.esz) ob.esz)
    let bound := fun c => mxRead s k held ob.space (ob.base - 32 + 4 * c) 4
    let skipsOf := fun m =>
      if f.skp then (List.range (ceilDiv kk 32)).filter (fun c =>
        chunkSkips (((aNum m).drop (32 * c)).take 32) (bound c) (val 2 / 2 ^ 32))
      else []
    let rows := (List.range g.m).map (fun m => (m, aNum m, aCode m, skipsOf m))
    let acc := rows.foldl (fun acc r => (List.range g.n).foldl (fun acc n =>
      tilePut acc kind (accIdx f.d) r.1 n
        (mmaElem g kind (tileGet acc kind (accIdx f.d) r.1 n) r.2.1 (bNum n) (r.2.2.1.zip (bCode n)) r.2.2.2)) acc) k.acc
    let asked := bits g.req.toNat 0 8
    let count := ((rows.filter (fun r => decide (r.1 < asked))).map (fun r => r.2.2.2.length)).sum
    (s.updBlock b (fun k => { k with acc := acc })).updGrid k.grid (fun gr => { gr with skips := gr.skips + count })

/-! ## `aclr`, `aload` (R293) -/

def execAclr (f : FmtX) (s : State) : Host.Outcome State Fault Refusal :=
  issueWith (.aclr f) s (fun x =>
    match tileTrap x x.blk.grant (accIdx f.d) with
    | some r => r
    | none => mxIssue x (.aclr f) f)

/-- Zeroes a tile, or a pair of the kind that the operation took at its issue (R117). -/
def runAclr (s : State) (b : Nat) (f : FmtX) (kind : Fmt) : State :=
  let t := accIdx f.d
  let n := if kind = .f64 then 2 else 1
  s.updBlock b (fun k => { k with acc := k.acc.write (16384 * t) (List.replicate (16384 * n) 0) })

/-- Bytes of an `aload` element, and the pitch in force. -/
def aloadElem (g : Grant) : Nat := if g.a = .f64 then 8 else 4
def aloadPitch (g : Grant) (c : Nat) : Nat := if bits c 0 16 = 0 then g.n * aloadElem g else bits c 0 16

def execAload (f : FmtX) (s : State) : Host.Outcome State Fault Refusal :=
  issueWith (.aload f) s (fun x =>
    match tileTrap x x.blk.grant (accIdx f.d), x.blk.grant with
    | some r, _ => r
    | none, none => .trapOpen cProt
    | none, some g =>
      let c := x.uni f.c
      let row := g.n * aloadElem g
      let p := aloadPitch g c
      if c / 2 ^ 16 ≠ 0 ∨ p % 4 ≠ 0 ∨ p < row ∨ spBytes x.s x.blk < x.uni f.a % 2 ^ 32 + (g.m - 1) * p + row then .trapOpen cProt
      else mxIssue x (.aload f) f)

/-- Copies rows of raw words into a tile. -/
def runAload (s : State) (b : Nat) (k : Block) (g : Grant) (f : FmtX) (vals : List DWord) : State :=
  let e := aloadElem g
  let p := aloadPitch g (vals.getD 2 0).toNat
  let a := (vals.getD 0 0).toNat % 2 ^ 32
  let kind : Fmt := if e = 8 then .f64 else .f32
  let acc := (tileCells g).foldl (fun acc c =>
    tilePut acc kind (accIdx f.d) c.1 c.2 (mxRead s k [] 0 (a + c.1 * p + c.2 * e) e)) k.acc
  s.updBlock b (fun k => { k with acc := acc })

/-! ## `adrain` (R125–R127, R294) -/

/-- `gelu` in `f32`, each step rounded `rne` (R126). -/
def gelu (x : Nat) : Nat :=
  let mul := fun a b => (fpMul .f32 0 0 a b).1
  let add := fun a b => (fpAdd .f32 0 0 false a b).1
  let c1 := 0x3D372713
  let c2 := 0x3F4C422A
  match numOf .f32 x with
  | .nan _ => fmtNan .f32
  | .inf neg => if neg then 0 else x
  | _ =>
    let u := add x (mul c1 (mul (mul x x) x))
    let y := mul c2 u
    let y := (fpMinMax .f32 false false (fpMinMax .f32 true false y 0xC0400000).1 0x40400000).1
    let q := mul y y
    let t := (fpDiv .f32 0 0 (mul y (add 0x41D80000 q)) (add 0x41D80000 (mul 0x41100000 q))).1
    mul (mul 0x3F000000 x) (add 0x3F800000 t)

/-- The clamp bounds in the tile's kind (R125). -/
def clampBounds (kind : Fmt) (w : Nat) : Nat × Nat :=
  let widen := fun (c : Nat) => if kind = .f64 then (convert .f64 .f32 0 0 c 0).1 else c
  (widen (bits w 0 32), widen (bits w 32 32))

/-- The activation on a tile's exact value: the code it gives in the tile's kind. A NaN bound leaves it open. -/
def activate (kind : Fmt) (act w code free : Nat) : Nat :=
  let v := numOf kind code
  match act with
  | 0 => code
  | 1 => if v.isNan then code else if (Num.fin false 0 0).lt v then code else 0
  | 2 => gelu code
  | _ =>
    let (lo, hi) := clampBounds kind w
    if v.isNan then code
    else if kind = .i32 then
      let i := asInt .i32
      let m := if i lo ≤ i code then code else lo
      if i m ≤ i hi then m else hi
    else if (numOf kind lo).isNan || (numOf kind hi).isNan then (Config.freeWord free code).toNat % 2 ^ fmtBits kind
    else (fpMinMax kind false false (fpMinMax kind true false code lo).1 hi).1

/-- The tile that `adrain` reads. -/
def drainTile (f : FmtX) : Nat := accIdx (if f.dst = 1 then f.a else f.d)

/-- Elements of a register result of `adrain` that one register holds; 1 for a pair. -/
def drainPack (ty : Fmt) : Nat := if fmtBits ty < 32 then 32 / fmtBits ty else 1

/-- The destination register of a register drain. -/
def drainReg (f : FmtX) : Nat :=
  match f.d with
  | .v r => r.toNat
  | _ => 0

/-- The traps of `adrain` by destination (R294). -/
def drainTrap (x : Cx) (g : Grant) (f : FmtX) : Option Res :=
  let c := x.uni f.c
  let esz := fmtBits f.ty / 8
  if f.dst = 0 then
    let a := x.uni f.a % 2 ^ 32
    if a % esz ≠ 0 then some (.trap cAlign a)
    else
      match pitchOf (bits c 0 16) g.n esz with
      | none => some (.trapOpen cProt)
      | some p =>
        if c / 2 ^ 16 ≠ 0 ∨ spBytes x.s x.blk < a + (g.m - 1) * p + g.n * esz then some (.trapOpen cProt) else none
  else if f.dst = 1 then
    let w := bits c 16 4
    if c / 2 ^ 20 ≠ 0 ∨ (bits c 0 8 ≠ 0 ∧ bits c 0 8 ≠ 32) ∨ w = 0 ∨ 8 < w ∨ bits c 8 8 % drainPack f.ty ≠ 0 ∨
        256 < drainReg f + w ∨ (f.ty = .f64 ∧ w % 2 = 1) then some (.trapOpen cProt)
    else none
  else if f.ty ≠ g.a then some (.trapOpen cProt)
  else none

/-- Registers that a register drain writes. -/
def drainRegs (x : Cx) (f : FmtX) : List Nat := (List.range (bits (x.uni f.c) 16 4)).map (fun i => drainReg f + i)

def execAdrain (f : FmtX) (s : State) : Host.Outcome State Fault Refusal :=
  issueWith (.adrain f) s (fun x =>
    let badFormat := x.blk.grant.isSome && !drainFormat (mxKind x.blk (.adrain f) []) f.ty f.act.toNat
    match (if badFormat then some (.trap cUnd x.pc) else tileTrap x x.blk.grant (drainTile f)), x.blk.grant with
    | some r, _ => r
    | none, none => .trapOpen cProt
    | none, some g =>
      match drainTrap x g f with
      | some r => r
      | none =>
        if f.dst = 1 then
          match mxIssue x (.adrain f) f with
          | .done s ends =>
            .done (s.updCrew x.b x.c (fun cr =>
              (drainRegs x f).foldl (fun cr r => x.acts.foldl (fun cr l => cr.markEmpty r l cr.seq) cr) cr)) ends
          | r => r
        else mxIssue x (.adrain f) f)

/-- The drained value of a granted element. -/
def drainElem (k : Block) (f : FmtX) (kind : Fmt) (vals : List DWord) (free m n : Nat) : Nat :=
  let y := activate kind f.act.toNat (vals.getD 1 0).toNat (tileGet k.acc kind (drainTile f) m n) (free + 64 * m + n)
  (roundTo f.ty f.rnd.toNat f.sat.toNat (numOf kind y) false 0).1

/-- The registers of one lane: rows at or beyond M and columns at or beyond N give zero. -/
def drainLane (g : Grant) (f : FmtX) (c : Nat) (elem_ : Nat → Nat → Nat) (lane i : Nat) : Nat :=
  let row := bits c 0 8 + lane
  let get := fun (col : Nat) => if row < g.m ∧ col < g.n then elem_ row col else 0
  if f.ty = .f64 then get (bits c 8 8 + i / 2) / 2 ^ (32 * (i % 2)) % 2 ^ 32
  else
    let p := drainPack f.ty
    packElems f.ty ((List.range p).map (fun j => get (bits c 8 8 + i * p + j)))

/-- Performs an `adrain`. -/
def runAdrain (s : State) (o : EngOp) (k : Block) (g : Grant) (f : FmtX) (vals : List DWord) (kind : Fmt) : State :=
  let c := (vals.getD 2 0).toNat
  let esz := fmtBits f.ty / 8
  let el := drainElem k f kind vals s.free
  if f.dst = 0 then
    let p := (pitchOf (bits c 0 16) g.n esz).getD 0
    (tileCells g).foldl (fun s e =>
      (leBytes esz (el e.1 e.2)).zipIdx.foldl (fun s b =>
        match bayPlace s k ((vals.getD 0 0).toNat % 2 ^ 32 + e.1 * p + e.2 * esz + b.2) with
        | some pl => writePlace s pl [b.1]
        | none => s) s) s
  else if f.dst = 1 then
    match o.issuers with
    | [] => s
    | (cr, seq) :: _ =>
      s.updCrew o.blk cr (fun cr => (lanesOf o.lanes).foldl (fun cr l =>
        (List.range (bits c 16 4)).foldl (fun cr i =>
          cr.deliver ⟨true, drainReg f + i, 1, l, seq⟩ (drainLane g f c el l i)) cr) cr)
  else
    let m : Memory := (tileCells g).foldl (fun m e => m.write ((e.1 * g.n + e.2) * esz) (leBytes esz (el e.1 e.2))) ⟨[], []⟩
    s.updBlock o.blk (fun k => { k with bypass := some m })

/-- MX_OPERATION: the matrix unit performs a block's oldest operation whole (R123). -/
def execMxOperation (op : Nat) (s : State) : Host.Outcome State Fault Refusal :=
  .next (
    match op? s op with
    | none => s
    | some o =>
      if !o.started || o.stamped || o.done || (olderOps s o).any (fun q => !q.stamped && !q.done) then s
      else
        match o.kind, s.block? o.blk with
        | .mx i vals wins kind held, some k =>
          let s' :=
            match i, k.grant with
            | .mma f, some g => runMma s o.blk k g f vals wins kind held
            | .aclr f, _ => runAclr s o.blk f kind
            | .aload f, some g => runAload s o.blk k g f vals
            | .adrain f, some g => runAdrain s o k g f vals kind
            | _, _ => s
          updOp s'.draw op (fun o => { o with stamped := true })
        | _, _ => s)

end Sys2Proof.Machine
end

