-- ==== Sys2Proof/Machine/Ladder.lean ====
section
/-! DEFINITION. Ladders: passes, seals, resolving and holding versions (02_ladder R29–R39; 16_isa_control R295–R297). -/

namespace Sys2Proof.Machine

open Sys2Proof

/-! ## Headers and tile entries (R31) -/

/-- A ladder header's fields. -/
structure LHeader where
  base : Nat
  tsize : Nat
  tcount : Nat
  floor : Nat
  fq : Nat
  ctl : Nat
  seals : List Nat
  minq : List Nat
deriving DecidableEq, Repr

def lheader (n : Nat) : LHeader :=
  ⟨bits n 0 64, bits n 64 32, bits n 96 32, bits n 128 16, bits n 144 16, bits n 160 32,
    (List.range 4).map (fun i => bits n (192 + 32 * i) 32), (List.range 4).map (fun i => bits n (320 + 16 * i) 16)⟩

/-- The 64 bytes of a header; the reserved ones are zero. -/
def LHeader.bytes (h : LHeader) : List Byte :=
  leBytes 8 h.base ++ leBytes 4 h.tsize ++ leBytes 4 h.tcount ++ leBytes 2 h.floor ++ leBytes 2 h.fq ++ leBytes 4 h.ctl ++
    h.seals.flatMap (leBytes 4) ++ h.minq.flatMap (leBytes 2) ++ leBytes 16 0

def LHeader.slots (h : LHeader) : Nat := h.ctl % 4
def LHeader.isOpen (h : LHeader) : Bool := bitAt h.ctl 2
def LHeader.cut (h : LHeader) : Bool := bitAt h.ctl 3
/-- Neither `CUT` nor `DONE` is set. -/
def LHeader.live (h : LHeader) : Bool := !h.cut && !(bitAt h.ctl 4)

/-- Hold count of a slot in a tile entry. -/
def holdOf (e j : Nat) : Nat := bits e (32 + 8 * j) 8

/-- The header and one tile entry of a ladder by its header's virtual address. -/
def readLadder (s : State) (ctx hdr tile : Nat) : Except AccFault (LHeader × Nat × State) :=
  match fetchNat s ctx hdr 64 with
  | .error e => .error e
  | .ok (h, s) => (fetchNat s ctx (hdr + 64 + 8 * tile) 8).map (fun r => (lheader h, r.1, r.2))

/-- Writes a tile entry, or a header with one, in one atomic update (R389). -/
def writeEntry (s : State) (ctx hdr tile e : Nat) : State :=
  match s.ctxs.find? ctx with
  | some c => writeVirt s c (hdr + 64 + 8 * tile) (leBytes 8 e)
  | none => s
def writeHeader (s : State) (ctx hdr : Nat) (h : LHeader) : State :=
  match s.ctxs.find? ctx with
  | some c => writeVirt s c hdr h.bytes
  | none => s

/-! ## `pass` (R32, R33, R296) -/

def execPass (f : FmtE) (s : State) : Host.Outcome State Fault Refusal :=
  issueWith (.pass f) s (fun x =>
    let k := x.uni f.a
    match x.g.ladder with
    | none => .trapOpen cSeal
    | some l =>
      if x.blk.pass = some k then .done x.s false
      else
        match fetchNat x.s x.g.ctx (tileEntry l x.blk.lin) 8 with
        | .error e => .xfault e.cause e.va 0
        | .ok (e, s) =>
          let last := bits e 0 16
          if 65534 < k ∨ k ≠ (if last = 0xFFFF then 0 else last + 1) then .trapOpen cSeal
          else .raw (parkAt x s (.pass k)))

/-- Has a crew arrived at something: each of its non-exited threads waits for it, or has left its arrival standing
(R296, R361)? -/
def Block.arrivedAt (k : Block) (c : Nat) (cr : Crew) (w : Wait) : Bool :=
  cr.threads.all (fun e => e.2.exited || e.2.wait == some w ||
    k.standing.any (fun a => a.1 == c && a.2.1 == w && a.2.2.1.getLsbD e.1))

/-- What the block's crews have all arrived at, of what its threads wait for or have left standing. -/
def blockWait (k : Block) : Option Wait :=
  let ws := k.crews.vals.flatMap (fun cr => cr.threads.vals.filterMap (fun t => if t.exited then none else t.wait))
  (ws ++ k.standing.map (fun a => a.2.1)).find? (fun w => k.crews.all (fun e => k.arrivedAt e.1 e.2 w))

/-- Releases every thread of a block that waits for something, and what was left standing of it. -/
def releaseBlock (k : Block) (w : Wait) (ends : Bool) : Block :=
  { k with
    standing := k.standing.filter (fun a => a.2.1 != w)
    crews := k.crews.mapVals (fun _ cr =>
      let lanes := cr.lanesWhere (fun t => t.wait == some w)
      if lanes = 0 then cr else cr.resume lanes ends) }

/-- May pass `k` open: the floor has come far enough and its slot is not held (R32)? -/
def passMayOpen (h : LHeader) (e k s : Nat) : Bool :=
  (decide (k + 2 ≤ s) || (h.floor != 0xFFFF && decide (k + 1 ≤ h.floor + s))) && holdOf e (k % s) == 0

/-- PASS_OPEN: all crews have arrived; `PO` is set in one update, and the crews go on (R32). -/
def execPassOpen (blk : Nat) (s : State) : Host.Outcome State Fault Refusal :=
  .next (
    match s.block? blk with
    | none => s
    | some k =>
      match (s.grid? k.grid), blockWait k with
      | some g, some (.pass n) =>
        match g.ladder with
        | none => s
        | some l =>
          if g.st != .running || k.st != .resident then s
          else
            match readLadder s g.ctx l.hdr k.lin with
            | .error _ => s
            | .ok (h, e, s) =>
              if h.cut || !passMayOpen h e n l.s then s
              else
                (writeEntry s g.ctx l.hdr k.lin (e ||| 2 ^ 56)).updBlock blk (fun k =>
                  { releaseBlock k (.pass n) false with pass := some n })
      | _, _ => s)

/-! ## `seal` (R35, R296) -/

/-- A crew that has now arrived at `seal` gives the block its quality (R35). -/
def Block.sealArrive (k : Block) (c : Nat) : Block :=
  match k.crews.find? c with
  | some cr => if !cr.allExited && k.arrivedAt c cr .seal then { k with sealQ := cr.sealQ } else k
  | none => k

def execSeal (f : FmtE) (s : State) : Host.Outcome State Fault Refusal :=
  issueWith (.seal f) s (fun x =>
    let q := x.uni f.a
    if x.g.ladder.isNone || x.blk.pass.isNone then .trapOpen cSeal
    else if q / 2 ^ 16 ≠ 0 then .trapOpen cProt
    else
      let cr := x.cr.advance (x.lanes &&& ~~~x.act) x.nextPc true
      let cr := (cr.updThreads x.act (fun t => t.waits .seal true (x.s.clock x.blk.core))).crewCkpt
      let cr := { cr with sealQ := some q }
      .raw ((x.put cr).updBlock x.b (fun k => k.sealArrive x.c)))

/-- The segments and the stamp that a block's arrivals have given a collective copy which waits for its last arrival
(R257). -/
def pendingCopy (k : Block) (id : Nat) : List Seg × List (Nat × Nat × Nat) :=
  match k.convs.vals.find? (fun v => v.copyOp == some id) with
  | none => ([], [])
  | some v =>
    let fs := v.copyFields.getD (0, 0)
    (v.copies.map (fun a => ⟨fs.1 % 8, a.dst, fs.1 / 8 % 8, a.src, a.len⟩),
      v.copies.filterMap (fun a => a.stamp.map (fun st => (fs.2, st.1, st.2))))

/-- Does an operation of a block write into its tile's slots? -/
def opTouchesTile (s : State) (k : Block) (g : Grid) (l : Ladder) (o : EngOp) : Bool :=
  let lo := l.slotAddr k.lin 0
  let hit := fun (va n : Nat) => decide (va < lo + l.s * l.tsize) && decide (lo < va + n)
  match o.kind with
  | .copy segs st =>
    let (more, stamps) := if o.ready then ([], []) else pendingCopy k o.id
    (segs ++ more).any (fun q => q.dsp == 0 && hit q.dst q.len) ||
      (st.toList ++ stamps).any (fun t => t.1 == 0 && hit t.2.1 8)
  | .stream dir core =>
    dir == 1 && (match chanOf (s.core core) 1 with
      | some ch => ch.op == o.id && (match inForce ch.lay ch.fmt with
          | some f => drainTouches s g.ctx ch.lay f ch.start hit
          | none => false)
      | none => false)
  | .gather scat size _ addrs => scat && addrs.any (fun e => hit e.2 (gatherBytes size))
  | .coll _ _ _ _ dst len => hit dst len
  | _ => false

/-- Every store and atomic of the crew is performed, and every load. -/
def Crew.drained (cr : Crew) : Bool := cr.storePath.isEmpty && cr.loads.isEmpty

/-- The committed header and tile entry (R35). -/
def commitSeal (h : LHeader) (e k q : Nat) : LHeader × Nat :=
  let e := bits e 32 24 * 2 ^ 32 + q * 2 ^ 16 + k
  let i := k % 4
  let n := (h.seals.getD i 0 + 1) % 2 ^ 32
  let m := min (h.minq.getD i 0xFFFF) q
  if n = h.tcount then ({ h with floor := k, fq := m, seals := h.seals.set i 0, minq := h.minq.set i 0xFFFF }, e)
  else ({ h with seals := h.seals.set i n, minq := h.minq.set i m }, e)

/-- SEAL_COMMIT: every crew has arrived, the engine writes of the tile and every older access are complete; the seal is
committed in one update (R35). -/
def execSealCommit (blk : Nat) (s : State) : Host.Outcome State Fault Refusal :=
  .next (
    match s.block? blk with
    | none => s
    | some k =>
      match s.grid? k.grid, blockWait k with
      | some g, some .seal =>
        match g.ladder, k.pass, k.sealQ with
        | some l, some n, some q =>
          if g.st != .running || k.st != .resident || !k.crews.vals.all (·.drained) ||
              s.ops.any (fun o => o.blk == blk && o.pkt.isNone && !o.done && opTouchesTile s k g l o) then s
          else
            match readLadder s g.ctx l.hdr k.lin with
            | .error _ => s
            | .ok (h, e, s) =>
              if h.cut then s
              else
                let s := phaseBoundary s blk
                let (h, e) := commitSeal h e n q
                let s := writeHeader (writeEntry s g.ctx l.hdr k.lin e) g.ctx l.hdr h
                s.updBlock blk (fun k => { releaseBlock k .seal true with pass := none, sealQ := none })
        | _, _, _ => s
      | _, _ => s)

/-! ## `lres`, `lhold`, `ldrop` (R37, R38, R297) -/

/-- What `lres` answers: slot address, version with quality, and whether there is a version (R37). -/
def resolve (h : LHeader) (e t : Nat) : Nat × Nat × Bool :=
  let v := if h.isOpen then bits e 0 16 else h.floor
  let q := if h.isOpen then bits e 16 16 else h.fq
  if v = 0xFFFF then (0, 0xFFFF, false)
  else (h.base + (t * h.slots + v % h.slots) * h.tsize, v + 2 ^ 16 * q, true)

/-- The version of an answer. -/
def resolved (h : LHeader) (e : Nat) : Nat := if h.isOpen then bits e 0 16 else h.floor

/-- Writes the pair and the predicate in every lane of the path; an acquire with `acq`. -/
def ladderAnswer (x : Cx) (f : FmtE) (r : Nat × Nat × Bool) (acq : Bool) (s : State) : Res :=
  .done (s.updCrew x.b x.c (fun cr =>
    let hi := match f.d with
      | .s n => Opr.s (n + 1)
      | o => o
    let cr := (cr.putOpr f.d 2 0 r.1).putOpr hi 2 0 r.2.1
    let cr := cr.putPd f.pd x.lanes (if r.2.2 then BitVec.allOnes 32 else 0)
    if acq then let cr := cr.bump; cr.acquire cr.seq false else cr)) false

/-- The header and tile entry that the instruction names, or its trap. `none` for an address without a ladder. -/
def ladderOperand (x : Cx) (f : FmtE) (acc : Acc) : Except Res (Option (LHeader × Nat × Nat) × State) :=
  let a := x.uni f.a
  let t := x.uni f.b
  if a % 64 ≠ 0 then .error (.trap cAlign a)
  else
    match physOf x.s x.g.ctx a .read with
    | .error e => .error (.xfault e.cause e.va 0)
    | .ok (p, s) =>
      if 2 ^ 32 ≤ t then .error (.trapOpen cProt)
      else if !s.ladders.contains p then .ok (none, s)
      else
        match fetchNat s x.g.ctx a 64 with
        | .error e => .error (.xfault e.cause e.va 0)
        | .ok (n, s) =>
          let h := lheader n
          if h.tcount ≤ t then .error (.trapOpen cProt)
          else
            match physOf s x.g.ctx (a + 64 + 8 * t) acc with
            | .error e => .error (.xfault e.cause e.va (accBits acc))
            | .ok (_, s) =>
              match fetchNat s x.g.ctx (a + 64 + 8 * t) 8 with
              | .error e => .error (.xfault e.cause e.va 0)
              | .ok (e, s) => .ok (some (h, e, t), s)

/-- An address that holds no ladder: the results are open (R297). -/
def openAnswer (x : Cx) (f : FmtE) (s : State) : Res :=
  ladderAnswer x f ((Config.freeWord s.free 0).toNat, (Config.freeWord s.free 1).toNat,
    Config.freeChoice s.free 2 % 2 == 0) true s.draw

def execLres (f : FmtE) (s : State) : Host.Outcome State Fault Refusal :=
  issueWith (.lres f) s (fun x =>
    match ladderOperand x f .read with
    | .error r => r
    | .ok (none, s) => openAnswer x f s
    | .ok (some (h, e, t), s) => ladderAnswer x f (resolve h e t) true s)

def execLhold (f : FmtE) (s : State) : Host.Outcome State Fault Refusal :=
  issueWith (.lhold f) s (fun x =>
    match ladderOperand x f .write with
    | .error r => r
    | .ok (none, s) => openAnswer x f s
    | .ok (some (h, e, t), s) =>
      let j := resolved h e % h.slots
      -- an atomic: everything older in the crew's Store Path is performed first (R52)
      if !x.cr.storePath.isEmpty then .stall s
      else if !h.live || !(resolve h e t).2.2 then ladderAnswer x f (resolve h e t) true s
      else if holdOf e j = 255 then .stall s
      else ladderAnswer x f (resolve h e t) true (writeEntry s x.g.ctx (x.uni f.a) t (e + 2 ^ (32 + 8 * j))))

def execLdrop (f : FmtE) (s : State) : Host.Outcome State Fault Refusal :=
  issueWith (.ldrop f) s (fun x =>
    let v := x.uni f.c
    match ladderOperand x f .write with
    | .error r => r
    | .ok (none, s) => if v / 2 ^ 16 ≠ 0 then .trapOpen cProt else openAnswer x f s
    | .ok (some (h, e, t), s) =>
      let j := v % h.slots
      if v / 2 ^ 16 ≠ 0 then .trapOpen cProt
      else if !x.cr.storePath.isEmpty then .stall s
      else if !h.live then ladderAnswer x f (resolve h e t) true s
      else if holdOf e j = 0 then .trapOpen cSeal
      else
        ladderAnswer x f (holdOf e j - 1, 2 ^ 64 - 1, true) false
          (writeEntry s x.g.ctx (x.uni f.a) t (e - 2 ^ (32 + 8 * j))))

end Sys2Proof.Machine
end

