-- ==== Sys2Proof/Machine/Control.lean ====
section
/-! DEFINITION. Control transfer, exits, regions, traps by instruction and the return from a handler (R20–R26, R63,
R115, R171, R223, R224; 16_isa_control R272–R285). -/

namespace Sys2Proof.Machine

open Sys2Proof

/-- The instruction at a slot of a grid's code, when it can be fetched and decoded. -/
def slotInstr (s : State) (g : Grid) (pc : Nat) : Option Instr :=
  match fetchLine s g pc with
  | (.ok _ _ _ _, line) =>
    match decode (lineSlot line (pc % 64 / 12)) with
    | .ok i => some i
    | .error _ => none
  | _ => none

/-! ## Branches (R171, R272–R274) -/

/-- Why a branch may not go to a target. -/
inductive BranchFault where
  | btgt
  | access (cause : Nat)
deriving DecidableEq, Repr

/-- Does the slot hold `region`? -/
def holdsRegion (line slot : Nat) : Bool :=
  match decode (lineSlot line slot) with
  | .ok (.region _) => true
  | _ => false

/-- The checks of a target (R171), a target that is not canonical first: `bit` when its target bit is required, `always` when it must be a region head
whatever its place, `slotBits` when bits 5:0 are checked. -/
def checkTarget (x : Cx) (tgt : Nat) (bit always slotBits : Bool) : Option BranchFault :=
  let back := decide (slotIndex tgt ≤ slotIndex x.pc)
  if !canonical tgt then some (.access cProt)
  else if slotBits && !isSlot tgt then some .btgt
  else if !bit && !back then none
  else
    match fetchLine x.s x.g tgt with
    | (.pf, _) => some (.access cPf)
    | (.prot, _) => some (.access cProt)
    | (.ok _ _ _ _, line) =>
      let sl := tgt % 64 / 12
      if (bit && !slotTarget line sl) || ((always || back) && !holdsRegion line sl) then some .btgt else none

/-- The slot a branch offset names, wrapping in the address space (R169). -/
def slotTo (pc : Nat) (offs : BitVec 32) : Nat :=
  slotAddr (((slotIndex pc : Int) + offs.toInt) % (5 * 2 ^ 58)).toNat

/-- Moves the active threads to their targets after the checks; with a link, writes the address of the slot that
follows first. -/
def branchRes (x : Cx) (i : Instr) (tgt : Nat → Nat) (bit always slotBits : Bool) (link : Option Opr) : Res :=
  match x.acts.findSome? (fun l => (checkTarget x (tgt l) bit always slotBits).map (fun e => (l, e))) with
  | some (l, .btgt) => .trap cBtgt (tgt l)
  | some (l, .access c) =>
    if c = cPf then .raw (({ x with late := false } : Cx).xlatFault i cPf (tgt l) 2) else .trap c (tgt l)
  | none =>
    let cr :=
      match link with
      | none => x.cr
      | some (.s r) => x.cr.putOpr (.s r) 2 0 x.nextPc
      | some d => x.acts.foldl (fun cr l => cr.putOpr d 2 l x.nextPc) x.cr
    let cr := cr.advance x.lanes x.nextPc false
    .raw (x.put (x.acts.foldl (fun cr l => cr.updThread l (fun t => { t with pc := tgt l })) cr))

/-- The address that an operand supplies in a lane. -/
def addrOf (x : Cx) (o : Opr) (l : Nat) : Nat := x.val o 2 l (fun c => wrapTo 64 c.toInt)

def execBra (f : FmtC) (s : State) : Host.Outcome State Fault Refusal :=
  issueWith (.bra f) s (fun x => branchRes x (.bra f) (fun _ => slotTo x.pc f.offs) true false false none)
def execBrx (f : FmtC) (s : State) : Host.Outcome State Fault Refusal :=
  issueWith (.brx f) s (fun x => branchRes x (.brx f) (addrOf x f.a) true false true none)
def execCall (f : FmtC) (s : State) : Host.Outcome State Fault Refusal :=
  issueWith (.call f) s (fun x => branchRes x (.call f) (fun _ => slotTo x.pc f.offs) true true false (some f.d))
def execCallx (f : FmtC) (s : State) : Host.Outcome State Fault Refusal :=
  issueWith (.callx f) s (fun x => branchRes x (.callx f) (addrOf x f.a) true true true (some f.d))
def execRet (f : FmtC) (s : State) : Host.Outcome State Fault Refusal :=
  issueWith (.ret f) s (fun x => branchRes x (.ret f) (addrOf x f.a) false false true none)

def execNop (f : FmtC) (s : State) : Host.Outcome State Fault Refusal := issueWith (.nop f) s (fun x => .done x.s false)

/-! ## Regions (R22–R25, R63, R223, R276, R277, R279) -/

/-- Is every register of the marked extended blocks full (R223)? -/
def marksFull (cr : Crew) : Bool := cr.empty.all (fun e => 256 ≤ e.1 / 32 || e.1 / 32 < 64 || !cr.xmark.getLsbD (e.1 / 32 / 64 - 1))

/-- The marked blocks return to the pool. -/
def Crew.dropMarked (cr : Crew) : Crew :=
  let keep := fun (k : Nat) => let r := k / 32; decide (r < 64) || decide (256 ≤ r) || !cr.xmark.getLsbD (r / 64 - 1)
  { cr with xheld := cr.xheld &&& ~~~cr.xmark, xmark := 0, v := cr.v.keep keep, held := cr.held.keep keep }

/-- The threads of a set take a checkpoint where they stand; a thread that is back at its head keeps its counts. -/
def Crew.takeHeads (cr : Crew) (lanes : Lanes) (pc : Nat) (f : FmtG) : Crew :=
  { cr with threads := cr.threads.mapVals (fun l t =>
      if lanes.getLsbD l then
        let again := t.atHead && t.head.pc == pc
        { t with
          head := cr.checkpoint l pc f.li f.ws f.bay t.dctr
          cnt := if again then t.cnt else Counts.zero
          skip := if again then t.skip else Counts.zero
          headDue := false, bars := [] }
      else t) }

def execRegion (f : FmtG) (s : State) : Host.Outcome State Fault Refusal :=
  issueWith (.region f) s (fun x =>
    if x.cr.inHandler then .done x.s false
    else if !marksFull x.cr then .stall x.s
    else
      let s := x.s.updBlock x.b (fun k => { k with fresh := false })
      .done (s.setCrew x.b x.c ((x.cr.dropMarked.takeHeads x.lanes x.pc f).crewCkpt)) false)

/-- Has the instruction before a thread's implicit head still to write a register: one of the lane is empty, or one is
interlocked, for it? -/
def resultsPending (cr : Crew) (lane : Nat) (t : Thread) : Bool :=
  cr.empty.any (fun e => e.1 % 32 == lane && e.2 == t.head.seq) || cr.locks.any (fun l => l.tag == t.head.seq)

/-- IMPLICIT_HEAD: the instruction that ended the region has written all its results, so the implicit heads of its threads
are complete (R277). -/
def execImplicitHead (blk crew : Nat) (s : State) : Host.Outcome State Fault Refusal :=
  .next (s.updCrew blk crew (fun cr =>
    { cr with threads := cr.threads.mapVals (fun l t =>
        if t.headDue && !resultsPending cr l t then { t with headDue := false } else t) }))

/-! ## The end of handlers (R284, R361) -/

/-- Is what a thread waits for already past: a barrier's generation, or a signed operation? -/
def waitOver (s : State) (k : Block) (c lane : Nat) (w : Wait) : Bool :=
  match w with
  | .bar scp cv _ (some gen) => barGenOf s k scp cv != gen
  | .sig cv => !(k.conv cv).signed.contains (c, lane)
  | _ => false

/-- A request for register blocks that no thread of its crew waits for any more leaves the line. -/
def dropRequests (s : State) (core b c : Nat) : State :=
  let stands := fun (m : Nat) => (s.crew? b c).any (fun cr => cr.acquiring m != 0)
  s.setCore core { s.core core with
    acqWait := (s.core core).acqWait.filter (fun e => e.1 != b || e.2.1 != c || stands e.2.2) }

/-- Threads of a set that wait again after a `DLK` handler: those whose wait is past go on, a waiter for register blocks
joins the line again; the wait that a probe counts starts now (R361). -/
def waitAgain (s : State) (b c : Nat) (lanes : Lanes) : State :=
  match s.block? b, s.crew? b c with
  | some k, some cr =>
    let past := lanes &&& maskOf ((cr.threads.filter (fun e => e.2.wait.any (waitOver s k c e.1))).map Prod.fst)
    let sigs := cr.lanesWhere (fun t => match t.wait with
      | some (.sig _) => true
      | _ => false)
    let cr := ((cr.resume (past &&& ~~~sigs) false).resume (past &&& sigs) true)
    let cr := if past &&& ~~~sigs = 0 then cr else let cr := cr.bump; cr.acquire cr.seq false
    let cr := cr.updThreads lanes (fun t => match t.wait with
      | some (.regacq _) => { t with wait := none }
      | some w => t.waits w t.arrived (s.clock k.core)
      | none => t)
    dropRequests (s.setCrew b c cr) k.core b c
  | _, _ => s

/-- Ends the handler once no handler thread is left: the interrupted threads resume and the slot's trap bank is free. -/
def handlerEnd (s : State) (b c : Nat) : State :=
  match s.block? b, s.crew? b c with
  | some k, some cr =>
    match cr.handler with
    | some h =>
      if h.live ≠ 0 then s
      else
        let ends := cr.lanesWhere (fun t => !t.exited && t.iends)
        let cr := (leaveHandler cr h).updThreads ends (fun t => { t with iends := false })
        let s := s.setCrew b c (if ends = 0 then cr else cr.implicitHeads ends)
        let sl := s.slot k.core cr.slot
        waitAgain (s.setSlot k.core cr.slot { sl with busy := none }) b c h.trap.lanes
    | none => s
  | _, _ => s

/-- Does a block-collective instruction of `pass` and `seal` or `switchpt` make a thread wait? -/
def Wait.collective : Wait → Bool
  | .pass _ | .seal | .switchPt _ => true
  | _ => false

/-- `trapret.skip` at a `pass`, `seal` or `switchpt` that a thread waits in: its arrival stands (R361). -/
def Block.leaveStanding (k : Block) (c : Nat) (cr : Crew) (lanes : Lanes) : Block :=
  { k with
    standing := k.standing ++ (lanesOf lanes).filterMap (fun l =>
      (((cr.threads.find? l).bind (·.iwait)).filter Wait.collective).map (fun w => (c, w, 1#32 <<< l, cr.seq + 1)))
    crews := k.crews.mapVals (fun j o => if j = c then o.bump else o) }

/-- How often a thread has passed a switch point. -/
def Thread.passed (t : Thread) (id : Nat) : Nat := t.sw.getD id 0

/-- A switch point that `trapret.skip` leaves out counts as passed in its threads, and in the crew once every live thread
has passed it as often: the point is none that others still wait for this crew at (R133). -/
def Crew.skipPoint (cr : Crew) (id : Nat) (lanes : Lanes) : Crew :=
  let cr := cr.updThreads lanes (fun t => { t with sw := t.sw.set id (t.passed id + 1) })
  let ns := (cr.threads.vals.filter (fun t => !t.exited)).map (·.passed id)
  match ns with
  | [] => cr
  | n :: ns => { cr with swCount := cr.swCount.set id (max (cr.swCount.getD id 0) (ns.foldl min n)) }

/-- The switch points that `trapret.skip` leaves out: those at which a thread has not arrived (one that has leaves its
arrival standing). -/
def skipPoints (s : State) (g : Grid) (cr : Crew) (lanes : Lanes) : Crew :=
  (lanesOf lanes).foldl (fun c l =>
    match (cr.threads.find? l).filter (fun t => !(t.iwait.any Wait.collective)) with
    | none => c
    | some t =>
      match slotInstr s g t.ipc with
      | some (.switchpt f) => c.skipPoint f.imm16.toNat (1#32 <<< l)
      | _ => c) cr

def execTrapret (f : FmtS) (s : State) : Host.Outcome State Fault Refusal :=
  issueWith (.trapret f) s (fun x =>
    let skip := f.sub == 1
    match x.cr.handler with
    | none => .trap cUnd x.pc
    | some h =>
      if skip && h.trap.resume == 2 then .trapOpen cProt
      else
        let leaves := skip && h.trap.resume == 0
        let cr := endHandlerThreads (if leaves then skipPoints x.s x.g x.cr x.act else x.cr) h x.act skip (x.s.clock x.blk.core)
        let s := x.put cr
        let s := if leaves then s.updBlock x.b (fun k => k.leaveStanding x.c x.cr x.act) else s
        .raw (handlerEnd s x.b x.c))

/-! ## `exit` (R260, R275, R284) -/

/-- Crews that have arrived at a switch point look again whether every crew has (R133, R275). -/
def switchWake (k : Block) : Block :=
  { k with crews := k.crews.mapVals (fun c cr =>
      cr.updThreads cr.liveLanes (fun t =>
        match t.wait with
        | some (.switchPt id) => if k.arrivedAt c cr (.switchPt id) then { t with wait := some .retry } else t
        | _ => t)) }

/-- What the exit of threads of crew `c` may complete: barriers, collective copies, signed operations, its arrival at
`seal`, switch points. -/
def afterExit (s : State) (b c : Nat) : State :=
  match s.block? b with
  | none => s
  | some k =>
    let s := k.convs.keys.foldl (fun s cv => signatureCheck (copycCheck (coreBarCheck s b cv) b cv) b cv) s
    let s := k.barCrews.keys.foldl (fun s key => blockBarCheck s b (key / 512) (key % 512)) s
    (s.updBlock b (fun k => k.sealArrive c)).updBlock b switchWake

/-- Threads exit; pending writes of theirs are discarded. The last thread's exit is a release (R57). -/
def Crew.exitLanes (cr : Crew) (lanes : Lanes) (now : Nat) : Crew :=
  let cr := cr.updThreads lanes (fun t => { t with exited := true, wait := none, since := some now })
  let cr := { cr with empty := cr.empty.keep (fun k => !lanes.getLsbD (k % 32)) }
  if cr.allExited then let cr := cr.bump; cr.push [.marker cr.seq .exit] else cr

/-- The oldest protection fault that a crew holds. -/
def oldestFault (cr : Crew) : Option EngFault := eldest cr.faults

def execExit (f : FmtC) (s : State) : Host.Outcome State Fault Refusal :=
  issueWith (.exit f) s (fun x =>
    let last := x.cr.liveLanes &&& ~~~x.act == 0
    match x.cr.handler with
    | some h =>
      let now := x.s.clock x.blk.core
      let cr := (endHandlerThreads x.cr h x.act false now).exitLanes x.act now
      let cr := cr.advance (x.lanes &&& ~~~x.act) x.nextPc false
      let s := afterExit (handlerEnd (x.put cr) x.b x.c) x.b x.c
      .raw (if last && !x.cr.faults.isEmpty then endGrid s x.blk.grid .faulted else s)
    | none =>
      match (if last then oldestFault x.cr else none) with
      | some e =>
        -- path B's instruction has no effect once path A has trapped (R178)
        if x.cr.trap.isSome then .raw x.s else
        let cr := { x.cr with faults := x.cr.faults.filter (fun o => o.op != e.op) }
        .raw (({ x with s := x.put cr, cr := cr } : Cx).raise cProt e.taddr 0 0 false e.acc)
      | none =>
        let cr := (x.cr.advance (x.lanes &&& ~~~x.act) x.nextPc false).exitLanes x.act (x.s.clock x.blk.core)
        .raw (afterExit (x.put cr) x.b x.c))

/-! ## `trap`, `brk` (R283) -/

def execTrap (f : FmtS) (s : State) : Host.Outcome State Fault Refusal :=
  issueWith (.trap f) s (fun _ => .trapImm cSw f.imm16.toNat 1)
def execBrk (f : FmtS) (s : State) : Host.Outcome State Fault Refusal :=
  issueWith (.brk f) s (fun x =>
    if (x.s.ctxs.find? x.g.ctx).any (·.debug) then .trapImm cDbg f.imm16.toNat 1 else .done x.s false)

end Sys2Proof.Machine
end

