-- ==== Sys2Proof/Machine/Fetch.lean ====
section
/-! DEFINITION. Fetching an instruction (R167–R171), the passing of time between the agenda's steps, and a machine that
has one instruction to issue. -/

namespace Sys2Proof.Machine

open Sys2Proof

/-- What the fetch at the issuing path's program counter gives. -/
inductive Fetched where
  /-- no thread of the path stands there any more -/
  | gone
  | instr (i : Instr)
  /-- the fetch itself raises a cause -/
  | fault (s : State)

/-- The guard fields of a word, decoded or not (R173). -/
def wordGuard (w : BitVec 96) : Guard := ⟨w.getLsbD 14, w.extractLsb' 10 4⟩

/-- A path whose word cannot be executed: the threads that its guard makes active trap (R168, R173). -/
def undWord (s : State) (x : Cx) (w : BitVec 96) : State :=
  ((Cx.of s (wordGuard w)).getD x).raise cUnd x.pc 0 0 false

/-- Does an instruction pass the checks that come before those of its target (R178)? -/
def reachesTarget (x : Cx) (i : Instr) : Bool :=
  legal i && !handlerUnd x.cr i &&
    (activeLanes x.cr i.body.guard x.lanes == 0 || (namedV x.cr i).all x.cr.holds)

/-- The line and slot of a path, checked and decoded (R168, R170). -/
def fetch (s : State) : Fetched :=
  match Cx.of s ⟨false, 15⟩ with
  | none => .gone
  | some x =>
    let entry := (x.variant.map (·.entry)).getD x.pc
    match fetchLine s x.g x.pc with
    | (.pf, _) => .fault (({ x with late := false } : Cx).xlatFault (.nop ⟨⟨false, 15⟩, 0, 0, .zero, false, .zero⟩) cPf x.pc 2)
    | (.prot, _) => .fault (x.raise cProt x.pc 0 0 false 2)
    | (.ok _ _ _ _, line) =>
      let sl := x.pc % 64 / 12
      if !lineWordOk line || !slotOk line sl || !isSlot x.pc then .fault (undWord s x (lineSlot line sl))
      else
        match decode (lineSlot line sl) with
        | .error _ => .fault (undWord s x (lineSlot line sl))
        | .ok i =>
          let isRegion := match i with
            | .region _ => true
            | _ => false
          if x.blk.fresh && x.pc == entry && !(slotTarget line sl && isRegion) && reachesTarget x i then
            .fault (({ x with s := s.updBlock x.b (fun k => { k with fresh := false }) } : Cx).raise cBtgt x.pc 0 0 false 2)
          else .instr i

/-- Fiftieths of a cycle that pass in one ns on a die: 47 at 940 MHz, fewer while firmware lowers the clock (R2, R388). -/
def clockRate (d : Nat) (x : Die) : Nat :=
  match x.throttled with
  | none => 47
  | some n => Config.throttledRate n d % 47

/-- Nanoseconds pass (R2, R28). -/
def elapse (s : State) (ns : Nat) : State :=
  let s := { s with time := s.time + ns }
  (List.range 4).foldl (fun s d =>
    let x := s.die d
    s.setDie d { x with clk := x.clk + ns * clockRate d x }) s

/-! ## A machine with one instruction to issue -/

/-- A thread at a slot with nothing behind it. -/
def Thread.at_ (pc lane : Nat) (fold : Nat) (lin cn cpb : Nat) : Thread :=
  { pc := pc, exited := false,
    ltid := (List.range fold).map (fun k => BitVec.ofNat 64 (lin * 65536 + 32 * cn + lane + k * 32 * cpb)),
    dctr := List.replicate fold 0,
    head := { pc := pc, seq := 0, li := 0, ws := 0, bay := 0, v := [], empty := [], p := [], dctr := List.replicate fold 0,
              sw := [], pops := [] },
    cnt := Counts.zero, skip := Counts.zero, wait := none, since := none, atHead := true, ipc := 0, iwait := none, iends := false,
    arrived := false, headDue := false, sw := [], bars := [], gone := [] }

/-- A crew whose threads stand at a slot; unwritten registers are free values of draw `n`, or zero. -/
def Crew.at_ (pc fold lin cn cpb slot : Nat) (n : Option Nat) : Crew :=
  { slot := slot, s := [], sFill := n, p := [], pFill := n, v := [],
    vFill := if n = none then [] else [(0, n), (4, n)], held := [], empty := [], fstat := 0, xheld := 0, xmark := 0,
    threads := (List.range 32).map (fun l => (l, Thread.at_ pc l fold lin cn cpb)), ckS := [], ckFstat := 0, ckSeq := 0, ckMark := 0, seq := 0,
    storePath := [], loads := [], returns := [], acqs := [], locks := [], monitor := none, starve := 0, aged := [], issued := [], faults := [],
    trap := none, handler := none, pendingPf := none, pfSeq := none, late := none, probes := 0,
    retired := false, triggered := false, retry := [], swCount := [], sealQ := none }

/-- A block on a core with its crews. -/
def Block.at_ (grid lin vid core : Nat) (bays : List Nat) (crews : NMap Crew) (acc : Memory) : Block :=
  { grid := grid, lin := lin, vid := vid, core := core, st := .resident, bays := bays, crews := crews, convs := [],
    grant := none, kinds := [], wins := [], bypass := none, acc := acc, spb := [], spbCount := [], pass := none,
    sealQ := none, flag := none, sampled := [], switchId := 0, triggered := false, fresh := false,
    barCrews := [], standing := [], frame := 0, framePool := 0, why := 0, fseq := none, savedAt := 0, placedAt := 0, savedWq := [],
    savedDq := none, savedFill := none, savedDrain := none, savedBays := [], pressed := false }

/-- The variant of the one-instruction machine: one crew with every bay, tile and slot of the core. -/
def probeVariant : Variant :=
  { vid := 0, crews := 1, fold := 1, ext := 3, bays := 16, tiles := 16, slots := 512, carve := 384, tag := 0,
    entry := 0x10000, maps := [] }

/-- The grid of the one-instruction machine. -/
def probeGrid (code : Memory) : Grid :=
  { ctx := 0, level := 0, prio := 0, pkt := 0,
    kern := { vars := [probeVariant], sws := [], ladder := false, ls := 0, lopen := 0, ltsize := 0, lbs := 32, swsize := 0 },
    kdesc := 0, ladder := none, cone := ⟨0, 0, 0⟩, parent := none, depth := 0, producer := none, key := 0, args := 0,
    tcnt := 0, fst := false, x := 1, y := 1, z := 1, policy := 2, fixedVar := 0, split := 384, fuse := false,
    switchWait := 0, qgrp := 0, pkgB := 0, podB := 0, quadB := 0, dieB := 0, swArea := 0, cmpl := 0, code := code,
    handed := 1, launched := 1, ended := 0, st := .running, clkDie := 0, firstCycle := some 0, endCycle := 0, cutCores := [],
    skips := 0, replays := 0, vused := [0], floor := 0xFFFF, fq := 0, recordDone := false }

/-- The 8-byte entries of page tables that map the first GiB onto itself for reading, writing and execution
(R363, R364). -/
def probeTables : List (Nat × Nat) := [(0x1000, 0x2000 + 1), (0x2000, 0x3000 + 1), (0x3000, 0x1F)]

/-- Places a 64-byte line at 0x10000 under one context, grid, block and crew, whose threads issue its slot 0 next. -/
def placeLine (s : State) (line : List Byte) : State :=
  let m := probeTables.foldl (fun m e => m.write e.1 (leBytes 8 e.2)) s.mem
  let mem := m.write 0x10000 line
  { s with
    mem := mem
    ctxs := s.ctxs.set 0 { desc := 64, ptroot := 0x1000, ftab := 0, qtab := 0, traph := 0, level := 0, debug := false, ovs := false, leaving := false }
    grids := s.grids.set 0 (probeGrid mem)
    nextGrid := max s.nextGrid 1
    blocks := s.blocks.set 0 (Block.at_ 0 0 0 0 (List.range 16) [(0, Crew.at_ 0x10000 1 0 0 1 0 none)] ⟨[], []⟩)
    nextBlock := max s.nextBlock 1
    issue := [⟨0, 0, BitVec.allOnes 32, 0x10000, false, false⟩] }

/-- The bytes of a line whose slot 0 holds a word, the others `nop`, with its parity (R167). -/
def probeLine (w : Nat) : List Byte :=
  leBytes 64 (makeLine [BitVec.ofNat 96 w, 0x3F0E, 0x3F0E, 0x3F0E, 0x3F0E] 1 0)

end Sys2Proof.Machine
end

