-- ==== Sys2Proof/Machine/Placement.lean ====
section
/-! DEFINITION. Where blocks go: a core's free resources, variants and policies, hand-out to dies, building a block on
a core, and leaving it (01_machine R6, R9; 03_memory R49–R51; 08_variants R128–R130; 24_queues_dispatch R339, R344;
25_context_faults R359). -/

namespace Sys2Proof.Machine

open Sys2Proof

/-! ## Free resources of a core (R9, R359) -/

/-- Cores of a package. -/
def coreCount : Nat := 768

/-- Resident blocks of a core, some counted as gone. -/
def onCore (s : State) (core : Nat) (gone : List Nat) : List Block :=
  (s.blocks.filter (fun e => e.2.core == core && e.2.st == .resident && !gone.contains e.1)).map Prod.snd

/-- Crews of a block that have not retired. -/
def Block.unretired (k : Block) : List Crew := k.crews.vals.filter (fun c => !c.retired)

/-- Register blocks that a block holds: one a crew, and its extended ones. -/
def Block.regBlocks (k : Block) : Nat := (k.unretired.map (fun c => 1 + popcount c.xheld.toNat 3)).sum

/-- The variant of a block's grid that it runs. -/
def blockVariant (s : State) (k : Block) : Option Variant :=
  (s.grid? k.grid).bind (fun g => g.kern.vars.find? (fun v => v.vid == k.vid))

/-- Resident crews of a core. -/
def coreCrews (s : State) (core : Nat) (gone : List Nat) : Nat := ((onCore s core gone).map (fun k => k.unretired.length)).sum

/-- Total register blocks of a variant's budget (R130). -/
def Variant.regBlocks (v : Variant) : Nat := v.crews * (1 + v.ext)

/-- Does a core's split suit a launch, or may it be changed, because the core, or the quad when fusion is touched, holds
no block (R49–R51)? -/
def splitFits (s : State) (core split : Nat) (fuse : Bool) (gone : List Nat) : Bool :=
  let k := s.core core
  let q := quadOf core
  let empty := fun c => (onCore s c gone).isEmpty
  let quadEmpty := (List.range 4).all (fun i => empty (4 * q + i))
  k.draining.all (· == split) &&
  (if (s.quad q).fused = fuse then k.split == split || (if fuse then quadEmpty else empty core) else quadEmpty)

/-- Is the core set as a launch needs it? -/
def splitReady (s : State) (core split : Nat) (fuse : Bool) : Bool :=
  (s.core core).split == split && (s.quad (quadOf core)).fused == fuse

/-- Do a core's free resources cover a variant's whole budget (R128), the blocks of `gone` counted as free? -/
def fits (s : State) (core : Nat) (g : Grid) (v : Variant) (gone : List Nat) : Bool :=
  let ks := onCore s core gone
  let vs := ks.filterMap (blockVariant s)
  !isDegraded s 1 core && decide (core < coreCount) && splitFits s core g.split g.fuse gone &&
  decide ((ks.map Block.regBlocks).sum + v.regBlocks ≤ 96) &&
  decide ((ks.map (fun k => k.bays.length)).sum + v.bays ≤ 16) &&
  decide ((vs.map (·.tiles)).sum + v.tiles ≤ 16) && decide ((vs.map (·.slots)).sum + v.slots ≤ 512) &&
  decide (coreCrews s core gone + v.crews ≤ 64)

/-! ## Variants (R130) -/

/-- The variants that a launch may use. -/
def eligible (g : Grid) : List Variant :=
  let vs := g.kern.vars.filter (fun v => v.carve == g.split)
  if g.level = 0 then vs
  else
    match vs with
    | [] => []
    | v :: _ => if v.tag = 0 then [v] else vs.filter (fun w => w.tag == v.tag)

/-- Does `PREFER_OCCUPANCY` take `a` rather than a later `b`? -/
def leaner (a b : Variant) : Bool :=
  decide (a.regBlocks < b.regBlocks) || (a.regBlocks == b.regBlocks && (decide (a.bays < b.bays) ||
    (a.bays == b.bays && decide (a.tiles ≤ b.tiles))))

/-- The variant that a policy takes among those that fit. -/
def takeVariant (g : Grid) (vs : List Variant) : Option Variant :=
  match g.policy with
  | 0 => vs.head?
  | 1 => vs.foldl (fun best v =>
      match best with
      | none => some v
      | some b => if leaner b v then some b else some v) none
  | _ => vs.find? (fun v => v.vid == g.fixedVar)

/-- The variant that a block of a grid takes on a core. -/
def chooseVariant (s : State) (core : Nat) (g : Grid) (gone : List Nat) : Option Variant :=
  takeVariant g ((eligible g).filter (fun v => fits s core g v gone))

/-- Has a launch an eligible variant, the named one under `FIXED`, and can all of them fit an empty core (R130, R339)? DESIGN CHOICE, log 43: a launch without an eligible variant, under any policy,
is refused with reason 3. -/
def variantsPossible (g : Grid) : Bool :=
  let vs := (eligible g).filter (fun v => g.policy != 2 || v.vid == g.fixedVar)
  !vs.isEmpty && vs.all (fun v => decide (v.regBlocks ≤ 96) && decide (v.bays ≤ 16) && decide (v.tiles ≤ 16) &&
    decide (v.slots ≤ 512))

/-! ## Quad and die barriers (R339) -/

/-- Does a unit provide `n` barriers to a grid: it holds them already, or enough are free? -/
def barsFree (holders : List (Nat × Nat)) (free gid n : Nat) : Bool :=
  holders.any (fun h => h.1 == gid) || decide (n ≤ free)

/-- Can the core's quad and die provide the grid's barriers? -/
def barsOk (s : State) (core gid : Nat) (g : Grid) : Bool :=
  let q := s.quad (quadOf core)
  let d := s.die (dieOf core)
  barsFree q.holders q.bars gid g.quadB && barsFree d.holders d.bars gid g.dieB

/-- The grid takes its barriers with its first block in the unit. -/
def takeBars (s : State) (core gid : Nat) (g : Grid) : State :=
  let q := s.quad (quadOf core)
  let s := if q.holders.any (fun h => h.1 == gid) then s
    else s.setQuad (quadOf core) { q with bars := q.bars - g.quadB, holders := q.holders ++ [(gid, g.quadB)] }
  let d := s.die (dieOf core)
  if d.holders.any (fun h => h.1 == gid) then s
  else s.setDie (dieOf core) { d with bars := d.bars - g.dieB, holders := d.holders ++ [(gid, g.dieB)] }

/-- Barriers held by a grid in a list. -/
def heldBars (holders : List (Nat × Nat)) (gid : Nat) : Nat := ((holders.filter (fun h => h.1 == gid)).map Prod.snd).sum

/-- The barriers go back once every block of the grid in the unit has ended (R339). A saved block counts for the unit that
it left until it resumes in another (log 119). -/
def returnBars (s : State) (core gid : Nat) : State :=
  let left := fun (p : Nat → Bool) => s.blocks.any (fun e => e.2.grid == gid && e.2.st != .ended && p e.2.core)
  let q := s.quad (quadOf core)
  let s := if left (fun c => quadOf c == quadOf core) then s
    else s.setQuad (quadOf core)
      { q with bars := q.bars + heldBars q.holders gid, holders := q.holders.filter (fun h => h.1 != gid) }
  let d := s.die (dieOf core)
  if left (fun c => dieOf c == dieOf core) then s
  else s.setDie (dieOf core)
    { d with bars := d.bars + heldBars d.holders gid, holders := d.holders.filter (fun h => h.1 != gid) }

/-! ## Building a block (R6–R8, R130, R344) -/

/-- Resident crews of each issue slot. -/
def slotCrews (s : State) (core : Nat) : List Nat :=
  let cs := (onCore s core []).flatMap Block.unretired
  (List.range 4).map (fun i => (cs.filter (fun c => c.slot == i)).length)

/-- The issue slot that holds the fewest crews, the lower on a tie. -/
def leastSlot (counts : List Nat) : Nat :=
  ((List.range 4).find? (fun i => (List.range 4).all (fun j => decide (counts.getD i 0 ≤ counts.getD j 0)))).getD 0

/-- Issue slots for `n` crews in ascending crew order (R6). -/
def assignSlots : Nat → List Nat → List Nat
  | 0, _ => []
  | n + 1, counts =>
    let i := leastSlot counts
    i :: assignSlots n (counts.set i (counts.getD i 0 + 1))

/-- The lowest free bays of a core. -/
def freeBays (s : State) (core n : Nat) : List Nat :=
  let held := (onCore s core []).flatMap (·.bays)
  ((List.range 16).filter (fun i => !held.contains i)).take n

/-- The entry of a block is an acquire (R56). -/
def Crew.entered (c : Crew) : Crew := let c := c.bump; c.acquire c.seq false

/-- A crew of a new block: `s0` is `ARGS`, `s1` the tile count (R337); other registers are free values. -/
def newCrew (g : Grid) (v : Variant) (lin cn slot fill : Nat) : Crew :=
  let c := Crew.at_ v.entry v.fold lin cn v.crews slot (some fill)
  let c := (c.setS 0 g.args).setS 1 (BitVec.ofNat 64 g.tcnt)
  ({ c with ckS := c.s } : Crew).entered

/-- A new block of a grid. -/
def newBlock (s : State) (gid : Nat) (g : Grid) (lin : Nat) (v : Variant) (core : Nat) : Block :=
  let slots := assignSlots v.crews (slotCrews s core)
  let crews := (List.range v.crews).map (fun cn => (cn, newCrew g v lin cn (slots.getD cn 0) (s.free + cn)))
  { Block.at_ gid lin v.vid core (freeBays s core v.bays) crews ⟨[], [(0, s.free + v.crews)]⟩ with
    fresh := true, placedAt := s.time }

/-- Puts a block of a grid on a core. -/
def launchBlock (s : State) (gid : Nat) (g : Grid) (lin : Nat) (v : Variant) (core : Nat) : State :=
  let k := newBlock s gid g lin v core
  let s := takeBars s core gid g
  { s with blocks := s.blocks.set s.nextBlock k, nextBlock := s.nextBlock + 1, free := s.free + v.crews + 1 }.updGrid gid
    (fun g => { g with launched := g.launched + 1, vused := if g.vused.contains v.vid then g.vused else g.vused ++ [v.vid] })

/-! ## Leaving a core (R142, R144, R359) -/

/-- The block's own state of the core's units, as a save keeps it. -/
def Block.keepUnits (k : Block) (s : State) (b : Nat) (last : Bool) : Block :=
  let c := s.core k.core
  let mine := fun (ch : Option Channel) => ch.filter (fun x => x.blk == b)
  { k with
    savedDq := if c.dq.owner = some b then some c.dq else none
    savedFill := mine c.fill
    savedDrain := mine c.drain
    savedWq := if last then (c.wqs.filter (fun e => e.2.grid == some k.grid)).map (fun e => (e.1, e.2.elems)) else [] }

/-- Is the block the only one of its grid on its core? -/
def lastOfGrid (s : State) (b : Nat) (k : Block) : Bool :=
  !(s.blocks.any (fun e => e.1 != b && e.2.grid == k.grid && e.2.core == k.core && e.2.st == .resident))

/-- The block gives its core's resources back. -/
def leaveCore (s : State) (b : Nat) (st : BlockState) : State :=
  match s.block? b with
  | none => s
  | some k =>
    let last := lastOfGrid s b k
    let k' := if st = .saved then k.keepUnits s b last else k
    let s := s.setBlock b { k' with st := st }
    let s := if last then wqUnbind s k.core k.grid else s
    let c := s.core k.core
    let other := fun (ch : Option Channel) => ch.filter (fun x => x.blk != b)
    let s := s.setCore k.core
      { c with
        dq := if c.dq.owner = some b then Core.reset.dq else c.dq
        fill := other c.fill
        drain := other c.drain
        acqWait := c.acqWait.filter (fun e => e.1 != b)
        slots := c.slots.mapVals (fun _ sl =>
          { sl with busy := sl.busy.filter (fun e => e.1 != b), waiting := sl.waiting.filter (fun e => e.1 != b) }) }
    returnBars s k.core k.grid

/-! ## Hand-out (R344) -/

/-- Blocks of a grid. -/
def Grid.total (g : Grid) : Nat := g.x * g.y * g.z

/-- The blocks that a dispatcher still has to place. -/
def liveQueue (s : State) (d : Nat) : List Queued :=
  (s.die d).queue.filter (fun e => (s.grid? e.grid).any (fun g => g.st == .running))

/-- Has a die a core left that takes blocks (R384)? One with none takes no part in the hand-out (log 72). -/
def dieAlive (s : State) (d : Nat) : Bool := (List.range 192).any (fun c => !isDegraded s 1 (192 * d + c))

/-- The die with the fewest queued blocks, the lower on a tie. -/
def leastDie (s : State) : Nat :=
  let n := fun d => (liveQueue s d).length
  let ds := (List.range 4).filter (dieAlive s)
  (ds.find? (fun d => ds.all (fun e => decide (n d ≤ n e)))).getD 0

/-- Hands out the next block of a grid, or its next group (R344). -/
def handOne (s : State) (gid : Nat) : State :=
  match s.grid? gid with
  | none => s
  | some g =>
    if g.st != .running || decide (g.total ≤ g.handed) then s
    else
      let n := min (max 1 g.qgrp) (g.total - g.handed)
      let d := leastDie s
      let k := s.die d
      let es := (List.range n).map (fun i => (⟨gid, g.handed + i, k.clk / 50, false⟩ : Queued))
      (s.setDie d { k with queue := liveQueue s d ++ es }).setGrid gid { g with handed := g.handed + n }

/-- Hands out blocks. -/
def handOut : Nat → State → Nat → State
  | 0, s, _ => s
  | n + 1, s, gid => handOut n (handOne s gid) gid

/-! ## BLOCK_PLACE (R344) -/

/-- Does a queued block come before another? -/
def queuedBefore (s : State) (a b : Queued) : Bool :=
  let p := fun (e : Queued) => ((s.grid? e.grid).map (·.prio)).getD 0
  decide (p b < p a) || (p a == p b && (decide (a.grid < b.grid) || (a.grid == b.grid && decide (a.lin ≤ b.lin))))

/-- Insertion in serving order. -/
def queueInsert (s : State) (e : Queued) : List Queued → List Queued
  | [] => [e]
  | a :: as => if queuedBefore s e a then e :: a :: as else a :: queueInsert s e as

/-- The queue in serving order. -/
def queueSort (s : State) (l : List Queued) : List Queued := l.foldr (queueInsert s) []

/-- Have all blocks of the grid's producer launched (R147)? -/
def producerLaunched (s : State) (g : Grid) : Bool :=
  match g.producer.bind s.grid? with
  | none => true
  | some p => p.st != .running || decide (p.total ≤ p.launched)

/-- A saved block that is ready and of the same or a higher priority, which the core has room for, comes first
(R358). -/
def savedAhead (s : State) (core prio : Nat) : Bool :=
  s.blocks.any (fun e => e.2.st == .saved && e.2.fseq.isNone &&
    (match s.grid? e.2.grid, blockVariant s e.2 with
      | some g, some v => g.st == .running && decide (prio ≤ g.prio) && fits s core g v [] && barsOk s core e.2.grid g
      | _, _ => false))

/-- Cores of a die in ascending order that a grid's block may go to. -/
def placeCores (s : State) (die gid : Nat) (g : Grid) : List Nat :=
  ((List.range 192).map (· + 192 * die)).filter (fun c =>
    (chooseVariant s c g []).isSome && barsOk s c gid g && !savedAhead s c g.prio)

/-- The core with the fewest resident crews, the lower quad and core on a tie. -/
def leastCore (s : State) (cs : List Nat) : Option Nat :=
  cs.find? (fun c => cs.all (fun d => decide (coreCrews s c [] ≤ coreCrews s d [])))

/-- The quad that takes a group: its first `n` cores hold no block and the block fits each of them. -/
def groupQuad (s : State) (die gid : Nat) (g : Grid) : Option Nat :=
  ((List.range 48).map (· + 48 * die)).find? (fun q => (List.range g.qgrp).all (fun i =>
    let c := 4 * q + i
    (onCore s c []).isEmpty && (chooseVariant s c g []).isSome && barsOk s c gid g && !savedAhead s c g.prio))

/-- Takes blocks out of a die's queue. -/
def unqueue (s : State) (die : Nat) (p : Queued → Bool) : State :=
  let d := s.die die
  s.setDie die { d with queue := d.queue.filter (fun e => !p e) }

/-- Where a queued block goes: the blocks with their cores; none where it has to wait. -/
def placement (s : State) (die : Nat) (e : Queued) : Option (List (Nat × Nat)) :=
  match s.grid? e.grid with
  | none => none
  | some g =>
    if !producerLaunched s g then none
    else if g.qgrp = 0 then (leastCore s (placeCores s die e.grid g)).map (fun c => [(e.lin, c)])
    else
      let lo := e.lin / g.qgrp * g.qgrp
      let n := min g.qgrp (g.total - lo)
      (groupQuad s die e.grid g).map (fun q => (List.range n).map (fun i => (lo + i, 4 * q + i)))

/-- Places blocks on their cores, once each is set as the launch needs it. -/
def placeOn (s : State) (die : Nat) (e : Queued) (ps : List (Nat × Nat)) : State :=
  match s.grid? e.grid with
  | none => s
  | some g =>
    if !ps.all (fun p => splitReady s p.2 g.split g.fuse) then s
    else
      let s := ps.foldl (fun s p =>
        match chooseVariant s p.2 g [] with
        | some v => launchBlock s e.grid g p.1 v p.2
        | none => s) s
      let s := unqueue s die (fun o => o.grid == e.grid && ps.any (fun p => p.1 == o.lin))
      handOne s e.grid

/-- BLOCK_PLACE: a Block Dispatcher places the first of its queued blocks that has a place; a core whose split or quad
fusion differs is changed first (CARVE_OUT_CHANGE). -/
def execBlockPlace (die : Nat) (s : State) : Host.Outcome State Fault Refusal :=
  .next (
    match (queueSort s (liveQueue s die)).findSome? (fun e => (placement s die e).map (fun ps => (e, ps))) with
    | none => s
    | some (e, ps) => placeOn s die e ps)

/-- Clears the L1 of cores (R50, R51). -/
def clearL1 (s : State) (quad : Nat) (cores : List Nat) : State :=
  { s with copies := (cores ++ [1000 + quad]).foldl (fun m c => m.erase c) s.copies }

/-- A core takes a split: its scratchpad is not preserved. -/
def reSplit (s : State) (core split : Nat) : State :=
  (s.setCore core { s.core core with split := split, draining := none, sp := ⟨[], [(0, s.free)]⟩ }).draw

/-- CARVE_OUT_CHANGE: the split of an empty core changes, or the fusion of an empty quad; a core that still holds blocks
takes no new one of its old split (R50, R51). -/
def execCarveOutChange (core split fuse : Nat) (s : State) : Host.Outcome State Fault Refusal :=
  .next (
    let q := quadOf core
    let fused := decide (fuse ≠ 0)
    let all := (List.range 4).map (· + 4 * q)
    if (split ≠ 384 ∧ split ≠ 448 ∧ split ≠ 256) ∨ coreCount ≤ core then s
    else if (s.quad q).fused = fused ∧ fused = false then
      if (s.core core).split = split then s
      else if (onCore s core []).isEmpty then clearL1 (reSplit s core split) q [core]
      else s.setCore core { s.core core with draining := some split }
    else if all.all (fun c => (onCore s c []).isEmpty) then
      let s := clearL1 s q all
      let s := s.setQuad q { s.quad q with fused := fused }
      (if fused then all else [core]).foldl (fun s c => if (s.core c).split = split then s else reSplit s c split) s
    else s.setCore core { s.core core with draining := some split })

end Sys2Proof.Machine
end

