-- ==== Sys2Proof/Machine/Task.lean ====
section
/-! DEFINITION. Tasks and the Dependence Table, deques, device-side queues, object pools (09_tasks_graphs R137–R143,
R148; 10_generation R157, R158; 15_isa_memory R266–R269; 24_queues_dispatch R333). -/

namespace Sys2Proof.Machine

open Sys2Proof

/-! ## Object pools (R157, R158) -/

/-- The pool, when a context owns it. -/
def ownedPool (s : State) (ctx n : Nat) : Option Pool := (s.pools.find? n).filter (fun p => p.ctx == some ctx)

/-- One object goes back: `HEAD` into its first 8 bytes, then the object is `HEAD`. -/
def poolPut (s : State) (n addr : Nat) (write : State → List Byte → State) : State :=
  match s.pools.find? n with
  | none => s
  | some p =>
    let s := write s (leBytes 8 p.head)
    { s with pools := s.pools.set n { p with head := addr, free := (p.free + 1) % 2 ^ 32 } }

/-- The object that a pool gives next, when it has one, and its link word (R157, R158). -/
def poolNext (s : State) (ctx n : Nat) : Option (Nat × Except AccFault (Nat × State)) :=
  (s.pools.find? n).bind (fun p => if p.head = 0 then none else some (p.head, fetchNat s ctx p.head 8))

/-- Takes the object at `HEAD`: the link word is the new `HEAD`. -/
def poolPop (s : State) (n link : Nat) : State :=
  match s.pools.find? n with
  | none => s
  | some p => { s with pools := s.pools.set n { p with head := link, free := p.free - 1 } }

/-- The pool number in an operand; bits 63:4 must be zero (R269). -/
def poolOf (x : Cx) (o : Opr) : Option Nat :=
  let a := x.uni o
  if a < 16 ∧ (ownedPool x.s x.g.ctx a).isSome = true then some a else none

/-- `pooltake`: an atomic of each active lane that leaves the Store Path in its turn (R52, R158). Each take that succeeds
is an acquire, and younger loads wait for it. Its threads wait until every lane has acted (log 117). -/
def execPooltake (f : FmtE) (s : State) : Host.Outcome State Fault Refusal :=
  issueWith (.pooltake f) s (fun x =>
    match poolOf x f.a with
    | none => .trapOpen cProt
    | some n =>
      let cr := x.cr.bump
      let pd := pdNum x.cr f.pd
      let regs := named cr f.d 2 ++ (if pd = 15 then [] else [(2, pd)])
      let cr := { cr with locks := cr.locks ++ regs.map (fun r => ⟨r.1, r.2, cr.seq⟩) }
      let dest := fun (l : Nat) => (⟨true, ((vNames cr f.d 2).headD 0), 2, l, cr.seq⟩ : Dest)
      let cr := cr.push (x.acts.map (fun l => .marker cr.seq (.pooltake n (some (dest l)) pd l)))
      let cr := x.acts.foldl (fun cr _ => cr.acquire cr.seq true) cr
      .raw (parkAt x (x.put cr) (.take cr.seq)))

/-- The address of the link word that a `pooltake` needs and whose page is not there. -/
def takeBlocked (s : State) (b n : Nat) : Option Nat :=
  match ((s.block? b).bind (fun k => s.grid? k.grid)).bind (fun g => poolNext s g.ctx n) with
  | some (_, .error e) => if e.cause = cPf then some e.va else none
  | _ => none

/-- May a `pooltake` of a lane be performed? One whose link word cannot be read faults instead, at a moment at which the
crew has no other cause under way; a handler's own waits in it for a page (R349). -/
def takeMay (s : State) (b : Nat) (cr : Crew) (n lane : Nat) : Bool :=
  match ((s.block? b).bind (fun k => s.grid? k.grid)).bind (fun g => poolNext s g.ctx n) with
  | some (_, .error e) =>
    match cr.handler with
    | some h => h.live.getLsbD lane && e.cause != cPf
    | none => cr.late.isNone && cr.pendingPf.isNone && cr.trap.isNone
  | _ => true

/-- A page fault of the link word in a handler: the crew waits in place (R349). -/
def awaitLink (s : State) (b c va lane : Nat) : State :=
  s.updCrew b c (fun cr =>
    if cr.pendingPf.isSome || !cr.handler.any (fun h => h.live.getLsbD lane) then cr
    else { cr with pendingPf := some (va, 0, 4), pfSeq := none })

/-- What one lane's `pooltake` answers: the address and success. -/
def giveTake (s : State) (b c : Nat) (dest : Option Dest) (pd lane addr : Nat) (ok : Bool) (seq : Nat) : State :=
  s.updCrew b c (fun cr =>
    let cr := match dest with
      | some d => cr.deliver d addr
      | none => cr
    let cr := if dest.isSome then cr.deliverP pd (1#32 <<< lane) (if ok then 1#32 <<< lane else 0) seq else cr
    if ok then cr else { cr with acqs := cr.acqs.erase ⟨seq, true⟩ })

/-- Lanes of a `pooltake` that have not acted. -/
def Crew.taking (cr : Crew) (seq : Nat) : Lanes :=
  maskOf (cr.storePath.filterMap (fun e =>
    match e with
    | .marker n (.pooltake _ _ _ l) => if n = seq then some l else none
    | _ => none))

/-- Threads that wait for the lanes of a `pooltake`. -/
def Crew.takers (cr : Crew) (seq : Nat) : Lanes := cr.lanesWhere (fun t => t.wait == some (.take seq))

/-- Once every lane of a `pooltake` has acted its threads go on; it ends their region (R25). -/
def takeDone (s : State) (b c seq : Nat) : State :=
  s.updCrew b c (fun cr => if cr.taking seq = 0 then cr.resume (cr.takers seq) (!cr.inHandler) else cr)

/-- A `pooltake` of a lane that a crew no longer waits for. -/
def Crew.dropTakes (cr : Crew) (seq : Nat) (left : Lanes) : Crew :=
  { cr with
    acqs := (lanesOf left).foldl (fun as _ => as.erase ⟨seq, true⟩) cr.acqs
    storePath := cr.storePath.filter (fun e =>
      match e with
      | .marker n (.pooltake _ _ _ _) => n != seq
      | _ => true) }.updThreads left (fun t => { t with wait := none, since := none, arrived := false })

/-- A link word that cannot be read is a fault found after issue (R347, R352): the lanes that have acted keep what they took
and take their implicit heads (R25), and the crew is rolled back, the other lanes to before the `pooltake`; a page is then
awaited, any other cause is taken at the heads, by every lane of the instruction (log 117). A handler's own fault is met in
it (R349). -/
def takeFault (s : State) (b c seq cause va lane : Nat) : State :=
  match s.crew? b c with
  | none => s
  | some cr =>
    let left := cr.taking seq ||| (1#32 <<< lane)
    let acted := cr.takers seq &&& ~~~left
    let pc := ((cr.threads.find? lane).map (·.pc)).getD 0
    let t : PendTrap :=
      { cause := cause, taddr := va, pc := pc, lanes := acted ||| left, imm := 0, resume := 2, late := true, acc := 0 }
    if cr.inHandler then raiseTrap s b c { t with resume := 0, late := false }
    else
      let cr := if acted = 0 then cr else cr.resume acted true
      s.setCrew b c { cr.dropTakes seq left with late := some (cause, va, 0, t) }

/-- One lane's `pooltake` at the pool unit (R158). After a cut the fault of a link word is abandoned (R41). -/
def performPooltake (s : State) (b c n : Nat) (dest : Option Dest) (pd lane seq : Nat) : State :=
  match (s.block? b).bind (fun k => s.grid? k.grid) with
  | none => s
  | some g =>
    match poolNext s g.ctx n with
    | none => takeDone (giveTake s b c dest pd lane 0 false seq) b c seq
    | some (addr, .ok (link, s)) => takeDone (giveTake (poolPop s n link) b c dest pd lane addr true seq) b c seq
    | some (_, .error e) => if dest.isNone then s else takeFault s b c seq e.cause e.va lane

/-- Places of the lanes' objects, in lane order. -/
def poolPlaces (ctx : Nat) (addr : Nat → Nat) : List Nat → State → Except AccFault (List (Nat × Place) × State)
  | [], s => .ok ([], s)
  | l :: ls, s =>
    match physOf s ctx (addr l) .write with
    | .error e => .error e
    | .ok (p, s) => (poolPlaces ctx addr ls s).map (fun r => ((addr l, .g p) :: r.1, r.2))

def execPoolgive (f : FmtE) (s : State) : Host.Outcome State Fault Refusal :=
  issueWith (.poolgive f) s (fun x =>
    match (poolOf x f.a).bind (fun n => (x.s.pools.find? n).map (fun p => (n, p))) with
    | none => .trapOpen cProt
    | some (n, p) =>
      let addr := fun l => x.val f.b 2 l (fun c => wrapTo 64 c.toInt)
      match x.acts.find? (fun l => addr l % 2 ^ p.osz != 0 || decide (addr l < p.base) || decide (p.limit ≤ addr l)) with
      | some l => .trap cProt (addr l)
      | none =>
        match poolPlaces x.g.ctx addr (x.acts.filter (fun l => !x.cr.skips l (·.pool))) x.s with
        | .error e => .xfault e.cause e.va 1
        | .ok (objs, s) =>
          .done (s.updCrew x.b x.c (fun cr =>
            let cr := cr.bump.tally x.act (·.pool) (fun c n => { c with pool := n })
            cr.push (objs.map (fun o => .marker cr.seq (.poolgive n [o]))))) false)

/-- Where the link words of a `poolgive` are written: at their places, or, for a page that has been withdrawn since, where it
is mapped now; none while it is mapped nowhere, with the first such address (R353). -/
def poolStands (s : State) (ctx : Nat) : List (Nat × Place) → Except Nat (List (Nat × Place))
  | [] => .ok []
  | o :: os =>
    match standingPlace s ctx o.2 o.1 .write with
    | none => .error o.1
    | some p => (poolStands s ctx os).map (fun r => (o.1, p) :: r)

/-- The objects of one step of a `poolgive` once its release has completed: those of one lane (R158). A link word that lies in
a slot of the grid's ladder raises no `SEAL`: the pool unit, not the grid, writes it (DESIGN CHOICE, log 145). -/
def performPoolgive (s : State) (ctx n : Nat) (objs : List (Nat × Place)) : State :=
  match poolStands s ctx objs with
  | .error _ => s
  | .ok objs => objs.foldl (fun s o => poolPut s n o.1 (fun s bs => hbmDone (storePlace s o.2 bs) o.2)) s

/-! ## Task descriptors and Tile Maps (R137, R138) -/

/-- A descriptor as `task` reads it: handles, 0xFFFF for none. -/
structure TaskDesc where
  entry : Nat
  args : List DWord
  reads : List Nat
  writes : List Nat
  tmap : Nat
  pool : Nat
deriving DecidableEq, Repr

def noHandle : Nat := 0xFFFF

/-- The fields of a descriptor, and whether its reserved bytes are zero. -/
def taskDesc (n : Nat) : TaskDesc × Bool :=
  (⟨bits n 0 64, (List.range 4).map (fun i => BitVec.ofNat 64 (bits n (64 + 64 * i) 64)),
    (List.range 4).map (fun i => bits n (320 + 16 * i) 16), (List.range 2).map (fun i => bits n (384 + 16 * i) 16),
    bits n 448 64, 0⟩, bits n 416 32 == 0)

/-- Is an address a slot of the grid's code whose target bit is set? -/
def isTarget (s : State) (g : Grid) (pc : Nat) : Option AccFault × Bool :=
  match fetchLine s g pc with
  | (.pf, _) => (some ⟨cPf, pc⟩, false)
  | (.prot, _) => (none, false)
  | (.ok _ _ _ _, line) => (none, isSlot pc && slotTarget line (pc % 64 / 12))

/-- Entry `h` of a Tile Map. -/
def tileVa (tmap h : Nat) : Nat := tmap + 64 + 8 * h

/-- Can the entries of the handles be read? -/
def tilesReadable (s : State) (ctx tmap : Nat) (hs : List Nat) : Option AccFault :=
  hs.findSome? (fun h =>
    if h = noHandle then none
    else
      match physOf s ctx (tileVa tmap h) .read with
      | .error e => some e
      | .ok _ => none)

/-- Reads and checks one lane's descriptor. -/
def readTask (x : Cx) (sp addr : Nat) (s : State) : Except Res (TaskDesc × State) :=
  let bad : Except Res (TaskDesc × State) := .error (.trap cProt addr)
  match engPlaces s x.g.ctx (some x.blk) sp addr 64 .read with
  | .error e => .error (if sp = 0 then .xfault e.cause e.va 0 else .trap cProt addr)
  | .ok (ps, s) =>
    let (d, zeros) := taskDesc (leNat (readPieces s ps))
    let s := piecesDone s ps
    if !zeros || d.tmap % 64 != 0 || !canonical d.tmap then bad
    else
      match fetchNat s x.g.ctx d.tmap 64, isTarget s x.g d.entry with
      | .error e, _ => .error (.xfault e.cause e.va 0)
      | _, (some e, _) => .error (.xfault e.cause e.va 2)
      | .ok (h, s), (none, target) =>
        let nh := bits h 0 32
        let fits := (d.reads ++ d.writes).all (fun n => n == noHandle || decide (n < nh))
        if !target || nh = 0 || decide (65535 < nh) || bits h 68 444 != 0 || !fits then bad
        else
          match tilesReadable s x.g.ctx d.tmap (d.reads ++ d.writes) with
          | some e => .error (.xfault e.cause e.va 0)
          | none => .ok ({ d with pool := bits h 64 4 }, s)

/-- Reads and checks the descriptors of all lanes. -/
def readTasks (x : Cx) (sp : Nat) (addr : Nat → Nat) : List Nat → State → Except Res (List (Nat × TaskDesc) × State)
  | [], s => .ok ([], s)
  | l :: ls, s =>
    match readTask x sp (addr l) s with
    | .error r => .error r
    | .ok (d, s) => (readTasks x sp addr ls s).map (fun r => ((l, d) :: r.1, r.2))

/-! ## The Dependence Table (R139–R141) -/

/-- Entries of a die's table. -/
def tableSize : Nat := 4096

/-- Outstanding tasks of a map on a die. -/
def mapTasks (d : Die) (ctx tmap : Nat) : NMap TaskEntry := d.tasks.filter (fun e => e.2.ctx == ctx && e.2.tmap == tmap)

/-- Does a task hold a tile? -/
def TaskEntry.holds (t : TaskEntry) (tile : Nat) : Bool :=
  t.reads.any (fun r => r.1 != noHandle && r.2 == tile) || t.writes.any (fun r => r.1 != noHandle && r.2 == tile)
def TaskEntry.wrote (t : TaskEntry) (tile : Nat) : Bool := t.writes.any (fun r => r.1 != noHandle && r.2 == tile)

/-- The tiles of a map that are no longer current and that no outstanding task holds go back to the rename pool. The spec does
not say what becomes of a tile when the map's `POOL` byte cannot be read at that moment, or its own first word cannot be
written: the first is lost, the second is returned without a link (DESIGN CHOICE, log 147). -/
def returnTiles (s : State) (die ctx : Nat) : State :=
  match s.ctxs.find? ctx with
  | none => s
  | some c =>
    let d := s.die die
    let free := fun (r : Nat × Nat × Nat) => r.1 == ctx && (mapTasks d ctx r.2.1).all (fun e => !e.2.holds r.2.2)
    let s := s.setDie die { d with retiredTiles := d.retiredTiles.filter (fun r => !free r) }
    (d.retiredTiles.filter free).foldl (fun s r =>
      match natVirt s c (r.2.1 + 8) 1 with
      | some p => poolPut s (p % 16) r.2.2 (fun s bs => storeVirt s c r.2.2 bs)
      | none => s) s

/-- A task leaves the table: its successors no longer wait for it. -/
def retireTask (s : State) (die idx : Nat) : State :=
  let d := s.die die
  match d.tasks.find? idx with
  | none => s
  | some t =>
    let tasks := (d.tasks.erase idx).mapVals (fun _ e => { e with waits := e.waits.filter (· != idx) })
    returnTiles (s.setDie die { d with tasks := tasks }) die t.ctx

/-- Tasks of grids that have ended leave the table (R141). -/
def tidyTasks (s : State) (die : Nat) : State :=
  let dead := (s.die die).tasks.filter (fun e =>
    !(((s.block? e.2.blk).bind (fun k => s.grid? k.grid)).any (fun g => g.st == .running)))
  (NMap.keys dead).foldl (fun s i => retireTask s die i) s

/-- A table entry for a new task: its index among the free ones, and a generation that is not its last, both open. -/
def freshTid (s : State) (die : Nat) : Nat × Nat :=
  let d := s.die die
  let free := (List.range tableSize).filter (fun i => (d.tasks.find? i).isNone)
  let idx := free.getD (Config.freeChoice s.free 0 % max 1 free.length) 0
  let g := Config.freeChoice s.free 1 % 2 ^ 20
  (idx, if d.gens.find? idx = some g then (g + 1) % 2 ^ 20 else g)

/-- What one handle of a new task comes to (R139): the tile it uses, the tasks it waits for, and the machine after a rename.
DESIGN CHOICE, log 136: a rename whose entry of the Tile Map may not be written takes its tile all the same, and the entry
keeps what it holds. -/
def takeHandle (s : State) (c : Ctx) (die ctx : Nat) (d : TaskDesc) (h : Nat) (writes : Bool) : Nat × List Nat × State :=
  if h = noHandle then (0, [], s)
  else
    let cur := (natVirt s c (tileVa d.tmap h) 8).getD 0
    let ts := mapTasks (s.die die) ctx d.tmap
    let users := NMap.keys (ts.filter (fun e => e.2.holds cur))
    let both := d.reads.contains h && d.writes.contains h
    if both then (cur, users, s)
    else if !writes then
      let ws := ts.filter (fun e => e.2.wrote cur)
      (cur, NMap.keys (ws.filter (fun e => ws.all (fun o => decide (o.2.order ≤ e.2.order)))), s)
    else if users.isEmpty then (cur, [], s)
    else
      match ownedPool s ctx d.pool with
      | some p =>
        if p.head = 0 then (cur, users, s)
        else
          let link := (natVirt s c p.head 8).getD (Config.freeWord s.free 0).toNat
          let s := storeVirt (s.draw) c (tileVa d.tmap h) (leBytes 8 p.head)
          let s := { s with pools := s.pools.set d.pool { p with head := link, free := p.free - 1 } }
          let x := s.die die
          (p.head, [], s.setDie die { x with retiredTiles := x.retiredTiles ++ [(ctx, d.tmap, cur)] })
      | none => (cur, users, s)

/-- The handles of one set, in order. -/
def takeHandles (c : Ctx) (die ctx : Nat) (d : TaskDesc) (writes : Bool) :
    List Nat → State → List (Nat × Nat) × List Nat × State
  | [], s => ([], [], s)
  | h :: hs, s =>
    let (tile, w, s) := takeHandle s c die ctx d h writes
    let (ts, ws, s) := takeHandles c die ctx d writes hs s
    ((h, tile) :: ts, w ++ ws, s)

/-- One submission reaches the table. -/
def submitTask (x : Cx) (s : State) (lane : Nat) (d : TaskDesc) (fx : Nat) : State :=
  match s.ctxs.find? x.g.ctx with
  | none => s
  | some c =>
    let die := dieOf x.blk.core
    let (idx, gen) := freshTid s die
    let s := s.draw
    let (rs, w1, s) := takeHandles c die x.g.ctx d false d.reads s
    let (ws, w2, s) := takeHandles c die x.g.ctx d true d.writes s
    let k := s.die die
    let t : TaskEntry :=
      { gen := gen, tmap := d.tmap, ctx := x.g.ctx, core := x.blk.core, blk := x.b, entry := BitVec.ofNat 64 d.entry,
        args := d.args, reads := rs, writes := ws, key := (keyedDraw x x.g.key fx lane).key, waits := (w1 ++ w2).eraseDups,
        posted := false, order := k.order }
    s.setDie die { k with tasks := k.tasks.set idx t, gens := k.gens.set idx gen, order := k.order + 1 }

def execTask (f : FmtE) (s : State) : Host.Outcome State Fault Refusal :=
  issueWith (.task f) s (fun x =>
    let sp := f.imm8.toNat % 8
    let addr := fun l => spaceAddr sp (x.val f.a 2 l (fun c => wrapTo 64 c.toInt))
    match x.acts.find? (fun l => addr l % 64 != 0) with
    | some l => .trap cAlign (addr l)
    | none =>
      if !x.cr.storePath.isEmpty then .stall x.s
      else
        match readTasks x sp addr x.acts x.s with
        | .error r => r
        | .ok (ds, s) =>
          let s := tidyTasks s (dieOf x.blk.core)
          if tableSize < (s.die (dieOf x.blk.core)).tasks.length + ds.length then .stall s
          else
            let s := ds.foldl (fun s e => submitTask x s e.1 e.2 f.fx.toNat) s
            .done (s.updCrew x.b x.c (fun cr => drawn x f.fx.toNat cr)) false)

/-- Is a `TID` outstanding on a die, and no `task.done` on its way for it? DESIGN CHOICE, log 137: a block that was restored
on another die (R358) names the table of the die it is on. -/
def tidLive (s : State) (die tid : Nat) : Bool :=
  ((s.die die).tasks.find? (tid % 4096)).any (fun t => t.gen == tid / 4096) &&
  s.blocks.all (fun e => dieOf e.2.core != die || e.2.crews.all (fun c => c.2.storePath.all (fun m =>
    match m with
    | .marker _ (.taskDone ts) => !ts.contains tid
    | _ => true)))

def execTaskDone (f : FmtE) (s : State) : Host.Outcome State Fault Refusal :=
  issueWith (.taskDone f) s (fun x =>
    let tids := x.acts.map (fun l => x.val f.a 1 l (fun c => wrapTo 32 c.toInt))
    if !tids.all (tidLive x.s (dieOf x.blk.core)) || decide (tids.eraseDups ≠ tids) then .trapOpen cProt
    else
      let cr := x.cr.bump
      crewRes x (cr.push [.marker cr.seq (.taskDone tids)]))

/-- The completion of tasks once `task.done`'s release has completed. -/
def performTaskDone (s : State) (die : Nat) (tids : List Nat) : State :=
  tids.foldl (fun s tid =>
    if ((s.die die).tasks.find? (tid % 4096)).any (fun t => t.gen == tid / 4096) then retireTask s die (tid % 4096) else s) s

/-! ## Deques (R142, R143) -/

/-- The deque of a core with the block that owns it, when it has one. -/
def dequeOf (s : State) (core : Nat) : Option (Deque × Block) :=
  let d := (s.core core).dq
  (d.owner.bind s.block?).bind (fun k => if k.st == .resident && k.core == core then some (d, k) else none)

/-- Records that a deque holds. -/
def Deque.cap (d : Deque) : Nat := (d.lim - d.base) / 128 - 1
def Deque.count (d : Deque) : Nat := d.bottom - d.top

/-- Replaces a core's deque; the bytes of its counters hold values that the spec does not give. -/
def setDeque (s : State) (core : Nat) (k : Block) (d : Deque) : State :=
  let s := s.setCore core { s.core core with dq := d }
  match unitPlaces s k 1 d.base 128 with
  | .error _ => s
  | .ok ps => (writePieces s ps ((List.range 128).map (fun i => some (Config.freeByte s.free i)))).draw

/-- The places of record `i`. DESIGN CHOICE, log 138: a record that `DQLIM`, written after `DQBASE`, puts beyond the block's
bays has none: it is written nowhere and read as zero. -/
def Deque.record (s : State) (k : Block) (d : Deque) (i : Nat) : List (Place × Nat) :=
  match unitPlaces s k 1 (d.base + 128 + 128 * (i % d.cap)) 128 with
  | .ok ps => ps
  | .error _ => []

/-- Writes a record at the bottom; none when the deque is full or there is none. -/
def dequePush (s : State) (core : Nat) (rec : List Byte) : Option State :=
  match dequeOf s core with
  | none => none
  | some (d, k) =>
    if d.cap ≤ d.count then none
    else
      let s := writePieces s (d.record s k d.bottom) (rec.map some)
      some (setDeque s core k { d with bottom := d.bottom + 1 })

/-- Removes the newest record, or the oldest; none when there is none. -/
def dequePop (s : State) (core : Nat) (oldest : Bool) : Option (List Byte × State) :=
  match dequeOf s core with
  | none => none
  | some (d, k) =>
    if d.count = 0 then none
    else
      let i := if oldest then d.top else d.bottom - 1
      let r := readPieces s (d.record s k i)
      some (r, setDeque s core k (if oldest then { d with top := d.top + 1 } else { d with bottom := d.bottom - 1 }))

/-- The posted record of a task (R140). -/
def taskRecord (t : TaskEntry) (idx : Nat) : List Byte :=
  let tiles := fun (l : List (Nat × Nat)) (n : Nat) => (List.range n).flatMap (fun i => leBytes 8 ((l.getD i (0, 0)).2))
  leBytes 8 t.entry.toNat ++ (List.range 4).flatMap (fun i => leBytes 8 (t.args.getD i 0).toNat) ++ tiles t.reads 4 ++
    tiles t.writes 2 ++ leBytes 16 t.key.toNat ++ leBytes 4 (idx + 4096 * t.gen) ++ leBytes 20 0

/-- TASK_POST: a ready task goes to the deque of the core whose crew submitted it, once there is room (R140). A task of a
grid that has ended is no longer posted (R141). -/
def execTaskPost (die idx : Nat) (s : State) : Host.Outcome State Fault Refusal :=
  .next (
    let s := tidyTasks s die
    match (s.die die).tasks.find? idx with
    | none => s
    | some t =>
      let live := ((s.block? t.blk).bind (fun k => s.grid? k.grid)).any (fun g => g.st == .running)
      if !live || !t.waits.isEmpty || t.posted then s
      else
        match dequePush s t.core (taskRecord t idx) with
        | none => s
        | some s =>
          let d := s.die die
          s.setDie die { d with tasks := d.tasks.set idx { t with posted := true } })

/-- The bytes of a record: words of inactive lanes are zero. -/
def dqBytes (cr : Crew) (r : Nat) (lanes : Lanes) : List Byte :=
  (List.range 32).flatMap (fun l => leBytes 4 (if lanes.getLsbD l then (cr.getV r l).toNat else 0))

def execDqpost (f : FmtE) (s : State) : Host.Outcome State Fault Refusal :=
  issueWith (.dqpost f) s (fun x =>
    if (dequeOf x.s x.blk.core).isNone then .trapOpen cProt
    else
      let live := maskOf (x.acts.filter (fun l => !x.cr.skips l (·.dq)))
      let reg := (vNames x.cr f.a 1).headD 0
      let pd := pdNum x.cr f.pd
      let cr := x.cr.bump.tally x.act (·.dq) (fun c n => { c with dq := n })
      if live = 0 then
        -- discarded on replay: the predicate it had then is not given
        let hit : Lanes := if Config.freeChoice x.s.free 0 % 2 = 0 then 0 else BitVec.allOnes 32
        .done ((x.put (cr.setP pd x.lanes hit)).draw) false
      else
        let cr := if pd = 15 then cr else { cr with locks := cr.locks ++ [⟨2, pd, cr.seq⟩] }
        crewRes x (cr.push [.marker cr.seq (.dqpost (dqBytes x.cr reg live) pd x.lanes)]))

/-- The post once its release has completed: the predicate reports success in every lane of its path. -/
def performDqpost (s : State) (b c : Nat) (rec : List Byte) (pd : Nat) (lanes : Lanes) (seq : Nat) : State :=
  match s.block? b with
  | none => s
  | some k =>
    match dequePush s k.core rec with
    | some s => s.updCrew b c (fun cr => cr.deliverP pd lanes (BitVec.allOnes 32) seq)
    | none => s.updCrew b c (fun cr => cr.deliverP pd lanes 0 seq)

/-- The register is empty in every lane until it is written: with the record, or with what it held (R267). -/
def dqAwait (x : Cx) (f : FmtE) (cr : Crew) (val : Nat → Nat) : Crew := cr.awaitReturns f.d 1 (lanesOf x.cr.liveLanes) val

/-- A record is on its way to every lane of the register; the predicate is set in every lane of the path, and the crew
acquires. -/
def dqArrive (x : Cx) (f : FmtE) (rec : List Byte) (s : State) : State :=
  s.updCrew x.b x.c (fun cr =>
    let cr := dqAwait x f cr (fun l => leNat ((rec.drop (4 * l)).take 4))
    let cr := (cr.putPd f.pd x.lanes (BitVec.allOnes 32)).bump
    cr.acquire cr.seq false)

/-- Nothing was taken: the predicate is clear, and the register becomes full with its old value. -/
def dqMissed (x : Cx) (f : FmtE) : Res :=
  crewRes x ((dqAwait x f x.cr (fun l => x.cr.getVs ((vNames x.cr f.d 1).headD 0) l 1)).putPd f.pd x.lanes 0)

def execDqtake (f : FmtE) (s : State) : Host.Outcome State Fault Refusal :=
  issueWith (.dqtake f) s (fun x =>
    if (dequeOf x.s x.blk.core).isNone then .trapOpen cProt
    else
      match dequePop x.s x.blk.core false with
      | some (r, s) => .done (dqArrive x f r s) false
      | none => dqMissed x f)

def execDqsteal (f : FmtE) (s : State) : Host.Outcome State Fault Refusal :=
  issueWith (.dqsteal f) s (fun x =>
    let v := x.uni f.b % 256
    if (dequeOf x.s x.blk.core).isNone || decide (191 < v) then .trapOpen cProt
    else if 1 ≤ x.g.level then dqMissed x f
    else
      match dequePop x.s (192 * dieOf x.blk.core + v) true with
      | some (r, s) => .done (dqArrive x f r s) false
      | none => dqMissed x f)

/-! ## Device-side queues (R148, R268, R333) -/

/-- An entry of a queue table. -/
structure QEntry where
  base : Nat
  log : Nat
  prio : Nat
  device : Bool
  enabled : Bool
  ridx : Nat
  widx : Nat
deriving DecidableEq, Repr

/-- Address of a queue's entry. -/
def queueVa (c : Ctx) (q : Nat) : Nat := c.qtab + 32 * q

/-- The queue's run state. -/
def queueRun (s : State) (ctx q : Nat) : QueueRun := s.queues.getD (64 * ctx + q) ⟨none, false, []⟩

/-- Does an entry break a requirement that disables it (R333)? -/
def entryBroken (n : Nat) : Bool := bits n 76 4 != 0 || bits n 80 48 != 0 || decide (16 < bits n 64 8)

/-- The unit looks at a queue's entry: one that it finds broken stays disabled until it is whole while `RIDX` equals
`WIDX` (R333). -/
def noteQueue (s : State) (ctx q : Nat) : State :=
  match (s.ctxs.find? ctx).bind (fun c => natVirt s c (queueVa c q) 32) with
  | none => s
  | some n =>
    let r := queueRun s ctx q
    let bad := entryBroken n || (r.bad && bits n 128 64 != bits n 192 64)
    if bad = r.bad then s else { s with queues := s.queues.set (64 * ctx + q) { r with bad := bad } }

/-- A queue's entry, a malformed one disabled; none when it cannot be read. One that was found malformed stays disabled
until it is well-formed while `RIDX` equals `WIDX` (R333). -/
def queueEntry (s : State) (ctx q : Nat) : Option QEntry :=
  match s.ctxs.find? ctx with
  | none => none
  | some c =>
    (natVirt s c (queueVa c q) 32).map (fun n =>
      { base := bits n 0 64, log := bits n 64 8, prio := bits n 72 2, device := bitAt n 74,
        enabled := bitAt n 75 && !entryBroken n && !((queueRun s ctx q).bad && bits n 128 64 != bits n 192 64),
        ridx := bits n 128 64, widx := bits n 192 64 })

/-- Would the queue hold `n` more packets? -/
def QEntry.room (e : QEntry) (n : Nat) : Bool := decide (e.widx + n ≤ e.ridx + 2 ^ e.log)

def execQsubmit (f : FmtE) (s : State) : Host.Outcome State Fault Refusal :=
  issueWith (.qsubmit f) s (fun x =>
    let q := x.uni f.a
    let n := x.uni f.b
    let s := if q < 64 then noteQueue x.s x.g.ctx q else x.s
    match (if q < 64 then queueEntry s x.g.ctx q else none) with
    | none => .trapOpen cProt
    | some e =>
      if !e.device || !e.enabled || n = 0 || decide (255 < n) then .raw (({ x with s := s } : Cx).raiseOpen cProt 0)
      else if !e.room n then .stall s
      else
        let cr := x.cr.bump
        .done (s.setCrew x.b x.c (cr.push [.marker cr.seq (.qsubmit q n)])) false)

/-- May the queue take the packets now? -/
def qsubmitReady (s : State) (b q n : Nat) : Bool :=
  (((s.block? b).bind (fun k => s.grid? k.grid)).bind (fun g => queueEntry s g.ctx q)).all (·.room n)

/-- The queue advances once `qsubmit`'s release has completed; its packets are the submitting grid's. -/
def performQsubmit (s : State) (b q n : Nat) : State :=
  match s.block? b with
  | none => s
  | some k =>
    match s.grid? k.grid with
    | none => s
    | some g =>
      match s.ctxs.find? g.ctx, queueEntry s g.ctx q with
      | some c, some e =>
        let s := storeVirt s c (queueVa c q + 24) (leBytes 8 ((e.widx + n) % 2 ^ 64))
        let r := queueRun s g.ctx q
        let subs := (List.range n).foldl (fun m i => NMap.set m (e.widx + i) k.grid) r.subs
        { s with queues := s.queues.set (64 * g.ctx + q) { r with subs := subs } }
      | _, _ => s

end Sys2Proof.Machine
end

