-- ==== Sys2Proof/Machine/Cycle.lean ====
section
/-! DEFINITION. The steps of the abstract machine: picking and issuing, Store Paths, loads, acquires, Read Copies; crews
that retire and blocks that end (01_machine R18–R21; 03_memory R52–R60; 11_encoding R172; 16_isa_control R275). -/

namespace Sys2Proof.Machine

open Sys2Proof

/-! ## ISSUE_CYCLE (R16–R21, R172) -/

/-- Does a crew issue at all: on a core that no cut has reached, not waiting for a trap, a page or its rollback, not
parked by `monwait` (R83)? -/
def crewRuns (s : State) (k : Block) (cr : Crew) : Bool :=
  k.st == .resident && !cr.retired && cr.trap.isNone && cr.pendingPf.isNone && !cr.monitor.any (·.parked.isSome) &&
  (s.grid? k.grid).any (fun g => g.st == .running || !g.cutCores.contains k.core)

/-- Is a thread's wait over (R19)? Waits for resources are tried again. -/
def waitReady (s : State) (b c : Nat) (k : Block) (w : Wait) : Bool :=
  match w with
  | .retry => true
  | .operands => true
  | .cnt cls ops => let left := outstanding s b c cls; ops.all (fun o => !left.contains o)
  | .chan dir => (chanOf (s.core k.core) dir).isNone
  | .copyc cv => !((k.conv cv).copies.any (fun a => a.crew == c))
  | .full key => (s.crew? b c).all (fun cr => (cr.empty.find? key).isNone)
  | _ => false

/-- Threads that wait for nothing but their operands; in a handler, its own threads. -/
def readyThreads (s : State) (b c : Nat) (k : Block) (cr : Crew) : Lanes :=
  let m := cr.lanesWhere (fun t => !t.exited && t.wait.all (waitReady s b c k))
  match cr.handler with
  | some h => m &&& h.live
  | none => m

/-- Do the operands of a group let its instruction issue (R16, R17)? An instruction that cannot be fetched or decoded
issues, and traps. R16 gives an empty `fe=trap` source a trap and an empty `fe=blk` source a wait: with one of each the trap
comes at once (DESIGN CHOICE, log 107). -/
def groupReady (s : State) (g : Grid) (cr : Crew) (pc : Nat) (lanes : Lanes) : Bool :=
  match slotInstr s g pc with
  | none => true
  | some i =>
    let acts := lanesOf (activeLanes cr i.body.guard lanes)
    if feTraps cr i acts then dstsReady cr i acts else operandsReady cr i acts

/-- The threads of a crew that wait for nothing but their operands, by program counter (R19). -/
def threadGroups (s : State) (b c : Nat) (k : Block) (cr : Crew) : NMap Lanes :=
  if !crewRuns s k cr then []
  else
    (lanesOf (readyThreads s b c k cr)).foldl (fun (m : NMap Lanes) l =>
      match cr.threads.find? l with
      | some t => m.set t.pc (m.getD t.pc 0 ||| (1#32 <<< l))
      | none => m) []

/-- The ready threads of a crew by program counter (R16–R19). -/
def readyGroups (s : State) (b c : Nat) (k : Block) (cr : Crew) : NMap Lanes :=
  match s.grid? k.grid with
  | none => []
  | some g => (threadGroups s b c k cr).filter (fun e => groupReady s g cr e.1 e.2)

/-- A thread whose instruction may not issue for its operands waits, since now unless it has waited already; one whose
instruction may does not wait for them any more (R17). -/
def Thread.seesOperands (t : Thread) (ready : Bool) (now : Nat) : Thread :=
  if ready then (if t.wait = some .operands then { t with wait := none, since := none } else t)
  else if t.wait.all (fun w => w == .retry || w == .operands) then t.waits .operands t.arrived now
  else t

/-- The threads of a crew that wait for their operands are those of the groups that are not ready. -/
def Crew.seesOperands (s : State) (b c : Nat) (k : Block) (g : Grid) (cr : Crew) : Crew :=
  (threadGroups s b c k cr).foldl (fun n e =>
    let ready := groupReady s g cr e.1 e.2
    n.updThreads e.2 (fun t => t.seesOperands ready (s.clock k.core))) cr

/-- The crews of an issue slot see which of their threads wait for operands (R17, R360). -/
def seeOperands (s : State) (core slot : Nat) : State :=
  { s with blocks := s.blocks.mapVals (fun b k =>
      match s.grid? k.grid with
      | none => k
      | some g =>
        if k.core = core ∧ k.st = .resident then
          { k with crews := k.crews.mapVals (fun c cr => if cr.slot = slot then cr.seesOperands s b c k g else cr) }
        else k) }

/-- A candidate of an issue slot. -/
structure Cand where
  blk : Nat
  crew : Nat
  prio : Nat
  starve : Nat
  groups : NMap Lanes

/-- Crew number on a core (R18). -/
def Cand.num (c : Cand) : Nat := 16 * c.blk + c.crew

/-- The ready crews of an issue slot, in crew order. -/
def candidates (s : State) (core slot : Nat) : List Cand :=
  (s.blocks.filter (fun e => e.2.core == core && e.2.st == .resident)).flatMap (fun e =>
    (e.2.crews.filter (fun c => c.2.slot == slot)).filterMap (fun c =>
      let g := readyGroups s e.1 c.1 e.2 c.2
      if g.isEmpty then none
      else some ⟨e.1, c.1, ((s.grid? e.2.grid).map (·.prio)).getD 0, c.2.starve, g⟩))

/-- The crew that the slot picks (R18). -/
def pickCrew (last : Nat) (cs : List Cand) : Option Cand :=
  let starved := cs.filter (fun c => decide (128 ≤ c.starve))
  match List.find? (fun c => starved.all (fun d => decide (d.starve ≤ c.starve))) starved with
  | some c => some c
  | none =>
    let pool := cs.filter (fun c => cs.all (fun d => decide (d.prio ≤ c.prio)))
    match List.find? (fun c => decide (last < c.num)) pool with
    | some c => some c
    | none => pool.head?

/-- Does group `a` come before `b` for the paths (R19, R20): aged groups first by wait count, then by threads, then the
lower address? -/
def groupBefore (aged : NMap Nat) (a b : Nat × Lanes) : Bool :=
  let w := fun (e : Nat × Lanes) => let n := aged.getD e.1 0; if 64 ≤ n then n else 0
  let p := fun (e : Nat × Lanes) => popcount e.2.toNat 32
  if w a ≠ w b then decide (w b < w a)
  else if w a = 0 ∧ p a ≠ p b then decide (p b < p a)
  else decide (a.1 ≤ b.1)

/-- Insertion in path order. -/
def groupInsert (aged : NMap Nat) (e : Nat × Lanes) : List (Nat × Lanes) → List (Nat × Lanes)
  | [] => [e]
  | a :: as => if groupBefore aged e a then e :: a :: as else a :: groupInsert aged e as

/-- Path A and path B. -/
def choosePaths (aged : NMap Nat) (gs : NMap Lanes) : List (Nat × Lanes) := (gs.foldr (groupInsert aged) []).take 2

/-- Registers that operands name, with the guard. -/
def namesOf (cr : Crew) (i : Instr) : List (Nat × Nat) :=
  (uses i).src.flatMap (fun x => named cr x.o x.n) ++ (dstsOf cr i).flatMap (fun x => named cr x.o x.n) ++
    (fectlA i).flatMap (fun o => named cr o 1) ++ named cr (.p i.body.guard.gp) 1

/-- Registers that an instruction writes: its destinations, and the `A` of `fectl.cancel` (R225). -/
def writesOf (cr : Crew) (i : Instr) : List (Nat × Nat) :=
  (dstsOf cr i).flatMap (fun d => named cr d.o d.n) ++
    (match i with
      | .fectlCancel f => named cr f.a 1
      | _ => [])

/-- Does an instruction name a `wq` register? -/
def namesWq (i : Instr) : Bool :=
  match i with
  | .mov f => oprIsWq f.a || oprIsWq f.d
  | _ => false

/-- Does a store or no-return atomic of a path go to another package, so that it ends its region (R25, R190, R250)? -/
def storesAway (x : Cx) (i : Instr) : Bool :=
  match i with
  | .st f | .red f =>
    match accessLanes x x.acts f.sp.toNat f.qn.toNat (formAddr x f) .write (widthBytes f.w) with
    | .ok (as, s) => as.any (fun a => isRemote s a.place)
    | .error _ => false
  | _ => false

/-- May two adjacent instructions issue together (R172)? `away` says whether the first goes to another package. -/
def mayPair (cr : Crew) (line sl : Nat) (i j : Instr) (away : Bool) : Bool :=
  let isNop := match j with
    | .nop _ => true
    | _ => false
  slotPair line sl && ((decide (opClass i < 4) && decide (opClass j < 4)) || isNop) && !endsRegion i && !endsRegion j && !away &&
  !namesWq i && !namesWq j && !(writesOf cr i).any (fun r => (namesOf cr j).contains r)

/-- The second instruction of a pair that a single path issues, when it may. -/
def pairOf (s : State) (g : Grid) (cr : Crew) (p : Path) : Option Nat :=
  match fetchLine s g p.pc with
  | (.ok _ _ _ _, line) =>
    let sl := p.pc % 64 / 12
    let next := slotAddr (slotIndex p.pc + 1)
    match decode (lineSlot line sl), decode (lineSlot line (sl + 1)) with
    | .ok i, .ok j =>
      let away := (Cx.of { s with path := p } i.body.guard).any (fun x => storesAway x i)
      if mayPair cr line sl i j away && groupReady s g cr next p.lanes then some next else none
    | _, _ => none
  | _ => none

/-- Wait counts of the groups after an issue (R20): counts of slots that no thread stands at are dropped. -/
def agedAfter (cr : Crew) (gs : NMap Lanes) (chosen : List Nat) : NMap Nat :=
  let here := (cr.threads.vals.filter (fun t => !t.exited)).map (·.pc)
  let kept := cr.aged.keep (fun pc => here.contains pc && !chosen.contains pc)
  (gs.keys.filter (fun pc => !chosen.contains pc)).foldl (fun m pc => NMap.set m pc (m.getD pc 0 + 1)) kept

/-- The picked crew's paths join those to issue; starvation and wait counts change (R18, R20). Which of the path's
translation faults are noticed late is free (R24). A slot keeps one place for its round-robin, whatever the class of the
crew it picks; the spec does not say whether each class has its own (DESIGN CHOICE, log 110). A grid counts its cycles on
the die of its first issue (log 106). -/
def issuePicked (s : State) (core slot : Nat) (cs : List Cand) (p : Cand) : State :=
  match s.block? p.blk, s.crew? p.blk p.crew with
  | some k, some cr =>
    let chosen := choosePaths cr.aged p.groups
    let late := fun (i : Nat) => Config.freeChoice s.free i % 2 == 0
    let paths := chosen.zipIdx.map (fun e => (⟨p.blk, p.crew, e.1.2, e.1.1, e.2 == 1, late e.2⟩ : Path))
    let pair :=
      match chosen, s.grid? k.grid with
      | [(pc, lanes)], some g =>
        (pairOf s g cr ⟨p.blk, p.crew, lanes, pc, false, false⟩).toList.map (fun n => (⟨p.blk, p.crew, lanes, n, true, late 2⟩ : Path))
      | _, _ => []
    let s := cs.foldl (fun s c =>
      s.updCrew c.blk c.crew (fun cr => { cr with starve := if c.num = p.num then 0 else cr.starve + 1 })) s
    let s := s.updCrew p.blk p.crew (fun cr => { cr with aged := agedAfter cr p.groups (chosen.map Prod.fst) })
    let s := s.updGrid k.grid (fun g =>
      if g.firstCycle.isSome then g else { g with clkDie := dieOf core, firstCycle := some (s.clock core) })
    let sl := s.slot core slot
    ({ s.setSlot core slot { sl with last := p.num } with issue := s.issue ++ paths ++ pair } : State).draw
  | _, _ => s

/-- ISSUE_CYCLE: an issue slot picks one of its ready crews; its one or two paths issue next. Threads that the operands of
their instructions keep back begin or end a full/empty wait. -/
def execIssueCycle (core slot : Nat) (s : State) : Host.Outcome State Fault Refusal :=
  .next (
    let s := seeOperands s core slot
    let cs := candidates s core slot
    match pickCrew (s.slot core slot).last cs with
    | none => s
    | some p => issuePicked s core slot cs p)

/-! ## The bytes of accesses -/

/-- Do two ranges meet? -/
def Place.meets (p : Place) (n : Nat) (q : Place) (m : Nat) : Bool :=
  let hit := fun a b => decide (a < b + m) && decide (b < a + n)
  match p, q with
  | .g a, .g b => hit a b
  | .sp c a, .sp d b => c == d && hit a b
  | .acc k a, .acc l b => k == l && hit a b
  | _, _ => false

/-- The bytes that a load reads: the element's, and its scale's. -/
def Load.ranges (l : Load) : List (Place × Nat) :=
  (l.place, l.n) :: (match l.conv with
    | .fmt _ _ (some (q, _, _)) => [(q, 1)]
    | _ => [])

/-- Does a load read a byte of a range? -/
def Load.reads (l : Load) (q : Place) (m : Nat) : Bool := l.ranges.any (fun r => r.1.meets r.2 q m)

/-! ## Store Paths (R54, R57) -/

/-- Has every load older than a sequence number been performed? -/
def loadsDone (cr : Crew) (seq : Nat) : Bool := cr.loads.all (fun l => decide (seq ≤ l.seq))

/-- Has a producer's last load or store entry gone? -/
def producerDone (cr : Crew) (seq : Nat) : Bool :=
  cr.loads.all (fun l => l.seq != seq) && cr.storePath.all (fun e =>
    match e with
    | .atomic n _ _ _ _ _ _ _ _ => n != seq
    | .marker n (.dqpost _ _ _) => n != seq
    | .marker n (.pooltake _ _ _ _) => n != seq
    | _ => true)

/-- Ends a producer's interlocks once it has written everything. -/
def tryUnlock (s : State) (b c seq : Nat) : State :=
  s.updCrew b c (fun cr => if producerDone cr seq then cr.unlock seq else cr)

/-- The context of a block's grid. -/
def blockCtx (s : State) (k : Block) : Nat := ((s.grid? k.grid).map (·.ctx)).getD 0

/-- An access finds its page withdrawn: the crew faults on it as on one that is absent, and the access waits (R352,
R353). -/
def awaitPage (s : State) (b c va acc : Nat) : State :=
  s.updCrew b c (fun cr =>
    if cr.late.isSome || cr.pendingPf.isSome then cr
    else if cr.inHandler then { cr with pendingPf := some (va, acc, 4), pfSeq := none }
    else { cr with late := some (cPf, va, acc, { cause := cPf, taddr := va, pc := 0, lanes := 0, imm := 0, resume := 2,
                                                 late := true, acc := acc }) })

/-- What a release does once it completes. A cut ends the grid's barriers (R263). -/
def performAct (s : State) (b c : Nat) (k : Block) (act : Act) (seq : Nat) : State :=
  match act with
  | .none => s
  | .bar scp cv n =>
    if (s.grid? k.grid).any (fun g => g.cutCores.contains k.core) then s else performBar s b c scp cv n seq
  | .trigger => performTrigger s b c
  | .qsubmit q n => performQsubmit s b q n
  | .taskDone tids => performTaskDone s (dieOf k.core) tids
  | .dqpost rec pd lanes => tryUnlock (performDqpost s b c rec pd lanes seq) b c seq
  | .poolgive pool addrs => performPoolgive s (blockCtx s k) pool addrs
  | .pooltake n d pd lane => tryUnlock (performPooltake s b c n d pd lane seq) b c seq
  | .exit => performExit s b
  | .srel dir => performSrel s b dir

/-- May a marker leave: a release waits for the loads before it (R57), a `pooltake` for the link word of its pool, the link
word of a `poolgive` for its page (R353)? -/
def markerReady (s : State) (b : Nat) (k : Block) (cr : Crew) (seq : Nat) (act : Act) : Bool :=
  match act with
  | .pooltake n d _ lane => d.isNone || takeMay s b cr n lane
  | .qsubmit q n => loadsDone cr seq && qsubmitReady s b q n
  | .poolgive _ objs => loadsDone cr seq && (poolStands s (blockCtx s k) objs).toOption.isSome
  | _ => loadsDone cr seq

/-- A marker that may not leave yet: the crew of a `pooltake` in a handler waits for a page, as one does whose `poolgive`
finds its page withdrawn. -/
def markerWaits (s : State) (b c : Nat) (k : Block) (cr : Crew) (seq : Nat) (act : Act) : State :=
  match act with
  | .pooltake n _ _ lane =>
    match takeBlocked s b n with
    | some va => awaitLink s b c va lane
    | none => s
  | .poolgive _ objs =>
    match poolStands s (blockCtx s k) objs with
    | .error va => if loadsDone cr seq then awaitPage s b c va 1 else s
    | .ok _ => s
  | _ => s

/-- An atomic reads and writes its place in one step; a destination takes the value read. -/
def performAtomic (s : State) (b c core : Nat) (place : Place) (n aop : Nat) (vb vc : DWord) (dest : Option Dest) : State :=
  let old := leNat (readPlace s place n)
  let s := spoilPlace (performStore s core place (leBytes n (atomNew aop (8 * n) old vb.toNat vc.toNat))) place n
  match dest with
  | none => s
  | some d => s.updCrew b c (fun cr => cr.deliver d old)

/-- Is an older load of one of these threads on bytes of a range still to be performed? A thread's later writes to them wait
for it (R61; log 17). -/
def Crew.readsOlder (cr : Crew) (seq : Nat) (p : Place) (n : Nat) (lanes : Lanes) : Bool :=
  cr.loads.any (fun l => decide (l.seq < seq) && l.lanes &&& lanes != 0 && l.reads p n)

/-- STORE_PATH_PERFORM: the head of a crew's Store Path is performed, or its marker leaves. -/
def execStorePathPerform (blk crew : Nat) (s : State) : Host.Outcome State Fault Refusal :=
  .next (
    match s.block? blk, s.crew? blk crew with
    | some k, some cr =>
      match cr.storePath with
      | [] => s
      | e :: rest =>
        let s' := s.setCrew blk crew { cr with storePath := rest }
        match e with
        | .store seq p data va lanes =>
          if cr.readsOlder seq p data.length lanes then s
          else
            match standingPlace s (blockCtx s k) p va .write with
            | none => awaitPage s blk crew va 1
            | some p => hbmDone (spoilPlace (performStore s' k.core p data) p data.length) p
        | .atomic seq p n aop vb vc dest va lanes =>
          if cr.readsOlder seq p n lanes then s
          else
            match standingPlace s (blockCtx s k) p va .write with
            | none => awaitPage s blk crew va 1
            | some p => tryUnlock (hbmDone (performAtomic s' blk crew k.core p n aop vb vc dest) p) blk crew seq
        | .marker seq act =>
          if markerReady s blk k cr seq act then performAct s' blk crew k act seq else markerWaits s blk crew k cr seq act
    | _, _ => s)

/-! ## Loads (R55, R62) -/

/-- Is a load the lower half of another's 16 bytes, which is performed first (R246)? -/
def Load.lowerHalf (o l : Load) : Bool := o.seq == l.seq && o.dest.lane == l.dest.lane && decide (o.dest.reg < l.dest.reg)

/-- May a load be performed: older overlapping loads, the lower half of its access, older acquires and its own threads'
older atomics on the bytes are done (R55, R61; log 17)? -/
def loadReady (cr : Crew) (l : Load) : Bool :=
  cr.loads.all (fun o => (decide (l.seq ≤ o.seq) || !o.ranges.any (fun r => l.reads r.1 r.2)) && !o.lowerHalf l) &&
  cr.acqs.all (fun a => decide (l.seq ≤ a.seq)) &&
  cr.storePath.all (fun e =>
    match e with
    | .atomic seq p n _ _ _ _ _ lanes => decide (l.seq ≤ seq) || l.lanes &&& lanes == 0 || !l.reads p n
    | _ => true)

/-- The youngest of the crew's own older stores that covers a byte. -/
def ownByte (cr : Crew) (seq : Nat) (p : Place) : Option Byte :=
  cr.storePath.foldl (fun v e =>
    match e with
    | .store n q data _ _ =>
      if n < seq ∧ q.meets data.length p 1 = true then
        match q, p with
        | .g a, .g b => some (data.getD (b - a) 0)
        | .sp _ a, .sp _ b => some (data.getD (b - a) 0)
        | .acc _ a, .acc _ b => some (data.getD (b - a) 0)
        | _, _ => v
      else v
    | _ => v) none

/-- Would a load of these words of one pair, with these of its 8 bytes from the L1, see part of an 8-byte store: one word as
it was before the store, and a byte of another that the store has written (R48)? -/
def tornLoad (word : Nat → ReadCopy) (bytes : Nat) (ws : List Nat) : Bool :=
  ws.any (fun v => ws.any (fun w =>
    decide ((word v).pair.count < (word w).pair.count) && (word w).pair.last &&& bytes &&& (15 * 16 ^ (w % 2)) != 0))

/-- Read Copies of words for a load that takes these of their pair's bytes: the ones that an L1 holds, and new ones from the
home of the others (R55). Where that would tear an 8-byte store, all are taken anew, as after an eviction (R48, R59;
log 18). -/
def allocCopies (s : State) (l1 : Nat) (ws : List Nat) (bytes : Nat) : State :=
  let m := s.copies.getD l1 []
  let now := copyNow s.mem s.pairs
  let torn := tornLoad (fun w => (m.find? w).getD (now w)) bytes ws
  let news := ws.filter (fun w => torn || (m.find? w).isNone)
  if news = [] then s else { s with copies := s.copies.set l1 (news.foldl (fun (m : NMap ReadCopy) w => m.set w (now w)) m) }

/-- A byte of a Read Copy, or of the home. -/
def copyByte (s : State) (l1 a : Nat) : Byte :=
  match (s.copies.getD l1 []).find? (a / 4) with
  | some c => BitVec.ofNat 8 (c.val.toNat / 256 ^ (a % 4))
  | none => s.mem.read1 a

/-- The bytes that a load of a crew gets, and the machine with its new Read Copies. -/
def loadBytes (s : State) (core : Nat) (cr : Crew) (seq : Nat) (p : Place) (n pol : Nat) : List Byte × State :=
  let own := fun (i : Nat) => ownByte cr seq (p.add i)
  match p with
  | .g a =>
    if pol ≠ 0 then ((List.range n).map (fun i => (own i).getD (s.mem.read1 (a + i))), s)
    else
      let l1 := l1Of s core
      -- words all of whose bytes come from own stores take no copy
      let taken := (List.range n).filter (fun i => (own i).isNone)
      let s := allocCopies s l1 ((wordsOf a n).filter (fun w => taken.any (fun i => (a + i) / 4 == w)))
        ((taken.map (fun i => 2 ^ ((a + i) % 8))).sum)
      ((List.range n).map (fun i => (own i).getD (copyByte s l1 (a + i))), s)
  | _ => ((List.range n).map (fun i => (own i).getD ((readPlace s (p.add i) 1).headD 0)), s)

/-- The register value of loaded bytes (R92, R249), with the scale byte where there is one. -/
def loadValue (conv : LoadConv) (data : List Byte) (scale : Nat) : Nat :=
  match conv with
  | .raw => leNat data
  | .fmt e d none => (convert d e 0 0 (leNat data) 0).1
  | .fmt e d (some _) => (roundTo d 0 0 (scaledNum e (leNat data) scale) false 0).1

/-- A result of another unit is written (R15). -/
def performReturn (s : State) (blk crew idx : Nat) : State :=
  s.updCrew blk crew (fun cr =>
    match cr.returns[idx]? with
    | none => cr
    | some r => { cr with returns := cr.returns.eraseIdx idx }.deliver r.dest r.val)

/-- A load as it is performed, its pages withdrawn or not; else the address that is mapped nowhere. -/
def Load.standing (l : Load) (s : State) (ctx : Nat) : Except Nat Load :=
  match standingPlace s ctx l.place l.va .read, l.conv with
  | none, _ => .error l.va
  | some p, .fmt e d (some (q, pol, va)) =>
    match standingPlace s ctx q va .read with
    | none => .error va
    | some q => .ok { l with place := p, conv := .fmt e d (some (q, pol, va)) }
  | some p, _ => .ok { l with place := p }

/-- LOAD_PERFORM: an issued load is performed, once it may be (R55). Numbers past the crew's loads name the results that
other units return to it (log 92). -/
def execLoadPerform (blk crew idx : Nat) (s : State) : Host.Outcome State Fault Refusal :=
  .next (
    match s.block? blk, s.crew? blk crew with
    | some k, some cr =>
      match cr.loads[idx]? with
      | none => performReturn s blk crew (idx - cr.loads.length)
      | some l =>
        if !loadReady cr l then s
        else
          match l.standing s (blockCtx s k) with
          | .error va => awaitPage s blk crew va 0
          | .ok l =>
            let (data, s) := loadBytes s k.core cr l.seq l.place l.n l.pol
            let (scale, s) :=
              match l.conv with
              | .fmt _ _ (some (q, pol, _)) => loadBytes s k.core cr l.seq q 1 pol
              | _ => ([], s)
            let cr := { cr with loads := cr.loads.eraseIdx idx }
            let cr := cr.deliver l.dest (loadValue l.conv data (leNat scale))
            tryUnlock (l.ranges.foldl (fun s r => hbmDone s r.1) (s.setCrew blk crew cr)) blk crew l.seq
    | _, _ => s)

/-! ## Acquires and Read Copies (R56, R59) -/

/-- May an acquire complete? -/
def acqReady (cr : Crew) (a : Acq) : Bool :=
  cr.loads.all (fun l => decide (a.seq < l.seq)) &&
  (!a.mark || cr.storePath.all (fun e =>
    match e with
    | .store n _ _ _ _ => n != a.seq
    | .atomic n _ _ _ _ _ _ _ _ => n != a.seq
    | .marker n _ => n != a.seq))

/-- ACQUIRE_COMPLETE: the words of the L1's Invalidation Set are discarded (R56, R58). -/
def execAcquireComplete (blk crew idx : Nat) (s : State) : Host.Outcome State Fault Refusal :=
  .next (
    match s.block? blk, s.crew? blk crew with
    | some k, some cr =>
      match cr.acqs[idx]? with
      | none => s
      | some a =>
        if !acqReady cr a then s
        else
          let l1 := l1Of s k.core
          let gone := invalSet s l1
          let s := s.setCrew blk crew { cr with acqs := cr.acqs.eraseIdx idx }
          match s.copies.find? l1 with
          | none => s
          | some m => { s with copies := s.copies.set l1 (m.keep (fun w => !gone.contains w)) }
    | _, _ => s)

/-- The number that names the Ownership Registry in an eviction; an L1 has its core's number, or 1000 and its quad's
when fused. -/
def registryId : Nat := 2000

/-- EVICT: a Read Copy of a word is discarded, or the word's Registry entry is dropped (R59). -/
def execEvict (l1 word : Nat) (s : State) : Host.Outcome State Fault Refusal :=
  .next (
    if l1 = registryId then { s with owners := s.owners.erase word }
    else
      match s.copies.find? l1 with
      | none => s
      | some m => { s with copies := s.copies.set l1 (m.erase word) })

/-! ## Crews that retire and blocks that end (R68, R74, R144, R275, R359) -/

/-- A crew's lanes leave the queues that they wait at. -/
def wqLeave (s : State) (core b c : Nat) : State :=
  (List.range 4).foldl (fun s q =>
    let w := wqOf s core q
    if w.pops.any (fun p => p.1 == b && p.2.1 == c) then
      setWq s core q { w with pops := w.pops.filter (fun p => !(p.1 == b && p.2.1 == c)) }
    else s) s

/-- The channels of a block stop: no further iteration starts (R74). -/
def stopChannels (s : State) (b core : Nat) : State :=
  let k := s.core core
  let stop := fun (ch : Option Channel) => ch.map (fun x => if x.blk = b then { x with stopped := true } else x)
  s.setCore core { k with fill := stop k.fill, drain := stop k.drain }

/-- A retired crew holds no registers. -/
def Crew.retire (cr : Crew) : Crew :=
  { cr with retired := true, xheld := 0, xmark := 0, v := [], held := [], empty := [], returns := [] }

/-- CREW_RETIRE: all threads have exited and the exit's marker has left the Store Path. The last crew's ends the block's
streams. A crew that holds a protection fault no `waitcnt` and no exit has raised ends its grid (R260); R260 names a fault
that is held at the exit and one that comes after the retirement, and one that comes between the two is taken as the latter
(DESIGN CHOICE, log 148). -/
def execCrewRetire (blk crew : Nat) (s : State) : Host.Outcome State Fault Refusal :=
  .next (
    match s.block? blk, s.crew? blk crew with
    | some k, some cr =>
      if k.st != .resident || !cr.allExited || cr.retired || cr.inHandler || !cr.storePath.isEmpty then s
      else
        let s := wqLeave (s.setCrew blk crew cr.retire) k.core blk crew
        let s := if cr.faults.isEmpty then s else endGrid s k.grid .faulted
        if (s.block? blk).all (fun k => k.crews.vals.all (·.retired)) then stopChannels s blk k.core else s
    | _, _ => s)

/-- Every operation of a block has completed. -/
def opsDone (s : State) (b : Nat) : Bool := s.ops.all (fun o => o.pkt.isSome || o.blk != b || o.done)

/-- A block of a grid that has stopped has nothing in flight any more: the cut has reached its core, and its stores are
performed (R41). -/
def stoppedOut (g : Grid) (k : Block) : Bool :=
  g.st != .running && (k.st != .resident || (g.cutCores.contains k.core && k.crews.vals.all (fun cr => cr.storePath.isEmpty)))

/-- A frame's object goes back to the pool that it came from (R352, R354). -/
def frameBack (s : State) (ctx pool frame : Nat) : State :=
  if frame = 0 then s
  else
    match s.ctxs.find? ctx with
    | none => s
    | some c => poolPut s pool frame (fun s bs => storeVirt s c frame bs)

/-- A block that never runs again has no operation left: those that never issued are dropped, every other ends (R41). -/
def abandonOps (s : State) (blk : Nat) : State :=
  let mine := fun (o : EngOp) => o.blk == blk && o.pkt.isNone
  tidyOps { s with ops := (s.ops.filter (fun o => !(mine o && !o.ready))).map (fun o =>
    if mine o then { o with done := true, pf := none } else o) }

/-- A grid and those above it (R148). -/
def ancestors (s : State) (gid : Nat) : List Nat :=
  let rec go : Nat → Nat → List Nat
    | 0, _ => []
    | n + 1, g => g :: (match (s.grid? g).bind (·.parent) with
      | some p => go n p
      | none => [])
  go 9 gid

/-- The end of a running grid so far, by its own clock: a block of it or of a child has ended (R42, R345). -/
def State.stampEnd (s : State) (gid : Nat) : State :=
  s.updGrid gid (fun g => if g.st = .running then { g with endCycle := (s.die g.clkDie).clk / 50 } else g)

/-- BLOCK_END: the last crew has retired and every engine operation has completed; or a block of a stopped grid has
nothing in flight. A block that is not resident then never runs again, and its operations are abandoned (R41). -/
def execBlockEnd (blk : Nat) (s : State) : Host.Outcome State Fault Refusal :=
  .next (
    match s.block? blk with
    | none => s
    | some k =>
      match s.grid? k.grid with
      | none => s
      | some g =>
        let over_ := k.st == .resident && k.crews.vals.all (·.retired)
        let s := if k.st = .resident ∨ k.st = .ended ∨ g.st = .running then s else abandonOps s blk
        if k.st == .ended || !opsDone s blk || !(over_ || stoppedOut g k) then s
        else
          let s := if k.st = .saved then frameBack s g.ctx k.framePool k.frame else s
          let s := if k.st = .resident then leaveCore s blk .ended
            else returnBars (s.updBlock blk (fun k => { k with st := .ended })) k.core k.grid
          let s := s.updBlock blk (fun k => { k with crews := [], convs := [], spb := [], acc := ⟨[], []⟩, frame := 0 })
          ancestors s k.grid |>.foldl State.stampEnd (s.updGrid k.grid (fun g => { g with ended := g.ended + 1 })))

end Sys2Proof.Machine
end

