-- ==== Sys2Proof/Machine/Kernel.lean ====
section
/-! DEFINITION. Installed kernel records and graph records, as the Work Distributor reads and checks them
(22_object_format R316–R321; 24_queues_dispatch R337, R342; 02_ladder R29). -/

namespace Sys2Proof.Machine

open Sys2Proof

/-- A field of a record: bytes at an offset. -/
def field (n ofs len : Nat) : Nat := bits n (8 * ofs) (8 * len)

/-- Answers only where a check holds. -/
def guardOpt (b : Bool) : Option Unit := if b then some () else none

/-- Are the numbers of a list all different? -/
def distinct (l : List Nat) : Bool := decide l.Nodup

/-- May a ladder's tiles have this size (R29)? -/
def tileSizeOk (n : Nat) : Bool := decide (256 ≤ n) && decide (n ≤ 2 ^ 26) && n % 256 == 0

/-! ## Kernel records (R316–R320) -/

/-- Do the ranges of a switch point keep their limits: nonempty, within 2^32, none overlapping another? -/
def rangesOk : List (Nat × Nat) → Bool
  | [] => true
  | r :: rs => decide (1 ≤ r.2) && decide (r.1 + r.2 ≤ 2 ^ 32) &&
      rs.all (fun q => decide (r.1 + r.2 ≤ q.1) || decide (q.1 + q.2 ≤ r.1)) && rangesOk rs

/-- An entry of the switch table with its ranges. -/
def readSwitch (s : State) (c : Ctx) (kdesc va : Nat) : Option SwPoint := do
  let n ← natVirt s c va 16
  let ranges ← (List.range (field n 2 2)).mapM (fun i =>
    (natVirt s c (kdesc + field n 8 8 + 8 * i) 8).map (fun r => (field r 0 4, field r 4 4)))
  guardOpt (decide (field n 0 2 < 64) && decide (field n 2 2 < 256) && decide (field n 4 4 ≤ 1024) && rangesOk ranges)
  pure ⟨field n 0 2, field n 4 4, ranges⟩

/-- A variant's switch map, entry by entry. -/
def readMaps (s : State) (c : Ctx) (fold : Nat) : Nat → List SwPoint → Option (List (Nat × List Nat))
  | _, [] => some []
  | va, p :: ps => do
    let resume ← natVirt s c va 8
    let bs ← readVirt s c (va + 8) (fold * p.w)
    let regs := bs.map BitVec.toNat
    guardOpt (isSlot resume && regs.all (fun r => decide (r < 64)) && distinct regs)
    let rest ← readMaps s c fold (va + roundUp (8 + fold * p.w) 8) ps
    pure ((resume, regs) :: rest)

/-- A variant record. -/
def readVariant (s : State) (c : Ctx) (kdesc lbs va : Nat) (sws : List SwPoint) : Option Variant := do
  let n ← natVirt s c va 64
  let v : Variant :=
    { vid := field n 0 1, crews := field n 1 1, fold := field n 2 1, ext := field n 3 1, bays := field n 4 1,
      tiles := field n 5 1, slots := field n 6 2, carve := field n 8 2, tag := field n 10 2, entry := field n 16 8, maps := [] }
  guardOpt (decide (v.vid < 4) && decide (1 ≤ v.crews) && decide (v.crews ≤ 16) && (v.fold == 1 || v.fold == 2 || v.fold == 4) &&
    decide (v.ext ≤ 3) && decide (v.bays ≤ 16) && decide (v.tiles ≤ 16) && decide (v.slots ≤ 512) &&
    (v.carve == 384 || v.carve == 448 || v.carve == 256) && field n 12 4 == 0 && field n 32 32 == 0 && isSlot v.entry &&
    32 * v.crews * v.fold == lbs && field n 24 8 % 8 == 0)
  let maps ← readMaps s c v.fold (kdesc + field n 24 8) sws
  pure { v with maps := maps }

/-- Switch area size that a switch point asks for (R318). -/
def areaSize (lbs : Nat) (p : SwPoint) : Nat :=
  roundUp (64 + lbs * roundUp (16 + 4 * p.w) 8 + lbs / 8) 256 + roundUp (p.ranges.map Prod.snd).sum 256

/-- The kernel record at an address; none where it cannot be read or its bytes break R316 to R320. -/
def readKernel (s : State) (c : Ctx) (kdesc : Nat) : Option Kernel := do
  let n ← natVirt s c kdesc 64
  let nvar := field n 4 1
  let nsw := field n 5 1
  let lad := field n 6 1 == 1
  let ls := field n 7 1
  let lbs := field n 16 4
  guardOpt (decide (1 ≤ nvar) && decide (nvar ≤ 4) && decide (nsw ≤ 64) && decide (field n 6 1 < 2) &&
    (if lad then ls == 2 || ls == 3 else ls == 0) && decide (field n 8 1 < 2) && field n 9 3 == 0 &&
    (if lad then tileSizeOk (field n 12 4) else field n 12 4 == 0) && decide (32 ≤ lbs) && decide (lbs ≤ 2048) &&
    field n 24 8 % 8 == 0 && field n 32 8 % 8 == 0 && (nsw != 0 || field n 32 8 == 0) && field n 40 24 == 0)
  let sws ← (List.range nsw).mapM (fun i => readSwitch s c kdesc (kdesc + field n 32 8 + 16 * i))
  let vars ← (List.range nvar).mapM (fun i => readVariant s c kdesc lbs (kdesc + field n 24 8 + 64 * i) sws)
  let size := (sws.map (areaSize lbs)).foldl max 0
  guardOpt (distinct (vars.map (·.vid)) && decide ((sws.map (·.id)).Pairwise (· < ·)) && field n 20 4 == size)
  pure { vars := vars, sws := sws, ladder := lad, ls := ls, lopen := field n 8 1, ltsize := field n 12 4, lbs := lbs,
         swsize := size }

/-- The line of a context's code at a slot, as memory stands. -/
def codeLine (s : State) (c : Ctx) (pc : Nat) : Option Nat :=
  match walkCtx s c (pc / 64 * 64) .exec with
  | .ok p _ _ _ => some (s.mem.nat p 64)
  | _ => none

/-- What a slot of a context's code holds, and its target bit; none where it cannot be read or decoded. -/
def codeSlot (s : State) (c : Ctx) (pc : Nat) : Option (Option Instr × Bool) :=
  (codeLine s c pc).map (fun line =>
    let sl := pc % 64 / 12
    (match decode (lineSlot line sl) with
      | .ok i => some i
      | .error _ => none, slotTarget line sl))

/-- Is a slot a region head, marked as a target where it has to be? A slot that cannot be read is not refused. -/
def headSlot (s : State) (c : Ctx) (pc : Nat) (target : Bool) : Bool :=
  match codeSlot s c pc with
  | some (some (.region _), t) => t || !target
  | some _ => false
  | none => true

/-- Does the slot before a resume address hold the `switchpt` of its switch point? -/
def afterSwitchpt (s : State) (c : Ctx) (pc id : Nat) : Bool :=
  match codeSlot s c (slotAddr (slotIndex pc - 1)) with
  | some (some (.switchpt f), _) => f.imm16.toNat == id
  | some _ => false
  | none => true

/-- The checks of R320 on the slots that a kernel record names: entries and resume addresses. -/
def kernelCode (s : State) (c : Ctx) (k : Kernel) : Bool :=
  k.vars.all (fun v => headSlot s c v.entry true &&
    (v.maps.zip k.sws).all (fun m => headSlot s c m.1.1 false && afterSwitchpt s c m.1.1 m.2.id))

/-! ## Graph records (R321, R342) -/

/-- A node entry. -/
def nodeOf (n : Nat) : NodeRec :=
  ⟨field n 0 1, (List.range 4).map (fun i => field n (4 + 2 * i) 2), field n 12 2, field n 14 2, field n 16 8, field n 24 8⟩

def noNode : Nat := 0xFFFF
def kKern : Nat := 1
def kCopy : Nat := 2
def kLoop : Nat := 3
def kCond : Nat := 4
def kSignal : Nat := 5
def kWait : Nat := 6

/-- Microseconds of a `WAIT` node's timeout. -/
def NodeRec.wto (r : NodeRec) : Nat := r.b0 + 2 ^ 16 * r.b1

/-- Is a node in the body of a `LOOP`? -/
def NodeRec.inBody (l : NodeRec) (i : Nat) : Bool := l.kind == kLoop && decide (l.b0 ≤ i) && decide (i ≤ l.b1)

/-- Successors of a node. -/
def NodeRec.succs (r : NodeRec) : List Nat := r.succ.filter (· != noNode)

/-- Does one node keep its own limits? -/
def nodeOk (count : Nat) (n : Nat) : Bool :=
  let r := nodeOf n
  decide (1 ≤ r.kind) && decide (r.kind ≤ 6) && field n 1 3 == 0 && r.succs.all (fun t => decide (t < count)) &&
  (if r.kind = kLoop then decide (r.b0 ≤ r.b1) && decide (r.b1 < count)
   else r.kind == kWait || (r.b0 == 0 && r.b1 == 0))

/-- Do loop bodies keep their limits: successors do not cross a body's edge, bodies nest or are disjoint, nesting at
most 4? A `LOOP` does not nest in itself (log 129). -/
def loopsOk (rs : List NodeRec) : Bool :=
  let loops := rs.filter (fun r => r.kind == kLoop)
  let ix := rs.zipIdx
  ix.all (fun e => loops.all (fun l => e.1.succs.all (fun t => l.inBody e.2 == l.inBody t))) &&
  loops.all (fun a => loops.all (fun b =>
    decide (a.b1 < b.b0) || decide (b.b1 < a.b0) || (decide (a.b0 ≤ b.b0) && decide (b.b1 ≤ a.b1)) ||
      (decide (b.b0 ≤ a.b0) && decide (a.b1 ≤ b.b1)))) &&
  ix.all (fun e => decide ((ix.filter (fun l => l.1.inBody e.2 && l.2 != e.2)).length + (if e.1.kind = kLoop then 1 else 0) ≤ 4))

/-- The graph record at an address; none where it cannot be read or breaks R321 or R342. -/
def readGraph (s : State) (c : Ctx) (va : Nat) : Option (List NodeRec) := do
  let h ← natVirt s c va 16
  let count := field h 4 4
  guardOpt (decide (1 ≤ count) && decide (count ≤ 4096) && field h 8 8 == 0)
  let ns ← (List.range count).mapM (fun i => natVirt s c (va + 16 + 32 * i) 32)
  let rs := ns.map nodeOf
  guardOpt (ns.all (nodeOk count) && loopsOk rs)
  pure rs

end Sys2Proof.Machine
end

