-- ==== Sys2Proof/Machine/Queue.lean ====
section
/-! DEFINITION. Queues and packets: reading, starting in order, launching grids, copies, signals, waits, levels, pools
(24_queues_dispatch R333–R341, R343; 09_tasks_graphs R145–R149; 02_ladder R29, R31). -/

namespace Sys2Proof.Machine

open Sys2Proof

/-! ## Packet fields (R335, R337, R338) -/

def tLaunch : Nat := 1
def tLext : Nat := 2
def tGraph : Nat := 3
def tCopy : Nat := 4
def tSignal : Nat := 5
def tWait : Nat := 6
def tSetdet : Nat := 7
def tPoolset : Nat := 8

namespace Packet

/-- The packet's 64 bytes as a number. -/
def num (p : Packet) : Nat := leNat p.bytes
/-- A field of the packet. -/
def f (p : Packet) (ofs len : Nat) : Nat := field p.num ofs len
/-- A field of its `LEXT`, zero without one. -/
def lx (p : Packet) (ofs len : Nat) : Nat := field (leNat p.lext) ofs len
def type (p : Packet) : Nat := p.f 0 1
/-- The flags and the completion record of the header, of which a `LEXT` has only the type (R335). -/
def conc (p : Packet) : Bool := p.type != tLext && bitAt (p.f 1 1) 0
def early (p : Packet) : Bool := p.type != tLext && bitAt (p.f 1 1) 1
def cont (p : Packet) : Bool := bitAt (p.f 1 1) 2
def fst (p : Packet) : Bool := bitAt (p.f 1 1) 3
def tag (p : Packet) : Nat := if p.type = tLext then 0 else p.f 4 4
def cmpl (p : Packet) : Nat := if p.type = tLext then 0 else p.f 8 8
def x (p : Packet) : Nat := p.f 0x20 3
def y (p : Packet) : Nat := p.f 0x24 2
def z (p : Packet) : Nat := p.f 0x26 2
def policy (p : Packet) : Nat := p.f 0x23 1 % 4
def fixedVar (p : Packet) : Nat := p.f 0x23 1 / 4 % 4
def split (p : Packet) : Nat :=
  match p.f 0x23 1 / 16 % 4 with
  | 0 => 384
  | 1 => 448
  | 2 => 256
  | _ => 0
def hasLadder (p : Packet) : Bool := bitAt (p.lx 4 4) 0
def total (p : Packet) : Nat := p.x * p.y * p.z

/-- The packet completes with a status. -/
def finish (p : Packet) (status reason : Nat) : Packet := { p with st := .ended, status := status, reason := reason }

end Packet

def sDone : Nat := 1
def sCut : Nat := 2
def sPoolDry : Nat := 3
def sLimit : Nat := 4
def sTimeout : Nat := 5
def sRefused : Nat := 6
def sFault : Nat := 7

def State.setPkt (s : State) (i : Nat) (p : Packet) : State := { s with packets := s.packets.set i p }
def State.updPkt (s : State) (i : Nat) (f : Packet → Packet) : State :=
  match s.packets.find? i with
  | some p => s.setPkt i (f p)
  | none => s

/-! ## PACKET_READ (R333, R334, R268) -/

/-- A queue's determinism level (R333, R341). -/
def queueLevel (s : State) (ctx q : Nat) : Nat :=
  ((queueRun s ctx q).level).getD (((s.ctxs.find? ctx).map (·.level)).getD 0)

/-- A fresh packet record. -/
def newPacket (s : State) (ctx q idx : Nat) (bytes lext : List Byte) (prio : Nat) (device : Bool) (by_ : Option Nat) : Packet :=
  { ctx := ctx, q := q, idx := idx, bytes := bytes, lext := lext, st := .read, level := 0, prio := prio, device := device,
    by_ := by_, grid := none, graph := none, op := none, node := none, status := 0, reason := 0, runs := 0, cycles := 0,
    energy := 0, skips := 0, replays := 0, tstart := 0, tread := s.time, tend := 0, able := none, aged := false, code := s.mem }

/-- Does a `LAUNCH` name a `LEXT`? -/
def wantsLext (n : Nat) : Bool := field n 0 1 == tLaunch && bitAt (field n 1 1) 2

/-- The `LAUNCH` of a queue that waits for the `LEXT` in the next place. -/
def lextOwner (s : State) (ctx q idx : Nat) : Option Nat :=
  (List.find? (fun e => e.2.node.isNone && e.2.ctx == ctx && e.2.q == q && e.2.idx + 1 == idx && e.2.st == .read &&
    e.2.lext == [] && wantsLext (leNat e.2.bytes)) s.packets).map Prod.fst

/-- Does a queue of a context hold a packet that the Work Distributor has still to read? -/
def unread (s : State) (ctx : Nat) : Bool :=
  (List.range 64).any (fun q => (queueEntry s ctx q).any (fun e => e.enabled && decide (e.ridx < e.widx)))

/-- Is some work of a context in flight: a packet that has not completed, or one submitted and not yet read (log 77)? -/
def inFlight (s : State) (ctx : Nat) : Bool := s.packets.any (fun e => e.2.ctx == ctx && e.2.st != .completed) || unread s ctx

/-- A context is no longer resident: its translations, its completed packets and its queues' levels go with it. -/
def removeContext (s : State) (ctx : Nat) : State :=
  { s with
    ctxs := s.ctxs.erase ctx
    tlb := s.tlb.filter (fun t => t.ctx != ctx)
    packets := s.packets.filter (fun e => e.2.ctx != ctx)
    queues := s.queues.keep (fun q => q / 64 != ctx) }

/-- Removes a context that leaves, once none of its work is in flight (R332). -/
def dropContext (s : State) (ctx : Nat) : State :=
  if (s.ctxs.find? ctx).any (·.leaving) && !inFlight s ctx then removeContext s ctx else s

/-- PACKET_READ: packet `RIDX` of an enabled queue; a `LEXT` joins the `LAUNCH` before it. Code is fetched as memory stands
now (R170). The queues of a context that leaves are read on; once nothing is left in them it goes (R332, log 77). -/
def execPacketRead (ctx q : Nat) (s : State) : Host.Outcome State Fault Refusal :=
  .next (
    let s := if q < 64 then noteQueue s ctx q else s
    match s.ctxs.find? ctx, (if q < 64 then queueEntry s ctx q else none) with
    | some c, some e =>
      let at_ := fun (i : Nat) => readVirt s c (e.base + 64 * (i % 2 ^ e.log)) 64
      if !e.enabled || decide (e.widx ≤ e.ridx) then dropContext s ctx
      else
        match at_ e.ridx with
        | none => s
        | some bs =>
          let read := storeVirt s c (queueVa c q + 16) (leBytes 8 ((e.ridx + 1) % 2 ^ 64))
          match (if field (leNat bs) 0 1 = tLext then lextOwner s ctx q e.ridx else none) with
          | some i => read.updPkt i (fun p => { p with lext := bs })
          | none =>
            let p := newPacket s ctx q e.ridx bs [] e.prio e.device ((queueRun s ctx q).subs.find? e.ridx)
            { read with packets := read.packets.set read.nextPkt p, nextPkt := read.nextPkt + 1 }
    | _, _ => s)

/-! ## Starting in order (R336, R343) -/

/-- The packets of a queue that lie before one. -/
def before (s : State) (p : Packet) : List Packet :=
  (s.packets.filter (fun e => e.2.node.isNone && e.2.ctx == p.ctx && e.2.q == p.q && decide (e.2.idx < p.idx))).map Prod.snd

/-- The packet just before one. -/
def prevOf (s : State) (p : Packet) : Option Packet :=
  let bs := before s p
  bs.find? (fun a => bs.all (fun b => decide (b.idx ≤ a.idx)))

/-- Has what follows a `LAUNCH` with `CONT` been read: its `LEXT`, or a packet that is none? -/
def lextRead (s : State) (p : Packet) : Bool :=
  !wantsLext p.num || p.lext != [] ||
    s.packets.any (fun e => e.2.node.isNone && e.2.ctx == p.ctx && e.2.q == p.q && e.2.idx == p.idx + 1)

/-- May a packet start (R336)? -/
def mayStart (s : State) (p : Packet) : Bool :=
  let bs := before s p
  p.st == .read && p.node.isNone && lextRead s p &&
  (if p.type = tSetdet ∨ bs.any (fun b => b.type == tSetdet && b.st == .read) = true then bs.all (fun b => b.st == .completed)
   else
     match prevOf s p with
     | none => true
     | some b => if p.early || p.conc then b.st != .read else b.st == .completed)

/-- Are the package and pod barriers free that a launch asks for (R339)? A count beyond its range is refused instead. -/
def poolsFree (s : State) (p : Packet) : Bool :=
  p.type != tLaunch || decide (32 < p.f 2 1) || decide (16 < p.f 3 1) ||
    (decide (p.f 2 1 ≤ s.pkgBars) && decide (p.f 3 1 ≤ s.podBars))

/-- Is a `pooltake` or a `poolgive` that has been issued on a pool still on its way (R340)? -/
def poolBusy (s : State) (n : Nat) : Bool :=
  s.blocks.any (fun e => e.2.crews.any (fun c => c.2.storePath.any (fun m =>
    match m with
    | .marker _ (.poolgive k _) => k == n
    | .marker _ (.pooltake k _ _ _) => k == n
    | _ => false)))

/-- Nodes that the Work Distributor holds for a context (R145). -/
def maxNodes : Nat := 4096

/-- The nodes of a `GRAPH` packet, when its record is sound. -/
def graphNodes (s : State) (p : Packet) : Option (List NodeRec) :=
  (s.ctxs.find? p.ctx).bind (fun c => readGraph s c (p.f 0x10 8))

/-- Are there nodes left for a `GRAPH`? -/
def graphRoom (s : State) (p : Packet) : Bool :=
  let held := ((s.graphs.vals.filter (fun g => g.ctx == p.ctx)).map (fun g => g.nodes.length)).sum
  p.type != tGraph || (graphNodes s p).all (fun ns => decide (held + ns.length ≤ maxNodes))

/-- May a packet start now, its resources being free? -/
def startable (s : State) (p : Packet) : Bool :=
  mayStart s p && poolsFree s p && graphRoom s p && (p.type != tPoolset || !poolBusy s (p.f 0x28 1 % 16))

/-- Does packet `a` come before `b` in the Work Distributor's selection (R343)? -/
def selectBefore (s : State) (a b : Packet) : Bool :=
  let prio := fun (p : Packet) => if p.aged then 3 else p.prio
  let turn := fun (p : Packet) => ((p.ctx + 63 - s.wdCtx) % 64, (p.q + 63 - s.wdQ.getD p.ctx 63) % 64)
  if prio a ≠ prio b then decide (prio b < prio a)
  else if (turn a).1 ≠ (turn b).1 then decide ((turn a).1 < (turn b).1)
  else if (turn a).2 ≠ (turn b).2 then decide ((turn a).2 < (turn b).2)
  else decide (a.idx ≤ b.idx)

/-- Is a packet the one that starts next? -/
def selected (s : State) (i : Nat) : Option Packet :=
  match s.packets.find? i with
  | none => none
  | some p =>
    if startable s p && s.packets.all (fun e => e.1 == i || !startable s e.2 || selectBefore s p e.2) then some p else none

/-- The packet starts: its level (a submitting grid's own, else the queue's), its time, the Work Distributor's turn. -/
def startPkt (s : State) (i : Nat) (p : Packet) : State × Packet :=
  let level := ((p.by_.bind s.grid?).map (·.level)).getD (queueLevel s p.ctx p.q)
  let p := { p with st := .started, tstart := s.time, level := level, able := none, aged := false }
  ({ s.setPkt i p with wdCtx := p.ctx, wdQ := s.wdQ.set p.ctx p.q }, p)

/-- PRIORITY_AGING: a packet that has been able to start for 100 µs counts as priority 3 (R343). -/
def execPriorityAging (pkt : Nat) (s : State) : Host.Outcome State Fault Refusal :=
  .next (
    match s.packets.find? pkt with
    | none => s
    | some p =>
      if startable s p && p.able.any (fun t => decide (t + 100000 ≤ s.time)) then s.setPkt pkt { p with aged := true } else s)

/-- The Work Distributor notes since when each packet has been able to start (R343). -/
def watchPackets (s : State) : State :=
  { s with packets := s.packets.mapVals (fun _ p =>
      if p.st != .read then p
      else { p with able := if startable s p then some (p.able.getD s.time) else none }) }

/-! ## Refusals (R339) -/

/-- Header checks that all types share (R335). -/
def headerOk (s : State) (p : Packet) : Bool :=
  let early := !p.early || (match p.node with
    | some _ => true
    | none => (prevOf s p).any (fun b => b.type == tLaunch))
  decide (p.f 1 1 < 16) && (p.type == tLaunch || (!p.cont && !p.fst && p.f 2 2 == 0)) && p.cmpl % 64 == 0 && early

/-- Checks of a `LEXT` (R335, R338). -/
def lextOk (p : Packet) : Bool :=
  !p.cont || (p.lext != [] && p.lx 1 3 == 0 && p.lx 4 4 / 4 % 64 == 0 &&
    (p.hasLadder || (p.lx 4 4 == 0 && p.lx 8 16 == 0)))

/-- Fields of a `LAUNCH` (R337), but for barrier counts and those that reason 5 covers. -/
def launchFieldsOk (p : Packet) : Bool :=
  p.f 0x10 8 % 64 == 0 && decide (1 ≤ p.x) && p.split != 0 && decide (p.f 0x23 1 < 128) && decide (1 ≤ p.y) &&
  decide (1 ≤ p.z) && (p.f 0x2C 1 == 0 || p.f 0x2C 1 == 2 || p.f 0x2C 1 == 4) && p.f 0x2F 1 == 0 && p.f 0x30 8 % 256 == 0 &&
  (p.fst == (p.f 0x38 4 != 0)) && p.f 0x3C 4 == 0 && decide (p.total ≤ 2 ^ 48)

/-- Checks of a launch's ladder against R29 and the kernel. -/
def ladderOk (p : Packet) (k : Kernel) : Bool :=
  p.hasLadder == k.ladder &&
  (!k.ladder || (p.lx 5 3 * 256 == k.ltsize && tileSizeOk k.ltsize && (bitAt (p.lx 4 4) 1 == (k.lopen == 1)) &&
    p.lx 8 8 % 64 == 0 && canonical (p.lx 8 8) && p.lx 0x10 8 % 256 == 0 && canonical (p.lx 0x10 8) &&
    decide (p.total ≤ 16777216)))

/-- Depth of the grid that submitted a packet; none for a host's. -/
def byDepth (s : State) (p : Packet) : Option Nat := (p.by_.bind s.grid?).map (·.depth)

/-- The grid that a launch starts. -/
def gridOf (s : State) (p : Packet) (i : Nat) (k : Kernel) (kdesc : Nat) (producer : Option Nat) : Grid :=
  { ctx := p.ctx, level := p.level, prio := p.prio, pkt := i, kern := k, kdesc := kdesc
    ladder := if p.hasLadder then some ⟨p.lx 8 8, p.lx 0x10 8, k.ltsize, p.total, k.ls, k.lopen == 1⟩ else none
    cone := ⟨p.lx 0x18 8, p.lx 0x20 8, p.lx 0x28 8⟩
    parent := p.by_.filter (fun g => (s.grid? g).isSome), depth := ((byDepth s p).map (· + 1)).getD 0
    producer := producer, key := BitVec.ofNat 128 (p.lx 0x30 16), args := BitVec.ofNat 64 (p.f 0x18 8), tcnt := p.f 0x38 4
    fst := p.fst, x := p.x, y := p.y, z := p.z, policy := p.policy, fixedVar := p.fixedVar, split := p.split
    fuse := bitAt (p.f 0x23 1) 6, switchWait := p.f 0x28 4, qgrp := p.f 0x2C 1, pkgB := p.f 2 1, podB := p.f 3 1
    quadB := p.f 0x2D 1, dieB := p.f 0x2E 1, swArea := p.f 0x30 8, cmpl := p.cmpl, code := p.code, handed := 0, launched := 0
    ended := 0, st := .running, clkDie := 0, firstCycle := none, endCycle := (s.die 0).clk / 50, cutCores := [], skips := 0, replays := 0
    vused := [], floor := 0xFFFF, fq := 0, recordDone := false }

/-- The lowest reason for which a launch is refused (R339), 0 when it is not. -/
def refusal (s : State) (p : Packet) (k? : Option Kernel) (early : Bool) : Nat :=
  if !headerOk s p || !early || !lextOk p || !launchFieldsOk p then 1
  else
    match k? with
    | none => 2
    | some k =>
      if !k.sws.isEmpty && p.f 0x30 8 == 0 then 1
      else if p.policy = 3 || !variantsPossible (gridOf s p 0 k 0 none) then 3
      else if !ladderOk p k then 4
      else if p.fst && (p.level == 0 || p.y != 1 || p.z != 1 || decide (65536 < p.x)) then 5
      else if (byDepth s p).any (fun d => decide (8 ≤ d)) then 6
      else if 32 < p.f 2 1 ∨ 16 < p.f 3 1 ∨ 64 < p.f 0x2D 1 ∨ 64 < p.f 0x2E 1 then 7
      else 0

/-! ## LAUNCH (R337–R344) -/

/-- Writes a ladder's initial header and tile entries (R31), before the grid is among those whose headers are live. Bytes on pages that are not there or may not be written are
left, and a header whose page cannot be read is registered as no ladder (log 118). -/
def initLadder (s : State) (c : Ctx) (l : Ladder) : State :=
  let h : List Byte := leBytes 8 l.base ++ leBytes 4 l.tsize ++ leBytes 4 l.t ++ leBytes 2 0xFFFF ++ leBytes 2 0 ++
    leBytes 4 (l.s + (if l.opn then 4 else 0)) ++ leBytes 16 0 ++ (List.range 4).flatMap (fun _ => leBytes 2 0xFFFF) ++ leBytes 16 0
  let s := storeVirt s c l.hdr h
  let s := (List.range l.t).foldl (fun s t => storeVirt s c (tileEntry l t) (leBytes 8 0xFFFF)) s
  match walkCtx s c l.hdr .read with
  | .ok p _ _ _ => { s with ladders := if s.ladders.contains p then s.ladders else p :: s.ladders }
  | _ => s

/-- Blocks that leave the Work Distributor at once when a grid starts (log 63). -/
def handOutBatch : Nat := 4096

/-- Puts a grid that passes every check into the machine. A grid whose parent has been cut ends with it (R40). -/
def startGrid (s : State) (i : Nat) (p : Packet) (g : Grid) : State :=
  let gid := s.nextGrid
  let cut := (g.parent.bind s.grid?).any (fun q => q.st == .cut)
  let s := match g.ladder, s.ctxs.find? g.ctx with
    | some l, some c => initLadder s c l
    | _, _ => s
  let s := { s with grids := s.grids.set gid g, nextGrid := gid + 1, pkgBars := s.pkgBars - g.pkgB,
                    podBars := s.podBars - g.podB }
  let s := s.setPkt i { p with grid := some gid }
  if cut then endGrid s gid .cut else handOut handOutBatch s gid

/-- A started `LAUNCH`: refused, or a grid. `kdesc` is the kernel record it runs, `producer` that of an early start. -/
def launchPkt (s : State) (i : Nat) (p : Packet) (kdesc : Nat) (producer : Option Nat) (early : Bool) : State :=
  match s.ctxs.find? p.ctx with
  | none => s
  | some c =>
    let k? := if kdesc % 64 = 0 then (readKernel s c kdesc).filter (kernelCode s c) else none
    match refusal s p k? early, k? with
    | 0, some k => startGrid s i p (gridOf s p i k kdesc producer)
    | r, _ => s.setPkt i (p.finish sRefused r)

/-- LAUNCH: the packet starts one grid, or is refused. A packet of no known type is refused here too. -/
def execLaunch (pkt : Nat) (s : State) : Host.Outcome State Fault Refusal :=
  .next (
    match selected s pkt with
    | none => s
    | some p =>
      if p.type = tLaunch then
        let producer := if p.early then (prevOf s p).bind (·.grid) else none
        let (s, p) := startPkt s pkt p
        launchPkt s pkt p (p.f 0x10 8) producer true
      else if p.type = 0 ∨ p.type = tLext ∨ tPoolset < p.type then
        let (s, p) := startPkt s pkt p
        s.setPkt pkt (p.finish sRefused 1)
      else s)

/-! ## Other packets (R340, R341) -/

/-- Are the bytes of a list of ranges, offset and length, all zero? -/
def zeroAt (p : Packet) (rs : List (Nat × Nat)) : Bool := rs.all (fun r => p.f r.1 r.2 == 0)

/-- A packet of a type that starts now, unless it is refused: `ok` is its table's check. -/
def startTyped (s : State) (pkt type : Nat) (ok : Packet → Bool) (k : State → Packet → State) : State :=
  match selected s pkt with
  | none => s
  | some p =>
    if p.type ≠ type then s
    else
      let refused := !headerOk s p || !ok p
      let (s, p) := startPkt s pkt p
      if refused then s.setPkt pkt (p.finish sRefused 1) else k s p

/-- Fields of a `COPY`. -/
def copyOk (p : Packet) : Bool :=
  decide (1 ≤ p.f 0x20 4) && decide (p.f 0x24 1 < 2) && zeroAt p [(0x25, 3), (0x38, 8)] &&
  (p.f 0x24 1 != 1 || p.f 0x28 8 % 8 == 0)

/-- The engine operation of a `COPY`. -/
def copyOp (s : State) (i : Nat) (p : Packet) : State :=
  let id := s.nextOp
  let stamp := if p.f 0x24 1 = 1 then some (0, p.f 0x28 8, p.f 0x30 8) else none
  let o : EngOp :=
    { id := id, cls := 0, blk := 0, issuers := [], pkt := some i, lanes := 0,
      kind := .copy [⟨0, p.f 0x10 8, 0, p.f 0x18 8, p.f 0x20 4⟩] stamp, ready := true, started := false, moved := [],
      stamped := false, fault := none, pf := none, done := false, engine := 0 }
  { s with ops := s.ops ++ [o], nextOp := id + 1 }.setPkt i { p with op := some id }

/-- COPY (packet): one bulk copy between global addresses. -/
def execCopyPacket (pkt : Nat) (s : State) : Host.Outcome State Fault Refusal :=
  .next (startTyped s pkt tCopy copyOk (fun s p => copyOp s pkt p))

/-- Stores or adds to a word at its home (R145, R340, R389); a word that cannot be written ends it with `FAULT`, one on a
page that is not present waits. A node's word need not be aligned, and may then lie on two pages. -/
def signalWord (s : State) (c : Ctx) (va v : Nat) (add : Bool) : Option (State × Bool) :=
  match walkCtx s c va .write, walkCtx s c (va + 7) .write with
  | .ok p _ _ _, .ok q _ _ _ =>
    let k := min 8 (65536 - va % 65536)
    let q := q + k - 7
    let old := if add then leNat (s.mem.read p k ++ s.mem.read q (8 - k)) else 0
    let bs := leBytes 8 ((old + v) % 2 ^ 64)
    let s := spoil (unitWrite s p (bs.take k)) p k
    some (if k = 8 then s else spoil (unitWrite s q (bs.drop k)) q (8 - k), true)
  | .prot, _ => some (s, false)
  | _, .prot => some (s, false)
  | _, _ => none

/-- A started `SIGNAL` is performed, unless its word's page is not present: then it stays started. -/
def signalGo (s : State) (pkt : Nat) (p : Packet) : State :=
  match (s.ctxs.find? p.ctx).bind (fun c => signalWord s c (p.f 0x10 8) (p.f 0x18 8) (p.f 0x20 1 == 1)) with
  | some (s, done) => s.setPkt pkt (p.finish (if done then sDone else sFault) 0)
  | none => s

/-- SIGNAL (packet): starts, or tries its word again. -/
def execSignal (pkt : Nat) (s : State) : Host.Outcome State Fault Refusal :=
  .next (
    match s.packets.find? pkt with
    | none => s
    | some p =>
      if p.st == .started && p.type == tSignal && p.node.isNone then signalGo s pkt p
      else
        let ok := fun (p : Packet) => p.f 0x10 8 % 8 == 0 && decide (p.f 0x20 1 < 2) && zeroAt p [(0x21, 31)]
        startTyped s pkt tSignal ok (fun s p => signalGo s pkt p))

/-- Does a word meet the condition of a `WAIT`: 0 `ge`, 1 `eq`, 2 `ne`? -/
def waitMet (cond w v : Nat) : Bool := monCond cond w v

/-- A started `WAIT` reads its word at its home. -/
def waitLook (s : State) (pkt : Nat) (p : Packet) : State :=
  match (s.ctxs.find? p.ctx).bind (fun c => natVirt s c (p.f 0x10 8) 8) with
  | some w => if waitMet (p.f 0x20 1) w (p.f 0x18 8) then s.setPkt pkt (p.finish sDone 0) else s
  | none => s

/-- WAIT (packet): starts, or looks at its word again. -/
def execWaitPacket (pkt : Nat) (s : State) : Host.Outcome State Fault Refusal :=
  .next (
    match s.packets.find? pkt with
    | none => s
    | some p =>
      if p.st == .started && p.type == tWait && p.node.isNone then waitLook s pkt p
      else
        let ok := fun (p : Packet) =>
          p.f 0x10 8 % 8 == 0 && decide (p.f 0x20 1 < 3) && zeroAt p [(0x21, 7), (0x30, 16)]
        startTyped s pkt tWait ok (fun s p => waitLook s pkt p))

/-- WAIT_PACKET_TIMEOUT. -/
def execWaitPacketTimeout (pkt : Nat) (s : State) : Host.Outcome State Fault Refusal :=
  .next (
    match s.packets.find? pkt with
    | none => s
    | some p =>
      if p.st == .started && p.type == tWait && p.node.isNone && p.f 0x28 8 != 0 &&
          decide (p.tstart + p.f 0x28 8 ≤ s.time) then s.setPkt pkt (p.finish sTimeout 0)
      else s)

/-- SETDET: packets that start later in the queue run at the new level (R341). -/
def execSetdet (pkt : Nat) (s : State) : Host.Outcome State Fault Refusal :=
  .next (
    let ok := fun (p : Packet) => decide (p.f 0x10 1 < 3) && zeroAt p [(0x11, 47)]
    startTyped s pkt tSetdet ok (fun s p =>
      let q := queueRun s p.ctx p.q
      let s := { s with queues := s.queues.set (64 * p.ctx + p.q) { q with level := some (p.f 0x10 1) } }
      s.setPkt pkt (p.finish sDone 0)))

/-- Fields of a `POOLSET` (R157, R340). -/
def poolsetOk (p : Packet) : Bool :=
  decide (p.f 0x28 1 < 16) && zeroAt p [(0x2A, 2), (0x30, 16)] &&
  ((p.f 0x18 8 == 0 && p.f 0x20 8 == 0) ||
    (decide (8 ≤ p.f 0x29 1) && decide (p.f 0x29 1 ≤ 30) && p.f 0x18 8 % 2 ^ p.f 0x29 1 == 0))

/-- POOLSET: sets a pool's state, or releases the pool. -/
def execPoolset (pkt : Nat) (s : State) : Host.Outcome State Fault Refusal :=
  .next (startTyped s pkt tPoolset poolsetOk (fun s p =>
    let n := p.f 0x28 1
    let owner := (s.pools.find? n).bind (·.ctx)
    if owner.any (fun c => c != p.ctx) then s.setPkt pkt (p.finish sRefused 8)
    else
      let free := p.f 0x18 8 = 0 ∧ p.f 0x20 8 = 0
      let pool : Pool := ⟨p.f 0x10 8, p.f 0x18 8, p.f 0x20 8, p.f 0x29 1, some p.ctx, p.f 0x2C 4⟩
      let s := { s with pools := if free then s.pools.erase n else s.pools.set n pool }
      s.setPkt pkt (p.finish sDone 0)))

end Sys2Proof.Machine
end

