-- ==== Sys2Proof/Machine/Graph.lean ====
section
/-! DEFINITION. Graphs: starting one, its nodes, loops and their runs (09_tasks_graphs R145, R146; 24_queues_dispatch
R340, R342). A graph run is numbered by its packet. -/

namespace Sys2Proof.Machine

open Sys2Proof

/-! ## Nodes and edges (R145, R342) -/

/-- The status `POOLDRY`, `LIMIT` or `TIMEOUT` with which a node ended, in this run of its loop or the first time in an
earlier one, and its runs then (R342, log 120). -/
def NodeRun.oddEnd (n : NodeRun) : Option (Nat × Nat) :=
  match n.odd, n.status with
  | some e, _ => some e
  | none, some st => if st = sPoolDry ∨ st = sLimit ∨ st = sTimeout then some (st, n.runs) else none
  | none, none => none

namespace GraphRun

/-- A node's record. -/
def rec? (r : GraphRun) (i : Nat) : Option NodeRec := r.nodes[i]?
/-- A node's run state. -/
def node (r : GraphRun) (i : Nat) : NodeRun := r.runs.getD i ⟨none, none, 0, false, none, none⟩
def setNode (r : GraphRun) (i : Nat) (n : NodeRun) : GraphRun := { r with runs := r.runs.set i n }

/-- Has a node come to an end: completed, or left out because no `COND` took it? -/
def resolved (r : GraphRun) (i : Nat) : Bool := (r.node i).status.isSome

/-- The innermost other `LOOP` whose body holds a node (log 129). -/
def loopOf (r : GraphRun) (i : Nat) : Option Nat :=
  let ls := (r.nodes.zipIdx).filter (fun e => e.1.inBody i && e.2 != i)
  (ls.find? (fun a => ls.all (fun b => decide (a.1.b1 - a.1.b0 ≤ b.1.b1 - b.1.b0)))).map Prod.snd

/-- Has a `LOOP` started and not ended? -/
def loopRuns (r : GraphRun) (i : Nat) : Bool := (r.node i).started.isSome && !r.resolved i

/-- Is a node's own level of the graph running? -/
def levelRuns (r : GraphRun) (i : Nat) : Bool := (r.loopOf i).all r.loopRuns

/-- Is a node the one that its loop's run begins at? -/
def isFirst (r : GraphRun) (i : Nat) : Bool := ((r.loopOf i).bind r.rec?).any (fun l => l.b0 == i)

/-- The edges into a node: source, and which of its successors it is. -/
def edgesTo (r : GraphRun) (i : Nat) : List (Nat × Nat) :=
  if r.isFirst i then []
  else (r.nodes.zipIdx).flatMap (fun e => ((e.1.succ.zipIdx).filter (fun t => t.1 == i)).map (fun t => (e.2, t.2)))

/-- May control have come along an edge: its source has completed, and a `COND` has taken it? -/
def live (r : GraphRun) (e : Nat × Nat) : Bool :=
  (r.node e.1).status.any (fun st => st != 0) &&
  (match r.rec? e.1 with
    | some n => n.kind != kCond || e.2 == (if (r.node e.1).zero then 0 else 1)
    | none => false)

/-- May a node start? -/
def ready (r : GraphRun) (i : Nat) : Bool :=
  let es := r.edgesTo i
  decide (i < r.nodes.length) && (r.node i).started.isNone && !r.resolved i && r.levelRuns i &&
  es.all (fun e => r.resolved e.1) && (es.isEmpty || es.any r.live)

/-- Is a node left out: every edge into it is resolved and none was taken? -/
def leftOut (r : GraphRun) (i : Nat) : Bool :=
  let es := r.edgesTo i
  (r.node i).started.isNone && !r.resolved i && r.levelRuns i && !es.isEmpty &&
  es.all (fun e => r.resolved e.1 && !r.live e)

/-- One pass over the nodes that are left out. -/
def settlePass (r : GraphRun) : GraphRun :=
  (List.range r.nodes.length).foldl (fun r i => if r.leftOut i then r.setNode i { r.node i with status := some 0 } else r) r

/-- Leaves out every node that no `COND` took. -/
def settle : Nat → GraphRun → GraphRun
  | 0, r => r
  | n + 1, r => settle n r.settlePass

/-- Has every node of a level come to an end? -/
def levelDone (r : GraphRun) (l : Option Nat) : Bool :=
  (List.range r.nodes.length).all (fun i => r.loopOf i != l || r.resolved i)

/-- Has the whole graph come to an end: every node has, or a `LOOP` that holds it? -/
def allDone (r : GraphRun) : Bool :=
  (List.range r.nodes.length).all (fun i =>
    r.resolved i || (r.nodes.zipIdx).any (fun e => e.1.inBody i && e.2 != i && r.resolved e.2))

/-- The body of `LOOP` node `l` starts afresh; how its nodes ended is kept for the graph's record. -/
def resetBody (r : GraphRun) (l : Nat) (rec : NodeRec) : GraphRun :=
  { r with runs := r.runs.mapVals (fun i n => if rec.inBody i && i != l then ⟨none, none, 0, false, none, n.oddEnd⟩ else n) }

/-- Status and runs that the graph reports: those of the lowest-numbered `LOOP` or `WAIT` that ended otherwise than
`DONE`; without one, `DONE` and the runs of the first `LOOP`. -/
def report (r : GraphRun) : Nat × Nat :=
  match (List.range r.nodes.length).findSome? (fun i => (r.node i).oddEnd) with
  | some e => e
  | none =>
    (sDone, (((List.range r.nodes.length).find? (fun i => (r.rec? i).any (fun n => n.kind == kLoop))).map
      (fun i => (r.node i).runs)).getD 0)

end GraphRun

/-- Keeps a graph run, its left-out nodes settled; one whose nodes have all come to an end ends its packet. -/
def putGraph (s : State) (run : Nat) (r : GraphRun) : State :=
  let r := r.settle r.nodes.length
  if r.allDone then
    let (st, n) := r.report
    { s with graphs := s.graphs.erase run }.updPkt run (fun p => { p.finish st 0 with runs := n })
  else { s with graphs := s.graphs.set run r }

/-- A node ends with a status. -/
def endNode (s : State) (run i status : Nat) : State :=
  match s.graphs.find? run with
  | none => s
  | some r => putGraph s run (r.setNode i { r.node i with status := some status })

/-- GRAPH: a graph packet starts, or is refused. -/
def execGraph (pkt : Nat) (s : State) : Host.Outcome State Fault Refusal :=
  .next (
    let ok := fun (p : Packet) => p.f 0x10 8 % 64 == 0 && zeroAt p [(0x18, 40)]
    startTyped s pkt tGraph ok (fun s p =>
      match graphNodes s p with
      | none => s.setPkt pkt (p.finish sRefused 8)
      | some ns => putGraph (s.setPkt pkt { p with graph := some pkt }) pkt ⟨pkt, p.ctx, ns, []⟩))

/-- A node of a kind that may start, with its graph's packet and context. -/
def startingNode (s : State) (run i kind : Nat) : Option (GraphRun × NodeRec × Packet × Ctx) :=
  match s.graphs.find? run, s.packets.find? run with
  | some r, some p =>
    match r.rec? i, s.ctxs.find? p.ctx with
    | some n, some c => if n.kind = kind ∧ r.ready i = true then some (r, n, p, c) else none
    | _, _ => none
  | _, _ => none

/-! ## `KERN` and `COPY` nodes -/

/-- The packet of a node: 64 bytes at its address, with the `LEXT` that follows a `LAUNCH` that names one. -/
def nodePacket (s : State) (c : Ctx) (g : Packet) (run i addr : Nat) : Option Packet :=
  match readVirt s c addr 64 with
  | none => none
  | some bs =>
    let lext := if wantsLext (leNat bs) then ((readVirt s c (addr + 64) 64).filter (fun l => field (leNat l) 0 1 == tLext)).getD []
      else []
    some { newPacket s g.ctx g.q g.idx bs lext g.prio g.device g.by_ with
      st := .started, level := g.level, tstart := s.time, node := some (run, i) }

/-- The node has started with a packet. -/
def nodeStarted (s : State) (run i : Nat) (r : GraphRun) (pkt : Option Nat) : State :=
  { s with graphs := s.graphs.set run (r.setNode i { r.node i with started := some s.time, pkt := pkt }) }

/-- The grid that an early start takes as its producer: its single predecessor's, a `KERN` that has started; `none` when
the node has no such predecessor (R342). -/
def nodeProducer (s : State) (r : GraphRun) (i : Nat) : Option (Option Nat) :=
  match r.edgesTo i with
  | [(m, _)] =>
    if (r.rec? m).any (fun n => n.kind == kKern) then
      (r.node m).pkt.map (fun k => (s.packets.find? k).bind (·.grid))
    else none
  | _ => none

/-- Does a node have a single predecessor, a `KERN`? -/
def oneKern (r : GraphRun) (i : Nat) : Bool :=
  match r.edgesTo i with
  | [(m, _)] => (r.rec? m).any (fun n => n.kind == kKern)
  | _ => false

/-- May a `KERN` node marked for early start begin: its producer has started? -/
def earlyReady (r : GraphRun) (i : Nat) : Bool :=
  oneKern r i && (r.node i).started.isNone && !r.resolved i && r.levelRuns i &&
    (r.edgesTo i).all (fun e => (r.node e.1).pkt.isSome)

/-- KERN: a node launches a grid from its packet, or the packet is refused. -/
def execKern (run node : Nat) (s : State) : Host.Outcome State Fault Refusal :=
  .next (
    match s.graphs.find? run, s.packets.find? run with
    | some r, some g =>
      match r.rec? node, s.ctxs.find? g.ctx with
      | some n, some c =>
        if n.kind ≠ kKern then s
        else
          match nodePacket s c g run node n.addr with
          | none => s
          | some p =>
            if !(r.ready node || (p.early && earlyReady r node)) || !poolsFree s p then s
            else
              let id := s.nextPkt
              let kdesc := if n.xtra = 0 then p.f 0x10 8 else n.xtra
              let producer := if p.early then (nodeProducer s r node).bind (fun g => g) else none
              let s := nodeStarted { s with packets := s.packets.set id p, nextPkt := id + 1 } run node r (some id)
              if p.type ≠ tLaunch then s.setPkt id (p.finish sRefused 1)
              else launchPkt s id p kdesc producer (!p.early || oneKern r node)
      | _, _ => s
    | _, _ => s)

/-- COPY (node): one bulk copy from the node's packet. -/
def execCopyNode (run node : Nat) (s : State) : Host.Outcome State Fault Refusal :=
  .next (
    match startingNode s run node kCopy with
    | none => s
    | some (r, n, g, c) =>
      match nodePacket s c g run node n.addr with
      | none => s
      | some p =>
        let id := s.nextPkt
        let s := nodeStarted { s with packets := s.packets.set id p, nextPkt := id + 1 } run node r (some id)
        if p.type ≠ tCopy ∨ p.early = true ∨ headerOk s p = false ∨ copyOk p = false then s.setPkt id (p.finish sRefused 1)
        else copyOp s id p)

/-! ## `LOOP` (R146) -/

/-- LOOP: the node starts; its first run begins. -/
def execLoop (run node : Nat) (s : State) : Host.Outcome State Fault Refusal :=
  .next (
    match startingNode s run node kLoop with
    | none => s
    | some (r, _, _, _) => nodeStarted s run node r none)

/-- LOOP_RUN_END: every body node has come to an end; the condition word decides. -/
def execLoopRunEnd (run node : Nat) (s : State) : Host.Outcome State Fault Refusal :=
  .next (
    match s.graphs.find? run with
    | none => s
    | some r =>
      match r.rec? node, s.ctxs.find? r.ctx with
      | some n, some c =>
        if n.kind ≠ kLoop ∨ r.loopRuns node = false ∨ r.levelDone (some node) = false then s
        else
          match natVirt s c n.addr 8 with
          | none => s
          | some w =>
            let k := (r.node node).runs + 1
            let r := r.setNode node { r.node node with runs := k }
            if w = 0 then putGraph s run (r.setNode node { r.node node with status := some sDone })
            else if w = 2 then putGraph s run (r.setNode node { r.node node with status := some sPoolDry })
            else if k < n.xtra % 2 ^ 32 then putGraph s run (r.resetBody node n)
            else putGraph s run (r.setNode node { r.node node with status := some sLimit })
      | _, _ => s)

/-! ## `COND`, `SIGNAL`, `WAIT` -/

/-- COND: reads its word with an acquire and completes. -/
def execCond (run node : Nat) (s : State) : Host.Outcome State Fault Refusal :=
  .next (
    match startingNode s run node kCond with
    | none => s
    | some (r, n, _, c) =>
      match natVirt s c n.addr 8 with
      | none => s
      | some w =>
        putGraph s run (r.setNode node { r.node node with started := some s.time, status := some sDone, zero := decide (w = 0) }))

/-- SIGNAL (node): stores a word at its home. -/
def execSignalNode (run node : Nat) (s : State) : Host.Outcome State Fault Refusal :=
  .next (
    match startingNode s run node kSignal with
    | none => s
    | some (r, n, _, c) =>
      match signalWord s c n.addr n.xtra false with
      | none => s
      | some (s, ok) =>
        putGraph s run (r.setNode node
          { r.node node with started := some s.time, status := some (if ok then sDone else sFault) }))

/-- A started `WAIT` node looks at its word. -/
def waitNodeLook (s : State) (run i : Nat) (c : Ctx) (n : NodeRec) : State :=
  match natVirt s c n.addr 8 with
  | some w => if n.xtra ≤ w then endNode s run i sDone else s
  | none => s

/-- WAIT (node): starts, or looks at its word again. -/
def execWaitNode (run node : Nat) (s : State) : Host.Outcome State Fault Refusal :=
  .next (
    match startingNode s run node kWait with
    | some (r, n, _, c) => waitNodeLook (nodeStarted s run node r none) run node c n
    | none =>
      match s.graphs.find? run with
      | none => s
      | some r =>
        match r.rec? node, s.ctxs.find? r.ctx with
        | some n, some c => if n.kind = kWait ∧ r.loopRuns node = true then waitNodeLook s run node c n else s
        | _, _ => s)

/-- WAIT_NODE_TIMEOUT. -/
def execWaitNodeTimeout (run node : Nat) (s : State) : Host.Outcome State Fault Refusal :=
  .next (
    match s.graphs.find? run with
    | none => s
    | some r =>
      match r.rec? node with
      | none => s
      | some n =>
        let expired := (r.node node).started.any (fun t => decide (t + 1000 * n.wto ≤ s.time))
        if n.kind = kWait ∧ r.loopRuns node = true ∧ n.wto ≠ 0 ∧ expired = true then endNode s run node sTimeout else s)

end Sys2Proof.Machine
end

