-- ==== Sys2Proof/Machine/Shake.lean ====
section
/-! DEFINITION. SHAKE256 (FIPS 202), which the spec names and does not define: PRESUMED, log 60 (26_platform R370, R377;
27_fleet R386, R387). -/

namespace Sys2Proof.Machine

open Sys2Proof

/-- The byte register that the round constants come from, after a number of steps. -/
def constReg : Nat → Nat
  | 0 => 1
  | n + 1 =>
    let r := 2 * constReg n
    if r < 256 then r else (r ^^^ 0x71) % 256

/-- The constant of a round: bit `2^j - 1` is the register's low bit after `7 * round + j` steps. -/
def roundConst (round : Nat) : DWord :=
  BitVec.ofNat 64 ((List.range 7).map (fun j => constReg (7 * round + j) % 2 * 2 ^ (2 ^ j - 1))).sum

/-- The lane that lane `x + 5 y` moves to: column `y`, row `2 x + 3 y`. -/
def nextLane (i : Nat) : Nat := i / 5 + 5 * ((2 * (i % 5) + 3 * (i / 5)) % 5)

/-- The moves of the 24 lanes outside the centre, from lane 1 on: from, to, and the rotation on the way. -/
def laneMoves : Nat → Nat → Nat → List (Nat × Nat × Nat)
  | 0, _, _ => []
  | n + 1, t, i => (i, nextLane i, (t + 1) * (t + 2) / 2 % 64) :: laneMoves n (t + 1) (nextLane i)

/-- Each lane with the parities of the columns beside its own. -/
def mixColumns (a : List DWord) : List DWord :=
  let parity := fun (x : Nat) => ((a.zipIdx).filter (fun e => e.2 % 5 == x % 5)).foldl (fun p e => p ^^^ e.1) 0
  (a.zipIdx).map (fun e => e.1 ^^^ parity (e.2 + 4) ^^^ (parity (e.2 + 1)).rotateLeft 1)

/-- The lanes moved and rotated. -/
def moveLanes (a : List DWord) : List DWord :=
  (a.take 1) ++ ((List.range 24).map (fun k =>
    match (laneMoves 24 0 1).find? (fun m => m.2.1 == k + 1) with
    | some (i, _, r) => (a.getD i 0).rotateLeft r
    | none => 0))

/-- A row with each lane changed by the two that follow it. -/
def mixRow (row : List DWord) : List DWord :=
  (row.zipIdx).map (fun e => e.1 ^^^ (row.getD ((e.2 + 2) % 5) 0 &&& (row.getD ((e.2 + 1) % 5) 0 ^^^ BitVec.allOnes 64)))

/-- One round on 25 lanes; its constant goes into lane 0. -/
def shakeRound (a : List DWord) (round : Nat) : List DWord :=
  let b := moveLanes (mixColumns a)
  let rows := (List.range 5).flatMap (fun y => mixRow ((b.drop (5 * y)).take 5))
  (rows.take 1).map (fun l => l ^^^ roundConst round) ++ rows.drop 1

/-- The 24 rounds. -/
def permute (a : List DWord) : List DWord := (List.range 24).foldl shakeRound a

/-- Bytes of a block of SHAKE256. -/
def shakeRate : Nat := 136

/-- Lanes of a rate block, zero above it. -/
def blockLanes (bs : List Byte) : List DWord := (List.range 25).map (fun i => BitVec.ofNat 64 (leNat ((bs.drop (8 * i)).take 8)))

/-- Absorbs the padded message, block by block. -/
def absorb : Nat → List DWord → List Byte → List DWord
  | 0, a, _ => a
  | n + 1, a, bs => absorb n (permute ((a.zip (blockLanes (bs.take shakeRate))).map (fun e => e.1 ^^^ e.2))) (bs.drop shakeRate)

/-- The message with SHAKE's suffix and padding. -/
def shakePad (m : List Byte) : List Byte :=
  let n := shakeRate - m.length % shakeRate
  if n = 1 then m ++ [0x9F] else m ++ [0x1F] ++ List.replicate (n - 2) 0 ++ [0x80]

/-- SHAKE256 with 64 bytes of output. -/
def shake256 (m : List Byte) : List Byte :=
  let p := shakePad m
  ((absorb (p.length / shakeRate) (List.replicate 25 0) p).take 8).flatMap (fun l => leBytes 8 l.toNat)

end Sys2Proof.Machine
end

