-- ==== Sys2Proof/Machine/System.lean ====
section
/-! DEFINITION. Special registers: `sread`, `swrite` (01_machine R28; 16_isa_control R286, R287; 27_fleet R379). -/

namespace Sys2Proof.Machine

open Sys2Proof

/-- All ones. -/
def ones64 : Nat := 2 ^ 64 - 1

/-- Cycles since the first instruction of a grid's first block (R40), by the clock of the die that issued it; where dies
run at different rates the spec names none (DESIGN CHOICE, log 106). -/
def Grid.elapsed (s : State) (g : Grid) : Nat :=
  match g.firstCycle with
  | none => 0
  | some c => (s.die g.clkDie).clk / 50 - c

/-- The grid whose limit a grid runs under: its own where set, else the one of the grid that launched it (R40). -/
def coneOwner (s : State) (set : Cone → Nat) : Nat → Nat → Option (Nat × Grid)
  | 0, _ => none
  | n + 1, gid =>
    match s.grid? gid with
    | none => none
    | some g =>
      if set g.cone ≠ 0 then some (gid, g)
      else
        match g.parent with
        | some p => coneOwner s set n p
        | none => none

/-- Grids nest to this depth (R148). -/
def maxDepth : Nat := 8

/-- The remainder of a limit; all ones where it is not set, and at `REPEAT` and `PORTABLE` (R28, R379). -/
def coneRest (s : State) (gid level : Nat) (set : Cone → Nat) (used : Nat → Grid → Nat) : Nat :=
  if 1 ≤ level then ones64
  else
    match coneOwner s set (maxDepth + 1) gid with
    | none => ones64
    | some (o, g) => set g.cone - used o g

/-- The stream pointer of the block's own channel, while it runs and after (R77). -/
def wptrOf (s : State) (b core dir : Nat) : Nat :=
  match lastChan (s.core core) dir with
  | none => 0
  | some ch => if ch.blk = b then (ch.moved % 4096) * 2 ^ 20 + ch.ptr else 0

/-- The tile's `LAST` (R28, R31); a free value where its entry cannot be read, since the spec gives none (DESIGN CHOICE,
log 144). -/
def tileLast (x : Cx) (l : Ladder) : Nat :=
  match x.s.ctxs.find? x.g.ctx with
  | none => 0xFFFF
  | some c => (natVirt x.s c (tileEntry l x.blk.lin) 2).getD ((Config.freeWord x.s.free 0).toNat % 2 ^ 16)

/-- A uniform special register (R28, R187). -/
def srUniform (x : Cx) (n : Nat) : Nat :=
  let g := x.g
  let core := x.blk.core
  let lin := x.blk.lin
  let placed := fun (v : Nat) => if g.level = 2 then 0 else v
  let timed := fun (v : Nat) => if 1 ≤ g.level then 0 else v
  match n with
  | 0x001 => x.c
  | 0x002 => lin % g.x
  | 0x003 => lin / g.x % g.y
  | 0x004 => lin / g.x / g.y
  | 0x005 => g.x + 2 ^ 24 * g.y + 2 ^ 40 * g.z
  | 0x006 => placed (core % 4)
  | 0x007 => placed (core / 4 % 48)
  | 0x008 => placed (core / 192)
  | 0x009 => placed x.s.ctl.pkgId.toNat
  | 0x00B => x.blk.vid
  | 0x010 => if g.ladder.isNone then 0 else x.blk.pass.getD 0xFFFF
  | 0x011 =>
    match g.ladder with
    | none => 0
    | some l => tileLast x l
  | 0x012 => coneRest x.s x.blk.grid g.level (·.cyc) (fun _ g => g.elapsed x.s)
  | 0x013 => coneRest x.s x.blk.grid g.level (·.nj) (fun o _ => Config.energy o x.s.time)
  | 0x014 => coneRest x.s x.blk.grid g.level (·.ns) (fun _ _ => x.s.time)
  | 0x019 => (g.key.extractLsb' 0 32).toNat
  | 0x01A => (g.key.extractLsb' 32 32).toNat
  | 0x01B => (g.key.extractLsb' 64 32).toNat
  | 0x01C => (g.key.extractLsb' 96 32).toNat
  | 0x020 => timed (x.s.clock core)
  | 0x021 => timed x.s.time
  | 0x024 => x.cr.getFstat.toNat
  | 0x028 => wptrOf x.s x.b core 0
  | 0x029 => wptrOf x.s x.b core 1
  | 0x030 => (outstanding x.s x.b x.c 0).length
  | 0x031 => (outstanding x.s x.b x.c 1).length
  | 0x032 => (outstanding x.s x.b x.c 2).length
  | 0x033 => (outstanding x.s x.b x.c 3).length
  | 0x034 => (outstanding x.s x.b x.c 4).length
  | 0x038 => (x.s.core core).dq.base
  | 0x039 => (x.s.core core).dq.lim
  | 0x03C => (x.cr.handler.map (fun h => h.trap.cause)).getD 0
  | 0x03D => (x.cr.handler.map (fun h => h.trap.taddr)).getD 0
  | _ => 0

/-- A special register of a thread. -/
def srThread (x : Cx) (n fx lane : Nat) : Nat :=
  match x.cr.threads.find? lane with
  | none => 0
  | some t =>
    match n with
    | 0x000 => lane
    | 0x00A => (t.ltid.getD fx 0).toNat
    | _ => (t.dctr.getD fx 0).toNat

/-- `sread`. The scratchpad is read where and when an access is performed, so a younger access sees every byte below the
pointer that a read of `WPTR` returned (R66). -/
def execSread (f : FmtS) (s : State) : Host.Outcome State Fault Refusal :=
  issueWith (.sread f) s (fun x =>
    let n := f.srn.toNat
    if (srInfo n).any (·.thread) then
      crewRes x (x.acts.foldl (fun cr l => cr.putOpr f.d (if n = 0 then 1 else 2) l (srThread x n f.fx.toNat l)) x.cr)
    else crewRes x (x.cr.putOpr f.d 2 0 (srUniform x n)))

/-- Does a core's deque hold records? -/
def dequeBusy (s : State) (core : Nat) : Bool := (dequeOf s core).any (fun d => decide (0 < d.1.count))

/-- A write of `DQLIM` (R287). -/
def writeDqlim (x : Cx) (v : Nat) : Res :=
  if v % 128 ≠ 0 ∨ dequeBusy x.s x.blk.core = true then .trapOpen cProt
  else
    let c := x.s.core x.blk.core
    .done (x.s.setCore x.blk.core { c with dq := { c.dq with lim := v } }) false

/-- A write of `DQBASE` binds the deque to the block and empties it (R142, R287). -/
def writeDqbase (x : Cx) (v : Nat) : Res :=
  let c := x.s.core x.blk.core
  if c.dq.owner = some x.b ∧ c.dq.base = v then .done x.s false
  else if v % 128 ≠ 0 ∨ c.dq.lim < v + 256 ∨ x.blk.bays.length * bayBytes c.split < c.dq.lim then .trapOpen cProt
  else .done (setDeque x.s x.blk.core x.blk ⟨some x.b, v, c.dq.lim, 0, 0⟩) false

def execSwrite (f : FmtS) (s : State) : Host.Outcome State Fault Refusal :=
  issueWith (.swrite f) s (fun x =>
    let v := x.uni f.a
    let fx := f.fx.toNat
    let lane := fun (l : Nat) => BitVec.ofNat 64 (x.val f.a 2 l (fun c => wrapTo 64 c.toInt))
    match f.srn.toNat with
    | 0x00A => crewRes x (x.acts.foldl (fun cr l => cr.updThread l (fun t => { t with ltid := t.ltid.set fx (lane l) })) x.cr)
    | 0x018 => crewRes x (x.acts.foldl (fun cr l => cr.updThread l (fun t => { t with dctr := t.dctr.set fx (lane l) })) x.cr)
    | 0x024 => crewRes x (x.cr.setFstat (BitVec.ofNat 6 v))
    | 0x038 => writeDqbase x (v % 2 ^ 32)
    | 0x039 => writeDqlim x (v % 2 ^ 32)
    | _ => .done x.s false)

end Sys2Proof.Machine
end

