-- ==== Sys2Proof/Machine/Complete.lean ====
section
/-! DEFINITION. The end of grids and packets: cones, cuts, completion, completion records and the manifest
(02_ladder R40–R44; 24_queues_dispatch R345; 27_fleet R386, R387). -/

namespace Sys2Proof.Machine

open Sys2Proof

/-! ## When a grid and its children are over (R40, R42, R148) -/

/-- Has a packet in a queue been read (a `LEXT` with its `LAUNCH`)? -/
def wasRead (s : State) (ctx q idx : Nat) : Bool :=
  s.packets.any (fun e => e.2.node.isNone && e.2.ctx == ctx && e.2.q == q &&
    (e.2.idx == idx || (e.2.idx + 1 == idx && e.2.lext != [])))

/-- Has a grid submitted packets that nobody has read? -/
def unreadSubs (s : State) (gid : Nat) : Bool :=
  s.queues.any (fun e => e.2.subs.any (fun u => u.2 == gid && !wasRead s (e.1 / 64) (e.1 % 64) u.1))

/-- Have all blocks of a grid ended (R275)? Blocks of a stopped grid that never launched never run (R41). -/
def blocksOver (s : State) (gid : Nat) (g : Grid) : Bool :=
  if g.st = .running then decide (g.total ≤ g.ended)
  else s.blocks.all (fun e => e.2.grid != gid || e.2.st == .ended)

/-- Has a packet come to its end, as far as a parent grid is concerned? -/
def packetOver (s : State) (p : Packet) : Bool :=
  p.st == .ended || p.st == .completed || (p.type != tLaunch && p.type != tGraph) ||
  (match p.grid with
    | some i => (s.grid? i).any (blocksOver s i)
    | none => false)

/-- Has everything that a grid submitted come to its end? -/
def subsOver (s : State) (gid : Nat) : Bool :=
  !unreadSubs s gid && s.packets.all (fun e => e.2.by_ != some gid || packetOver s e.2)

/-- The grids of a family. -/
def familyGrids (s : State) (gid : Nat) : List Grid := (family s gid).filterMap s.grid?

/-- Have all blocks of a grid and of its children ended, with nothing left that it or they submitted? -/
def familyOver (s : State) (gid : Nat) : Bool :=
  (family s gid).all (fun i => subsOver s i && (s.grid? i).all (blocksOver s i))

/-- Have the children of a grid completed (R148)? -/
def childrenDone (s : State) (gid : Nat) : Bool := s.grids.all (fun e => e.2.parent != some gid || e.2.st != .running)

/-- GRID_COMPLETE: all blocks of a grid and all its children have ended; `DONE` is set and the floor taken (R42). -/
def execGridComplete (grid : Nat) (s : State) : Host.Outcome State Fault Refusal :=
  .next (
    match s.grid? grid with
    | none => s
    | some g =>
      if g.st != .running || !familyOver s grid || !childrenDone s grid then s
      else
        let s := { s with bars := s.bars.filter (fun i => i.grid != grid) }
        let s :=
          match g.ladder, s.ctxs.find? g.ctx with
          | some l, some c =>
            let s := setCtl s c l 16
            s.setGrid grid { g with
              st := .done, floor := (natVirt s c (l.hdr + 0x10) 2).getD 0xFFFF,
              fq := (natVirt s c (l.hdr + 0x12) 2).getD 0 }
          | _, _ => s.setGrid grid { g with st := .done }
        (List.range 4).foldl tidyTasks s)

/-! ## The cone (R40, R41) -/

/-- Does the cone of a grid still run: some block of the grid or of a child has not ended, be the grid itself ended by a
fault? -/
def coneRuns (s : State) (gid : Nat) (g : Grid) : Bool :=
  g.st != .done && !familyOver s gid

/-- The cone expires: the grid and every grid that shares its cone are cut. -/
def expire (s : State) (gid : Nat) : State := (family s gid).foldl (fun s g => endGrid s g .cut) s

/-- Expires a cone whose limit is reached. -/
def expireIf (s : State) (gid : Nat) (reached : Grid → Bool) : State :=
  match s.grid? gid with
  | none => s
  | some g => if coneRuns s gid g && reached g then expire s gid else s

/-- CONE_CYCLE_EXPIRY. -/
def execConeCycleExpiry (grid : Nat) (s : State) : Host.Outcome State Fault Refusal :=
  .next (expireIf s grid (fun g => g.cone.cyc != 0 && g.firstCycle.isSome && decide (g.cone.cyc ≤ g.elapsed s)))

/-- CONE_ENERGY_EXPIRY: checked every µs. -/
def execConeEnergyExpiry (grid : Nat) (s : State) : Host.Outcome State Fault Refusal :=
  .next (expireIf s grid (fun g =>
    g.cone.nj != 0 && g.firstCycle.isSome && s.time % 1000 == 0 && decide (g.cone.nj ≤ Config.energy grid s.time)))

/-- CONE_DEADLINE_EXPIRY. -/
def execConeDeadlineExpiry (grid : Nat) (s : State) : Host.Outcome State Fault Refusal :=
  .next (expireIf s grid (fun g => g.cone.ns != 0 && decide (g.cone.ns ≤ s.time)))

/-! ## CUT_ARRIVAL (R41) -/

/-- What a cut leaves of a Store Path: everything is performed, return values are discarded. -/
def cutEntry (e : SpEntry) : SpEntry :=
  match e with
  | .atomic seq place n aop b c _ va lanes => .atomic seq place n aop b c none va lanes
  | .marker seq (.pooltake n _ pd lane) => .marker seq (.pooltake n none pd lane)
  | e => e

/-- A crew that a cut has reached: pending loads, acquires and interlocks are dropped, handlers and waits end. -/
def Crew.cutOff (cr : Crew) : Crew :=
  { cr with
    storePath := cr.storePath.map cutEntry
    loads := []
    returns := []
    acqs := []
    locks := []
    monitor := cr.monitor.map (fun m => { m with parked := none })
    trap := none
    handler := none
    pendingPf := none
    pfSeq := none
    late := none }

/-- Operations of a block after a cut: those that never issued, collectives, and those that wait for fault service are
abandoned; every other completes. -/
def cutOps (s : State) (blk : Nat) : State :=
  let mine := fun (o : EngOp) => o.blk == blk && o.pkt.isNone
  let coll := fun (o : EngOp) => match o.kind with
    | .coll _ _ _ _ _ _ => true
    | _ => false
  tidyOps { s with ops := (s.ops.filter (fun o => !(mine o && !o.ready))).map (fun o =>
    if mine o && (o.pf.isSome || coll o) then { o with done := true, pf := none } else o) }

/-- A block that a cut has reached. -/
def cutBlock (s : State) (core blk : Nat) : State :=
  let s := s.updBlock blk (fun k => { k with
    crews := k.crews.mapVals (fun _ cr => cr.cutOff)
    convs := k.convs.mapVals (fun _ v => { v with sig := none, signed := [], sigOp := none, copyFields := none, copies := [], copyOp := none })
    sealQ := none })
  let s := (List.range 4).foldl (fun s q =>
    let w := wqOf s core q
    if w.pops.any (fun p => p.1 == blk) then setWq s core q { w with pops := w.pops.filter (fun p => p.1 != blk) } else s) s
  let c := s.core core
  let s := s.setCore core { c with
    acqWait := c.acqWait.filter (fun e => e.1 != blk)
    slots := c.slots.mapVals (fun _ sl =>
      { sl with busy := sl.busy.filter (fun e => e.1 != blk), waiting := sl.waiting.filter (fun e => e.1 != blk) }) }
  cutOps (stopChannels s blk core) blk

/-- CUT_ARRIVAL: the cut, or the fault that ended the grid, reaches a core. -/
def execCutArrival (grid core : Nat) (s : State) : Host.Outcome State Fault Refusal :=
  .next (
    match s.grid? grid with
    | none => s
    | some g =>
      if (g.st != .cut && g.st != .faulted) || g.cutCores.contains core then s
      else
        let s := s.setGrid grid { g with cutCores := g.cutCores ++ [core] }
        let s := { s with bars := s.bars.filter (fun i => i.grid != grid) }
        let bs := (s.blocks.filter (fun e => e.2.grid == grid && e.2.core == core && e.2.st == .resident)).map Prod.fst
        (List.range 4).foldl tidyTasks (bs.foldl (fun s b => cutBlock s core b) s))

/-! ## COMPLETION_RECORD_WRITE (R345, R386, R387) -/

/-- Has a stopped grid with all its children nothing in flight any more? -/
def quiet (s : State) (gid : Nat) : Bool :=
  let fam := family s gid
  (familyGrids s gid).all (fun g => g.st != .running) && s.blocks.all (fun e => !fam.contains e.2.grid || e.2.st == .ended)

/-- A started packet as its completion record reports it, once what it commands has ended. -/
def finished (s : State) (p : Packet) : Option Packet :=
  if p.st == .ended then some p
  else if p.st != .started then none
  else
    match p.grid, p.op with
    | some gid, _ =>
      match s.grid? gid with
      | none => none
      | some g =>
        match g.st with
        | .running => none
        | .done => some (p.finish sDone 0)
        | .cut => if quiet s gid then some (p.finish sCut 0) else none
        | .faulted => if quiet s gid then some (p.finish sFault 0) else none
    | none, some op =>
      if (op? s op).all (·.done) then some (p.finish (if p.status = sFault then sFault else sDone) 0) else none
    | none, none => none

/-- Figures of a packet's grid: cycles, energy, skips, replays. -/
def figures (s : State) (p : Packet) : Packet :=
  match p.grid.bind s.grid? with
  | none => p
  | some g =>
    { p with
      cycles := match g.firstCycle with
        | some f => g.endCycle - f
        | none => 0
      energy := Config.energy (p.grid.getD 0) s.time
      skips := g.skips
      replays := ((familyGrids s (p.grid.getD 0)).map (·.replays)).sum }

/-- The kernel record that a packet names: its node's, where that replaces it. -/
def kdescOf (s : State) (p : Packet) : Nat :=
  match p.grid.bind s.grid? with
  | some g => g.kdesc
  | none =>
    let x := (p.node.bind (fun n => (s.graphs.find? n.1).bind (fun r => r.rec? n.2))).map (·.xtra)
    if x.getD 0 = 0 then p.f 0x10 8 else x.getD 0

/-- A manifest entry (R387). -/
def manifestEntry (s : State) (c : Ctx) (p : Packet) : List Byte :=
  let g := p.grid.bind s.grid?
  let vused := ((g.map (·.vused)).getD []).foldl (fun m v => m ||| 2 ^ v) 0
  let tag := fun (v : Nat) => ((g.bind (fun g => g.kern.vars.find? (fun w => w.vid == v))).map (·.tag)).getD 0
  leBytes 4 p.tag ++ leBytes 1 p.status ++ leBytes 1 p.level ++ leBytes 1 vused ++ leBytes 1 (if c.ovs then 1 else 0) ++
  (List.range 4).flatMap (fun v => leBytes 2 (tag v)) ++
  leBytes 2 ((g.map (·.floor)).getD 0xFFFF) ++ leBytes 2 ((g.map (·.fq)).getD 0) ++ leBytes 4 s.degraded.length ++
  leBytes 8 (kdescOf s p) ++ leBytes 8 p.skips ++ leBytes 8 p.replays ++ leBytes 8 p.cycles ++ leBytes 8 p.energy ++
  shake256 (leBytes 16 (p.lx 0x30 16)) ++ leBytes 64 0

/-- The bytes of the degraded-unit map (R384). -/
def degradedBytes (s : State) : List Byte := s.degraded.flatMap (fun e => leBytes 8 e.toNat)

/-- Writes a manifest entry and counts it; one that does not fit is counted only. -/
def writeManifest (s : State) (c : Ctx) (p : Packet) : State :=
  let r := s.ring p.ctx
  match natVirt s c r.manBase 16 with
  | none => s
  | some h =>
    if r.manBase = 0 then s
    else
      let n := field h 8 4
      let at_ := field h 4 4 + 192 * n
      let fit := decide (at_ + 192 ≤ r.manSz)
      let s := if fit then storeVirt s c (r.manBase + at_) (manifestEntry s c p) else s
      let s := storeVirt s c (r.manBase + 0x10) (s.spdm.meas1.take 64)
      let s := storeVirt s c (r.manBase + 0x50) (shake256 (degradedBytes s))
      let s := if fit then s else storeVirt s c (r.manBase + 12) (leBytes 4 1)
      storeVirt s c (r.manBase + 8) (leBytes 4 (n + 1))

/-- Bytes 0x04 to 0x3F of a completion record. -/
def recordBytes (s : State) (p : Packet) : List Byte :=
  let g := p.grid.bind s.grid?
  leBytes 4 p.tag ++ leBytes 2 ((g.map (·.floor)).getD 0xFFFF) ++ leBytes 2 ((g.map (·.fq)).getD 0) ++ leBytes 4 p.runs ++
  leBytes 8 p.cycles ++ leBytes 8 p.energy ++ leBytes 8 p.tstart ++ leBytes 8 s.time ++ leBytes 8 p.skips ++ leBytes 8 p.replays

/-- The packet's grid gives its package and pod barriers back (R339). -/
def returnPools (s : State) (p : Packet) : State :=
  match p.grid.bind s.grid? with
  | none => s
  | some g =>
    { s with pkgBars := s.pkgBars + g.pkgB, podBars := s.podBars + g.podB }.setGrid (p.grid.getD 0)
      { g with pkgB := 0, podB := 0, recordDone := true }

/-- A node's packet has completed: the node has, and a `KERN`'s cycles join those of the graph (R345). -/
def nodeCompleted (s : State) (p : Packet) : State :=
  match p.node with
  | none => s
  | some (run, i) =>
    let s := s.updPkt run (fun g => { g with cycles := g.cycles + p.cycles })
    endNode s run i p.status

/-- Is a packet a graph's `KERN` node? -/
def isKernNode (s : State) (p : Packet) : Bool :=
  ((p.node.bind (fun n => (s.graphs.find? n.1).bind (fun r => r.rec? n.2))).map (·.kind)) == some kKern

/-- COMPLETION_RECORD_WRITE: the manifest entry, bytes 0x04 to 0x3F of the record, then bytes 0x00 to 0x03 as one
store. -/
def execCompletionRecordWrite (pkt : Nat) (s : State) : Host.Outcome State Fault Refusal :=
  .next (
    match s.packets.find? pkt with
    | none => s
    | some p =>
      match finished s p, s.ctxs.find? p.ctx with
      | some p, some c =>
        let p := figures s p
        let s := if p.type = tLaunch ∨ isKernNode s p = true then writeManifest s c p else s
        let s :=
          if p.cmpl = 0 then s
          else storeVirt (storeVirt s c (p.cmpl + 4) (recordBytes s p)) c p.cmpl (leBytes 1 p.status ++ leBytes 1 p.reason ++ leBytes 2 0)
        let s := returnPools s p
        dropContext (nodeCompleted (s.setPkt pkt { p with st := .completed, tend := s.time }) p) p.ctx
      | _, _ => s)

end Sys2Proof.Machine
end

