-- ==== Sys2Proof/Machine/MaskUnit.lean ====
section
/-! DEFINITION. The Mask Unit: streams, stepping, mask fetch, stack control, write-back (10_generation R160–R165;
14_isa_float R243). -/

namespace Sys2Proof.Machine

open Sys2Proof

/-- The quad whose Mask Unit serves a core: its own, or the next of the die that has not been retired (R384). Where the die's
are all retired its own serves on: the spec says nothing of it (DESIGN CHOICE, log 143). -/
def maskQuad (s : State) (core : Nat) : Nat :=
  let q := quadOf core
  let d := q / 48
  (((List.range 48).map (fun i => 48 * d + (q + i) % 48)).find? (fun q => !isDegraded s 2 q)).getD q

/-- The constant part of a stream's record (R161). -/
structure GmRec where
  stab : Nat
  ttab : Nat
  cmap : Nat
  mstore : Nat
  nstate : Nat
  nclass : Nat
  vocab : Nat
  start : Nat
deriving DecidableEq, Repr

/-- Parses the record; none when a field is out of range or a reserved one is not zero. -/
def gmRecord (m : Memory) (p : Nat) : Option GmRec :=
  let r : GmRec :=
    { stab := m.nat p 8, ttab := m.nat (p + 8) 8, cmap := m.nat (p + 0x10) 8, mstore := m.nat (p + 0x18) 8,
      nstate := m.nat (p + 0x20) 2, nclass := m.nat (p + 0x22) 2, vocab := m.nat (p + 0x24) 4,
      start := m.nat (p + 0x28) 2 }
  if 1 ≤ r.nstate ∧ r.nstate ≤ 4096 ∧ 1 ≤ r.nclass ∧ r.nclass ≤ 4096 ∧ 1 ≤ r.vocab ∧ r.vocab ≤ 262144 ∧
      r.start < r.nstate ∧ m.nat (p + 0x2A) 2 = 0 then some r
  else none

/-- Writes a stream's state back to its record and gives up its place (R161). A record that lies in a slot of the grid's
ladder raises no `SEAL`: the unit, not the grid, writes it (DESIGN CHOICE, log 145). -/
def gmWriteBack (s : State) (q : Nat) (g : GmStream) : State :=
  let bytes := leBytes 2 g.state ++ leBytes 2 g.depth ++ leBytes 2 g.spill ++ leBytes 2 0 ++
    g.stack.map (fun b => BitVec.ofNat 8 b)
  let s := hbmDone (storePlace s (.g (g.addr + 0x30)) bytes) (.g g.addr)
  let k := s.quad q
  s.setQuad q { k with streams := k.streams.filter (fun e => e.addr != g.addr) }

/-- The quad that holds a stream, and its state. -/
def gmWhere (s : State) (p : Nat) : Option (Nat × GmStream) :=
  s.quads.findSome? (fun e => (e.2.streams.find? (fun g => g.addr == p)).map (fun g => (e.1, g)))

/-- A place is made in a full unit: which stream leaves is open. -/
def gmRoom (s : State) (q : Nat) : State :=
  let st := (s.quad q).streams
  if st.length < 64 then s
  else
    match st[Config.freeChoice s.free q % st.length]? with
    | some g => (gmWriteBack s q g).draw
    | none => s

/-- A stream's new state; while it is resident bytes 0x30 to 0x3F of its record are unpredictable. -/
def gmPut (s : State) (q : Nat) (g : GmStream) : State :=
  let k := s.quad q
  s.setQuad q { k with streams := g :: k.streams.filter (fun e => e.addr != g.addr) }

/-- A stream joins a unit. -/
def gmEnter (s : State) (q : Nat) (g : GmStream) : State :=
  let s := gmPut (gmRoom s q) q g
  (hbmDone (storePlace s (.g (g.addr + 0x30)) ((List.range 16).map (Config.freeByte s.free))) (.g g.addr)).draw

/-- What the record holds, as the stream state that a unit loads; none when it breaks R161. -/
def gmLoad (s : State) (r : GmRec) (p ctx va : Nat) : Option GmStream :=
  let g : GmStream :=
    { addr := p, ctx := ctx, va := va, state := s.mem.nat (p + 0x30) 2, depth := s.mem.nat (p + 0x32) 1,
      spill := s.mem.nat (p + 0x34) 2, stack := (s.mem.read (p + 0x38) 8).map BitVec.toNat, grids := [] }
  if g.state < r.nstate ∧ g.depth ≤ 8 ∧ s.mem.nat (p + 0x33) 1 = 0 ∧ s.mem.nat (p + 0x36) 2 = 0 then some g else none

/-- Makes a stream resident in a quad's unit, from another unit or from memory. -/
def gmResident (s : State) (q p ctx va : Nat) (r : GmRec) : Option (State × GmStream) :=
  match gmWhere s p with
  | some (q', g) =>
    if q' = q then some (s, g)
    else
      let s := gmWriteBack s q' g
      (gmLoad s r p ctx va).map (fun g => (gmEnter s q g, g))
  | none => (gmLoad s r p ctx va).map (fun g => (gmEnter s q g, g))

/-- A grid names a stream that is resident (R385). -/
def gmUsed (s : State) (q grid : Nat) (g : GmStream) : State × GmStream :=
  if g.grids.contains grid then (s, g)
  else
    let g := { g with grids := g.grids ++ [grid] }
    (gmPut s q g, g)

/-- A failed access of the Mask Unit: a page fault waits in place (R352); `acc` is what a write is to a record (R351). -/
def gmFault (x : Cx) (e : AccFault) (acc : Nat := 0) : Res :=
  if e.cause = cPf then .raw (x.put { x.cr with pendingPf := some (e.va, acc, if x.cr.inHandler then 4 else 3) })
  else if acc = 0 then .trap e.cause e.va
  else .raw (x.raise e.cause e.va 0 0 false acc)

/-- May the unit write a record, as it does when it binds, loads or changes a stream (R161, R365; log 113)? -/
def gmWrites (x : Cx) (va : Nat) (k : Cx → Res) : Res :=
  match physOf x.s x.g.ctx va .write with
  | .error e => gmFault x e (accBits .write)
  | .ok (_, s) => k (x.on s)

/-- The common course of a Mask Unit instruction: older stores performed, alignment, the record (R243). `k` gets the
quad, the record's physical address, its fields. -/
def gmWith (f : FmtA) (x : Cx) (k : Cx → Nat → Nat → GmRec → Res) : Res :=
  let a := x.uni f.a
  if !x.cr.storePath.isEmpty then .stall x.s
  else if a % 64 ≠ 0 then .trap cAlign a
  else
    match physOf x.s x.g.ctx a .read with
    | .error e => gmFault x e
    | .ok (p, s) =>
      match gmRecord s.mem p with
      | none => .trapOpen cProt
      | some r => k (x.on (hbmDone s (.g p))) (maskQuad s x.blk.core) p r

/-- The same for an instruction on a stream's state, once it is resident; `changes` for one that changes that state. -/
def gmState (f : FmtA) (x : Cx) (changes : Bool) (k : Cx → Nat → GmRec → GmStream → Res) : Res :=
  gmWith f x (fun x q p r =>
    let run := fun (x : Cx) =>
      match gmResident x.s q p x.g.ctx (x.uni f.a) r with
      | none => .trapOpen cProt
      | some (s, g) =>
        let (s, g) := gmUsed s q x.blk.grid g
        k (x.on s) q r g
    if changes || !((gmWhere x.s p).any (fun e => e.1 == q)) then gmWrites x (x.uni f.a) run else run x)

def execGmbind (f : FmtA) (s : State) : Host.Outcome State Fault Refusal :=
  issueWith (.gmbind f) s (fun x => gmWith f x (fun x q p r => gmWrites x (x.uni f.a) (fun x =>
    let s :=
      match gmWhere x.s p with
      | some (q', _) =>
        let k := x.s.quad q'
        x.s.setQuad q' { k with streams := k.streams.filter (fun e => e.addr != p) }
      | none => x.s
    let g : GmStream :=
      { addr := p, ctx := x.g.ctx, va := x.uni f.a, state := r.start, depth := 0, spill := 0,
        stack := (s.mem.read (p + 0x38) 8).map BitVec.toNat, grids := [x.blk.grid] }
    .done (gmEnter s q g) false)))

/-- A transition entry (R160). -/
structure GmTrans where
  act : Nat
  sym : Nat
  nxe : Nat
  nxt : Nat
deriving DecidableEq, Repr

/-- Parses a transition entry; none when a reserved bit is set or a state is beyond its limit. -/
def gmTrans (e nstate : Nat) : Option GmTrans :=
  let t : GmTrans := ⟨bits e 40 2, bits e 32 8, bits e 16 12, bits e 0 12⟩
  if bits e 42 22 = 0 ∧ bits e 28 4 = 0 ∧ bits e 12 4 = 0 ∧ t.nxt < nstate ∧ t.nxe < nstate then some t else none

/-- What a step comes to: a trap cause, or the new stream state and the predicate (R162). -/
def gmStepTo (t : GmTrans) (g : GmStream) : Except Nat (GmStream × Bool) :=
  match t.act with
  | 0 => .ok ({ g with state := t.nxt }, true)
  | 1 =>
    if g.depth = 8 then .error cGstk
    else .ok ({ g with stack := g.stack.set g.depth t.sym, depth := g.depth + 1, state := t.nxt }, true)
  | 2 =>
    if g.depth = 0 ∧ 0 < g.spill then .error cGempty
    else if g.depth = 0 ∨ (t.sym ≠ 0xFF ∧ g.stack.getD (g.depth - 1) 0 ≠ t.sym) then .ok (g, false)
    else .ok ({ g with depth := g.depth - 1, state := if g.depth = 1 ∧ g.spill = 0 then t.nxe else t.nxt }, true)
  | _ => .ok (g, false)

def execGmstep (f : FmtA) (s : State) : Host.Outcome State Fault Refusal :=
  issueWith (.gmstep f) s (fun x => gmState f x true (fun x q r g =>
    let t := x.uni f.b
    if r.vocab ≤ t then .trapOpen cProt
    else
      match fetchNat x.s x.g.ctx (r.cmap + 2 * t) 2 with
      | .error e => gmFault x e
      | .ok (cls, s) =>
        if r.nclass ≤ cls then .trap cProt (r.cmap + 2 * t)
        else
          let x := x.on s
          let ta := r.ttab + 8 * (g.state * r.nclass + cls)
          match fetchNat x.s x.g.ctx ta 8 with
          | .error e => gmFault x e
          | .ok (e, s) =>
            match gmTrans e r.nstate with
            | none => .trap cProt ta
            | some t =>
              match gmStepTo t g with
              | .error c => .trapOpen c
              | .ok (g', ok) =>
                let s := gmPut s q g'
                .done (s.updCrew x.b x.c (fun cr =>
                  cr.putPd f.pd x.lanes (if ok then BitVec.allOnes 32 else 0))) false))

/-- Chunks of a vocabulary. -/
def gmChunks (r : GmRec) : Nat := ceilDiv r.vocab 512

def execGmfetch (f : FmtA) (s : State) : Host.Outcome State Fault Refusal :=
  issueWith (.gmfetch f) s (fun x => gmState f x false (fun x _ r g =>
    let c := x.uni f.b
    if gmChunks r ≤ c then .trapOpen cProt
    else
      let sa := r.stab + 8 * g.state
      match fetchNat x.s x.g.ctx sa 8 with
      | .error e => gmFault x e
      | .ok (e, s) =>
        if bits e 50 14 ≠ 0 ∨ bits e 20 12 ≠ 0 then .trap cProt sa
        else
          let x := x.on s
          match fetchNat x.s x.g.ctx (r.mstore + 64 * (g.state * gmChunks r + c)) 64 with
          | .error e => gmFault x e
          | .ok (m, s) =>
            let m := m % 2 ^ (r.vocab - 512 * c)
            let forced := bits e 0 19 == 1
            let lane := fun l => if l < 16 then bits m (32 * l) 32 else 0
            .done (s.updCrew x.b x.c (fun cr =>
              let cr := cr.awaitReturns f.d 1 x.acts lane
              let cr := cr.putOpr f.c 2 0 (if forced then bits e 32 18 else 0xFFFFFFFF)
              cr.putPd f.pd x.lanes (if forced then BitVec.allOnes 32 else 0))) false))

def execGmstkSpill (f : FmtA) (s : State) : Host.Outcome State Fault Refusal :=
  issueWith (.gmstkSpill f) s (fun x => gmState f x true (fun x q _ g =>
    if g.depth = 0 ∨ g.spill = 65535 then .trapOpen cProt
    else
      let g' := { g with
        stack := g.stack.drop 1 ++ [(Config.freeByte x.s.free 0).toNat], depth := g.depth - 1, spill := g.spill + 1 }
      .done ((gmPut x.s q g').draw.updCrew x.b x.c (fun cr => cr.putOpr f.d 2 0 (g.stack.getD 0 0))) false))

def execGmstkFill (f : FmtA) (s : State) : Host.Outcome State Fault Refusal :=
  issueWith (.gmstkFill f) s (fun x => gmState f x true (fun x q _ g =>
    let v := x.uni f.b
    if 256 ≤ v ∨ g.depth = 8 ∨ g.spill = 0 then .trapOpen cProt
    else
      .done (gmPut x.s q { g with stack := v :: g.stack.take 7, depth := g.depth + 1, spill := g.spill - 1 }) false))

def execGmstkRd (f : FmtA) (s : State) : Host.Outcome State Fault Refusal :=
  issueWith (.gmstkRd f) s (fun x => gmState f x false (fun x _ _ g =>
    .done (x.s.updCrew x.b x.c (fun cr =>
      cr.putOpr f.d 2 0 (g.state + 2 ^ 16 * g.depth + 2 ^ 24 * g.spill))) false))

/-- MASK_UNIT_WRITEBACK: a unit writes a resident stream's state back to its record (R161). -/
def execMaskUnitWriteback (quad rec : Nat) (s : State) : Host.Outcome State Fault Refusal :=
  .next (
    match (s.quad quad).streams.find? (fun g => g.addr == rec) with
    | some g => gmWriteBack s quad g
    | none => s)

end Sys2Proof.Machine
end

