-- ==== Sys2Proof/Machine/Switch.lean ====
section
/-! DEFINITION. Switch points: flags, the switch area, leaving a variant and entering another (08_variants R131–R135;
16_isa_control R282). -/

namespace Sys2Proof.Machine

open Sys2Proof

/-! ## The switch area (R134) -/

/-- Its address for a block. -/
def areaVa (g : Grid) (lin : Nat) : Nat := g.swArea + lin * g.kern.swsize

/-- Bytes of a logical thread's entry. -/
def entryBytes (w : Nat) : Nat := roundUp (16 + 4 * w) 8

/-- Where the exit map lies, and where the ranges start. -/
def exitOfs (lbs w : Nat) : Nat := 64 + lbs * entryBytes w
def rangeOfs (lbs w : Nat) : Nat := roundUp (exitOfs lbs w + lbs / 8) 256

/-- The register bytes of a variant for a switch point: its resume address with them. -/
def switchMap (g : Grid) (v : Variant) (id : Nat) : Option (Nat × List Nat) :=
  ((g.kern.sws.zip v.maps).find? (fun e => e.1.id == id)).map (fun e => e.2)

/-- Crew, lane and fold index that carry logical thread `t` in a variant (R129). -/
def carrier (v : Variant) (t : Nat) : Nat × Nat × Nat := (t % (32 * v.crews) / 32, t % 32, t / (32 * v.crews))

/-- Has a logical thread exited: with its lane, or before an earlier switch (R135)? -/
def threadGone (k : Block) (v : Variant) (t : Nat) : Bool :=
  let (c, l, fx) := carrier v t
  ((k.crews.find? c).bind (fun cr => cr.threads.find? l)).all (fun th => th.exited || th.gone.contains fx)

/-- One logical thread's entry: open bytes for an exited one, padding left as it is. -/
def threadEntry (free : Nat) (k : Block) (v : Variant) (map : List Nat) (w t : Nat) : List (Option Byte) :=
  let (c, l, fx) := carrier v t
  let pad := List.replicate (entryBytes w - 16 - 4 * w) none
  match (k.crews.find? c).bind (fun cr => (cr.threads.find? l).map (fun th => (cr, th))) with
  | some (cr, th) =>
    if th.exited || th.gone.contains fx then (List.range (16 + 4 * w)).map (fun i => some (Config.freeByte free (65536 * t + i))) ++ pad
    else
      (leBytes 8 (th.ltid.getD fx 0).toNat ++ leBytes 8 (th.dctr.getD fx 0).toNat ++
        (List.range w).flatMap (fun i => leBytes 4 (cr.getV (map.getD (fx * w + i) 0) l).toNat)).map some ++ pad
  | none => (List.range (16 + 4 * w)).map (fun i => some (Config.freeByte free (65536 * t + i))) ++ pad

/-- The bytes of the area, from its start; `none` bytes are not written. R134 does not say what stands for bytes of a
range that lie beyond the running variant's bays: they are free, and entry drops those beyond the new one's (DESIGN CHOICE,
log 131). -/
def areaBytes (s : State) (g : Grid) (k : Block) (v : Variant) (p : SwPoint) (map : List Nat) (why : Nat) :
    List (Option Byte) :=
  let lbs := g.kern.lbs
  let fst := k.crews.vals.foldl (fun f cr => f ||| cr.fstat) 0
  let head := leBytes 2 p.id ++ leBytes 1 k.vid ++ leBytes 1 why ++ leBytes 4 p.w ++ leBytes 4 lbs ++
    leBytes 4 ((p.ranges.map Prod.snd).sum) ++ leBytes 8 fst.toNat ++ leBytes 4 0 ++ leBytes 36 0
  let exits := (List.range (lbs / 8)).map (fun i =>
    BitVec.ofNat 8 ((List.range 8).map (fun j => if threadGone k v (8 * i + j) then 2 ^ j else 0)).sum)
  let pad := List.replicate (rangeOfs lbs p.w - exitOfs lbs p.w - lbs / 8) none
  let range := fun (r : Nat × Nat) => (List.range r.2).map (fun i =>
    match bayPlace s k (r.1 + i) with
    | some q => some ((readPlace s q 1).headD 0)
    | none => some (Config.freeByte s.free (r.1 + i)))
  head.map some ++ (List.range lbs).flatMap (threadEntry s.free k v map p.w) ++ exits.map some ++ pad ++
    p.ranges.flatMap range

/-! ## `switchpt` (R133, R282) -/

/-- All non-exited crews but one have arrived at a switch point. -/
def othersArrived (k : Block) (c id : Nat) : Bool :=
  k.crews.all (fun e => e.1 == c || e.2.allExited || k.arrivedAt e.1 e.2 (.switchPt id))

/-- A crew goes on past the switch point: the threads of a set, and those that wait there. Every thread has passed it. -/
def Crew.passSwitch (cr : Crew) (id : Nat) (here : Lanes) : Crew :=
  let m := here ||| cr.lanesWhere (fun t => t.wait == some (.switchPt id))
  let n := cr.swCount.getD id 0 + 1
  { (cr.resume (m &&& cr.liveLanes) false).updThreads cr.liveLanes (fun t => { t with sw := t.sw.set id n }) with
    swCount := cr.swCount.set id n }

/-- Arrivals at a switch point that were left standing end with it (R361). -/
def Block.dropStanding (k : Block) (p : Nat → Bool) (id : Nat) : Block :=
  { k with standing := k.standing.filter (fun a => !(p a.1 && a.2.1 == .switchPt id)) }

/-- The crew of the path passes a switch point on its own. -/
def passAlone (x : Cx) (s : State) (id : Nat) : State :=
  let off := x.lanes &&& ~~~x.act
  (s.updCrew x.b x.c (fun cr => (cr.advance off x.nextPc false).passSwitch id x.act)).updBlock x.b
    (fun k => k.dropStanding (fun c => c == x.c) id)

/-- Lanes that execute a switch point again which their crew has passed: a rollback took them back before it, and it is
not sampled again (R133, R278). -/
def replays (x : Cx) (id : Nat) : Lanes := x.act &&& x.cr.lanesWhere (fun t => decide (t.passed id < x.cr.swCount.getD id 0))

/-- They go on at once; the path's other active threads execute the instruction later. -/
def passAgain (x : Cx) (id : Nat) : State :=
  let old := replays x id
  x.put ((x.cr.advance (x.lanes &&& (~~~x.act ||| old)) x.nextPc false).updThreads old (fun t =>
    { t with sw := t.sw.set id (t.passed id + 1) }))

/-- Does a stream channel run for a block? -/
def streamRuns (s : State) (b core : Nat) : Bool :=
  let c := s.core core
  [chanOf c 0, chanOf c 1].any (fun ch => ch.any (fun x => x.blk == b))

/-- Is everything older than the switch complete: stores, loads, register writes, engine operations? -/
def switchDrained (s : State) (b : Nat) (k : Block) : Bool :=
  k.crews.vals.all (fun cr => cr.drained && cr.empty.isEmpty && cr.locks.isEmpty && cr.late.isNone && cr.pendingPf.isNone) &&
  s.ops.all (fun o => o.pkt.isSome || o.blk != b || o.done)

/-- A protection violation in step 4: every crew raises `PROT` at its `switchpt`, which is sampled afresh: `n` is the
number of its sample. -/
def switchAbandon (s : State) (b va n : Nat) : State :=
  match s.block? b with
  | none => s
  | some k =>
    let s := s.updBlock b (fun k => { k with
      sampled := k.sampled.erase n
      crews := k.crews.mapVals (fun _ cr => cr.updThreads cr.liveLanes (fun t => { t with wait := none, arrived := false })) })
    k.crews.foldl (fun s e =>
      if e.2.allExited then s
      else
        let pc := ((lanesOf e.2.liveLanes).head?.bind (fun l => e.2.threads.find? l)).map (·.pc)
        raiseTrap s b e.1
          { cause := cProt, taddr := va, pc := pc.getD 0, lanes := e.2.liveLanes, imm := 0, resume := 0, late := false, acc := 1 }) s

/-- Steps 3 to 5: the buffer is applied, the area written, the block leaves its core. Whether step 3 stands
when step 4 fails R133 leaves open: what the buffer has applied stays applied, be the switch abandoned or repeated (DESIGN
CHOICE, log 130). -/
def switchLeave (x : Cx) (p : SwPoint) (v : Variant) (map : List Nat) (n : Nat) : Res :=
  let s := phaseBoundary x.s x.b
  let k := (s.block? x.b).getD x.blk
  let data := areaBytes s x.g k v p map (x.blk.flag.getD 0)
  match longPieces s x.g.ctx .write (data.length + 1) (areaVa x.g k.lin) data.length with
  | .error e =>
    if e.cause = cPf then .raw ({ x with s := s }.put { x.cr with pendingPf := some (e.va, 1, 0) })
    else .raw (switchAbandon s x.b e.va n)
  | .ok (ps, s) =>
    let ps := ps.map (fun q => (Place.g q.1, q.2))
    let s := (piecesDone (writePieces s ps data) ps).draw
    let s := s.updBlock x.b (fun k => { k with switchId := p.id, why := k.flag.getD 0, flag := none, savedAt := s.clock k.core })
    .raw (leaveCore s x.b .switching)

/-- The crew has arrived at a switch point; the first crew that comes to a pass over it samples the flag. -/
def switchArrive (x : Cx) (p : SwPoint) : Res :=
  let cnt := x.cr.swCount.getD p.id 0
  let n := p.id + 64 * cnt
  let flagged := x.blk.sampled.getD n x.blk.flag.isSome
  let low := x.blk.crews.vals.foldl (fun m cr => if cr.allExited then m else min m (cr.swCount.getD p.id 0)) cnt
  let s := x.s.updBlock x.b (fun k => { k with
    sampled := (k.sampled.keep (fun i => i % 64 != p.id || decide (low ≤ i / 64))).set n flagged })
  if !flagged then .raw (passAlone x s p.id)
  else if !othersArrived x.blk x.c p.id then .raw (parkAt x s (.switchPt p.id))
  else if streamRuns s x.b x.blk.core then
    -- the switch is deferred; the flag stays set
    .raw (s.updBlock x.b (fun k => { k.dropStanding (fun _ => true) p.id with
      sampled := k.sampled.set n false
      crews := k.crews.mapVals (fun c cr => if cr.allExited then cr else cr.passSwitch p.id (if c = x.c then x.act else 0)) }))
  else if !switchDrained s x.b x.blk then .stall s
  else
    match x.variant.bind (fun v => (switchMap x.g v p.id).map (fun m => (v, m.2))) with
    | none => .stall s
    | some (v, map) => switchLeave (x.on s) p v map n

/-- Does a convergence register hold a partial signature or `copyc` arrivals? -/
def convHeld (k : Block) : Bool := k.convs.vals.any (fun v => v.sig.isSome || !v.copies.isEmpty)

def execSwitchpt (f : FmtS) (s : State) : Host.Outcome State Fault Refusal :=
  issueWith (.switchpt f) s (fun x =>
    match x.g.kern.sws.find? (fun p => p.id == f.imm16.toNat) with
    | none => .trapOpen cProt
    | some p =>
      if convHeld x.blk then .trapOpen cProt
      else if replays x p.id ≠ 0 then .raw (passAgain x p.id)
      else
        let here := x.cr.updThreads x.act (fun t => { t with wait := some (.switchPt p.id) })
        if x.blk.arrivedAt x.c here (.switchPt p.id) then switchArrive x p else .raw (parkAt x x.s (.switchPt p.id)))

/-! ## SWITCH_RELAUNCH (R135) -/

/-- A thread that enters a variant from the area's bytes. -/
def enterThread (bs : List Byte) (g : Grid) (v : Variant) (w resume cn lane : Nat) : Thread :=
  let t := fun (fx : Nat) => 32 * cn + lane + fx * 32 * v.crews
  let word := fun (fx ofs : Nat) => BitVec.ofNat 64 (leNat ((bs.drop (64 + t fx * entryBytes w + ofs)).take 8))
  let gone := (List.range v.fold).filter (fun fx =>
    bitAt (((bs.drop (exitOfs g.kern.lbs w + t fx / 8)).headD 0).toNat) (t fx % 8))
  let d := (List.range v.fold).map (fun fx => word fx 8)
  { Thread.at_ resume lane v.fold 0 cn v.crews with
    exited := gone.length == v.fold
    gone := gone
    ltid := (List.range v.fold).map (fun fx => word fx 0)
    dctr := d
    head := { (Thread.at_ resume lane v.fold 0 cn v.crews).head with dctr := d } }

/-- The mapped registers of a lane. -/
def enterRegs (bs : List Byte) (v : Variant) (map : List Nat) (w cn lane : Nat) (cr : Crew) : Crew :=
  (List.range v.fold).foldl (fun cr fx =>
    let t := 32 * cn + lane + fx * 32 * v.crews
    (List.range w).foldl (fun cr i =>
      let word := BitVec.ofNat 32 (leNat ((bs.drop (64 + t * entryBytes w + 16 + 4 * i)).take 4))
      { cr with v := NMap.set cr.v (Crew.key (map.getD (fx * w + i) 0) lane) word }) cr) cr

/-- A crew that enters a variant: every other register zero, every register full, no extended block held. -/
def enterCrew (bs : List Byte) (g : Grid) (v : Variant) (map : List Nat) (w resume cn slot : Nat) (old : Block) : Crew :=
  let fst := BitVec.ofNat 6 (leNat ((bs.drop 0x10).take 8))
  let cr := { Crew.at_ resume v.fold 0 cn v.crews slot none with
    threads := (List.range 32).map (fun l => (l, enterThread bs g v w resume cn l))
    fstat := fst
    ckFstat := fst
    faults := (old.crews.filter (fun e => e.1 % v.crews == cn)).flatMap (fun e => e.2.faults) }
  let cr := (List.range 32).foldl (fun cr l => enterRegs bs v map w cn l cr) cr
  if cr.allExited then { cr with retired := true } else cr.entered

/-- Bytes of the ranges go back to the new bays. -/
def enterRanges (s : State) (b : Nat) : List (Nat × Nat) → List Byte → State
  | [], _ => s
  | (ofs, len) :: rs, bs =>
    let s' := match s.block? b with
      | none => s
      | some k => (List.range len).foldl (fun s i =>
          match bayPlace s k (ofs + i) with
          | some q => writePlace s q [(bs.drop i).headD 0]
          | none => s) s
    enterRanges s' b rs (bs.drop len)

/-- The block enters a variant on a core. The bytes of its bays outside the point's ranges, of which R135 says nothing, are
those that the bays' last holder left (DESIGN CHOICE, log 121). It keeps a `trigger` that has become the block's; one of a crew alone is dropped
with the crews, since the target variant may have others (DESIGN CHOICE, log 132). -/
def enterVariant (s : State) (b core : Nat) (k : Block) (g : Grid) (v : Variant) (p : SwPoint) (resume : Nat)
    (map : List Nat) (bs : List Byte) : State :=
  let slots := assignSlots v.crews (slotCrews s core)
  let crews := (List.range v.crews).map (fun cn => (cn, enterCrew bs g v map p.w resume cn (slots.getD cn 0) k))
  let n : Block :=
    { Block.at_ k.grid k.lin v.vid core (freeBays s core v.bays) crews ⟨[], []⟩ with
      pass := k.pass, triggered := k.triggered, placedAt := s.time }
  let s := returnBars ((takeBars s core k.grid g).setBlock b n) k.core k.grid
  let s := enterRanges s b p.ranges (bs.drop (rangeOfs g.kern.lbs p.w))
  s.updGrid k.grid (fun g => { g with vused := if g.vused.contains v.vid then g.vused else g.vused ++ [v.vid] })

/-- SWITCH_RELAUNCH: a block that has left its variant enters the one that the policy takes on a core with room. While
the switch area cannot be read the block goes on waiting (DESIGN CHOICE, log 133). -/
def execSwitchRelaunch (blk core : Nat) (s : State) : Host.Outcome State Fault Refusal :=
  .next (
    match s.block? blk with
    | none => s
    | some k =>
      match k.st, s.grid? k.grid with
      | .switching, some g =>
        if g.st != .running || !barsOk s core k.grid g || !splitReady s core g.split g.fuse then s
        else
          match chooseVariant s core g [], g.kern.sws.find? (fun p => p.id == k.switchId) with
          | some v, some p =>
            match switchMap g v p.id, longPieces s g.ctx .read (g.kern.swsize + 1) (areaVa g k.lin) g.kern.swsize with
            | some (resume, map), .ok (ps, s) =>
              enterVariant s blk core k g v p resume map (ps.flatMap (fun q => s.mem.read q.1 q.2))
            | _, _ => s
          | _, _ => s
      | _, _ => s)

/-! ## Switch flags (R132) -/

/-- Would a block of a grid fit a core with one resident block's resources counted as free? -/
def fitsWithout (s : State) (core gid : Nat) (g : Grid) (r : Nat) : Bool :=
  (chooseVariant s core g [r]).isSome && barsOk s core gid g

/-- The target of a waiting block: the first core of its die, in placement order, that one resident block's removal
would open. -/
def targetOf (s : State) (die gid : Nat) (g : Grid) : Option Nat :=
  leastCore s (((List.range 192).map (· + 192 * die)).filter (fun c =>
    (s.residents c).any (fitsWithout s c gid g)))

/-- Is a resident block's budget larger, or as large and the block older? -/
def budgetBefore (s : State) (a b : Nat × Block) : Bool :=
  let z := fun (k : Block) => ((blockVariant s k).map (fun v => (v.regBlocks * 32 + v.bays) * 32 + v.tiles)).getD 0
  decide (z b.2 < z a.2) || (z a.2 == z b.2 && (decide (a.2.placedAt < b.2.placedAt) ||
    (a.2.placedAt == b.2.placedAt && decide (a.1 ≤ b.1))))

/-- The resident block of a target core that a waiting block presses: the largest budget, oldest first. -/
def pressVictim (s : State) (gid : Nat) (g : Grid) (core : Nat) : Option Nat :=
  let rs := s.blocks.filter (fun e => e.2.core == core && e.2.st == .resident && fitsWithout s core gid g e.1)
  (List.find? (fun a => rs.all (fun b => budgetBefore s a b)) rs).map Prod.fst

/-- A ready saved block whose grid, on its target core, needs the resources of a resident block (R132, R358). -/
def restoreNeeds (s : State) (b : Nat) (k : Block) : Bool :=
  s.blocks.any (fun e => e.2.st == .saved && e.2.fseq.isNone &&
    (match s.grid? e.2.grid, blockVariant s e.2 with
      | some g, some v =>
        g.st == .running && !(fits s k.core g v []) && fits s k.core g v [b] &&
          targetOf s (dieOf k.core) e.2.grid g == some k.core
      | _, _ => false))

/-- May a queued block be placed at all, but for room: all blocks of its grid's producer have launched (R147)? -/
def placeable (s : State) (e : Queued) : Bool := (s.grid? e.grid).any (producerLaunched s)

/-- The queued block that the dispatcher is about to place needs a resident block's resources. R132 does not say which one
that is: the first in serving order of those that no producer keeps waiting, from the moment it is queued; so is every block
that waits for its relaunch (DESIGN CHOICE, log 146). -/
def placeNeeds (s : State) (b : Nat) (k : Block) : Bool :=
  match (queueSort s (liveQueue s (dieOf k.core))).find? (placeable s) with
  | none => false
  | some e =>
    match s.grid? e.grid with
    | none => false
    | some g => targetOf s (dieOf k.core) e.grid g == some k.core && fitsWithout s k.core e.grid g b &&
        (chooseVariant s k.core g []).isNone

/-- A block that has left its variant and waits in the queue for its relaunch needs a resident block's resources. -/
def relaunchNeeds (s : State) (b : Nat) (k : Block) : Bool :=
  s.blocks.any (fun e => e.2.st == .switching && dieOf e.2.core == dieOf k.core &&
    (match s.grid? e.2.grid with
      | some g => g.st == .running && targetOf s (dieOf k.core) e.2.grid g == some k.core &&
          fitsWithout s k.core e.2.grid g b && (chooseVariant s k.core g []).isNone
      | none => false))

/-- Does reason 3 hold for a resident block (R132)? -/
def restoreHolds (s : State) (b : Nat) (k : Block) : Bool := restoreNeeds s b k || placeNeeds s b k || relaunchNeeds s b k

/-- Sets a block's flag; one that is set keeps its reason. -/
def setFlag (s : State) (b r : Nat) : State :=
  s.updBlock b (fun k => if k.flag.isSome then k else { k with flag := some r })

/-- A waiting block of a die: `2 i` names the `i`-th of its queue, `2 b + 1` block `b` that waits for its relaunch. Its
grid, since when it waits, and whether it has flagged a block already. -/
def waiterOf (s : State) (die n : Nat) : Option (Nat × Nat × Bool) :=
  if n % 2 = 0 then ((liveQueue s die)[n / 2]?).map (fun e => (e.grid, e.since, e.pressed))
  else
    match s.block? (n / 2) with
    | some k => if k.st == .switching && dieOf k.core == die then some (k.grid, k.savedAt, k.pressed) else none
    | none => none

/-- The waiting block has flagged a block. -/
def setPressed (s : State) (die n : Nat) : State :=
  if n % 2 = 0 then
    let q := liveQueue s die
    s.setDie die { s.die die with queue := (q.zipIdx).map (fun e => if e.2 = n / 2 then { e.1 with pressed := true } else e.1) }
  else s.updBlock (n / 2) (fun k => { k with pressed := true })

/-- Does a waiting block press a resident one (reason 1)? A block whose victim belongs to a `FIXED` grid flags nothing, and
not the next largest (DESIGN CHOICE, log 134). -/
def presses (s : State) (n b : Nat) (k : Block) : Bool :=
  let die := dieOf k.core
  match waiterOf s die n with
  | none => false
  | some (gid, since, pressed) =>
    match s.grid? gid, s.grid? k.grid with
    | some g, some rg =>
      !pressed && g.st == .running && rg.policy != 2 && g.switchWait != 0xFFFFFFFF &&
      decide (g.switchWait < (s.die die).clk / 50 - since) && targetOf s die gid g == some k.core &&
      pressVictim s gid g k.core == some b
    | _, _ => false

/-- SWITCH_FLAG_PRESSURE (R132, reason 1). -/
def execSwitchFlagPressure (waiting blk : Nat) (s : State) : Host.Outcome State Fault Refusal :=
  .next (
    match s.block? blk with
    | none => s
    | some k =>
      if k.st == .resident && presses s waiting blk k then
        setFlag (setPressed s (dieOf k.core) waiting) blk (if restoreHolds s blk k then 3 else 1)
      else s)

/-- Does the block's own core, its resources counted as free, fit a variant that the policy ranks ahead of the running one
(reason 2)? -/
def idlePrefers (s : State) (b : Nat) (k : Block) : Bool :=
  match s.grid? k.grid with
  | none => false
  | some g => g.policy != 2 &&
      (takeVariant g ((eligible g).filter (fun v => v.vid == k.vid || fits s k.core g v [b]))).any (fun v => v.vid != k.vid)

/-- Does some queued block press this one? -/
def pressed (s : State) (b : Nat) (k : Block) : Bool :=
  (List.range (liveQueue s (dieOf k.core)).length).any (fun i => presses s (2 * i) b k) ||
  s.blocks.any (fun e => e.2.st == .switching && presses s (2 * e.1 + 1) b k)

/-- SWITCH_FLAG_IDLE (R132, reason 2). -/
def execSwitchFlagIdle (blk : Nat) (s : State) : Host.Outcome State Fault Refusal :=
  .next (
    match s.block? blk with
    | none => s
    | some k =>
      if k.st == .resident && idlePrefers s blk k then
        setFlag s blk (if restoreHolds s blk k then 3 else if pressed s blk k then 1 else 2)
      else s)

/-- SWITCH_FLAG_RESTORE (R132, reason 3): the dispatcher needs the block's resources. -/
def execSwitchFlagRestore (blk : Nat) (s : State) : Host.Outcome State Fault Refusal :=
  .next (
    match s.block? blk with
    | none => s
    | some k =>
      if k.st == .resident && restoreHolds s blk k then setFlag s blk 3 else s)

end Sys2Proof.Machine
end

