-- ==== Sys2Proof/Machine/Faults.lean ====
section
/-! DEFINITION. Rollback, handler entry, wait-cycle probes, page faults, retries and retirement (01_machine R24;
16_isa_control R278; 25_context_faults R346–R353, R360, R361; 27_fleet R383, R384). -/

namespace Sys2Proof.Machine

open Sys2Proof

/-! ## Rollback of a crew (R24, R63, R263, R278) -/

/-- A thread that has signed, arrived at `seal`, or issued a `pooltake`: its instruction has ended its region, so a rollback leaves it
waiting. -/
def Thread.committed (t : Thread) : Bool :=
  match t.wait with
  | some (.sig _) => true
  | some .seal => true
  | some (.take _) => true
  | _ => false

/-- The threads that a rollback returns to their heads. -/
def Crew.rolls (cr : Crew) : Lanes := cr.lanesWhere (fun t => !t.exited && !t.committed)

/-- A handler that is abandoned: its threads stand where they were interrupted. -/
def Crew.unhandle (cr : Crew) : Crew :=
  match cr.handler with
  | none => cr
  | some h =>
    { cr with handler := none, s := cr.s.below 64, p := cr.p.below 16, v := cr.v.below 8192, empty := cr.empty.below 8192 }.updThreads
      h.trap.lanes (fun t => if t.exited then t else { t with pc := t.ipc, wait := t.iwait, since := none })

/-- Is a result's producer older than the head of the thread, or the crew checkpoint, that it goes to (R278)? -/
def Crew.keepsDest (cr : Crew) (d : Dest) : Bool :=
  if d.vec then !cr.rolls.getLsbD d.lane || (cr.threads.find? d.lane).all (fun t => decide (d.tag ≤ t.head.seq))
  else decide (d.tag ≤ cr.ckSeq)

/-- The arrivals at `bar` that a rollback takes back: those of threads that go back before them (R263). -/
def Crew.barsUndone (cr : Crew) : List (Nat × Nat × Nat × Option Nat) :=
  (cr.threads.filter (fun e => cr.rolls.getLsbD e.1)).foldl (fun l e =>
    e.2.bars.foldl (fun l a => if l.contains a then l else l ++ [a]) l) []

/-- A Store Path entry after a rollback: memory is not undone, results and arrivals on their way are. -/
def Crew.rollEntry (cr : Crew) (e : SpEntry) : SpEntry :=
  match e with
  | .atomic seq place n aop b c d va lanes => .atomic seq place n aop b c (d.filter cr.keepsDest) va lanes
  | .marker seq (.dqpost record pd lanes) =>
    .marker seq (.dqpost record (if seq ≤ cr.ckSeq then pd else 15) lanes)
  | .marker seq (.pooltake n d pd lane) => .marker seq (.pooltake n (d.filter cr.keepsDest) pd lane)
  | .marker seq (.bar scp cv n) => .marker seq (if cr.barsUndone.contains (scp, cv, seq, none) then .none else .bar scp cv n)
  | e => e

/-- A thread returns to its head; a committed one takes the checkpoint of the slot that follows (R277). -/
def Crew.rollThread (cr : Crew) (l : Nat) (t : Thread) : Thread :=
  if t.exited then t
  else if t.committed then
    { t with head := cr.checkpoint l (slotAddr (slotIndex t.pc + 1)) t.head.li t.head.ws t.head.bay t.dctr
             cnt := Counts.zero, skip := Counts.zero, bars := [] }
  else
    { t with pc := t.head.pc, dctr := t.head.dctr, skip := t.cnt, wait := none, since := none, arrived := false, atHead := true
             iwait := none, iends := false, sw := t.head.sw, bars := [], head := { t.head with pops := [] } }

/-- A register outside the live-in mask holds one of the values that it has held (R24). -/
def Crew.pickHeld (cr : Crew) (free k : Nat) (x : Word) : Word :=
  let hs := x :: cr.held.getD k []
  hs.getD (Config.freeChoice free k % hs.length) x

/-- The vector registers after a rollback. -/
def Crew.rollV (cr : Crew) (free : Nat) : NMap Word :=
  let base := cr.v.mapVals (fun k x => if cr.rolls.getLsbD (k % 32) then cr.pickHeld free k x else x)
  cr.threads.foldl (fun v e => if cr.rolls.getLsbD e.1 then e.2.head.v.foldl (fun v x => NMap.set v x.1 x.2) v else v) base

/-- The values that registers have held, the present ones among them. -/
def Crew.rollHeld (cr : Crew) : NMap (List Word) :=
  cr.v.foldl (fun h e =>
    let old := h.getD e.1 []
    if old.contains e.2 then h else h.set e.1 (e.2 :: old)) cr.held

/-- The empty registers after a rollback. -/
def Crew.rollEmpty (cr : Crew) : NMap Nat :=
  let base := cr.empty.keep (fun k => !cr.rolls.getLsbD (k % 32))
  cr.threads.foldl (fun m e => if cr.rolls.getLsbD e.1 then e.2.head.empty.foldl (fun m x => NMap.set m x.1 x.2) m else m) base

/-- The predicates after a rollback: each thread's bit as at its head. -/
def Crew.rollP (cr : Crew) : Crew :=
  cr.threads.foldl (fun c e =>
    if cr.rolls.getLsbD e.1 then
      e.2.head.p.foldl (fun c x => c.setP x.1 (1#32 <<< e.1) (if x.2 then BitVec.allOnes 32 else 0)) c
    else c) cr

/-- A crew after its rollback. -/
def Crew.rollback (cr : Crew) (free : Nat) : Crew :=
  let p := cr.rollP
  { cr with
    s := cr.ckS
    p := p.p
    v := cr.rollV free
    held := cr.rollHeld
    empty := cr.rollEmpty
    fstat := cr.ckFstat
    xmark := cr.ckMark &&& cr.xheld
    threads := cr.threads.mapVals (fun l t => cr.rollThread l t)
    storePath := cr.storePath.map cr.rollEntry
    loads := cr.loads.filter (fun l => cr.keepsDest l.dest)
    returns := cr.returns.filter (fun r => cr.keepsDest r.dest)
    locks := cr.locks.filter (fun l => decide (l.tag ≤ cr.ckSeq) || cr.taking l.tag != 0)
    monitor := cr.monitor.map (fun m => { m with parked := none })
    aged := []
    trap := none
    late := none
    probes := 0 }

/-- A performed arrival at a core barrier is withdrawn. -/
def Conv.withdraw (v : Conv) (c gen : Nat) : Conv :=
  if gen = v.barGen then { v with barArrived := v.barArrived.erase c } else v

/-- An arrival that is rolled back is withdrawn in one step: an arrival on its way leaves with its marker, one of a
generation that has completed is past (R263). The block withdraws with its crew. -/
def withdrawBar (s : State) (b c : Nat) (a : Nat × Nat × Nat × Option Nat) : State :=
  let (scp, cv, _, gen?) := a
  match s.block? b, gen? with
  | some k, some gen =>
    if scp = 1 then s.setBlock b (k.setConv cv ((k.conv cv).withdraw c gen))
    else
      let key := 512 * scp + cv
      let i := barInst s k.grid scp (barUnit scp k.core) cv
      if gen ≠ i.gen then s
      else
        let left := (k.barCrews.getD key []).erase c
        let s := s.setBlock b { k with barCrews := k.barCrews.set key left }
        if i.blocks.contains b && !left.contains c then setBar s { i with blocks := i.blocks.filter (· != b) } else s
  | _, _ => s

/-- Arrivals that a `trapret.skip` has left standing go with a thread that is back before them. -/
def Block.rollStanding (k : Block) (c : Nat) (cr : Crew) : Block :=
  let undone := fun (e : Nat × Thread) (m : Lanes) (seq : Nat) =>
    m.getLsbD e.1 && cr.rolls.getLsbD e.1 && decide (e.2.head.seq < seq)
  { k with standing := k.standing.filter (fun a => !(a.1 == c && cr.threads.any (fun e => undone e a.2.2.1 a.2.2.2))) }

/-- Pops that `fectl.cancel` has withdrawn from threads that go back before it: they wait at their queues again (R24,
R225). -/
def Crew.rejoins (cr : Crew) : List (Nat × Dest) :=
  (cr.threads.filter (fun e => cr.rolls.getLsbD e.1)).flatMap (fun e => e.2.head.pops)

/-- Rolls a crew back to its heads. -/
def rollCrew (s : State) (b c : Nat) : State :=
  match s.block? b, s.crew? b c with
  | some k, some cr =>
    let cr := cr.unhandle
    let s := cr.barsUndone.foldl (fun s a => withdrawBar s b c a) s
    let s := (s.setCrew b c (cr.rollback s.free)).updBlock b (fun k => k.rollStanding c cr)
    let s := cr.rejoins.reverse.foldl (fun s p => wqRejoin s k.core b c p) s
    let core := s.core k.core
    let me := fun (e : Nat × Nat) => e == (b, c)
    let s := s.setCore k.core { core with
      acqWait := core.acqWait.filter (fun e => !(e.1 == b && e.2.1 == c))
      slots := core.slots.mapVals (fun _ sl =>
        { sl with busy := sl.busy.filter (fun e => !me e), waiting := sl.waiting.filter (fun e => !me e) }) }
    (s.updGrid k.grid (fun g => { g with replays := g.replays + 1 })).draw
  | _, _ => s

/-- LATE_FAULT_ROLLBACK: a translation fault rolls its crew back; a `PF` then waits for service, a `PROT` traps with the
heads as its resume point (R24, R347, R352). -/
def execLateFaultRollback (blk crew : Nat) (s : State) : Host.Outcome State Fault Refusal :=
  .next (
    match s.block? blk, s.crew? blk crew with
    | some k, some cr =>
      match cr.late with
      | none => s
      | some (cause, va, acc, t) =>
        if k.st != .resident then s
        else
          let s := rollCrew s blk crew
          if cause = cPf then
            s.updCrew blk crew (fun cr => { cr with pendingPf := some (va, acc, if acc = 2 then 1 else 0), pfSeq := none })
          else raiseTrap s blk crew t
    | _, _ => s)

/-! ## HANDLER_ENTRY (R285, R348, R349) -/

/-- A crew's trap no longer waits at its slot. -/
def unqueueTrap (s : State) (core slot b c : Nat) : State :=
  let sl := s.slot core slot
  s.setSlot core slot { sl with waiting := sl.waiting.filter (fun e => e != (b, c)) }

/-- A cause of a handler's own instruction that has waited for room in the fault ring ends the grid (R349, R351). -/
def handlerFault (s : State) (b c : Nat) : State :=
  match s.block? b, s.crew? b c with
  | some k, some cr =>
    match cr.trap, s.grid? k.grid with
    | some t, some g =>
      if !cr.inHandler || ringFull s g.ctx || g.st != .running then s
      else doubleFault (s.setCrew b c { cr with trap := none }) k.grid t.taddr t.cause t.acc
    | _, _ => s
  | _, _ => s

/-- HANDLER_ENTRY: the first crew that waits at an issue slot takes its exception, once the slot's bank is free. A cause
that cannot enter the handler waits for room in the fault ring. -/
def execHandlerEntry (core slot : Nat) (s : State) : Host.Outcome State Fault Refusal :=
  .next (
    let sl := s.slot core slot
    match sl.busy, sl.waiting with
    | none, (b, c) :: _ =>
      match s.block? b, s.crew? b c with
      | some k, some cr =>
        match cr.trap, s.grid? k.grid with
        | some t, some g =>
          if cr.late.isSome || cr.pendingPf.isSome || g.st != .running then s
          else
            match trapEntry s g with
            | .enter =>
              let s := enterHandler (unqueueTrap s core slot b c) b c cr t (((s.ctxs.find? g.ctx).map (·.traph)).getD 0)
              s.setSlot core slot { s.slot core slot with busy := some (b, c) }
            | .waitFault =>
              s.setCrew b c { cr with pendingPf := some (((s.ctxs.find? g.ctx).map (·.traph)).getD 0, 2, 4), pfSeq := none }
            | .double =>
              if ringFull s g.ctx then s
              else doubleFault ((unqueueTrap s core slot b c).setCrew b c { cr with trap := none }) k.grid t.taddr t.cause t.acc
        | _, _ => unqueueTrap s core slot b c
      | _, _ => unqueueTrap s core slot b c
    | some (b, c), _ => handlerFault s b c
    | none, [] => s)

/-! ## WAIT_CYCLE_PROBE (R360, R361) -/

/-- The lowest-numbered crew of a list that fulfils a test. -/
def lowestCrew (k : Block) (js : List Nat) (p : Nat → Crew → Bool) : Option Nat :=
  ((k.crews.filter (fun e => js.contains e.1 && p e.1 e.2)).map Prod.fst).foldl (fun m j =>
    match m with
    | none => some j
    | some i => some (min i j)) none

/-- The lowest crew of a block that has not arrived at a higher-scope barrier. -/
def lowestAbsent (k : Block) (b scp cv : Nat) : Option (Nat × Nat) :=
  let arrived := k.barCrews.getD (512 * scp + cv) []
  (lowestCrew k (liveCrews k) (fun j _ => !arrived.contains j)).map (fun j => (b, j))

/-- The lowest crew of a block that has not arrived at a block-collective wait. -/
def lowestElsewhere (k : Block) (b : Nat) (w : Wait) : Option (Nat × Nat) :=
  (lowestCrew k (liveCrews k) (fun j o => !k.arrivedAt j o w)).map (fun j => (b, j))

/-- The resident block of lowest linear index in a list. -/
def lowestBlock (s : State) (bs : List Nat) : Option (Nat × Block) :=
  let ks := bs.filterMap (fun b => (s.block? b).map (fun k => (b, k)))
  ks.find? (fun e => ks.all (fun o => decide (e.2.lin ≤ o.2.lin)))

/-- The crew that a wait publishes (R360). A crew whose own arrival at `bar` has not been performed waits for its Store
Path, which the table does not name: nothing. -/
def published (s : State) (b c : Nat) (k : Block) (cr : Crew) (w : Wait) : Option (Nat × Nat) :=
  match w with
  | .bar _ _ _ none => none
  | .bar 1 cv _ _ =>
    let v := k.conv cv
    (lowestCrew k (barCrewsOf k v) (fun j _ => !v.barArrived.contains j)).map (fun j => (b, j))
  | .bar scp cv _ _ =>
    let i := barInst s k.grid scp (barUnit scp k.core) cv
    if i.blocks.contains b then
      (lowestBlock s ((barBlocks s i).filter (fun o => !i.blocks.contains o))).bind (fun e => lowestAbsent e.2 e.1 scp cv)
    else lowestAbsent k b scp cv
  | .pass n => lowestElsewhere k b (.pass n)
  | .seal => lowestElsewhere k b .seal
  | .switchPt id => lowestElsewhere k b (.switchPt id)
  | .sig cv =>
    let v := k.conv cv
    (lowestCrew k ((List.range 16).filter (fun j => v.cset.any (·.getLsbD j))) (fun j o =>
      (lanesOf o.liveLanes).any (fun l => !v.signed.contains (j, l)))).map (fun j => (b, j))
  | .copyc cv =>
    let v := k.conv cv
    (lowestCrew k (awaited k (v.cset.getD 0) (v.copies.map (·.crew))) (fun _ _ => true)).map (fun j => (b, j))
  | .waitDep =>
    match ((s.grid? k.grid).bind (·.producer)) with
    | none => none
    | some p =>
      let bs := (s.blocks.filter (fun e => e.2.grid == p && e.2.st == .resident)).map Prod.fst
      (lowestBlock s bs).bind (fun e => (lowestCrew e.2 (liveCrews e.2) (fun _ o => !o.triggered)).map (fun j => (e.1, j)))
  | .regacq _ =>
    if cr.xheld = 0 then none
    else
      ((s.core k.core).acqWait.find? (fun e => (e.1 != b || e.2.1 != c) && (s.crew? e.1 e.2.1).any (fun o => o.xheld != 0))).map
        (fun e => (e.1, e.2.1))
  | .chan dir =>
    (chanOf (s.core k.core) dir).bind (fun ch => (s.block? ch.blk).bind (fun o =>
      (lowestCrew o o.crews.keys (fun _ _ => true)).map (fun j => (ch.blk, j))))
  | _ => none

/-- The unit that a waiting crew publishes, with the wait: that of its lowest thread which publishes one. -/
def publishes (s : State) (b c : Nat) : Option (Wait × (Nat × Nat)) :=
  match s.block? b, s.crew? b c with
  | some k, some cr =>
    if cr.waitSince.isNone then none
    else cr.running.findSome? (fun t => t.wait.bind (fun w => (published s b c k cr w).map (fun u => (w, u))))
  | _, _ => none

/-- Does a probe come back to its sender within so many steps? -/
def probeReturns (s : State) (sender : Nat × Nat) : Nat → Nat × Nat → Bool
  | 0, _ => false
  | n + 1, at_ =>
    match publishes s at_.1 at_.2 with
    | none => false
    | some (_, u) => u == sender || probeReturns s sender n u

/-- Steps that a probe follows, and cycles between a crew's probes. -/
def probeSteps : Nat := 64
def probeCycles : Nat := 65536

/-- WAIT_CYCLE_PROBE: a crew that has waited long enough sends a probe; one that returns raises `DLK`, in a handler as in
the program (R349). -/
def execWaitCycleProbe (blk crew : Nat) (s : State) : Host.Outcome State Fault Refusal :=
  .next (
    match s.block? blk, s.crew? blk crew with
    | some k, some cr =>
      let due := cr.waitSince.any (fun t => decide (t + probeCycles * (cr.probes + 1) ≤ s.clock k.core))
      if !due || k.st != .resident || cr.trap.isSome then s
      else
        let s' := s.setCrew blk crew { cr with probes := cr.probes + 1 }
        match publishes s blk crew with
        | none => s'
        | some (w, _) =>
          if !probeReturns s (blk, crew) probeSteps (blk, crew) then s'
          else
            let lanes := cr.lanesWhere (fun t => !t.exited && t.wait == some w) &&&
              (cr.handler.map (·.live)).getD (BitVec.allOnes 32)
            let pc := (((lanesOf lanes).head?.bind (fun l => cr.threads.find? l)).map (·.pc)).getD 0
            let lanes := lanes &&& cr.lanesWhere (fun t => t.pc == pc)
            raiseTrap s' blk crew { cause := cDlk, taddr := pc, pc := pc, lanes := lanes, imm := 0, resume := 0, late := false, acc := 0 }
    | _, _ => s)

/-! ## PAGE_FAULT_RECORD (R351, R352) -/

/-- The record that covers a page in a context, or a new one; none while the ring is full. -/
def faultRecord (s : State) (ctx va src acc grid : Nat) : Option (State × Nat) :=
  match (s.ring ctx).pend.find? (fun e => e.2 == va / 65536) with
  | some e => some (s, e.1)
  | none =>
    match ringRecord s ctx va cPf src acc 0 grid with
    | (s, some n) => some (s, n)
    | (_, none) => none

/-- The `CMPL` address that a record names for an engine operation. -/
def opCmpl (s : State) (o : EngOp) : Nat :=
  match o.pkt with
  | some p => ((s.packets.find? p).map (·.cmpl)).getD 0
  | none => (((s.block? o.blk).bind (fun k => s.grid? k.grid)).map (·.cmpl)).getD 0

/-- PAGE_FAULT_RECORD: a fault joins the unserviced record of its page, or writes one. -/
def execPageFaultRecord (src : FaultSrc) (s : State) : Host.Outcome State Fault Refusal :=
  .next (
    match src with
    | .crew blk crew =>
      match s.block? blk, s.crew? blk crew with
      | some k, some cr =>
        match cr.pendingPf, cr.pfSeq, s.grid? k.grid with
        | some (va, acc, src), none, some g =>
          match faultRecord s g.ctx va src acc g.cmpl with
          | some (s, n) => s.setCrew blk crew { cr with pfSeq := some n }
          | none => s
        | _, _, _ => s
      | _, _ => s
    | .engine op =>
      match op? s op with
      | some o =>
        match o.pf with
        | some (va, acc, none) =>
          match faultRecord s (opCtx s o) va 2 acc (opCmpl s o) with
          | some (s, n) => updOp s op (fun o => { o with pf := some (va, acc, some n) })
          | none => s
        | _ => s
      | none => s)

/-! ## Retries and retirement (R353, R383, R384) -/

/-- Units of each kind (R384). -/
def unitCount (kind : Nat) : Nat :=
  match kind with
  | 1 => 768
  | 2 => 192
  | 3 => 64
  | 4 => 192
  | 5 => hbmPages
  | 6 => 64
  | 7 => 36
  | 8 => 4
  | _ => 0

/-- Grids with a block on a core of some kind. -/
def gridsOn (s : State) (p : Nat → Bool) : List Nat :=
  (s.blocks.filter (fun e => e.2.st == .resident && p e.2.core)).map (fun e => e.2.grid)

/-- Grids that had state in a unit: those with blocks on a core, operations in an engine, streams resident in a Mask Unit
(R161), wherever their blocks are; of any other unit, which grids had state there is open (DESIGN CHOICE, log 40). -/
def unitGrids (s : State) (kind idx : Nat) : List Nat :=
  let gs : List Nat :=
    match kind with
    | 1 => gridsOn s (fun c => c == idx)
    | 2 => (s.quad idx).streams.flatMap (·.grids)
    | 3 => (s.ops.filter (fun o => o.pkt.isNone && o.started && !o.done && o.cls == 0 && o.engine == idx % 16)).filterMap (fun o =>
        (s.block? o.blk).bind (fun k => if dieOf k.core = idx / 16 then some k.grid else none))
    | _ => s.grids.keys.filter (fun g => Config.freeChoice s.free g % 2 == 1)
  (gs.foldl (fun l g => if l.contains g then l else l ++ [g]) []).filter (fun g => (s.grid? g).any (fun x => x.st == .running))

/-- A packet's copy in a retired engine ends with `FAULT`. -/
def stopPacketCopies (s : State) (die engine : Nat) : State :=
  if die ≠ 0 then s
  else
    let hit := s.ops.filter (fun o => o.pkt.isSome && o.started && !o.done && o.engine == engine)
    hit.foldl (fun s o => (updOp s o.id (fun o => { o with done := true, pf := none })).updPkt (o.pkt.getD 0)
      (fun p => { p with status := sFault })) s

/-- Streams of a retired Mask Unit move to the next quad of the die (R384); a full unit writes one back first (R161). -/
def moveStreams (s : State) (quad : Nat) : State :=
  let to_ := maskQuad s (4 * quad)
  if to_ = quad then s
  else
    let q := s.quad quad
    q.streams.foldl (fun s g => gmPut (gmRoom s to_) to_ g) (s.setQuad quad { q with streams := [] })

/-- Map entries of the pages that use a retired HBM channel, those that are not listed (R372). -/
def channelPages (s : State) (channel : Nat) : List DWord :=
  ((List.range hbmPages).filter (fun p => hbmChannel p == channel && !isDegraded s 5 p)).map
    (fun p => BitVec.ofNat 64 (5 + 256 * p))

/-- A retired Aedgor port: no route uses it (R375). -/
def retirePort (s : State) (port : Nat) : State :=
  { s with
    ports := s.ports.set port { s.ports.getD port Port.reset with retired := true }
    routes := s.routes.mapVals (fun _ e => if e.toNat % 64 = port then e &&& ~~~(1#64 <<< 63) else e) }

/-- A unit joins the degraded-unit map, with what that does (R384); no grid is looked at. -/
def listUnit (s : State) (kind idx : Nat) : State :=
  let s := { s with degraded := s.degraded ++ [BitVec.ofNat 64 (kind + 256 * idx)] }
  match kind with
  | 2 => moveStreams s idx
  | 3 => stopPacketCopies s (idx / 16) (idx % 16)
  | 4 => { s with degraded := s.degraded ++ channelPages s idx }
  | 7 => retirePort s idx
  | _ => s

/-- An `MCE` record, or its place in the line while the ring is full (R351, R353). -/
def mceRecord (s : State) (ctx kind grid : Nat) : State :=
  match ringRecord s ctx 0 cMce 5 0 kind grid with
  | (s, some _) => s
  | (s, none) => s.setRing ctx { s.ring ctx with held := (s.ring ctx).held ++ [(kind, grid)] }

/-- The contexts that an `MCE` record goes to, each with the `CMPL` of a grid: those of the grids with state in the unit;
without one, the spec does not say which ring takes the record, and it is an open one of the resident contexts'
(DESIGN CHOICE, log 40). -/
def mceRings (s : State) (gs : List Nat) : List (Nat × Nat) :=
  match gs.filterMap s.grid? with
  | [] => ((NMap.keys s.ctxs)[Config.freeChoice s.free 0 % max 1 s.ctxs.length]?).toList.map (fun c => (c, 0))
  | gs => gs.foldl (fun l g => if l.any (fun (e : Nat × Nat) => e.1 == g.ctx) then l else l ++ [(g.ctx, g.cmpl)]) []

/-- Retires a unit: the map, the unit's effect, an `MCE` record in every context with a grid there, and the end of those
grids; `own` is the grid whose crew the unit failed, if any. An HBM page is withdrawn instead: accesses to it fault as `PF`,
with no record and no grid's end (R353). -/
def retireUnit (s : State) (kind idx : Nat) (own : Option Nat) : State :=
  if isDegraded s kind idx then s
  else if kind = 5 then { listUnit s kind idx with hbmRetry := s.hbmRetry.filter (· != idx) }
  else
    let gs := (own.filter (fun g => (s.grid? g).any (fun x => x.st == .running))).toList
    let gs := gs ++ (unitGrids s kind idx).filter (fun g => !gs.contains g)
    let rings := mceRings s gs
    let s := rings.foldl (fun s e => mceRecord s e.1 kind e.2) (listUnit s.draw kind idx)
    gs.foldl (fun s g => endGrid s g .faulted) s

/-- MCE_RETIRE: a lasting fault of a unit: its kind and index (R384). -/
def execMceRetire (kind idx : Nat) (s : State) : Host.Outcome State Fault Refusal :=
  .next (if idx < unitCount kind then retireUnit s kind idx none else s)

/-- Does a core run below its voltage margin: every block on it belongs to an `OVS` context, and no error has returned
it to nominal voltage? -/
def overScaled (s : State) (core : Nat) : Bool :=
  !(s.core core).nominal && (onCore s core []).all (fun k => ((s.grid? k.grid).bind (fun g => s.ctxs.find? g.ctx)).any (·.ovs))

/-- How often in succession an instruction of the crew has failed, by timing or by parity. -/
def Crew.failures (cr : Crew) (pc : Nat) (timing : Bool) : Nat :=
  ((cr.retry.find? (fun r => r.pc == pc && r.timing == timing)).map (·.n)).getD 0

/-- Rolls a crew back after a failure at an instruction, which is then tried again, as is every other that is noted. -/
def retryAt (s : State) (b c pc n : Nat) (timing : Bool) : State :=
  (rollCrew s b c).updCrew b c (fun cr =>
    { cr with retry := ⟨pc, timing, n, false⟩ ::
        (cr.retry.filter (fun r => r.pc != pc || r.timing != timing)).map (fun r => { r with issued := false }) })

/-- May a hardware error be noticed in a crew? -/
def mayFail (k : Block) (cr : Crew) : Bool := k.st == .resident && !cr.retired && !cr.allExited

/-- TIMING_ERROR: the crew is rolled back; a second error at the instruction retires the core, under `OVS` it first
returns the core to nominal voltage (R383). -/
def execTimingError (blk crew pc : Nat) (s : State) : Host.Outcome State Fault Refusal :=
  .next (
    match s.block? blk, s.crew? blk crew with
    | some k, some cr =>
      if !mayFail k cr then s
      else
        let n := cr.failures pc true
        let under := overScaled s k.core
        if n = 0 then retryAt s blk crew pc 1 true
        else if under = true ∧ n = 1 then
          retryAt (s.setCore k.core { s.core k.core with nominal := true }) blk crew pc 2 true
        else retireUnit s 1 k.core (some k.grid)
    | _, _ => s)

/-- PARITY_ERROR: the crew is rolled back; a second error at the instruction retires the unit, the core where
no such unit exists (R383). -/
def execParityError (blk crew pc kind idx : Nat) (s : State) : Host.Outcome State Fault Refusal :=
  .next (
    match s.block? blk, s.crew? blk crew with
    | some k, some cr =>
      if !mayFail k cr then s
      else if cr.failures pc false = 0 then retryAt s blk crew pc 1 false
      else if idx < unitCount kind ∧ kind ≠ 5 then retireUnit s kind idx (some k.grid)
      else retireUnit s 1 k.core (some k.grid)
    | _, _ => s)

/-- HBM_UNCORRECTABLE: the access is tried again, until one to the page succeeds (`hbmDone`); on a second error the page is
withdrawn, and accesses to it fault, those translated before among them (`standingPlace`; R353, R383). -/
def execHbmUncorrectable (page : Nat) (s : State) : Host.Outcome State Fault Refusal :=
  .next (
    if hbmPages ≤ page ∨ isDegraded s 5 page = true then s
    else if s.hbmRetry.contains page then retireUnit s 5 page none
    else { s with hbmRetry := page :: s.hbmRetry })

end Sys2Proof.Machine
end

