-- ==== Sys2Proof/Machine/Save.lean ====
section
/-! DEFINITION. Saving a block and restoring it: fault service, pre-emption, eviction of parked blocks
(04_engines R79; 07_matrix R123; 16_isa_control R280; 25_context_faults R352, R354–R358, R362). -/

namespace Sys2Proof.Machine

open Sys2Proof

/-! ## When a block can be saved (R79, R123, R280, R348) -/

/-- May a thread go back to its head for a save: its implicit head is complete (R277), it would wait at no queue again (log
140), and no barrier that it has met since
the head has completed; past one, it is saved at its next head (R263)? -/
def Thread.canSave (s : State) (k : Block) (t : Thread) : Bool :=
  t.exited || (!t.headDue && t.head.pops.isEmpty && t.bars.all (fun a => a.2.2.2.all (fun gen => gen == barGenOf s k a.1 a.2.1)))

/-- Does a crew let its block be saved: nothing in flight, no handler, every thread free to go back, no access of a Mask
Unit or a channel that waits for service in place? -/
def Crew.canSave (s : State) (k : Block) (cr : Crew) : Bool :=
  cr.retired ||
  (cr.drained && cr.returns.isEmpty && cr.acqs.isEmpty && cr.locks.isEmpty && cr.late.isNone && cr.trap.isNone &&
    !cr.inHandler && cr.threads.vals.all (Thread.canSave s k) &&
    (match cr.pendingPf with
      | none => true
      | some (_, _, src) => decide (src ≤ 1) && cr.pfSeq.isSome))

/-- Does no stage write of a block run on a channel (R79)? One that a protection violation has stopped in its stage writes no
more, nor does an idle channel, and `WPTR` keeps where it was (R77). -/
def chanRests (s : State) (ch : Option Channel) (b : Nat) : Bool :=
  ch.all (fun c => c.blk != b || c.ptr == 0 || c.done || (op? s c.op).all (fun o => o.done || o.fault.isSome))

/-- Can a block be saved now? -/
def canSave (s : State) (b : Nat) (k : Block) : Bool :=
  let c := s.core k.core
  k.st == .resident && (s.grid? k.grid).any (fun g => g.st == .running) && k.crews.vals.all (Crew.canSave s k) &&
  !k.crews.vals.all (·.retired) &&
  s.ops.all (fun o => o.pkt.isSome || o.blk != b || o.done || !o.ready || o.cls == 1 || o.cls == 4) &&
  chanRests s c.fill b && chanRests s c.drain b &&
  (List.range 4).all (fun q => (wqOf s k.core q).pops.all (fun p => p.1 != b))

/-- Do all threads of a crew stand at their heads (R280), where an instruction may wait for its operands? -/
def Crew.atHeads (cr : Crew) : Bool :=
  cr.threads.vals.all (fun t => t.exited || (t.atHead && t.wait.all (· == .operands) && t.pc == t.head.pc))

/-! ## The frame (R355–R357) -/

/-- The bays that bytes of a block's scratchpad lie in. -/
def baysOf (size ofs len : Nat) : List Nat :=
  if len = 0 then [] else (List.range ((ofs + len - 1) / size - ofs / size + 1)).map (· + ofs / size)

/-- Bays of the stages that hold delivered and unreleased, or handed-over and undrained, data (R79). -/
def stageBays (size : Nat) (dir : Nat) (ch : Channel) : List Nat :=
  let its := if dir = 0 then (List.range (ch.moved - ch.released)).map (· + ch.released)
    else (List.range (ch.handed - ch.moved)).map (· + ch.moved)
  its.flatMap (fun i => baysOf size (ch.lay.rbase + (i % max 1 ch.lay.nstg) * ch.lay.stgsz) ch.lay.stgsz)

/-- The bays that a save writes: those of the heads' masks, of the deque, of the rings. -/
def savedBayList (s : State) (b : Nat) (k : Block) : List Nat :=
  let c := s.core k.core
  let size := bayBytes c.split
  let masks := k.crews.vals.flatMap (fun cr => (cr.threads.vals.filter (fun t => !t.exited)).map (fun t => t.head.bay))
  let dq := if c.dq.owner = some b then baysOf size c.dq.base (c.dq.lim - c.dq.base) else []
  let rings := ((chanOf c 0).filter (fun x => x.blk == b)).toList.flatMap (stageBays size 0) ++
    ((chanOf c 1).filter (fun x => x.blk == b)).toList.flatMap (stageBays size 1)
  (List.range k.bays.length).filter (fun i => masks.any (fun m => m.getLsbD i) || dq.contains i || rings.contains i)

/-- The bytes of a bay of a block, by its number in the block. -/
def bayData (s : State) (k : Block) (bay : Nat) : List Byte :=
  let size := bayBytes (s.core k.core).split
  match bayPlace s k (bay * size) with
  | some p => readPlace s p size
  | none => []

/-- Octets that a crew's frame holds: in some thread's live-in mask, in a block that the crew holds. -/
def Crew.octets (cr : Crew) : List Nat :=
  (List.range 32).filter (fun o => cr.holds (8 * o) && cr.threads.vals.any (fun t => !t.exited && t.head.li.getLsbD o))

/-- One octet: unpredictable bytes for a thread whose mask lacks it. -/
def octetBytes (cr : Crew) (free o : Nat) : List Byte :=
  (List.range 32).flatMap (fun l =>
    let has := (cr.threads.find? l).any (fun t => !t.exited && t.head.li.getLsbD o)
    (List.range 8).flatMap (fun r =>
      leBytes 4 (if has then (cr.getV (8 * o + r) l).toNat else (Config.freeWord free (256 * o + 8 * l + r)).toNat)))

/-- Bytes for each lane of a crew; zero for a lane without a thread. -/
def laneBytes (cr : Crew) (n : Nat) (f : Thread → List Byte) : List Byte :=
  (List.range 32).flatMap (fun l => match cr.threads.find? l with
    | some t => f t
    | none => leBytes n 0)

/-- A crew's 4 KiB record and its octets, of threads that stand at their heads: `DCTR` is that with which they go on, which
a handler may have advanced since (R115). -/
def crewFrame (s : State) (b c : Nat) (cr : Crew) : List Byte :=
  let mon := cr.monitor.getD ⟨0, 0, none⟩
  (List.range 64).flatMap (fun i => leBytes 8 ((NMap.find? cr.ckS i).getD (cr.getS i)).toNat) ++
  (List.range 16).flatMap (fun i => leBytes 4 (cr.getP i).toNat) ++
  leBytes 8 cr.ckFstat.toNat ++ leBytes 2 (outstanding s b c 1).length ++
  leBytes 1 (cr.xheld.toNat + 16 * cr.xmark.toNat) ++ leBytes 1 0 ++
  leBytes 2 (outstanding s b c 4).length ++ leBytes 2 0 ++
  leBytes 8 mon.addr ++ leBytes 1 mon.space ++ leBytes 7 0 ++
  leBytes 4 (cr.lanesWhere (·.exited)).toNat ++ leBytes 156 0 ++
  laneBytes cr 8 (fun t => leBytes 8 t.head.pc) ++
  laneBytes cr 4 (fun t => leBytes 4 t.head.li.toNat) ++
  laneBytes cr 4 (fun t => leBytes 4 t.head.ws.toNat) ++
  laneBytes cr 8 (fun t => leBytes 2 t.cnt.red ++ leBytes 2 t.cnt.dq ++ leBytes 2 t.cnt.wq ++ leBytes 2 t.cnt.pool) ++
  laneBytes cr 32 (fun t => (List.range 4).flatMap (fun k => leBytes 8 (t.ltid.getD k 0).toNat)) ++
  laneBytes cr 32 (fun t => (List.range 4).flatMap (fun k => leBytes 8 (t.dctr.getD k 0).toNat)) ++
  leBytes 512 0 ++
  cr.octets.flatMap (octetBytes cr s.free)

/-- The entries of the Serial Phase Buffer in key order. -/
def spbFrame (k : Block) : List Byte :=
  (spbSort k.spb).flatMap (fun e =>
    leBytes 8 e.ltid.toNat ++ leBytes 8 e.operand.toNat ++ leBytes 4 e.ofs ++ leBytes 2 e.count ++ leBytes 1 e.aop ++ leBytes 1 e.w)

/-- The crew that waits for fault service, of lowest number: its faulting address and record. -/
def faultedCrew (k : Block) : Option (Nat × Nat) :=
  k.crews.vals.findSome? (fun cr =>
    match cr.pendingPf, cr.pfSeq with
    | some (va, _, _), some n => if cr.retired then none else some (va, n)
    | _, _ => none)

/-- The frame of a block, item 4 in a form of the Save Engine's own. -/
def frameBytes (s : State) (b : Nat) (k : Block) (g : Grid) (why : Nat) (bays : List Nat) : List Byte :=
  let tiles := ((blockVariant s k).map (·.tiles)).getD 0
  let body := k.crews.flatMap (fun e => crewFrame s b e.1 e.2) ++ bays.flatMap (bayData s k) ++ k.acc.read 0 (16384 * tiles)
  let spb := spbFrame k
  let size := 256 + body.length + roundUp spb.length 256 + 8192
  let pf := faultedCrew k
  let head := leBytes 8 k.lin ++ leBytes 8 g.cmpl ++ leBytes 1 k.vid ++ leBytes 1 k.crews.length ++ leBytes 1 why ++
    leBytes 1 (if pf.isSome then 1 else 0) ++ leBytes 4 ((bays.map (fun i => 2 ^ i)).sum) ++
    leBytes 8 ((pf.map Prod.fst).getD 0) ++ leBytes 4 ((pf.map Prod.snd).getD 0) ++ leBytes 4 size ++ leBytes 2 k.spb.length
  head ++ leBytes 214 0 ++ body ++ spb ++ leBytes (roundUp spb.length 256 - spb.length) 0 ++
    (List.range 8192).map (fun i => Config.freeByte s.free i)

/-! ## Saving (R352, R354) -/

/-- Takes an object for a frame from the context's save pool; none when it is disabled, unfit or dry. -/
def takeFrame (s : State) (ctx : Nat) : Option (Nat × State) :=
  let r := s.ring ctx
  if !bitAt r.savePool 4 then none
  else
    match s.pools.find? (r.savePool % 16), s.ctxs.find? ctx with
    | some p, some c =>
      if p.ctx ≠ some ctx ∨ p.osz < 21 ∨ p.head = 0 then none
      else (natVirt s c p.head 8).map (fun link =>
        (p.head, { s with pools := s.pools.set (r.savePool % 16) { p with head := link, free := p.free - 1 } }))
    | _, _ => none

/-- Rolls back the crews that do not stand at their heads. -/
def rollBlock (s : State) (b : Nat) (k : Block) : State :=
  k.crews.foldl (fun s e => if e.2.retired || e.2.allExited || e.2.atHeads then s else rollCrew s b e.1) s

/-- Saves a block: its crews stand at their heads, the frame is written, its resources are free. -/
def saveBlock (s : State) (b why : Nat) : State :=
  match s.block? b with
  | none => s
  | some k =>
    match s.grid? k.grid with
    | none => s
    | some g =>
      if !canSave s b k then s
      else
        match takeFrame s g.ctx with
        | none => s
        | some (frame, s) =>
          let s := rollBlock s b k
          let k := (s.block? b).getD k
          let bays := savedBayList s b k
          let data := bays.map (fun i => (i, bayData s k i))
          let bytes := frameBytes s b k g why bays
          let s := match s.ctxs.find? g.ctx with
            | some c => storeVirt s c frame bytes
            | none => s
          let s := s.setBlock b { k with
            frame := frame, framePool := (s.ring g.ctx).savePool % 16, why := why, fseq := (faultedCrew k).map Prod.snd, savedAt := s.time, savedBays := data }
          (leaveCore s b .saved).draw

/-- FAULT_SERVICE_SAVE: a block with a crew that waits for fault service is saved (R352). -/
def execFaultServiceSave (blk : Nat) (s : State) : Host.Outcome State Fault Refusal :=
  .next (if (s.block? blk).any (fun k => (faultedCrew k).isSome) then saveBlock s blk 1 else s)

/-- PREEMPTION_SAVE: the Save Engine saves a block at its region heads (R27, R280). -/
def execPreemptionSave (blk : Nat) (s : State) : Host.Outcome State Fault Refusal :=
  .next (if (s.block? blk).any (fun k => (faultedCrew k).isNone) then saveBlock s blk 0 else s)

/-! ## Room for a saved block (R358) -/

/-- Are the units that go with a saved block free on a core, those of the blocks of `gone` counted as free? -/
def unitsFree (s : State) (core : Nat) (k : Block) (gone : List Nat) : Bool :=
  let c := s.core core
  let free := fun (ch : Option Channel) => ch.all (fun x => gone.contains x.blk)
  let stays := fun (g : Nat) => s.blocks.any (fun e =>
    e.2.grid == g && e.2.core == core && e.2.st == .resident && !gone.contains e.1)
  (k.savedDq.isNone || c.dq.owner.all (fun b => gone.contains b)) && (k.savedFill.all (·.done) || free (chanOf c 0)) &&
  (k.savedDrain.all (·.done) || free (chanOf c 1)) &&
  k.savedWq.all (fun e =>
    let w := wqOf s core e.1
    if gone.isEmpty then w.grid.isNone && w.elems.isEmpty else w.grid.all (fun g => !stays g))

/-- Has a core room for a saved block, the resources of the blocks of `gone` counted as free? -/
def roomFor (s : State) (core : Nat) (k : Block) (gone : List Nat) : Bool :=
  match s.grid? k.grid, blockVariant s k with
  | some g, some v =>
    fits s core g v gone && barsOk s core k.grid g && unitsFree s core k gone &&
      decide (((onCore s core gone).map Block.regBlocks).sum + k.regBlocks ≤ 96)
  | _, _ => false

/-- Is a saved block ready: its grid runs, and it waits on no record? -/
def saveReady (s : State) (k : Block) : Bool :=
  k.st == .saved && k.fseq.isNone && (s.grid? k.grid).any (fun g => g.st == .running)

/-- Has a core room for a ready saved block, set as its launch needs it? -/
def restoreFits (s : State) (core : Nat) (k : Block) : Bool :=
  saveReady s k && roomFor s core k [] && (s.grid? k.grid).any (fun g => splitReady s core g.split g.fuse)

/-! ## PARKED_BLOCK_EVICT (R362) -/

/-- Is a block parked: every non-exited crew waits in `monwait`? -/
def parked (k : Block) : Bool :=
  k.crews.vals.any (fun cr => !cr.allExited) &&
    k.crews.vals.all (fun cr => cr.allExited || cr.monitor.any (·.parked.isSome))

/-- The cycle since which a block is parked: the last of its threads began to wait in `monwait`, or exited, then. -/
def parkedSince (k : Block) : Nat :=
  (k.crews.vals.flatMap (fun cr =>
    ((cr.monitor.bind (·.parked)).map (·.since)).toList ++ cr.threads.vals.filterMap (·.since))).foldl max 0

/-- A ready saved block that no core has room for, and that a core of parked blocks alone would take. -/
def evictFor (s : State) (core : Nat) : Bool :=
  s.blocks.any (fun e => saveReady s e.2 && !(List.range coreCount).any (fun c => roomFor s c e.2 []) &&
    roomFor s core e.2 (s.residents core))

/-- PARKED_BLOCK_EVICT: the longest parked block of the core is saved. -/
def execParkedBlockEvict (blk : Nat) (s : State) : Host.Outcome State Fault Refusal :=
  .next (
    match s.block? blk with
    | none => s
    | some k =>
      let rs := s.blocks.filter (fun e => e.2.st == .resident && e.2.core == k.core)
      let first := rs.all (fun e => e.1 == blk || decide (parkedSince k < parkedSince e.2) ||
        (parkedSince k == parkedSince e.2 && decide (blk < e.1)))
      if k.st == .resident && rs.all (fun e => parked e.2) && first && evictFor s k.core then saveBlock s blk 2 else s)

/-! ## BLOCK_RESTORE (R358) -/

/-- Does a saved block come before another: higher priority first, then the oldest save? -/
def restoreBefore (s : State) (a b : Nat × Block) : Bool :=
  let p := fun (k : Block) => ((s.grid? k.grid).map (·.prio)).getD 0
  decide (p b.2 < p a.2) || (p a.2 == p b.2 && (decide (a.2.savedAt < b.2.savedAt) ||
    (a.2.savedAt == b.2.savedAt && decide (a.1 ≤ b.1))))

/-- Would a queued block of a higher priority go to the core? -/
def queuedAhead (s : State) (core prio : Nat) : Bool :=
  (liveQueue s (dieOf core)).any (fun e => (s.grid? e.grid).any (fun g =>
    decide (prio < g.prio) && (chooseVariant s core g []).isSome && barsOk s core e.grid g))

/-- The vector registers that a frame brings back: those that the threads' heads name. Any other register holds a free
value: the spec gives none for it (log 121). -/
def Crew.reload (cr : Crew) (fill : Nat) : Crew :=
  { cr with
    v := (cr.threads.filter (fun e => !e.2.exited)).foldl (fun v e => e.2.head.v.foldl (fun v x => NMap.set v x.1 x.2) v) []
    vFill := (List.range 4).map (fun i => (i, some fill))
    held := [] }

/-- A crew of a restored block: at its heads, on its new issue slot, with an acquire (R56). -/
def Crew.restored (cr : Crew) (slot fill : Nat) : Crew :=
  ({ cr.reload fill with slot := slot, pendingPf := none, pfSeq := none } : Crew).entered

/-- The crews that have not retired take their slots and their registers. -/
def restoreCrews (free : Nat) (slots : List Nat) : List (Nat × Crew) → List (Nat × Crew)
  | [] => []
  | (c, cr) :: rest =>
    if cr.retired then (c, cr) :: restoreCrews free slots rest
    else (c, cr.restored (slots.headD 0) (free + c)) :: restoreCrews free slots.tail rest

/-- The core's units take back what they held for the block. -/
def restoreUnits (s : State) (b core : Nat) (k : Block) : State :=
  let c := s.core core
  let pick := fun (a b : Option Channel) => match a with
    | some x => if x.done && b.any (fun y => !y.done) then b else some x
    | none => b
  let s := s.setCore core { c with
    dq := k.savedDq.getD c.dq, fill := pick k.savedFill c.fill, drain := pick k.savedDrain c.drain }
  let s := k.savedWq.foldl (fun s e => setWq s core e.1 ⟨e.2, some k.grid, []⟩) s
  { s with ops := s.ops.map (fun o =>
      match o.kind with
      | .stream dir _ => if o.blk = b ∧ o.pkt = none then { o with kind := .stream dir core } else o
      | _ => o) }

/-- BLOCK_RESTORE: the first ready saved block that a core has room for resumes there, every crew at its heads, with the
flag of reason 3 set. -/
def execBlockRestore (blk core : Nat) (s : State) : Host.Outcome State Fault Refusal :=
  .next (
    match s.block? blk with
    | none => s
    | some k =>
      match s.grid? k.grid, blockVariant s k with
      | some g, some v =>
        let older := s.blocks.any (fun e => e.1 != blk && restoreFits s core e.2 && !restoreBefore s (blk, k) e)
        if !restoreFits s core k || older || queuedAhead s core g.prio then s
        else
          let slots := assignSlots k.unretired.length (slotCrews s core)
          let n : Block := { k with
            st := .resident, core := core, bays := freeBays s core v.bays, crews := restoreCrews s.free slots k.crews, frame := 0
            flag := some (k.flag.getD 3), fseq := none, placedAt := s.time, savedBays := [], savedDq := none, savedFill := none
            savedDrain := none, savedWq := [] }
          let s := { s with free := s.free + 16 }
          let s := returnBars ((takeBars s core k.grid g).setBlock blk n) k.core k.grid
          let s := frameBack s g.ctx k.framePool k.frame
          let s := k.savedBays.foldl (fun s e =>
            let size := bayBytes (s.core core).split
            match bayPlace s n (e.1 * size) with
            | some p => writePlace s p e.2
            | none => s) s
          restoreUnits s blk core k
      | _, _ => s)

end Sys2Proof.Machine
end

