-- ==== Sys2Proof/Machine/Platform.lean ====
section
/-! DEFINITION. The host boundary: control space, bring-up and reset, contexts, invalidation, host stores, the fabric's
ports, clocks (24_queues_dispatch R332–R334; 25_context_faults R350, R352, R366; 26_platform R367–R375; 27_fleet R388). -/

namespace Sys2Proof.Machine

open Sys2Proof

/-! ## Doorbells and contexts (R332, R334) -/

/-- Are control writes to doorbells and context slots heard (R369)? -/
def deviceReady (s : State) : Bool := s.ctl.dev == .ready

/-- The new `WIDX` of a host-side queue. -/
def doorbell (s : State) (ctx q val : Nat) : State :=
  let s := if q < 64 then noteQueue s ctx q else s
  match s.ctxs.find? ctx, (if q < 64 then queueEntry s ctx q else none) with
  | some c, some e =>
    if !deviceReady s || !e.enabled || e.device then s else storeVirt s c (queueVa c q + 24) (leBytes 8 val)
  | _, _ => s

/-- DOORBELL_WRITE. -/
def execDoorbellWrite (ctx q val : Nat) (s : State) : Host.Outcome State Fault Refusal := .next (doorbell s ctx q val)

/-- A context from its descriptor; none when the descriptor breaks a requirement (R332). -/
def readContext (s : State) (addr : Nat) : Option Ctx :=
  let n := s.mem.nat addr 64
  let fl := field n 0x20 4
  let ok := addr % 64 = 0 ∧ field n 0 8 % 4096 = 0 ∧ field n 8 8 % 64 = 0 ∧ field n 16 8 % 64 = 0 ∧ fl / 16 = 0 ∧ fl % 4 ≠ 3 ∧
    field n 0x24 28 = 0
  if ok then
    some { desc := addr, ptroot := field n 0 8, ftab := field n 8 8, qtab := field n 16 8, traph := field n 24 8
           level := fl % 4, debug := bitAt fl 2, ovs := bitAt fl 3, leaving := false }
  else none

/-- A write to a context slot: 0 removes the context once none of its work is in flight. -/
def contextSlot (s : State) (ctx val : Nat) : State :=
  if !deviceReady s || decide (64 ≤ ctx) then s
  else if val = 0 then
    dropContext { s with ctxs := s.ctxs.mapVals (fun i c => if i = ctx then { c with leaving := true } else c) } ctx
  else if inFlight s ctx then s
  else
    let s := removeContext s ctx
    match readContext s val with
    | some c => { s with ctxs := s.ctxs.set ctx c }
    | none => s

/-- CONTEXT_SLOT_WRITE. -/
def execContextSlotWrite (ctx val : Nat) (s : State) : Host.Outcome State Fault Refusal := .next (contextSlot s ctx val)

/-! ## Fault service and invalidation (R352, R366) -/

/-- Everything that waits on a record below `n` goes on. -/
def serviced (s : State) (ctx n : Nat) : State :=
  let mine := fun (k : Block) => (s.grid? k.grid).any (fun g => g.ctx == ctx)
  let s' := { s with
    blocks := s.blocks.mapVals (fun _ k =>
      if mine k then
        { k with
          fseq := k.fseq.filter (fun q => decide (n ≤ q))
          crews := k.crews.mapVals (fun _ cr =>
            if cr.pfSeq.any (fun q => decide (q < n)) then { cr with pendingPf := none, pfSeq := none } else cr) }
      else k)
    ops := s.ops.map (fun (o : EngOp) =>
      match o.pf with
      | some (_, _, some q) => if q < n ∧ opCtx s o = ctx then { o with pf := none } else o
      | _ => o) }
  let r := s'.ring ctx
  let s' := s'.setRing ctx { r with ridx := n, pend := r.pend.filter (fun e => decide (n ≤ e.1)), held := [] }
  r.held.foldl (fun s e => mceRecord s ctx e.1 e.2) s'

/-- FRRIDX_WRITE. -/
def execFrridxWrite (ctx val : Nat) (s : State) : Host.Outcome State Fault Refusal :=
  .next (if ctx < 64 then serviced s ctx val else s)

/-- A write to `INVCTL`; one while bit 0 is set is ignored. -/
def invalidate (s : State) (ctx val : Nat) : State :=
  let r := s.ring ctx
  if bitAt r.invCtl 0 || decide (64 ≤ ctx) then s else s.setRing ctx { r with invCtl := val % 2 ^ 64 }

/-- INVCTL_INVALIDATE. -/
def execInvctlInvalidate (ctx val : Nat) (s : State) : Host.Outcome State Fault Refusal := .next (invalidate s ctx val)

/-- Does a range of an invalidation hold bytes of a virtual range? -/
def inRange (r : Ring) (va len : Nat) : Bool :=
  let lo := r.invAddr / 65536 * 65536
  bitAt r.invCtl 1 || (decide (va < lo + 65536 * bits r.invCtl 16 48) && decide (lo < va + len))

/-- Is a translated access of a context still on its way? -/
def accessPending (s : State) (ctx : Nat) : Bool :=
  let glob := fun (p : Place) => match p with
    | .g _ => true
    | _ => false
  s.blocks.any (fun e => (s.grid? e.2.grid).any (fun g => g.ctx == ctx) && e.2.crews.any (fun c =>
    c.2.loads.any (fun l => glob l.place) || c.2.storePath.any (fun m =>
      match m with
      | .store _ p _ _ _ => glob p
      | .atomic _ p _ _ _ _ _ _ _ => glob p
      | .marker _ (.poolgive _ objs) => objs.any (fun o => glob o.2)
      | .marker _ _ => false)))

/-- INVALIDATION_DONE: no TLB holds a translation of the range, and what was translated is performed. -/
def execInvalidationDone (ctx : Nat) (s : State) : Host.Outcome State Fault Refusal :=
  .next (
    let r := s.ring ctx
    let held := s.quads.any (fun e => e.2.streams.any (fun m => m.ctx == ctx && inRange r m.va 64))
    if !bitAt r.invCtl 0 || accessPending s ctx || held then s
    else
      { s with tlb := s.tlb.filter (fun t => !(t.ctx == ctx && inRange r t.va (2 ^ t.log))) }.setRing ctx
        { r with invCtl := r.invCtl - 1 })

/-! ## Bring-up (R369, R370) -/

/-- Bytes of the staging window. -/
def windowBytes : Nat := 64 * 2 ^ 20

/-- A write to `FWCTL`. -/
def startVerify (s : State) (val : Nat) : State :=
  let len := bits val 32 32
  if (s.ctl.dev == .awaiting || s.ctl.dev == .refused) && bitAt val 0 && decide (1 ≤ len) && decide (len ≤ windowBytes) then
    { s with ctl := { s.ctl with dev := .verifying, fwLen := len } }
  else s

/-- FWCTL_VERIFY. -/
def execFwctlVerify (val : Nat) (s : State) : Host.Outcome State Fault Refusal := .next (startVerify s val)

/-- A number joins an ascending list. -/
def insertNat (n : Nat) : List Nat → List Nat
  | [] => [n]
  | a :: as => if n < a then n :: a :: as else if n = a then a :: as else a :: insertNat n as

/-- The ROM builds the degraded-unit map from its record of retirements and its own tests (R370, R371), finds the CXL
devices (R373), and fixes the host's range (R367). Which units fail a test, and what a device holds, is open. -/
def romBoot (s : State) : State :=
  let s := (Config.romTests s.free).foldl (fun s u =>
    if u.2 < unitCount u.1 ∧ isDegraded s u.1 u.2 = false then listUnit s u.1 u.2 else s) s.draw
  let pages := (s.degraded.filter (fun e => e.toNat % 256 == 5)).map (fun e => bits e.toNat 8 24)
  { s with ctl := { s.ctl with
      cxl := (List.range 4).map (fun p => min 0x100_0000_0000 (Config.cxlCapacity s.free p))
      hdm := pages.foldr insertNat [] } }

/-- FIRMWARE_VERIFY_DONE: measurement 1 is taken; the signature decides, and the ROM then makes the units ready. -/
def execFirmwareVerifyDone (s : State) : Host.Outcome State Fault Refusal :=
  .next (
    if s.ctl.dev != .verifying then s
    else
      let img := s.ctl.fw.read 0 s.ctl.fwLen
      let s := { s with spdm := { s.spdm with meas1 := shake256 img } }
      if Config.imageSigned img then
        let s := romBoot s
        { s with ctl := { s.ctl with dev := .ready } }
      else { s with ctl := { s.ctl with dev := .refused } })

/-- FIRMWARE_STAGING_WINDOW_WRITE: the host writes the image; ignored while it is verified. -/
def execFirmwareStagingWindowWrite (ofs : Nat) (data : List Byte) (s : State) : Host.Outcome State Fault Refusal :=
  .next (
    if s.ctl.dev == .verifying || decide (windowBytes < ofs + data.length) then s
    else { s with ctl := { s.ctl with fw := s.ctl.fw.write ofs data } })

/-- A package reset (R371): retired units stay retired, the package's own memory and the staging window hold free bytes, and
the package has the number 0 again. -/
def packageReset (s : State) (link : Bool) : State :=
  { State.reset with
    degraded := s.degraded
    ports := s.ports.mapVals (fun _ p => { Port.reset with retired := p.retired })
    mem := (s.mem.lose s.ctl.pkgId.toNat s.free).swapPkg s.ctl.pkgId.toNat 0
    ctl := { Ctl.reset with linkUp := link, fw := ⟨[], [(0, s.free + 1)]⟩ }
    free := s.free + 2
    agenda := s.agenda }

/-- A write to `RSTCTL`. -/
def resetWrite (s : State) (val : Nat) : State := if val % 256 = 0xD1 then packageReset s false else s

/-- RSTCTL_RESET. -/
def execRstctlReset (val : Nat) (s : State) : Host.Outcome State Fault Refusal := .next (resetWrite s val)
/-- FUNDAMENTAL_RESET. -/
def execFundamentalReset (s : State) : Host.Outcome State Fault Refusal := .next (packageReset s false)
/-- HOT_RESET. -/
def execHotReset (s : State) : Host.Outcome State Fault Refusal := .next (packageReset s false)
/-- FUNCTION_LEVEL_RESET: the link stays trained. -/
def execFunctionLevelReset (s : State) : Host.Outcome State Fault Refusal := .next (packageReset s true)

/-- HOST_LINK_UP: the link is trained; a package in reset awaits its image. -/
def execHostLinkUp (s : State) : Host.Outcome State Fault Refusal :=
  .next { s with ctl := { s.ctl with linkUp := true, dev := if s.ctl.dev = .reset then .awaiting else s.ctl.dev } }

/-! ## Control registers (R350, R369, R374) -/

/-- A write to route entry `idx`. -/
def routeWrite (s : State) (idx val : Nat) : State :=
  if idx < 1024 then { s with routes := s.routes.set idx (BitVec.ofNat 64 val) } else s

/-- ROUTE_ENTRY_WRITE. -/
def execRouteEntryWrite (idx val : Nat) (s : State) : Host.Outcome State Fault Refusal := .next (routeWrite s idx val)

/-- A write to register `n` of a fault-ring block. -/
def ringWrite (s : State) (ctx n val : Nat) : State :=
  let r := s.ring ctx
  match n with
  | 0 => s.setRing ctx { r with base := val }
  | 1 => s.setRing ctx { r with log := val }
  | 3 => serviced s ctx val
  | 4 => s.setRing ctx { r with savePool := val }
  | 5 => s.setRing ctx { r with invAddr := val }
  | 6 => invalidate s ctx val
  | _ => s

/-- The package takes a number: its own memory goes with it (R374). -/
def setPkgId (s : State) (n : BitVec 10) : State :=
  { s with ctl := { s.ctl with pkgId := n }, mem := s.mem.swapPkg s.ctl.pkgId.toNat n.toNat }

/-- `DEVSTAT`: the state, and whether a unit is retired (R369, R384). -/
def devStat (s : State) : Nat :=
  (match s.ctl.dev with
    | .reset => 0
    | .awaiting => 1
    | .verifying => 2
    | .ready => 3
    | .refused => 4) + (if s.degraded.isEmpty then 0 else 256)

/-- Register `n` of a fault-ring block. -/
def ringRead (r : Ring) (n : Nat) : Nat :=
  match n with
  | 0 => r.base
  | 1 => r.log
  | 2 => r.widx
  | 3 => r.ridx
  | 4 => r.savePool
  | 5 => r.invAddr
  | 6 => r.invCtl
  | _ => 0

/-- What the 64-bit register at an offset of the package control space reads as: zero at a reserved offset, open for a
register that is only written (R369; log 122). The slot of a context that leaves reads as before until it has gone (log 77),
so `PKGID` may be written just when every slot reads zero. -/
def controlRead (s : State) (ofs : Nat) : Nat :=
  if ofs % 8 ≠ 0 then 0
  else if ofs = 0 then devStat s
  else if ofs = 0x8 ∨ ofs = 0x18 ∨ (0x20000 ≤ ofs ∧ ofs < 0x28000) then (Config.freeWord s.free ofs).toNat
  else if ofs = 0x10 then s.ctl.pkgId.toNat
  else if 0x1000 ≤ ofs ∧ ofs < 0x1200 then
    ((s.ctxs.find? ((ofs - 0x1000) / 8)).map (·.desc)).getD 0
  else if 0x4000 ≤ ofs ∧ ofs < 0x6000 then (s.routes.getD ((ofs - 0x4000) / 8) 0).toNat
  else if 0x30000 ≤ ofs ∧ ofs < 0x31000 then ringRead (s.ring ((ofs - 0x30000) / 0x40)) (ofs % 0x40 / 8)
  else if 0x31000 ≤ ofs ∧ ofs < 0x31400 then
    let r := s.ring ((ofs - 0x31000) / 0x10)
    if ofs % 0x10 = 0 then r.manBase else r.manSz
  else 0

/-- A write of 8 bytes at an offset of the package control space. -/
def controlWrite (s : State) (ofs val : Nat) : State :=
  if ofs % 8 ≠ 0 then s
  else if ofs = 0x8 then startVerify s val
  else if ofs = 0x10 then
    if s.ctxs.isEmpty then setPkgId s (BitVec.ofNat 10 val) else s
  else if ofs = 0x18 then resetWrite s val
  else if 0x1000 ≤ ofs ∧ ofs < 0x1200 then contextSlot s ((ofs - 0x1000) / 8) val
  else if 0x4000 ≤ ofs ∧ ofs < 0x6000 then routeWrite s ((ofs - 0x4000) / 8) val
  else if 0x20000 ≤ ofs ∧ ofs < 0x28000 then doorbell s ((ofs - 0x20000) / 0x200) (ofs % 0x200 / 8) val
  else if 0x30000 ≤ ofs ∧ ofs < 0x31000 then ringWrite s ((ofs - 0x30000) / 0x40) (ofs % 0x40 / 8) val
  else if 0x31000 ≤ ofs ∧ ofs < 0x31400 then
    let ctx := (ofs - 0x31000) / 0x10
    let r := s.ring ctx
    s.setRing ctx (if ofs % 0x10 = 0 then { r with manBase := val } else { r with manSz := val })
  else s

/-- CONTROL_REGISTER_WRITE: a BAR0 write of the 64-bit register at an offset. -/
def execControlRegisterWrite (ofs val : Nat) (s : State) : Host.Outcome State Fault Refusal :=
  .next (controlWrite s ofs (val % 2 ^ 64))

/-! ## Host stores (R368, R389) -/

/-- Bytes of the host's memory range: the HBM that was healthy at the boot (R367). -/
def hostRange (s : State) : Nat := (hbmPages - s.ctl.hdm.length) * 65536

/-- The HBM page behind a page of the host's range: the pages that were healthy at the boot in ascending order (log 123). -/
def hostPage (s : State) (n : Nat) : Nat := s.ctl.hdm.foldl (fun p w => if w ≤ p then p + 1 else p) n

/-- The physical address behind a byte of the host's range. -/
def hostAddr (s : State) (addr : Nat) : Nat :=
  s.ctl.pkgId.toNat * 2 ^ 48 + hostPage s (addr / 65536) * 65536 + addr % 65536

/-- Stores bytes of the host one after another. -/
def hostWrite (s : State) (addr : Nat) : List Byte → State
  | [] => s
  | b :: bs => hostWrite (spoil (unitWrite s (hostAddr s addr) [b]) (hostAddr s addr) 1) (addr + 1) bs

/-- HOST_CXL_STORE: a host store to the HBM range is performed at its home L2 with owner none. -/
def execHostCxlStore (addr : Nat) (data : List Byte) (s : State) : Host.Outcome State Fault Refusal :=
  .next (if hostRange s < addr + data.length then s else hostWrite s addr data)

/-! ## The fabric's ports (R375) -/

/-- FLIT_CRC_RETRY: a lane's flit is replayed. -/
def execFlitCrcRetry (port lane : Nat) (s : State) : Host.Outcome State Fault Refusal :=
  .next (
    let p := s.ports.getD port Port.reset
    if 36 ≤ port ∨ p.retired = true ∨ p.lanes.getLsbD lane = false then s
    else { s with ports := s.ports.set port { p with retries := (4 * s.time + lane) :: p.retries } })

/-- Retries of a lane within the last ms. -/
def recentRetries (s : State) (p : Port) (lane : Nat) : Nat :=
  (p.retries.filter (fun r => r % 4 == lane && decide (s.time ≤ r / 4 + 1000000))).length

/-- LANE_DROP: a lane that has caused 16 retries within 1 ms is dropped; a port with fewer than 2 lanes is retired. -/
def execLaneDrop (port lane : Nat) (s : State) : Host.Outcome State Fault Refusal :=
  .next (
    let p := s.ports.getD port Port.reset
    if 36 ≤ port ∨ p.retired = true ∨ p.lanes.getLsbD lane = false ∨ recentRetries s p lane < 16 then s
    else
      let lanes := p.lanes &&& ~~~(1#4 <<< lane)
      let s := { s with ports := s.ports.set port { p with lanes := lanes, retries := p.retries.filter (fun r => r % 4 != lane) } }
      if 2 ≤ popcount lanes.toNat 4 then s
      else if isDegraded s 7 port then retirePort s port
      else listUnit s 7 port)

/-! ## Clocks (R2, R388) -/

/-- CLOCK_THROTTLE: firmware lowers the arithmetic clock of a die. -/
def execClockThrottle (die : Nat) (s : State) : Host.Outcome State Fault Refusal :=
  .next (if die < 4 then (s.setDie die { s.die die with throttled := some s.free }).draw else s)

/-- ARITHMETIC_CLOCK_RESTORE. -/
def execArithmeticClockRestore (die : Nat) (s : State) : Host.Outcome State Fault Refusal :=
  .next (if die < 4 then s.setDie die { s.die die with throttled := none } else s)

end Sys2Proof.Machine
end

