-- ==== Sys2Proof/Machine/Spdm.lean ====
section
/-! DEFINITION. The SPDM responder of the host link's mailbox (26_platform R377). The bytes of a response that R377 leaves
to SPDM 1.3 are `Config.spdmBody`. -/

namespace Sys2Proof.Machine

open Sys2Proof

/-! ## Connection -/

/-- How far a connection has come: `GET_VERSION`, `GET_CAPABILITIES`, `NEGOTIATE_ALGORITHMS` answered. -/
def phVersion : Nat := 1
def phCapabilities : Nat := 2
def phAlgorithms : Nat := 3

/-- Names of the responses, as `Config.spdmBody` takes them. -/
def rspDigests : Nat := 0x01
def rspCertificate : Nat := 0x02
def rspChallengeAuth : Nat := 0x03
def rspVersion : Nat := 0x04
def rspChunkSendAck : Nat := 0x05
def rspChunk : Nat := 0x06
def rspMeasurements : Nat := 0x60
def rspCapabilities : Nat := 0x61
def rspAlgorithms : Nat := 0x63
def rspError : Nat := 0x7F

/-- A response of the responder. -/
def replyWith (s : State) (data : List Byte) : State := { s with spdm := { s.spdm with reply := data } }

/-- A request that the connection does not allow is answered by an error. -/
def errorReply (s : State) (code : Nat) : State := replyWith s (Config.spdmBody rspError [code])

/-- Answers a request when the mailbox is there and the connection has come far enough. -/
def answer (s : State) (phase : Nat) (k : State → State) : State :=
  if !s.ctl.linkUp then s
  else if s.spdm.phase < phase ∨ (phase = phAlgorithms ∧ s.spdm.negotiated = false) then errorReply s 0
  else k s

/-- A response that is returned by chunking: it waits under a new handle. -/
def largeReply (s : State) (code : Nat) (data : List Byte) : State :=
  let h := s.spdm.handle + 1
  { s with spdm := { s.spdm with handle := h, large := data, reply := Config.spdmBody code [h] } }

/-- `GET_VERSION` begins a connection. -/
def onVersion (s : State) : State :=
  answer s 0 (fun s =>
    let s := { s with spdm := { s.spdm with phase := phVersion, negotiated := false, large := [], chunkIn := [] } }
    replyWith s (Config.spdmBody rspVersion []))

def onCapabilities (s : State) : State :=
  answer s phVersion (fun s =>
    let s := { s with spdm := { s.spdm with phase := max phCapabilities s.spdm.phase } }
    replyWith s (Config.spdmBody rspCapabilities []))

/-- `asym` and `hash` are nonzero where the request offers SLH-DSA-SHAKE-256f and SHAKE256, the only choices supported. -/
def onAlgorithms (asym hash : Nat) (s : State) : State :=
  answer s phCapabilities (fun s =>
    let ok := asym != 0 && hash != 0
    let s := { s with spdm := { s.spdm with phase := if ok then phAlgorithms else phCapabilities, negotiated := ok } }
    replyWith s (Config.spdmBody rspAlgorithms [asym, hash]))

/-! ## Identity -/

/-- The digest of slot 0's chain. -/
def onDigests (s : State) : State :=
  answer s phAlgorithms (fun s => replyWith s (Config.spdmBody rspDigests [] ++ shake256 Config.certificates))

/-- A part of slot 0's chain. -/
def onCertificate (slot ofs len : Nat) (s : State) : State :=
  answer s phAlgorithms (fun s =>
    if slot ≠ 0 then errorReply s 1
    else replyWith s (Config.spdmBody rspCertificate [ofs, len] ++ (Config.certificates.drop ofs).take len))

/-- Bytes of a signature (R377). -/
def signatureBytes : Nat := 49856

/-- What a signature of the responder covers: the nonce and the response. -/
def signedOver (nonce body : List Byte) : List Byte :=
  let sig := Config.signature (nonce ++ body)
  (List.range signatureBytes).map (fun i => sig.getD i 0)

/-- A signature over the nonce, returned by chunking. -/
def onChallenge (slot : Nat) (nonce : List Byte) (s : State) : State :=
  answer s phAlgorithms (fun s =>
    if slot ≠ 0 then errorReply s 1
    else
      let body := Config.spdmBody rspChallengeAuth [slot] ++ shake256 Config.certificates
      largeReply s rspChallengeAuth (body ++ signedOver nonce body))

/-! ## Measurements -/

/-- The bytes of `PKGID` and the route entries, and of a context's manifest buffer. -/
def routeBytes (s : State) : List Byte :=
  leBytes 8 s.ctl.pkgId.toNat ++ (List.range 1024).flatMap (fun i => leBytes 8 (s.routes.getD i 0).toNat)

/-- Bytes of a context's manifest buffer; open where it cannot be read. -/
def manifestBytes (s : State) (ctx : Nat) : List Byte :=
  let r := s.ring ctx
  match (s.ctxs.find? ctx).bind (fun c => readVirt s c r.manBase r.manSz) with
  | some bs => bs
  | none => (List.range r.manSz).map (fun i => Config.freeByte s.free i)

/-- A measurement's value. -/
def measurement (s : State) (idx : Nat) : Option (List Byte) :=
  if idx = 1 then some s.spdm.meas1
  else if idx = 2 then some (shake256 (routeBytes s))
  else if idx = 3 then some (shake256 (degradedBytes s))
  else if 0x40 ≤ idx ∧ idx < 0x80 then some (shake256 (manifestBytes s (idx - 0x40)))
  else none

/-- One measurement; with `sign`, a signature that binds the nonce, returned by chunking. -/
def onMeasurements (idx : Nat) (sign : Bool) (nonce : List Byte) (s : State) : State :=
  answer s phAlgorithms (fun s =>
    match measurement s idx with
    | none => errorReply s 1
    | some m =>
      let body := Config.spdmBody rspMeasurements [idx] ++ m
      if sign then largeReply s.draw rspMeasurements (body ++ signedOver nonce body) else replyWith s.draw body)

/-! ## The requests -/

/-- GET_VERSION. -/
def execGetVersion (s : State) : Host.Outcome State Fault Refusal := .next (onVersion s)
/-- GET_CAPABILITIES. -/
def execGetCapabilities (s : State) : Host.Outcome State Fault Refusal := .next (onCapabilities s)
/-- NEGOTIATE_ALGORITHMS. -/
def execNegotiateAlgorithms (asym hash : Nat) (s : State) : Host.Outcome State Fault Refusal := .next (onAlgorithms asym hash s)
/-- GET_DIGESTS. -/
def execGetDigests (s : State) : Host.Outcome State Fault Refusal := .next (onDigests s)
/-- GET_CERTIFICATE. -/
def execGetCertificate (slot ofs len : Nat) (s : State) : Host.Outcome State Fault Refusal := .next (onCertificate slot ofs len s)
/-- CHALLENGE. -/
def execChallenge (slot : Nat) (nonce : List Byte) (s : State) : Host.Outcome State Fault Refusal :=
  .next (onChallenge slot nonce s)
/-- GET_MEASUREMENTS. -/
def execGetMeasurements (idx : Nat) (sign : Bool) (nonce : List Byte) (s : State) : Host.Outcome State Fault Refusal :=
  .next (onMeasurements idx sign nonce s)

/-! ## Chunks -/

/-- Bytes of a chunk: what the mailbox takes is left to SPDM. -/
def chunkBytes : Nat := 1 + Config.freeChoice 0 377

/-- Acts on a request that has come whole; a request to send or get chunks is none that may come in chunks. -/
def onRequest (r : Config.SpdmRequest) (s : State) : State :=
  match r with
  | .other => errorReply s 1
  | .getVersion => onVersion s
  | .getCapabilities => onCapabilities s
  | .negotiateAlgorithms asym hash => onAlgorithms asym hash s
  | .getDigests => onDigests s
  | .getCertificate slot ofs len => onCertificate slot ofs len s
  | .challenge slot nonce => onChallenge slot nonce s
  | .getMeasurements idx sign nonce => onMeasurements idx sign nonce s

/-- CHUNK_SEND: a part of a large request arrives; with the last one the request is acted on, and its response follows the
acknowledgement. What its bytes ask for, and the acknowledgement's own bytes, are left to SPDM (log 124). -/
def execChunkSend (handle seq : Nat) (last : Bool) (data : List Byte) (s : State) : Host.Outcome State Fault Refusal :=
  .next (answer s phCapabilities (fun s =>
    let whole := if seq = 0 then data else s.spdm.chunkIn ++ data
    let ack := Config.spdmBody rspChunkSendAck [handle, seq]
    if last then
      let s := onRequest (Config.spdmRequest whole) { s with spdm := { s.spdm with chunkIn := [] } }
      replyWith s (ack ++ s.spdm.reply)
    else replyWith { s with spdm := { s.spdm with chunkIn := whole } } ack))

/-- CHUNK_GET: a part of the large response under the handle. -/
def execChunkGet (handle seq : Nat) (s : State) : Host.Outcome State Fault Refusal :=
  .next (answer s phCapabilities (fun s =>
    let part := (s.spdm.large.drop (seq * chunkBytes)).take chunkBytes
    if handle ≠ s.spdm.handle ∨ part = [] then errorReply s 1
    else replyWith s (Config.spdmBody rspChunk [handle, seq] ++ part)))

end Sys2Proof.Machine
end

