-- ==== Sys2Proof/Machine/Dispatch.lean ====
section
/-! DEFINITION. One arm for each constructor of `Instr`. -/

namespace Sys2Proof.Machine

open Sys2Proof

/-- The meaning of every instruction and every other step. -/
def exec (i : Instr) (s : State) : Host.Outcome State Fault Refusal :=
  match i with
  | .iadd f => Sys2Proof.Machine.execIadd f s
  | .isub f => Sys2Proof.Machine.execIsub f s
  | .imul f => Sys2Proof.Machine.execImul f s
  | .imulh f => Sys2Proof.Machine.execImulh f s
  | .imad f => Sys2Proof.Machine.execImad f s
  | .idiv f => Sys2Proof.Machine.execIdiv f s
  | .irem f => Sys2Proof.Machine.execIrem f s
  | .imin f => Sys2Proof.Machine.execImin f s
  | .imax f => Sys2Proof.Machine.execImax f s
  | .iabs f => Sys2Proof.Machine.execIabs f s
  | .ineg f => Sys2Proof.Machine.execIneg f s
  | .land f => Sys2Proof.Machine.execLand f s
  | .lor f => Sys2Proof.Machine.execLor f s
  | .lxor f => Sys2Proof.Machine.execLxor f s
  | .lnot f => Sys2Proof.Machine.execLnot f s
  | .shl f => Sys2Proof.Machine.execShl f s
  | .shr f => Sys2Proof.Machine.execShr f s
  | .sra f => Sys2Proof.Machine.execSra f s
  | .rotl f => Sys2Proof.Machine.execRotl f s
  | .bfx f => Sys2Proof.Machine.execBfx f s
  | .bfi f => Sys2Proof.Machine.execBfi f s
  | .popc f => Sys2Proof.Machine.execPopc f s
  | .clz f => Sys2Proof.Machine.execClz f s
  | .brev f => Sys2Proof.Machine.execBrev f s
  | .icmp f => Sys2Proof.Machine.execIcmp f s
  | .sel f => Sys2Proof.Machine.execSel f s
  | .mov f => Sys2Proof.Machine.execMov f s
  | .lea f => Sys2Proof.Machine.execLea f s
  | .iaddi f => Sys2Proof.Machine.execIaddi f s
  | .movi f => Sys2Proof.Machine.execMovi f s
  | .icmpi f => Sys2Proof.Machine.execIcmpi f s
  | .andi f => Sys2Proof.Machine.execAndi f s
  | .ori f => Sys2Proof.Machine.execOri f s
  | .xori f => Sys2Proof.Machine.execXori f s
  | .pand f => Sys2Proof.Machine.execPand f s
  | .por f => Sys2Proof.Machine.execPor f s
  | .pxor f => Sys2Proof.Machine.execPxor f s
  | .pnot f => Sys2Proof.Machine.execPnot f s
  | .p2s f => Sys2Proof.Machine.execP2s f s
  | .s2p f => Sys2Proof.Machine.execS2p f s
  | .shfl f => Sys2Proof.Machine.execShfl f s
  | .voteAll f => Sys2Proof.Machine.execVoteAll f s
  | .voteAny f => Sys2Proof.Machine.execVoteAny f s
  | .voteUni f => Sys2Proof.Machine.execVoteUni f s
  | .voteBallot f => Sys2Proof.Machine.execVoteBallot f s
  | .matchAny f => Sys2Proof.Machine.execMatchAny f s
  | .matchAll f => Sys2Proof.Machine.execMatchAll f s
  | .redux f => Sys2Proof.Machine.execRedux f s
  | .scan f => Sys2Proof.Machine.execScan f s
  | .elect f => Sys2Proof.Machine.execElect f s
  | .regacq f => Sys2Proof.Machine.execRegacq f s
  | .regacqGrant core => Sys2Proof.Machine.execRegacqGrant core s
  | .regrel f => Sys2Proof.Machine.execRegrel f s
  | .fectlTest f => Sys2Proof.Machine.execFectlTest f s
  | .fectlWait f => Sys2Proof.Machine.execFectlWait f s
  | .fectlCancel f => Sys2Proof.Machine.execFectlCancel f s
  | .fadd f => Sys2Proof.Machine.execFadd f s
  | .fsub f => Sys2Proof.Machine.execFsub f s
  | .fmul f => Sys2Proof.Machine.execFmul f s
  | .ffma f => Sys2Proof.Machine.execFfma f s
  | .fmin f => Sys2Proof.Machine.execFmin f s
  | .fmax f => Sys2Proof.Machine.execFmax f s
  | .fsgn f => Sys2Proof.Machine.execFsgn f s
  | .fcmp f => Sys2Proof.Machine.execFcmp f s
  | .fclass f => Sys2Proof.Machine.execFclass f s
  | .fdiv f => Sys2Proof.Machine.execFdiv f s
  | .fsqrt f => Sys2Proof.Machine.execFsqrt f s
  | .fex2 f => Sys2Proof.Machine.execFex2 f s
  | .flg2 f => Sys2Proof.Machine.execFlg2 f s
  | .frcpa f => Sys2Proof.Machine.execFrcpa f s
  | .frsqa f => Sys2Proof.Machine.execFrsqa f s
  | .cvt f => Sys2Proof.Machine.execCvt f s
  | .pack f => Sys2Proof.Machine.execPack f s
  | .unpack f => Sys2Proof.Machine.execUnpack f s
  | .bquant f => Sys2Proof.Machine.execBquant f s
  | .rand f => Sys2Proof.Machine.execRand f s
  | .split f => Sys2Proof.Machine.execSplit f s
  | .sample f => Sys2Proof.Machine.execSample f s
  | .topk f => Sys2Proof.Machine.execTopk f s
  | .gmbind f => Sys2Proof.Machine.execGmbind f s
  | .gmstep f => Sys2Proof.Machine.execGmstep f s
  | .gmfetch f => Sys2Proof.Machine.execGmfetch f s
  | .gmstkSpill f => Sys2Proof.Machine.execGmstkSpill f s
  | .gmstkFill f => Sys2Proof.Machine.execGmstkFill f s
  | .gmstkRd f => Sys2Proof.Machine.execGmstkRd f s
  | .ld f => Sys2Proof.Machine.execLd f s
  | .st f => Sys2Proof.Machine.execSt f s
  | .atom f => Sys2Proof.Machine.execAtom f s
  | .red f => Sys2Proof.Machine.execRed f s
  | .fenceAcq f => Sys2Proof.Machine.execFenceAcq f s
  | .fenceRel f => Sys2Proof.Machine.execFenceRel f s
  | .fenceAr f => Sys2Proof.Machine.execFenceAr f s
  | .copy f => Sys2Proof.Machine.execCopy f s
  | .copyc f => Sys2Proof.Machine.execCopyc f s
  | .streamF f => Sys2Proof.Machine.execStreamF f s
  | .streamD f => Sys2Proof.Machine.execStreamD f s
  | .srelF f => Sys2Proof.Machine.execSrelF f s
  | .srelD f => Sys2Proof.Machine.execSrelD f s
  | .gather f => Sys2Proof.Machine.execGather f s
  | .waitcnt f => Sys2Proof.Machine.execWaitcnt f s
  | .monarm f => Sys2Proof.Machine.execMonarm f s
  | .monwait f => Sys2Proof.Machine.execMonwait f s
  | .bar f => Sys2Proof.Machine.execBar f s
  | .cset f => Sys2Proof.Machine.execCset f s
  | .trigger f => Sys2Proof.Machine.execTrigger f s
  | .waitDep f => Sys2Proof.Machine.execWaitDep f s
  | .waitDepRelease blk crew => Sys2Proof.Machine.execWaitDepRelease blk crew s
  | .task f => Sys2Proof.Machine.execTask f s
  | .taskDone f => Sys2Proof.Machine.execTaskDone f s
  | .taskPost die idx => Sys2Proof.Machine.execTaskPost die idx s
  | .dqpost f => Sys2Proof.Machine.execDqpost f s
  | .dqtake f => Sys2Proof.Machine.execDqtake f s
  | .dqsteal f => Sys2Proof.Machine.execDqsteal f s
  | .qsubmit f => Sys2Proof.Machine.execQsubmit f s
  | .pooltake f => Sys2Proof.Machine.execPooltake f s
  | .poolgive f => Sys2Proof.Machine.execPoolgive f s
  | .coll f => Sys2Proof.Machine.execColl f s
  | .collCombine group seq level idx => Sys2Proof.Machine.execCollCombine group seq level idx s
  | .bra f => Sys2Proof.Machine.execBra f s
  | .brx f => Sys2Proof.Machine.execBrx f s
  | .call f => Sys2Proof.Machine.execCall f s
  | .callx f => Sys2Proof.Machine.execCallx f s
  | .ret f => Sys2Proof.Machine.execRet f s
  | .exit f => Sys2Proof.Machine.execExit f s
  | .nop f => Sys2Proof.Machine.execNop f s
  | .region f => Sys2Proof.Machine.execRegion f s
  | .implicitHead blk crew => Sys2Proof.Machine.execImplicitHead blk crew s
  | .switchpt f => Sys2Proof.Machine.execSwitchpt f s
  | .switchRelaunch blk core => Sys2Proof.Machine.execSwitchRelaunch blk core s
  | .trap f => Sys2Proof.Machine.execTrap f s
  | .brk f => Sys2Proof.Machine.execBrk f s
  | .trapret f => Sys2Proof.Machine.execTrapret f s
  | .sread f => Sys2Proof.Machine.execSread f s
  | .swrite f => Sys2Proof.Machine.execSwrite f s
  | .shape f => Sys2Proof.Machine.execShape f s
  | .fmtwin f => Sys2Proof.Machine.execFmtwin f s
  | .mma f => Sys2Proof.Machine.execMma f s
  | .aclr f => Sys2Proof.Machine.execAclr f s
  | .aload f => Sys2Proof.Machine.execAload f s
  | .adrain f => Sys2Proof.Machine.execAdrain f s
  | .mxOperation op => Sys2Proof.Machine.execMxOperation op s
  | .pass f => Sys2Proof.Machine.execPass f s
  | .passOpen blk => Sys2Proof.Machine.execPassOpen blk s
  | .seal f => Sys2Proof.Machine.execSeal f s
  | .sealCommit blk => Sys2Proof.Machine.execSealCommit blk s
  | .lres f => Sys2Proof.Machine.execLres f s
  | .lhold f => Sys2Proof.Machine.execLhold f s
  | .ldrop f => Sys2Proof.Machine.execLdrop f s
  | .issueCycle core slot => Sys2Proof.Machine.execIssueCycle core slot s
  | .storePathPerform blk crew => Sys2Proof.Machine.execStorePathPerform blk crew s
  | .loadPerform blk crew idx => Sys2Proof.Machine.execLoadPerform blk crew idx s
  | .acquireComplete blk crew idx => Sys2Proof.Machine.execAcquireComplete blk crew idx s
  | .evict l1 word => Sys2Proof.Machine.execEvict l1 word s
  | .engineCommandStart op => Sys2Proof.Machine.execEngineCommandStart op s
  | .engineOperationComplete op => Sys2Proof.Machine.execEngineOperationComplete op s
  | .copyOperation op seg ofs len => Sys2Proof.Machine.execCopyOperation op seg ofs len s
  | .stampWrite op => Sys2Proof.Machine.execStampWrite op s
  | .fillIteration core len => Sys2Proof.Machine.execFillIteration core len s
  | .drainIteration core len => Sys2Proof.Machine.execDrainIteration core len s
  | .channelProtectionStop op => Sys2Proof.Machine.execChannelProtectionStop op s
  | .channelIdle core dir => Sys2Proof.Machine.execChannelIdle core dir s
  | .monitorWake blk crew => Sys2Proof.Machine.execMonitorWake blk crew s
  | .monwaitTimeout blk crew => Sys2Proof.Machine.execMonwaitTimeout blk crew s
  | .crewRetire blk crew => Sys2Proof.Machine.execCrewRetire blk crew s
  | .blockEnd blk => Sys2Proof.Machine.execBlockEnd blk s
  | .gridComplete grid => Sys2Proof.Machine.execGridComplete grid s
  | .coneCycleExpiry grid => Sys2Proof.Machine.execConeCycleExpiry grid s
  | .coneEnergyExpiry grid => Sys2Proof.Machine.execConeEnergyExpiry grid s
  | .coneDeadlineExpiry grid => Sys2Proof.Machine.execConeDeadlineExpiry grid s
  | .cutArrival grid core => Sys2Proof.Machine.execCutArrival grid core s
  | .completionRecordWrite pkt => Sys2Proof.Machine.execCompletionRecordWrite pkt s
  | .blockPlace die => Sys2Proof.Machine.execBlockPlace die s
  | .carveOutChange core split fuse => Sys2Proof.Machine.execCarveOutChange core split fuse s
  | .switchFlagPressure waiting blk => Sys2Proof.Machine.execSwitchFlagPressure waiting blk s
  | .switchFlagIdle blk => Sys2Proof.Machine.execSwitchFlagIdle blk s
  | .switchFlagRestore blk => Sys2Proof.Machine.execSwitchFlagRestore blk s
  | .preemptionSave blk => Sys2Proof.Machine.execPreemptionSave blk s
  | .blockRestore blk core => Sys2Proof.Machine.execBlockRestore blk core s
  | .parkedBlockEvict blk => Sys2Proof.Machine.execParkedBlockEvict blk s
  | .lateFaultRollback blk crew => Sys2Proof.Machine.execLateFaultRollback blk crew s
  | .handlerEntry core slot => Sys2Proof.Machine.execHandlerEntry core slot s
  | .waitCycleProbe blk crew => Sys2Proof.Machine.execWaitCycleProbe blk crew s
  | .pageFaultRecord src => Sys2Proof.Machine.execPageFaultRecord src s
  | .faultServiceSave blk => Sys2Proof.Machine.execFaultServiceSave blk s
  | .timingError blk crew pc => Sys2Proof.Machine.execTimingError blk crew pc s
  | .parityError blk crew pc kind idx => Sys2Proof.Machine.execParityError blk crew pc kind idx s
  | .hbmUncorrectable page => Sys2Proof.Machine.execHbmUncorrectable page s
  | .mceRetire kind idx => Sys2Proof.Machine.execMceRetire kind idx s
  | .maskUnitWriteback quad rec => Sys2Proof.Machine.execMaskUnitWriteback quad rec s
  | .packetRead ctx q => Sys2Proof.Machine.execPacketRead ctx q s
  | .launch pkt => Sys2Proof.Machine.execLaunch pkt s
  | .graph pkt => Sys2Proof.Machine.execGraph pkt s
  | .copyPacket pkt => Sys2Proof.Machine.execCopyPacket pkt s
  | .signal pkt => Sys2Proof.Machine.execSignal pkt s
  | .waitPacket pkt => Sys2Proof.Machine.execWaitPacket pkt s
  | .waitPacketTimeout pkt => Sys2Proof.Machine.execWaitPacketTimeout pkt s
  | .setdet pkt => Sys2Proof.Machine.execSetdet pkt s
  | .poolset pkt => Sys2Proof.Machine.execPoolset pkt s
  | .priorityAging pkt => Sys2Proof.Machine.execPriorityAging pkt s
  | .kern run node => Sys2Proof.Machine.execKern run node s
  | .copyNode run node => Sys2Proof.Machine.execCopyNode run node s
  | .loop run node => Sys2Proof.Machine.execLoop run node s
  | .loopRunEnd run node => Sys2Proof.Machine.execLoopRunEnd run node s
  | .cond run node => Sys2Proof.Machine.execCond run node s
  | .signalNode run node => Sys2Proof.Machine.execSignalNode run node s
  | .waitNode run node => Sys2Proof.Machine.execWaitNode run node s
  | .waitNodeTimeout run node => Sys2Proof.Machine.execWaitNodeTimeout run node s
  | .doorbellWrite ctx q val => Sys2Proof.Machine.execDoorbellWrite ctx q val s
  | .contextSlotWrite ctx val => Sys2Proof.Machine.execContextSlotWrite ctx val s
  | .frridxWrite ctx val => Sys2Proof.Machine.execFrridxWrite ctx val s
  | .invctlInvalidate ctx val => Sys2Proof.Machine.execInvctlInvalidate ctx val s
  | .invalidationDone ctx => Sys2Proof.Machine.execInvalidationDone ctx s
  | .fwctlVerify val => Sys2Proof.Machine.execFwctlVerify val s
  | .firmwareVerifyDone => Sys2Proof.Machine.execFirmwareVerifyDone s
  | .rstctlReset val => Sys2Proof.Machine.execRstctlReset val s
  | .fundamentalReset => Sys2Proof.Machine.execFundamentalReset s
  | .hotReset => Sys2Proof.Machine.execHotReset s
  | .functionLevelReset => Sys2Proof.Machine.execFunctionLevelReset s
  | .hostLinkUp => Sys2Proof.Machine.execHostLinkUp s
  | .routeEntryWrite idx val => Sys2Proof.Machine.execRouteEntryWrite idx val s
  | .controlRegisterWrite ofs val => Sys2Proof.Machine.execControlRegisterWrite ofs val s
  | .hostCxlStore addr data => Sys2Proof.Machine.execHostCxlStore addr data s
  | .flitCrcRetry port lane => Sys2Proof.Machine.execFlitCrcRetry port lane s
  | .laneDrop port lane => Sys2Proof.Machine.execLaneDrop port lane s
  | .clockThrottle die => Sys2Proof.Machine.execClockThrottle die s
  | .getVersion => Sys2Proof.Machine.execGetVersion s
  | .getCapabilities => Sys2Proof.Machine.execGetCapabilities s
  | .negotiateAlgorithms asym hash => Sys2Proof.Machine.execNegotiateAlgorithms asym hash s
  | .getDigests => Sys2Proof.Machine.execGetDigests s
  | .getCertificate slot ofs len => Sys2Proof.Machine.execGetCertificate slot ofs len s
  | .challenge slot nonce => Sys2Proof.Machine.execChallenge slot nonce s
  | .getMeasurements idx sign nonce => Sys2Proof.Machine.execGetMeasurements idx sign nonce s
  | .chunkSend handle seq last data => Sys2Proof.Machine.execChunkSend handle seq last data s
  | .chunkGet handle seq => Sys2Proof.Machine.execChunkGet handle seq s
  | .arithmeticClockRestore die => Sys2Proof.Machine.execArithmeticClockRestore die s
  | .firmwareStagingWindowWrite ofs data => Sys2Proof.Machine.execFirmwareStagingWindowWrite ofs data s

end Sys2Proof.Machine
end

