-- ==== Sys2Proof/Machine/Step.lean ====
section
/-! DEFINITION. One step: a picked path fetches and issues its instruction; otherwise the agenda's next move is made. -/

namespace Sys2Proof.Machine

open Sys2Proof

/-- Nanoseconds pass, and the Work Distributor notes what it could have started before they did. -/
def tick (s : State) (ns : Nat) : State := elapse (watchPackets s) ns

/-- One step of the machine (R53): every step belongs to one agent. -/
def step (s : State) : Host.Outcome State Fault Refusal :=
  match s.issue with
  | p :: rest =>
    let s := { s with issue := rest, path := p }
    match fetch s with
    | .gone => .next s
    | .instr i => exec i s
    | .fault s' => .next s'
  | [] =>
    match s.agenda with
    | [] => .next (tick s 1)
    | m :: rest =>
      let s := tick { s with agenda := rest } m.ns
      if m.ev.issues then .next s else exec m.ev s

/-- The machine that fetches and runs, in its very next step, the instruction whose bits are `w`. -/
def State.withFetchWord (s : State) (nbits w : Nat) : State := placeLine s (probeLine (w % 2 ^ min nbits 96))

end Sys2Proof.Machine
end

