-- ==== Sys2Proof/Safety.lean ====
section
/-! DEFINITION. The terms that claims use: when an instruction issues with nothing in its way, what its completion
leaves unchanged, and the canonical form of memory. -/

namespace Sys2Proof.Machine

open Sys2Proof

/-! ## Memory -/

/-- Global memory has its canonical form. -/
def State.memoryOk (s : State) : Bool := s.mem.wf

/-- Every byte of global memory, of every scratchpad and of every block's accumulator tiles reads the same. -/
def SameBytes (s t : State) : Prop := ∀ p : Place, readPlace t p 1 = readPlace s p 1

/-! ## When an instruction issues (R12, R16, R17, R25, R173, R178, R227) -/

/-- Nothing holds instruction `i` back on the issuing path `x` of `s`: its encoding is legal where it stands, a thread
is active, the crew holds the registers it names, its operands are full and not interlocked, every older fault check
has passed where that is asked for, and its fold index is one of the variant's. -/
structure Ready (i : Instr) (s : State) (x : Cx) : Prop where
  path : Cx.of s i.body.guard = some x
  encoding : legal i = true
  place : handlerUnd x.cr i = false
  active : x.act ≠ 0
  blocks : (namedV x.cr i).all x.cr.holds = true
  older : waitsForOlder i = true → x.cr.checksDue = false
  full : feTraps x.cr i x.acts = false
  operands : operandsReady x.cr i x.acts = true
  fold : foldIndex i < x.fold

/-! ## What completion leaves unchanged -/

/-- The crew's checkpoint is as before; where a region has ended, it is taken of the crew as it now stands (R276, R277). An
instruction that a hardware error has rolled back has issued again when threads of `lanes` leave it, and a new checkpoint
forgets it then (R383). -/
def Headed (old new : Crew) (lanes : Lanes) (ends : Bool) : Prop :=
  if ends then
    new.ckS = new.s.below 64 ∧ new.ckFstat = new.fstat ∧ new.ckSeq = new.seq ∧ new.ckMark = new.xmark ∧
      new.retry = (old.retryIssued lanes).filter (fun r => !r.issued)
  else
    new.ckS = old.ckS ∧ new.ckFstat = old.ckFstat ∧ new.ckSeq = old.ckSeq ∧ new.ckMark = old.ckMark ∧
      new.retry = old.retryIssued lanes

/-- A thread of the path after its instruction: at the slot that follows, which is its new head where the region has ended
(R277). A handler's threads leave the mark of a thread that is back at its head (R63). -/
def passed (cr : Crew) (next l : Nat) (ends : Bool) (t : Thread) : Thread :=
  let t := { t with pc := next, wait := none, since := none, arrived := false, atHead := cr.inHandler && t.atHead }
  if ends then
    { t with head := cr.checkpoint l next t.head.li t.head.ws t.head.bay t.dctr, cnt := Counts.zero, skip := Counts.zero,
             atHead := true, headDue := true, bars := [] }
  else t

/-- The path's threads have gone on to the slot that follows; every other thread is as before. -/
def Advanced (x : Cx) (cr : Crew) (ends : Bool) : Prop :=
  Headed x.cr cr x.lanes ends ∧
    ∀ l, cr.thread? l = (x.cr.thread? l).map (fun t => if x.lanes.getLsbD l then passed cr x.nextPc l ends t else t)

/-- `Ready`, but for the active thread: no thread of the path is active. -/
structure Vacant (i : Instr) (s : State) (x : Cx) : Prop where
  path : Cx.of s i.body.guard = some x
  encoding : legal i = true
  place : handlerUnd x.cr i = false
  idle : x.act = 0
  blocks : (namedV x.cr i).all x.cr.holds = true
  older : waitsForOlder i = true → x.cr.checksDue = false
  operands : operandsReady x.cr i [] = true
  fold : foldIndex i < x.fold

/-- A crew's registers are as before, but for those of `v` (register and lane), `s` and `p`; all the rest of the crew
(status, Store Path, loads, locks, monitor, engine counters, trap and handler) is as before, its threads, its count of
waiting and what `Headed` says apart. -/
structure Kept (old new : Crew) (v : Nat → Nat → Prop) (s p : Nat → Prop) : Prop where
  vector : ∀ r l, l < 32 → ¬ v r l → new.getV r l = old.getV r l ∧ new.isEmpty r l = old.isEmpty r l
  uniform : ∀ r, ¬ s r → new.getS r = old.getS r
  predicate : ∀ r, ¬ p r → new.getP r = old.getP r
  rest : { new with s := old.s, p := old.p, v := old.v, empty := old.empty, held := old.held, threads := old.threads,
                    probes := old.probes, ckS := old.ckS, ckFstat := old.ckFstat,
                    ckSeq := old.ckSeq, ckMark := old.ckMark, retry := old.retry } = old

/-- The vector registers that a destination of `n` registers writes: its own, in the active lanes. -/
def destV (x : Cx) (d : Opr) (n r l : Nat) : Prop :=
  match d with
  | .v k => x.act.getLsbD l = true ∧ x.cr.vName k.toNat ≤ r ∧ r < x.cr.vName k.toNat + n
  | _ => False
/-- The uniform register that a destination writes. -/
def destS (x : Cx) (d : Opr) (r : Nat) : Prop :=
  match d with
  | .s k => r = x.cr.sName k.toNat
  | _ => False
/-- The predicate register that a predicate destination writes; `p15` discards. -/
def destP (x : Cx) (pd : BitVec 4) (r : Nat) : Prop := pd ≠ 15 ∧ r = x.cr.pName pd.toNat
/-- No register. -/
def none2 : Nat → Nat → Prop := fun _ _ => False
def none1 : Nat → Prop := fun _ => False

/-- What a destination of `n` registers holds in a lane; a uniform register holds one value for all. -/
def destVal (x : Cx) (cr : Crew) (d : Opr) (n l : Nat) : Nat :=
  match d with
  | .v k => cr.getVs (x.cr.vName k.toNat) l n
  | .s k => (cr.getS (x.cr.sName k.toNat)).toNat
  | _ => 0

/-- `i` completes: the step's next state differs in the path's crew alone, memory reads as before, the path's threads
go on, and the crew is as `eff` says. -/
def Completes (i : Instr) (s : State) (x : Cx) (eff : Crew → Prop) : Prop :=
  ∃ cr, exec i s = .next (s.setCrew x.b x.c cr) ∧ SameBytes s (s.setCrew x.b x.c cr) ∧
    Advanced x cr (endsRegion i && !x.cr.inHandler) ∧ eff cr

/-- The crew's only change is the destination `d` of `n` registers, with the flags `fl` set; in every active lane it
holds what `val` says. -/
def WritesReg (x : Cx) (d : Opr) (n : Nat) (fl : Flags) (val : Nat → Nat → Prop) (cr : Crew) : Prop :=
  (∀ l, l ∈ dstLanes x d → val l (destVal x cr d n l)) ∧
  Kept (x.cr.orFlags fl) cr (destV x d n) (destS x d) none1

/-- The crew's only change is the predicate `pd`: every active lane's bit is `val`'s, every other bit as before. -/
def WritesPred (x : Cx) (pd : BitVec 4) (fl : Flags) (val : Nat → Bool) (cr : Crew) : Prop :=
  (pd ≠ 15 → ∀ l, l < 32 → (cr.getP (x.cr.pName pd.toNat)).getLsbD l =
    if x.act.getLsbD l then val l else (x.cr.getP (x.cr.pName pd.toNat)).getLsbD l) ∧
  Kept (x.cr.orFlags fl) cr none2 none1 (destP x pd)

/-- The crew's only changes are the destination `d` of `n` registers, the predicate `pd` and the flags `fl`. -/
def WritesBoth (x : Cx) (d : Opr) (n : Nat) (pd : BitVec 4) (fl : Flags) (val : Nat → Nat → Prop) (bit : Nat → Bool)
    (cr : Crew) : Prop :=
  (∀ l, l ∈ dstLanes x d → val l (destVal x cr d n l)) ∧
  (pd ≠ 15 → ∀ l, l < 32 → (cr.getP (x.cr.pName pd.toNat)).getLsbD l =
    if x.act.getLsbD l then bit l else (x.cr.getP (x.cr.pName pd.toNat)).getLsbD l) ∧
  Kept (x.cr.orFlags fl) cr (destV x d n) (destS x d) (destP x pd)

end Sys2Proof.Machine
end

