-- ==== Sys2Proof/WellFormed.lean ====
section
/-! DEFINITION. Well-formed instructions: those that pass the encoding checks of their descriptions and whose formats
have a code. -/

namespace Sys2Proof

/-- Does the format have a code (R84)? Precision 0 of binary8 is reserved. -/
def Fmt.encodable : Fmt → Bool
  | .b8 _ _ p => p != 0
  | _ => true

/-- Every format that the instruction's fields name has a code. -/
def Instr.formatsOk (i : Instr) : Bool :=
  match i.body with
  | .a f => f.ty.encodable && f.ty2.encodable
  | .b f => f.ty.encodable
  | .x f => f.ty.encodable
  | _ => true

/-- An instruction that raises no `UND` for its encoding (R174–R178), and whose formats can be encoded (R84). -/
def Instr.wf (i : Instr) : Bool := Machine.legal i && i.formatsOk

end Sys2Proof
end

