-- ==== Sys2Proof/Certificates/Slice0/Obligations.lean ====
section
/-! DEFINITION. The statements about the machine, for the provers. `Ready` and `Completes` are those of Safety.lean;
`intSrc` and `src32` are what a source operand supplies in a lane (R202). -/

open Sys2Proof Sys2Proof.Machine

namespace Sys2Proof.Claims

/-! ## Integer instructions -/

/-- Element `i` of a source in a lane, as the format reads it (R202). -/
def srcElem (x : Cx) (f : Fmt) (o : Opr) (l i : Nat) : Int := asInt f (elem f (intSrc x f o l) i)

/-- The elements of `v` are the exact results `r`, clipped to the format's range or wrapped (R205); in a uniform
register a 32-bit result is sign-extended for `i32` and zero-extended for other codes (R202). -/
def IntElems (f : Fmt) (d : Opr) (clip : Bool) (r : Nat → Int) (v : Nat) : Prop :=
  (∀ i, i < elemCount f →
    (clip = true → asInt f (elem f v i) = max (intLo f) (min (intHi f) (r i))) ∧
    (clip = false → (asInt f (elem f v i) - r i) % 2 ^ fmtBits f = 0)) ∧
  (oprIsS d = true → fmtBits f = 32 → v = wrapTo 64 (asInt f v)) ∧
  (oprIsS d = true → fmtBits f < 32 → v < 2 ^ 32)

/-- An exact operation on every element of the sources of a format A instruction. -/
def IntOp (x : Cx) (f : FmtA) (op : Int → Int → Int → Int) (l v : Nat) : Prop :=
  IntElems f.ty f.d (f.sub.getLsbD 0)
    (fun i => op (srcElem x f.ty f.a l i) (srcElem x f.ty f.b l i) (srcElem x f.ty f.c l i)) v

/-- The instruction writes its destination alone, with `val` in every active lane. -/
def Writes (i : Instr) (s : State) (x : Cx) (f : FmtA) (val : Nat → Nat → Prop) : Prop :=
  Completes i s x (WritesReg x f.d (fmtRegs f.ty) 0 val)

/-- The low bits of a result that a destination holds: all of a vector register's, and a uniform register's as far as
the format goes, the rest extending them (R202). -/
def Bits (f : Fmt) (d : Opr) (v : Nat) (bit : Nat → Bool) : Prop :=
  (∀ j, j < fmtBits f → v.testBit j = bit j) ∧ (oprIsS d = true → fmtBits f = 32 → v = wrapTo 64 (asInt f v)) ∧
    (oprIsS d = false → v < 2 ^ fmtBits f)

/-- A destination is a vector or a uniform register. -/
def isReg (d : Opr) : Bool := oprIsV d || oprIsS d

end Sys2Proof.Claims

open Sys2Proof.Claims

/-- R205: exact results, wrapped to the width or clipped to the format's range, element by element; nothing but the
destination changes. -/
def Obligations.IntegerArithmetic : Prop :=
  ∀ (f : FmtA) (s : State) (x : Cx),
    (Ready (.iadd f) s x → Writes (.iadd f) s x f (IntOp x f (fun a b _ => a + b))) ∧
    (Ready (.isub f) s x → Writes (.isub f) s x f (IntOp x f (fun a b _ => a - b))) ∧
    (Ready (.imul f) s x → Writes (.imul f) s x f (IntOp x f (fun a b _ => a * b))) ∧
    (Ready (.imulh f) s x → Writes (.imulh f) s x f (IntOp x f (fun a b _ => (a * b) / 2 ^ fmtBits f.ty))) ∧
    (Ready (.imad f) s x → Writes (.imad f) s x f (IntOp x f (fun a b c => a * b + c))) ∧
    (Ready (.imin f) s x → Writes (.imin f) s x f (IntOp x f (fun a b _ => min a b))) ∧
    (Ready (.imax f) s x → Writes (.imax f) s x f (IntOp x f (fun a b _ => max a b))) ∧
    (Ready (.iabs f) s x → Writes (.iabs f) s x f (IntOp x f (fun a _ _ => if a < 0 then -a else a))) ∧
    (Ready (.ineg f) s x → Writes (.ineg f) s x f (IntOp x f (fun a _ _ => -a)))

/-- A 32-bit result in a uniform register is sign-extended for `i32` and zero-extended for other codes (R202). -/
def Sys2Proof.Claims.Extended (f : Fmt) (d : Opr) (v : Nat) : Prop :=
  oprIsS d = true → fmtBits f = 32 → v = wrapTo 64 (asInt f v)

/-- R206: division truncates toward zero and never traps; division by zero and the overflowing quotient have the
values that the rule gives. A 32-bit quotient or remainder fills a uniform destination as R202 says. -/
def Obligations.IntegerDivision : Prop :=
  ∀ (f : FmtA) (s : State) (x : Cx),
    (Ready (.idiv f) s x → Writes (.idiv f) s x f (fun l v =>
      Extended f.ty f.d v ∧
      let a := srcElem x f.ty f.a l 0
      let b := srcElem x f.ty f.b l 0
      (b = 0 → v % 2 ^ fmtBits f.ty = 2 ^ fmtBits f.ty - 1) ∧
      (b ≠ 0 → fmtSigned f.ty = true ∧ a = intLo f.ty ∧ b = -1 → asInt f.ty v = intLo f.ty) ∧
      (b ≠ 0 → ¬(fmtSigned f.ty = true ∧ a = intLo f.ty ∧ b = -1) →
        ∃ r : Int, a = asInt f.ty v * b + r ∧ r.natAbs < b.natAbs ∧ (r ≠ 0 → r.sign = a.sign)))) ∧
    (Ready (.irem f) s x → Writes (.irem f) s x f (fun l v =>
      Extended f.ty f.d v ∧
      let a := srcElem x f.ty f.a l 0
      let b := srcElem x f.ty f.b l 0
      (b = 0 → asInt f.ty v = a) ∧
      (b ≠ 0 → fmtSigned f.ty = true ∧ a = intLo f.ty ∧ b = -1 → asInt f.ty v = 0) ∧
      (b ≠ 0 → ¬(fmtSigned f.ty = true ∧ a = intLo f.ty ∧ b = -1) →
        ∃ q : Int, a = q * b + asInt f.ty v ∧ (asInt f.ty v).natAbs < b.natAbs ∧
          (asInt f.ty v ≠ 0 → (asInt f.ty v).sign = a.sign))))

/-- R207: the logic and shift instructions and the counts and the reversal of bits, bit by bit; their opcodes and types. -/
def Obligations.LogicAndShifts : Prop :=
  ∀ (f : FmtA) (s : State) (x : Cx),
    let w := fmtBits f.ty
    let a := fun l => intSrc x f.ty f.a l
    let b := fun l => intSrc x f.ty f.b l
    let n := fun l => src32 x f.b l
    (Ready (.land f) s x → Writes (.land f) s x f (fun l v => Bits f.ty f.d v (fun j => (a l).testBit j && (b l).testBit j))) ∧
    (Ready (.lor f) s x → Writes (.lor f) s x f (fun l v => Bits f.ty f.d v (fun j => (a l).testBit j || (b l).testBit j))) ∧
    (Ready (.lxor f) s x →
      Writes (.lxor f) s x f (fun l v => Bits f.ty f.d v (fun j => xor ((a l).testBit j) ((b l).testBit j)))) ∧
    (Ready (.lnot f) s x → Writes (.lnot f) s x f (fun l v => Bits f.ty f.d v (fun j => !(a l).testBit j))) ∧
    (Ready (.shl f) s x → Writes (.shl f) s x f (fun l v =>
      Bits f.ty f.d v (fun j => decide (n l ≤ j) && (a l).testBit (j - n l)))) ∧
    (Ready (.shr f) s x → Writes (.shr f) s x f (fun l v =>
      Bits f.ty f.d v (fun j => decide (j + n l < w) && (a l).testBit (j + n l)))) ∧
    (Ready (.sra f) s x → Writes (.sra f) s x f (fun l v =>
      Bits f.ty f.d v (fun j => (a l).testBit (min (j + n l) (w - 1))))) ∧
    (Ready (.rotl f) s x → Writes (.rotl f) s x f (fun l v =>
      Bits f.ty f.d v (fun j => (a l).testBit ((j + w - n l % w) % w)))) ∧
    (Ready (.popc f) s x → Writes (.popc f) s x f (fun l v =>
      v = ((List.range w).filter (fun j => (a l).testBit j)).length)) ∧
    (Ready (.clz f) s x → Writes (.clz f) s x f (fun l v =>
      v ≤ w ∧ (∀ j, w - v ≤ j → j < w → (a l).testBit j = false) ∧ (v < w → (a l).testBit (w - 1 - v) = true))) ∧
    (Ready (.brev f) s x → Writes (.brev f) s x f (fun l v => Bits f.ty f.d v (fun j => (a l).testBit (w - 1 - j)))) ∧
    ∀ e ∈ [(Instr.land f, 0x00C#10), (.lor f, 0x00D#10), (.lxor f, 0x00E#10), (.lnot f, 0x00F#10), (.shl f, 0x010#10),
        (.shr f, 0x011#10), (.sra f, 0x012#10), (.rotl f, 0x013#10), (.popc f, 0x016#10), (.clz f, 0x017#10),
        (.brev f, 0x018#10)], e.1.opc = e.2 ∧ (legal e.1 = true → f.sub = 0 ∧ tyW f.ty = true)

/-- R208: bit fields, their opcodes and types. -/
def Obligations.BitFields : Prop :=
  ∀ (f : FmtA) (s : State) (x : Cx),
    let w := fmtBits f.ty
    let a := fun l => intSrc x f.ty f.a l
    let b := fun l => intSrc x f.ty f.b l
    let pos := fun spec => spec % 256
    let len := fun spec => if spec / 256 % 256 = 0 ∨ w ≤ spec % 256 then 0 else min (spec / 256 % 256) (w - spec % 256)
    (Ready (.bfx f) s x → Writes (.bfx f) s x f (fun l v =>
      let n := len (src32 x f.b l)
      Bits f.ty f.d v (fun j =>
        if j < n then (a l).testBit (pos (src32 x f.b l) + j)
        else decide (0 < n) && fmtSigned f.ty && (a l).testBit (pos (src32 x f.b l) + n - 1)))) ∧
    (Ready (.bfi f) s x → Writes (.bfi f) s x f (fun l v =>
      let p := pos (src32 x f.c l)
      Bits f.ty f.d v (fun j =>
        if p ≤ j ∧ j < p + len (src32 x f.c l) then (b l).testBit (j - p) else (a l).testBit j)))
    ∧ ∀ e ∈ [(Instr.bfx f, 0x014#10), (.bfi f, 0x015#10)], e.1.opc = e.2 ∧ (legal e.1 = true → f.sub = 0 ∧ tyW f.ty = true)

/-- R209–R213: comparisons write only the predicate, in the active lanes; selection, `lea`, the immediate forms and
the moves between registers write only their destination. -/
def Obligations.CompareSelectImmediate : Prop :=
  (∀ (f : FmtA) (s : State) (x : Cx),
    (Ready (.icmp f) s x → Completes (.icmp f) s x (WritesPred x f.pd 0 (fun l =>
      let a := srcElem x f.ty f.a l 0
      let b := srcElem x f.ty f.b l 0
      let c := (x.pred f.c).getLsbD l
      let cond := match f.sub.toNat % 8 with
        | 0 => decide (a = b) | 1 => decide (a ≠ b) | 2 => decide (a < b)
        | 3 => decide (a ≤ b) | 4 => decide (a > b) | _ => decide (a ≥ b)
      match f.sub.toNat / 8 with
      | 0 => cond | 1 => cond && c | 2 => cond || c | _ => xor cond c))) ∧
    (Ready (.sel f) s x → Writes (.sel f) s x f (fun l v =>
      v = if (x.pred f.c).getLsbD l then intSrc x f.ty f.a l else intSrc x f.ty f.b l)) ∧
    (Ready (.lea f) s x → Writes (.lea f) s x f (fun l v =>
      ((v : Int) - (intSrc x f.ty f.a l + asInt f.ty2 (src32 x f.b l) * 2 ^ f.sub.toNat)) % 2 ^ 64 = 0)) ∧
    (oprIsWq f.a = false → isReg f.d = true → Ready (.mov f) s x → Writes (.mov f) s x f (fun l v =>
      v = if oprIsS f.d then toUniform f.ty (intSrc x f.ty f.a l) else intSrc x f.ty f.a l))) ∧
  (∀ (f : FmtB) (s : State) (x : Cx),
    let w := fmtBits f.ty
    let a := fun l => intSrc x f.ty f.a l
    let ext := if fmtSigned f.ty then wrapTo w f.imm.toInt else f.imm.toNat
    let writes := fun (i : Instr) (val : Nat → Nat → Prop) => Completes i s x (WritesReg x f.d (fmtRegs f.ty) 0 val)
    (Ready (.iaddi f) s x → writes (.iaddi f) (fun l v => IntElems f.ty f.d (f.sub.getLsbD 0)
      (fun _ => asInt f.ty (a l) + asInt f.ty ext) v)) ∧
    (Ready (.movi f) s x → f.sub = 0 → writes (.movi f) (fun _ v =>
      v = if oprIsS f.d then toUniform f.ty ext else ext)) ∧
    (Ready (.movi f) s x → f.sub = 1 → writes (.movi f) (fun l v =>
      v = destVal x x.cr f.d 2 l % 2 ^ 32 + f.imm.toNat * 2 ^ 32)) ∧
    (Ready (.andi f) s x → writes (.andi f) (fun l v => Bits f.ty f.d v (fun j => (a l).testBit j && ext.testBit j))) ∧
    (Ready (.ori f) s x → writes (.ori f) (fun l v => Bits f.ty f.d v (fun j => (a l).testBit j || ext.testBit j))) ∧
    (Ready (.xori f) s x →
      writes (.xori f) (fun l v => Bits f.ty f.d v (fun j => xor ((a l).testBit j) (ext.testBit j)))) ∧
    (Ready (.icmpi f) s x → Completes (.icmpi f) s x (WritesPred x f.pd 0 (fun l =>
      let p := asInt f.ty (a l)
      let q := asInt f.ty ext
      match f.sub.toNat with
      | 0 => decide (p = q) | 1 => decide (p ≠ q) | 2 => decide (p < q)
      | 3 => decide (p ≤ q) | 4 => decide (p > q) | _ => decide (p ≥ q)))))

/-! ## Numbers -/

namespace Sys2Proof.Claims

/-- A finite number as a rational. -/
def ratOf : Machine.Num → Option ℚ
  | .fin n m e => some ((if n then -1 else 1) * m * 2 ^ e)
  | _ => none

/-- The invalid flag of signalling operands (R97). -/
def sigFlag (xs : List Machine.Num) : Flags := if xs.any Machine.Num.isSig then Flags.invalid else 0

/-- A sum under R229: NaNs, infinities, and one rounding of the exact sum; an exact zero of unlike signs is −0 under
`rdn` only (R94). -/
def SumIs (f : Fmt) (mode word : Nat) (a b : Machine.Num) (r : Nat × Flags) : Prop :=
  (a.isNan = true ∨ b.isNan = true → r = (fmtNan f, sigFlag [a, b])) ∧
  (∀ n, a = .inf n → b = .inf (!n) → r = (fmtNan f, Flags.invalid)) ∧
  (∀ n, a = .inf n → b.isNan = false → b ≠ .inf (!n) → r = (withSign f n (fmtInfMag f), 0)) ∧
  (∀ n, b = .inf n → a.isNan = false → a ≠ .inf (!n) → r = (withSign f n (fmtInfMag f), 0)) ∧
  (∀ p q, ratOf a = some p → ratOf b = some q → ∃ z, ratOf z = some (p + q) ∧
    (p + q = 0 → z.sign = if a.sign = b.sign then a.sign else decide (mode = 3)) ∧
    r = roundTo f mode 0 z false word)

/-- The least or greatest of two operands under R230, `ca` and `cb` their codes: one of the two codes, or the default
NaN. −0 is less than +0. -/
def MinMaxIs (f : Fmt) (less nanForm : Bool) (ca cb : Nat) (r : Nat × Flags) : Prop :=
  let a := numOf f ca
  let b := numOf f cb
  (a.isNan = true → b.isNan = true → r = (fmtNan f, sigFlag [a, b])) ∧
  (a.isNan = true → b.isNan = false → r = (if nanForm then fmtNan f else cb, sigFlag [a, b])) ∧
  (a.isNan = false → b.isNan = true → r = (if nanForm then fmtNan f else ca, sigFlag [a, b])) ∧
  (a.isNan = false → b.isNan = false → r.2 = 0 ∧ (r.1 = ca ∨ r.1 = cb) ∧
    (a.cmp b = .lt → r.1 = if less then ca else cb) ∧
    (a.cmp b = .gt → r.1 = if less then cb else ca) ∧
    (a.cmp b = .eq → a.sign = true → b.sign = false → r.1 = if less then ca else cb) ∧
    (a.cmp b = .eq → a.sign = false → b.sign = true → r.1 = if less then cb else ca))

/-- The finite codes of a format with an exponent, with their values. -/
def codeOf (f : Fmt) (c : Nat) (q : ℚ) : Prop := c < 2 ^ fmtBits f ∧ ratOf (numOf f c) = some q

/-- The largest finite value of a format (R85, R89). -/
def maxOf (f : Fmt) : ℝ := ((ratOf (numOf f (fmtMaxMag f))).getD 0 : ℚ)

/-- A magnitude that lies the part `r` of a spacing above a code moves away from zero (R94); `odd` is bit 0 of that code,
`word` the word of the draw (R95). -/
def MovesAway (mode word : Nat) (neg odd : Bool) (r : ℝ) : Prop :=
  match mode with
  | 0 => 1 / 2 < r ∨ (r = 1 / 2 ∧ odd = true)
  | 1 => False
  | 2 => 0 < r ∧ neg = false
  | 3 => 0 < r ∧ neg = true
  | 4 => 1 / 2 ≤ r
  | _ => (word : ℤ) < ⌊(2 : ℝ) ^ 32 * r⌋

/-- The multiple `k'` of the spacing `2^q` to which a magnitude rounds, from `k`, the one next to it toward zero, whose
code is `base + k`. -/
def Steps (mode word base : Nat) (neg : Bool) (a : ℝ) (q : ℤ) (k k' : Nat) : Prop :=
  (k : ℝ) * 2 ^ q ≤ a ∧ a < ((k : ℝ) + 1) * 2 ^ q ∧
  (MovesAway mode word neg (decide ((base + k) % 2 = 1)) (a / 2 ^ q - k) → k' = k + 1) ∧
  (¬MovesAway mode word neg (decide ((base + k) % 2 = 1)) (a / 2 ^ q - k) → k' = k)

/-- The code of the least multiple of `2^q` that has all significant bits of a format. -/
def codeBase (f : Fmt) (q : ℤ) : Nat := (q - fmtQmin f).natAbs * 2 ^ (fmtPrec f - 1)

/-- One rounding of a magnitude to a format's precision, unbounded above and with the subnormal spacing below (R94): the
result is `k' · 2^q`. -/
def Rounds (f : Fmt) (mode word : Nat) (neg : Bool) (a : ℝ) (q : ℤ) (k' : Nat) : Prop :=
  ∃ k, fmtQmin f ≤ q ∧ k < 2 ^ fmtPrec f ∧ (fmtQmin f < q → 2 ^ (fmtPrec f - 1) ≤ k) ∧
    Steps mode word (codeBase f q) neg a q k k'

/-- A magnitude is tiny: rounded to the precision, the exponent unbounded, it lies below the normal values (R97). -/
def Tiny (f : Fmt) (mode word : Nat) (neg : Bool) (a : ℝ) : Prop :=
  ∃ q k k', 2 ^ (fmtPrec f - 1) ≤ k ∧ k < 2 ^ fmtPrec f ∧ Steps mode word (codeBase f q) neg a q k k' ∧
    (k' : ℝ) * 2 ^ q < 2 ^ (1 - (fmtBias f : ℤ))

/-- A code stands for the number of sign `neg` and magnitude `y`; a binary8 zero has no sign (R88). -/
def CodeIs (f : Fmt) (neg : Bool) (y : ℝ) (c : Nat) : Prop :=
  ∃ z, codeOf f c z ∧ (z : ℝ) = (if neg then -1 else 1) * y ∧ (fmtIsIeee f = true → (numOf f c).sign = neg)

/-- The flags of a rounding that does not overflow: inexact, and underflow of a tiny value (R97). -/
def RoundFlags (f : Fmt) (mode word : Nat) (neg : Bool) (a y : ℝ) (fl : Flags) : Prop :=
  ∃ inex tiny : Bool, (inex = true ↔ y ≠ a) ∧ (tiny = true ↔ Tiny f mode word neg a) ∧
    fl = Flags.when inex Flags.inexact ||| Flags.when (inex && tiny) Flags.underflow

/-- Does an overflow deliver the largest finite value: rounding toward zero (R96, IEEE 754; `sr` does not, log 20)? -/
def keepsMax (mode : Nat) (neg : Bool) : Bool := mode == 1 || (mode == 2 && neg) || (mode == 3 && !neg)

/-- One rounding of a number to an IEEE format, `bf16` among them (R94–R97). -/
def RoundedIeee (f : Fmt) (mode word : Nat) (neg : Bool) (a : ℝ) (r : Nat × Flags) : Prop :=
  ∃ q k', Rounds f mode word neg a q k' ∧
    ((k' : ℝ) * 2 ^ q ≤ maxOf f → CodeIs f neg (k' * 2 ^ q) r.1 ∧ RoundFlags f mode word neg a (k' * 2 ^ q) r.2) ∧
    (maxOf f < (k' : ℝ) * 2 ^ q → r = (withSign f neg (if keepsMax mode neg then fmtMaxMag f else fmtInfMag f),
      Flags.overflow ||| Flags.inexact))

/-- One rounding of a number to a binary8 format under a saturation mode, the rows of R96 in their order. -/
def RoundedB8 (f : Fmt) (uns ext : Bool) (mode sat word : Nat) (neg : Bool) (a : ℝ) (r : Nat × Flags) : Prop :=
  let fl := Flags.overflow ||| Flags.inexact
  ∃ q k', Rounds f mode word neg a q k' ∧
    (uns = true ∧ neg = true ∧ k' ≠ 0 → r = (if sat = 3 then fmtNan f else 0, Flags.invalid)) ∧
    (¬(uns = true ∧ neg = true ∧ k' ≠ 0) →
      (maxOf f < (k' : ℝ) * 2 ^ q →
        (sat ≠ 3 ∨ keepsMax mode neg = true → r = (withSign f neg (fmtMaxMag f), fl)) ∧
        (sat = 3 → keepsMax mode neg = false → r =
          if ext then (withSign f neg (fmtInfMag f), fl) else (fmtNan f, fl ||| Flags.invalid))) ∧
      ((k' : ℝ) * 2 ^ q ≤ maxOf f →
        (a = 0 → r = (0, 0)) ∧
        (a ≠ 0 → k' = 0 → r = (0, Flags.underflow ||| Flags.inexact)) ∧
        (k' ≠ 0 → CodeIs f neg (k' * 2 ^ q) r.1 ∧ RoundFlags f mode word neg a (k' * 2 ^ q) r.2)))

/-- One rounding of a number to an integer format: the nearest bound, with invalid, out of its range (R96). -/
def RoundedInt (f : Fmt) (mode word : Nat) (neg : Bool) (a : ℝ) (r : Nat × Flags) : Prop :=
  ∃ k k', Steps mode word 0 neg a 0 k k' ∧
    let i : Int := if neg then -(k' : Int) else k'
    r.1 < 2 ^ fmtBits f ∧
    (i < intLo f ∨ intHi f < i → asInt f r.1 = (if neg then intLo f else intHi f) ∧ r.2 = Flags.invalid) ∧
    (intLo f ≤ i → i ≤ intHi f → asInt f r.1 = i ∧ r.2 = if (k' : ℝ) = a then 0 else Flags.inexact)

/-- The rounding of `frcpa` and `frsqa`: `rne` to min(12, p) significant bits, then the range of the format (R234). -/
def ApproxIs (f : Fmt) (neg : Bool) (a : ℝ) (r : Nat × Flags) : Prop :=
  let n := min 12 (fmtPrec f)
  ∃ q k k', 2 ^ (n - 1) ≤ k ∧ k < 2 ^ n ∧ Steps 0 0 0 neg a q k k' ∧
    let y : ℝ := k' * 2 ^ q
    (maxOf f < y → r = (withSign f neg (fmtInfMag f), Flags.overflow ||| Flags.inexact)) ∧
    (y ≤ maxOf f → ∃ q' n', Rounds f 0 0 neg y q' n' ∧ CodeIs f neg (n' * 2 ^ q') r.1 ∧
      ∃ inex under : Bool, (inex = true ↔ (n' : ℝ) * 2 ^ q' ≠ a) ∧ (under = true ↔ (n' : ℝ) * 2 ^ q' ≠ y) ∧
        r.2 = Flags.when inex Flags.inexact ||| Flags.when under Flags.underflow)

end Sys2Proof.Claims

/-! ## Lanes, predicates and register blocks -/

/-- R214, R215, R217: predicate logic and the votes write only the predicate, in the active lanes; `p2s` and
`vote.ballot` write the mask of active lanes whose bit is 1 to a uniform register. -/
def Obligations.PredicatesAndVotes : Prop :=
  ∀ (f : FmtA) (s : State) (x : Cx),
    let a := fun l => (x.pred f.a).getLsbD l
    let b := fun l => (x.pred f.b).getLsbD l
    let na := f.sub.getLsbD 0
    let nb := f.sub.getLsbD 1
    (∀ d, f.d = .p d →
      (Ready (.pand f) s x →
        Completes (.pand f) s x (WritesPred x d 0 (fun l => xor (a l) na && xor (b l) nb))) ∧
      (Ready (.por f) s x → Completes (.por f) s x (WritesPred x d 0 (fun l => xor (a l) na || xor (b l) nb))) ∧
      (Ready (.pxor f) s x →
        Completes (.pxor f) s x (WritesPred x d 0 (fun l => xor (xor (a l) na) (xor (b l) nb)))) ∧
      (Ready (.pnot f) s x → Completes (.pnot f) s x (WritesPred x d 0 (fun l => !a l))) ∧
      (Ready (.s2p f) s x → Completes (.s2p f) s x (WritesPred x d 0 (fun l => (x.uni f.a).testBit l)))) ∧
    (Ready (.p2s f) s x → Completes (.p2s f) s x (WritesReg x f.d 2 0 (fun _ v =>
      ∀ j, v.testBit j = (decide (j < 32) && x.act.getLsbD j && a j)))) ∧
    (Ready (.voteBallot f) s x → Completes (.voteBallot f) s x (WritesReg x f.d 2 0 (fun _ v =>
      ∀ j, v.testBit j = (decide (j < 32) && x.act.getLsbD j && a j)))) ∧
    (Ready (.voteAll f) s x → Completes (.voteAll f) s x (WritesPred x f.pd 0 (fun _ => x.acts.all a))) ∧
    (Ready (.voteAny f) s x → Completes (.voteAny f) s x (WritesPred x f.pd 0 (fun _ => x.acts.any a))) ∧
    (Ready (.voteUni f) s x →
      Completes (.voteUni f) s x (WritesPred x f.pd 0 (fun _ => x.acts.all a || !x.acts.any a)))

/-- R216, R218, R220: values and masks move between the active lanes of the path alone. -/
def Obligations.LaneExchange : Prop :=
  ∀ (f : FmtA) (s : State) (x : Cx),
    let n := fmtRegs f.ty
    let a := fun l => intSrc x f.ty f.a l
    let seg := 32 / 2 ^ (f.sub.toNat / 4 % 8)
    let src := fun i =>
      let base := i - i % seg
      let b := src32 x f.b i
      match f.sub.toNat % 4 with
      | 0 => some (base + b % seg)
      | 1 => if base + b ≤ i then some (i - b) else none
      | 2 => if i + b < base + seg then some (i + b) else none
      | _ => some (base + ((i - base) ^^^ (b % seg)))
    let found := fun i => (src i).filter (fun j => x.act.getLsbD j)
    let same := fun l => fun j => decide (j < 32) && x.act.getLsbD j && decide (a j = a l)
    let all := x.acts.all (fun j => decide (a j = a x.first))
    (Ready (.shfl f) s x → Completes (.shfl f) s x (WritesBoth x f.d n f.pd 0
      (fun l v => v = a ((found l).getD l)) (fun l => (found l).isSome))) ∧
    (Ready (.matchAny f) s x → Completes (.matchAny f) s x (WritesReg x f.d 1 0 (fun l v =>
      ∀ j, v.testBit j = same l j))) ∧
    (Ready (.matchAll f) s x → Completes (.matchAll f) s x (WritesBoth x f.d 1 f.pd 0
      (fun _ v => ∀ j, v.testBit j = (all && decide (j < 32) && x.act.getLsbD j)) (fun _ => all))) ∧
    (Ready (.elect f) s x → Completes (.elect f) s x (WritesBoth x f.d 2 f.pd 0
      (fun _ v => v = x.first ∧ v ∈ x.acts ∧ ∀ j ∈ x.acts, v ≤ j) (fun l => decide (l = x.first))))

namespace Sys2Proof.Claims

/-- The sum, least, greatest, and bitwise combination of integers of a format (R219). -/
def Folded (f : Fmt) (op : Nat) (xs : List Nat) (v : Nat) : Prop :=
  match op with
  | 0 => ((v : Int) - (xs.map (asInt f)).sum) % 2 ^ fmtBits f = 0
  | 1 => (∀ y ∈ xs, asInt f v ≤ asInt f y) ∧ (xs = [] → asInt f v = intHi f) ∧ (xs ≠ [] → ∃ y ∈ xs, asInt f v = asInt f y)
  | 2 => (∀ y ∈ xs, asInt f y ≤ asInt f v) ∧ (xs = [] → asInt f v = intLo f) ∧ (xs ≠ [] → ∃ y ∈ xs, asInt f v = asInt f y)
  | 3 => ∀ j, j < fmtBits f → v.testBit j = xs.all (fun y => y.testBit j)
  | 4 => ∀ j, j < fmtBits f → v.testBit j = xs.any (fun y => y.testBit j)
  | _ => ∀ j, j < fmtBits f → v.testBit j = xs.foldl (fun t y => xor t (y.testBit j)) false

/-- The floating-point combination of an operation of R219: a sum rounded by the field, or `fmin` or `fmax` in their
`num` form. -/
def LaneComb (f : Fmt) (op mode : Nat) (comb : Nat → Nat → Nat × Flags) : Prop :=
  ∀ a b, a < 2 ^ fmtBits f → b < 2 ^ fmtBits f →
    match op with
    | 0 => SumIs f mode 0 (numOf f a) (numOf f b) (comb a b)
    | 1 => MinMaxIs f true false a b (comb a b)
    | _ => MinMaxIs f false false a b (comb a b)

/-- A combination of operands that may be absent (R99). -/
def joined (comb : Nat → Nat → Nat × Flags) : Option Nat → Option Nat → Option Nat × Flags
  | some a, some b => (some (comb a b).1, (comb a b).2)
  | some a, none => (some a, 0)
  | none, b => (b, 0)

/-- Node `i` of level `k` of the tree of R99 over lanes' values, with the flags of all combinations under it. -/
def treeAt (comb : Nat → Nat → Nat × Flags) (v : Nat → Option Nat) : Nat → Nat → Option Nat × Flags
  | 0, i => (v i, 0)
  | k + 1, i =>
    let a := treeAt comb v k (2 * i)
    let b := treeAt comb v k (2 * i + 1)
    ((joined comb a.1 b.1).1, a.2 ||| b.2 ||| (joined comb a.1 b.1).2)

/-- Lane `i` after `k` steps of the prefix of R100, with the flags of its combination in the last of them. -/
def prefixAt (comb : Nat → Nat → Nat × Flags) (v : Nat → Option Nat) : Nat → Nat → Option Nat × Flags
  | 0, i => (v i, 0)
  | k + 1, i =>
    if 2 ^ k ≤ i then joined comb (prefixAt comb v k (i - 2 ^ k)).1 (prefixAt comb v k i).1
    else ((prefixAt comb v k i).1, 0)

/-- The identity of a floating-point operation (R219). -/
def fpIdentity (f : Fmt) (op : Nat) : Nat :=
  match op with
  | 0 => 0
  | 1 => withSign f false (fmtInfMag f)
  | _ => withSign f true (fmtInfMag f)

end Sys2Proof.Claims

/-- R219 with R99 and R100: an integer `redux` folds the active lanes' values; an integer `scan` folds, for each
active lane, those of the active lanes up to it (with `excl`, below it). A floating-point `redux` is the balanced tree over
the 32 lanes, a `scan` the prefix in five steps of rising distance, inactive lanes absent, the lower lane on the left, with
the flags of every combination; `excl` takes the value of the nearest active lane below, or the identity. A `redux` with no
active lane gives the identity of its operation (R99, R219; which of these and R173 holds is DEDUCED, log 127). Nothing but
the destination and the flags changes. -/
def Obligations.ReduceAndScan : Prop :=
  ∀ (f : FmtA) (s : State) (x : Cx),
    let op := f.sub.toNat % 8
    let a := fun l => intSrc x f.ty f.a l
    let lane := fun l => if x.act.getLsbD l then some (a l % 2 ^ fmtBits f.ty) else none
    let below := fun l => (x.acts.filter (fun j => decide (j < l))).getLast?
    (Ready (.redux f) s x → fmtIsFloat f.ty = false → Completes (.redux f) s x (WritesReg x f.d 2 0
      (fun _ v => Folded f.ty op (x.acts.map a) v ∧ (fmtBits f.ty = 32 → v = wrapTo 64 (asInt f.ty v))))) ∧
    (Ready (.redux f) s x → fmtIsFloat f.ty = true → ∃ comb, LaneComb f.ty op f.rnd.toNat comb ∧
      Completes (.redux f) s x (WritesReg x f.d 2 (treeAt comb lane 5 0).2 (fun _ v => some v = (treeAt comb lane 5 0).1))) ∧
    (Vacant (.redux f) s x → Completes (.redux f) s x (WritesReg x f.d 2 0 (fun _ v =>
      (fmtIsFloat f.ty = false → Folded f.ty op [] v ∧ (fmtBits f.ty = 32 → v = wrapTo 64 (asInt f.ty v))) ∧
      (fmtIsFloat f.ty = true → v = fpIdentity f.ty op)))) ∧
    (Ready (.scan f) s x → fmtIsFloat f.ty = false → Completes (.scan f) s x (WritesReg x f.d (fmtRegs f.ty) 0
      (fun l v => Folded f.ty op
        ((x.acts.filter (fun j => if f.sub.getLsbD 3 then decide (j < l) else decide (j ≤ l))).map a) v))) ∧
    (Ready (.scan f) s x → fmtIsFloat f.ty = true → ∃ comb, LaneComb f.ty op f.rnd.toNat comb ∧
      Completes (.scan f) s x (WritesReg x f.d (fmtRegs f.ty)
        (allFlags (List.range 5) (fun k => allFlags (List.range 32) (fun l => (prefixAt comb lane (k + 1) l).2)))
        (fun l v =>
          (f.sub.getLsbD 3 = false → some v = (prefixAt comb lane 5 l).1) ∧
          (f.sub.getLsbD 3 = true → below l = none → v = fpIdentity f.ty op) ∧
          (f.sub.getLsbD 3 = true → ∀ j, below l = some j → some v = (prefixAt comb lane 5 j).1))))

/-- R12, R13, R222, R223: `regacq` takes free blocks at once, reading as zero and full, when no crew waits before it;
otherwise its threads wait, and REGACQ_GRANT gives the blocks to the request that has waited longest, with the mask that it
asked for, as zero and full again, no other register changing; a request whose threads wait no more is dropped. `regrel` marks the blocks that the crew holds, which it goes on
holding. -/
def Obligations.ExtendedBlocks : Prop :=
  let taken := fun (old new : Crew) (need : BitVec 3) =>
    let fresh := fun r => decide (64 ≤ r) && decide (r < 256) && need.getLsbD (r / 64 - 1)
    (∀ r l, l < 32 → new.getV r l = (if fresh r then 0 else old.getV r l) ∧ new.isEmpty r l = (!fresh r && old.isEmpty r l)) ∧
      (∀ r, new.getS r = old.getS r ∧ new.getP r = old.getP r) ∧ new.getFstat = old.getFstat
  (∀ (f : FmtA) (s : State) (x : Cx), Ready (.regacq f) s x →
    let need : BitVec 3 := f.sub.setWidth 3 &&& ~~~x.cr.xheld
    let core := s.core x.blk.core
    ((need = 0 ∨ (core.acqWait = [] ∧ popcount need.toNat 3 ≤ freeBlocks s x.blk.core)) →
      Completes (.regacq f) s x (fun cr => cr.xheld = x.cr.xheld ||| need ∧ taken x.cr cr need)) ∧
    (need ≠ 0 → (core.acqWait ≠ [] ∨ freeBlocks s x.blk.core < popcount need.toNat 3) →
      ∃ t, exec (.regacq f) s = .next t ∧ SameBytes s t ∧ (t.core x.blk.core).acqWait = core.acqWait ++ [(x.b, x.c, f.sub.toNat % 8)] ∧
        ∃ cr, t.crew? x.b x.c = some cr ∧ cr.xheld = x.cr.xheld ∧ taken x.cr cr 0 ∧
          (∀ l ∈ x.acts, ∀ th, x.cr.thread? l = some th →
            ∃ th', cr.thread? l = some th' ∧ th'.pc = th.pc ∧ th'.wait = some (.regacq (f.sub.toNat % 8))))) ∧
  (∀ (core b c m : Nat) (rest : List (Nat × Nat × Nat)) (cr : Crew) (s : State),
    (s.core core).acqWait = (b, c, m) :: rest → s.crew? b c = some cr →
    let waits := fun (th : Thread) => th.wait = some (.regacq m)
    let need := BitVec.ofNat 3 m &&& ~~~cr.xheld
    ((∃ l th, l < 32 ∧ cr.thread? l = some th ∧ waits th) → popcount need.toNat 3 ≤ freeBlocks s core →
      ∃ t cr', exec (.regacqGrant core) s = .next t ∧ t.crew? b c = some cr' ∧
        cr'.xheld = cr.xheld ||| BitVec.ofNat 3 m ∧ taken cr cr' need ∧ (t.core core).acqWait = rest ∧ SameBytes s t ∧
        ∀ l th, l < 32 → cr.thread? l = some th →
          ∃ th', cr'.thread? l = some th' ∧ (waits th → th'.wait = none ∧ th'.pc = slotAddr (slotIndex th.pc + 1)) ∧
            (¬waits th → th' = th)) ∧
    ((∃ l th, l < 32 ∧ cr.thread? l = some th ∧ waits th) → freeBlocks s core < popcount need.toNat 3 →
      exec (.regacqGrant core) s = .next s) ∧
    ((∀ e ∈ cr.threads, ¬waits e.2) → exec (.regacqGrant core) s = .next (s.setCore core { s.core core with acqWait := rest }))) ∧
  (∀ (f : FmtA) (s : State) (x : Cx), Ready (.regrel f) s x → Completes (.regrel f) s x (fun cr =>
    cr.xmark = x.cr.xmark ||| (f.sub.setWidth 3 &&& x.cr.xheld) ∧
      Kept { x.cr with xmark := cr.xmark } cr none2 none1 none1))

/-- R225: `fectl.test` reads the full/empty bits without waiting; `fectl.wait` goes on when every active lane is full
and otherwise keeps the empty lanes where they are; `fectl.cancel` withdraws the lanes whose register awaits a pop at a queue,
and those alone. -/
def Obligations.FullEmptyControl : Prop :=
  ∀ (f : FmtA) (s : State) (x : Cx),
    let full := fun l => !x.cr.isEmpty (fectlReg x f) l
    (Ready (.fectlTest f) s x → Completes (.fectlTest f) s x (WritesPred x f.pd 0 full)) ∧
    (Ready (.fectlWait f) s x → x.acts.all full = true →
      ∃ cr, exec (.fectlWait f) s = .next (s.setCrew x.b x.c cr) ∧ Advanced x cr false ∧
        Kept x.cr cr none2 none1 none1) ∧
    (Ready (.fectlWait f) s x → ∀ l ∈ x.acts, full l = false → ∃ t, exec (.fectlWait f) s = .next t ∧ SameBytes s t ∧
      ∃ cr, t.crew? x.b x.c = some cr ∧ (cr.thread? l).map (·.pc) = (x.cr.thread? l).map (·.pc)) ∧
    (Ready (.fectlCancel f) s x → x.acts.all full = true →
      ∃ cr, exec (.fectlCancel f) s = .next (s.setCrew x.b x.c cr) ∧ Advanced x cr false ∧
        WritesPred x f.pd 0 (fun _ => true) cr) ∧
    (Ready (.fectlCancel f) s x → ∀ l ∈ x.acts, full l = false →
      let awaits := fun (u : State) => ∃ q < 4, ∃ d, (x.b, x.c, d) ∈ (wqOf u x.blk.core q).pops ∧ d.reg = fectlReg x f ∧ d.lane = l ∧
        x.cr.empty.find? (Crew.key (fectlReg x f) l) = some d.tag
      ∃ t cr, exec (.fectlCancel f) s = .next t ∧ t.crew? x.b x.c = some cr ∧
        (awaits s → cr.getV (fectlReg x f) l = 0 ∧ cr.isEmpty (fectlReg x f) l = false ∧
          (f.pd ≠ 15 → (cr.getP (x.cr.pName f.pd.toNat)).getLsbD l = false) ∧ ¬awaits t) ∧
        (¬awaits s → cr.getV (fectlReg x f) l = x.cr.getV (fectlReg x f) l ∧ cr.isEmpty (fectlReg x f) l = true ∧
          (cr.thread? l).map (·.pc) = (x.cr.thread? l).map (·.pc)))

/-! ## Floating point -/

namespace Sys2Proof.Claims

/-- The exact product of two numbers that are no NaN and not zero times infinity. -/
def ProductIs (a b z : Machine.Num) : Prop :=
  z.sign = xor a.sign b.sign ∧ z.isNan = false ∧
  (∀ p q, ratOf a = some p → ratOf b = some q → ratOf z = some (p * q)) ∧
  (ratOf a = none ∨ ratOf b = none → z = .inf (xor a.sign b.sign))

/-- Zero times infinity. -/
def zeroTimesInf (a b : Machine.Num) : Prop := (∃ n, a = .inf n ∧ ratOf b = some 0) ∨ (∃ n, b = .inf n ∧ ratOf a = some 0)

/-- A product under R229. -/
def MulIs (f : Fmt) (mode word : Nat) (a b : Machine.Num) (r : Nat × Flags) : Prop :=
  (a.isNan = true ∨ b.isNan = true → r = (fmtNan f, sigFlag [a, b])) ∧
  (zeroTimesInf a b → r = (fmtNan f, Flags.invalid)) ∧
  (a.isNan = false → b.isNan = false → ¬zeroTimesInf a b → ∃ z, ProductIs a b z ∧ r = roundTo f mode 0 z false word)

/-- A fused multiply and add under R229. -/
def FmaIs (f : Fmt) (mode word : Nat) (na nc : Bool) (a b c : Machine.Num) (r : Nat × Flags) : Prop :=
  (zeroTimesInf a b → r = (fmtNan f, Flags.invalid)) ∧
  (¬zeroTimesInf a b → a.isNan = true ∨ b.isNan = true ∨ c.isNan = true → r = (fmtNan f, sigFlag [a, b, c])) ∧
  (¬zeroTimesInf a b → a.isNan = false → b.isNan = false → c.isNan = false → ∃ z, ProductIs a b z ∧
    SumIs f mode word (if na then z.neg else z) (if nc then c.neg else c) r)

/-- A floating-point instruction completes: each element of each lane's destination is `res`'s code, the flags of all
lanes join `FSTAT` (R97), the counters of the active threads advance when the rounding draws (R110), and nothing else
changes. -/
def FpCompletes (i : Instr) (s : State) (x : Cx) (f : FmtA) (fd : Fmt) (res : Nat → Nat → Nat × Flags) : Prop :=
  ∃ cr, exec i s = .next (s.setCrew x.b x.c cr) ∧ SameBytes s (s.setCrew x.b x.c cr) ∧
    Advanced { x with cr := srDrawn x f.rnd.toNat f.fx.toNat x.cr } cr (endsRegion i && !x.cr.inHandler) ∧
    (∀ l ∈ dstLanes x f.d, (∀ j, j < elemCount fd → elem fd (destVal x cr f.d (fmtRegs fd) l) j = (res l j).1) ∧
      destVal x cr f.d (fmtRegs fd) l < 2 ^ (32 * fmtRegs fd)) ∧
    Kept (x.cr.orFlags (allFlags (dstLanes x f.d) (fun l => allFlags (List.range (elemCount fd)) (fun j => (res l j).2))))
      cr (destV x f.d (fmtRegs fd)) (destS x f.d) none1

/-- Element `j` of a floating-point source in a lane, as a number. -/
def fpNum (x : Cx) (f : Fmt) (o : Opr) (l j : Nat) : Machine.Num := numOf f (elem f (fpSrc x f o l) j)
/-- Its code. -/
def fpCode (x : Cx) (f : Fmt) (o : Opr) (l j : Nat) : Nat := elem f (fpSrc x f o l) j

end Sys2Proof.Claims

/-- R229: sums, products and the fused form, element by element, rounded once; under `sr` the word of the lane's draw
decides (R95). -/
def Obligations.FloatArithmetic : Prop :=
  ∀ (f : FmtA) (s : State) (x : Cx),
    let mode := f.rnd.toNat
    let word := fun l j => srWord x mode f.fx.toNat l j
    let a := fpNum x f.ty f.a
    let b := fpNum x f.ty f.b
    let c := fpNum x f.ty f.c
    let done := fun (i : Instr) (spec : Nat → Nat → Nat × Flags → Prop) =>
      ∃ res, FpCompletes i s x f f.ty res ∧ ∀ l j, j < elemCount f.ty → spec l j (res l j)
    (Ready (.fadd f) s x → done (.fadd f) (fun l j r => SumIs f.ty mode (word l j) (a l j) (b l j) r)) ∧
    (Ready (.fsub f) s x → done (.fsub f) (fun l j r => SumIs f.ty mode (word l j) (a l j) (b l j).neg r)) ∧
    (Ready (.fmul f) s x → done (.fmul f) (fun l j r => MulIs f.ty mode (word l j) (a l j) (b l j) r)) ∧
    (Ready (.ffma f) s x → done (.ffma f) (fun l j r =>
      FmaIs f.ty mode (word l j) (f.sub.getLsbD 0) (f.sub.getLsbD 1) (a l j) (b l j) (c l j) r))

/-- R230, R231, R233: the minimum and maximum return an operand's bits or the default NaN, the sign operations change
the sign bit alone, and the class mask has the one bit of the operand's class. -/
def Obligations.FloatMinMaxSignClass : Prop :=
  ∀ (f : FmtA) (s : State) (x : Cx),
    let a := fpNum x f.ty f.a
    let ca := fpCode x f.ty f.a
    let cb := fpCode x f.ty f.b
    let top := 2 ^ (fmtBits f.ty - 1)
    let minMax := fun (less : Bool) (l j : Nat) => MinMaxIs f.ty less (decide (f.sub = 1)) (ca l j) (cb l j)
    let done := fun (i : Instr) (spec : Nat → Nat → Nat × Flags → Prop) =>
      ∃ res, FpCompletes i s x f f.ty res ∧ ∀ l j, j < elemCount f.ty → spec l j (res l j)
    (Ready (.fmin f) s x → done (.fmin f) (minMax true)) ∧
    (Ready (.fmax f) s x → done (.fmax f) (minMax false)) ∧
    (Ready (.fsgn f) s x → done (.fsgn f) (fun l j r => r.2 = 0 ∧ r.1 % top = ca l j % top ∧
      (decide (top ≤ r.1) = match f.sub.toNat with
        | 0 => !decide (top ≤ ca l j) | 1 => false | 2 => decide (top ≤ cb l j)
        | _ => xor (decide (top ≤ ca l j)) (decide (top ≤ cb l j))))) ∧
    (Ready (.fclass f) s x → done (.fclass f) (fun l j r => r.2 = 0 ∧
      (∀ sig, a l j = .nan sig → r.1 = if sig then 1 else 2) ∧
      (∀ n, a l j = .inf n → r.1 = if n then 4 else 512) ∧
      (∀ q, ratOf (a l j) = some q →
        (q = 0 → r.1 = if (a l j).sign then 32 else 64) ∧
        (q ≠ 0 → (2 : ℚ) ^ (1 - (fmtBias f.ty : Int)) ≤ |q| → r.1 = if q < 0 then 8 else 256) ∧
        (q ≠ 0 → |q| < (2 : ℚ) ^ (1 - (fmtBias f.ty : Int)) → r.1 = if q < 0 then 16 else 128))))

/-- R232: a comparison writes the predicate of each active lane and the invalid flag, and nothing else. -/
def Obligations.FloatCompare : Prop :=
  ∀ (f : FmtA) (s : State) (x : Cx), Ready (.fcmp f) s x →
    let j := if f.sub.getLsbD 6 then 1 else 0
    let a := fun l => fpNum x f.ty f.a l j
    let b := fun l => fpNum x f.ty f.b l j
    let n := f.sub.toNat % 8
    let nan := fun l => (a l).isNan || (b l).isNan
    let cond := fun l => match n with
      | 0 => !nan l && decide ((a l).cmp (b l) = .eq) | 1 => nan l || decide ((a l).cmp (b l) ≠ .eq)
      | 2 => !nan l && decide ((a l).cmp (b l) = .lt) | 3 => !nan l && decide ((a l).cmp (b l) ≠ .gt)
      | 4 => !nan l && decide ((a l).cmp (b l) = .gt) | 5 => !nan l && decide ((a l).cmp (b l) ≠ .lt)
      | 6 => nan l | _ => !nan l
    let bad := fun l => (a l).isSig || (b l).isSig || (nan l && decide (2 ≤ n) && decide (n ≤ 5) && !f.sub.getLsbD 5)
    Completes (.fcmp f) s x (WritesPred x f.pd (if x.acts.any bad then Flags.invalid else 0) (fun l =>
      match f.sub.toNat / 8 % 4 with
      | 0 => cond l | 1 => cond l && (x.pred f.c).getLsbD l | 2 => cond l || (x.pred f.c).getLsbD l
      | _ => xor (cond l) ((x.pred f.c).getLsbD l)))

/-- R234: division, root, power and logarithm give the special results of the rule's table. The quotient and the root are
one rounding of the exact value (R94–R98); `frcpa` and `frsqa` are the exact 1/x and 1/√x rounded `rne` to min(12, p) bits
and then to the format's range; `fex2` of an integer is one rounding of its power, and `flg2` of a power of two is exact.
Between those points `fex2` and `flg2` are the model's own 384- and 200-bit values, rounded once (log 21, DESIGN CHOICE); an
overflow under `sr` gives infinity (log 20). -/
def Obligations.FloatFunctions : Prop :=
  ∀ (f : FmtA) (s : State) (x : Cx),
    let a := fpNum x f.ty f.a
    let b := fpNum x f.ty f.b
    let mode := f.rnd.toNat
    let word := fun l j => srWord x mode f.fx.toNat l j
    let inf := fun n => withSign f.ty n (fmtInfMag f.ty)
    let nanCase := fun (l j : Nat) (r : Nat × Flags) =>
      (a l j).isNan = true → r = (fmtNan f.ty, sigFlag [a l j])
    let done := fun (i : Instr) (spec : Nat → Nat → Nat × Flags → Prop) =>
      ∃ res, FpCompletes i s x f f.ty res ∧ ∀ l j, j < elemCount f.ty → spec l j (res l j)
    (Ready (.fdiv f) s x → done (.fdiv f) (fun l j r =>
      let sgn := xor (a l j).sign (b l j).sign
      ((a l j).isNan = true ∨ (b l j).isNan = true → r = (fmtNan f.ty, sigFlag [a l j, b l j])) ∧
      (∀ p q, ratOf (a l j) = some p → ratOf (b l j) = some q → p ≠ 0 → q ≠ 0 →
        RoundedIeee f.ty mode (word l j) sgn |(p : ℝ) / q| r) ∧
      (∀ q, ratOf (a l j) = some 0 → ratOf (b l j) = some q → q ≠ 0 → r = (withSign f.ty sgn 0, 0)) ∧
      (∀ p, ratOf (a l j) = some p → p ≠ 0 → ratOf (b l j) = some 0 → r = (inf sgn, Flags.divZero)) ∧
      (ratOf (a l j) = some 0 → ratOf (b l j) = some 0 → r = (fmtNan f.ty, Flags.invalid)) ∧
      (∀ m n, a l j = .inf m → b l j = .inf n → r = (fmtNan f.ty, Flags.invalid)) ∧
      (∀ p n, ratOf (a l j) = some p → b l j = .inf n → r = (withSign f.ty sgn 0, 0)) ∧
      (∀ n q, a l j = .inf n → ratOf (b l j) = some q → r = (inf sgn, 0)))) ∧
    (Ready (.fsqrt f) s x → done (.fsqrt f) (fun l j r => nanCase l j r ∧
      (∀ q, ratOf (a l j) = some q → 0 < q → RoundedIeee f.ty mode (word l j) false (Real.sqrt q) r) ∧
      (ratOf (a l j) = some 0 → r = (withSign f.ty (a l j).sign 0, 0)) ∧
      (a l j = .inf false → r = (inf false, 0)) ∧ (a l j = .inf true → r = (fmtNan f.ty, Flags.invalid)) ∧
      (∀ q, ratOf (a l j) = some q → q < 0 → r = (fmtNan f.ty, Flags.invalid)))) ∧
    (Ready (.fex2 f) s x → done (.fex2 f) (fun l j r => nanCase l j r ∧
      r = fpExp2 f.ty mode (word l j) (fpCode x f.ty f.a l j) ∧
      (a l j = .inf true → r = (0, 0)) ∧ (a l j = .inf false → r = (inf false, 0)) ∧
      (∀ n : ℤ, ratOf (a l j) = some (n : ℚ) → RoundedIeee f.ty mode (word l j) false ((2 : ℝ) ^ n) r) ∧
      (∀ (n : ℤ) c, ratOf (a l j) = some (n : ℚ) → codeOf f.ty c (2 ^ n) → r = (c, 0)))) ∧
    (Ready (.flg2 f) s x → done (.flg2 f) (fun l j r => nanCase l j r ∧
      r = fpLog2 f.ty mode (word l j) (fpCode x f.ty f.a l j) ∧
      (ratOf (a l j) = some 0 → r = (inf true, Flags.divZero)) ∧
      (ratOf (a l j) = some 1 → r = (0, 0)) ∧
      (∀ n : ℤ, ratOf (a l j) = some (2 ^ n) → n ≠ 0 → r.2 = 0 ∧ codeOf f.ty r.1 n) ∧
      (a l j = .inf false → r = (inf false, 0)) ∧ (a l j = .inf true → r = (fmtNan f.ty, Flags.invalid)) ∧
      (∀ q, ratOf (a l j) = some q → q < 0 → r = (fmtNan f.ty, Flags.invalid)))) ∧
    (Ready (.frcpa f) s x → done (.frcpa f) (fun l j r => nanCase l j r ∧
      (∀ q, ratOf (a l j) = some q → q ≠ 0 → ApproxIs f.ty (a l j).sign |1 / (q : ℝ)| r) ∧
      (ratOf (a l j) = some 0 → r = (inf (a l j).sign, Flags.divZero)) ∧
      (∀ n, a l j = .inf n → r = (withSign f.ty n 0, 0)))) ∧
    (Ready (.frsqa f) s x → done (.frsqa f) (fun l j r => nanCase l j r ∧
      (∀ q, ratOf (a l j) = some q → 0 < q → ApproxIs f.ty false (1 / Real.sqrt q) r) ∧
      (ratOf (a l j) = some 0 → r = (inf (a l j).sign, Flags.divZero)) ∧
      (a l j = .inf false → r = (0, 0)) ∧ (a l j = .inf true → r = (fmtNan f.ty, Flags.invalid)) ∧
      (∀ q, ratOf (a l j) = some q → q < 0 → r = (fmtNan f.ty, Flags.invalid))))

namespace Sys2Proof.Claims

/-- One conversion under R235: between integers it wraps or clips; a float keeps its own format's code unless it is a
NaN; anything else is one rounding of the exact source value (R94, R96). -/
def ConvIs (ty ty2 : Fmt) (mode sat : Nat) (clip : Bool) (code word : Nat) (r : Nat × Flags) : Prop :=
  let ii := fmtIsInt ty && fmtIsInt ty2
  (ii = true → r.2 = 0 ∧ r.1 < 2 ^ fmtBits ty ∧
    (clip = true → asInt ty r.1 = max (intLo ty) (min (intHi ty) (asInt ty2 code))) ∧
    (clip = false → (asInt ty r.1 - asInt ty2 code) % 2 ^ fmtBits ty = 0)) ∧
  (ii = false → ty = ty2 → (numOf ty2 code).isNan = false → r = (code, 0)) ∧
  (ii = false → ty ≠ ty2 ∨ (numOf ty2 code).isNan = true → r = roundTo ty mode sat (numOf ty2 code) false word)

/-- As `FpCompletes`, with one result a lane for a destination of `n` registers. -/
def LaneCompletes (i : Instr) (s : State) (x : Cx) (f : FmtA) (n : Nat) (res : Nat → Nat × Flags) : Prop :=
  ∃ cr, exec i s = .next (s.setCrew x.b x.c cr) ∧ SameBytes s (s.setCrew x.b x.c cr) ∧
    Advanced { x with cr := srDrawn x f.rnd.toNat f.fx.toNat x.cr } cr (endsRegion i && !x.cr.inHandler) ∧
    (∀ l ∈ dstLanes x f.d, destVal x cr f.d n l = (res l).1) ∧
    Kept (x.cr.orFlags (allFlags (dstLanes x f.d) (fun l => (res l).2))) cr (destV x f.d n) (destS x f.d) none1

/-- The flags of a lane's elements. -/
def elemFlags (n : Nat) (r : Nat → Nat × Flags) : Flags := allFlags (List.range n) (fun j => (r j).2)

end Sys2Proof.Claims

/-- R235–R237: `cvt` converts one element, sign-extending `i8` and `i16`; `pack` converts, element 0 first, the registers *a* and
*b* into 16-bit elements, or into 8-bit elements the registers of two pairs or the halves of *a* and *b*; `unpack` converts
each of its elements, with a scale after the exact multiplication by its power of two (R90). -/
def Obligations.Conversions : Prop :=
  ∀ (f : FmtA) (s : State) (x : Cx),
    let mode := f.rnd.toNat
    let word := fun l j => srWord x mode f.fx.toNat l j
    let k := f.sub.toNat % 4
    let src := fun l => x.val f.a 1 l (constElems f.ty2)
    let elems := if fmtBits f.ty = 16 then 2 else 1
    (Ready (.cvt f) s x → ∃ r : Nat → Nat × Flags,
      LaneCompletes (.cvt f) s x f (fmtRegs f.ty)
        (fun l => (if f.ty = .i8 ∨ f.ty = .i16 then wrapTo 32 (asInt f.ty (r l).1) else (r l).1, (r l).2)) ∧
      ∀ l, ConvIs f.ty f.ty2 mode f.sat.toNat (f.sub.getLsbD 2) (elem f.ty2 (fpSrc x f.ty2 f.a l) k) (word l 0) (r l)) ∧
    (Ready (.pack f) s x → ∀ ra rb, f.a = .v ra → f.b = .v rb →
      let reg := fun (r : BitVec 8) i l => (x.cr.getV (x.cr.vName r.toNat + i) l).toNat
      let order := fun l =>
        if fmtBits f.ty = 16 then [reg ra 0 l, reg rb 0 l]
        else if fmtBits f.ty2 = 32 then [reg ra 0 l, reg ra 1 l, reg rb 0 l, reg rb 1 l]
        else [reg ra 0 l % 2 ^ 16, reg ra 0 l / 2 ^ 16, reg rb 0 l % 2 ^ 16, reg rb 0 l / 2 ^ 16]
      ∃ (r : Nat → Nat → Nat × Flags) (v : Nat → Nat),
        LaneCompletes (.pack f) s x f 1 (fun l => (v l, elemFlags (order l).length (r l))) ∧
        (∀ l, v l < 2 ^ 32) ∧
        (∀ l j c, (order l)[j]? = some c → elem f.ty (v l) j = (r l j).1 ∧
          ConvIs f.ty f.ty2 mode f.sat.toNat true c (word l j) (r l j))) ∧
    (Ready (.unpack f) s x → ∃ (r : Nat → Nat → Nat × Flags) (v : Nat → Nat),
      LaneCompletes (.unpack f) s x f 1 (fun l => (v l, elemFlags elems (r l))) ∧
      (∀ l, v l < 2 ^ 32) ∧
      (∀ l j, j < elems → elem f.ty (v l) j = (r l j).1 ∧
        let c := elem f.ty2 (src l) (if elems = 2 then 2 * k + j else k)
        let sc := x.val f.b 1 l (fun c => wrapTo 32 c.toInt) % 256
        (f.sub.getLsbD 2 = false → ConvIs f.ty f.ty2 mode 0 false c (word l j) (r l j)) ∧
        (f.sub.getLsbD 2 = true → sc = 255 ∨ (numOf f.ty2 c).isNan = true → r l j = (fmtNan f.ty, 0)) ∧
        (f.sub.getLsbD 2 = true → ∀ q, sc ≠ 255 → ratOf (numOf f.ty2 c) = some q → ∃ z,
          ratOf z = some (q * 2 ^ ((sc : Int) - 128)) ∧ r l j = roundTo f.ty mode 0 z false (word l j))))

/-- R238: a block's scale is the least exponent under which its greatest magnitude fits, clamped, 254 with an infinity in the
block and 255 with a NaN; every active lane's element is rounded once under it, with no scaling in a block that holds a NaN,
and stands beside the scale code; infinities and NaNs convert as they are. -/
def Obligations.BlockQuantization : Prop :=
  ∀ (f : FmtA) (s : State) (x : Cx), Ready (.bquant f) s x →
    let blk := if f.sub.getLsbD 0 then 32 else 16
    let num := fun l => numOf .f32 (x.val f.a 1 l (constElems .f32))
    let block := fun l => x.acts.filter (fun j => decide (j / blk = l / blk))
    ∃ (q : Nat → Nat × Flags) (sc : Nat → Nat),
      LaneCompletes (.bquant f) s x f 1 (fun l => (sc l * 256 + (q l).1, (q l).2)) ∧
      ∀ l ∈ x.acts,
        ((block l).any (fun j => (num j).isNan) = true → sc l = 255) ∧
        ((block l).any (fun j => (num j).isNan) = false → sc l < 255 ∧
          (∀ j ∈ block l, ∀ n, num j = .inf n → sc l = 254) ∧
          ((∀ j ∈ block l, ratOf (num j) = some 0) → sc l = 128) ∧
          ((∀ j ∈ block l, (ratOf (num j)).isSome = true) → sc l < 254 → ∀ m, ratOf (.fin false (bquantMax f.ty).1 (bquantMax f.ty).2) = some m →
            ∀ j ∈ block l, ∀ v, ratOf (num j) = some v → |v| ≤ m * 2 ^ ((sc l : Int) - 128)) ∧
          ((∃ j ∈ block l, ∃ v, ratOf (num j) = some v ∧ v ≠ 0) → 0 < sc l →
            (∀ j ∈ block l, (ratOf (num j)).isSome = true) → ∀ m, ratOf (.fin false (bquantMax f.ty).1 (bquantMax f.ty).2) = some m →
            ∃ j ∈ block l, ∃ v, ratOf (num j) = some v ∧ m * 2 ^ ((sc l : Int) - 129) < |v|)) ∧
        let e : Int := if sc l = 255 then 0 else (sc l : Int) - 128
        let rounded := fun z => roundTo f.ty f.rnd.toNat f.sat.toNat z false (srWord x f.rnd.toNat f.fx.toNat l 0)
        (∀ v, ratOf (num l) = some v → ∃ z, ratOf z = some (v / 2 ^ e) ∧ z.sign = (num l).sign ∧ q l = rounded z) ∧
        (ratOf (num l) = none → q l = rounded (num l))

/-- R94–R97: one rounding of a number to any format. To an IEEE format it delivers the value of the given sign that the
mode names, with the inexact and underflow flags, or overflows; to a binary8 format it follows the rows of R96; to an integer
format it delivers the integer or the nearest bound. Under `sr` the word decides (R95). An IEEE overflow under `sr` gives
infinity (log 20, DESIGN CHOICE). -/
def Obligations.RoundingIsCorrect : Prop :=
  ∀ (f : Fmt) (mode word : Nat), mode < 6 →
    (fmtIsIeee f = true →
      (∀ sig, roundTo f mode 0 (.nan sig) false word = (fmtNan f, if sig then Flags.invalid else 0)) ∧
      (∀ neg, roundTo f mode 0 (.inf neg) false word = (withSign f neg (fmtInfMag f), 0)) ∧
      (∀ neg (m : ℕ) (e : ℤ), RoundedIeee f mode word neg (m * 2 ^ e) (roundTo f mode 0 (.fin neg m e) false word))) ∧
    (∀ uns ext p sat, f = .b8 uns ext p → p ≠ 0 → 1 ≤ sat → sat ≤ 3 →
      (∀ sig, roundTo f mode sat (.nan sig) false word =
        if sat = 1 then (0, Flags.invalid) else (fmtNan f, if sig then Flags.invalid else 0)) ∧
      (∀ neg, roundTo f mode sat (.inf neg) false word =
        if uns && neg then (if sat = 3 then fmtNan f else 0, Flags.invalid)
        else if sat = 3 then if ext then (withSign f neg (fmtInfMag f), 0) else (fmtNan f, Flags.invalid)
        else (withSign f neg (fmtMaxMag f), Flags.overflow ||| Flags.inexact)) ∧
      (∀ neg (m : ℕ) (e : ℤ), RoundedB8 f uns ext mode sat word neg (m * 2 ^ e) (roundTo f mode sat (.fin neg m e) false word))) ∧
    (fmtIsInt f = true →
      (∀ sig, roundTo f mode 0 (.nan sig) false word = (0, Flags.invalid)) ∧
      (∀ neg, (roundTo f mode 0 (.inf neg) false word).2 = Flags.invalid ∧
        asInt f (roundTo f mode 0 (.inf neg) false word).1 = if neg then intLo f else intHi f) ∧
      (∀ neg (m : ℕ) (e : ℤ), RoundedInt f mode word neg (m * 2 ^ e) (roundTo f mode 0 (.fin neg m e) false word)))

/-! ## Random numbers, selection and the Mask Unit -/

namespace Sys2Proof.Claims

/-- As `Completes`, for an instruction whose active threads draw: the threads go on with their counters advanced
(R110). -/
def CompletesFrom (i : Instr) (s : State) (x : Cx) (cr0 : Crew) (eff : Crew → Prop) : Prop :=
  ∃ cr, exec i s = .next (s.setCrew x.b x.c cr) ∧ SameBytes s (s.setCrew x.b x.c cr) ∧
    Advanced { x with cr := cr0 } cr (endsRegion i && !x.cr.inHandler) ∧ eff cr

/-- The instruction completes in a machine `t` that is otherwise as `post` says, with the path's crew `cr`. -/
def Runs (i : Instr) (s : State) (x : Cx) (post : State → Crew → Prop) : Prop :=
  ∃ t cr, exec i s = .next t ∧ t.crew? x.b x.c = some cr ∧ Advanced x cr (endsRegion i && !x.cr.inHandler) ∧ post t cr

/-- As `Runs`, for an instruction that counts in its threads: the threads go on from those of `cr0`. -/
def RunsFrom (i : Instr) (s : State) (x : Cx) (cr0 : Crew) (post : State → Crew → Prop) : Prop :=
  ∃ t cr, exec i s = .next t ∧ t.crew? x.b x.c = some cr ∧
    Advanced { x with cr := cr0 } cr (endsRegion i && !x.cr.inHandler) ∧ post t cr

/-- No launch that still runs has a ladder, so that no store spoils a header (R31). -/
def noLadder (s : State) : Prop := ∀ e ∈ s.grids, e.2.ladder.isSome = true → e.2.recordDone = true

/-- The bytes of a fault record (R351). -/
def faultBytes (va cause src acc unit seq grid : Nat) : List Byte :=
  leBytes 8 va ++ leBytes 1 cause ++ leBytes 1 src ++ leBytes 1 acc ++ leBytes 1 unit ++ leBytes 4 seq ++ leBytes 8 grid ++
    leBytes 8 0

/-- A trap waits at the crew's issue slot; nothing else of the crew has changed (R178, R346, R348). -/
def Raised (i : Instr) (s : State) (x : Cx) (t : PendTrap) : Prop :=
  ∃ u, exec i s = .next u ∧ SameBytes s u ∧ u.crew? x.b x.c = some { x.cr with trap := some t } ∧
    (u.slot x.blk.core x.cr.slot).waiting = (s.slot x.blk.core x.cr.slot).waiting ++ [(x.b, x.c)]

/-- The crew has no trap of its own yet and runs no handler. -/
def calm (x : Cx) : Prop := x.cr.trap = none ∧ x.cr.handler = none

/-- The trap of the path's instruction at its own slot; `acc` is what its access does (R351). -/
def trapOf (x : Cx) (cause taddr imm resume : Nat) (acc : Nat := 0) : PendTrap :=
  { cause := cause, taddr := taddr, pc := x.pc, lanes := x.act, imm := imm, resume := resume, late := false, acc := acc }

/-- As `Raised`, for a trap whose `TADDR` no rule gives (log 31). -/
def RaisedOpen (i : Instr) (s : State) (x : Cx) (cause acc : Nat) : Prop := ∃ va, Raised i s x (trapOf x cause va 0 0 acc)

/-- A fault that is held until the crew rolls back (R24, R352): nothing else changes, but where it is noticed late. -/
def FaultHeld (i : Instr) (s : State) (x : Cx) (cause va acc : Nat) : Prop :=
  ∃ u cr, exec i s = .next u ∧ SameBytes s u ∧ u.crew? x.b x.c = some cr ∧
    cr.late = some (cause, va, acc, { trapOf x cause va 0 2 acc with late := true }) ∧ cr.trap = none ∧
    (x.late = false → cr = { x.cr with late := cr.late })

/-- Results of another unit (R15, R227; log 92): the `n` vector registers of a destination stand empty in the lanes, their
values as before, and for each lane a return waits with what `val` says; of the rest of the crew only its sequence number,
the uniform registers `su` and the predicates `pr` have changed from `base`. -/
def Awaits (x : Cx) (base : Crew) (d : Opr) (n : Nat) (lanes : List Nat) (val : Nat → Nat → Prop) (su pr : Nat → Prop)
    (cr : Crew) : Prop :=
  ∃ r, d = .v r ∧ ∃ vs : Nat → Nat, (∀ l ∈ lanes, val l (vs l)) ∧
    (∀ k l, l ∈ lanes → x.cr.vName r.toNat ≤ k → k < x.cr.vName r.toNat + n →
      cr.isEmpty k l = true ∧ cr.getV k l = base.getV k l) ∧
    Kept { base with
        seq := base.seq + 1
        returns := base.returns ++ lanes.map (fun l => ⟨⟨true, x.cr.vName r.toNat, n, l, base.seq + 1⟩, vs l⟩) } cr
      (fun k l => l ∈ lanes ∧ x.cr.vName r.toNat ≤ k ∧ k < x.cr.vName r.toNat + n) su pr

/-- A predicate destination set or cleared in every lane of the issuing path (R203). -/
def PathPred (x : Cx) (pd : BitVec 4) (ok : Bool) (cr : Crew) : Prop :=
  pd ≠ 15 → ∀ l, l < 32 → (cr.getP (x.cr.pName pd.toNat)).getLsbD l =
    if x.lanes.getLsbD l then ok else (x.cr.getP (x.cr.pName pd.toNat)).getLsbD l

/-- A weight as `sample` treats it (R153). -/
def weightOf (anyInf : Bool) : Machine.Num → ℚ
  | .nan _ => 0
  | .inf n => if n then 0 else 1
  | .fin n m e => if anyInf || n then 0 else m * 2 ^ e

/-- The order of R154 on values: NaN lowest, the zeros equal. -/
def valBelow (x y : Machine.Num) : Prop := y.isNan = false ∧ (x.isNan = true ∨ x.cmp y = .lt)

/-- The order of R154 on pairs of a value, an index and a lane. -/
def ranksAbove (p q : Nat × Nat × Nat) : Prop :=
  valBelow (numOf .f32 q.1) (numOf .f32 p.1) ∨
  (¬valBelow (numOf .f32 p.1) (numOf .f32 q.1) ∧ (p.2.1 < q.2.1 ∨ (p.2.1 = q.2.1 ∧ p.2.2 < q.2.2)))

end Sys2Proof.Claims

/-- R239, R240 with R107–R113: `rand` leaves its destination empty and returns the words of each active thread's draw, or
its uniform; `split` writes the draw as a key; each active thread's counter advances by one. (That `rand` returns through
LOAD_PERFORM is the model's reading of R227: log 92.) -/
def Obligations.RandomDraws : Prop :=
  ∀ (f : FmtA) (s : State) (x : Cx),
    let key := if f.sub.getLsbD 2 then BitVec.ofNat 128 (x.uni f.b + 2 ^ 64 * x.uniHi f.b) else x.g.key
    let fx := f.fx.toNat
    let word := fun (t : Thread) (i : Nat) => ((nr4x32 key (t.ltid.getD fx 0) (t.dctr.getD fx 0)).word i).toNat
    let whole := fun t => word t 0 + 2 ^ 32 * word t 1 + 2 ^ 64 * word t 2 + 2 ^ 96 * word t 3
    let counts := fun (cr : Crew) => ∀ l t, x.cr.thread? l = some t → ∃ t', cr.thread? l = some t' ∧
      t'.dctr = if x.act.getLsbD l then t.dctr.set fx (t.dctr.getD fx 0 + 1) else t.dctr
    (Ready (.rand f) s x →
      let form := f.sub.toNat % 4
      CompletesFrom (.rand f) s x (drawn x fx x.cr) (fun cr => counts cr ∧
        Awaits x x.cr f.d (if form = 1 then 2 else if form = 2 then 4 else 1) x.acts (fun l v =>
          ∀ t, x.cr.thread? l = some t →
            (form = 0 → v % 2 ^ 32 = word t 0) ∧ (form = 1 → v % 2 ^ 64 = word t 0 + 2 ^ 32 * word t 1) ∧
            (form = 2 → v = whole t) ∧
            (form = 3 → ratOf (numOf .f32 v) = some (((word t 0 / 256 : Nat) : ℚ) / 2 ^ 24))) none1 none1 cr)) ∧
    (Ready (.split f) s x → oprIsV f.d = true →
      CompletesFrom (.split f) s x (drawn x fx x.cr) (fun cr => counts cr ∧
        WritesReg x f.d 4 0 (fun l v => ∀ t, x.cr.thread? l = some t → v = whole t) cr)) ∧
    (∀ r, Ready (.split f) s x → f.d = .s r →
      CompletesFrom (.split f) s x (drawn x fx x.cr) (fun cr => counts cr ∧
        (∀ t, x.cr.thread? x.first = some t → (cr.getS (x.cr.sName r.toNat)).toNat = whole t % 2 ^ 64 ∧
          (cr.getS (x.cr.sName (r + 1).toNat)).toNat = whole t / 2 ^ 64) ∧
        Kept x.cr cr none2 (fun k => k = x.cr.sName r.toNat ∨ k = x.cr.sName (r + 1).toNat) none1))

/-- R153, R241: `sample` chooses the smallest lane whose exact prefix sum exceeds the uniform's share, or −1. -/
def Sys2Proof.Claims.Sampled : Prop :=
  ∀ (f : FmtA) (s : State) (x : Cx), Ready (.sample f) s x →
    let int := f.sub.getLsbD 0
    let fx := f.fx.toNat
    let w := fun l => numOf .f32 (x.val f.a 1 l (constElems .f32))
    let anyInf := x.acts.any (fun l => decide (w l = .inf false))
    let wt := fun l => if x.act.getLsbD l then weightOf anyInf (w l) else 0
    let sum := fun i => ((List.range (i + 1)).map wt).sum
    let u := ratOf (numOf .f32 (if int then (laneDraw x fx x.first).uniform else x.val f.b 1 x.first (constElems .f32)))
    let bad := ∀ q, u = some q → q < 0 ∨ 1 ≤ q
    CompletesFrom (.sample f) s x (if int then drawn x fx x.cr else x.cr) (fun cr =>
      ∃ (ok : Bool) (fl : Flags), PathPred x f.pd ok cr ∧
        (bad ∨ sum 31 = 0 → ok = false ∧ destVal x cr f.d 2 0 = 2 ^ 64 - 1) ∧
        (∀ q, u = some q → 0 ≤ q → q < 1 → sum 31 ≠ 0 → ok = true ∧ destVal x cr f.d 2 0 < 32 ∧
          q * sum 31 < sum (destVal x cr f.d 2 0) ∧ ∀ j, j < destVal x cr f.d 2 0 → sum j ≤ q * sum 31) ∧
        fl = (if x.acts.any (fun l => (w l).isNan) then Flags.snan else 0) ||| Flags.when (decide (u = none) || u.any (fun q => decide (q < 0 ∨ 1 ≤ q))) Flags.invalid ∧
        Kept (x.cr.orFlags fl) cr none2 (destS x f.d) (destP x f.pd))

/-- R154, R242: `topk` gives the active lanes, in ascending order, the pairs that rank first, and pads the rest. -/
def Sys2Proof.Claims.TopRanked : Prop :=
  ∀ (f : FmtA) (s : State) (x : Cx), Ready (.topk f) s x →
    let pair := fun l => (x.val f.a 1 l (constElems .f32), x.val f.b 1 l (constElems .n32), l)
    let place := fun l => (x.acts.filter (fun j => decide (j < l))).length
    Completes (.topk f) s x (WritesReg x f.d 2 0 (fun l v =>
      (place l < f.sub.toNat → ∃ j ∈ x.acts, v = (pair j).1 + 2 ^ 32 * (pair j).2.1 ∧
        ∃ above : List Nat, above.Nodup ∧ above.length = place l ∧
          ∀ k, k ∈ above ↔ k ∈ x.acts ∧ ranksAbove (pair k) (pair j)) ∧
      (f.sub.toNat ≤ place l → v = 0x7FC00000 + 2 ^ 32 * 0xFFFFFFFF)))

/-- R153, R154, R241, R242: `sample` draws a lane by weight, and `topk` ranks the lanes' values. -/
def Obligations.Selection : Prop := Sampled ∧ TopRanked

namespace Sys2Proof.Claims

/-- A Mask Unit instruction reaches its stream: older stores are performed, the record is aligned, reached at `p`, for one
that `changes` the stream also for writing, and sound; its stream is resident in the unit that serves the core, as `g`; `s1`
is `s` with the translations kept. -/
structure GmAt (f : FmtA) (s : State) (x : Cx) (changes : Bool) (s1 : State) (p : Nat) (r : GmRec) (g : GmStream) :
    Prop where
  older : x.cr.storePath = []
  aligned : x.uni f.a % 64 = 0
  reached : ∃ s0, physOf s x.g.ctx (x.uni f.a) .read = .ok (p, s0) ∧ (changes = false → s1 = s0) ∧
    (changes = true → ∃ p', physOf s0 x.g.ctx (x.uni f.a) .write = .ok (p', s1))
  record : gmRecord s.mem p = some r
  resident : gmWhere s p = some (maskQuad s x.blk.core, g)

/-- The stream that a quad's unit holds for a record. -/
def streamAt (s : State) (q p : Nat) : Option GmStream := (s.quad q).streams.find? (fun e => e.addr == p)

/-- A stream apart from the grids that have named it (R385). -/
def bare (g : GmStream) : GmStream := { g with grids := [] }

/-- A unit's stream for a record after an instruction of a grid has named it: `g`, the grid noted. -/
def NamedStream (t : State) (q p grid : Nat) (g : GmStream) : Prop :=
  ∃ g', streamAt t q p = some g' ∧ bare g' = bare g ∧ grid ∈ g'.grids

/-- What a step with a transition entry does to a stream, and the predicate it gives (R162); no clause where it raises
`GSTK` or `GEMPTY`. -/
def StepIs (t : GmTrans) (g g' : GmStream) (ok : Bool) : Prop :=
  (t.act = 0 → g' = { g with state := t.nxt } ∧ ok = true) ∧
  (t.act = 1 → g.depth ≠ 8 →
    g' = { g with stack := g.stack.set g.depth t.sym, depth := g.depth + 1, state := t.nxt } ∧ ok = true) ∧
  (t.act = 2 → (g.depth = 0 ∧ g.spill = 0) ∨ (0 < g.depth ∧ t.sym ≠ 0xFF ∧ g.stack.getD (g.depth - 1) 0 ≠ t.sym) →
    g' = g ∧ ok = false) ∧
  (t.act = 2 → 0 < g.depth → t.sym = 0xFF ∨ g.stack.getD (g.depth - 1) 0 = t.sym →
    g' = { g with depth := g.depth - 1, state := if g.depth = 1 ∧ g.spill = 0 then t.nxe else t.nxt } ∧ ok = true) ∧
  (t.act = 3 → g' = g ∧ ok = false)

end Sys2Proof.Claims

/-- R161–R164, R243: binding and loading a stream, stepping it, fetching a mask and the stack operations; R161: the
write-back of a resident stream. A stream keeps which grids have named it while it is resident, the model's bookkeeping for
R385. (That an instruction which changes a stream needs its record's page writable is log 113;
that a record in a ladder's slot raises no `SEAL`, log 145; that a mask comes through LOAD_PERFORM is log 92.) -/
def Obligations.MaskUnit : Prop :=
  (∀ (f : FmtA) (s s1 s2 : State) (x : Cx) (p p' : Nat) (r : GmRec), Ready (.gmbind f) s x → x.cr.storePath = [] →
    x.uni f.a % 64 = 0 → physOf s x.g.ctx (x.uni f.a) .read = .ok (p, s1) → gmRecord s.mem p = some r →
    physOf s1 x.g.ctx (x.uni f.a) .write = .ok (p', s2) →
    Runs (.gmbind f) s x (fun t cr => Kept x.cr cr none2 none1 none1 ∧
      (∃ g, streamAt t (maskQuad s x.blk.core) p = some g ∧ g.state = r.start ∧ g.depth = 0 ∧ g.spill = 0 ∧
        g.grids = [x.blk.grid]) ∧
      ∀ a, (∀ e, e = p ∨ (∃ g ∈ (s.quad (maskQuad s x.blk.core)).streams, g.addr = e ∧ g.stack.length = 8) →
          a < e + 0x30 ∨ e + 0x40 ≤ a) →
        (∀ g ∈ (s.quad (maskQuad s x.blk.core)).streams, g.stack.length = 8) → noLadder s → t.mem.read1 a = s.mem.read1 a)) ∧
  (∀ (f : FmtA) (s s1 s2 s3 : State) (x : Cx) (p : Nat) (r : GmRec) (g : GmStream) (cls e : Nat) (tr : GmTrans),
    Ready (.gmstep f) s x → GmAt f s x true s1 p r g → x.uni f.b < r.vocab →
    fetchNat s1 x.g.ctx (r.cmap + 2 * x.uni f.b) 2 = .ok (cls, s2) → cls < r.nclass →
    fetchNat s2 x.g.ctx (r.ttab + 8 * (g.state * r.nclass + cls)) 8 = .ok (e, s3) → gmTrans e r.nstate = some tr →
    ¬(tr.act = 1 ∧ g.depth = 8) → ¬(tr.act = 2 ∧ g.depth = 0 ∧ 0 < g.spill) →
    Runs (.gmstep f) s x (fun t cr => ∃ g' ok, NamedStream t (maskQuad s x.blk.core) p x.blk.grid g' ∧ StepIs tr (bare g) (bare g') ok ∧
      PathPred x f.pd ok cr ∧ Kept x.cr cr none2 none1 (destP x f.pd) ∧ SameBytes s t)) ∧
  (∀ (f : FmtA) (s s1 s2 s3 : State) (x : Cx) (p : Nat) (r : GmRec) (g : GmStream) (e m : Nat),
    Ready (.gmfetch f) s x → GmAt f s x false s1 p r g →
    let c := x.uni f.b
    512 * c < r.vocab → fetchNat s1 x.g.ctx (r.stab + 8 * g.state) 8 = .ok (e, s2) →
    bits e 50 14 = 0 → bits e 20 12 = 0 →
    fetchNat s2 x.g.ctx (r.mstore + 64 * (g.state * ceilDiv r.vocab 512 + c)) 64 = .ok (m, s3) →
    let forced := decide (bits e 0 19 = 1)
    Runs (.gmfetch f) s x (fun t cr =>
      Awaits x x.cr f.d 1 x.acts (fun l v => ∀ j, v.testBit j =
        (decide (j < 32) && decide (l < 16) && decide (512 * c + 32 * l + j < r.vocab) && m.testBit (32 * l + j)))
        (destS x f.c) (destP x f.pd) cr ∧
      destVal x cr f.c 2 0 = (if forced then bits e 32 18 else 0xFFFFFFFF) ∧ PathPred x f.pd forced cr ∧ SameBytes s t ∧
      NamedStream t (maskQuad s x.blk.core) p x.blk.grid g)) ∧
  (∀ (f : FmtA) (s s1 : State) (x : Cx) (p : Nat) (r : GmRec) (g : GmStream),
    (Ready (.gmstkSpill f) s x → GmAt f s x true s1 p r g → 0 < g.depth → g.spill < 65535 →
      Runs (.gmstkSpill f) s x (fun t cr => destVal x cr f.d 2 0 = g.stack.getD 0 0 % 2 ^ 64 ∧
        Kept x.cr cr none2 (destS x f.d) none1 ∧ SameBytes s t ∧
        ∃ g', streamAt t (maskQuad s x.blk.core) p = some g' ∧ g'.depth = g.depth - 1 ∧ g'.spill = g.spill + 1 ∧
          g'.state = g.state ∧ ∀ i, i + 1 < g.stack.length → g'.stack.getD i 0 = g.stack.getD (i + 1) 0)) ∧
    (Ready (.gmstkFill f) s x → GmAt f s x true s1 p r g → x.uni f.b < 256 → g.depth ≠ 8 → 0 < g.spill →
      Runs (.gmstkFill f) s x (fun t cr => Kept x.cr cr none2 none1 none1 ∧ SameBytes s t ∧
        ∃ g', streamAt t (maskQuad s x.blk.core) p = some g' ∧ g'.depth = g.depth + 1 ∧ g'.spill = g.spill - 1 ∧
          g'.state = g.state ∧ g'.stack.getD 0 0 = x.uni f.b ∧
          ∀ i, i < 7 → g'.stack.getD (i + 1) 0 = g.stack.getD i 0)) ∧
    (Ready (.gmstkRd f) s x → GmAt f s x false s1 p r g →
      Runs (.gmstkRd f) s x (fun t cr =>
        destVal x cr f.d 2 0 = (g.state + 2 ^ 16 * g.depth + 2 ^ 24 * g.spill) % 2 ^ 64 ∧
        Kept x.cr cr none2 (destS x f.d) none1 ∧ SameBytes s t ∧ NamedStream t (maskQuad s x.blk.core) p x.blk.grid g))) ∧
  (∀ (q rec : Nat) (g : GmStream) (s : State), streamAt s q rec = some g → ∃ t,
    exec (.maskUnitWriteback q rec) s = .next t ∧ streamAt t q rec = none ∧
    (noLadder s → t.mem.nat (rec + 0x30) 2 = g.state % 2 ^ 16 ∧ t.mem.nat (rec + 0x32) 1 = g.depth % 2 ^ 8 ∧
      t.mem.nat (rec + 0x34) 2 = g.spill % 2 ^ 16 ∧ t.mem.read (rec + 0x38) g.stack.length = g.stack.map (BitVec.ofNat 8) ∧
      ∀ a, a < rec + 0x30 ∨ rec + 0x38 + g.stack.length ≤ a → t.mem.read1 a = s.mem.read1 a))

/-! ## Memory -/

namespace Sys2Proof.Claims

/-- The lanes whose access a memory instruction makes: one for a uniform destination (R203, R246). -/
def memLanes (x : Cx) (d : Opr) : List Nat := if oprIsS d then [x.first] else x.acts

/-- The threads that a lane's access is of: its own, or every active one where the destination is uniform (R203). -/
def threadsOf (x : Cx) (d : Opr) (lane : Nat) : Lanes := if oprIsS d then x.act else 1#32 <<< lane

/-- The parts of a lane's load as they wait to be performed; 16 bytes are two (R48). -/
def loadParts (s : State) (x : Cx) (f : FmtM) (a : LaneAcc) (n : Nat) (conv : LoadConv) : List Load :=
  let seq := x.cr.seq + 1
  let pol := if f.pol = 0 ∧ isRemote s a.place = true ∧ bitAt a.pte.toNat 6 = false then 1 else f.pol.toNat
  let dest := fun i => match f.d with
    | .v r => Dest.mk true (x.cr.vName r.toNat + 2 * i) (if 4 ≤ f.w.toNat then 2 else widthRegs f.w.toNat) a.lane seq
    | .s r => Dest.mk false (x.cr.sName r.toNat) 2 a.lane seq
    | _ => Dest.mk true 0 0 a.lane seq
  let own := threadsOf x f.d a.lane
  if n = 16 then
    [⟨seq, a.place, 8, pol, conv, dest 0, a.va, own⟩, ⟨seq, a.place.add 8, 8, pol, conv, dest 1, a.va + 8, own⟩]
  else [⟨seq, a.place, n, pol, conv, dest 0, a.va, own⟩]

/-- What an `ld.fmt` of width `n` reads in a lane whose element is translated (R91, R92, R249), and the machine after it: on a
page without a format `n` bytes as they are, else an element of `EFMT`, converted to `DFMT` under the scale byte at page base +
`SOFF` + ⌊(address − page base) / (`BLK` × element size)⌋, where that byte's own translation puts it and under its page's cache
policy (R62). -/
def FmtReads (x : Cx) (f : FmtM) (n : Nat) (a : LaneAcc) (s : State) (p : FmtPlan) (t : State) : Prop :=
  p.acc = a ∧
  (a.fmt = none → p.n = n ∧ p.conv = .raw ∧ p.dfmt = none ∧ t = s) ∧
  ∀ entry, a.fmt = some entry → ∃ e d, ScaleOf x f a entry s e d p.conv t ∧ p.n = fmtBits e / 8 ∧ p.dfmt = some d
where
  /-- A usable entry (R91): the element format, the decode target, and what the conversion needs. -/
  ScaleOf (x : Cx) (f : FmtM) (a : LaneAcc) (entry : List Byte) (s : State) (e d : Fmt) (conv : LoadConv) (t : State) : Prop :=
    let m := leNat entry
    let base := a.va - a.va % 2 ^ a.log
    let blk := 8 * 2 ^ bits m 70 2
    let soff : Int := asInt .i64 (bits m 0 64)
    entry.length = 16 ∧ bits m 78 50 = 0 ∧ Fmt.ofCode (BitVec.ofNat 6 (bits m 64 6)) = some e ∧
    Fmt.ofCode (BitVec.ofNat 6 (bits m 72 6)) = some d ∧ fmtIsIeee d = true ∧
    (bits m 70 2 = 0 → conv = .fmt e d none ∧ t = s) ∧
    (bits m 70 2 ≠ 0 → fmtScalable e = true ∧ ∃ va : Nat, va < 2 ^ 64 ∧
      (va - (base + soff + ((a.va - base) / (blk * (fmtBits e / 8)) : Nat))) % 2 ^ 64 = 0 ∧
      ∃ q pte lg fm, translate s x.g.ctx va .read = .ok q pte lg fm ∧ t = tlbKeep s x.g.ctx va (.ok q pte lg fm) ∧
        conv = .fmt e d (some (.g q,
          (if f.pol = 0 ∧ isRemote s (.g q) = true ∧ bitAt pte.toNat 6 = false then 1 else f.pol.toNat), va)))

/-- The lanes of an `ld.fmt` in order: each one's element is translated, then its scale byte (cause 3 of R247). -/
def FmtLanes (x : Cx) (f : FmtM) (n : Nat) : List Nat → State → List FmtPlan → State → Prop
  | [], s, ps, t => ps = [] ∧ t = s
  | l :: ls, s, ps, t => ∃ a s1 p s2 rest, xlatLane x.g.ctx .read (formAddr x f l).toNat l s = .ok (a, s1) ∧
      FmtReads x f n a s1 p s2 ∧ FmtLanes x f n ls s2 rest t ∧ ps = p :: rest

/-- No lane of an `ld.fmt` of width `n` meets cause 4 of R247. -/
def FmtFits (n : Nat) (ps : List FmtPlan) : Prop :=
  ∀ p ∈ ps, p.acc.va % p.n = 0 ∧ ∀ d, p.dfmt = some d → fmtBits d = 8 * n

/-- What an issued load leaves: its parts wait, its vector destination is empty in the active lanes with every value as
before, a uniform one is interlocked, an `.acq` is noted; nothing else changes. -/
def LoadIssued (s : State) (x : Cx) (f : FmtM) (parts : List Load) (t : State) (cr : Crew) : Prop :=
  let seq := x.cr.seq + 1
  SameBytes s t ∧
  (∀ r l, l < 32 → cr.getV r l = x.cr.getV r l) ∧
  (∀ r l, destV x f.d (widthRegs f.w.toNat) r l → cr.isEmpty r l = true) ∧
  Kept { x.cr with
      seq := seq
      loads := x.cr.loads ++ parts
      locks := x.cr.locks ++ (match f.d with
        | .s r => [⟨1, x.cr.sName r.toNat, seq⟩]
        | _ => [])
      acqs := x.cr.acqs ++ (if f.ord.getLsbD 0 then [⟨seq, false⟩] else []) }
    cr (destV x f.d (widthRegs f.w.toNat)) none1 none1

/-- The entries of a lane's store; 16 bytes are two (R48). -/
def storeParts (x : Cx) (f : FmtM) (a : LaneAcc) : List SpEntry :=
  let seq := x.cr.seq + 1
  let v := memData x f f.b a.lane
  if widthBytes f.w = 16 then
    [.store seq a.place (leBytes 8 v) a.va (1#32 <<< a.lane),
     .store seq (a.place.add 8) (leBytes 8 (v / 2 ^ 64)) (a.va + 8) (1#32 <<< a.lane)]
  else [.store seq a.place (leBytes (widthBytes f.w) v) a.va (1#32 <<< a.lane)]

/-- The marker of a release (R57). -/
def relPart (x : Cx) (f : FmtM) : List SpEntry := if f.ord.getLsbD 1 then [.marker (x.cr.seq + 1) .none] else []

/-- The new value of an atomic of `w` bits (R251). -/
def AtomicIs (aop w old b c new : Nat) : Prop :=
  let f : Fmt := if w = 64 then .f64 else .f32
  let i := fun (y : Nat) => asInt (if w = 64 then .i64 else .i32) y
  (aop = 0 → new = (old + b) % 2 ^ w) ∧ (aop = 1 → new = if i b < i old then b else old) ∧
  (aop = 2 → new = if i old < i b ∨ i old = i b then b else old) ∧ (aop = 3 → new = min old b) ∧
  (aop = 4 → new = max old b) ∧ (aop = 5 → new = old &&& b) ∧ (aop = 6 → new = old ||| b) ∧
  (aop = 7 → new = old ^^^ b) ∧ (aop = 8 → new = b) ∧ (aop = 9 → new = if old = c then b else old) ∧
  (aop = 10 → ∃ fl, SumIs f 0 0 (numOf f old) (numOf f b) (new, fl)) ∧
  (aop = 11 → new = (fpMinMax f false false old b).1) ∧ (aop = 12 → new = (fpMinMax f true false old b).1)

/-- A place exists: that of an accumulator tile needs its block. -/
def placeHere (s : State) (p : Place) : Prop := ∀ b a, p = .acc b a → (s.block? b).isSome = true

/-- Where a pending result goes: it takes `v` in every register that still waits for its producer (R15). -/
def Delivered (old new : Crew) (d : Dest) (v : Nat) : Prop :=
  (d.vec = false → old.locks.contains ⟨1, d.reg, d.tag⟩ = true → new.getS d.reg = BitVec.ofNat 64 v) ∧
  (d.vec = true → d.lane < 32 → (∃ th, old.threads.find? d.lane = some th ∧ th.exited = false) → ∀ i, i < d.n →
    (old.empty.find? (Crew.key (d.reg + i) d.lane) = some d.tag ∨ old.locks.contains ⟨0, d.reg + i, d.tag⟩ = true) →
      new.getV (d.reg + i) d.lane = BitVec.ofNat 32 (v / 2 ^ (32 * i)) ∧ new.isEmpty (d.reg + i) d.lane = false) ∧
  (d.lane < 32 → ∀ r l, l < 32 → ¬(d.vec = true ∧ l = d.lane ∧ d.reg ≤ r ∧ r < d.reg + d.n) →
    new.getV r l = old.getV r l ∧ new.isEmpty r l = old.isEmpty r l)

/-- Bytes at the physical address `p` lie, by the context's tables, at an address of the launch's ladder that the block's grid
may not write: its header, its tile entries, or a slot outside the block's saggar (R31, R34). -/
def Barred (s : State) (g : Grid) (k : Block) (p n : Nat) : Prop :=
  ∃ l c va, g.ladder = some l ∧ s.ctxs.find? g.ctx = some c ∧ va % 65536 = p % 65536 ∧
    (∃ acc q e lg fm, walkCtx s c (va - va % 65536) acc = .ok q e lg fm ∧ q / 65536 = p / 65536) ∧
    ((va < l.hdr + 64 + 8 * l.t ∧ l.hdr < va + n) ∨
      ∃ b, va ≤ b ∧ b < va + n ∧ l.base ≤ b ∧ b < l.base + l.t * l.s * l.tsize ∧
        ∀ m, k.pass = some m → ¬(l.base + (k.lin * l.s + m % l.s) * l.tsize ≤ b ∧
          b < l.base + (k.lin * l.s + m % l.s) * l.tsize + l.tsize))

/-- A memory instruction on whose accesses `res` answers raises the first trap, and holds a translation's page fault. -/
def Checked (i : Instr) (s : State) (x : Cx) (acc : Nat) (res : Except Res (List LaneAcc × State)) : Prop :=
  Ready i s x → calm x → x.cr.late = none →
    (∀ cause va, res = .error (.trap cause va) → cause = cProt ∨ cause = cAlign →
      Raised i s x (trapOf x cause va 0 0 acc)) ∧
    (∀ va, res = .error (.xfault cProt va acc) → x.late = false → Raised i s x (trapOf x cProt va 0 0 acc)) ∧
    (∀ va, res = .error (.xfault cPf va acc) → FaultHeld i s x cPf va acc)

end Sys2Proof.Claims

/-- R245–R247: where the lanes' accesses go, and the traps that stop them: the lowest lane whose address is not
canonical or not in the space raises `PROT`, else the lowest misaligned one `ALIGN`, each with the address as `TADDR`;
else the lowest that the tables refuse, as `PF` or `PROT`. Loads, stores and atomics raise what the check answers. Then a
write that R31 or R34 forbids, where it goes once translated, raises `SEAL`, and a floating-point atomic that R69 refuses, or
one for which the Serial Phase Buffer has no room (R68), `PROT`. An `ld.fmt` takes its lanes in order, each with its scale
byte, whose refusal stops it with the lane's own address in a `PROT`; then the lowest lane not aligned to its element raises
`ALIGN`, else the lowest whose decode target has not the access's width `PROT`. (Which of the ladder's addresses a translated
access lies at, by the context's tables, is the model's reading: DEDUCED, log 35. Outside global memory the first and the last byte are
tested: log 70. A page fault waits for the crew's rollback: R24, R352.) -/
def Obligations.AccessChecks : Prop :=
  (∀ (f : FmtM) (x : Cx) (lanes : List Nat) (acc : Acc) (align : Nat),
    let addr := fun l => formAddr x f l
    let inSpace := fun l => if f.sp = 0 then canonical (addr l).toNat = true
      else 0 ≤ addr l ∧ (localPlace x f.sp.toNat f.qn.toNat (addr l).toNat).isSome = true ∧
        (localPlace x f.sp.toNat f.qn.toNat ((addr l).toNat + align - 1)).isSome = true
    let res := accessLanes x lanes f.sp.toNat f.qn.toNat addr acc align
    (f.sp = 0 → ∀ l, ((addr l - (x.val f.a 2 l (fun c => wrapTo 64 c.toInt) + f.ofs.toInt)) % 2 ^ 64 = 0 ∧ 0 ≤ addr l ∧
      addr l < 2 ^ 64)) ∧
    (f.sp ≠ 0 → ∀ l, addr l = x.val f.a 1 l (fun c => wrapTo 32 c.toInt) + f.ofs.toInt) ∧
    (∀ as s1, res = .ok (as, s1) →
      (∀ l ∈ lanes, inSpace l ∧ (addr l).toNat % align = 0) ∧ as.map (·.lane) = lanes ∧ SameBytes x.s s1 ∧
      ∀ a ∈ as, a.va = (addr a.lane).toNat ∧ (f.sp ≠ 0 → localPlace x f.sp.toNat f.qn.toNat a.va = some a.place)) ∧
    (∀ p l q, lanes = p ++ l :: q → (∀ k ∈ p, inSpace k) → ¬inSpace l →
      res = .error (.trap cProt (wrapTo 64 (addr l)))) ∧
    (∀ p l q, lanes = p ++ l :: q → (∀ k ∈ lanes, inSpace k) → (∀ k ∈ p, (addr k).toNat % align = 0) →
      (addr l).toNat % align ≠ 0 → res = .error (.trap cAlign (wrapTo 64 (addr l)))) ∧
    (∀ p l q as s1, lanes = p ++ l :: q → f.sp = 0 → (∀ k ∈ lanes, inSpace k) → (∀ k ∈ lanes, (addr k).toNat % align = 0) →
      xlatLanes x.g.ctx acc addr p x.s = .ok (as, s1) →
      (translate s1 x.g.ctx (addr l).toNat acc = .pf → res = .error (.xfault cPf (addr l).toNat (accBits acc))) ∧
      (translate s1 x.g.ctx (addr l).toNat acc = .prot → res = .error (.xfault cProt (addr l).toNat (accBits acc))))) ∧
  (∀ (f : FmtM) (s : State) (x : Cx),
    let n := widthBytes f.w
    let res := fun lanes acc => accessLanes x lanes f.sp.toNat f.qn.toNat (formAddr x f) acc n
    (f.fm = false → Checked (.ld f) s x 0 (res (memLanes x f.d) .read)) ∧
    (f.fm = true → Ready (.ld f) s x → calm x → x.cr.late = none →
      let i := Instr.ld f
      let lanes := memLanes x f.d
      (∀ cause va, accessLanes x lanes f.sp.toNat f.qn.toNat (formAddr x f) .read 1 = .error (.trap cause va) →
        Raised i s x (trapOf x cause va 0 0 0)) ∧
      (accessTrap x lanes f.sp.toNat f.qn.toNat (formAddr x f) 1 = none →
        (∀ done l more ps s1, lanes = done ++ l :: more → FmtLanes x f n done x.s ps s1 →
          let va := (formAddr x f l).toNat
          (translate s1 x.g.ctx va .read = .pf → FaultHeld i s x cPf va 0) ∧
          (translate s1 x.g.ctx va .read = .prot → x.late = false → Raised i s x (trapOf x cProt va 0 0 0)) ∧
          (∀ a s2 entry, xlatLane x.g.ctx .read va l s1 = .ok (a, s2) → a.fmt = some entry →
            (fmtEntry entry = none → Raised i s x (trapOf x cProt va 0 0 0)) ∧
            (∀ e, fmtEntry entry = some e → e.blk ≠ 0 →
              (translate s2 x.g.ctx (scaleVa a e) .read = .pf → FaultHeld i s x cPf (scaleVa a e) 0) ∧
              (translate s2 x.g.ctx (scaleVa a e) .read = .prot → x.late = false →
                Raised i s x (trapOf x cProt va 0 0 0))))) ∧
        (∀ ps s1 done p more, FmtLanes x f n lanes x.s ps s1 → ps = done ++ p :: more →
          ((∀ o ∈ done, o.acc.va % o.n = 0) → p.acc.va % p.n ≠ 0 → Raised i s x (trapOf x cAlign p.acc.va 0 0 0)) ∧
          ((∀ o ∈ ps, o.acc.va % o.n = 0) → FmtFits n done → (∃ d, p.dfmt = some d ∧ fmtBits d ≠ 8 * n) →
            Raised i s x (trapOf x cProt p.acc.va 0 0 0))))) ∧
    Checked (.st f) s x 1 (res x.acts .write) ∧ Checked (.atom f) s x 1 (res (memLanes x f.d) .write) ∧
    Checked (.red f) s x 1 (res x.acts .write) ∧
    (∀ p a q, (∀ e ∈ p ++ a :: q, ∀ y, e.place = .g y → y % n = 0) →
      let bars := fun (e : LaneAcc) => ∃ y, e.place = .g y ∧ Barred x.s x.g x.blk y n
      (∀ e ∈ p, ¬bars e) → (bars a → sealLane x f (p ++ a :: q) = some a) ∧
        (¬bars a → sealLane x f (p ++ [a]) = none)) ∧
    (∀ as s1 a, sealLane x f as = some a → calm x →
      (Ready (.st f) s x → res x.acts .write = .ok (as, s1) → Raised (.st f) s x (trapOf x cSeal a.va 0 0 1)) ∧
      (Ready (.atom f) s x → res (memLanes x f.d) .write = .ok (as, s1) → Raised (.atom f) s x (trapOf x cSeal a.va 0 0 1)) ∧
      (Ready (.red f) s x → res x.acts .write = .ok (as, s1) → Raised (.red f) s x (trapOf x cSeal a.va 0 0 1))) ∧
    (∀ as s1, sealLane x f as = none → calm x → 10 ≤ f.aop.toNat → 1 ≤ x.g.level →
      let va := wrapTo 64 (formAddr x f x.first)
      let live := as.filter (fun a => !redSkipped x.cr a.lane)
      (Ready (.atom f) s x → res (memLanes x f.d) .write = .ok (as, s1) →
        Raised (.atom f) s x (trapOf x cProt va 0 0 1)) ∧
      (Ready (.red f) s x → f.sp ≠ 1 → res x.acts .write = .ok (as, s1) → Raised (.red f) s x (trapOf x cProt va 0 0 1)) ∧
      (Ready (.red f) s x → f.sp = 1 → res x.acts .write = .ok (as, s1) →
        ∀ a, live[2048 - x.blk.spb.length]? = some a → 2048 < x.blk.spb.length + live.length →
          Raised (.red f) s x (trapOf x cProt a.va 0 0 1))))

/-- R248–R253, R25, R34, R57, R63, R68: what loads, stores and atomics leave when they issue: a pending load or Store
Path entries for each lane, in lane order, a release's marker before them and an acquire noted; the registers of an `atom`'s
destination are interlocked. Memory is untouched. A lane
of `red` whose count of R63 says that it was done before the replay leaves none (`redSkipped`, `redCounted`); that a `red` of
a handler after a late `PROT` is neither counted nor discarded there is the model's choice (log 108). -/
def Obligations.MemoryIssue : Prop :=
  ∀ (f : FmtM) (s s1 : State) (x : Cx) (as : List LaneAcc),
    let n := widthBytes f.w
    let seq := x.cr.seq + 1
    let addr := formAddr x f
    let atomEntry := fun (dest : Option Dest) (c : BitVec 64) (a : LaneAcc) =>
      SpEntry.atomic seq a.place n f.aop.toNat (BitVec.ofNat 64 (memData x f f.b a.lane)) c dest a.va (threadsOf x f.d a.lane)
    (Ready (.ld f) s x → f.fm = false → accessLanes x (memLanes x f.d) f.sp.toNat f.qn.toNat addr .read n = .ok (as, s1) →
      Runs (.ld f) s x (LoadIssued s x f (as.flatMap (fun a => loadParts s1 x f a n .raw)))) ∧
    (∀ s2 ps, Ready (.ld f) s x → f.fm = true → accessTrap x (memLanes x f.d) f.sp.toNat f.qn.toNat addr 1 = none →
      FmtLanes x f n (memLanes x f.d) x.s ps s2 → FmtFits n ps →
      Runs (.ld f) s x (LoadIssued s x f (ps.flatMap (fun p => loadParts s2 x f p.acc p.n p.conv)))) ∧
    (Ready (.st f) s x → accessLanes x x.acts f.sp.toNat f.qn.toNat addr .write n = .ok (as, s1) →
      sealLane x f as = none → (as.any (fun a => isRemote s1 a.place) = false ∨ x.cr.checksDue = false) →
      ∃ t cr, exec (.st f) s = .next t ∧ t.crew? x.b x.c = some cr ∧ SameBytes s t ∧
        Advanced x cr (as.any (fun a => isRemote s1 a.place) && !x.cr.inHandler) ∧
        Kept { x.cr with seq := seq, storePath := x.cr.storePath ++ relPart x f ++ as.flatMap (storeParts x f) }
          cr none2 none1 none1) ∧
    (Ready (.atom f) s x → accessLanes x (memLanes x f.d) f.sp.toNat f.qn.toNat addr .write n = .ok (as, s1) →
      sealLane x f as = none → (f.aop.toNat < 10 ∨ x.g.level = 0) →
      let locks := match f.d with
        | .v r => (List.range (widthRegs f.w.toNat)).map (fun i => Lock.mk 0 (x.cr.vName r.toNat + i) seq)
        | .s r => [⟨1, x.cr.sName r.toNat, seq⟩]
        | _ => []
      Runs (.atom f) s x (fun t cr => SameBytes s t ∧
        Kept { x.cr with
            seq := seq
            locks := x.cr.locks ++ locks
            storePath := x.cr.storePath ++ relPart x f ++ as.map (fun a => atomEntry
              (some (destOf { x.cr with seq := seq } f.d (widthRegs f.w.toNat) a.lane 0))
              (BitVec.ofNat 64 (memData x f f.c a.lane)) a)
            acqs := x.cr.acqs ++ (if f.ord.getLsbD 0 then [⟨seq, true⟩] else []) } cr none2 none1 none1)) ∧
    (Ready (.red f) s x → accessLanes x x.acts f.sp.toNat f.qn.toNat addr .write n = .ok (as, s1) →
      sealLane x f as = none →
      let live := as.filter (fun a => !redSkipped x.cr a.lane)
      let remote := as.any (fun a => isRemote s1 a.place)
      let goes := fun (ends : Bool) (post : State → Crew → Prop) => ∃ t cr, exec (.red f) s = .next t ∧
        t.crew? x.b x.c = some cr ∧ SameBytes s t ∧
        Advanced { x with cr := redCounted x x.cr } cr (ends && !x.cr.inHandler) ∧ post t cr
      ((f.aop.toNat < 10 ∨ x.g.level = 0) → (remote = false ∨ x.cr.checksDue = false) → goes remote (fun _ cr =>
        Kept { x.cr with seq := seq, storePath := x.cr.storePath ++ relPart x f ++ live.map (atomEntry none 0) }
          cr none2 none1 none1)) ∧
      (10 ≤ f.aop.toNat → 1 ≤ x.g.level → f.sp = 1 → x.blk.spb.length + live.length ≤ 2048 →
        goes false (fun t cr => Kept { x.cr with seq := seq, storePath := x.cr.storePath ++ relPart x f } cr none2 none1 none1 ∧
          ∃ k, t.block? x.b = some k ∧ ∃ new, k.spb = x.blk.spb ++ new ∧ new.length = live.length ∧
            ∀ e ∈ new, ∃ a ∈ live, e.ltid = laneLtid x.cr a.lane ∧ e.ofs = a.va ∧
              e.operand = BitVec.ofNat 64 (memData x f f.b a.lane) ∧ e.aop = f.aop.toNat ∧ e.w = f.w.toNat)) ∧
      (∀ l, redSkipped x.cr l = true ↔ (∀ h, x.cr.handler = some h → h.trap.resume ≠ 2) ∧
        ∃ t, x.cr.threads.find? l = some t ∧ 0 < t.skip.red) ∧
      (∀ l t, x.cr.thread? l = some t → x.act.getLsbD l = true →
        (∀ h, x.cr.handler = some h → h.trap.resume ≠ 2) → ∃ t', (redCounted x x.cr).thread? l = some t' ∧
          (0 < t.skip.red → t'.skip.red = t.skip.red - 1 ∧ t'.cnt = t.cnt) ∧
          (t.skip.red = 0 → t'.cnt.red = t.cnt.red + 1 ∧ t'.skip = t.skip)))

/-- R254: a fence notes an acquire, puts a marker into the Store Path, or both, and changes nothing else. -/
def Sys2Proof.Claims.FenceIssue : Prop :=
  ∀ (f : FmtM) (s : State) (x : Cx),
    let seq := x.cr.seq + 1
    (Ready (.fenceAcq f) s x → Completes (.fenceAcq f) s x
      (Kept { x.cr with seq := seq, acqs := x.cr.acqs ++ [⟨seq, false⟩] } · none2 none1 none1)) ∧
    (Ready (.fenceRel f) s x → Completes (.fenceRel f) s x
      (Kept { x.cr with seq := seq, storePath := x.cr.storePath ++ [.marker seq .none] } · none2 none1 none1)) ∧
    (Ready (.fenceAr f) s x → Completes (.fenceAr f) s x
      (Kept { x.cr with seq := seq, storePath := x.cr.storePath ++ [.marker seq .none], acqs := x.cr.acqs ++ [⟨seq, true⟩] }
        · none2 none1 none1))

namespace Sys2Proof.Claims

/-- The bytes that a load reads: the element's, and its scale's (R249). -/
def rangesOf (l : Load) : List (Place × Nat) :=
  match l.conv with
  | .fmt _ _ (some (q, _, _)) => [(l.place, l.n), (q, 1)]
  | _ => [(l.place, l.n)]

/-- Where an access of a block to `p`, which `va` was translated to, is performed: there, or, when the page has been
withdrawn since (R353), where `va` is mapped by then. -/
def Stands (s : State) (k : Block) (p : Place) (va : Nat) (acc : Acc) (q : Place) : Prop :=
  (withdrawn s p = false ∧ q = p) ∨
  (withdrawn s p = true ∧ ∃ g a e lg fm, s.grid? k.grid = some g ∧ translate s g.ctx va acc = .ok a e lg fm ∧ q = .g a)

/-- The page of an access has been withdrawn and its address is not mapped. -/
def Astray (s : State) (k : Block) (p : Place) (va : Nat) (acc : Acc) : Prop :=
  withdrawn s p = true ∧ ∃ g, s.grid? k.grid = some g ∧ (translate s g.ctx va acc = .pf ∨ translate s g.ctx va acc = .prot)

/-- An access that is astray waits, and its crew holds a page fault for it (R353; log 69). -/
def Waits (i : Instr) (s : State) (b c : Nat) (cr : Crew) (va acc : Nat) : Prop :=
  ∃ t cr', exec i s = .next t ∧ t.crew? b c = some cr' ∧ SameBytes s t ∧ cr'.loads = cr.loads ∧
    cr'.storePath = cr.storePath ∧ (∀ r l, cr'.getV r l = cr.getV r l ∧ cr'.isEmpty r l = cr.isEmpty r l) ∧
    (cr.late = none → cr.pendingPf = none → cr.handler = none → ∃ trap, cr'.late = some (cPf, va, acc, trap) ∧ trap.cause = cPf)

/-- A write of a core to `n` bytes at a place has been performed: the core owns their words, and its L1's Read Copies of
them are updated where the write covers the word or the core owned it, else discarded (R54); every other owner and every
other Read Copy is as before. -/
def WordsTaken (s t : State) (core : Nat) (p : Place) (n : Nat) : Prop :=
  let me := ownerId s core
  let l1 := l1Of s core
  let copy := fun (u : State) (w : Nat) => (u.copies.getD l1 []).find? w
  ((∀ a, p ≠ .g a) → t.owners = s.owners ∧ t.copies = s.copies) ∧
  ∀ a, p = .g a →
    (∀ w ∈ wordsOf a n, t.owners.find? w = some me ∧
      (copy s w = none → copy t w = none) ∧
      (copy s w ≠ none → (a ≤ 4 * w ∧ 4 * w + 4 ≤ a + n) ∨ s.owners.find? w = some me →
        (copy t w).map (·.val) = some (BitVec.ofNat 32 (t.mem.nat (4 * w) 4))) ∧
      (copy s w ≠ none → ¬((a ≤ 4 * w ∧ 4 * w + 4 ≤ a + n) ∨ s.owners.find? w = some me) → copy t w = none)) ∧
    (∀ w, w ∉ wordsOf a n → t.owners.find? w = s.owners.find? w ∧ (copy t w).map (·.val) = (copy s w).map (·.val)) ∧
    ∀ m, m ≠ l1 → t.copies.find? m = s.copies.find? m

end Sys2Proof.Claims

/-- R54: the head of a Store Path is performed: a store writes its bytes and no others, and takes the words'
ownership; an atomic writes the value that R251 gives, takes its word's ownership, and its destination gets the value read;
the core's Read Copies of the words are updated or discarded; a marker leaves once the older loads are done (R57). A store or
atomic waits for the crew's older loads of its bytes by its own threads (R61; log 17). One whose page has been withdrawn since (R353) is performed
where its address is mapped by then, or waits (log 69). -/
def Obligations.StorePathPerform : Prop :=
  ∀ (b c : Nat) (s : State) (k : Block) (cr : Crew) (rest : List SpEntry), s.block? b = some k → s.crew? b c = some cr →
    let outside := fun (t : State) (p : Place) (n : Nat) => ∀ q : Place, p.meets n q 1 = false →
      readPlace t q 1 = readPlace s q 1
    let older := fun (seq : Nat) (p : Place) (n : Nat) (ths : Lanes) =>
      ∃ l ∈ cr.loads, l.seq < seq ∧ l.lanes &&& ths ≠ 0 ∧ ∃ r ∈ rangesOf l, r.1.meets r.2 p n = true
    (∀ seq p data va ths, cr.storePath = .store seq p data va ths :: rest →
      (older seq p data.length ths → exec (.storePathPerform b c) s = .next s) ∧
      (¬older seq p data.length ths → Astray s k p va .write → Waits (.storePathPerform b c) s b c cr va 1) ∧
      (¬older seq p data.length ths → noLadder s → ∀ q, Stands s k p va .write q → placeHere s q →
        ∃ t cr', exec (.storePathPerform b c) s = .next t ∧ t.crew? b c = some cr' ∧ cr' = { cr with storePath := rest } ∧
          readPlace t q data.length = data ∧ outside t q data.length ∧ WordsTaken s t k.core q data.length)) ∧
    (∀ seq p n aop vb vc dest va ths, cr.storePath = .atomic seq p n aop vb vc dest va ths :: rest →
      (older seq p n ths → exec (.storePathPerform b c) s = .next s) ∧
      (¬older seq p n ths → Astray s k p va .write → Waits (.storePathPerform b c) s b c cr va 1) ∧
      (¬older seq p n ths → noLadder s → aop < 13 → n = 4 ∨ n = 8 → ∀ q, Stands s k p va .write q → placeHere s q →
        ∃ t cr' new, exec (.storePathPerform b c) s = .next t ∧ t.crew? b c = some cr' ∧ cr'.storePath = rest ∧
          AtomicIs aop (8 * n) (leNat (readPlace s q n)) vb.toNat vc.toNat new ∧ readPlace t q n = leBytes n new ∧
          outside t q n ∧ WordsTaken s t k.core q n ∧
          (∀ d, dest = some d → Delivered cr cr' d (leNat (readPlace s q n))) ∧
          (dest = none → ∀ r l, l < 32 → cr'.getV r l = cr.getV r l ∧ cr'.isEmpty r l = cr.isEmpty r l))) ∧
    (∀ seq, cr.storePath = .marker seq .none :: rest → (∀ l ∈ cr.loads, seq ≤ l.seq) →
      exec (.storePathPerform b c) s = .next (s.setCrew b c { cr with storePath := rest })) ∧
    (∀ seq act, cr.storePath = .marker seq act :: rest → (∀ n d pd l, act ≠ .pooltake n d pd l) →
      (∃ l ∈ cr.loads, l.seq < seq) →
      exec (.storePathPerform b c) s = .next s)

namespace Sys2Proof.Claims

/-- Something holds a load back (R55, R246): an older load of one of its bytes, the lower half of its access, an older
acquire, or an older atomic of its threads on one of its bytes (R61; log 17). -/
def LoadHeld (cr : Crew) (l : Load) : Prop :=
  let meets := fun (p : Place) (n : Nat) => ∃ r ∈ rangesOf l, r.1.meets r.2 p n = true
  (∃ o ∈ cr.loads, o.seq < l.seq ∧ ∃ r ∈ rangesOf o, meets r.1 r.2) ∨
  (∃ o ∈ cr.loads, o.seq = l.seq ∧ o.dest.lane = l.dest.lane ∧ o.dest.reg < l.dest.reg) ∨
  (∃ a ∈ cr.acqs, a.seq < l.seq) ∨
  (∃ seq p n aop vb vc d va ths, .atomic seq p n aop vb vc d va ths ∈ cr.storePath ∧ seq < l.seq ∧ l.lanes &&& ths ≠ 0 ∧
    meets p n)

/-- The `n` bytes that a load gets (R55), and the Read Copies `ms` of all L1s as it leaves them, `ms'`: a byte of the crew's
youngest older store; else, of a global word under `pol=norm`, of the L1's Read Copy, which is allocated from the home where
there is none; else of the place itself. Copies of the L1 that would show part of an 8-byte store (R48) are taken anew, as after
an eviction (R59; log 18). -/
def BytesGot (s : State) (k : Block) (cr : Crew) (seq pol : Nat) (p : Place) (n : Nat) (ms ms' : NMap (NMap ReadCopy))
    (data : List Byte) : Prop :=
  let own := fun i => ownByte cr seq (p.add i)
  let l1 := l1Of s k.core
  let copy := fun (ms : NMap (NMap ReadCopy)) w => (ms.getD l1 []).find? w
  let home := fun w => ReadCopy.mk (BitVec.ofNat 32 (s.mem.nat (4 * w) 4)) (s.pairs.getD (w / 2) ⟨0, 0⟩)
  data.length = n ∧ (∀ i v, i < n → own i = some v → data[i]? = some v) ∧
  ((pol ≠ 0 ∨ ∀ a, p ≠ .g a) → ms' = ms ∧
    ∀ i v, own i = none → data[i]? = some v → readPlace s (p.add i) 1 = [v]) ∧
  ∀ a, pol = 0 → p = .g a →
    let took := fun y => ∃ i < n, own i = none ∧ y = a + i
    let held := fun w => (copy ms w).getD (home w)
    let torn := ∃ y z, took y ∧ took z ∧ (held (y / 4)).pair.count < (held (z / 4)).pair.count ∧
      (held (z / 4)).pair.last.testBit (z % 8) = true
    ∃ used : Nat → ReadCopy, (∀ w, (torn → used w = home w) ∧ (¬torn → used w = held w)) ∧
      (∀ i v, own i = none → data[i]? = some v → v = BitVec.ofNat 8 ((used ((a + i) / 4)).val.toNat / 256 ^ ((a + i) % 4))) ∧
      (∀ y, took y → copy ms' (y / 4) = some (used (y / 4))) ∧ (∀ w, (∀ y, took y → y / 4 ≠ w) → copy ms' w = copy ms w) ∧
      ∀ l, l ≠ l1 → ms'.find? l = ms.find? l

/-- An access of naturally aligned bytes, at most 8 (R48). -/
def naturally (n : Nat) (p : Place) : Prop := n ∣ 8 ∧ ∀ a, p = .g a → a % n = 0

/-- What a load's conversion makes of the code it read (R92, R249): the code itself; one conversion to the decode target; or,
with a scale byte, the exact product with its power of two rounded once. -/
def LoadGives (conv : LoadConv) (code sc v : Nat) : Prop :=
  (conv = .raw → v = code) ∧
  (∀ e d, conv = .fmt e d none → ∃ fl, ConvIs d e 0 0 false code 0 (v, fl)) ∧
  (∀ e d q, conv = .fmt e d (some q) →
    (sc = 255 ∨ (numOf e code).isNan = true → v = fmtNan d) ∧
    (sc ≠ 255 → ∀ n, numOf e code = .inf n → v = withSign d n (fmtInfMag d)) ∧
    (sc ≠ 255 → ∀ y, ratOf (numOf e code) = some y → ∃ z fl, ratOf z = some (y * 2 ^ ((sc : Int) - 128)) ∧
      (v, fl) = roundTo d 0 0 z false 0))

end Sys2Proof.Claims

/-- R55, R92, R246, R249: a pending load is performed once nothing holds it back, and not before; each byte, of the element
as of its scale, comes from the crew's own youngest older store, from a Read Copy, or from its home, of which a Read Copy is
then allocated, and the destination gets the code read or its conversion. (Waiting for its threads' older atomics, and when a
Read Copy may not be used, are readings: log 17, log 18; a load whose page has been withdrawn since is performed where its address is mapped by then, or waits: R353, log 69.)
R15: a result of another unit is delivered to its destination (log 92). -/
def Obligations.LoadPerform : Prop :=
  ∀ (b c idx : Nat) (s : State) (k : Block) (cr : Crew), s.block? b = some k → s.crew? b c = some cr →
    (∀ l, cr.loads[idx]? = some l → (∀ e d sc, l.conv = .fmt e d sc → fmtIsIeee d = true ∧ 8 * l.n = fmtBits e) →
      (LoadHeld cr l → exec (.loadPerform b c idx) s = .next s) ∧
      (¬LoadHeld cr l → Astray s k l.place l.va .read → Waits (.loadPerform b c idx) s b c cr l.va 0) ∧
      (¬LoadHeld cr l → ∀ p', Stands s k l.place l.va .read p' → ∀ q',
        (∀ e d q pol va, l.conv = .fmt e d (some (q, pol, va)) → Stands s k q va .read q') → naturally l.n p' →
        ∃ t cr' data sc v ms, exec (.loadPerform b c idx) s = .next t ∧
        t.crew? b c = some cr' ∧ cr'.loads = cr.loads.eraseIdx idx ∧ cr'.storePath = cr.storePath ∧ SameBytes s t ∧
        BytesGot s k cr l.seq l.pol p' l.n s.copies ms data ∧
        (∀ e d q pol va, l.conv = .fmt e d (some (q, pol, va)) → BytesGot s k cr l.seq pol q' 1 ms t.copies [sc]) ∧
        ((∀ e d q pol va, l.conv ≠ .fmt e d (some (q, pol, va))) → t.copies = ms) ∧
        LoadGives l.conv (leNat data) sc.toNat v ∧ Delivered cr cr' l.dest v)) ∧
    (∀ i r, idx = cr.loads.length + i → cr.returns[i]? = some r → ∃ t cr', exec (.loadPerform b c idx) s = .next t ∧
      t.crew? b c = some cr' ∧ cr'.returns = cr.returns.eraseIdx i ∧ cr'.loads = cr.loads ∧
      cr'.storePath = cr.storePath ∧ SameBytes s t ∧ Delivered cr cr' r.dest r.val)

/-- R56, R58, R59: an acquire that may complete discards exactly the Invalidation Set of its L1, the Read Copies of
words that none of the L1's cores owns; an eviction discards one Read Copy or one entry of the Ownership Registry. -/
def Sys2Proof.Claims.AcquireAndEvict : Prop :=
  (∀ (b c idx : Nat) (s : State) (k : Block) (cr : Crew) (a : Acq), s.block? b = some k → s.crew? b c = some cr →
    cr.acqs[idx]? = some a → acqReady cr a = true →
    let l1 := l1Of s k.core
    let owned := fun w => ∃ core ∈ l1Cores l1, s.owners.find? w = some (ownerId s core)
    ∃ t, exec (.acquireComplete b c idx) s = .next t ∧ SameBytes s t ∧ t.owners = s.owners ∧
      t.crew? b c = some { cr with acqs := cr.acqs.eraseIdx idx } ∧
      (∀ w, owned w → (t.copies.getD l1 []).find? w = (s.copies.getD l1 []).find? w) ∧
      (∀ w, ¬owned w → (t.copies.getD l1 []).find? w = none) ∧
      ∀ m, m ≠ l1 → t.copies.find? m = s.copies.find? m) ∧
  (∀ (l1 w : Nat) (s : State), l1 ≠ registryId → ∃ t, exec (.evict l1 w) s = .next t ∧
    t = { s with copies := t.copies } ∧ (t.copies.getD l1 []).find? w = none ∧
    (∀ v, v ≠ w → (t.copies.getD l1 []).find? v = (s.copies.getD l1 []).find? v) ∧
    ∀ m, m ≠ l1 → t.copies.find? m = s.copies.find? m) ∧
  (∀ (w : Nat) (s : State), ∃ t, exec (.evict registryId w) s = .next t ∧ t = { s with owners := t.owners } ∧
    t.owners.find? w = none ∧ ∀ v, v ≠ w → t.owners.find? v = s.owners.find? v)

/-- R56, R58, R59, R254: fences put their release into the Store Path and their acquire among those to complete; an acquire
that completes discards the stale Read Copies, and an eviction drops one copy or owner. -/
def Obligations.FencesAndAcquires : Prop := FenceIssue ∧ AcquireAndEvict

/-! ## Engines, copies and streams -/

namespace Sys2Proof.Claims

/-- An operation has been issued: it stands last among the engines' operations, and its crew counts it (R64); the
crew's registers, but for the vector registers `regs`, and everything else of it are as before. -/
def OpIssuedTo (regs : Nat → Nat → Prop) (s : State) (x : Cx) (cls : Nat) (kind : EngKind) (ready started : Bool) (t : State)
    (cr : Crew) : Prop :=
  (∃ o, t.ops = s.ops ++ [o] ∧ o.id = s.nextOp ∧ o.cls = cls ∧ o.blk = x.b ∧ o.issuers = [(x.c, x.cr.seq + 1)] ∧
    o.pkt = none ∧ o.lanes = x.act ∧ o.kind = kind ∧ o.ready = ready ∧ o.started = started ∧ o.moved = [] ∧
    o.stamped = false ∧ o.done = false ∧ o.fault = none) ∧
  t.nextOp = s.nextOp + 1 ∧ SameBytes s t ∧
  Kept { x.cr with seq := x.cr.seq + 1, issued := x.cr.issued.set cls ((s.nextOp :: x.cr.issued.getD cls []).take 256) } cr
    regs none1 none1

/-- As `OpIssuedTo`, for an operation without registers to fill. -/
def OpIssued : State → Cx → Nat → EngKind → Bool → Bool → State → Crew → Prop := OpIssuedTo none2

/-- Single bytes of pieces. -/
def bytesOf (ps : List (Place × Nat)) : List Place := ps.flatMap (fun p => (List.range p.2).map p.1.add)

/-- Bytes have been moved from `src` to `dst`, each place named once, and no other byte has changed. -/
def Moved (s t : State) (src dst : List Place) : Prop :=
  (∀ (i : Nat) (p q : Place), src[i]? = some p → dst[i]? = some q → readPlace t q 1 = readPlace s p 1) ∧
  ∀ q : Place, q ∉ dst → readPlace t q 1 = readPlace s q 1

/-- A write that no crew's Store Path performs (R64, R389): the words of the global bytes written have no owner, so each lies in
the Invalidation Set of every L1 that holds a Read Copy of it; every other owner, and every Read Copy, is as before. -/
def Disowned (s t : State) (dst : List Place) : Prop :=
  t.copies = s.copies ∧ (∀ a, .g a ∈ dst → t.owners.find? (a / 4) = none) ∧
  (∀ w, (∀ a, .g a ∈ dst → a / 4 ≠ w) → t.owners.find? w = s.owners.find? w) ∧
  ∀ a l1 c, .g a ∈ dst → (t.copies.getD l1 []).find? (a / 4) = some c → a / 4 ∈ invalSet t l1

/-- The stamp of a set's copy: the operands of the lowest crew that has arrived (R81; that the set's lowest may have exited
is DEDUCED, log 36). -/
def StampOfLowest (imm8 : Nat) (copies : List CopyArr) (st : Option (Nat × Nat × Nat)) : Prop :=
  ∀ a ∈ copies, (∀ b ∈ copies, a.crew ≤ b.crew) → st = a.stamp.map (fun q => (imm8, q.1, q.2))

/-- The fields of a layout record keep the limits of R70. -/
def RecordOk (n : Nat) : Prop :=
  let u := fun ofs len => bits n (8 * ofs) (8 * len)
  let ndim := bits n (8 * 0x32 + 2) 3
  canonical (u 0 8) = true ∧ 1 ≤ ndim ∧ ndim ≤ 5 ∧ bits n (8 * 0x32 + 5) 3 = 0 ∧
  (∀ d < 5, u (8 + 4 * d) 4 ≠ 0 ∧ (ndim ≤ d → u (8 + 4 * d) 4 = 1 ∧ u (0x2C + d) 1 = 1)) ∧
  2 ≤ bits n (8 * 0x33) 4 ∧ bits n (8 * 0x33) 4 ≤ 8 ∧ u 0x36 2 ≠ 0 ∧ u 0x38 4 ≠ 0 ∧ bits n (8 * 0x3C) 3 < ndim ∧
  bits n (8 * 0x3C + 3) 5 = 0 ∧ u 0x3D 3 ≠ 0

/-- A record breaks the limits of R72 or R73 for a block whose bays hold `size` bytes. -/
def RecordBad (l : Layout) (inf : InForce) (size : Nat) : Prop :=
  (∃ e, inf.entry = some e ∧ e.blk ≠ 0 ∧ (l.box.getD 0 1 % e.blk ≠ 0 ∨ l.esz ≠ 1 ∨ l.base % e.blk ≠ 0 ∨
    ∃ d < 4, 1 < l.ext.getD (d + 1) 1 ∧ l.str.getD d 0 * 16 % e.blk ≠ 0)) ∨
  l.stgsz < inf.total ∨ size < l.rbase + l.nstg * l.stgsz

/-- No launch has a ladder. -/
def noLadders (s : State) : Prop := ∀ e ∈ s.grids, e.2.ladder = none

end Sys2Proof.Claims

/-- R256, R257, R259, R260: what `copy`, `copyc`, `gather` and `waitcnt` leave when they issue. A `copyc` is the first, a
middle, or the last arrival of its set, or all of them in one. -/
def Obligations.CopyIssue : Prop :=
  ∀ (f : FmtE) (s : State) (x : Cx),
    let ds := f.sub.toNat % 8
    let ss := f.sub.toNat / 8 % 8
    let at_ := fun (sp v : Nat) => if sp = 0 then v else v % 2 ^ 32
    let seg : Seg := ⟨ds, at_ ds (x.uni f.a), ss, at_ ss (x.uni f.b), x.uni f.c % 2 ^ 32⟩
    let stamp := if f.sub.getLsbD 6 then some (f.imm8.toNat, at_ f.imm8.toNat (x.uniHi f.a), x.uniHi f.c) else none
    let cv := f.cv.toNat
    let v := x.blk.conv cv
    let seq := x.cr.seq + 1
    let arr : CopyArr := ⟨x.c, seq, seg.dst, seg.src, seg.len, stamp.map Prod.snd⟩
    (Ready (.copy f) s x → copyTrap x f = none → Runs (.copy f) s x (OpIssued s x 0 (.copy [seg] stamp) true false)) ∧
    (∀ set, Ready (.copyc f) s x → copyTrap x f = none → cv < slotBudget s x.blk → v.cset = some set →
      set.getLsbD x.c = true → v.copies = [] → v.copyFields = none → v.copyOp = none → awaited x.blk set [x.c] ≠ [] →
      Runs (.copyc f) s x (fun t cr => OpIssued s x 0 (.copy [] none) false false t cr ∧ ∃ k, t.block? x.b = some k ∧
        (k.conv cv).copies = [arr] ∧ (k.conv cv).copyOp = some s.nextOp ∧
        (k.conv cv).copyFields = some (f.sub.toNat, f.imm8.toNat))) ∧
    (∀ set, Ready (.copyc f) s x → copyTrap x f = none → cv < slotBudget s x.blk → v.cset = some set →
      set.getLsbD x.c = true → v.copies = [] → v.copyFields = none → v.copyOp = none → awaited x.blk set [x.c] = [] →
      (∀ o ∈ s.ops, o.id ≠ s.nextOp) →
      Runs (.copyc f) s x (fun t cr => OpIssued s x 0 (.copy [seg] stamp) true false t cr ∧ ∃ k, t.block? x.b = some k ∧
        (k.conv cv).copies = [] ∧ (k.conv cv).copyOp = none ∧ (k.conv cv).copyFields = none)) ∧
    (∀ set id o, Ready (.copyc f) s x → copyTrap x f = none → cv < slotBudget s x.blk → v.cset = some set →
      set.getLsbD x.c = true → (∀ a ∈ v.copies, a.crew ≠ x.c) → v.copyFields = some (f.sub.toNat, f.imm8.toNat) →
      v.copyOp = some id → op? s id = some o → awaited x.blk set (v.copies.map (·.crew) ++ [x.c]) ≠ [] →
      Runs (.copyc f) s x (fun t cr => SameBytes s t ∧
        Kept { x.cr with seq := seq, issued := x.cr.issued.set 0 ((id :: x.cr.issued.getD 0 []).take 256) } cr
          none2 none1 none1 ∧
        (∃ k, t.block? x.b = some k ∧ (k.conv cv).copies = v.copies ++ [arr] ∧ (k.conv cv).copyOp = some id ∧
          (k.conv cv).copyFields = v.copyFields) ∧
        t.ops = s.ops.map (fun q => if q.id = id then { q with issuers := q.issuers ++ [(x.c, seq)] } else q))) ∧
    (∀ set id o, Ready (.copyc f) s x → copyTrap x f = none → cv < slotBudget s x.blk → v.cset = some set →
      set.getLsbD x.c = true → (∀ a ∈ v.copies, a.crew ≠ x.c) → v.copyFields = some (f.sub.toNat, f.imm8.toNat) →
      v.copyOp = some id → op? s id = some o → awaited x.blk set (v.copies.map (·.crew) ++ [x.c]) = [] →
      (v.copies.map (·.crew)).Nodup → (∀ a ∈ v.copies, a.crew < 16) →
      Runs (.copyc f) s x (fun t cr => SameBytes s t ∧
        Kept { x.cr with seq := seq, issued := x.cr.issued.set 0 ((id :: x.cr.issued.getD 0 []).take 256) } cr
          none2 none1 none1 ∧
        (∃ k, t.block? x.b = some k ∧ (k.conv cv).copies = [] ∧ (k.conv cv).copyOp = none ∧ (k.conv cv).copyFields = none) ∧
        ∃ o', t.ops = s.ops.filter (fun q => q.id != id) ++ [o'] ∧ o'.ready = true ∧
          o'.issuers = o.issuers ++ [(x.c, seq)] ∧
          ∃ st, o'.kind = .copy ((v.copies ++ [arr]).map (fun a => ⟨ds, a.dst, ss, a.src, a.len⟩)) st ∧
            StampOfLowest f.imm8.toNat (v.copies ++ [arr]) st)) ∧
    (let size := 2 ^ (f.sub.toNat % 4)
     let base := x.uni f.b % 2 ^ 32
     let va := fun l => x.val f.a 2 l (fun c => wrapTo 64 c.toInt)
     Ready (.gather f) s x →
      (∀ l ∈ x.acts, va l % size = 0 ∧ (base + l * size) % size = 0 ∧
        base + l * size + size ≤ x.blk.bays.length * bayBytes (s.core x.blk.core).split) →
      (f.sub.getLsbD 2 = true → x.g.ladder = none) →
      Runs (.gather f) s x (OpIssued s x 3
        (.gather (f.sub.getLsbD 2) (f.sub.toNat % 4) base (x.acts.map (fun l => (l, va l)))) true false)) ∧
    (let cls := f.cls.toNat
     let young := (x.cr.issued.getD cls []).take f.imm8.toNat
     let fresh := ∀ l ∈ x.acts, ∀ th, x.cr.thread? l = some th → ∀ c ops, th.wait ≠ some (.cnt c ops)
     (Ready (.waitcnt f) s x → fresh → (∀ o ∈ outstanding s x.b x.c cls, o ∈ young) →
       (∀ e ∈ x.cr.faults, e.cls = cls → e.op ∈ young) →
       Completes (.waitcnt f) s x
         (Kept { x.cr with seq := seq, acqs := x.cr.acqs ++ [⟨seq, false⟩] } · none2 none1 none1)) ∧
     (Ready (.waitcnt f) s x → fresh → ∀ o ∈ outstanding s x.b x.c cls, o ∉ young →
       ∃ t cr, exec (.waitcnt f) s = .next t ∧ t.crew? x.b x.c = some cr ∧ SameBytes s t ∧
         ∀ l ∈ x.acts, ∀ th, x.cr.thread? l = some th →
           ∃ th' ops, cr.thread? l = some th' ∧ th'.pc = th.pc ∧ th'.wait = some (.cnt cls ops) ∧ o ∈ ops))

/-- R70, R73–R76, R258: `stream` reads and checks its record and starts its channel; a record that is not readable, breaks a limit
or does not fit raises `PROT` with its address and starts nothing, and a page fault of it waits in place; `srel` puts its
release into the Store Path, and the channel counts it when it leaves, or raises `PROT` where there is no stage to give up. -/
def Obligations.StreamIssue : Prop :=
  (∀ (f : FmtE) (s s1 s2 : State) (x : Cx) (i : Instr) (dir n : Nat) (l : Layout) (b : Option (List Byte)) (inf : InForce),
    (i = .streamF f ∧ dir = 0) ∨ (i = .streamD f ∧ dir = 1 ∧ x.g.ladder = none) → Ready i s x → x.uni f.a % 64 = 0 →
    chanOf (s.core x.blk.core) dir = none → x.cr.storePath = [] → fetchNat s x.g.ctx (x.uni f.a) 64 = .ok (n, s1) →
    layoutOf n = some l → selectFormat s1 x.g.ctx l = .ok (b, s2) → inForce l b = some inf →
    layoutFits s2 x.blk l inf = true →
    Runs i s x (fun t cr => OpIssued s x 1 (.stream dir x.blk.core) true true t cr ∧
      (∃ ch, chanOf (t.core x.blk.core) dir = some ch ∧ ch.op = s.nextOp ∧ ch.blk = x.b ∧ ch.rec_ = x.uni f.a ∧
        ch.start = x.uni f.b % 2 ^ 32 ∧ ch.lay = l ∧ ch.fmt = b ∧ ch.moved = 0 ∧ ch.released = 0 ∧ ch.handed = 0 ∧
        ch.ptr = 0) ∧
      chanOf (t.core x.blk.core) (1 - dir) = chanOf (s.core x.blk.core) (1 - dir) ∧
      ∃ k, t.block? x.b = some k ∧
        (dir = 0 → l.setwin = true → inf.entry = none → k.wins.find? l.win = none) ∧
        (dir = 0 → l.setwin = true → ∀ e, inf.entry = some e →
          k.wins.find? l.win = some ⟨l.rbase, l.nstg * l.stgsz, e.efmt, e.blk, inf.sofs, l.stgsz⟩) ∧
        (dir = 1 ∨ l.setwin = false → k.wins = x.blk.wins))) ∧
  (∀ (f : FmtE) (s : State) (x : Cx) (i : Instr) (dir : Nat), (i = .streamF f ∧ dir = 0) ∨ (i = .streamD f ∧ dir = 1) →
    Ready i s x → calm x → chanOf (s.core x.blk.core) dir = none → x.cr.storePath = [] →
    let a := x.uni f.a
    let prot := Raised i s x (trapOf x cProt a 0 0)
    (a % 64 ≠ 0 → Raised i s x (trapOf x cAlign a 0 0)) ∧
    (a % 64 = 0 →
      (∀ e, fetchNat s x.g.ctx a 64 = .error e → e.cause ≠ cPf → prot) ∧
      (∀ e, fetchNat s x.g.ctx a 64 = .error e → e.cause = cPf →
        exec i s = .next (s.setCrew x.b x.c { x.cr with pendingPf := some (e.va, 0, 2) })) ∧
      (∀ n s1, fetchNat s x.g.ctx a 64 = .ok (n, s1) →
        (¬RecordOk n → prot) ∧ (RecordOk n → ∃ l, layoutOf n = some l ∧
          (l.ovr = true → ∀ e, selectFormat s1 x.g.ctx l = .error e → e.cause ≠ cPf → prot) ∧
          (∀ b s2, selectFormat s1 x.g.ctx l = .ok (b, s2) → (∀ bs, b = some bs → fmtEntry bs = none → prot) ∧
            (∀ inf, inForce l b = some inf → RecordBad l inf (x.blk.bays.length * bayBytes (s.core x.blk.core).split) →
              prot)))))) ∧
  (∀ (f : FmtE) (s : State) (x : Cx) (ch : Channel),
    let marked := fun (dir : Nat) => (Kept { x.cr with
      seq := x.cr.seq + 1, storePath := x.cr.storePath ++ [.marker (x.cr.seq + 1) (.srel dir)] } · none2 none1 none1)
    (Ready (.srelF f) s x → chanOf (s.core x.blk.core) 0 = some ch → ch.blk = x.b →
      ch.released + pendingRel x.blk 0 < ch.lay.iter → ch.released + pendingRel x.blk 0 < ch.moved →
      Completes (.srelF f) s x (marked 0)) ∧
    (Ready (.srelD f) s x → chanOf (s.core x.blk.core) 1 = some ch → ch.blk = x.b →
      ch.handed + pendingRel x.blk 1 < ch.lay.iter → ch.handed + pendingRel x.blk 1 < ch.moved + ch.lay.nstg →
      Completes (.srelD f) s x (marked 1)) ∧
    (∀ i dir, (i = .srelF f ∧ dir = 0) ∨ (i = .srelD f ∧ dir = 1) → Ready i s x → calm x →
      (chanOf (s.core x.blk.core) dir = none ∨ (chanOf (s.core x.blk.core) dir = some ch ∧ (ch.blk ≠ x.b ∨
        ch.lay.iter ≤ (if dir = 0 then ch.released else ch.handed) + pendingRel x.blk dir))) → RaisedOpen i s x cProt 0)) ∧
  (∀ (b c dir seq : Nat) (s : State) (k : Block) (cr : Crew) (rest : List SpEntry) (ch : Channel), dir < 2 →
    s.block? b = some k → s.crew? b c = some cr → cr.storePath = .marker seq (.srel dir) :: rest →
    (∀ l ∈ cr.loads, seq ≤ l.seq) → chanOf (s.core k.core) dir = some ch → ch.blk = b →
    ∃ t, exec (.storePathPerform b c) s = .next t ∧ SameBytes s t ∧
      t.crew? b c = some { cr with storePath := rest } ∧
      chanOf (t.core k.core) dir = some (if dir = 0 then { ch with released := ch.released + 1 }
        else { ch with handed := ch.handed + 1 }))

/-- R64, R65, R80, R82, R259: an engine's command starts, moves bytes part by part, writes its stamp last and
completes; the global words that it writes have no owner from then on; a crew's counter falls in issue order only. -/
def Obligations.EngineProgress : Prop :=
  ∀ (op : Nat) (s : State) (o : EngOp), op? s op = some o →
    let k := if o.pkt.isSome then none else s.block? o.blk
    let going := o.started = true ∧ o.done = false ∧ o.fault = none ∧ o.pf = none
    (opMayStart s o = true → o.fault = none → o.pf = none → (∀ c d g n p l, o.kind ≠ .coll c d g n p l) →
      ∃ t, exec (.engineCommandStart op) s = .next t ∧ SameBytes s t ∧
        ∃ o', op? t op = some o' ∧ o'.started = true ∧ o'.kind = o.kind ∧ o'.done = o.done ∧ o'.moved = o.moved) ∧
    (∀ segs st seg g ofs len s1 s2 src dst, going → o.kind = .copy segs st → segs[seg]? = some g → 0 < len → len ≤ 65536 →
      ofs + len ≤ g.len → (∀ m ∈ o.moved, partsMeet m seg ofs len = false) → noLadders s →
      engPlaces s (opCtx s o) k g.ssp (g.src + ofs) len .read = .ok (src, s1) →
      engPlaces s1 (opCtx s o) k g.dsp (g.dst + ofs) len .write = .ok (dst, s2) →
      (bytesOf dst).Nodup → (∀ p ∈ bytesOf dst, inSource s2 (opCtx s o) k g p = false) →
      ∃ t, exec (.copyOperation op seg ofs len) s = .next t ∧ Moved s t (bytesOf src) (bytesOf dst) ∧ Disowned s t (bytesOf dst) ∧
        ∃ o', op? t op = some o' ∧ o' = { o with moved := o.moved ++ [(seg, ofs, len)] }) ∧
    (∀ scat size sp addrs lane va b s1 s2 gl lo ofs len, going → o.kind = .gather scat size sp addrs →
      addrs.find? (fun e => e.1 == lane) = some (lane, va) → s.block? o.blk = some b →
      (∀ m ∈ o.moved, m.1 ≠ lane) → noLadders s →
      let n := 2 ^ (size % 4)
      engPlaces s (opCtx s o) (some b) 0 va n (if scat then .write else .read) = .ok (gl, s1) →
      engPlaces s (opCtx s o) (some b) 1 (sp + lane * n) n (if scat then .read else .write) = .ok (lo, s2) →
      (bytesOf gl).Nodup → (bytesOf lo).Nodup →
      -- a higher lane has written the same bytes
      let higher := ∃ e ∈ addrs, lane < e.1 ∧ (∃ m ∈ o.moved, m.1 = e.1) ∧
        ∃ s3, engPlaces s (opCtx s o) (some b) 0 e.2 n .write = .ok (gl, s3)
      ∃ t, exec (.copyOperation op lane ofs len) s = .next t ∧
        (scat = false ∨ ¬higher → Moved s t (bytesOf (if scat then lo else gl)) (bytesOf (if scat then gl else lo)) ∧
          Disowned s t (bytesOf (if scat then gl else lo))) ∧
        (scat = true → higher → SameBytes s t) ∧
        ∃ o', op? t op = some o' ∧ o' = { o with moved := o.moved ++ [(lane, 0, n)] }) ∧
    (∀ segs sp a v dst s1, going → o.kind = .copy segs (some (sp, a, v)) → o.stamped = false →
      (o.moved.map (fun m => m.2.2)).sum = (segs.map (·.len)).sum → noLadders s →
      engPlaces s (opCtx s o) k sp a 8 .write = .ok (dst, s1) → (bytesOf dst).Nodup →
      ∃ t, exec (.stampWrite op) s = .next t ∧ (bytesOf dst).flatMap (fun p => readPlace t p 1) = leBytes 8 v ∧
        (∀ q, q ∉ bytesOf dst → readPlace t q 1 = readPlace s q 1) ∧ Disowned s t (bytesOf dst) ∧
        op? t op = some { o with stamped := true }) ∧
    (going → opFinished s o = true → o.pkt = none → (∀ q ∈ s.ops, q.id = op → q = o) →
      ∃ t, exec (.engineOperationComplete op) s = .next t ∧ SameBytes s t ∧ ∀ c n, o.seqOf c = some n →
        (op ∈ outstanding t o.blk c o.cls ↔ ∃ q ∈ opsOf s o.blk c o.cls, q.id ≠ op ∧ q.done = false ∧
          (q.seqOf c).getD 0 ≤ n)) ∧
    (∀ va acc, o.fault = some (va, acc) → o.done = false → o.pkt = none →
      (∀ i ∈ o.issuers, ∃ cr, s.crew? o.blk i.1 = some cr ∧ cr.retired = false) →
      ∃ t, exec (.channelProtectionStop op) s = .next t ∧ SameBytes s t ∧ (∀ q, op? t op = some q → q.done = true) ∧
        ∀ i ∈ o.issuers, ∀ cr, s.crew? o.blk i.1 = some cr →
          ∃ fs, t.crew? o.blk i.1 = some { cr with faults := cr.faults ++ fs } ∧ ⟨op, i.2, o.cls, va, acc⟩ ∈ fs ∧
            ∀ e ∈ fs, e.op = op ∧ e.cls = o.cls ∧ e.taddr = va ∧ e.acc = acc)

/-- R71, R72, R75–R77: a channel's step moves bytes of its iteration between the stage and memory, one after the other,
or passes over an empty iteration; R74: it is idle once its operation is done and its stages are released. -/
def Obligations.ChannelSteps : Prop :=
  (∀ (core dir len : Nat) (s : State) (ch : Channel) (o : EngOp) (b : Block), dir < 2 →
    let i := if dir = 0 then Instr.fillIteration core len else Instr.drainIteration core len
    chanOf (s.core core) dir = some ch → op? s ch.op = some o → s.block? ch.blk = some b → o.done = false →
    o.fault = none → o.pf = none → ch.moved < ch.lay.iter →
    (if dir = 0 then ch.moved < ch.released + ch.lay.nstg else ch.moved < ch.handed) → (ch.stopped = false ∨ ch.ptr ≠ 0) →
    (ch.lay.boxCount ≤ ch.start + ch.moved * ch.lay.nstep → ∃ t, exec i s = .next t ∧ SameBytes s t ∧
      chanOf (t.core core) dir = some { ch with moved := ch.moved + 1, ptr := 0 }) ∧
    (∀ f s1, ch.start + ch.moved * ch.lay.nstep < ch.lay.boxCount → inForce ch.lay ch.fmt = some f →
      moveStage s b (opCtx s o) ch f (ch.start + ch.moved * ch.lay.nstep) dir ch.ptr (min (len + 1) (f.total - ch.ptr)) =
        .ok s1 →
      let end_ := ch.ptr + min (len + 1) (f.total - ch.ptr)
      let ptr := if ch.lay.elemBytes ≤ end_ ∧ end_ < f.sofs then f.sofs else end_
      ∃ t, exec i s = .next t ∧ SameBytes s1 t ∧ chanOf (t.core core) dir =
        some (if f.total ≤ ptr then { ch with moved := ch.moved + 1, ptr := 0 } else { ch with ptr := ptr }))) ∧
  (∀ (s s1 : State) (k : Block) (ctx idx o pa va : Nat) (ch : Channel) (f : InForce) (q : Place), o < f.total →
    bayPlace s1 k (ch.lay.stage ch.moved + o) = some q → noLadders s1 →
    (boxByte s ctx ch.lay f idx o .read = .ok (some (pa, va), s1) →
      ∃ t, moveStage s k ctx ch f idx 0 o 1 = .ok t ∧ readPlace t q 1 = [s.mem.read1 pa] ∧
        ∀ p, p ≠ q → readPlace t p 1 = readPlace s p 1) ∧
    (boxByte s ctx ch.lay f idx o .write = .ok (some (pa, va), s1) →
      ∃ t, moveStage s k ctx ch f idx 1 o 1 = .ok t ∧ [t.mem.read1 pa] = readPlace s q 1 ∧ Disowned s t [.g pa] ∧
        ∀ p, p ≠ .g pa → readPlace t p 1 = readPlace s p 1)) ∧
  (∀ (core dir : Nat) (s : State) (ch : Channel), dir < 2 → chanOf (s.core core) dir = some ch →
    (∀ o, op? s ch.op = some o → o.done = true) → (dir = 0 → ch.stopped = true ∨ ch.moved ≤ ch.released) →
    ∃ t, exec (.channelIdle core dir) s = .next t ∧ SameBytes s t ∧ chanOf (t.core core) dir = none ∧
      lastChan (t.core core) dir = some { ch with done := true })

/-! ## Barriers, dependent kernels and monitors -/

namespace Sys2Proof.Claims

/-- The threads of a crew that wait as `w` stand at the slot that follows and wait no more; the others are as before. -/
def Resumed (old new : Crew) (w : Wait) : Prop :=
  let waits := fun l => (old.lanesWhere (fun t => t.wait == some w)).getLsbD l
  ∀ l th, l < 32 → old.thread? l = some th → ∃ th', new.thread? l = some th' ∧
    (waits l = true → th'.pc = slotAddr (slotIndex th.pc + 1) ∧ th'.wait = none) ∧ (waits l = false → th' = th)

/-- The active threads wait at the instruction as `w`; the path's other threads go on. -/
def Parked (x : Cx) (cr : Crew) (w : Wait) : Prop :=
  ∀ l th, x.cr.thread? l = some th →
    (x.act.getLsbD l = true → ∃ th', cr.thread? l = some th' ∧ th'.pc = th.pc ∧ th'.wait = some w) ∧
    (x.lanes.getLsbD l = true → x.act.getLsbD l = false → ∃ th', cr.thread? l = some th' ∧ th'.pc = x.nextPc ∧
      th'.wait = none) ∧
    (x.lanes.getLsbD l = false → x.act.getLsbD l = false → cr.thread? l = some th)

/-- Every register of a crew, in the 32 lanes, is as before. -/
def SameRegs (old new : Crew) : Prop :=
  (∀ r l, l < 32 → new.getV r l = old.getV r l ∧ new.isEmpty r l = old.isEmpty r l) ∧
  (∀ r, new.getS r = old.getS r ∧ new.getP r = old.getP r) ∧ new.getFstat = old.getFstat

/-- The threads of a crew whose wait meets `p` stand at the slot that follows and wait no more; the others stand and wait as
before. -/
def Released (old new : Crew) (p : Wait → Prop) : Prop :=
  ∀ l th, l < 32 → old.thread? l = some th → ∃ th', new.thread? l = some th' ∧ th'.dctr = th.dctr ∧ th'.ltid = th.ltid ∧
    ((∃ w, th.wait = some w ∧ p w) → th'.pc = slotAddr (slotIndex th.pc + 1) ∧ th'.wait = none) ∧
    ((∀ w, th.wait = some w → ¬p w) → th'.pc = th.pc ∧ (th'.wait = none ↔ th.wait = none))

/-- A wait at generation `gen` of a barrier; with `own`, also that of the arrival `seq` which is counted now. -/
def atBar (scp cv gen : Nat) (own : Prop) (seq : Nat) : Wait → Prop
  | .bar p v q g => p = scp ∧ v = cv ∧ (g = some gen ∨ (own ∧ g = none ∧ q = seq))
  | _ => False

/-- A crew whose waits meet `p` goes on and acquires (R262); any other stays as it is. Registers are as before. -/
def BarReleased (old new : Crew) (p : Wait → Prop) : Prop :=
  Released old new p ∧ SameRegs old new ∧
  ((∃ l th w, l < 32 ∧ old.thread? l = some th ∧ th.wait = some w ∧ p w) → new.acqs = old.acqs ++ [⟨old.seq + 1, false⟩]) ∧
  ((∀ l th w, l < 32 → old.thread? l = some th → th.wait = some w → ¬p w) → new.acqs = old.acqs)

/-- Every crew of every block stands and waits as before. -/
def NobodyGoes (s t : State) : Prop :=
  ∀ m kb j cj, s.block? m = some kb → kb.crews.find? j = some cj → ∃ kb' cj', t.block? m = some kb' ∧
    kb'.crews.find? j = some cj' ∧ BarReleased cj cj' (fun _ => False)

/-- The phase order of the Serial Phase Buffer (R68). -/
def spbLe (a b : SpbEntry) : Prop := a.ltid.toNat < b.ltid.toNat ∨ (a.ltid = b.ltid ∧ a.count ≤ b.count)

/-- Entries of the Serial Phase Buffer are applied one after the other, each as the atomic it names at its place; an entry
with no place changes nothing (R68, R251). -/
def SpbApplied (at_ : Nat → Option Place) : List SpbEntry → State → State → Prop
  | [], s, t => SameBytes s t
  | e :: es, s, t => ∃ u, SpbApplied at_ es u t ∧ (at_ e.ofs = none → SameBytes s u) ∧
      ∀ q, at_ e.ofs = some q → ∃ new,
        AtomicIs e.aop (8 * 2 ^ e.w) (leNat (readPlace s q (2 ^ e.w))) e.operand.toNat 0 new ∧
        readPlace u q (2 ^ e.w) = leBytes (2 ^ e.w) new ∧
        ∀ r : Place, q.meets (2 ^ e.w) r 1 = false → readPlace u r 1 = readPlace s r 1

/-- A block's phase ends: its Serial Phase Buffer is applied in the order of its keys and is empty (R68). -/
def PhaseEnds (s t : State) (b : Nat) (k : Block) : Prop :=
  (∃ es : List SpbEntry, es.Perm k.spb ∧ es.Pairwise spbLe ∧ SpbApplied (bayPlace s k) es s t) ∧
  (t.block? b).map (·.spb) = some []

end Sys2Proof.Claims

/-- R255, R262, R264: each issue of `bar` with an active lane puts the crew's arrival with its release into the Store Path and
notes it in the active threads; `bar.wait` parks these until the generation that the arrival belongs to completes,
`bar.arrive` goes on; a barrier of blocks takes its count. `cset` sets the crews of a core barrier. (That every issue is an
arrival, and that only the active threads of the issue wait, is the model's choice: log 71.) -/
def Obligations.BarrierIssue : Prop :=
  ∀ (f : FmtE) (s : State) (x : Cx),
    let scp := f.scp.toNat
    let cv := f.cv.toNat
    let n := if f.b = Opr.zero then 0 else x.uni f.b
    let unit := barUnit scp x.blk.core
    let i := barInst s x.blk.grid scp unit cv
    let v := x.blk.conv cv
    let sound := if scp = 1 then cv < slotBudget s x.blk ∧ v.sig = none ∧ v.copies = []
      else cv < barAlloc x.g scp ∧ 0 < n ∧ n < 2 ^ 32 ∧ (∀ m, i.count = some m → m = n)
    let seq := x.cr.seq + 1
    let noted := x.cr.updThreads x.act (fun t => { t with bars := t.bars ++ [(scp, cv, seq, none)] })
    let post := fun (t : State) (cr : Crew) => SameBytes s t ∧
      Kept { x.cr with seq := seq, storePath := x.cr.storePath ++ [.marker seq (.bar scp cv n)] } cr none2 none1 none1 ∧
      (∀ l th, x.act.getLsbD l = true → x.cr.thread? l = some th → ∃ th', cr.thread? l = some th' ∧
        th'.bars = th.bars ++ [(scp, cv, seq, none)]) ∧
      (scp ≠ 1 → (barInst t x.blk.grid scp unit cv) = { i with count := some n })
    (Ready (.bar f) s x → sound → f.sub.getLsbD 0 = false →
      ∃ t cr, exec (.bar f) s = .next t ∧ t.crew? x.b x.c = some cr ∧ Parked x cr (.bar scp cv seq none) ∧ post t cr) ∧
    (Ready (.bar f) s x → sound → f.sub.getLsbD 0 = true → RunsFrom (.bar f) s x noted post) ∧
    (Ready (.cset f) s x → cv < slotBudget s x.blk → 0 < x.uni f.a →
      x.uni f.a < 2 ^ ((x.variant.map (·.crews)).getD 0) → v.sig = none → v.copies = [] → v.barArrived = [] →
      (∀ e ∈ x.blk.crews, ∀ q m, SpEntry.marker q (.bar 1 cv m) ∉ e.2.storePath) →
      Runs (.cset f) s x (fun t cr => SameBytes s t ∧ Kept x.cr cr none2 none1 none1 ∧ ∃ k, t.block? x.b = some k ∧
        k.conv cv = { v with cset := some (BitVec.ofNat 16 (x.uni f.a)) } ∧ ∀ c, c ≠ cv → k.conv c = x.blk.conv c))

/-- R68, R262: when a crew's arrival leaves the Store Path, the crew has arrived. At a core barrier nobody goes on while a
participant is missing; with the last, the block's phase ends, the waiting threads of every crew go on and acquire, and the
next generation begins. At a barrier of a quad, a die, the package or the pod, the block arrives, and its phase ends, with
the last of its crews; the generation completes when its count of blocks has arrived, and the waiting threads of all the
unit's blocks go on and acquire. A phase's end applies the Serial Phase Buffer entry by entry in the order of its keys. (That
a crew has arrived with the marker of one issue, though threads of it have not executed `bar`, and that the arrivals of crews
that have exited since stand, is the model's choice: log 71.) -/
def Obligations.BarrierCompletion : Prop :=
  ∀ (b c scp cv cnt seq : Nat) (s : State) (k : Block) (cr : Crew) (rest : List SpEntry),
    s.block? b = some k → s.crew? b c = some cr → cr.storePath = .marker seq (.bar scp cv cnt) :: rest →
    (∀ l ∈ cr.loads, seq ≤ l.seq) → (∀ g, s.grid? k.grid = some g → g.cutCores.contains k.core = false) →
    (∀ e ∈ k.spb, e.aop < 13 ∧ (e.w = 2 ∨ e.w = 3)) →
    let goes := fun (t : State) (m j gen : Nat) (cj : Crew) => ∃ kb' cj', t.block? m = some kb' ∧
      kb'.crews.find? j = some cj' ∧ BarReleased cj cj' (atBar scp cv gen (m = b ∧ j = c) seq)
    (scp = 1 →
      let v := k.conv cv
      let arrived := fun j => j = c ∨ j ∈ v.barArrived
      ((∃ j ∈ barCrewsOf k v, ¬arrived j) → ∃ t k', exec (.storePathPerform b c) s = .next t ∧ SameBytes s t ∧
        NobodyGoes s t ∧ t.block? b = some k' ∧ (∀ j, j ∈ (k'.conv cv).barArrived ↔ arrived j) ∧
        (k'.conv cv).barGen = v.barGen) ∧
      ((∀ j ∈ barCrewsOf k v, arrived j) → ∃ t k', exec (.storePathPerform b c) s = .next t ∧ t.block? b = some k' ∧
        PhaseEnds s t b k ∧ (k'.conv cv).barArrived = [] ∧ (k'.conv cv).barGen = v.barGen + 1 ∧
        ∀ j cj, k.crews.find? j = some cj → goes t b j v.barGen cj)) ∧
    (2 ≤ scp → scp ≤ 5 →
      let key := 512 * scp + cv
      let unit := barUnit scp k.core
      let i := barInst s k.grid scp unit cv
      let n := i.count.getD cnt
      let arrived := fun j => j = c ∨ j ∈ k.barCrews.getD key []
      let whole := b ∉ i.blocks ∧ ∀ j ∈ liveCrews k, arrived j
      (¬whole → ∃ t k', exec (.storePathPerform b c) s = .next t ∧ SameBytes s t ∧ NobodyGoes s t ∧
        t.block? b = some k' ∧ (∀ j, j ∈ k'.barCrews.getD key [] ↔ arrived j) ∧
        barInst t k.grid scp unit cv = { i with count := some n }) ∧
      (whole → i.blocks.length + 1 < n → ∃ t, exec (.storePathPerform b c) s = .next t ∧
        PhaseEnds s t b k ∧ NobodyGoes s t ∧
        barInst t k.grid scp unit cv = { i with count := some n, blocks := i.blocks ++ [b] }) ∧
      (whole → n ≤ i.blocks.length + 1 → ∃ t, exec (.storePathPerform b c) s = .next t ∧
        PhaseEnds s t b k ∧
        barInst t k.grid scp unit cv = { i with blocks := [], count := none, gen := i.gen + 1 } ∧
        ∀ m kb j cj, s.block? m = some kb → kb.grid = k.grid → kb.st = .resident → barUnit scp kb.core = unit →
          kb.crews.find? j = some cj → goes t m j i.gen cj))

/-- R57, R265: `trigger` puts its release into the Store Path and counts when it leaves, as an exit does with its own; a block
has triggered once every crew has, and the last crew's exit first ends the block's last phase (R68); `wait.dep` goes on, with
an acquire, once every block of the producer has triggered or ended, and otherwise waits for the release. -/
def Obligations.DependentKernels : Prop :=
  let triggers := fun (k k' : Block) => k'.triggered = true ↔ k.triggered = true ∨ ∀ e ∈ k'.crews, e.2.triggered = true ∨
    (e.2.allExited = true ∧ ∀ q, SpEntry.marker q .exit ∉ e.2.storePath)
  (∀ (f : FmtE) (s : State) (x : Cx),
    let seq := x.cr.seq + 1
    (Ready (.trigger f) s x → Completes (.trigger f) s x
      (Kept { x.cr with seq := seq, storePath := x.cr.storePath ++ [.marker seq .trigger] } · none2 none1 none1)) ∧
    (Ready (.waitDep f) s x → producerReady s x.g = true → Completes (.waitDep f) s x
      (Kept { x.cr with seq := seq, acqs := x.cr.acqs ++ [⟨seq, false⟩] } · none2 none1 none1)) ∧
    (Ready (.waitDep f) s x → producerReady s x.g = false → ∃ t cr, exec (.waitDep f) s = .next t ∧
      t.crew? x.b x.c = some cr ∧ SameBytes s t ∧ SameRegs x.cr cr ∧ Parked x cr .waitDep)) ∧
  (∀ (b c seq : Nat) (s : State) (k : Block) (cr : Crew) (rest : List SpEntry), s.block? b = some k →
    s.crew? b c = some cr → cr.storePath = .marker seq .trigger :: rest → (∀ l ∈ cr.loads, seq ≤ l.seq) →
    ∃ t k', exec (.storePathPerform b c) s = .next t ∧ SameBytes s t ∧ t.block? b = some k' ∧
      (k'.crews.find? c).map (·.triggered) = some true ∧
      triggers k k') ∧
  (∀ (b c seq : Nat) (s : State) (k : Block) (cr : Crew) (rest : List SpEntry), s.block? b = some k →
    s.crew? b c = some cr → cr.storePath = .marker seq .exit :: rest → (∀ l ∈ cr.loads, seq ≤ l.seq) →
    (∀ e ∈ k.spb, e.aop < 13 ∧ (e.w = 2 ∨ e.w = 3)) →
    ∃ t k', exec (.storePathPerform b c) s = .next t ∧ t.block? b = some k' ∧
      (k'.crews.find? c).map (·.storePath) = some rest ∧ triggers k k' ∧
      let last := ∀ e ∈ k'.crews, e.2.allExited = true ∧ ∀ q, SpEntry.marker q .exit ∉ e.2.storePath
      (last → PhaseEnds s t b k) ∧ (¬last → SameBytes s t)) ∧
  (∀ (b c : Nat) (s : State) (k : Block) (cr : Crew) (g : Grid), s.block? b = some k → s.crew? b c = some cr →
    s.grid? k.grid = some g →
    (∃ l th, l < 32 ∧ cr.thread? l = some th ∧ th.wait = some .waitDep) →
    (producerReady s g = true → ∃ t cr', exec (.waitDepRelease b c) s = .next t ∧ SameBytes s t ∧
      t.crew? b c = some cr' ∧ Resumed cr cr' .waitDep ∧ SameRegs cr cr' ∧
      cr'.acqs = cr.acqs ++ [⟨cr.seq + 1, false⟩]) ∧
    (producerReady s g = false → exec (.waitDepRelease b c) s = .next s)) ∧
  (∀ (s : State) (g : Grid), producerReady s g = true ↔ ∀ p pg, g.producer = some p → s.grid? p = some pg →
    (pg.st ≠ .running ∨ pg.x * pg.y * pg.z ≤ pg.launched) ∧
      ∀ e ∈ s.blocks, e.2.grid = p → e.2.triggered = true ∨ e.2.st = .ended)

/-- R83, R261: `monarm` names the crew's monitored word; `monwait` sets its predicate and acquires when the word meets
the condition, and otherwise parks until a wake finds that it may go on, or the timeout expires. (A read that fails finds
nothing: log 109.) -/
def Obligations.Monitors : Prop :=
  let met := fun (cond w b : Nat) => if cond = 0 then decide (b ≤ w) else if cond = 1 then decide (w = b) else decide (w ≠ b)
  (∀ (f : FmtE) (s s1 : State) (x : Cx) (w : Nat),
    let sp := f.imm8.toNat % 8
    let a := if sp = 0 then x.uni f.a else x.uni f.a % 2 ^ 32
    let seq := x.cr.seq + 1
    a % 8 = 0 → monRead s x.g.ctx x.blk sp a = .ok (w, s1) →
    (Ready (.monarm f) s x → (∀ m, x.cr.monitor = some m → m.parked = none) → Runs (.monarm f) s x (fun t cr => SameBytes s t ∧
      Kept { x.cr with monitor := some ⟨a, sp, none⟩ } cr none2 none1 none1)) ∧
    (Ready (.monwait f) s x → (∀ m, x.cr.monitor = some m → m.parked = none) → met f.sub.toNat w (x.uni f.b) = true →
      Runs (.monwait f) s x (fun t cr => SameBytes s t ∧ PathPred x f.pd true cr ∧
        Kept { x.cr with monitor := some ⟨a, sp, none⟩, seq := seq, acqs := x.cr.acqs ++ [⟨seq, false⟩] } cr
          none2 none1 (destP x f.pd))) ∧
    (Ready (.monwait f) s x → (∀ m, x.cr.monitor = some m → m.parked = none) → met f.sub.toNat w (x.uni f.b) = false →
      ∃ t cr p, exec (.monwait f) s = .next t ∧ t.crew? x.b x.c = some cr ∧ SameBytes s t ∧ SameRegs x.cr cr ∧
        cr.monitor = some ⟨a, sp, some p⟩ ∧ p.cond = f.sub.toNat ∧ p.operand = x.uni f.b ∧
        p.deadline = (if x.uni f.c = 0 then none else some (s.clock x.blk.core + x.uni f.c)) ∧
        ∀ l th, x.lanes.getLsbD l = true → x.cr.thread? l = some th →
          ∃ th', cr.thread? l = some th' ∧ th'.pc = th.pc ∧ th'.wait = some .monwait)) ∧
  (∀ (b c : Nat) (s s1 : State) (k : Block) (cr : Crew) (g : Grid) (m : Monitor) (p : Park) (w : Nat),
    s.block? b = some k → s.crew? b c = some cr → s.grid? k.grid = some g → cr.monitor = some m → m.parked = some p →
    let released := fun (i : Instr) (hit : Bool) => ∃ t cr', exec i s = .next t ∧ t.crew? b c = some cr' ∧ SameBytes s t ∧
      Resumed cr cr' .monwait ∧ cr'.monitor = some { m with parked := none } ∧
      cr'.acqs = cr.acqs ++ [⟨cr.seq + 1, false⟩] ∧
      (p.pd ≠ 15 → ∀ l, l < 32 → (cr'.getP p.pd).getLsbD l =
        if p.lanes.getLsbD l then hit else (cr.getP p.pd).getLsbD l)
    let stays := fun (i : Instr) => ∃ t, exec i s = .next t ∧ SameBytes s t ∧ t.crew? b c = some cr
    let expired := ∃ d, p.deadline = some d ∧ d ≤ s.clock k.core
    (monRead s g.ctx k m.space m.addr = .ok (w, s1) →
      (met p.cond w p.operand = true → released (.monitorWake b c) true) ∧
      (met p.cond w p.operand = false → stays (.monitorWake b c)) ∧
      (expired → released (.monwaitTimeout b c) (met p.cond w p.operand))) ∧
    (∀ e, monRead s g.ctx k m.space m.addr = .error e →
      stays (.monitorWake b c) ∧ (expired → released (.monwaitTimeout b c) false)) ∧
    (¬expired → stays (.monwaitTimeout b c)))

/-! ## Pools, tasks, deques, device-side queues and collectives -/

namespace Sys2Proof.Claims

/-- The head of a crew's Store Path is a marker that may leave: `rest` follows it and every older load is done. -/
structure MarkerAt (s : State) (b c : Nat) (k : Block) (cr : Crew) (act : Act) (rest : List SpEntry) : Prop where
  block : s.block? b = some k
  crew : s.crew? b c = some cr
  head : ∃ seq, cr.storePath = .marker seq act :: rest ∧ ∀ l ∈ cr.loads, seq ≤ l.seq

/-- The crew with one more `poolgive` counted in each active thread, or one to be discarded used up (R158). -/
def poolCounted (x : Cx) : Crew :=
  if x.cr.handler.any (fun h => h.trap.resume == 2) then x.cr
  else x.cr.updThreads x.act (fun t =>
    if 0 < t.skip.pool then { t with skip := { t.skip with pool := t.skip.pool - 1 } }
    else { t with cnt := { t.cnt with pool := t.cnt.pool + 1 } })

/-- The crew with one more `dqpost` counted, or one to be discarded used up (R143). -/
def dqCounted (x : Cx) : Crew :=
  if x.cr.handler.any (fun h => h.trap.resume == 2) then x.cr
  else x.cr.updThreads x.act (fun t =>
    if 0 < t.skip.dq then { t with skip := { t.skip with dq := t.skip.dq - 1 } }
    else { t with cnt := { t.cnt with dq := t.cnt.dq + 1 } })

/-- A core's deque, owned by the resident block `k`, with the places of its counters and of its record `i`; no byte is
named twice. -/
structure DequeAt (s : State) (core : Nat) (d : Deque) (k : Block) (i : Nat) (cs ps : List (Place × Nat)) : Prop where
  deque : dequeOf s core = some (d, k)
  counters : unitPlaces s k 1 d.base 128 = .ok cs
  record : unitPlaces s k 1 (d.base + 128 + 128 * (i % d.cap)) 128 = .ok ps
  apart : (bytesOf (cs ++ ps)).Nodup

/-- The crew with one more queue push of the given lanes counted, or one to be discarded used up (R144). -/
def wqCounted (x : Cx) (lanes : List Nat) : Crew :=
  if x.cr.handler.any (fun h => h.trap.resume == 2) then x.cr
  else x.cr.updThreads (maskOf lanes) (fun t =>
    if 0 < t.skip.wq then { t with skip := { t.skip with wq := t.skip.wq - 1 } }
    else { t with cnt := { t.cnt with wq := t.cnt.wq + 1 } })

end Sys2Proof.Claims

/-- R52, R157, R158, R269: `pooltake` puts one atomic of each active lane into the Store Path, interlocks what it writes and
acquires; when a lane's leaves, the lane gets the object at `HEAD` and its predicate, or 0 and no acquire where the pool is
dry, and with the last lane's the threads go on (R25). Where the object's link word faults, the crew holds a late fault: the
lanes that have acted are past the `pooltake` with their implicit heads, the others are to be rolled back before it, and every
lane is in the trap (R347, R352); in a handler the crew waits for the page (R349). `poolgive` puts one release of each lane
into the Store Path, and the object goes back, linked through its first bytes, when it leaves, with owner none (R389); a page
withdrawn since is awaited (R353). (The model's choices: how the threads of a `pooltake` wait for its link words and what a
fault of them does, log 117; that a `poolgive` of a handler after a late `PROT` is neither counted nor discarded,
`poolCounted`, log 108; that its link word raises no `SEAL`, log 145.) -/
def Obligations.Pools : Prop :=
  (∀ (f : FmtE) (s : State) (x : Cx) (p : Pool) (r : BitVec 8), Ready (.pooltake f) s x → f.d = .v r → x.uni f.a < 16 →
    s.pools.find? (x.uni f.a) = some p → p.ctx = some x.g.ctx →
    let seq := x.cr.seq + 1
    let reg := x.cr.vName r.toNat
    let pd := if f.pd = 15 then 15 else x.cr.pName f.pd.toNat
    ∃ t cr, exec (.pooltake f) s = .next t ∧ t.crew? x.b x.c = some cr ∧ Parked x cr (.take seq) ∧ SameBytes s t ∧
      t.pools = s.pools ∧
      Kept { x.cr with
        seq := seq
        locks := cr.locks
        storePath := x.cr.storePath ++ x.acts.map (fun l => .marker seq (.pooltake (x.uni f.a) (some ⟨true, reg, 2, l, seq⟩) pd l))
        acqs := x.cr.acqs ++ x.acts.map (fun _ => ⟨seq, true⟩) } cr none2 none1 none1 ∧
      ∀ k, k ∈ cr.locks ↔ k ∈ x.cr.locks ∨ k = ⟨0, reg, seq⟩ ∨ k = ⟨0, reg + 1, seq⟩ ∨ (f.pd ≠ 15 ∧ k = ⟨2, pd, seq⟩)) ∧
  (∀ (b c n pd l seq : Nat) (d : Dest) (s : State) (k : Block) (cr : Crew) (rest : List SpEntry) (g : Grid) (p : Pool),
    s.block? b = some k → s.crew? b c = some cr → s.grid? k.grid = some g → l < 32 →
    cr.storePath = .marker seq (.pooltake n (some d) pd l) :: rest → s.pools.find? n = some p →
    let taken := fun (v : Nat) (ok : Bool) (p' : Pool) => ∃ t cr', exec (.storePathPerform b c) s = .next t ∧ SameBytes s t ∧
      t.crew? b c = some cr' ∧ cr'.storePath = rest ∧ Delivered cr cr' d v ∧
      (pd ≠ 15 → ∀ i, i < 32 → (cr'.getP pd).getLsbD i = if i = l then ok else (cr.getP pd).getLsbD i) ∧
      cr'.acqs = (if ok then cr.acqs else cr.acqs.erase ⟨seq, true⟩) ∧
      Released cr cr' (fun w => w = .take seq ∧ ∀ m e pq i, SpEntry.marker seq (.pooltake m e pq i) ∉ rest) ∧
      t.pools.find? n = some p' ∧ ∀ m, m ≠ n → t.pools.find? m = s.pools.find? m
    (p.head = 0 → taken 0 false p) ∧
    (∀ link s1, p.head ≠ 0 → fetchNat s g.ctx p.head 8 = .ok (link, s1) →
      taken p.head true { p with head := link, free := p.free - 1 }) ∧
    (∀ e h, p.head ≠ 0 → fetchNat s g.ctx p.head 8 = .error e → e.cause = cPf → cr.pendingPf = none →
      cr.handler = some h → h.live.getLsbD l = true →
      exec (.storePathPerform b c) s = .next (s.setCrew b c { cr with pendingPf := some (e.va, 0, 4), pfSeq := none })) ∧
    (∀ e th, p.head ≠ 0 → fetchNat s g.ctx p.head 8 = .error e → cr.handler = none → cr.trap = none → cr.late = none →
      cr.pendingPf = none → cr.thread? l = some th →
      let left := fun i => i = l ∨ ∃ m e pq, SpEntry.marker seq (.pooltake m e pq i) ∈ rest
      let takes := fun i => ∃ thi, cr.thread? i = some thi ∧ thi.wait = some (.take seq)
      ∃ t cr' tr, exec (.storePathPerform b c) s = .next t ∧ SameBytes s t ∧ t.crew? b c = some cr' ∧ t.pools = s.pools ∧
        (∀ m e pq i, SpEntry.marker seq (.pooltake m e pq i) ∉ cr'.storePath) ∧ cr'.trap = none ∧
        cr'.late = some (e.cause, e.va, 0, tr) ∧ tr.cause = e.cause ∧ tr.taddr = e.va ∧ tr.pc = th.pc ∧ tr.resume = 2 ∧
        (∀ i, i < 32 → (tr.lanes.getLsbD i = true ↔ left i ∨ takes i)) ∧
        ∀ i thi, i < 32 → cr.thread? i = some thi → ∃ th', cr'.thread? i = some th' ∧
          (left i → th'.pc = thi.pc ∧ th'.wait = none ∧ th'.head = thi.head) ∧
          (¬left i → takes i → th'.pc = slotAddr (slotIndex thi.pc + 1) ∧ th'.wait = none ∧ th'.head.pc = th'.pc) ∧
          (¬left i → ¬takes i → th' = thi))) ∧
  (∀ (f : FmtE) (s s1 : State) (x : Cx) (objs : List (Nat × Place)) (p : Pool), Ready (.poolgive f) s x →
    let addr := fun l => x.val f.b 2 l (fun c => wrapTo 64 c.toInt)
    x.uni f.a < 16 → s.pools.find? (x.uni f.a) = some p → p.ctx = some x.g.ctx →
    (∀ l ∈ x.acts, addr l % 2 ^ p.osz = 0 ∧ p.base ≤ addr l ∧ addr l < p.limit) →
    poolPlaces x.g.ctx addr
      (x.acts.filter (fun l => !x.cr.skips l (·.pool))) s = .ok (objs, s1) →
    RunsFrom (.poolgive f) s x (poolCounted x) (fun t cr => SameBytes s t ∧
      Kept { x.cr with
        seq := x.cr.seq + 1
        storePath := x.cr.storePath ++ objs.map (fun o => .marker (x.cr.seq + 1) (.poolgive (x.uni f.a) [o])) } cr
        none2 none1 none1)) ∧
  (∀ (b c n a pa : Nat) (s : State) (k : Block) (cr : Crew) (rest : List SpEntry) (p : Pool),
    MarkerAt s b c k cr (.poolgive n [(a, .g pa)]) rest → s.pools.find? n = some p →
    (Astray s k (.g pa) a .write → Waits (.storePathPerform b c) s b c cr a 1) ∧
    ∀ q, Stands s k (.g pa) a .write (.g q) → noLadder s →
    ∃ t, exec (.storePathPerform b c) s = .next t ∧ t.crew? b c = some { cr with storePath := rest } ∧
      t.pools.find? n = some { p with head := a, free := (p.free + 1) % 2 ^ 32 } ∧
      t.mem.read q 8 = leBytes 8 p.head ∧ (∀ e, e < q ∨ q + 8 ≤ e → t.mem.read1 e = s.mem.read1 e) ∧
      Disowned s t ((List.range 8).map (fun i => .g (q + i))))

namespace Sys2Proof.Claims

/-- The handles of one set come to the table in order: each gives the tile that the task uses and the tasks that it waits
for, on the machine that the handle before it left. -/
def HandlesTaken (c : Ctx) (die ctx : Nat) (d : TaskDesc) (writes : Bool) :
    List Nat → State → List (Nat × Nat) → List Nat → State → Prop
  | [], s, tiles, waits, t => tiles = [] ∧ waits = [] ∧ t = s
  | h :: hs, s, tiles, waits, t =>
    let r := takeHandle s c die ctx d h writes
    ∃ ts ws, tiles = (h, r.1) :: ts ∧ waits = r.2.1 ++ ws ∧ HandlesTaken c die ctx d writes hs r.2.2 ts ws t

/-- One lane's submission enters its die's table: a free entry, a generation that is not the entry's last, the descriptor's
fields, the lane's key, the tiles of its read set and then of its write set, and the tasks that those wait for. -/
def TaskEntered (x : Cx) (c : Ctx) (fx : Nat) (s : State) (l : Nat) (d : TaskDesc) (t : State) : Prop :=
  let die := dieOf x.blk.core
  let k := s.die die
  ∃ idx e w1 w2 s1 s2, idx < 4096 ∧ k.tasks.find? idx = none ∧ k.gens.find? idx ≠ some e.gen ∧
    HandlesTaken c die x.g.ctx d false d.reads s.draw e.reads w1 s1 ∧
    HandlesTaken c die x.g.ctx d true d.writes s1 e.writes w2 s2 ∧
    t.die die = { s2.die die with tasks := k.tasks.set idx e, gens := k.gens.set idx e.gen, order := k.order + 1 } ∧
    SameBytes s2 t ∧ t.pools = s2.pools ∧ e.order = k.order ∧ (∀ w, w ∈ e.waits ↔ w ∈ w1 ++ w2) ∧
    e.entry = BitVec.ofNat 64 d.entry ∧ e.args = d.args ∧ e.tmap = d.tmap ∧ e.ctx = x.g.ctx ∧ e.blk = x.b ∧
    e.core = x.blk.core ∧ e.posted = false ∧
    ∀ th, x.cr.thread? l = some th → e.key = (nr4x32 x.g.key (th.ltid.getD fx 0) (th.dctr.getD fx 0)).key

/-- The bytes of a posted record (R140): entry address and arguments, the resolved addresses of the read and the write set, 0
for a handle of none, the key, and the `TID`. -/
def postedBytes (e : TaskEntry) (idx : Nat) : List Byte :=
  let arg := fun i => leBytes 8 (e.args.getD i 0).toNat
  let ra := fun i => leBytes 8 (e.reads.getD i (0, 0)).2
  let wa := fun i => leBytes 8 (e.writes.getD i (0, 0)).2
  leBytes 8 e.entry.toNat ++ arg 0 ++ arg 1 ++ arg 2 ++ arg 3 ++ ra 0 ++ ra 1 ++ ra 2 ++ ra 3 ++ wa 0 ++ wa 1 ++
    leBytes 8 (e.key.toNat % 2 ^ 64) ++ leBytes 8 (e.key.toNat / 2 ^ 64) ++ leBytes 4 (idx % 2 ^ 12 + 2 ^ 12 * e.gen) ++
    leBytes 20 0

/-- The submissions of several lanes enter one after the other. -/
def TasksEntered (x : Cx) (c : Ctx) (fx : Nat) : List (Nat × TaskDesc) → State → State → Prop
  | [], s, t => t = s
  | r :: rs, s, t => ∃ u, TaskEntered x c fx s r.1 r.2 u ∧ TasksEntered x c fx rs u t

end Sys2Proof.Claims

/-- R137–R141, R266: `task` enters each lane's descriptor, in lane order, into the Dependence Table with the tasks it has to
wait for; a handle of the write set alone that finds users is renamed while the rename pool has a tile, and waits for them
all when it is dry; a ready task of a running grid has its record posted to the deque of its core; `task.done`'s release
retires its tasks, and their successors wait for them no more; a tile that is no longer current goes back to its map's pool
once no task that holds it is outstanding. (The model's choices: what a rename does where the entry of the Tile Map may not
be written, log 136, and that a tile whose pool cannot be read then is lost, log 147.) -/
def Obligations.Tasks : Prop :=
  (∀ (f : FmtE) (s s1 : State) (x : Cx) (ds : List (Nat × TaskDesc)) (c : Ctx), Ready (.task f) s x →
    let sp := f.imm8.toNat % 8
    let addr := fun l => if sp = 0 then x.val f.a 2 l (fun c => wrapTo 64 c.toInt)
      else x.val f.a 2 l (fun c => wrapTo 64 c.toInt) % 2 ^ 32
    let die := dieOf x.blk.core
    let fx := f.fx.toNat
    (∀ l ∈ x.acts, addr l % 64 = 0) → x.cr.storePath = [] → readTasks x sp addr x.acts s = .ok (ds, s1) →
    s.ctxs.find? x.g.ctx = some c → (s.die die).tasks.length + ds.length ≤ 4096 →
    (∀ e ∈ (s.die die).tasks, ∃ k g, s.block? e.2.blk = some k ∧ s.grid? k.grid = some g ∧ g.st = .running) →
    ds.map Prod.fst = x.acts ∧ RunsFrom (.task f) s x (drawn x fx x.cr) (fun t cr => Kept x.cr cr none2 none1 none1 ∧
      ∃ u, TasksEntered x c fx ds s1 u ∧ t.die die = u.die die ∧ SameBytes u t ∧ t.pools = u.pools)) ∧
  (∀ (s : State) (c : Ctx) (die ctx h : Nat) (d : TaskDesc) (writes : Bool), h ≠ noHandle →
    let cur := (natVirt s c (d.tmap + 64 + 8 * h) 8).getD 0
    let mine := (s.die die).tasks.filter (fun e => e.2.ctx == ctx && e.2.tmap == d.tmap)
    let r := takeHandle s c die ctx d h writes
    (d.reads.contains h = true → d.writes.contains h = true → r.1 = cur ∧
      ∀ w, w ∈ r.2.1 ↔ ∃ e ∈ mine, e.1 = w ∧ e.2.holds cur = true) ∧
    (d.writes.contains h = false → writes = false → r.1 = cur ∧
      ∀ w, w ∈ r.2.1 ↔ ∃ e ∈ mine, e.1 = w ∧ e.2.wrote cur = true ∧
        ∀ o ∈ mine, o.2.wrote cur = true → o.2.order ≤ e.2.order) ∧
    (d.reads.contains h = false → writes = true → (∀ e ∈ mine, e.2.holds cur = false) → r = (cur, [], s)) ∧
    ∀ p, d.reads.contains h = false → writes = true → d.writes.contains h = true → (∃ e ∈ mine, e.2.holds cur = true) →
      s.pools.find? d.pool = some p → p.ctx = some ctx →
      (p.head = 0 → r.1 = cur ∧ r.2.2 = s ∧ ∀ w, w ∈ r.2.1 ↔ ∃ e ∈ mine, e.1 = w ∧ e.2.holds cur = true) ∧
      (∀ link, p.head ≠ 0 → natVirt s c p.head 8 = some link → r.1 = p.head ∧ r.2.1 = [] ∧
        r.2.2.mem = (storeVirt s.draw c (d.tmap + 64 + 8 * h) (leBytes 8 p.head)).mem ∧
        r.2.2.pools.find? d.pool = some { p with head := link, free := p.free - 1 } ∧
        (∀ n, n ≠ d.pool → r.2.2.pools.find? n = s.pools.find? n) ∧
        r.2.2.die die = { s.die die with retiredTiles := (s.die die).retiredTiles ++ [(ctx, d.tmap, cur)] })) ∧
  (∀ (f : FmtE) (s : State) (x : Cx), Ready (.taskDone f) s x →
    let tids := x.acts.map (fun l => x.val f.a 1 l (fun c => wrapTo 32 c.toInt))
    (∀ tid ∈ tids, tidLive s (dieOf x.blk.core) tid = true) → tids.Nodup →
    Completes (.taskDone f) s x (Kept { x.cr with
      seq := x.cr.seq + 1, storePath := x.cr.storePath ++ [.marker (x.cr.seq + 1) (.taskDone tids)] } · none2 none1 none1)) ∧
  (∀ (b c tid : Nat) (s : State) (k : Block) (cr : Crew) (rest : List SpEntry) (e : TaskEntry),
    MarkerAt s b c k cr (.taskDone [tid]) rest →
    let die := dieOf k.core
    let unheld := fun (r : Nat × Nat × Nat) => r.1 == e.ctx && (s.die die).tasks.all (fun o =>
      o.1 == tid % 4096 || o.2.ctx != e.ctx || o.2.tmap != r.2.1 || !o.2.holds r.2.2)
    let gone := (s.die die).retiredTiles.filter unheld
    (s.die die).tasks.find? (tid % 4096) = some e → e.gen = tid / 4096 →
    ∃ t, exec (.storePathPerform b c) s = .next t ∧ (t.die die).tasks.find? (tid % 4096) = none ∧
      (∀ j o, j ≠ tid % 4096 → (s.die die).tasks.find? j = some o →
        (t.die die).tasks.find? j = some { o with waits := o.waits.filter (fun w => w != tid % 4096) }) ∧
      ∀ cx, s.ctxs.find? e.ctx = some cx →
        (t.die die).retiredTiles = (s.die die).retiredTiles.filter (fun r => !unheld r) ∧
        (gone = [] → SameBytes s t ∧ t.pools = s.pools) ∧
        ∀ tmap tile n p, gone = [(e.ctx, tmap, tile)] → natVirt s cx (tmap + 8) 1 = some n → s.pools.find? (n % 16) = some p →
          t.pools.find? (n % 16) = some { p with head := tile, free := (p.free + 1) % 2 ^ 32 } ∧
          (∀ m, m ≠ n % 16 → t.pools.find? m = s.pools.find? m) ∧
          t.mem = (storeVirt s cx tile (leBytes 8 p.head)).mem) ∧
  (∀ (die idx : Nat) (s : State) (e : TaskEntry) (d : Deque) (k : Block) (cs ps : List (Place × Nat)),
    (s.die die).tasks.find? idx = some e → e.posted = false → idx < 4096 →
    (e.waits ≠ [] → exec (.taskPost die idx) s = .next s) ∧
    (e.waits = [] → (∃ b g, s.block? e.blk = some b ∧ s.grid? b.grid = some g ∧ g.st = .running) → d.count < d.cap →
      DequeAt s e.core d k d.bottom cs ps →
      ∃ t, exec (.taskPost die idx) s = .next t ∧ (t.core e.core).dq = { d with bottom := d.bottom + 1 } ∧
        readPieces t ps = postedBytes e idx ∧ (postedBytes e idx).length = 128 ∧
        (t.die die).tasks.find? idx = some { e with posted := true } ∧
        ∀ q, q ∉ bytesOf (cs ++ ps) → readPlace t q 1 = readPlace s q 1))

/-- R142, R143, R267: a posted record enters the deque at the bottom when its release leaves, unless the deque is full;
`dqtake` takes the newest and `dqsteal` the victim's oldest record into every lane; the predicate says whether it did. -/
def Sys2Proof.Claims.DequeMoves : Prop :=
  let awaits := fun (x : Cx) (f : FmtE) (ok acq : Bool) (val : Nat → Nat → Prop) (cr : Crew) =>
    ∃ cr', Awaits x x.cr f.d 1 (lanesOf x.cr.liveLanes) val none1 none1 cr' ∧ PathPred x f.pd ok cr ∧
      Kept (if acq then { cr' with seq := x.cr.seq + 2, acqs := x.cr.acqs ++ [⟨x.cr.seq + 2, false⟩] } else cr') cr
        none2 none1 (destP x f.pd)
  let taken := fun (x : Cx) (f : FmtE) (s : State) (core : Nat) (d' : Deque) (cs ps : List (Place × Nat)) (t : State)
      (cr : Crew) =>
    (t.core core).dq = d' ∧
    awaits x f true true (fun l v => v = leNat (((readPieces s ps).drop (4 * l)).take 4)) cr ∧
    ∀ q, q ∉ bytesOf cs → readPlace t q 1 = readPlace s q 1
  let missed := fun (i : Instr) (x : Cx) (f : FmtE) (s : State) =>
    Completes i s x (awaits x f false false (fun l v => ∀ k, f.d = .v k → v = (x.cr.getV (x.cr.vName k.toNat) l).toNat))
  (∀ (f : FmtE) (s : State) (x : Cx), Ready (.dqpost f) s x → (dequeOf s x.blk.core).isSome = true →
    let live := x.acts.filter (fun l => !x.cr.skips l (·.dq))
    let seq := x.cr.seq + 1
    let rec_ := (List.range 32).flatMap (fun l => leBytes 4 (if live.contains l then
      match f.a with
      | .v k => (x.cr.getV (x.cr.vName k.toNat) l).toNat
      | _ => (x.cr.getV 0 l).toNat else 0))
    live ≠ [] → RunsFrom (.dqpost f) s x (dqCounted x) (fun t cr => SameBytes s t ∧ ∃ pd locks,
      (f.pd ≠ 15 → pd = x.cr.pName f.pd.toNat) ∧ (f.pd = 15 → pd = 15) ∧
      Kept { x.cr with
        seq := seq, locks := locks, storePath := x.cr.storePath ++ [.marker seq (.dqpost rec_ pd x.lanes)] } cr
        none2 none1 none1)) ∧
  (∀ (b c pd : Nat) (rec_ : List Byte) (lanes : Lanes) (s : State) (k kb : Block) (cr : Crew) (rest : List SpEntry)
    (d : Deque) (cs ps : List (Place × Nat)), MarkerAt s b c k cr (.dqpost rec_ pd lanes) rest → pd ≠ 15 →
    dequeOf s k.core = some (d, kb) →
    let said := fun (t : State) (ok : Bool) => ∃ cr', t.crew? b c = some cr' ∧ cr'.storePath = rest ∧
      ∀ l, l < 32 → (cr'.getP pd).getLsbD l = if lanes.getLsbD l then ok else (cr.getP pd).getLsbD l
    (d.cap ≤ d.count → ∃ t, exec (.storePathPerform b c) s = .next t ∧ SameBytes s t ∧ (t.core k.core).dq = d ∧
      said t false) ∧
    (d.count < d.cap → rec_.length = 128 → DequeAt s k.core d kb d.bottom cs ps →
      ∃ t, exec (.storePathPerform b c) s = .next t ∧ (t.core k.core).dq = { d with bottom := d.bottom + 1 } ∧
        readPieces t ps = rec_ ∧ said t true ∧ ∀ q, q ∉ bytesOf (cs ++ ps) → readPlace t q 1 = readPlace s q 1)) ∧
  (∀ (f : FmtE) (s : State) (x : Cx) (d : Deque) (k : Block) (cs ps : List (Place × Nat)), Ready (.dqtake f) s x →
    (0 < d.count → DequeAt s x.blk.core d k (d.bottom - 1) cs ps → Runs (.dqtake f) s x
      (taken x f s x.blk.core { d with bottom := d.bottom - 1 } cs ps)) ∧
    (dequeOf s x.blk.core = some (d, k) → d.count = 0 → missed (.dqtake f) x f s)) ∧
  (∀ (f : FmtE) (s : State) (x : Cx) (d : Deque) (k : Block) (cs ps : List (Place × Nat)), Ready (.dqsteal f) s x →
    let victim := 192 * dieOf x.blk.core + x.uni f.b % 256
    (dequeOf s x.blk.core).isSome = true → x.uni f.b % 256 ≤ 191 →
    (x.g.level = 0 → 0 < d.count → DequeAt s victim d k d.top cs ps → Runs (.dqsteal f) s x
      (taken x f s victim { d with top := d.top + 1 } cs ps)) ∧
    (1 ≤ x.g.level ∨ dequeOf s victim = none ∨ (dequeOf s victim = some (d, k) ∧ d.count = 0) → missed (.dqsteal f) x f s))

namespace Sys2Proof.Claims

/-- Rows of `k` pairs combine into the `k` pairs of both that rank first under R154, in falling rank; the row of the lower
slot stands first where values and indices agree. A pair is its value with the index above it. -/
def RowsMerged (count k : Nat) (a b out : List Nat) : Prop :=
  out.length = count * k ∧ ∀ i, i < count →
    let row := fun (l : List Nat) => (l.drop (i * k)).take k
    let pairs := row a ++ row b
    let at_ := fun (j : Nat) => (pairs.getD j 0 % 2 ^ 32, pairs.getD j 0 / 2 ^ 32, j)
    ∀ j, j < k → ∃ p, p < 2 * k ∧ out[i * k + j]? = pairs[p]? ∧
      ∃ above : List Nat, above.Nodup ∧ above.length = j ∧ ∀ q, q ∈ above ↔ q < 2 * k ∧ ranksAbove (at_ q) (at_ p)

/-- A result goes to its contributors one after the other. Where the contributor's operation still awaits it and its range
may be written, the range's bytes hold the result, no other byte has changed and the operation is marked; where the range
may not be written, no byte has changed, and the operation waits for the page or holds the protection fault; an operation
that is over, held or marked leaves everything as it was. -/
def Delivers (data : List Byte) : List (Nat × Nat × Nat) → State → State → Prop
  | [], s, t => t = s
  | e :: es, s, t => ∃ u, Delivers data es u t ∧ (∀ id, id ≠ e.2.1 → op? u id = op? s id) ∧
      (∀ o, op? s e.2.1 = some o → o.done = false → o.stamped = false → o.fault = none → o.pf = none →
        (∀ ps s1, longPieces s (opCtx s o) .write (data.length + 1) e.2.2 data.length = .ok (ps, s1) →
          let dsts := bytesOf (ps.map (fun p => (.g p.1, p.2)))
          op? u e.2.1 = some { o with stamped := true } ∧ (∀ q, q ∉ dsts → readPlace u q 1 = readPlace s q 1) ∧
          (dsts.Nodup → dsts.flatMap (fun p => readPlace u p 1) = data)) ∧
        (∀ err, longPieces s (opCtx s o) .write (data.length + 1) e.2.2 data.length = .error err → SameBytes s u ∧
          op? u e.2.1 = some (if err.cause = cPf then { o with pf := some (err.va, 1, none) }
            else { o with fault := some (err.va, 1) }))) ∧
      (¬(∃ o, op? s e.2.1 = some o ∧ o.done = false ∧ o.stamped = false ∧ o.fault = none ∧ o.pf = none) → u = s)

end Sys2Proof.Claims

/-- R148, R268: `qsubmit` puts its release into the Store Path when the queue has room; when it leaves, the queue's
`WIDX` advances and the packets are the submitting grid's. R155, R270, R271: `coll` issues a command of class 4; started,
it joins its reduction with its contribution; two slots combine, the lower on the left, into the slot above (rows of `topk`
by `RowsMerged`); the value of the root is written to every contributor that still awaits it. R34: a destination that the
block may not write raises `SEAL`. R382: where a contributor's grid faults before every slot is filled, the reduction stops
and every contributor's command with it. (When a descriptor is checked, and that `coll` in a grid with a ladder waits for
the descriptor's page, is log 114, the model's choice.) -/
def Obligations.QueuesAndCollectives : Prop :=
  (∀ (f : FmtE) (s : State) (x : Cx) (e : QEntry), Ready (.qsubmit f) s x → x.uni f.a < 64 →
    queueEntry s x.g.ctx (x.uni f.a) = some e → e.device = true → e.enabled = true → 0 < x.uni f.b → x.uni f.b ≤ 255 →
    e.widx + x.uni f.b ≤ e.ridx + 2 ^ e.log →
    Runs (.qsubmit f) s x (fun t cr => SameBytes s t ∧ Kept { x.cr with
      seq := x.cr.seq + 1
      storePath := x.cr.storePath ++ [.marker (x.cr.seq + 1) (.qsubmit (x.uni f.a) (x.uni f.b))] } cr none2 none1 none1)) ∧
  (∀ (b c q n : Nat) (s : State) (k : Block) (cr : Crew) (rest : List SpEntry) (g : Grid) (x : Ctx) (e : QEntry),
    MarkerAt s b c k cr (.qsubmit q n) rest → s.grid? k.grid = some g → s.ctxs.find? g.ctx = some x →
    queueEntry s g.ctx q = some e → e.widx + n ≤ e.ridx + 2 ^ e.log →
    let u := s.setCrew b c { cr with storePath := rest }
    ∃ t, exec (.storePathPerform b c) s = .next t ∧ t.crew? b c = some { cr with storePath := rest } ∧
      t.mem = (storeVirt u x (x.qtab + 32 * q + 24) (leBytes 8 ((e.widx + n) % 2 ^ 64))).mem ∧
      ∀ i, i < n → (t.queues.getD (64 * g.ctx + q) ⟨none, false, []⟩).subs.find? (e.widx + i) = some k.grid) ∧
  (∀ (f : FmtE) (s : State) (x : Cx), Ready (.coll f) s x → x.uni f.a % 64 = 0 → x.cr.storePath = [] →
    let issued := fun (r : Nat × Nat) =>
      Runs (.coll f) s x (OpIssued s x 4 (.coll f.sub.toNat (x.uni f.a) 0 0 r.1 r.2) true false)
    (∀ e, fetchVirt s x.g.ctx (x.uni f.a) 64 = .error e → e.cause ≠ cPf ∨ x.g.ladder = none → issued (0, 0)) ∧
    (∀ e, fetchVirt s x.g.ctx (x.uni f.a) 64 = .error e → e.cause = cPf → x.g.ladder.isSome = true → calm x →
      x.cr.late = none → FaultHeld (.coll f) s x cPf e.va 0) ∧
    (∀ bs s1, fetchVirt s x.g.ctx (x.uni f.a) 64 = .ok (bs, s1) →
      let r := collRange f.sub.toNat (leNat bs)
      (collForbids x.g x.blk r = false → issued r) ∧
      (collForbids x.g x.blk r = true → calm x → Raised (.coll f) s x (trapOf x cSeal r.1 0 0 1)))) ∧
  (∀ (op sub desc g0 n0 d0 l0 : Nat) (s s1 s2 : State) (o : EngOp) (bs : List Byte) (ps : List (Nat × Nat)) (r : CollRun),
    op? s op = some o → o.kind = .coll sub desc g0 n0 d0 l0 → opMayStart s o = true → o.fault = none → o.pf = none →
    fetchVirt s (opCtx s o) desc 64 = .ok (bs, s1) →
    let d := collDesc (leNat bs)
    let w := collElem sub d
    let len := collElems sub d
    collOk sub (leNat bs) d = true →
    r = (collRun? s d.group d.seq).getD ⟨d.group, d.seq, sub, d.fmt, d.count, d.k, d.logs, [], [], [], false⟩ →
    let own := ((s.block? o.blk).map (·.grid)).toList
    noLadders s → (∀ g ∈ r.grids ++ own, ∀ gr, s.grid? g = some gr → gr.st ≠ .faulted) →
    r.stopped = false → (∀ e ∈ r.slots, e.1 ≠ d.slot) → r.sub = sub → r.fmt = d.fmt → r.count = d.count → r.k = d.k →
    r.logs = d.logs → longPieces s1 (opCtx s o) .read (w * len + 1) d.src (w * len) = .ok (ps, s2) →
    collVal r 0 d.slot = none →
    ∃ t r', exec (.engineCommandStart op) s = .next t ∧ (∃ o', op? t op = some o' ∧ o'.started = true ∧
        o'.kind = .coll sub desc d.group d.seq (collRange sub (leNat bs)).1 (collRange sub (leNat bs)).2) ∧
      collRun? t d.group d.seq = some r' ∧ r'.slots = r.slots ++ [(d.slot, op, d.dst)] ∧ r'.grids = r.grids ++ own ∧
      collVal r' 0 d.slot = some (chunk w len (ps.flatMap (fun p => s.mem.read p.1 p.2))) ∧
      (collVal r' r'.logs 0 = none → SameBytes s t)) ∧
  (∀ (group seq level idx : Nat) (s : State) (r : CollRun) (a b : List Nat), collRun? s group seq = some r →
    r.stopped = false → r.slots.length = 2 ^ r.logs → level < r.logs → collVal r level (2 * idx) = some a →
    collVal r level (2 * idx + 1) = some b → collVal r (level + 1) idx = none →
    ∃ (t : State) (r' : CollRun) (out : List Nat), exec (.collCombine group seq level idx) s = .next t ∧ collRun? t group seq = some r' ∧
      collVal r' (level + 1) idx = some out ∧ (level + 1 < r.logs → collVal r r.logs 0 = none → SameBytes s t) ∧
      (r.sub < 6 → out.length = min a.length b.length ∧ ∀ (i p q : Nat), a[i]? = some p → b[i]? = some q →
        out[i]? = some (laneOp ((Fmt.ofCode (BitVec.ofNat 6 r.fmt)).getD .f32) (r.sub % 3) 0 p q).1) ∧
      (6 ≤ r.sub → a.length = r.count * r.k → b.length = r.count * r.k → RowsMerged r.count r.k a b out)) ∧
  (∀ (group seq idx : Nat) (s : State) (r : CollRun) (out : List Nat),
    collRun? s group seq = some r → r.stopped = false → 2 ^ r.logs ≤ r.slots.length →
    collVal r r.logs 0 = some out → (∀ g ∈ r.grids, ∀ gr, s.grid? g = some gr → gr.st ≠ .cut) → noLadders s →
    let w := if r.sub = 6 then 8 else fmtBits ((Fmt.ofCode (BitVec.ofNat 6 r.fmt)).getD .f32) / 8
    ∃ t, exec (.collCombine group seq r.logs idx) s = .next t ∧ Delivers (out.flatMap (leBytes w)) r.slots s t) ∧
  (∀ (group seq level idx : Nat) (s : State) (r : CollRun), collRun? s group seq = some r → r.stopped = false →
    r.slots.length < 2 ^ r.logs → (∃ g ∈ r.grids, ∃ gr, s.grid? g = some gr ∧ gr.st = .faulted) →
    ∃ t r', exec (.collCombine group seq level idx) s = .next t ∧ SameBytes s t ∧ collRun? t group seq = some r' ∧
      r'.stopped = true ∧ ∀ e ∈ r.slots, ∀ o c desc g n d l, op? s e.2.1 = some o → o.kind = .coll c desc g n d l →
        o.done = false → o.stamped = false → o.fault = none → (op? t e.2.1).map (·.fault) = some (some (desc, 0)))

/-! ## Control, regions, exits, traps and special registers -/

namespace Sys2Proof.Claims

/-- The active threads stand at their targets and wait for nothing, the path's other threads at the slot that follows,
every other thread where it was. -/
def Jumps (x : Cx) (tgt : Nat → Nat) (cr : Crew) : Prop :=
  ∀ l th, x.cr.thread? l = some th → ∃ th', cr.thread? l = some th' ∧
    (x.lanes.getLsbD l = false → th' = th) ∧
    (x.lanes.getLsbD l = true → th'.wait = none ∧ th'.dctr = th.dctr ∧ th'.ltid = th.ltid ∧
      th'.pc = if x.act.getLsbD l then tgt l else x.nextPc)

end Sys2Proof.Claims

/-- R169, R171, R272–R274: branches, calls and returns move the active threads to their targets, and a call's link register
gets the address of the slot that follows. The lowest lane whose target fails its check decides: `BTGT`, or the `PROT` or
`PF` of an address that is not canonical or whose line may not be fetched, before any thread moves. A branch offset counts
slots (R169); that it wraps in the slots of the address space is the model's choice (DESIGN CHOICE, log 149). -/
def Obligations.Branches : Prop :=
  (∀ (f : FmtC) (s : State) (x : Cx),
    let rel := fun _ => slotTo x.pc f.offs
    let reg := fun l => x.val f.a 2 l (fun c => wrapTo 64 c.toInt)
    let goes := fun (i : Instr) (tgt : Nat → Nat) => ∃ cr, exec i s = .next (s.setCrew x.b x.c cr) ∧
      SameBytes s (s.setCrew x.b x.c cr) ∧ Jumps x tgt cr ∧ Kept x.cr cr none2 none1 none1
    let calls := fun (i : Instr) (tgt : Nat → Nat) => ∃ cr, exec i s = .next (s.setCrew x.b x.c cr) ∧
      SameBytes s (s.setCrew x.b x.c cr) ∧ Jumps x tgt cr ∧
      (∀ l ∈ dstLanes x f.d, destVal x cr f.d 2 l = x.nextPc % 2 ^ 64) ∧ Kept x.cr cr (destV x f.d 2) (destS x f.d) none1
    let passes := fun (tgt : Nat → Nat) (bit always slotBits : Bool) =>
      ∀ l ∈ x.acts, checkTarget x (tgt l) bit always slotBits = none
    (Ready (.bra f) s x → passes rel true false false → goes (.bra f) rel) ∧
    (Ready (.brx f) s x → passes reg true false true → goes (.brx f) reg) ∧
    (Ready (.call f) s x → passes rel true true false → calls (.call f) rel) ∧
    (Ready (.callx f) s x → passes reg true true true → calls (.callx f) reg) ∧
    (Ready (.ret f) s x → passes reg false false true → goes (.ret f) reg) ∧
    (Ready (.nop f) s x → Completes (.nop f) s x (Kept x.cr · none2 none1 none1)) ∧
    let fails := fun (i : Instr) (tgt : Nat → Nat) (bit always slotBits : Bool) => Ready i s x → calm x →
      ∀ l ∈ x.acts, (∀ k ∈ x.acts, k < l → checkTarget x (tgt k) bit always slotBits = none) →
        (checkTarget x (tgt l) bit always slotBits = some .btgt → Raised i s x (trapOf x cBtgt (tgt l) 0 0 2)) ∧
        (checkTarget x (tgt l) bit always slotBits = some (.access cProt) →
          Raised i s x (trapOf x cProt (tgt l) 0 0 2)) ∧
        (checkTarget x (tgt l) bit always slotBits = some (.access cPf) → x.cr.late = none →
          FaultHeld i s { x with late := false } cPf (tgt l) 2)
    fails (.bra f) rel true false false ∧ fails (.brx f) reg true false true ∧ fails (.call f) rel true true false ∧
    fails (.callx f) reg true true true ∧ fails (.ret f) reg false false true) ∧
  (∀ (x : Cx) (tgt p log : Nat) (e : DWord) (fm : Option (List Byte)) (line : Nat) (bit always slotBits : Bool),
    let back := decide (slotIndex tgt ≤ slotIndex x.pc)
    let check := checkTarget x tgt bit always slotBits
    let reads := bit = true ∨ back = true
    (canonical tgt = false → check = some (.access cProt)) ∧
    (canonical tgt = true → slotBits = true → isSlot tgt = false → check = some .btgt) ∧
    (canonical tgt = true → (slotBits = true → isSlot tgt = true) →
      (¬reads → check = none) ∧
      (reads → (fetchLine x.s x.g tgt).1 = .pf → check = some (.access cPf)) ∧
      (reads → (fetchLine x.s x.g tgt).1 = .prot → check = some (.access cProt)) ∧
      (reads → fetchLine x.s x.g tgt = (.ok p e log fm, line) →
        let good := (bit = true → slotTarget line (tgt % 64 / 12) = true) ∧
          ((bit = true ∧ always = true) ∨ back = true → holdsRegion line (tgt % 64 / 12) = true)
        (good → check = none) ∧ (¬good → check = some .btgt)))) ∧
  (∀ (pc : Nat) (offs : BitVec 32), ((slotIndex (slotTo pc offs) : Int) - (slotIndex pc + offs.toInt)) % (5 * 2 ^ 58) = 0 ∧
    isSlot (slotTo pc offs) = true ∧ slotTo pc offs < 2 ^ 64)

/-- R22–R24, R223, R276, R277: a region head checkpoints the crew and each of the path's threads, and gives back the
marked blocks. An implicit head is taken as the threads leave the instruction that ended their region (`Advanced`), with the
results still to be written; IMPLICIT_HEAD marks it complete once none is left (log 11). -/
def Obligations.RegionHeads : Prop :=
  (∀ (f : FmtG) (s : State) (x : Cx), Ready (.region f) s x →
    let held := fun r => r < 64 ∨ (x.cr.xheld &&& ~~~x.cr.xmark).getLsbD (r / 64 - 1) = true
    (x.cr.inHandler = true → Completes (.region f) s x (Kept x.cr · none2 none1 none1)) ∧
    (x.cr.inHandler = false → marksFull x.cr = true → ∃ t cr, exec (.region f) s = .next t ∧ SameBytes s t ∧
      t.crew? x.b x.c = some cr ∧ (t.block? x.b).map (·.fresh) = some false ∧
      cr.xheld = x.cr.xheld &&& ~~~x.cr.xmark ∧ cr.xmark = 0 ∧ cr.ckFstat = x.cr.fstat ∧ cr.ckSeq = x.cr.seq ∧
      (∀ r, r < 64 → cr.ckS.find? r = x.cr.s.find? r) ∧ cr.s = x.cr.s ∧ cr.p = x.cr.p ∧ cr.fstat = x.cr.fstat ∧
      (∀ r l, l < 32 → held r → cr.getV r l = x.cr.getV r l ∧ cr.isEmpty r l = x.cr.isEmpty r l) ∧
      ∀ l th, x.cr.thread? l = some th → ∃ th', cr.thread? l = some th' ∧
        (x.lanes.getLsbD l = false → th' = th) ∧
        (x.lanes.getLsbD l = true → th'.pc = x.nextPc ∧ th'.wait = none ∧ th'.dctr = th.dctr ∧ th'.ltid = th.ltid ∧
          th'.head.pc = x.pc ∧ th'.head.dctr = th.dctr ∧ th'.head.li = f.li ∧
          (∀ i, i < 15 → th'.head.p.find? i = some ((x.cr.getP i).getLsbD l)) ∧
          (∀ r, r < 256 → f.li.getLsbD (r / 8) = true → held r →
            th'.head.v.find? (Crew.key r l) = some (x.cr.getV r l)) ∧
          (th.atHead = false → th'.cnt = Counts.zero ∧ th'.skip = Counts.zero)))) ∧
  (∀ (b c : Nat) (s : State) (cr : Crew), s.crew? b c = some cr → ∃ t cr', exec (.implicitHead b c) s = .next t ∧
    t.crew? b c = some cr' ∧ SameBytes s t ∧ { cr' with threads := cr.threads } = cr ∧
    ∀ l th, cr.thread? l = some th → ∃ due : Bool, cr'.thread? l = some { th with headDue := due } ∧
      (due = true ↔ th.headDue = true ∧ ((∃ e ∈ cr.empty, e.1 % 32 = l ∧ e.2 = th.head.seq) ∨
        ∃ k ∈ cr.locks, k.tag = th.head.seq)))

/-- R275: `exit` ends the active threads and drops what was still to be written to them; the crew's last exit is a
release. A protection fault that the crew still holds is raised first (R260). -/
def Obligations.Exits : Prop :=
  ∀ (f : FmtC) (s : State) (x : Cx), Ready (.exit f) s x →
    let last := x.cr.liveLanes &&& ~~~x.act = 0
    (x.cr.handler = none → (¬last ∨ x.cr.faults = []) → x.blk.barCrews = [] → x.blk.convs = [] →
      ∃ t cr, exec (.exit f) s = .next t ∧ SameBytes s t ∧ t.crew? x.b x.c = some cr ∧
        (∀ r l, l < 32 → cr.getV r l = x.cr.getV r l ∧ cr.isEmpty r l = (x.cr.isEmpty r l && !x.act.getLsbD l)) ∧
        (∀ r, cr.getS r = x.cr.getS r ∧ cr.getP r = x.cr.getP r) ∧ cr.fstat = x.cr.fstat ∧ cr.loads = x.cr.loads ∧
        cr.storePath = x.cr.storePath ++ (if x.cr.threads.all (fun e => e.2.exited || x.act.getLsbD e.1) then
          [.marker (x.cr.seq + 1) .exit] else []) ∧
        ∀ l th, x.cr.thread? l = some th → ∃ th', cr.thread? l = some th' ∧
          (x.act.getLsbD l = true → th'.exited = true ∧ th'.wait = none) ∧
          (x.act.getLsbD l = false → th'.exited = th.exited ∧
            th'.pc = if x.lanes.getLsbD l then x.nextPc else th.pc)) ∧
    (∀ e, calm x → last → e ∈ x.cr.faults → (∀ o ∈ x.cr.faults, e.seq ≤ o.seq ∧ (o.seq = e.seq → o = e)) →
      ∃ t cr, exec (.exit f) s = .next t ∧ t.crew? x.b x.c = some cr ∧ cr.trap = some (trapOf x cProt e.taddr 0 0 e.acc) ∧
        (∀ o ∈ cr.faults, o.op ≠ e.op) ∧ cr.threads = x.cr.threads)

/-- R178, R224, R282–R284, R346, R349: `trap` and, in a debugged context, `brk` raise their causes with the code and the slot that
follows as the resume point; an illegal encoding, a register block that the crew lacks, an empty operand under `fe=trap` once
the destinations are full (R17), and a fold index beyond the variant's (its `TADDR` is open: log 31) raise theirs, in that
order; with a destination empty the instruction waits; `trapret` ends the handler threads that execute it and, with the last,
resumes the interrupted threads where the cause says. `trapret` outside a handler is `UND`; so are `regacq`, `regrel`,
`switchpt` and class 7 inside one, where it is a double fault that ends the grid. (That `FE` is raised once the destinations are full, without waiting
for an empty source whose full/empty mode blocks, is the model's choice: log 107.) -/
def Obligations.TrapsAndReturns : Prop :=
  (∀ (f : FmtS) (s : State) (x : Cx),
    (Ready (.trap f) s x → calm x → Raised (.trap f) s x (trapOf x cSw x.pc f.imm16.toNat 1)) ∧
    (Ready (.brk f) s x → calm x → ((s.ctxs.find? x.g.ctx).map (·.debug)) = some true →
      Raised (.brk f) s x (trapOf x cDbg x.pc f.imm16.toNat 1)) ∧
    (Ready (.brk f) s x → ((s.ctxs.find? x.g.ctx).map (·.debug)) = some false →
      Completes (.brk f) s x (Kept x.cr · none2 none1 none1)) ∧
    (∀ h, Ready (.trapret f) s x → x.cr.handler = some h → (f.sub = 1 → h.trap.resume ≠ 2) → h.live &&& ~~~x.act ≠ 0 →
      ∃ t cr h', exec (.trapret f) s = .next t ∧ SameBytes s t ∧ t.crew? x.b x.c = some cr ∧ SameRegs x.cr cr ∧
        cr.handler = some h' ∧ h'.live = h.live &&& ~~~x.act ∧ h'.trap = h.trap) ∧
    (∀ h, Ready (.trapret f) s x → x.cr.handler = some h → (f.sub = 1 → h.trap.resume ≠ 2) → h.live &&& ~~~x.act = 0 →
      (∀ e ∈ x.cr.threads, e.2.wait = none ∧ e.2.iwait = none) →
      ∃ t cr, exec (.trapret f) s = .next t ∧ SameBytes s t ∧ t.crew? x.b x.c = some cr ∧ cr.handler = none ∧
        (t.slot x.blk.core x.cr.slot).busy = none ∧ cr.fstat = x.cr.fstat ∧
        (∀ r l, l < 32 → cr.getV r l = x.cr.getV r l) ∧ (∀ r, cr.getS r = x.cr.getS r ∧ cr.getP r = x.cr.getP r) ∧
        ∀ l th, x.cr.thread? l = some th → ∃ th', cr.thread? l = some th' ∧
          (h.trap.lanes.getLsbD l = false ∨ th.exited = true → th'.pc = th.pc ∧ th'.exited = th.exited) ∧
          (h.trap.lanes.getLsbD l = true → th.exited = false → th'.wait = none ∧
            (h.trap.resume = 2 → th'.pc = th.head.pc ∧ th'.dctr = th.head.dctr) ∧
            (h.trap.resume = 1 → th'.pc = slotAddr (slotIndex th.ipc + 1)) ∧
            (h.trap.resume = 0 → th'.pc = if f.sub = 1 ∧ x.act.getLsbD l = true then slotAddr (slotIndex th.ipc + 1)
              else th.ipc)))) ∧
  (∀ (i : Instr) (s : State) (x : Cx) (g : Grid) (cx : Ctx), i.issues = true → Cx.of s i.body.guard = some x → x.act ≠ 0 →
    x.cr.handler.isSome = true → x.cr.trap = none →
    ((∃ f, i = .regacq f) ∨ (∃ f, i = .regrel f) ∨ (∃ f, i = .switchpt f) ∨ opClass i = 7) →
    s.grid? x.blk.grid = some g → g.st = .running → ringFull s g.ctx = false → s.ctxs.find? g.ctx = some cx →
    let r := s.ring g.ctx
    ∃ t, exec i s = .next t ∧ (t.grid? x.blk.grid).map (·.st) = some .faulted ∧
      (t.ring g.ctx).widx = r.widx + 1 ∧ (g.ladder = none → t.mem =
        (storeVirt s cx (r.base + 32 * (r.widx % 2 ^ r.log)) (faultBytes x.pc cUnd 4 0 0 r.widx g.cmpl)).mem)) ∧
  (∀ (i : Instr) (s : State) (x : Cx), i.issues = true → Cx.of s i.body.guard = some x → x.act ≠ 0 → calm x →
    (legal i = false ∨ (∃ f, i = .trapret f) → Raised i s x (trapOf x cUnd x.pc 0 0)) ∧
    (legal i = true → handlerUnd x.cr i = false → (namedV x.cr i).all x.cr.holds = false →
      Raised i s x (trapOf x cProt x.pc 0 0)) ∧
    (legal i = true → handlerUnd x.cr i = false → (namedV x.cr i).all x.cr.holds = true →
      (waitsForOlder i = true → x.cr.checksDue = false) →
      (dstsReady x.cr i x.acts = true → feTraps x.cr i x.acts = true → Raised i s x (trapOf x cFe x.pc 0 0)) ∧
      (dstsReady x.cr i x.acts = false → ∃ t cr, exec i s = .next t ∧ SameBytes s t ∧ t.crew? x.b x.c = some cr ∧
        cr.trap = none ∧ Kept x.cr cr none2 none1 none1 ∧ ∀ l th, x.cr.thread? l = some th →
          ∃ th', cr.thread? l = some th' ∧ th'.pc = th.pc ∧ (x.act.getLsbD l = true → th'.wait.isSome = true)) ∧
      (feTraps x.cr i x.acts = false → operandsReady x.cr i x.acts = true → x.fold ≤ foldIndex i →
        RaisedOpen i s x cProt 0)))

namespace Sys2Proof.Claims

/-- The engine operations that a crew counts in a class (R64, R65): those of its commands that are not over, and those that
are but follow one that is not. -/
def Counted (s : State) (b c cls : Nat) : List EngOp :=
  let mine := s.ops.filter (fun e => e.pkt.isNone && e.blk == b && e.cls == cls && (e.seqOf c).isSome)
  mine.filter (fun e => mine.any (fun o => !o.done && (o.seqOf c).any (fun n => (e.seqOf c).any (fun m => decide (n ≤ m)))))

/-- What a `CONE` register reads for one limit (R28, R40, R379), `used` being what a launch has used of it: the remainder
of the launch's own limit, or of its parent's where it has none; all ones where neither sets it, and at `REPEAT` and
`PORTABLE`. -/
def ConeReads (x : Cx) (set : Cone → Nat) (used : Nat → Grid → Nat) (gives : Nat → Prop) : Prop :=
  (1 ≤ x.g.level → gives (2 ^ 64 - 1)) ∧
  (x.g.level = 0 → (set x.g.cone ≠ 0 → gives ((set x.g.cone - used x.blk.grid x.g) % 2 ^ 64)) ∧
    (set x.g.cone = 0 → (x.g.parent = none → gives (2 ^ 64 - 1)) ∧
      ∀ p gp, x.g.parent = some p → x.s.grid? p = some gp →
        (set gp.cone ≠ 0 → gives ((set gp.cone - used p gp) % 2 ^ 64)) ∧
        (set gp.cone = 0 → gp.parent = none → gives (2 ^ 64 - 1))))

end Sys2Proof.Claims

/-- R28, R30, R31, R40, R64, R77, R187, R286, R287, R379: the special registers that `sread` delivers and `swrite` changes.
(A grid's cycles are those of the die of its first issue: log 106; the energy that it has used is open: log 58.) -/
def Obligations.SpecialRegisters : Prop :=
  (∀ (f : FmtS) (s : State) (x : Cx), Ready (.sread f) s x →
    let n := f.srn.toNat
    let fx := f.fx.toNat
    let gives := fun (val : Nat) => Completes (.sread f) s x (WritesReg x f.d 2 0 (fun _ v => v = val))
    (n = 0x000 → Completes (.sread f) s x (WritesReg x f.d 1 0 (fun l v => v = l))) ∧
    (n = 0x00A → Completes (.sread f) s x (WritesReg x f.d 2 0 (fun l v =>
      ∀ th, x.cr.thread? l = some th → v = (th.ltid.getD fx 0).toNat))) ∧
    (n = 0x018 → Completes (.sread f) s x (WritesReg x f.d 2 0 (fun l v =>
      ∀ th, x.cr.thread? l = some th → v = (th.dctr.getD fx 0).toNat))) ∧
    (n ≠ 0x000 → n ≠ 0x00A → n ≠ 0x018 → gives (srUniform x n % 2 ^ 64)) ∧
    (n = 0x001 → gives (x.c % 2 ^ 64)) ∧
    (n = 0x002 → gives (x.blk.lin % x.g.x % 2 ^ 64)) ∧
    (n = 0x003 → gives (x.blk.lin / x.g.x % x.g.y % 2 ^ 64)) ∧
    (n = 0x004 → gives (x.blk.lin / (x.g.x * x.g.y) % 2 ^ 64)) ∧
    (n = 0x005 → gives ((x.g.x + 2 ^ 24 * x.g.y + 2 ^ 40 * x.g.z) % 2 ^ 64)) ∧
    (0x006 ≤ n → n ≤ 0x009 → x.g.level = 2 → gives 0) ∧
    (x.g.level ≠ 2 → (n = 0x006 → gives (x.blk.core % 4)) ∧ (n = 0x007 → gives (x.blk.core / 4 % 48)) ∧
      (n = 0x008 → gives (x.blk.core / 192 % 2 ^ 64)) ∧ (n = 0x009 → gives s.ctl.pkgId.toNat)) ∧
    (n = 0x00B → gives (x.blk.vid % 2 ^ 64)) ∧
    (n = 0x010 ∨ n = 0x011 → x.g.ladder = none → gives 0) ∧
    (n = 0x010 → x.g.ladder.isSome = true → (∀ k, x.blk.pass = some k → gives (k % 2 ^ 64)) ∧
      (x.blk.pass = none → gives 0xFFFF)) ∧
    (∀ l c v, n = 0x011 → x.g.ladder = some l → s.ctxs.find? x.g.ctx = some c →
      natVirt s c (l.hdr + 64 + 8 * x.blk.lin) 2 = some v → gives (v % 2 ^ 64)) ∧
    (n = 0x012 → ConeReads x (·.cyc) (fun _ g => ((g.firstCycle).map (fun c => (s.die g.clkDie).clk / 50 - c)).getD 0) gives) ∧
    (n = 0x013 → ConeReads x (·.nj) (fun gid _ => Config.energy gid s.time) gives) ∧
    (n = 0x014 → ConeReads x (·.ns) (fun _ _ => s.time) gives) ∧
    (∀ i, i < 4 → n = 0x019 + i → gives (x.g.key.toNat / 2 ^ (32 * i) % 2 ^ 32)) ∧
    (n = 0x020 ∨ n = 0x021 → 1 ≤ x.g.level → gives 0) ∧
    (n = 0x020 → x.g.level = 0 → gives (s.clock x.blk.core % 2 ^ 64)) ∧
    (n = 0x021 → x.g.level = 0 → gives (s.time % 2 ^ 64)) ∧
    (n = 0x024 → gives x.cr.getFstat.toNat) ∧
    (n = 0x028 ∨ n = 0x029 →
      let chan := if n = 0x028 then (s.core x.blk.core).fill else (s.core x.blk.core).drain
      (∀ ch, chan = some ch → ch.blk = x.b → gives ((ch.moved % 4096 * 2 ^ 20 + ch.ptr) % 2 ^ 64)) ∧
      ((∀ ch, chan = some ch → ch.blk ≠ x.b) → gives 0)) ∧
    (∀ cls, cls < 5 → n = 0x030 + cls → gives ((Counted s x.b x.c cls).length % 2 ^ 64)) ∧
    (n = 0x038 → gives ((s.core x.blk.core).dq.base % 2 ^ 64)) ∧ (n = 0x039 → gives ((s.core x.blk.core).dq.lim % 2 ^ 64)) ∧
    (∀ h, x.cr.handler = some h → (n = 0x03C → gives (h.trap.cause % 2 ^ 64)) ∧
      (n = 0x03D → gives (h.trap.taddr % 2 ^ 64))) ∧
    (n = 0x03C ∨ n = 0x03D → x.cr.handler = none → gives 0)) ∧
  (∀ (f : FmtS) (s : State) (x : Cx), Ready (.swrite f) s x →
    let n := f.srn.toNat
    let fx := f.fx.toNat
    let val := fun l => BitVec.ofNat 64 (x.val f.a 2 l (fun c => wrapTo 64 c.toInt))
    let core := s.core x.blk.core
    let v := x.uni f.a % 2 ^ 32
    let threads := fun (post : Nat → Thread → Thread → Prop) => ∃ cr, exec (.swrite f) s = .next (s.setCrew x.b x.c cr) ∧
      SameBytes s (s.setCrew x.b x.c cr) ∧ Kept x.cr cr none2 none1 none1 ∧
      ∀ l th, x.cr.thread? l = some th → ∃ th', cr.thread? l = some th' ∧ post l th th'
    (n = 0x00A → threads (fun l th th' => th'.dctr = th.dctr ∧
      th'.ltid = (if x.act.getLsbD l then th.ltid.set fx (val l) else th.ltid) ∧
      th'.pc = if x.lanes.getLsbD l then x.nextPc else th.pc)) ∧
    (n = 0x018 → threads (fun l th th' => th'.ltid = th.ltid ∧
      th'.dctr = (if x.act.getLsbD l then th.dctr.set fx (val l) else th.dctr) ∧
      th'.pc = if x.lanes.getLsbD l then x.nextPc else th.pc)) ∧
    (n = 0x024 → Completes (.swrite f) s x (fun cr => cr.getFstat = BitVec.ofNat 6 (x.uni f.a) ∧
      Kept (x.cr.setFstat cr.getFstat) cr none2 none1 none1)) ∧
    (n = 0x039 → v % 128 = 0 → dequeBusy s x.blk.core = false → Runs (.swrite f) s x (fun t cr => SameBytes s t ∧
      Kept x.cr cr none2 none1 none1 ∧ (t.core x.blk.core).dq = { core.dq with lim := v })) ∧
    (n = 0x038 → v % 128 = 0 → v + 256 ≤ core.dq.lim → core.dq.lim ≤ x.blk.bays.length * bayBytes core.split →
      ¬(core.dq.owner = some x.b ∧ core.dq.base = v) → Runs (.swrite f) s x (fun t cr =>
        Kept x.cr cr none2 none1 none1 ∧ (t.core x.blk.core).dq = ⟨some x.b, v, core.dq.lim, 0, 0⟩ ∧
        ∀ q ps, unitPlaces s x.blk 1 v 128 = .ok ps → q ∉ bytesOf ps → readPlace t q 1 = readPlace s q 1)))

/-! ## Issue, blocks and grids -/

namespace Sys2Proof.Claims

/-- The order in which ready groups take the paths (R19, R20): a group that has waited 64 times or more by its count, any
other after these by its threads; ties for the lower address. -/
def GroupFirst (aged : NMap Nat) (a b : Nat × Lanes) : Prop :=
  let w := fun (e : Nat × Lanes) => if 64 ≤ aged.getD e.1 0 then aged.getD e.1 0 else 0
  let size := fun (e : Nat × Lanes) => popcount e.2.toNat 32
  w b < w a ∨ (w a = w b ∧ 0 < w a ∧ a.1 ≤ b.1) ∨
    (w a = 0 ∧ w b = 0 ∧ (size b < size a ∨ (size a = size b ∧ a.1 ≤ b.1)))

/-- A turn of an issue slot lets the threads of its crews begin and end waits for operands (R17; log 126): a thread whose
instruction they keep back waits from then on, unless it has waited already, and one whose instruction may issue waits for them no
more. Nothing else of a thread changes. -/
def SeesOperands (s : State) (core slot b c : Nat) (cr cr' : Crew) : Prop :=
  ∀ l th, cr.thread? l = some th →
    let stands := fun (ready : Bool) => ∃ k g m, s.block? b = some k ∧ s.grid? k.grid = some g ∧ k.core = core ∧
      k.st = .resident ∧ cr.slot = slot ∧ (th.pc, m) ∈ threadGroups s b c k cr ∧ m.getLsbD l = true ∧
      groupReady s g cr th.pc m = ready
    let kept := stands false ∧ (th.wait = none ∨ th.wait = some .retry ∨ th.wait = some .operands)
    let freed := stands true ∧ th.wait = some .operands
    ∃ th', cr'.thread? l = some th' ∧
      (kept → th' = { th with wait := some .operands, since := some (th.since.getD (s.clock core)) }) ∧
      (freed → th' = { th with wait := none, since := none }) ∧ (¬kept → ¬freed → th' = th)

end Sys2Proof.Claims

/-- R17–R20, R83, R172: the crew that an issue slot picks: the most starved of those that have waited 128 times, the lowest
number on a tie; else, of the highest priority, the next in turn after the last one picked. Its first two groups by
`GroupFirst` are paths A and B; a single group may issue the next slot with it. Starvation and wait counts follow. A parked or
waiting crew, and a group with an empty destination, do not issue; threads that their operands keep back wait (`SeesOperands`). (One
place a slot for the round robin is log 110; when a wait for operands begins and ends is log 126.) -/
def Obligations.IssueSelection : Prop :=
  (∀ (last : Nat) (cs : List Cand) (p : Cand), cs.Pairwise (fun a b => a.num < b.num) → pickCrew last cs = some p →
    let top := fun (c : Cand) => ∀ d ∈ cs, d.prio ≤ c.prio
    p ∈ cs ∧
    ((∃ c ∈ cs, 128 ≤ c.starve) → 128 ≤ p.starve ∧
      ∀ c ∈ cs, c.starve < p.starve ∨ (c.starve = p.starve ∧ p.num ≤ c.num)) ∧
    ((∀ c ∈ cs, c.starve < 128) → top p ∧
      ((∃ c ∈ cs, top c ∧ last < c.num) → last < p.num ∧ ∀ c ∈ cs, top c → last < c.num → p.num ≤ c.num) ∧
      ((∀ c ∈ cs, top c → c.num ≤ last) → ∀ c ∈ cs, top c → p.num ≤ c.num))) ∧
  (∀ cs last, cs ≠ [] → (pickCrew last cs).isSome = true) ∧
  (∀ (aged : NMap Nat) (gs : NMap Lanes), (choosePaths aged gs).length = min 2 gs.length ∧
    ∃ rest, (choosePaths aged gs ++ rest).Perm gs ∧ (choosePaths aged gs ++ rest).Pairwise (GroupFirst aged)) ∧
  (∀ (core slot : Nat) (s : State) (p : Cand) (k : Block) (cr : Crew),
    let cs := candidates s core slot
    cs.Pairwise (fun a b => a.num < b.num) → pickCrew (s.slot core slot).last cs = some p → s.block? p.blk = some k →
    s.crew? p.blk p.crew = some cr →
    let chosen := choosePaths cr.aged p.groups
    let is := fun (q : Path) (a : Nat × Lanes) (second : Bool) => q.pc = a.1 ∧ q.lanes = a.2 ∧ q.isB = second
    ∃ t ps cr', exec (.issueCycle core slot) s = .next t ∧ SameBytes s t ∧ t.issue = s.issue ++ ps ∧
      (∀ q ∈ ps, q.blk = p.blk ∧ q.crew = p.crew) ∧
      (∀ a, chosen = [a] → ∃ q tail, ps = q :: tail ∧ is q a false ∧ tail.length ≤ 1 ∧
        ∀ r ∈ tail, is r (slotAddr (slotIndex a.1 + 1), a.2) true) ∧
      (∀ a b, chosen = [a, b] → ∃ q r, ps = [q, r] ∧ is q a false ∧ is r b true) ∧
      (t.slot core slot).last = p.num ∧ t.crew? p.blk p.crew = some cr' ∧ SameRegs cr cr' ∧
      SeesOperands s core slot p.blk p.crew cr cr' ∧
      (∀ g ∈ p.groups, cr'.aged.getD g.1 0 = if g ∈ chosen then 0 else cr.aged.getD g.1 0 + 1) ∧
      ∀ c ∈ cs, ∀ o, s.crew? c.blk c.crew = some o →
        (t.crew? c.blk c.crew).map (·.starve) = some (if c.num = p.num then 0 else o.starve + 1)) ∧
  (∀ (core slot : Nat) (s : State), candidates s core slot = [] → ∃ t, exec (.issueCycle core slot) s = .next t ∧
    SameBytes s t ∧ t.issue = s.issue ∧ t.cores = s.cores ∧ ∀ b c cr, s.crew? b c = some cr →
      ∃ cr', t.crew? b c = some cr' ∧ { cr' with threads := cr.threads } = cr ∧ SeesOperands s core slot b c cr cr') ∧
  (∀ (s : State) (b c : Nat) (k : Block) (cr : Crew),
    (k.st ≠ .resident ∨ cr.retired = true ∨ cr.trap ≠ none ∨ cr.pendingPf ≠ none ∨
      (∃ m p, cr.monitor = some m ∧ m.parked = some p) → readyGroups s b c k cr = []) ∧
    ∀ e ∈ readyGroups s b c k cr, ∀ g i, s.grid? k.grid = some g → slotInstr s g e.1 = some i →
      dstsReady cr i (lanesOf (activeLanes cr i.body.guard e.2)) = true)

/-- R50, R51, R130, R337, R344: a block of the queue is built on the core that its dispatcher has chosen, every crew at the
variant's entry with its arguments; a free core takes another split, an occupied one waits for it. R74, R275, R359: crews
retire, blocks end and give their core's resources back; R42: a grid is complete when every block of it and of its children
has ended and what they submitted is over. (That what they submitted counts, packets that nobody has read among it, by
`familyOver` and `subsOver`, is the model's choice: log 55; `FSTAT` 0 at launch is log 5; waiting for a split is log 45 and
log 103; a grid's cycles are those of the die of its first issue: log 106; a protection fault that a retiring crew holds ends its
grid, log 148.) -/
def Obligations.BlocksAndGrids : Prop :=
  (∀ (die core : Nat) (s : State) (e : Queued) (g : Grid) (v : Variant),
    (queueSort s (liveQueue s die)).findSome? (fun e => (placement s die e).map (fun ps => (e, ps))) =
      some (e, [(e.lin, core)]) → s.grid? e.grid = some g → splitReady s core g.split g.fuse = true →
    chooseVariant s core g [] = some v →
    ∃ t k, exec (.blockPlace die) s = .next t ∧ t.mem = s.mem ∧ t.block? s.nextBlock = some k ∧
      t.nextBlock = s.nextBlock + 1 ∧ k.grid = e.grid ∧ k.lin = e.lin ∧ k.vid = v.vid ∧ k.core = core ∧ k.st = .resident ∧
      k.fresh = true ∧ k.bays = freeBays s core v.bays ∧ k.crews.length = v.crews ∧
      (∀ c, c < v.crews → ∃ cr, k.crews.find? c = some cr ∧ cr.getS 0 = g.args ∧ cr.getS 1 = BitVec.ofNat 64 g.tcnt ∧
        cr.fstat = 0 ∧ cr.xheld = 0 ∧ cr.acqs = [⟨1, false⟩] ∧ cr.storePath = [] ∧
        ∀ l, l < 32 → ∃ th, cr.thread? l = some th ∧ th.pc = v.entry ∧ th.exited = false ∧ th.wait = none ∧
          ∀ f, f < v.fold → th.ltid.getD f 0 = BitVec.ofNat 64 (e.lin * 65536 + 32 * c + l + f * 32 * v.crews) ∧
            th.dctr.getD f 0 = 0) ∧
      (∃ g', t.grid? e.grid = some g' ∧ g'.launched = g.launched + 1) ∧
      ∀ o ∈ (t.die die).queue, ¬(o.grid = e.grid ∧ o.lin = e.lin) ∨ g.handed ≤ e.lin) ∧
  (∀ (core split : Nat) (s : State), split = 256 ∨ split = 384 ∨ split = 448 → core < 768 →
    (s.quad (quadOf core)).fused = false → (s.core core).split ≠ split →
    (onCore s core [] = [] → ∃ t, exec (.carveOutChange core split 0) s = .next t ∧ t.mem = s.mem ∧
      (t.core core).split = split ∧ t.copies.find? core = none ∧ (∀ d, d ≠ core → t.core d = s.core d) ∧
      t.blocks = s.blocks) ∧
    (onCore s core [] ≠ [] → exec (.carveOutChange core split 0) s =
      .next (s.setCore core { s.core core with draining := some split }))) ∧
  (∀ (core split : Nat) (s : State), split = 256 ∨ split = 384 ∨ split = 448 → core < 768 →
    (s.quad (quadOf core)).fused = false → (∀ i, i < 4 → onCore s (4 * quadOf core + i) [] = []) →
    ∃ t, exec (.carveOutChange core split 1) s = .next t ∧ t.mem = s.mem ∧ (t.quad (quadOf core)).fused = true ∧
      ∀ i, i < 4 → (t.core (4 * quadOf core + i)).split = split) ∧
  (∀ (b c : Nat) (s : State) (k : Block) (cr : Crew), s.block? b = some k → s.crew? b c = some cr → k.st = .resident →
    cr.allExited = true → cr.retired = false → cr.handler = none → cr.storePath = [] →
    ∃ t, exec (.crewRetire b c) s = .next t ∧ (cr.faults = [] → SameBytes s t ∧ t.grids = s.grids) ∧
      (cr.faults ≠ [] → ∀ g, s.grid? k.grid = some g → g.st = .running → (t.grid? k.grid).map (·.st) = some .faulted) ∧
      t.crew? b c = some cr.retire ∧
      (∀ q, q < 4 → ∀ p ∈ (wqOf t k.core q).pops, ¬(p.1 = b ∧ p.2.1 = c)) ∧
      ((∀ k', t.block? b = some k' → ∀ e ∈ k'.crews, e.2.retired = true) → ∀ dir, dir < 2 → ∀ ch,
        chanOf (t.core k.core) dir = some ch → ch.blk = b → ch.stopped = true)) ∧
  (∀ (b : Nat) (s : State) (k : Block) (g : Grid), s.block? b = some k → s.grid? k.grid = some g → k.st = .resident →
    (∀ e ∈ k.crews, e.2.retired = true) → opsDone s b = true →
    ∃ t k' g', exec (.blockEnd b) s = .next t ∧ t.mem = s.mem ∧ t.block? b = some k' ∧ k'.st = .ended ∧
      t.grid? k.grid = some g' ∧ g'.ended = g.ended + 1 ∧
      (g.st = .running → g'.endCycle = (s.die g.clkDie).clk / 50) ∧ (g.st ≠ .running → g'.endCycle = g.endCycle) ∧
      (∀ p gp, g.parent = some p → p ≠ k.grid → s.grid? p = some gp → gp.st = .running →
        (t.grid? p).map (·.endCycle) = some ((s.die gp.clkDie).clk / 50)) ∧
      ((s.core k.core).dq.owner = some b → (t.core k.core).dq.owner = none) ∧
      (∀ e ∈ (t.core k.core).acqWait, e.1 ≠ b)) ∧
  (∀ (gid : Nat) (s : State) (g : Grid), s.grid? gid = some g → g.st = .running →
    (familyOver s gid = true → childrenDone s gid = true → ∃ t g', exec (.gridComplete gid) s = .next t ∧
      t.grid? gid = some g' ∧ g'.st = .done ∧ (∀ i ∈ t.bars, i.grid ≠ gid) ∧ (noLadders s → g'.floor = g.floor ∧ g'.fq = g.fq) ∧
      ∀ h, h ≠ gid → t.grid? h = s.grid? h) ∧
    (familyOver s gid = false ∨ childrenDone s gid = false → exec (.gridComplete gid) s = .next s)) ∧
  (∀ (gid : Nat) (s : State) (g : Grid),
    (familyOver s gid = true ↔ ∀ i ∈ family s gid, subsOver s i = true ∧ ∀ h, s.grid? i = some h → blocksOver s i h = true) ∧
    (childrenDone s gid = true ↔ ∀ e ∈ s.grids, e.2.parent = some gid → e.2.st ≠ .running) ∧
    (g.st = .running → (blocksOver s gid g = true ↔ g.total ≤ g.ended)) ∧
    (g.st ≠ .running → (blocksOver s gid g = true ↔ ∀ e ∈ s.blocks, e.2.grid = gid → e.2.st = .ended)))

namespace Sys2Proof.Claims

/-- Every thread of the crew that has not exited executes the switch point now, waits there, or has left its arrival standing. -/
def AllAtPoint (x : Cx) (id : Nat) : Prop :=
  ∀ e ∈ x.cr.threads, e.2.exited = true ∨ x.act.getLsbD e.1 = true ∨ e.2.wait = some (.switchPt id) ∨
    ∃ a ∈ x.blk.standing, a.1 = x.c ∧ a.2.1 = .switchPt id ∧ a.2.2.1.getLsbD e.1 = true

/-- How often a crew, and a thread, has passed a switch point. -/
def passes (cr : Crew) (id : Nat) : Nat := cr.swCount.getD id 0
def passesOf (th : Thread) (id : Nat) : Nat := th.sw.getD id 0

/-- What the first crew that came to this pass over the point has sampled, or this one samples now (R133). -/
def flaggedAt (x : Cx) (id : Nat) : Bool := NMap.getD x.blk.sampled (id + 64 * passes x.cr id) x.blk.flag.isSome

/-- A crew goes past a switch point: the threads of `here`, and those that wait there. Of other points nothing changes. -/
def PassedPoint (old cr : Crew) (id : Nat) (here off : Lanes) : Prop :=
  SameRegs old cr ∧ passes cr id = passes old id + 1 ∧ (∀ i, i ≠ id → passes cr i = passes old i) ∧
  ∀ l th, old.thread? l = some th → ∃ th', cr.thread? l = some th' ∧ (∀ i, i ≠ id → passesOf th' i = passesOf th i) ∧
    (old.liveLanes.getLsbD l = true → passesOf th' id = passes old id + 1 ∧
      (off.getLsbD l = false → here.getLsbD l = true ∨ th.wait = some (.switchPt id) →
        th'.pc = slotAddr (slotIndex th.pc + 1) ∧ th'.wait = none)) ∧
    (old.liveLanes.getLsbD l = false → off.getLsbD l = false → th' = th)

/-- A block is flagged at a switch point, every crew has arrived, and everything older is complete. -/
structure SwitchReady (s : State) (x : Cx) (p : SwPoint) (v : Variant) (resume why : Nat) (map : List Nat) : Prop where
  flagged : x.blk.flag = some why
  sampled : flaggedAt x p.id = true
  here : AllAtPoint x p.id
  first : replays x p.id = 0
  arrived : othersArrived x.blk x.c p.id = true
  channels : streamRuns s x.b x.blk.core = false
  drained : switchDrained s x.b x.blk = true
  variant : x.variant = some v
  map : switchMap x.g v p.id = some (resume, map)
  phase : x.blk.spb = []

/-- Bytes of a list that hold a number, each byte written. -/
def Holds (a : List (Option Byte)) (ofs n v : Nat) : Prop := (a.drop ofs).take n = (leBytes n v).map some

/-- The switch area as it is written (R134): the header; for each logical thread that has not exited its `LTID`, its
`DCTR` and its words, each from the register that the running variant maps it to; the exit map; from the next multiple of
256 the bytes of the ranges in list order. The buffer is empty by then (R133, R318). -/
def AreaLayout : Prop :=
  ∀ (s : State) (g : Grid) (k : Block) (v : Variant) (p : SwPoint) (map : List Nat) (why : Nat),
    let a := areaBytes s g k v p map why
    let lbs := g.kern.lbs
    let size := (16 + 4 * p.w + 7) / 8 * 8
    let exits := 64 + lbs * size
    let ranges := (exits + lbs / 8 + 255) / 256 * 256
    let before := fun (i : Nat) => ((p.ranges.take i).map Prod.snd).sum
    Holds a 0 2 p.id ∧ Holds a 2 1 k.vid ∧ Holds a 3 1 why ∧ Holds a 4 4 p.w ∧ Holds a 8 4 lbs ∧
    Holds a 0xC 4 (before p.ranges.length) ∧ Holds a 0x18 4 0 ∧ Holds a 0x1C 36 0 ∧
    (∃ fst : Flags, Holds a 0x10 8 fst.toNat ∧
      ∀ i, fst.getLsbD i = true ↔ ∃ e ∈ k.crews, e.2.fstat.getLsbD i = true) ∧
    (∀ t, t < lbs → let l := t % 32
      let fx := t / (32 * v.crews)
      ∀ cr th, k.crews.find? (t % (32 * v.crews) / 32) = some cr → cr.thread? l = some th →
        (th.exited = false → fx ∉ th.gone →
          Holds a (64 + t * size) 8 (th.ltid.getD fx 0).toNat ∧ Holds a (64 + t * size + 8) 8 (th.dctr.getD fx 0).toNat ∧
          ∀ i, i < p.w → Holds a (64 + t * size + 16 + 4 * i) 4 (cr.getV (map.getD (fx * p.w + i) 0) l).toNat) ∧
        (lbs % 8 = 0 → ∃ m : Byte, a[exits + t / 8]? = some (some m) ∧
          (m.getLsbD (t % 8) = true ↔ th.exited = true ∨ fx ∈ th.gone))) ∧
    (∀ i r j q, p.ranges[i]? = some r → j < r.2 → bayPlace s k (r.1 + j) = some q →
      ∃ m : Byte, a[ranges + before i + j]? = some (some m) ∧ readPlace s q 1 = [m]) ∧
    a.length = ranges + before p.ranges.length

/-- What a block that enters a variant has from the switch area (R135), `at_` reading the area's bytes: each logical
thread's place, `LTID` and `DCTR`; every mapped word in its register; every other register zero and full; `FSTAT`; the
bytes of the ranges in its bays. A lane whose logical threads have all exited has exited, and a crew of such lanes does not
run. -/
def EntersVariant (t : State) (n k : Block) (g : Grid) (v : Variant) (p : SwPoint) (resume : Nat) (map : List Nat)
    (at_ : Nat → Nat → Nat) : Prop :=
  let size := (16 + 4 * p.w + 7) / 8 * 8
  let exits := 64 + g.kern.lbs * size
  let ranges := (exits + g.kern.lbs / 8 + 255) / 256 * 256
  let before := fun (i : Nat) => ((p.ranges.take i).map Prod.snd).sum
  n.grid = k.grid ∧ n.lin = k.lin ∧ n.vid = v.vid ∧ n.pass = k.pass ∧ n.triggered = k.triggered ∧ n.flag = none ∧
  n.spb = [] ∧ n.convs = [] ∧ n.grant = none ∧ n.kinds = [] ∧ n.wins = [] ∧ n.bypass = none ∧ n.acc.cells = [] ∧
  (∀ c, c < v.crews → ∃ cr, n.crews.find? c = some cr ∧ cr.fstat = BitVec.ofNat 6 (at_ 0x10 8) ∧ cr.xheld = 0 ∧
    cr.empty = [] ∧ cr.issued = [] ∧ (∀ r, cr.getS r = 0 ∧ cr.getP r = 0) ∧
    (cr.retired = true ↔ ∀ l, l < 32 → ∀ th, cr.thread? l = some th → th.exited = true) ∧
    (cr.retired = false → cr.acqs = [⟨1, false⟩]) ∧
    ∀ l, l < 32 → (map.length = v.fold * p.w → ∀ r, r ∉ map → cr.getV r l = 0) ∧
      ∃ th, cr.thread? l = some th ∧ th.pc = resume ∧ (th.exited = true ↔ ∀ fx, fx < v.fold → fx ∈ th.gone) ∧
        ∀ fx, fx < v.fold → let t := 32 * c + l + fx * 32 * v.crews
          (fx ∈ th.gone ↔ bitAt (at_ (exits + t / 8) 1) (t % 8) = true) ∧
          th.ltid.getD fx 0 = BitVec.ofNat 64 (at_ (64 + t * size) 8) ∧
          th.dctr.getD fx 0 = BitVec.ofNat 64 (at_ (64 + t * size + 8) 8) ∧
          (fx ∉ th.gone → map.Nodup → map.length = v.fold * p.w → ∀ i r, i < p.w → map[fx * p.w + i]? = some r →
            cr.getV r l = BitVec.ofNat 32 (at_ (64 + t * size + 16 + 4 * i) 4))) ∧
  (p.ranges.Pairwise (fun a b => a.1 + a.2 ≤ b.1 ∨ b.1 + b.2 ≤ a.1) →
    ∀ i r j q, p.ranges[i]? = some r → j < r.2 → bayPlace t n (r.1 + j) = some q →
      readPlace t q 1 = [BitVec.ofNat 8 (at_ (ranges + before i + j) 1)])

/-- A smaller budget: fewer register blocks, then fewer bays, then fewer tiles (R130). -/
def SmallerBudget (a b : Variant) : Prop :=
  a.regBlocks < b.regBlocks ∨ (a.regBlocks = b.regBlocks ∧ (a.bays < b.bays ∨ (a.bays = b.bays ∧ a.tiles < b.tiles)))

/-- What a policy takes of variants in preference order (R130). -/
def PolicyTakes (g : Grid) (vs : List Variant) (v : Variant) : Prop :=
  ∃ l r, vs = l ++ v :: r ∧ (g.policy = 0 → l = []) ∧
    (g.policy = 1 → (∀ w ∈ l, SmallerBudget v w) ∧ ∀ w ∈ r, ¬SmallerBudget w v) ∧
    (g.policy ≠ 0 → g.policy ≠ 1 → v.vid = g.fixedVar ∧ ∀ w ∈ l, w.vid ≠ g.fixedVar)

/-- Does a block of the grid fit a core, the resident blocks of `gone` counted as free? -/
def Fits (s : State) (c gid : Nat) (g : Grid) (gone : List Nat) : Prop :=
  barsOk s c gid g = true ∧ ∃ v, v ∈ eligible g ∧ (g.policy ≠ 0 → g.policy ≠ 1 → v.vid = g.fixedVar) ∧ fits s c g v gone = true

/-- A resident block of the core whose removal lets a block of the grid fit there. -/
def Opening (s : State) (c gid : Nat) (g : Grid) (e : Nat × Block) : Prop :=
  e ∈ s.blocks ∧ e.2.core = c ∧ e.2.st = .resident ∧ Fits s c gid g [e.1]

/-- The target of a waiting block (R132, R344): the core of its die that one block's removal would open, with the fewest
resident crews, the lowest on a tie. -/
def TargetIs (s : State) (die gid : Nat) (g : Grid) (c : Nat) : Prop :=
  let opens := fun d => 192 * die ≤ d ∧ d < 192 * die + 192 ∧ ∃ e, Opening s d gid g e
  opens c ∧ ∀ d, opens d → coreCrews s c [] < coreCrews s d [] ∨ (coreCrews s c [] = coreCrews s d [] ∧ c ≤ d)

/-- A block that waits in a die's queue and has flagged nothing yet: its grid and when it joined. Even numbers name the
queue's places, odd ones the blocks that wait for their relaunch. -/
def Waiting (s : State) (die w gid since : Nat) : Prop :=
  (w % 2 = 0 → ∃ e, (liveQueue s die)[w / 2]? = some e ∧ e.grid = gid ∧ e.since = since ∧ e.pressed = false) ∧
  (w % 2 = 1 → ∃ k, s.block? (w / 2) = some k ∧ k.st = .switching ∧ dieOf k.core = die ∧ k.grid = gid ∧ k.savedAt = since ∧
    k.pressed = false)

/-- A larger budget, or as large a one for longer (R132). -/
def PressedFirst (s : State) (a b : Nat × Block) : Prop :=
  let z := fun (k : Block) => ((blockVariant s k).map (fun v => (v.regBlocks * 32 + v.bays) * 32 + v.tiles)).getD 0
  z b.2 < z a.2 ∨ (z a.2 = z b.2 ∧ (a.2.placedAt < b.2.placedAt ∨ (a.2.placedAt = b.2.placedAt ∧ a.1 ≤ b.1)))

/-- Reason 1 (R132): the waiting block has had the core as its target for longer than its own `SWITCH_WAIT`, and block `b`
is the first of those it could press. -/
def Pressure (s : State) (w b : Nat) (k : Block) : Prop :=
  let die := dieOf k.core
  ∃ gid since g rg k', Waiting s die w gid since ∧ s.grid? gid = some g ∧ g.st = .running ∧ s.grid? k.grid = some rg ∧
    rg.policy ≠ 2 ∧ g.switchWait ≠ 0xFFFFFFFF ∧ g.switchWait < (s.die die).clk / 50 - since ∧ TargetIs s die gid g k.core ∧
    Opening s k.core gid g (b, k') ∧ ∀ e, Opening s k.core gid g e → PressedFirst s (b, k') e

/-- Reason 2 (R132): with the block's own resources counted as free the policy takes another variant than its own. -/
def Prefers (s : State) (b : Nat) (k : Block) : Prop :=
  ∃ g v, s.grid? k.grid = some g ∧ g.policy ≠ 2 ∧
    PolicyTakes g ((eligible g).filter (fun v => v.vid == k.vid || fits s k.core g v [b])) v ∧ v.vid ≠ k.vid

/-- A block of the grid needs what block `b` holds: the core is its target, opens without `b`, and has no room now. -/
def Needs (s : State) (b : Nat) (k : Block) (gid : Nat) : Prop :=
  ∃ g, s.grid? gid = some g ∧ TargetIs s (dieOf k.core) gid g k.core ∧ Fits s k.core gid g [b] ∧
    ∀ v, v ∈ eligible g → (g.policy ≠ 0 → g.policy ≠ 1 → v.vid = g.fixedVar) → fits s k.core g v [] = false

/-- The blocks that no producer keeps waiting (R147). -/
def MayLaunch (s : State) (e : Queued) : Prop :=
  ∃ g, s.grid? e.grid = some g ∧ ∀ p q, g.producer = some p → s.grid? p = some q → q.st = .running → q.total ≤ q.launched

/-- Reason 3 (R132): a ready saved block (R358), the queue's first block that may be launched, or a block that waits for its
relaunch needs what this block holds. -/
def Restores (s : State) (b : Nat) (k : Block) : Prop :=
  (∃ e ∈ s.blocks, e.2.st = .saved ∧ e.2.fseq = none ∧ ∃ g v, s.grid? e.2.grid = some g ∧ blockVariant s e.2 = some v ∧
    g.st = .running ∧ fits s k.core g v [] = false ∧ fits s k.core g v [b] = true ∧
    TargetIs s (dieOf k.core) e.2.grid g k.core) ∨
  (∃ l e r, queueSort s (liveQueue s (dieOf k.core)) = l ++ e :: r ∧ (∀ o ∈ l, ¬MayLaunch s o) ∧ MayLaunch s e ∧
    Needs s b k e.grid) ∨
  (∃ e ∈ s.blocks, e.2.st = .switching ∧ dieOf e.2.core = dieOf k.core ∧
    (∃ g, s.grid? e.2.grid = some g ∧ g.st = .running) ∧ Needs s b k e.2.grid)

end Sys2Proof.Claims

/-- R131–R135, R282: without a flag a crew passes a switch point, with one it waits for the others; the last one's arrival
writes the switch area (`AreaLayout`) and the block leaves its core, or, while a stream of its runs, every crew goes on; a
thread that a rollback took back before a point that its crew has passed goes on at once. The block's relaunch enters the
variant that the policy takes (`EntersVariant`). An identifier that is not declared and a convergence register that is in
use raise `PROT`; in step 4 a page fault is serviced, and a protection violation abandons the switch: every crew raises
`PROT` at its `switchpt`, the block keeps its flag and samples it afresh. A flag is set for pressure, an idle core or a
restore, as R132 has them, with the reason that ranks highest. (Readings that are the model's: R132 log 46; which blocks are
about to place log 146; a block whose victim's grid is `FIXED` flags nothing: log 134; ties of age go to the lower number;
how often a point was sampled log 96; the block's `triggered` is kept, a crew's own dropped: log 132; bytes beyond the bays:
log 131; that the buffer stays applied when step 4 fails: log 130.) -/
def Obligations.Switching : Prop :=
  AreaLayout ∧
  (∀ (f : FmtS) (s : State) (x : Cx) (p : SwPoint), Ready (.switchpt f) s x →
    x.g.kern.sws.find? (fun p => p.id == f.imm16.toNat) = some p → convHeld x.blk = false →
    (replays x p.id ≠ 0 → ∃ t cr, exec (.switchpt f) s = .next t ∧ SameBytes s t ∧ t.crew? x.b x.c = some cr ∧
      SameRegs x.cr cr ∧ cr.swCount = x.cr.swCount ∧ ∀ l th, x.cr.thread? l = some th → ∃ th', cr.thread? l = some th' ∧
        (x.act.getLsbD l = true → passesOf th p.id < passes x.cr p.id → x.lanes.getLsbD l = true →
          th'.pc = x.nextPc ∧ passesOf th' p.id = passesOf th p.id + 1) ∧
        (x.act.getLsbD l = true → passes x.cr p.id ≤ passesOf th p.id → th' = th)) ∧
    (replays x p.id = 0 → ¬AllAtPoint x p.id → ∃ t cr, exec (.switchpt f) s = .next t ∧ SameBytes s t ∧
      t.crew? x.b x.c = some cr ∧ SameRegs x.cr cr ∧ Parked x cr (.switchPt p.id)) ∧
    (replays x p.id = 0 → AllAtPoint x p.id → flaggedAt x p.id = false → ∃ t cr, exec (.switchpt f) s = .next t ∧ SameBytes s t ∧
      t.crew? x.b x.c = some cr ∧ PassedPoint x.cr cr p.id x.act (x.lanes &&& ~~~x.act)) ∧
    (replays x p.id = 0 → AllAtPoint x p.id → flaggedAt x p.id = true → othersArrived x.blk x.c p.id = false → ∃ t cr,
      exec (.switchpt f) s = .next t ∧ SameBytes s t ∧ t.crew? x.b x.c = some cr ∧ SameRegs x.cr cr ∧
      Parked x cr (.switchPt p.id)) ∧
    (replays x p.id = 0 → AllAtPoint x p.id → flaggedAt x p.id = true → othersArrived x.blk x.c p.id = true →
      streamRuns s x.b x.blk.core = true → ∃ t k, exec (.switchpt f) s = .next t ∧ SameBytes s t ∧ t.block? x.b = some k ∧
        k.flag = x.blk.flag ∧ k.st = x.blk.st ∧ ∀ c cr, x.blk.crews.find? c = some cr → cr.allExited = false →
          ∃ cr', k.crews.find? c = some cr' ∧ PassedPoint cr cr' p.id (if c = x.c then x.act else 0) 0) ∧
    (∀ v resume why map ps s1, SwitchReady s x p v resume why map → noLadders s →
      let data := areaBytes s x.g x.blk v p map why
      longPieces s x.g.ctx .write (data.length + 1) (x.g.swArea + x.blk.lin * x.g.kern.swsize) data.length = .ok (ps, s1) →
      let dst := bytesOf (ps.map (fun q => (.g q.1, q.2)))
      dst.Nodup → ∃ t k, exec (.switchpt f) s = .next t ∧ t.block? x.b = some k ∧ k.st = .switching ∧ k.flag = none ∧
        k.switchId = p.id ∧ (∀ (i : Nat) (d : Place) (b : Byte), dst[i]? = some d → data[i]? = some (some b) → readPlace t d 1 = [b]) ∧
        ∀ a, Place.g a ∉ dst → t.mem.read1 a = s.mem.read1 a)) ∧
  (∀ (f : FmtS) (s : State) (x : Cx), Ready (.switchpt f) s x →
    ((∀ p ∈ x.g.kern.sws, p.id ≠ f.imm16.toNat) ∨ (∃ v ∈ x.blk.convs.vals, v.sig ≠ none ∨ v.copies ≠ [])) → calm x →
    RaisedOpen (.switchpt f) s x cProt 0) ∧
  (∀ (f : FmtS) (s : State) (x : Cx) (p : SwPoint) (v : Variant) (resume why : Nat) (map : List Nat) (e : AccFault),
    Ready (.switchpt f) s x → x.g.kern.sws.find? (fun p => p.id == f.imm16.toNat) = some p → convHeld x.blk = false →
    SwitchReady s x p v resume why map →
    let n := (areaBytes s x.g x.blk v p map why).length
    longPieces s x.g.ctx .write (n + 1) (x.g.swArea + x.blk.lin * x.g.kern.swsize) n = .error e →
    (e.cause = cPf → ∃ t k, exec (.switchpt f) s = .next t ∧ SameBytes s t ∧ t.block? x.b = some k ∧ k.st = x.blk.st ∧
      k.flag = some why ∧ t.crew? x.b x.c = some { x.cr with pendingPf := some (e.va, 1, 0) } ∧
      ∀ c, c ≠ x.c → t.crew? x.b c = s.crew? x.b c) ∧
    (e.cause ≠ cPf → (∀ c ∈ x.blk.crews, c.2.trap = none ∧ c.2.handler = none) → ∃ t k, exec (.switchpt f) s = .next t ∧
      SameBytes s t ∧ t.block? x.b = some k ∧ k.st = x.blk.st ∧ k.flag = some why ∧
      k.sampled.find? (p.id + 64 * passes x.cr p.id) = none ∧
      ∀ c cr, x.blk.crews.find? c = some cr → cr.allExited = false → ∃ cr' pc, k.crews.find? c = some cr' ∧ SameRegs cr cr' ∧
        cr'.trap = some { cause := cProt, taddr := e.va, pc := pc, lanes := cr.liveLanes, imm := 0, resume := 0,
                          late := false, acc := 1 } ∧
        (∀ l th, cr.liveLanes.getLsbD l = true → cr.thread? l = some th →
          cr'.thread? l = some { th with wait := none, arrived := false } ∧
          ((∀ m, m < l → cr.liveLanes.getLsbD m = false) → pc = th.pc)))) ∧
  (∀ (g : Grid) (vs : List Variant) (v : Variant), takeVariant g vs = some v ↔ PolicyTakes g vs v) ∧
  (∀ (b core : Nat) (s s1 : State) (k : Block) (g : Grid) (v : Variant) (p : SwPoint) (resume : Nat) (map : List Nat)
    (ps : List (Nat × Nat)), s.block? b = some k → k.st = .switching → s.grid? k.grid = some g → g.st = .running →
    barsOk s core k.grid g = true → splitReady s core g.split g.fuse = true → chooseVariant s core g [] = some v →
    g.kern.sws.find? (fun p => p.id == k.switchId) = some p → switchMap g v p.id = some (resume, map) →
    longPieces s g.ctx .read (g.kern.swsize + 1) (g.swArea + k.lin * g.kern.swsize) g.kern.swsize = .ok (ps, s1) →
    let area := ps.flatMap (fun q => s.mem.read q.1 q.2)
    ∃ t n, exec (.switchRelaunch b core) s = .next t ∧ t.mem = s.mem ∧ t.block? b = some n ∧ n.st = .resident ∧
      n.core = core ∧ EntersVariant t n k g v p resume map (fun ofs n => leNat ((area.drop ofs).take n))) ∧
  (∀ (w b : Nat) (s : State) (k : Block), s.block? b = some k → k.st = .resident → k.flag = none →
    let flagged := fun (i : Instr) (r : Nat) => ∃ t, exec i s = .next t ∧ SameBytes s t ∧
      (t.block? b).map (·.flag) = some (some r) ∧ ∀ c, t.crew? b c = s.crew? b c
    (Pressure s w b k → (Restores s b k → flagged (.switchFlagPressure w b) 3) ∧
      (¬Restores s b k → flagged (.switchFlagPressure w b) 1)) ∧
    (¬Pressure s w b k → exec (.switchFlagPressure w b) s = .next s) ∧
    (Prefers s b k → (Restores s b k → flagged (.switchFlagIdle b) 3) ∧
      (¬Restores s b k → (∃ w, Pressure s w b k) → flagged (.switchFlagIdle b) 1) ∧
      (¬Restores s b k → (¬∃ w, Pressure s w b k) → flagged (.switchFlagIdle b) 2)) ∧
    (¬Prefers s b k → exec (.switchFlagIdle b) s = .next s) ∧
    (Restores s b k → flagged (.switchFlagRestore b) 3) ∧
    (¬Restores s b k → exec (.switchFlagRestore b) s = .next s))

namespace Sys2Proof.Claims

/-- `n` bytes of a frame, read as a number. -/
def Field (f : List Byte) (ofs n v : Nat) : Prop := leNat ((f.drop ofs).take n) = v

/-- Bytes of a frame that are zero. -/
def ZeroFrom (f : List Byte) (lo hi : Nat) : Prop := ∀ i, lo ≤ i → i < hi → f[i]? = some 0

/-- A crew's record with its octets, from byte `at_` of a frame (R356). -/
def CrewRecord (s : State) (b c : Nat) (cr : Crew) (f : List Byte) (at_ : Nat) : Prop :=
  let mon := cr.monitor.getD ⟨0, 0, none⟩
  (∀ r, r < 64 → Field f (at_ + 8 * r) 8 ((NMap.find? cr.ckS r).getD (cr.getS r)).toNat) ∧
  (∀ r, r < 16 → Field f (at_ + 0x200 + 4 * r) 4 (cr.getP r).toNat) ∧
  Field f (at_ + 0x240) 8 cr.ckFstat.toNat ∧ Field f (at_ + 0x248) 2 ((outstanding s b c 1).length % 2 ^ 16) ∧
  Field f (at_ + 0x24A) 1 (cr.xheld.toNat + 16 * cr.xmark.toNat) ∧ ZeroFrom f (at_ + 0x24B) (at_ + 0x24C) ∧
  Field f (at_ + 0x24C) 2 ((outstanding s b c 4).length % 2 ^ 16) ∧ ZeroFrom f (at_ + 0x24E) (at_ + 0x250) ∧
  Field f (at_ + 0x250) 8 (mon.addr % 2 ^ 64) ∧ Field f (at_ + 0x258) 1 (mon.space % 256) ∧
  Field f (at_ + 0x260) 4 (cr.lanesWhere (·.exited)).toNat ∧ ZeroFrom f (at_ + 0x264) (at_ + 0x300) ∧
  (∀ l th, l < 32 → cr.thread? l = some th →
    Field f (at_ + 0x300 + 8 * l) 8 (th.head.pc % 2 ^ 64) ∧ Field f (at_ + 0x400 + 4 * l) 4 th.head.li.toNat ∧
    Field f (at_ + 0x480 + 4 * l) 4 th.head.ws.toNat ∧ Field f (at_ + 0x500 + 8 * l) 2 (th.cnt.red % 2 ^ 16) ∧
    Field f (at_ + 0x502 + 8 * l) 2 (th.cnt.dq % 2 ^ 16) ∧ Field f (at_ + 0x504 + 8 * l) 2 (th.cnt.wq % 2 ^ 16) ∧
    Field f (at_ + 0x506 + 8 * l) 2 (th.cnt.pool % 2 ^ 16) ∧
    ∀ k, k < 4 → Field f (at_ + 0x600 + 32 * l + 8 * k) 8 (th.ltid.getD k 0).toNat ∧
      Field f (at_ + 0xA00 + 32 * l + 8 * k) 8 (th.dctr.getD k 0).toNat) ∧
  ZeroFrom f (at_ + 0xE00) (at_ + 0x1000) ∧
  ∀ j o l th r, cr.octets[j]? = some o → l < 32 → cr.thread? l = some th → th.exited = false →
    th.head.li.getLsbD o = true → r < 8 →
    Field f (at_ + 0x1000 + 1024 * j + 32 * l + 4 * r) 4 (cr.getV (8 * o + r) l).toNat

/-- The frame that a save writes (R355–R357): the header, a record for each crew with its octets, the bays, the accumulator
tiles, the Serial Phase Buffer in key order, and 8 KiB of the Save Engine's own. -/
def FrameLayout : Prop :=
  ∀ (s : State) (b why : Nat) (k : Block) (g : Grid),
    let bays := savedBayList s b k
    let f := frameBytes s b k g why bays
    let pf := faultedCrew k
    let size := bayBytes (s.core k.core).split
    let tiles := ((blockVariant s k).map (·.tiles)).getD 0
    let crewsTo := fun (n : Nat) => 256 + ((k.crews.take n).map (fun e => 4096 + 1024 * e.2.octets.length)).sum
    let bayAt := crewsTo k.crews.length
    let accAt := bayAt + size * bays.length
    let spbAt := accAt + 16384 * tiles
    Field f 0 8 (k.lin % 2 ^ 64) ∧ Field f 8 8 (g.cmpl % 2 ^ 64) ∧ Field f 0x10 1 (k.vid % 256) ∧
    Field f 0x11 1 (k.crews.length % 256) ∧ Field f 0x12 1 (why % 256) ∧ Field f 0x13 1 (if pf.isSome then 1 else 0) ∧
    Field f 0x14 4 ((bays.map (2 ^ ·)).sum % 2 ^ 32) ∧ Field f 0x18 8 ((pf.map Prod.fst).getD 0 % 2 ^ 64) ∧
    Field f 0x20 4 ((pf.map Prod.snd).getD 0 % 2 ^ 32) ∧ Field f 0x24 4 (f.length % 2 ^ 32) ∧
    Field f 0x28 2 (k.spb.length % 2 ^ 16) ∧ ZeroFrom f 0x2A 0x100 ∧
    (∀ i c cr, k.crews[i]? = some (c, cr) → CrewRecord s b c cr f (crewsTo i)) ∧
    (∀ i n, bays[i]? = some n → (f.drop (bayAt + size * i)).take size = bayData s k n) ∧
    (f.drop accAt).take (16384 * tiles) = k.acc.read 0 (16384 * tiles) ∧
    (∀ (i : Nat) (e : SpbEntry), (spbSort k.spb)[i]? = some e → let at_ := spbAt + 24 * i
      Field f at_ 8 e.ltid.toNat ∧ Field f (at_ + 8) 8 e.operand.toNat ∧ Field f (at_ + 16) 4 (e.ofs % 2 ^ 32) ∧
      Field f (at_ + 20) 2 (e.count % 2 ^ 16) ∧ Field f (at_ + 22) 1 (e.aop % 256) ∧ Field f (at_ + 23) 1 (e.w % 256)) ∧
    f.length = spbAt + roundUp (24 * k.spb.length) 256 + 8192

/-- A block leaves its core for fault service or pre-emption: its crews stand at their heads, the frame is written to the
object taken from the save pool, and its bays are kept. -/
def BlockSaves : Prop :=
  ∀ (b frame : Nat) (s s1 : State) (k : Block) (g : Grid) (c : Ctx), s.block? b = some k → s.grid? k.grid = some g →
    s.ctxs.find? g.ctx = some c → canSave s b k = true → takeFrame s g.ctx = some (frame, s1) →
    (∀ e ∈ k.crews, e.2.retired = true ∨ e.2.allExited = true ∨ e.2.atHeads = true) →
    let bays := savedBayList s1 b k
    let saved := fun (i : Instr) (why : Nat) => ∃ t k', exec i s = .next t ∧ t.block? b = some k' ∧ k'.st = .saved ∧
      k'.frame = frame ∧ k'.framePool = (s.ring g.ctx).savePool % 16 ∧ k'.why = why ∧ k'.crews = k.crews ∧
      k'.fseq = (faultedCrew k).map Prod.snd ∧ k'.savedBays = bays.map (fun i => (i, bayData s1 k i)) ∧
      t.mem = (storeVirt s1 c frame (frameBytes s1 b k g why bays)).mem ∧ t.pools = s1.pools ∧
      ∀ d, d ≠ b → t.block? d = s.block? d
    ((faultedCrew k).isSome = true → saved (.faultServiceSave b) 1) ∧
    (faultedCrew k = none → saved (.preemptionSave b) 0)

/-- The longest parked block of a core makes room for a ready saved one: its threads are back at their heads (R362). -/
def ParkedLeaves : Prop :=
  ∀ (b frame : Nat) (s s1 : State) (k : Block) (g : Grid), s.block? b = some k → s.grid? k.grid = some g →
    canSave s b k = true → takeFrame s g.ctx = some (frame, s1) → evictFor s k.core = true → parked k = true →
    (∀ e ∈ s.blocks, e.2.st = .resident → e.2.core = k.core → parked e.2 = true ∧ (e.1 = b ∨
      parkedSince k < parkedSince e.2 ∨ (parkedSince k = parkedSince e.2 ∧ b < e.1))) →
    ∃ t k', exec (.parkedBlockEvict b) s = .next t ∧ t.block? b = some k' ∧ k'.st = .saved ∧ k'.frame = frame ∧
      k'.why = 2 ∧ ∀ c cr l th, k.crews.find? c = some cr → cr.retired = false → cr.thread? l = some th →
        th.exited = false → th.committed = false → ∃ cr' th', k'.crews.find? c = some cr' ∧ cr'.thread? l = some th' ∧
          th'.pc = th.head.pc ∧ ∀ w, th'.wait = some w → w = .operands

/-- A saved block resumes: each live crew as it was saved, at its heads, with the registers that the heads name and an
acquire; its bays come back, its frame goes back to its pool, and the flag of reason 3 is set (R358, R354). -/
def BlockResumes : Prop :=
  ∀ (b core : Nat) (s : State) (k : Block) (g : Grid) (v : Variant), s.block? b = some k → s.grid? k.grid = some g →
    blockVariant s k = some v → restoreFits s core k = true →
    (∀ e ∈ s.blocks, e.1 = b ∨ restoreFits s core e.2 = false ∨ restoreBefore s (b, k) e = true) →
    queuedAhead s core g.prio = false →
    ∃ t n, exec (.blockRestore b core) s = .next t ∧ t.block? b = some n ∧ n.st = .resident ∧ n.core = core ∧
      n.flag = some (k.flag.getD 3) ∧ n.bays = freeBays s core v.bays ∧ n.pass = k.pass ∧ n.lin = k.lin ∧ n.acc = k.acc ∧
      (∀ p c, k.frame ≠ 0 → s.ctxs.find? g.ctx = some c → s.pools.find? k.framePool = some p →
        t.pools.find? k.framePool = some { p with head := k.frame, free := (p.free + 1) % 2 ^ 32 }) ∧
      (∀ j, j ≠ k.framePool → t.pools.find? j = s.pools.find? j) ∧
      (let size := bayBytes (s.core core).split
       (k.savedBays.map Prod.fst).Nodup → ∀ e ∈ k.savedBays, e.2.length = size → ∀ p, bayPlace s n (e.1 * size) = some p →
        readPlace t p size = e.2) ∧
      ∀ c cr, k.crews.find? c = some cr → ∃ cr', n.crews.find? c = some cr' ∧ (cr.retired = true → cr' = cr) ∧
        (cr.retired = false → cr'.threads = cr.threads ∧ cr'.pendingPf = none ∧ cr'.acqs = cr.acqs ++ [⟨cr.seq + 1, false⟩] ∧
          (∀ r, cr'.getS r = cr.getS r ∧ cr'.getP r = cr.getP r) ∧ cr'.getFstat = cr.getFstat ∧ cr'.empty = cr.empty ∧
          ∀ r l w, (∃ e ∈ cr.threads, e.2.exited = false ∧ ∃ x ∈ e.2.head.v, x.1 = Crew.key r l) →
            (∀ e ∈ cr.threads, e.2.exited = false → ∀ x ∈ e.2.head.v, x.1 = Crew.key r l → x.2 = w) → cr'.getV r l = w)

end Sys2Proof.Claims

/-- R280, R352, R354–R358, R362: a block that can be saved leaves its core with its frame in an object of the save pool,
for fault service, for pre-emption or because it is parked; restored, each of its crews is as saved on the new core, with
an acquire, and the flag of reason 3 is set. (The conditions are partly readings: log 74, log 75; item 4 of a frame is the
Save Engine's own form.) -/
def Obligations.SaveAndRestore : Prop := FrameLayout ∧ BlockSaves ∧ ParkedLeaves ∧ BlockResumes

/-- What a cut keeps of an entry of a Store Path: it is still performed, at its place and with its value, and what an atomic
or a `pooltake` would return is discarded (R41). -/
def Sys2Proof.Claims.CutKeeps (e e' : SpEntry) : Prop :=
  (∀ seq place n aop b c d va lanes, e = .atomic seq place n aop b c d va lanes →
    e' = .atomic seq place n aop b c none va lanes) ∧
  (∀ seq n d pd lane, e = .marker seq (.pooltake n d pd lane) → e' = .marker seq (.pooltake n none pd lane)) ∧
  ((∀ seq place n aop b c d va lanes, e ≠ .atomic seq place n aop b c d va lanes) →
    (∀ seq n d pd lane, e ≠ .marker seq (.pooltake n d pd lane)) → e' = e)

/-- R40, R41: a cone that has reached its limit, while some block of its family has not ended, cuts its grid and every grid
below it; when the cut reaches a core, its crews drop their pending loads, returns and acquires, and perform what their
Store Paths hold; a block that is not resident then ends, its operations abandoned, and its frame goes back. (A grid's
cycles are those of the die of its first issue: log 106; energy is log 58; what a cut drops is partly a reading: log 57.) -/
def Sys2Proof.Claims.ConesAndCuts : Prop :=
  (∀ (gid : Nat) (s : State) (g : Grid), s.grid? gid = some g →
    let cuts := fun (i : Instr) => ∃ t, exec i s = .next t ∧ t.blocks = s.blocks ∧ (noLadders s → t.mem = s.mem) ∧
      (∀ h ∈ family s gid, ∀ g', s.grid? h = some g' → ∃ g'', t.grid? h = some g'' ∧
        (g'.st = .running → g''.st = .cut) ∧ (g'.st ≠ .running → g''.st = g'.st)) ∧
      ∀ h, h ∉ family s gid → t.grid? h = s.grid? h
    gid ∈ family s gid ∧ (coneRuns s gid g = true ↔ g.st ≠ .done ∧ familyOver s gid = false) ∧
    (coneRuns s gid g = true → g.cone.cyc ≠ 0 → g.firstCycle.isSome = true → g.cone.cyc ≤ g.elapsed s →
      cuts (.coneCycleExpiry gid)) ∧
    (coneRuns s gid g = true → g.cone.nj ≠ 0 → g.firstCycle.isSome = true → s.time % 1000 = 0 →
      g.cone.nj ≤ Config.energy gid s.time → cuts (.coneEnergyExpiry gid)) ∧
    (coneRuns s gid g = true → g.cone.ns ≠ 0 → g.cone.ns ≤ s.time → cuts (.coneDeadlineExpiry gid)) ∧
    (coneRuns s gid g = false ∨ s.time < g.cone.ns → exec (.coneDeadlineExpiry gid) s = .next s) ∧
    (coneRuns s gid g = false ∨ g.elapsed s < g.cone.cyc → exec (.coneCycleExpiry gid) s = .next s)) ∧
  (∀ (gid v : Nat) (s : State) (g : Grid) (l : Ladder) (c : Ctx), s.grid? gid = some g → g.st = .running →
    coneRuns s gid g = true → g.ladder = some l → s.ctxs.find? g.ctx = some c → natVirt s c (l.hdr + 0x14) 4 = some v →
    (∀ h ∈ family s gid, ∀ g', h ≠ gid → s.grid? h = some g' → g'.ladder = none ∨ g'.st ≠ .running) →
    let cuts := fun (i : Instr) => ∃ t g', exec i s = .next t ∧
      t.mem = (writeVirt s c (l.hdr + 0x14) (leBytes 4 (v ||| 8))).mem ∧ t.grid? gid = some g' ∧ g'.st = .cut ∧
      (∀ w, natVirt t c (l.hdr + 0x10) 2 = some w → g'.floor = w) ∧ ∀ w, natVirt t c (l.hdr + 0x12) 2 = some w → g'.fq = w
    (g.cone.cyc ≠ 0 → g.firstCycle.isSome = true → g.cone.cyc ≤ g.elapsed s → cuts (.coneCycleExpiry gid)) ∧
    (g.cone.nj ≠ 0 → g.firstCycle.isSome = true → s.time % 1000 = 0 → g.cone.nj ≤ Config.energy gid s.time →
      cuts (.coneEnergyExpiry gid)) ∧
    (g.cone.ns ≠ 0 → g.cone.ns ≤ s.time → cuts (.coneDeadlineExpiry gid))) ∧
  (∀ (gid core : Nat) (s : State) (g : Grid), s.grid? gid = some g → g.st = .cut ∨ g.st = .faulted →
    g.cutCores.contains core = false →
    ∃ t g', exec (.cutArrival gid core) s = .next t ∧ SameBytes s t ∧ t.grid? gid = some g' ∧
      g'.cutCores = g.cutCores ++ [core] ∧ (∀ i ∈ t.bars, i.grid ≠ gid) ∧
      ∀ b k c cr, (b, k) ∈ s.blocks → s.block? b = some k → k.grid = gid → k.core = core → k.st = .resident →
        k.crews.find? c = some cr → ∃ cr', t.crew? b c = some cr' ∧ cr'.loads = [] ∧ cr'.returns = [] ∧
          cr'.acqs = [] ∧ cr'.locks = [] ∧ cr'.trap = none ∧ cr'.handler = none ∧ cr'.pendingPf = none ∧
          cr'.storePath.length = cr.storePath.length ∧
          (∀ (j : Nat) (e : SpEntry), cr.storePath[j]? = some e → ∃ e', cr'.storePath[j]? = some e' ∧ CutKeeps e e') ∧
          SameRegs { cr with handler := none } cr') ∧
  (∀ (b : Nat) (s : State) (k : Block) (g : Grid), s.block? b = some k → s.grid? k.grid = some g → g.st ≠ .running →
    k.st = .saved ∨ k.st = .switching → ∃ t k' g', exec (.blockEnd b) s = .next t ∧ t.block? b = some k' ∧ k'.st = .ended ∧
      t.grid? k.grid = some g' ∧ g'.ended = g.ended + 1 ∧ g'.st = g.st ∧
      (∀ o ∈ t.ops, o.blk = b → o.pkt = none → o.done = true) ∧
      ∀ p c, k.st = .saved → k.frame ≠ 0 → s.ctxs.find? g.ctx = some c → s.pools.find? k.framePool = some p →
        t.pools.find? k.framePool = some { p with head := k.frame, free := (p.free + 1) % 2 ^ 32 })

/-- R144, R211: `mov` from a queue gives its oldest words to the active lanes in order, leaves the lanes that get none
empty, and gives a waiting lane what is pushed first; `mov` to a queue appends the active lanes' words, those that a replay
discards left out, while they fit. -/
def Sys2Proof.Claims.WordQueueMoves : Prop :=
  ∀ (f : FmtA) (s : State) (x : Cx) (q : BitVec 2), Ready (.mov f) s x →
    let core := x.blk.core
    let w := wqOf s core q.toNat
    let gid := x.blk.grid
    let lanes := if oprIsV f.a then x.acts else [x.first]
    w.grid = some gid ∨ w.grid = none →
    (∀ r, f.d = .v r → f.a = .wq q → w.pops = [] →
      (∀ l ∈ x.acts, ∃ th, x.cr.thread? l = some th ∧ th.exited = false) →
      ∃ t cr, exec (.mov f) s = .next t ∧ t.crew? x.b x.c = some cr ∧ SameBytes s t ∧
        wqOf t core q.toNat = ⟨w.elems.drop x.acts.length, some gid, (x.acts.drop w.elems.length).map (fun l =>
          (x.b, x.c, ⟨true, x.cr.vName r.toNat, 1, l, x.cr.seq + 1⟩))⟩ ∧
        Kept { x.cr with seq := x.cr.seq + 1 } cr (destV x f.d 1) none1 none1 ∧
        (∀ l th, x.cr.thread? l = some th → x.lanes.getLsbD l = true →
          ∃ th', cr.thread? l = some th' ∧ th'.pc = x.nextPc) ∧
        ∀ (i l : Nat), x.acts[i]? = some l →
          (∀ e : Word, w.elems[i]? = some e → cr.getV (x.cr.vName r.toNat) l = e ∧
            cr.isEmpty (x.cr.vName r.toNat) l = false) ∧
          (w.elems.length ≤ i → cr.isEmpty (x.cr.vName r.toNat) l = true)) ∧
    (∀ r e es, f.d = .s r → f.a = .wq q → w.pops = [] → w.elems = e :: es →
      Runs (.mov f) s x (fun t cr => SameBytes s t ∧ wqOf t core q.toNat = ⟨es, some gid, []⟩ ∧
        (cr.getS (x.cr.sName r.toNat)).toNat = toUniform f.ty e.toNat ∧ Kept x.cr cr none2 (destS x f.d) none1)) ∧
    (f.d = .wq q →
      let live := lanes.filter (fun l => !x.cr.skips l (·.wq))
      let new := live.map (fun l => BitVec.ofNat 32 (intSrc x f.ty f.a l))
      let counted := wqCounted x lanes
      (w.pops = [] → w.elems.length + live.length ≤ 256 → RunsFrom (.mov f) s x counted (fun t cr => SameBytes s t ∧
        wqOf t core q.toNat = ⟨w.elems ++ new, some gid, []⟩ ∧ Kept x.cr cr none2 none1 none1)) ∧
      (∀ (v : Word) (b c : Nat) (d : Dest) (ps : List (Nat × Nat × Dest)) (o : Crew), w.elems = [] → new = [v] →
        w.pops = (b, c, d) :: ps → ¬(b = x.b ∧ c = x.c) → s.crew? b c = some o →
        RunsFrom (.mov f) s x counted (fun t cr => SameBytes s t ∧ wqOf t core q.toNat = ⟨[], some gid, ps⟩ ∧
          Kept x.cr cr none2 none1 none1 ∧ ∃ o', t.crew? b c = some o' ∧ Delivered o o' d v.toNat)))

/-- R142–R144, R211, R267: a core's deque and its word queues. (The model's choices: that a counted operation of a handler
after a late `PROT` is neither counted nor discarded, `dqCounted` and `wqCounted`, log 108; that `dqtake` and `dqsteal` take
the record when they issue, log 85; what records beyond the block's bays hold, log 138.) -/
def Obligations.DequesAndWordQueues : Prop := DequeMoves ∧ WordQueueMoves

/-! ## Ladders -/

namespace Sys2Proof.Claims

/-- The answer of a ladder instruction: the pair of registers and the predicate of every lane of the path (R297). -/
def Answers (x : Cx) (f : FmtE) (lo hi : Nat) (ok acq : Bool) (cr : Crew) : Prop :=
  (∀ n, f.d = .s n → cr.getS (x.cr.sName n.toNat) = BitVec.ofNat 64 lo ∧
    cr.getS (x.cr.sName (n + 1).toNat) = BitVec.ofNat 64 hi) ∧
  PathPred x f.pd ok cr ∧
  Kept (if acq then { x.cr with seq := x.cr.seq + 1, acqs := x.cr.acqs ++ [⟨x.cr.seq + 1, false⟩] } else x.cr) cr none2
    (fun r => ∃ n, f.d = .s n ∧ (r = x.cr.sName n.toNat ∨ r = x.cr.sName (n + 1).toNat)) (destP x f.pd)

/-- What `lres` answers (R37). -/
def Resolves (h : LHeader) (e t : Nat) (lo hi : Nat) (ok : Bool) : Prop :=
  let v := if h.isOpen then bits e 0 16 else h.floor
  let q := if h.isOpen then bits e 16 16 else h.fq
  (v = 0xFFFF → lo = 0 ∧ hi = 0xFFFF ∧ ok = false) ∧
  (v ≠ 0xFFFF → lo = h.base + (t * h.slots + v % h.slots) * h.tsize ∧ hi = v + 2 ^ 16 * q ∧ ok = true)

end Sys2Proof.Claims

/-- R32, R33, R35, R37, R38, R296, R297: `pass` and `seal` park the crew, a crew that has arrived at `seal` giving its
quality, and trap without a ladder; the pass opens when the floor and the holds let it, with `PO` set; the commit waits for
the accesses and the engine writes of the tile and writes entry and header, or, after the cut, nothing; `lres`, `lhold` and
`ldrop` answer as the ladder stands, and the last two, once the crew's older stores are performed (R52), change its hold
count: `lhold` waits at 255, `ldrop` raises `SEAL` at zero; at an address without a ladder the answer is open. (The model's choices: that nothing else changes at an address without a ladder, that an acquire is
noted there, and that an `ldrop` of a ladder no longer live is an acquire, log 88; the quality of a crew whose threads give
different ones, log 102; the `TADDR` of these traps, log 31.) -/
def Obligations.Ladders : Prop :=
  (∀ (f : FmtE) (s : State) (x : Cx), Ready (.pass f) s x → x.g.ladder = none → calm x →
    RaisedOpen (.pass f) s x cSeal 1) ∧
  (∀ (f : FmtE) (s : State) (x : Cx) (l : Ladder), Ready (.pass f) s x → x.g.ladder = some l →
    let k := x.uni f.a
    (x.blk.pass = some k → Runs (.pass f) s x (fun t cr => SameBytes s t ∧ Kept x.cr cr none2 none1 none1)) ∧
    (∀ e s1, x.blk.pass ≠ some k → fetchNat s x.g.ctx (l.hdr + 64 + 8 * x.blk.lin) 8 = .ok (e, s1) → k ≤ 65534 →
      k = (if bits e 0 16 = 0xFFFF then 0 else bits e 0 16 + 1) →
      ∃ t cr, exec (.pass f) s = .next t ∧ SameBytes s t ∧ t.crew? x.b x.c = some cr ∧ SameRegs x.cr cr ∧
        Parked x cr (.pass k)) ∧
    (∀ e s1, x.blk.pass ≠ some k → fetchNat s x.g.ctx (l.hdr + 64 + 8 * x.blk.lin) 8 = .ok (e, s1) → calm x →
      65534 < k ∨ k ≠ (if bits e 0 16 = 0xFFFF then 0 else bits e 0 16 + 1) → RaisedOpen (.pass f) s x cSeal 1)) ∧
  (∀ (b n e : Nat) (s s1 : State) (k : Block) (g : Grid) (l : Ladder) (h : LHeader) (c : Ctx), s.block? b = some k →
    k.st = .resident → s.grid? k.grid = some g → g.st = .running → g.ladder = some l → s.ctxs.find? g.ctx = some c →
    blockWait k = some (.pass n) → readLadder s g.ctx l.hdr k.lin = .ok (h, e, s1) → h.cut = false →
    let opens := (n + 2 ≤ l.s ∨ (h.floor ≠ 0xFFFF ∧ n + 1 ≤ h.floor + l.s)) ∧ holdOf e (n % l.s) = 0
    (opens → ∃ t k', exec (.passOpen b) s = .next t ∧ t.block? b = some k' ∧ k'.pass = some n ∧
      t.mem = (writeVirt s c (l.hdr + 64 + 8 * k.lin) (leBytes 8 (e ||| 2 ^ 56))).mem ∧
      ∀ j cr, s.crew? b j = some cr → ∃ cr', t.crew? b j = some cr' ∧ Resumed cr cr' (.pass n) ∧ SameRegs cr cr') ∧
    (¬opens → ∃ t, exec (.passOpen b) s = .next t ∧ t.mem = s.mem ∧ t.blocks = s.blocks)) ∧
  (∀ (f : FmtE) (s : State) (x : Cx), Ready (.seal f) s x →
    (x.g.ladder = none ∨ x.blk.pass = none → calm x → RaisedOpen (.seal f) s x cSeal 1) ∧
    (x.g.ladder.isSome = true → x.blk.pass.isSome = true → 2 ^ 16 ≤ x.uni f.a → calm x → RaisedOpen (.seal f) s x cProt 0) ∧
    (x.g.ladder.isSome = true → x.blk.pass.isSome = true → x.uni f.a < 2 ^ 16 →
      ∃ t cr k, exec (.seal f) s = .next t ∧ SameBytes s t ∧ t.crew? x.b x.c = some cr ∧
        SameRegs x.cr cr ∧ cr.sealQ = some (x.uni f.a) ∧ t.block? x.b = some k ∧
        k.sealQ = (if cr.allExited = false ∧ x.blk.arrivedAt x.c cr .seal = true then some (x.uni f.a) else x.blk.sealQ) ∧
        ∀ l th, x.cr.thread? l = some th →
          (x.act.getLsbD l = true → ∃ th', cr.thread? l = some th' ∧ th'.pc = th.pc ∧ th'.wait = some .seal) ∧
          (x.lanes.getLsbD l = true → x.act.getLsbD l = false → ∃ th', cr.thread? l = some th' ∧ th'.pc = x.nextPc ∧
            th'.head.pc = x.nextPc) ∧
          (x.lanes.getLsbD l = false → x.act.getLsbD l = false → cr.thread? l = some th))) ∧
  (∀ (b n q e : Nat) (s s1 : State) (k : Block) (g : Grid) (l : Ladder) (h : LHeader) (c : Ctx), s.block? b = some k →
    k.st = .resident → s.grid? k.grid = some g → g.st = .running → g.ladder = some l → s.ctxs.find? g.ctx = some c →
    blockWait k = some .seal → k.pass = some n → k.sealQ = some q →
    let writes := fun (o : EngOp) => o.blk = b ∧ o.pkt = none ∧ o.done = false ∧ opTouchesTile s k g l o = true
    ((∃ o ∈ s.ops, writes o) ∨ (∃ e ∈ k.crews, e.2.storePath ≠ [] ∨ e.2.loads ≠ []) → exec (.sealCommit b) s = .next s) ∧
    (readLadder s g.ctx l.hdr k.lin = .ok (h, e, s1) → h.cut = true →
      ∃ t, exec (.sealCommit b) s = .next t ∧ t.mem = s.mem ∧ t.blocks = s.blocks) ∧
    (k.spb = [] → (∀ e ∈ k.crews, e.2.storePath = [] ∧ e.2.loads = []) → (∀ o ∈ s.ops, ¬writes o) →
    readLadder s g.ctx l.hdr k.lin = .ok (h, e, s1) → h.cut = false →
    let i := n % 4
    let cnt := (h.seals.getD i 0 + 1) % 2 ^ 32
    let m := min (h.minq.getD i 0xFFFF) q
    ∃ t k' h', exec (.sealCommit b) s = .next t ∧ t.block? b = some k' ∧ k'.pass = none ∧ k'.sealQ = none ∧
      t.mem = (writeVirt (writeVirt s c (l.hdr + 64 + 8 * k.lin) (leBytes 8 (bits e 32 24 * 2 ^ 32 + q * 2 ^ 16 + n)))
        c l.hdr h'.bytes).mem ∧
      (cnt = h.tcount → h' = { h with floor := n, fq := m, seals := h.seals.set i 0, minq := h.minq.set i 0xFFFF }) ∧
      (cnt ≠ h.tcount → h' = { h with seals := h.seals.set i cnt, minq := h.minq.set i m }) ∧
      ∀ j cr, s.crew? b j = some cr → ∃ cr', t.crew? b j = some cr' ∧ SameRegs cr cr' ∧
        ∀ ln th, ln < 32 → cr.thread? ln = some th → ∃ th', cr'.thread? ln = some th' ∧
          (th.wait = some .seal → th'.pc = slotAddr (slotIndex th.pc + 1) ∧ th'.head.pc = th'.pc ∧ th'.wait = none) ∧
          (th.wait ≠ some .seal → th' = th))) ∧
  (∀ (f : FmtE) (s s1 : State) (x : Cx),
    let opened := fun (i : Instr) => ∃ lo hi ok, Runs i s x (fun t cr => SameBytes s t ∧ Answers x f lo hi ok true cr)
    (Ready (.lres f) s x → ladderOperand x f .read = .ok (none, s1) → opened (.lres f)) ∧
    (Ready (.lhold f) s x → ladderOperand x f .write = .ok (none, s1) → opened (.lhold f)) ∧
    (Ready (.ldrop f) s x → ladderOperand x f .write = .ok (none, s1) → x.uni f.c < 2 ^ 16 → opened (.ldrop f))) ∧
  (∀ (f : FmtE) (s : State) (x : Cx) (h : LHeader) (e t : Nat) (s1 : State) (c : Ctx), s.ctxs.find? x.g.ctx = some c →
    let va := x.uni f.a + 64 + 8 * t
    let v := if h.isOpen then bits e 0 16 else h.floor
    let answered := fun (i : Instr) => ∃ lo hi ok, Resolves h e t lo hi ok ∧
      Runs i s x (fun t cr => SameBytes s t ∧ Answers x f lo hi ok true cr)
    let waits := fun (i : Instr) => ∃ t cr, exec i s = .next t ∧ SameBytes s t ∧ t.crew? x.b x.c = some cr ∧
      Kept x.cr cr none2 none1 none1 ∧ ∀ l th, x.cr.thread? l = some th → ∃ th', cr.thread? l = some th' ∧ th'.pc = th.pc
    (Ready (.lres f) s x → ladderOperand x f .read = .ok (some (h, e, t), s1) → answered (.lres f)) ∧
    (Ready (.lhold f) s x → ladderOperand x f .write = .ok (some (h, e, t), s1) → x.cr.storePath ≠ [] → waits (.lhold f)) ∧
    (Ready (.ldrop f) s x → ladderOperand x f .write = .ok (some (h, e, t), s1) → x.uni f.c < 2 ^ 16 →
      x.cr.storePath ≠ [] → waits (.ldrop f)) ∧
    (Ready (.lhold f) s x → ladderOperand x f .write = .ok (some (h, e, t), s1) → x.cr.storePath = [] →
      (h.live = false ∨ v = 0xFFFF → answered (.lhold f)) ∧
      (h.live = true → v ≠ 0xFFFF → holdOf e (v % h.slots) = 255 → waits (.lhold f)) ∧
      (h.live = true → v ≠ 0xFFFF → holdOf e (v % h.slots) < 255 → ∃ lo hi, Resolves h e t lo hi true ∧
        Runs (.lhold f) s x (fun t cr => Answers x f lo hi true true cr ∧
          t.mem = (writeVirt s c va (leBytes 8 (e + 2 ^ (32 + 8 * (v % h.slots))))).mem))) ∧
    (Ready (.ldrop f) s x → ladderOperand x f .write = .ok (some (h, e, t), s1) → x.uni f.c < 2 ^ 16 →
      x.cr.storePath = [] →
      let j := x.uni f.c % h.slots
      (h.live = false → answered (.ldrop f)) ∧
      (h.live = true → holdOf e j = 0 → calm x → RaisedOpen (.ldrop f) s x cSeal 1) ∧
      (h.live = true → 0 < holdOf e j → Runs (.ldrop f) s x (fun t cr =>
        Answers x f (holdOf e j - 1) (2 ^ 64 - 1) true false cr ∧
        t.mem = (writeVirt s c va (leBytes 8 (e - 2 ^ (32 + 8 * j)))).mem))))

/-! ## The matrix unit -/

/-- R118, R119, R289: `shape` grants the least sizes that hold the request, once a block, and traps on a pair without an
accumulator, on sizes out of range and on a second request. R93, R290: `fmtwin` sets or clears a window, or raises `PROT`. R117, R122, R123, R291–R294: `mma`, `aclr`, `aload` and `adrain` issue an operation of class 2 with the values of
their operands, the windows and the accumulator kind as they stand; a drain to registers leaves them empty; with a signature
`mma` and `adrain` issue once every member of the register's set has signed, be that with one signature, and a signature
without a set, outside it, or unlike the first traps with nothing recorded. A drain to a format that R125 does not list for the tile's kind is undefined.
(That an operation takes note of who holds the bays of the quad, to read open bytes of another's, is log 27.) -/
def Obligations.MatrixIssue : Prop :=
  (∀ (f : FmtA) (s : State) (x : Cx) (a b : Fmt), Ready (.shape f) s x →
    let r := x.uni f.a
    let m := bits r 0 8
    let n := bits r 8 8
    let k := bits r 16 9
    let least := fun (got asked : Nat) => (got = 16 ∨ got = 32 ∨ got = 64) ∧ asked ≤ got ∧ (got = 16 ∨ got < 2 * asked)
    Fmt.ofCode (BitVec.ofNat 6 (bits r 32 6)) = some a → Fmt.ofCode (BitVec.ofNat 6 (bits r 40 6)) = some b →
    ((fmtIs8 a = true ∧ fmtIs8 b = true) ∨ (a = b ∧ fmtIsIeee a = true)) →
    bits r 25 7 = 0 → bits r 38 2 = 0 → bits r 46 18 = 0 → 1 ≤ m → m ≤ 64 → 1 ≤ n → n ≤ 64 → 1 ≤ k → k ≤ 256 →
    (x.blk.grant = none → ∃ g : Grant, least g.m m ∧ least g.n n ∧ k ≤ g.k ∧ g.k % kGroup a = 0 ∧ g.k < k + kGroup a ∧
      g.a = a ∧ g.b = b ∧ g.req.toNat = r ∧ Runs (.shape f) s x (fun t cr => SameBytes s t ∧
        (t.block? x.b).map (·.grant) = some (some g) ∧
        (∀ d, f.d = .s d → (cr.getS (x.cr.sName d.toNat)).toNat =
          g.m + 2 ^ 8 * g.n + 2 ^ 16 * g.k + 2 ^ 32 * a.code.toNat + 2 ^ 40 * b.code.toNat) ∧
        Kept x.cr cr none2 (destS x f.d) none1)) ∧
    (∀ g, x.blk.grant = some g → g.req = BitVec.ofNat 64 r → Completes (.shape f) s x (fun cr =>
      (∀ d, f.d = .s d → cr.getS (x.cr.sName d.toNat) = BitVec.ofNat 64 g.word) ∧ Kept x.cr cr none2 (destS x f.d) none1))) ∧
  (∀ (f : FmtA) (s : State) (x : Cx), Ready (.shape f) s x → calm x →
    let r := x.uni f.a
    let pair := fun (a b : Fmt) => Fmt.ofCode (BitVec.ofNat 6 (bits r 32 6)) = some a ∧
      Fmt.ofCode (BitVec.ofNat 6 (bits r 40 6)) = some b ∧ ((fmtIs8 a = true ∧ fmtIs8 b = true) ∨ (a = b ∧ fmtIsIeee a = true))
    let inside := fun (ofs n hi : Nat) => 1 ≤ bits r ofs n ∧ bits r ofs n ≤ hi
    ((∀ a b, ¬pair a b) → Raised (.shape f) s x (trapOf x cUnd x.pc 0 0)) ∧
    (∀ a b, pair a b →
      bits r 25 7 ≠ 0 ∨ bits r 38 2 ≠ 0 ∨ bits r 46 18 ≠ 0 ∨ ¬inside 0 8 64 ∨ ¬inside 8 8 64 ∨ ¬inside 16 9 256 ∨
        (∃ g, x.blk.grant = some g ∧ g.req ≠ BitVec.ofNat 64 r) →
      RaisedOpen (.shape f) s x cProt 0)) ∧
  (∀ (f : FmtA) (s : State) (x : Cx), Ready (.fmtwin f) s x →
    let n := f.sub.toNat % 16
    let a := x.uni f.a
    let set := fun (w : Option Window) => Runs (.fmtwin f) s x (fun t cr => SameBytes s t ∧
      Kept x.cr cr none2 none1 none1 ∧ ∃ k, t.block? x.b = some k ∧ k.wins.find? n = w ∧
        ∀ m, m ≠ n → k.wins.find? m = x.blk.wins.find? m)
    (bits a 32 32 = 0 → set none) ∧
    (bits a 32 32 ≠ 0 →
      let b := x.uni f.b
      let blk := if bits b 6 2 = 0 then 0 else 8 * 2 ^ bits b 6 2
      let base := bits a 0 32
      let len := bits a 32 32
      let sound := fun (e : Fmt) =>
        Fmt.ofCode (BitVec.ofNat 6 (bits b 0 6)) = some e ∧ (fmtIs8 e = true ∨ (blk = 0 ∧ fmtIsIeee e = true)) ∧
        base % (fmtBits e / 8) = 0 ∧ bits b 8 24 = 0 ∧ base + len ≤ spBytes s x.blk ∧
        (blk ≠ 0 → bits b 32 32 + ceilDiv len (blk * (fmtBits e / 8)) ≤ spBytes s x.blk)
      (∀ e, sound e → set (some ⟨base, len, e, blk, bits b 32 32, 0⟩)) ∧
      ((∀ e, ¬sound e) → calm x → RaisedOpen (.fmtwin f) s x cProt 0))) ∧
  (∀ (f : FmtX) (s : State) (x : Cx),
    let vals := [f.a, f.b, f.c].map (fun o => if oprIsS o || oprIsSK o then BitVec.ofNat 64 (x.uni o) else 0)
    let issued := fun (i : Instr) => Runs i s x (OpIssued s x 2 (.mx i vals x.blk.wins (mxKind x.blk i vals) (quadBays s x.blk)) true false)
    let row := fun (g : Grant) => g.n * (if g.a = .f64 then 8 else 4)
    let pitch := fun (g : Grant) => if bits (x.uni f.c) 0 16 = 0 then row g else bits (x.uni f.c) 0 16
    f.sg = false →
    (Ready (.mma f) s x → mmaTrap x f = none → issued (.mma f)) ∧
    (Ready (.aclr f) s x → tileTrap x x.blk.grant (accIdx f.d) = none → issued (.aclr f)) ∧
    (∀ g, Ready (.aload f) s x → x.blk.grant = some g → tileTrap x (some g) (accIdx f.d) = none → x.uni f.c < 2 ^ 16 →
      pitch g % 4 = 0 → row g ≤ pitch g → x.uni f.a % 2 ^ 32 + (g.m - 1) * pitch g + row g ≤ spBytes s x.blk →
      issued (.aload f)) ∧
    (∀ g, Ready (.adrain f) s x → x.blk.grant = some g → tileTrap x (some g) (drainTile f) = none →
      drainFormat (mxKind x.blk (.adrain f) []) f.ty f.act.toNat = true → drainTrap x g f = none → f.dst ≠ 1 →
      issued (.adrain f)) ∧
    (∀ g, Ready (.adrain f) s x → x.blk.grant = some g → tileTrap x (some g) (drainTile f) = none →
      drainFormat (mxKind x.blk (.adrain f) []) f.ty f.act.toNat = true → drainTrap x g f = none → f.dst = 1 →
      let dst := fun (r l : Nat) => drainReg f ≤ r ∧ r < drainReg f + bits (x.uni f.c) 16 4 ∧ x.act.getLsbD l = true
      Runs (.adrain f) s x (fun t cr =>
        OpIssuedTo dst s x 2 (.mx (.adrain f) vals x.blk.wins (mxKind x.blk (.adrain f) vals) (quadBays s x.blk)) true false t cr ∧
        ∀ r l, l < 32 → dst r l → cr.getV r l = x.cr.getV r l ∧ cr.isEmpty r l = true ∧
          cr.empty.find? (Crew.key r l) = some (x.cr.seq + 1))) ∧
    (f.dst = 1 → f.sg = true → legal (.adrain f) = false) ∧
    (∀ g, Ready (.adrain f) s x → calm x → x.blk.grant = some g →
      drainFormat (mxKind x.blk (.adrain f) []) f.ty f.act.toNat = false → Raised (.adrain f) s x (trapOf x cUnd x.pc 0 0))) ∧
  (∀ (k : Block) (f : FmtX) (g : Grant) (vals : List DWord), k.grant = some g →
    let scaled := fun (n : Nat) => ∃ w, windowAt k.wins ((vals.getD n 0).toNat % 2 ^ 32) = some w ∧ w.blk ≠ 0
    let byBlocks := (f.a ≠ .byp ∧ f.spa.toNat = 0 ∧ scaled 0) ∨ (f.spb.toNat = 0 ∧ scaled 1)
    (g.a = .f64 → mxKind k (.mma f) vals = .f64) ∧
    (g.a = .i8 → g.b = .i8 → ¬byBlocks → mxKind k (.mma f) vals = .i32) ∧
    (g.a = .i8 → g.b = .i8 → byBlocks → mxKind k (.mma f) vals = .f32) ∧
    (g.a ≠ .f64 → g.a ≠ .i8 ∨ g.b ≠ .i8 → mxKind k (.mma f) vals = .f32)) ∧
  (∀ (f : FmtX) (i : Instr) (s : State) (x : Cx), Ready i s x → f.sg = true →
    (i = .mma f ∧ mmaTrap x f = none) ∨
    (i = .adrain f ∧ ∃ g, x.blk.grant = some g ∧ tileTrap x (some g) (drainTile f) = none ∧
      drainFormat (mxKind x.blk (.adrain f) []) f.ty f.act.toNat = true ∧ drainTrap x g f = none) → calm x →
    let cv := f.cv.toNat
    let v := x.blk.conv cv
    slotBudget s x.blk ≤ cv ∨ v.cset = none ∨ (∃ set, v.cset = some set ∧ set.getLsbD x.c = false) ∨
      (∃ r, v.sig = some r ∧ r ≠ ⟨i, mxVals x f⟩) →
    RaisedOpen i s x cProt 0 ∧ ∀ t, exec i s = .next t → t.ops = s.ops ∧
      (t.block? x.b).map (·.convs) = some x.blk.convs) ∧
  (∀ (f : FmtX) (i : Instr) (s : State) (x : Cx) (set : BitVec 16), Ready i s x → f.sg = true →
    (i = .mma f ∧ mmaTrap x f = none) ∨
    (i = .adrain f ∧ ∃ g, x.blk.grant = some g ∧ tileTrap x (some g) (drainTile f) = none ∧
      drainFormat (mxKind x.blk (.adrain f) []) f.ty f.act.toNat = true ∧ drainTrap x g f = none) →
    let cv := f.cv.toNat
    let v := x.blk.conv cv
    let vals := mxVals x f
    let new := (x.acts.map (fun l => (x.c, l))).filter (fun t => !v.signed.contains t)
    let all := ∀ j cr l, (j, cr) ∈ x.blk.crews → set.getLsbD j = true → cr.liveLanes.getLsbD l = true →
      (j, l) ∈ v.signed ++ new
    cv < slotBudget s x.blk → v.cset = some set → set.getLsbD x.c = true → (∀ r, v.sig = some r → r = ⟨i, vals⟩) →
    (¬all → ∃ t cr k, exec i s = .next t ∧ SameBytes s t ∧ t.crew? x.b x.c = some cr ∧ t.block? x.b = some k ∧
      SameRegs x.cr cr ∧ (k.conv cv).sig = some ⟨i, vals⟩ ∧ (k.conv cv).signed = v.signed ++ new ∧
      ∀ l th, x.cr.thread? l = some th → x.act.getLsbD l = true →
        ∃ th', cr.thread? l = some th' ∧ th'.pc = th.pc ∧ th'.wait = some (.sig cv)) ∧
    (∀ id o, all → v.sigOp = some id → op? s id = some o → ∃ t cr k o', exec i s = .next t ∧ SameBytes s t ∧
      t.crew? x.b x.c = some cr ∧ t.block? x.b = some k ∧ SameRegs x.cr cr ∧ (k.conv cv).sig = none ∧
      op? t id = some o' ∧ o'.ready = true ∧ o'.kind = .mx i vals x.blk.wins (mxKind x.blk i vals) (quadBays t k) ∧
      ∀ l th, x.cr.thread? l = some th → x.act.getLsbD l = true →
        ∃ th', cr.thread? l = some th' ∧ th'.pc = slotAddr (slotIndex th.pc + 1) ∧ th'.head.pc = th'.pc ∧ th'.wait = none) ∧
    (all → v.sig = none → v.signed = [] → v.sigOp = none → op? s s.nextOp = none → ∃ t cr k o, exec i s = .next t ∧
      SameBytes s t ∧ t.crew? x.b x.c = some cr ∧ t.block? x.b = some k ∧ SameRegs x.cr cr ∧ cr.seq = x.cr.seq + 1 ∧
      cr.issued.getD 2 [] = (s.nextOp :: x.cr.issued.getD 2 []).take 256 ∧
      (k.conv cv).sig = none ∧ (k.conv cv).signed = [] ∧ (k.conv cv).sigOp = none ∧ t.nextOp = s.nextOp + 1 ∧
      t.ops = s.ops ++ [o] ∧ o.id = s.nextOp ∧ o.cls = 2 ∧ o.blk = x.b ∧ o.issuers = [(x.c, x.cr.seq + 1)] ∧ o.pkt = none ∧
      o.lanes = x.act ∧ o.ready = true ∧ o.started = false ∧ o.done = false ∧
      o.kind = .mx i vals x.blk.wins (mxKind x.blk i vals) (quadBays t k) ∧
      ∀ l th, x.cr.thread? l = some th → x.act.getLsbD l = true →
        ∃ th', cr.thread? l = some th' ∧ th'.pc = slotAddr (slotIndex th.pc + 1) ∧ th'.head.pc = th'.pc ∧ th'.wait = none))

namespace Sys2Proof.Claims

/-- What an `mma` works on: the machine and the block as it runs, its grant and fields, the windows, the bays' holders and
the operand values that it took, and where its operands lie. -/
structure MxIn where
  s : State
  k : Block
  g : Grant
  f : FmtX
  wins : NMap Window
  held : List (Nat × Nat × Nat)
  vals : List DWord
  oa : MxOperand
  ob : MxOperand

/-- Elements along K. -/
def MxIn.kk (x : MxIn) : Nat := mmaK x.g x.f
/-- An element of A: of the bypass tile, M × N, or of memory (R120, R127). -/
def MxIn.aCode (x : MxIn) (m c : Nat) : Nat :=
  let esz := fmtBits x.g.a / 8
  if x.f.a = .byp then (x.k.bypass.getD ⟨[], []⟩).nat ((m * x.g.n + c) * esz) esz
  else mxRead x.s x.k x.held x.oa.space (x.oa.base + m * x.oa.pitch + c * x.oa.esz) x.oa.esz
def MxIn.bCode (x : MxIn) (n c : Nat) : Nat :=
  mxRead x.s x.k x.held x.ob.space (x.ob.base + n * x.ob.pitch + c * x.ob.esz) x.ob.esz
/-- Its value, scaled where a window says so (R90, R93). -/
def MxIn.a (x : MxIn) (m c : Nat) : Machine.Num :=
  if x.f.a = .byp then numOf x.g.a (x.aCode m c) else x.oa.elem x.s x.k x.held m c
def MxIn.b (x : MxIn) (n c : Nat) : Machine.Num := x.ob.elem x.s x.k x.held n c

/-- Whether a chunk of 32 is skipped for a row: the sum of magnitudes, rounded up term by term, times the header's bound,
rounded up, lies below the threshold (R124). -/
def MxIn.SkipIs (x : MxIn) (m c : Nat) (skip : Bool) : Prop :=
  let n := min 32 (x.kk - 32 * c)
  let bound := numOf .f32 (mxRead x.s x.k x.held x.ob.space (x.ob.base - 32 + 4 * c) 4)
  let threshold := numOf .f32 ((x.vals.getD 2 0).toNat / 2 ^ 32)
  (x.f.skp = false → skip = false) ∧
  (x.f.skp = true → ∃ (al : Nat → Nat) (p : Nat) (fl : Flags), al 0 = 0 ∧
    (∀ j, j < n → ∃ fl, SumIs .f32 2 0 (numOf .f32 (al j)) (x.a m (32 * c + j)).abs (al (j + 1), fl)) ∧
    MulIs .f32 2 0 (numOf .f32 (al n)) bound (p, fl) ∧
    (skip = true ↔ (numOf .f32 (al n)).isNan = false ∧ bound.isNan = false ∧ (numOf .f32 p).isNan = false ∧
      threshold.isNan = false ∧ (numOf .f32 p).cmp threshold = .lt))

/-- A product that is no number, and one that is an infinity (R102). -/
def BadProduct (a b : Machine.Num) : Prop := a.isNan = true ∨ b.isNan = true ∨ zeroTimesInf a b
def InfProduct (a b : Machine.Num) (n : Bool) : Prop :=
  ¬BadProduct a b ∧ (ratOf a = none ∨ ratOf b = none) ∧ n = xor a.sign b.sign

/-- The exact sum of products (R101, R102). -/
def GroupSumIs (n : Nat) (a b : Nat → Machine.Num) (v : Machine.Num) : Prop :=
  let bad := ∃ c, c < n ∧ BadProduct (a c) (b c)
  let inf := fun s => ∃ c, c < n ∧ InfProduct (a c) (b c) s
  (bad ∨ (inf true ∧ inf false) → v.isNan = true) ∧
  (∀ s, ¬bad → inf s → ¬inf (!s) → v = .inf s) ∧
  (∀ p q : Nat → ℚ, (∀ c, c < n → ratOf (a c) = some (p c) ∧ ratOf (b c) = some (q c)) →
    let sum := ((List.range n).map (fun c => p c * q c)).sum
    ratOf v = some sum ∧ (sum = 0 → v.sign = false))

/-- An accumulator after the exact sum of a group's products has been added with one rounding (R101). -/
def GroupAdds (f : Fmt) (acc acc' n : Nat) (a b : Nat → Machine.Num) : Prop :=
  ∃ v fl, GroupSumIs n a b v ∧ SumIs f 0 0 (numOf f acc) v (acc', fl)

/-- The two parts of an `f32` operand (R103). -/
def SplitIs (code : Nat) (hi lo : Machine.Num) : Prop :=
  (∀ q, ratOf (numOf .f32 code) = some q → hi = numOf .f32 (code / 2 ^ 16 * 2 ^ 16) ∧
    ∃ z h, ratOf hi = some h ∧ ratOf z = some (q - h) ∧ lo = numOf .bf16 (roundTo .bf16 0 0 z false 0).1) ∧
  (ratOf (numOf .f32 code) = none → hi = numOf .f32 code ∧ ratOf lo = some 0)

/-- A group of an `f32` product: three updates (R103). -/
def GroupAdds32 (acc acc' n : Nat) (a b : Nat → Nat) : Prop :=
  ∃ (ha la hb lb : Nat → Machine.Num) (a1 a2 : Nat), (∀ c, c < n → SplitIs (a c) (ha c) (la c) ∧ SplitIs (b c) (hb c) (lb c)) ∧
    GroupAdds .f32 acc a1 n la hb ∧ GroupAdds .f32 a1 a2 n ha lb ∧ GroupAdds .f32 a2 acc' n ha hb

/-- The greatest ⌊log2⌋ of a row or column (R104). -/
def TopIs (n : Nat) (a : Nat → ℚ) (e : ℤ) : Prop :=
  (∀ c, c < n → |a c| < 2 ^ (e + 1)) ∧ ∃ c, c < n ∧ (2 : ℚ) ^ e ≤ |a c|

/-- An element as an integer of 55 bits toward zero, in eight signed slices of base 128 (R104). -/
def SlicesOf (q : ℚ) (e : ℤ) (sl : Nat → ℤ) : Prop :=
  let m := (if q < 0 then -1 else 1) * ⌊|q| * (2 : ℚ) ^ (54 - e)⌋
  ((List.range 8).map (fun i => sl i * 128 ^ (7 - i))).sum = m ∧ ∀ i, 1 ≤ i → i < 8 → -64 ≤ sl i ∧ sl i ≤ 63

/-- The value V of an `f64` element (R104). -/
def Sum64Is (n : Nat) (a b : Nat → Machine.Num) (v : Machine.Num) : Prop :=
  ((∃ c, c < n ∧ (ratOf (a c) = none ∨ ratOf (b c) = none)) → GroupSumIs n a b v) ∧
  (∀ p q : Nat → ℚ, (∀ c, c < n → ratOf (a c) = some (p c) ∧ ratOf (b c) = some (q c)) →
    ((∀ c, c < n → p c = 0) ∨ (∀ c, c < n → q c = 0) → ratOf v = some 0 ∧ v.sign = false) ∧
    (∀ (e f : ℤ) (sa sb : Nat → Nat → ℤ), TopIs n p e → TopIs n q f →
      (∀ c, c < n → SlicesOf (p c) e (sa c) ∧ SlicesOf (q c) f (sb c)) →
      let sum := ((List.range n).map (fun c => ((List.range 8).map (fun i => ((List.range 8).map (fun j =>
        if i + j ≤ 8 then sa c i * sb c j * 2 ^ (7 * (14 - i - j)) else 0)).sum)).sum)).sum
      ratOf v = some (sum * (2 : ℚ) ^ (e + f - 108)) ∧ (sum = 0 → v.sign = false)))

/-- One element of a product: groups in ascending order, those of skipped chunks left out (R101–R104, R124). -/
def MxIn.ElemIs (x : MxIn) (kind : Fmt) (skip : Nat → Nat → Bool) (m n acc acc' : Nat) : Prop :=
  let kg := kGroup x.g.a
  let skipped := fun (c : Nat) => skip m (c / 32)
  let chain := fun (adds : Nat → Nat → Nat → Prop) => ∃ t : Nat → Nat, t 0 = acc ∧ acc' = t (x.kk / kg) ∧
    ∀ j, j < x.kk / kg → (skipped (kg * j) = true → t (j + 1) = t j) ∧ (skipped (kg * j) = false → adds j (t j) (t (j + 1)))
  (kind = .i32 → x.g.a = .i8 → x.g.b = .i8 → (x.f.a ≠ .byp → x.oa.scaled = false) → x.ob.scaled = false →
    ((acc' : ℤ) - (acc + ((List.range x.kk).map (fun c =>
      if skipped c then 0 else asInt .i8 (x.aCode m c) * asInt .i8 (x.bCode n c))).sum)) % 2 ^ 32 = 0) ∧
  (kind = .f32 → x.g.a ≠ .f32 → x.g.a ≠ .f64 → chain (fun j t t' =>
    GroupAdds .f32 t t' kg (fun c => x.a m (kg * j + c)) (fun c => x.b n (kg * j + c)))) ∧
  (kind = .f32 → x.g.a = .f32 → chain (fun j t t' =>
    GroupAdds32 t t' kg (fun c => x.aCode m (kg * j + c)) (fun c => x.bCode n (kg * j + c)))) ∧
  (kind = .f64 → x.g.a = .f64 → ∃ v fl, Sum64Is x.kk (x.a m) (x.b n) v ∧ SumIs .f64 0 0 (numOf .f64 acc) v (acc', fl))

/-- Every byte of the accumulator but those of the granted elements of a tile is as before. -/
def OtherTiles (g : Grant) (kind : Fmt) (tile : Nat) (old new : Machine.Memory) : Prop :=
  ∀ a, (∀ m n i, m < g.m → n < g.n → i < (if kind = .f64 then 2 else 1) →
    a < tileOfs (tile + i) m n ∨ tileOfs (tile + i) m n + 4 ≤ a) → new.read1 a = old.read1 a

/-- One step of `gelu`, rounded `rne` in `f32`. -/
def Mul32 (a b r : Nat) : Prop := ∃ fl, MulIs .f32 0 0 (numOf .f32 a) (numOf .f32 b) (r, fl)
def Add32 (a b r : Nat) : Prop := ∃ fl, SumIs .f32 0 0 (numOf .f32 a) (numOf .f32 b) (r, fl)
def Div32 (a b r : Nat) : Prop :=
  (∀ p q, ratOf (numOf .f32 a) = some p → ratOf (numOf .f32 b) = some q → p ≠ 0 → q ≠ 0 →
    ∃ fl, RoundedIeee .f32 0 0 (xor (numOf .f32 a).sign (numOf .f32 b).sign) |(p : ℝ) / q| (r, fl)) ∧
  (ratOf (numOf .f32 a) = some 0 → r = withSign .f32 (xor (numOf .f32 a).sign (numOf .f32 b).sign) 0)

/-- `gelu` (R126). -/
def GeluIs (x g : Nat) : Prop :=
  ((numOf .f32 x).isNan = true → g = fmtNan .f32) ∧ (numOf .f32 x = .inf true → g = 0) ∧ (numOf .f32 x = .inf false → g = x) ∧
  ((ratOf (numOf .f32 x)).isSome = true → ∃ u1 u2 u3 u y0 y1 y q q27 q9 num den t t1 h : Nat, ∃ f1 f2 : Flags,
    Mul32 x x u1 ∧ Mul32 u1 x u2 ∧ Mul32 0x3D372713 u2 u3 ∧ Add32 x u3 u ∧ Mul32 0x3F4C422A u y0 ∧
    MinMaxIs .f32 false false y0 0xC0400000 (y1, f1) ∧ MinMaxIs .f32 true false y1 0x40400000 (y, f2) ∧
    Mul32 y y q ∧ Add32 0x41D80000 q q27 ∧ Mul32 y q27 num ∧ Mul32 0x41100000 q q9 ∧ Add32 0x41D80000 q9 den ∧
    Div32 num den t ∧ Add32 0x3F800000 t t1 ∧ Mul32 0x3F000000 x h ∧ Mul32 h t1 g)

/-- An `f32` bound as an `f64` one (R125). -/
def WidenIs (c c' : Nat) : Prop :=
  (∀ q, ratOf (numOf .f32 c) = some q → ratOf (numOf .f64 c') = some q) ∧
  (∀ n, numOf .f32 c = .inf n → numOf .f64 c' = .inf n)

/-- The activation of a tile's value `c` gives `y`, `w` the clamp's bounds (R125); a NaN bound leaves it open. -/
def ActIs (kind : Fmt) (act w c y : Nat) : Prop :=
  let lo := bits w 0 32
  let hi := bits w 32 32
  (act = 0 → y = c) ∧
  (act = 1 → ((numOf kind c).isNan = true → y = c) ∧ (∀ n, numOf kind c = .inf n → y = if n then 0 else c) ∧
    (∀ q, ratOf (numOf kind c) = some q → y = if 0 < q then c else 0)) ∧
  (act = 2 → kind = .f32 → GeluIs c y) ∧
  (act = 3 → kind = .i32 → c < 2 ^ 32 → asInt .i32 y = min (max (asInt .i32 c) (asInt .i32 lo)) (asInt .i32 hi)) ∧
  (act = 3 → kind = .f32 ∨ kind = .f64 → ((numOf kind c).isNan = true → y = c) ∧
    ((numOf kind c).isNan = false → (numOf .f32 lo).isNan = false → (numOf .f32 hi).isNan = false →
      ∃ l h y1 f1 f2, (kind = .f32 → l = lo ∧ h = hi) ∧ (kind = .f64 → WidenIs lo l ∧ WidenIs hi h) ∧
        MinMaxIs kind false false c l (y1, f1) ∧ MinMaxIs kind true false y1 h (y, f2)))

end Sys2Proof.Claims

/-- R101–R104, R117, R118, R120, R121, R123–R127, R293, R294: the matrix unit performs a block's oldest operation whole:
`mma` adds the products group by group, but for the chunks that a skip leaves out, exactly in integers, with one rounding a
group in `f32`, three for `f32` operands, and one in all in `f64`; `aclr` zeroes a tile, `aload` loads one, `adrain` converts
one, with its activation, into the scratchpad, registers or the bypass tile. (That a group's sum and a value of the `f64`
path that are exactly zero are +0, in `GroupSumIs` and `Sum64Is`, is the model's choice: log 25.) -/
def Obligations.MatrixOperations : Prop :=
  ∀ (id : Nat) (s : State) (o : EngOp) (k : Block) (i : Instr) (vals : List DWord) (wins : NMap Window) (kind : Fmt)
    (held : List (Nat × Nat × Nat)),
    op? s id = some o → o.started = true → o.stamped = false → o.done = false →
    (∀ q ∈ olderOps s o, q.stamped = true ∨ q.done = true) → o.kind = .mx i vals wins kind held → s.block? o.blk = some k →
    let val := fun (n : Nat) => (vals.getD n 0).toNat
    let runs := fun (post : State → Block → Prop) => ∃ t k', exec (.mxOperation id) s = .next t ∧
      t.block? o.blk = some k' ∧ op? t id = some { o with stamped := true } ∧ t.mem = s.mem ∧ post t k'
    (∀ (f : FmtX) (g : Grant) (oa ob : MxOperand), i = .mma f → k.grant = some g → g.m ≤ 64 → g.n ≤ 64 →
      (f.a ≠ .byp → mmaA g f wins (val 0) (val 2) = some oa) → mmaB g f wins (val 1) (val 2) = some ob →
      mmaK g f % kGroup g.a = 0 →
      let x : MxIn := ⟨s, k, g, f, wins, held, vals, oa, ob⟩
      runs (fun t k' => OtherTiles g kind (accIdx f.d) k.acc k'.acc ∧ ∃ skip : Nat → Nat → Bool,
        (∀ m c, m < g.m → 32 * c < x.kk → x.SkipIs m c (skip m c)) ∧
        (∀ m n, m < g.m → n < g.n →
          x.ElemIs kind skip m n (tileGet k.acc kind (accIdx f.d) m n) (tileGet k'.acc kind (accIdx f.d) m n)) ∧
        ∀ gr, s.grid? k.grid = some gr → (t.grid? k.grid).map (·.skips) = some (gr.skips +
          (((List.range g.m).filter (· < bits g.req.toNat 0 8)).map (fun m =>
            ((List.range (ceilDiv x.kk 32)).filter (fun c => skip m c)).length)).sum))) ∧
    (∀ (f : FmtX), i = .aclr f → runs (fun _ k' => ∀ a,
      let inTile := a / 16384 = accIdx f.d ∨ (kind = .f64 ∧ a / 16384 = accIdx f.d + 1)
      (inTile → k'.acc.read1 a = 0) ∧ (¬inTile → k'.acc.read1 a = k.acc.read1 a))) ∧
    (∀ (f : FmtX) (g : Grant), i = .aload f → k.grant = some g → g.m ≤ 64 → g.n ≤ 64 →
      let wide : Fmt := if g.a = .f64 then .f64 else .f32
      let e := if g.a = .f64 then 8 else 4
      let p := if bits (val 2) 0 16 = 0 then g.n * e else bits (val 2) 0 16
      runs (fun _ k' => OtherTiles g wide (accIdx f.d) k.acc k'.acc ∧ ∀ m n, m < g.m → n < g.n →
        tileGet k'.acc wide (accIdx f.d) m n = mxRead s k held 0 (val 0 % 2 ^ 32 + m * p + n * e) e)) ∧
    (∀ (f : FmtX) (g : Grant), i = .adrain f → k.grant = some g → g.m ≤ 64 → g.n ≤ 64 →
      let esz := fmtBits f.ty / 8
      let drained := fun (m n v : Nat) => ∃ y, ActIs kind f.act.toNat (val 1) (tileGet k.acc kind (drainTile f) m n) y ∧
        v = (roundTo f.ty f.rnd.toNat f.sat.toNat (numOf kind y) false 0).1
      (∀ p, f.dst = 0 → pitchOf (bits (val 2) 0 16) g.n esz = some p →
        let place := fun (m n b : Nat) => bayPlace s k (val 0 % 2 ^ 32 + m * p + n * esz + b)
        let inTile := fun (m n b : Nat) => m < g.m ∧ n < g.n ∧ b < esz
        (∀ m n b, inTile m n b → (place m n b).isSome = true) →
        (∀ m n b m' n' b', inTile m n b → inTile m' n' b' → place m n b = place m' n' b' → m = m' ∧ n = n' ∧ b = b') →
        runs (fun t _ => (∀ m n, m < g.m → n < g.n → ∃ v, drained m n v ∧ ∀ b pl, b < esz → place m n b = some pl →
            readPlace t pl 1 = [BitVec.ofNat 8 (v / 2 ^ (8 * b))]) ∧
          ∀ pl, (∀ m n b, inTile m n b → place m n b ≠ some pl) → readPlace t pl 1 = readPlace s pl 1)) ∧
      (∀ c seq cr, f.dst = 1 → o.issuers = [(c, seq)] → s.crew? o.blk c = some cr →
        runs (fun t k' => k'.acc = k.acc ∧ ∃ cr', t.crew? o.blk c = some cr' ∧ ∀ l j th, l < 32 → o.lanes.getLsbD l = true →
          j < bits (val 2) 16 4 → cr.thread? l = some th → th.exited = false →
          cr.empty.find? (Crew.key (drainReg f + j) l) = some seq →
          let m := bits (val 2) 0 8 + l
          let got := (cr'.getV (drainReg f + j) l).toNat
          let elemIs := fun (n v : Nat) => (m < g.m → n < g.n → drained m n v) ∧ (g.m ≤ m ∨ g.n ≤ n → v = 0)
          cr'.isEmpty (drainReg f + j) l = false ∧
          (f.ty = .f64 → ∃ w, elemIs (bits (val 2) 8 8 + j / 2) w ∧ got = bits w (32 * (j % 2)) 32) ∧
          (f.ty ≠ .f64 → ∀ i, i < drainPack f.ty → ∃ w, elemIs (bits (val 2) 8 8 + j * drainPack f.ty + i) w ∧
            elem f.ty got i = w % 2 ^ fmtBits f.ty))) ∧
      (f.dst = 2 → fmtBits f.ty = 8 * esz → runs (fun _ k' => k'.acc = k.acc ∧ ∃ by_, k'.bypass = some by_ ∧ ∀ m n, m < g.m → n < g.n →
        ∃ v, drained m n v ∧ by_.nat ((m * g.n + n) * esz) esz = v)))

/-! ## Faults, handlers and hardware errors -/

namespace Sys2Proof.Claims

/-- A crew back at its heads (R24, R278): the checkpoint's uniform registers and `FSTAT`; each thread that waits neither
at a signature nor at `seal` stands at its head with its draw counter, its count of switch points, and the value that its
head holds of each live-in vector register, where no withdrawn pop waits again and fills it; what the crew had counted since is
discarded when it comes again (R63). -/
def AtHeads (old new : Crew) : Prop :=
  (∀ r, new.getS r = ({ old with s := old.ckS } : Crew).getS r) ∧ new.fstat = old.ckFstat ∧ new.late = none ∧
  (∀ l th, old.thread? l = some th → th.exited = false → th.committed = false →
    ∃ th', new.thread? l = some th' ∧ th'.pc = th.head.pc ∧ th'.dctr = th.head.dctr ∧ th'.sw = th.head.sw ∧ th'.wait = none ∧
      th'.skip = th.cnt) ∧
  ((∀ e ∈ old.threads, old.rolls.getLsbD e.1 = true → e.2.head.pops = []) → ∀ r l w,
    (∃ e ∈ old.threads, old.rolls.getLsbD e.1 = true ∧ ∃ x ∈ e.2.head.v, x.1 = Crew.key r l) →
    (∀ e ∈ old.threads, old.rolls.getLsbD e.1 = true → ∀ x ∈ e.2.head.v, x.1 = Crew.key r l → x.2 = w) → new.getV r l = w)

/-- Pops that `fectl.cancel` withdrew from threads that are rolled back before it wait again at their queues, or have taken what
a queue holds (R24, R225; log 140). -/
def Rejoins (s t : State) (core b c : Nat) (cr : Crew) : Prop :=
  ∀ l th q d, cr.thread? l = some th → cr.rolls.getLsbD l = true → (q, d) ∈ th.head.pops → (wqOf s core q).elems = [] →
    (b, c, d) ∈ (wqOf t core q).pops

/-- A crew of a resident block that runs no handler. -/
structure CanRoll (s : State) (b c : Nat) (k : Block) (cr : Crew) : Prop where
  block : s.block? b = some k
  crew : s.crew? b c = some cr
  resident : k.st = .resident
  handler : cr.handler = none

/-- The crew has been rolled back for a failure at `pc`, by timing or by parity, its `n`-th of that kind in succession. -/
def Retried (i : Instr) (s : State) (b c : Nat) (cr : Crew) (pc : Nat) (timing : Bool) (n : Nat) (post : State → Prop) : Prop :=
  ∃ t cr', exec i s = .next t ∧ SameBytes s t ∧ t.crew? b c = some cr' ∧ AtHeads cr cr' ∧
    (∀ p k, cr'.failures p k = if p = pc ∧ k = timing then n else cr.failures p k) ∧
    (∀ e ∈ cr'.retry, e.issued = false) ∧ post t

/-- A crew waits since cycle `t0` (R361; log 126): every thread that may issue waits, in an instruction or for its operands
(R17), and the last of its threads began to wait, or ended, then. In a handler these are its threads. -/
def WaitsSince (cr : Crew) (t0 : Nat) : Prop :=
  let runs := fun (e : Nat × Thread) => e.2.exited = false ∧ ∀ h, cr.handler = some h → h.live.getLsbD e.1 = true
  let counts := fun (e : Nat × Thread) => ∀ h, cr.handler = some h → h.trap.lanes.getLsbD e.1 = true
  (∃ e ∈ cr.threads, runs e) ∧ (∀ e ∈ cr.threads, runs e → e.2.wait.isSome = true) ∧
  (∀ e ∈ cr.threads, counts e → ∀ n, e.2.since = some n → n ≤ t0) ∧
  (t0 = 0 ∨ ∃ e ∈ cr.threads, counts e ∧ e.2.since = some t0)

/-- The `MCE` records of a unit that retires and had state of the grids `hit` (R351, R353): one in the ring of each of their
contexts, with the unit's kind and the `CMPL` of a grid of the context; in a full ring it waits for room. No other ring
changes. -/
def MceRecorded (s t : State) (kind : Nat) (hit : Nat → Prop) : Prop :=
  let runs := fun i g => hit i ∧ s.grid? i = some g ∧ g.st = .running
  ∀ i0 g0, runs i0 g0 → ∀ c cx, s.ctxs.find? c = some cx →
    let r := s.ring c
    ((∀ i g, runs i g → g.ctx ≠ c) → t.ring c = r) ∧
    ((∃ i g, runs i g ∧ g.ctx = c) →
      (ringFull s c = false → t.ring c = { r with widx := r.widx + 1, pend := r.pend ++ [(r.widx, 2 ^ 64)] }) ∧
      (ringFull s c = true → ∃ i g, runs i g ∧ g.ctx = c ∧ t.ring c = { r with held := r.held ++ [(kind, g.cmpl)] })) ∧
    (kind = 1 → noLadder s → g0.ladder = none → ringFull s c = false → g0.ctx = c → (∀ i g, runs i g → i = i0) →
      t.mem = (storeVirt s cx (r.base + 32 * (r.widx % 2 ^ r.log)) (faultBytes 0 cMce 5 0 kind r.widx g0.cmpl)).mem)

/-- A unit has been retired: it is listed, a channel's pages after it (R372), and a running grid has ended with `FAULT`. -/
def UnitRetired (s t : State) (kind idx : Nat) (grid : Nat → Prop) : Prop :=
  (∃ more, t.degraded = s.degraded ++ BitVec.ofNat 64 (kind + 256 * idx) :: more ∧ (kind ≠ 4 → more = []) ∧
    (kind = 4 → ∀ e : DWord, e ∈ more ↔ ∃ p, p < hbmPages ∧ hbmChannel p = idx ∧ isDegraded s 5 p = false ∧
      e = BitVec.ofNat 64 (5 + 256 * p))) ∧
  ∀ i g, grid i → s.grid? i = some g → g.st = .running → (t.grid? i).map (·.st) = some .faulted

end Sys2Proof.Claims

/-- R285, R346, R348, R349: a waiting trap takes its issue slot's free bank and its threads start at `TRAPH`, or it ends
the grid. R24, R347, R352: a late fault rolls its crew back and waits for service, or traps. R351, R352: a page fault joins
the record of its page, or writes one, as a retired unit's `MCE` does (R353). R360, R361: a probe that returns raises `DLK`, in a handler as a trap there. R353,
R383, R384: hardware errors are retried once; then the unit retires, and the grid whose crew failed, those with blocks on a
core and those with streams in a Mask Unit fault with it; an HBM page is withdrawn without a record or a grid's end. (The
model's choices: that a double fault waits while the ring is full, log 67; which grids have state in other units, log 40;
since when a crew waits, log 126; rollback and heads, log 11 and log 64; pops
that wait again, log 140; an `OVS` core's voltage, log 68; how an HBM error
shows and is retried, log 69.) -/
def Obligations.FaultsAndErrors : Prop :=
  (∀ (core slot b c : Nat) (rest : List (Nat × Nat)) (s : State) (k : Block) (cr : Crew) (t : PendTrap) (g : Grid)
    (cx : Ctx), (s.slot core slot).busy = none → (s.slot core slot).waiting = (b, c) :: rest → CanRoll s b c k cr →
    cr.trap = some t → s.grid? k.grid = some g → g.st = .running → cr.late = none → cr.pendingPf = none →
    s.ctxs.find? g.ctx = some cx →
    (trapEntry s g = .enter → ∃ u cr', exec (.handlerEntry core slot) s = .next u ∧ SameBytes s u ∧
      u.crew? b c = some cr' ∧ cr'.trap = none ∧ cr'.handler = some ⟨t, t.lanes, 0⟩ ∧
      (u.slot core slot).busy = some (b, c) ∧ (u.slot core slot).waiting = rest.filter (fun e => e != (b, c)) ∧
      cr'.getS 64 = BitVec.ofNat 64 t.imm ∧ cr'.getS 65 = BitVec.ofNat 64 t.resume ∧ cr'.getS 66 = BitVec.ofNat 64 t.pc ∧
      (∀ i, i < 15 → cr'.getP (16 + i) = 0 ∧ cr'.getP i = cr.getP i) ∧ (∀ r, r < 64 → cr'.getS r = cr.getS r) ∧
      (∀ r l, r < 256 → l < 32 → cr'.getV r l = cr.getV r l) ∧
      ∀ l th, cr.thread? l = some th → ∃ th', cr'.thread? l = some th' ∧ (t.lanes.getLsbD l = false → th' = th) ∧
        (t.lanes.getLsbD l = true → th'.pc = cx.traph ∧ th'.wait = none ∧ th'.ipc = th.pc)) ∧
    (trapEntry s g = .waitFault → exec (.handlerEntry core slot) s =
      .next (s.setCrew b c { cr with pendingPf := some (cx.traph, 2, 4), pfSeq := none })) ∧
    (trapEntry s g = .double → ringFull s g.ctx = false →
      let r := s.ring g.ctx
      let m := storeVirt s cx (r.base + 32 * (r.widx % 2 ^ r.log)) (faultBytes t.taddr t.cause 4 t.acc 0 r.widx g.cmpl)
      ∃ u, exec (.handlerEntry core slot) s = .next u ∧ (u.grid? k.grid).map (·.st) = some .faulted ∧
        (u.crew? b c).map (·.trap) = some none ∧ (g.ladder = none → u.mem = m.mem) ∧
        ∀ l v, g.ladder = some l → natVirt m cx (l.hdr + 0x14) 4 = some v →
          u.mem = (writeVirt m cx (l.hdr + 0x14) (leBytes 4 (v ||| 8))).mem) ∧
    (trapEntry s g = .double → ringFull s g.ctx = true → exec (.handlerEntry core slot) s = .next s)) ∧
  (∀ (b c cause va acc : Nat) (s : State) (k : Block) (cr : Crew) (t : PendTrap), CanRoll s b c k cr →
    cr.late = some (cause, va, acc, t) → ∃ u cr', exec (.lateFaultRollback b c) s = .next u ∧ SameBytes s u ∧
      u.crew? b c = some cr' ∧ AtHeads cr cr' ∧ Rejoins s u k.core b c cr ∧
      (cause = cPf → cr'.pendingPf = some (va, acc, if acc = 2 then 1 else 0) ∧ cr'.trap = none) ∧
      (cause ≠ cPf → cr'.trap = some t ∧ (u.slot k.core cr.slot).waiting.getLast? = some (b, c))) ∧
  (∀ (b c t0 : Nat) (s : State) (k : Block) (cr : Crew), s.block? b = some k → s.crew? b c = some cr → k.st = .resident →
    cr.trap = none → WaitsSince cr t0 →
    (s.clock k.core < t0 + 65536 * (cr.probes + 1) → exec (.waitCycleProbe b c) s = .next s) ∧
    (t0 + 65536 * (cr.probes + 1) ≤ s.clock k.core →
      ((publishes s b c = none ∨ probeReturns s (b, c) 64 (b, c) = false) →
        exec (.waitCycleProbe b c) s = .next (s.setCrew b c { cr with probes := cr.probes + 1 })) ∧
      (∀ w u, publishes s b c = some (w, u) → probeReturns s (b, c) 64 (b, c) = true → cr.handler = none → ∃ v cr' t,
        exec (.waitCycleProbe b c) s = .next v ∧ SameBytes s v ∧ v.crew? b c = some cr' ∧ cr'.trap = some t ∧
        t.cause = cDlk ∧ t.taddr = t.pc ∧ t.resume = 0 ∧ SameRegs cr cr') ∧
      (∀ w u g, publishes s b c = some (w, u) → probeReturns s (b, c) 64 (b, c) = true → cr.inHandler = true →
        s.grid? k.grid = some g → g.st = .running → ringFull s g.ctx = false → ∃ v,
        exec (.waitCycleProbe b c) s = .next v ∧ (v.grid? k.grid).map (·.st) = some .faulted))) ∧
  (∀ (b c va acc src : Nat) (s : State) (k : Block) (cr : Crew) (g : Grid) (cx : Ctx), s.block? b = some k →
    s.crew? b c = some cr → s.grid? k.grid = some g → cr.pendingPf = some (va, acc, src) → cr.pfSeq = none →
    s.ctxs.find? g.ctx = some cx →
    let r := s.ring g.ctx
    let i := Instr.pageFaultRecord (.crew b c)
    let bytes := faultBytes va cPf src acc 0 r.widx g.cmpl
    (∀ e, r.pend.find? (fun e => e.2 == va / 65536) = some e →
      exec i s = .next (s.setCrew b c { cr with pfSeq := some e.1 })) ∧
    (r.pend.find? (fun e => e.2 == va / 65536) = none → 2 ^ r.log ≤ r.widx - r.ridx → exec i s = .next s) ∧
    (r.pend.find? (fun e => e.2 == va / 65536) = none → r.widx - r.ridx < 2 ^ r.log → ∃ t, exec i s = .next t ∧
      t.mem = (storeVirt s cx (r.base + 32 * (r.widx % 2 ^ r.log)) bytes).mem ∧
      t.ring g.ctx = { r with widx := r.widx + 1, pend := r.pend ++ [(r.widx, va / 65536)] } ∧
      t.crew? b c = some { cr with pfSeq := some r.widx })) ∧
  (∀ (id va acc : Nat) (s : State) (o : EngOp) (e : Nat × Nat), op? s id = some o → o.pf = some (va, acc, none) →
    (s.ring (opCtx s o)).pend.find? (fun e => e.2 == va / 65536) = some e →
    ∃ t, exec (.pageFaultRecord (.engine id)) s = .next t ∧ SameBytes s t ∧
      op? t id = some { o with pf := some (va, acc, some e.1) }) ∧
  (∀ (b c pc : Nat) (s : State) (k : Block) (cr : Crew), CanRoll s b c k cr → cr.retired = false →
    cr.allExited = false →
    let timing := Instr.timingError b c pc
    let here := fun (g : Nat) => ∃ e ∈ s.blocks, e.2.grid = g ∧ e.2.core = k.core ∧ e.2.st = .resident
    let late := cr.failures pc true
    let odd := cr.failures pc false
    (late = 0 → Retried timing s b c cr pc true 1 (fun _ => True)) ∧
    (odd = 0 → ∀ kind idx, Retried (.parityError b c pc kind idx) s b c cr pc false 1 (fun _ => True)) ∧
    (late = 1 → overScaled s k.core = true → Retried timing s b c cr pc true 2 (fun t => (t.core k.core).nominal = true)) ∧
    (0 < late → overScaled s k.core = false ∨ late ≠ 1 →
      (isDegraded s 1 k.core = true → exec timing s = .next s) ∧
      (isDegraded s 1 k.core = false → ∃ t, exec timing s = .next t ∧
        UnitRetired s t 1 k.core (fun g => g = k.grid ∨ here g) ∧ MceRecorded s t 1 (fun g => g = k.grid ∨ here g))) ∧
    (∀ kind idx, 0 < odd → idx < unitCount kind → kind ≠ 5 → isDegraded s kind idx = false →
      ∃ t, exec (.parityError b c pc kind idx) s = .next t ∧ UnitRetired s t kind idx (fun g => g = k.grid)) ∧
    (∀ kind idx, 0 < odd → unitCount kind ≤ idx ∨ kind = 5 → isDegraded s 1 k.core = false →
      ∃ t, exec (.parityError b c pc kind idx) s = .next t ∧ UnitRetired s t 1 k.core (fun g => g = k.grid ∨ here g) ∧
        MceRecorded s t 1 (fun g => g = k.grid ∨ here g))) ∧
  (∀ (kind idx : Nat) (s : State),
    (isDegraded s kind idx = true ∨ unitCount kind ≤ idx → exec (.mceRetire kind idx) s = .next s) ∧
    let hit := fun g => (kind = 1 ∧ ∃ e ∈ s.blocks, e.2.grid = g ∧ e.2.core = idx ∧ e.2.st = .resident) ∨
      (kind = 2 ∧ ∃ e ∈ (s.quad idx).streams, g ∈ e.grids)
    (isDegraded s kind idx = false → idx < unitCount kind → ∃ t, exec (.mceRetire kind idx) s = .next t ∧
      UnitRetired s t kind idx hit ∧ (kind = 1 ∨ kind = 2 → MceRecorded s t kind hit) ∧
      (kind = 5 → t = { s with degraded := s.degraded ++ [BitVec.ofNat 64 (5 + 256 * idx)],
                               hbmRetry := s.hbmRetry.filter (· != idx) }) ∧
      (kind = 7 → (t.ports.getD idx Port.reset).retired = true ∧ ∀ r e, s.routes.find? r = some e → e.toNat % 64 = idx →
        ∃ e', t.routes.find? r = some e' ∧ e'.getLsbD 63 = false ∧ ∀ j, j < 63 → e'.getLsbD j = e.getLsbD j))) ∧
  (∀ (page : Nat) (s : State),
    let bad := hbmPages ≤ page ∨ isDegraded s 5 page = true
    (bad → exec (.hbmUncorrectable page) s = .next s) ∧
    (¬bad → page ∉ s.hbmRetry → exec (.hbmUncorrectable page) s = .next { s with hbmRetry := page :: s.hbmRetry }) ∧
    (¬bad → page ∈ s.hbmRetry → exec (.hbmUncorrectable page) s = .next { s with
      hbmRetry := s.hbmRetry.filter (· != page), degraded := s.degraded ++ [BitVec.ofNat 64 (5 + 256 * page)] }))

/-! ## Packets, graphs and completion -/

namespace Sys2Proof.Claims

/-- A packet has ended with a status and a reason (R345). -/
def Ended (t : State) (i st reason : Nat) : Prop :=
  ∃ q, t.packets.find? i = some q ∧ q.st = .ended ∧ q.status = st ∧ q.reason = reason

/-- A packet as it starts: at the level of the grid that submitted it, else its queue's (R341). -/
def startedPkt (s : State) (p : Packet) : Packet :=
  { p with st := .started, tstart := s.time, able := none, aged := false,
           level := ((p.by_.bind s.grid?).map (·.level)).getD (queueLevel s p.ctx p.q) }

/-- Packet `i` starts next and is of a type; its header is in order when `ok` is true, else it is refused with reason 1. -/
def Starts (s : State) (i : Nat) (p : Packet) (type : Nat) : Prop := selected s i = some p ∧ p.type = type

/-- When a packet may start (R336, R339, R340, R145): it has been read, with its `LEXT` or the packet after it where it wants
one (log 125); after a `SETDET` that has not started, and as one, once every earlier packet of its queue has completed; with
`EARLY` or `CONC` once the packet before it has started; else once that has completed; and what it needs is free: barriers
for a launch, nodes of the 4,096 for a graph (log 53), and for a `POOLSET` a pool with nothing issued on it that is still to
be performed. -/
def MayStart (s : State) (p : Packet) : Prop :=
  let mine := fun (e : Nat × Packet) => e ∈ s.packets ∧ e.2.node = none ∧ e.2.ctx = p.ctx ∧ e.2.q = p.q
  let earlier := fun (e : Nat × Packet) => mine e ∧ e.2.idx < p.idx
  let behind := p.type = 7 ∨ ∃ e, earlier e ∧ e.2.type = 7 ∧ e.2.st = .read
  p.st = .read ∧ p.node = none ∧
  (p.type = 1 → p.cont = true → p.lext ≠ [] ∨ ∃ e, mine e ∧ e.2.idx = p.idx + 1) ∧
  (behind → ∀ e, earlier e → e.2.st = .completed) ∧
  (¬behind → ∀ b, prevOf s p = some b → if p.early = true ∨ p.conc = true then b.st ≠ .read else b.st = .completed) ∧
  (p.type = 1 → p.f 2 1 ≤ 32 → p.f 3 1 ≤ 16 → p.f 2 1 ≤ s.pkgBars ∧ p.f 3 1 ≤ s.podBars) ∧
  (p.type = 3 → ∀ ns, graphNodes s p = some ns →
    ((s.graphs.filter (fun e => e.2.ctx == p.ctx)).map (fun e => e.2.nodes.length)).sum + ns.length ≤ 4096) ∧
  (p.type = 8 → ∀ b ∈ s.blocks, ∀ c ∈ b.2.crews, ∀ m ∈ c.2.storePath,
    (∀ seq as, m ≠ .marker seq (.poolgive (p.f 0x28 1 % 16) as)) ∧
    ∀ seq d pd l, m ≠ .marker seq (.pooltake (p.f 0x28 1 % 16) d pd l))

/-- The packet before one in its queue. -/
def PrevIs (s : State) (p : Packet) : Prop :=
  let earlier := fun (b : Packet) => (∃ i, (i, b) ∈ s.packets) ∧ b.node = none ∧ b.ctx = p.ctx ∧ b.q = p.q ∧ b.idx < p.idx
  (prevOf s p = none ↔ ∀ b, ¬earlier b) ∧ ∀ a, prevOf s p = some a → earlier a ∧ ∀ b, earlier b → b.idx ≤ a.idx

/-- Which of two packets the Work Distributor starts first (R343): the higher priority, 3 for one that has waited; then the
contexts in turn after the last one served, and within a context its queues after its last one served; then queue order. -/
def TakenBefore (s : State) (a b : Packet) : Prop :=
  let prio := fun (p : Packet) => if p.aged = true then 3 else p.prio
  let ctxTurn := fun (p : Packet) => (p.ctx + 63 - s.wdCtx) % 64
  let qTurn := fun (p : Packet) => (p.q + 63 - NMap.getD s.wdQ p.ctx 63) % 64
  prio b < prio a ∨ (prio a = prio b ∧ (ctxTurn a < ctxTurn b ∨ (ctxTurn a = ctxTurn b ∧
    (qTurn a < qTurn b ∨ (qTurn a = qTurn b ∧ a.idx ≤ b.idx)))))

/-- A launch packet, with its `LEXT`, breaks its tables (R335, R337, R338, R339). -/
def BreaksTable (s : State) (p : Packet) (k? : Option Kernel) (early : Bool) : Prop :=
  let b := leNat p.bytes
  let x := leNat p.lext
  16 ≤ bits b 8 8 ∨ bits b 0x40 64 % 64 ≠ 0 ∨ early = false ∨
  (p.early = true ∧ p.node = none ∧ ∀ a, prevOf s p = some a → a.type ≠ 1) ∨
  (p.cont = true ∧ (p.lext = [] ∨ bits x 8 24 ≠ 0 ∨ bits x 34 6 ≠ 0 ∨
    (bitAt x 32 = false ∧ (bits x 32 32 ≠ 0 ∨ bits x 0x40 128 ≠ 0)))) ∨
  bits b 0x80 64 % 64 ≠ 0 ∨ bits b 0x100 24 = 0 ∨ bits b 284 2 = 3 ∨ bitAt b 287 = true ∨ bits b 0x120 16 = 0 ∨
  bits b 0x130 16 = 0 ∨ (bits b 0x160 8 ≠ 0 ∧ bits b 0x160 8 ≠ 2 ∧ bits b 0x160 8 ≠ 4) ∨ bits b 0x178 8 ≠ 0 ∨
  bits b 0x180 64 % 256 ≠ 0 ∨ (bitAt b 11 = true ∧ bits b 0x1C0 32 = 0) ∨ (bitAt b 11 = false ∧ bits b 0x1C0 32 ≠ 0) ∨
  bits b 0x1E0 32 ≠ 0 ∨ 2 ^ 48 < bits b 0x100 24 * bits b 0x120 16 * bits b 0x130 16 ∨
  ∃ k, k? = some k ∧ k.sws ≠ [] ∧ bits b 0x180 64 = 0

/-- No variant of a launch may run, or one that may cannot fit an empty core (R130, R339); that a launch without an eligible
variant is refused under every policy is log 43. -/
def NoVariant (g : Grid) : Prop :=
  let split := g.kern.vars.filter (fun v => decide (v.carve = g.split))
  let may := fun (v : Variant) => v ∈ split ∧ (1 ≤ g.level → ∀ w, split.head? = some w →
    (w.tag ≠ 0 → v.tag = w.tag) ∧ (w.tag = 0 → v = w)) ∧ (g.policy = 2 → v.vid = g.fixedVar)
  (∀ v, ¬may v) ∨ ∃ v, may v ∧ (96 < v.crews * (1 + v.ext) ∨ 16 < v.bays ∨ 16 < v.tiles ∨ 512 < v.slots)

/-- A launch's ladder does not suit its kernel, or breaks R29. -/
def BreaksLadder (p : Packet) (k : Kernel) : Prop :=
  let x := leNat p.lext
  let b := leNat p.bytes
  bitAt x 32 ≠ k.ladder ∨
  (k.ladder = true ∧ (bits x 40 24 * 256 ≠ k.ltsize ∨ k.ltsize < 256 ∨ 2 ^ 26 < k.ltsize ∨ k.ltsize % 256 ≠ 0 ∨
    (bitAt x 33 = true ∧ k.lopen ≠ 1) ∨ (bitAt x 33 = false ∧ k.lopen = 1) ∨
    bits x 0x40 64 % 64 ≠ 0 ∨ canonical (bits x 0x40 64) = false ∨ bits x 0x80 64 % 256 ≠ 0 ∨
    canonical (bits x 0x80 64) = false ∨ 16777216 < bits b 0x100 24 * bits b 0x120 16 * bits b 0x130 16))

/-- The reason for which a launch is refused: the lowest of those that hold (R339); 0 without one. -/
def RefusedFor (s : State) (p : Packet) (k? : Option Kernel) (early : Bool) (why : Nat) : Prop :=
  let b := leNat p.bytes
  let has := fun (n : Nat) =>
    (n = 1 ∧ BreaksTable s p k? early) ∨ (n = 2 ∧ k? = none) ∨
    (∃ k, k? = some k ∧ ((n = 3 ∧ (bits b 280 2 = 3 ∨ NoVariant (gridOf s p 0 k 0 none))) ∨ (n = 4 ∧ BreaksLadder p k) ∨
      (n = 5 ∧ bitAt b 11 = true ∧ (p.level = 0 ∨ bits b 0x120 16 ≠ 1 ∨ bits b 0x130 16 ≠ 1 ∨ 65536 < bits b 0x100 24)) ∨
      (n = 6 ∧ ∃ i g, p.by_ = some i ∧ s.grid? i = some g ∧ 8 ≤ g.depth) ∨
      (n = 7 ∧ (32 < bits b 0x10 8 ∨ 16 < bits b 0x18 8 ∨ 64 < bits b 0x168 8 ∨ 64 < bits b 0x170 8))))
  (why = 0 → ∀ n, ¬has n) ∧ (why ≠ 0 → has why ∧ ∀ n, has n → why ≤ n)

/-- The grid that a launch starts, field by field from the packet, its `LEXT` and the kernel record (R31, R337, R338, R341,
R148); one that the host submitted is at depth 0 (log 44). -/
def GridFrom (s : State) (p : Packet) (i : Nat) (k : Kernel) (kdesc : Nat) (producer : Option Nat) (g : Grid) : Prop :=
  let b := leNat p.bytes
  let x := leNat p.lext
  let sx := bits b 0x100 24
  let sy := bits b 0x120 16
  let sz := bits b 0x130 16
  g.ctx = p.ctx ∧ g.level = p.level ∧ g.prio = p.prio ∧ g.pkt = i ∧ g.kern = k ∧ g.kdesc = kdesc ∧ g.producer = producer ∧
  g.code = p.code ∧ g.args = BitVec.ofNat 64 (bits b 0xC0 64) ∧ g.x = sx ∧ g.y = sy ∧ g.z = sz ∧ g.policy = bits b 280 2 ∧
  g.fixedVar = bits b 282 2 ∧ (bits b 284 2 = 0 → g.split = 384) ∧ (bits b 284 2 = 1 → g.split = 448) ∧
  (bits b 284 2 = 2 → g.split = 256) ∧ g.fuse = bitAt b 286 ∧ g.switchWait = bits b 0x140 32 ∧ g.qgrp = bits b 0x160 8 ∧
  g.pkgB = bits b 0x10 8 ∧ g.podB = bits b 0x18 8 ∧ g.quadB = bits b 0x168 8 ∧ g.dieB = bits b 0x170 8 ∧
  g.swArea = bits b 0x180 64 ∧ g.fst = bitAt b 11 ∧ g.tcnt = bits b 0x1C0 32 ∧ g.cmpl = bits b 0x40 64 ∧
  g.key = BitVec.ofNat 128 (bits x 0x180 128) ∧ g.cone = ⟨bits x 0xC0 64, bits x 0x100 64, bits x 0x140 64⟩ ∧
  (bitAt x 32 = false → g.ladder = none) ∧
  (bitAt x 32 = true → g.ladder = some ⟨bits x 0x40 64, bits x 0x80 64, k.ltsize, sx * sy * sz, k.ls, decide (k.lopen = 1)⟩) ∧
  (∀ q gq, p.by_ = some q → s.grid? q = some gq → g.parent = some q ∧ g.depth = gq.depth + 1) ∧
  (p.by_ = none → g.parent = none ∧ g.depth = 0) ∧ g.st = .running ∧ g.launched = 0 ∧ g.ended = 0 ∧ g.firstCycle = none ∧
  g.cutCores = [] ∧ g.floor = 0xFFFF ∧ g.fq = 0 ∧ g.skips = 0 ∧ g.replays = 0

/-- A ladder's header as it is when its grid starts (R31). -/
def freshHeader (l : Ladder) : List Byte :=
  leBytes 8 l.base ++ leBytes 4 l.tsize ++ leBytes 4 l.t ++ leBytes 2 0xFFFF ++ leBytes 2 0 ++
    leBytes 4 (l.s + if l.opn then 4 else 0) ++ List.replicate 16 0 ++ List.replicate 8 0xFF ++ List.replicate 16 0

/-- The launch of `p` as packet `i` has been refused, or has put its grid into the machine (R31, R339, R344): with a ladder
its header is written, then every tile's entry, before any block starts; what of it lies on no writable page is left, and an
unreadable header is registered as no ladder (log 118). -/
def Launched (s t : State) (i : Nat) (p : Packet) (kdesc : Nat) (producer : Option Nat) (early : Bool) (c : Ctx) : Prop :=
  let k? := if kdesc % 64 = 0 then (readKernel s c kdesc).filter (kernelCode s c) else none
  let why := refusal s p k? early
  (why ≠ 0 → Ended t i 6 why) ∧
  (∀ k, why = 0 → k? = some k → (∀ g q, p.by_ = some g → s.grid? g = some q → q.st ≠ .cut) →
    (∃ g, t.grid? s.nextGrid = some g ∧ g = { gridOf s p i k kdesc producer with handed := g.handed } ∧
      (p.f 0x2C 1 = 0 → g.handed = min 4096 g.total)) ∧
    t.nextGrid = s.nextGrid + 1 ∧ t.packets.find? i = some { p with grid := some s.nextGrid } ∧
    ((gridOf s p i k kdesc producer).ladder = none → t.mem = s.mem ∧ t.ladders = s.ladders) ∧
    (∀ l, (gridOf s p i k kdesc producer).ladder = some l →
      t.mem = ((List.range l.t).foldl (fun u n => storeVirt u c (l.hdr + 64 + 8 * n) (leBytes 8 0xFFFF))
        (storeVirt s c l.hdr (freshHeader l))).mem ∧
      (∀ pa, pa ∈ t.ladders ↔ pa ∈ s.ladders ∨ ∃ x y z, walkCtx t c l.hdr .read = .ok pa x y z)) ∧
    (p.f 2 1 ≤ s.pkgBars → t.pkgBars + p.f 2 1 = s.pkgBars) ∧ (p.f 3 1 ≤ s.podBars → t.podBars + p.f 3 1 = s.podBars))

/-- A started `SIGNAL` has been performed, its word's owner none (R389), and has ended (R340); where its word may not be written it has ended with `FAULT`,
and where its page is not there it stays started (both the model's: log 50). -/
def Signalled (s t : State) (c : Ctx) (p q : Packet) (i : Nat) : Prop :=
  let va := p.f 0x10 8
  (∀ pa x y z, walkCtx s c va .write = .ok pa x y z → Ended t i 1 0 ∧ t.mem = s.mem.write pa (leBytes 8
    ((p.f 0x18 8 + if p.f 0x20 1 = 1 then s.mem.nat pa 8 else 0) % 2 ^ 64)) ∧
    Disowned s t ((List.range 8).map (fun i => .g (pa + i)))) ∧
  (walkCtx s c va .write = .prot → SameBytes s t ∧ Ended t i 7 0) ∧
  (walkCtx s c va .write = .pf → SameBytes s t ∧ t.packets.find? i = some q)

end Sys2Proof.Claims

/-- R333–R341, R343: a packet is read in order, those of a context that leaves too; the one that may start and comes first
starts: a `LAUNCH` is refused with its lowest reason or starts its grid, its ladder header written, `COPY` gives an engine its
operation, `SIGNAL` stores or adds, at once or when its word's page is there, `WAIT` completes on its word or its timeout,
`SETDET` and `POOLSET` set what they name; one whose header is malformed, a `GRAPH` too, is refused with reason 1; a packet that has been able to start for 100 µs counts as priority 3. A queue whose entry was found malformed stays
disabled until it is corrected while its indices are equal. (The model's choices: that the queues of a leaving context are
read on, and that it goes once nothing of it is in flight or left unread, log 77; that a grid's first 4,096 blocks are handed
out at its launch, log 63; that a `LAUNCH` with `CONT` is read at once and starts when the packet after it has been read, log
125; that a launch without an eligible variant is refused, log 43; that a `SIGNAL` without permission ends with `FAULT` and
one whose page is absent waits, log 50; that a host's grid is at depth 0, log 44; that a `GRAPH` beyond a context's 4,096
nodes waits, log 53; a ladder header on pages that cannot be written or read, log 118.) -/
def Obligations.Packets : Prop :=
  (∀ (s : State) (p : Packet), PrevIs s p ∧ (startable s p = true ↔ MayStart s p)) ∧
  (∀ (s : State) (i : Nat) (p : Packet), selected s i = some p ↔ s.packets.find? i = some p ∧ MayStart s p ∧
    ∀ e ∈ s.packets, e.1 = i ∨ ¬MayStart s e.2 ∨ TakenBefore s p e.2) ∧
  (∀ (s : State) (p : Packet) (k? : Option Kernel) (early : Bool), p.type = 1 → RefusedFor s p k? early (refusal s p k? early)) ∧
  (∀ (s : State) (p : Packet) (i : Nat) (k : Kernel) (kdesc : Nat) (producer : Option Nat), p.type = 1 →
    GridFrom s p i k kdesc producer (gridOf s p i k kdesc producer)) ∧
  (∀ (ctx q n : Nat) (s : State) (c : Ctx), s.ctxs.find? ctx = some c → q < 64 → natVirt s c (c.qtab + 32 * q) 32 = some n →
    let old := queueRun s ctx q
    let ridx := bits n 128 64
    let widx := bits n 192 64
    let bad := (bits n 76 4 ≠ 0 ∨ bits n 80 48 ≠ 0 ∨ 16 < bits n 64 8) ∨ (old.bad = true ∧ ridx ≠ widx)
    let at_ := fun (i : Nat) => readVirt s c (bits n 0 64 + 64 * (i % 2 ^ bits n 64 8)) 64
    let looked := fun (t : State) => ((queueRun t ctx q).bad = true ↔ bad) ∧ (queueRun t ctx q).level = old.level ∧
      (queueRun t ctx q).subs = old.subs
    let passes := fun (t : State) => looked t ∧
      t.mem = (storeVirt s c (c.qtab + 32 * q + 16) (leBytes 8 ((ridx + 1) % 2 ^ 64))).mem
    let idle := (∀ e ∈ s.packets, e.2.ctx = ctx → e.2.st = .completed) ∧ ∀ j e, j < 64 → j ≠ q →
      queueEntry s ctx j = some e → e.enabled = true → e.widx ≤ e.ridx
    (bad ∨ bitAt n 75 = false ∨ widx ≤ ridx → ∃ t, exec (.packetRead ctx q) s = .next t ∧ SameBytes s t ∧
      (c.leaving = false ∨ ¬idle → t.packets = s.packets ∧ t.ctxs = s.ctxs ∧ looked t) ∧
      (c.leaving = true → idle → t.ctxs.find? ctx = none ∧ (∀ d, d ≠ ctx → t.ctxs.find? d = s.ctxs.find? d) ∧
        ∀ e, e ∈ t.packets ↔ e ∈ s.packets ∧ e.2.ctx ≠ ctx)) ∧
    (¬bad → bitAt n 75 = true → ridx < widx → ∀ bs, at_ ridx = some bs →
      (field (leNat bs) 0 1 ≠ 2 ∨ lextOwner s ctx q ridx = none → ∃ t p, exec (.packetRead ctx q) s = .next t ∧ passes t ∧
        t.packets.find? s.nextPkt = some p ∧ t.nextPkt = s.nextPkt + 1 ∧ p.ctx = ctx ∧ p.q = q ∧ p.idx = ridx ∧
        p.bytes = bs ∧ p.lext = [] ∧ p.st = .read ∧ p.prio = bits n 72 2 ∧ p.device = bitAt n 74 ∧
        p.by_ = old.subs.find? ridx ∧ p.node = none ∧ p.code = s.mem) ∧
      (∀ i p, field (leNat bs) 0 1 = 2 → lextOwner s ctx q ridx = some i → s.packets.find? i = some p → ∃ t,
        exec (.packetRead ctx q) s = .next t ∧ passes t ∧ t.nextPkt = s.nextPkt ∧
        t.packets.find? i = some { p with lext := bs } ∧ ∀ j, j ≠ i → t.packets.find? j = s.packets.find? j))) ∧
  (∀ (s : State) (ctx q idx i : Nat), lextOwner s ctx q idx = some i → ∃ p, (i, p) ∈ s.packets ∧ p.ctx = ctx ∧ p.q = q ∧
    p.idx + 1 = idx ∧ p.st = .read ∧ p.lext = [] ∧ p.type = 1 ∧ p.cont = true) ∧
  (∀ (i : Nat) (s : State) (p : Packet), selected s i = some p →
    let q := startedPkt s p
    let refuses := fun (e : Instr) (type : Nat) (ok : Packet → Bool) => p.type = type → headerOk s p = false ∨ ok p = false →
      ∃ t, exec e s = .next t ∧ SameBytes s t ∧ Ended t i 6 1
    let sound := fun (type : Nat) (ok : Packet → Bool) => p.type = type ∧ headerOk s p = true ∧ ok p = true
    let copies := fun p => decide (1 ≤ p.f 0x20 4) && decide (p.f 0x24 1 < 2) && zeroAt p [(0x25, 3), (0x38, 8)] &&
      (p.f 0x24 1 != 1 || p.f 0x28 8 % 8 == 0)
    let signals := fun p => p.f 0x10 8 % 8 == 0 && decide (p.f 0x20 1 < 2) && zeroAt p [(0x21, 31)]
    let waits := fun p => p.f 0x10 8 % 8 == 0 && decide (p.f 0x20 1 < 3) && zeroAt p [(0x21, 7), (0x30, 16)]
    let levels := fun p => decide (p.f 0x10 1 < 3) && zeroAt p [(0x11, 47)]
    (∀ c, p.type = 1 → s.ctxs.find? p.ctx = some c → ∃ t, exec (.launch i) s = .next t ∧
      Launched s t i q (p.f 0x10 8) (if p.early then (prevOf s p).bind (·.grid) else none) true c) ∧
    (p.type = 0 ∨ p.type = 2 ∨ 8 < p.type → ∃ t, exec (.launch i) s = .next t ∧ SameBytes s t ∧ Ended t i 6 1) ∧
    refuses (.copyPacket i) 4 copies ∧ refuses (.signal i) 5 signals ∧ refuses (.waitPacket i) 6 waits ∧
    refuses (.setdet i) 7 levels ∧ refuses (.poolset i) 8 poolsetOk ∧
    refuses (.graph i) 3 (fun p => p.f 0x10 8 % 64 == 0 && zeroAt p [(0x18, 40)]) ∧
    (sound 4 copies → ∃ t o, exec (.copyPacket i) s = .next t ∧ SameBytes s t ∧ t.ops = s.ops ++ [o] ∧ o.id = s.nextOp ∧
      t.nextOp = s.nextOp + 1 ∧ o.pkt = some i ∧ o.ready = true ∧ o.started = false ∧ o.done = false ∧
      o.kind = .copy [⟨0, p.f 0x10 8, 0, p.f 0x18 8, p.f 0x20 4⟩]
        (if p.f 0x24 1 = 1 then some (0, p.f 0x28 8, p.f 0x30 8) else none) ∧
      t.packets.find? i = some { q with op := some s.nextOp }) ∧
    (∀ c, sound 5 signals → noLadders s → s.ctxs.find? p.ctx = some c → ∃ t, exec (.signal i) s = .next t ∧
      Signalled s t c p q i) ∧
    (∀ c w, sound 6 waits → s.ctxs.find? p.ctx = some c → natVirt s c (p.f 0x10 8) 8 = some w →
      ∃ t, exec (.waitPacket i) s = .next t ∧ SameBytes s t ∧ (waitMet (p.f 0x20 1) w (p.f 0x18 8) = true → Ended t i 1 0) ∧
        (waitMet (p.f 0x20 1) w (p.f 0x18 8) = false → t.packets.find? i = some q)) ∧
    (sound 7 levels → ∃ t, exec (.setdet i) s = .next t ∧ SameBytes s t ∧ Ended t i 1 0 ∧
      queueLevel t p.ctx p.q = p.f 0x10 1) ∧
    (sound 8 poolsetOk →
      let n := p.f 0x28 1
      let other := ∃ pl c, s.pools.find? n = some pl ∧ pl.ctx = some c ∧ c ≠ p.ctx
      ∃ t, exec (.poolset i) s = .next t ∧ SameBytes s t ∧ (other → Ended t i 6 8 ∧ t.pools = s.pools) ∧
        (¬other → Ended t i 1 0 ∧ (p.f 0x18 8 = 0 → p.f 0x20 8 = 0 → t.pools.find? n = none) ∧
          (p.f 0x18 8 ≠ 0 ∨ p.f 0x20 8 ≠ 0 → t.pools.find? n =
            some ⟨p.f 0x10 8, p.f 0x18 8, p.f 0x20 8, p.f 0x29 1, some p.ctx, p.f 0x2C 4⟩) ∧
          ∀ m, m ≠ n → t.pools.find? m = s.pools.find? m))) ∧
  (∀ (i : Nat) (s : State) (p : Packet), s.packets.find? i = some p →
    (p.st = .started → p.type = 6 → p.node = none → p.f 0x28 8 ≠ 0 → p.tstart + p.f 0x28 8 ≤ s.time →
      ∃ t, exec (.waitPacketTimeout i) s = .next t ∧ SameBytes s t ∧ Ended t i 5 0) ∧
    (p.st = .started → p.type = 6 → p.node = none → s.time < p.tstart + p.f 0x28 8 →
      exec (.waitPacketTimeout i) s = .next s) ∧
    (∀ c, p.st = .started → p.type = 5 → p.node = none → p.f 0x10 8 % 8 = 0 → noLadders s → s.ctxs.find? p.ctx = some c →
      ∃ t, exec (.signal i) s = .next t ∧ Signalled s t c p p i) ∧
    (∀ t0, startable s p = true → p.able = some t0 → t0 + 100000 ≤ s.time →
      exec (.priorityAging i) s = .next (s.setPkt i { p with aged := true })) ∧
    (startable s p = false ∨ (∀ t0, p.able = some t0 → s.time < t0 + 100000) → exec (.priorityAging i) s = .next s) ∧
    (p.st = .read → ((watchPackets s).packets.find? i).map (·.able) =
      some (if startable s p then some (p.able.getD s.time) else none)))

/-- A node has ended `POOLDRY`, `LIMIT` or `TIMEOUT`, in an earlier run of its loop or now: that status and its runs then. -/
def Sys2Proof.Claims.OddEnd (n : NodeRun) (e : Nat × Nat) : Prop :=
  n.odd = some e ∨ (n.odd = none ∧ ∃ st, n.status = some st ∧ (st = 3 ∨ st = 4 ∨ st = 5) ∧ e = (st, n.runs))

/-- The innermost other `LOOP` whose body holds a node, the lowest-numbered of several (R146, R342, log 129). -/
def Sys2Proof.Claims.InnerLoop (r : GraphRun) (i j : Nat) (nd : NodeRec) : Prop :=
  let holds := fun (k : Nat) (kd : NodeRec) => r.rec? k = some kd ∧ kd.kind = 3 ∧ kd.b0 ≤ i ∧ i ≤ kd.b1 ∧ k ≠ i
  holds j nd ∧ ∀ k kd, holds k kd →
    nd.b1 - nd.b0 < kd.b1 - kd.b0 ∨ (nd.b1 - nd.b0 = kd.b1 - kd.b0 ∧ j ≤ k)

/-- A node that has neither started nor come to an end, at a level of the graph that runs. -/
def Sys2Proof.Claims.NodeWaits (r : GraphRun) (i : Nat) : Prop :=
  (r.node i).started = none ∧ (r.node i).status = none ∧
  ∀ j nd, InnerLoop r i j nd → (r.node j).started ≠ none ∧ (r.node j).status = none

/-- An edge into a node that counts: a loop's run begins at `BFIRST` whatever leads there (log 51). -/
def Sys2Proof.Claims.EdgeTo (r : GraphRun) (i j a : Nat) : Prop :=
  (∀ k kd, InnerLoop r i k kd → kd.b0 ≠ i) ∧ ∃ nd, r.rec? j = some nd ∧ nd.succ[a]? = some i

/-- Its source has completed, and as a `COND` has taken it: the first successor for a zero word, else the second (R145). -/
def Sys2Proof.Claims.EdgeTaken (r : GraphRun) (i j a : Nat) : Prop :=
  EdgeTo r i j a ∧ (∃ st, (r.node j).status = some st ∧ st ≠ 0) ∧
  ∀ nd, r.rec? j = some nd → nd.kind = 4 → a = if (r.node j).zero then 0 else 1

/-- R145, R146, R342: a node may start once every predecessor has come to an end, one edge having been taken; a graph is
refused or its nodes are held; a node that may start does what its kind says, and the end of a
node settles what no `COND` took; a loop's condition word and its limit decide what follows a run. (Which nodes start with a
loop's run, and which node's odd end the graph reports, are readings: log 51, log 52, log 120; so is a limit of 0: log 54; a
`LOOP` is not of its own body: log 129. That a grid's first 4,096 blocks are handed out at its launch is log 63.) -/
def Obligations.Graphs : Prop :=
  (∀ (r : GraphRun) (i : Nat), i < r.nodes.length →
    (r.ready i = true ↔ NodeWaits r i ∧ (∀ j a, EdgeTo r i j a → (r.node j).status ≠ none) ∧
      ((∀ j a, ¬EdgeTo r i j a) ∨ ∃ j a, EdgeTaken r i j a)) ∧
    (r.leftOut i = true ↔ NodeWaits r i ∧ (∃ j a, EdgeTo r i j a) ∧
      ∀ j a, EdgeTo r i j a → (r.node j).status ≠ none ∧ ¬EdgeTaken r i j a)) ∧
  (∀ (i : Nat) (s : State) (p : Packet), Starts s i p 3 → headerOk s p = true → p.f 0x10 8 % 64 = 0 →
    zeroAt p [(0x18, 40)] = true → ∀ ns, ((s.ctxs.find? p.ctx).bind (fun c => readGraph s c (p.f 0x10 8))) = ns →
    ∃ t, exec (.graph i) s = .next t ∧ SameBytes s t ∧ (ns = none → Ended t i 6 8) ∧
      ∀ l, ns = some l → l ≠ [] →
        t.graphs.find? i = some ⟨i, p.ctx, l, []⟩ ∧ (t.packets.find? i).map (·.graph) = some (some i)) ∧
  (∀ (run n : Nat) (s : State) (r : GraphRun) (g p : Packet) (nd : NodeRec) (c : Ctx), s.graphs.find? run = some r →
    s.packets.find? run = some g → r.rec? n = some nd → s.ctxs.find? g.ctx = some c →
    nodePacket s c g run n nd.addr = some p →
    let began := fun (t : State) => ∃ r', t.graphs.find? run = some r' ∧ (r'.node n).started = some s.time ∧
      (r'.node n).pkt = some s.nextPkt
    (nd.kind = 1 → r.ready n = true ∨ (p.early = true ∧ earlyReady r n = true) → poolsFree s p = true →
      ∃ t, exec (.kern run n) s = .next t ∧ began t ∧ (p.type ≠ 1 → Ended t s.nextPkt 6 1) ∧
        (p.type = 1 → Launched s t s.nextPkt p (if nd.xtra = 0 then p.f 0x10 8 else nd.xtra)
          (if p.early then (nodeProducer s r n).bind id else none) (!p.early || oneKern r n) c)) ∧
    (nd.kind = 2 → r.ready n = true → ∃ t, exec (.copyNode run n) s = .next t ∧ began t ∧ SameBytes s t ∧
      (p.type ≠ 4 ∨ p.early = true ∨ headerOk s p = false ∨ copyOk p = false → Ended t s.nextPkt 6 1) ∧
      (p.type = 4 → p.early = false → headerOk s p = true → copyOk p = true → ∃ o, t.ops = s.ops ++ [o] ∧
        o.pkt = some s.nextPkt ∧ o.kind = .copy [⟨0, p.f 0x10 8, 0, p.f 0x18 8, p.f 0x20 4⟩]
          (if p.f 0x24 1 = 1 then some (0, p.f 0x28 8, p.f 0x30 8) else none)))) ∧
  (∀ (run n w : Nat) (s : State) (r : GraphRun) (g : Packet) (nd : NodeRec) (c : Ctx), s.graphs.find? run = some r →
    s.packets.find? run = some g → r.rec? n = some nd → s.ctxs.find? g.ctx = some c → r.ctx = g.ctx →
    let put := fun (i : Instr) (s : State) (m : NodeRun) (u : State) => exec i s = .next (putGraph u run (r.setNode n m))
    (nd.kind = 3 → r.ready n = true → ∃ t r', exec (.loop run n) s = .next t ∧ SameBytes s t ∧
      t.graphs.find? run = some r' ∧ r'.loopRuns n = true) ∧
    (natVirt s c nd.addr 8 = some w → nd.kind = 3 → r.loopRuns n = true → r.levelDone (some n) = true →
      let k := (r.node n).runs + 1
      let ends := fun (st : Nat) => put (.loopRunEnd run n) s { r.node n with runs := k, status := some st } s
      (w = 0 → ends 1) ∧ (w = 2 → ends 3) ∧ (w ≠ 0 → w ≠ 2 → nd.xtra % 2 ^ 32 ≤ k → ends 4) ∧
      (w ≠ 0 → w ≠ 2 → k < nd.xtra % 2 ^ 32 → ∃ r', exec (.loopRunEnd run n) s = .next (putGraph s run r') ∧
        (r'.node n).runs = k ∧ ∀ m, nd.inBody m = true → m ≠ n → r'.node m = ⟨none, none, 0, false, none, (r.node m).oddEnd⟩)) ∧
    (natVirt s c nd.addr 8 = some w → nd.kind = 4 → r.ready n = true →
      put (.cond run n) s { r.node n with started := some s.time, status := some 1, zero := decide (w = 0) } s) ∧
    (∀ pa x y z, noLadders s → walkCtx s c nd.addr .write = .ok pa x y z → nd.kind = 5 → r.ready n = true →
      let bs := leBytes 8 (nd.xtra % 2 ^ 64)
      let k := 65536 - nd.addr % 65536
      let signals := fun (m : Machine.Memory) => ∃ u, u.mem = m ∧
        put (.signalNode run n) s { r.node n with started := some s.time, status := some 1 } u
      (8 ≤ k → signals (s.mem.write pa bs)) ∧
      (k < 8 → ∀ qa x y z, walkCtx s c (nd.addr + 7) .write = .ok qa x y z →
        signals ((s.mem.write pa (bs.take k)).write (qa + k - 7) (bs.drop k)))) ∧
    (natVirt s c nd.addr 8 = some w → nd.kind = 6 → r.ready n = true → w < nd.xtra → ∃ t r',
      exec (.waitNode run n) s = .next t ∧ SameBytes s t ∧ t.graphs.find? run = some r' ∧ r'.loopRuns n = true) ∧
    (natVirt s c nd.addr 8 = some w → nd.kind = 6 → r.ready n = true → nd.xtra ≤ w → ∃ u r',
      exec (.waitNode run n) s = .next (putGraph u run r') ∧ SameBytes s u ∧ u.packets = s.packets ∧ r'.nodes = r.nodes ∧
      (r'.node n).started = some s.time ∧ (r'.node n).status = some 1 ∧ ∀ m, m ≠ n → r'.node m = r.node m) ∧
    (natVirt s c nd.addr 8 = some w → nd.kind = 6 → r.ready n = false → r.loopRuns n = true → nd.xtra ≤ w →
      put (.waitNode run n) s { r.node n with status := some 1 } s) ∧
    (∀ t0, nd.kind = 6 → r.loopRuns n = true → (r.node n).started = some t0 → nd.b0 + 2 ^ 16 * nd.b1 ≠ 0 →
      t0 + 1000 * (nd.b0 + 2 ^ 16 * nd.b1) ≤ s.time →
      put (.waitNodeTimeout run n) s { r.node n with status := some 5 } s)) ∧
  (∀ (run : Nat) (s : State) (r : GraphRun) (p : Packet), s.packets.find? run = some p →
    (∀ i, i < r.nodes.length → r.leftOut i = false) →
    let atEnd := fun (i : Nat) => r.resolved i = true ∨
      ∃ j nd, r.rec? j = some nd ∧ nd.inBody i = true ∧ j ≠ i ∧ r.resolved j = true
    ((∀ i, i < r.nodes.length → atEnd i) → ∃ q, (putGraph s run r).packets.find? run = some q ∧
      q.st = .ended ∧
      (∀ i e, i < r.nodes.length → OddEnd (r.node i) e → (∀ j, j < i → ∀ e, ¬OddEnd (r.node j) e) →
        q.status = e.1 ∧ q.runs = e.2) ∧
      ((∀ i, i < r.nodes.length → ∀ e, ¬OddEnd (r.node i) e) → q.status = 1 ∧
        ∀ i nd, r.rec? i = some nd → nd.kind = 3 → (∀ j, j < i → ∀ m, r.rec? j = some m → m.kind ≠ 3) →
          q.runs = (r.node i).runs)) ∧
    (∀ i, i < r.nodes.length → ¬atEnd i → (putGraph s run r).graphs.find? run = some r ∧
      (putGraph s run r).packets = s.packets))

/-- A packet has come to its end, with the status and the reason that it reports (R345): it has ended, or its grid or its
copy has; a grid that was cut or has faulted once nothing of its family is in flight (log 55). -/
def Sys2Proof.Claims.Reports (s : State) (p : Packet) (status reason : Nat) : Prop :=
  (p.st = .ended ∧ status = p.status ∧ reason = p.reason) ∨
  (p.st = .started ∧ reason = 0 ∧
    ((∃ gid x, p.grid = some gid ∧ s.grid? gid = some x ∧ ((x.st = .done ∧ status = 1) ∨
      (x.st = .cut ∧ quiet s gid = true ∧ status = 2) ∨ (x.st = .faulted ∧ quiet s gid = true ∧ status = 7))) ∨
    (∃ id, p.grid = none ∧ p.op = some id ∧ (∀ o, op? s id = some o → o.done = true) ∧
      status = if p.status = 7 then 7 else 1)))

/-- The completion record of a packet, written into `u` (R345): bytes 0x04 to 0x3F, then its first four as one store. -/
def Sys2Proof.Claims.RecordIn (s : State) (c : Ctx) (p : Packet) (status reason : Nat) (u : State) (m : Machine.Memory) : Prop :=
  let g := p.grid.bind s.grid?
  let fig := fun (f : Grid → Nat) (own : Nat) => (g.map f).getD own
  (p.cmpl = 0 → m = u.mem) ∧
  (p.cmpl ≠ 0 → ∃ replays, (g = none → replays = p.replays) ∧
    (g.isSome = true → replays = (((family s (p.grid.getD 0)).filterMap s.grid?).map (·.replays)).sum) ∧
    m = (storeVirt (storeVirt u c (p.cmpl + 4)
      (leBytes 4 p.tag ++ leBytes 2 (fig (·.floor) 0xFFFF) ++ leBytes 2 (fig (·.fq) 0) ++ leBytes 4 p.runs ++
        leBytes 8 (fig (fun g => (g.firstCycle.map (fun f => g.endCycle - f)).getD 0) p.cycles) ++
        leBytes 8 (fig (fun _ => Config.energy (p.grid.getD 0) s.time) p.energy) ++ leBytes 8 p.tstart ++ leBytes 8 s.time ++
        leBytes 8 (fig (·.skips) p.skips) ++ leBytes 8 replays)) c p.cmpl
      (leBytes 1 status ++ leBytes 1 reason ++ leBytes 2 0)).mem)

/-- R345, R386: a packet that has come to its end gets its completion record. A packet whose grid runs gets none. (That a
record waits for the family, and whose replays it gives, is log 55; energy is log 58.) -/
def Sys2Proof.Claims.RecordWrites : Prop :=
  ∀ (i : Nat) (s : State) (p : Packet) (c : Ctx), s.packets.find? i = some p → s.ctxs.find? p.ctx = some c →
    c.leaving = false → p.node = none → p.type ≠ 1 ∨ (s.ring p.ctx).manBase = 0 →
    (∀ status reason, Reports s p status reason → ∃ t q, exec (.completionRecordWrite i) s = .next t ∧
      t.packets.find? i = some q ∧ q.st = .completed ∧ q.status = status ∧ q.reason = reason ∧ q.tend = s.time ∧
      RecordIn s c p status reason s t.mem) ∧
    (∀ gid x, p.st = .started → p.grid = some gid → s.grid? gid = some x →
      x.st = .running ∨ (x.st ≠ .done ∧ quiet s gid = false) → exec (.completionRecordWrite i) s = .next s)

/-- A manifest entry, byte for byte (R387): `used` is the bit mask of the variants in which blocks ran, `tag` their tags. -/
def Sys2Proof.Claims.EntryOf (s : State) (c : Ctx) (p : Packet) (status used : Nat) (tag : Nat → Nat)
    (floor fq kdesc skips replays cycles energy : Nat) : List Byte :=
  leBytes 4 p.tag ++ leBytes 1 status ++ leBytes 1 p.level ++ leBytes 1 used ++ leBytes 1 (if c.ovs then 1 else 0) ++
    (leBytes 2 (tag 0) ++ leBytes 2 (tag 1) ++ leBytes 2 (tag 2) ++ leBytes 2 (tag 3)) ++ leBytes 2 floor ++ leBytes 2 fq ++
    leBytes 4 s.degraded.length ++ leBytes 8 kdesc ++ leBytes 8 skips ++ leBytes 8 replays ++ leBytes 8 cycles ++
    leBytes 8 energy ++ shake256 (leBytes 16 (p.lx 0x30 16)) ++ leBytes 64 0

/-- The manifest entry of a packet that reports `status` (R387): with its grid's figures, or without a grid. -/
def Sys2Proof.Claims.EntryFor (s : State) (c : Ctx) (p : Packet) (status : Nat) (entry : List Byte) : Prop :=
  (p.grid.bind s.grid? = none → ∃ kdesc, (p.node = none → kdesc = p.f 0x10 8) ∧
    (∀ run n r nd, p.node = some (run, n) → s.graphs.find? run = some r → r.rec? n = some nd →
      kdesc = if nd.xtra = 0 then p.f 0x10 8 else nd.xtra) ∧
    entry = EntryOf s c p status 0 (fun _ => 0) 0xFFFF 0 kdesc p.skips p.replays p.cycles p.energy) ∧
  (∀ gid x, p.grid = some gid → s.grid? gid = some x → ∃ used tag,
    (∀ v, v < 8 → (Nat.testBit used v = true ↔ v ∈ x.vused)) ∧
    (∀ v, (∀ w ∈ x.kern.vars, w.vid ≠ v) → tag v = 0) ∧
    (∀ v w, w ∈ x.kern.vars → w.vid = v → (∀ u ∈ x.kern.vars, u.vid = v → u = w) → tag v = w.tag) ∧
    entry = EntryOf s c p status used tag x.floor x.fq x.kdesc x.skips
      (((family s gid).filterMap s.grid?).map (·.replays)).sum
      ((x.firstCycle.map (fun f => x.endCycle - f)).getD 0) (Config.energy gid s.time))

/-- R386, R387: a `LAUNCH`, and a graph's `KERN` node whatever packet it names, adds an entry to the context's manifest; then
come the firmware's measurement, the hash of the degraded-unit map, and the count; an entry that does not fit sets `OVF` and
is counted. A packet that has a completion record too gets it after its entry. (The model's choices: that a launch without a
grid has an entry, with `VUSED` and `VTAGS` zero, and when the header's hashes are written, log 56; whose replays, log 55;
SHAKE256 is log 60; energy log 58.) -/
def Sys2Proof.Claims.ManifestWrites : Prop :=
  ∀ (i h status reason : Nat) (s : State) (p : Packet) (c : Ctx), s.packets.find? i = some p → s.ctxs.find? p.ctx = some c →
    (p.type = 1 ∨ ∃ run n r nd, p.node = some (run, n) ∧ s.graphs.find? run = some r ∧ r.rec? n = some nd ∧ nd.kind = 1) →
    let r := s.ring p.ctx
    r.manBase ≠ 0 → natVirt s c r.manBase 16 = some h → Reports s p status reason →
    let at_ := field h 4 4 + 192 * field h 8 4
    let put := fun (s : State) (ofs : Nat) (bs : List Byte) => storeVirt s c (r.manBase + ofs) bs
    let ends := fun (s : State) => put (put s 0x10 (s.spdm.meas1.take 64)) 0x50
      (shake256 (s.degraded.flatMap (fun e => leBytes 8 e.toNat)))
    ∃ t u, exec (.completionRecordWrite i) s = .next t ∧ RecordIn s c p status reason u t.mem ∧
      (at_ + 192 ≤ r.manSz → ∃ entry, EntryFor s c p status entry ∧
        u = put (ends (put s at_ entry)) 8 (leBytes 4 (field h 8 4 + 1))) ∧
      (r.manSz < at_ + 192 → u = put (put (ends s) 12 (leBytes 4 1)) 8 (leBytes 4 (field h 8 4 + 1))) ∧
      (p.node = none → c.leaving = false → ∃ q, t.packets.find? i = some q ∧ q.st = .completed ∧ q.status = status ∧
        q.reason = reason ∧ q.tend = s.time)

/-- R40, R41, R345, R386, R387: cones that expire, cuts that arrive, and the records of what has ended. (The model's choices:
that what a family submitted counts to it, log 55, and that a context without a manifest, `MANBASE` 0, has no entry, log
135.) -/
def Obligations.CutsAndCompletion : Prop := ConesAndCuts ∧ RecordWrites ∧ ManifestWrites

/-! ## The host boundary -/

namespace Sys2Proof.Claims

/-- The control space as it reads (R369, R384): `DEVSTAT`, `PKGID`, context slots, routes, fault rings and manifest registers
give what they hold, and every reserved offset gives zero. -/
def ControlReads : Prop :=
  ∀ (s : State),
    (∀ n, (s.ctl.dev = .reset → n = 0) → (s.ctl.dev = .awaiting → n = 1) → (s.ctl.dev = .verifying → n = 2) →
      (s.ctl.dev = .ready → n = 3) → (s.ctl.dev = .refused → n = 4) →
      controlRead s 0 = n + if s.degraded = [] then 0 else 256) ∧
    controlRead s 0x10 = s.ctl.pkgId.toNat ∧
    (∀ n, n < 64 → (s.ctxs.find? n = none → controlRead s (0x1000 + 8 * n) = 0) ∧
      (∀ c, s.ctxs.find? n = some c → controlRead s (0x1000 + 8 * n) = c.desc)) ∧
    (∀ n, n < 1024 → controlRead s (0x4000 + 8 * n) = (s.routes.getD n 0).toNat) ∧
    (∀ n, n < 64 → let at_ := fun (i : Nat) => controlRead s (0x30000 + 0x40 * n + 8 * i)
      let r := s.ring n
      at_ 0 = r.base ∧ at_ 1 = r.log ∧ at_ 2 = r.widx ∧ at_ 3 = r.ridx ∧ at_ 4 = r.savePool ∧ at_ 5 = r.invAddr ∧
      at_ 6 = r.invCtl ∧ at_ 7 = 0 ∧ controlRead s (0x31000 + 0x10 * n) = r.manBase ∧
      controlRead s (0x31000 + 0x10 * n + 8) = r.manSz) ∧
    ∀ ofs, (0x20 ≤ ofs ∧ ofs < 0x1000) ∨ (0x1200 ≤ ofs ∧ ofs < 0x4000) ∨ (0x6000 ≤ ofs ∧ ofs < 0x20000) ∨
      (0x28000 ≤ ofs ∧ ofs < 0x30000) ∨ 0x31400 ≤ ofs → controlRead s ofs = 0

/-- The firmware's verification (R370, R371, R373, R367): measurement 1 is the image's hash; a good signature makes the package
ready, with the degraded-unit map kept and extended by what the ROM's tests find, the CXL capacities, and the HBM pages that
the host's range leaves out. -/
def Verification : Prop :=
  ∀ (s : State), s.ctl.dev = .verifying →
    let img := s.ctl.fw.read 0 s.ctl.fwLen
    let spdm := { s.spdm with meas1 := shake256 img }
    (Config.imageSigned img = false → exec .firmwareVerifyDone s =
      .next { s with ctl := { s.ctl with dev := .refused }, spdm := spdm }) ∧
    (Config.imageSigned img = true → ∃ t more, exec .firmwareVerifyDone s = .next t ∧ t.ctl.dev = .ready ∧ t.spdm = spdm ∧
      t.degraded = s.degraded ++ more ∧ t.ctl.pkgId = s.ctl.pkgId ∧ t.ctl.cxl.length = 4 ∧ (∀ n ∈ t.ctl.cxl, n ≤ 2 ^ 40) ∧
      t.ctl.hdm.Pairwise (· < ·) ∧ ∀ p, p ∈ t.ctl.hdm ↔ ∃ e ∈ t.degraded, e.toNat % 256 = 5 ∧ bits e.toNat 8 24 = p)

/-- A reset of the package (R371): everything but the degraded-unit map, retired ports and other packages' memory is as at
power-on, and the package's own memory lists nothing. -/
def Resets (s : State) (i : Instr) (link : Bool) : Prop :=
  ∃ t, exec i s = .next t ∧ t.ctl.dev = .reset ∧ t.ctl.linkUp = link ∧ t.ctl.pkgId = 0 ∧
    t.ctxs = [] ∧ t.blocks = [] ∧ t.grids = [] ∧ t.packets = [] ∧ t.routes = [] ∧ t.degraded = s.degraded ∧
    (∀ p, let q := t.ports.getD p Port.reset
      q.retired = (s.ports.getD p Port.reset).retired ∧ q.lanes = 15 ∧ q.retries = []) ∧
    (∀ e ∈ t.mem.cells, e.1 / 2 ^ 48 ≠ 0) ∧
    (s.memoryOk = true → ∀ a, a / 2 ^ 48 ≠ s.ctl.pkgId.toNat → a / 2 ^ 48 ≠ 0 → t.mem.read1 a = s.mem.read1 a)

/-- A host store lands in the healthy pages of this package's HBM, in ascending order, with owner none (R367, R368, R389). -/
def HostStores : Prop :=
  ∀ (addr : Nat) (data : List Byte) (s : State), noLadders s →
    let left := (hbmPages - s.ctl.hdm.length) * 65536
    (left < addr + data.length → exec (.hostCxlStore addr data) s = .next s) ∧
    (addr + data.length ≤ left → ∃ t, exec (.hostCxlStore addr data) s = .next t ∧ t.copies = s.copies ∧ t.blocks = s.blocks ∧
      (∀ (i : Nat) (b : Byte), data[i]? = some b → t.mem.read1 (hostAddr s (addr + i)) = b) ∧
      Disowned s t ((List.range data.length).map (fun i => .g (hostAddr s (addr + i)))) ∧
      ∀ a, (∀ i, i < data.length → a ≠ hostAddr s (addr + i)) → t.mem.read1 a = s.mem.read1 a) ∧
    (∀ a, hostAddr s a = s.ctl.pkgId.toNat * 2 ^ 48 + hostPage s (a / 65536) * 65536 + a % 65536) ∧
    (s.ctl.hdm.Pairwise (· < ·) → (∀ m n, m < n → hostPage s m < hostPage s n) ∧
      ∀ p, p ∉ s.ctl.hdm ↔ ∃ n, hostPage s n = p)

end Sys2Proof.Claims

/-- R332–R334, R350, R352, R366–R375, R384, R388, R389: doorbells, context slots, fault service, invalidation, firmware, resets,
the control space, routes, host stores, retries, lanes and clocks. (Readings and choices: what a context slot's write does
with work in flight, submitted packets that nobody has read among it, and what the slot reads meanwhile are log 77, when an
invalidation is done log 78, the link's state after a reset log 79, the place of a host store log 80 and log 123, writes that
no register takes log 81, reads of registers that are only written log 122, how retries are counted log 82, what the ROM
finds log 112, the bound of 46 fiftieths on a throttled clock's rate log 98 (DESIGN CHOICE); SHAKE256 is log 60.) -/
def Obligations.Platform : Prop :=
  (∀ (ctx q val : Nat) (s : State) (c : Ctx) (e : QEntry), s.ctxs.find? ctx = some c → q < 64 →
    queueEntry s ctx q = some e →
    (s.ctl.dev = .ready → e.enabled = true → e.device = false →
      exec (.doorbellWrite ctx q val) s = .next (storeVirt (noteQueue s ctx q) c (queueVa c q + 24) (leBytes 8 val))) ∧
    (s.ctl.dev ≠ .ready ∨ e.enabled = false ∨ e.device = true → exec (.doorbellWrite ctx q val) s =
      .next (noteQueue s ctx q))) ∧
  (∀ (ctx val : Nat) (s : State), s.ctl.dev = .ready → ctx < 64 →
    let idle := (∀ e ∈ s.packets, e.2.ctx = ctx → e.2.st = .completed) ∧
      ∀ q e, q < 64 → queueEntry s ctx q = some e → e.enabled = true → e.widx ≤ e.ridx
    (∀ c, val ≠ 0 → idle → readContext s val = some c → ∃ t, exec (.contextSlotWrite ctx val) s = .next t ∧
      SameBytes s t ∧ t.ctxs.find? ctx = some c ∧ (∀ d, d ≠ ctx → t.ctxs.find? d = s.ctxs.find? d) ∧
      ∀ e ∈ t.tlb, e.ctx ≠ ctx) ∧
    (val = 0 → idle → ∃ t, exec (.contextSlotWrite ctx val) s = .next t ∧ SameBytes s t ∧ t.ctxs.find? ctx = none ∧
      ∀ d, d ≠ ctx → t.ctxs.find? d = s.ctxs.find? d) ∧
    (∀ c, val = 0 → ¬idle → s.ctxs.find? ctx = some c → ∃ t, exec (.contextSlotWrite ctx val) s = .next t ∧
      SameBytes s t ∧ t.ctxs.find? ctx = some { c with leaving := true })) ∧
  (∀ (ctx n : Nat) (s : State), ctx < 64 → (s.ring ctx).held = [] → ∃ t, exec (.frridxWrite ctx n) s = .next t ∧
    SameBytes s t ∧ t.ring ctx = { s.ring ctx with ridx := n, pend := (s.ring ctx).pend.filter (fun e => decide (n ≤ e.1)) } ∧
    (∀ b k c cr q, s.block? b = some k → ((s.grid? k.grid).map (·.ctx)) = some ctx → k.crews.find? c = some cr →
      cr.pfSeq = some q → ∃ cr', t.crew? b c = some cr' ∧ SameRegs cr cr' ∧
        (q < n → cr'.pendingPf = none ∧ cr'.pfSeq = none) ∧ (n ≤ q → cr' = cr)) ∧
    ∀ b k q, s.block? b = some k → ((s.grid? k.grid).map (·.ctx)) = some ctx → k.fseq = some q →
      (t.block? b).map (·.fseq) = some (if n ≤ q then some q else none)) ∧
  (∀ (ctx val : Nat) (s : State), ctx < 64 →
    (bitAt (s.ring ctx).invCtl 0 = false → ∃ t, exec (.invctlInvalidate ctx val) s = .next t ∧ SameBytes s t ∧
      t.ring ctx = { s.ring ctx with invCtl := val % 2 ^ 64 }) ∧
    (bitAt (s.ring ctx).invCtl 0 = true → exec (.invctlInvalidate ctx val) s = .next s) ∧
    (bitAt (s.ring ctx).invCtl 0 = true → accessPending s ctx = false → (∀ e ∈ s.quads, e.2.streams = []) →
      ∃ t, exec (.invalidationDone ctx) s = .next t ∧ SameBytes s t ∧ bitAt (t.ring ctx).invCtl 0 = false ∧
        ∀ e ∈ t.tlb, e.ctx = ctx → inRange (s.ring ctx) e.va (2 ^ e.log) = false)) ∧
  (∀ (val : Nat) (s : State), s.ctl.dev = .awaiting ∨ s.ctl.dev = .refused → bitAt val 0 = true →
    1 ≤ bits val 32 32 → bits val 32 32 ≤ 64 * 2 ^ 20 → exec (.fwctlVerify val) s =
      .next { s with ctl := { s.ctl with dev := .verifying, fwLen := bits val 32 32 } }) ∧
  Verification ∧ ControlReads ∧ HostStores ∧
  (∀ (ofs : Nat) (data : List Byte) (s : State),
    (s.ctl.dev ≠ .verifying → ofs + data.length ≤ 64 * 2 ^ 20 → exec (.firmwareStagingWindowWrite ofs data) s =
      .next { s with ctl := { s.ctl with fw := s.ctl.fw.write ofs data } }) ∧
    (s.ctl.dev = .verifying → exec (.firmwareStagingWindowWrite ofs data) s = .next s)) ∧
  (∀ (val : Nat) (s : State),
    let resets := Resets s
    (val % 256 = 0xD1 → resets (.rstctlReset val) false) ∧
    (val % 256 ≠ 0xD1 → exec (.rstctlReset val) s = .next s) ∧
    resets .fundamentalReset false ∧ resets .hotReset false ∧ resets .functionLevelReset true ∧
    exec .hostLinkUp s = .next { s with ctl := { s.ctl with
      linkUp := true, dev := if s.ctl.dev = .reset then .awaiting else s.ctl.dev } }) ∧
  (∀ (idx val : Nat) (s : State), idx < 1024 → exec (.routeEntryWrite idx val) s =
    .next { s with routes := s.routes.set idx (BitVec.ofNat 64 val) }) ∧
  (∀ (ctx val : Nat) (s : State), ctx < 64 → val < 2 ^ 64 →
    let rings := fun (n : Nat) (r : Ring) => exec (.controlRegisterWrite (0x30000 + 0x40 * ctx + 8 * n) val) s =
      .next (s.setRing ctx r)
    rings 0 { s.ring ctx with base := val } ∧ rings 1 { s.ring ctx with log := val } ∧
    rings 4 { s.ring ctx with savePool := val } ∧ rings 5 { s.ring ctx with invAddr := val } ∧
    exec (.controlRegisterWrite (0x31000 + 0x10 * ctx) val) s = .next (s.setRing ctx { s.ring ctx with manBase := val }) ∧
    exec (.controlRegisterWrite (0x31000 + 0x10 * ctx + 8) val) s = .next (s.setRing ctx { s.ring ctx with manSz := val }) ∧
    (s.ctxs = [] → s.memoryOk = true → ∃ t, exec (.controlRegisterWrite 0x10 val) s = .next t ∧
      t = { s with ctl := { s.ctl with pkgId := BitVec.ofNat 10 val }, mem := t.mem } ∧
      (∀ a, a < 2 ^ 48 → t.mem.read1 (val % 2 ^ 10 * 2 ^ 48 + a) = s.mem.read1 (s.ctl.pkgId.toNat * 2 ^ 48 + a)) ∧
      ∀ a, a / 2 ^ 48 ≠ s.ctl.pkgId.toNat → a / 2 ^ 48 ≠ val % 2 ^ 10 → t.mem.read1 a = s.mem.read1 a) ∧
    (s.ctxs ≠ [] → exec (.controlRegisterWrite 0x10 val) s = .next s)) ∧
  (∀ (port lane : Nat) (s : State), port < 36 → lane < 4 →
    let p := s.ports.getD port Port.reset
    let recent := (p.retries.filter (fun r => r % 4 == lane && decide (s.time ≤ r / 4 + 1000000))).length
    let left := p.lanes &&& ~~~(1#4 <<< lane)
    p.retired = false → p.lanes.getLsbD lane = true →
    exec (.flitCrcRetry port lane) s =
      .next { s with ports := s.ports.set port { p with retries := (4 * s.time + lane) :: p.retries } } ∧
    (recent < 16 → exec (.laneDrop port lane) s = .next s) ∧
    (16 ≤ recent → ∃ t, exec (.laneDrop port lane) s = .next t ∧ SameBytes s t ∧
      (t.ports.getD port Port.reset).lanes = left ∧
      (popcount left.toNat 4 < 2 → (t.ports.getD port Port.reset).retired = true ∧
        t.degraded = (if isDegraded s 7 port then s.degraded else s.degraded ++ [BitVec.ofNat 64 (7 + 256 * port)]) ∧
        ∀ r e, s.routes.find? r = some e → ∃ e', t.routes.find? r = some e' ∧ (∀ j, j < 63 → e'.getLsbD j = e.getLsbD j) ∧
          e'.getLsbD 63 = (e.getLsbD 63 && decide (e.toNat % 64 ≠ port))) ∧
      (2 ≤ popcount left.toNat 4 → (t.ports.getD port Port.reset).retired = false ∧ t.degraded = s.degraded ∧
        t.routes = s.routes))) ∧
  (∀ (die : Nat) (s : State), die < 4 →
    (∃ t, exec (.clockThrottle die) s = .next t ∧ SameBytes s t ∧ (t.die die).throttled.isSome = true ∧
      (t.die die).clk = (s.die die).clk) ∧
    exec (.arithmeticClockRestore die) s = .next (s.setDie die { s.die die with throttled := none }) ∧
    ∀ ns, ((s.die die).throttled = none → ((elapse s ns).die die).clk = (s.die die).clk + 47 * ns) ∧
      ((s.die die).throttled.isSome = true → ((elapse s ns).die die).clk ≤ (s.die die).clk + 46 * ns) ∧
      (elapse s ns).time = s.time + ns)

namespace Sys2Proof.Claims

/-- The instruction of a request that came in chunks. -/
def requestInstr : Config.SpdmRequest → Option Instr
  | .other => none
  | .getVersion => some .getVersion
  | .getCapabilities => some .getCapabilities
  | .negotiateAlgorithms a h => some (.negotiateAlgorithms a h)
  | .getDigests => some .getDigests
  | .getCertificate slot ofs len => some (.getCertificate slot ofs len)
  | .challenge slot nonce => some (.challenge slot nonce)
  | .getMeasurements idx sign nonce => some (.getMeasurements idx sign nonce)

end Sys2Proof.Claims

/-- R377: the responder answers in the order of a connection; measurements, digests and signatures are over what the rule
names, signed responses end in a signature of 49,856 bytes and are returned by chunking, and a request that comes in chunks is
acted on with its last one. An unanswerable request gets an error; the bodies that R377 leaves to SPDM 1.3 are the model's
open values, and its order of requests a reading (log 61); the bytes that measurements 2 and 3 hash are log 62, what a request
in chunks asks for and the acknowledgement's bytes log 124, and SHAKE256 is log 60. -/
def Obligations.SpdmResponder : Prop :=
  ∀ (s : State), s.ctl.linkUp = true →
    let replies := fun (i : Instr) (phase : Nat) (data : List Byte) => ∃ t, exec i s = .next t ∧ SameBytes s t ∧
      t.spdm.phase = phase ∧ t.spdm.reply = data ∧ t.spdm.meas1 = s.spdm.meas1
    let chunked := fun (i : Instr) (data : List Byte) => ∃ t, exec i s = .next t ∧ SameBytes s t ∧
      t.spdm.large = data ∧ t.spdm.handle = s.spdm.handle + 1
    let signed := fun (i : Instr) (nonce body : List Byte) => ∃ sig : List Byte, chunked i (body ++ sig) ∧
      sig.length = 49856 ∧ ∀ n, n < 49856 → sig.getD n 0 = (Config.signature (nonce ++ body)).getD n 0
    let ready := s.spdm.phase = 3 ∧ s.spdm.negotiated = true
    let error := fun (i : Instr) => ∃ code, replies i s.spdm.phase (Config.spdmBody 0x7F [code])
    let digest := shake256 Config.certificates
    replies .getVersion 1 (Config.spdmBody 0x04 []) ∧
    (1 ≤ s.spdm.phase → replies .getCapabilities (max 2 s.spdm.phase) (Config.spdmBody 0x61 [])) ∧
    (s.spdm.phase = 0 → error .getCapabilities) ∧
    (∀ a h, 2 ≤ s.spdm.phase → a ≠ 0 → h ≠ 0 → replies (.negotiateAlgorithms a h) 3 (Config.spdmBody 0x63 [a, h])) ∧
    (∀ a h, s.spdm.phase < 2 → error (.negotiateAlgorithms a h)) ∧
    (ready → replies .getDigests 3 (Config.spdmBody 0x01 [] ++ digest)) ∧
    (∀ ofs len, ready → replies (.getCertificate 0 ofs len) 3
      (Config.spdmBody 0x02 [ofs, len] ++ (Config.certificates.drop ofs).take len)) ∧
    (∀ nonce, ready → ∃ body, body = Config.spdmBody 0x03 [0] ++ digest ∧
      signed (.challenge 0 nonce) nonce body) ∧
    (∀ slot nonce, ready → slot ≠ 0 → error (.challenge slot nonce)) ∧
    (¬ready → s.spdm.phase < 3 → error .getDigests) ∧
    (∀ idx nonce m, ready → (idx = 1 ∧ m = s.spdm.meas1) ∨
        (idx = 2 ∧ m = shake256 (leBytes 8 s.ctl.pkgId.toNat ++
          (List.range 1024).flatMap (fun i => leBytes 8 (s.routes.getD i 0).toNat))) ∨
        (idx = 3 ∧ m = shake256 (s.degraded.flatMap (fun e => leBytes 8 e.toNat))) ∨
        (∃ n c bs, n < 64 ∧ idx = 0x40 + n ∧ s.ctxs.find? n = some c ∧
          readVirt s c (s.ring n).manBase (s.ring n).manSz = some bs ∧ m = shake256 bs) →
      replies (.getMeasurements idx false nonce) 3 (Config.spdmBody 0x60 [idx] ++ m) ∧
      ∃ body, body = Config.spdmBody 0x60 [idx] ++ m ∧
        signed (.getMeasurements idx true nonce) nonce body) ∧
    (∀ h n data, 2 ≤ s.spdm.phase → replies (.chunkSend h n false data) s.spdm.phase (Config.spdmBody 0x05 [h, n])) ∧
    (∀ h n data, 2 ≤ s.spdm.phase → let whole := if n = 0 then data else s.spdm.chunkIn ++ data
      let ack := Config.spdmBody 0x05 [h, n]
      (requestInstr (Config.spdmRequest whole) = none → ∃ code,
        replies (.chunkSend h n true data) s.spdm.phase (ack ++ Config.spdmBody 0x7F [code])) ∧
      ∀ i, requestInstr (Config.spdmRequest whole) = some i → ∃ u,
        exec i { s with spdm := { s.spdm with chunkIn := [] } } = .next u ∧
        exec (.chunkSend h n true data) s = .next { u with spdm := { u.spdm with reply := ack ++ u.spdm.reply } }) ∧
    (∀ h n data t, 2 ≤ s.spdm.phase → exec (.chunkSend h n false data) s = .next t →
      t.spdm.chunkIn = if n = 0 then data else s.spdm.chunkIn ++ data) ∧
    (∀ n part, 2 ≤ s.spdm.phase → part = (s.spdm.large.drop (n * chunkBytes)).take chunkBytes → part ≠ [] →
      replies (.chunkGet s.spdm.handle n) s.spdm.phase (Config.spdmBody 0x06 [s.spdm.handle, n] ++ part))

/-! ## Steps, words, memory and reset -/

/-- R53, R167–R171: a step issues the instruction that its path's slot decodes to, as `exec` says, but for a block's first that
is no `region` of its entry, which traps; a slot that decodes to none traps in the threads that its guard makes active; with
nothing to issue a step makes the agenda's next move, or lets a nanosecond pass. (The agenda and its times are log 1; that a
path at which no thread stands any more is dropped is log 9.) -/
def Obligations.StepRunsDecoded : Prop :=
  (∀ (s : State) (p : Path) (rest : List Path), s.issue = p :: rest →
    let s' := { s with issue := rest, path := p }
    let slot := p.pc % 64 / 12
    (∀ (x : Cx) (line : Nat) (where_ : Xlat), Cx.of s' ⟨false, 15⟩ = some x → fetchLine s' x.g p.pc = (where_, line) →
      where_ ≠ .pf → where_ ≠ .prot →
      let sound := isSlot p.pc = true ∧ lineWordOk line = true ∧ slotOk line slot = true
      let word := lineSlot line slot
      (∀ i, sound → decode word = .ok i →
        let entry := x.blk.fresh = true ∧ (∀ v, x.variant = some v → p.pc = v.entry)
        (¬entry ∨ (slotTarget line slot = true ∧ ∃ r, i = .region r) → step s = exec i s') ∧
        (entry → ¬(slotTarget line slot = true ∧ ∃ r, i = .region r) → legal i = true → handlerUnd x.cr i = false →
          (namedV x.cr i).all x.cr.holds = true → calm x → ∃ t cr, step s = .next t ∧ SameBytes s t ∧
            t.crew? x.b x.c = some cr ∧ cr.trap = some { trapOf x cBtgt p.pc 0 0 2 with lanes := x.lanes })) ∧
      (∀ y, ¬sound ∨ (∀ i, decode word ≠ .ok i) → Cx.of s' (wordGuard word) = some y → calm x → y.act ≠ 0 →
        ∃ t cr, step s = .next t ∧ SameBytes s t ∧ t.crew? x.b x.c = some cr ∧
          cr.trap = some (trapOf y cUnd p.pc 0 0))) ∧
    (Cx.of s' ⟨false, 15⟩ = none → step s = .next s')) ∧
  (∀ (s : State), s.issue = [] →
    (s.agenda = [] → step s = .next (tick s 1)) ∧
    (∀ m rest, s.agenda = m :: rest → m.ev.issues = false → step s = exec m.ev (tick { s with agenda := rest } m.ns)) ∧
    (∀ m rest, s.agenda = m :: rest → m.ev.issues = true → step s = .next (tick { s with agenda := rest } m.ns))) ∧
  (∀ (s : State) (ns : Nat), (tick s ns).time = s.time + ns ∧ SameBytes s (tick s ns) ∧ (tick s ns).blocks = s.blocks)

/-- Words that the spec writes out decode to the instructions that it writes beside them (R167, R179, R181, R183, R186, and
the examples of 11_encoding, 15_isa_memory and 16_isa_control). -/
def Obligations.DecodesWords : Prop :=
  let all : Guard := ⟨false, 15⟩
  decode 0x000078001800002000013C01#96 = .ok (.iadd ⟨all, 0, 0, 15, .f64, 0, 0, .i32, .v 0, false, .v 1, false, .v 0, false,
    .v 2⟩) ∧
  decode 0x00007800040500800801BD04#96 = .ok (.ffma ⟨all, 0, 0, 15, .f64, 0, 0, .f32, .v 5, false, .v 4, false, .v 2, false,
    .v 3⟩) ∧
  decode 0x0000000FFFFFFFC000000701#96 = .ok (.bra ⟨⟨false, 1⟩, 0, 0xFFFFFFFC, .v 0, false, .v 0⟩) ∧
  decode 0x308000004000000408043E01#96 = .ok (.ld ⟨all, 3, false, 0, 1, 0, 0, 0, 16, .v 0, false, .v 0, false, .s 2, false,
    .v 8⟩) ∧
  decode 0x000000080D0620A411813F83#96 = .ok (.mma ⟨all, 0, 0, .f64, 0, 0, 0, 0, 0, false, true, 3, .s 6, false, .s 5, false,
    .s 4, false, .acc 2⟩)

/-- R174–R190: the decoder gives back every well-formed instruction from its word, which exists, with every operand; an event
has no word. -/
def Obligations.DecodeEncode : Prop :=
  ∀ i : Instr, i.wf = true →
    (i.issues = true → ∃ w, encode i = some w) ∧ (i.issues = false → encode i = none) ∧
    ∀ w, encode i = some w → decode w = .ok i

/-- Every step keeps global memory in its canonical form: addresses rising, no entry equal to what an unlisted address reads
as. (The form is the model's own: log 3.) -/
def Obligations.MemoryCanonical : Prop :=
  ∀ s t : State, s.memoryOk = true → step s = .next t → t.memoryOk = true

/-- R369–R371: what reset leaves: `DEVSTAT` 0, every context slot and control register 0, times 0, every unit as at reset;
memory has its canonical form (the model's own: log 3). Of these values the host link's state, `PKGID`, the routes' other bits,
the fault rings, pools and units are the model's (log 2). -/
def Obligations.ResetState : Prop :=
  State.reset.memoryOk = true ∧ State.reset.ctl.dev = .reset ∧ State.reset.ctl.linkUp = false ∧
  State.reset.ctl.pkgId = 0 ∧ State.reset.time = 0 ∧ State.reset.ctxs = [] ∧ State.reset.grids = [] ∧
  State.reset.blocks = [] ∧ State.reset.packets = [] ∧ State.reset.copies = [] ∧ State.reset.tlb = [] ∧
  State.reset.pools = [] ∧ State.reset.ops = [] ∧ State.reset.degraded = [] ∧
  (∀ k, State.reset.routes.getD k 0 = 0 ∧ (State.reset.ring k).base = 0 ∧ (State.reset.ring k).widx = 0 ∧
    (State.reset.ring k).ridx = 0 ∧ (State.reset.ring k).invCtl = 0 ∧ (State.reset.ring k).manBase = 0) ∧
  (∀ c, (State.reset.core c).dq.owner = none ∧ (State.reset.core c).fill = none ∧ (State.reset.core c).drain = none ∧
    State.reset.clock c = 0) ∧
  exec .hostLinkUp State.reset = .next { State.reset with ctl := { State.reset.ctl with linkUp := true, dev := .awaiting } }
end

