-- ==== Sys2Proof/Laws/Table.lean ====
section
/-! SUPPORT. Laws of the sparse tables: what a table lists after an update, and that updates keep the keys rising. -/

namespace Sys2Proof.NMap

variable {α : Type}

@[simp] theorem find?_nil (n : Nat) : find? ([] : NMap α) n = none := rfl

theorem find?_cons (k : Nat) (v : α) (m : NMap α) (n : Nat) :
    find? ((k, v) :: m) n = if k = n then some v else find? m n := rfl

@[simp] theorem find?_set_self (m : NMap α) (n : Nat) (v : α) : (m.set n v).find? n = some v := by
  induction m with
  | nil => simp [set, find?]
  | cons e m ih =>
    obtain ⟨k, w⟩ := e
    unfold set
    split
    · simp [find?]
    · split
      · simp [find?]
      · simp_all [find?]

@[simp] theorem find?_set_ne (m : NMap α) {n k : Nat} (v : α) (h : k ≠ n) : (m.set n v).find? k = m.find? k := by
  induction m with
  | nil => simp [set, find?, Ne.symm h]
  | cons e m ih =>
    obtain ⟨j, w⟩ := e
    unfold set
    split
    · rename_i hj; subst hj; simp [find?, Ne.symm h]
    · split
      · rw [find?_cons]; simp [Ne.symm h]
      · simp only [find?, ih]

theorem find?_set (m : NMap α) (n k : Nat) (v : α) : (m.set n v).find? k = if k = n then some v else m.find? k := by
  by_cases h : k = n
  · subst h; simp
  · simp [h]

@[simp] theorem find?_erase_self (m : NMap α) (n : Nat) : (m.erase n).find? n = none := by
  induction m with
  | nil => rfl
  | cons e m ih =>
    obtain ⟨j, w⟩ := e
    unfold erase
    split
    · exact ih
    · rename_i h; rw [find?_cons, if_neg h]; exact ih

@[simp] theorem find?_erase_ne (m : NMap α) {n k : Nat} (h : k ≠ n) : (m.erase n).find? k = m.find? k := by
  induction m with
  | nil => rfl
  | cons e m ih =>
    obtain ⟨j, w⟩ := e
    unfold erase
    split
    · rename_i hj; subst hj; rw [ih, find?_cons, if_neg (Ne.symm h)]
    · rw [find?_cons, find?_cons, ih]

theorem find?_erase (m : NMap α) (n k : Nat) : (m.erase n).find? k = if k = n then none else m.find? k := by
  by_cases h : k = n
  · subst h; simp
  · simp [h]

@[simp] theorem set_set (m : NMap α) (n : Nat) (v w : α) : (m.set n v).set n w = m.set n w := by
  induction m with
  | nil => simp [set]
  | cons e m ih =>
    obtain ⟨j, x⟩ := e
    by_cases h : j = n
    · simp [set, h]
    · by_cases h' : n < j
      · simp [set, h, h']
      · simp [set, h, h', ih]

@[simp] theorem getD_set_self (m : NMap α) (n : Nat) (v d : α) : (m.set n v).getD n d = v := by simp [getD]

@[simp] theorem getD_set_ne (m : NMap α) {n k : Nat} (v d : α) (h : k ≠ n) : (m.set n v).getD k d = m.getD k d := by
  simp [getD, h]

theorem find?_mapVals (f : Nat → α → α) (m : NMap α) (n : Nat) : (m.mapVals f).find? n = (m.find? n).map (f n) := by
  induction m with
  | nil => rfl
  | cons e m ih =>
    obtain ⟨j, x⟩ := e
    by_cases h : j = n
    · subst h; simp [mapVals, find?]
    · simpa [mapVals, find?, h] using ih

/-- A listed value is one of the table's entries. -/
theorem mem_of_find? {m : NMap α} {n : Nat} {v : α} (h : m.find? n = some v) : (n, v) ∈ m := by
  induction m with
  | nil => simp at h
  | cons e m ih =>
    obtain ⟨j, x⟩ := e
    rw [find?_cons] at h
    split at h
    · rename_i hj; cases h; subst hj; simp
    · exact List.mem_cons_of_mem _ (ih h)

theorem sorted_nil : sorted ([] : NMap α) = true := by simp [sorted, keys]

theorem sorted_cons {k : Nat} {v : α} {m : NMap α} :
    sorted ((k, v) :: m) = true ↔ (∀ e ∈ m, k < e.1) ∧ sorted m = true := by
  unfold sorted
  rw [decide_eq_true_iff, decide_eq_true_iff]
  show List.Pairwise _ (k :: m.keys) ↔ _
  rw [List.pairwise_cons]
  refine and_congr_left fun _ => ⟨fun h e he => h _ (List.mem_map_of_mem he), fun h a ha => ?_⟩
  obtain ⟨e, he, rfl⟩ := List.mem_map.1 ha
  exact h e he

theorem mem_set {m : NMap α} {n : Nat} {v : α} {e : Nat × α} (h : e ∈ m.set n v) : e = (n, v) ∨ e ∈ m := by
  induction m with
  | nil => simpa [set] using h
  | cons x m ih =>
    obtain ⟨j, w⟩ := x
    unfold set at h
    split at h
    · rcases List.mem_cons.1 h with h | h
      · exact .inl h
      · exact .inr (List.mem_cons_of_mem _ h)
    · split at h
      · rcases List.mem_cons.1 h with h | h
        · exact .inl h
        · exact .inr h
      · rcases List.mem_cons.1 h with h | h
        · exact .inr (h ▸ List.mem_cons_self)
        · exact (ih h).imp_right (List.mem_cons_of_mem _)

theorem mem_erase {m : NMap α} {n : Nat} {e : Nat × α} (h : e ∈ m.erase n) : e ∈ m := by
  induction m with
  | nil => simp [erase] at h
  | cons x m ih =>
    obtain ⟨j, w⟩ := x
    unfold erase at h
    split at h
    · exact List.mem_cons_of_mem _ (ih h)
    · rcases List.mem_cons.1 h with h | h
      · exact h ▸ List.mem_cons_self
      · exact List.mem_cons_of_mem _ (ih h)

/-- Setting a key keeps the keys strictly rising. -/
theorem sorted_set {m : NMap α} (n : Nat) (v : α) (h : m.sorted = true) : (m.set n v).sorted = true := by
  induction m with
  | nil => simp [set, sorted, keys]
  | cons x m ih =>
    obtain ⟨j, w⟩ := x
    obtain ⟨hj, hm⟩ := sorted_cons.1 h
    unfold set
    split
    · rename_i he; subst he; exact sorted_cons.2 ⟨hj, hm⟩
    · split
      · rename_i hne hlt
        refine sorted_cons.2 ⟨?_, h⟩
        intro e he
        rcases List.mem_cons.1 he with he | he
        · subst he; exact hlt
        · exact Nat.lt_trans hlt (hj e he)
      · rename_i hne hge
        refine sorted_cons.2 ⟨?_, ih hm⟩
        intro e he
        rcases mem_set he with he | he
        · subst he; show j < n; omega
        · exact hj e he

/-- Removing a key keeps the keys strictly rising. -/
theorem sorted_erase {m : NMap α} (n : Nat) (h : m.sorted = true) : (m.erase n).sorted = true := by
  induction m with
  | nil => exact h
  | cons x m ih =>
    obtain ⟨j, w⟩ := x
    obtain ⟨hj, hm⟩ := sorted_cons.1 h
    unfold erase
    split
    · exact ih hm
    · exact sorted_cons.2 ⟨fun e he => hj e (mem_erase he), ih hm⟩

/-- Leaving out entries keeps the keys strictly rising. -/
theorem sorted_filter {m : NMap α} (p : Nat × α → Bool) (h : m.sorted = true) : NMap.sorted (m.filter p) = true := by
  induction m with
  | nil => exact h
  | cons x m ih =>
    obtain ⟨j, w⟩ := x
    obtain ⟨hj, hm⟩ := sorted_cons.1 h
    rw [List.filter_cons]
    split
    · exact sorted_cons.2 ⟨fun e he => hj e (List.mem_of_mem_filter he), ih hm⟩
    · exact ih hm

end Sys2Proof.NMap
end

