-- ==== Sys2Proof/Laws/Crew.lean ====
section
/-! SUPPORT. Laws of a crew's registers and threads: what each update leaves in each register. -/

namespace Sys2Proof.Machine.Crew

open Sys2Proof

/-- Keys of lanes below 32 name one register of one lane. -/
theorem key_inj {r l r' l' : Nat} (hl : l < 32) (hl' : l' < 32) : key r l = key r' l' ↔ r = r' ∧ l = l' := by
  unfold key; omega

/-! ## Uniform registers -/

@[simp] theorem getS_setS (c : Crew) (n : Nat) (x : DWord) : (c.setS n x).getS n = x := by simp [getS, setS]
@[simp] theorem getS_setS_ne (c : Crew) {n k : Nat} (x : DWord) (h : k ≠ n) : (c.setS n x).getS k = c.getS k := by
  simp [getS, setS, h]
@[simp] theorem getP_setS (c : Crew) (n k : Nat) (x : DWord) : (c.setS n x).getP k = c.getP k := rfl
@[simp] theorem getV_setS (c : Crew) (n r l : Nat) (x : DWord) : (c.setS n x).getV r l = c.getV r l := rfl
@[simp] theorem isEmpty_setS (c : Crew) (n r l : Nat) (x : DWord) : (c.setS n x).isEmpty r l = c.isEmpty r l := rfl
@[simp] theorem handler_setS (c : Crew) (n : Nat) (x : DWord) : (c.setS n x).handler = c.handler := rfl
@[simp] theorem threads_setS (c : Crew) (n : Nat) (x : DWord) : (c.setS n x).threads = c.threads := rfl

/-! ## Predicate registers -/

/-- `p15` reads as all ones (R10). -/
@[simp] theorem getP_15 (c : Crew) : c.getP 15 = BitVec.allOnes 32 := rfl
theorem getP_setP (c : Crew) (n : Nat) (m x : Lanes) (h : n ≠ 15) :
    (c.setP n m x).getP n = (c.getP n &&& ~~~m) ||| (x &&& m) := by simp [getP, setP, h]
@[simp] theorem getP_setP_ne (c : Crew) {n k : Nat} (m x : Lanes) (h : k ≠ n) : (c.setP n m x).getP k = c.getP k := by
  unfold setP; split <;> simp [getP, h]
@[simp] theorem getS_setP (c : Crew) (n k : Nat) (m x : Lanes) : (c.setP n m x).getS k = c.getS k := by
  unfold setP; split <;> rfl
@[simp] theorem getV_setP (c : Crew) (n r l : Nat) (m x : Lanes) : (c.setP n m x).getV r l = c.getV r l := by
  unfold setP; split <;> rfl
@[simp] theorem isEmpty_setP (c : Crew) (n r l : Nat) (m x : Lanes) : (c.setP n m x).isEmpty r l = c.isEmpty r l := by
  unfold setP; split <;> rfl
@[simp] theorem handler_setP (c : Crew) (n : Nat) (m x : Lanes) : (c.setP n m x).handler = c.handler := by
  unfold setP; split <;> rfl
@[simp] theorem threads_setP (c : Crew) (n : Nat) (m x : Lanes) : (c.setP n m x).threads = c.threads := by
  unfold setP; split <;> rfl

/-! ## Vector registers -/

@[simp] theorem getV_setV (c : Crew) (r l : Nat) (x : Word) : (c.setV r l x).getV r l = x := by simp [getV, setV]
theorem getV_setV_ne (c : Crew) {r l r' l' : Nat} (x : Word) (h : key r' l' ≠ key r l) :
    (c.setV r l x).getV r' l' = c.getV r' l' := by
  simp only [getV, setV]; rw [NMap.find?_set_ne _ _ h]
/-- A write makes the register full (R15). -/
@[simp] theorem isEmpty_setV (c : Crew) (r l : Nat) (x : Word) : (c.setV r l x).isEmpty r l = false := by
  simp [isEmpty, setV]
theorem isEmpty_setV_ne (c : Crew) {r l r' l' : Nat} (x : Word) (h : key r' l' ≠ key r l) :
    (c.setV r l x).isEmpty r' l' = c.isEmpty r' l' := by
  simp only [isEmpty, setV]; rw [NMap.find?_erase_ne _ h]
@[simp] theorem getS_setV (c : Crew) (r l n : Nat) (x : Word) : (c.setV r l x).getS n = c.getS n := rfl
@[simp] theorem getP_setV (c : Crew) (r l n : Nat) (x : Word) : (c.setV r l x).getP n = c.getP n := rfl
@[simp] theorem handler_setV (c : Crew) (r l : Nat) (x : Word) : (c.setV r l x).handler = c.handler := rfl
@[simp] theorem threads_setV (c : Crew) (r l : Nat) (x : Word) : (c.setV r l x).threads = c.threads := rfl

@[simp] theorem getS_setVs (c : Crew) (r l n k x : Nat) : (c.setVs r l n x).getS k = c.getS k := by
  induction n generalizing c r x with
  | zero => rfl
  | succ n ih => simp [setVs, ih]
@[simp] theorem getP_setVs (c : Crew) (r l n k x : Nat) : (c.setVs r l n x).getP k = c.getP k := by
  induction n generalizing c r x with
  | zero => rfl
  | succ n ih => simp [setVs, ih]
@[simp] theorem handler_setVs (c : Crew) (r l n x : Nat) : (c.setVs r l n x).handler = c.handler := by
  induction n generalizing c r x with
  | zero => rfl
  | succ n ih => simp [setVs, ih]
@[simp] theorem threads_setVs (c : Crew) (r l n x : Nat) : (c.setVs r l n x).threads = c.threads := by
  induction n generalizing c r x with
  | zero => rfl
  | succ n ih => simp [setVs, ih]

/-- Registers that a write of `n` consecutive registers does not name. -/
theorem getV_setVs_ne (c : Crew) {r l r' l' n : Nat} (x : Nat) (h : ∀ i < n, key r' l' ≠ key (r + i) l) :
    (c.setVs r l n x).getV r' l' = c.getV r' l' := by
  induction n generalizing c r x with
  | zero => rfl
  | succ n ih =>
    rw [setVs, ih _ _ (fun i hi => by have := h (i + 1) (by omega); rwa [show r + 1 + i = r + (i + 1) by omega])]
    exact getV_setV_ne _ _ (h 0 (by omega))
theorem isEmpty_setVs_ne (c : Crew) {r l r' l' n : Nat} (x : Nat) (h : ∀ i < n, key r' l' ≠ key (r + i) l) :
    (c.setVs r l n x).isEmpty r' l' = c.isEmpty r' l' := by
  induction n generalizing c r x with
  | zero => rfl
  | succ n ih =>
    rw [setVs, ih _ _ (fun i hi => by have := h (i + 1) (by omega); rwa [show r + 1 + i = r + (i + 1) by omega])]
    exact isEmpty_setV_ne _ _ (h 0 (by omega))

/-- Consecutive registers read back what was written, modulo their width (R85). -/
theorem getVs_setVs (c : Crew) {l : Nat} (hl : l < 32) (r n x : Nat) :
    (c.setVs r l n x).getVs r l n = x % 2 ^ (32 * n) := by
  induction n generalizing c r x with
  | zero => simp [getVs, Nat.mod_one]
  | succ n ih =>
    rw [setVs, getVs, ih, getV_setVs_ne _ _ (fun i hi => by rw [Ne, key_inj hl hl]; omega), getV_setV]
    rw [BitVec.toNat_ofNat, show 32 * (n + 1) = 32 + 32 * n by omega, Nat.pow_add, Nat.mod_mul]

theorem getVs_congr {c c' : Crew} {r l n : Nat} (h : ∀ i < n, c'.getV (r + i) l = c.getV (r + i) l) :
    c'.getVs r l n = c.getVs r l n := by
  induction n generalizing r with
  | zero => rfl
  | succ n ih =>
    rw [getVs, getVs, ih (fun i hi => by have := h (i + 1) (by omega); rwa [show r + 1 + i = r + (i + 1) by omega])]
    have := h 0 (by omega)
    simp only [Nat.add_zero] at this
    rw [this]

theorem getVs_lt (c : Crew) (r l n : Nat) : c.getVs r l n < 2 ^ (32 * n) := by
  induction n generalizing r with
  | zero => simp [getVs]
  | succ n ih =>
    rw [getVs, show 32 * (n + 1) = 32 + 32 * n by omega, Nat.pow_add]
    have h1 := (c.getV r l).isLt
    have h2 := ih (r + 1)
    calc (c.getV r l).toNat + 2 ^ 32 * c.getVs (r + 1) l n
        < 2 ^ 32 + 2 ^ 32 * c.getVs (r + 1) l n := by omega
      _ = 2 ^ 32 * (c.getVs (r + 1) l n + 1) := by omega
      _ ≤ 2 ^ 32 * 2 ^ (32 * n) := Nat.mul_le_mul_left _ h2

/-! ## Names (R285) -/

theorem vName_congr {c c' : Crew} (h : c'.handler = c.handler) (r : Nat) : c'.vName r = c.vName r := by
  simp [vName, inHandler, h]
theorem sName_congr {c c' : Crew} (h : c'.handler = c.handler) (r : Nat) : c'.sName r = c.sName r := by
  simp [sName, inHandler, h]
theorem pName_congr {c c' : Crew} (h : c'.handler = c.handler) (r : Nat) : c'.pName r = c.pName r := by
  simp [pName, inHandler, h]

/-! ## Threads -/

theorem thread_updThreads (c : Crew) (m : Lanes) (f : Thread → Thread) (l : Nat) :
    (c.updThreads m f).thread? l = (c.thread? l).map (fun t => if m.getLsbD l then f t else t) := by
  simp only [thread?, updThreads, NMap.find?_mapVals]

end Sys2Proof.Machine.Crew
end

