-- ==== Sys2Proof/Laws/Memory.lean ====
section
/-! SUPPORT. Laws of byte memory: a read after a write, and the canonical form, which every operation keeps. -/

namespace Sys2Proof.Machine.Memory

open Sys2Proof

@[simp] theorem write1_fill (m : Memory) (a : Nat) (b : Byte) : (m.write1 a b).fill = m.fill := rfl

@[simp] theorem base_write1 (m : Memory) (a k : Nat) (b : Byte) : (m.write1 a b).base k = m.base k := rfl

/-- A byte reads as it was written; every other byte reads as before. -/
theorem read1_write1 (m : Memory) (a k : Nat) (b : Byte) :
    (m.write1 a b).read1 k = if k = a then b else m.read1 k := by
  unfold read1
  rw [base_write1]
  by_cases h : k = a
  · subst h
    by_cases hb : b = m.base k <;> simp [write1, hb]
  · by_cases hb : b = m.base a <;> simp [write1, hb, h]

@[simp] theorem read1_write1_self (m : Memory) (a : Nat) (b : Byte) : (m.write1 a b).read1 a = b := by
  simp [read1_write1]

@[simp] theorem read1_write1_ne (m : Memory) {a k : Nat} (b : Byte) (h : k ≠ a) : (m.write1 a b).read1 k = m.read1 k := by
  simp [read1_write1, h]

/-- A write of bytes: each lands at its address, every other byte reads as before. -/
theorem read1_write (m : Memory) (a k : Nat) (bs : List Byte) :
    (m.write a bs).read1 k = if a ≤ k ∧ k < a + bs.length then bs.getD (k - a) 0 else m.read1 k := by
  induction bs generalizing m a with
  | nil =>
    simp [write]
  | cons b bs ih =>
    rw [write, ih, read1_write1]
    by_cases hk : k = a
    · subst hk
      simp
    · by_cases h : a + 1 ≤ k ∧ k < a + 1 + bs.length
      · have h2 : a ≤ k ∧ k < a + (b :: bs).length := by simp; omega
        rw [if_pos h, if_pos h2]
        have : k - a = (k - (a + 1)) + 1 := by omega
        rw [this]; simp
      · have h2 : ¬(a ≤ k ∧ k < a + (b :: bs).length) := by simp; omega
        rw [if_neg h, if_neg h2, if_neg hk]

/-- Outside the bytes written, memory reads as before. -/
theorem read1_write_outside (m : Memory) (a k : Nat) (bs : List Byte) (h : k < a ∨ a + bs.length ≤ k) :
    (m.write a bs).read1 k = m.read1 k := by
  rw [read1_write, if_neg (by omega)]

theorem read_length (m : Memory) (a n : Nat) : (m.read a n).length = n := by
  induction n generalizing a with
  | zero => rfl
  | succ n ih => simp [read, ih]

/-- A read gives the bytes just written there. -/
theorem read_write_self (m : Memory) (a : Nat) (bs : List Byte) : (m.write a bs).read a bs.length = bs := by
  induction bs generalizing m a with
  | nil => rfl
  | cons b bs ih =>
    rw [List.length_cons, read, write, ih]
    rw [read1_write, if_neg (by omega), read1_write1_self]

/-- A read of bytes that a write does not touch. -/
theorem read_write_outside (m : Memory) (a k n : Nat) (bs : List Byte) (h : k + n ≤ a ∨ a + bs.length ≤ k) :
    (m.write a bs).read k n = m.read k n := by
  induction n generalizing k with
  | zero => rfl
  | succ n ih =>
    rw [read, read, read1_write_outside _ _ _ _ (by omega), ih _ (by omega)]

theorem wf_iff (m : Memory) :
    m.wf = true ↔ NMap.sorted m.cells = true ∧ (∀ e ∈ m.cells, e.2 ≠ m.base e.1) ∧ NMap.sorted m.fill = true := by
  simp [wf, and_assoc]

/-- Writing a byte keeps the canonical form. -/
theorem wf_write1 {m : Memory} (a : Nat) (b : Byte) (h : m.wf = true) : (m.write1 a b).wf = true := by
  rw [wf_iff] at h ⊢
  obtain ⟨hs, hv, hf⟩ := h
  by_cases hb : b = m.base a
  · have hc : (m.write1 a b).cells = NMap.erase m.cells a := by simp [write1, hb]
    rw [hc]
    exact ⟨NMap.sorted_erase a hs, fun e he => hv e (NMap.mem_erase he), hf⟩
  · have hc : (m.write1 a b).cells = NMap.set m.cells a b := by simp [write1, hb]
    rw [hc]
    refine ⟨NMap.sorted_set a b hs, fun e he => ?_, hf⟩
    rcases NMap.mem_set he with he | he
    · subst he; exact hb
    · exact hv e he

/-- Writing bytes keeps the canonical form. -/
theorem wf_write {m : Memory} (a : Nat) (bs : List Byte) (h : m.wf = true) : (m.write a bs).wf = true := by
  induction bs generalizing m a with
  | nil => exact h
  | cons b bs ih => exact ih (a + 1) (wf_write1 a b h)

/-- Memory that lists nothing has the canonical form. -/
theorem wf_empty {fill : NMap Nat} (h : NMap.sorted fill = true) : (⟨[], fill⟩ : Memory).wf = true :=
  (wf_iff _).2 ⟨NMap.sorted_nil, by simp, h⟩

/-- Package numbers that trade their memory keep the canonical form. -/
theorem wf_swapPkg (m : Memory) (a b : Nat) : (m.swapPkg a b).wf = true := by
  unfold swapPkg
  have h : ∀ (cs : List (Nat × Byte)) (f : Nat → Nat) (n : Memory), n.wf = true →
      (cs.foldl (fun n e => n.write1 (f e.1) e.2) n).wf = true := by
    intro cs f
    induction cs with
    | nil => exact fun n hn => hn
    | cons c cs ih => exact fun n hn => ih _ (wf_write1 _ _ hn)
  have hf : ∀ (fs : NMap Nat) (f : Nat → Nat) (n : NMap Nat), NMap.sorted n = true →
      NMap.sorted (fs.foldl (fun n e => NMap.set n (f e.1) e.2) n) = true := by
    intro fs f
    induction fs with
    | nil => exact fun n hn => hn
    | cons c cs ih => exact fun n hn => ih _ (NMap.sorted_set _ _ hn)
  exact h m.cells (fun k => (if k / 2 ^ 48 = a then b else if k / 2 ^ 48 = b then a else k / 2 ^ 48) * 2 ^ 48 + k % 2 ^ 48) _
    (wf_empty (hf m.fill (fun k => if k = a then b else if k = b then a else k) [] NMap.sorted_nil))

/-- A package number whose memory is lost: each of its bytes reads as one of the draw, every other as before. -/
theorem read1_lose (m : Memory) (pkg n a : Nat) :
    (m.lose pkg n).read1 a = if a / 2 ^ 48 = pkg then Config.freeByte n (a % 2 ^ 48) else m.read1 a := by
  have hf : NMap.find? (m.cells.filter (fun e => e.1 / 2 ^ 48 != pkg)) a =
      if a / 2 ^ 48 = pkg then none else NMap.find? m.cells a := by
    generalize m.cells = cs
    induction cs with
    | nil => simp
    | cons c cs ih =>
      obtain ⟨k, v⟩ := c
      by_cases hk : k / 2 ^ 48 = pkg <;> by_cases ha : a / 2 ^ 48 = pkg <;> by_cases e : k = a <;>
        simp_all [NMap.find?_cons]
  unfold read1 base lose
  simp only [hf, NMap.find?_set]
  by_cases h : a / 2 ^ 48 = pkg
  · simp only [if_pos h]; rfl
  · simp only [if_neg h]

theorem wf_lose {m : Memory} (pkg n : Nat) (h : m.wf = true) : (m.lose pkg n).wf = true := by
  rw [wf_iff] at h ⊢
  obtain ⟨hs, hv, hf⟩ := h
  refine ⟨NMap.sorted_filter _ hs, fun e he => ?_, NMap.sorted_set _ _ hf⟩
  obtain ⟨hm, hp⟩ := List.mem_filter.1 he
  have hp : e.1 / 2 ^ 48 ≠ pkg := by simpa using hp
  have hb : (m.lose pkg n).base e.1 = m.base e.1 := by unfold base lose; simp only [NMap.find?_set, if_neg hp]
  rw [hb]
  exact hv e hm

end Sys2Proof.Machine.Memory
end

