-- ==== Sys2Proof/Laws/State.lean ====
section
/-! SUPPORT. Laws of the state record: what each named update leaves in each field, and what the lookups answer after it. -/

namespace Sys2Proof.Machine.State

open Sys2Proof

@[simp] theorem setCore_time (s : State) (c : Nat) (x : Core) : (s.setCore c x).time = s.time := rfl
@[simp] theorem setCore_ctl (s : State) (c : Nat) (x : Core) : (s.setCore c x).ctl = s.ctl := rfl
@[simp] theorem setCore_routes (s : State) (c : Nat) (x : Core) : (s.setCore c x).routes = s.routes := rfl
@[simp] theorem setCore_ctxs (s : State) (c : Nat) (x : Core) : (s.setCore c x).ctxs = s.ctxs := rfl
@[simp] theorem setCore_rings (s : State) (c : Nat) (x : Core) : (s.setCore c x).rings = s.rings := rfl
@[simp] theorem setCore_degraded (s : State) (c : Nat) (x : Core) : (s.setCore c x).degraded = s.degraded := rfl
@[simp] theorem setCore_ports (s : State) (c : Nat) (x : Core) : (s.setCore c x).ports = s.ports := rfl
@[simp] theorem setCore_spdm (s : State) (c : Nat) (x : Core) : (s.setCore c x).spdm = s.spdm := rfl
@[simp] theorem setCore_mem (s : State) (c : Nat) (x : Core) : (s.setCore c x).mem = s.mem := rfl
@[simp] theorem setCore_owners (s : State) (c : Nat) (x : Core) : (s.setCore c x).owners = s.owners := rfl
@[simp] theorem setCore_copies (s : State) (c : Nat) (x : Core) : (s.setCore c x).copies = s.copies := rfl
@[simp] theorem setCore_pairs (s : State) (c : Nat) (x : Core) : (s.setCore c x).pairs = s.pairs := rfl
@[simp] theorem setCore_tlb (s : State) (c : Nat) (x : Core) : (s.setCore c x).tlb = s.tlb := rfl
@[simp] theorem setCore_pools (s : State) (c : Nat) (x : Core) : (s.setCore c x).pools = s.pools := rfl
@[simp] theorem setCore_queues (s : State) (c : Nat) (x : Core) : (s.setCore c x).queues = s.queues := rfl
@[simp] theorem setCore_packets (s : State) (c : Nat) (x : Core) : (s.setCore c x).packets = s.packets := rfl
@[simp] theorem setCore_nextPkt (s : State) (c : Nat) (x : Core) : (s.setCore c x).nextPkt = s.nextPkt := rfl
@[simp] theorem setCore_graphs (s : State) (c : Nat) (x : Core) : (s.setCore c x).graphs = s.graphs := rfl
@[simp] theorem setCore_grids (s : State) (c : Nat) (x : Core) : (s.setCore c x).grids = s.grids := rfl
@[simp] theorem setCore_nextGrid (s : State) (c : Nat) (x : Core) : (s.setCore c x).nextGrid = s.nextGrid := rfl
@[simp] theorem setCore_blocks (s : State) (c : Nat) (x : Core) : (s.setCore c x).blocks = s.blocks := rfl
@[simp] theorem setCore_nextBlock (s : State) (c : Nat) (x : Core) : (s.setCore c x).nextBlock = s.nextBlock := rfl
@[simp] theorem setCore_cores (s : State) (c : Nat) (x : Core) : (s.setCore c x).cores = s.cores.set c x := rfl
@[simp] theorem setCore_quads (s : State) (c : Nat) (x : Core) : (s.setCore c x).quads = s.quads := rfl
@[simp] theorem setCore_dies (s : State) (c : Nat) (x : Core) : (s.setCore c x).dies = s.dies := rfl
@[simp] theorem setCore_bars (s : State) (c : Nat) (x : Core) : (s.setCore c x).bars = s.bars := rfl
@[simp] theorem setCore_pkgBars (s : State) (c : Nat) (x : Core) : (s.setCore c x).pkgBars = s.pkgBars := rfl
@[simp] theorem setCore_podBars (s : State) (c : Nat) (x : Core) : (s.setCore c x).podBars = s.podBars := rfl
@[simp] theorem setCore_colls (s : State) (c : Nat) (x : Core) : (s.setCore c x).colls = s.colls := rfl
@[simp] theorem setCore_ops (s : State) (c : Nat) (x : Core) : (s.setCore c x).ops = s.ops := rfl
@[simp] theorem setCore_nextOp (s : State) (c : Nat) (x : Core) : (s.setCore c x).nextOp = s.nextOp := rfl
@[simp] theorem setCore_wdCtx (s : State) (c : Nat) (x : Core) : (s.setCore c x).wdCtx = s.wdCtx := rfl
@[simp] theorem setCore_wdQ (s : State) (c : Nat) (x : Core) : (s.setCore c x).wdQ = s.wdQ := rfl
@[simp] theorem setCore_hbmRetry (s : State) (c : Nat) (x : Core) : (s.setCore c x).hbmRetry = s.hbmRetry := rfl
@[simp] theorem setCore_ladders (s : State) (c : Nat) (x : Core) : (s.setCore c x).ladders = s.ladders := rfl
@[simp] theorem setCore_free (s : State) (c : Nat) (x : Core) : (s.setCore c x).free = s.free := rfl
@[simp] theorem setCore_path (s : State) (c : Nat) (x : Core) : (s.setCore c x).path = s.path := rfl
@[simp] theorem setCore_issue (s : State) (c : Nat) (x : Core) : (s.setCore c x).issue = s.issue := rfl
@[simp] theorem setCore_agenda (s : State) (c : Nat) (x : Core) : (s.setCore c x).agenda = s.agenda := rfl

@[simp] theorem setQuad_time (s : State) (q : Nat) (x : Quad) : (s.setQuad q x).time = s.time := rfl
@[simp] theorem setQuad_ctl (s : State) (q : Nat) (x : Quad) : (s.setQuad q x).ctl = s.ctl := rfl
@[simp] theorem setQuad_routes (s : State) (q : Nat) (x : Quad) : (s.setQuad q x).routes = s.routes := rfl
@[simp] theorem setQuad_ctxs (s : State) (q : Nat) (x : Quad) : (s.setQuad q x).ctxs = s.ctxs := rfl
@[simp] theorem setQuad_rings (s : State) (q : Nat) (x : Quad) : (s.setQuad q x).rings = s.rings := rfl
@[simp] theorem setQuad_degraded (s : State) (q : Nat) (x : Quad) : (s.setQuad q x).degraded = s.degraded := rfl
@[simp] theorem setQuad_ports (s : State) (q : Nat) (x : Quad) : (s.setQuad q x).ports = s.ports := rfl
@[simp] theorem setQuad_spdm (s : State) (q : Nat) (x : Quad) : (s.setQuad q x).spdm = s.spdm := rfl
@[simp] theorem setQuad_mem (s : State) (q : Nat) (x : Quad) : (s.setQuad q x).mem = s.mem := rfl
@[simp] theorem setQuad_owners (s : State) (q : Nat) (x : Quad) : (s.setQuad q x).owners = s.owners := rfl
@[simp] theorem setQuad_copies (s : State) (q : Nat) (x : Quad) : (s.setQuad q x).copies = s.copies := rfl
@[simp] theorem setQuad_pairs (s : State) (q : Nat) (x : Quad) : (s.setQuad q x).pairs = s.pairs := rfl
@[simp] theorem setQuad_tlb (s : State) (q : Nat) (x : Quad) : (s.setQuad q x).tlb = s.tlb := rfl
@[simp] theorem setQuad_pools (s : State) (q : Nat) (x : Quad) : (s.setQuad q x).pools = s.pools := rfl
@[simp] theorem setQuad_queues (s : State) (q : Nat) (x : Quad) : (s.setQuad q x).queues = s.queues := rfl
@[simp] theorem setQuad_packets (s : State) (q : Nat) (x : Quad) : (s.setQuad q x).packets = s.packets := rfl
@[simp] theorem setQuad_nextPkt (s : State) (q : Nat) (x : Quad) : (s.setQuad q x).nextPkt = s.nextPkt := rfl
@[simp] theorem setQuad_graphs (s : State) (q : Nat) (x : Quad) : (s.setQuad q x).graphs = s.graphs := rfl
@[simp] theorem setQuad_grids (s : State) (q : Nat) (x : Quad) : (s.setQuad q x).grids = s.grids := rfl
@[simp] theorem setQuad_nextGrid (s : State) (q : Nat) (x : Quad) : (s.setQuad q x).nextGrid = s.nextGrid := rfl
@[simp] theorem setQuad_blocks (s : State) (q : Nat) (x : Quad) : (s.setQuad q x).blocks = s.blocks := rfl
@[simp] theorem setQuad_nextBlock (s : State) (q : Nat) (x : Quad) : (s.setQuad q x).nextBlock = s.nextBlock := rfl
@[simp] theorem setQuad_cores (s : State) (q : Nat) (x : Quad) : (s.setQuad q x).cores = s.cores := rfl
@[simp] theorem setQuad_quads (s : State) (q : Nat) (x : Quad) : (s.setQuad q x).quads = s.quads.set q x := rfl
@[simp] theorem setQuad_dies (s : State) (q : Nat) (x : Quad) : (s.setQuad q x).dies = s.dies := rfl
@[simp] theorem setQuad_bars (s : State) (q : Nat) (x : Quad) : (s.setQuad q x).bars = s.bars := rfl
@[simp] theorem setQuad_pkgBars (s : State) (q : Nat) (x : Quad) : (s.setQuad q x).pkgBars = s.pkgBars := rfl
@[simp] theorem setQuad_podBars (s : State) (q : Nat) (x : Quad) : (s.setQuad q x).podBars = s.podBars := rfl
@[simp] theorem setQuad_colls (s : State) (q : Nat) (x : Quad) : (s.setQuad q x).colls = s.colls := rfl
@[simp] theorem setQuad_ops (s : State) (q : Nat) (x : Quad) : (s.setQuad q x).ops = s.ops := rfl
@[simp] theorem setQuad_nextOp (s : State) (q : Nat) (x : Quad) : (s.setQuad q x).nextOp = s.nextOp := rfl
@[simp] theorem setQuad_wdCtx (s : State) (q : Nat) (x : Quad) : (s.setQuad q x).wdCtx = s.wdCtx := rfl
@[simp] theorem setQuad_wdQ (s : State) (q : Nat) (x : Quad) : (s.setQuad q x).wdQ = s.wdQ := rfl
@[simp] theorem setQuad_hbmRetry (s : State) (q : Nat) (x : Quad) : (s.setQuad q x).hbmRetry = s.hbmRetry := rfl
@[simp] theorem setQuad_ladders (s : State) (q : Nat) (x : Quad) : (s.setQuad q x).ladders = s.ladders := rfl
@[simp] theorem setQuad_free (s : State) (q : Nat) (x : Quad) : (s.setQuad q x).free = s.free := rfl
@[simp] theorem setQuad_path (s : State) (q : Nat) (x : Quad) : (s.setQuad q x).path = s.path := rfl
@[simp] theorem setQuad_issue (s : State) (q : Nat) (x : Quad) : (s.setQuad q x).issue = s.issue := rfl
@[simp] theorem setQuad_agenda (s : State) (q : Nat) (x : Quad) : (s.setQuad q x).agenda = s.agenda := rfl

@[simp] theorem setDie_time (s : State) (d : Nat) (x : Die) : (s.setDie d x).time = s.time := rfl
@[simp] theorem setDie_ctl (s : State) (d : Nat) (x : Die) : (s.setDie d x).ctl = s.ctl := rfl
@[simp] theorem setDie_routes (s : State) (d : Nat) (x : Die) : (s.setDie d x).routes = s.routes := rfl
@[simp] theorem setDie_ctxs (s : State) (d : Nat) (x : Die) : (s.setDie d x).ctxs = s.ctxs := rfl
@[simp] theorem setDie_rings (s : State) (d : Nat) (x : Die) : (s.setDie d x).rings = s.rings := rfl
@[simp] theorem setDie_degraded (s : State) (d : Nat) (x : Die) : (s.setDie d x).degraded = s.degraded := rfl
@[simp] theorem setDie_ports (s : State) (d : Nat) (x : Die) : (s.setDie d x).ports = s.ports := rfl
@[simp] theorem setDie_spdm (s : State) (d : Nat) (x : Die) : (s.setDie d x).spdm = s.spdm := rfl
@[simp] theorem setDie_mem (s : State) (d : Nat) (x : Die) : (s.setDie d x).mem = s.mem := rfl
@[simp] theorem setDie_owners (s : State) (d : Nat) (x : Die) : (s.setDie d x).owners = s.owners := rfl
@[simp] theorem setDie_copies (s : State) (d : Nat) (x : Die) : (s.setDie d x).copies = s.copies := rfl
@[simp] theorem setDie_pairs (s : State) (d : Nat) (x : Die) : (s.setDie d x).pairs = s.pairs := rfl
@[simp] theorem setDie_tlb (s : State) (d : Nat) (x : Die) : (s.setDie d x).tlb = s.tlb := rfl
@[simp] theorem setDie_pools (s : State) (d : Nat) (x : Die) : (s.setDie d x).pools = s.pools := rfl
@[simp] theorem setDie_queues (s : State) (d : Nat) (x : Die) : (s.setDie d x).queues = s.queues := rfl
@[simp] theorem setDie_packets (s : State) (d : Nat) (x : Die) : (s.setDie d x).packets = s.packets := rfl
@[simp] theorem setDie_nextPkt (s : State) (d : Nat) (x : Die) : (s.setDie d x).nextPkt = s.nextPkt := rfl
@[simp] theorem setDie_graphs (s : State) (d : Nat) (x : Die) : (s.setDie d x).graphs = s.graphs := rfl
@[simp] theorem setDie_grids (s : State) (d : Nat) (x : Die) : (s.setDie d x).grids = s.grids := rfl
@[simp] theorem setDie_nextGrid (s : State) (d : Nat) (x : Die) : (s.setDie d x).nextGrid = s.nextGrid := rfl
@[simp] theorem setDie_blocks (s : State) (d : Nat) (x : Die) : (s.setDie d x).blocks = s.blocks := rfl
@[simp] theorem setDie_nextBlock (s : State) (d : Nat) (x : Die) : (s.setDie d x).nextBlock = s.nextBlock := rfl
@[simp] theorem setDie_cores (s : State) (d : Nat) (x : Die) : (s.setDie d x).cores = s.cores := rfl
@[simp] theorem setDie_quads (s : State) (d : Nat) (x : Die) : (s.setDie d x).quads = s.quads := rfl
@[simp] theorem setDie_dies (s : State) (d : Nat) (x : Die) : (s.setDie d x).dies = s.dies.set d x := rfl
@[simp] theorem setDie_bars (s : State) (d : Nat) (x : Die) : (s.setDie d x).bars = s.bars := rfl
@[simp] theorem setDie_pkgBars (s : State) (d : Nat) (x : Die) : (s.setDie d x).pkgBars = s.pkgBars := rfl
@[simp] theorem setDie_podBars (s : State) (d : Nat) (x : Die) : (s.setDie d x).podBars = s.podBars := rfl
@[simp] theorem setDie_colls (s : State) (d : Nat) (x : Die) : (s.setDie d x).colls = s.colls := rfl
@[simp] theorem setDie_ops (s : State) (d : Nat) (x : Die) : (s.setDie d x).ops = s.ops := rfl
@[simp] theorem setDie_nextOp (s : State) (d : Nat) (x : Die) : (s.setDie d x).nextOp = s.nextOp := rfl
@[simp] theorem setDie_wdCtx (s : State) (d : Nat) (x : Die) : (s.setDie d x).wdCtx = s.wdCtx := rfl
@[simp] theorem setDie_wdQ (s : State) (d : Nat) (x : Die) : (s.setDie d x).wdQ = s.wdQ := rfl
@[simp] theorem setDie_hbmRetry (s : State) (d : Nat) (x : Die) : (s.setDie d x).hbmRetry = s.hbmRetry := rfl
@[simp] theorem setDie_ladders (s : State) (d : Nat) (x : Die) : (s.setDie d x).ladders = s.ladders := rfl
@[simp] theorem setDie_free (s : State) (d : Nat) (x : Die) : (s.setDie d x).free = s.free := rfl
@[simp] theorem setDie_path (s : State) (d : Nat) (x : Die) : (s.setDie d x).path = s.path := rfl
@[simp] theorem setDie_issue (s : State) (d : Nat) (x : Die) : (s.setDie d x).issue = s.issue := rfl
@[simp] theorem setDie_agenda (s : State) (d : Nat) (x : Die) : (s.setDie d x).agenda = s.agenda := rfl

@[simp] theorem setRing_time (s : State) (c : Nat) (x : Ring) : (s.setRing c x).time = s.time := rfl
@[simp] theorem setRing_ctl (s : State) (c : Nat) (x : Ring) : (s.setRing c x).ctl = s.ctl := rfl
@[simp] theorem setRing_routes (s : State) (c : Nat) (x : Ring) : (s.setRing c x).routes = s.routes := rfl
@[simp] theorem setRing_ctxs (s : State) (c : Nat) (x : Ring) : (s.setRing c x).ctxs = s.ctxs := rfl
@[simp] theorem setRing_rings (s : State) (c : Nat) (x : Ring) : (s.setRing c x).rings = s.rings.set c x := rfl
@[simp] theorem setRing_degraded (s : State) (c : Nat) (x : Ring) : (s.setRing c x).degraded = s.degraded := rfl
@[simp] theorem setRing_ports (s : State) (c : Nat) (x : Ring) : (s.setRing c x).ports = s.ports := rfl
@[simp] theorem setRing_spdm (s : State) (c : Nat) (x : Ring) : (s.setRing c x).spdm = s.spdm := rfl
@[simp] theorem setRing_mem (s : State) (c : Nat) (x : Ring) : (s.setRing c x).mem = s.mem := rfl
@[simp] theorem setRing_owners (s : State) (c : Nat) (x : Ring) : (s.setRing c x).owners = s.owners := rfl
@[simp] theorem setRing_copies (s : State) (c : Nat) (x : Ring) : (s.setRing c x).copies = s.copies := rfl
@[simp] theorem setRing_pairs (s : State) (c : Nat) (x : Ring) : (s.setRing c x).pairs = s.pairs := rfl
@[simp] theorem setRing_tlb (s : State) (c : Nat) (x : Ring) : (s.setRing c x).tlb = s.tlb := rfl
@[simp] theorem setRing_pools (s : State) (c : Nat) (x : Ring) : (s.setRing c x).pools = s.pools := rfl
@[simp] theorem setRing_queues (s : State) (c : Nat) (x : Ring) : (s.setRing c x).queues = s.queues := rfl
@[simp] theorem setRing_packets (s : State) (c : Nat) (x : Ring) : (s.setRing c x).packets = s.packets := rfl
@[simp] theorem setRing_nextPkt (s : State) (c : Nat) (x : Ring) : (s.setRing c x).nextPkt = s.nextPkt := rfl
@[simp] theorem setRing_graphs (s : State) (c : Nat) (x : Ring) : (s.setRing c x).graphs = s.graphs := rfl
@[simp] theorem setRing_grids (s : State) (c : Nat) (x : Ring) : (s.setRing c x).grids = s.grids := rfl
@[simp] theorem setRing_nextGrid (s : State) (c : Nat) (x : Ring) : (s.setRing c x).nextGrid = s.nextGrid := rfl
@[simp] theorem setRing_blocks (s : State) (c : Nat) (x : Ring) : (s.setRing c x).blocks = s.blocks := rfl
@[simp] theorem setRing_nextBlock (s : State) (c : Nat) (x : Ring) : (s.setRing c x).nextBlock = s.nextBlock := rfl
@[simp] theorem setRing_cores (s : State) (c : Nat) (x : Ring) : (s.setRing c x).cores = s.cores := rfl
@[simp] theorem setRing_quads (s : State) (c : Nat) (x : Ring) : (s.setRing c x).quads = s.quads := rfl
@[simp] theorem setRing_dies (s : State) (c : Nat) (x : Ring) : (s.setRing c x).dies = s.dies := rfl
@[simp] theorem setRing_bars (s : State) (c : Nat) (x : Ring) : (s.setRing c x).bars = s.bars := rfl
@[simp] theorem setRing_pkgBars (s : State) (c : Nat) (x : Ring) : (s.setRing c x).pkgBars = s.pkgBars := rfl
@[simp] theorem setRing_podBars (s : State) (c : Nat) (x : Ring) : (s.setRing c x).podBars = s.podBars := rfl
@[simp] theorem setRing_colls (s : State) (c : Nat) (x : Ring) : (s.setRing c x).colls = s.colls := rfl
@[simp] theorem setRing_ops (s : State) (c : Nat) (x : Ring) : (s.setRing c x).ops = s.ops := rfl
@[simp] theorem setRing_nextOp (s : State) (c : Nat) (x : Ring) : (s.setRing c x).nextOp = s.nextOp := rfl
@[simp] theorem setRing_wdCtx (s : State) (c : Nat) (x : Ring) : (s.setRing c x).wdCtx = s.wdCtx := rfl
@[simp] theorem setRing_wdQ (s : State) (c : Nat) (x : Ring) : (s.setRing c x).wdQ = s.wdQ := rfl
@[simp] theorem setRing_hbmRetry (s : State) (c : Nat) (x : Ring) : (s.setRing c x).hbmRetry = s.hbmRetry := rfl
@[simp] theorem setRing_ladders (s : State) (c : Nat) (x : Ring) : (s.setRing c x).ladders = s.ladders := rfl
@[simp] theorem setRing_free (s : State) (c : Nat) (x : Ring) : (s.setRing c x).free = s.free := rfl
@[simp] theorem setRing_path (s : State) (c : Nat) (x : Ring) : (s.setRing c x).path = s.path := rfl
@[simp] theorem setRing_issue (s : State) (c : Nat) (x : Ring) : (s.setRing c x).issue = s.issue := rfl
@[simp] theorem setRing_agenda (s : State) (c : Nat) (x : Ring) : (s.setRing c x).agenda = s.agenda := rfl

@[simp] theorem setBlock_time (s : State) (b : Nat) (x : Block) : (s.setBlock b x).time = s.time := rfl
@[simp] theorem setBlock_ctl (s : State) (b : Nat) (x : Block) : (s.setBlock b x).ctl = s.ctl := rfl
@[simp] theorem setBlock_routes (s : State) (b : Nat) (x : Block) : (s.setBlock b x).routes = s.routes := rfl
@[simp] theorem setBlock_ctxs (s : State) (b : Nat) (x : Block) : (s.setBlock b x).ctxs = s.ctxs := rfl
@[simp] theorem setBlock_rings (s : State) (b : Nat) (x : Block) : (s.setBlock b x).rings = s.rings := rfl
@[simp] theorem setBlock_degraded (s : State) (b : Nat) (x : Block) : (s.setBlock b x).degraded = s.degraded := rfl
@[simp] theorem setBlock_ports (s : State) (b : Nat) (x : Block) : (s.setBlock b x).ports = s.ports := rfl
@[simp] theorem setBlock_spdm (s : State) (b : Nat) (x : Block) : (s.setBlock b x).spdm = s.spdm := rfl
@[simp] theorem setBlock_mem (s : State) (b : Nat) (x : Block) : (s.setBlock b x).mem = s.mem := rfl
@[simp] theorem setBlock_owners (s : State) (b : Nat) (x : Block) : (s.setBlock b x).owners = s.owners := rfl
@[simp] theorem setBlock_copies (s : State) (b : Nat) (x : Block) : (s.setBlock b x).copies = s.copies := rfl
@[simp] theorem setBlock_pairs (s : State) (b : Nat) (x : Block) : (s.setBlock b x).pairs = s.pairs := rfl
@[simp] theorem setBlock_tlb (s : State) (b : Nat) (x : Block) : (s.setBlock b x).tlb = s.tlb := rfl
@[simp] theorem setBlock_pools (s : State) (b : Nat) (x : Block) : (s.setBlock b x).pools = s.pools := rfl
@[simp] theorem setBlock_queues (s : State) (b : Nat) (x : Block) : (s.setBlock b x).queues = s.queues := rfl
@[simp] theorem setBlock_packets (s : State) (b : Nat) (x : Block) : (s.setBlock b x).packets = s.packets := rfl
@[simp] theorem setBlock_nextPkt (s : State) (b : Nat) (x : Block) : (s.setBlock b x).nextPkt = s.nextPkt := rfl
@[simp] theorem setBlock_graphs (s : State) (b : Nat) (x : Block) : (s.setBlock b x).graphs = s.graphs := rfl
@[simp] theorem setBlock_grids (s : State) (b : Nat) (x : Block) : (s.setBlock b x).grids = s.grids := rfl
@[simp] theorem setBlock_nextGrid (s : State) (b : Nat) (x : Block) : (s.setBlock b x).nextGrid = s.nextGrid := rfl
@[simp] theorem setBlock_blocks (s : State) (b : Nat) (x : Block) : (s.setBlock b x).blocks = s.blocks.set b x := rfl
@[simp] theorem setBlock_nextBlock (s : State) (b : Nat) (x : Block) : (s.setBlock b x).nextBlock = s.nextBlock := rfl
@[simp] theorem setBlock_cores (s : State) (b : Nat) (x : Block) : (s.setBlock b x).cores = s.cores := rfl
@[simp] theorem setBlock_quads (s : State) (b : Nat) (x : Block) : (s.setBlock b x).quads = s.quads := rfl
@[simp] theorem setBlock_dies (s : State) (b : Nat) (x : Block) : (s.setBlock b x).dies = s.dies := rfl
@[simp] theorem setBlock_bars (s : State) (b : Nat) (x : Block) : (s.setBlock b x).bars = s.bars := rfl
@[simp] theorem setBlock_pkgBars (s : State) (b : Nat) (x : Block) : (s.setBlock b x).pkgBars = s.pkgBars := rfl
@[simp] theorem setBlock_podBars (s : State) (b : Nat) (x : Block) : (s.setBlock b x).podBars = s.podBars := rfl
@[simp] theorem setBlock_colls (s : State) (b : Nat) (x : Block) : (s.setBlock b x).colls = s.colls := rfl
@[simp] theorem setBlock_ops (s : State) (b : Nat) (x : Block) : (s.setBlock b x).ops = s.ops := rfl
@[simp] theorem setBlock_nextOp (s : State) (b : Nat) (x : Block) : (s.setBlock b x).nextOp = s.nextOp := rfl
@[simp] theorem setBlock_wdCtx (s : State) (b : Nat) (x : Block) : (s.setBlock b x).wdCtx = s.wdCtx := rfl
@[simp] theorem setBlock_wdQ (s : State) (b : Nat) (x : Block) : (s.setBlock b x).wdQ = s.wdQ := rfl
@[simp] theorem setBlock_hbmRetry (s : State) (b : Nat) (x : Block) : (s.setBlock b x).hbmRetry = s.hbmRetry := rfl
@[simp] theorem setBlock_ladders (s : State) (b : Nat) (x : Block) : (s.setBlock b x).ladders = s.ladders := rfl
@[simp] theorem setBlock_free (s : State) (b : Nat) (x : Block) : (s.setBlock b x).free = s.free := rfl
@[simp] theorem setBlock_path (s : State) (b : Nat) (x : Block) : (s.setBlock b x).path = s.path := rfl
@[simp] theorem setBlock_issue (s : State) (b : Nat) (x : Block) : (s.setBlock b x).issue = s.issue := rfl
@[simp] theorem setBlock_agenda (s : State) (b : Nat) (x : Block) : (s.setBlock b x).agenda = s.agenda := rfl

@[simp] theorem setGrid_time (s : State) (g : Nat) (x : Grid) : (s.setGrid g x).time = s.time := rfl
@[simp] theorem setGrid_ctl (s : State) (g : Nat) (x : Grid) : (s.setGrid g x).ctl = s.ctl := rfl
@[simp] theorem setGrid_routes (s : State) (g : Nat) (x : Grid) : (s.setGrid g x).routes = s.routes := rfl
@[simp] theorem setGrid_ctxs (s : State) (g : Nat) (x : Grid) : (s.setGrid g x).ctxs = s.ctxs := rfl
@[simp] theorem setGrid_rings (s : State) (g : Nat) (x : Grid) : (s.setGrid g x).rings = s.rings := rfl
@[simp] theorem setGrid_degraded (s : State) (g : Nat) (x : Grid) : (s.setGrid g x).degraded = s.degraded := rfl
@[simp] theorem setGrid_ports (s : State) (g : Nat) (x : Grid) : (s.setGrid g x).ports = s.ports := rfl
@[simp] theorem setGrid_spdm (s : State) (g : Nat) (x : Grid) : (s.setGrid g x).spdm = s.spdm := rfl
@[simp] theorem setGrid_mem (s : State) (g : Nat) (x : Grid) : (s.setGrid g x).mem = s.mem := rfl
@[simp] theorem setGrid_owners (s : State) (g : Nat) (x : Grid) : (s.setGrid g x).owners = s.owners := rfl
@[simp] theorem setGrid_copies (s : State) (g : Nat) (x : Grid) : (s.setGrid g x).copies = s.copies := rfl
@[simp] theorem setGrid_pairs (s : State) (g : Nat) (x : Grid) : (s.setGrid g x).pairs = s.pairs := rfl
@[simp] theorem setGrid_tlb (s : State) (g : Nat) (x : Grid) : (s.setGrid g x).tlb = s.tlb := rfl
@[simp] theorem setGrid_pools (s : State) (g : Nat) (x : Grid) : (s.setGrid g x).pools = s.pools := rfl
@[simp] theorem setGrid_queues (s : State) (g : Nat) (x : Grid) : (s.setGrid g x).queues = s.queues := rfl
@[simp] theorem setGrid_packets (s : State) (g : Nat) (x : Grid) : (s.setGrid g x).packets = s.packets := rfl
@[simp] theorem setGrid_nextPkt (s : State) (g : Nat) (x : Grid) : (s.setGrid g x).nextPkt = s.nextPkt := rfl
@[simp] theorem setGrid_graphs (s : State) (g : Nat) (x : Grid) : (s.setGrid g x).graphs = s.graphs := rfl
@[simp] theorem setGrid_grids (s : State) (g : Nat) (x : Grid) : (s.setGrid g x).grids = s.grids.set g x := rfl
@[simp] theorem setGrid_nextGrid (s : State) (g : Nat) (x : Grid) : (s.setGrid g x).nextGrid = s.nextGrid := rfl
@[simp] theorem setGrid_blocks (s : State) (g : Nat) (x : Grid) : (s.setGrid g x).blocks = s.blocks := rfl
@[simp] theorem setGrid_nextBlock (s : State) (g : Nat) (x : Grid) : (s.setGrid g x).nextBlock = s.nextBlock := rfl
@[simp] theorem setGrid_cores (s : State) (g : Nat) (x : Grid) : (s.setGrid g x).cores = s.cores := rfl
@[simp] theorem setGrid_quads (s : State) (g : Nat) (x : Grid) : (s.setGrid g x).quads = s.quads := rfl
@[simp] theorem setGrid_dies (s : State) (g : Nat) (x : Grid) : (s.setGrid g x).dies = s.dies := rfl
@[simp] theorem setGrid_bars (s : State) (g : Nat) (x : Grid) : (s.setGrid g x).bars = s.bars := rfl
@[simp] theorem setGrid_pkgBars (s : State) (g : Nat) (x : Grid) : (s.setGrid g x).pkgBars = s.pkgBars := rfl
@[simp] theorem setGrid_podBars (s : State) (g : Nat) (x : Grid) : (s.setGrid g x).podBars = s.podBars := rfl
@[simp] theorem setGrid_colls (s : State) (g : Nat) (x : Grid) : (s.setGrid g x).colls = s.colls := rfl
@[simp] theorem setGrid_ops (s : State) (g : Nat) (x : Grid) : (s.setGrid g x).ops = s.ops := rfl
@[simp] theorem setGrid_nextOp (s : State) (g : Nat) (x : Grid) : (s.setGrid g x).nextOp = s.nextOp := rfl
@[simp] theorem setGrid_wdCtx (s : State) (g : Nat) (x : Grid) : (s.setGrid g x).wdCtx = s.wdCtx := rfl
@[simp] theorem setGrid_wdQ (s : State) (g : Nat) (x : Grid) : (s.setGrid g x).wdQ = s.wdQ := rfl
@[simp] theorem setGrid_hbmRetry (s : State) (g : Nat) (x : Grid) : (s.setGrid g x).hbmRetry = s.hbmRetry := rfl
@[simp] theorem setGrid_ladders (s : State) (g : Nat) (x : Grid) : (s.setGrid g x).ladders = s.ladders := rfl
@[simp] theorem setGrid_free (s : State) (g : Nat) (x : Grid) : (s.setGrid g x).free = s.free := rfl
@[simp] theorem setGrid_path (s : State) (g : Nat) (x : Grid) : (s.setGrid g x).path = s.path := rfl
@[simp] theorem setGrid_issue (s : State) (g : Nat) (x : Grid) : (s.setGrid g x).issue = s.issue := rfl
@[simp] theorem setGrid_agenda (s : State) (g : Nat) (x : Grid) : (s.setGrid g x).agenda = s.agenda := rfl

@[simp] theorem draw_time (s : State) : (s.draw).time = s.time := rfl
@[simp] theorem draw_ctl (s : State) : (s.draw).ctl = s.ctl := rfl
@[simp] theorem draw_routes (s : State) : (s.draw).routes = s.routes := rfl
@[simp] theorem draw_ctxs (s : State) : (s.draw).ctxs = s.ctxs := rfl
@[simp] theorem draw_rings (s : State) : (s.draw).rings = s.rings := rfl
@[simp] theorem draw_degraded (s : State) : (s.draw).degraded = s.degraded := rfl
@[simp] theorem draw_ports (s : State) : (s.draw).ports = s.ports := rfl
@[simp] theorem draw_spdm (s : State) : (s.draw).spdm = s.spdm := rfl
@[simp] theorem draw_mem (s : State) : (s.draw).mem = s.mem := rfl
@[simp] theorem draw_owners (s : State) : (s.draw).owners = s.owners := rfl
@[simp] theorem draw_copies (s : State) : (s.draw).copies = s.copies := rfl
@[simp] theorem draw_pairs (s : State) : (s.draw).pairs = s.pairs := rfl
@[simp] theorem draw_tlb (s : State) : (s.draw).tlb = s.tlb := rfl
@[simp] theorem draw_pools (s : State) : (s.draw).pools = s.pools := rfl
@[simp] theorem draw_queues (s : State) : (s.draw).queues = s.queues := rfl
@[simp] theorem draw_packets (s : State) : (s.draw).packets = s.packets := rfl
@[simp] theorem draw_nextPkt (s : State) : (s.draw).nextPkt = s.nextPkt := rfl
@[simp] theorem draw_graphs (s : State) : (s.draw).graphs = s.graphs := rfl
@[simp] theorem draw_grids (s : State) : (s.draw).grids = s.grids := rfl
@[simp] theorem draw_nextGrid (s : State) : (s.draw).nextGrid = s.nextGrid := rfl
@[simp] theorem draw_blocks (s : State) : (s.draw).blocks = s.blocks := rfl
@[simp] theorem draw_nextBlock (s : State) : (s.draw).nextBlock = s.nextBlock := rfl
@[simp] theorem draw_cores (s : State) : (s.draw).cores = s.cores := rfl
@[simp] theorem draw_quads (s : State) : (s.draw).quads = s.quads := rfl
@[simp] theorem draw_dies (s : State) : (s.draw).dies = s.dies := rfl
@[simp] theorem draw_bars (s : State) : (s.draw).bars = s.bars := rfl
@[simp] theorem draw_pkgBars (s : State) : (s.draw).pkgBars = s.pkgBars := rfl
@[simp] theorem draw_podBars (s : State) : (s.draw).podBars = s.podBars := rfl
@[simp] theorem draw_colls (s : State) : (s.draw).colls = s.colls := rfl
@[simp] theorem draw_ops (s : State) : (s.draw).ops = s.ops := rfl
@[simp] theorem draw_nextOp (s : State) : (s.draw).nextOp = s.nextOp := rfl
@[simp] theorem draw_wdCtx (s : State) : (s.draw).wdCtx = s.wdCtx := rfl
@[simp] theorem draw_wdQ (s : State) : (s.draw).wdQ = s.wdQ := rfl
@[simp] theorem draw_hbmRetry (s : State) : (s.draw).hbmRetry = s.hbmRetry := rfl
@[simp] theorem draw_ladders (s : State) : (s.draw).ladders = s.ladders := rfl
@[simp] theorem draw_free (s : State) : (s.draw).free = s.free + 1 := rfl
@[simp] theorem draw_path (s : State) : (s.draw).path = s.path := rfl
@[simp] theorem draw_issue (s : State) : (s.draw).issue = s.issue := rfl
@[simp] theorem draw_agenda (s : State) : (s.draw).agenda = s.agenda := rfl

@[simp] theorem updBlock_time (s : State) (b : Nat) (h : Block → Block) : (s.updBlock b h).time = s.time := by unfold updBlock; split <;> rfl
@[simp] theorem updBlock_ctl (s : State) (b : Nat) (h : Block → Block) : (s.updBlock b h).ctl = s.ctl := by unfold updBlock; split <;> rfl
@[simp] theorem updBlock_routes (s : State) (b : Nat) (h : Block → Block) : (s.updBlock b h).routes = s.routes := by unfold updBlock; split <;> rfl
@[simp] theorem updBlock_ctxs (s : State) (b : Nat) (h : Block → Block) : (s.updBlock b h).ctxs = s.ctxs := by unfold updBlock; split <;> rfl
@[simp] theorem updBlock_rings (s : State) (b : Nat) (h : Block → Block) : (s.updBlock b h).rings = s.rings := by unfold updBlock; split <;> rfl
@[simp] theorem updBlock_degraded (s : State) (b : Nat) (h : Block → Block) : (s.updBlock b h).degraded = s.degraded := by unfold updBlock; split <;> rfl
@[simp] theorem updBlock_ports (s : State) (b : Nat) (h : Block → Block) : (s.updBlock b h).ports = s.ports := by unfold updBlock; split <;> rfl
@[simp] theorem updBlock_spdm (s : State) (b : Nat) (h : Block → Block) : (s.updBlock b h).spdm = s.spdm := by unfold updBlock; split <;> rfl
@[simp] theorem updBlock_mem (s : State) (b : Nat) (h : Block → Block) : (s.updBlock b h).mem = s.mem := by unfold updBlock; split <;> rfl
@[simp] theorem updBlock_owners (s : State) (b : Nat) (h : Block → Block) : (s.updBlock b h).owners = s.owners := by unfold updBlock; split <;> rfl
@[simp] theorem updBlock_copies (s : State) (b : Nat) (h : Block → Block) : (s.updBlock b h).copies = s.copies := by unfold updBlock; split <;> rfl
@[simp] theorem updBlock_pairs (s : State) (b : Nat) (h : Block → Block) : (s.updBlock b h).pairs = s.pairs := by unfold updBlock; split <;> rfl
@[simp] theorem updBlock_tlb (s : State) (b : Nat) (h : Block → Block) : (s.updBlock b h).tlb = s.tlb := by unfold updBlock; split <;> rfl
@[simp] theorem updBlock_pools (s : State) (b : Nat) (h : Block → Block) : (s.updBlock b h).pools = s.pools := by unfold updBlock; split <;> rfl
@[simp] theorem updBlock_queues (s : State) (b : Nat) (h : Block → Block) : (s.updBlock b h).queues = s.queues := by unfold updBlock; split <;> rfl
@[simp] theorem updBlock_packets (s : State) (b : Nat) (h : Block → Block) : (s.updBlock b h).packets = s.packets := by unfold updBlock; split <;> rfl
@[simp] theorem updBlock_nextPkt (s : State) (b : Nat) (h : Block → Block) : (s.updBlock b h).nextPkt = s.nextPkt := by unfold updBlock; split <;> rfl
@[simp] theorem updBlock_graphs (s : State) (b : Nat) (h : Block → Block) : (s.updBlock b h).graphs = s.graphs := by unfold updBlock; split <;> rfl
@[simp] theorem updBlock_grids (s : State) (b : Nat) (h : Block → Block) : (s.updBlock b h).grids = s.grids := by unfold updBlock; split <;> rfl
@[simp] theorem updBlock_nextGrid (s : State) (b : Nat) (h : Block → Block) : (s.updBlock b h).nextGrid = s.nextGrid := by unfold updBlock; split <;> rfl
@[simp] theorem updBlock_nextBlock (s : State) (b : Nat) (h : Block → Block) : (s.updBlock b h).nextBlock = s.nextBlock := by unfold updBlock; split <;> rfl
@[simp] theorem updBlock_cores (s : State) (b : Nat) (h : Block → Block) : (s.updBlock b h).cores = s.cores := by unfold updBlock; split <;> rfl
@[simp] theorem updBlock_quads (s : State) (b : Nat) (h : Block → Block) : (s.updBlock b h).quads = s.quads := by unfold updBlock; split <;> rfl
@[simp] theorem updBlock_dies (s : State) (b : Nat) (h : Block → Block) : (s.updBlock b h).dies = s.dies := by unfold updBlock; split <;> rfl
@[simp] theorem updBlock_bars (s : State) (b : Nat) (h : Block → Block) : (s.updBlock b h).bars = s.bars := by unfold updBlock; split <;> rfl
@[simp] theorem updBlock_pkgBars (s : State) (b : Nat) (h : Block → Block) : (s.updBlock b h).pkgBars = s.pkgBars := by unfold updBlock; split <;> rfl
@[simp] theorem updBlock_podBars (s : State) (b : Nat) (h : Block → Block) : (s.updBlock b h).podBars = s.podBars := by unfold updBlock; split <;> rfl
@[simp] theorem updBlock_colls (s : State) (b : Nat) (h : Block → Block) : (s.updBlock b h).colls = s.colls := by unfold updBlock; split <;> rfl
@[simp] theorem updBlock_ops (s : State) (b : Nat) (h : Block → Block) : (s.updBlock b h).ops = s.ops := by unfold updBlock; split <;> rfl
@[simp] theorem updBlock_nextOp (s : State) (b : Nat) (h : Block → Block) : (s.updBlock b h).nextOp = s.nextOp := by unfold updBlock; split <;> rfl
@[simp] theorem updBlock_wdCtx (s : State) (b : Nat) (h : Block → Block) : (s.updBlock b h).wdCtx = s.wdCtx := by unfold updBlock; split <;> rfl
@[simp] theorem updBlock_wdQ (s : State) (b : Nat) (h : Block → Block) : (s.updBlock b h).wdQ = s.wdQ := by unfold updBlock; split <;> rfl
@[simp] theorem updBlock_hbmRetry (s : State) (b : Nat) (h : Block → Block) : (s.updBlock b h).hbmRetry = s.hbmRetry := by unfold updBlock; split <;> rfl
@[simp] theorem updBlock_ladders (s : State) (b : Nat) (h : Block → Block) : (s.updBlock b h).ladders = s.ladders := by unfold updBlock; split <;> rfl
@[simp] theorem updBlock_free (s : State) (b : Nat) (h : Block → Block) : (s.updBlock b h).free = s.free := by unfold updBlock; split <;> rfl
@[simp] theorem updBlock_path (s : State) (b : Nat) (h : Block → Block) : (s.updBlock b h).path = s.path := by unfold updBlock; split <;> rfl
@[simp] theorem updBlock_issue (s : State) (b : Nat) (h : Block → Block) : (s.updBlock b h).issue = s.issue := by unfold updBlock; split <;> rfl
@[simp] theorem updBlock_agenda (s : State) (b : Nat) (h : Block → Block) : (s.updBlock b h).agenda = s.agenda := by unfold updBlock; split <;> rfl

@[simp] theorem updGrid_time (s : State) (g : Nat) (h : Grid → Grid) : (s.updGrid g h).time = s.time := by unfold updGrid; split <;> rfl
@[simp] theorem updGrid_ctl (s : State) (g : Nat) (h : Grid → Grid) : (s.updGrid g h).ctl = s.ctl := by unfold updGrid; split <;> rfl
@[simp] theorem updGrid_routes (s : State) (g : Nat) (h : Grid → Grid) : (s.updGrid g h).routes = s.routes := by unfold updGrid; split <;> rfl
@[simp] theorem updGrid_ctxs (s : State) (g : Nat) (h : Grid → Grid) : (s.updGrid g h).ctxs = s.ctxs := by unfold updGrid; split <;> rfl
@[simp] theorem updGrid_rings (s : State) (g : Nat) (h : Grid → Grid) : (s.updGrid g h).rings = s.rings := by unfold updGrid; split <;> rfl
@[simp] theorem updGrid_degraded (s : State) (g : Nat) (h : Grid → Grid) : (s.updGrid g h).degraded = s.degraded := by unfold updGrid; split <;> rfl
@[simp] theorem updGrid_ports (s : State) (g : Nat) (h : Grid → Grid) : (s.updGrid g h).ports = s.ports := by unfold updGrid; split <;> rfl
@[simp] theorem updGrid_spdm (s : State) (g : Nat) (h : Grid → Grid) : (s.updGrid g h).spdm = s.spdm := by unfold updGrid; split <;> rfl
@[simp] theorem updGrid_mem (s : State) (g : Nat) (h : Grid → Grid) : (s.updGrid g h).mem = s.mem := by unfold updGrid; split <;> rfl
@[simp] theorem updGrid_owners (s : State) (g : Nat) (h : Grid → Grid) : (s.updGrid g h).owners = s.owners := by unfold updGrid; split <;> rfl
@[simp] theorem updGrid_copies (s : State) (g : Nat) (h : Grid → Grid) : (s.updGrid g h).copies = s.copies := by unfold updGrid; split <;> rfl
@[simp] theorem updGrid_pairs (s : State) (g : Nat) (h : Grid → Grid) : (s.updGrid g h).pairs = s.pairs := by unfold updGrid; split <;> rfl
@[simp] theorem updGrid_tlb (s : State) (g : Nat) (h : Grid → Grid) : (s.updGrid g h).tlb = s.tlb := by unfold updGrid; split <;> rfl
@[simp] theorem updGrid_pools (s : State) (g : Nat) (h : Grid → Grid) : (s.updGrid g h).pools = s.pools := by unfold updGrid; split <;> rfl
@[simp] theorem updGrid_queues (s : State) (g : Nat) (h : Grid → Grid) : (s.updGrid g h).queues = s.queues := by unfold updGrid; split <;> rfl
@[simp] theorem updGrid_packets (s : State) (g : Nat) (h : Grid → Grid) : (s.updGrid g h).packets = s.packets := by unfold updGrid; split <;> rfl
@[simp] theorem updGrid_nextPkt (s : State) (g : Nat) (h : Grid → Grid) : (s.updGrid g h).nextPkt = s.nextPkt := by unfold updGrid; split <;> rfl
@[simp] theorem updGrid_graphs (s : State) (g : Nat) (h : Grid → Grid) : (s.updGrid g h).graphs = s.graphs := by unfold updGrid; split <;> rfl
@[simp] theorem updGrid_nextGrid (s : State) (g : Nat) (h : Grid → Grid) : (s.updGrid g h).nextGrid = s.nextGrid := by unfold updGrid; split <;> rfl
@[simp] theorem updGrid_blocks (s : State) (g : Nat) (h : Grid → Grid) : (s.updGrid g h).blocks = s.blocks := by unfold updGrid; split <;> rfl
@[simp] theorem updGrid_nextBlock (s : State) (g : Nat) (h : Grid → Grid) : (s.updGrid g h).nextBlock = s.nextBlock := by unfold updGrid; split <;> rfl
@[simp] theorem updGrid_cores (s : State) (g : Nat) (h : Grid → Grid) : (s.updGrid g h).cores = s.cores := by unfold updGrid; split <;> rfl
@[simp] theorem updGrid_quads (s : State) (g : Nat) (h : Grid → Grid) : (s.updGrid g h).quads = s.quads := by unfold updGrid; split <;> rfl
@[simp] theorem updGrid_dies (s : State) (g : Nat) (h : Grid → Grid) : (s.updGrid g h).dies = s.dies := by unfold updGrid; split <;> rfl
@[simp] theorem updGrid_bars (s : State) (g : Nat) (h : Grid → Grid) : (s.updGrid g h).bars = s.bars := by unfold updGrid; split <;> rfl
@[simp] theorem updGrid_pkgBars (s : State) (g : Nat) (h : Grid → Grid) : (s.updGrid g h).pkgBars = s.pkgBars := by unfold updGrid; split <;> rfl
@[simp] theorem updGrid_podBars (s : State) (g : Nat) (h : Grid → Grid) : (s.updGrid g h).podBars = s.podBars := by unfold updGrid; split <;> rfl
@[simp] theorem updGrid_colls (s : State) (g : Nat) (h : Grid → Grid) : (s.updGrid g h).colls = s.colls := by unfold updGrid; split <;> rfl
@[simp] theorem updGrid_ops (s : State) (g : Nat) (h : Grid → Grid) : (s.updGrid g h).ops = s.ops := by unfold updGrid; split <;> rfl
@[simp] theorem updGrid_nextOp (s : State) (g : Nat) (h : Grid → Grid) : (s.updGrid g h).nextOp = s.nextOp := by unfold updGrid; split <;> rfl
@[simp] theorem updGrid_wdCtx (s : State) (g : Nat) (h : Grid → Grid) : (s.updGrid g h).wdCtx = s.wdCtx := by unfold updGrid; split <;> rfl
@[simp] theorem updGrid_wdQ (s : State) (g : Nat) (h : Grid → Grid) : (s.updGrid g h).wdQ = s.wdQ := by unfold updGrid; split <;> rfl
@[simp] theorem updGrid_hbmRetry (s : State) (g : Nat) (h : Grid → Grid) : (s.updGrid g h).hbmRetry = s.hbmRetry := by unfold updGrid; split <;> rfl
@[simp] theorem updGrid_ladders (s : State) (g : Nat) (h : Grid → Grid) : (s.updGrid g h).ladders = s.ladders := by unfold updGrid; split <;> rfl
@[simp] theorem updGrid_free (s : State) (g : Nat) (h : Grid → Grid) : (s.updGrid g h).free = s.free := by unfold updGrid; split <;> rfl
@[simp] theorem updGrid_path (s : State) (g : Nat) (h : Grid → Grid) : (s.updGrid g h).path = s.path := by unfold updGrid; split <;> rfl
@[simp] theorem updGrid_issue (s : State) (g : Nat) (h : Grid → Grid) : (s.updGrid g h).issue = s.issue := by unfold updGrid; split <;> rfl
@[simp] theorem updGrid_agenda (s : State) (g : Nat) (h : Grid → Grid) : (s.updGrid g h).agenda = s.agenda := by unfold updGrid; split <;> rfl

@[simp] theorem setCrew_time (s : State) (b c : Nat) (x : Crew) : (s.setCrew b c x).time = s.time := by simp [setCrew]
@[simp] theorem setCrew_ctl (s : State) (b c : Nat) (x : Crew) : (s.setCrew b c x).ctl = s.ctl := by simp [setCrew]
@[simp] theorem setCrew_routes (s : State) (b c : Nat) (x : Crew) : (s.setCrew b c x).routes = s.routes := by simp [setCrew]
@[simp] theorem setCrew_ctxs (s : State) (b c : Nat) (x : Crew) : (s.setCrew b c x).ctxs = s.ctxs := by simp [setCrew]
@[simp] theorem setCrew_rings (s : State) (b c : Nat) (x : Crew) : (s.setCrew b c x).rings = s.rings := by simp [setCrew]
@[simp] theorem setCrew_degraded (s : State) (b c : Nat) (x : Crew) : (s.setCrew b c x).degraded = s.degraded := by simp [setCrew]
@[simp] theorem setCrew_ports (s : State) (b c : Nat) (x : Crew) : (s.setCrew b c x).ports = s.ports := by simp [setCrew]
@[simp] theorem setCrew_spdm (s : State) (b c : Nat) (x : Crew) : (s.setCrew b c x).spdm = s.spdm := by simp [setCrew]
@[simp] theorem setCrew_mem (s : State) (b c : Nat) (x : Crew) : (s.setCrew b c x).mem = s.mem := by simp [setCrew]
@[simp] theorem setCrew_owners (s : State) (b c : Nat) (x : Crew) : (s.setCrew b c x).owners = s.owners := by simp [setCrew]
@[simp] theorem setCrew_copies (s : State) (b c : Nat) (x : Crew) : (s.setCrew b c x).copies = s.copies := by simp [setCrew]
@[simp] theorem setCrew_pairs (s : State) (b c : Nat) (x : Crew) : (s.setCrew b c x).pairs = s.pairs := by simp [setCrew]
@[simp] theorem setCrew_tlb (s : State) (b c : Nat) (x : Crew) : (s.setCrew b c x).tlb = s.tlb := by simp [setCrew]
@[simp] theorem setCrew_pools (s : State) (b c : Nat) (x : Crew) : (s.setCrew b c x).pools = s.pools := by simp [setCrew]
@[simp] theorem setCrew_queues (s : State) (b c : Nat) (x : Crew) : (s.setCrew b c x).queues = s.queues := by simp [setCrew]
@[simp] theorem setCrew_packets (s : State) (b c : Nat) (x : Crew) : (s.setCrew b c x).packets = s.packets := by simp [setCrew]
@[simp] theorem setCrew_nextPkt (s : State) (b c : Nat) (x : Crew) : (s.setCrew b c x).nextPkt = s.nextPkt := by simp [setCrew]
@[simp] theorem setCrew_graphs (s : State) (b c : Nat) (x : Crew) : (s.setCrew b c x).graphs = s.graphs := by simp [setCrew]
@[simp] theorem setCrew_grids (s : State) (b c : Nat) (x : Crew) : (s.setCrew b c x).grids = s.grids := by simp [setCrew]
@[simp] theorem setCrew_nextGrid (s : State) (b c : Nat) (x : Crew) : (s.setCrew b c x).nextGrid = s.nextGrid := by simp [setCrew]
@[simp] theorem setCrew_nextBlock (s : State) (b c : Nat) (x : Crew) : (s.setCrew b c x).nextBlock = s.nextBlock := by simp [setCrew]
@[simp] theorem setCrew_cores (s : State) (b c : Nat) (x : Crew) : (s.setCrew b c x).cores = s.cores := by simp [setCrew]
@[simp] theorem setCrew_quads (s : State) (b c : Nat) (x : Crew) : (s.setCrew b c x).quads = s.quads := by simp [setCrew]
@[simp] theorem setCrew_dies (s : State) (b c : Nat) (x : Crew) : (s.setCrew b c x).dies = s.dies := by simp [setCrew]
@[simp] theorem setCrew_bars (s : State) (b c : Nat) (x : Crew) : (s.setCrew b c x).bars = s.bars := by simp [setCrew]
@[simp] theorem setCrew_pkgBars (s : State) (b c : Nat) (x : Crew) : (s.setCrew b c x).pkgBars = s.pkgBars := by simp [setCrew]
@[simp] theorem setCrew_podBars (s : State) (b c : Nat) (x : Crew) : (s.setCrew b c x).podBars = s.podBars := by simp [setCrew]
@[simp] theorem setCrew_colls (s : State) (b c : Nat) (x : Crew) : (s.setCrew b c x).colls = s.colls := by simp [setCrew]
@[simp] theorem setCrew_ops (s : State) (b c : Nat) (x : Crew) : (s.setCrew b c x).ops = s.ops := by simp [setCrew]
@[simp] theorem setCrew_nextOp (s : State) (b c : Nat) (x : Crew) : (s.setCrew b c x).nextOp = s.nextOp := by simp [setCrew]
@[simp] theorem setCrew_wdCtx (s : State) (b c : Nat) (x : Crew) : (s.setCrew b c x).wdCtx = s.wdCtx := by simp [setCrew]
@[simp] theorem setCrew_wdQ (s : State) (b c : Nat) (x : Crew) : (s.setCrew b c x).wdQ = s.wdQ := by simp [setCrew]
@[simp] theorem setCrew_hbmRetry (s : State) (b c : Nat) (x : Crew) : (s.setCrew b c x).hbmRetry = s.hbmRetry := by simp [setCrew]
@[simp] theorem setCrew_ladders (s : State) (b c : Nat) (x : Crew) : (s.setCrew b c x).ladders = s.ladders := by simp [setCrew]
@[simp] theorem setCrew_free (s : State) (b c : Nat) (x : Crew) : (s.setCrew b c x).free = s.free := by simp [setCrew]
@[simp] theorem setCrew_path (s : State) (b c : Nat) (x : Crew) : (s.setCrew b c x).path = s.path := by simp [setCrew]
@[simp] theorem setCrew_issue (s : State) (b c : Nat) (x : Crew) : (s.setCrew b c x).issue = s.issue := by simp [setCrew]
@[simp] theorem setCrew_agenda (s : State) (b c : Nat) (x : Crew) : (s.setCrew b c x).agenda = s.agenda := by simp [setCrew]

@[simp] theorem updCrew_time (s : State) (b c : Nat) (h : Crew → Crew) : (s.updCrew b c h).time = s.time := by unfold updCrew; split <;> simp
@[simp] theorem updCrew_ctl (s : State) (b c : Nat) (h : Crew → Crew) : (s.updCrew b c h).ctl = s.ctl := by unfold updCrew; split <;> simp
@[simp] theorem updCrew_routes (s : State) (b c : Nat) (h : Crew → Crew) : (s.updCrew b c h).routes = s.routes := by unfold updCrew; split <;> simp
@[simp] theorem updCrew_ctxs (s : State) (b c : Nat) (h : Crew → Crew) : (s.updCrew b c h).ctxs = s.ctxs := by unfold updCrew; split <;> simp
@[simp] theorem updCrew_rings (s : State) (b c : Nat) (h : Crew → Crew) : (s.updCrew b c h).rings = s.rings := by unfold updCrew; split <;> simp
@[simp] theorem updCrew_degraded (s : State) (b c : Nat) (h : Crew → Crew) : (s.updCrew b c h).degraded = s.degraded := by unfold updCrew; split <;> simp
@[simp] theorem updCrew_ports (s : State) (b c : Nat) (h : Crew → Crew) : (s.updCrew b c h).ports = s.ports := by unfold updCrew; split <;> simp
@[simp] theorem updCrew_spdm (s : State) (b c : Nat) (h : Crew → Crew) : (s.updCrew b c h).spdm = s.spdm := by unfold updCrew; split <;> simp
@[simp] theorem updCrew_mem (s : State) (b c : Nat) (h : Crew → Crew) : (s.updCrew b c h).mem = s.mem := by unfold updCrew; split <;> simp
@[simp] theorem updCrew_owners (s : State) (b c : Nat) (h : Crew → Crew) : (s.updCrew b c h).owners = s.owners := by unfold updCrew; split <;> simp
@[simp] theorem updCrew_copies (s : State) (b c : Nat) (h : Crew → Crew) : (s.updCrew b c h).copies = s.copies := by unfold updCrew; split <;> simp
@[simp] theorem updCrew_pairs (s : State) (b c : Nat) (h : Crew → Crew) : (s.updCrew b c h).pairs = s.pairs := by unfold updCrew; split <;> simp
@[simp] theorem updCrew_tlb (s : State) (b c : Nat) (h : Crew → Crew) : (s.updCrew b c h).tlb = s.tlb := by unfold updCrew; split <;> simp
@[simp] theorem updCrew_pools (s : State) (b c : Nat) (h : Crew → Crew) : (s.updCrew b c h).pools = s.pools := by unfold updCrew; split <;> simp
@[simp] theorem updCrew_queues (s : State) (b c : Nat) (h : Crew → Crew) : (s.updCrew b c h).queues = s.queues := by unfold updCrew; split <;> simp
@[simp] theorem updCrew_packets (s : State) (b c : Nat) (h : Crew → Crew) : (s.updCrew b c h).packets = s.packets := by unfold updCrew; split <;> simp
@[simp] theorem updCrew_nextPkt (s : State) (b c : Nat) (h : Crew → Crew) : (s.updCrew b c h).nextPkt = s.nextPkt := by unfold updCrew; split <;> simp
@[simp] theorem updCrew_graphs (s : State) (b c : Nat) (h : Crew → Crew) : (s.updCrew b c h).graphs = s.graphs := by unfold updCrew; split <;> simp
@[simp] theorem updCrew_grids (s : State) (b c : Nat) (h : Crew → Crew) : (s.updCrew b c h).grids = s.grids := by unfold updCrew; split <;> simp
@[simp] theorem updCrew_nextGrid (s : State) (b c : Nat) (h : Crew → Crew) : (s.updCrew b c h).nextGrid = s.nextGrid := by unfold updCrew; split <;> simp
@[simp] theorem updCrew_nextBlock (s : State) (b c : Nat) (h : Crew → Crew) : (s.updCrew b c h).nextBlock = s.nextBlock := by unfold updCrew; split <;> simp
@[simp] theorem updCrew_cores (s : State) (b c : Nat) (h : Crew → Crew) : (s.updCrew b c h).cores = s.cores := by unfold updCrew; split <;> simp
@[simp] theorem updCrew_quads (s : State) (b c : Nat) (h : Crew → Crew) : (s.updCrew b c h).quads = s.quads := by unfold updCrew; split <;> simp
@[simp] theorem updCrew_dies (s : State) (b c : Nat) (h : Crew → Crew) : (s.updCrew b c h).dies = s.dies := by unfold updCrew; split <;> simp
@[simp] theorem updCrew_bars (s : State) (b c : Nat) (h : Crew → Crew) : (s.updCrew b c h).bars = s.bars := by unfold updCrew; split <;> simp
@[simp] theorem updCrew_pkgBars (s : State) (b c : Nat) (h : Crew → Crew) : (s.updCrew b c h).pkgBars = s.pkgBars := by unfold updCrew; split <;> simp
@[simp] theorem updCrew_podBars (s : State) (b c : Nat) (h : Crew → Crew) : (s.updCrew b c h).podBars = s.podBars := by unfold updCrew; split <;> simp
@[simp] theorem updCrew_colls (s : State) (b c : Nat) (h : Crew → Crew) : (s.updCrew b c h).colls = s.colls := by unfold updCrew; split <;> simp
@[simp] theorem updCrew_ops (s : State) (b c : Nat) (h : Crew → Crew) : (s.updCrew b c h).ops = s.ops := by unfold updCrew; split <;> simp
@[simp] theorem updCrew_nextOp (s : State) (b c : Nat) (h : Crew → Crew) : (s.updCrew b c h).nextOp = s.nextOp := by unfold updCrew; split <;> simp
@[simp] theorem updCrew_wdCtx (s : State) (b c : Nat) (h : Crew → Crew) : (s.updCrew b c h).wdCtx = s.wdCtx := by unfold updCrew; split <;> simp
@[simp] theorem updCrew_wdQ (s : State) (b c : Nat) (h : Crew → Crew) : (s.updCrew b c h).wdQ = s.wdQ := by unfold updCrew; split <;> simp
@[simp] theorem updCrew_hbmRetry (s : State) (b c : Nat) (h : Crew → Crew) : (s.updCrew b c h).hbmRetry = s.hbmRetry := by unfold updCrew; split <;> simp
@[simp] theorem updCrew_ladders (s : State) (b c : Nat) (h : Crew → Crew) : (s.updCrew b c h).ladders = s.ladders := by unfold updCrew; split <;> simp
@[simp] theorem updCrew_free (s : State) (b c : Nat) (h : Crew → Crew) : (s.updCrew b c h).free = s.free := by unfold updCrew; split <;> simp
@[simp] theorem updCrew_path (s : State) (b c : Nat) (h : Crew → Crew) : (s.updCrew b c h).path = s.path := by unfold updCrew; split <;> simp
@[simp] theorem updCrew_issue (s : State) (b c : Nat) (h : Crew → Crew) : (s.updCrew b c h).issue = s.issue := by unfold updCrew; split <;> simp
@[simp] theorem updCrew_agenda (s : State) (b c : Nat) (h : Crew → Crew) : (s.updCrew b c h).agenda = s.agenda := by unfold updCrew; split <;> simp

/-! ## Lookups -/

@[simp] theorem core_setCore (s : State) (c : Nat) (x : Core) : (s.setCore c x).core c = x := by simp [core]
@[simp] theorem core_setCore_ne (s : State) {c k : Nat} (x : Core) (h : k ≠ c) : (s.setCore c x).core k = s.core k := by
  simp [core, h]
@[simp] theorem quad_setQuad (s : State) (q : Nat) (x : Quad) : (s.setQuad q x).quad q = x := by simp [quad]
@[simp] theorem die_setDie (s : State) (d : Nat) (x : Die) : (s.setDie d x).die d = x := by simp [die]
@[simp] theorem ring_setRing (s : State) (c : Nat) (x : Ring) : (s.setRing c x).ring c = x := by simp [ring]
@[simp] theorem block_setBlock (s : State) (b : Nat) (x : Block) : (s.setBlock b x).block? b = some x := by simp [block?]
@[simp] theorem block_setBlock_ne (s : State) {b k : Nat} (x : Block) (h : k ≠ b) :
    (s.setBlock b x).block? k = s.block? k := by simp [block?, h]
@[simp] theorem grid_setGrid (s : State) (g : Nat) (x : Grid) : (s.setGrid g x).grid? g = some x := by simp [grid?]
@[simp] theorem grid_setGrid_ne (s : State) {g k : Nat} (x : Grid) (h : k ≠ g) : (s.setGrid g x).grid? k = s.grid? k := by
  simp [grid?, h]

theorem setBlock_setBlock (s : State) (b : Nat) (x y : Block) : (s.setBlock b x).setBlock b y = s.setBlock b y := by
  simp [setBlock]
theorem setGrid_setGrid (s : State) (g : Nat) (x y : Grid) : (s.setGrid g x).setGrid g y = s.setGrid g y := by
  simp [setGrid]

theorem updBlock_of {s : State} {b : Nat} {x : Block} (h : s.block? b = some x) (f : Block → Block) :
    s.updBlock b f = s.setBlock b (f x) := by simp [updBlock, h]

@[simp] theorem block_updBlock_ne (s : State) {b k : Nat} (f : Block → Block) (h : k ≠ b) :
    (s.updBlock b f).block? k = s.block? k := by
  unfold updBlock; split <;> simp [h]

/-- A crew that is there belongs to a block that is there. -/
theorem block_of_crew {s : State} {b c : Nat} {x : Crew} (h : s.crew? b c = some x) :
    ∃ k, s.block? b = some k ∧ k.crews.find? c = some x := by
  unfold crew? at h
  cases hb : s.block? b with
  | none => simp [hb] at h
  | some k => exact ⟨k, rfl, by simpa [hb] using h⟩

/-- A crew reads as it was set. -/
theorem crew_setCrew {s : State} {b c : Nat} {y : Crew} (h : s.crew? b c = some y) (x : Crew) :
    (s.setCrew b c x).crew? b c = some x := by
  obtain ⟨k, hk, -⟩ := block_of_crew h
  simp [setCrew, updBlock, hk, crew?]

/-- Every other crew is as before. -/
theorem crew_setCrew_ne {s : State} {b c b' c' : Nat} (x : Crew) (h : (b', c') ≠ (b, c)) :
    (s.setCrew b c x).crew? b' c' = s.crew? b' c' := by
  unfold setCrew updBlock
  cases hb : s.block? b with
  | none => rfl
  | some k =>
    by_cases hbb : b' = b
    · subst hbb
      have hc : c' ≠ c := fun e => h (by rw [e])
      simp [crew?, hb, hc]
    · simp [crew?, hbb]

@[simp] theorem setCrew_setCrew (s : State) (b c : Nat) (x y : Crew) :
    (s.setCrew b c x).setCrew b c y = s.setCrew b c y := by
  unfold setCrew updBlock
  cases hb : s.block? b with
  | none => simp [hb]
  | some k => simp [setBlock_setBlock]

theorem updCrew_of {s : State} {b c : Nat} {x : Crew} (h : s.crew? b c = some x) (f : Crew → Crew) :
    s.updCrew b c f = s.setCrew b c (f x) := by simp [updCrew, h]

/-- A change of a crew just set. -/
theorem updCrew_setCrew {s : State} {b c : Nat} {y : Crew} (h : s.crew? b c = some y) (x : Crew) (f : Crew → Crew) :
    (s.setCrew b c x).updCrew b c f = s.setCrew b c (f x) := by
  rw [updCrew_of (crew_setCrew h x), setCrew_setCrew]

@[simp] theorem setCrew_core (s : State) (b c k : Nat) (x : Crew) : (s.setCrew b c x).core k = s.core k := by simp [core]
@[simp] theorem setCrew_die (s : State) (b c k : Nat) (x : Crew) : (s.setCrew b c x).die k = s.die k := by simp [die]
@[simp] theorem setCrew_grid (s : State) (b c g : Nat) (x : Crew) : (s.setCrew b c x).grid? g = s.grid? g := by simp [grid?]
@[simp] theorem setCrew_clock (s : State) (b c k : Nat) (x : Crew) : (s.setCrew b c x).clock k = s.clock k := by
  simp [clock]

/-! ## A success of an access at an HBM page (R383): `hbmDone` changes `hbmRetry` alone -/

@[simp] theorem hbmDone_time (s : State) (p : Place) : (hbmDone s p).time = s.time := by cases p <;> rfl
@[simp] theorem hbmDone_ctl (s : State) (p : Place) : (hbmDone s p).ctl = s.ctl := by cases p <;> rfl
@[simp] theorem hbmDone_routes (s : State) (p : Place) : (hbmDone s p).routes = s.routes := by cases p <;> rfl
@[simp] theorem hbmDone_ctxs (s : State) (p : Place) : (hbmDone s p).ctxs = s.ctxs := by cases p <;> rfl
@[simp] theorem hbmDone_rings (s : State) (p : Place) : (hbmDone s p).rings = s.rings := by cases p <;> rfl
@[simp] theorem hbmDone_degraded (s : State) (p : Place) : (hbmDone s p).degraded = s.degraded := by cases p <;> rfl
@[simp] theorem hbmDone_ports (s : State) (p : Place) : (hbmDone s p).ports = s.ports := by cases p <;> rfl
@[simp] theorem hbmDone_spdm (s : State) (p : Place) : (hbmDone s p).spdm = s.spdm := by cases p <;> rfl
@[simp] theorem hbmDone_mem (s : State) (p : Place) : (hbmDone s p).mem = s.mem := by cases p <;> rfl
@[simp] theorem hbmDone_owners (s : State) (p : Place) : (hbmDone s p).owners = s.owners := by cases p <;> rfl
@[simp] theorem hbmDone_copies (s : State) (p : Place) : (hbmDone s p).copies = s.copies := by cases p <;> rfl
@[simp] theorem hbmDone_pairs (s : State) (p : Place) : (hbmDone s p).pairs = s.pairs := by cases p <;> rfl
@[simp] theorem hbmDone_tlb (s : State) (p : Place) : (hbmDone s p).tlb = s.tlb := by cases p <;> rfl
@[simp] theorem hbmDone_pools (s : State) (p : Place) : (hbmDone s p).pools = s.pools := by cases p <;> rfl
@[simp] theorem hbmDone_queues (s : State) (p : Place) : (hbmDone s p).queues = s.queues := by cases p <;> rfl
@[simp] theorem hbmDone_packets (s : State) (p : Place) : (hbmDone s p).packets = s.packets := by cases p <;> rfl
@[simp] theorem hbmDone_nextPkt (s : State) (p : Place) : (hbmDone s p).nextPkt = s.nextPkt := by cases p <;> rfl
@[simp] theorem hbmDone_graphs (s : State) (p : Place) : (hbmDone s p).graphs = s.graphs := by cases p <;> rfl
@[simp] theorem hbmDone_grids (s : State) (p : Place) : (hbmDone s p).grids = s.grids := by cases p <;> rfl
@[simp] theorem hbmDone_nextGrid (s : State) (p : Place) : (hbmDone s p).nextGrid = s.nextGrid := by cases p <;> rfl
@[simp] theorem hbmDone_blocks (s : State) (p : Place) : (hbmDone s p).blocks = s.blocks := by cases p <;> rfl
@[simp] theorem hbmDone_nextBlock (s : State) (p : Place) : (hbmDone s p).nextBlock = s.nextBlock := by cases p <;> rfl
@[simp] theorem hbmDone_cores (s : State) (p : Place) : (hbmDone s p).cores = s.cores := by cases p <;> rfl
@[simp] theorem hbmDone_quads (s : State) (p : Place) : (hbmDone s p).quads = s.quads := by cases p <;> rfl
@[simp] theorem hbmDone_dies (s : State) (p : Place) : (hbmDone s p).dies = s.dies := by cases p <;> rfl
@[simp] theorem hbmDone_bars (s : State) (p : Place) : (hbmDone s p).bars = s.bars := by cases p <;> rfl
@[simp] theorem hbmDone_pkgBars (s : State) (p : Place) : (hbmDone s p).pkgBars = s.pkgBars := by cases p <;> rfl
@[simp] theorem hbmDone_podBars (s : State) (p : Place) : (hbmDone s p).podBars = s.podBars := by cases p <;> rfl
@[simp] theorem hbmDone_colls (s : State) (p : Place) : (hbmDone s p).colls = s.colls := by cases p <;> rfl
@[simp] theorem hbmDone_ops (s : State) (p : Place) : (hbmDone s p).ops = s.ops := by cases p <;> rfl
@[simp] theorem hbmDone_nextOp (s : State) (p : Place) : (hbmDone s p).nextOp = s.nextOp := by cases p <;> rfl
@[simp] theorem hbmDone_wdCtx (s : State) (p : Place) : (hbmDone s p).wdCtx = s.wdCtx := by cases p <;> rfl
@[simp] theorem hbmDone_wdQ (s : State) (p : Place) : (hbmDone s p).wdQ = s.wdQ := by cases p <;> rfl
@[simp] theorem hbmDone_ladders (s : State) (p : Place) : (hbmDone s p).ladders = s.ladders := by cases p <;> rfl
@[simp] theorem hbmDone_path (s : State) (p : Place) : (hbmDone s p).path = s.path := by cases p <;> rfl
@[simp] theorem hbmDone_issue (s : State) (p : Place) : (hbmDone s p).issue = s.issue := by cases p <;> rfl
@[simp] theorem hbmDone_agenda (s : State) (p : Place) : (hbmDone s p).agenda = s.agenda := by cases p <;> rfl
@[simp] theorem hbmDone_free (s : State) (p : Place) : (hbmDone s p).free = s.free := by cases p <;> rfl

end Sys2Proof.Machine.State
end

