-- ==== Sys2Proof/Laws/Issue.lean ====
section
/-! SUPPORT. Laws of the shared course of an issue: what the issuing path is, what `issueState` answers for an
instruction that nothing holds back, and what completion leaves. -/

namespace Sys2Proof.Machine

open Sys2Proof

/-! ## The issuing path -/

/-- The issuing path is one of the machine's crews, with its block and grid. -/
theorem Cx.of_spec {s : State} {g : Guard} {x : Cx} (h : Cx.of s g = some x) :
    x.s = s ∧ s.block? x.b = some x.blk ∧ s.crew? x.b x.c = some x.cr ∧ s.grid? x.blk.grid = some x.g ∧
      x.b = s.path.blk ∧ x.c = s.path.crew ∧ x.pc = s.path.pc ∧ x.late = s.path.late ∧
      x.lanes = pathLanes x.cr s.path ∧ x.lanes ≠ 0 ∧ x.act = activeLanes x.cr g x.lanes := by
  unfold Cx.of at h
  simp only at h
  split at h
  · rename_i k cr hk hcr
    split at h
    · rename_i gr hg
      split at h
      · cases h
      · rename_i hl
        cases h
        exact ⟨rfl, hk, hcr, hg, rfl, rfl, rfl, rfl, rfl, hl, rfl⟩
    · cases h
  · cases h

theorem Ready.state {i : Instr} {s : State} {x : Cx} (h : Ready i s x) : x.s = s := (Cx.of_spec h.path).1
theorem Ready.crew {i : Instr} {s : State} {x : Cx} (h : Ready i s x) : s.crew? x.b x.c = some x.cr :=
  (Cx.of_spec h.path).2.2.1
theorem Ready.block {i : Instr} {s : State} {x : Cx} (h : Ready i s x) : s.block? x.b = some x.blk :=
  (Cx.of_spec h.path).2.1

/-- The active lanes are lanes of the path. -/
theorem Ready.act_sub {i : Instr} {s : State} {x : Cx} (h : Ready i s x) (l : Nat) (hl : x.act.getLsbD l = true) :
    x.lanes.getLsbD l = true := by
  have := (Cx.of_spec h.path).2.2.2.2.2.2.2.2.2.2
  rw [this] at hl
  simp only [activeLanes, BitVec.getLsbD_and, Bool.and_eq_true] at hl
  exact hl.1

theorem Ready.put {i : Instr} {s : State} {x : Cx} (h : Ready i s x) (cr : Crew) : x.put cr = s.setCrew x.b x.c cr := by
  rw [Cx.put, h.state]

/-! ## Memory -/

/-- A change of crews alone leaves every byte. -/
theorem sameBytes_setCrew (s : State) (b c : Nat) (cr : Crew) : SameBytes s (s.setCrew b c cr) := by
  intro p
  cases p with
  | g a => simp [readPlace]
  | sp k a => simp [readPlace]
  | acc k a =>
    unfold State.setCrew
    simp only [readPlace]
    by_cases h : k = b
    · subst h
      cases hb : s.block? k with
      | none => simp [State.updBlock, hb]
      | some x => simp [State.updBlock, hb]
    · rw [State.block_updBlock_ne _ _ h]

/-! ## Threads that go on and threads that wait -/

@[simp] theorem goTo_pc (t : Thread) (n : Nat) (h : Bool) : (t.goTo n h).pc = n := rfl
@[simp] theorem goTo_wait (t : Thread) (n : Nat) (h : Bool) : (t.goTo n h).wait = none := rfl
@[simp] theorem goTo_since (t : Thread) (n : Nat) (h : Bool) : (t.goTo n h).since = none := rfl
@[simp] theorem goTo_exited (t : Thread) (n : Nat) (h : Bool) : (t.goTo n h).exited = t.exited := rfl
@[simp] theorem goTo_head (t : Thread) (n : Nat) (h : Bool) : (t.goTo n h).head = t.head := rfl
@[simp] theorem goTo_ltid (t : Thread) (n : Nat) (h : Bool) : (t.goTo n h).ltid = t.ltid := rfl
@[simp] theorem goTo_dctr (t : Thread) (n : Nat) (h : Bool) : (t.goTo n h).dctr = t.dctr := rfl
@[simp] theorem goTo_sw (t : Thread) (n : Nat) (h : Bool) : (t.goTo n h).sw = t.sw := rfl
@[simp] theorem waits_pc (t : Thread) (w : Wait) (a : Bool) (n : Nat) : (t.waits w a n).pc = t.pc := rfl
@[simp] theorem waits_wait (t : Thread) (w : Wait) (a : Bool) (n : Nat) : (t.waits w a n).wait = some w := rfl
@[simp] theorem waits_arrived (t : Thread) (w : Wait) (a : Bool) (n : Nat) : (t.waits w a n).arrived = a := rfl
@[simp] theorem waits_since (t : Thread) (w : Wait) (a : Bool) (n : Nat) : (t.waits w a n).since = some (t.since.getD n) := rfl
@[simp] theorem waits_exited (t : Thread) (w : Wait) (a : Bool) (n : Nat) : (t.waits w a n).exited = t.exited := rfl
@[simp] theorem waits_head (t : Thread) (w : Wait) (a : Bool) (n : Nat) : (t.waits w a n).head = t.head := rfl
@[simp] theorem waits_sw (t : Thread) (w : Wait) (a : Bool) (n : Nat) : (t.waits w a n).sw = t.sw := rfl

/-! ## The course of an issue -/

/-- An instruction that nothing holds back does what its effect answers. -/
theorem issueState_ready {i : Instr} {s : State} {x : Cx} (h : Ready i s x) (eff : Cx → Res) :
    issueState i s eff =
      match eff x with
      | .done s' ends => complete x s' (ends || endsRegion i)
      | .raw s' => s'
      | .stall s' => stalled x s'
      | .trap cause taddr => x.raise cause taddr 0 0 false (trapAcc i cause)
      | .trapAt cause taddr acc => x.raise cause taddr 0 0 false acc
      | .trapOpen cause => x.raiseOpen cause (trapAcc i cause)
      | .trapImm cause imm resume => x.raise cause x.pc imm resume false
      | .xfault cause va acc => x.xlatFault i cause va acc := by
  have ho : (waitsForOlder i && x.cr.checksDue) = false := by
    cases hw : waitsForOlder i with
    | false => rfl
    | true => simp [h.older hw]
  have hf : ¬ x.fold ≤ foldIndex i := Nat.not_le.2 h.fold
  unfold issueState
  rw [h.path]
  simp only [h.encoding, h.place, h.active, h.blocks, ho, h.full, h.operands, hf, if_false, Bool.not_true,
    Bool.or_self, Bool.and_false, Bool.false_eq_true, Bool.false_and, decide_false]
  all_goals (cases eff x <;> rfl)

/-- A word that is not legal where it stands is `UND`: the trap is raised and nothing else happens (R178). -/
theorem issueState_und {i : Instr} {s : State} {x : Cx} (hx : Cx.of s i.body.guard = some x)
    (h : legal i = false ∨ handlerUnd x.cr i = true) (eff : Cx → Res) :
    issueState i s eff = x.raise cUnd x.pc 0 0 false := by
  unfold issueState
  rw [hx]
  simp only
  rw [if_pos]
  rcases h with h | h <;> simp [h]

/-- With no active thread the path goes on, and nothing else happens (R173), but for `redux` (R99, R219). -/
theorem issueState_inactive {i : Instr} {s : State} {x : Cx} (hx : Cx.of s i.body.guard = some x)
    (hl : legal i = true) (hh : handlerUnd x.cr i = false) (ha : x.act = 0) (he : actsEmpty i = false) (eff : Cx → Res) :
    issueState i s eff = complete x s false := by
  unfold issueState
  rw [hx]
  simp [hl, hh, ha, he]

/-- The machine after an instruction whose only effect is on its crew. -/
theorem complete_put {i : Instr} {s : State} {x : Cx} (h : Ready i s x) (cr : Crew) (ends : Bool) :
    complete x (x.put cr) ends =
      s.setCrew x.b x.c (cr.advance x.lanes x.nextPc (ends && !cr.inHandler)) := by
  rw [complete, h.put, State.updCrew_setCrew h.crew]

/-! ## Completion -/

@[simp] theorem advance_getV (c : Crew) (m : Lanes) (n : Nat) (e : Bool) (r l : Nat) :
    (c.advance m n e).getV r l = c.getV r l := by cases e <;> rfl
@[simp] theorem advance_isEmpty (c : Crew) (m : Lanes) (n : Nat) (e : Bool) (r l : Nat) :
    (c.advance m n e).isEmpty r l = c.isEmpty r l := by cases e <;> rfl
@[simp] theorem advance_getVs (c : Crew) (m : Lanes) (n : Nat) (e : Bool) (r l k : Nat) :
    (c.advance m n e).getVs r l k = c.getVs r l k := Crew.getVs_congr (fun _ _ => advance_getV c m n e _ _)
@[simp] theorem advance_getS (c : Crew) (m : Lanes) (n : Nat) (e : Bool) (r : Nat) :
    (c.advance m n e).getS r = c.getS r := by cases e <;> rfl
@[simp] theorem advance_getP (c : Crew) (m : Lanes) (n : Nat) (e : Bool) (r : Nat) :
    (c.advance m n e).getP r = c.getP r := by cases e <;> rfl

/-- Threads and waiting times apart, a crew's frame does not see the advance of its threads. -/
theorem Kept.advance {old new : Crew} {v : Nat → Nat → Prop} {s p : Nat → Prop} (h : Kept old new v s p)
    (m : Lanes) (n : Nat) (e : Bool) : Kept old (new.advance m n e) v s p := by
  cases e <;> exact ⟨h.vector, h.uniform, h.predicate, h.rest⟩

theorem WritesReg.advance {x : Cx} {d : Opr} {n : Nat} {fl : Flags} {val : Nat → Nat → Prop} {cr : Crew}
    (h : WritesReg x d n fl val cr) (m : Lanes) (k : Nat) (e : Bool) : WritesReg x d n fl val (cr.advance m k e) := by
  refine ⟨fun l hl => ?_, h.2.advance m k e⟩
  have := h.1 l hl
  unfold destVal at this ⊢
  cases d <;> simpa using this

theorem WritesPred.advance {x : Cx} {pd : BitVec 4} {fl : Flags} {val : Nat → Bool} {cr : Crew}
    (h : WritesPred x pd fl val cr) (m : Lanes) (k : Nat) (e : Bool) : WritesPred x pd fl val (cr.advance m k e) :=
  ⟨by simpa using h.1, h.2.advance m k e⟩

/-- What a crew's update leaves of its checkpoint's fields and of the instruction that is tried again. -/
def SameHeads (old new : Crew) : Prop :=
  new.ckS = old.ckS ∧ new.ckFstat = old.ckFstat ∧ new.ckSeq = old.ckSeq ∧ new.ckMark = old.ckMark ∧ new.retry = old.retry

/-- A checkpoint names the registers that a crew holds and a thread's count of switch points, and nothing else of it. -/
theorem checkpoint_congr {c d : Crew} {l : Nat} (h1 : c.seq = d.seq) (h2 : c.v = d.v) (h3 : c.vFill = d.vFill)
    (h4 : c.empty = d.empty) (h5 : c.p = d.p) (h6 : c.pFill = d.pFill) (h7 : c.xheld = d.xheld)
    (h8 : ((c.threads.find? l).map (·.sw)).getD [] = ((d.threads.find? l).map (·.sw)).getD []) (n : Nat) (li ws : BitVec 32)
    (bay : BitVec 16) (dc : List DWord) : c.checkpoint l n li ws bay dc = d.checkpoint l n li ws bay dc := by
  have hh : c.holds = d.holds := by funext r; simp only [Crew.holds, h7]
  have hv : c.getV = d.getV := by funext r l; simp only [Crew.getV, h2, h3]
  have hp : c.getP = d.getP := by funext r; simp only [Crew.getP, h5, h6]
  simp only [Crew.checkpoint, liveRegs, h1, h4, h8, hh, hv, hp]

/-- The threads of a completed path. -/
theorem advanced_advance {x : Cx} {cr : Crew} (ht : cr.threads = x.cr.threads) (hk : SameHeads x.cr cr) (e : Bool) :
    Advanced x (cr.advance x.lanes x.nextPc e) e := by
  have hr : cr.retryIssued x.lanes = x.cr.retryIssued x.lanes := by rw [Crew.retryIssued, Crew.retryIssued, ht, hk.2.2.2.2]
  have hl : ∀ l, cr.thread? l = x.cr.thread? l := fun l => by simp [Crew.thread?, ht]
  refine ⟨?_, fun l => ?_⟩
  · cases e with
    | false => exact ⟨hk.1, hk.2.1, hk.2.2.1, hk.2.2.2.1, hr⟩
    | true => exact ⟨rfl, rfl, rfl, rfl, by rw [← hr]; rfl⟩
  · rw [← hl l]
    cases e with
    | false =>
      exact Crew.thread_updThreads cr x.lanes
        (fun t => t.goTo x.nextPc cr.inHandler) l
    | true =>
      simp only [Crew.advance, if_true, Crew.implicitHeads, Crew.crewCkpt, Crew.thread?, Crew.updThreads, NMap.find?_mapVals,
        Option.map_map]
      cases ht : cr.threads.find? l with
      | none => rfl
      | some t =>
        by_cases hb : x.lanes.getLsbD l = true
        · simp only [Option.map_some, Function.comp, hb, if_true, passed]
          refine congrArg some ?_
          congr 1
          apply checkpoint_congr <;> first | rfl | skip
          simp [NMap.find?_mapVals, ht, hb]
        · simp [hb, Function.comp]

/-- An instruction whose effect is on its crew alone completes, and its crew is as the effect leaves it. -/
theorem completes_of {i : Instr} {s : State} {x : Cx} {eff : Cx → Res} {cr : Crew} {E : Crew → Prop}
    (h : Ready i s x) (hx : exec i s = issueWith i s eff) (he : eff x = crewRes x cr)
    (hh : cr.handler.isSome = x.cr.handler.isSome) (ht : cr.threads = x.cr.threads) (hk : SameHeads x.cr cr)
    (hE : ∀ m k e, E (cr.advance m k e)) : Completes i s x E := by
  refine ⟨cr.advance x.lanes x.nextPc (endsRegion i && !x.cr.inHandler), ?_, sameBytes_setCrew _ _ _ _,
    advanced_advance ht hk _, hE _ _ _⟩
  rw [hx, issueWith, issueState_ready h, he]
  simp only [crewRes, Bool.false_or]
  rw [complete_put h, show cr.inHandler = x.cr.inHandler from hh]

/-! ## Destinations (R202, R203) -/

theorem mem_acts {x : Cx} {l : Nat} : l ∈ x.acts ↔ l < 32 ∧ x.act.getLsbD l = true := by
  simp [Cx.acts, lanesOf]

theorem acts_ne_nil {x : Cx} (h : x.act ≠ 0) : x.acts ≠ [] := by
  intro h0
  apply h
  apply BitVec.eq_of_getLsbD_eq
  intro l hl
  by_cases hb : x.act.getLsbD l = true
  · have : l ∈ x.acts := mem_acts.2 ⟨hl, hb⟩
    rw [h0] at this
    cases this
  · simpa using hb

/-- The lowest active lane is active. -/
theorem first_mem {x : Cx} (h : x.act ≠ 0) : x.first ∈ x.acts := by
  have hne := acts_ne_nil h
  unfold Cx.first
  cases ha : x.acts with
  | nil => exact absurd ha hne
  | cons a l => simp

/-- No flag changes nothing (R97). -/
@[simp] theorem orFlags_zero (c : Crew) : c.orFlags 0 = c := by
  unfold Crew.orFlags
  split
  · rename_i h hh
    have : h.fstat ||| (0 : Flags) = h.fstat := by simp
    rw [this, ← hh]
  · have : c.fstat ||| (0 : Flags) = c.fstat := by simp
    rw [this]

@[simp] theorem putOpr_handler (c : Crew) (o : Opr) (n l v : Nat) : (c.putOpr o n l v).handler = c.handler := by
  cases o <;> simp [Crew.putOpr]
@[simp] theorem putOpr_threads (c : Crew) (o : Opr) (n l v : Nat) : (c.putOpr o n l v).threads = c.threads := by
  cases o <;> simp [Crew.putOpr]
@[simp] theorem putOpr_getP (c : Crew) (o : Opr) (n l v k : Nat) : (c.putOpr o n l v).getP k = c.getP k := by
  cases o <;> simp [Crew.putOpr]

/-- Writes of vector registers in the lanes of a list leave every register that they do not name. -/
theorem foldl_setVs_ne (ls : List Nat) (r n : Nat) (val : Nat → Nat) (c : Crew) {r' l' : Nat}
    (h : ∀ l ∈ ls, ∀ i < n, Crew.key r' l' ≠ Crew.key (r + i) l) :
    (ls.foldl (fun c l => c.setVs r l n (val l)) c).getV r' l' = c.getV r' l' ∧
      (ls.foldl (fun c l => c.setVs r l n (val l)) c).isEmpty r' l' = c.isEmpty r' l' := by
  induction ls generalizing c with
  | nil => exact ⟨rfl, rfl⟩
  | cons a t ih =>
    have ha := h a List.mem_cons_self
    have := ih (c.setVs r a n (val a)) (fun l hl => h l (List.mem_cons_of_mem _ hl))
    rw [List.foldl_cons, this.1, this.2]
    exact ⟨Crew.getV_setVs_ne _ _ ha, Crew.isEmpty_setVs_ne _ _ ha⟩

/-- A write of a vector register in each lane of a list: the lanes' registers hold their values. -/
theorem foldl_setVs_get (ls : List Nat) (hnd : ls.Nodup) (hb : ∀ l ∈ ls, l < 32) (r n : Nat) (val : Nat → Nat)
    (c : Crew) {l : Nat} (hl : l ∈ ls) :
    (ls.foldl (fun c l => c.setVs r l n (val l)) c).getVs r l n = val l % 2 ^ (32 * n) := by
  induction ls generalizing c with
  | nil => cases hl
  | cons a t ih =>
    obtain ⟨hna, hnt⟩ := List.nodup_cons.1 hnd
    rw [List.foldl_cons]
    rcases List.mem_cons.1 hl with rfl | hlt
    · rw [← Crew.getVs_setVs c (hb l List.mem_cons_self) r n (val l)]
      refine Crew.getVs_congr (fun i _ => (foldl_setVs_ne t r n val _ ?_).1)
      intro k hk j _
      rw [Ne, Crew.key_inj (hb l List.mem_cons_self) (hb k (List.mem_cons_of_mem _ hk))]
      exact fun h => hna (h.2 ▸ hk)
    · exact ih hnt (fun k hk => hb k (List.mem_cons_of_mem _ hk)) _ hlt

theorem acts_nodup (x : Cx) : x.acts.Nodup := List.Nodup.filter _ List.nodup_range

theorem acts_lt {x : Cx} {l : Nat} (h : l ∈ x.acts) : l < 32 := (mem_acts.1 h).1

/-- The fields that writes of registers leave. -/
theorem setVs_rest (c : Crew) (r l n v : Nat) :
    { c.setVs r l n v with s := c.s, p := c.p, v := c.v, empty := c.empty, held := c.held, threads := c.threads,
                           probes := c.probes, ckS := c.ckS, ckFstat := c.ckFstat, ckSeq := c.ckSeq, ckMark := c.ckMark, retry := c.retry } = c := by
  induction n generalizing c r v with
  | zero => rfl
  | succ n ih =>
    have := ih (c.setV r l (BitVec.ofNat 32 v)) (r + 1) (v / 2 ^ 32)
    calc _ = { ({ (c.setV r l (BitVec.ofNat 32 v)).setVs (r + 1) l n (v / 2 ^ 32) with
                  s := (c.setV r l (BitVec.ofNat 32 v)).s, p := (c.setV r l (BitVec.ofNat 32 v)).p,
                  v := (c.setV r l (BitVec.ofNat 32 v)).v, empty := (c.setV r l (BitVec.ofNat 32 v)).empty,
                  held := (c.setV r l (BitVec.ofNat 32 v)).held, threads := (c.setV r l (BitVec.ofNat 32 v)).threads,
                  probes := (c.setV r l (BitVec.ofNat 32 v)).probes, ckS := (c.setV r l (BitVec.ofNat 32 v)).ckS, ckFstat := (c.setV r l (BitVec.ofNat 32 v)).ckFstat, ckSeq := (c.setV r l (BitVec.ofNat 32 v)).ckSeq, ckMark := (c.setV r l (BitVec.ofNat 32 v)).ckMark, retry := (c.setV r l (BitVec.ofNat 32 v)).retry } : Crew) with
                s := c.s, p := c.p, v := c.v, empty := c.empty, held := c.held, threads := c.threads,
                probes := c.probes, ckS := c.ckS, ckFstat := c.ckFstat, ckSeq := c.ckSeq, ckMark := c.ckMark, retry := c.retry } := rfl
      _ = _ := by rw [this]; rfl

/-- Frames compose. -/
theorem Kept.trans {a b c : Crew} {v v' : Nat → Nat → Prop} {s s' p p' : Nat → Prop} (h : Kept a b v s p)
    (h' : Kept b c v' s' p') :
    Kept a c (fun r l => v r l ∨ v' r l) (fun r => s r ∨ s' r) (fun r => p r ∨ p' r) where
  vector r l hl hn := by
    have h1 := h.vector r l hl (fun e => hn (.inl e))
    have h2 := h'.vector r l hl (fun e => hn (.inr e))
    exact ⟨h2.1.trans h1.1, h2.2.trans h1.2⟩
  uniform r hn := (h'.uniform r (fun e => hn (.inr e))).trans (h.uniform r (fun e => hn (.inl e)))
  predicate r hn := (h'.predicate r (fun e => hn (.inr e))).trans (h.predicate r (fun e => hn (.inl e)))
  rest := by
    have h1 := h.rest
    have h2 := h'.rest
    calc _ = { ({ c with s := b.s, p := b.p, v := b.v, empty := b.empty, held := b.held, threads := b.threads,
                         probes := b.probes, ckS := b.ckS, ckFstat := b.ckFstat, ckSeq := b.ckSeq, ckMark := b.ckMark, retry := b.retry } : Crew) with
                s := a.s, p := a.p, v := a.v, empty := a.empty, held := a.held, threads := a.threads,
                probes := a.probes, ckS := a.ckS, ckFstat := a.ckFstat, ckSeq := a.ckSeq, ckMark := a.ckMark, retry := a.retry } := rfl
      _ = _ := by rw [h2, h1]

theorem Kept.refl (c : Crew) : Kept c c none2 none1 none1 := ⟨fun _ _ _ _ => ⟨rfl, rfl⟩, fun _ _ => rfl, fun _ _ => rfl, rfl⟩

theorem Kept.mono {a b : Crew} {v v' : Nat → Nat → Prop} {s s' p p' : Nat → Prop} (h : Kept a b v s p)
    (hv : ∀ r l, v r l → v' r l) (hs : ∀ r, s r → s' r) (hp : ∀ r, p r → p' r) : Kept a b v' s' p' :=
  ⟨fun r l hl hn => h.vector r l hl (fun e => hn (hv r l e)), fun r hn => h.uniform r (fun e => hn (hs r e)),
    fun r hn => h.predicate r (fun e => hn (hp r e)), h.rest⟩

/-- A write of one uniform register. -/
theorem kept_setS (c : Crew) (n : Nat) (x : DWord) : Kept c (c.setS n x) none2 (fun r => r = n) none1 :=
  ⟨fun _ _ _ _ => ⟨rfl, rfl⟩, fun _ h => Crew.getS_setS_ne c x h, fun _ _ => rfl, rfl⟩

/-- A write of bits of one predicate register. -/
theorem kept_setP (c : Crew) (n : Nat) (m v : Lanes) : Kept c (c.setP n m v) none2 none1 (fun r => n ≠ 15 ∧ r = n) where
  vector _ _ _ _ := ⟨by simp, by simp⟩
  uniform _ _ := by simp
  predicate r h := by
    by_cases hr : r = n
    · subst hr
      have h15 : r = 15 := by
        by_contra hc
        exact h ⟨hc, rfl⟩
      simp [Crew.setP, h15]
    · exact Crew.getP_setP_ne c m v hr
  rest := by unfold Crew.setP; split <;> rfl

/-- Writes of `n` consecutive registers in each lane of a list. -/
theorem kept_foldl_setVs (ls : List Nat) (hb : ∀ l ∈ ls, l < 32) (r n : Nat) (val : Nat → Nat) (c : Crew) :
    Kept c (ls.foldl (fun c l => c.setVs r l n (val l)) c) (fun r' l => l ∈ ls ∧ r ≤ r' ∧ r' < r + n) none1 none1 where
  vector r' l' hl' h := by
    refine foldl_setVs_ne ls r n val c (fun l hl i hi => ?_)
    rw [Ne, Crew.key_inj hl' (hb l hl)]
    rintro ⟨h1, h2⟩
    exact h ⟨h2 ▸ hl, by omega⟩
  uniform k _ := by
    induction ls generalizing c with
    | nil => rfl
    | cons a t ih => rw [List.foldl_cons, ih (fun l hl => hb l (List.mem_cons_of_mem _ hl))]; simp
  predicate k _ := by
    induction ls generalizing c with
    | nil => rfl
    | cons a t ih => rw [List.foldl_cons, ih (fun l hl => hb l (List.mem_cons_of_mem _ hl))]; simp
  rest := by
    induction ls generalizing c with
    | nil => rfl
    | cons a t ih =>
      have h1 := ih (fun l hl => hb l (List.mem_cons_of_mem _ hl)) (c.setVs r a n (val a))
      have h2 := setVs_rest c r a n (val a)
      rw [List.foldl_cons]
      calc _ = { ({ t.foldl (fun c l => c.setVs r l n (val l)) (c.setVs r a n (val a)) with
                    s := (c.setVs r a n (val a)).s, p := (c.setVs r a n (val a)).p, v := (c.setVs r a n (val a)).v,
                    empty := (c.setVs r a n (val a)).empty, held := (c.setVs r a n (val a)).held,
                    threads := (c.setVs r a n (val a)).threads,
                    probes := (c.setVs r a n (val a)).probes, ckS := (c.setVs r a n (val a)).ckS, ckFstat := (c.setVs r a n (val a)).ckFstat, ckSeq := (c.setVs r a n (val a)).ckSeq, ckMark := (c.setVs r a n (val a)).ckMark, retry := (c.setVs r a n (val a)).retry } : Crew) with
                  s := c.s, p := c.p, v := c.v, empty := c.empty, held := c.held, threads := c.threads,
                  probes := c.probes, ckS := c.ckS, ckFstat := c.ckFstat, ckSeq := c.ckSeq, ckMark := c.ckMark, retry := c.retry } := rfl
        _ = _ := by rw [h1, h2]

/-- The vector registers of a destination, written in every active lane. -/
theorem foldl_putOpr_v (ls : List Nat) (k : BitVec 8) (n : Nat) (val : Nat → Nat) (c : Crew) :
    ls.foldl (fun c l => c.putOpr (.v k) n l (val l)) c =
      ls.foldl (fun c l => c.setVs (c.vName k.toNat) l n (val l)) c := rfl

theorem foldl_setVs_name (ls : List Nat) (k n : Nat) (val : Nat → Nat) (c : Crew) {r : Nat} (hr : c.vName k = r) :
    ls.foldl (fun c l => c.setVs (c.vName k) l n (val l)) c = ls.foldl (fun c l => c.setVs r l n (val l)) c := by
  induction ls generalizing c with
  | nil => rfl
  | cons a t ih =>
    rw [List.foldl_cons, List.foldl_cons, hr]
    exact ih _ (by rw [Crew.vName_congr (Crew.handler_setVs _ _ _ _ _)]; exact hr)

/-- The destination of a lane-wise result: what each lane's register holds, and the frame (R202, R203). -/
theorem writeLanes_spec (x : Cx) (d : Opr) (f : Fmt) (res : Nat → Nat) :
    WritesReg x d (fmtRegs f) 0
      (fun l v => (oprIsS d = false → v = if oprIsV d then res l % 2 ^ (32 * fmtRegs f) else 0) ∧
        (oprIsS d = true → v = toUniform f (res l) % 2 ^ 64)) (writeLanes x d f res) := by
  unfold WritesReg
  rw [orFlags_zero]
  cases d with
  | v k =>
    have hw : writeLanes x (.v k) f res =
        x.acts.foldl (fun c l => c.setVs (x.cr.vName k.toNat) l (fmtRegs f) (res l)) x.cr := by
      simp only [writeLanes, dstLanes, oprIsS, Bool.false_eq_true, if_false]
      rw [foldl_putOpr_v, foldl_setVs_name _ _ _ _ _ rfl]
    rw [hw]
    refine ⟨fun l hl => ⟨fun _ => ?_, fun h => by simp [oprIsS] at h⟩, ?_⟩
    · have hl' : l ∈ x.acts := by simpa [dstLanes, oprIsS] using hl
      simp only [destVal, oprIsV, if_true]
      exact foldl_setVs_get _ (acts_nodup x) (fun _ h => acts_lt h) _ _ _ _ hl'
    · refine (kept_foldl_setVs x.acts (fun _ h => acts_lt h) _ _ _ _).mono ?_ (fun _ h => h) (fun _ h => h)
      rintro r l ⟨h1, h2⟩
      exact ⟨(mem_acts.1 h1).2, h2⟩
  | s k =>
    have hw : writeLanes x (.s k) f res = x.cr.setS (x.cr.sName k.toNat) (BitVec.ofNat 64 (toUniform f (res x.first))) := by
      simp [writeLanes, dstLanes, oprIsS, Crew.putOpr]
    rw [hw]
    refine ⟨fun l hl => ⟨fun h => by simp [oprIsS] at h, fun _ => ?_⟩, kept_setS _ _ _⟩
    have hl' : l = x.first := by simpa [dstLanes, oprIsS] using hl
    simp [destVal, hl']
  | _ =>
    have hw : ∀ d, oprIsS d = false → oprIsV d = false → writeLanes x d f res = x.cr := by
      intro d hs hv
      unfold writeLanes
      generalize dstLanes x d = ls
      induction ls with
      | nil => rfl
      | cons a t ih =>
        rw [List.foldl_cons]
        have : x.cr.putOpr d (fmtRegs f) a (if oprIsS d then toUniform f (res a) else res a) = x.cr := by
          cases d <;> simp_all [Crew.putOpr, oprIsS, oprIsV]
        rw [this]
        exact ih
    rw [hw _ rfl rfl]
    refine ⟨fun l _ => ⟨fun _ => by simp [destVal, oprIsV], fun h => by simp [oprIsS] at h⟩, ?_⟩
    exact (Kept.refl x.cr).mono (fun _ _ h => h.elim) (fun _ h => h.elim) (fun _ h => h)

@[simp] theorem writeLanes_handler (x : Cx) (d : Opr) (f : Fmt) (res : Nat → Nat) :
    (writeLanes x d f res).handler = x.cr.handler := by
  unfold writeLanes
  generalize dstLanes x d = ls
  generalize x.cr = c
  induction ls generalizing c with
  | nil => rfl
  | cons a t ih => rw [List.foldl_cons, ih]; simp

@[simp] theorem writeLanes_threads (x : Cx) (d : Opr) (f : Fmt) (res : Nat → Nat) :
    (writeLanes x d f res).threads = x.cr.threads := by
  unfold writeLanes
  generalize dstLanes x d = ls
  generalize x.cr = c
  induction ls generalizing c with
  | nil => rfl
  | cons a t ih => rw [List.foldl_cons, ih]; simp

theorem putOpr_heads (c : Crew) (o : Opr) (n l v : Nat) : SameHeads c (c.putOpr o n l v) := by
  have hv : ∀ (n : Nat) (c : Crew) (r v : Nat), SameHeads c (c.setVs r l n v) := by
    intro n
    induction n with
    | zero => exact fun _ _ _ => ⟨rfl, rfl, rfl, rfl, rfl⟩
    | succ n ih =>
      intro c r v
      have := ih (c.setV r l (BitVec.ofNat 32 v)) (r + 1) (v / 2 ^ 32)
      exact this
  cases o <;> first | exact hv _ _ _ _ | exact ⟨rfl, rfl, rfl, rfl, rfl⟩

theorem writeLanes_heads (x : Cx) (d : Opr) (f : Fmt) (res : Nat → Nat) : SameHeads x.cr (writeLanes x d f res) := by
  unfold writeLanes
  generalize dstLanes x d = ls
  generalize x.cr = c
  induction ls generalizing c with
  | nil => exact ⟨rfl, rfl, rfl, rfl, rfl⟩
  | cons a t ih =>
    rw [List.foldl_cons]
    have h1 := putOpr_heads c d (fmtRegs f) a (if oprIsS d then toUniform f (res a) else res a)
    have h2 := ih (c.putOpr d (fmtRegs f) a (if oprIsS d then toUniform f (res a) else res a))
    exact ⟨h2.1.trans h1.1, h2.2.1.trans h1.2.1, h2.2.2.1.trans h1.2.2.1, h2.2.2.2.1.trans h1.2.2.2.1,
      h2.2.2.2.2.trans h1.2.2.2.2⟩

/-- An instruction whose effect is one lane-wise result completes, with its destination as `writeLanes_spec` says. -/
theorem completes_writeLanes {i : Instr} {s : State} {x : Cx} {d : Opr} {f : Fmt} {eff : Cx → Res} {res : Nat → Nat}
    {val : Nat → Nat → Prop} (h : Ready i s x) (hx : exec i s = issueWith i s eff)
    (he : eff x = crewRes x (writeLanes x d f res))
    (hv : ∀ l v, (oprIsS d = false → v = if oprIsV d then res l % 2 ^ (32 * fmtRegs f) else 0) →
        (oprIsS d = true → v = toUniform f (res l) % 2 ^ 64) → val l v) :
    Completes i s x (WritesReg x d (fmtRegs f) 0 val) := by
  refine completes_of h hx he (by simp) (by simp) (writeLanes_heads x d f res) (fun m k e => WritesReg.advance ?_ m k e)
  have := writeLanes_spec x d f res
  exact ⟨fun l hl => hv l _ (this.1 l hl).1 (this.1 l hl).2, this.2⟩

/-! ## Waits for operands (R17): `seeOperands` changes when threads wait, alone -/

@[simp] theorem seesOperands_pc (t : Thread) (r : Bool) (n : Nat) : (t.seesOperands r n).pc = t.pc := by
  unfold Thread.seesOperands; split <;> split <;> rfl
@[simp] theorem seesOperands_head (t : Thread) (r : Bool) (n : Nat) : (t.seesOperands r n).head = t.head := by
  unfold Thread.seesOperands; split <;> split <;> rfl
@[simp] theorem seesOperands_exited (t : Thread) (r : Bool) (n : Nat) : (t.seesOperands r n).exited = t.exited := by
  unfold Thread.seesOperands; split <;> split <;> rfl
@[simp] theorem seeOperands_mem (s : State) (c n : Nat) : (seeOperands s c n).mem = s.mem := rfl
@[simp] theorem seeOperands_cores (s : State) (c n : Nat) : (seeOperands s c n).cores = s.cores := rfl
@[simp] theorem seeOperands_grids (s : State) (c n : Nat) : (seeOperands s c n).grids = s.grids := rfl
@[simp] theorem seeOperands_issue (s : State) (c n : Nat) : (seeOperands s c n).issue = s.issue := rfl

/-! ## Pairs of words (R48) -/

/-- A pair that no 8-byte store has written. -/
theorem pairAt_nil (p : Nat) : pairAt [] p = ⟨0, 0⟩ := rfl

/-- An 8-byte store of a whole pair is its last one, all of whose bytes stand. -/
theorem pairAt_pairsAfter_store (m : NMap Pair) {a : Nat} (h : a % 8 = 0) :
    pairAt (pairsAfter m a 8) (a / 8) = ⟨(pairAt m (a / 8)).count + 1, 255⟩ := by
  simp [pairsAfter, h, pairAt]

end Sys2Proof.Machine
end

