-- ==== Sys2Proof/Laws/Numbers.lean ====
section
/-! SUPPORT. Laws of integer formats: reading back a wrapped or clipped value, and the elements of packed bits. -/

namespace Sys2Proof.Machine

open Sys2Proof

theorem fmtBits_pos (f : Fmt) : 0 < fmtBits f := by cases f <;> simp [fmtBits]

theorem wrapTo_lt (w : Nat) (i : Int) : wrapTo w i < 2 ^ w := by
  unfold wrapTo
  have h1 : (0 : Int) < 2 ^ w := by positivity
  have h2 := Int.emod_lt_of_pos i h1
  have h3 := Int.emod_nonneg i (ne_of_gt h1)
  have : ((i % 2 ^ w).toNat : Int) < ((2 ^ w : Nat) : Int) := by rw [Int.toNat_of_nonneg h3]; push_cast; exact h2
  exact_mod_cast this

theorem wrapTo_cast (w : Nat) (i : Int) : ((wrapTo w i : Nat) : Int) = i % 2 ^ w := by
  unfold wrapTo
  exact Int.toNat_of_nonneg (Int.emod_nonneg i (by positivity))

theorem asInt_mod (f : Fmt) (x : Nat) : asInt f (x % 2 ^ fmtBits f) = asInt f x := by simp [asInt]

/-- The integer that a code holds differs from the code by a multiple of the format's size. -/
theorem asInt_emod (f : Fmt) (x : Nat) : asInt f x % 2 ^ fmtBits f = (x : Int) % 2 ^ fmtBits f := by
  unfold asInt
  simp only
  split
  · rw [Int.sub_emod, Int.emod_self, sub_zero, Int.emod_emod_of_dvd _ (dvd_refl _)]
    push_cast
    rw [Int.emod_emod_of_dvd _ (dvd_refl _)]
  · push_cast
    rw [Int.emod_emod_of_dvd _ (dvd_refl _)]

/-- Reading back a wrapped integer gives it modulo the format's size. -/
theorem asInt_wrapTo_emod (f : Fmt) (i : Int) : (asInt f (wrapTo (fmtBits f) i) - i) % 2 ^ fmtBits f = 0 := by
  rw [← Int.emod_emod_of_dvd _ (dvd_refl ((2 : Int) ^ fmtBits f)), Int.sub_emod, asInt_emod, wrapTo_cast]
  simp

theorem asInt_bounds (f : Fmt) (x : Nat) : intLo f ≤ asInt f x ∧ asInt f x ≤ intHi f := by
  have hw := fmtBits_pos f
  have h2 : (2 : Int) ^ fmtBits f = 2 * 2 ^ (fmtBits f - 1) := by
    rw [← pow_succ']; congr 1; omega
  have hx0 : (0 : Int) ≤ ((x % 2 ^ fmtBits f : Nat) : Int) := Int.natCast_nonneg _
  have hx : ((x % 2 ^ fmtBits f : Nat) : Int) < ((2 ^ fmtBits f : Nat) : Int) := by
    exact_mod_cast Nat.mod_lt x (by positivity)
  have hp : (0 : Int) < 2 ^ (fmtBits f - 1) := by positivity
  have hc : ((2 ^ fmtBits f : Nat) : Int) = 2 ^ fmtBits f := by push_cast; rfl
  rw [hc] at hx
  unfold intLo intHi asInt
  simp only
  generalize hy : x % 2 ^ fmtBits f = y at hx hx0 ⊢
  by_cases hs : fmtSigned f = true
  · by_cases hb : 2 ^ (fmtBits f - 1) ≤ y
    · have h3 : ((2 ^ (fmtBits f - 1) : Nat) : Int) ≤ (y : Int) := by exact_mod_cast hb
      push_cast at h3
      simp only [hs, hb, decide_true, Bool.and_self, if_true]
      constructor <;> linarith
    · have h3 : (y : Int) < ((2 ^ (fmtBits f - 1) : Nat) : Int) := by exact_mod_cast not_le.1 hb
      push_cast at h3
      simp only [hs, hb, decide_false, Bool.and_false, if_true, Bool.false_eq_true, if_false]
      constructor <;> linarith
  · simp only [hs, Bool.false_and, Bool.false_eq_true, if_false]
    constructor <;> linarith

theorem intLo_le (f : Fmt) (x : Nat) : intLo f ≤ asInt f x := (asInt_bounds f x).1
theorem asInt_le (f : Fmt) (x : Nat) : asInt f x ≤ intHi f := (asInt_bounds f x).2

/-- Two integers of the format's range that agree modulo its size are equal. -/
theorem int_eq_of_emod {f : Fmt} {a b : Int} (ha : intLo f ≤ a) (ha' : a ≤ intHi f) (hb : intLo f ≤ b)
    (hb' : b ≤ intHi f) (h : (a - b) % 2 ^ fmtBits f = 0) : a = b := by
  have hw := fmtBits_pos f
  have h2 : (2 : Int) ^ fmtBits f = 2 * 2 ^ (fmtBits f - 1) := by
    rw [← pow_succ']; congr 1; omega
  have hd : intHi f - intLo f < 2 ^ fmtBits f := by
    unfold intHi intLo
    split <;> linarith
  obtain ⟨k, hk⟩ := Int.dvd_of_emod_eq_zero h
  have hp : (0 : Int) < 2 ^ fmtBits f := by positivity
  have hk0 : k = 0 := by
    by_contra hne
    rcases lt_or_gt_of_ne hne with hlt | hgt
    · have : (2 : Int) ^ fmtBits f * k ≤ 2 ^ fmtBits f * (-1) := by
        apply mul_le_mul_of_nonneg_left _ (le_of_lt hp); omega
      linarith
    · have : (2 : Int) ^ fmtBits f * 1 ≤ 2 ^ fmtBits f * k := by
        apply mul_le_mul_of_nonneg_left _ (le_of_lt hp); omega
      linarith
  rw [hk0] at hk
  linarith

/-- Reading back a wrapped integer of the format's range gives it. -/
theorem asInt_wrapTo {f : Fmt} {i : Int} (h : intLo f ≤ i) (h' : i ≤ intHi f) : asInt f (wrapTo (fmtBits f) i) = i :=
  int_eq_of_emod (intLo_le _ _) (asInt_le _ _) h h' (asInt_wrapTo_emod f i)

theorem intLo_le_intHi (f : Fmt) : intLo f ≤ intHi f := (intLo_le f 0).trans (asInt_le f 0)

/-- Reading back a clipped or a wrapped result (R205). -/
theorem asInt_clipWrap (f : Fmt) (r : Int) :
    asInt f (clipWrap f true r) = max (intLo f) (min (intHi f) r) ∧
      (asInt f (clipWrap f false r) - r) % 2 ^ fmtBits f = 0 := by
  have hlh := intLo_le_intHi f
  refine ⟨?_, asInt_wrapTo_emod f r⟩
  have he : min (max r (intLo f)) (intHi f) = max (intLo f) (min (intHi f) r) := by
    rcases le_total r (intLo f) with h1 | h1
    · rw [max_eq_right h1, min_eq_left hlh, min_eq_right (h1.trans hlh), max_eq_left h1]
    · rcases le_total r (intHi f) with h2 | h2
      · rw [max_eq_left h1, min_eq_left h2, min_eq_right h2, max_eq_right h1]
      · rw [max_eq_left h1, min_eq_right h2, min_eq_left h2, max_eq_right hlh]
  unfold clipWrap
  rw [if_pos rfl, he, asInt_wrapTo (le_max_left _ _) (max_le hlh (min_le_left _ _))]

/-! ## Packed elements (R85) -/

theorem packElems_cons (f : Fmt) (a : Nat) (xs : List Nat) :
    packElems f (a :: xs) = a % 2 ^ fmtBits f + 2 ^ fmtBits f * packElems f xs := rfl

theorem packElems_lt (f : Fmt) (xs : List Nat) : packElems f xs < 2 ^ (fmtBits f * xs.length) := by
  induction xs with
  | nil => simp [packElems]
  | cons a t ih =>
    rw [packElems_cons, List.length_cons, Nat.mul_succ, Nat.add_comm (fmtBits f * _), Nat.pow_add]
    have h1 : a % 2 ^ fmtBits f < 2 ^ fmtBits f := Nat.mod_lt _ (by positivity)
    calc _ < 2 ^ fmtBits f + 2 ^ fmtBits f * packElems f t := by omega
      _ = 2 ^ fmtBits f * (packElems f t + 1) := by ring
      _ ≤ _ := Nat.mul_le_mul_left _ ih

/-- An element of packed bits. -/
theorem elem_packElems (f : Fmt) (xs : List Nat) (i : Nat) (h : i < xs.length) :
    elem f (packElems f xs) i = xs[i] % 2 ^ fmtBits f := by
  induction xs generalizing i with
  | nil => simp at h
  | cons a t ih =>
    have hp : 0 < 2 ^ fmtBits f := by positivity
    cases i with
    | zero =>
      simp only [elem, packElems_cons, Nat.mul_zero, Nat.pow_zero, Nat.div_one, List.getElem_cons_zero]
      rw [Nat.add_mul_mod_self_left, Nat.mod_mod]
    | succ i =>
      have hi : i < t.length := by simpa using h
      rw [List.getElem_cons_succ, ← ih i hi]
      unfold elem
      rw [packElems_cons, Nat.mul_succ, Nat.add_comm (fmtBits f * i), Nat.pow_add, ← Nat.div_div_eq_div_mul,
        Nat.add_mul_div_left _ _ hp, Nat.div_eq_of_lt (Nat.mod_lt _ hp), Nat.zero_add]

/-- The elements of an integer result (R205). -/
theorem elem_intValue (f : Fmt) (clip : Bool) (op : Int → Int → Int → Int) (a b c i : Nat) (h : i < elemCount f) :
    elem f (intValue f clip op a b c) i =
      clipWrap f clip (op (asInt f (elem f a i)) (asInt f (elem f b i)) (asInt f (elem f c i))) := by
  unfold intValue
  rw [elem_packElems _ _ _ (by simpa using h)]
  simp only [List.getElem_map, List.getElem_range]
  exact Nat.mod_eq_of_lt (wrapTo_lt _ _)

/-- An integer result fits the registers of its format. -/
theorem intValue_lt (f : Fmt) (clip : Bool) (op : Int → Int → Int → Int) (a b c : Nat) :
    intValue f clip op a b c < 2 ^ (32 * fmtRegs f) := by
  refine (packElems_lt _ _).trans_le (Nat.pow_le_pow_right (by decide) ?_)
  simp only [List.length_map, List.length_range]
  cases f <;> simp [elemCount, fmtBits, fmtRegs]

end Sys2Proof.Machine
end

