-- ==== Sys2Proof/Laws/PerInstr.lean ====
section
/-! SUPPORT. Laws stated of every instruction, one lemma a constructor. Family `Encoded`: the word of an instruction
carries its opcode in bits 9:0 (R189) and its guard in bits 14:10 (R173); an event has no word. -/

namespace Sys2Proof.Laws

open Sys2Proof

/-- The opcode and the guard of an instruction's word are its own. -/
def Encoded.Statement (i : Instr) : Prop :=
  ∀ w, encode i = some w → w.extractLsb' 0 10 = i.opc ∧ Decode.guard w = i.body.guard

/-- The low fifteen bits of a word that ends in a guard and an opcode. -/
theorem Encoded.head_of {n : Nat} (x : BitVec n) (gn : Bool) (gp : BitVec 4) (o : BitVec 10) (w : Code)
    (hw : ∀ i, w.getLsbD i = (x ++ BitVec.ofBool gn ++ gp ++ o).getLsbD i) :
    w.extractLsb' 0 10 = o ∧ Decode.guard w = ⟨gn, gp⟩ := by
  refine ⟨?_, ?_⟩
  · apply BitVec.eq_of_getLsbD_eq
    intro i hi
    simp [BitVec.getLsbD_append, hi, hw]
  · unfold Decode.guard
    congr 1
    · rw [hw, BitVec.getLsbD_append, BitVec.getLsbD_append, BitVec.getLsbD_append]
      simp
    · apply BitVec.eq_of_getLsbD_eq
      intro i hi
      simp [BitVec.getLsbD_append, hi, hw]

theorem Encoded.head_a (o : BitVec 10) (f : FmtA) :
    (Encode.fmtA o f).extractLsb' 0 10 = o ∧ Decode.guard (Encode.fmtA o f) = f.g :=
  Encoded.head_of _ f.g.gn f.g.gp o _ (fun _ => rfl)

theorem Encoded.head_b (o : BitVec 10) (f : FmtB) :
    (Encode.fmtB o f).extractLsb' 0 10 = o ∧ Decode.guard (Encode.fmtB o f) = f.g :=
  Encoded.head_of _ f.g.gn f.g.gp o _ (fun _ => rfl)

theorem Encoded.head_m (o : BitVec 10) (f : FmtM) :
    (Encode.fmtM o f).extractLsb' 0 10 = o ∧ Decode.guard (Encode.fmtM o f) = f.g :=
  Encoded.head_of _ f.g.gn f.g.gp o _ (fun _ => rfl)

theorem Encoded.head_e (o : BitVec 10) (f : FmtE) :
    (Encode.fmtE o f).extractLsb' 0 10 = o ∧ Decode.guard (Encode.fmtE o f) = f.g :=
  Encoded.head_of _ f.g.gn f.g.gp o _ (fun _ => rfl)

theorem Encoded.head_c (o : BitVec 10) (f : FmtC) :
    (Encode.fmtC o f).extractLsb' 0 10 = o ∧ Decode.guard (Encode.fmtC o f) = f.g :=
  Encoded.head_of _ f.g.gn f.g.gp o _ (fun _ => rfl)

theorem Encoded.head_g (o : BitVec 10) (f : FmtG) :
    (Encode.fmtG o f).extractLsb' 0 10 = o ∧ Decode.guard (Encode.fmtG o f) = f.g :=
  Encoded.head_of _ f.g.gn f.g.gp o _ (fun _ => rfl)

theorem Encoded.head_s (o : BitVec 10) (f : FmtS) :
    (Encode.fmtS o f).extractLsb' 0 10 = o ∧ Decode.guard (Encode.fmtS o f) = f.g :=
  Encoded.head_of _ f.g.gn f.g.gp o _ (fun _ => rfl)

theorem Encoded.head_x (o : BitVec 10) (f : FmtX) :
    (Encode.fmtX o f).extractLsb' 0 10 = o ∧ Decode.guard (Encode.fmtX o f) = f.g :=
  Encoded.head_of _ f.g.gn f.g.gp o _ (fun _ => rfl)

theorem Encoded.iadd (f : FmtA) : Encoded.Statement (.iadd f) := by rintro _ ⟨⟩; exact Encoded.head_a _ f
theorem Encoded.isub (f : FmtA) : Encoded.Statement (.isub f) := by rintro _ ⟨⟩; exact Encoded.head_a _ f
theorem Encoded.imul (f : FmtA) : Encoded.Statement (.imul f) := by rintro _ ⟨⟩; exact Encoded.head_a _ f
theorem Encoded.imulh (f : FmtA) : Encoded.Statement (.imulh f) := by rintro _ ⟨⟩; exact Encoded.head_a _ f
theorem Encoded.imad (f : FmtA) : Encoded.Statement (.imad f) := by rintro _ ⟨⟩; exact Encoded.head_a _ f
theorem Encoded.idiv (f : FmtA) : Encoded.Statement (.idiv f) := by rintro _ ⟨⟩; exact Encoded.head_a _ f
theorem Encoded.irem (f : FmtA) : Encoded.Statement (.irem f) := by rintro _ ⟨⟩; exact Encoded.head_a _ f
theorem Encoded.imin (f : FmtA) : Encoded.Statement (.imin f) := by rintro _ ⟨⟩; exact Encoded.head_a _ f
theorem Encoded.imax (f : FmtA) : Encoded.Statement (.imax f) := by rintro _ ⟨⟩; exact Encoded.head_a _ f
theorem Encoded.iabs (f : FmtA) : Encoded.Statement (.iabs f) := by rintro _ ⟨⟩; exact Encoded.head_a _ f
theorem Encoded.ineg (f : FmtA) : Encoded.Statement (.ineg f) := by rintro _ ⟨⟩; exact Encoded.head_a _ f
theorem Encoded.land (f : FmtA) : Encoded.Statement (.land f) := by rintro _ ⟨⟩; exact Encoded.head_a _ f
theorem Encoded.lor (f : FmtA) : Encoded.Statement (.lor f) := by rintro _ ⟨⟩; exact Encoded.head_a _ f
theorem Encoded.lxor (f : FmtA) : Encoded.Statement (.lxor f) := by rintro _ ⟨⟩; exact Encoded.head_a _ f
theorem Encoded.lnot (f : FmtA) : Encoded.Statement (.lnot f) := by rintro _ ⟨⟩; exact Encoded.head_a _ f
theorem Encoded.shl (f : FmtA) : Encoded.Statement (.shl f) := by rintro _ ⟨⟩; exact Encoded.head_a _ f
theorem Encoded.shr (f : FmtA) : Encoded.Statement (.shr f) := by rintro _ ⟨⟩; exact Encoded.head_a _ f
theorem Encoded.sra (f : FmtA) : Encoded.Statement (.sra f) := by rintro _ ⟨⟩; exact Encoded.head_a _ f
theorem Encoded.rotl (f : FmtA) : Encoded.Statement (.rotl f) := by rintro _ ⟨⟩; exact Encoded.head_a _ f
theorem Encoded.bfx (f : FmtA) : Encoded.Statement (.bfx f) := by rintro _ ⟨⟩; exact Encoded.head_a _ f
theorem Encoded.bfi (f : FmtA) : Encoded.Statement (.bfi f) := by rintro _ ⟨⟩; exact Encoded.head_a _ f
theorem Encoded.popc (f : FmtA) : Encoded.Statement (.popc f) := by rintro _ ⟨⟩; exact Encoded.head_a _ f
theorem Encoded.clz (f : FmtA) : Encoded.Statement (.clz f) := by rintro _ ⟨⟩; exact Encoded.head_a _ f
theorem Encoded.brev (f : FmtA) : Encoded.Statement (.brev f) := by rintro _ ⟨⟩; exact Encoded.head_a _ f
theorem Encoded.icmp (f : FmtA) : Encoded.Statement (.icmp f) := by rintro _ ⟨⟩; exact Encoded.head_a _ f
theorem Encoded.sel (f : FmtA) : Encoded.Statement (.sel f) := by rintro _ ⟨⟩; exact Encoded.head_a _ f
theorem Encoded.mov (f : FmtA) : Encoded.Statement (.mov f) := by rintro _ ⟨⟩; exact Encoded.head_a _ f
theorem Encoded.lea (f : FmtA) : Encoded.Statement (.lea f) := by rintro _ ⟨⟩; exact Encoded.head_a _ f
theorem Encoded.iaddi (f : FmtB) : Encoded.Statement (.iaddi f) := by rintro _ ⟨⟩; exact Encoded.head_b _ f
theorem Encoded.movi (f : FmtB) : Encoded.Statement (.movi f) := by rintro _ ⟨⟩; exact Encoded.head_b _ f
theorem Encoded.icmpi (f : FmtB) : Encoded.Statement (.icmpi f) := by rintro _ ⟨⟩; exact Encoded.head_b _ f
theorem Encoded.andi (f : FmtB) : Encoded.Statement (.andi f) := by rintro _ ⟨⟩; exact Encoded.head_b _ f
theorem Encoded.ori (f : FmtB) : Encoded.Statement (.ori f) := by rintro _ ⟨⟩; exact Encoded.head_b _ f
theorem Encoded.xori (f : FmtB) : Encoded.Statement (.xori f) := by rintro _ ⟨⟩; exact Encoded.head_b _ f
theorem Encoded.pand (f : FmtA) : Encoded.Statement (.pand f) := by rintro _ ⟨⟩; exact Encoded.head_a _ f
theorem Encoded.por (f : FmtA) : Encoded.Statement (.por f) := by rintro _ ⟨⟩; exact Encoded.head_a _ f
theorem Encoded.pxor (f : FmtA) : Encoded.Statement (.pxor f) := by rintro _ ⟨⟩; exact Encoded.head_a _ f
theorem Encoded.pnot (f : FmtA) : Encoded.Statement (.pnot f) := by rintro _ ⟨⟩; exact Encoded.head_a _ f
theorem Encoded.p2s (f : FmtA) : Encoded.Statement (.p2s f) := by rintro _ ⟨⟩; exact Encoded.head_a _ f
theorem Encoded.s2p (f : FmtA) : Encoded.Statement (.s2p f) := by rintro _ ⟨⟩; exact Encoded.head_a _ f
theorem Encoded.shfl (f : FmtA) : Encoded.Statement (.shfl f) := by rintro _ ⟨⟩; exact Encoded.head_a _ f
theorem Encoded.voteAll (f : FmtA) : Encoded.Statement (.voteAll f) := by rintro _ ⟨⟩; exact Encoded.head_a _ f
theorem Encoded.voteAny (f : FmtA) : Encoded.Statement (.voteAny f) := by rintro _ ⟨⟩; exact Encoded.head_a _ f
theorem Encoded.voteUni (f : FmtA) : Encoded.Statement (.voteUni f) := by rintro _ ⟨⟩; exact Encoded.head_a _ f
theorem Encoded.voteBallot (f : FmtA) : Encoded.Statement (.voteBallot f) := by rintro _ ⟨⟩; exact Encoded.head_a _ f
theorem Encoded.matchAny (f : FmtA) : Encoded.Statement (.matchAny f) := by rintro _ ⟨⟩; exact Encoded.head_a _ f
theorem Encoded.matchAll (f : FmtA) : Encoded.Statement (.matchAll f) := by rintro _ ⟨⟩; exact Encoded.head_a _ f
theorem Encoded.redux (f : FmtA) : Encoded.Statement (.redux f) := by rintro _ ⟨⟩; exact Encoded.head_a _ f
theorem Encoded.scan (f : FmtA) : Encoded.Statement (.scan f) := by rintro _ ⟨⟩; exact Encoded.head_a _ f
theorem Encoded.elect (f : FmtA) : Encoded.Statement (.elect f) := by rintro _ ⟨⟩; exact Encoded.head_a _ f
theorem Encoded.regacq (f : FmtA) : Encoded.Statement (.regacq f) := by rintro _ ⟨⟩; exact Encoded.head_a _ f
theorem Encoded.regacqGrant (x : _) : Encoded.Statement (.regacqGrant x) := by rintro _ ⟨⟩
theorem Encoded.regrel (f : FmtA) : Encoded.Statement (.regrel f) := by rintro _ ⟨⟩; exact Encoded.head_a _ f
theorem Encoded.fectlTest (f : FmtA) : Encoded.Statement (.fectlTest f) := by rintro _ ⟨⟩; exact Encoded.head_a _ f
theorem Encoded.fectlWait (f : FmtA) : Encoded.Statement (.fectlWait f) := by rintro _ ⟨⟩; exact Encoded.head_a _ f
theorem Encoded.fectlCancel (f : FmtA) : Encoded.Statement (.fectlCancel f) := by rintro _ ⟨⟩; exact Encoded.head_a _ f
theorem Encoded.fadd (f : FmtA) : Encoded.Statement (.fadd f) := by rintro _ ⟨⟩; exact Encoded.head_a _ f
theorem Encoded.fsub (f : FmtA) : Encoded.Statement (.fsub f) := by rintro _ ⟨⟩; exact Encoded.head_a _ f
theorem Encoded.fmul (f : FmtA) : Encoded.Statement (.fmul f) := by rintro _ ⟨⟩; exact Encoded.head_a _ f
theorem Encoded.ffma (f : FmtA) : Encoded.Statement (.ffma f) := by rintro _ ⟨⟩; exact Encoded.head_a _ f
theorem Encoded.fmin (f : FmtA) : Encoded.Statement (.fmin f) := by rintro _ ⟨⟩; exact Encoded.head_a _ f
theorem Encoded.fmax (f : FmtA) : Encoded.Statement (.fmax f) := by rintro _ ⟨⟩; exact Encoded.head_a _ f
theorem Encoded.fsgn (f : FmtA) : Encoded.Statement (.fsgn f) := by rintro _ ⟨⟩; exact Encoded.head_a _ f
theorem Encoded.fcmp (f : FmtA) : Encoded.Statement (.fcmp f) := by rintro _ ⟨⟩; exact Encoded.head_a _ f
theorem Encoded.fclass (f : FmtA) : Encoded.Statement (.fclass f) := by rintro _ ⟨⟩; exact Encoded.head_a _ f
theorem Encoded.fdiv (f : FmtA) : Encoded.Statement (.fdiv f) := by rintro _ ⟨⟩; exact Encoded.head_a _ f
theorem Encoded.fsqrt (f : FmtA) : Encoded.Statement (.fsqrt f) := by rintro _ ⟨⟩; exact Encoded.head_a _ f
theorem Encoded.fex2 (f : FmtA) : Encoded.Statement (.fex2 f) := by rintro _ ⟨⟩; exact Encoded.head_a _ f
theorem Encoded.flg2 (f : FmtA) : Encoded.Statement (.flg2 f) := by rintro _ ⟨⟩; exact Encoded.head_a _ f
theorem Encoded.frcpa (f : FmtA) : Encoded.Statement (.frcpa f) := by rintro _ ⟨⟩; exact Encoded.head_a _ f
theorem Encoded.frsqa (f : FmtA) : Encoded.Statement (.frsqa f) := by rintro _ ⟨⟩; exact Encoded.head_a _ f
theorem Encoded.cvt (f : FmtA) : Encoded.Statement (.cvt f) := by rintro _ ⟨⟩; exact Encoded.head_a _ f
theorem Encoded.pack (f : FmtA) : Encoded.Statement (.pack f) := by rintro _ ⟨⟩; exact Encoded.head_a _ f
theorem Encoded.unpack (f : FmtA) : Encoded.Statement (.unpack f) := by rintro _ ⟨⟩; exact Encoded.head_a _ f
theorem Encoded.bquant (f : FmtA) : Encoded.Statement (.bquant f) := by rintro _ ⟨⟩; exact Encoded.head_a _ f
theorem Encoded.rand (f : FmtA) : Encoded.Statement (.rand f) := by rintro _ ⟨⟩; exact Encoded.head_a _ f
theorem Encoded.split (f : FmtA) : Encoded.Statement (.split f) := by rintro _ ⟨⟩; exact Encoded.head_a _ f
theorem Encoded.sample (f : FmtA) : Encoded.Statement (.sample f) := by rintro _ ⟨⟩; exact Encoded.head_a _ f
theorem Encoded.topk (f : FmtA) : Encoded.Statement (.topk f) := by rintro _ ⟨⟩; exact Encoded.head_a _ f
theorem Encoded.gmbind (f : FmtA) : Encoded.Statement (.gmbind f) := by rintro _ ⟨⟩; exact Encoded.head_a _ f
theorem Encoded.gmstep (f : FmtA) : Encoded.Statement (.gmstep f) := by rintro _ ⟨⟩; exact Encoded.head_a _ f
theorem Encoded.gmfetch (f : FmtA) : Encoded.Statement (.gmfetch f) := by rintro _ ⟨⟩; exact Encoded.head_a _ f
theorem Encoded.gmstkSpill (f : FmtA) : Encoded.Statement (.gmstkSpill f) := by rintro _ ⟨⟩; exact Encoded.head_a _ f
theorem Encoded.gmstkFill (f : FmtA) : Encoded.Statement (.gmstkFill f) := by rintro _ ⟨⟩; exact Encoded.head_a _ f
theorem Encoded.gmstkRd (f : FmtA) : Encoded.Statement (.gmstkRd f) := by rintro _ ⟨⟩; exact Encoded.head_a _ f
theorem Encoded.ld (f : FmtM) : Encoded.Statement (.ld f) := by rintro _ ⟨⟩; exact Encoded.head_m _ f
theorem Encoded.st (f : FmtM) : Encoded.Statement (.st f) := by rintro _ ⟨⟩; exact Encoded.head_m _ f
theorem Encoded.atom (f : FmtM) : Encoded.Statement (.atom f) := by rintro _ ⟨⟩; exact Encoded.head_m _ f
theorem Encoded.red (f : FmtM) : Encoded.Statement (.red f) := by rintro _ ⟨⟩; exact Encoded.head_m _ f
theorem Encoded.fenceAcq (f : FmtM) : Encoded.Statement (.fenceAcq f) := by rintro _ ⟨⟩; exact Encoded.head_m _ f
theorem Encoded.fenceRel (f : FmtM) : Encoded.Statement (.fenceRel f) := by rintro _ ⟨⟩; exact Encoded.head_m _ f
theorem Encoded.fenceAr (f : FmtM) : Encoded.Statement (.fenceAr f) := by rintro _ ⟨⟩; exact Encoded.head_m _ f
theorem Encoded.copy (f : FmtE) : Encoded.Statement (.copy f) := by rintro _ ⟨⟩; exact Encoded.head_e _ f
theorem Encoded.copyc (f : FmtE) : Encoded.Statement (.copyc f) := by rintro _ ⟨⟩; exact Encoded.head_e _ f
theorem Encoded.streamF (f : FmtE) : Encoded.Statement (.streamF f) := by rintro _ ⟨⟩; exact Encoded.head_e _ f
theorem Encoded.streamD (f : FmtE) : Encoded.Statement (.streamD f) := by rintro _ ⟨⟩; exact Encoded.head_e _ f
theorem Encoded.srelF (f : FmtE) : Encoded.Statement (.srelF f) := by rintro _ ⟨⟩; exact Encoded.head_e _ f
theorem Encoded.srelD (f : FmtE) : Encoded.Statement (.srelD f) := by rintro _ ⟨⟩; exact Encoded.head_e _ f
theorem Encoded.gather (f : FmtE) : Encoded.Statement (.gather f) := by rintro _ ⟨⟩; exact Encoded.head_e _ f
theorem Encoded.waitcnt (f : FmtE) : Encoded.Statement (.waitcnt f) := by rintro _ ⟨⟩; exact Encoded.head_e _ f
theorem Encoded.monarm (f : FmtE) : Encoded.Statement (.monarm f) := by rintro _ ⟨⟩; exact Encoded.head_e _ f
theorem Encoded.monwait (f : FmtE) : Encoded.Statement (.monwait f) := by rintro _ ⟨⟩; exact Encoded.head_e _ f
theorem Encoded.bar (f : FmtE) : Encoded.Statement (.bar f) := by rintro _ ⟨⟩; exact Encoded.head_e _ f
theorem Encoded.cset (f : FmtE) : Encoded.Statement (.cset f) := by rintro _ ⟨⟩; exact Encoded.head_e _ f
theorem Encoded.trigger (f : FmtE) : Encoded.Statement (.trigger f) := by rintro _ ⟨⟩; exact Encoded.head_e _ f
theorem Encoded.waitDep (f : FmtE) : Encoded.Statement (.waitDep f) := by rintro _ ⟨⟩; exact Encoded.head_e _ f
theorem Encoded.waitDepRelease (x : _) (y : _) : Encoded.Statement (.waitDepRelease x y) := by rintro _ ⟨⟩
theorem Encoded.task (f : FmtE) : Encoded.Statement (.task f) := by rintro _ ⟨⟩; exact Encoded.head_e _ f
theorem Encoded.taskDone (f : FmtE) : Encoded.Statement (.taskDone f) := by rintro _ ⟨⟩; exact Encoded.head_e _ f
theorem Encoded.taskPost (x : _) (y : _) : Encoded.Statement (.taskPost x y) := by rintro _ ⟨⟩
theorem Encoded.dqpost (f : FmtE) : Encoded.Statement (.dqpost f) := by rintro _ ⟨⟩; exact Encoded.head_e _ f
theorem Encoded.dqtake (f : FmtE) : Encoded.Statement (.dqtake f) := by rintro _ ⟨⟩; exact Encoded.head_e _ f
theorem Encoded.dqsteal (f : FmtE) : Encoded.Statement (.dqsteal f) := by rintro _ ⟨⟩; exact Encoded.head_e _ f
theorem Encoded.qsubmit (f : FmtE) : Encoded.Statement (.qsubmit f) := by rintro _ ⟨⟩; exact Encoded.head_e _ f
theorem Encoded.pooltake (f : FmtE) : Encoded.Statement (.pooltake f) := by rintro _ ⟨⟩; exact Encoded.head_e _ f
theorem Encoded.poolgive (f : FmtE) : Encoded.Statement (.poolgive f) := by rintro _ ⟨⟩; exact Encoded.head_e _ f
theorem Encoded.coll (f : FmtE) : Encoded.Statement (.coll f) := by rintro _ ⟨⟩; exact Encoded.head_e _ f
theorem Encoded.collCombine (x : _) (y : _) (z : _) (u : _) : Encoded.Statement (.collCombine x y z u) := by rintro _ ⟨⟩
theorem Encoded.bra (f : FmtC) : Encoded.Statement (.bra f) := by rintro _ ⟨⟩; exact Encoded.head_c _ f
theorem Encoded.brx (f : FmtC) : Encoded.Statement (.brx f) := by rintro _ ⟨⟩; exact Encoded.head_c _ f
theorem Encoded.call (f : FmtC) : Encoded.Statement (.call f) := by rintro _ ⟨⟩; exact Encoded.head_c _ f
theorem Encoded.callx (f : FmtC) : Encoded.Statement (.callx f) := by rintro _ ⟨⟩; exact Encoded.head_c _ f
theorem Encoded.ret (f : FmtC) : Encoded.Statement (.ret f) := by rintro _ ⟨⟩; exact Encoded.head_c _ f
theorem Encoded.exit (f : FmtC) : Encoded.Statement (.exit f) := by rintro _ ⟨⟩; exact Encoded.head_c _ f
theorem Encoded.nop (f : FmtC) : Encoded.Statement (.nop f) := by rintro _ ⟨⟩; exact Encoded.head_c _ f
theorem Encoded.region (f : FmtG) : Encoded.Statement (.region f) := by rintro _ ⟨⟩; exact Encoded.head_g _ f
theorem Encoded.implicitHead (x : _) (y : _) : Encoded.Statement (.implicitHead x y) := by rintro _ ⟨⟩
theorem Encoded.switchpt (f : FmtS) : Encoded.Statement (.switchpt f) := by rintro _ ⟨⟩; exact Encoded.head_s _ f
theorem Encoded.switchRelaunch (x : _) (y : _) : Encoded.Statement (.switchRelaunch x y) := by rintro _ ⟨⟩
theorem Encoded.trap (f : FmtS) : Encoded.Statement (.trap f) := by rintro _ ⟨⟩; exact Encoded.head_s _ f
theorem Encoded.brk (f : FmtS) : Encoded.Statement (.brk f) := by rintro _ ⟨⟩; exact Encoded.head_s _ f
theorem Encoded.trapret (f : FmtS) : Encoded.Statement (.trapret f) := by rintro _ ⟨⟩; exact Encoded.head_s _ f
theorem Encoded.sread (f : FmtS) : Encoded.Statement (.sread f) := by rintro _ ⟨⟩; exact Encoded.head_s _ f
theorem Encoded.swrite (f : FmtS) : Encoded.Statement (.swrite f) := by rintro _ ⟨⟩; exact Encoded.head_s _ f
theorem Encoded.shape (f : FmtA) : Encoded.Statement (.shape f) := by rintro _ ⟨⟩; exact Encoded.head_a _ f
theorem Encoded.fmtwin (f : FmtA) : Encoded.Statement (.fmtwin f) := by rintro _ ⟨⟩; exact Encoded.head_a _ f
theorem Encoded.mma (f : FmtX) : Encoded.Statement (.mma f) := by rintro _ ⟨⟩; exact Encoded.head_x _ f
theorem Encoded.aclr (f : FmtX) : Encoded.Statement (.aclr f) := by rintro _ ⟨⟩; exact Encoded.head_x _ f
theorem Encoded.aload (f : FmtX) : Encoded.Statement (.aload f) := by rintro _ ⟨⟩; exact Encoded.head_x _ f
theorem Encoded.adrain (f : FmtX) : Encoded.Statement (.adrain f) := by rintro _ ⟨⟩; exact Encoded.head_x _ f
theorem Encoded.mxOperation (x : _) : Encoded.Statement (.mxOperation x) := by rintro _ ⟨⟩
theorem Encoded.pass (f : FmtE) : Encoded.Statement (.pass f) := by rintro _ ⟨⟩; exact Encoded.head_e _ f
theorem Encoded.passOpen (x : _) : Encoded.Statement (.passOpen x) := by rintro _ ⟨⟩
theorem Encoded.seal (f : FmtE) : Encoded.Statement (.seal f) := by rintro _ ⟨⟩; exact Encoded.head_e _ f
theorem Encoded.sealCommit (x : _) : Encoded.Statement (.sealCommit x) := by rintro _ ⟨⟩
theorem Encoded.lres (f : FmtE) : Encoded.Statement (.lres f) := by rintro _ ⟨⟩; exact Encoded.head_e _ f
theorem Encoded.lhold (f : FmtE) : Encoded.Statement (.lhold f) := by rintro _ ⟨⟩; exact Encoded.head_e _ f
theorem Encoded.ldrop (f : FmtE) : Encoded.Statement (.ldrop f) := by rintro _ ⟨⟩; exact Encoded.head_e _ f
theorem Encoded.issueCycle (x : _) (y : _) : Encoded.Statement (.issueCycle x y) := by rintro _ ⟨⟩
theorem Encoded.storePathPerform (x : _) (y : _) : Encoded.Statement (.storePathPerform x y) := by rintro _ ⟨⟩
theorem Encoded.loadPerform (x : _) (y : _) (z : _) : Encoded.Statement (.loadPerform x y z) := by rintro _ ⟨⟩
theorem Encoded.acquireComplete (x : _) (y : _) (z : _) : Encoded.Statement (.acquireComplete x y z) := by rintro _ ⟨⟩
theorem Encoded.evict (x : _) (y : _) : Encoded.Statement (.evict x y) := by rintro _ ⟨⟩
theorem Encoded.engineCommandStart (x : _) : Encoded.Statement (.engineCommandStart x) := by rintro _ ⟨⟩
theorem Encoded.engineOperationComplete (x : _) : Encoded.Statement (.engineOperationComplete x) := by rintro _ ⟨⟩
theorem Encoded.copyOperation (x : _) (y : _) (z : _) (u : _) : Encoded.Statement (.copyOperation x y z u) := by rintro _ ⟨⟩
theorem Encoded.stampWrite (x : _) : Encoded.Statement (.stampWrite x) := by rintro _ ⟨⟩
theorem Encoded.fillIteration (x : _) (y : _) : Encoded.Statement (.fillIteration x y) := by rintro _ ⟨⟩
theorem Encoded.drainIteration (x : _) (y : _) : Encoded.Statement (.drainIteration x y) := by rintro _ ⟨⟩
theorem Encoded.channelProtectionStop (x : _) : Encoded.Statement (.channelProtectionStop x) := by rintro _ ⟨⟩
theorem Encoded.channelIdle (x : _) (y : _) : Encoded.Statement (.channelIdle x y) := by rintro _ ⟨⟩
theorem Encoded.monitorWake (x : _) (y : _) : Encoded.Statement (.monitorWake x y) := by rintro _ ⟨⟩
theorem Encoded.monwaitTimeout (x : _) (y : _) : Encoded.Statement (.monwaitTimeout x y) := by rintro _ ⟨⟩
theorem Encoded.crewRetire (x : _) (y : _) : Encoded.Statement (.crewRetire x y) := by rintro _ ⟨⟩
theorem Encoded.blockEnd (x : _) : Encoded.Statement (.blockEnd x) := by rintro _ ⟨⟩
theorem Encoded.gridComplete (x : _) : Encoded.Statement (.gridComplete x) := by rintro _ ⟨⟩
theorem Encoded.coneCycleExpiry (x : _) : Encoded.Statement (.coneCycleExpiry x) := by rintro _ ⟨⟩
theorem Encoded.coneEnergyExpiry (x : _) : Encoded.Statement (.coneEnergyExpiry x) := by rintro _ ⟨⟩
theorem Encoded.coneDeadlineExpiry (x : _) : Encoded.Statement (.coneDeadlineExpiry x) := by rintro _ ⟨⟩
theorem Encoded.cutArrival (x : _) (y : _) : Encoded.Statement (.cutArrival x y) := by rintro _ ⟨⟩
theorem Encoded.completionRecordWrite (x : _) : Encoded.Statement (.completionRecordWrite x) := by rintro _ ⟨⟩
theorem Encoded.blockPlace (x : _) : Encoded.Statement (.blockPlace x) := by rintro _ ⟨⟩
theorem Encoded.carveOutChange (x : _) (y : _) (z : _) : Encoded.Statement (.carveOutChange x y z) := by rintro _ ⟨⟩
theorem Encoded.switchFlagPressure (x : _) (y : _) : Encoded.Statement (.switchFlagPressure x y) := by rintro _ ⟨⟩
theorem Encoded.switchFlagIdle (x : _) : Encoded.Statement (.switchFlagIdle x) := by rintro _ ⟨⟩
theorem Encoded.switchFlagRestore (x : _) : Encoded.Statement (.switchFlagRestore x) := by rintro _ ⟨⟩
theorem Encoded.preemptionSave (x : _) : Encoded.Statement (.preemptionSave x) := by rintro _ ⟨⟩
theorem Encoded.blockRestore (x : _) (y : _) : Encoded.Statement (.blockRestore x y) := by rintro _ ⟨⟩
theorem Encoded.parkedBlockEvict (x : _) : Encoded.Statement (.parkedBlockEvict x) := by rintro _ ⟨⟩
theorem Encoded.lateFaultRollback (x : _) (y : _) : Encoded.Statement (.lateFaultRollback x y) := by rintro _ ⟨⟩
theorem Encoded.handlerEntry (x : _) (y : _) : Encoded.Statement (.handlerEntry x y) := by rintro _ ⟨⟩
theorem Encoded.waitCycleProbe (x : _) (y : _) : Encoded.Statement (.waitCycleProbe x y) := by rintro _ ⟨⟩
theorem Encoded.pageFaultRecord (x : _) : Encoded.Statement (.pageFaultRecord x) := by rintro _ ⟨⟩
theorem Encoded.faultServiceSave (x : _) : Encoded.Statement (.faultServiceSave x) := by rintro _ ⟨⟩
theorem Encoded.timingError (x : _) (y : _) (z : _) : Encoded.Statement (.timingError x y z) := by rintro _ ⟨⟩
theorem Encoded.parityError (x : _) (y : _) (z : _) (u : _) (v : _) : Encoded.Statement (.parityError x y z u v) := by rintro _ ⟨⟩
theorem Encoded.hbmUncorrectable (x : _) : Encoded.Statement (.hbmUncorrectable x) := by rintro _ ⟨⟩
theorem Encoded.mceRetire (x : _) (y : _) : Encoded.Statement (.mceRetire x y) := by rintro _ ⟨⟩
theorem Encoded.maskUnitWriteback (x : _) (y : _) : Encoded.Statement (.maskUnitWriteback x y) := by rintro _ ⟨⟩
theorem Encoded.packetRead (x : _) (y : _) : Encoded.Statement (.packetRead x y) := by rintro _ ⟨⟩
theorem Encoded.launch (x : _) : Encoded.Statement (.launch x) := by rintro _ ⟨⟩
theorem Encoded.graph (x : _) : Encoded.Statement (.graph x) := by rintro _ ⟨⟩
theorem Encoded.copyPacket (x : _) : Encoded.Statement (.copyPacket x) := by rintro _ ⟨⟩
theorem Encoded.signal (x : _) : Encoded.Statement (.signal x) := by rintro _ ⟨⟩
theorem Encoded.waitPacket (x : _) : Encoded.Statement (.waitPacket x) := by rintro _ ⟨⟩
theorem Encoded.waitPacketTimeout (x : _) : Encoded.Statement (.waitPacketTimeout x) := by rintro _ ⟨⟩
theorem Encoded.setdet (x : _) : Encoded.Statement (.setdet x) := by rintro _ ⟨⟩
theorem Encoded.poolset (x : _) : Encoded.Statement (.poolset x) := by rintro _ ⟨⟩
theorem Encoded.priorityAging (x : _) : Encoded.Statement (.priorityAging x) := by rintro _ ⟨⟩
theorem Encoded.kern (x : _) (y : _) : Encoded.Statement (.kern x y) := by rintro _ ⟨⟩
theorem Encoded.copyNode (x : _) (y : _) : Encoded.Statement (.copyNode x y) := by rintro _ ⟨⟩
theorem Encoded.loop (x : _) (y : _) : Encoded.Statement (.loop x y) := by rintro _ ⟨⟩
theorem Encoded.loopRunEnd (x : _) (y : _) : Encoded.Statement (.loopRunEnd x y) := by rintro _ ⟨⟩
theorem Encoded.cond (x : _) (y : _) : Encoded.Statement (.cond x y) := by rintro _ ⟨⟩
theorem Encoded.signalNode (x : _) (y : _) : Encoded.Statement (.signalNode x y) := by rintro _ ⟨⟩
theorem Encoded.waitNode (x : _) (y : _) : Encoded.Statement (.waitNode x y) := by rintro _ ⟨⟩
theorem Encoded.waitNodeTimeout (x : _) (y : _) : Encoded.Statement (.waitNodeTimeout x y) := by rintro _ ⟨⟩
theorem Encoded.doorbellWrite (x : _) (y : _) (z : _) : Encoded.Statement (.doorbellWrite x y z) := by rintro _ ⟨⟩
theorem Encoded.contextSlotWrite (x : _) (y : _) : Encoded.Statement (.contextSlotWrite x y) := by rintro _ ⟨⟩
theorem Encoded.frridxWrite (x : _) (y : _) : Encoded.Statement (.frridxWrite x y) := by rintro _ ⟨⟩
theorem Encoded.invctlInvalidate (x : _) (y : _) : Encoded.Statement (.invctlInvalidate x y) := by rintro _ ⟨⟩
theorem Encoded.invalidationDone (x : _) : Encoded.Statement (.invalidationDone x) := by rintro _ ⟨⟩
theorem Encoded.fwctlVerify (x : _) : Encoded.Statement (.fwctlVerify x) := by rintro _ ⟨⟩
theorem Encoded.firmwareVerifyDone  : Encoded.Statement (.firmwareVerifyDone ) := by rintro _ ⟨⟩
theorem Encoded.rstctlReset (x : _) : Encoded.Statement (.rstctlReset x) := by rintro _ ⟨⟩
theorem Encoded.fundamentalReset  : Encoded.Statement (.fundamentalReset ) := by rintro _ ⟨⟩
theorem Encoded.hotReset  : Encoded.Statement (.hotReset ) := by rintro _ ⟨⟩
theorem Encoded.functionLevelReset  : Encoded.Statement (.functionLevelReset ) := by rintro _ ⟨⟩
theorem Encoded.hostLinkUp  : Encoded.Statement (.hostLinkUp ) := by rintro _ ⟨⟩
theorem Encoded.routeEntryWrite (x : _) (y : _) : Encoded.Statement (.routeEntryWrite x y) := by rintro _ ⟨⟩
theorem Encoded.controlRegisterWrite (x : _) (y : _) : Encoded.Statement (.controlRegisterWrite x y) := by rintro _ ⟨⟩
theorem Encoded.hostCxlStore (x : _) (y : _) : Encoded.Statement (.hostCxlStore x y) := by rintro _ ⟨⟩
theorem Encoded.flitCrcRetry (x : _) (y : _) : Encoded.Statement (.flitCrcRetry x y) := by rintro _ ⟨⟩
theorem Encoded.laneDrop (x : _) (y : _) : Encoded.Statement (.laneDrop x y) := by rintro _ ⟨⟩
theorem Encoded.clockThrottle (x : _) : Encoded.Statement (.clockThrottle x) := by rintro _ ⟨⟩
theorem Encoded.getVersion  : Encoded.Statement (.getVersion ) := by rintro _ ⟨⟩
theorem Encoded.getCapabilities  : Encoded.Statement (.getCapabilities ) := by rintro _ ⟨⟩
theorem Encoded.negotiateAlgorithms (x : _) (y : _) : Encoded.Statement (.negotiateAlgorithms x y) := by rintro _ ⟨⟩
theorem Encoded.getDigests  : Encoded.Statement (.getDigests ) := by rintro _ ⟨⟩
theorem Encoded.getCertificate (x : _) (y : _) (z : _) : Encoded.Statement (.getCertificate x y z) := by rintro _ ⟨⟩
theorem Encoded.challenge (x : _) (y : _) : Encoded.Statement (.challenge x y) := by rintro _ ⟨⟩
theorem Encoded.getMeasurements (x : _) (y : _) (z : _) : Encoded.Statement (.getMeasurements x y z) := by rintro _ ⟨⟩
theorem Encoded.chunkSend (x : _) (y : _) (z : _) (u : _) : Encoded.Statement (.chunkSend x y z u) := by rintro _ ⟨⟩
theorem Encoded.chunkGet (x : _) (y : _) : Encoded.Statement (.chunkGet x y) := by rintro _ ⟨⟩
theorem Encoded.arithmeticClockRestore (x : _) : Encoded.Statement (.arithmeticClockRestore x) := by rintro _ ⟨⟩
theorem Encoded.firmwareStagingWindowWrite (x : _) (y : _) : Encoded.Statement (.firmwareStagingWindowWrite x y) := by rintro _ ⟨⟩

end Sys2Proof.Laws
end

