-- ==== Sys2Proof/Tests/Slice0.lean ====
section
/-! SUPPORT. Tests: words from the spec's encodings and what they decode to, ill-formed terms refused, one-step results
from the spec's rules and worked examples, and for every statement a state and operands that meet its hypotheses. -/

namespace Sys2Proof.Tests

set_option Elab.async false

open Sys2Proof Sys2Proof.Machine Sys2Proof.Claims

/-! ## Instructions with every field zero, and the guard of an unguarded one -/

def on : Guard := ⟨false, 15⟩
def zA : FmtA := ⟨on, 0, 0, 0, .f64, 0, 0, .f64, .v 0, false, .v 0, false, .v 0, false, .v 0⟩
def zB : FmtB := ⟨on, 0, 0, 0, .f64, 0, .v 0, false, .v 0⟩
def zM : FmtM := ⟨on, 0, false, 0, 0, 0, 0, 0, 0, .v 0, false, .v 0, false, .v 0, false, .v 0⟩
def zE : FmtE := ⟨on, 0, 0, 0, 0, 0, 0, 0, .v 0, false, .v 0, false, .v 0, false, .v 0⟩
def zC : FmtC := ⟨on, 0, 0, .v 0, false, .v 0⟩
def zG : FmtG := ⟨on, 0, 0, 0⟩
def zS : FmtS := ⟨on, 0, 0, 0, 0, .v 0, false, .v 0⟩
def zX : FmtX := ⟨on, 0, 0, .f64, 0, 0, 0, 0, 0, false, false, 0, .v 0, false, .v 0, false, .v 0, false, .v 0⟩

/-! ## Decoding: the opcode maps of R189 with `GP` 15 and every other field zero -/

/-- Consecutive opcodes from `n` decode to the given instructions. -/
def fromRow (n : Nat) (is : List Instr) : Bool :=
  match is with
  | [] => true
  | i :: is => (match decode (BitVec.ofNat 96 (0x3C00 + n)) with | .ok j => decide (j = i) | .error _ => false) && fromRow (n + 1) is

theorem test_decode_class0_a : fromRow 0x001 [.iadd zA, .isub zA, .imul zA, .imulh zA, .imad zA, .idiv zA, .irem zA,
    .imin zA, .imax zA, .iabs zA, .ineg zA, .land zA, .lor zA, .lxor zA, .lnot zA, .shl zA, .shr zA, .sra zA,
    .rotl zA, .bfx zA, .bfi zA, .popc zA, .clz zA, .brev zA, .icmp zA, .sel zA, .mov zA, .lea zA, .iaddi zB, .movi zB,
    .icmpi zB, .andi zB, .ori zB, .xori zB] = true := by decide

theorem test_decode_class1 : fromRow 0x081 [.pand zA, .por zA, .pxor zA, .pnot zA, .p2s zA, .s2p zA, .shfl zA, .voteAll zA,
    .matchAny zA, .redux zA, .scan zA, .elect zA, .regacq zA, .regrel zA, .fectlTest zA] = true := by decide

theorem test_decode_class2 : fromRow 0x101 [.fadd zA, .fsub zA, .fmul zA, .ffma zA, .fmin zA, .fmax zA, .fsgn zA, .fcmp zA,
    .fclass zA, .fdiv zA, .fsqrt zA, .fex2 zA, .flg2 zA, .frcpa zA, .frsqa zA] = true := by decide

theorem test_decode_class3 : fromRow 0x181 [.cvt zA, .pack zA, .unpack zA, .bquant zA, .rand zA, .split zA, .sample zA,
    .topk zA, .gmbind zA, .gmstep zA, .gmfetch zA, .gmstkSpill zA] = true := by decide

theorem test_decode_class4 : fromRow 0x201 [.ld zM, .st zM, .atom zM, .red zM] = true := by decide

theorem test_decode_class5 : fromRow 0x281 [.copy zE, .copyc zE, .streamF zE, .srelF zE, .gather zE, .waitcnt zE,
    .monarm zE, .monwait zE, .bar zE, .cset zE, .trigger zE] = true ∧
    fromRow 0x28D [.task zE, .dqpost zE, .dqtake zE, .dqsteal zE, .qsubmit zE, .pooltake zE, .poolgive zE, .coll zE] =
      true := by decide

theorem test_decode_class6 : fromRow 0x301 [.bra zC, .brx zC, .call zC, .callx zC, .ret zC, .exit zC, .region zG,
    .switchpt zS, .trap zS, .trapret zS, .sread zS, .swrite zS, .brk zS, .nop zC] = true := by decide

theorem test_decode_class7 : fromRow 0x381 [.shape zA, .fmtwin zA, .mma zX, .aclr zX, .aload zX, .adrain zX, .pass zE,
    .seal zE, .lres zE, .lhold zE, .ldrop zE] = true := by decide

/-- Does a word decode to the instruction? -/
def reads (w : Code) (i : Instr) : Bool :=
  match decode w with
  | .ok j => decide (j = i)
  | .error _ => false

/-- The mnemonics that one opcode shares, told apart by `SUB` (bits from 81 in format A, from 87 in format E) or `ORD` (R190, R217, R218,
R225, R243, R254, R258, R265, R266). -/
theorem test_decode_selectors :
    ([(0x088, 1, .voteAny { zA with sub := 1 }), (0x088, 2, .voteUni { zA with sub := 2 }),
      (0x088, 3, .voteBallot { zA with sub := 3 }), (0x089, 1, .matchAll { zA with sub := 1 }),
      (0x08F, 1, .fectlWait { zA with sub := 1 }), (0x08F, 2, .fectlCancel { zA with sub := 2 }),
      (0x18C, 1, .gmstkFill { zA with sub := 1 }), (0x18C, 2, .gmstkRd { zA with sub := 2 }),
      (0x283, 64, .streamD { zE with sub := 1 }), (0x284, 64, .srelD { zE with sub := 1 }),
      (0x28C, 64, .waitDep { zE with sub := 1 }), (0x28D, 64, .taskDone { zE with sub := 1 })] :
      List (Nat × Nat × Instr)).all (fun e => reads (BitVec.ofNat 96 (0x3C00 + e.1 + e.2.1 * 2 ^ 81)) e.2.2) = true := by
  decide

/-- `ORD` (bits 88:87) names the fence; 0 is no fence (R190). -/
theorem test_decode_fences :
    reads (BitVec.ofNat 96 (0x3E05 + 1 * 2 ^ 87)) (.fenceAcq { zM with ord := 1 }) = true ∧
    reads (BitVec.ofNat 96 (0x3E05 + 2 * 2 ^ 87)) (.fenceRel { zM with ord := 2 }) = true ∧
    reads (BitVec.ofNat 96 (0x3E05 + 3 * 2 ^ 87)) (.fenceAr { zM with ord := 3 }) = true ∧
    decode 0x3E05 = .error .selector := by decide

/-! ## Decoding: words that the spec writes out, with all their fields -/

/-- 13_isa_integer: `icmp.lt.i32 v4, 16, p2`; `match.any.n32 v9, v8`; `iaddi.i64 v6, v6, -1024`; `regacq.x1.x2`. -/
theorem test_words_integer :
    reads 0x000410001800_7A0010003C19#96 (.icmp { zA with sub := 2, pd := 2, ty := .i32, a := .v 4, b := .const 16 }) = true ∧
    reads 0x000078002800_00002004BC89#96 (.matchAny { zA with pd := 15, ty := .n32, a := .v 8, d := .v 9 }) = true ∧
    reads 0x0001E07FFFFFC00018033C1D#96 (.iaddi { zB with pd := 15, ty := .i64, imm := -1024, a := .v 6, d := .v 6 }) = true ∧
    reads 0x000678000000000000003C8D#96 (.regacq { zA with sub := 3, pd := 15 }) = true := by decide

/-- 14_isa_float: `cvt.bin8p4se.f32.rne.sat v5, v4`; `sample.int.f32 s4, v20, p3`; `topk.k4.f32.n32 v10, v8, v9`. -/
theorem test_words_float :
    reads 0x00007828B00000001002BD81#96
      (.cvt { zA with sat := 1, pd := 15, ty := .b8 false true 4, ty2 := .f32, a := .v 4, d := .v 5 }) = true ∧
    reads 0x000218000400000050823D87#96 (.sample { zA with sub := 1, pd := 3, ty := .f32, a := .v 20, d := .s 4 }) = true ∧
    reads 0x000879400400012020053D88#96
      (.topk { zA with sub := 4, pd := 15, ty := .f32, ty2 := .n32, a := .v 8, b := .v 9, d := .v 10 }) = true := by decide

/-- 15_isa_memory: `ld.acq.g.b64 v8, [s2 + 16]`; `red.add.sp.b32 [v4], v5`; `monwait.ge s6, s7, 0, p1`; `bar.core c5`. -/
theorem test_words_memory :
    reads 0x308000004000000408043E01#96 (.ld { zM with w := 3, ord := 1, ofs := 16, a := .s 2, d := .v 8 }) = true ∧
    reads 0x20040000000000A010003E04#96 (.red { zM with w := 2, sp := 1, a := .v 4, b := .v 5 }) = true ∧
    reads 0x0002000003C020E418003E88#96 (.monwait { zE with pd := 1, a := .s 6, b := .s 7, c := .const 0 }) = true ∧
    reads 0x001E00081400000000003E89#96 (.bar { zE with pd := 15, scp := 1, cv := 5 }) = true := by decide

/-- 16_isa_control: `call s10, func` (7 slots ahead); `sread s5, CLOCK`; `seal s7`; `mma acc2, s4, s5, s6, sig=c3`;
`trapret`. 11_encoding: `region ws=0x1, li=0x1, bay=0x0`. 12_assembly: `sread v6, DCTR, fx=1`; `st.rel.b64 [s4 + 8], v6`. -/
theorem test_words_control :
    reads 0x000000000000007000853F03#96 (.call { zC with offs := 7, d := .s 10 }) = true ∧
    reads 0x00000000000002000082BF0B#96 (.sread { zS with srn := 0x20, d := .s 5 }) = true ∧
    reads 0x001E0000000000041C003F88#96 (.seal { zE with pd := 15, a := .s 7 }) = true ∧
    reads 0x000000080D0620A411813F83#96
      (.mma { zX with sg := true, cv := 3, a := .s 4, b := .s 5, c := .s 6, d := .acc 2 }) = true ∧
    reads 0x000000000000000000003F0A#96 (.trapret zS) = true ∧
    reads 0x00000000000080000000BF07#96 (.region { zG with ws := 1, li := 1 }) = true ∧
    reads 0x000000000000418000033F0B#96 (.sread { zS with fx := 1, srn := 0x18, d := .v 6 }) = true ∧
    reads 0x31000000200000C410003E02#96 (.st { zM with w := 3, ord := 2, ofs := 8, a := .s 4, b := .v 6 }) = true := by
  decide

/-- 17, 19: `?p5 ffma.na.f32.rne v6, v4, v5, 1`; `lres s8, s4, 0, p2`; `mma.bq0 acc0, s20, s21, s22, sig=c1`;
`adrain.dbyp.relu.bin8p4se.rne.sat acc0, sig=c1`; `switchpt 1`; `?p1 stream.f s1, s4`. -/
theorem test_words_programs :
    reads 0x0002780007C100A010031504#96
      (.ffma { zA with g := ⟨false, 5⟩, sub := 1, pd := 15, ty := .f32, a := .v 4, b := .v 5, c := .const 1, d := .v 6 }) = true ∧
    reads 0x000400000000780410843F89#96 (.lres { zE with pd := 2, a := .s 4, b := .const 0, d := .s 8 }) = true ∧
    reads 0x00000408051622A451803F83#96
      (.mma { zX with spb := 4, sg := true, cv := 1, a := .s 20, b := .s 21, c := .s 22, d := .acc 0 }) = true ∧
    reads 0x459100080400000001803F86#96
      (.adrain { zX with sat := 1, ty := .b8 false true 4, dst := 2, act := 1, sg := true, cv := 1, d := .acc 0 }) = true ∧
    reads 0x000000000001000000003F08#96 (.switchpt { zS with imm16 := 1 }) = true ∧
    reads 0x001E00000000208404000683#96
      (.streamF { zE with g := ⟨false, 1⟩, pd := 15, a := .s 1, b := .s 4 }) = true := by decide

/-- Opcode 0 and an unlisted one (R189), a reserved bit (R180: bit 95), a reserved format code (R84), an operand number
that names nothing (R174: `s64`), and a selector without a meaning (R190). -/
theorem test_decode_refuses :
    decode 0 = .error .opcode ∧ decode 0x023 = .error .opcode ∧
    decode (BitVec.ofNat 96 (0x3C1D + 2 ^ 95)) = .error .reserved ∧
    decode (BitVec.ofNat 96 (0x3C01 + 0x0C * 2 ^ 58)) = .error .format ∧
    decode (BitVec.ofNat 96 (0x3C01 + 0x140 * 2 ^ 26)) = .error .operand ∧
    decode (BitVec.ofNat 96 (0x3C88 + 4 * 2 ^ 81)) = .error .selector := by decide

/-- 11_encoding, "A line, encoded": its line word is 0x0F00_0081, and slot 0 is its only target. -/
theorem test_line :
    let line := makeLine [0x00000000000080000000BF07#96, 0x000078001800002000013C01#96, 0x00007800040500800801BD04#96,
      0x000000000000000000003F0E#96, 0x0000000FFFFFFFC000000701#96] 1 4
    lineWord line = 0x0F000081 ∧ lineWordOk line = true ∧ slotOk line 2 = true ∧ slotTarget line 0 = true ∧
      slotTarget line 4 = false ∧ slotOk (line ^^^ 2 ^ 192) 2 = false := by
  decide +kernel

/-! ## Well-formed terms, and ill-formed ones refused -/

/-- Three vector sources and a vector destination of a type. -/
def vA (ty : Fmt) : FmtA := { zA with pd := 15, ty := ty, a := .v 0, b := .v 2, d := .v 4 }
/-- One vector source. -/
def vA1 (ty : Fmt) : FmtA := { zA with pd := 15, ty := ty, a := .v 2, d := .v 4 }
/-- An address in `v2` and data in `v4`. -/
def vM : FmtM := { zM with w := 2, a := .v 2, b := .v 4 }
def vE : FmtE := { zE with pd := 15 }

def goodInteger : List Instr :=
  [.iadd (vA .i32), .isub (vA .n8), .imul (vA .i64), .imulh (vA .n32), .imad (vA .i32), .idiv (vA .i32), .irem (vA .n64),
   .imin (vA .i16), .imax (vA .i32), .iabs (vA1 .i8), .ineg (vA1 .i32)]
def goodLogic : List Instr :=
  [.land (vA .i32), .lor (vA .i64), .lxor (vA .n32), .lnot (vA1 .n64), .shl (vA .i32), .shr (vA .i64), .sra (vA .i32),
   .rotl (vA .n32), .popc (vA1 .i32), .clz (vA1 .i64), .brev (vA1 .n32)]
def goodFields : List Instr := [.bfx (vA .i32), .bfi { vA .n64 with c := .v 6 }]
def goodCompare : List Instr :=
  [.icmp { zA with pd := 1, ty := .i32, a := .v 0, b := .v 1 }, .icmp { zA with pd := 1, sub := 0x1D, ty := .n64, a := .v 0, b := .v 2, c := .p 3 },
   .sel { vA .f32 with c := .p 1 }, .mov (vA1 .i32), .mov { vA1 .i64 with a := .const 5, d := .s 4 },
   .lea { vA .n64 with ty2 := .i32, sub := 6 }, .iaddi { zB with pd := 15, ty := .i32, imm := 5, a := .v 2, d := .v 4 },
   .movi { zB with pd := 15, ty := .f32, imm := 5, d := .v 4 }, .movi { zB with pd := 15, sub := 1, ty := .n64, imm := 5, d := .v 4 },
   .icmpi { zB with pd := 2, sub := 5, ty := .i64, imm := 5, a := .v 2 }, .andi { zB with pd := 15, ty := .i32, a := .v 2, d := .v 4 },
   .ori { zB with pd := 15, ty := .n32, a := .s 2, d := .s 4 }, .xori { zB with pd := 15, ty := .i64, a := .v 2, d := .v 4 }]
def goodVotes : List Instr :=
  let p2 : FmtA := { zA with pd := 15, sub := 3, a := .p 1, b := .p 2, d := .p 3 }
  let p1 : FmtA := { zA with pd := 15, a := .p 1, d := .p 3 }
  [.pand p2, .por p2, .pxor p2, .pnot p1, .p2s { p1 with d := .s 4 }, .s2p { p1 with a := .s 4 },
   .voteAll { zA with pd := 1, a := .p 1 }, .voteAny { zA with sub := 1, pd := 1, a := .p 1 },
   .voteUni { zA with sub := 2, pd := 1, a := .p 1 }, .voteBallot { zA with sub := 3, pd := 15, a := .p 1, d := .s 4 }]
def goodLanes : List Instr :=
  [.shfl { vA .i32 with sub := 0x17, pd := 2 }, .matchAny (vA1 .n32), .matchAll { vA1 .f64 with sub := 1, pd := 3 },
   .elect { zA with pd := 3, d := .s 4 }, .redux { vA1 .i32 with sub := 5, d := .s 4 }, .redux { vA1 .f32 with rnd := 4, d := .s 4 },
   .scan { vA1 .n64 with sub := 8 }, .scan { vA1 .f16 with sub := 1 }]
def goodBlocks : List Instr :=
  [.regacq { zA with sub := 1, pd := 15 }, .regrel { zA with sub := 7, pd := 15 }, .fectlTest { zA with pd := 1, a := .v 9 },
   .fectlWait { zA with sub := 1, pd := 15, a := .v 9 }, .fectlCancel { zA with sub := 2, pd := 1, a := .v 9 }]
def goodFloat : List Instr :=
  [.fadd (vA .f32), .fsub { vA .f64 with rnd := 3 }, .fmul { vA .f16 with rnd := 5, fx := 0 }, .ffma { vA .f32 with sub := 3, c := .v 6 },
   .fmin { vA .f32 with sub := 1 }, .fmax (vA .f64), .fsgn { vA .f32 with sub := 3 }, .fclass (vA1 .f32),
   .fcmp { zA with sub := 0x25, pd := 1, ty := .f32, a := .v 0, b := .v 2 }, .fdiv (vA .f32), .fsqrt (vA1 .f64), .fex2 (vA1 .f32),
   .flg2 (vA1 .f16), .frcpa (vA1 .f32), .frsqa (vA1 .bf16)]
def goodConvert : List Instr :=
  [.cvt { vA1 .i8 with ty2 := .f32 }, .cvt { vA1 (.b8 false true 4) with ty2 := .f32, sat := 1 },
   .pack { vA (.b8 false true 3) with ty2 := .f32, sat := 1 }, .pack { vA .i16 with ty2 := .i32 },
   .unpack { vA1 .f32 with ty2 := .bf16, sub := 1 }, .unpack { vA .f16 with ty2 := .i8, sub := 5 },
   .bquant { vA1 .i8 with ty2 := .f32, sub := 1 }]
def goodDraws : List Instr :=
  [.rand { zA with pd := 15, d := .v 4 }, .rand { zA with pd := 15, sub := 6, b := .s 2, d := .v 4 },
   .split { zA with pd := 15, d := .v 4 }, .split { zA with pd := 15, sub := 4, b := .s 2, d := .s 4 },
   .sample { zA with ty := .f32, pd := 1, a := .v 2, b := .v 3, d := .s 4 },
   .topk { vA .f32 with ty2 := .n32, sub := 32 }]
def goodMask : List Instr :=
  [.gmbind { zA with pd := 15, a := .s 2 }, .gmstep { zA with pd := 1, a := .s 2, b := .s 3 },
   .gmfetch { zA with pd := 1, a := .s 2, b := .s 3, c := .s 4, d := .v 4 }, .gmstkSpill { zA with pd := 15, a := .s 2, d := .s 4 },
   .gmstkFill { zA with sub := 1, pd := 15, a := .s 2, b := .s 3 }, .gmstkRd { zA with sub := 2, pd := 15, a := .s 2, d := .s 4 }]
def goodMemory : List Instr :=
  [.ld { vM with b := .v 0, d := .v 4 }, .ld { vM with w := 4, ord := 1, a := .s 2, b := .v 0, d := .v 4 },
   .ld { vM with w := 1, fm := true, b := .v 0, d := .v 4 }, .st vM, .st { vM with w := 4, sp := 1, ord := 2 },
   .atom { vM with aop := 9, ord := 3, c := .v 6, d := .v 8 }, .red { vM with aop := 12, sp := 1 },
   .fenceAcq { zM with w := 2, ord := 1 }, .fenceRel { zM with w := 2, ord := 2 }, .fenceAr { zM with w := 2, ord := 3 }]
def goodEngines : List Instr :=
  [.copy { vE with sub := 1, a := .s 0, b := .s 2, c := .const 16 }, .copyc { vE with sub := 1, cv := 3, a := .s 0, b := .s 2, c := .const 16 },
   .streamF { vE with a := .s 0, b := .const 0 }, .streamD { vE with sub := 1, a := .s 0, b := .const 0 }, .srelF vE,
   .srelD { vE with sub := 1 }, .gather { vE with sub := 6, a := .v 2, b := .s 2 }, .waitcnt { vE with cls := 4, imm8 := 3 }]
def goodSync : List Instr :=
  [.monarm { vE with a := .s 2 }, .monwait { zE with pd := 1, sub := 1, a := .s 2, b := .const 1, c := .const 0 },
   .bar { vE with scp := 1 }, .bar { vE with scp := 5, sub := 1, b := .s 2 }, .cset { vE with a := .const 1 }, .trigger vE,
   .waitDep { vE with sub := 1 }]
def goodTasks : List Instr :=
  [.task { vE with a := .v 2 }, .taskDone { vE with sub := 1, a := .v 2 }, .dqpost { zE with pd := 1, a := .v 2 },
   .dqtake { zE with pd := 1, d := .v 2 }, .dqsteal { zE with pd := 1, b := .const 1, d := .v 2 },
   .qsubmit { vE with a := .const 1, b := .const 1 }, .pooltake { zE with pd := 1, a := .const 1, d := .v 2 },
   .poolgive { vE with a := .const 1, b := .v 2 }, .coll { vE with sub := 6, a := .s 2 }]
def goodControl : List Instr :=
  [.bra zC, .brx { zC with a := .v 2 }, .call { zC with d := .s 2 }, .callx { zC with a := .s 2, d := .v 2 }, .ret { zC with a := .s 2 },
   .exit zC, .nop zC, .region { zG with ws := 0xF, li := 1, bay := 1 }, .trap { zS with imm16 := 9 }, .brk { zS with imm16 := 9 },
   .sread { zS with d := .v 2 }, .swrite { zS with srn := 0x18, a := .v 2 }]
/-- `trapret` in a handler and `switchpt` outside one only (R178, R275). -/
def goodLeave : List Instr := [.trapret { zS with sub := 1 }, .switchpt { zS with imm16 := 63 }]
def goodMatrix : List Instr :=
  [.shape { zA with pd := 15, a := .s 2, d := .s 4 }, .fmtwin { zA with pd := 15, sub := 15, a := .s 2, b := .s 3 },
   .mma { zX with kc := 16, spb := 4, a := .s 2, b := .s 3, c := .const 0, d := .acc 1 }, .aclr { zX with d := .acc 1 },
   .aload { zX with a := .s 2, c := .s 3, d := .acc 1 },
   .adrain { zX with ty := .f32, act := 3, a := .s 2, b := .s 3, c := .s 4, d := .acc 1 },
   .adrain { zX with ty := .f32, dst := 1, a := .acc 1, c := .s 4, d := .v 8 }, .adrain { zX with ty := .f32, dst := 2, d := .acc 1 }]
def goodLadder : List Instr :=
  [.pass { vE with a := .s 2 }, .seal { vE with a := .const 3 }, .lres { zE with pd := 1, a := .s 2, b := .const 0, d := .s 4 },
   .lhold { zE with pd := 1, a := .s 2, b := .const 0, d := .s 4 }, .ldrop { zE with pd := 1, a := .s 2, b := .const 0, c := .const 1, d := .s 4 }]

def good : List Instr :=
  goodInteger ++ goodLogic ++ goodFields ++ goodCompare ++ goodVotes ++ goodLanes ++ goodBlocks ++ goodFloat ++ goodConvert ++
  goodDraws ++ goodMask ++ goodMemory ++ goodEngines ++ goodSync ++ goodTasks ++ goodControl ++ goodLeave ++ goodMatrix ++ goodLadder

theorem test_wf_good : good.all (fun i => i.wf && (match encode i with | some w => reads w i | none => false)) = true := by
  decide +kernel

/-- One broken field a check: operand kind, register alignment, a `p` source, a uniform destination of vector sources,
F/E on a uniform source, `TY`, `SUB`, an unused field, `PD`, `RND`, `TY2`, `FX`, `SAT`, an inexact constant, a format without
a code (R10, R84, R174–R177, R201, R226, R228). -/
theorem test_wf_register_forms :
    ([.iadd { vA .i32 with a := .acc 1 }, .iadd { vA .i64 with a := .v 1 }, .iadd { vA .i64 with d := .v 5 },
      .iadd { vA .i32 with b := .p 1 }, .iadd { vA .i32 with d := .s 1 }, .iadd { vA .i32 with a := .s 1, fa := true },
      .iadd (vA .f32), .iadd { vA .i32 with sub := 2 }, .iadd { vA .i32 with c := .v 1 }, .iadd { vA .i32 with pd := 0 },
      .iadd { vA .i32 with rnd := 1 }, .iadd { vA .i32 with ty2 := .f32 }, .iadd { vA .i32 with fx := 1 },
      .iadd { vA .i32 with sat := 1 }, .iabs (vA1 .n32), .imulh { vA .i32 with sub := 1 }, .imad { vA .i8 with c := .v 6 },
      .shl { vA .i32 with b := .acc 0 }, .bfi { vA .i16 with c := .v 6 }, .icmp { zA with pd := 1, sub := 6, ty := .i32 },
      .icmp { zA with pd := 1, ty := .i32, d := .v 1 }, .icmp { zA with pd := 1, sub := 8, ty := .i32 }, .sel { vA .i32 with c := .v 6 },
      .sel { vA .i32 with a := .s 1, b := .s 2, c := .p 1, d := .s 3 }, .mov { vA1 .i64 with d := .wq 1 },
      .lea { vA .n32 with ty2 := .i32 }, .lea { vA .n64 with ty2 := .i32, sub := 7 },
      .iaddi { zB with pd := 15, ty := .i16, a := .v 2 }, .movi { zB with pd := 15, sub := 1, ty := .n32 }, .movi { zB with pd := 15, ty := .i32, a := .v 1 },
      .icmpi { zB with pd := 2, sub := 6, ty := .i32 }, .andi { zB with pd := 15, rnd := 1, ty := .i32 },
      .pand { zA with pd := 15, a := .v 1, b := .p 2, d := .p 3 }, .shfl { vA .i32 with sub := 24 }, .voteAll { zA with pd := 1, a := .p 1, d := .p 2 },
      .matchAny { vA1 .i32 with pd := 1 }, .redux { vA1 .f32 with sub := 3, d := .s 4 }, .redux { vA1 .i32 with rnd := 1, d := .s 4 }, .scan { vA1 .i32 with d := .s 4 },
      .elect { zA with d := .v 4 }, .regacq { zA with pd := 15 }, .fectlTest { zA with pd := 1, a := .v 9, fa := true },
      .fadd { vA .f32 with rnd := 6 }, .fadd { vA .f32 with fx := 1 }, .fadd { vA .f32 with a := .s 0, b := .s 2, rnd := 5, d := .s 4 },
      .fadd { vA .i32 with pd := 15 }, .fadd { vA (.b8 false true 4) with sat := 1 }, .fsgn { vA .f32 with sub := 0 }, .fcmp { zA with sub := 0x40, pd := 1, ty := .f32 },
      .fex2 (vA1 .f64), .cvt { vA1 .f32 with ty2 := .f32, sub := 1 }, .cvt { vA1 (.b8 false true 4) with ty2 := .f32 }, .cvt { vA1 .i8 with ty2 := .f32, sub := 4 },
      .pack { vA .f16 with ty2 := .f64 }, .unpack { vA1 .f32 with ty2 := .f16, sub := 2 }, .bquant { vA1 .i8 with ty2 := .f64 },
      .rand { zA with pd := 15, sub := 2, d := .v 2 }, .rand { zA with pd := 15, sub := 4, b := .s 3, d := .v 4 }, .split { zA with pd := 15, sub := 1, d := .v 4 },
      .sample { zA with ty := .f32, pd := 1, a := .v 2, d := .v 4 }, .topk { vA .f32 with ty2 := .n32, sub := 33 }, .gmbind { zA with pd := 15, a := .v 2 },
      .gmstep { zA with pd := 1, a := .s 2, b := .v 3 }, .gmfetch { zA with pd := 1, a := .s 2, b := .s 3, d := .v 4 }, .gmstkRd { zA with sub := 2, pd := 15, a := .s 2 },
      .shape { zA with pd := 15, a := .v 2, d := .s 4 }, .fmtwin { zA with pd := 15, sub := 16, a := .s 2, b := .s 3 },
      .iadd { vA (.b8 false true 0) with sub := 0 }] : List Instr).all (fun i => !i.wf) = true := by decide +kernel

/-- The same for the forms of memory, engines, control and the matrix unit (R181–R186, R244–R246, R255–R270, R272, R281,
R291, R295). -/
theorem test_wf_other_forms :
    ([.ld { vM with w := 5, b := .v 0 }, .ld { vM with sp := 4, b := .v 0 }, .ld { vM with pol := 3, b := .v 0 }, .ld { vM with sp := 1, pol := 1, b := .v 0 },
      .ld { vM with qn := 1, b := .v 0 }, .ld { vM with a := .v 3, b := .v 0 }, .ld { vM with w := 4, a := .s 2, b := .v 0, d := .s 2 }, .ld { vM with ord := 2, b := .v 0 },
      .ld { vM with w := 0, fm := true, b := .v 0 }, .ld vM, .st { vM with ord := 1 }, .st { vM with d := .v 1 }, .st { vM with aop := 1 }, .atom { vM with w := 1 },
      .atom { vM with aop := 13 }, .atom { vM with c := .v 1 }, .atom { vM with sp := 3 }, .red { vM with aop := 8 }, .red { vM with ord := 1 },
      .fenceAcq { zM with ord := 1 }, .fenceRel { zM with w := 2, ord := 2, a := .v 1 }, .copy { vE with sub := 2, a := .s 0, b := .s 2 },
      .copy { vE with sub := 64, a := .s 1, b := .s 2, c := .s 4 }, .copy { vE with cv := 1, a := .s 0, b := .s 2 }, .copyc { vE with imm8 := 1, a := .s 0, b := .s 2 },
      .streamF { vE with a := .v 2 }, .srelF { vE with a := .v 1 }, .gather { vE with sub := 8, a := .v 2, b := .s 2 }, .waitcnt { vE with cls := 5 },
      .monarm { vE with imm8 := 2, a := .s 2 }, .monwait { zE with sub := 3, a := .s 2, b := .const 1, c := .const 0 }, .bar { vE with scp := 0 }, .bar { vE with scp := 6 },
      .bar { vE with scp := 1, b := .s 2 }, .cset { vE with a := .v 1 }, .trigger { vE with sub := 1 }, .waitDep vE, .task { vE with imm8 := 2, a := .v 2 },
      .taskDone { vE with sub := 1, a := .const 1 }, .dqpost { zE with pd := 1, a := .s 2 }, .dqtake { zE with pd := 1, d := .s 2 }, .dqsteal { zE with pd := 1, b := .v 1, d := .v 2 },
      .qsubmit { vE with a := .v 1 }, .pooltake { zE with pd := 1, a := .const 1, d := .v 3 }, .poolgive { vE with a := .const 1, b := .s 2 }, .coll { vE with sub := 7, a := .s 2 },
      .bra { zC with a := .v 1 }, .brx { zC with offs := 1, a := .v 2 }, .call { zC with d := .p 1 }, .callx { zC with a := .v 3, d := .s 2 }, .ret { zC with d := .v 1 },
      .exit { zC with sub := 1 }, .nop { zC with offs := 1 }, .region { zG with g := ⟨false, 0⟩ }, .region { zG with ws := 0x1F }, .switchpt { zS with imm16 := 64 },
      .switchpt { zS with g := ⟨true, 15⟩ }, .trap { zS with sub := 1 }, .brk { zS with a := .v 1 }, .trapret { zS with sub := 2 }, .sread { zS with srn := 0x40, d := .v 2 },
      .sread { zS with srn := 0x01, d := .v 2 }, .sread { zS with fx := 1, d := .v 2 }, .swrite { zS with srn := 0x20, a := .s 2 }, .mma { zX with kc := 17, a := .s 2, b := .s 3, c := .s 4, d := .acc 1 },
      .mma { zX with spa := 1, a := .s 2, b := .s 3, c := .s 4, d := .acc 1 }, .mma { zX with cv := 1, a := .s 2, b := .s 3, c := .s 4, d := .acc 1 }, .aclr { zX with sg := true, d := .acc 1 },
      .aload { zX with a := .v 2, c := .s 3, d := .acc 1 }, .adrain { zX with ty := .f32, dst := 3, d := .acc 1 }, .adrain { zX with ty := .f32, act := 4, dst := 2, d := .acc 1 },
      .adrain { zX with ty := .f32, dst := 1, sg := true, a := .acc 1, c := .s 4, d := .v 8 }, .pass { vE with a := .v 2 }, .seal { vE with scp := 1, a := .s 2 },
      .lres { zE with pd := 1, a := .s 2, b := .const 0, d := .s 5 }, .lhold { zE with pd := 1, a := .s 2, b := .const 0, c := .const 1, d := .s 4 },
      .ldrop { zE with pd := 1, a := .s 2, b := .v 1, c := .const 1, d := .s 4 }] : List Instr).all (fun i => !i.wf) = true := by decide +kernel

/-! ## A machine with one crew, and the instructions that nothing holds back on it -/

def cx0 : Ctx := ⟨64, 0x1000, 0, 0x5000, 0x7000, 0, false, false, false⟩
/-- Page tables that map the first GiB onto itself, and further little-endian values. -/
def memWith (ws : List (Nat × Nat × Nat)) : Memory :=
  ([(0x1000, 8, 0x2001), (0x2000, 8, 0x3001), (0x3000, 8, 0x1F)] ++ ws).foldl (fun (m : Memory) (e : Nat × Nat × Nat) => m.write e.1 (leBytes e.2.1 e.2.2)) ⟨[], []⟩
/-- One context, one grid, one block of one crew on core 0, all its threads at slot 0 of the line 0x10000. -/
def probe : State := { State.reset with
  mem := memWith []
  ctxs := [(0, cx0)]
  grids := [(0, probeGrid ⟨[], []⟩)]
  nextGrid := 1
  blocks := [(0, Block.at_ 0 0 0 0 (List.range 16) [(0, Crew.at_ 0x10000 1 0 0 1 0 none)] ⟨[], []⟩)]
  nextBlock := 1
  path := ⟨0, 0, BitVec.allOnes 32, 0x10000, false, false⟩ }

/-- The issuing path, when nothing holds the instruction back. -/
def readyPath (s : State) (i : Instr) : Option Cx :=
  match Cx.of s i.body.guard with
  | none => none
  | some x =>
    if legal i && !handlerUnd x.cr i && decide (x.act ≠ 0) && (namedV x.cr i).all x.cr.holds &&
      (!waitsForOlder i || !x.cr.checksDue) && !feTraps x.cr i x.acts && operandsReady x.cr i x.acts &&
      decide (foldIndex i < x.fold) then some x else none

theorem ready_of {s : State} {i : Instr} {x : Cx} (h : readyPath s i = some x) : Ready i s x := by
  unfold readyPath at h
  split at h
  · cases h
  · rename_i y hy
    split at h
    · rename_i hc
      cases h
      simp only [Bool.and_eq_true, Bool.or_eq_true, Bool.not_eq_true', decide_eq_true_eq] at hc
      obtain ⟨⟨⟨⟨⟨⟨⟨h1, h2⟩, h3⟩, h4⟩, h5⟩, h6⟩, h7⟩, h8⟩ := hc
      exact ⟨hy, h1, h2, h3, h4, fun hw => h5.resolve_left (by simp [hw]), h6, h7, h8⟩
    · cases h

def readyAll (s : State) (is : List Instr) : Bool := is.all (fun i => (readyPath s i).isSome)

/-- Every instruction of a list that is ready meets the hypothesis of its statements. -/
theorem ready_list {s : State} {is : List Instr} (h : readyAll s is = true) : ∀ i ∈ is, ∃ x, Ready i s x := by
  intro i hi
  obtain ⟨x, hx⟩ := Option.isSome_iff_exists.1 (List.all_eq_true.1 h i hi)
  exact ⟨x, ready_of hx⟩

theorem test_ready_class0 : ∀ i ∈ goodInteger ++ goodLogic ++ goodFields ++ goodCompare, ∃ x, Ready i probe x :=
  ready_list (by decide +kernel)
theorem test_ready_class1 : ∀ i ∈ goodVotes ++ goodLanes ++ goodBlocks, ∃ x, Ready i probe x := ready_list (by decide +kernel)
theorem test_ready_class2_3 : ∀ i ∈ goodFloat ++ goodConvert ++ goodDraws ++ goodMask, ∃ x, Ready i probe x :=
  ready_list (by decide +kernel)
theorem test_ready_class4_5 : ∀ i ∈ goodMemory ++ goodEngines ++ goodSync ++ goodTasks, ∃ x, Ready i probe x :=
  ready_list (by decide +kernel)
theorem test_ready_class6_7 : ∀ i ∈ goodControl ++ goodMatrix ++ goodLadder, ∃ x, Ready i probe x := ready_list (by decide +kernel)

/-- Ready, and the path, crew, block and grid meet a condition. -/
def met (s : State) (i : Instr) (p : Cx → Bool) : Bool :=
  match readyPath s i with
  | some x => p x
  | none => false

theorem met_spec {s : State} {i : Instr} {p : Cx → Bool} (h : met s i p = true) : ∃ x, Ready i s x ∧ p x = true := by
  unfold met at h
  split at h
  · exact ⟨_, ready_of ‹_›, h⟩
  · cases h

/-- The probe with its crew, its block, its grid or its core changed, or with values in memory. -/
def crewed (f : Crew → Crew) : State := probe.updCrew 0 0 f
def blocked (f : Block → Block) : State := probe.updBlock 0 f
def gridded (f : Grid → Grid) : State := { probe with grids := [(0, f (probeGrid ⟨[], []⟩))] }
def cored (f : Core → Core) : State := probe.setCore 0 (f (probe.core 0))
def stored (ws : List (Nat × Nat × Nat)) : State := { probe with mem := memWith ws }
/-- Values in uniform registers `s2`, `s3`, … -/
def uni (vs : List Nat) (c : Crew) : Crew := { c with s := vs.zipIdx.map (fun e => (e.2 + 2, BitVec.ofNat 64 e.1)) }

/-! ## Hypotheses that are met: lanes, blocks of registers and full/empty bits -/

/-- ExtendedBlocks: a block is free; the crew holds it already; another crew waits; none is free. -/
theorem test_met_regacq :
    met probe (.regacq { zA with sub := 1, pd := 15 }) (fun x =>
      (x.s.core x.blk.core).acqWait.isEmpty && decide (1 ≤ freeBlocks x.s x.blk.core)) = true ∧
    met (crewed (fun c => { c with xheld := 1 })) (.regacq { zA with sub := 1, pd := 15 }) (fun x => (1#3 &&& ~~~x.cr.xheld) == 0) = true ∧
    met (cored (fun k => { k with acqWait := [(0, 5, 1)] })) (.regacq { zA with sub := 4, pd := 15 }) (fun x =>
      (4#3 &&& ~~~x.cr.xheld) != 0 && !(x.s.core x.blk.core).acqWait.isEmpty) = true := by decide +kernel

/-- ExtendedBlocks: the crew that has waited longest may have its blocks. -/
theorem test_met_regacqGrant :
    let s := (crewed (fun c => { c with threads := c.threads.map (fun t => (t.1, { t.2 with wait := some (.regacq 7) })) })).setCore 0
      { Core.reset with acqWait := [(0, 0, 7), (0, 0, 1)] }
    (s.core 0).acqWait = [(0, 0, 7), (0, 0, 1)] ∧ (s.crew? 0 0).any (fun c => c.acquiring 7 == BitVec.allOnes 32 && c.acquiring 1 == 0) = true ∧
    3 ≤ freeBlocks s 0 := by decide +kernel

/-- FullEmptyControl: all lanes full; lane 31 empty; lane 31 waits at a queue, or its register for another producer. -/
theorem test_met_fectl :
    met probe (.fectlWait { zA with sub := 1, pd := 15, a := .v 9 }) (fun x => x.acts.all (fun l => !x.cr.isEmpty 9 l)) = true ∧
    met (crewed (fun c => { c with empty := [(Crew.key 9 31, 1)] })) (.fectlWait { zA with sub := 1, pd := 15, a := .v 9 })
      (fun x => x.acts.contains 31 && x.cr.isEmpty 9 31) = true ∧
    met ((crewed (fun c => { c with empty := [(Crew.key 9 31, 1)] })).setCore 0
        { Core.reset with wqs := [(3, ⟨[], some 0, [(0, 0, ⟨true, 9, 1, 31, 1⟩)]⟩)] }) (.fectlCancel { zA with sub := 2, pd := 1, a := .v 9 })
      (fun x => x.cr.isEmpty 9 31 && (wqOf x.s x.blk.core 3).pops == [(0, 0, ⟨true, 9, 1, 31, 1⟩)] &&
        x.cr.empty.find? (Crew.key 9 31) == some 1) = true ∧
    met ((crewed (fun c => { c with empty := [(Crew.key 9 31, 2)] })).setCore 0
        { Core.reset with wqs := [(3, ⟨[], some 0, [(0, 0, ⟨true, 9, 1, 31, 1⟩)]⟩)] }) (.fectlCancel { zA with sub := 2, pd := 1, a := .v 9 })
      (fun x => x.cr.isEmpty 9 31 && (wqOf x.s x.blk.core 3).pops.all (fun p => p.2.2.tag != 2)) = true := by decide +kernel

/-! ## The Mask Unit -/

def okB {α β : Type} (e : Except α β) (p : β → Bool) : Bool :=
  match e with
  | .ok b => p b
  | .error _ => false

/-- A record at 0x8000 with two states, two classes and a vocabulary of 600; its tables of 8-byte entries at 0x9000 and
0xA000, its classes at 0xB000 and its masks at 0xC000; its stream resident in quad 0 with the given depth and spill. -/
def gmState (e t depth spill : Nat) : State :=
  { crewed (uni [0x8000, 1, 0x30]) with
    mem := memWith [(0x8000, 8, 0x9000), (0x8008, 8, 0xA000), (0x8010, 8, 0xB000), (0x8018, 8, 0xC000), (0x8020, 8, 2 + 2 * 65536 + 600 * 2 ^ 32),
      (0x9000, 8, e), (0xA000, 8, t)]
    quads := [(0, { Quad.reset with streams := [⟨0x8000, 0, 0x8000, 0, depth, spill, [7, 0, 0, 0, 0, 0, 0, 7], []⟩] })] }

/-- `GmAt`, and the record, the stream and the state that the translation leaves. -/
def gmAt (x : Cx) (p : GmRec → GmStream → State → Bool) : Bool :=
  x.cr.storePath.isEmpty && decide (x.uni (.s 2) % 64 = 0) && okB (physOf x.s x.g.ctx (x.uni (.s 2)) .read) (fun r =>
    match gmRecord x.s.mem r.1, gmWhere x.s r.1 with
    | some rec_, some (q, g) => decide (q = maskQuad x.s x.blk.core) && p rec_ g r.2 &&
        okB (physOf r.2 x.g.ctx (x.uni (.s 2)) .write) (fun w => p rec_ g w.2)
    | _, _ => false)

/-- MaskUnit: binding; a step for each action (0 to 3), the pop of a full and of an empty stack among them. -/
theorem test_met_gmstep :
    met (gmState 0 0 0 0) (.gmbind { zA with pd := 15, a := .s 2 }) (fun x => gmAt x (fun _ _ _ => true)) = true ∧
    ([(0, 0, 0), (1, 7, 0), (2, 0, 0), (2, 8, 0), (2, 1, 5), (3, 8, 9)] : List (Nat × Nat × Nat)).all (fun e =>
      met (gmState 0 (e.1 * 2 ^ 40 + 7 * 2 ^ 32 + 1) e.2.1 e.2.2) (.gmstep { zA with pd := 1, a := .s 2, b := .s 3 }) (fun x =>
        gmAt x (fun r g s1 => decide (x.uni (.s 3) < r.vocab) &&
          okB (fetchNat s1 x.g.ctx (r.cmap + 2 * x.uni (.s 3)) 2) (fun c => decide (c.1 < r.nclass) &&
            okB (fetchNat c.2 x.g.ctx (r.ttab + 8 * (g.state * r.nclass + c.1)) 8) (fun t =>
              (gmTrans t.1 r.nstate).any (fun t => t.act == e.1 && !(t.act == 1 && g.depth == 8) &&
                !(t.act == 2 && g.depth == 0 && decide (0 < g.spill)))))))) = true := by decide +kernel

/-- MaskUnit: the last chunk of the vocabulary, forced and not; spill and fill at the ends of their ranges. -/
theorem test_met_gmfetch :
    ([0, 1, 1 + 5 * 2 ^ 32] : List Nat).all (fun e =>
      met (gmState e 0 0 0) (.gmfetch { zA with pd := 1, a := .s 2, b := .s 3, c := .s 4, d := .v 4 }) (fun x =>
        gmAt x (fun r g s1 => decide (512 * x.uni (.s 3) < r.vocab) && okB (fetchNat s1 x.g.ctx (r.stab + 8 * g.state) 8) (fun e =>
          bits e.1 50 14 == 0 && bits e.1 20 12 == 0 &&
          okB (fetchNat e.2 x.g.ctx (r.mstore + 64 * (g.state * ceilDiv r.vocab 512 + x.uni (.s 3))) 64) (fun _ => true))))) = true ∧
    met (gmState 0 0 1 65534) (.gmstkSpill { zA with pd := 15, a := .s 2, d := .s 4 }) (fun x =>
      gmAt x (fun _ g _ => decide (0 < g.depth) && decide (g.spill < 65535))) = true ∧
    met (gmState 0 0 7 1) (.gmstkFill { zA with sub := 1, pd := 15, a := .s 2, b := .s 4 }) (fun x =>
      gmAt x (fun _ g _ => decide (x.uni (.s 4) < 256) && decide (g.depth ≠ 8) && decide (0 < g.spill))) = true ∧
    (streamAt (gmState 0 0 3 0) 0 0x8000).isSome = true := by decide +kernel

/-! ## Memory -/

/-- The accesses of a memory instruction's lanes are all in order. -/
def accOk (x : Cx) (f : FmtM) (lanes : List Nat) (acc : Acc) (align : Nat) (p : List LaneAcc → State → Bool) : Bool :=
  okB (accessLanes x lanes f.sp.toNat f.qn.toNat (formAddr x f) acc align) (fun r => p r.1 r.2)

/-- AccessChecks: an address past the canonical ones, one past the scratchpad's end, one misaligned, and the last that
fits. -/
theorem test_met_access :
    met (crewed (uni [2 ^ 56])) (.st { vM with w := 3, a := .s 2 }) (fun x => !canonical (formAddr x { vM with a := .s 2 } 0).toNat) = true ∧
    met (crewed (uni [16 * bayBytes 384 - 4])) (.st { vM with sp := 1, a := .s 2 }) (fun x =>
      accOk x { vM with sp := 1, a := .s 2 } x.acts .write 4 (fun _ _ => true) &&
      (localPlace x 1 0 (16 * bayBytes 384)).isNone) = true ∧
    met (crewed (uni [2])) (.st { vM with w := 2, a := .s 2 }) (fun x => decide ((formAddr x { vM with a := .s 2 } 0).toNat % 4 ≠ 0)) = true := by
  decide +kernel

/-- AccessChecks: an address with no translation; a write into the launch's ladder header, and one into a slot that the block
has not open; a floating-point atomic of a grid that must repeat, and a `red` for which the Serial Phase Buffer has no room. -/
theorem test_met_access_traps :
    let l : Ladder := ⟨0x8000, 0x20000, 0x1000, 2, 2, false⟩
    let sealed := fun (a : Nat) => { gridded (fun g => { g with ladder := some l }) with blocks := (crewed (uni [a])).blocks }
    let calmB := fun (x : Cx) => x.cr.trap.isNone && x.cr.handler.isNone && x.cr.late.isNone && !x.late
    met (crewed (uni [0x40000000])) (.st { vM with a := .s 2 }) (fun x => calmB x &&
      (match translate x.s x.g.ctx 0x40000000 .write with | .pf => true | _ => false)) = true ∧
    ([(0x8000, true), (0x8010, true), (0x804C, true), (0x8050, false), (0x20000, true), (0x21FFC, true), (0x24000, false)] :
      List (Nat × Bool)).all (fun e => met (sealed e.1) (.st { vM with a := .s 2 }) (fun x => calmB x &&
        accOk x { vM with a := .s 2 } x.acts .write 4 (fun as _ => (sealLane x { vM with a := .s 2 } as).isSome == e.2))) = true ∧
    met (gridded (fun g => { g with level := 1 })) (.atom { vM with aop := 10, d := .v 8 }) (fun x => calmB x &&
      accOk x { vM with aop := 10, d := .v 8 } x.acts .write 4 (fun as _ => (sealLane x vM as).isNone && decide (1 ≤ x.g.level))) = true ∧
    met { gridded (fun g => { g with level := 1 }) with
        blocks := (blocked (fun k => { k with spb := List.replicate 2047 ⟨0, 0, 0, 0, 10, 2⟩ })).blocks } (.red { vM with sp := 1, aop := 10 })
      (fun x => calmB x && accOk x { vM with sp := 1, aop := 10 } x.acts .write 4 (fun as _ =>
        (as[2048 - x.blk.spb.length]?).isSome && decide (2048 < x.blk.spb.length + as.length))) = true := by decide +kernel

/-- MemoryIssue: a load of 16 bytes with `.acq`, one to a uniform register, a converting load, a store under no seal, an
atomic with its value returned, and a floating-point `red` in a scratchpad below and at level 1. -/
theorem test_met_memory :
    met probe (.ld { vM with w := 4, ord := 1, b := .v 0, d := .v 4 }) (fun x =>
      accOk x { vM with w := 4, ord := 1, b := .v 0, d := .v 4 } (memLanes x (.v 4)) .read 16 (fun _ _ => true)) = true ∧
    met probe (.ld { vM with w := 3, a := .s 2, b := .v 0, d := .s 4 }) (fun x =>
      accOk x { vM with w := 3, a := .s 2, b := .v 0, d := .s 4 } (memLanes x (.s 4)) .read 8 (fun as _ => as.length == 1)) = true ∧
    met probe (.ld { vM with fm := true, b := .v 0, d := .v 4 }) (fun x =>
      (accessTrap x x.acts 0 0 (formAddr x { vM with fm := true, b := .v 0, d := .v 4 }) 1).isNone &&
        okB (fmtPlans x { vM with fm := true, b := .v 0, d := .v 4 } 4 (formAddr x { vM with fm := true, b := .v 0, d := .v 4 }) x.acts x.s)
          (fun r => (fmtTrap 4 r.1).isNone)) = true ∧
    met probe (.st { vM with ord := 2 }) (fun x => accOk x { vM with ord := 2 } x.acts .write 4 (fun as s1 =>
      (sealLane x { vM with ord := 2 } as).isNone && !as.any (fun a => isRemote s1 a.place))) = true ∧
    met probe (.atom { vM with aop := 12, ord := 3, d := .v 8 }) (fun x =>
      accOk x { vM with aop := 12, ord := 3, d := .v 8 } x.acts .write 4 (fun as _ => (sealLane x vM as).isNone && x.g.level == 0)) = true ∧
    met probe (.red { vM with sp := 1, aop := 12 }) (fun x =>
      accOk x { vM with sp := 1, aop := 12 } x.acts .write 4 (fun as _ => (sealLane x vM as).isNone && x.g.level == 0)) = true ∧
    met (gridded (fun g => { g with level := 1 })) (.red { vM with sp := 1, aop := 10 }) (fun x =>
      accOk x { vM with sp := 1, aop := 10 } x.acts .write 4 (fun as _ => decide (1 ≤ x.g.level) && decide (x.blk.spb.length + as.length ≤ 2048))) = true := by
  decide +kernel

/-- A crew with a Store Path. -/
def path (es : List SpEntry) : State := crewed (fun c => { c with storePath := es })
/-- Its next state under STORE_PATH_PERFORM meets a condition. -/
def nextIs (o : Host.Outcome State Fault Refusal) (p : State → Bool) : Bool :=
  match o with
  | .next t => p t
  | _ => false

/-- StorePathPerform and MemoryCanonical: a store at the last byte of the GiB; every atomic of R251; a marker with nothing
older, and one with an older load. -/
theorem test_met_storePath :
    nextIs (exec (.storePathPerform 0 0) (path [.store 1 (.g 0x3FFFFFFF) [0x5A#8] 0x3FFFFFFF 1#32])) (fun t =>
      t.memoryOk && t.mem.read 0x3FFFFFFE 3 == [0x00#8, 0x5A#8, 0x00#8] && (t.crew? 0 0).map (·.storePath) == some []) = true ∧
    nextIs (exec (.storePathPerform 0 0) (path [.marker 1 .none])) (fun t => t == probe) = true ∧
    (let s := crewed (fun c => { c with storePath := [.marker 2 .none], loads := [⟨1, .g 0, 4, 0, .raw, ⟨true, 4, 1, 0, 1⟩, 0, 1#32 <<< 0⟩] })
     nextIs (exec (.storePathPerform 0 0) s) (fun t => t == s) = true) := by decide +kernel

/-- R251 on 32 bits, old 0xFFFFFFFE and operand 3, 1.0 and 2.5 for the floating-point ones: what memory then holds. -/
theorem test_atomics :
    ([(0, 0xFFFFFFFE, 3, 1), (1, 0xFFFFFFFE, 3, 0xFFFFFFFE), (2, 0xFFFFFFFE, 3, 3), (3, 0xFFFFFFFE, 3, 3), (4, 0xFFFFFFFE, 3, 0xFFFFFFFE),
      (5, 0xFFFFFFFE, 3, 2), (6, 0xFFFFFFFE, 3, 0xFFFFFFFF), (7, 0xFFFFFFFE, 3, 0xFFFFFFFD), (8, 0xFFFFFFFE, 3, 3), (9, 9, 3, 3), (9, 8, 3, 8),
      (10, 0x3F800000, 0x40200000, 0x40600000), (11, 0x3F800000, 0x40200000, 0x3F800000), (12, 0x3F800000, 0x40200000, 0x40200000)] :
      List (Nat × Nat × Nat × Nat)).all (fun e =>
      nextIs (exec (.storePathPerform 0 0) { path [.atomic 1 (.g 0x8000) 4 e.1 (BitVec.ofNat 64 e.2.2.1) 9 none 0x8000 1#32] with mem := memWith [(0x8000, 4, e.2.1)] })
        (fun t => t.mem.nat 0x8000 4 == e.2.2.2 && t.memoryOk)) = true := by decide +kernel

/-- LoadPerform: a load with nothing older takes each byte from the crew's own older store or from memory; one waits
behind an older acquire. -/
theorem test_met_load :
    let l : Load := ⟨2, .g 0x8000, 4, 0, .raw, ⟨true, 4, 1, 31, 2⟩, 0x8000, 1#32 <<< 31⟩
    let s := { crewed (fun c => { c with loads := [l], storePath := [.store 1 (.g 0x8003) [0xAA#8] 0x8003 0x80000000#32], empty := [(Crew.key 4 31, 2)] }) with
      mem := memWith [(0x8000, 4, 0x04030201)] }
    ((s.crew? 0 0).map (fun c => loadReady c l)) = some true ∧
    nextIs (exec (.loadPerform 0 0 0) s) (fun t => (t.crew? 0 0).map (fun c => (c.getV 4 31, c.isEmpty 4 31)) == some (0xAA030201#32, false)) = true ∧
    ((crewed (fun c => { c with loads := [l], acqs := [⟨1, false⟩] })).crew? 0 0).map (fun c => loadReady c l) = some false := by
  decide +kernel

/-- LoadPerform: `bin8p4se` 0x44 (1.5) of an element under scale 129 decodes to 3.0 in `f32`; an older load of the scale byte
holds it back; a result of another unit. -/
theorem test_met_load_fmt :
    let l : Load := ⟨2, .g 0x8000, 1, 0, .fmt (.b8 false true 4) .f32 (some (.g 0x8010, 0, 0x8010)), ⟨true, 4, 1, 31, 2⟩, 0x8000, 1#32 <<< 31⟩
    let s := fun (more : List Load) => { crewed (fun c => { c with loads := l :: more, empty := [(Crew.key 4 31, 2)], returns := [⟨⟨true, 4, 1, 31, 2⟩, 7⟩] }) with
      mem := memWith [(0x8000, 1, 0x44), (0x8010, 1, 129)] }
    let gives := fun (idx v : Nat) => nextIs (exec (.loadPerform 0 0 idx) (s [])) (fun t =>
      (t.crew? 0 0).map (fun c => ((c.getV 4 31).toNat, c.isEmpty 4 31)) == some (v, false))
    gives 0 0x40400000 = true ∧ gives 1 7 = true ∧
    nextIs (exec (.loadPerform 0 0 0) (s [⟨1, .g 0x8010, 4, 0, .raw, ⟨true, 5, 1, 31, 1⟩, 0x8010, 1#32 <<< 31⟩])) (fun t => t.crew? 0 0 == (s [⟨1, .g 0x8010, 4, 0, .raw, ⟨true, 5, 1, 31, 1⟩, 0x8010, 1#32 <<< 31⟩]).crew? 0 0) = true := by
  decide +kernel

/-- FencesAndAcquires: an acquire that may complete, with a Read Copy of a word that is owned and of one that is not. -/
theorem test_met_acquire :
    let s := { crewed (fun c => { c with acqs := [⟨1, false⟩] }) with
      owners := [(0x10, ownerId probe 0)], copies := [(0, [(0x10, ⟨1, ⟨0, 0⟩⟩), (0x11, ⟨2, ⟨0, 0⟩⟩)])] }
    (s.crew? 0 0).map (fun c => acqReady c ⟨1, false⟩) = some true ∧
    nextIs (exec (.acquireComplete 0 0 0) s) (fun t => (t.copies.getD 0 []).map Prod.fst == [0x10]) = true ∧
    (0 : Nat) ≠ registryId := by decide +kernel

/-! ## Engines, copies and streams -/

/-- The probe with a second crew in its block. -/
def twoCrews (f : Block → Block) : State := blocked (fun k => f { k with crews := k.crews ++ [(1, Crew.at_ 0x10000 1 0 1 2 1 none)] })
/-- An operation of crew 0 that has been issued. -/
def op (id cls seq : Nat) (kind : EngKind) (started : Bool) : EngOp :=
  { id := id, cls := cls, blk := 0, issuers := [(0, seq)], pkt := none, lanes := 1, kind := kind, ready := true, started := started,
    moved := [], stamped := false, fault := none, pf := none, done := false, engine := 0 }

/-- CopyIssue: `copy`, with a stamp too; the first and the last arrival of a `copyc`; `gather` and its scatter form;
`waitcnt` with nothing outstanding, with a younger operation, and with an older one. -/
theorem test_met_copy :
    met probe (.copy { vE with sub := 1, a := .s 2, b := .s 4, c := .const 16 }) (fun x =>
      (copyTrap x { vE with sub := 1, a := .s 2, b := .s 4, c := .const 16 }).isNone) = true ∧
    met (crewed (uni [0, 8, 64, 0, 16, 1])) (.copy { vE with sub := 64, a := .s 2, b := .s 4, c := .s 6 }) (fun x =>
      (copyTrap x { vE with sub := 64, a := .s 2, b := .s 4, c := .s 6 }).isNone) = true ∧
    (let f : FmtE := { vE with sub := 1, cv := 511, a := .s 2, b := .s 4, c := .const 16 }
     met (twoCrews (fun k => { k with convs := [(511, { Conv.reset with cset := some 3 })] })) (.copyc f) (fun x =>
      (copyTrap x f).isNone && decide (511 < slotBudget x.s x.blk) && (x.blk.conv 511).cset == some 3 && (x.blk.conv 511).copies.isEmpty &&
      (x.blk.conv 511).copyFields.isNone && (x.blk.conv 511).copyOp.isNone && awaited x.blk 3 [x.c] == [1])) = true ∧
    (let f : FmtE := { vE with sub := 1, cv := 3, a := .s 2, b := .s 4, c := .const 16 }
     met { twoCrews (fun k => { k with convs := [(3, { Conv.reset with
          cset := some 3, copyFields := some (1, 0), copies := [⟨1, 1, 0, 0, 16, none⟩], copyOp := some 9 })] }) with
        ops := [op 9 0 1 (.copy [] none) false] } (.copyc f) (fun x =>
      (copyTrap x f).isNone && decide (3 < slotBudget x.s x.blk) && (x.blk.conv 3).copyFields == some (f.sub.toNat, f.imm8.toNat) &&
      (op? x.s 9).isSome && awaited x.blk 3 [1, x.c] == [])) = true := by decide +kernel

theorem test_met_gather :
    ([2, 6] : List (BitVec 8)).all (fun sub => met (crewed (uni [16 * bayBytes 384 - 128])) (.gather { vE with sub := sub, a := .v 2, b := .s 2 }) (fun x =>
      x.acts.all (fun l => decide (x.val (.v 2) 2 l (fun c => wrapTo 64 c.toInt) % 4 = 0) && decide ((x.uni (.s 2) + l * 4) % 4 = 0) &&
        decide (x.uni (.s 2) + l * 4 + 4 ≤ x.blk.bays.length * bayBytes (x.s.core x.blk.core).split)) && x.g.ladder.isNone)) = true ∧
    met probe (.waitcnt { vE with cls := 4, imm8 := 0 }) (fun x => (outstanding x.s x.b x.c 4).isEmpty && x.cr.faults.isEmpty &&
      x.cr.threads.all (fun t => t.2.wait.isNone)) = true ∧
    met { crewed (fun c => { c with seq := 5, issued := [(0, [9, 8])] }) with ops := [op 9 0 5 (.copy [] none) false] }
      (.waitcnt { vE with cls := 0, imm8 := 1 }) (fun x => outstanding x.s x.b x.c 0 == [9] && ((x.cr.issued.getD 0 []).take 1).contains 9) = true ∧
    met { crewed (fun c => { c with seq := 5, issued := [(0, [9])] }) with ops := [op 9 0 5 (.copy [] none) false] }
      (.waitcnt { vE with cls := 0, imm8 := 0 }) (fun x => outstanding x.s x.b x.c 0 == [9] && !((x.cr.issued.getD 0 []).take 0).contains 9) = true := by
  decide +kernel

/-- 04_engines, the worked record: fields from their values; the ring takes 67,584 bytes and a stage 16,896. -/
theorem test_layout :
    let n := 0x600000 + 4096 * 2 ^ 64 + 1024 * 2 ^ 96 + 2 ^ 128 + 2 ^ 160 + 2 ^ 192 + 256 * 2 ^ 224 + 64 * 2 ^ 360 + 2 ^ 368 + 2 ^ 376 + 2 ^ 384 +
      0x40 * 2 ^ 392 + 0x08 * 2 ^ 400 + 0x34 * 2 ^ 408 + 66 * 2 ^ 432 + 16 * 2 ^ 448 + 0x100 * 2 ^ 480
    (layoutOf n).map (fun l => (l.box, l.win, l.nstg, l.nstg * l.stgsz, l.elemBytes, l.boxCount)) =
      some ([256, 64, 1, 1, 1], 3, 4, 67584, 16384, 256) := by decide +kernel

/-- A record of one box of 16 bytes at 0x9000 in raw format, in two stages of 256 bytes. -/
def recMem : List (Nat × Nat × Nat) :=
  [(0x8000, 8, 0x9000), (0x8008, 8, 16 + 2 ^ 32), (0x8010, 8, 1 + 2 ^ 32), (0x8018, 8, 1), (0x802C, 8, 16 + 2 ^ 8 + 2 ^ 16 + 2 ^ 24 + 2 ^ 32 + 0xC0 * 2 ^ 40 + 4 * 2 ^ 48 + 2 * 2 ^ 56),
    (0x8034, 4, 2 ^ 16), (0x8038, 8, 1 + 2 ^ 40), (0x9000, 8, 0x1122334455667788)]
def rec0 : Layout := ((layoutOf ((memWith recMem).nat 0x8000 64))).getD ⟨0, [], [], [], false, false, 0, 0, 0, 0, 0, 0, 0, 0, 0, 0⟩
/-- A channel of operation 9 on it. -/
def chan (moved released handed : Nat) (stopped : Bool) : Channel :=
  { op := 9, blk := 0, rec_ := 0x8000, start := 0, lay := rec0, fmt := none, moved := moved, released := released, handed := handed, ptr := 0,
    stopped := stopped, done := false }
def streaming (fill drain : Option Channel) (f : Crew → Crew) : State :=
  { (crewed f).setCore 0 { Core.reset with split := 384, fill := fill, drain := drain } with
    mem := memWith recMem, ops := [op 9 1 1 (.stream 0 0) true] }

/-- StreamIssue: both directions; `srel` of a delivered stage and of the stage before the last one. -/
theorem test_met_stream :
    ([.streamF { vE with a := .s 2, b := .const 0 }, .streamD { vE with sub := 1, a := .s 2, b := .const 0 }] : List Instr).all (fun i =>
      met { crewed (uni [0x8000]) with mem := memWith recMem } i (fun x => decide (x.uni (.s 2) % 64 = 0) && (chanOf (x.s.core 0) 0).isNone &&
        (chanOf (x.s.core 0) 1).isNone && x.cr.storePath.isEmpty && x.g.ladder.isNone && okB (fetchNat x.s x.g.ctx (x.uni (.s 2)) 64) (fun r =>
          (layoutOf r.1).any (fun l => okB (selectFormat r.2 x.g.ctx l) (fun b => (inForce l b.1).any (fun inf =>
            layoutFits b.2 x.blk l inf && l.setwin && inf.entry.isNone)))))) = true ∧
    met (streaming (some (chan 1 0 0 false)) none id) (.srelF vE) (fun x => (chanOf (x.s.core 0) 0).any (fun ch =>
      ch.blk == x.b && decide (ch.released + pendingRel x.blk 0 < ch.lay.iter) && decide (ch.released + pendingRel x.blk 0 < ch.moved))) = true ∧
    met (streaming none (some (chan 0 0 0 false)) id) (.srelD { vE with sub := 1 }) (fun x => (chanOf (x.s.core 0) 1).any (fun ch =>
      ch.blk == x.b && decide (ch.handed + pendingRel x.blk 1 < ch.lay.iter) && decide (ch.handed + pendingRel x.blk 1 < ch.moved + ch.lay.nstg))) = true ∧
    nextIs (exec (.storePathPerform 0 0) (streaming (some (chan 1 0 0 false)) none (fun c => { c with storePath := [.marker 1 (.srel 0)] })))
      (fun t => (chanOf (t.core 0) 0).map (·.released) == some 1) = true := by decide +kernel

/-- ChannelSteps: a fill moves its first 8 bytes; a drain its last; an iteration past the last box is passed over; a
stopped channel whose operation is done is idle. -/
theorem test_met_channel :
    nextIs (exec (.fillIteration 0 7) (streaming (some (chan 0 0 0 false)) none id)) (fun t =>
      (chanOf (t.core 0) 0).map (·.ptr) == some 8 && (bayPlace t (Block.at_ 0 0 0 0 (List.range 16) [] ⟨[], []⟩) 0).any (fun p =>
        leNat (readPlace t p 8) == 0x1122334455667788)) = true ∧
    nextIs (exec (.drainIteration 0 15) (streaming none (some (chan 0 0 1 false)) id)) (fun t =>
      (chanOf (t.core 0) 1).map (fun c => (c.moved, c.ptr)) == some (1, 0) && t.mem.nat 0x9000 8 == 0) = true ∧
    nextIs (exec (.fillIteration 0 0) (streaming (some { chan 0 0 0 false with start := 1 }) none id)) (fun t =>
      (chanOf (t.core 0) 0).map (·.moved) == some 1) = true ∧
    nextIs (exec (.channelIdle 0 0) { streaming (some (chan 1 0 0 true)) none id with ops := [] }) (fun t =>
      (chanOf (t.core 0) 0).isNone && (lastChan (t.core 0) 0).any (·.done)) = true := by decide +kernel

/-- EngineProgress: a command starts; a copy moves its last part; a gather its lane; the stamp follows; a faulted
operation is dropped and noted. -/
theorem test_met_engine :
    let seg : Seg := ⟨0, 0x9100, 0, 0x9000, 8⟩
    let base : State := { probe with mem := memWith recMem }
    let with_ := fun (o : EngOp) => { base with ops := [o] }
    let c := EngKind.copy [seg] (some (0, 0x9200, 77))
    nextIs (exec (.engineCommandStart 9) (with_ (op 9 0 1 c false))) (fun t => (op? t 9).any (·.started)) = true ∧
    nextIs (exec (.copyOperation 9 0 4 4) (with_ { op 9 0 1 c true with moved := [(0, 0, 4)] })) (fun t =>
      t.mem.nat 0x9104 4 == 0x11223344 && t.mem.nat 0x9100 4 == 0 && (op? t 9).any (fun o => o.moved.length == 2)) = true ∧
    nextIs (exec (.stampWrite 9) (with_ { op 9 0 1 c true with moved := [(0, 0, 8)] })) (fun t => t.mem.nat 0x9200 8 == 77) = true ∧
    nextIs (exec (.engineOperationComplete 9) (with_ { op 9 0 1 c true with moved := [(0, 0, 8)], stamped := true })) (fun t =>
      (outstanding t 0 0 0).isEmpty) = true ∧
    nextIs (exec (.copyOperation 9 31 0 1) (with_ (op 9 3 1 (.gather false 2 0 [(31, 0x9004)]) true))) (fun t =>
      (bayPlace t (Block.at_ 0 0 0 0 (List.range 16) [] ⟨[], []⟩) 124).any (fun p => leNat (readPlace t p 4) == 0x11223344)) = true ∧
    nextIs (exec (.channelProtectionStop 9) (with_ { op 9 0 1 c true with fault := some (0x9100, 1) })) (fun t =>
      (t.crew? 0 0).map (·.faults) == some [⟨9, 1, 0, 0x9100, 1⟩]) = true := by decide +kernel

/-! ## Barriers, dependent kernels, monitors -/

/-- BarrierIssue: the last core barrier of the budget; a named barrier of the die with its count; a `cset` of crew 0. -/
theorem test_met_bar :
    met probe (.bar { vE with scp := 1, cv := 511 }) (fun x => decide (511 < slotBudget x.s x.blk) && (x.blk.conv 511).sig.isNone &&
      (x.blk.conv 511).copies.isEmpty) = true ∧
    met (gridded (fun g => { g with dieB := 1 })) (.bar { vE with scp := 3, sub := 1, b := .const 1 }) (fun x =>
      decide (0 < barAlloc x.g 3) && decide (0 < x.uni (.const 1)) && (barInst x.s x.blk.grid 3 (barUnit 3 x.blk.core) 0).count.isNone) = true ∧
    met probe (.cset { vE with cv := 7, a := .const 1 }) (fun x => decide (7 < slotBudget x.s x.blk) && decide (0 < x.uni (.const 1)) &&
      decide (x.uni (.const 1) < 2 ^ ((x.variant.map (·.crews)).getD 0)) && (x.blk.conv 7).sig.isNone && (x.blk.conv 7).copies.isEmpty &&
      (x.blk.conv 7).barArrived.isEmpty && x.blk.crews.all (fun e => e.2.storePath.isEmpty)) = true ∧
    nextIs (exec (.bar { vE with scp := 1, cv := 2 }) probe) (fun t => (t.crew? 0 0).map (·.storePath) == some [.marker 1 (.bar 1 2 0)] &&
      (t.crew? 0 0).any (fun c => (c.thread? 31).any (fun th => th.wait == some (.bar 1 2 1 none) && th.bars == [(1, 2, 1, none)] && th.pc == 0x10000))) = true := by decide +kernel

/-- BarrierCompletion: with a second crew missing nobody goes on; with both arrived the waiting threads do (R262). -/
theorem test_met_barrier :
    let waits := fun (c : Crew) => { c with storePath := [.marker 1 (.bar 1 2 0)], threads := c.threads.map (fun t => (t.1, { t.2 with wait := some (.bar 1 2 1 none), bars := [(1, 2, 1, none)] })) }
    nextIs (exec (.storePathPerform 0 0) ((twoCrews id).updCrew 0 0 waits)) (fun t => (t.crew? 0 0).any (fun c => (c.thread? 0).any (fun th =>
      th.wait == some (.bar 1 2 1 (some 0)))) && (t.block? 0).any (fun k => (k.conv 2).barArrived == [0] && (k.conv 2).barGen == 0)) = true ∧
    nextIs (exec (.storePathPerform 0 0) ((twoCrews (fun k => { k with convs := [(2, { Conv.reset with barArrived := [1] })] })).updCrew 0 0 waits)) (fun t =>
      (t.crew? 0 0).any (fun c => c.acqs.length == 1 && (c.thread? 31).any (fun th => th.wait == none && th.pc == 0x1000C)) &&
      (t.block? 0).any (fun k => (k.conv 2).barArrived == [] && (k.conv 2).barGen == 1)) = true := by decide +kernel

/-- BarrierCompletion above a core: the only crew of a block arrives at a barrier of the die whose count is 2 and then 1; its
Serial Phase Buffer is applied, 5 + 7 at offset 64, in its keys' order, and is empty (R68). -/
theorem test_met_barrier_die :
    let spb : List SpbEntry := [⟨1, 0, 64, 7, 0, 2⟩, ⟨0, 0, 64, 5, 8, 2⟩]
    let s := fun (n : Nat) (j : List Nat) => { (path [.marker 1 (.bar 3 0 n)]).updBlock 0 (fun k => { k with spb := spb }) with
      bars := [⟨0, 3, barUnit 3 0, 0, some n, j, 4⟩] }
    let sum := fun (t : State) => (t.block? 0).any (fun k => k.spb.isEmpty && (bayPlace t k 64).any (fun p => leNat (readPlace t p 4) == 12))
    nextIs (exec (.storePathPerform 0 0) (s 2 [])) (fun t => sum t && (barInst t 0 3 (barUnit 3 0) 0).blocks == [0]) = true ∧
    nextIs (exec (.storePathPerform 0 0) (s 2 [9])) (fun t => sum t && (barInst t 0 3 (barUnit 3 0) 0).gen == 5 &&
      (barInst t 0 3 (barUnit 3 0) 0).count.isNone) = true ∧
    nextIs (exec (.storePathPerform 0 0) ((s 2 []).updBlock 0 (fun k => { k with crews := k.crews ++ [(1, Crew.at_ 0x10000 1 0 1 2 1 none)] })))
      (fun t => (t.block? 0).any (fun k => k.spb == spb && k.barCrews.getD (512 * 3) [] == [0])) = true := by decide +kernel

/-- DependentKernels: a producer with blocks to launch, one whose only block has triggered, and a release with no other
crew left. -/
theorem test_met_dependent :
    let two := fun (triggered : Bool) (g : Grid) => { blocked (fun k => { k with grid := 1 }) with
      grids := [(0, g), (1, { probeGrid ⟨[], []⟩ with producer := some 0 })],
      blocks := [(0, { Block.at_ 1 0 0 0 (List.range 16) [(0, Crew.at_ 0x10000 1 0 0 1 0 none)] ⟨[], []⟩ with fresh := false }),
        (1, { Block.at_ 0 0 0 1 [] [] ⟨[], []⟩ with triggered := triggered })] }
    met (two false { probeGrid ⟨[], []⟩ with launched := 0 }) (.waitDep { vE with sub := 1 }) (fun x => !producerReady x.s x.g) = true ∧
    met (two false (probeGrid ⟨[], []⟩)) (.waitDep { vE with sub := 1 }) (fun x => !producerReady x.s x.g) = true ∧
    met (two true (probeGrid ⟨[], []⟩)) (.waitDep { vE with sub := 1 }) (fun x => producerReady x.s x.g) = true ∧
    nextIs (exec (.storePathPerform 0 0) (path [.marker 1 .trigger])) (fun t => (t.block? 0).any (·.triggered)) = true ∧
    nextIs (exec (.storePathPerform 0 0) (crewed (fun c => { c with storePath := [.marker 1 .exit], threads := c.threads.map (fun t => (t.1, { t.2 with exited := true })) })))
      (fun t => (t.block? 0).any (·.triggered)) = true ∧
    nextIs (exec (.waitDepRelease 0 0) (crewed (fun c => { c with threads := c.threads.map (fun t => (t.1, { t.2 with wait := some .waitDep })) }))) (fun t =>
      (t.crew? 0 0).any (fun c => (c.thread? 31).any (fun th => th.wait == none && th.pc == 0x1000C))) = true := by decide +kernel

/-- Monitors: a word that meets each condition at its boundary and one that does not; a parked crew woken, and timed out
in the cycle of its deadline. -/
theorem test_met_monitor :
    ([(0, 5, true), (0, 6, false), (1, 5, true), (1, 4, false), (2, 4, true), (2, 5, false)] : List (Nat × Nat × Bool)).all (fun e =>
      met { crewed (uni [0x8000, e.2.1]) with mem := memWith [(0x8000, 8, 5)] }
        (.monwait { zE with pd := 1, sub := BitVec.ofNat 8 e.1, a := .s 2, b := .s 3, c := .const 0 }) (fun x =>
          x.cr.monitor.isNone && decide (x.uni (.s 2) % 8 = 0) && okB (monRead x.s x.g.ctx x.blk 0 (x.uni (.s 2))) (fun r =>
            (if e.1 = 0 then decide (x.uni (.s 3) ≤ r.1) else if e.1 = 1 then decide (r.1 = x.uni (.s 3)) else decide (r.1 ≠ x.uni (.s 3))) == e.2.2))) = true ∧
    (let parked := fun (deadline : Option Nat) (operand : Nat) => { crewed (fun c => { c with
        monitor := some ⟨0x8000, 0, some ⟨0, operand, deadline, 3, 1, 1, 0⟩⟩
        threads := c.threads.map (fun t => (t.1, { t.2 with wait := some .monwait })) }) with mem := memWith [(0x8000, 8, 5)] }
     let went := fun (ok : Bool) (t : State) => (t.crew? 0 0).any (fun c => (c.getP 3).getLsbD 0 == ok && c.acqs.length == 1 &&
        (c.thread? 0).any (fun th => th.wait == none && th.pc == 0x1000C))
     nextIs (exec (.monitorWake 0 0) (parked none 5)) (went true) = true ∧
     nextIs (exec (.monitorWake 0 0) (parked none 6)) (fun t => (t.crew? 0 0).any (fun c => (c.thread? 0).any (fun th => th.wait == some .monwait))) = true ∧
     nextIs (exec (.monwaitTimeout 0 0) (parked (some 0) 6)) (went false) = true ∧
     nextIs (exec (.monwaitTimeout 0 0) (parked (some 0) 5)) (went true) = true ∧
     nextIs (exec (.monwaitTimeout 0 0) (parked (some 1) 6)) (fun t => (t.crew? 0 0).any (fun c => (c.thread? 0).any (fun th => th.wait == some .monwait))) = true) := by
  decide +kernel

/-! ## Pools, tasks, deques, word queues, device-side queues, collectives -/

def pooled (p : Pool) : State := { stored [(0x8000, 8, 0x8040)] with pools := [(15, p)] }

/-- Pools: two objects for 32 lanes, none, and an object given back at either end of the pool. -/
theorem test_met_pool :
    ([0x8000, 0] : List Nat).all (fun h => met { pooled ⟨h, 0x8000, 0x8080, 6, some 0, 2⟩ with blocks := (crewed (uni [15])).blocks }
      (.pooltake { zE with pd := 1, a := .s 2, d := .v 2 }) (fun x => decide (x.uni (.s 2) < 16) &&
        (x.s.pools.find? 15).any (fun p => p.ctx == some x.g.ctx))) = true ∧
    ([(0x8000, 0x8000, 0x8040, true), (0, 0, 0, false)] : List (Nat × Nat × Nat × Bool)).all (fun e =>
      nextIs (exec (.storePathPerform 0 0) { pooled ⟨e.1, 0x8000, 0x8080, 6, some 0, 2⟩ with blocks := (crewed (fun c => { c with
        locks := [⟨0, 2, 1⟩, ⟨0, 3, 1⟩, ⟨2, 1, 1⟩], acqs := [⟨1, true⟩], storePath := [.marker 1 (.pooltake 15 (some ⟨true, 2, 2, 31, 1⟩) 1 31)] })).blocks })
        (fun t => (t.crew? 0 0).any (fun c => c.getV 2 31 == BitVec.ofNat 32 e.2.1 && (c.getP 1).getLsbD 31 == e.2.2.2 &&
          c.acqs.isEmpty == !e.2.2.2 && c.storePath.isEmpty) && (t.pools.find? 15).any (fun p => p.head == e.2.2.1))) = true ∧
    ([0x8000, 0x8040] : List Nat).all (fun a => met { pooled ⟨0, 0x8000, 0x8080, 6, some 0, 2⟩ with
        blocks := (crewed (fun c => { uni [15] c with v := (List.range 32).map (fun l => (Crew.key 2 l, BitVec.ofNat 32 a)) })).blocks }
      (.poolgive { vE with a := .s 2, b := .v 2 }) (fun x => x.acts.all (fun l =>
        let b := x.val (.v 2) 2 l (fun c => wrapTo 64 c.toInt)
        decide (b = a) && decide (b % 64 = 0) && decide (0x8000 ≤ b) && decide (b < 0x8080)) &&
        okB (poolPlaces x.g.ctx (fun l => x.val (.v 2) 2 l (fun c => wrapTo 64 c.toInt)) x.acts x.s) (fun _ => true))) = true ∧
    nextIs (exec (.storePathPerform 0 0) { path [.marker 1 (.poolgive 15 [(0x8040, .g 0x8040)])] with pools := [(15, ⟨0x8000, 0x8000, 0x8080, 6, some 0, 1⟩)] })
      (fun t => t.pools.find? 15 == some ⟨0x8040, 0x8000, 0x8080, 6, some 0, 2⟩ && t.mem.nat 0x8040 8 == 0x8000) = true := by decide +kernel

/-- A line of `nop` at 0x10000 whose slot 0 is a branch target, and a task descriptor at 0x8000 with its Tile Map. -/
def taskMem : Memory :=
  (memWith [(0x8000, 8, 0x10000), (0x8028, 8, 0xFFFFFFFFFFFF0000), (0x8030, 8, 0xFFFF0000), (0x8038, 8, 0x9000), (0x9000, 8, 1), (0x9040, 8, 0xA000)]).write
    0x10000 (leBytes 64 (makeLine (List.replicate 5 0x3F0E#96) 1 0))
def entry0 : TaskEntry :=
  { gen := 3, tmap := 0x9000, ctx := 0, core := 0, blk := 0, entry := 0x10000, args := [], reads := [(0, 0xA000)], writes := [(0, 0xA000)], key := 0,
    waits := [], posted := false, order := 0 }
def deque0 (bottom top : Nat) : Deque := ⟨some 0, 0, 384, bottom, top⟩
def tasking (e : Option TaskEntry) (d : Deque) (f : Crew → Crew) : State :=
  { ((crewed f).setDie 0 { Die.reset with tasks := (e.map (fun e => [(4095, e)])).getD [] }).setCore 0 { Core.reset with dq := d } with
    mem := taskMem, grids := [(0, probeGrid taskMem)], path := ⟨0, 0, 1, 0x10000, false, false⟩ }
/-- Strictly rising numbers. -/
def rising : List Nat → Bool
  | a :: b :: r => decide (a < b) && rising (b :: r)
  | _ => true

theorem rising_pairwise (l : List Nat) (h : rising l = true) : l.Pairwise (· < ·) := by
  match l with
  | [] => exact .nil
  | [a] => simp
  | a :: b :: r =>
    simp only [rising, Bool.and_eq_true, decide_eq_true_eq] at h
    have hb := rising_pairwise (b :: r) h.2
    refine .cons (fun x hx => ?_) hb
    rcases List.mem_cons.1 hx with rfl | hx
    · exact h.1
    · exact h.1.trans ((List.pairwise_cons.1 hb).1 x hx)

/-- Where a place of a scratchpad lies. -/
def spAddr : Place → Nat
  | .sp _ a => a
  | _ => 0

theorem nodup_of_rising (l : List Place) (h : rising (l.map spAddr) = true) : l.Nodup :=
  .of_map _ ((rising_pairwise _ h).imp Nat.ne_of_lt)

/-- `DequeAt` for a record. -/
def dequeAt (s : State) (i : Nat) : Bool :=
  (dequeOf s 0).any (fun e => okB (unitPlaces s e.2 1 e.1.base 128) (fun cs =>
    okB (unitPlaces s e.2 1 (e.1.base + 128 + 128 * (i % e.1.cap)) 128) (fun ps => rising ((bytesOf (cs ++ ps)).map spAddr))))

/-- Tasks: one descriptor; an outstanding `TID` ended; a retired one; a ready task and a deque with room. -/
theorem test_met_task :
    met (tasking none (deque0 0 0) (fun c => { c with v := [(Crew.key 2 0, 0x8000)] })) (.task { vE with a := .v 2 }) (fun x =>
      x.cr.storePath.isEmpty && x.acts == [0] && okB (readTasks x 0 (fun l => x.val (.v 2) 2 l (fun c => wrapTo 64 c.toInt)) x.acts x.s) (fun r => r.1.length == 1) &&
      decide ((x.s.die 0).tasks.length < 4096)) = true ∧
    met (tasking (some entry0) (deque0 0 0) (fun c => { c with v := [(Crew.key 2 0, 16383)] })) (.taskDone { vE with sub := 1, a := .v 2 }) (fun x =>
      x.acts.all (fun l => tidLive x.s 0 (x.val (.v 2) 1 l (fun c => wrapTo 32 c.toInt)))) = true ∧
    nextIs (exec (.storePathPerform 0 0) (tasking (some entry0) (deque0 0 0) (fun c => { c with storePath := [.marker 1 (.taskDone [16383])] }))) (fun t =>
      (t.die 0).tasks.isEmpty) = true ∧
    (dequeAt (tasking (some entry0) (deque0 1 0) id) 1 = true ∧ (deque0 1 0).count < (deque0 1 0).cap) ∧
    nextIs (exec (.taskPost 0 4095) (tasking (some { entry0 with waits := [7] }) (deque0 1 0) id)) (fun t => (t.core 0).dq == deque0 1 0) = true ∧
    (takeHandle (tasking (some entry0) (deque0 0 0) id) cx0 0 0 ⟨0x10000, [], [0], [0], 0x9000, 0⟩ 0 true).1 = 0xA000 ∧
    (takeHandle (tasking (some entry0) (deque0 0 0) id) cx0 0 0 ⟨0x10000, [], [0], [0], 0x9000, 0⟩ 0 true).2.1 = [4095] := by decide +kernel

/-- DequeMoves: the newest and the oldest record of two, an empty deque, a full one (R142, R143). -/
theorem test_met_deque :
    met (tasking none (deque0 2 0) id) (.dqpost { zE with pd := 1, a := .v 2 }) (fun x => (dequeOf x.s 0).isSome) = true ∧
    met (tasking none (deque0 2 0) id) (.dqtake { zE with pd := 1, d := .v 2 }) (fun x => dequeAt x.s 1) = true ∧
    met (tasking none (deque0 2 0) id) (.dqsteal { zE with pd := 1, b := .const 0, d := .v 2 }) (fun x => dequeAt x.s 0 && x.g.level == 0) = true ∧
    nextIs (exec (.dqtake { zE with pd := 1, d := .v 2 }) (tasking none (deque0 5 5) (fun c => { c with p := [(1, BitVec.allOnes 32)] }))) (fun t =>
      (t.crew? 0 0).any (fun c => c.getP 1 == 0xFFFFFFFE#32)) = true ∧
    nextIs (exec (.storePathPerform 0 0) (tasking none (deque0 2 0) (fun c => { c with storePath := [.marker 1 (.dqpost (List.replicate 128 0) 1 1)] }))) (fun t =>
      (t.core 0).dq == deque0 2 0 && (t.crew? 0 0).any (fun c => !(c.getP 1).getLsbD 0)) = true ∧
    dequeAt (tasking none (deque0 1 0) id) 1 = true := by decide +kernel

/-- WordQueueMoves: one element for 32 lanes, one for a uniform register, a push of 32 into a queue of 224, a push that
a waiting lane of another crew gets. -/
theorem test_met_wordQueue :
    let q := fun (es : List Word) (ps : List (Nat × Nat × Dest)) => { (twoCrews id).setCore 0 { Core.reset with wqs := [(3, ⟨es, some 0, ps⟩)] } with
      path := ⟨0, 0, BitVec.allOnes 32, 0x10000, false, false⟩ }
    met (q [5] []) (.mov { vA1 .n32 with a := .wq 3 }) (fun x => (wqOf x.s 0 3).elems == [5] && (wqOf x.s 0 3).pops == []) = true ∧
    met (q [5] []) (.mov { vA1 .n32 with a := .wq 3, d := .s 4 }) (fun x => (wqOf x.s 0 3).elems == [5]) = true ∧
    met (q (List.replicate 224 0) []) (.mov { vA1 .n32 with d := .wq 3 }) (fun x => decide ((wqOf x.s 0 3).elems.length + x.acts.length = 256) &&
      x.acts.all (fun l => !x.cr.skips l (·.wq))) = true ∧
    nextIs (exec (.mov { vA1 .n32 with a := .const 7, d := .wq 3 }) (q [] [(0, 1, ⟨true, 4, 1, 31, 1⟩)])) (fun t =>
      (wqOf t 0 3).elems.isEmpty && (wqOf t 0 3).pops.isEmpty) = true := by decide +kernel

/-- QueuesAndCollectives: a device-side queue with room for one packet at index 3 of 4; a collective of one contributor,
and of two that combine. -/
theorem test_met_queue :
    let s := { crewed (uni [5, 1]) with mem := memWith [(0x50A0, 8, 0x8000), (0x50A8, 8, 2 + 2 ^ 10 + 2 ^ 11), (0x50B8, 8, 3)] }
    met s (.qsubmit { vE with a := .s 2, b := .s 3 }) (fun x => (queueEntry x.s x.g.ctx 5).any (fun e =>
      e.device && e.enabled && decide (e.widx + 1 ≤ e.ridx + 2 ^ e.log))) = true ∧
    nextIs (exec (.storePathPerform 0 0) { s with blocks := (path [.marker 1 (.qsubmit 5 1)]).blocks }) (fun t =>
      t.mem.nat 0x50B8 8 == 4 && (t.queues.getD 5 ⟨none, false, []⟩).subs.find? 3 == some 0) = true := by decide +kernel

theorem test_met_collective :
    let s := { stored [(0x8000, 8, 0x9000), (0x8008, 8, 0xA000), (0x8010, 8, 2), (0x8020, 8, 0x06), (0x9000, 8, 0x0000000500000003)] with
      ops := [op 9 4 1 (.coll 3 0x8000 0 0 0 0) false] }
    let two : CollRun := ⟨1, 2, 3, 6, 1, 0, 1, [(0, 9, 0xA000), (1, 8, 0xA008)], [(0, 0, [3]), (0, 1, [0xFFFFFFFF])], [], false⟩
    met (crewed (uni [0x8000])) (.coll { vE with sub := 3, a := .s 2 }) (fun x => decide (x.uni (.s 2) % 64 = 0)) = true ∧
    nextIs (exec (.engineCommandStart 9) s) (fun t => t.mem.nat 0xA000 8 == 0x0000000500000003 && (op? t 9).any (·.started)) = true ∧
    nextIs (exec (.collCombine 1 2 0 0) { s with colls := [two], ops := [op 9 4 1 (.coll 3 0x8000 1 2 0xA000 8) true, op 8 4 2 (.coll 3 0x8000 1 2 0xA000 8) true] }) (fun t =>
      t.mem.nat 0xA000 4 == 2 && t.mem.nat 0xA008 4 == 2) = true ∧
    nextIs (exec (.collCombine 1 2 0 0) { s with grids := [(0, { probeGrid ⟨[], []⟩ with st := .faulted })]
                                                 colls := [{ two with slots := [(0, 9, 0xA000)], grids := [0] }]
                                                 ops := [op 9 4 1 (.coll 3 0x8000 1 2 0xA000 8) true] }) (fun t => (collRun? t 1 2).any (·.stopped) && (op? t 9).any (fun o => o.fault == some (0x8000, 0))) = true := by decide +kernel

/-- QueuesAndCollectives: the destination of a collective that the launch's ladder bars, and one that it does not (R34). -/
theorem test_met_coll_seal :
    let s := fun (dst : Nat) => { stored [(0x8000, 8, 0x9000), (0x8008, 8, dst), (0x8010, 8, 2), (0x8020, 8, 0x06)] with
      blocks := (crewed (uni [0x8000])).blocks, grids := [(0, { probeGrid ⟨[], []⟩ with ladder := some ⟨0xC000, 0x20000, 0x1000, 2, 2, false⟩ })] }
    ([(0xA000, false), (0x20FF8, true)] : List (Nat × Bool)).all (fun e => met (s e.1) (.coll { vE with sub := 3, a := .s 2 }) (fun x =>
      okB (fetchVirt x.s x.g.ctx (x.uni (.s 2)) 64) (fun r => collForbids x.g x.blk (collRange 3 (leNat r.1)) == e.2))) = true := by decide +kernel

/-! ## Control, regions, exits, traps, special registers -/

/-- Code: a region head in slot 0 with its target bit, a branch target in slot 1 that holds none, and `nop`. -/
def codeMem : Memory :=
  (memWith []).write 0x10000 (leBytes 64 (makeLine [0x00000000000080000000BF07#96, 0x3F0E#96, 0x3F0E#96, 0x3F0E#96, 0x3F0E#96] 3 0))
def coded (pc : Nat) (f : Crew → Crew) : State :=
  { crewed (fun c => f { c with threads := c.threads.map (fun t => (t.1, { t.2 with pc := pc })) }) with
    mem := codeMem, grids := [(0, probeGrid codeMem)], path := ⟨0, 0, BitVec.allOnes 32, pc, false, false⟩ }

/-- Branches: back to the region head, forward to a slot, a call of the head, a register branch to it and to the target
that holds none, a return to the last slot of the line, and the traps of the last two. -/
theorem test_met_branch :
    met (coded 0x10030 id) (.bra { zC with offs := -4 }) (fun x => x.acts.all (fun _ => (checkTarget x (slotTo x.pc (-4)) false false false).isNone)) = true ∧
    met (coded 0x10000 id) (.bra { zC with offs := 1 }) (fun x => (checkTarget x (slotTo x.pc 1) false false false).isNone) = true ∧
    met (coded 0x10030 id) (.call { zC with offs := -4, d := .s 4 }) (fun x => (checkTarget x (slotTo x.pc (-4)) true true false).isNone) = true ∧
    met (coded 0x10030 (uni [0x10000])) (.brx { zC with a := .s 2 }) (fun x => (checkTarget x (x.uni (.s 2)) true false true).isNone) = true ∧
    met (coded 0x10000 (uni [0x10030])) (.ret { zC with a := .s 2 }) (fun x => (checkTarget x (x.uni (.s 2)) false false true).isNone) = true ∧
    met (coded 0x10030 (uni [0x1000C])) (.brx { zC with a := .s 2 }) (fun x => x.cr.trap.isNone && x.cr.handler.isNone &&
      checkTarget x (x.uni (.s 2)) true false true == some .btgt) = true ∧
    met (coded 0x10030 (uni [2 ^ 56])) (.ret { zC with a := .s 2 }) (fun x => !canonical (x.uni (.s 2))) = true ∧
    (slotTo 0x10000 (-1) = 0xFFF0 ∧ slotTo 0x10030 1 = 0x10040) := by decide +kernel

/-- 11_encoding's loop: the branch at slot 4 takes its threads back to slot 0. -/
theorem test_loop :
    nextIs (exec (.bra { zC with offs := -4 }) { coded 0x10030 id with path := ⟨0, 0, 2, 0x10030, false, false⟩ }) (fun t => (t.crew? 0 0).any (fun c =>
      (c.thread? 1).any (fun th => th.pc == 0x10000) && (c.thread? 0).any (fun th => th.pc == 0x10030))) = true := by decide +kernel

/-- RegionHeads: outside and inside a handler, with a marked block that is full; implicit heads of waiting threads. -/
theorem test_met_region :
    met (crewed (fun c => { c with xheld := 1, xmark := 1, seq := 3 })) (.region { zG with ws := 0xF, li := 1, bay := 1 }) (fun x =>
      !x.cr.inHandler && marksFull x.cr) = true ∧
    met (crewed (fun c => { c with handler := some ⟨⟨1, 0, 0x10000, 1, 0, 0, false, 0⟩, BitVec.allOnes 32, 0⟩ })) (.region { zG with ws := 0xF, li := 1 }) (fun x =>
      x.cr.inHandler) = true ∧
    (let due := fun (e : NMap Nat) => crewed (fun c => { c with empty := e, threads := c.threads.map (fun t => (t.1, { t.2 with headDue := true, head := { t.2.head with seq := 9 } })) })
     let left := fun (e : NMap Nat) (l : Nat) => nextIs (exec (.implicitHead 0 0) (due e)) (fun t => (t.crew? 0 0).any (fun c => (c.thread? l).any (·.headDue)))
     left [(Crew.key 4 31, 9)] 31 = true ∧ left [(Crew.key 4 31, 9)] 30 = false ∧ left [(Crew.key 4 31, 8)] 31 = false) := by decide +kernel

/-- Exits: some threads only; the last ones, with nothing held and with a protection fault held. -/
theorem test_met_exit :
    met (crewed (fun c => { c with p := [(1, 1)] })) (.exit { zC with g := ⟨false, 1⟩ }) (fun x => x.act == 1 && x.cr.liveLanes &&& ~~~x.act != 0) = true ∧
    met probe (.exit zC) (fun x => x.cr.liveLanes &&& ~~~x.act == 0 && x.cr.faults.isEmpty && x.cr.handler.isNone &&
      x.blk.barCrews.isEmpty && x.blk.convs.isEmpty) = true ∧
    met (crewed (fun c => { c with faults := [⟨9, 1, 0, 0x9000, 1⟩] })) (.exit zC) (fun x => x.cr.liveLanes &&& ~~~x.act == 0 &&
      x.cr.faults == [⟨9, 1, 0, 0x9000, 1⟩] && x.cr.trap.isNone) = true ∧
    nextIs (exec (.exit zC) probe) (fun t => (t.crew? 0 0).any (fun c => c.allExited && c.storePath == [.marker 1 .exit])) = true := by decide +kernel

/-- A crew in a handler for a trap with the given resume point. -/
def handling (resume : Nat) : State := crewed (fun c => { c with handler := some ⟨⟨1, 5, 0x10000, BitVec.allOnes 32, 0, resume, false, 0⟩, BitVec.allOnes 32, 0⟩ })

/-- TrapsAndReturns: traps of a calm crew; `brk` in and out of a debugged context; returns of some and of the last handler
threads at each resume point; and the order of the traps at issue (R178). -/
theorem test_met_trap :
    met probe (.trap { zS with imm16 := 9 }) (fun x => x.cr.trap.isNone && x.cr.handler.isNone) = true ∧
    met { probe with ctxs := [(0, { cx0 with debug := true })] } (.brk { zS with imm16 := 9 }) (fun x => (x.s.ctxs.find? 0).any (·.debug)) = true ∧
    met probe (.brk { zS with imm16 := 9 }) (fun x => (x.s.ctxs.find? 0).any (fun c => !c.debug)) = true ∧
    ([(0, 0), (0, 1), (1, 0), (1, 1), (2, 0)] : List (Nat × Nat)).all (fun e => met (handling e.1) (.trapret { zS with sub := BitVec.ofNat 8 e.2 }) (fun x =>
      x.cr.handler.any (fun h => h.live &&& ~~~x.act == 0 && h.trap.resume == e.1) && x.cr.threads.all (fun t => t.2.wait.isNone && t.2.iwait.isNone))) = true ∧
    met { handling 0 with path := ⟨0, 0, 1, 0x10000, false, false⟩ } (.trapret zS) (fun x => x.cr.handler.any (fun h => h.live &&& ~~~x.act != 0)) = true := by
  decide +kernel

theorem test_met_trap_order :
    let raises := fun (i : Instr) (s : State) (cause : Nat) => nextIs (exec i s) (fun t => (t.crew? 0 0).any (fun c => c.trap.any (fun p => p.cause == cause)))
    raises (.iadd { vA .i32 with pd := 0 }) probe cUnd = true ∧ raises (.trapret zS) probe cUnd = true ∧
    raises (.iadd { vA .i32 with a := .v 64 }) probe cProt = true ∧
    raises (.iadd { vA .i32 with fa := true }) (crewed (fun c => { c with empty := [(Crew.key 0 7, 1)] })) cFe = true ∧
    nextIs (exec (.iadd { vA .i32 with fa := true }) (crewed (fun c => { c with empty := [(Crew.key 0 7, 1), (Crew.key 4 8, 1)] }))) (fun t =>
      (t.crew? 0 0).any (fun c => c.trap.isNone && (c.thread? 8).any (fun th => th.pc == 0x10000 && th.wait.isSome))) = true ∧
    raises (.rand { zA with pd := 15, fx := 1, d := .v 4 }) probe cProt = true := by decide +kernel

/-- SpecialRegisters: every readable number (R187), and the four writable ones with their conditions. -/
theorem test_met_sread :
    ([0x001, 0x002, 0x003, 0x004, 0x005, 0x006, 0x007, 0x008, 0x009, 0x00B, 0x010, 0x011, 0x012, 0x013, 0x014, 0x019, 0x01A, 0x01B, 0x01C, 0x020, 0x021,
      0x024, 0x028, 0x029, 0x030, 0x031, 0x032, 0x033, 0x034, 0x038, 0x039, 0x03C, 0x03D] : List Nat).all (fun n =>
        (readyPath probe (.sread { zS with srn := BitVec.ofNat 10 n, d := .s 4 })).isSome) = true ∧
    ([0x000, 0x00A, 0x018] : List Nat).all (fun n => (readyPath probe (.sread { zS with srn := BitVec.ofNat 10 n, d := .v 4 })).isSome) = true ∧
    met (handling 0) (.sread { zS with srn := 0x3D, d := .s 4 }) (fun x => x.cr.handler.any (fun h => h.trap.taddr == 5)) = true ∧
    met (gridded (fun g => { g with level := 2 })) (.sread { zS with srn := 0x06, d := .s 4 }) (fun x => x.g.level == 2) = true ∧
    readyAll probe [.swrite { zS with srn := 0x0A, a := .v 2 }, .swrite { zS with srn := 0x18, a := .v 2 }, .swrite { zS with srn := 0x24, a := .s 2 }] = true ∧
    met (crewed (uni [1024])) (.swrite { zS with srn := 0x39, a := .s 2 }) (fun x => !dequeBusy x.s x.blk.core && decide (x.uni (.s 2) % 128 = 0)) = true ∧
    met { cored (fun k => { k with dq := ⟨none, 0, 1024, 0, 0⟩ }) with blocks := (crewed (uni [768])).blocks } (.swrite { zS with srn := 0x38, a := .s 2 }) (fun x =>
      decide (x.uni (.s 2) % 128 = 0) && decide (x.uni (.s 2) + 256 ≤ (x.s.core 0).dq.lim) && decide ((x.s.core 0).dq.lim ≤ x.blk.bays.length * bayBytes (x.s.core 0).split)) = true := by
  decide +kernel

/-! ## Issue, blocks, grids, switching, saving -/

/-- IssueSelection: a starved candidate, priorities with the turn, an empty slot; two groups, of which one has aged. -/
theorem test_met_issue :
    (pickCrew 5 [⟨0, 0, 3, 0, []⟩, ⟨0, 1, 0, 128, []⟩]).map (·.crew) = some 1 ∧ (pickCrew 0 [⟨0, 0, 3, 127, []⟩, ⟨0, 1, 3, 0, []⟩]).map (·.crew) = some 1 ∧
    (pickCrew 1 [⟨0, 0, 3, 0, []⟩, ⟨0, 1, 3, 0, []⟩]).map (·.crew) = some 0 ∧
    choosePaths [(0x1000C, 64)] [(0x10000, 0xFFFFFFFE), (0x1000C, 1)] = [(0x1000C, 1), (0x10000, 0xFFFFFFFE)] ∧
    choosePaths [(0x1000C, 63)] [(0x10000, 1), (0x1000C, 2)] = [(0x10000, 1), (0x1000C, 2)] ∧
    ((candidates (coded 0x10000 id) 0 0).length, (candidates (coded 0x10000 id) 0 1).length) = (1, 0) ∧
    nextIs (exec (.issueCycle 0 0) (coded 0x10000 id)) (fun t => t.issue.map (fun p => (p.pc, p.lanes)) == [(0x10000, 0xFFFFFFFF#32)]) = true := by decide +kernel

/-- BlocksAndGrids: the last block of a queue of one placed on core 0; a crew retires; a block ends; its grid is complete;
a free core's split is changed, an occupied one waits, a quad is fused. -/
theorem test_met_block :
    let queued := { (gridded (fun g => { g with launched := 0 })).setDie 0 { Die.reset with queue := [⟨0, 0, 0, false⟩] } with blocks := [] }
    let gone := crewed (fun c => { c with threads := c.threads.map (fun t => (t.1, { t.2 with exited := true })) })
    let retired := gone.updCrew 0 0 Crew.retire
    ((queueSort queued (liveQueue queued 0)).findSome? (fun e => (placement queued 0 e).map (fun ps => (e, ps)))).map (fun r => (r.1.lin, r.2)) = some (0, [(0, 0)]) ∧
    nextIs (exec (.blockPlace 0) queued) (fun t => (t.block? 1).any (fun k => k.core == 0 && k.fresh && (k.crews.find? 0).any (fun c => c.getS 0 == 0 && (c.thread? 31).any (fun th =>
      th.pc == 0x10000 && th.ltid == [31]))) && (t.die 0).queue.isEmpty) = true ∧
    nextIs (exec (.crewRetire 0 0) gone) (fun t => (t.crew? 0 0).any (·.retired)) = true ∧
    nextIs (exec (.crewRetire 0 0) (gone.updCrew 0 0 (fun c => { c with faults := [⟨9, 1, 0, 0x9000, 1⟩] }))) (fun t =>
      (t.grid? 0).any (fun g => g.st == .faulted)) = true ∧
    nextIs (exec (.blockEnd 0) retired) (fun t => (t.block? 0).any (fun k => k.st == .ended) && (t.grid? 0).any (fun g => g.ended == 1)) = true ∧
    nextIs (exec (.gridComplete 0) { gridded (fun g => { g with ended := 1 }) with blocks := [] }) (fun t => (t.grid? 0).any (fun g => g.st == .done)) = true ∧
    nextIs (exec (.carveOutChange 767 448 0) probe) (fun t => (t.core 767).split == 448) = true ∧
    nextIs (exec (.carveOutChange 0 448 0) probe) (fun t => (t.core 0).split == 384 && (t.core 0).draining == some 448) = true ∧
    nextIs (exec (.carveOutChange 5 256 1) probe) (fun t => (t.quad 1).fused && (t.core 7).split == 256) = true := by decide +kernel

/-- A kernel with one switch point, whose variant keeps `v0` across it; its block holds the flag when asked to. -/
def swKern : Kernel :=
  { vars := [{ probeVariant with maps := [(0x10000, [0])] }], sws := [⟨63, 1, []⟩], ladder := false, ls := 0, lopen := 0, ltsize := 0, lbs := 32, swsize := 0x600 }
def switching (flag : Option Nat) : State :=
  { blocked (fun k => { k with flag := flag, fresh := false }) with
    grids := [(0, { probeGrid ⟨[], []⟩ with swArea := 0x9000, policy := 0, kern := swKern })] }

/-- Switching: past the point without a flag; with one and every condition of a switch met; the relaunch on core 0; the
flags of pressure, of an idle core that prefers another variant. -/
theorem test_met_switch :
    met (switching none) (.switchpt { zS with imm16 := 63 }) (fun x => !convHeld x.blk && x.blk.flag.isNone && x.blk.sampled.isEmpty && replays x 63 == 0 && !flaggedAt x 63 &&
      x.cr.liveLanes &&& ~~~(x.cr.lanesWhere (fun t => t.wait == some (.switchPt 63)) ||| x.act) == 0) = true ∧
    met (switching (some 2)) (.switchpt { zS with imm16 := 63 }) (fun x => x.blk.flag == some 2 && flaggedAt x 63 && replays x 63 == 0 && othersArrived x.blk x.c 63 &&
      !streamRuns x.s x.b x.blk.core && switchDrained x.s x.b x.blk && x.variant.any (fun v => (switchMap x.g v 63).isSome) && x.blk.spb.isEmpty) = true ∧
    nextIs (exec (.switchpt { zS with imm16 := 63 }) (switching (some 2))) (fun t => (t.block? 0).any (fun k => k.st == .switching && k.switchId == 63) &&
      t.mem.nat 0x9000 4 == 63 + 2 * 2 ^ 24 && t.mem.nat (0x9000 + 64 + 31 * 24) 8 == 31) = true ∧
    (let s := (switching none).updBlock 0 (fun k => { k with st := .switching, switchId := 63, crews := [] })
     ((chooseVariant s 0 ((s.grid? 0).getD (probeGrid ⟨[], []⟩)) []).map (·.vid) = some 0 ∧ s.blocks.all (fun e => e.2.st == .switching) = true) ∧
     nextIs (exec (.switchRelaunch 0 0) s) (fun t => (t.block? 0).any (fun k => k.st == .resident && k.vid == 0)) = true) := by decide +kernel

/-- Switching: a thread that a rollback took back before the point; one that has not come to it yet; a stream that runs. -/
theorem test_met_switch_cases :
    let i : Instr := .switchpt { zS with imm16 := 63 }
    met ((switching (some 2)).updCrew 0 0 (fun c => { c with swCount := [(63, 1)] })) i (fun x => replays x 63 != 0) = true ∧
    met { switching (some 2) with path := ⟨0, 0, 1, 0x10000, false, false⟩ } i (fun x => replays x 63 == 0 &&
      x.cr.threads.any (fun t => !t.2.exited && !x.act.getLsbD t.1 && t.2.wait.isNone) && x.blk.standing.isEmpty) = true ∧
    met ((switching (some 2)).setCore 0 { Core.reset with fill := some (chan 0 0 0 false) }) i (fun x => flaggedAt x 63 && othersArrived x.blk x.c 63 &&
      streamRuns x.s x.b x.blk.core) = true := by decide +kernel

theorem test_met_switch_flags :
    let kern := { swKern with vars := [{ probeVariant with vid := 1, ext := 0, bays := 8 }, probeVariant] }
    let two := fun (g : Grid) => { g with policy := 0, switchWait := 0, kern := kern }
    let s := { gridded two with blocks := probe.blocks }
    let waits := { s.setDie 0 { Die.reset with queue := [⟨1, 0, 0, false⟩], clk := 100 } with
      grids := [(0, two (probeGrid ⟨[], []⟩)), (1, two (probeGrid ⟨[], []⟩))]
      degraded := (List.range 191).map (fun i => BitVec.ofNat 64 (1 + 256 * (i + 1))) }
    (s.block? 0).any (fun k => idlePrefers s 0 k && !restoreNeeds s 0 k && !pressed s 0 k && k.flag.isNone) = true ∧
    (waits.block? 0).any (fun k => presses waits 0 0 k && !restoreNeeds waits 0 k) = true ∧
    (s.block? 0).any (fun k => !presses s 0 0 k) = true ∧
    (waits.block? 0).any (fun k => placeNeeds waits 0 k) = true := by decide +kernel

/-! ## Saving, cones, ladders -/

/-- A pool of frames and a crew at its heads, with a serviceable fault when asked to. -/
def saving (pf : Bool) (f : Crew → Crew) : State :=
  { crewed (fun c => f { c with pendingPf := if pf then some (0x9000, 0, 0) else none, pfSeq := if pf then some 4 else none }) with
    mem := memWith [(0x400000, 8, 0x800000)], pools := [(5, ⟨0x400000, 0x400000, 0xC00000, 22, some 0, 2⟩)]
    rings := [(0, { Ring.reset with savePool := 0x15 })] }

/-- SaveAndRestore: a block that waits for service and one that is pre-empted can be saved, with a frame to take; a saved
block fits core 3. -/
theorem test_met_save :
    ([true, false] : List Bool).all (fun pf =>
      let s := saving pf id
      (s.block? 0).any (fun k => canSave s 0 k && (faultedCrew k).isSome == pf && k.crews.all (fun e => e.2.atHeads)) &&
        (takeFrame s 0).map Prod.fst == some 0x400000 && NMap.sorted s.blocks) = true ∧
    (let s := blocked (fun k => { k with st := .saved })
     (s.block? 0).any (fun k => restoreFits s 3 k && k.flag.isNone && (blockVariant s k).isSome) && !queuedAhead s 3 0) = true ∧
    nextIs (exec (.blockRestore 0 3) (blocked (fun k => { k with st := .saved }))) (fun t => (t.block? 0).any (fun k =>
      k.st == .resident && k.core == 3 && k.flag == some 3 && (k.crews.find? 0).any (fun c => c.acqs.length == 1))) = true := by decide +kernel

/-- A saved block of the probe's grid. -/
def savedBlock : Block := { Block.at_ 0 0 0 0 (List.range 16) [(0, Crew.at_ 0x10000 1 0 0 1 0 none)] ⟨[], []⟩ with st := .saved }
/-- The degraded-unit map of a package whose cores 1 to 767 are retired. -/
def retiredCores : List DWord := (List.range 767).map (fun i => BitVec.ofNat 64 (1 + 256 * (i + 1)))
/-- A parked block of core 0, a saved one that no core has room for: every other core is retired. -/
def parkedState : State :=
  let s := saving false (fun c => { c with
    monitor := some ⟨0x9000, 0, some ⟨0, 1, none, 15, 1, 1, 3⟩⟩
    threads := c.threads.map (fun t => (t.1, { t.2 with wait := some .monwait, since := some 3 })) })
  { s with blocks := s.blocks ++ [(1, savedBlock)], degraded := retiredCores }

theorem parked_retired (c : Nat) (h1 : 1 ≤ c) (h2 : c ≤ 767) : isDegraded parkedState 1 c = true := by
  have hm : BitVec.ofNat 64 (1 + 256 * c) ∈ retiredCores :=
    List.mem_map.2 ⟨c - 1, List.mem_range.2 (by omega), by rw [Nat.sub_add_cancel h1]⟩
  have hd : parkedState.degraded = retiredCores := by unfold parkedState; dsimp only
  unfold isDegraded
  rw [hd, List.any_eq_true]
  refine ⟨_, hm, ?_⟩
  have hn : (BitVec.ofNat 64 (1 + 256 * c)).toNat = 1 + 256 * c := by rw [BitVec.toNat_ofNat]; omega
  simp only [hn, Bool.and_eq_true, beq_iff_eq, bits]
  omega

/-- SaveAndRestore: the conditions of PARKED_BLOCK_EVICT. -/
theorem test_met_evict :
    (parkedState.block? 0).any (fun k => canSave parkedState 0 k && parked k) = true ∧ evictFor parkedState 0 = true := by
  refine ⟨by decide +kernel, ?_⟩
  unfold evictFor
  rw [List.any_eq_true]
  refine ⟨(1, savedBlock), List.mem_append_right _ (List.mem_singleton_self _), ?_⟩
  have hg : parkedState.grid? savedBlock.grid = some (probeGrid ⟨[], []⟩) := rfl
  have hv : blockVariant parkedState savedBlock = some probeVariant := by decide +kernel
  have h0 : roomFor parkedState 0 savedBlock [] = false := by decide +kernel
  have h1 : roomFor parkedState 0 savedBlock (parkedState.residents 0) = true := by decide +kernel
  have h2 : saveReady parkedState savedBlock = true := by decide +kernel
  have hn : (List.range coreCount).any (fun c => roomFor parkedState c savedBlock []) = false := by
    rw [List.any_eq_false]
    intro c hc
    have hc : c < 768 := List.mem_range.1 hc
    rcases Nat.eq_zero_or_pos c with rfl | hp
    · simp [h0]
    · simp [roomFor, hg, hv, fits, parked_retired c hp (by omega)]
  show (saveReady parkedState savedBlock && !(List.range coreCount).any (fun c => roomFor parkedState c savedBlock []) &&
    roomFor parkedState 0 savedBlock (parkedState.residents 0)) = true
  rw [h2, hn, h1]
  rfl

/-- ConesAndCuts: cones at their limits, and one that is over its deadline by no cycle; a cut that arrives. -/
theorem test_met_cone :
    let s := fun (c : Cone) => { gridded (fun g => { g with cone := c }) with time := 1000, dies := [(0, { Die.reset with clk := 5000 })] }
    ((s ⟨100, 0, 0⟩).grid? 0).any (fun g => coneRuns (s ⟨100, 0, 0⟩) 0 g && decide (g.cone.cyc ≤ g.elapsed (s ⟨100, 0, 0⟩))) = true ∧
    nextIs (exec (.coneCycleExpiry 0) (s ⟨100, 0, 0⟩)) (fun t => (t.grid? 0).map (·.st) == some .cut) = true ∧
    nextIs (exec (.coneCycleExpiry 0) (s ⟨101, 0, 0⟩)) (fun t => (t.grid? 0).map (·.st) == some .running) = true ∧
    nextIs (exec (.coneDeadlineExpiry 0) (s ⟨0, 0, 1000⟩)) (fun t => (t.grid? 0).map (·.st) == some .cut) = true ∧
    nextIs (exec (.coneDeadlineExpiry 0) (s ⟨0, 0, 1001⟩)) (fun t => (t.grid? 0).map (·.st) == some .running) = true ∧
    nextIs (exec (.cutArrival 0 0) { (gridded (fun g => { g with st := .cut })) with
        blocks := (crewed (fun c => { c with acqs := [⟨1, false⟩], storePath := [.store 1 (.g 0) [1#8] 0 1#32] })).blocks }) (fun t =>
      (t.crew? 0 0).any (fun c => c.acqs.isEmpty && c.storePath.length == 1)) = true := by decide +kernel

/-- 02_ladder's example as it stands: two tiles, two slots, base 0x20000, size 0x1000; its header at 0x8000. -/
def ladder0 : Ladder := ⟨0x8000, 0x20000, 0x1000, 2, 2, false⟩
/-- A block of that launch with the floor, the entry of tile 0, `CTL`, and the crew's, the block's and the entry's state. -/
def laddered (floor entry ctl : Nat) (f : Crew → Crew) (b : Block → Block) : State :=
  { (crewed f).updBlock 0 b with
    grids := [(0, { probeGrid ⟨[], []⟩ with ladder := some ladder0 })], ladders := [0x8000]
    mem := memWith [(0x8000, 8, 0x20000), (0x8008, 8, 0x1000 + 2 * 2 ^ 32), (0x8010, 4, floor + 0x300 * 65536), (0x8014, 4, ctl), (0x8028, 8, 0xFFFFFFFFFFFFFFFF), (0x8040, 8, entry)] }
def waitsAs (w : Wait) (c : Crew) : Crew := { c with threads := c.threads.map (fun t => (t.1, { t.2 with wait := some w })) }

/-- Ladders: the first pass, and a pass that the block has open already. 02_ladder's example: E1, E3, E5 and E7, `pass 2` with
floor 1, and its slot held (R32). -/
theorem test_met_pass :
    met (laddered 0xFFFF 0xFFFF 2 (uni [0]) id) (.pass { vE with a := .s 2 }) (fun x => x.g.ladder == some ladder0 && x.blk.pass != some 0 &&
      okB (fetchNat x.s x.g.ctx (0x8040 + 8 * x.blk.lin) 8) (fun r => bits r.1 0 16 == 0xFFFF)) = true ∧
    met (laddered 0xFFFF 0xFFFF 2 (uni [0]) (fun k => { k with pass := some 0 })) (.pass { vE with a := .s 2 }) (fun x => x.blk.pass == some 0) = true ∧
    ([(0xFFFF, 0xFFFF, 0, true), (0xFFFF, 0, 1, false), (0, 0, 1, true), (0, 1, 2, false), (1, 1, 2, true), (1, 1 + 2 ^ 32, 2, false),
      (1, 1 + 2 ^ 40, 2, true)] : List (Nat × Nat × Nat × Bool)).all (fun e =>
      nextIs (exec (.passOpen 0) (laddered e.1 e.2.1 2 (waitsAs (.pass e.2.2.1)) id)) (fun t => (t.block? 0).any (fun k => k.pass == some e.2.2.1) == e.2.2.2 &&
        bitAt (t.mem.nat 0x8040 8) 56 == e.2.2.2)) = true := by decide +kernel

/-- 02_ladder's example, E2 and E4: the first `seal` of version 0 counts in `SEALS0` and `MINQ0`; the second completes it. -/
theorem test_seal_example :
    let s := fun (seals minq q : Nat) => laddered 0xFFFF (0xFFFF + 2 ^ 56) 2 (waitsAs .seal) (fun k => { k with pass := some 0, sealQ := some q })
      |> fun s => { s with mem := (s.mem.write 0x8018 (leBytes 4 seals)).write 0x8028 (leBytes 2 minq) }
    met (laddered 0xFFFF 0xFFFF 2 (uni [0x400]) (fun k => { k with pass := some 0 })) (.seal { vE with a := .s 2 }) (fun x => x.g.ladder.isSome && x.blk.pass.isSome &&
      decide (x.uni (.s 2) < 2 ^ 16)) = true ∧
    nextIs (exec (.sealCommit 0) (s 0 0xFFFF 0x400)) (fun t => t.mem.nat 0x8010 2 == 0xFFFF && t.mem.nat 0x8018 4 == 1 && t.mem.nat 0x8028 2 == 0x400 &&
      t.mem.nat 0x8040 8 == 0x04000000) = true ∧
    nextIs (exec (.sealCommit 0) (s 1 0x400 0x300)) (fun t => t.mem.nat 0x8010 4 == 0x03000000 && t.mem.nat 0x8018 4 == 0 && t.mem.nat 0x8028 2 == 0xFFFF &&
      (t.block? 0).any (fun k => k.pass.isNone)) = true := by decide +kernel

/-- 02_ladder's example: `lres` of tile 0 gives the floor, version 0 and quality 0x0300; with `OPEN`, version 1 and quality
0x0800 in slot 1. `lhold` at its last count, `ldrop` of the only hold, and `lhold` of a ladder that is cut. -/
theorem test_ladder_access :
    let i : FmtE := { zE with pd := 1, a := .s 2, b := .const 0, d := .s 4 }
    let regs := fun (o : Host.Outcome State Fault Refusal) => nextIs o (fun t => (t.crew? 0 0).any (fun c =>
      c.getS 4 == 0x20000 && c.getS 5 == 0x03000000 && c.getP 1 == 0xFFFFFFFF#32))
    regs (exec (.lres i) (laddered 0 0x08000001 2 (uni [0x8000]) id)) = true ∧
    nextIs (exec (.lres i) (laddered 0 0x08000001 6 (uni [0x8000]) id)) (fun t => (t.crew? 0 0).any (fun c => c.getS 4 == 0x21000 && c.getS 5 == 0x08000001)) = true ∧
    ([(254, 2), (0, 2), (0, 10)] : List (Nat × Nat)).all (fun e => met (laddered 0 (0x08000001 + e.1 * 2 ^ 32) e.2 (uni [0x8000]) id) (.lhold i) (fun x =>
      okB (ladderOperand x i .write) (fun r => r.1.any (fun r => r.1.live == decide (e.2 = 2) && decide (holdOf r.2.1 0 < 255))))) = true ∧
    met (laddered 0 (0x08000001 + 2 ^ 40) 2 (uni [0x8000]) id) (.ldrop { i with c := .const 1 }) (fun x =>
      okB (ladderOperand x i .write) (fun r => r.1.any (fun r => r.1.live && decide (0 < holdOf r.2.1 1)))) = true ∧
    nextIs (exec (.ldrop { i with c := .const 1 }) (laddered 0 (0x08000001 + 2 ^ 40) 2 (uni [0x8000]) id)) (fun t => t.mem.nat 0x8040 8 == 0x08000001) = true := by
  decide +kernel

/-- Ladders: a quality beyond 16 bits; an address where no ladder stands; a commit that waits for a collective's write into the
tile. ConesAndCuts: a saved block of a cut grid ends, and its frame goes back to the pool that it came from. -/
theorem test_met_ladder_more :
    let i : FmtE := { zE with pd := 1, a := .s 2, b := .const 0, d := .s 4 }
    met (laddered 0xFFFF 0xFFFF 2 (uni [0x10000]) (fun k => { k with pass := some 0 })) (.seal { vE with a := .s 2 }) (fun x =>
      decide (2 ^ 16 ≤ x.uni (.s 2)) && x.cr.trap.isNone && x.cr.handler.isNone) = true ∧
    ([.lres i, .lhold i, .ldrop { i with c := .const 1 }] : List Instr).all (fun j => met (crewed (uni [0x9000])) j (fun x =>
      okB (ladderOperand x i .read) (fun r => r.1.isNone) && okB (ladderOperand x i .write) (fun r => r.1.isNone))) = true ∧
    (let s := { laddered 0xFFFF (0xFFFF + 2 ^ 56) 2 (waitsAs .seal) (fun k => { k with pass := some 0, sealQ := some 1 }) with
      ops := [op 9 4 1 (.coll 3 0xC000 0 0 0x20FF8 16) true] }
     (s.block? 0).any (fun k => (s.grid? 0).any (fun g => s.ops.all (fun o => opTouchesTile s k g ladder0 o))) &&
       nextIs (exec (.sealCommit 0) s) (fun t => t == s)) = true ∧
    nextIs (exec (.blockEnd 0) { saving false id with
        blocks := [(0, { savedBlock with frame := 0x800000, framePool := 5 })]
        grids := [(0, { probeGrid ⟨[], []⟩ with st := .cut })] }) (fun t =>
      (t.block? 0).any (fun k => k.st == .ended) && (t.pools.find? 5).any (fun p => p.head == 0x800000 && p.free == 3)) = true := by decide +kernel

/-! ## The matrix unit -/

def grant0 (a b : Fmt) : Grant := ⟨0x04040020101, 16, 16, 32, a, b⟩
def granted (a b : Fmt) (vs : List Nat) : State := blocked (fun k => { k with grant := some (grant0 a b), crews := [(0, uni vs (Crew.at_ 0x10000 1 0 0 1 0 none))] })

/-- MatrixIssue: the smallest and the largest request of `shape`, one granted already; a window that ends with the
scratchpad, a cleared one; each operation under a grant; a signature with a thread missing, and with the last one. -/
theorem test_met_matrix :
    ([1 + 2 ^ 8 + 2 ^ 16 + 0x04 * 2 ^ 32 + 0x04 * 2 ^ 40, 64 + 64 * 2 ^ 8 + 256 * 2 ^ 16 + 0x2C * 2 ^ 32 + 0x2B * 2 ^ 40] : List Nat).all (fun r =>
      met (crewed (uni [r])) (.shape { zA with pd := 15, a := .s 2, d := .s 4 }) (fun x => x.blk.grant.isNone && x.uni (.s 2) == r)) = true ∧
    met (granted .i8 .i8 [0x04040020101]) (.shape { zA with pd := 15, a := .s 2, d := .s 4 }) (fun x => x.blk.grant.any (fun g => g.req == BitVec.ofNat 64 (x.uni (.s 2)))) = true ∧
    met (crewed (uni [393216 - 256 + 256 * 2 ^ 32, 0x01])) (.fmtwin { zA with pd := 15, sub := 15, a := .s 2, b := .s 3 }) (fun x => decide (bits (x.uni (.s 2)) 0 32 + 256 ≤ spBytes x.s x.blk)) = true ∧
    met (granted .i8 .i8 [0, 0x1000, 0]) (.mma { zX with a := .s 2, b := .s 3, c := .s 4, d := .acc 15 }) (fun x => (mmaTrap x { zX with a := .s 2, b := .s 3, c := .s 4, d := .acc 15 }).isNone) = true ∧
    met (granted .f32 .f32 []) (.aclr { zX with d := .acc 15 }) (fun x => (tileTrap x x.blk.grant 15).isNone) = true ∧
    met (granted .f32 .f32 [0, 64]) (.aload { zX with a := .s 2, c := .s 3, d := .acc 1 }) (fun x => x.blk.grant.any (fun g => (tileTrap x (some g) 1).isNone &&
      decide (x.uni (.s 2) + (g.m - 1) * 64 + g.n * 4 ≤ spBytes x.s x.blk))) = true ∧
    met (granted .f32 .f32 [0, 0, 0]) (.adrain { zX with ty := .f32, a := .s 2, c := .s 4, d := .acc 1 }) (fun x => x.blk.grant.any (fun g => (tileTrap x (some g) 1).isNone &&
      drainFormat (mxKind x.blk (.adrain { zX with ty := .f32, a := .s 2, c := .s 4, d := .acc 1 }) []) .f32 0 && (drainTrap x g { zX with ty := .f32, a := .s 2, c := .s 4, d := .acc 1 }).isNone)) = true := by
  decide +kernel

theorem test_met_signature :
    let f : FmtX := { zX with sg := true, cv := 7, a := .s 2, b := .s 3, c := .s 4, d := .acc 0 }
    let s := fun (set : BitVec 16) (crews : Block → Block) => blocked (fun k => crews { k with grant := some (grant0 .i8 .i8), convs := [(7, { Conv.reset with cset := some set, sigOp := some 9 })] })
    met (s 3 (fun k => { k with crews := k.crews ++ [(1, Crew.at_ 0x10000 1 0 1 2 1 none)] })) (.mma f) (fun x => (mmaTrap x f).isNone && decide (7 < slotBudget x.s x.blk) && (x.blk.conv 7).sig.isNone) = true ∧
    met { s 1 id with ops := [op 9 2 1 (.mx (.mma f) [] [] .f32 []) false] } (.mma f) (fun x => (mmaTrap x f).isNone && (op? x.s 9).isSome && x.act == BitVec.allOnes 32) = true := by decide +kernel

/-- MatrixOperations, under a grant of one element: an integer product by hand (row 0 of A is 2, column 0 of B is −3 in 32 places: −192 on 5), and a loaded
tile. -/
theorem test_matrix :
    let base := fun (a : Fmt) (acc : Nat) => (blocked (fun k => { k with grant := some ⟨0, 1, 1, 32, a, a⟩, acc := (Memory.mk [] []).write 0 (leBytes 4 acc) })).setCore 0
      { Core.reset with sp := ((Memory.mk [] []).write 0 (List.replicate 32 2#8)).write 0x1000 (List.replicate 32 0xFD#8) }
    let run := fun (s : State) (i : Instr) (vals : List DWord) (kind : Fmt) => exec (.mxOperation 9) { s with ops := [op 9 2 1 (.mx i vals [] kind [(0, 0, 0)]) true] }
    let tile := fun (o : Host.Outcome State Fault Refusal) (t v : Nat) => nextIs o (fun s => (s.block? 0).any (fun k => tileGet k.acc .f32 t 0 0 == v))
    tile (run (base .i8 5) (.mma { zX with a := .s 2, b := .s 3, c := .const 0, d := .acc 0 }) [0, 0x1000, 0] .i32) 0 (2 ^ 32 - 187) = true ∧
    tile (run (base .f32 5) (.aload { zX with a := .s 2, c := .const 0, d := .acc 3 }) [0, 0, 0] .f32) 3 0x02020202 = true := by decide +kernel

/-- MatrixOperations: −1.5 of a tile drained to the scratchpad, to the bypass tile with `relu`, and to `v9` of lane 0 in `bf16`.
MatrixIssue: a drain to a format that is not listed for the tile's kind. -/
theorem test_met_drain :
    let base := (blocked (fun k => { k with
        grant := some ⟨0, 1, 1, 32, .f32, .f32⟩, acc := (Memory.mk [] []).write 0 (leBytes 4 0xBFC00000)
        crews := k.crews.mapVals (fun _ c => { c with empty := [(Crew.key 9 0, 1)] }) })).setCore 0 Core.reset
    let run := fun (f : FmtX) (v : Nat) => exec (.mxOperation 9) { base with
      ops := [op 9 2 1 (.mx (.adrain f) [0x2000, 0, BitVec.ofNat 64 v] [] .f32 [(0, 0, 0)]) true] }
    nextIs (run { zX with ty := .f32, d := .acc 0 } 0) (fun t => (t.block? 0).any (fun k => (bayPlace t k 0x2000).any (fun p =>
      leNat (readPlace t p 4) == 0xBFC00000))) = true ∧
    nextIs (run { zX with ty := .f32, act := 1, dst := 2, d := .acc 0 } 0) (fun t => (t.block? 0).any (fun k => k.bypass.any (fun m => m.nat 0 4 == 0))) = true ∧
    nextIs (run { zX with ty := .bf16, dst := 1, a := .acc 0, d := .v 9 } (2 ^ 16)) (fun t => (t.crew? 0 0).any (fun c =>
      c.getV 9 0 == 0xBFC0#32 && !c.isEmpty 9 0)) = true ∧
    met (granted .f32 .f32 [0, 0, 0]) (.adrain { zX with ty := .f64, a := .s 2, c := .s 4, d := .acc 1 }) (fun x => x.blk.grant.isSome &&
      !drainFormat (mxKind x.blk (.adrain { zX with ty := .f64, a := .s 2, c := .s 4, d := .acc 1 }) []) .f64 0 && x.cr.trap.isNone && x.cr.handler.isNone) = true := by
  decide +kernel

/-! ## Faults, handlers and hardware errors -/

def pend (cause resume : Nat) : PendTrap := ⟨cause, 5, 0x10000, BitVec.allOnes 32, 9, resume, false, 0⟩
/-- The probe's crew waits at its slot with a trap; its context's handler stands at an address. -/
def trapping (traph : Nat) (f : Crew → Crew) : State :=
  { (crewed (fun c => f { c with trap := some (pend 1 1) })).setCore 0 { Core.reset with slots := [(0, { (probe.slot 0 0) with waiting := [(0, 0)] })] } with
    ctxs := [(0, { cx0 with traph := traph })], mem := codeMem, grids := [(0, probeGrid codeMem)] }
def canRollB (s : State) : Bool :=
  (s.block? 0).any (fun k => k.st == .resident) && (s.crew? 0 0).any (fun c => c.handler.isNone)

/-- FaultsAndErrors: a trap that enters at a branch target, one whose handler's page is absent, one without a handler. -/
theorem test_met_handler :
    ([(0x10000, TrapEntry.enter), (0x40000000, TrapEntry.waitFault), (0, TrapEntry.double), (0x10030, TrapEntry.double)] : List (Nat × TrapEntry)).all (fun e =>
      let s := trapping e.1 id
      canRollB s && (s.slot 0 0).busy.isNone && (s.slot 0 0).waiting == [(0, 0)] && !ringFull s 0 &&
        (s.crew? 0 0).any (fun c => c.trap.isSome && c.late.isNone && c.pendingPf.isNone) && (s.grid? 0).any (fun g => trapEntry s g == e.2)) = true ∧
    nextIs (exec (.handlerEntry 0 0) (trapping 0x10000 id)) (fun t => (t.crew? 0 0).any (fun c => c.getS 64 == 9 && c.getS 65 == 1 &&
      c.handler.isSome && (c.thread? 31).any (fun th => th.pc == 0x10000))) = true := by decide +kernel

/-- A page fault and a protection fault found late; a probe that comes back along two crews, and one that does not. -/
theorem test_met_late :
    ([(cPf, 0), (cPf, 2), (cProt, 1)] : List (Nat × Nat)).all (fun e =>
      canRollB (crewed (fun c => { c with late := some (e.1, 0x9000, e.2, pend e.1 2) }))) = true ∧
    (let s := fun (second : Option Wait) => { twoCrews (fun k => { k with convs := [(5, { Conv.reset with barArrived := [0] }), (6, { Conv.reset with barArrived := [1] })], crews := k.crews.mapVals (fun j c =>
          { c with threads := c.threads.map (fun t => (t.1, { t.2 with since := some 0, wait := if j = 0 then some (.bar 1 5 1 (some 0)) else second, bars := if j = 0 then [(1, 5, 1, some 0)] else t.2.bars })) }) }) with
        dies := [(0, { Die.reset with clk := 50 * 65536 })] }
     canRollB (s none) && (s (some (.bar 1 6 1 (some 0)))).clock 0 == 65536 && probeReturns (s (some (.bar 1 6 1 (some 0)))) (0, 0) 64 (0, 0) &&
       (publishes (s (some (.bar 1 6 1 (some 0)))) 0 0).any (fun w => w.2 == (0, 1)) && !probeReturns (s none) (0, 0) 64 (0, 0)) = true := by decide +kernel

/-- A page fault of a crew and of an engine with a fault ring of one record: the record of its page is there; a new one; the ring is full. -/
theorem test_met_page_fault :
    let s := fun (r : Ring) => { crewed (fun c => { c with pendingPf := some (0x2FFFF, 1, 0) }) with
        rings := [(0, r)], ops := [{ op 9 0 1 (.copy [] none) true with pf := some (0x20000, 0, none) }] }
    (s { Ring.reset with base := 0x9000, widx := 3, ridx := 3, pend := [(3, 2)] }).rings.all (fun e => e.2.pend.find? (fun e => e.2 == 0x2FFFF / 65536) == some (3, 2)) = true ∧
    ringFull (s { Ring.reset with base := 0x9000, widx := 4, ridx := 3 }) 0 = true ∧
    nextIs (exec (.pageFaultRecord (.crew 0 0)) (s { Ring.reset with base := 0x9000, widx := 3, ridx := 3 })) (fun t =>
      t.mem.nat 0x9000 16 == 0x2FFFF + 4 * 2 ^ 64 + 1 * 2 ^ 80 + 3 * 2 ^ 96 && (t.crew? 0 0).any (fun c => c.pfSeq == some 3)) = true ∧
    nextIs (exec (.pageFaultRecord (.engine 9)) (s { Ring.reset with widx := 4, ridx := 3, pend := [(3, 2)] })) (fun t =>
      (op? t 9).any (fun o => o.pf == some (0x20000, 0, some 3))) = true := by decide +kernel

/-- First and second errors at an instruction, with and without `OVS`; units of the lowest and the highest number. -/
theorem test_met_errors :
    let s := fun (retry : List Retry) (ovs : Bool) => { crewed (fun c => { c with retry := retry }) with ctxs := [(0, { cx0 with ovs := ovs })] }
    (canRollB (s [] false) && overScaled (s [⟨0x10000, true, 1, true⟩] true) 0 && !overScaled (s [⟨0x10000, true, 1, true⟩] false) 0) = true ∧
    nextIs (exec (.timingError 0 0 0x10000) (s [⟨0x20000, true, 1, true⟩, ⟨0x10000, true, 1, true⟩] false)) (fun t => t.degraded == [1#64] && (t.grid? 0).any (fun g => g.st == .faulted)) = true ∧
    ([(1, 767), (7, 35), (8, 2 ^ 24 - 1)] : List (Nat × Nat)).all (fun e => !isDegraded probe e.1 e.2 &&
      isDegraded { probe with degraded := [BitVec.ofNat 64 (e.1 + 256 * e.2)] } e.1 e.2) = true ∧
    nextIs (exec (.hbmUncorrectable 5) { probe with hbmRetry := [5] }) (fun t => t.degraded == [0x505#64] && t.hbmRetry.isEmpty) = true := by decide +kernel

/-! ## Packets, graphs, completion -/

/-- A packet of a type with fields at offsets; a machine that has read it as packet 0. -/
def bytesOf (fs : List (Nat × Nat)) : List Byte := leBytes 64 ((fs.map (fun e => e.2 * 2 ^ (8 * e.1))).sum)
def pkt0 (fs : List (Nat × Nat)) : Packet := newPacket probe 0 0 0 (bytesOf fs) [] 0 false none
def holding (p : Packet) : State := { probe with packets := [(0, p)], nextPkt := 1 }

/-- Two packets of queue 0, at its third and its last place: a `LAUNCH` that names a `LEXT` and the `LEXT`. -/
def queued (ridx widx flags : Nat) : State :=
  stored [(0x5000, 8, 0x6000), (0x5008, 8, 2 + 2 ^ 8 + 2 ^ 11), (0x5010, 8, ridx), (0x5018, 8, widx), (0x6000 + 64 * 2, 8, 1 + 256 * flags),
    (0x6000 + 64 * 3, 8, 2)]

/-- Packets: one that is read, one with its `LEXT`, none left; packets of each type that start. -/
theorem test_met_packet :
    nextIs (exec (.packetRead 0 0) (queued 2 3 0)) (fun t => (t.packets.find? 0).any (fun p => p.lext.isEmpty && p.idx == 2) && t.mem.nat 0x5010 8 == 3) = true ∧
    nextIs (exec (.packetRead 0 0) (queued 2 4 4)) (fun t => (t.packets.find? 0).any (fun p => p.lext.isEmpty && p.cont) && t.mem.nat 0x5010 8 == 3 &&
      lextOwner t 0 0 3 == some 0 && nextIs (exec (.packetRead 0 0) t) (fun u => (u.packets.find? 0).any (fun p => p.lext.length == 64) && u.mem.nat 0x5010 8 == 4)) = true ∧
    nextIs (exec (.packetRead 0 0) (queued 4 4 0)) (fun t => t.packets.isEmpty) = true ∧
    ([[(0, 4), (0x10, 0x8000), (0x18, 0x9000), (0x20, 64), (0x24, 1), (0x28, 0xA000)], [(0, 5), (0x10, 0x8000), (0x18, 7), (0x20, 1)],
      [(0, 6), (0x10, 0x8000), (0x20, 2), (0x28, 1000)], [(0, 7), (0x10, 2)], [(0, 8), (0x28, 15), (0x29, 30), (0x18, 2 ^ 30), (0x20, 2 ^ 31)],
      [(0, 8), (0x28, 3)], [(0, 9)], [(0, 0)], [(0, 4)]] : List (List (Nat × Nat))).all (fun fs =>
        let s := holding (pkt0 fs)
        (selected s 0).isSome && headerOk s (pkt0 fs)) = true ∧
    (copyOk (pkt0 [(0, 4), (0x10, 0x8000), (0x18, 0x9000), (0x20, 64), (0x24, 1), (0x28, 0xA000)]) && !copyOk (pkt0 [(0, 4)]) &&
      poolsetOk (pkt0 [(0, 8), (0x28, 15), (0x29, 30), (0x18, 2 ^ 30), (0x20, 2 ^ 31)]) && poolsetOk (pkt0 [(0, 8), (0x28, 3)])) = true := by decide +kernel

/-- `SIGNAL` adds at the top of a word; `WAIT` is met and not met, and expires; `SETDET`; a pool that another context owns. -/
theorem test_packets :
    let run := fun (i : Instr) (fs : List (Nat × Nat)) (p : State → Packet → Bool) => nextIs (exec i { holding (pkt0 fs) with
        mem := memWith [(0x8000, 8, 0xFFFFFFFFFFFFFFFF)], pools := [(3, ⟨0, 0, 0, 8, some 1, 0⟩)] }) (fun t => (t.packets.find? 0).any (p t))
    run (.signal 0) [(0, 5), (0x10, 0x8000), (0x18, 7), (0x20, 1)] (fun t p => p.status == 1 && t.mem.nat 0x8000 8 == 6) = true ∧
    run (.waitPacket 0) [(0, 6), (0x10, 0x8000), (0x20, 2), (0x28, 1000)] (fun _ p => p.st == .ended) = true ∧
    run (.waitPacket 0) [(0, 6), (0x10, 0x8000), (0x20, 1), (0x28, 1000)] (fun _ p => p.st == .started) = true ∧
    run (.setdet 0) [(0, 7), (0x10, 2)] (fun t p => p.status == 1 && queueLevel t 0 0 == 2) = true ∧
    run (.poolset 0) [(0, 8), (0x28, 3)] (fun _ p => p.status == 6 && p.reason == 8) = true ∧
    nextIs (exec (.waitPacketTimeout 0) { holding { pkt0 [(0, 6), (0x28, 1000)] with st := .started, tstart := 5 } with time := 1005 }) (fun t =>
      (t.packets.find? 0).any (fun p => p.status == 5)) = true ∧
    nextIs (exec (.priorityAging 0) { holding { pkt0 [(0, 4)] with able := some 0 } with time := 100000 }) (fun t => (t.packets.find? 0).any (·.aged)) = true := by decide +kernel

/-- A kernel of one variant at 0x8000 (22_object_format's records), and a `LAUNCH` of one block of it. -/
def kernelAt : List (Nat × Nat × Nat) :=
  [(0x8000, 8, 2 ^ 32), (0x8010, 8, 32), (0x8018, 8, 64), (0x8040, 8, 1 * 2 ^ 8 + 1 * 2 ^ 16 + 3 * 2 ^ 24 + 16 * 2 ^ 32 + 16 * 2 ^ 40 + 512 * 2 ^ 48),
    (0x8048, 8, 384), (0x8050, 8, 0x10000)]
def launchOf (more : List (Nat × Nat)) : List (Nat × Nat) := [(0, 1), (0x10, 0x8000), (0x18, 0x1234), (0x20, 1), (0x24, 1), (0x26, 1)] ++ more

/-- Launches: one that starts its grid, and one for each reason that a packet alone can give (R339). -/
theorem test_met_launch :
    let s := fun (fs : List (Nat × Nat)) => { holding (pkt0 fs) with mem := memWith kernelAt }
    (readKernel (s []) cx0 0x8000).any (fun k => ([(launchOf [], 0), (launchOf [(0x2F, 1)], 1), (launchOf [(0x23, 3)], 3), (launchOf [(1, 8), (0x38, 1)], 5),
      (launchOf [(2, 33)], 7)] : List (List (Nat × Nat) × Nat)).all (fun e => (selected (s e.1) 0).any (fun p => refusal (s e.1) p (some k) true == e.2))) = true := by
  decide +kernel

/-- A graph whose packet is packet 0: its nodes and their run state. -/
def nodeAt (kind : Nat) (succ : List Nat) (b0 b1 addr xtra : Nat) : NodeRec := ⟨kind, succ, b0, b1, addr, xtra⟩
def graphed (nodes : List NodeRec) (runs : NMap NodeRun) (ws : List (Nat × Nat × Nat)) : State :=
  { holding { pkt0 [(0, 3), (0x10, 0x9000)] with st := .started, graph := some 0 } with
    mem := memWith ws, graphs := [(0, ⟨0, 0, nodes, runs⟩)] }
def runOf (t : State) (n : Nat) (p : NodeRun → Bool) : Bool := (t.graphs.find? 0).any (fun r => p (r.node n))

/-- Graphs: a record of one node that is held and one that is refused; nodes of each kind. -/
theorem test_graph_nodes :
    let g := fun (kind : Nat) => { holding (pkt0 [(0, 3), (0x10, 0x9000)]) with
        mem := memWith [(0x9004, 4, 1), (0x9010, 8, kind + 0xFFFFFFFF * 2 ^ 32), (0x9018, 8, 0xFFFFFFFF), (0x9020, 8, 0xA000)] }
    nextIs (exec (.graph 0) (g 1)) (fun t => (t.graphs.find? 0).any (fun r => r.nodes.length == 1)) = true ∧
    nextIs (exec (.graph 0) (g 7)) (fun t => (t.packets.find? 0).any (fun p => p.status == 6 && p.reason == 8)) = true ∧
    (let s := graphed [nodeAt 1 [] 0 0 0xA000 0] [] ((launchOf []).map (fun e => (0xA000 + e.1, 1, e.2 % 256)) ++ [(0xA010, 8, 0x8000)])
     (nodePacket s cx0 (pkt0 []) 0 0 0xA000).any (fun p => poolsFree s p && p.type == 1) &&
       (s.graphs.find? 0).any (fun r => r.ready 0)) = true ∧
    nextIs (exec (.copyNode 0 0) (graphed [nodeAt 2 [] 0 0 0xA000 0] [] [(0xA000, 8, 4), (0xA020, 8, 64)])) (fun t =>
      t.ops.any (fun o => o.pkt == some 1)) = true ∧
    nextIs (exec (.signalNode 0 0) (graphed [nodeAt 5 [1] 0 0 0xA000 77, nodeAt 6 [] 5 0 0xA000 78] [] [])) (fun t =>
      t.mem.nat 0xA000 8 == 77 && runOf t 0 (fun n => n.status == some 1)) = true ∧
    nextIs (exec (.cond 0 0) (graphed [nodeAt 4 [1, 2] 0 0 0xA000 0, nodeAt 6 [] 0 0 0 1, nodeAt 6 [] 0 0 0 1] [] [])) (fun t =>
      runOf t 0 (fun n => n.zero) && runOf t 1 (fun n => n.status.isNone) && runOf t 2 (fun n => n.status == some 0)) = true := by decide +kernel

/-- `WAIT` nodes that start, are met and expire; a `LOOP` that starts, and its run's end with its word 0, 2 and 1 below and at
its limit. -/
theorem test_graph_loops :
    let st : NodeRun := ⟨some 0, none, 0, false, none, none⟩
    nextIs (exec (.waitNode 0 0) (graphed [nodeAt 6 [] 5 0 0xA000 78] [] [])) (fun t => runOf t 0 (fun n => n.started == some 0 && n.status.isNone)) = true ∧
    nextIs (exec (.waitNode 0 0) (graphed [nodeAt 6 [1] 5 0 0xA000 78, nodeAt 6 [] 0 0 0 1] [(0, st)] [(0xA000, 8, 78)])) (fun t => runOf t 0 (fun n => n.status == some 1)) = true ∧
    nextIs (exec (.waitNodeTimeout 0 0) { graphed [nodeAt 6 [1] 5 0 0xA000 78, nodeAt 6 [] 0 0 0 1] [(0, st)] [] with time := 5000 }) (fun t =>
      runOf t 0 (fun n => n.status == some 5)) = true ∧
    nextIs (exec (.loop 0 0) (graphed [nodeAt 3 [] 1 1 0xA000 3, nodeAt 6 [] 0 0 0 1] [] [])) (fun t => runOf t 0 (fun n => n.started == some 0)) = true ∧
    ([(0, 0, some 1), (2, 0, some 3), (1, 1, none), (1, 2, some 4)] : List (Nat × Nat × Option Nat)).all (fun e =>
      nextIs (exec (.loopRunEnd 0 0) (graphed [nodeAt 3 [2] 1 1 0xA000 3, nodeAt 6 [] 0 0 0 1, nodeAt 6 [] 0 0 0 1]
        [(0, { st with runs := e.2.1 }), (1, { st with status := some 1 })] [(0xA000, 8, e.1)])) (fun t =>
          runOf t 0 (fun n => n.status == e.2.2 && n.runs == e.2.1 + 1) && runOf t 1 (fun n => n.status.isNone == e.2.2.isNone))) = true := by decide +kernel

/-- RecordWrites: an ended packet, and grids done, cut, faulted, and running. -/
theorem test_met_record :
    let p := { pkt0 [(0, 1), (4, 0x77)] with st := .started, grid := some 0, tstart := 3 }
    let s := fun (st : GridState) => { holding p with grids := [(0, { probeGrid ⟨[], []⟩ with st := st })], blocks := [] }
    ([(.done, 1), (.cut, 2), (.faulted, 7)] : List (GridState × Nat)).all (fun e => quiet (s e.1) 0 && nextIs (exec (.completionRecordWrite 0) (s e.1)) (fun t =>
      (t.packets.find? 0).any (fun p => p.st == .completed && p.status == e.2))) = true ∧
    nextIs (exec (.completionRecordWrite 0) (s .running)) (fun t => (t.packets.find? 0).any (fun p => p.st == .started)) = true ∧
    nextIs (exec (.completionRecordWrite 0) (holding ((pkt0 [(0, 4), (8, 0xB000)]).finish 6 1))) (fun t => t.mem.nat 0xB000 4 == 0x106) = true := by decide +kernel

/-- Packets: an entry found malformed stays out of use until its indices are equal (R333). Graphs: the `TIMEOUT` of a loop's
earlier run is kept (R342). ManifestWrites: a `LAUNCH` that was refused, and a `KERN` node whose packet is a `SIGNAL` (R387). -/
theorem test_met_more_packets :
    let q := fun (log : Nat) (ridx : Nat) (bad : Bool) => { stored [(0x5000, 8, 0x6000), (0x5008, 8, log + 2 ^ 11), (0x5010, 8, ridx), (0x5018, 8, 3)] with
      queues := [(0, ⟨none, bad, []⟩)] }
    ([(17, 2, false, true, 2), (2, 2, true, true, 2), (2, 3, true, false, 3), (2, 2, false, false, 3)] : List (Nat × Nat × Bool × Bool × Nat)).all (fun e =>
      nextIs (exec (.packetRead 0 0) (q e.1 e.2.1 e.2.2.1)) (fun t => (queueRun t 0 0).bad == e.2.2.2.1 && t.mem.nat 0x5010 8 == e.2.2.2.2)) = true ∧
    nextIs (exec (.loopRunEnd 0 0) (graphed [nodeAt 3 [2] 1 1 0xA000 3, nodeAt 6 [] 0 0 0 1, nodeAt 6 [] 0 0 0 1]
      [(0, ⟨some 0, none, 1, false, none, none⟩), (1, ⟨some 0, some 5, 0, false, none, none⟩)] [(0xA000, 8, 1)])) (fun t =>
        runOf t 1 (fun n => n.odd == some (5, 0) && n.status.isNone)) = true ∧
    (let ended := fun (fs : List (Nat × Nat)) (n : Option (Nat × Nat)) => { holding { (pkt0 fs).finish 6 1 with node := n } with
        mem := memWith [(0x9004, 4, 0x100)]
        rings := [(0, { Ring.reset with manBase := 0x9000, manSz := 0x1000 })]
        graphs := [(1, ⟨1, 0, [nodeAt 1 [] 0 0 0xA000 0], []⟩)] }
     ([ended [(0, 1)] none, ended [(0, 5)] (some (1, 0))] : List State).all (fun s =>
       (s.packets.find? 0).any (fun p => p.st == .ended && p.grid.isNone && p.cmpl == 0 && (p.type == 1 || isKernNode s p)) &&
         natVirt s cx0 (s.ring 0).manBase 16 == some (0x100 * 2 ^ 32)) = true) := by decide +kernel

/-! ## The host boundary -/

/-- Platform: a doorbell that is heard and one that is not; a descriptor that is read; a context that leaves; fault service
of a record below and at the new index; invalidation; bring-up; a lane's sixteenth retry. -/
theorem test_met_platform :
    let ready := { queued 2 3 0 with ctl := { Ctl.reset with dev := .ready } }
    (queueEntry ready 0 0).any (fun e => e.enabled && !e.device) = true ∧
    nextIs (exec (.doorbellWrite 0 0 9) ready) (fun t => t.mem.nat 0x5018 8 == 9) = true ∧
    nextIs (exec (.doorbellWrite 0 0 9) (queued 2 3 0)) (fun t => t.mem.nat 0x5018 8 == 3) = true ∧
    (let s := { ready with mem := memWith [(0x9000, 8, 0x1000), (0x9008, 8, 0x40), (0x9010, 8, 0x80), (0x9018, 8, 0x7000), (0x9020, 4, 0xE)] }
     nextIs (exec (.contextSlotWrite 63 0x9000) s) (fun t => (t.ctxs.find? 63).any (fun c => c.ptroot == 0x1000 && c.level == 2 && c.debug && c.ovs))) = true ∧
    nextIs (exec (.contextSlotWrite 0 0) { ready with packets := [(0, pkt0 [(0, 4)])] }) (fun t => (t.ctxs.find? 0).any (·.leaving)) = true ∧
    ([(5, true), (6, true), (7, false)] : List (Nat × Bool)).all (fun e =>
      let s := crewed (fun c => { c with pendingPf := some (0x9000, 0, 0), pfSeq := some 6 })
      nextIs (exec (.frridxWrite 0 e.1) s) (fun t => (t.crew? 0 0).any (fun c => c.pendingPf.isSome == e.2) && (t.ring 0).ridx == e.1)) = true ∧
    nextIs (exec (.invctlInvalidate 0 3) probe) (fun t => (t.ring 0).invCtl == 3 &&
      nextIs (exec (.invalidationDone 0) { t with tlb := [⟨0, 0, 21, 0x1F, none⟩] }) (fun u => (u.ring 0).invCtl == 2 && u.tlb.isEmpty)) = true := by decide +kernel

theorem test_bringup :
    let at_ := fun (d : DevState) => { probe with ctl := { Ctl.reset with dev := d, linkUp := true } }
    nextIs (exec .hostLinkUp State.reset) (fun t => t.ctl.dev == .awaiting) = true ∧
    nextIs (exec (.fwctlVerify (1 + 2 ^ 58)) (at_ .awaiting)) (fun t => t.ctl.dev == .verifying && t.ctl.fwLen == 64 * 2 ^ 20) = true ∧
    nextIs (exec (.fwctlVerify (1 + 2 ^ 58 + 2 ^ 32)) (at_ .awaiting)) (fun t => t.ctl.dev == .awaiting) = true ∧
    nextIs (exec (.firmwareStagingWindowWrite (64 * 2 ^ 20 - 1) [7#8]) (at_ .refused)) (fun t => t.ctl.fw.nat (64 * 2 ^ 20 - 1) 1 == 7) = true ∧
    nextIs (exec (.rstctlReset 0xD1) { at_ .ready with degraded := [1] }) (fun t => t.ctl.dev == .reset && t.degraded == [1] && !t.ctl.linkUp && t.ctxs.isEmpty) = true ∧
    nextIs (exec .functionLevelReset (at_ .ready)) (fun t => t.ctl.dev == .reset && t.ctl.linkUp) = true ∧
    nextIs (exec (.controlRegisterWrite 0x5FF8 0x8000000000000023) probe) (fun t => t.routes.getD 1023 0 == 0x8000000000000023#64) = true ∧
    nextIs (exec (.hostCxlStore 0x8000 [1#8, 2#8]) { probe with ctl := { Ctl.reset with pkgId := 3 } }) (fun t => t.mem.nat (3 * 2 ^ 48 + 0x8000) 2 == 0x201) = true ∧
    nextIs (exec (.laneDrop 35 3) { probe with ports := [(35, { Port.reset with retries := List.replicate 16 3, lanes := 0xA })] }) (fun t =>
      t.degraded == [0x2307#64] && (t.ports.getD 35 Port.reset).retired) = true ∧
    nextIs (exec (.laneDrop 35 3) { probe with ports := [(35, { Port.reset with retries := List.replicate 15 3 })] }) (fun t => t.degraded.isEmpty) = true ∧
    nextIs (exec (.clockThrottle 3) probe) (fun t => (t.die 3).throttled.isSome) = true := by decide +kernel

/-- ControlReads, HostStores, Resets: registers as they read; a host store beyond a withdrawn page and one out of range; what
a reset keeps; a dropped lane that leaves three, and one that retires a port with its routes. -/
theorem test_met_control :
    let s := { probe with ctl := { Ctl.reset with dev := .ready, hdm := [0, 2], pkgId := 3 }, degraded := [5], routes := [(1, 0x8000000000000023#64)] }
    controlRead s 0 = 259 ∧ controlRead s 0x10 = 3 ∧ controlRead s 0x1000 = 64 ∧ controlRead s 0x1008 = 0 ∧ controlRead s 0x6000 = 0 ∧
    controlRead s 0x4008 = 0x8000000000000023 ∧
    nextIs (exec (.hostCxlStore 0xFFFF [1#8, 2#8]) s) (fun t => t.mem.nat (3 * 2 ^ 48 + 0x1FFFF) 1 == 1 && t.mem.nat (3 * 2 ^ 48 + 0x30000) 1 == 2) = true ∧
    nextIs (exec (.hostCxlStore (0xC000000000 - 0x20001) [1#8, 2#8]) s) (fun t => t.mem.nat (3 * 2 ^ 48 + 0x1FFFF) 1 == 0) = true ∧
    nextIs (exec .fundamentalReset { s with ports := [(4, { Port.reset with retired := true, lanes := 1 })], mem := memWith [(2 ^ 48, 1, 9)] }) (fun t =>
      t.mem.nat (2 ^ 48) 1 == 9 && t.ports.getD 4 Port.reset == { Port.reset with retired := true }) = true ∧
    nextIs (exec (.laneDrop 35 3) { s with ports := [(35, { Port.reset with retries := List.replicate 16 3 })] }) (fun t =>
      (t.ports.getD 35 Port.reset).lanes == 7 && t.degraded == [5]) = true ∧
    nextIs (exec (.laneDrop 35 3) { s with ports := [(35, { Port.reset with retries := List.replicate 16 3, lanes := 9 })] }) (fun t =>
      t.routes.getD 1 0 == 0x23#64) = true ∧
    nextIs (exec (.frridxWrite 0 5) (blocked (fun b => { b with fseq := some 6 }))) (fun t => ((t.block? 0).bind (·.fseq)) == some 6) = true ∧
    nextIs (exec (.controlRegisterWrite 0x10 5) { State.reset with mem := ⟨[(7, 9#8)], []⟩ }) (fun t => t.mem.nat (5 * 2 ^ 48 + 7) 1 == 9) = true ∧
    nextIs (exec (.arithmeticClockRestore 3) { probe with dies := [(3, { (probe.die 3) with throttled := some 1 })] }) (fun t => (t.die 3).throttled.isNone) = true := by decide +kernel

/-- SpdmResponder: a connection that has come to its end, and a part of a large response. -/
theorem test_met_spdm :
    let s := { State.reset with ctl := { Ctl.reset with linkUp := true }, spdm := { State.reset.spdm with phase := 3, negotiated := true, large := [7#8] } }
    s.ctl.linkUp = true ∧ s.spdm.phase = 3 ∧ s.spdm.negotiated = true ∧ (s.spdm.large.drop (0 * chunkBytes)).take chunkBytes ≠ [] := by
  refine ⟨rfl, rfl, rfl, ?_⟩
  simp [chunkBytes, Nat.add_comm 1]

/-- The SHAKE256 of no bytes, its first eight bytes (FIPS 202). -/
theorem test_shake : (shake256 []).take 8 = [0x46#8, 0xB9#8, 0xDD#8, 0x2B#8, 0x0B#8, 0xA8#8, 0x8D#8, 0x13#8] := by decide +kernel

/-! ## Steps, rounding, worked examples -/

/-- StepRunsDecoded: the machine that fetches `iadd`. -/
theorem test_met_step :
    let s := State.reset.withFetchWord 96 0x000078001800002000013C01
    let p : Path := ⟨0, 0, BitVec.allOnes 32, 0x10000, false, false⟩
    s.issue = [p] ∧ (match Cx.of { s with issue := [], path := p } ⟨false, 15⟩ with
      | some x => isSlot p.pc && !x.blk.fresh &&
        (match fetchLine { s with issue := [], path := p } x.g p.pc with
          | (.ok _ _ _ _, line) => lineWordOk line && slotOk line 0 &&
            (match decode (lineSlot line 0) with
              | .ok i => decide (i = .iadd ⟨on, 0, 0, 15, .f64, 0, 0, .i32, .v 0, false, .v 1, false, .v 0, false, .v 2⟩)
              | .error _ => false)
          | _ => false)
      | none => false) = true ∧
    nextIs (step s) (fun t => (t.crew? 0 0).any (fun c => c.threads.all (fun e => e.2.pc == 0x1000C))) = true ∧
    nextIs (step { s with path := p, issue := [{ p with pc := 0x1000C }] }) (fun t => t.issue.isEmpty) = true := by decide +kernel

/-- StepRunsDecoded: a fresh block's first instruction at its entry that is no `region`, and a slot whose word is no
instruction, with its guard's threads. -/
theorem test_met_step_traps :
    let trapped := fun (s : State) (cause : Nat) => nextIs (step s) (fun t => (t.crew? 0 0).any (fun c => c.trap.any (fun q => q.cause == cause && q.pc == 0x10000))) = true
    let fresh := fun (s : State) => s.updBlock 0 (fun b => { b with fresh := true })
    let s := State.reset.withFetchWord 96 0x000078001800002000013C01
    let no := State.reset.withFetchWord 96 0x3C00
    ((Cx.of { fresh s with issue := [], path := ⟨0, 0, BitVec.allOnes 32, 0x10000, false, false⟩ } ⟨false, 15⟩).any (fun x =>
      x.blk.fresh && (x.variant.map (·.entry)) == some 0x10000 && x.cr.trap.isNone && x.cr.handler.isNone)) = true ∧
    trapped (fresh s) 2 ∧ trapped no 1 := by decide +kernel

/-- RoundingIsCorrect: a tie of `f16`, and the least number of `f64`. -/
theorem test_met_rounding :
    ratOf (.fin false 2049 0) = some 2049 ∧ (roundTo .f16 0 0 (.fin false 2049 0) false 0).2 &&& Flags.overflow = 0 ∧
    (roundTo .f16 0 0 (.fin false 2049 0) false 0).1 = 0x6800 ∧ (roundTo .f16 4 0 (.fin false 2049 0) false 0).1 = 0x6801 ∧
    (roundTo .f64 1 0 (.fin true 1 (-1074)) false 0) = (0x8000000000000001, 0) := by
  refine ⟨?_, by decide +kernel, by decide +kernel, by decide +kernel, by decide +kernel⟩
  simp [ratOf]

/-- R95's example: 2.8125 to `bin8p4se` under `sr`, with the two words, and under `rne`. -/
theorem test_sr :
    let to_ := fun (mode word : Nat) => (roundTo (.b8 false true 4) mode 0 (.fin false 45 (-4)) false word).1
    to_ 5 0x30000000 = 0x4C ∧ to_ 5 0x90000000 = 0x4B ∧ to_ 0 0 = 0x4B := by decide +kernel

/-- A crew with values of `v2` in its first lanes, all of them active, and `v4` after an instruction. -/
def lanesOfV (vs : List Nat) (i : Instr) (n : Nat) : List Nat :=
  let s := { crewed (fun c => { c with v := vs.zipIdx.map (fun e => (Crew.key 2 e.2, BitVec.ofNat 32 e.1)) }) with
    path := ⟨0, 0, BitVec.ofNat 32 (2 ^ vs.length - 1), 0x10000, false, false⟩ }
  match exec i s with
  | .next t => ((t.crew? 0 0).map (fun c => (List.range n).map (fun l => (c.getV 4 l).toNat))).getD []
  | _ => []

/-- 14_isa_float's example of `bquant.blk16` (R238), under `rne`, `rtz` and `rup`. -/
theorem test_bquant :
    let b := fun (rnd : BitVec 3) => lanesOfV [0x41200000, 0x3E980000, 0xBF800000, 0] (.bquant { vA1 (.b8 false true 4) with ty2 := .f32, rnd := rnd, sat := 1 }) 5
    b 0 = [0x7C7A, 0x7C52, 0x7CE0, 0x7C00, 0] ∧ b 1 = [0x7C7A, 0x7C51, 0x7CE0, 0x7C00, 0] ∧ b 2 = [0x7C7A, 0x7C52, 0x7CE0, 0x7C00, 0] := by decide +kernel

/-- 13_isa_integer's example of equal lanes (R218, R207). -/
theorem test_match :
    lanesOfV [5, 9, 5, 5, 2, 9, 5, 7] (.matchAny (vA1 .n32)) 8 = [0x4D, 0x22, 0x4D, 0x4D, 0x10, 0x22, 0x4D, 0x80] ∧
    lanesOfV [0x4D, 0x22, 0x4D, 0x4D, 0x10, 0x22, 0x4D, 0x80] (.popc (vA1 .n32)) 8 = [4, 2, 4, 4, 1, 2, 4, 1] := by decide +kernel

/-! ## Clauses of the statements that the tests above do not reach -/

/-- A machine whose page 5 of HBM has been withdrawn. -/
def gone (s : State) : State := { s with degraded := [0x505#64] }

/-- StorePathPerform and LoadPerform (R353): an access to a withdrawn page is astray, or stands where its address is mapped. -/
theorem test_met_withdrawn :
    withdrawn (gone probe) (.g 0x50000) = true ∧ translate (gone probe) 0 0x50000 .write = .pf ∧
    (let astray := fun (s : State) (i : Instr) (acc : Nat) => nextIs (exec i (gone s)) (fun t => (t.crew? 0 0).any (fun c =>
        c.late.any (fun l => l.1 == cPf && l.2.1 == 0x50000 && l.2.2.1 == acc) && c.loads.length + c.storePath.length == 1))
     let load : State := crewed (fun c => { c with loads := [⟨1, .g 0x50000, 4, 0, .raw, ⟨true, 4, 1, 31, 1⟩, 0x50000, 1#32 <<< 31⟩] })
     astray (path [.store 1 (.g 0x50000) [0x5A#8] 0x50000 1#32]) (.storePathPerform 0 0) 1 = true ∧
     astray (path [.atomic 1 (.g 0x50000) 4 0 1 0 none 0x50000 1#32]) (.storePathPerform 0 0) 1 = true ∧
     astray load (.loadPerform 0 0 0) 0 = true) ∧
    nextIs (exec (.storePathPerform 0 0) (gone (path [.store 1 (.g 0x50000) [0x5A#8] 0x60000 1#32]))) (fun t => t.mem.nat 0x60000 1 == 0x5A && t.mem.nat 0x50000 1 == 0) = true ∧
    nextIs (exec (.storePathPerform 0 0) (gone (path [.atomic 1 (.g 0x50000) 4 0 7 0 none 0x60000 1#32]))) (fun t => t.mem.nat 0x60000 4 == 7) = true ∧
    nextIs (exec (.loadPerform 0 0 0) { gone (crewed (fun c => { c with
        loads := [⟨1, .g 0x50000, 4, 0, .raw, ⟨true, 4, 1, 31, 1⟩, 0x60000, 1#32 <<< 31⟩], empty := [(Crew.key 4 31, 1)] })) with mem := memWith [(0x60000, 4, 77)] })
      (fun t => (t.crew? 0 0).any (fun c => c.getV 4 31 == 77#32)) = true := by decide +kernel

/-- StorePathPerform: a store and an atomic behind an older load of their bytes (R61); Read Copies of the core's L1 that the
write covers, that the core owned, and that it neither covers nor owned (R54). -/
theorem test_met_store_order :
    (let held := fun (e : SpEntry) => crewed (fun c => { c with storePath := [e], loads := [⟨1, .g 0x8000, 4, 0, .raw, ⟨true, 4, 1, 0, 1⟩, 0x8000, 1#32 <<< 0⟩] })
     ([.store 2 (.g 0x8003) [1#8] 0x8003 1#32, .atomic 2 (.g 0x8000) 4 0 1 0 none 0x8000 1#32] : List SpEntry).all (fun e =>
       nextIs (exec (.storePathPerform 0 0) (held e)) (fun t => t == held e)) = true) ∧
    (let s := fun (own : NMap Nat) => { path [.store 1 (.g 0x8000) [1#8, 2#8, 3#8, 4#8, 5#8] 0x8000 1#32] with
        owners := own, copies := [(l1Of probe 0, [(0x2000, ⟨9, ⟨0, 0⟩⟩), (0x2001, ⟨9, ⟨0, 0⟩⟩), (0x2003, ⟨9, ⟨0, 0⟩⟩)])] }
     let copies := fun (own : NMap Nat) => match exec (.storePathPerform 0 0) (s own) with
       | .next t => ((t.copies.getD (l1Of probe 0) []).map (fun e => (e.1, e.2.val.toNat)), t.owners.find? 0x2000 == some (ownerId probe 0))
       | _ => ([], false)
     copies [] = ([(0x2000, 0x04030201), (0x2003, 9)], true) ∧
     copies [(0x2001, ownerId probe 0)] = ([(0x2000, 0x04030201), (0x2001, 5), (0x2003, 9)], true)) := by decide +kernel

/-- BarrierCompletion: an arrival that was issued before the generation before it completed brings its own count (R262).
DependentKernels: the last crew's exit ends the phase (R68); another crew still runs; a cut producer whose block has not ended.
Monitors: a re-read that fails, with the deadline reached and not. -/
theorem test_met_sync_more :
    nextIs (exec (.storePathPerform 0 0) { path [.marker 1 (.bar 3 0 2)] with bars := [⟨0, 3, barUnit 3 0, 0, none, [], 4⟩] }) (fun t =>
      (barInst t 0 3 (barUnit 3 0) 0).count == some 2 && (barInst t 0 3 (barUnit 3 0) 0).blocks == [0]) = true ∧
    (let out := fun (c : Crew) => { c with storePath := [.marker 1 .exit], threads := c.threads.map (fun t => (t.1, { t.2 with exited := true })) }
     let spb : List SpbEntry := [⟨1, 0, 64, 7, 0, 2⟩]
     let sum := fun (t : State) => (t.block? 0).any (fun k => k.spb.isEmpty && (bayPlace t k 64).any (fun p => leNat (readPlace t p 4) == 7))
     nextIs (exec (.storePathPerform 0 0) ((crewed out).updBlock 0 (fun k => { k with spb := spb }))) sum = true ∧
     nextIs (exec (.storePathPerform 0 0) ((twoCrews (fun k => { k with spb := spb })).updCrew 0 0 out)) (fun t => (t.block? 0).any (fun k => k.spb == spb)) = true) ∧
    producerReady { probe with grids := [(0, { probeGrid ⟨[], []⟩ with st := .cut })] } { probeGrid ⟨[], []⟩ with producer := some 0 } = false ∧
    (let parked := fun (deadline : Nat) => crewed (fun c => { c with
        monitor := some ⟨0x40000000, 0, some ⟨1, 5, some deadline, 3, 1, 1, 0⟩⟩, threads := c.threads.map (fun t => (t.1, { t.2 with wait := some .monwait })) })
     let waits := fun (t : State) => (t.crew? 0 0).any (fun c => (c.thread? 0).any (fun th => th.wait == some .monwait))
     nextIs (exec (.monitorWake 0 0) (parked 0)) waits = true ∧ nextIs (exec (.monwaitTimeout 0 0) (parked 1)) waits = true ∧
     nextIs (exec (.monwaitTimeout 0 0) (parked 0)) (fun t => !waits t && (t.crew? 0 0).any (fun c => !(c.getP 3).getLsbD 0)) = true) := by decide +kernel

/-- Pools: a link word on an absent page, in a handler too, and one that may not be read; lane 30 has acted, lanes 0 and 31
have not. -/
theorem test_met_pool_faults :
    let s := fun (head : Nat) (f : Crew → Crew) => { pooled ⟨head, 0x8000, 0x8080, 6, some 0, 2⟩ with
      blocks := (crewed (fun c => f { c with
        storePath := [.marker 1 (.pooltake 15 (some ⟨true, 2, 2, 0, 1⟩) 1 0), .marker 1 (.pooltake 15 (some ⟨true, 2, 2, 31, 1⟩) 1 31)]
        threads := c.threads.map (fun t => (t.1, { t.2 with wait := if t.1 = 0 ∨ 30 ≤ t.1 then some (.take 1) else none })) })).blocks }
    let held := fun (head cause : Nat) => nextIs (exec (.storePathPerform 0 0) (s head id)) (fun t => (t.crew? 0 0).any (fun c =>
      c.trap.isNone && c.pendingPf.isNone && c.storePath.isEmpty && c.late.any (fun l => l.1 == cause && l.2.1 == head && l.2.2.1 == 0 &&
        l.2.2.2.cause == cause && l.2.2.2.pc == 0x10000 && l.2.2.2.resume == 2 && l.2.2.2.lanes == 0xC0000001#32) &&
      ([(0, 0x10000, 0x10000), (30, 0x1000C, 0x1000C), (31, 0x10000, 0x10000), (1, 0x10000, 0x10000)] : List (Nat × Nat × Nat)).all (fun e =>
        (c.thread? e.1).any (fun th => th.pc == e.2.1 && th.head.pc == e.2.2 && th.wait.isNone))))
    held 0x40000000 cPf = true ∧ held (2 ^ 60) cProt = true ∧
    nextIs (exec (.storePathPerform 0 0) (s 0x40000000 (fun c => { c with handler := some ⟨⟨1, 5, 0x10000, BitVec.allOnes 32, 0, 0, false, 0⟩, BitVec.allOnes 32, 0⟩ })))
      (fun t => (t.crew? 0 0).any (fun c => c.pendingPf == some (0x40000000, 0, 4) && c.storePath.length == 2 && c.late.isNone)) = true := by
  decide +kernel

/-- Tasks: two lanes with a descriptor each; a rename, and a dry pool (R139). -/
theorem test_met_task_more :
    met { tasking none (deque0 0 0) (fun c => { c with v := [(Crew.key 2 0, 0x8000), (Crew.key 2 1, 0x8000)] }) with
        path := ⟨0, 0, 3, 0x10000, false, false⟩ } (.task { vE with a := .v 2 }) (fun x => x.acts == [0, 1] && x.cr.storePath.isEmpty &&
      okB (readTasks x 0 (fun l => x.val (.v 2) 2 l (fun c => wrapTo 64 c.toInt)) x.acts x.s) (fun r => r.1.map Prod.fst == [0, 1])) = true ∧
    (let t := fun (head : Nat) => takeHandle { tasking (some entry0) (deque0 0 0) id with pools := [(0, ⟨head, 0xB000, 0xC000, 6, some 0, 1⟩)] }
       cx0 0 0 ⟨0x10000, [], [noHandle], [0], 0x9000, 0⟩ 0 true
     (t 0xB000).1 = 0xB000 ∧ (t 0xB000).2.1 = [] ∧ (t 0xB000).2.2.mem.nat 0x9040 8 = 0xB000 ∧
     ((t 0xB000).2.2.pools.find? 0).map (fun p => (p.head, p.free)) = some (0, 0) ∧
     ((t 0xB000).2.2.die 0).retiredTiles = [(0, 0x9000, 0xA000)] ∧ ((t 0).1, (t 0).2.1) = (0xA000, [4095])) := by decide +kernel

/-- QueuesAndCollectives: a descriptor on an absent page in a grid with a ladder; two rows of `topk` of which the greater
leads; the value of the root written to both contributors. -/
theorem test_met_coll_more :
    met { crewed (uni [0x40000000]) with grids := [(0, { probeGrid ⟨[], []⟩ with ladder := some ⟨0xC000, 0x20000, 0x1000, 2, 2, false⟩ })] }
      (.coll { vE with sub := 3, a := .s 2 }) (fun x => x.g.ladder.isSome && x.cr.late.isNone && (match fetchVirt x.s x.g.ctx (x.uni (.s 2)) 64 with
        | .error e => e.cause == cPf
        | .ok _ => false)) = true ∧
    (let s := fun (r : CollRun) => { probe with colls := [r], ops := [op 9 4 1 (.coll r.sub 0x8000 1 2 0xA000 8) true, op 8 4 2 (.coll r.sub 0x8000 1 2 0xA000 8) true] }
     nextIs (exec (.collCombine 1 2 0 0) (s ⟨1, 2, 6, 0, 1, 1, 1, [(0, 9, 0xA000), (1, 8, 0xA008)],
       [(0, 0, [0x3F800000 + 5 * 2 ^ 32]), (0, 1, [0x40000000 + 3 * 2 ^ 32])], [], false⟩)) (fun t => t.mem.nat 0xA000 8 == 0x40000000 + 3 * 2 ^ 32) = true ∧
     nextIs (exec (.collCombine 1 2 1 0) (s ⟨1, 2, 3, 6, 1, 0, 1, [(0, 9, 0xA000), (1, 8, 0xA008)], [(1, 0, [7])], [], false⟩)) (fun t =>
       t.mem.nat 0xA000 4 == 7 && t.mem.nat 0xA008 4 == 7 && t.ops.all (·.stamped)) = true) := by decide +kernel

/-- BlockQuantization: a block with a NaN, whose element is zero under `sat` 1 (14_isa_float's example), and one with an
infinity (R238). -/
theorem test_bquant_special :
    let b := fun (vs : List Nat) => lanesOfV vs (.bquant { vA1 (.b8 false true 4) with ty2 := .f32, sat := 1 }) 2
    (b [0x7FC00000, 0x3F800000]).map (· / 256) = [0xFF, 0xFF] ∧ (b [0x7FC00000, 0x3F800000]).headD 1 % 256 = 0 ∧
    (b [0x7F800000, 0]).map (· / 256) = [0xFE, 0xFE] := by decide +kernel

/-- SpecialRegisters: without and with a ladder, a pass that is open; determinism levels; cones of a launch, of its parent and
of neither; streams of the block and none (R28, R30, R31, R40, R77, R187). -/
theorem test_met_sread_more :
    let rd := fun (n : Nat) => Instr.sread { zS with srn := BitVec.ofNat 10 n, d := .s 4 }
    let gives := fun (s : State) (n v : Nat) => nextIs (exec (rd n) s) (fun t => (t.crew? 0 0).any (fun c => (c.getS 4).toNat == v))
    gives probe 0x10 0 = true ∧ gives (laddered 0xFFFF 3 2 id (fun k => { k with pass := some 3 })) 0x10 3 = true ∧
    gives (laddered 0xFFFF 3 2 id id) 0x10 0xFFFF = true ∧ gives (laddered 0xFFFF 3 2 id id) 0x11 3 = true ∧
    gives (gridded (fun g => { g with level := 2 })) 0x07 0 = true ∧ gives (gridded (fun g => { g with level := 1 })) 0x20 0 = true ∧
    gives (gridded (fun g => { g with level := 1 })) 0x12 (2 ^ 64 - 1) = true ∧ gives probe 0x14 (2 ^ 64 - 1) = true ∧
    gives (gridded (fun g => { g with cone := ⟨0, 0, 1000⟩ })) 0x14 1000 = true ∧
    (let child := fun (c : Cone) => { probe with
       grids := [(0, { probeGrid ⟨[], []⟩ with parent := some 1 }), (1, { probeGrid ⟨[], []⟩ with cone := c })] }
     gives (child ⟨77, 0, 0⟩) 0x12 77 = true ∧ gives (child ⟨0, 0, 0⟩) 0x12 (2 ^ 64 - 1) = true) ∧
    gives (streaming (some { chan 3 0 0 false with ptr := 16 }) none id) 0x28 (3 * 2 ^ 20 + 16) = true ∧
    gives (streaming (some { chan 3 0 0 false with blk := 9 }) none id) 0x28 0 = true ∧ gives (streaming none none id) 0x29 0 = true ∧
    gives { probe with ops := [op 9 3 1 (.copy [] none) true, { op 8 3 2 (.copy [] none) true with done := true }] } 0x33 2 = true ∧
    gives probe 0x3C 0 = true := by decide +kernel

/-- A kernel with one switch point that lists a range of 256 bytes, and the area of the probe's block at 0x9000. -/
def rangeKern : Kernel := { swKern with sws := [⟨63, 1, [(0, 256)]⟩] }

/-- Switching (R134, R135): the range of the scratchpad behind the records and the exit map; the relaunch with `FSTAT`, a word
of lane 31, its exit bit clear and that of lane 30 set, and the range. -/
theorem test_switch_area :
    let with_ := fun (s : State) => { s with grids := [(0, { probeGrid ⟨[], []⟩ with swArea := 0x9000, policy := 0, kern := rangeKern })] }
    let left := with_ ((switching (some 2)).setCore 0 { Core.reset with split := 384, sp := (Memory.mk [] []).write 0 [0x5A#8] })
    let area := { with_ ((switching none).updBlock 0 (fun k => { k with st := .switching, switchId := 63, crews := [] })) with
      mem := memWith [(0x9010, 8, 2), (0x9000 + 64 + 31 * 24, 8, 31), (0x9000 + 64 + 31 * 24 + 16, 4, 77), (0x9343, 1, 0x40), (0x9400, 1, 0x5A)] }
    rangeKern.sws.Pairwise (fun a b => a.id < b.id) ∧
    nextIs (exec (.switchpt { zS with imm16 := 63 }) left) (fun t => t.mem.nat 0x9400 1 == 0x5A && t.mem.nat 0x900C 4 == 256) = true ∧
    nextIs (exec (.switchRelaunch 0 0) area) (fun t => (t.block? 0).any (fun k => (bayPlace t k 0).any (fun p => readPlace t p 1 == [0x5A#8])) &&
      (t.crew? 0 0).any (fun c => c.fstat == 2 && c.getV 0 31 == 77#32 && c.acqs == [⟨1, false⟩] &&
        (c.thread? 31).any (fun th => !th.exited && th.ltid == [31#64]) && (c.thread? 30).any (·.exited))) = true := by decide +kernel

/-- Ladders: `lhold` and `ldrop` behind an older store of the crew (R52). -/
theorem test_met_ladder_wait :
    let i : FmtE := { zE with pd := 1, a := .s 2, b := .const 0, d := .s 4 }
    let s := laddered 0 (0x08000001 + 2 ^ 40) 2 (fun c => { uni [0x8000] c with storePath := [.marker 1 .none] }) id
    ([.lhold i, .ldrop { i with c := .const 1 }] : List Instr).all (fun j => met s j (fun x => !x.cr.storePath.isEmpty &&
      okB (ladderOperand x i .write) (fun r => r.1.isSome)) && nextIs (exec j s) (fun t => t.mem.nat 0x8040 8 == 0x08000001 + 2 ^ 40 &&
        (t.crew? 0 0).any (fun c => (c.thread? 0).any (fun th => th.pc == 0x10000)))) = true := by decide +kernel

/-- MatrixIssue: a drain of one column to `v9`; a signature of `adrain`; one without a set, of a crew outside it, of a register
beyond the budget, and unlike the first (R122). -/
theorem test_met_drain_issue :
    let d : FmtX := { zX with ty := .bf16, dst := 1, a := .acc 0, c := .s 4, d := .v 9 }
    let s0 := (granted .f32 .f32 [0, 0, 2 ^ 16]).updBlock 0 (fun k => { k with grant := some ⟨0, 1, 1, 32, .f32, .f32⟩ })
    met s0 (.adrain d) (fun x => x.blk.grant.any (fun g => (tileTrap x (some g) (drainTile d)).isNone && drainFormat (mxKind x.blk (.adrain d) []) .bf16 0 &&
      (drainTrap x g d).isNone)) = true ∧
    nextIs (exec (.adrain d) s0) (fun t => (t.crew? 0 0).any (fun c => c.isEmpty 9 31 && !c.isEmpty 10 31)) = true ∧
    (let f : FmtX := { zX with sg := true, cv := 7, a := .s 2, b := .s 3, c := .s 4, d := .acc 0 }
     let i := Instr.mma f
     let s := fun (c : Conv) => blocked (fun k => { k with grant := some (grant0 .i8 .i8), convs := [(7, c)] })
     let bad := fun (s : State) => met s i (fun x => (mmaTrap x f).isNone && x.cr.trap.isNone && x.cr.handler.isNone) && nextIs (exec i s) (fun t =>
       (t.crew? 0 0).any (fun c => c.trap.any (fun r => r.cause == cProt)) && t.ops.isEmpty)
     bad (s Conv.reset) = true ∧ bad (s { Conv.reset with cset := some 2 }) = true ∧
     bad (s { Conv.reset with cset := some 3, sig := some ⟨.aclr zX, []⟩ }) = true ∧
     bad { s { Conv.reset with cset := some 1 } with grids := [(0, { probeGrid ⟨[], []⟩ with kern := { (probeGrid ⟨[], []⟩).kern with vars := [{ probeVariant with slots := 7 }] } })] } = true) ∧
    (let f : FmtX := { zX with sg := true, cv := 7, ty := .f32, a := .s 2, c := .s 4, d := .acc 1 }
     met (blocked (fun k => { k with grant := some (grant0 .f32 .f32), convs := [(7, { Conv.reset with cset := some 3 })] })) (.adrain f) (fun x => x.blk.grant.any (fun g =>
       (tileTrap x (some g) (drainTile f)).isNone && drainFormat (mxKind x.blk (.adrain f) []) .f32 0 && (drainTrap x g f).isNone))) = true := by decide +kernel

/-- FaultsAndErrors: the record of a double fault, and the `CUT` of its ladder; a probe of a handler that comes back; an HBM page
as the unit of a parity error and of MCE_RETIRE; a Mask Unit whose streams a grid holds (R349, R351, R353, R361, R384). -/
theorem test_met_faults_more :
    let s := fun (l : Option Ladder) => { trapping 0 id with
      rings := [(0, { Ring.reset with base := 0x9000 })], grids := [(0, { probeGrid codeMem with ladder := l })] }
    nextIs (exec (.handlerEntry 0 0) (s none)) (fun t => (t.grid? 0).any (fun g => g.st == .faulted) && t.mem.nat 0x9000 8 == 5 &&
      t.mem.nat 0x9008 2 == 1 + 4 * 256) = true ∧
    nextIs (exec (.handlerEntry 0 0) (s (some ladder0))) (fun t => t.mem.nat 0x8014 4 == 8) = true ∧
    (let waits := { twoCrews (fun k => { k with
        convs := [(5, { Conv.reset with barArrived := [0] }), (6, { Conv.reset with barArrived := [1] })]
        crews := k.crews.mapVals (fun j c => { c with
          handler := if j = 0 then some ⟨⟨1, 5, 0x10000, BitVec.allOnes 32, 0, 0, false, 0⟩, BitVec.allOnes 32, 0⟩ else none
          threads := c.threads.map (fun t => (t.1, { t.2 with
            since := some 0, wait := some (.bar 1 (5 + j) 1 (some 0)), bars := [(1, 5 + j, 1, some 0)] })) }) }) with
        dies := [(0, { Die.reset with clk := 50 * 65536 })] }
     (waits.crew? 0 0).any (fun c => c.inHandler && c.waitSince == some 0) && probeReturns waits (0, 0) 64 (0, 0) &&
       nextIs (exec (.waitCycleProbe 0 0) waits) (fun t => (t.grid? 0).any (fun g => g.st == .faulted)) = true) ∧
    nextIs (exec (.parityError 0 0 0x10000 5 9) (crewed (fun c => { c with retry := [⟨0x10000, false, 1, true⟩] }))) (fun t => t.degraded == [1#64] &&
      (t.grid? 0).any (fun g => g.st == .faulted)) = true ∧
    nextIs (exec (.mceRetire 5 9) probe) (fun t => t.degraded == [0x905#64] && (t.grid? 0).any (fun g => g.st == .running)) = true ∧
    nextIs (exec (.mceRetire 2 191) { probe with
      quads := [(191, { Quad.reset with streams := [⟨0x8000, 0, 0x8000, 0, 0, 0, List.replicate 8 0, [0]⟩] })] }) (fun t =>
        (t.grid? 0).any (fun g => g.st == .faulted)) = true := by decide +kernel

/-- Packets (R336, R343): the packet before one has been read, has started or has completed, beside `EARLY`, `CONC` and `SETDET`;
a `POOLSET` behind a `pooltake` and a `poolgive` of its pool; which of two packets comes first. -/
theorem test_packet_order :
    let after := fun (st : PktState) (a b : Nat × Nat) => let p := { pkt0 [(0, b.1 + 256 * b.2)] with idx := 1 }
      startable { holding { pkt0 [(0, a.1 + 256 * a.2)] with st := st } with packets := [(0, { pkt0 [(0, a.1 + 256 * a.2)] with st := st }), (1, p)] } p
    ([(.read, 0, 4, false), (.started, 0, 4, false), (.completed, 0, 4, true), (.read, 1, 4, false), (.started, 1, 4, true), (.started, 2, 1, true),
      (.started, 0, 7, false), (.started, 1, 7, false), (.completed, 0, 7, true)] : List (PktState × Nat × Nat × Bool)).all (fun e =>
        after e.1 (4, 0) (e.2.2.1, e.2.1) == e.2.2.2) = true ∧
    (after .read (7, 0) (4, 1) = false ∧ after .started (7, 0) (4, 1) = true) ∧
    (let busy := fun (m : Act) => { crewed (fun c => { c with storePath := [.marker 1 m] }) with packets := [(0, pkt0 [(0, 8), (0x28, 3)])] }
     ([(.pooltake 3 none 0 0, true), (.poolgive 3 [], true), (.pooltake 4 none 0 0, false), (.none, false)] : List (Act × Bool)).all (fun e =>
       (selected (busy e.1) 0).isNone == e.2) = true) ∧
    (let two := fun (f g : Packet → Packet) => { probe with packets := [(0, f (pkt0 [(0, 4)])), (1, g (pkt0 [(0, 4)]))] }
     let first := fun (s : State) => ((selected s 0).isSome, (selected s 1).isSome)
     first (two (fun p => { p with prio := 1 }) (fun p => { p with prio := 2, q := 1 })) = (false, true) ∧
     first (two (fun p => { p with aged := true }) (fun p => { p with prio := 2, q := 1 })) = (true, false) ∧
     first { two id (fun p => { p with q := 1 }) with wdCtx := 63, wdQ := [(0, 0)] } = (false, true) ∧
     first { two id (fun p => { p with ctx := 1 }) with wdCtx := 0 } = (false, true) ∧
     first { two id (fun p => { p with ctx := 1 }) with wdCtx := 1 } = (true, false)) := by decide +kernel

/-- A machine with one context. -/
def holds (c : Ctx) (s : State) : State := { s with ctxs := [(0, c)] }

/-- Packets: a launch with no kernel record, with a ladder that its kernel has not, and below eight grids (R339); a `SIGNAL` whose
word's page is absent and then present, and one that may not be written; the queue of a context that leaves (R332, R334). -/
theorem test_packets_more :
    let s := fun (fs : List (Nat × Nat)) => { holding (pkt0 fs) with mem := memWith kernelAt }
    refusal (s (launchOf [])) (pkt0 (launchOf [])) none true = 2 ∧
    (readKernel (s []) cx0 0x8000).any (fun k =>
      refusal (s []) { pkt0 (launchOf []) with lext := leBytes 64 (2 + 2 ^ 32) } (some k) true == 4 &&
      refusal { s [] with grids := [(0, { probeGrid ⟨[], []⟩ with depth := 8 })] } { pkt0 (launchOf []) with by_ := some 0 } (some k) true == 6 &&
      refusal { s [] with grids := [(0, { probeGrid ⟨[], []⟩ with depth := 7 })] } { pkt0 (launchOf []) with by_ := some 0 } (some k) true == 0) = true ∧
    (let sig := fun (va : Nat) => pkt0 [(0, 5), (0x10, va), (0x18, 7)]
     nextIs (exec (.signal 0) (holding (sig 0x40000000))) (fun t => (t.packets.find? 0).any (fun p => p.st == .started) && startable t { sig 0 with q := 1 }) = true ∧
     nextIs (exec (.signal 0) (holding { sig 0x8000 with st := .started })) (fun t => (t.packets.find? 0).any (fun p => p.status == 1) &&
       t.mem.nat 0x8000 8 == 7) = true ∧
     nextIs (exec (.signal 0) (holding (sig (2 ^ 60)))) (fun t => (t.packets.find? 0).any (fun p => p.status == 7)) = true) ∧
    (nextIs (exec (.packetRead 0 0) (holds { cx0 with leaving := true } (queued 2 3 0))) (fun t => (t.packets.find? 0).any (fun p => p.idx == 2) && t.ctxs.length == 1) = true) := by decide +kernel

/-- Graphs: a `SIGNAL` node whose word lies on two pages; a graph whose `LOOP` stands in its own body, and one whose addresses are
no multiples of 8 (R321, R342). -/
theorem test_graph_more :
    nextIs (exec (.signalNode 0 0) (graphed [nodeAt 5 [] 0 0 0xFFFC (2 ^ 32 + 5)] [] [])) (fun t => t.mem.nat 0xFFFC 8 == 2 ^ 32 + 5) = true ∧
    (let g := fun (kind first addr : Nat) => { holding (pkt0 [(0, 3), (0x10, 0x9000)]) with
        mem := memWith [(0x9004, 4, 1), (0x9010, 8, kind + 0xFFFFFFFF * 2 ^ 32), (0x9018, 4, 0xFFFFFFFF), (0x901C, 4, first), (0x9020, 8, addr), (0x9028, 8, 2)] }
     ([(3, 0, 0xA000), (5, 0, 0xA004), (1, 0, 0xA020)] : List (Nat × Nat × Nat)).all (fun e => nextIs (exec (.graph 0) (g e.1 e.2.1 e.2.2)) (fun t =>
       (t.graphs.find? 0).any (fun r => r.nodes.length == 1))) = true) ∧
    nextIs (exec (.loopRunEnd 0 0) (graphed [nodeAt 3 [] 0 1 0xA000 3, nodeAt 6 [] 0 0 0 1]
      [(0, ⟨some 0, none, 0, false, none, none⟩), (1, ⟨some 0, some 1, 0, false, none, none⟩)] [(0xA000, 8, 1)])) (fun t =>
        runOf t 0 (fun n => n.runs == 1 && n.started == some 0) && runOf t 1 (fun n => n.status.isNone)) = true := by decide +kernel

/-- CutsAndCompletion: the `CUT` of a ladder's header; a parent with `FAULT` whose child runs and is cut; the hypotheses of a
manifest entry with a grid (R40, R41, R387). -/
theorem test_cut_more :
    let cone := fun (st : GridState) (l : Option Ladder) (more : NMap Grid) => { laddered 0xFFFF 0xFFFF 2 id id with
      grids := [(0, { probeGrid ⟨[], []⟩ with st := st, ladder := l, cone := ⟨0, 0, 1000⟩ })] ++ more, time := 1000 }
    nextIs (exec (.coneDeadlineExpiry 0) (cone .running (some ladder0) [])) (fun t => t.mem.nat 0x8014 4 == 2 ||| 8 &&
      (t.grid? 0).any (fun g => g.st == .cut)) = true ∧
    (let s := (cone .faulted none [(1, { probeGrid ⟨[], []⟩ with parent := some 0, depth := 1 })]).updBlock 0 (fun k => { k with grid := 1 })
     nextIs (exec (.coneDeadlineExpiry 0) s) (fun t => (t.grid? 1).any (fun g => g.st == .cut) && (t.grid? 0).any (fun g => g.st == .faulted)) = true) ∧
    (let s := fun (st : GridState) => { holding { pkt0 [(0, 1)] with st := .started, grid := some 0 } with
        mem := memWith [(0x9004, 4, 0x100)], rings := [(0, { Ring.reset with manBase := 0x9000, manSz := 0x1000 })]
        grids := [(0, { probeGrid ⟨[], []⟩ with st := st })], blocks := [] }
     ([.done, .cut, .faulted] : List GridState).all (fun st => (st == .done || quiet (s st) 0) && ((s st).packets.find? 0).any (fun p => p.cmpl == 0 && p.type == 1) &&
       natVirt (s st) cx0 ((s st).ring 0).manBase 16 == some (0x100 * 2 ^ 32)) = true) := by decide +kernel

/-- A context whose queue 0 alone has an entry, at the end of the mapped GiB: it has read all its packets. -/
def drained (leaving : Bool) : State :=
  { holds { cx0 with qtab := 0x3FFFFFE0, leaving := leaving } (stored [(0x3FFFFFE0, 8, 0x6000), (0x3FFFFFE8, 8, 2 + 2 ^ 11)]) with
    ctl := { Ctl.reset with dev := .ready } }

/-- Platform: a context with a packet that nobody has read leaves and keeps its slot; one with none goes (R332, R369). -/
theorem test_leaving :
    nextIs (exec (.contextSlotWrite 0 0) { holds { cx0 with desc := 0x9000 } (queued 3 4 0) with ctl := { Ctl.reset with dev := .ready } }) (fun t =>
      (t.ctxs.find? 0).any (·.leaving) && controlRead t 0x1000 == 0x9000) = true := by decide +kernel
theorem test_left_at_once : nextIs (exec (.contextSlotWrite 0 0) (drained false)) (fun t => t.ctxs.isEmpty && controlRead t 0x1000 == 0) = true := by
  decide +kernel
theorem test_left : nextIs (exec (.packetRead 0 0) (drained true)) (fun t => t.ctxs.isEmpty) = true := by decide +kernel

/-! ## Witnesses of clauses on values, lanes and blocks of registers -/

/-- IntegerDivision: a 32-bit quotient in a uniform register, sign-extended for `i32`, zero-extended for `n32` (R202). -/
theorem test_div_uniform :
    ([(.idiv { zA with pd := 15, ty := .i32, a := .s 2, b := .s 3, d := .s 4 }, 2 ^ 64 - 3),
      (.irem { zA with pd := 15, ty := .n32, a := .s 2, b := .s 3, d := .s 4 }, 1)] : List (Instr × Nat)).all (fun e =>
      met (crewed (uni [2 ^ 32 - 7, 2])) e.1 (fun _ => true) &&
      nextIs (exec e.1 (crewed (uni [2 ^ 32 - 7, 2]))) (fun t => (t.crew? 0 0).any (fun c => (c.getS 4).toNat == e.2))) = true := by decide +kernel

/-- Nothing but the missing active thread holds the instruction back. -/
def vacant (s : State) (i : Instr) : Bool :=
  match Cx.of s i.body.guard with
  | none => false
  | some x =>
    legal i && !handlerUnd x.cr i && decide (x.act = 0) && (namedV x.cr i).all x.cr.holds &&
      (!waitsForOlder i || !x.cr.checksDue) && operandsReady x.cr i [] && decide (foldIndex i < x.fold)

theorem vacant_of {s : State} {i : Instr} (h : vacant s i = true) : ∃ x, Vacant i s x := by
  unfold vacant at h
  split at h
  · cases h
  · rename_i x hx
    simp only [Bool.and_eq_true, Bool.or_eq_true, Bool.not_eq_true', decide_eq_true_eq] at h
    obtain ⟨⟨⟨⟨⟨⟨h1, h2⟩, h3⟩, h4⟩, h5⟩, h6⟩, h7⟩ := h
    exact ⟨x, hx, h1, h2, h3, h4, fun hw => h5.resolve_left (by simp [hw]), h6, h7⟩

/-- ReduceAndScan: no thread is active under `?p1`: `redux.min.i32` into a uniform register, and `redux.max.f32`. -/
theorem test_redux_empty :
    let i : Instr := .redux { zA with g := ⟨false, 1⟩, sub := 1, pd := 15, ty := .i32, a := .v 2, d := .s 4 }
    let j : Instr := .redux { zA with g := ⟨false, 1⟩, sub := 2, pd := 15, ty := .f32, a := .v 2, d := .s 4 }
    (∃ x, Vacant i probe x) ∧ (∃ x, Vacant j probe x) ∧
    nextIs (exec i probe) (fun t => (t.crew? 0 0).any (fun c => (c.getS 4).toNat == 0x7FFFFFFF)) = true ∧
    nextIs (exec j probe) (fun t => (t.crew? 0 0).any (fun c => (c.getS 4).toNat == 0xFF800000 && (c.thread? 0).any (fun th => th.pc == 0x1000C))) = true :=
  ⟨vacant_of (by decide +kernel), vacant_of (by decide +kernel), by decide +kernel, by decide +kernel⟩

/-- ExtendedBlocks: blocks that are granted read zero and full; other registers keep what they hold. -/
theorem test_regacq_zero :
    let c := fun (c : Crew) => { c with v := [(Crew.key 9 3, 7), (Crew.key 64 3, 5)], empty := [(Crew.key 70 3, 1)] }
    let zero := fun (t : State) => (t.crew? 0 0).any (fun c => c.getV 64 3 == 0 && !c.isEmpty 70 3 && c.getV 9 3 == 7)
    nextIs (exec (.regacq { zA with sub := 1, pd := 15 }) (crewed c)) zero = true ∧
    nextIs (exec (.regacqGrant 0) ((crewed (fun k => { c k with threads := k.threads.map (fun t => (t.1, { t.2 with wait := some (.regacq 1) })) })).setCore 0
      { Core.reset with acqWait := [(0, 0, 1)] })) zero = true := by decide +kernel

/-- Conversions: the orders of `pack` (R236): 16-bit elements of two registers, 8-bit ones of two pairs and of four halves.
1.0 and 2.0 in `f16` and in `bin8p4se`. -/
theorem test_pack_orders :
    let s := fun (vs : List (Nat × Nat)) => crewed (fun c => { c with v := vs.map (fun e => (Crew.key e.1 0, BitVec.ofNat 32 e.2)) })
    let gives := fun (sat : BitVec 2) (ty ty2 : Fmt) (vs : List (Nat × Nat)) (v : Nat) =>
      let i : Instr := .pack { zA with pd := 15, sat := sat, ty := ty, ty2 := ty2, a := .v 2, b := .v 4, d := .v 8 }
      met (s vs) i (fun _ => true) && nextIs (exec i (s vs)) (fun t => (t.crew? 0 0).any (fun c => (c.getV 8 0).toNat == v))
    gives 0 .f16 .f32 [(2, 0x3F800000), (4, 0x40000000)] 0x40003C00 = true ∧
    gives 0 .i8 .i32 [(2, 1), (3, 2), (4, 3), (5, 4)] 0x04030201 = true ∧
    gives 1 (.b8 false true 4) .f16 [(2, 0x40003C00), (4, 0x3C004000)] 0x40484840 = true := by decide +kernel

/-! ## Witnesses of clauses on memory -/

theorem okB_spec {α β : Type} {e : Except α β} {p : β → Bool} (h : okB e p = true) : ∃ b, e = .ok b ∧ p b = true := by
  cases e with
  | error _ => cases h
  | ok b => exact ⟨b, rfl, h⟩

theorem fmtEntry_some {b : List Byte} {e : FmtEntry} (h : fmtEntry b = some e) :
    let m := leNat b
    b.length = 16 ∧ bits m 78 50 = 0 ∧ Fmt.ofCode (BitVec.ofNat 6 (bits m 64 6)) = some e.efmt ∧
    Fmt.ofCode (BitVec.ofNat 6 (bits m 72 6)) = some e.dfmt ∧ fmtIsIeee e.dfmt = true ∧
    e.blk = (if bits m 70 2 = 0 then 0 else 8 * 2 ^ bits m 70 2) ∧ (e.blk = 0 ∨ fmtScalable e.efmt = true) ∧
    e.soff = asInt .i64 (bits m 0 64) := by
  unfold fmtEntry at h
  simp only at h
  split at h
  · rename_i ef df hef hdf
    by_cases hc : b.length = 16 ∧ bits (leNat b) 78 2 = 0 ∧ bits (leNat b) 80 48 = 0 ∧ fmtIsIeee df = true ∧
        ((if bits (leNat b) 70 2 = 0 then 0 else 8 * 2 ^ bits (leNat b) 70 2) = 0 ∨ fmtScalable ef = true)
    · rw [if_pos hc] at h
      obtain ⟨h1, h2, h3, h4, h5⟩ := hc
      injection h with h
      subst h
      refine ⟨h1, ?_, hef, hdf, h4, rfl, h5, ?_⟩
      · unfold bits at *; omega
      · have e1 : fmtBits .i64 = 64 := rfl
        have e2 : fmtSigned .i64 = true := rfl
        simp only [asInt, e1, e2, bitAt, bits, Bool.true_and, decide_eq_true_eq, beq_iff_eq]
        generalize leNat b = m
        split <;> split <;> omega
    · rw [if_neg hc] at h; cases h
  · cases h

/-- What a lane's plan says is what FmtReads asks for. -/
theorem fmtReads_of {x : Cx} {f : FmtM} {n : Nat} {a : LaneAcc} {s t : State} {p : FmtPlan} (h : fmtPlan x f n s a = .ok (p, t)) :
    FmtReads x f n a s p t := by
  unfold fmtPlan at h
  split at h
  · rename_i hn
    injection h with h
    injection h with h1 h2
    subst h1 h2
    exact ⟨rfl, fun _ => ⟨rfl, rfl, rfl, rfl⟩, fun e he => by simp [hn] at he⟩
  · rename_i b hb
    have no : a.fmt ≠ none := by simp [hb]
    split at h <;> [cases h; skip]
    rename_i e he
    obtain ⟨h1, h6, hef, hdf, h4, hk, h5, hs⟩ := fmtEntry_some he
    by_cases hz : bits (leNat b) 70 2 = 0
    · rw [if_pos hz] at hk
      rw [if_pos hk] at h
      injection h with h
      injection h with h7 h8
      subst h7 h8
      refine ⟨rfl, fun hh => absurd hh no, fun en hen => ?_⟩
      obtain rfl : b = en := Option.some.inj (hb.symm.trans hen)
      exact ⟨e.efmt, e.dfmt, ⟨h1, h6, hef, hdf, h4, fun _ => ⟨rfl, rfl⟩, fun hh => absurd hz hh⟩, rfl, rfl⟩
    · rw [if_neg hz] at hk
      have hb0 : e.blk ≠ 0 := by rw [hk]; positivity
      rw [if_neg hb0] at h
      split at h <;> [cases h; cases h; skip]
      rename_i q pte lg g htr
      injection h with h
      injection h with h7 h8
      subst h7 h8
      refine ⟨rfl, fun hh => absurd hh no, fun en hen => ?_⟩
      obtain rfl : b = en := Option.some.inj (hb.symm.trans hen)
      refine ⟨e.efmt, e.dfmt, ⟨h1, h6, hef, hdf, h4, fun hh => absurd hh hz, fun _ => ⟨h5.resolve_left hb0, scaleVa a e, ?_, ?_, q, pte, lg, g, htr, rfl, rfl⟩⟩, rfl, rfl⟩
      · unfold scaleVa wrapTo; omega
      · have hp : pageBase a = a.va - a.va % 2 ^ a.log := by
          unfold pageBase
          have := Nat.div_add_mod' a.va (2 ^ a.log)
          omega
        simp only [scaleVa, hp, wrapTo, hk, hs]
        generalize asInt .i64 _ = z
        generalize (a.va - (a.va - a.va % 2 ^ a.log)) / (8 * 2 ^ bits (leNat b) 70 2 * (fmtBits e.efmt / 8)) = y
        generalize a.va - a.va % 2 ^ a.log = w
        omega

theorem fmtLanes_of {x : Cx} {f : FmtM} {n : Nat} : ∀ {ls : List Nat} {s t : State} {ps : List FmtPlan},
    fmtPlans x f n (formAddr x f) ls s = .ok (ps, t) → FmtLanes x f n ls s ps t
  | [], _, _, _, h => by
    unfold fmtPlans at h
    injection h with h
    injection h with h1 h2
    exact ⟨h1.symm, h2.symm⟩
  | l :: ls, s, t, ps, h => by
    unfold fmtPlans at h
    split at h <;> [cases h; skip]
    rename_i a s1 hx
    split at h <;> [cases h; skip]
    rename_i p s2 hp
    split at h <;> [cases h; skip]
    rename_i qs s3 hq
    injection h with h
    injection h with h1 h2
    subst h1 h2
    exact ⟨a, s1, p, s2, qs, hx, fmtReads_of hp, fmtLanes_of hq, rfl⟩

/-- No lane of an `ld.fmt` of width `n` meets cause 4 of R247, as a test. -/
def plansFit (n : Nat) (ps : List FmtPlan) : Bool := ps.all (fun p => p.acc.va % p.n == 0 && p.dfmt.all (fun d => fmtBits d == 8 * n))

theorem plansFit_spec {n : Nat} {ps : List FmtPlan} (h : plansFit n ps = true) : FmtFits n ps := by
  intro p hp
  have := List.all_eq_true.1 h p hp
  simp only [Bool.and_eq_true, beq_iff_eq] at this
  refine ⟨this.1, fun d hd => ?_⟩
  have h2 := this.2
  rw [hd] at h2
  simpa using h2

/-- Lanes 0 and 1 with addresses for an `ld.fmt`; the second GiB lies on the first and has format 1: `SOFF`, the entry's other
bytes. -/
def fmtState (soff more a0 a1 : Nat) : State :=
  { crewed (fun c => { c with v := [(Crew.key 2 0, BitVec.ofNat 32 a0), (Crew.key 2 1, BitVec.ofNat 32 a1)] }) with
    mem := memWith [(0x3008, 8, 0x1F + 2 ^ 58), (0x3010, 8, 1), (0x3018, 8, 0x1D), (0xD010, 8, soff), (0xD018, 8, more)]
    ctxs := [(0, { cx0 with ftab := 0xD000 })]
    path := ⟨0, 0, 3, 0x10000, false, false⟩ }
def ldFmt : FmtM := { vM with fm := true, b := .v 0, d := .v 4 }


/-- The hypotheses on an `ld.fmt` whose lanes are all in order. -/
def fmtGood (s : State) : Bool := met s (.ld ldFmt) (fun x => x.cr.trap.isNone && x.cr.handler.isNone && x.cr.late.isNone &&
  (accessTrap x (memLanes x ldFmt.d) 0 0 (formAddr x ldFmt) 1).isNone &&
  okB (fmtPlans x ldFmt 4 (formAddr x ldFmt) (memLanes x ldFmt.d) x.s) (fun r => plansFit 4 r.1))

theorem fmtGood_spec {s : State} (h : fmtGood s = true) : ∃ x ps t, Ready (.ld ldFmt) s x ∧ calm x ∧ x.cr.late = none ∧
    accessTrap x (memLanes x ldFmt.d) 0 0 (formAddr x ldFmt) 1 = none ∧ FmtLanes x ldFmt 4 (memLanes x ldFmt.d) x.s ps t ∧ FmtFits 4 ps := by
  obtain ⟨x, hx, hp⟩ := met_spec h
  simp only [Bool.and_eq_true, Option.isNone_iff_eq_none] at hp
  obtain ⟨⟨⟨⟨h1, h2⟩, h3⟩, h4⟩, h5⟩ := hp
  obtain ⟨r, hr, hf⟩ := okB_spec h5
  exact ⟨x, r.1, r.2, hx, ⟨h1, h2⟩, h3, h4, fmtLanes_of hr, plansFit_spec hf⟩

/-- AccessChecks and MemoryIssue: `ld.fmt` with both lanes in order, with scale bytes and without a format; an unusable entry, a
scale byte on an absent page and on one that may not be read, lane 1's element on either, a misaligned element, and a decode
target of another width. -/
theorem test_met_fmt_lanes :
    fmtGood (fmtState 0x8000 364 0x40000010 0x40000031) = true ∧ fmtGood (fmtState 0 0 0x8000 0x8004) = true ∧
    (let traps := fun (s : State) => match exec (.ld ldFmt) s with
       | .next t => (t.crew? 0 0).map (fun c => (c.trap.map (fun p => (p.cause, p.taddr)), c.late.map (fun l => (l.1, l.2.1))))
       | _ => none
     [fmtState 0 (364 + 2 ^ 14) 0x40000010 0, fmtState 0x40000000 364 0x40000010 0, fmtState 0x80000000 364 0x40000010 0,
       fmtState 0x8000 364 0x40000010 0x80000000, fmtState 0x8000 364 0x40000010 0xC0000000, fmtState 0 258 0x40000010 0x40000011,
       fmtState 0 514 0x40000010 0x40000012].map traps = [some (some (cProt, 0x40000010), none), some (none, some (cPf, 0x80000001)),
         some (some (cProt, 0x40000010), none), some (none, some (cPf, 0x80000000)), some (some (cProt, 0xC0000000), none),
         some (some (cAlign, 0x40000011), none), some (some (cProt, 0x40000010), none)]) := by
  decide +kernel

/-- StorePathPerform: another thread's older load holds no store back (R54, R61). LoadPerform (R55): a word read from its home gets
a Read Copy; one that has a copy is read there; an 8-byte load of a word with a copy and one without, after a store of the first
word alone and after an 8-byte store, which no load may tear (R48). -/
theorem test_met_read_copy :
    nextIs (exec (.storePathPerform 0 0) (crewed (fun c => { c with
        storePath := [.store 2 (.g 0x8000) [1#8] 0x8000 1#32], loads := [⟨1, .g 0x8000, 4, 0, .raw, ⟨true, 4, 1, 1, 1⟩, 0x8000, 2#32⟩] })))
      (fun t => t.mem.nat 0x8000 1 == 1 && (t.crew? 0 0).any (fun c => c.storePath.isEmpty && c.loads.length == 1)) = true ∧
    (let l1 := l1Of probe 0
     let s := fun (n : Nat) (copies : NMap ReadCopy) (p : Pair) => { crewed (fun c => { c with
         loads := [⟨1, .g 0x8000, n, 0, .raw, ⟨true, 4, 2, 0, 1⟩, 0x8000, 1#32⟩], empty := [(Crew.key 4 0, 1), (Crew.key 5 0, 1)] }) with
       mem := memWith [(0x8000, 8, 5 + 7 * 2 ^ 32)], copies := [(l1, copies)], pairs := [(0x1000, p)] }
     let got := fun (n : Nat) (copies : NMap ReadCopy) (p : Pair) => match exec (.loadPerform 0 0 0) (s n copies p) with
       | .next t => ((t.crew? 0 0).map (fun c => ((c.getV 4 0).toNat, (c.getV 5 0).toNat)), (t.copies.getD l1 []).map (fun e => (e.1, e.2.val.toNat)))
       | _ => (none, [])
     got 4 [] ⟨0, 0⟩ = (some (5, 0), [(0x2000, 5)]) ∧ got 4 [(0x2000, ⟨9, ⟨0, 0⟩⟩)] ⟨0, 0⟩ = (some (9, 0), [(0x2000, 9)]) ∧
     got 8 [(0x2000, ⟨9, ⟨0, 0⟩⟩)] ⟨1, 0x0F⟩ = (some (9, 7), [(0x2000, 9), (0x2001, 7)]) ∧
     got 8 [(0x2000, ⟨9, ⟨0, 0⟩⟩)] ⟨1, 0xFF⟩ = (some (5, 7), [(0x2000, 5), (0x2001, 7)])) := by decide +kernel

/-! ## Witnesses of clauses on engines, barriers, pools and tasks -/

/-- CopyIssue: the middle arrival of three crews, and a set of one crew. -/
theorem test_met_copyc_more :
    let f : FmtE := { vE with sub := 1, cv := 3, a := .s 2, b := .s 4, c := .const 16 }
    met { twoCrews (fun k => { k with
          crews := k.crews ++ [(2, Crew.at_ 0x10000 1 0 2 3 2 none)]
          convs := [(3, { Conv.reset with cset := some 7, copyFields := some (1, 0), copies := [⟨1, 1, 0, 0, 16, none⟩], copyOp := some 9 })] }) with
        ops := [op 9 0 1 (.copy [] none) false] } (.copyc f) (fun x =>
      (copyTrap x f).isNone && decide (3 < slotBudget x.s x.blk) && (x.blk.conv 3).copyFields == some (f.sub.toNat, f.imm8.toNat) &&
      (op? x.s 9).isSome && awaited x.blk 7 [1, x.c] == [2]) = true ∧
    met (blocked (fun k => { k with convs := [(3, { Conv.reset with cset := some 1 })] })) (.copyc f) (fun x =>
      (copyTrap x f).isNone && decide (3 < slotBudget x.s x.blk) && (x.blk.conv 3).cset == some 1 && awaited x.blk 1 [x.c] == [] && x.s.ops.isEmpty) = true := by
  decide +kernel

/-- What a `stream` of the record at `a` raises, under a Format Table; and whether no operation starts. -/
def streamCause (a ftab : Nat) (ws : List (Nat × Nat × Nat)) : Option (Option (Nat × Nat) × Option (Nat × Nat × Nat)) × Bool :=
  match exec (.streamF { vE with a := .s 2, b := .const 0 }) { crewed (uni [a]) with
      mem := memWith (recMem ++ [(0x3010, 8, 1), (0x3018, 8, 0x1D), (0xD010, 8, 0x10000), (0xD018, 8, 324), (0xD028, 8, 0x4000)] ++ ws)
      ctxs := [(0, { cx0 with ftab := ftab })] } with
  | .next t => ((t.crew? 0 0).map (fun c => (c.trap.map (fun p => (p.cause, p.taddr)), c.pendingPf)), t.ops.isEmpty)
  | _ => (none, false)

/-- StreamIssue: a record that is misaligned, that may not be read, on an absent page; iterations of zero; a table that may not be
read; an entry that is not usable; a ring past the bays; a base that splits a block. `srel` of no channel and of the last stage. -/
theorem test_met_stream_bad :
    (streamCause 0x8020 0 [] == (some (some (cAlign, 0x8020), none), true)) = true ∧
    (streamCause 0xC0000000 0 [] == (some (some (cProt, 0xC0000000), none), true)) = true ∧
    (streamCause 0x80000000 0 [] == (some (none, some (0x80000000, 0, 2)), true)) = true ∧
    ([(0, [(0x8038, 4, 0)]), (0xC0000000, [(0x8031, 1, 0xC1)]), (0xD000, [(0x8031, 1, 0xC2)]), (0, [(0x8034, 2, 0xFFFF)]),
      (0xD000, [(0x8031, 1, 0xC1), (0x8000, 2, 0x9001)])] : List (Nat × List (Nat × Nat × Nat))).all (fun e =>
      streamCause 0x8000 e.1 e.2 == (some (some (cProt, 0x8000), none), true)) = true ∧
    (streamCause 0x8000 0xD000 [(0x8031, 1, 0xC1)]).2 = false ∧
    ([streaming none none id, streaming (some (chan 1 1 0 false)) none id] : List State).all (fun s =>
      met s (.srelF vE) (fun x => x.cr.trap.isNone && x.cr.handler.isNone) &&
      nextIs (exec (.srelF vE) s) (fun t => (t.crew? 0 0).any (fun c => c.trap.any (fun p => p.cause == cProt)))) = true := by decide +kernel

/-- EngineProgress, ChannelSteps: a copy, a stamp, a scatter and a drain take the owners of the words that they write (R64, R389). -/
theorem test_owner_none :
    let owned := fun (s : State) => { s with owners := [(0x2400, 3), (0x2440, 3), (0x2480, 3), (0x3000, 3)] }
    let seg : Seg := ⟨0, 0x9100, 0, 0x9000, 8⟩
    let base : State := owned { probe with mem := memWith recMem }
    let c := EngKind.copy [seg] (some (0, 0x9200, 77))
    let words := fun (o : Host.Outcome State Fault Refusal) => match o with
      | .next t => t.owners.map Prod.fst
      | _ => []
    words (exec (.copyOperation 9 0 0 4) { base with ops := [op 9 0 1 c true] }) = [0x2400, 0x2480, 0x3000] ∧
    words (exec (.stampWrite 9) { base with ops := [{ op 9 0 1 c true with moved := [(0, 0, 8)] }] }) = [0x2400, 0x2440, 0x3000] ∧
    words (exec (.copyOperation 9 31 0 1) { base with ops := [op 9 3 1 (.gather true 2 0 [(31, 0x9100)]) true] }) = [0x2400, 0x2480, 0x3000] ∧
    words (exec (.drainIteration 0 15) (owned (streaming none (some (chan 0 0 1 false)) id))) = [0x2440, 0x2480, 0x3000] := by decide +kernel

/-- Pools: a `poolgive` to a page that has been withdrawn, and to one that the address maps elsewhere; its words have no owner
then (R353, R389). -/
theorem test_met_poolgive_gone :
    let s := fun (va : Nat) => { gone (path [.marker 1 (.poolgive 15 [(va, .g 0x50000)])]) with
      pools := [(15, ⟨0x8000, 0x8000, 0x8080, 6, some 0, 1⟩)], owners := [(0x18000, 3), (0x18002, 3)] }
    nextIs (exec (.storePathPerform 0 0) (s 0x50000)) (fun t => (t.crew? 0 0).any (fun c => c.storePath.length == 1 &&
      c.late.any (fun l => l.1 == cPf && l.2.1 == 0x50000 && l.2.2.1 == 1))) = true ∧
    nextIs (exec (.storePathPerform 0 0) (s 0x60000)) (fun t => t.mem.nat 0x60000 8 == 0x8000 && t.owners.map Prod.fst == [0x18002] &&
      (t.pools.find? 15).any (fun p => p.head == 0x60000 && p.free == 2)) = true := by decide +kernel

/-- Tasks: the last use of a tile that is no longer current ends, and it goes back to its map's pool (R139); a posted record's
bytes (R140). -/
theorem test_met_tile_return :
    nextIs (exec (.storePathPerform 0 0) { (tasking (some entry0) (deque0 0 0) (fun c => { c with storePath := [.marker 1 (.taskDone [16383])] })).setDie 0
        { Die.reset with tasks := [(4095, entry0)], retiredTiles := [(0, 0x9000, 0xA000), (1, 0x9000, 0xB000)] } with
        pools := [(0, ⟨0xB000, 0xA000, 0xC000, 6, some 0, 1⟩)] }) (fun t => (t.die 0).retiredTiles == [(1, 0x9000, 0xB000)] &&
      (t.pools.find? 0).any (fun p => p.head == 0xA000 && p.free == 2) && t.mem.nat 0xA000 8 == 0xB000) = true ∧
    (let e := { entry0 with args := [1, 2, 3, 4], writes := [(noHandle, 0)], key := 7 + 8 * 2 ^ 64 }
     dequeAt (tasking (some e) (deque0 0 0) id) 0 = true ∧
     nextIs (exec (.taskPost 0 4095) (tasking (some e) (deque0 0 0) id)) (fun t => (t.core 0).dq == deque0 1 0) = true ∧
     ([(0, 0x10000), (8, 1), (32, 4), (40, 0xA000), (72, 0), (88, 7), (96, 8), (104, 16383)] : List (Nat × Nat)).all (fun v =>
       leNat (((postedBytes e 4095).drop v.1).take 8) == v.2) = true) := by decide +kernel

/-! ## Witnesses of clauses on control, traps and switching -/

/-- Branches: every form whose target fails, the second lane of `brx` the lowest that does, and an absent line. -/
theorem test_met_branch_fails :
    (let raised := fun (f : Crew → Crew) (i : Instr) => match exec i (coded 0x10030 f) with
       | .next t => (t.crew? 0 0).bind (fun c => c.trap.map (fun p => (p.cause, p.taddr)))
       | _ => none
     let lanes := fun (b : Nat) (c : Crew) => { c with v := (List.range 32).map (fun l => (Crew.key 2 l, BitVec.ofNat 32 (if l = 0 then 0x10000 else b))) }
     [raised id (.bra { zC with offs := -3 }), raised id (.call { zC with offs := -2, d := .s 4 }),
       raised (uni [0x1000C]) (.callx { zC with a := .s 2, d := .s 4 }), raised (uni [0x10031]) (.ret { zC with a := .s 2 }),
       raised (lanes 0x1000C) (.brx { zC with a := .v 2 }), raised (uni [2 ^ 56]) (.brx { zC with a := .s 2 })] =
       [some (cBtgt, 0x1000C), some (cBtgt, 0x10018), some (cBtgt, 0x1000C), some (cBtgt, 0x10031), some (cBtgt, 0x1000C), some (cProt, 2 ^ 56)]) ∧
    met (coded 0x10030 (uni [0x40000000])) (.brx { zC with a := .s 2 }) (fun x => x.cr.trap.isNone && x.cr.handler.isNone && x.cr.late.isNone &&
      checkTarget x (x.uni (.s 2)) true false true == some (.access cPf)) = true ∧
    nextIs (exec (.brx { zC with a := .s 2 }) (coded 0x10030 (uni [0x40000000]))) (fun t => (t.crew? 0 0).any (fun c =>
      c.late.any (fun l => l.1 == cPf && l.2.1 == 0x40000000 && l.2.2.1 == 2))) = true ∧
    slotTo 0 (-1) = 2 ^ 64 - 16 := by decide +kernel

/-- TrapsAndReturns: instructions that a handler may not execute end the grid with a record of `UND`. -/
theorem test_met_double_fault :
    ([.regacq { zA with sub := 1, pd := 15 }, .regrel { zA with sub := 1, pd := 15 }, .switchpt { zS with imm16 := 63 }, .aclr { zX with d := .acc 1 }] :
      List Instr).all (fun i => !ringFull (handling 0) 0 && i.issues && nextIs (exec i (handling 0)) (fun t =>
        (t.grid? 0).any (fun g => g.st == .faulted) && (t.ring 0).widx == 1)) = true := by decide +kernel

/-! ## R132: pressure, an idle core, a restore -/

/-- Two variants in preference order, of which the probe's block runs the second. -/
def twoVars (g : Grid) : Grid :=
  { g with policy := 0, switchWait := 0, kern := { swKern with vars := [{ probeVariant with vid := 1, ext := 0, bays := 8 }, probeVariant] } }
/-- Core 0 alone of die 0 takes blocks; a block of grid 1 waits, and, with `first`, behind one of grid 2, which no core can hold. -/
def pressing (first : Bool) : State :=
  { probe.setDie 0 { Die.reset with queue := (if first then [⟨2, 0, 0, false⟩] else []) ++ [⟨1, 0, 0, false⟩], clk := 100 } with
    grids := [(0, twoVars (probeGrid ⟨[], []⟩)), (1, twoVars (probeGrid ⟨[], []⟩)), (2, { probeGrid ⟨[], []⟩ with prio := 1, kern := { swKern with vars := [] } })]
    degraded := (List.range 191).map (fun i => BitVec.ofNat 64 (1 + 256 * (i + 1))) }
def queue1 : Grid := twoVars (probeGrid ⟨[], []⟩)
def block0 : Block := (probe.block? 0).getD savedBlock

theorem pressing_retired (first : Bool) (c : Nat) (h1 : 1 ≤ c) (h2 : c < 192) : isDegraded (pressing first) 1 c = true := by
  have hm : BitVec.ofNat 64 (1 + 256 * c) ∈ (List.range 191).map (fun i => BitVec.ofNat 64 (1 + 256 * (i + 1))) :=
    List.mem_map.2 ⟨c - 1, List.mem_range.2 (by omega), by rw [Nat.sub_add_cancel h1]⟩
  unfold isDegraded
  rw [show (pressing first).degraded = _ from rfl, List.any_eq_true]
  refine ⟨_, hm, ?_⟩
  have hn : (BitVec.ofNat 64 (1 + 256 * c)).toNat = 1 + 256 * c := by rw [BitVec.toNat_ofNat]; omega
  simp only [hn, Bool.and_eq_true, beq_iff_eq, bits]
  omega

/-- Only core 0 of die 0 can open. -/
theorem opening_core {first : Bool} {d gid : Nat} {g : Grid} {e : Nat × Block} (h : Opening (pressing first) d gid g e) (hd : d < 192) : d = 0 := by
  obtain ⟨-, -, -, -, v, -, -, hf⟩ := h
  by_contra hne
  simp [fits, pressing_retired first d (by omega) hd] at hf

theorem target_core0 {first : Bool} {gid : Nat} {g : Grid} {e : Nat × Block} (h : Opening (pressing first) 0 gid g e) :
    TargetIs (pressing first) 0 gid g 0 := by
  refine ⟨⟨by omega, by omega, e, h⟩, fun d hd => .inr ?_⟩
  obtain ⟨-, h2, e', he⟩ := hd
  obtain rfl := opening_core he (by omega)
  exact ⟨rfl, le_rfl⟩

theorem opens1 (first : Bool) : Opening (pressing first) 0 1 queue1 (0, block0) := by
  refine ⟨List.mem_cons_self .., rfl, rfl, by cases first <;> decide +kernel, probeVariant, ?_, ?_, by cases first <;> decide +kernel⟩
  · decide +kernel
  · intro h; exact absurd rfl h

theorem pressure1 (first : Bool) : Pressure (pressing first) (if first then 2 else 0) 0 block0 := by
  refine ⟨1, 0, queue1, twoVars (probeGrid ⟨[], []⟩), block0, ⟨?_, ?_⟩, ?_, rfl, ?_, by decide, by decide, by cases first <;> decide +kernel, target_core0 (opens1 first), opens1 first, ?_⟩
  · intro _; cases first <;> exact ⟨⟨1, 0, 0, false⟩, by decide +kernel, rfl, rfl, rfl⟩
  · intro h; cases first <;> simp at h
  · cases first <;> rfl
  · cases first <;> rfl
  · intro e he
    have hm : e ∈ [(0, block0)] := he.1
    obtain rfl := List.mem_singleton.1 hm
    exact .inr ⟨rfl, .inr ⟨rfl, le_rfl⟩⟩

/-- The block that waits needs what block 0 holds. -/
theorem needs1 (first : Bool) : Needs (pressing first) 0 block0 1 := by
  refine ⟨queue1, rfl, target_core0 (opens1 first), (opens1 first).2.2.2, ?_⟩
  have h : ∀ v ∈ eligible queue1, fits (pressing first) 0 queue1 v [] = false := by cases first <;> decide +kernel
  exact fun v hv _ => h v hv

/-- Switching: pressure with a restore that holds too. -/
theorem restores1 : Restores (pressing false) 0 block0 := by
  refine .inr (.inl ⟨[], ⟨1, 0, 0, false⟩, [], by decide +kernel, by simp, ⟨queue1, rfl, ?_⟩, needs1 false⟩)
  intro p q hp
  cases hp

/-- Switching: no block is about to place that needs what the block holds. -/
theorem no_restore1 : ¬Restores (pressing true) 0 block0 := by
  have hs : queueSort (pressing true) (liveQueue (pressing true) (dieOf block0.core)) = [⟨2, 0, 0, false⟩, ⟨1, 0, 0, false⟩] := by decide +kernel
  have hb : ∀ e ∈ (pressing true).blocks, e.2.st = .resident := by decide +kernel
  rintro (⟨e, he, h, -⟩ | ⟨l, e, r, h, hl, -, hn⟩ | ⟨e, he, h, -⟩)
  · cases (hb e he).symm.trans h
  · rw [hs] at h
    cases l with
    | nil =>
      injection h with h1 h2
      subst h1
      obtain ⟨g, hg, ht, -⟩ := hn
      obtain rfl : { probeGrid ⟨[], []⟩ with prio := 1, kern := { swKern with vars := [] } } = g := Option.some.inj hg
      obtain ⟨⟨-, -, e', he'⟩, -⟩ := ht
      obtain ⟨-, -, -, -, v, hv, -⟩ := he'
      have : eligible { probeGrid ⟨[], []⟩ with prio := 1, kern := { swKern with vars := [] } } = [] := by decide +kernel
      rw [this] at hv
      cases hv
    | cons a l =>
      injection h with h1 h2
      refine hl a (List.mem_cons_self ..) ⟨{ probeGrid ⟨[], []⟩ with prio := 1, kern := { swKern with vars := [] } }, by rw [← h1]; rfl, ?_⟩
      intro p q hp
      cases hp
  · cases (hb e he).symm.trans h

/-- Switching: the core has room for the variant that the policy prefers. -/
theorem prefers1 (first : Bool) : Prefers (pressing first) 0 block0 := by
  refine ⟨queue1, { probeVariant with vid := 1, ext := 0, bays := 8 }, by cases first <;> rfl, by decide, ⟨[], [probeVariant], ?_, fun _ => rfl, ?_, ?_⟩, by decide⟩
  · cases first <;> decide +kernel
  · intro h; cases h
  · intro h; exact absurd rfl h

/-- Switching: an idle core and no one that waits. -/
theorem no_pressure (w : Nat) : ¬Pressure { pressing false with dies := [] } w 0 block0 := by
  rintro ⟨gid, since, g, rg, k', ⟨h0, h1⟩, -⟩
  rcases Nat.mod_two_eq_zero_or_one w with hw | hw
  · obtain ⟨e, he, -⟩ := h0 hw
    rw [show liveQueue { pressing false with dies := [] } (dieOf block0.core) = [] by decide +kernel] at he
    cases he
  · obtain ⟨k, hk, hst, -⟩ := h1 hw
    have hb : block0.st = .resident := by decide +kernel
    have hk' : NMap.find? [(0, block0)] (w / 2) = some k := hk
    simp only [NMap.find?] at hk'
    split at hk'
    · cases hk'
      cases hb.symm.trans hst
    · cases hk'

/-- Switching: the flags that the statement gives in these states, 3, 1, 1 and 2, and none without a reason. -/
theorem test_met_flags :
    let flag := fun (i : Instr) (s : State) => match exec i s with
      | .next t => (t.block? 0).bind (·.flag)
      | _ => none
    let idle : State := { pressing false with dies := [] }
    flag (.switchFlagPressure 0 0) (pressing false) = some 3 ∧ flag (.switchFlagPressure 2 0) (pressing true) = some 1 ∧
    flag (.switchFlagIdle 0) (pressing true) = some 1 ∧ flag (.switchFlagIdle 0) idle = some 2 ∧ flag (.switchFlagRestore 0) (pressing false) = some 3 ∧
    flag (.switchFlagPressure 0 0) idle = none ∧ flag (.switchFlagRestore 0) idle = none := by decide +kernel

theorem idle_only : Prefers { pressing false with dies := [] } 0 block0 ∧ ¬Restores { pressing false with dies := [] } 0 block0 := by
  refine ⟨⟨queue1, { probeVariant with vid := 1, ext := 0, bays := 8 }, rfl, by decide, ⟨[], [probeVariant], by decide +kernel, fun _ => rfl,
    fun h => absurd h (by decide), fun h => absurd rfl h⟩, by decide⟩, ?_⟩
  have hs : queueSort { pressing false with dies := [] } (liveQueue { pressing false with dies := [] } (dieOf block0.core)) = [] := by decide +kernel
  have hb : ∀ e ∈ ({ pressing false with dies := [] } : State).blocks, e.2.st = .resident := by decide +kernel
  rintro (⟨e, he, h, -⟩ | ⟨l, e, r, h, -⟩ | ⟨e, he, h, -⟩)
  · cases (hb e he).symm.trans h
  · rw [hs] at h
    simp at h
  · cases (hb e he).symm.trans h

theorem no_prefers : ¬Prefers (gridded (fun g => { g with policy := 2 })) 0 block0 := by
  rintro ⟨g, v, hg, hp, -⟩
  obtain rfl : { probeGrid ⟨[], []⟩ with policy := 2 } = g := Option.some.inj hg
  exact hp rfl

/-- Switching: an identifier that is not declared, a convergence register in use; a switch area on an absent page and on one that
may not be written (R133). -/
theorem test_met_switch_traps :
    (let raises := fun (s : State) (id : BitVec 16) => nextIs (exec (.switchpt { zS with imm16 := id }) s) (fun t => (t.crew? 0 0).any (fun c => c.trap.any (fun p => p.cause == cProt)))
     raises (switching none) 62 = true ∧
     raises ((switching none).updBlock 0 (fun k => { k with convs := [(3, { Conv.reset with copies := [⟨1, 1, 0, 0, 16, none⟩] })] })) 63 = true) ∧
    (let s := fun (area : Nat) => { switching (some 2) with
       mem := memWith [(0x3018, 8, 0x1D)], grids := [(0, { probeGrid ⟨[], []⟩ with swArea := area, policy := 0, kern := swKern })] }
     let i : Instr := .switchpt { zS with imm16 := 63 }
     ([0x40000000, 0xC0000000] : List Nat).all (fun a => met (s a) i (fun x => x.blk.flag == some 2 && flaggedAt x 63 && replays x 63 == 0 &&
       othersArrived x.blk x.c 63 && !streamRuns x.s x.b x.blk.core && switchDrained x.s x.b x.blk && x.variant.any (fun v => (switchMap x.g v 63).isSome) && x.blk.spb.isEmpty)) = true ∧
     nextIs (exec i (s 0x40000000)) (fun t => (t.crew? 0 0).any (fun c => c.pendingPf == some (0x40000000, 1, 0)) && (t.block? 0).any (fun k => k.flag == some 2)) = true ∧
     nextIs (exec i (s 0xC0000000)) (fun t => (t.crew? 0 0).any (fun c => c.trap.any (fun p => p.cause == cProt && p.taddr == 0xC0000000 && p.acc == 1)) &&
       (t.block? 0).any (fun k => k.flag == some 2 && k.sampled.isEmpty && k.st == .resident)) = true) := by decide +kernel

/-! ## Witnesses of clauses on ladders, the matrix unit, faults, packets, graphs and the platform -/

/-- Ladders: a commit that comes after the cut; `lhold` at 255 waits, and `ldrop` of a slot without a hold raises `SEAL`. -/
theorem test_met_ladder_ends :
    let i : FmtE := { zE with pd := 1, a := .s 2, b := .const 0, d := .s 4 }
    (let s := laddered 0xFFFF (0xFFFF + 2 ^ 56) 10 (waitsAs .seal) (fun k => { k with pass := some 0, sealQ := some 5 })
     (blockWait ((s.block? 0).getD savedBlock) == some .seal && okB (readLadder s 0 0x8000 0) (fun r => r.1.cut) &&
       nextIs (exec (.sealCommit 0) s) (fun t => t.mem == s.mem && t.blocks == s.blocks)) = true) ∧
    (let s := laddered 0 (0x08000001 + 255 * 2 ^ 32) 2 (uni [0x8000]) id
     (met s (.lhold i) (fun x => okB (ladderOperand x i .write) (fun r => r.1.any (fun r => r.1.live && holdOf r.2.1 0 == 255))) &&
       nextIs (exec (.lhold i) s) (fun t => t.mem == s.mem && (t.crew? 0 0).any (fun c => (c.thread? 0).any (fun th => th.pc == 0x10000)))) = true) ∧
    nextIs (exec (.ldrop { i with c := .const 1 }) (laddered 0 0x08000001 2 (uni [0x8000]) id)) (fun t => (t.crew? 0 0).any (fun c => c.trap.any (fun p => p.cause == cSeal))) = true := by
  decide +kernel

/-- MatrixIssue: a pair without an accumulator, a size out of range and a second request of `shape`; a misaligned window; a set
of one crew, whose first signature is its last. -/
theorem test_met_matrix_more :
    (let cause := fun (i : Instr) (s : State) => match exec i s with
       | .next t => (t.crew? 0 0).bind (fun c => c.trap.map (·.cause))
       | _ => none
     let shape : Instr := .shape { zA with pd := 15, a := .s 2, d := .s 4 }
     [cause shape (crewed (uni [0x05040020101])), cause shape (crewed (uni [0x04040020141])), cause shape (granted .i8 .i8 [0x04040020102]),
       cause (.fmtwin { zA with pd := 15, sub := 15, a := .s 2, b := .s 3 }) (crewed (uni [2 + 256 * 2 ^ 32, 0x01]))] =
       [some cUnd, some cProt, some cProt, some cProt]) ∧
    (let f : FmtX := { zX with sg := true, cv := 7, a := .s 2, b := .s 3, c := .s 4, d := .acc 0 }
     let s := blocked (fun k => { k with grant := some (grant0 .i8 .i8), convs := [(7, { Conv.reset with cset := some 1 })] })
     met s (.mma f) (fun x => (mmaTrap x f).isNone && decide (7 < slotBudget x.s x.blk) && (x.blk.conv 7).sig.isNone && (x.blk.conv 7).signed.isEmpty &&
       (x.blk.conv 7).sigOp.isNone && (op? x.s x.s.nextOp).isNone && x.act == BitVec.allOnes 32) = true ∧
     nextIs (exec (.mma f) s) (fun t => t.ops.length == 1 && t.ops.all (·.ready) && (t.crew? 0 0).any (fun c => (c.thread? 9).any (fun th => th.pc == 0x1000C))) = true) := by
  decide +kernel

/-- FaultsAndErrors: a crew that waits since cycle 0. -/
theorem waits_since : WaitsSince (waitsAs (.bar 1 5 1 (some 0)) (Crew.at_ 0x10000 1 0 0 1 0 none)) 0 := by
  have hw : ∀ e ∈ (waitsAs (.bar 1 5 1 (some 0)) (Crew.at_ 0x10000 1 0 0 1 0 none)).threads,
      e.2.wait.isSome = true ∧ e.2.since = none ∧ e.2.exited = false := by decide +kernel
  have hh : (waitsAs (.bar 1 5 1 (some 0)) (Crew.at_ 0x10000 1 0 0 1 0 none)).handler = none := rfl
  refine ⟨?_, fun e he _ => (hw e he).1, fun e he _ n hn => ?_, .inl rfl⟩
  · obtain ⟨e, he⟩ : ∃ e, e ∈ (waitsAs (.bar 1 5 1 (some 0)) (Crew.at_ 0x10000 1 0 0 1 0 none)).threads :=
      List.exists_mem_of_ne_nil _ (by decide +kernel)
    exact ⟨e, he, (hw e he).2.2, fun h h' => by rw [hh] at h'; cases h'⟩
  · rw [(hw e he).2.1] at hn
    cases hn

/-- FaultsAndErrors: the `MCE` record of a core that a grid's block was on, and in a full ring the one that waits (R353); failures by timing
and by parity at one instruction are counted apart (R383). -/
theorem test_met_mce_record :
    let s := fun (r : Ring) => { gridded (fun g => { g with cmpl := 0x1234 }) with blocks := probe.blocks, rings := [(0, r)] }
    nextIs (exec (.mceRetire 1 0) (s { Ring.reset with base := 0x9000, widx := 3, ridx := 3 })) (fun t => (t.grid? 0).any (fun g => g.st == .faulted) &&
      t.mem.nat 0x9000 8 == 0 && t.mem.nat 0x9008 2 == cMce + 5 * 256 && t.mem.nat 0x900C 4 == 3 && (t.ring 0).widx == 4 && (t.ring 0).pend.length == 1) = true ∧
    nextIs (exec (.mceRetire 1 0) (s { Ring.reset with widx := 4, ridx := 3 })) (fun t => (t.ring 0).widx == 4 && (t.ring 0).held == [(1, 0x1234)]) = true ∧
    (let late := crewed (fun c => { c with retry := [⟨0x10000, true, 1, true⟩] })
     (late.crew? 0 0).any (fun c => c.failures 0x10000 true == 1 && c.failures 0x10000 false == 0) &&
       nextIs (exec (.parityError 0 0 0x10000 6 9) late) (fun t => t.degraded.isEmpty && (t.crew? 0 0).any (fun c =>
         c.failures 0x10000 true == 1 && c.failures 0x10000 false == 1)) = true) := by decide +kernel

/-- A region head at 0x10000, as a branch target. -/
def withHead (m : Memory) : Memory :=
  m.write 0x10000 (leBytes 64 (makeLine [0x00000000000080000000BF07#96, 0x3F0E#96, 0x3F0E#96, 0x3F0E#96, 0x3F0E#96] 3 0))

/-- Packets: a launch with a ladder writes its header and its tiles' entries and is registered (R31); a `GRAPH` whose header is
malformed is refused. -/
theorem test_met_ladder_launch :
    (let p := { pkt0 (launchOf [(1, 4)]) with lext := bytesOf [(0, 2), (4, 1), (5, 16), (8, 0xC000), (0x10, 0x20000)] }
     let s := { holding p with mem := withHead (memWith (kernelAt ++ [(0x8006, 1, 1), (0x8007, 1, 2), (0x800C, 4, 0x1000)])) }
     let l : Ladder := ⟨0xC000, 0x20000, 0x1000, 1, 2, false⟩
     (selected s 0).isSome && ((readKernel s cx0 0x8000).filter (kernelCode s cx0)).any (fun k => refusal s p (some k) true == 0 &&
       (gridOf s p 0 k 0x8000 none).ladder == some l) && (initLadder s cx0 l).ladders == [0xC000] &&
     ([(0, 0x20000), (8, 0x1000 + 2 ^ 32), (16, 0xFFFF + 2 * 2 ^ 32), (24, 0), (32, 0), (40, 2 ^ 64 - 1), (48, 0), (56, 0), (64, 0xFFFF)] : List (Nat × Nat)).all (fun e =>
       (initLadder s cx0 l).mem.nat (0xC000 + e.1) 8 == e.2)) = true ∧
    nextIs (exec (.graph 0) (holding (pkt0 [(0, 3), (0x10, 4)]))) (fun t => (t.packets.find? 0).any (fun p => p.status == 6 && p.reason == 1)) = true := by
  decide +kernel

/-- Graphs: a `WAIT` node whose word is met when it may start (R145). CutsAndCompletion: what a cut takes out of a Store Path; a `LAUNCH`
with a completion record and a manifest; a packet whose copy is over. Platform: a host store takes the owners of its words (R389).
SpdmResponder: the manifest of context 0. -/
theorem test_met_ends :
    (let s := graphed [nodeAt 6 [1] 5 0 0xA000 78, nodeAt 6 [] 0 0 0 1] [] [(0xA000, 8, 78)]
     ((s.graphs.find? 0).any (fun r => r.ready 0 && !r.loopRuns 0) && nextIs (exec (.waitNode 0 0) s) (fun t =>
       runOf t 0 (fun n => n.status == some 1 && n.started == some 0) && runOf t 1 (fun n => n.status.isNone))) = true) ∧
    (let d : Dest := ⟨true, 4, 1, 31, 1⟩
     let s := { gridded (fun g => { g with st := .cut }) with blocks := (path [.atomic 1 (.g 0x8000) 4 0 1 0 (some d) 0x8000 1#32,
       .marker 2 (.pooltake 15 (some d) 1 31), .marker 3 .none]).blocks }
     nextIs (exec (.cutArrival 0 0) s) (fun t => (t.crew? 0 0).any (fun c => c.storePath ==
       [.atomic 1 (.g 0x8000) 4 0 1 0 none 0x8000 1#32, .marker 2 (.pooltake 15 none 1 31), .marker 3 .none])) = true) ∧
    (let s := { holding ((pkt0 [(0, 1), (8, 0xB000)]).finish 6 1) with
        mem := memWith [(0x9004, 4, 0x100)], rings := [(0, { Ring.reset with manBase := 0x9000, manSz := 0x1000 })] }
     ((s.packets.find? 0).any (fun p => p.st == .ended && p.type == 1 && p.cmpl == 0xB000) &&
       natVirt s cx0 (s.ring 0).manBase 16 == some (0x100 * 2 ^ 32)) = true) ∧
    nextIs (exec (.completionRecordWrite 0) { holding { pkt0 [(0, 4), (8, 0xB000)] with st := .started, op := some 9 } with
      ops := [{ op 9 0 1 (.copy [] none) true with done := true }] }) (fun t => (t.packets.find? 0).any (fun p => p.st == .completed && p.status == 1) &&
        t.mem.nat 0xB000 4 == 1) = true ∧
    nextIs (exec (.hostCxlStore 0x8000 [1#8, 2#8]) { probe with owners := [(0x2000, 3), (0x2001, 3)] }) (fun t => t.owners.map Prod.fst == [0x2001]) = true ∧
    (let s := { holds { cx0 with desc := 0x8000 } (stored [(0x9000, 8, 7)]) with rings := [(0, { Ring.reset with manBase := 0x9000, manSz := 0x10 })] }
     (readVirt s cx0 (s.ring 0).manBase (s.ring 0).manSz).any (fun b => b.length == 16 && leNat b == 7) = true) := by decide +kernel

/-- IssueSelection: every thread stands at a `mov` to `v4`, which is empty in lane 31: none may issue, and all wait since this
turn (R17); a thread that has waited goes on when the register is full. FaultsAndErrors: a withdrawn pop waits again after a
rollback (R24, R225). -/
theorem test_met_operands :
    (let line := makeLine [0x00000000000080000000BF07#96, (encode (.mov (vA1 .n32))).getD 0, 0x3F0E#96, 0x3F0E#96, 0x3F0E#96] 3 0
     let s := fun (wait : Option Wait) (empty : NMap Nat) => { crewed (fun c => { c with
         empty := empty, threads := c.threads.map (fun t => (t.1, { t.2 with pc := 0x1000C, wait := wait })) }) with
       mem := (memWith []).write 0x10000 (leBytes 64 line), grids := [(0, probeGrid ((memWith []).write 0x10000 (leBytes 64 line)))] }
     let waits := fun (t : State) => (t.crew? 0 0).bind (fun c => (c.thread? 31).map (fun th => (th.wait, th.since)))
     ((candidates (s none [(Crew.key 4 31, 1)]) 0 0).isEmpty &&
       nextIs (exec (.issueCycle 0 0) (s none [(Crew.key 4 31, 1)])) (fun t => waits t == some (some .operands, some 0)) &&
       nextIs (exec (.issueCycle 0 0) (s (some .operands) [])) (fun t => waits t == some (none, none) && t.issue.length == 1)) = true) ∧
    (let d : Dest := ⟨true, 9, 1, 31, 1⟩
     let s := crewed (fun c => { c with late := some (cPf, 0x9000, 0, pend cPf 2), threads := c.threads.map (fun t =>
       (t.1, { t.2 with head := { t.2.head with empty := [(Crew.key 9 31, 1)], pops := if t.1 = 31 then [(3, d)] else [] } })) })
     (canRollB s && nextIs (exec (.lateFaultRollback 0 0) s) (fun t => (wqOf t 0 3).pops == [(0, 0, d)])) = true) := by decide +kernel

end Sys2Proof.Tests
end

section
/-! PROOFS. The layer that the settled statements stand on: what a change of the state leaves of its bytes, crews and
slots, and what a completed, a trapped and a waiting instruction leave of the path's crew. -/

namespace Sys2Proof.Machine

open Sys2Proof

/-! ## Bytes that a change of the state leaves -/

theorem SameBytes.refl (s : State) : SameBytes s s := fun _ => rfl

theorem SameBytes.trans {s t u : State} (h : SameBytes s t) (h' : SameBytes t u) : SameBytes s u :=
  fun p => (h' p).trans (h p)

/-- Global memory, the scratchpads and the blocks' accumulator tiles decide every byte. -/
theorem sameBytes_of {s t : State} (hm : t.mem = s.mem) (hc : ∀ c, (t.core c).sp = (s.core c).sp)
    (hb : ∀ b, (t.block? b).map (·.acc) = (s.block? b).map (·.acc)) : SameBytes s t := by
  intro p
  cases p with
  | g a => simp only [readPlace, hm]
  | sp c a => simp only [readPlace, hc]
  | acc b a =>
    have h := hb b
    simp only [readPlace]
    cases hs : s.block? b <;> cases ht : t.block? b <;> simp_all

theorem sameBytes_updBlock (s : State) (b : Nat) (f : Block → Block) (hf : ∀ k, (f k).acc = k.acc) :
    SameBytes s (s.updBlock b f) := by
  refine sameBytes_of (by simp) (fun c => by simp [State.core]) (fun k => ?_)
  by_cases h : k = b
  · subst h
    cases hk : s.block? k with
    | none => simp [State.updBlock, hk]
    | some x => simp [State.updBlock, hk, hf]
  · rw [State.block_updBlock_ne _ _ h]

theorem sameBytes_setCore (s : State) (c : Nat) (x : Core) (hx : x.sp = (s.core c).sp) : SameBytes s (s.setCore c x) := by
  refine sameBytes_of rfl (fun k => ?_) (fun _ => rfl)
  by_cases h : k = c
  · subst h; rw [State.core_setCore, hx]
  · rw [State.core_setCore_ne _ _ h]

theorem sameBytes_setSlot (s : State) (c i : Nat) (x : Slot) : SameBytes s (s.setSlot c i x) := sameBytes_setCore _ _ _ rfl

theorem sameBytes_updCrew (s : State) (b c : Nat) (f : Crew → Crew) : SameBytes s (s.updCrew b c f) := by
  unfold State.updCrew
  split
  · exact sameBytes_setCrew _ _ _ _
  · exact SameBytes.refl s

theorem sameBytes_draw (s : State) : SameBytes s s.draw := sameBytes_of rfl (fun _ => rfl) (fun _ => rfl)

/-! ## Crews, blocks and slots after an update -/

namespace State

@[simp] theorem crew_setCore (s : State) (k b c : Nat) (x : Core) : (s.setCore k x).crew? b c = s.crew? b c := rfl
@[simp] theorem block_setCore (s : State) (k b : Nat) (x : Core) : (s.setCore k x).block? b = s.block? b := rfl
@[simp] theorem grid_setCore (s : State) (k g : Nat) (x : Core) : (s.setCore k x).grid? g = s.grid? g := rfl
@[simp] theorem crew_setSlot (s : State) (k i b c : Nat) (x : Slot) : (s.setSlot k i x).crew? b c = s.crew? b c := rfl
@[simp] theorem block_setSlot (s : State) (k i b : Nat) (x : Slot) : (s.setSlot k i x).block? b = s.block? b := rfl
@[simp] theorem grid_setSlot (s : State) (k i g : Nat) (x : Slot) : (s.setSlot k i x).grid? g = s.grid? g := rfl
@[simp] theorem slot_setSlot (s : State) (k i : Nat) (x : Slot) : (s.setSlot k i x).slot k i = x := by
  simp [slot, setSlot]
@[simp] theorem slot_setCrew (s : State) (b c k i : Nat) (x : Crew) : (s.setCrew b c x).slot k i = s.slot k i := by
  simp [slot]
@[simp] theorem core_updBlock (s : State) (b k : Nat) (f : Block → Block) : (s.updBlock b f).core k = s.core k := by
  simp [core]
@[simp] theorem crew_draw (s : State) (b c : Nat) : s.draw.crew? b c = s.crew? b c := rfl
@[simp] theorem block_draw (s : State) (b : Nat) : s.draw.block? b = s.block? b := rfl
@[simp] theorem slot_draw (s : State) (k i : Nat) : s.draw.slot k i = s.slot k i := rfl

theorem block_updBlock {s : State} {b : Nat} {k : Block} (h : s.block? b = some k) (f : Block → Block) :
    (s.updBlock b f).block? b = some (f k) := by
  rw [updBlock_of h, block_setBlock]

theorem block_setCrew {s : State} {b : Nat} {k : Block} (h : s.block? b = some k) (c : Nat) (x : Crew) :
    (s.setCrew b c x).block? b = some { k with crews := k.crews.set c x } := block_updBlock h _

/-- A change of a block that keeps its crews. -/
theorem crew_updBlock (s : State) (b b' c : Nat) (f : Block → Block) (hf : ∀ k, (f k).crews = k.crews) :
    (s.updBlock b f).crew? b' c = s.crew? b' c := by
  by_cases h : b' = b
  · subst h
    cases hk : s.block? b' with
    | none => simp [updBlock, hk]
    | some k => simp [crew?, block_updBlock hk, hk, hf]
  · simp only [crew?, block_updBlock_ne _ _ h]

theorem crew_updCrew {s : State} {b c : Nat} {y : Crew} (h : s.crew? b c = some y) (f : Crew → Crew) :
    (s.updCrew b c f).crew? b c = some (f y) := by
  rw [updCrew_of h, crew_setCrew h]

end State

/-! ## Threads of a crew after an update -/

/-- The set of a list holds the lanes below 32 that the list names. -/
theorem getLsbD_maskOf (ls : List Nat) (l : Nat) : (maskOf ls).getLsbD l = true ↔ l < 32 ∧ l ∈ ls := by
  have hf : ∀ m : Lanes, (ls.foldl (fun m i => m ||| (1#32 <<< i)) m).getLsbD l = true ↔
      m.getLsbD l = true ∨ (l < 32 ∧ l ∈ ls) := by
    induction ls with
    | nil => simp
    | cons a ls ih =>
      intro m
      rw [List.foldl_cons, ih, BitVec.getLsbD_or, Bool.or_eq_true]
      have ha : (1#32 <<< a).getLsbD l = true ↔ l < 32 ∧ l = a := by
        simp [BitVec.getLsbD_shiftLeft, BitVec.getLsbD_one]
        omega
      rw [ha, List.mem_cons]
      tauto
  simpa [maskOf] using hf 0

theorem mem_lanesOf {m : Lanes} {l : Nat} : l ∈ lanesOf m ↔ m.getLsbD l = true := by
  simp only [lanesOf, List.mem_filter, List.mem_range, and_iff_right_iff_imp]
  exact fun h => BitVec.lt_of_getLsbD h

/-- The lanes of the threads that meet a test. -/
theorem Crew.getLsbD_lanesWhere (cr : Crew) (p : Thread → Bool) (l : Nat) :
    (cr.lanesWhere p).getLsbD l = true ↔ l < 32 ∧ ∃ t, (l, t) ∈ cr.threads ∧ p t = true := by
  simp [Crew.lanesWhere, getLsbD_maskOf]

theorem NMap.find?_isSome_of_mem {α : Type} {m : NMap α} {n : Nat} {v : α} (h : (n, v) ∈ m) :
    ∃ w, NMap.find? m n = some w := by
  induction m with
  | nil => cases h
  | cons e m ih =>
    obtain ⟨k, w⟩ := e
    by_cases hk : k = n
    · exact ⟨w, by simp [NMap.find?_cons, hk]⟩
    · rw [NMap.find?_cons, if_neg hk]
      exact ih ((List.mem_cons.1 h).resolve_left (fun e => hk (congrArg Prod.fst e).symm))

/-- A lane of a set of threads' lanes has a thread. -/
theorem Crew.thread_of_lanesWhere {cr : Crew} {p : Thread → Bool} {l : Nat} (h : (cr.lanesWhere p).getLsbD l = true) :
    ∃ t, cr.thread? l = some t := by
  obtain ⟨-, t, ht, -⟩ := (cr.getLsbD_lanesWhere p l).1 h
  exact NMap.find?_isSome_of_mem ht

theorem Crew.thread_mapVals (cr : Crew) (f : Nat → Thread → Thread) (l : Nat) :
    ({ cr with threads := cr.threads.mapVals f } : Crew).thread? l = (cr.thread? l).map (f l) :=
  NMap.find?_mapVals f cr.threads l

/-! ## Instructions that complete -/

theorem Ready.grid {i : Instr} {s : State} {x : Cx} (h : Ready i s x) : s.grid? x.blk.grid = some x.g :=
  (Cx.of_spec h.path).2.2.2.1

/-- An instruction that completes in a machine where the path's crew is `cr`. -/
theorem complete_of {x : Cx} {s' : State} {cr : Crew} (h : s'.crew? x.b x.c = some cr) (ends : Bool) :
    complete x s' ends = s'.setCrew x.b x.c (cr.advance x.lanes x.nextPc (ends && !cr.inHandler)) := by
  rw [complete, State.updCrew_of h]

/-- As `issueState_ready`, for an effect that completes. -/
theorem exec_done {i : Instr} {s : State} {x : Cx} {eff : Cx → Res} {s' : State} {ends : Bool} {cr : Crew} (h : Ready i s x)
    (hx : exec i s = issueWith i s eff) (he : eff x = .done s' ends) (hc : s'.crew? x.b x.c = some cr) :
    exec i s = .next (s'.setCrew x.b x.c (cr.advance x.lanes x.nextPc ((ends || endsRegion i) && !cr.inHandler))) := by
  rw [hx, issueWith, issueState_ready h, he]
  simp only [complete_of hc]

/-- As `issueState_ready`, for an effect that moves the threads itself. -/
theorem exec_raw {i : Instr} {s : State} {x : Cx} {eff : Cx → Res} {s' : State} (h : Ready i s x)
    (hx : exec i s = issueWith i s eff) (he : eff x = .raw s') : exec i s = .next s' := by
  rw [hx, issueWith, issueState_ready h, he]

/-- An instruction that has no effect but to go on. -/
theorem completes_done {i : Instr} {s : State} {x : Cx} {eff : Cx → Res} (h : Ready i s x)
    (hx : exec i s = issueWith i s eff) (he : eff x = .done s false) : Completes i s x (Kept x.cr · none2 none1 none1) := by
  refine ⟨_, exec_done h hx he h.crew, sameBytes_setCrew _ _ _ _, ?_, (Kept.refl _).advance _ _ _⟩
  exact advanced_advance rfl ⟨rfl, rfl, rfl, rfl, rfl⟩ _

/-! ## Instructions that trap -/

theorem Cx.trapLanes_of_active {x : Cx} (h : x.act ≠ 0) : x.trapLanes = x.act := if_neg h

/-- A crew without a trap and without a handler takes the trap and waits at its issue slot (R178, R348). -/
theorem raiseTrap_calm {s : State} {b c : Nat} {k : Block} {cr : Crew} (t : PendTrap) (hb : s.block? b = some k)
    (hc : s.crew? b c = some cr) (ht : cr.trap = none) (hh : cr.handler = none) :
    raiseTrap s b c t = (s.setCrew b c { cr with trap := some t }).setSlot k.core cr.slot
      { s.slot k.core cr.slot with waiting := (s.slot k.core cr.slot).waiting ++ [(b, c)] } := by
  simp [raiseTrap, hb, hc, ht, hh, Crew.inHandler]

/-- An instruction whose trap is raised in a calm crew, on a machine that agrees with `s` where a trap looks. -/
theorem raised_of {i : Instr} {s u : State} {x : Cx} {t : PendTrap} (hu : SameBytes s u) (hb : u.block? x.b = some x.blk)
    (hc : u.crew? x.b x.c = some x.cr) (hs : u.slot x.blk.core x.cr.slot = s.slot x.blk.core x.cr.slot) (hcalm : Claims.calm x)
    (hx : exec i s = .next (raiseTrap u x.b x.c t)) : Claims.Raised i s x t := by
  obtain ⟨ht, hh⟩ := hcalm
  rw [raiseTrap_calm t hb hc ht hh] at hx
  refine ⟨_, hx, hu.trans ((sameBytes_setCrew _ _ _ _).trans (sameBytes_setSlot _ _ _ _)), ?_, ?_⟩
  · rw [State.crew_setSlot, State.crew_setCrew hc]
  · rw [State.slot_setSlot, hs]

/-- An instruction that raises a trap in a calm crew at its own slot. -/
theorem raised_raise {i : Instr} {s : State} {x : Cx} {g : Guard} {cause taddr imm resume acc : Nat}
    (hp : Cx.of s g = some x) (ha : x.act ≠ 0) (hcalm : Claims.calm x)
    (hx : exec i s = .next (x.raise cause taddr imm resume false acc)) :
    Claims.Raised i s x (Claims.trapOf x cause taddr imm resume acc) := by
  obtain ⟨hs, hb, hc, -⟩ := Cx.of_spec hp
  refine raised_of (SameBytes.refl s) hb hc rfl hcalm ?_
  rw [hx, Cx.raise, Cx.trapLanes_of_active ha, hs]
  rfl

/-- An instruction that raises a trap with an open address in a calm crew (log 31). -/
theorem raisedOpen_raise {i : Instr} {s : State} {x : Cx} {g : Guard} {cause acc : Nat} (hp : Cx.of s g = some x)
    (ha : x.act ≠ 0) (hcalm : Claims.calm x) (hx : exec i s = .next (x.raiseOpen cause acc)) :
    Claims.RaisedOpen i s x cause acc := by
  obtain ⟨hs, hb, hc, -⟩ := Cx.of_spec hp
  refine ⟨(Config.freeWord x.s.free x.pc).toNat, raised_of (sameBytes_draw s) hb hc rfl hcalm ?_⟩
  rw [hx, Cx.raiseOpen, Cx.raise, ← hs]
  simp only [Cx.trapLanes, if_neg ha]
  rfl

end Sys2Proof.Machine
end

section
/-! PROOFS. Region heads (R22–R24, R223, R276, R277): what a head's checkpoint holds, and O38. -/

namespace Sys2Proof.NMap

open Sys2Proof

variable {α : Type}

/-- A table cut by a test of its keys. -/
theorem find?_keep (m : NMap α) (p : Nat → Bool) (n : Nat) : (m.keep p).find? n = if p n then m.find? n else none := by
  induction m with
  | nil => simp [keep, find?]
  | cons e m ih =>
    obtain ⟨k, v⟩ := e
    simp only [keep] at ih ⊢
    rw [List.filter_cons]
    by_cases hk : k = n
    · subst hk
      by_cases hp : p k = true
      · simp [hp, find?_cons]
      · simpa [hp] using ih
    · by_cases hp : p k = true
      · simp [hp, find?_cons, hk, ih]
      · simp [hp, find?_cons, hk, ih]

theorem find?_below (m : NMap α) (b n : Nat) : (m.below b).find? n = if n < b then m.find? n else none := by
  exact (find?_keep m (fun k => decide (k < b)) n).trans (by simp)

/-- A table built from a list by a key that tells its elements apart. -/
theorem find?_map_key {rs : List Nat} {k : Nat → Nat} (hk : Function.Injective k) (v : Nat → α) {r : Nat} (h : r ∈ rs) :
    find? (rs.map (fun r => (k r, v r))) (k r) = some (v r) := by
  induction rs with
  | nil => cases h
  | cons a rs ih =>
    rw [List.map_cons, find?_cons]
    by_cases ha : a = r
    · rw [if_pos (congrArg k ha), ha]
    · rw [if_neg (fun e => ha (hk e)), ih ((List.mem_cons.1 h).resolve_left (Ne.symm ha))]

end Sys2Proof.NMap

namespace Sys2Proof.Machine

open Sys2Proof Sys2Proof.Claims

/-! ## What a checkpoint holds (R276) -/

theorem mem_liveRegs {cr : Crew} {li : BitVec 32} {r : Nat} (hr : r < 256) (hl : li.getLsbD (r / 8) = true)
    (hh : cr.holds r = true) : r ∈ liveRegs cr li := by
  refine List.mem_filter.2 ⟨List.mem_flatMap.2 ⟨r / 8, List.mem_filter.2 ⟨List.mem_range.2 (by omega), hl⟩, ?_⟩, hh⟩
  exact List.mem_map.2 ⟨r % 8, List.mem_range.2 (Nat.mod_lt _ (by decide)), Nat.div_add_mod r 8⟩

theorem checkpoint_v {cr : Crew} {r : Nat} (l pc : Nat) {li : BitVec 32} (ws : BitVec 32) (bay : BitVec 16) (dc : List DWord)
    (hr : r < 256) (hl : li.getLsbD (r / 8) = true) (hh : cr.holds r = true) :
    (cr.checkpoint l pc li ws bay dc).v.find? (Crew.key r l) = some (cr.getV r l) := by
  have hk : Function.Injective (fun r => Crew.key r l) := fun a b h => by simp only [Crew.key] at h; omega
  exact NMap.find?_map_key hk (fun r => cr.getV r l) (mem_liveRegs hr hl hh)

theorem checkpoint_p (cr : Crew) (l pc : Nat) (li ws : BitVec 32) (bay : BitVec 16) (dc : List DWord) {i : Nat} (hi : i < 15) :
    (cr.checkpoint l pc li ws bay dc).p.find? i = some ((cr.getP i).getLsbD l) :=
  NMap.find?_map_key (k := id) Function.injective_id (fun i => (cr.getP i).getLsbD l) (List.mem_range.2 hi)

/-! ## What a head leaves of the crew (R223, R276) -/

/-- A register of a block that stays reads as before. -/
theorem getV_dropMarked {cr : Crew} {r l : Nat} (hl : l < 32)
    (h : r < 64 ∨ (cr.xheld &&& ~~~cr.xmark).getLsbD (r / 64 - 1) = true) : cr.dropMarked.getV r l = cr.getV r l := by
  have hk : Crew.key r l / 32 = r := by unfold Crew.key; omega
  have hx : r < 64 ∨ cr.xmark.getLsbD (r / 64 - 1) = false := h.imp_right (fun h => by
    simp only [BitVec.getLsbD_and, BitVec.getLsbD_not, Bool.and_eq_true, Bool.not_eq_true'] at h
    exact h.2.2)
  simp only [Crew.getV, Crew.dropMarked, NMap.find?_keep, hk]
  rw [if_pos]
  rcases hx with hx | hx <;> simp [hx]

/-- A block that stays is held. -/
theorem holds_dropMarked {cr : Crew} {r : Nat} (h : r < 64 ∨ (cr.xheld &&& ~~~cr.xmark).getLsbD (r / 64 - 1) = true) :
    cr.dropMarked.holds r = true := by
  rcases h with h | h
  · simp [Crew.holds, h]
  · simp only [Crew.holds, Crew.dropMarked, h, Bool.or_true]

/-- The thread of a lane after the heads of a set of lanes. -/
theorem thread_takeHeads (cr : Crew) (m : Lanes) (pc : Nat) (f : FmtG) (l : Nat) :
    (cr.takeHeads m pc f).thread? l = (cr.thread? l).map (fun t => if m.getLsbD l then
      { t with head := cr.checkpoint l pc f.li f.ws f.bay t.dctr
               cnt := if t.atHead && t.head.pc == pc then t.cnt else Counts.zero
               skip := if t.atHead && t.head.pc == pc then t.skip else Counts.zero
               headDue := false, bars := [] } else t) :=
  Crew.thread_mapVals cr _ l

/-- The thread of a lane after threads have gone on within their region. -/
theorem thread_advance (cr : Crew) (m : Lanes) (n l : Nat) :
    (cr.advance m n false).thread? l = (cr.thread? l).map (fun t => if m.getLsbD l then t.goTo n cr.inHandler else t) :=
  Crew.thread_updThreads cr m (fun t => t.goTo n cr.inHandler) l

/-- The crew of a region head's path once the head is taken. -/
def headed (x : Cx) (f : FmtG) : Crew := (x.cr.dropMarked.takeHeads x.lanes x.pc f).crewCkpt

theorem crew_unfresh (s : State) (b b' c : Nat) :
    (s.updBlock b (fun k => { k with fresh := false })).crew? b' c = s.crew? b' c :=
  State.crew_updBlock s b b' c (fun k => { k with fresh := false }) (fun _ => rfl)

/-- What a head leaves of its crew, and what it keeps (R276). -/
theorem exec_region {f : FmtG} {s : State} {x : Cx} (h : Ready (.region f) s x) (hh : x.cr.inHandler = false)
    (hm : marksFull x.cr = true) : exec (.region f) s =
      .next ((s.updBlock x.b (fun k => { k with fresh := false })).setCrew x.b x.c
        ((headed x f).advance x.lanes x.nextPc false)) := by
  have hc : (s.updBlock x.b (fun k => { k with fresh := false })).crew? x.b x.c = some x.cr := by
    rw [crew_unfresh, h.crew]
  have he := exec_done h (eff := fun x => if x.cr.inHandler then .done x.s false
    else if !marksFull x.cr then .stall x.s
    else .done ((x.s.updBlock x.b (fun k => { k with fresh := false })).setCrew x.b x.c (headed x f)) false) rfl
    (by simp only [hh, hm, Bool.false_eq_true, if_false, Bool.not_true]; rfl) (State.crew_setCrew (h.state ▸ hc) _)
  rw [he, State.setCrew_setCrew, h.state]
  rfl

/-- A thread of the path after its head (R276). -/
theorem thread_headed {x : Cx} {l : Nat} {th : Thread} (f : FmtG) (ht : x.cr.thread? l = some th) :
    ((headed x f).advance x.lanes x.nextPc false).thread? l = some (if x.lanes.getLsbD l then
      Thread.goTo { th with
        head := x.cr.dropMarked.checkpoint l x.pc f.li f.ws f.bay th.dctr
        cnt := if th.atHead && th.head.pc == x.pc then th.cnt else Counts.zero
        skip := if th.atHead && th.head.pc == x.pc then th.skip else Counts.zero
        headDue := false, bars := [] } x.nextPc (headed x f).inHandler else th) := by
  have hd : (headed x f).thread? l = _ := thread_takeHeads x.cr.dropMarked x.lanes x.pc f l
  rw [thread_advance, hd, show x.cr.dropMarked.thread? l = some th from ht]
  by_cases hl : x.lanes.getLsbD l = true <;> simp [hl]

end Sys2Proof.Machine

open Sys2Proof Sys2Proof.Machine Sys2Proof.Claims

/-- Settles O38, a clause at a time: a head in a handler goes on, a head outside one takes its checkpoint of the crew without
the marked blocks, and IMPLICIT_HEAD changes `headDue` alone. -/
theorem regionHeads : Obligations.RegionHeads := by
  refine ⟨fun f s x h => ⟨fun hh => ?_, fun hh hm => ?_⟩, fun b c s cr hc => ?_⟩
  · exact completes_done h (s := s) rfl (by simp only [hh, if_true, h.state])
  · have hc : (s.updBlock x.b (fun k => { k with fresh := false })).crew? x.b x.c = some x.cr := by
      rw [crew_unfresh, h.crew]
    refine ⟨_, _, exec_region h hh hm, ?_, State.crew_setCrew hc _, ?_, rfl, rfl, rfl, rfl, ?_, rfl, rfl, rfl, ?_, ?_⟩
    · exact SameBytes.trans (sameBytes_updBlock _ _ _ (by intro k; rfl)) (sameBytes_setCrew _ _ _ _)
    · rw [State.block_setCrew (State.block_updBlock h.block _)]
      rfl
    · intro r hr
      exact (NMap.find?_below x.cr.s 64 r).trans (if_pos hr)
    · intro r l hl hr
      rw [advance_getV, advance_isEmpty]
      exact ⟨getV_dropMarked hl hr, rfl⟩
    · intro l th ht
      refine ⟨_, thread_headed f ht, fun hl => by simp [hl], fun hl => ?_⟩
      rw [if_pos hl]
      refine ⟨rfl, rfl, rfl, rfl, rfl, rfl, rfl, fun i hi => checkpoint_p _ _ _ _ _ _ _ hi, fun r hr hli hr' => ?_, fun ha => ?_⟩
      · exact (checkpoint_v _ _ _ _ _ hr hli (holds_dropMarked hr')).trans (congrArg some (getV_dropMarked
          (BitVec.lt_of_getLsbD hl) hr'))
      · simp [Thread.goTo, ha]
  · refine ⟨_, _, rfl, State.crew_updCrew hc _, sameBytes_updCrew _ _ _ _, rfl, fun l th ht => ?_⟩
    rw [Crew.thread_mapVals, ht]
    refine ⟨th.headDue && resultsPending cr l th, ?_, ?_⟩
    · cases th; simp; grind
    · simp [resultsPending]
end

section
/-! PROOFS. Traps at issue (R178), the double fault (R349) and the end of a handler (R284): O40. -/

namespace Sys2Proof.Machine

open Sys2Proof Sys2Proof.Claims

/-! ## The course of an issue that does not reach the instruction's effect (R178) -/

/-- Every instruction that issues takes the shared course with an effect of its own. -/
theorem exec_issues {i : Instr} (h : i.issues = true) (s : State) : ∃ eff, exec i s = issueWith i s eff := by
  cases i
  all_goals first | exact absurd h Bool.false_ne_true | exact ⟨_, rfl⟩

/-- The instructions that no handler may execute (R224, R282, R284). -/
theorem handlerUnd_of {cr : Crew} {i : Instr} (hh : cr.handler.isSome = true)
    (h : (∃ f, i = .regacq f) ∨ (∃ f, i = .regrel f) ∨ (∃ f, i = .switchpt f) ∨ opClass i = 7) : handlerUnd cr i = true := by
  rcases h with ⟨f, rfl⟩ | ⟨f, rfl⟩ | ⟨f, rfl⟩ | h
  · exact hh
  · exact hh
  · exact hh
  · unfold handlerUnd
    split
    · exact absurd h (by simp [opClass, Instr.opc])
    · exact hh
    · exact hh
    · exact hh
    · simpa [Crew.inHandler, h] using hh

section Stops

variable {i : Instr} {s : State} {x : Cx} (eff : Cx → Res) (hp : Cx.of s i.body.guard = some x) (hl : legal i = true)
  (hh : handlerUnd x.cr i = false) (ha : x.act ≠ 0)
include hp hl hh ha

/-- A register block that the crew lacks (R12, R178). -/
theorem issueState_lacks (hb : (namedV x.cr i).all x.cr.holds = false) : issueState i s eff = x.raise cProt x.pc 0 0 false := by
  unfold issueState
  rw [hp]
  simp [hl, hh, hb]
  exact fun h => absurd h ha

variable (hb : (namedV x.cr i).all x.cr.holds = true) (ho : waitsForOlder i = true → x.cr.checksDue = false)
include hb ho

/-- An empty source under `fe=trap`, the destinations full (R16, R17). -/
theorem issueState_fe (hd : dstsReady x.cr i x.acts = true) (hf : feTraps x.cr i x.acts = true) :
    issueState i s eff = x.raise cFe x.pc 0 0 false := by
  unfold issueState
  rw [hp]
  have ho' : ¬(waitsForOlder i = true ∧ x.cr.checksDue = true) := fun h => by simp [ho h.1] at h
  simp [hl, hh, hb, ho', hd, hf]
  exact fun h => absurd h ha

/-- A destination that is empty (R17). -/
theorem issueState_dst_empty (hd : dstsReady x.cr i x.acts = false) : issueState i s eff = stalled x s := by
  unfold issueState
  rw [hp]
  have ho' : ¬(waitsForOlder i = true ∧ x.cr.checksDue = true) := fun h => by simp [ho h.1] at h
  simp [hl, hh, hb, ho', hd, operandsReady]
  exact fun h => absurd h ha

/-- A fold index beyond the variant's (R178). -/
theorem issueState_fold (hf : feTraps x.cr i x.acts = false) (hr : operandsReady x.cr i x.acts = true)
    (hn : x.fold ≤ foldIndex i) : issueState i s eff = x.raiseOpen cProt 0 := by
  unfold issueState
  rw [hp]
  have ho' : ¬(waitsForOlder i = true ∧ x.cr.checksDue = true) := fun h => by simp [ho h.1] at h
  simp [hl, hh, hb, ho', hf, hr, hn]
  exact fun h => absurd h ha

end Stops

/-! ## The double fault (R349, R351) -/

/-- A change of memory and its owners alone: what a unit's write leaves of the tables that a trap looks at. -/
def SameTables (s t : State) : Prop := t.grids = s.grids ∧ t.rings = s.rings ∧ t.ctxs = s.ctxs

theorem SameTables.trans {s t u : State} (h : SameTables s t) (h' : SameTables t u) : SameTables s u :=
  ⟨h'.1.trans h.1, h'.2.1.trans h.2.1, h'.2.2.trans h.2.2⟩

theorem sameTables_writeVirt (c : Ctx) (data : List Byte) (s : State) (va : Nat) : SameTables s (writeVirt s c va data) := by
  induction data generalizing s va with
  | nil => exact ⟨rfl, rfl, rfl⟩
  | cons b bs ih =>
    refine SameTables.trans ?_ (ih _ _)
    split <;> exact ⟨rfl, rfl, rfl⟩

theorem sameTables_foldl {α : Type} {f : State → α → State} (hf : ∀ s a, SameTables s (f s a)) (l : List α) (s : State) :
    SameTables s (l.foldl f s) := by
  induction l generalizing s with
  | nil => exact ⟨rfl, rfl, rfl⟩
  | cons a l ih => exact (hf s a).trans (ih _)

theorem sameTables_spoil (s : State) (a n : Nat) : SameTables s (spoil s a n) := by
  refine sameTables_foldl (fun s h => ?_) _ _
  split <;> exact ⟨rfl, rfl, rfl⟩

theorem sameTables_storeVirt (s : State) (c : Ctx) (va : Nat) (data : List Byte) : SameTables s (storeVirt s c va data) :=
  (sameTables_writeVirt c data s va).trans (sameTables_foldl (fun s (p : Nat × Nat) => sameTables_spoil s p.1 p.2) _ _)

theorem sameTables_setCtl (s : State) (c : Ctx) (l : Ladder) (m : Nat) : SameTables s (setCtl s c l m) := by
  unfold setCtl
  split
  · exact sameTables_writeVirt _ _ _ _
  · exact ⟨rfl, rfl, rfl⟩

/-- A running grid that ends: its state, and what else stays (R41, R353). -/
theorem endGrid_spec {s : State} {g : Nat} {gr : Grid} (h : s.grid? g = some gr) (hr : gr.st = .running) (how : GridState) :
    ((endGrid s g how).grid? g).map (·.st) = some how ∧ (endGrid s g how).rings = s.rings ∧
      (gr.ladder = none → (endGrid s g how).mem = s.mem) := by
  unfold endGrid
  simp only [h, hr, bne_self_eq_false, Bool.false_eq_true, if_false]
  split
  · rename_i l c hl hc
    refine ⟨by rw [State.grid_setGrid]; rfl, (sameTables_setCtl s c l 8).2.1, fun hn => ?_⟩
    rw [hl] at hn
    cases hn
  · exact ⟨by rw [State.grid_setGrid]; rfl, rfl, fun _ => rfl⟩

/-- A record that the ring has room for (R351). -/
theorem ringRecord_room {s : State} {ctx : Nat} {c : Ctx} (hf : ringFull s ctx = false) (hc : s.ctxs.find? ctx = some c)
    (va cause src acc unit grid : Nat) : (ringRecord s ctx va cause src acc unit grid).1 =
      (storeVirt s c ((s.ring ctx).base + 32 * ((s.ring ctx).widx % 2 ^ (s.ring ctx).log))
        (faultBytes va cause src acc unit (s.ring ctx).widx grid)).setRing ctx { s.ring ctx with
          widx := (s.ring ctx).widx + 1
          pend := (s.ring ctx).pend ++ [((s.ring ctx).widx, if cause = cMce then 2 ^ 64 else va / 65536)] } := by
  simp [ringRecord, hf, hc, faultBytes]

/-- A double fault ends the grid with its record written (R349). -/
theorem doubleFault_spec {s : State} {n : Nat} {g : Grid} {cx : Ctx} (hg : s.grid? n = some g) (hr : g.st = .running)
    (hf : ringFull s g.ctx = false) (hc : s.ctxs.find? g.ctx = some cx) (va cause acc : Nat) :
    ((doubleFault s n va cause acc).grid? n).map (·.st) = some .faulted ∧
      ((doubleFault s n va cause acc).ring g.ctx).widx = (s.ring g.ctx).widx + 1 ∧
      (g.ladder = none → (doubleFault s n va cause acc).mem =
        (storeVirt s cx ((s.ring g.ctx).base + 32 * ((s.ring g.ctx).widx % 2 ^ (s.ring g.ctx).log))
          (faultBytes va cause 4 acc 0 (s.ring g.ctx).widx g.cmpl)).mem) := by
  simp only [doubleFault, hg, ringRecord_room hf hc]
  set t := storeVirt s cx ((s.ring g.ctx).base + 32 * ((s.ring g.ctx).widx % 2 ^ (s.ring g.ctx).log))
    (faultBytes va cause 4 acc 0 (s.ring g.ctx).widx g.cmpl) with ht
  have hgt : t.grids = s.grids := (sameTables_storeVirt _ _ _ _).1
  obtain ⟨h1, h2, h3⟩ := endGrid_spec (s := t.setRing g.ctx _) (g := n) (gr := g)
    (by simp only [State.grid?, State.setRing, hgt]; exact hg) hr .faulted
  refine ⟨h1, ?_, fun hl => ?_⟩
  · exact congrArg Ring.widx
      ((congrArg (fun m => NMap.getD m g.ctx Ring.reset) h2).trans (State.ring_setRing t g.ctx _))
  · rw [h3 hl]
    rfl

/-! ## The registers and the threads of a crew through the end of a handler (R284) -/

/-- Two crews of one issue slot with the same registers: what every step of a handler's end keeps. -/
structure SameFile (a b : Crew) : Prop where
  slot : b.slot = a.slot
  s : b.s = a.s
  p : b.p = a.p
  v : b.v = a.v
  empty : b.empty = a.empty
  sFill : b.sFill = a.sFill
  pFill : b.pFill = a.pFill
  vFill : b.vFill = a.vFill
  fstat : b.fstat = a.fstat

namespace SameFile

theorem refl (a : Crew) : SameFile a a := ⟨rfl, rfl, rfl, rfl, rfl, rfl, rfl, rfl, rfl⟩

theorem trans {a b c : Crew} (h : SameFile a b) (h' : SameFile b c) : SameFile a c :=
  ⟨h'.slot.trans h.slot, h'.s.trans h.s, h'.p.trans h.p, h'.v.trans h.v, h'.empty.trans h.empty, h'.sFill.trans h.sFill,
    h'.pFill.trans h.pFill, h'.vFill.trans h.vFill, h'.fstat.trans h.fstat⟩

theorem getV {a b : Crew} (h : SameFile a b) (r l : Nat) : b.getV r l = a.getV r l := by
  simp only [Crew.getV, h.v, h.vFill]
theorem isEmpty {a b : Crew} (h : SameFile a b) (r l : Nat) : b.isEmpty r l = a.isEmpty r l := by
  simp only [Crew.isEmpty, h.empty]
theorem getS {a b : Crew} (h : SameFile a b) (r : Nat) : b.getS r = a.getS r := by
  simp only [Crew.getS, h.s, h.sFill]
theorem getP {a b : Crew} (h : SameFile a b) (r : Nat) : b.getP r = a.getP r := by
  simp only [Crew.getP, h.p, h.pFill]

end SameFile

/-- The threads of two crews stand in the same lanes, one to one, and each lane's two are as `R` says. -/
def Paired (R : Nat → Thread → Thread → Prop) (a b : Crew) : Prop :=
  List.Forall₂ (fun e e' => e'.1 = e.1 ∧ R e.1 e.2 e'.2) a.threads b.threads

namespace Paired

variable {R R' R'' : Nat → Thread → Thread → Prop} {a b c : Crew}

theorem of_mapVals {f : Nat → Thread → Thread} (hb : b.threads = a.threads.mapVals f)
    (h : ∀ l t, (l, t) ∈ a.threads → R l t (f l t)) : Paired R a b := by
  unfold Paired
  rw [hb, NMap.mapVals, List.forall₂_map_right_iff, List.forall₂_same]
  exact fun e he => ⟨rfl, h e.1 e.2 he⟩

theorem of_updThreads {m : Lanes} {f : Thread → Thread} (hb : b.threads = (a.updThreads m f).threads)
    (h : ∀ l t, (l, t) ∈ a.threads → R l t (if m.getLsbD l then f t else t)) : Paired R a b :=
  of_mapVals (f := fun l t => if m.getLsbD l then f t else t) hb h

theorem of_eq (hb : b.threads = a.threads) (h : ∀ l t, (l, t) ∈ a.threads → R l t t) : Paired R a b :=
  of_mapVals (f := fun _ t => t) (by rw [hb, NMap.mapVals, List.map_id']) h

theorem trans (h : Paired R a b) (h' : Paired R' b c) (hR : ∀ l t t' t'', R l t t' → R' l t' t'' → R'' l t t'') :
    Paired R'' a c := by
  unfold Paired at *
  generalize a.threads = as at h
  generalize b.threads = bs at h h'
  generalize c.threads = cs at h'
  induction h generalizing cs with
  | nil => cases h'; exact .nil
  | cons hd _ ih =>
    obtain ⟨u, us, hd', tl', rfl⟩ := List.forall₂_cons_left_iff.1 h'
    exact .cons ⟨hd'.1.trans hd.1, hR _ _ _ _ hd.2 (hd.1 ▸ hd'.2)⟩ (ih _ tl')

theorem mono (h : Paired R a b) (hR : ∀ l t t', R l t t' → R' l t t') : Paired R' a b :=
  List.Forall₂.imp (fun _ _ h => ⟨h.1, hR _ _ _ h.2⟩) h

theorem thread {l : Nat} {t : Thread} (h : Paired R a b) (ht : a.thread? l = some t) : ∃ t', b.thread? l = some t' ∧ R l t t' := by
  unfold Paired at h
  unfold Crew.thread? at ht ⊢
  generalize a.threads = as at h ht
  generalize b.threads = bs at h
  induction h with
  | nil => cases ht
  | @cons e e' as bs hd _ ih =>
    obtain ⟨k, u⟩ := e
    obtain ⟨k', u'⟩ := e'
    obtain ⟨rfl, hR⟩ : k' = k ∧ _ := hd
    rw [NMap.find?_cons] at ht ⊢
    by_cases hk : k' = l
    · subst hk
      rw [if_pos rfl] at ht ⊢
      cases ht
      exact ⟨u', rfl, hR⟩
    · rw [if_neg hk] at ht ⊢
      exact ih ht

theorem mem {l : Nat} {t' : Thread} (h : Paired R a b) (ht : (l, t') ∈ b.threads) : ∃ t, (l, t) ∈ a.threads ∧ R l t t' := by
  unfold Paired at h
  generalize a.threads = as at h ⊢
  generalize b.threads = bs at h ht
  induction h with
  | nil => cases ht
  | @cons e e' as bs hd _ ih =>
    rcases List.mem_cons.1 ht with rfl | ht
    · obtain ⟨k, u⟩ := e
      obtain ⟨rfl, hR⟩ := hd
      exact ⟨u, List.mem_cons_self, hR⟩
    · obtain ⟨t, hm, hR⟩ := ih ht
      exact ⟨t, List.mem_cons_of_mem _ hm, hR⟩

end Paired


/-! ## The end of a handler (R284) -/

/-- A thread but for its counts of the switch points that it has passed. -/
def SwOnly (_ : Nat) (t t' : Thread) : Prop := ∃ sw, t' = { t with sw := sw }

/-- What a step leaves that changes the counts of switch points alone. -/
def SkipsOnly (a b : Crew) : Prop := SameFile a b ∧ Paired SwOnly a b ∧ b.handler = a.handler

theorem SkipsOnly.refl (a : Crew) : SkipsOnly a a := ⟨.refl a, .of_eq rfl (fun _ t _ => ⟨t.sw, rfl⟩), rfl⟩

theorem SkipsOnly.trans {a b c : Crew} (h : SkipsOnly a b) (h' : SkipsOnly b c) : SkipsOnly a c := by
  refine ⟨h.1.trans h'.1, h.2.1.trans h'.2.1 ?_, h'.2.2.trans h.2.2⟩
  rintro l t _ _ ⟨sw, rfl⟩ ⟨sw', rfl⟩
  exact ⟨sw', rfl⟩

theorem skipsOnly_skipPoint (cr : Crew) (id : Nat) (m : Lanes) : SkipsOnly cr (cr.skipPoint id m) := by
  have hm : ∀ b : Crew, b.threads = (cr.updThreads m (fun t => { t with sw := t.sw.set id (t.passed id + 1) })).threads →
      Paired SwOnly cr b := by
    refine fun b hb => .of_updThreads hb (fun l t _ => ?_)
    split
    · exact ⟨_, rfl⟩
    · exact ⟨t.sw, rfl⟩
  unfold Crew.skipPoint
  simp only
  split
  · exact ⟨⟨rfl, rfl, rfl, rfl, rfl, rfl, rfl, rfl, rfl⟩, hm _ rfl, rfl⟩
  · exact ⟨⟨rfl, rfl, rfl, rfl, rfl, rfl, rfl, rfl, rfl⟩, hm _ rfl, rfl⟩

theorem skipsOnly_foldl {f : Crew → Nat → Crew} (hf : ∀ c l, SkipsOnly c (f c l)) (ls : List Nat) (cr : Crew) :
    SkipsOnly cr (ls.foldl f cr) := by
  induction ls generalizing cr with
  | nil => exact .refl cr
  | cons l ls ih => exact (hf cr l).trans (ih _)

theorem skipsOnly_skipPoints (s : State) (g : Grid) (cr : Crew) (m : Lanes) : SkipsOnly cr (skipPoints s g cr m) := by
  refine skipsOnly_foldl (fun c l => ?_) _ _
  split
  · exact .refl c
  · split
    · exact skipsOnly_skipPoint _ _ _
    · exact .refl c

theorem sameFile_endHandlerThreads (cr : Crew) (h : Handler) (m : Lanes) (skip : Bool) (now : Nat) :
    SameFile cr (endHandlerThreads cr h m skip now) ∧
      (endHandlerThreads cr h m skip now).handler = some { h with live := h.live &&& ~~~m } := by
  unfold endHandlerThreads
  simp only
  split <;> exact ⟨⟨rfl, rfl, rfl, rfl, rfl, rfl, rfl, rfl, rfl⟩, rfl⟩

/-- A thread that neither waits nor has waited, as its handler thread ends: it stands where it stood, and the interrupted
thread resumes at the slot `ipc'`. -/
def EndsAt (ipc' : Nat → Thread → Nat) (l : Nat) (t t' : Thread) : Prop :=
  t'.wait = none ∧ t'.iwait = none ∧ t'.pc = t.pc ∧ t'.exited = t.exited ∧ t'.head = t.head ∧ t'.ipc = ipc' l t

theorem paired_endHandlerThreads {cr : Crew} (h : Handler) (m : Lanes) (skip : Bool) (now : Nat)
    (hw : ∀ e ∈ cr.threads, e.2.wait = none ∧ e.2.iwait = none) :
    Paired (EndsAt (fun l t => if (skip && h.trap.resume == 0) = true ∧ m.getLsbD l = true then slotAddr (slotIndex t.ipc + 1)
      else t.ipc)) cr (endHandlerThreads cr h m skip now) := by
  have h1 : Paired (fun l t t' => (t' = if m.getLsbD l then { t with since := some now } else t) ∧ t.wait = none ∧ t.iwait = none)
      cr (cr.updThreads m (fun t => { t with since := some now })) :=
    .of_updThreads rfl (fun l t ht => ⟨rfl, hw _ ht⟩)
  by_cases hs : (skip && h.trap.resume == 0) = true
  · refine h1.trans (R' := fun l t t' => t' = if m.getLsbD l then { t with
        ipc := slotAddr (slotIndex t.ipc + 1), iwait := none, iends := t.iwait.any Wait.endsRegion, atHead := false } else t)
      (.of_updThreads ?_ (fun _ _ _ => rfl)) ?_
    · simp only [endHandlerThreads, hs, if_true]
      rfl
    · rintro l t _ _ ⟨rfl, h1, h2⟩ rfl
      by_cases hl : m.getLsbD l = true <;> simp [EndsAt, hs, hl, h1, h2]
  · refine h1.trans (R' := fun _ t t' => t' = t) (.of_eq ?_ (fun _ _ _ => rfl)) ?_
    · simp only [endHandlerThreads, hs]
      rfl
    · rintro l t _ _ ⟨rfl, h1, h2⟩ rfl
      by_cases hl : m.getLsbD l = true <;> simp [EndsAt, hs, hl, h1, h2]

/-- A thread that does not wait, once it has left the handler: it resumes where the cause says (R115, R284, R346). -/
def Left (p : PendTrap) (l : Nat) (t t' : Thread) : Prop :=
  t'.wait = none ∧ t'.exited = t.exited ∧ (p.lanes.getLsbD l = false ∨ t.exited = true → t'.pc = t.pc) ∧
    (p.lanes.getLsbD l = true → t.exited = false →
      (p.resume = 2 → t'.pc = t.head.pc ∧ t'.dctr = t.head.dctr) ∧
      (p.resume = 1 → t'.pc = slotAddr (slotIndex t.ipc + 1)) ∧ (p.resume = 0 → t'.pc = t.ipc))

theorem sameFile_leaveHandler (cr : Crew) (h : Handler) : SameFile cr (leaveHandler cr h) :=
  ⟨rfl, rfl, rfl, rfl, rfl, rfl, rfl, rfl, rfl⟩

theorem paired_leaveHandler {cr : Crew} (h : Handler) (hw : ∀ e ∈ cr.threads, e.2.wait = none ∧ e.2.iwait = none) :
    Paired (Left h.trap) cr (leaveHandler cr h) := by
  refine .of_updThreads (m := h.trap.lanes) rfl (fun l t ht => ?_)
  obtain ⟨h1, h2⟩ := hw _ ht
  dsimp only at h1 h2
  by_cases hl : h.trap.lanes.getLsbD l = true
  · by_cases he : t.exited = true
    · simp [Left, he, h1]
    · by_cases hr : h.trap.resume = 2
      · simp [Left, hl, he, hr]
      · by_cases hr1 : h.trap.resume = 1 <;> simp [Left, hl, he, hr, hr1, h2]
  · simp [Left, hl, h1]

/-- A thread that stands and waits as before. -/
def Stays (_ : Nat) (t t' : Thread) : Prop := t'.wait = t.wait ∧ t'.exited = t.exited ∧ t'.pc = t.pc ∧ t'.dctr = t.dctr

theorem Stays.refl (l : Nat) (t : Thread) : Stays l t t := ⟨rfl, rfl, rfl, rfl⟩

/-- What a step leaves that moves no thread of a crew and none of its registers. -/
def Rests (a b : Crew) : Prop := SameFile a b ∧ Paired Stays a b ∧ b.handler = a.handler

theorem Rests.trans {a b c : Crew} (h : Rests a b) (h' : Rests b c) : Rests a c :=
  ⟨h.1.trans h'.1, h.2.1.trans h'.2.1 (fun _ _ _ _ ⟨h1, h2, h3, h4⟩ ⟨k1, k2, k3, k4⟩ =>
    ⟨k1.trans h1, k2.trans h2, k3.trans h3, k4.trans h4⟩), h'.2.2.trans h.2.2⟩

theorem rests_updThreads (cr : Crew) (m : Lanes) (f : Thread → Thread) (hf : ∀ l t, (l, t) ∈ cr.threads → Stays l t (f t)) :
    Rests cr (cr.updThreads m f) := by
  refine ⟨⟨rfl, rfl, rfl, rfl, rfl, rfl, rfl, rfl, rfl⟩, .of_updThreads rfl (fun l t ht => ?_), rfl⟩
  split
  · exact hf l t ht
  · exact .refl l t

theorem threads_implicitHeads (cr : Crew) (m : Lanes) : (cr.implicitHeads m).threads = cr.threads.mapVals (fun l t =>
    if m.getLsbD l then { t with
      head := cr.checkpoint l t.pc t.head.li t.head.ws t.head.bay t.dctr
      cnt := Counts.zero, skip := Counts.zero, atHead := true, headDue := true, bars := [] } else t) := rfl

theorem rests_implicitHeads (cr : Crew) (m : Lanes) : Rests cr (cr.implicitHeads m) := by
  refine ⟨⟨rfl, rfl, rfl, rfl, rfl, rfl, rfl, rfl, rfl⟩, .of_mapVals (threads_implicitHeads cr m) (fun l t _ => ?_), rfl⟩
  split <;> exact ⟨rfl, rfl, rfl, rfl⟩

/-- No thread goes on. -/
theorem rests_resume_none (cr : Crew) (e : Bool) : Rests cr (cr.resume 0 e) := by
  have h : Rests cr (cr.resume 0 false) :=
    ⟨⟨rfl, rfl, rfl, rfl, rfl, rfl, rfl, rfl, rfl⟩, .of_updThreads (m := 0)
      (f := fun t => t.goTo (slotAddr (slotIndex t.pc + 1)) cr.inHandler) rfl (fun l t _ => by simp [Stays]), rfl⟩
  cases e with
  | false => exact h
  | true => exact h.trans (rests_implicitHeads _ _)

/-- The crew after a `DLK` handler in which no thread waits again (R361). -/
theorem waitAgain_idle {s : State} {b c : Nat} {k : Block} {cr : Crew} (m : Lanes) (hk : s.block? b = some k)
    (hc : s.crew? b c = some cr) (hw : ∀ e ∈ cr.threads, e.2.wait = none) :
    ∃ cr', waitAgain s b c m = dropRequests (s.setCrew b c cr') k.core b c ∧ Rests cr cr' := by
  have hf : cr.threads.filter (fun e => e.2.wait.any (waitOver s k c e.1)) = [] :=
    List.filter_eq_nil_iff.2 (fun e he => by simp [hw e he])
  have h0 : m &&& maskOf [] = 0 := BitVec.and_zero
  have h1 : ∀ y : Lanes, (0 : Lanes) &&& y = 0 := fun _ => BitVec.zero_and
  unfold waitAgain
  simp only [hk, hc, hf, List.map_nil, h0, h1, if_true]
  refine ⟨_, rfl, ?_⟩
  have h1 := (rests_resume_none cr false).trans (rests_resume_none (cr.resume 0 false) true)
  refine h1.trans (rests_updThreads _ _ _ (fun l t ht => ?_))
  obtain ⟨u, hu, hs, -⟩ := h1.2.1.mem ht
  rw [hs.trans (hw _ hu)]
  exact .refl l t

theorem dropRequests_spec (s : State) (core b c : Nat) : SameBytes s (dropRequests s core b c) ∧
    (∀ b c', (dropRequests s core b c).crew? b c' = s.crew? b c') ∧
    ∀ i, (dropRequests s core b c).slot core i = s.slot core i := by
  refine ⟨sameBytes_setCore _ _ _ rfl, fun _ _ => rfl, fun i => ?_⟩
  simp [dropRequests, State.slot]

/-- The last thread of a handler ends (R284): the crew with its registers as before, its threads where the cause says, and the
slot's bank free. -/
theorem handlerEnd_spec {s : State} {b c : Nat} {k : Block} {cr : Crew} {h : Handler} (hk : s.block? b = some k)
    (hc : s.crew? b c = some cr) (hh : cr.handler = some h) (hl : h.live = 0)
    (hw : ∀ e ∈ cr.threads, e.2.wait = none ∧ e.2.iwait = none) :
    ∃ cr', SameBytes s (handlerEnd s b c) ∧ (handlerEnd s b c).crew? b c = some cr' ∧
      ((handlerEnd s b c).slot k.core cr.slot).busy = none ∧ cr'.handler = none ∧ SameFile cr cr' ∧
      Paired (Left h.trap) cr cr' := by
  let ends := cr.lanesWhere (fun t => !t.exited && t.iends)
  let cr1 := (leaveHandler cr h).updThreads ends (fun t => { t with iends := false })
  let cr2 := if ends = 0 then cr1 else cr1.implicitHeads ends
  have h1 : Rests (leaveHandler cr h) cr2 := by
    have h2 : Rests (leaveHandler cr h) cr1 := rests_updThreads _ _ _ (fun _ _ _ => ⟨rfl, rfl, rfl, rfl⟩)
    unfold cr2
    split
    · exact h2
    · exact h2.trans (rests_implicitHeads _ _)
  have hleft : Paired (Left h.trap) cr cr2 := (paired_leaveHandler h hw).trans h1.2.1 (by
    rintro l t t' t'' ⟨g1, g2, g3, g4⟩ ⟨k1, k2, k3, k4⟩
    exact ⟨k1.trans g1, k2.trans g2, by rwa [k3], by rwa [k3, k4]⟩)
  have hw2 : ∀ e ∈ cr2.threads, e.2.wait = none := fun e he => by
    obtain ⟨_, _, g, -⟩ := hleft.mem he
    exact g
  let s1 := s.setCrew b c cr2
  let s2 := s1.setSlot k.core cr.slot { s1.slot k.core cr.slot with busy := none }
  have hc1 : s1.crew? b c = some cr2 := State.crew_setCrew hc _
  obtain ⟨cr3, h3, hr3⟩ := waitAgain_idle (s := s2) (b := b) (c := c) h.trap.lanes (State.block_setCrew hk _ _) hc1 hw2
  have he : handlerEnd s b c = dropRequests (s2.setCrew b c cr3) k.core b c := by
    rw [← h3]
    simp only [handlerEnd, hk, hc, hh, hl, ne_eq, not_true, if_false]
    rfl
  obtain ⟨hs, hcr, hsl⟩ := dropRequests_spec (s2.setCrew b c cr3) k.core b c
  rw [he]
  refine ⟨cr3, ?_, ?_, ?_, hr3.2.2.trans (h1.2.2.trans rfl), ?_, ?_⟩
  · exact (((sameBytes_setCrew _ _ _ _).trans (sameBytes_setSlot _ _ _ _)).trans (sameBytes_setCrew _ _ _ _)).trans hs
  · rw [hcr]
    exact State.crew_setCrew (s := s2) hc1 _
  · rw [hsl, State.slot_setCrew, State.slot_setSlot]
  · exact ((sameFile_leaveHandler cr h).trans h1.1).trans hr3.1
  · exact hleft.trans hr3.2.1 (by
      rintro l t t' t'' ⟨g1, g2, g3, g4⟩ ⟨k1, k2, k3, k4⟩
      exact ⟨k1.trans g1, k2.trans g2, by rwa [k3], by rwa [k3, k4]⟩)

/-- Handler threads are left: the handler goes on. -/
theorem handlerEnd_live {s : State} {b c : Nat} {k : Block} {cr : Crew} {h : Handler} (hk : s.block? b = some k)
    (hc : s.crew? b c = some cr) (hh : cr.handler = some h) (hl : h.live ≠ 0) : handlerEnd s b c = s := by
  simp only [handlerEnd, hk, hc, hh]
  exact if_pos hl

/-- Does a `trapret` leave the interrupted instruction out (R284)? -/
def leavesOut (f : FmtS) (h : Handler) : Bool := f.sub == 1 && h.trap.resume == 0

/-- The crew of a `trapret` once the handler threads that execute it have ended. -/
def trapretCrew (x : Cx) (f : FmtS) (h : Handler) : Crew :=
  endHandlerThreads (if leavesOut f h then skipPoints x.s x.g x.cr x.act else x.cr) h x.act (f.sub == 1)
    (x.s.clock x.blk.core)

/-- The machine of a `trapret` before the handler's end. -/
def trapretState (x : Cx) (f : FmtS) (h : Handler) : State :=
  if leavesOut f h then (x.put (trapretCrew x f h)).updBlock x.b (fun k => k.leaveStanding x.c x.cr x.act)
  else x.put (trapretCrew x f h)

theorem exec_trapret {f : FmtS} {s : State} {x : Cx} {h : Handler} (hr : Ready (.trapret f) s x) (hh : x.cr.handler = some h)
    (hs : f.sub = 1 → h.trap.resume ≠ 2) : exec (.trapret f) s = .next (handlerEnd (trapretState x f h) x.b x.c) := by
  refine exec_raw hr (s := s) rfl ?_
  have h2 : (f.sub == 1 && h.trap.resume == 2) = false := by
    cases hf : f.sub == 1 with
    | false => rfl
    | true => simpa using hs (by simpa using hf)
  simp only [hh, h2, Bool.false_eq_true, if_false]
  rfl

/-- What the end of handler threads leaves of the machine: the crew with its registers as before. -/
theorem trapretState_spec {f : FmtS} {s : State} {x : Cx} {h : Handler} (hr : Ready (.trapret f) s x) : ∃ k cr, SameBytes s (trapretState x f h) ∧ (trapretState x f h).block? x.b = some k ∧
      k.core = x.blk.core ∧ (trapretState x f h).crew? x.b x.c = some cr ∧ SameFile x.cr cr ∧
      cr.handler = some { h with live := h.live &&& ~~~x.act } ∧ cr.threads = (trapretCrew x f h).threads := by
  have hfile : SameFile x.cr (trapretCrew x f h) ∧ (trapretCrew x f h).handler = some { h with live := h.live &&& ~~~x.act } := by
    obtain ⟨h1, h2⟩ := sameFile_endHandlerThreads (if leavesOut f h then skipPoints x.s x.g x.cr x.act else x.cr) h x.act
      (f.sub == 1) (x.s.clock x.blk.core)
    refine ⟨SameFile.trans ?_ h1, h2⟩
    split
    · exact (skipsOnly_skipPoints _ _ _ _).1
    · exact .refl _
  obtain ⟨hf, hd⟩ := hfile
  have hb := State.block_setCrew hr.block x.c (trapretCrew x f h)
  have hc := State.crew_setCrew hr.crew (trapretCrew x f h)
  unfold trapretState
  rw [hr.put]
  split
  · refine ⟨_, (trapretCrew x f h).bump, (sameBytes_setCrew s x.b x.c _).trans (sameBytes_updBlock _ _ _ ?_),
      State.block_updBlock hb _, rfl, ?_, ⟨hf.slot, hf.s, hf.p, hf.v, hf.empty, hf.sFill, hf.pFill, hf.vFill, hf.fstat⟩, hd, rfl⟩
    · intro k
      rfl
    · simp [State.crew?, State.block_updBlock hb, Block.leaveStanding, NMap.find?_mapVals]
  · exact ⟨_, _, sameBytes_setCrew _ _ _ _, hb, rfl, hc, hf, hd, rfl⟩

/-- The threads of a `trapret`, none of which waits: they stand where they stood, and those that leave the interrupted
instruction out resume at the slot that follows it. -/
theorem paired_trapretCrew (x : Cx) (f : FmtS) (h : Handler) (hw : ∀ e ∈ x.cr.threads, e.2.wait = none ∧ e.2.iwait = none) :
    Paired (EndsAt (fun l t => if leavesOut f h = true ∧ x.act.getLsbD l = true then slotAddr (slotIndex t.ipc + 1) else t.ipc))
      x.cr (trapretCrew x f h) := by
  have h1 : Paired SwOnly x.cr (if leavesOut f h then skipPoints x.s x.g x.cr x.act else x.cr) := by
    split
    · exact (skipsOnly_skipPoints _ _ _ _).2.1
    · exact (SkipsOnly.refl _).2.1
  refine h1.trans (paired_endHandlerThreads h x.act (f.sub == 1) (x.s.clock x.blk.core) (fun e he => ?_)) ?_
  · obtain ⟨t, ht, sw, h2⟩ := h1.mem he
    rw [h2]
    exact hw _ ht
  · rintro l t _ t'' ⟨sw, rfl⟩ h2
    exact h2

/-- The threads that an instruction makes wait (R17). -/
theorem stalled_spec {s : State} {x : Cx} (hc : s.crew? x.b x.c = some x.cr) : ∃ cr, SameBytes s (stalled x s) ∧
    (stalled x s).crew? x.b x.c = some cr ∧ cr.trap = x.cr.trap ∧ Kept x.cr cr none2 none1 none1 ∧
    ∀ l th, x.cr.thread? l = some th → ∃ th', cr.thread? l = some th' ∧ th'.pc = th.pc ∧
      (x.act.getLsbD l = true → th'.wait.isSome = true) := by
  refine ⟨_, sameBytes_updCrew _ _ _ _, State.crew_updCrew hc _, rfl,
    ⟨fun _ _ _ _ => ⟨rfl, rfl⟩, fun _ _ => rfl, fun _ _ => rfl, rfl⟩, fun l th ht => ?_⟩
  refine ⟨if x.act.getLsbD l then th.waits (th.wait.getD .retry) th.arrived (s.clock x.blk.core) else th, ?_, ?_, fun ha => ?_⟩
  · exact (Crew.thread_updThreads _ _ _ _).trans (congrArg _ ht)
  · split <;> rfl
  · rw [if_pos ha]
    rfl

/-- Does the context of the path's grid debug? -/
theorem any_debug {o : Option Ctx} {d : Bool} (h : o.map (·.debug) = some d) : o.any (·.debug) = d := by
  cases o with
  | none => cases h
  | some c => exact Option.some.inj h

end Sys2Proof.Machine

open Sys2Proof Sys2Proof.Machine Sys2Proof.Claims

/-- Settles O40. An instruction that traps, waits or is refused at issue does so by the order of `issueState`; the last
`trapret` goes through `handlerEnd_spec`, the double fault through `doubleFault_spec`. -/
theorem trapsAndReturns : Obligations.TrapsAndReturns := by
  refine ⟨fun f s x => ⟨fun h hc => ?_, fun h hc hd => ?_, fun h hd => ?_, fun hl h hh hs hn => ?_, fun hl h hh hs hn hw => ?_⟩,
    fun i s x g cx hi hp ha hh ht hk hg hr hf hc => ?_, fun i s x hi hp ha hc => ⟨fun h => ?_, fun hl hu hb => ?_,
    fun hl hu hb ho => ⟨fun hd hf => ?_, fun hd => ?_, fun hf hr hn => ?_⟩⟩⟩
  · exact raised_raise h.path h.active hc (congrArg _ (issueState_ready h _))
  · refine raised_raise h.path h.active hc (congrArg _ ((issueState_ready h _).trans ?_))
    rw [h.state, any_debug hd]
    rfl
  · refine completes_done h (s := s) rfl ?_
    simp only [h.state, any_debug hd, Bool.false_eq_true, if_false]
  · obtain ⟨k, cr, hb, hk, -, hcr, hf, hd, -⟩ := trapretState_spec (h := hl) h
    refine ⟨_, cr, _, (exec_trapret h hh hs).trans (congrArg _ (handlerEnd_live hk hcr hd hn)), hb, hcr,
      ⟨fun r l _ => ⟨hf.getV r l, hf.isEmpty r l⟩, fun r => ⟨hf.getS r, hf.getP r⟩, ?_⟩, hd, rfl, rfl⟩
    simp [Crew.getFstat, hd, hh]
  · obtain ⟨k, cr, hb, hk, hcore, hcr, hf, hd, hthr⟩ := trapretState_spec (h := hl) h
    have hm : Paired _ x.cr cr := Paired.trans (paired_trapretCrew x f hl hw) (.of_eq (R := fun _ t t' => t' = t) hthr (fun _ _ _ => rfl))
      (R'' := EndsAt _) (by rintro l t t' _ h1 rfl; exact h1)
    have hw' : ∀ e ∈ cr.threads, e.2.wait = none ∧ e.2.iwait = none := fun e he => by
      obtain ⟨t, -, h1, h2, -⟩ := hm.mem he
      exact ⟨h1, h2⟩
    obtain ⟨cr', hb', hcr', hbusy, hnone, hf', hleft⟩ := handlerEnd_spec hk hcr hd hn hw'
    have hff := hf.trans hf'
    refine ⟨_, cr', exec_trapret h hh hs, hb.trans hb', hcr', hnone, ?_, hff.fstat, fun r l _ => hff.getV r l,
      fun r => ⟨hff.getS r, hff.getP r⟩, fun l th hth => ?_⟩
    · rw [← hcore, ← hf.slot]
      exact hbusy
    · obtain ⟨t1, ht1, -, -, h3, h4, h5, h6⟩ := hm.thread hth
      obtain ⟨t2, ht2, k1, k2, k3, k4⟩ := hleft.thread ht1
      rw [h3, h4] at k3
      rw [h4] at k2 k4
      rw [h5, h6] at k4
      refine ⟨t2, ht2, fun hx => ⟨k3 hx, k2⟩, fun hla hex => ⟨k1, ?_⟩⟩
      obtain ⟨q2, q1, q0⟩ := k4 hla hex
      have hno : ∀ n, hl.trap.resume = n → n ≠ 0 → leavesOut f hl = false := fun n hn h0 => by simp [leavesOut, hn, h0]
      refine ⟨fun h2 => ?_, fun h1 => ?_, fun h0 => ?_⟩
      · exact q2 h2
      · rw [q1 h1, hno 1 h1 (by decide)]
        rfl
      · rw [q0 h0]
        simp [leavesOut, h0]
  · obtain ⟨hs, hb, hcr, hg', -⟩ := Cx.of_spec hp
    obtain ⟨eff, he⟩ := exec_issues hi s
    have hx : exec i s = .next (doubleFault s x.blk.grid x.pc cUnd 0) := by
      rw [he, issueWith, issueState_und hp (.inr (handlerUnd_of hh hk)), Cx.raise, hs]
      simp [raiseTrap, hb, hcr, ht, Crew.inHandler, hh, hg, hf]
    exact ⟨_, hx, doubleFault_spec hg hr hf hc _ _ _⟩
  · obtain ⟨eff, he⟩ := exec_issues hi s
    refine raised_raise hp ha hc (he.trans (congrArg _ (issueState_und hp ?_ eff)))
    refine h.imp_right ?_
    rintro ⟨f, rfl⟩
    simp [handlerUnd, Crew.inHandler, hc.2]
  · obtain ⟨eff, he⟩ := exec_issues hi s
    exact raised_raise hp ha hc (he.trans (congrArg _ (issueState_lacks eff hp hl hu ha hb)))
  · obtain ⟨eff, he⟩ := exec_issues hi s
    exact raised_raise hp ha hc (he.trans (congrArg _ (issueState_fe eff hp hl hu ha hb ho hd hf)))
  · obtain ⟨eff, he⟩ := exec_issues hi s
    obtain ⟨cr, h1, h2, h3, h4, h5⟩ := stalled_spec (Cx.of_spec hp).2.2.1
    exact ⟨_, cr, by rw [he, issueWith, issueState_dst_empty eff hp hl hu ha hb ho hd], h1, h2, h3.trans hc.1, h4, h5⟩
  · obtain ⟨eff, he⟩ := exec_issues hi s
    exact raisedOpen_raise hp ha hc (he.trans (congrArg _ (issueState_fold eff hp hl hu ha hb ho hf hr hn)))
end

section
/-! PROOFS. Special registers (R187, R286, R287): O41. -/

namespace Sys2Proof.Machine

open Sys2Proof Sys2Proof.Claims

/-- An instruction's effect, said more weakly. -/
theorem completes_mono {i : Instr} {s : State} {x : Cx} {E E' : Crew → Prop} (h : Completes i s x E) (hE : ∀ cr, E cr → E' cr) :
    Completes i s x E' := by
  obtain ⟨cr, h1, h2, h3, h4⟩ := h
  exact ⟨cr, h1, h2, h3, hE cr h4⟩

theorem writesReg_mono {x : Cx} {d : Opr} {n : Nat} {fl : Flags} {val val' : Nat → Nat → Prop} {cr : Crew}
    (h : WritesReg x d n fl val cr) (hv : ∀ l v, l ∈ dstLanes x d → val l v → val' l v) : WritesReg x d n fl val' cr :=
  ⟨fun l hl => hv l _ hl (h.1 l hl), h.2⟩

/-- An active lane has a thread. -/
theorem Ready.thread {i : Instr} {s : State} {x : Cx} (h : Ready i s x) {l : Nat} (hl : l ∈ x.acts) :
    ∃ th, x.cr.thread? l = some th := by
  have hp : x.lanes = pathLanes x.cr s.path := (Cx.of_spec h.path).2.2.2.2.2.2.2.2.1
  have hl' := h.act_sub l (mem_acts.1 hl).2
  rw [hp] at hl'
  simp only [pathLanes, BitVec.getLsbD_and, Bool.and_eq_true] at hl'
  exact Crew.thread_of_lanesWhere hl'.1.2

/-! ## `sread` (R286) -/

/-- A destination that is one uniform register. -/
theorem writesReg_uniform (x : Cx) (k : BitVec 6) (n v : Nat) :
    WritesReg x (.s k) 2 0 (fun _ w => w = v % 2 ^ 64) (x.cr.putOpr (.s k) n 0 v) := by
  refine ⟨fun l _ => ?_, ?_⟩
  · simp [destVal, Crew.putOpr]
  · rw [orFlags_zero]
    exact kept_setS _ _ _

/-- A destination of vector registers, with a value of its own in each active lane. -/
theorem writesReg_vector (x : Cx) (k : BitVec 8) (n : Nat) (val : Nat → Nat) :
    WritesReg x (.v k) n 0 (fun l w => w = val l % 2 ^ (32 * n))
      (x.acts.foldl (fun cr l => cr.putOpr (.v k) n l (val l)) x.cr) := by
  rw [foldl_putOpr_v, foldl_setVs_name _ _ _ _ _ rfl]
  refine ⟨fun l hl => ?_, ?_⟩
  · have hl' : l ∈ x.acts := by simpa [dstLanes, oprIsS] using hl
    exact foldl_setVs_get _ (acts_nodup x) (fun _ h => acts_lt h) _ _ _ _ hl'
  · rw [orFlags_zero]
    refine (kept_foldl_setVs x.acts (fun _ h => acts_lt h) _ _ _ _).mono ?_ (fun _ h => h) (fun _ h => h)
    rintro r l ⟨h1, h2⟩
    exact ⟨(mem_acts.1 h1).2, h2⟩

theorem foldl_putOpr_heads (d : Opr) (n : Nat) (val : Nat → Nat) (ls : List Nat) (c : Crew) :
    let c' := ls.foldl (fun cr l => cr.putOpr d n l (val l)) c
    c'.handler = c.handler ∧ c'.threads = c.threads ∧ SameHeads c c' := by
  induction ls generalizing c with
  | nil => exact ⟨rfl, rfl, rfl, rfl, rfl, rfl, rfl⟩
  | cons a ls ih =>
    obtain ⟨h1, h2, h3, h4, h5, h6, h7⟩ := ih (c.putOpr d n a (val a))
    obtain ⟨k3, k4, k5, k6, k7⟩ := putOpr_heads c d n a (val a)
    exact ⟨h1.trans (putOpr_handler _ _ _ _ _), h2.trans (putOpr_threads _ _ _ _ _), h3.trans k3, h4.trans k4, h5.trans k5,
      h6.trans k6, h7.trans k7⟩

/-- The special registers of a thread. -/
def perThread (n : Nat) : Bool := n == 0x000 || n == 0x00A || n == 0x018

theorem srInfo_thread {n : Nat} (h : perThread n = true) : ∃ i, srInfo n = some i ∧ i.thread = true := by
  simp only [perThread, Bool.or_eq_true, beq_iff_eq] at h
  rcases h with (rfl | rfl) | rfl <;> exact ⟨_, rfl, rfl⟩

theorem srInfo_uniform {n : Nat} {i : SrInfo} (h : srInfo n = some i) (hn : perThread n = false) : i.thread = false := by
  simp only [perThread, Bool.or_eq_false_iff, beq_eq_false_iff_ne] at hn
  unfold srInfo at h
  split at h <;> simp_all <;> exact h ▸ rfl

/-- A register of a thread goes to vector registers. -/
theorem sread_thread {f : FmtS} {s : State} {x : Cx} (h : Ready (.sread f) s x) (hn : perThread f.srn.toNat = true) :
    Completes (.sread f) s x (WritesReg x f.d (if f.srn.toNat = 0 then 1 else 2) 0 (fun l w => l ∈ x.acts ∧
      w = srThread x f.srn.toNat f.fx.toNat l % 2 ^ (32 * if f.srn.toNat = 0 then 1 else 2))) := by
  obtain ⟨i, hi, ht⟩ := srInfo_thread hn
  have hd : oprIsV f.d = true := by
    have hl : legalSread f = true := h.encoding
    simp only [legalSread, hi, ht, if_true, Bool.and_eq_true, dstV] at hl
    exact hl.2.1
  obtain ⟨k, hk⟩ : ∃ k, f.d = .v k := by
    cases hf : f.d <;> simp_all [oprIsV]
  obtain ⟨h1, h2, h3⟩ := foldl_putOpr_heads f.d (if f.srn.toNat = 0 then 1 else 2)
    (fun l => srThread x f.srn.toNat f.fx.toNat l) x.acts x.cr
  refine completes_of h (s := s) rfl ?_ (by rw [h1]) h2 h3 (fun m k e => WritesReg.advance ?_ m k e)
  · simp only [hi, Option.any_some, ht, if_true]
  · rw [hk]
    exact writesReg_mono (writesReg_vector _ _ _ _) (fun l v hl hv => ⟨by simpa [dstLanes, oprIsS] using hl, hv⟩)

/-- A uniform special register goes to a uniform register. -/
theorem sread_uniform {f : FmtS} {s : State} {x : Cx} (h : Ready (.sread f) s x) (hn : perThread f.srn.toNat = false) :
    Completes (.sread f) s x (WritesReg x f.d 2 0 (fun _ w => w = srUniform x f.srn.toNat % 2 ^ 64)) := by
  have hl : legalSread f = true := h.encoding
  unfold legalSread at hl
  split at hl
  · cases hl
  · rename_i i hi
    have ht := srInfo_uniform hi hn
    simp only [ht, Bool.and_eq_true] at hl
    obtain ⟨k, hk⟩ : ∃ k, f.d = .s k := by
      cases hf : f.d <;> simp_all [oprIsS]
    refine completes_of h (s := s) rfl (cr := x.cr.putOpr f.d 2 0 (srUniform x f.srn.toNat)) ?_ (by simp) (by simp)
      (putOpr_heads _ _ _ _ _) (fun m k e => WritesReg.advance ?_ m k e)
    · simp only [hi, Option.any_some, ht, Bool.false_eq_true, if_false]
    · rw [hk]
      exact writesReg_uniform _ _ _ _

/-! ## What the registers read (R28, R40, R64, R77) -/

/-- The engine operations that a crew counts are those outstanding (R64, R65). -/
theorem length_outstanding (s : State) (b c cls : Nat) : (outstanding s b c cls).length = (Counted s b c cls).length := by
  rw [outstanding, List.length_map]
  refine congrArg List.length (List.filter_congr fun e he => ?_)
  have hs : ∀ o ∈ opsOf s b c cls, ∃ n, o.seqOf c = some n := fun o ho => by
    have h := (List.mem_filter.1 ho).2
    simp only [Bool.and_eq_true] at h
    exact Option.isSome_iff_exists.1 h.2
  obtain ⟨m, hm⟩ := hs e he
  show (opsOf s b c cls).any _ = (opsOf s b c cls).any _
  rw [Bool.eq_iff_iff, List.any_eq_true, List.any_eq_true]
  refine exists_congr fun o => and_congr_right fun ho => ?_
  obtain ⟨n, hn⟩ := hs o ho
  simp [hm, hn]

/-- A cone's register (R28, R40, R379). -/
theorem coneReads_coneRest {x : Cx} (hg : x.s.grid? x.blk.grid = some x.g) (set : Cone → Nat) (used : Nat → Grid → Nat)
    {gives : Nat → Prop} (h : gives (coneRest x.s x.blk.grid x.g.level set used % 2 ^ 64)) : ConeReads x set used gives := by
  have ho : ones64 % 2 ^ 64 = 2 ^ 64 - 1 := by decide
  unfold coneRest at h
  refine ⟨fun hl => ?_, fun hl => ⟨fun hc => ?_, fun hc => ⟨fun hp => ?_, fun p gp hp hgp => ⟨fun hs => ?_, fun hs hn => ?_⟩⟩⟩⟩
  · rwa [if_pos hl, ho] at h
  all_goals
    rw [if_neg (by omega)] at h
  · simpa [maxDepth, coneOwner, hg, hc] using h
  · simpa [maxDepth, coneOwner, hg, hc, hp, ones64] using h
  · simpa [maxDepth, coneOwner, hg, hc, hp, hgp, hs] using h
  · simpa [maxDepth, coneOwner, hg, hc, hp, hgp, hs, hn, ones64] using h

/-- A channel's pointer (R77). -/
theorem wptrOf_spec (s : State) (b core dir : Nat) :
    (∀ ch, lastChan (s.core core) dir = some ch → ch.blk = b → wptrOf s b core dir = ch.moved % 4096 * 2 ^ 20 + ch.ptr) ∧
      ((∀ ch, lastChan (s.core core) dir = some ch → ch.blk ≠ b) → wptrOf s b core dir = 0) := by
  unfold wptrOf
  refine ⟨fun ch hc hb => by simp [hc, hb], fun h => ?_⟩
  split
  · rfl
  · rename_i ch hc
    exact if_neg (h ch hc)

/-! ## `swrite` (R287) -/

theorem thread_updThread (cr : Crew) (k : Nat) (f : Thread → Thread) (l : Nat) :
    (cr.updThread k f).thread? l = if l = k then (cr.thread? l).map f else cr.thread? l := by
  unfold Crew.updThread Crew.thread?
  by_cases hl : l = k
  · subst hl
    cases h : cr.threads.find? l <;> simp [h]
  · cases h : cr.threads.find? k <;> simp [hl]

/-- A change of the threads of the active lanes, each its own. -/
def writeThreads (x : Cx) (g : Nat → Thread → Thread) : Crew := x.acts.foldl (fun cr l => cr.updThread l (g l)) x.cr

theorem thread_foldl_updThread (g : Nat → Thread → Thread) (ls : List Nat) (hd : ls.Nodup) (cr : Crew) (l : Nat) :
    (ls.foldl (fun cr l => cr.updThread l (g l)) cr).thread? l = if l ∈ ls then (cr.thread? l).map (g l) else cr.thread? l := by
  induction ls generalizing cr with
  | nil => simp
  | cons a ls ih =>
    obtain ⟨ha, hd⟩ := List.nodup_cons.1 hd
    rw [List.foldl_cons, ih hd, thread_updThread]
    by_cases hla : l = a
    · subst hla
      simp [ha]
    · simp [hla]

/-- Nothing but the threads of a crew has changed. -/
def ThreadsOnly (a b : Crew) : Prop := { b with threads := a.threads } = a

theorem ThreadsOnly.kept {a b : Crew} (h : ThreadsOnly a b) : Kept a b none2 none1 none1 := by
  rw [show b = { a with threads := b.threads } from by rw [← h]]
  exact ⟨fun _ _ _ _ => ⟨rfl, rfl⟩, fun _ _ => rfl, fun _ _ => rfl, rfl⟩

theorem threadsOnly_writeThreads (x : Cx) (g : Nat → Thread → Thread) : ThreadsOnly x.cr (writeThreads x g) := by
  unfold writeThreads
  generalize x.acts = ls
  generalize x.cr = cr
  induction ls generalizing cr with
  | nil => rfl
  | cons a ls ih =>
    have h1 : ThreadsOnly cr (cr.updThread a (g a)) := by
      unfold ThreadsOnly Crew.updThread
      split <;> rfl
    have h2 := ih (cr.updThread a (g a))
    unfold ThreadsOnly at *
    rw [List.foldl_cons]
    calc _ = ({ ({ ls.foldl (fun cr l => cr.updThread l (g l)) (cr.updThread a (g a)) with
                    threads := (cr.updThread a (g a)).threads } : Crew) with threads := cr.threads } : Crew) := rfl
      _ = cr := by rw [h2, h1]

/-- A write of a register of the threads (R287). -/
theorem swrite_threads {f : FmtS} {s : State} {x : Cx} {eff : Cx → Res} {g : Nat → Thread → Thread} (h : Ready (.swrite f) s x)
    (hx : exec (.swrite f) s = issueWith (.swrite f) s eff) (he : eff x = crewRes x (writeThreads x g)) :
    ∃ cr, exec (.swrite f) s = .next (s.setCrew x.b x.c cr) ∧ SameBytes s (s.setCrew x.b x.c cr) ∧
      Kept x.cr cr none2 none1 none1 ∧ ∀ l th, x.cr.thread? l = some th → cr.thread? l = some
        (if x.lanes.getLsbD l then (if x.act.getLsbD l then g l th else th).goTo x.nextPc (writeThreads x g).inHandler
          else th) := by
  have hc : (s.setCrew x.b x.c (writeThreads x g)).crew? x.b x.c = some (writeThreads x g) := State.crew_setCrew h.crew _
  have hx' := exec_done h hx (he.trans (by rw [crewRes, h.put])) hc
  rw [State.setCrew_setCrew] at hx'
  refine ⟨_, hx', sameBytes_setCrew _ _ _ _, (threadsOnly_writeThreads x g).kept.advance _ _ _, fun l th hth => ?_⟩
  have hl : x.act.getLsbD l = true → l ∈ x.acts := fun ha => mem_acts.2 ⟨BitVec.lt_of_getLsbD ha, ha⟩
  have ht : (writeThreads x g).thread? l = some (if x.act.getLsbD l then g l th else th) := by
    rw [writeThreads, thread_foldl_updThread g _ (acts_nodup x), hth]
    by_cases ha : x.act.getLsbD l = true
    · simp [ha, hl ha]
    · have : l ∉ x.acts := fun hm => ha (mem_acts.1 hm).2
      simp [ha, this]
  refine (Crew.thread_updThreads (writeThreads x g) x.lanes (fun t => t.goTo x.nextPc (writeThreads x g).inHandler) l).trans ?_
  rw [ht, Option.map_some]
  by_cases hla : x.lanes.getLsbD l = true
  · simp [hla]
  · have ha : x.act.getLsbD l = false := by
      cases ha : x.act.getLsbD l with
      | false => rfl
      | true => exact absurd (h.act_sub l ha) hla
    simp [hla, ha]

/-- As `exec_done`, for an instruction that changes nothing of its crew. -/
theorem runs_done {i : Instr} {s s' : State} {x : Cx} {eff : Cx → Res} (h : Ready i s x) (hx : exec i s = issueWith i s eff)
    (he : eff x = .done s' false) (hc : s'.crew? x.b x.c = some x.cr) :
    Runs i s x (fun t cr => t = s'.setCrew x.b x.c cr ∧ Kept x.cr cr none2 none1 none1) :=
  ⟨_, _, exec_done h hx he hc, State.crew_setCrew hc _, advanced_advance rfl ⟨rfl, rfl, rfl, rfl, rfl⟩ _, rfl,
    (Kept.refl _).advance _ _ _⟩

theorem runs_mono {i : Instr} {s : State} {x : Cx} {P Q : State → Crew → Prop} (h : Runs i s x P)
    (hPQ : ∀ t cr, P t cr → Q t cr) : Runs i s x Q := by
  obtain ⟨t, cr, h1, h2, h3, h4⟩ := h
  exact ⟨t, cr, h1, h2, h3, hPQ t cr h4⟩

theorem getFstat_setFstat (cr : Crew) (fl : Flags) : (cr.setFstat fl).getFstat = fl := by
  unfold Crew.setFstat Crew.getFstat
  cases cr.handler <;> rfl

theorem setFstat_rest (cr : Crew) (fl : Flags) : (cr.setFstat fl).handler.isSome = cr.handler.isSome ∧
    (cr.setFstat fl).threads = cr.threads ∧ SameHeads cr (cr.setFstat fl) := by
  unfold Crew.setFstat
  cases cr.handler <;> exact ⟨by simp, rfl, rfl, rfl, rfl, rfl, rfl⟩

/-! ## The deque's registers (R142, R287) -/

/-- Only scratchpads have changed: what a unit's write of its block's bays leaves. -/
def PadsOnly (s t : State) : Prop := t.blocks = s.blocks ∧ t.mem = s.mem ∧ ∀ k, (t.core k).dq = (s.core k).dq

theorem PadsOnly.trans {s t u : State} (h : PadsOnly s t) (h' : PadsOnly t u) : PadsOnly s u :=
  ⟨h'.1.trans h.1, h'.2.1.trans h.2.1, fun k => (h'.2.2 k).trans (h.2.2 k)⟩

theorem PadsOnly.crew {s t : State} (h : PadsOnly s t) (b c : Nat) : t.crew? b c = s.crew? b c := by
  simp only [State.crew?, State.block?, h.1]

/-- A write of a scratchpad. -/
theorem writePlace_sp (s : State) (c a : Nat) (bs : List Byte) : PadsOnly s (writePlace s (.sp c a) bs) ∧
    ∀ q, q ∉ (List.range bs.length).map (Place.add (.sp c a)) →
      readPlace (writePlace s (.sp c a) bs) q 1 = readPlace s q 1 := by
  refine ⟨⟨rfl, rfl, fun k => ?_⟩, fun q hq => ?_⟩
  · by_cases hk : k = c
    · subst hk
      simp [writePlace]
    · simp [writePlace, hk]
  · cases q with
    | g a' => rfl
    | acc b a' => rfl
    | sp c' a' =>
      by_cases hc : c' = c
      · subst hc
        simp only [writePlace, readPlace, State.core_setCore]
        refine Memory.read_write_outside _ _ _ _ _ ?_
        by_contra hno
        refine hq (List.mem_map.2 ⟨a' - a, List.mem_range.2 (by omega), ?_⟩)
        simp only [Place.add, Place.sp.injEq, true_and]
        omega
      · simp [writePlace, readPlace, hc]

/-- Writes of bytes of scratchpads. -/
theorem writePieces_sp (ps : List (Place × Nat)) (hp : ∀ p ∈ ps, ∃ c a, p = (.sp c a, 1)) (s : State)
    (data : List (Option Byte)) (hd : ∀ o ∈ data, o.isSome = true) : PadsOnly s (writePieces s ps data) ∧
      ∀ q, q ∉ bytesOf ps → readPlace (writePieces s ps data) q 1 = readPlace s q 1 := by
  induction ps generalizing s data with
  | nil => exact ⟨⟨rfl, rfl, fun _ => rfl⟩, fun _ _ => rfl⟩
  | cons p ps ih =>
    obtain ⟨c, a, rfl⟩ := hp p List.mem_cons_self
    have hall : (data.take 1).all Option.isSome = true := List.all_eq_true.2 fun o ho => hd o (List.mem_of_mem_take ho)
    have hw : writePieces s ((.sp c a, 1) :: ps) data =
        writePieces (writePlace s (.sp c a) ((data.take 1).map (·.getD 0))) ps (data.drop 1) := by
      simp only [writePieces, writePiece, hall, if_true, spoilPlace, ite_self]
    obtain ⟨h1, h2⟩ := writePlace_sp s c a ((data.take 1).map (·.getD 0))
    obtain ⟨h3, h4⟩ := ih (fun p hm => hp p (List.mem_cons_of_mem _ hm))
      (writePlace s (.sp c a) ((data.take 1).map (·.getD 0))) (data.drop 1) (fun o ho => hd o (List.mem_of_mem_drop ho))
    rw [hw]
    refine ⟨h1.trans h3, fun q hq => ?_⟩
    simp only [bytesOf, List.flatMap_cons, List.mem_append, not_or] at hq
    rw [h4 q hq.2, h2 q (fun hm => hq.1 ?_)]
    obtain ⟨i, hi, rfl⟩ := List.mem_map.1 hm
    refine List.mem_map_of_mem (List.mem_range.2 ?_)
    simp only [List.mem_range, List.length_map, List.length_take] at hi
    omega

/-- A block's own bays lie in a scratchpad, byte by byte. -/
theorem unitPlaces_sp {s : State} {k : Block} {ofs n : Nat} {ps : List (Place × Nat)} (h : unitPlaces s k 1 ofs n = .ok ps) :
    ∀ p ∈ ps, ∃ c a, p = (.sp c a, 1) := by
  induction n generalizing ofs ps with
  | zero =>
    cases h
    exact fun p hp => nomatch hp
  | succ n ih =>
    rw [unitPlaces] at h
    split at h
    · cases h
    · rename_i q hq
      split at h
      · cases h
      · rename_i qs hqs
        cases h
        refine fun p hp => ?_
        rcases List.mem_cons.1 hp with rfl | hp
        · simp only [unitPlace, if_true, bayPlace] at hq
          split at hq
          · cases hq
            exact ⟨_, _, rfl⟩
          · cases hq
        · exact ih hqs p hp

/-- Where a block's bays lie does not depend on the core's deque. -/
theorem unitPlaces_setDq (s : State) (k : Block) (c : Nat) (d : Deque) (ofs n : Nat) :
    unitPlaces (s.setCore c { s.core c with dq := d }) k 1 ofs n = unitPlaces s k 1 ofs n := by
  have hb : ∀ o, unitPlace (s.setCore c { s.core c with dq := d }) k 1 o = unitPlace s k 1 o := fun o => by
    have hs : ((s.setCore c { s.core c with dq := d }).core k.core).split = (s.core k.core).split := by
      by_cases hk : k.core = c
      · rw [hk, State.core_setCore]
      · rw [State.core_setCore_ne _ _ hk]
    simp only [unitPlace, if_true, bayPlace, hs]
  induction n generalizing ofs with
  | zero => rfl
  | succ n ih => simp only [unitPlaces, hb, ih]

/-- A deque that a core takes (R142). -/
theorem setDeque_spec (s : State) (c : Nat) (k : Block) (d : Deque) :
    (∀ b c', (setDeque s c k d).crew? b c' = s.crew? b c') ∧ ((setDeque s c k d).core c).dq = d ∧
      ∀ q ps, unitPlaces s k 1 d.base 128 = .ok ps → q ∉ bytesOf ps → readPlace (setDeque s c k d) q 1 = readPlace s q 1 := by
  have hdq : ((s.setCore c { s.core c with dq := d }).core c).dq = d := by rw [State.core_setCore]
  have hr := sameBytes_setCore s c { s.core c with dq := d } rfl
  unfold setDeque
  simp only [unitPlaces_setDq]
  split
  · rename_i e he
    exact ⟨fun _ _ => rfl, hdq, fun q ps h => by rw [he] at h; cases h⟩
  · rename_i qs hqs
    obtain ⟨hp, h4⟩ := writePieces_sp qs (unitPlaces_sp hqs) (s.setCore c { s.core c with dq := d })
      ((List.range 128).map (fun i => some (Config.freeByte s.free i))) (fun o ho => by
        obtain ⟨i, -, rfl⟩ := List.mem_map.1 ho
        rfl)
    refine ⟨fun b c' => hp.crew b c', (hp.2.2 c).trans hdq, fun q ps h hq => ?_⟩
    · rw [hqs] at h
      cases h
      exact (sameBytes_draw _ q).trans ((h4 q hq).trans (hr q))

end Sys2Proof.Machine

open Sys2Proof Sys2Proof.Machine Sys2Proof.Claims

/-- Settles O41, a register at a time: `srUniform` and `srThread` say what each reads, and a write changes the threads, the status
or the deque alone. -/
theorem specialRegisters : Obligations.SpecialRegisters := by
  refine ⟨fun f s x h => ?_, fun f s x h => ?_⟩
  · have hs := h.state
    have hu := fun hn => sread_uniform h hn
    have ht := fun hn => sread_thread h hn
    simp only
    have gives : ∀ {k v : Nat}, f.srn.toNat = k → perThread k = false → srUniform x k % 2 ^ 64 = v →
        Completes (.sread f) s x (WritesReg x f.d 2 0 (fun _ w => w = v)) := by
      rintro k v rfl hp rfl
      exact hu hp
    refine ⟨fun hn => ?_, fun hn => ?_, fun hn => ?_, fun h0 hA h18 => hu (by simp [perThread, h0, hA, h18]),
      fun hn => gives hn rfl rfl, fun hn => gives hn rfl rfl, fun hn => gives hn rfl rfl,
      fun hn => gives hn rfl ?_, fun hn => gives hn rfl rfl, fun h6 h9 hl => ?_, fun hl => ?_,
      fun hn => gives hn rfl rfl, fun hn hl => ?_, fun hn hl => ?_, fun l c v hn hl hc hv => ?_,
      fun hn => coneReads_coneRest (hs ▸ h.grid) _ _ ?_, fun hn => coneReads_coneRest (hs ▸ h.grid) _ _ ?_,
      fun hn => coneReads_coneRest (hs ▸ h.grid) _ _ ?_, fun i hi hn => ?_, fun hn hl => ?_, fun hn hl => gives hn rfl ?_,
      fun hn hl => gives hn rfl ?_, fun hn => gives hn rfl ?_, fun hn => ?_, fun cls hc hn => ?_,
      fun hn => gives hn rfl (by rw [← hs]; rfl), fun hn => gives hn rfl (by rw [← hs]; rfl), fun hd hh => ?_,
      fun hn hh => ?_⟩
    · have h1 := ht (by simp [perThread, hn])
      rw [if_pos hn] at h1
      refine completes_mono h1 fun cr h2 => writesReg_mono h2 ?_
      rintro l v - ⟨hl, rfl⟩
      obtain ⟨th, hth⟩ := h.thread hl
      rw [Crew.thread?] at hth
      simp only [srThread, hth, hn]
      exact Nat.mod_eq_of_lt (lt_trans (acts_lt hl) (by decide))
    · have h1 := ht (by simp [perThread, hn])
      rw [if_neg (by omega)] at h1
      refine completes_mono h1 fun cr h2 => writesReg_mono h2 ?_
      rintro l v - ⟨-, rfl⟩ th hth
      rw [Crew.thread?] at hth
      simp only [srThread, hth, hn]
      exact Nat.mod_eq_of_lt (th.ltid.getD f.fx.toNat 0).isLt
    · have h1 := ht (by simp [perThread, hn])
      rw [if_neg (by omega)] at h1
      refine completes_mono h1 fun cr h2 => writesReg_mono h2 ?_
      rintro l v - ⟨-, rfl⟩ th hth
      rw [Crew.thread?] at hth
      simp only [srThread, hth, hn]
      exact Nat.mod_eq_of_lt (th.dctr.getD f.fx.toNat 0).isLt
    · rw [← Nat.div_div_eq_div_mul]
      rfl
    · obtain hn | hn | hn | hn : f.srn.toNat = 6 ∨ f.srn.toNat = 7 ∨ f.srn.toNat = 8 ∨ f.srn.toNat = 9 := by omega
      all_goals exact gives hn rfl (by simp [srUniform, hl])
    · refine ⟨fun hn => gives hn rfl ?_, fun hn => gives hn rfl ?_, fun hn => gives hn rfl ?_, fun hn => gives hn rfl ?_⟩
      · simp only [srUniform, hl, if_false]
        omega
      · simp only [srUniform, hl, if_false]
        omega
      · simp only [srUniform, hl, if_false]
      · simp only [srUniform, hl, if_false, hs]
        omega
    · rcases hn with hn | hn <;> exact gives hn rfl (by simp [srUniform, hl])
    · have hnone : x.g.ladder.isNone = false := by simpa using hl
      exact ⟨fun k hk => gives hn rfl (by simp [srUniform, hnone, hk]), fun hk => gives hn rfl (by simp [srUniform, hnone, hk])⟩
    · refine gives hn rfl ?_
      have hv' : natVirt x.s c (tileEntry l x.blk.lin) 2 = some v := hs ▸ hv
      simp only [srUniform, hl, tileLast, hs, hc]
      rw [← hs, hv', Option.getD_some]
    · refine gives hn rfl ?_
      rw [← hs]
      have hu : ∀ g : Grid, ((g.firstCycle).map (fun c => (x.s.die g.clkDie).clk / 50 - c)).getD 0 = g.elapsed x.s := fun g => by
        cases hg : g.firstCycle <;> simp [Grid.elapsed, hg]
      simp only [hu]
      rfl
    · refine gives hn rfl ?_
      rw [← hs]
      rfl
    · refine gives hn rfl ?_
      rw [← hs]
      rfl
    · refine gives (k := 0x019 + i) hn ?_ ?_
      · simp [perThread]
        omega
      · interval_cases i <;> simp [srUniform, BitVec.extractLsb'_toNat, Nat.shiftRight_eq_div_pow]
        all_goals omega
    · rcases hn with hn | hn <;> exact gives hn rfl (by simp [srUniform, hl])
    · simp [srUniform, hl, hs]
    · simp [srUniform, hl, hs]
    · simp only [srUniform]
      omega
    · rcases hn with hn | hn
      · obtain ⟨h1, h2⟩ := wptrOf_spec x.s x.b x.blk.core 0
        rw [if_pos hn]
        rw [hs] at h1 h2
        exact ⟨fun ch hc hb => gives hn rfl (by simp only [srUniform, hs, h1 ch hc hb]),
          fun hc => gives hn rfl (by simp only [srUniform, hs, h2 hc, Nat.zero_mod])⟩
      · obtain ⟨h1, h2⟩ := wptrOf_spec x.s x.b x.blk.core 1
        rw [if_neg (by omega)]
        rw [hs] at h1 h2
        exact ⟨fun ch hc hb => gives hn rfl (by simp only [srUniform, hs, h1 ch hc hb]),
          fun hc => gives hn rfl (by simp only [srUniform, hs, h2 hc, Nat.zero_mod])⟩
    · have he : srUniform x (0x030 + cls) = (outstanding x.s x.b x.c cls).length := by
        interval_cases cls <;> rfl
      refine gives hn ?_ ?_
      · simp [perThread]
        omega
      · rw [he, length_outstanding, hs]
    · exact ⟨fun hn => gives hn rfl (by simp [srUniform, hh]), fun hn => gives hn rfl (by simp [srUniform, hh])⟩
    · rcases hn with hn | hn <;> exact gives hn rfl (by simp [srUniform, hh])
  · have hs := h.state
    simp only
    refine ⟨fun hn => ?_, fun hn => ?_, fun hn => ?_, fun hn hv hb => ?_, fun hn hv hlo hhi ho => ?_⟩
    · obtain ⟨cr, h1, h2, h3, h4⟩ := swrite_threads h (s := s) rfl (g := fun l t => { t with
          ltid := t.ltid.set f.fx.toNat (BitVec.ofNat 64 (x.val f.a 2 l (fun c => wrapTo 64 c.toInt))) })
        (by simp only [hn]; rfl)
      refine ⟨cr, h1, h2, h3, fun l th hth => ⟨_, h4 l th hth, ?_⟩⟩
      have hsub := h.act_sub l
      by_cases ha : x.act.getLsbD l = true
      · simp [ha, hsub ha]
      · by_cases hl : x.lanes.getLsbD l = true <;> simp [ha, hl]
    · obtain ⟨cr, h1, h2, h3, h4⟩ := swrite_threads h (s := s) rfl (g := fun l t => { t with
          dctr := t.dctr.set f.fx.toNat (BitVec.ofNat 64 (x.val f.a 2 l (fun c => wrapTo 64 c.toInt))) })
        (by simp only [hn]; rfl)
      refine ⟨cr, h1, h2, h3, fun l th hth => ⟨_, h4 l th hth, ?_⟩⟩
      have hsub := h.act_sub l
      by_cases ha : x.act.getLsbD l = true
      · simp [ha, hsub ha]
      · by_cases hl : x.lanes.getLsbD l = true <;> simp [ha, hl]
    · obtain ⟨h1, h2, h3⟩ := setFstat_rest x.cr (BitVec.ofNat 6 (x.uni f.a))
      have hg := getFstat_setFstat x.cr (BitVec.ofNat 6 (x.uni f.a))
      refine completes_of h (s := s) rfl (cr := x.cr.setFstat (BitVec.ofNat 6 (x.uni f.a))) (by simp only [hn]) h1 h2 h3
        fun m k e => ?_
      have he : ((x.cr.setFstat (BitVec.ofNat 6 (x.uni f.a))).advance m k e).getFstat = BitVec.ofNat 6 (x.uni f.a) := by
        refine Eq.trans ?_ hg
        cases e <;> rfl
      rw [he]
      exact ⟨rfl, (Kept.refl _).advance m k e⟩
    · refine runs_mono (runs_done h (s := s) rfl (s' := s.setCore x.blk.core { s.core x.blk.core with
        dq := { (s.core x.blk.core).dq with lim := x.uni f.a % 2 ^ 32 } }) ?_ h.crew) ?_
      · simp only [hn, writeDqlim, hs, hv, hb, ne_eq, not_true, Bool.false_eq_true, or_self, if_false]
      · rintro _ cr ⟨rfl, hk⟩
        exact ⟨SameBytes.trans (sameBytes_setCore _ _ _ (by rfl)) (sameBytes_setCrew _ _ _ _), hk, by simp⟩
    · obtain ⟨h1, h2, h3⟩ := setDeque_spec s x.blk.core x.blk ⟨some x.b, x.uni f.a % 2 ^ 32, (s.core x.blk.core).dq.lim, 0, 0⟩
      refine runs_mono (runs_done h (s := s) rfl (s' := setDeque s x.blk.core x.blk
        ⟨some x.b, x.uni f.a % 2 ^ 32, (s.core x.blk.core).dq.lim, 0, 0⟩) ?_ ((h1 _ _).trans h.crew)) ?_
      · simp only [hn, writeDqbase, hs, ho, hv, ne_eq, not_true, false_or, if_false, Nat.not_lt.2 hlo, Nat.not_lt.2 hhi]
      · rintro _ cr ⟨rfl, hk⟩
        refine ⟨hk, by rw [State.setCrew_core]; exact h2, fun q ps hu hq => ?_⟩
        exact (sameBytes_setCrew _ _ _ _ q).trans (h3 q ps hu hq)
end

section
/-! PROOFS. Refutations by a machine whose tables the model never leaves so, but that the statement covers. First: O9. -/

namespace Sys2Proof.Machine

open Sys2Proof

/-- What a step leaves, seen through `f`. -/
def seenAfter {α : Type} (o : Host.Outcome State Fault Refusal) (f : State → Option α) : Option α :=
  match o with
  | .next t => f t
  | _ => none

theorem seenAfter_of {α : Type} {o : Host.Outcome State Fault Refusal} {t : State} (h : o = .next t) (f : State → Option α) :
    seenAfter o f = f t := by rw [h]; rfl

/-- The thread of a lane of crew 0 of block 0. -/
def State.threadAt (s : State) (l : Nat) : Option Thread := (s.crew? 0 0).bind (·.thread? l)

theorem State.threadAt_of {s : State} {cr : Crew} {l : Nat} {th : Thread} (hc : s.crew? 0 0 = some cr)
    (ht : cr.thread? l = some th) : s.threadAt l = some th := by
  simp [threadAt, hc, ht]

/-- One crew on core 0. -/
def State.withCrew (cr : Crew) (core : Core) : State :=
  { State.reset with blocks := [(0, Block.at_ 0 0 0 0 [] [(0, cr)] ⟨[], []⟩)], cores := [(0, core)] }

/-- A thread at slot 0x10000 of lane `l`, with a wait. -/
def standing (l : Nat) (w : Option Wait) : Thread := { Thread.at_ 0x10000 l 1 0 0 1 with wait := w }

/-- A crew whose table of threads names lane 0 twice: the second entry, which no lookup finds, waits for block 0, as lane 1
does. -/
def acqCrew : Crew :=
  { Crew.at_ 0x10000 1 0 0 1 0 none with
    threads := [(0, standing 0 none), (0, standing 0 (some (.regacq 1))), (1, standing 1 (some (.regacq 1)))] }

/-- The crew's request is the first in the line of core 0. -/
def acqState : State := State.withCrew acqCrew { Core.reset with acqWait := [(0, 0, 1)] }

end Sys2Proof.Machine

open Sys2Proof Sys2Proof.Machine

/-- Refutes O9. REGACQ_GRANT lets the threads of every lane go on that some entry of the crew's table shows waiting. In a crew
whose table names a lane twice (a table that the model never builds, but that the statement admits), a thread that the lane's
first entry shows not waiting goes on as well, where the statement keeps it. -/
theorem not_extendedBlocks : ¬ Obligations.ExtendedBlocks := by
  unfold Obligations.ExtendedBlocks
  rintro ⟨-, h, -⟩
  have hroom : popcount (BitVec.ofNat 3 1 &&& ~~~acqCrew.xheld).toNat 3 ≤ freeBlocks acqState 0 := by decide +kernel
  obtain ⟨t, cr', hx, hcr, -, -, -, -, hth⟩ := (h 0 0 0 1 [] acqCrew acqState rfl rfl).1
    ⟨1, standing 1 (some (.regacq 1)), by decide, rfl, rfl⟩ hroom
  obtain ⟨th', ht, -, hstays⟩ := hth 0 (standing 0 none) (by decide) rfl
  have hgoes : seenAfter (exec (.regacqGrant 0) acqState) (fun t => (t.threadAt 0).map (·.pc)) = some 0x1000C := by
    decide +kernel
  rw [seenAfter_of hx, State.threadAt_of hcr ht, hstays (by decide)] at hgoes
  exact absurd hgoes (by decide)
end

section
/-! PROOFS. Refutation of O34. -/

namespace Sys2Proof.Machine

open Sys2Proof

/-- A crew with two lanes' markers of one `pooltake` in its Store Path, the second of a lane that no crew has. Lane 0 waits for
both. -/
def takeCrew : Crew :=
  { Crew.at_ 0x10000 1 0 0 1 0 none with
    seq := 5
    threads := [(0, standing 0 (some (.take 5)))]
    storePath := [.marker 5 (.pooltake 0 (some ⟨true, 4, 2, 0, 5⟩) 15 0), .marker 5 (.pooltake 0 none 15 32)] }

/-- A pool that is dry. -/
def dryPool : Pool := { head := 0, base := 0, limit := 0, osz := 4, ctx := some 0, free := 0 }

def takeState : State :=
  { State.withCrew takeCrew Core.reset with grids := [(0, probeGrid ⟨[], []⟩)], pools := [(0, dryPool)] }

end Sys2Proof.Machine

open Sys2Proof Sys2Proof.Machine

/-- Refutes O34. The threads of a `pooltake` go on once no lane below 32 has a marker left in the Store Path. Where the Store Path
holds a marker of a lane beyond (one that no issue leaves, but that the statement admits), they go on though a marker of theirs
stands in the rest of it, where the statement keeps them waiting. -/
theorem not_pools : ¬ Obligations.Pools := by
  unfold Obligations.Pools
  rintro ⟨-, h, -⟩
  obtain ⟨t, cr', hx, -, hcr, -, -, -, -, hrel, -⟩ := (h 0 0 0 15 0 5 ⟨true, 4, 2, 0, 5⟩ takeState _ takeCrew _ _ dryPool
    rfl rfl rfl (by decide) rfl rfl).1 rfl
  obtain ⟨th', ht, -, -, -, hstays⟩ := hrel 0 (standing 0 (some (.take 5))) (by decide) rfl
  have hpc : th'.pc = 0x10000 := (hstays fun w _ hw => hw.2 0 none 15 32 List.mem_cons_self).1
  have hgoes : seenAfter (exec (.storePathPerform 0 0) takeState) (fun t => (t.threadAt 0).map (·.pc)) = some 0x1000C := by
    decide +kernel
  rw [seenAfter_of hx, State.threadAt_of hcr ht, Option.map_some, hpc] at hgoes
  exact absurd hgoes (by decide)
end

section
/-! PROOFS. Refutation of O42. -/

namespace Sys2Proof.Machine

open Sys2Proof

/-- A crew of three groups, of lane 1, lane 2 and lane 0. Its table of threads names lane 0 twice: the entry that lookups find
has exited at 0x30000, where the crew counts 5 waits; the second lives elsewhere. -/
def agedCrew : Crew :=
  { Crew.at_ 0x10000 1 0 0 1 0 none with
    threads := [(0, { standing 0 none with pc := 0x30000, exited := true }), (0, standing 0 none), (1, standing 1 none),
      (2, { standing 2 none with pc := 0x20000 })]
    aged := [(0x30000, 5)] }

def agedState : State := { State.withCrew agedCrew Core.reset with grids := [(0, probeGrid ⟨[], []⟩)] }

/-- The crew as a candidate of its slot. -/
def agedCand : Cand := ⟨0, 0, 0, 0, [(0x10000, 2#32), (0x20000, 4#32), (0x30000, 1#32)]⟩

theorem candidates_agedState : candidates agedState 0 0 = [agedCand] := by rfl

end Sys2Proof.Machine

open Sys2Proof Sys2Proof.Machine

/-- Refutes O42. A turn of the slot drops the wait counts of the slots at which no thread of the crew lives, before it counts the
groups that it left out. In a crew whose table names a lane twice (a table that the model never builds, but that the statement
admits), such a slot can be that of a group, whose count then starts again at 1 where the statement has it one higher. -/
theorem not_issueSelection : ¬ Obligations.IssueSelection := by
  unfold Obligations.IssueSelection
  rintro ⟨-, -, -, h, -⟩
  have hcs := candidates_agedState
  obtain ⟨t, ps, cr', hx, -, -, -, -, -, -, hcr, -, -, haged, -⟩ := h 0 0 agedState agedCand _ agedCrew
    (by rw [hcs]; exact List.pairwise_singleton _ _) (by rw [hcs]; rfl) rfl rfl
  have hold := haged (0x30000, 1#32) (by decide)
  rw [if_neg (by decide +kernel)] at hold
  have hnew : seenAfter (exec (.issueCycle 0 0) agedState) (fun t => (t.crew? 0 0).map (·.aged.getD 0x30000 0)) = some 1 := by
    decide +kernel
  rw [seenAfter_of hx] at hnew
  change (t.crew? 0 0) = some cr' at hcr
  rw [hcr, Option.map_some, hold] at hnew
  exact absurd hnew (by decide)
end

section
/-! PROOFS. Refutation of O50. -/

namespace Sys2Proof.Machine

open Sys2Proof

/-- A page fault noticed late. -/
def lateTrap : PendTrap :=
  { cause := cPf, taddr := 0, pc := 0x10000, lanes := 1, imm := 0, resume := 2, late := true, acc := 0 }

/-- A crew with a late fault whose lane 0 has in its checkpoint a withdrawn pop of queue 0 into `s5`, which is interlocked for an
instruction older than the crew's checkpoint. -/
def popCrew : Crew :=
  { Crew.at_ 0x10000 1 0 0 1 0 none with
    seq := 1, ckSeq := 1, locks := [⟨1, 5, 1⟩], late := some (cPf, 0, 0, lateTrap)
    threads := [(0, { standing 0 none with head := { (standing 0 none).head with seq := 1, pops := [(0, ⟨false, 5, 1, 0, 1⟩)] } })] }

/-- The queue holds one element. -/
def popState : State := State.withCrew popCrew { Core.reset with wqs := [(0, ⟨[7], none, []⟩)] }

end Sys2Proof.Machine

open Sys2Proof Sys2Proof.Machine

/-- Refutes O50. A rollback lets the pops that `fectl.cancel` withdrew wait again, and a queue that holds an element answers at
once. Where the pop is into a uniform register (a checkpoint that the model never takes, but that the statement admits), that
register holds the element then and not the checkpoint's value, which the statement asks of every uniform register. -/
theorem not_faultsAndErrors : ¬ Obligations.FaultsAndErrors := by
  unfold Obligations.FaultsAndErrors
  rintro ⟨-, h, -⟩
  obtain ⟨u, cr', hx, -, hcr, ⟨hs, -⟩, -⟩ := h 0 0 cPf 0 0 popState _ popCrew lateTrap ⟨rfl, rfl, rfl, rfl⟩ rfl
  have hold : cr'.getS 5 = 0 := hs 5
  have hnew : seenAfter (exec (.lateFaultRollback 0 0) popState) (fun t => (t.crew? 0 0).map (·.getS 5)) = some 7 := by
    decide +kernel
  rw [seenAfter_of hx, hcr, Option.map_some, hold] at hnew
  exact absurd hnew (by decide)
end

section
/-! PROOFS. Refutation of O21. -/

namespace Sys2Proof.Machine

open Sys2Proof

/-- An 8-byte store to global memory. -/
def sealStore : FmtM :=
  ⟨⟨false, 15⟩, 3, false, 0, 0, 0, 0, 0, 0, .v 0, false, .v 0, false, .v 0, false, .v 0⟩

/-- A ladder whose tiles have no bytes, so that its slot array is empty, with a base inside the 8 bytes at 0x20000. -/
def emptyLadder : Ladder := { hdr := 0x1000, base := 0x20004, tsize := 0, t := 1, s := 1, opn := false }

/-- A machine whose tables map the first GiB onto itself. -/
def sealState : State :=
  { State.reset with
    mem := probeTables.foldl (fun m e => m.write e.1 (leBytes 8 e.2)) ⟨[], []⟩
    ctxs := [(0, { desc := 64, ptroot := 0x1000, ftab := 0, qtab := 0, traph := 0, level := 0, debug := false, ovs := false,
                   leaving := false })] }

def sealCx : Cx :=
  { s := sealState, b := 0, blk := Block.at_ 0 0 0 0 [] [] ⟨[], []⟩, g := { probeGrid ⟨[], []⟩ with ladder := some emptyLadder },
    c := 0, cr := Crew.at_ 0x10000 1 0 0 1 0 none, pc := 0x10000, late := false, lanes := 1, act := 1 }

/-- The store's access, at 0x20000. -/
def sealAcc : LaneAcc := { lane := 0, va := 0x20000, place := .g 0x20000, pte := 0, log := 16, fmt := none }

end Sys2Proof.Machine

open Sys2Proof Sys2Proof.Machine Sys2Proof.Claims

/-- No byte of the access lies in the ladder's header or in its slot array. -/
theorem not_barred_sealAcc : ¬ Barred sealCx.s sealCx.g sealCx.blk 0x20000 8 := by
  rintro ⟨l, c, va, hl, -, hva, -, h⟩
  obtain rfl : emptyLadder = l := Option.some.inj hl
  rcases h with ⟨h1, h2⟩ | ⟨b, -, -, h1, h2, -⟩
  · simp only [emptyLadder] at h1 h2
    omega
  · simp only [emptyLadder] at h1 h2
    omega

/-- Refutes O21. The check of a write against a slot array asks whether the array meets the bytes by its ends, which an array without
bytes does when its base lies inside the access: a store is refused then though no byte of it lies in the array, where the
statement, which admits any ladder, lets it pass. -/
theorem not_accessChecks : ¬ Obligations.AccessChecks := by
  unfold Obligations.AccessChecks
  rintro ⟨-, h⟩
  obtain ⟨-, -, -, -, -, hseal, -⟩ := h sealStore sealState sealCx
  have hnone := (hseal [] sealAcc [] (by
    rintro e he y hy
    obtain rfl : e = sealAcc := by simpa using he
    cases hy
    decide) (fun e he => nomatch he)).2 (by
      rintro ⟨y, hy, hb⟩
      cases hy
      exact not_barred_sealAcc hb)
  have hsome : sealLane sealCx sealStore [sealAcc] = some sealAcc := by decide +kernel
  rw [List.nil_append, hsome] at hnone
  cases hnone
end

section
/-! PROOFS. What loads, stores and atomics leave when they issue (R245–R253): O22. -/

namespace Sys2Proof.Machine

open Sys2Proof Sys2Proof.Claims

/-! ## Translations keep every byte (R366) -/

/-- A change of the translations kept, alone. -/
def TlbOnly (s t : State) : Prop := t = { s with tlb := t.tlb, free := t.free }

namespace TlbOnly

theorem refl (s : State) : TlbOnly s s := rfl

theorem trans {s t u : State} (h : TlbOnly s t) (h' : TlbOnly t u) : TlbOnly s u := by
  unfold TlbOnly at *
  rw [h'.trans (by rw [h])]

theorem crew {s t : State} (h : TlbOnly s t) (b c : Nat) : t.crew? b c = s.crew? b c := by rw [h]; rfl

theorem block {s t : State} (h : TlbOnly s t) (b : Nat) : t.block? b = s.block? b := by rw [h]; rfl

theorem bytes {s t : State} (h : TlbOnly s t) : SameBytes s t := by
  rw [h]
  exact sameBytes_of rfl (fun _ => rfl) (fun _ => rfl)

end TlbOnly

theorem tlbOnly_tlbKeep (s : State) (ctx va : Nat) (r : Xlat) : TlbOnly s (tlbKeep s ctx va r) := by
  unfold tlbKeep
  split
  · dsimp only
    split <;> rfl
  · rfl

theorem tlbOnly_xlatLane {ctx : Nat} {acc : Acc} {va l : Nat} {s t : State} {a : LaneAcc}
    (h : xlatLane ctx acc va l s = .ok (a, t)) : TlbOnly s t := by
  unfold xlatLane at h
  split at h
  · cases h
  · cases h
  · cases h
    exact tlbOnly_tlbKeep _ _ _ _

theorem tlbOnly_xlatLanes {ctx : Nat} {acc : Acc} {addr : Nat → Int} {ls : List Nat} {s t : State} {as : List LaneAcc}
    (h : xlatLanes ctx acc addr ls s = .ok (as, t)) : TlbOnly s t := by
  induction ls generalizing s as with
  | nil =>
    cases h
    exact .refl _
  | cons l ls ih =>
    rw [xlatLanes] at h
    split at h
    · cases h
    · rename_i a s1 h1
      split at h
      · cases h
      · rename_i as2 s2 h2
        cases h
        exact (tlbOnly_xlatLane h1).trans (ih h2)

theorem tlbOnly_accessLanes {x : Cx} {ls : List Nat} {sp qn : Nat} {addr : Nat → Int} {acc : Acc} {align : Nat}
    {as : List LaneAcc} {t : State} (h : accessLanes x ls sp qn addr acc align = .ok (as, t)) : TlbOnly x.s t := by
  unfold accessLanes at h
  split at h
  · cases h
  · split at h
    · split at h
      · cases h
      · rename_i r hr
        cases h
        exact tlbOnly_xlatLanes hr
    · cases h
      exact .refl _

/-! ## An instruction that completes after translations -/

/-- As `exec_done`, for an effect that has translated and changes its crew. -/
theorem exec_setCrew {i : Instr} {s s1 : State} {x : Cx} {eff : Cx → Res} {cr : Crew} {ends : Bool} (h : Ready i s x)
    (hx : exec i s = issueWith i s eff) (ht : TlbOnly s s1) (he : eff x = .done (s1.setCrew x.b x.c cr) ends)
    (hh : cr.handler = x.cr.handler) : ∃ t, exec i s = .next t ∧ SameBytes s t ∧
      t.crew? x.b x.c = some (cr.advance x.lanes x.nextPc ((ends || endsRegion i) && !x.cr.inHandler)) := by
  have hc : (s1.setCrew x.b x.c cr).crew? x.b x.c = some cr := State.crew_setCrew ((ht.crew _ _).trans h.crew) cr
  refine ⟨_, exec_done h hx he hc, (ht.bytes.trans (sameBytes_setCrew _ _ _ _)).trans (sameBytes_setCrew _ _ _ _), ?_⟩
  rw [State.crew_setCrew hc, Crew.inHandler, hh]
  rfl

/-! ## Registers that wait for a value (R15) -/

/-- Registers `rs` stand empty in the lanes `ls`. -/
def emptied (c : Crew) (rs ls : List Nat) (tag : Nat) : Crew :=
  rs.foldl (fun c r => ls.foldl (fun c l => c.markEmpty r l tag) c) c

theorem foldl_markEmpty_rest (r tag : Nat) (ls : List Nat) (c : Crew) :
    { ls.foldl (fun c l => c.markEmpty r l tag) c with empty := c.empty } = c := by
  induction ls generalizing c with
  | nil => rfl
  | cons l ls ih =>
    calc _ = ({ ({ ls.foldl (fun c l => c.markEmpty r l tag) (c.markEmpty r l tag) with
                    empty := (c.markEmpty r l tag).empty } : Crew) with empty := c.empty } : Crew) := rfl
      _ = c := by rw [ih]; rfl

/-- Nothing else of the crew has changed. -/
theorem emptied_rest (rs ls : List Nat) (tag : Nat) (c : Crew) : { emptied c rs ls tag with empty := c.empty } = c := by
  induction rs generalizing c with
  | nil => rfl
  | cons r rs ih =>
    let c1 := ls.foldl (fun c l => c.markEmpty r l tag) c
    calc _ = ({ ({ emptied c1 rs ls tag with empty := c1.empty } : Crew) with empty := c.empty } : Crew) := rfl
      _ = ({ c1 with empty := c.empty } : Crew) := by rw [ih c1]
      _ = c := foldl_markEmpty_rest r tag ls c

theorem isEmpty_markEmpty (c : Crew) {r l r' l' : Nat} (tag : Nat) (hl : l < 32) (hl' : l' < 32) :
    (c.markEmpty r' l' tag).isEmpty r l = (c.isEmpty r l || decide (r = r' ∧ l = l')) := by
  simp only [Crew.isEmpty, Crew.markEmpty, NMap.find?_set, Crew.key_inj hl hl']
  split <;> simp_all

theorem isEmpty_foldl_markEmpty (r' tag : Nat) (ls : List Nat) (hls : ∀ l ∈ ls, l < 32) (c : Crew) {r l : Nat} (hl : l < 32) :
    (ls.foldl (fun c l => c.markEmpty r' l tag) c).isEmpty r l = (c.isEmpty r l || decide (r = r' ∧ l ∈ ls)) := by
  induction ls generalizing c with
  | nil => simp
  | cons a ls ih =>
    rw [List.foldl_cons, ih (fun l h => hls l (List.mem_cons_of_mem _ h)), isEmpty_markEmpty c tag hl (hls a List.mem_cons_self),
      Bool.or_assoc, ← Bool.decide_or]
    congr 2
    simp only [List.mem_cons]
    grind

theorem isEmpty_emptied (rs : List Nat) {ls : List Nat} (hls : ∀ l ∈ ls, l < 32) (tag : Nat) (c : Crew) {r l : Nat} (hl : l < 32) :
    (emptied c rs ls tag).isEmpty r l = (c.isEmpty r l || decide (r ∈ rs ∧ l ∈ ls)) := by
  induction rs generalizing c with
  | nil => simp [emptied]
  | cons a rs ih =>
    have h := ih (ls.foldl (fun c l => c.markEmpty a l tag) c)
    rw [isEmpty_foldl_markEmpty a tag ls hls c hl, Bool.or_assoc, ← Bool.decide_or] at h
    refine Eq.trans h ?_
    congr 2
    simp only [List.mem_cons]
    grind

/-! ## The registers of a destination (R246) -/

theorem memLanes_eq (x : Cx) (d : Opr) : memLanes x d = dstLanes x d := rfl

theorem dataDst_v {f : FmtM} {r : BitVec 8} (h : dataDst f = true) (hd : f.d = .v r) :
    r.toNat % widthRegs f.w.toNat = 0 := by
  simpa [dataDst, dstV, hd, oprIsV, oprIsS, vAligned] using h

theorem dataDst_cases {f : FmtM} (h : dataDst f = true) : (∃ r, f.d = .v r) ∨ ∃ r, f.d = .s r := by
  unfold dataDst dstV at h
  cases hd : f.d <;> simp_all [oprIsV, oprIsS]

/-- The registers of an aligned destination follow one another, in a handler as outside one (R285). -/
theorem vName_add (cr : Crew) {r n i : Nat} (hn : n ∣ 16) (hr : r % n = 0) (hi : i < n) : cr.vName (r + i) = cr.vName r + i := by
  have h16 : r < 16 ↔ r + i < 16 := by
    obtain ⟨a, ha⟩ := hn
    obtain ⟨b, rfl⟩ := Nat.dvd_of_mod_eq_zero hr
    rw [ha]
    refine ⟨fun h => ?_, fun h => by omega⟩
    have hb : b < a := Nat.lt_of_mul_lt_mul_left h
    calc n * b + i < n * (b + 1) := by rw [Nat.mul_add]; omega
      _ ≤ n * a := Nat.mul_le_mul_left _ hb
  unfold Crew.vName
  by_cases hh : cr.inHandler = true
  · by_cases h : r < 16
    · simp [hh, h, h16.1 h, Nat.add_assoc]
    · simp [hh, h, mt h16.2 h]
  · simp [hh]

theorem widthRegs_dvd (w : Nat) : widthRegs w ∣ 16 := by
  unfold widthRegs
  split
  · decide
  · split <;> decide

theorem vNames_eq (cr : Crew) {r : BitVec 8} {n : Nat} (hn : n ∣ 16) (hr : r.toNat % n = 0) :
    vNames cr (.v r) n = (List.range n).map (fun i => cr.vName r.toNat + i) :=
  List.map_congr_left fun _ hi => vName_add cr hn hr (List.mem_range.1 hi)

/-! ## Loads (R248, R249) -/

/-- What `awaitDest` leaves: the destination's registers empty in the active lanes, or the uniform one interlocked. -/
theorem awaitDest_spec {x : Cx} {f : FmtM} (hd : dataDst f = true) :
    let cr := awaitDest x f.d (widthRegs f.w.toNat) x.cr
    cr = { x.cr with
        seq := x.cr.seq + 1
        empty := cr.empty
        locks := x.cr.locks ++ (match f.d with
          | .s r => [⟨1, x.cr.sName r.toNat, x.cr.seq + 1⟩]
          | _ => []) } ∧
      ∀ r l, l < 32 → (destV x f.d (widthRegs f.w.toNat) r l → cr.isEmpty r l = true) ∧
        (¬destV x f.d (widthRegs f.w.toNat) r l → cr.isEmpty r l = x.cr.isEmpty r l) := by
  rcases dataDst_cases hd with ⟨k, hk⟩ | ⟨k, hk⟩
  · have he : awaitDest x (.v k) (widthRegs f.w.toNat) x.cr =
        emptied x.cr.bump (vNames x.cr.bump (.v k) (widthRegs f.w.toNat)) x.acts (x.cr.seq + 1) := rfl
    simp only [hk, he, List.append_nil]
    refine ⟨?_, fun r l hl => ?_⟩
    · have h := emptied_rest (vNames x.cr.bump (.v k) (widthRegs f.w.toNat)) x.acts (x.cr.seq + 1) x.cr.bump
      exact (congrArg (fun c : Crew => { c with empty :=
        (emptied x.cr.bump (vNames x.cr.bump (.v k) (widthRegs f.w.toNat)) x.acts (x.cr.seq + 1)).empty }) h)
    · have hm : r ∈ vNames x.cr.bump (.v k) (widthRegs f.w.toNat) ∧ l ∈ x.acts ↔ destV x (.v k) (widthRegs f.w.toNat) r l := by
        rw [vNames_eq _ (widthRegs_dvd _) (dataDst_v hd hk), mem_acts]
        simp only [List.mem_map, List.mem_range, destV, hl, true_and]
        change (∃ a < widthRegs f.w.toNat, x.cr.vName k.toNat + a = r) ∧ _ ↔ _
        constructor
        · rintro ⟨⟨a, ha, rfl⟩, hx⟩
          exact ⟨hx, by omega, by omega⟩
        · rintro ⟨hx, h1, h2⟩
          exact ⟨⟨r - x.cr.vName k.toNat, by omega, by omega⟩, hx⟩
      rw [isEmpty_emptied _ (fun _ h => acts_lt h) _ _ hl]
      refine ⟨fun h => by rw [decide_eq_true (hm.2 h), Bool.or_true], fun h => ?_⟩
      rw [decide_eq_false (mt hm.1 h), Bool.or_false]
      rfl
  · simp only [hk]
    exact ⟨rfl, fun r l _ => ⟨fun h => h.elim, fun _ => rfl⟩⟩

/-- A load's crew: its parts wait, and `e` are the registers that stand empty. -/
def loadCrew (x : Cx) (f : FmtM) (parts : List Load) (e : NMap Nat) : Crew :=
  { x.cr with
    seq := x.cr.seq + 1
    empty := e
    locks := x.cr.locks ++ (match f.d with
      | .s r => [⟨1, x.cr.sName r.toNat, x.cr.seq + 1⟩]
      | _ => [])
    loads := x.cr.loads ++ parts
    acqs := x.cr.acqs ++ (if f.ord.getLsbD 0 then [⟨x.cr.seq + 1, false⟩] else []) }

/-- A completed load leaves what the statement says (R248, R249). -/
theorem loadIssued_loadCrew {s t : State} {x : Cx} {f : FmtM} {parts : List Load} (hd : dataDst f = true) (hb : SameBytes s t)
    (m : Lanes) (n : Nat) (e : Bool) : LoadIssued s x f parts t
      ((loadCrew x f parts (awaitDest x f.d (widthRegs f.w.toNat) x.cr).empty).advance m n e) := by
  obtain ⟨-, h⟩ := awaitDest_spec (x := x) hd
  have hk : Kept { loadCrew x f parts (awaitDest x f.d (widthRegs f.w.toNat) x.cr).empty with empty := x.cr.empty }
      (loadCrew x f parts (awaitDest x f.d (widthRegs f.w.toNat) x.cr).empty) (destV x f.d (widthRegs f.w.toNat)) none1 none1 :=
    ⟨fun r l hl hv => ⟨rfl, (h r l hl).2 hv⟩, fun _ _ => rfl, fun _ _ => rfl, rfl⟩
  refine ⟨hb, fun r l _ => by rw [advance_getV]; rfl, fun r l hv => ?_, hk.advance m n e⟩
  · rw [advance_isEmpty]
    have hl : l < 32 := by
      unfold destV at hv
      split at hv
      · exact BitVec.lt_of_getLsbD hv.1
      · exact hv.elim
    exact (h r l hl).1 hv

/-- A lane's parts as the model builds them. -/
theorem loadParts_eq {s : State} {x : Cx} {f : FmtM} {a : LaneAcc} {n : Nat} (hd : dataDst f = true) (hn : n = 16 ↔ 4 ≤ f.w.toNat)
    (conv : LoadConv) (cr : Crew) (hs : cr.seq = x.cr.seq + 1) (hh : cr.handler = x.cr.handler) :
    (if n = 16 then
        [(⟨cr.seq, a.place, 8, loadPol s f a, conv, destOf cr f.d 2 a.lane 0, a.va, accessOf x f.d a.lane⟩ : Load),
         ⟨cr.seq, a.place.add 8, 8, loadPol s f a, conv, destOf cr f.d 2 a.lane 1, a.va + 8, accessOf x f.d a.lane⟩]
      else [⟨cr.seq, a.place, n, loadPol s f a, conv, destOf cr f.d (widthRegs f.w.toNat) a.lane 0, a.va, accessOf x f.d a.lane⟩]) =
      loadParts s x f a n conv := by
  have hv : ∀ r, cr.vName r = x.cr.vName r := Crew.vName_congr hh
  have hS : ∀ r, cr.sName r = x.cr.sName r := Crew.sName_congr hh
  rcases dataDst_cases hd with ⟨k, hk⟩ | ⟨k, hk⟩
  · by_cases h16 : n = 16
    · simp [loadParts, h16, hn.1 h16, destOf, hk, hs, hv, loadPol, pagePol, accessOf, threadsOf]
    · simp [loadParts, h16, mt hn.2 h16, destOf, hk, hs, hv, loadPol, pagePol, accessOf, threadsOf]
  · by_cases h16 : n = 16 <;>
      simp [loadParts, h16, destOf, hk, hs, hS, loadPol, pagePol, accessOf, threadsOf]

/-- The loads of lanes that translations have placed, as they join the crew's. -/
theorem issueLoads_eq {s : State} {x : Cx} {f : FmtM} {ps : List (LaneAcc × Nat × LoadConv)}
    (hc : s.crew? x.b x.c = some x.cr) (hd : dataDst f = true) (hn : ∀ p ∈ ps, p.2.1 = 16 ↔ 4 ≤ f.w.toNat) :
    issueLoads x f s ps = s.setCrew x.b x.c (loadCrew x f (ps.flatMap (fun p => loadParts s x f p.1 p.2.1 p.2.2))
      (awaitDest x f.d (widthRegs f.w.toNat) x.cr).empty) := by
  obtain ⟨ha, -⟩ := awaitDest_spec (x := x) hd
  rw [issueLoads, State.updCrew_of hc]
  refine congrArg _ ?_
  dsimp only
  rw [List.flatMap_congr (fun p hp => loadParts_eq hd (hn p hp) _ (awaitDest x f.d (widthRegs f.w.toNat) x.cr) (by rw [ha])
    (by rw [ha]))]
  generalize ps.flatMap (fun p => loadParts s x f p.1 p.2.1 p.2.2) = parts
  rw [ha]
  by_cases ho : f.ord.getLsbD 0 = true
  · simp only [ho, if_true, loadCrew]
    rfl
  · simp only [ho, loadCrew, Bool.false_eq_true, if_false, List.append_nil]

/-- What issued loads leave (R248, R249). -/
theorem runs_issueLoads {s s1 : State} {x : Cx} {f : FmtM} {eff : Cx → Res} {ps : List (LaneAcc × Nat × LoadConv)}
    (h : Ready (.ld f) s x) (hx : exec (.ld f) s = issueWith (.ld f) s eff) (ht : TlbOnly s s1)
    (he : eff x = .done (issueLoads x f s1 ps) false) (hd : dataDst f = true)
    (hn : ∀ p ∈ ps, p.2.1 = 16 ↔ 4 ≤ f.w.toNat) :
    Runs (.ld f) s x (LoadIssued s x f (ps.flatMap (fun p => loadParts s1 x f p.1 p.2.1 p.2.2))) := by
  rw [issueLoads_eq ((ht.crew _ _).trans h.crew) hd hn] at he
  obtain ⟨t, h1, h2, h3⟩ := exec_setCrew h hx ht he rfl
  exact ⟨t, _, h1, h3, advanced_advance (cr := loadCrew x f _ _) rfl ⟨rfl, rfl, rfl, rfl, rfl⟩ _, loadIssued_loadCrew hd h2 _ _ _⟩

/-! ## `ld.fmt` (R91, R92, R249) -/

theorem bits_split (m : Nat) (h : bits m 78 50 = 0) : bits m 78 2 = 0 ∧ bits m 80 48 = 0 := by
  unfold bits at *
  omega

/-- `SOFF` as a signed number. -/
theorem soff_eq (m : Nat) :
    (if bitAt m 63 then (bits m 0 64 : Int) - 2 ^ 64 else (bits m 0 64 : Int)) = asInt .i64 (bits m 0 64) := by
  have hb : bitAt m 63 = true ↔ 2 ^ 63 ≤ bits m 0 64 := by
    simp only [bitAt, bits, beq_iff_eq]
    omega
  have hm : bits m 0 64 % 2 ^ 64 = bits m 0 64 := Nat.mod_mod _ _
  unfold asInt
  simp only [fmtBits, fmtSigned, hm, hb, Nat.add_one_sub_one, Bool.true_and, decide_eq_true_eq]

/-- A usable entry is one that the model parses. -/
theorem fmtEntry_of {entry : List Byte} {e d : Fmt} (hl : entry.length = 16) (hz : bits (leNat entry) 78 50 = 0)
    (he : Fmt.ofCode (BitVec.ofNat 6 (bits (leNat entry) 64 6)) = some e)
    (hd : Fmt.ofCode (BitVec.ofNat 6 (bits (leNat entry) 72 6)) = some d) (hi : fmtIsIeee d = true)
    (hs : bits (leNat entry) 70 2 ≠ 0 → fmtScalable e = true) :
    fmtEntry entry = some ⟨asInt .i64 (bits (leNat entry) 0 64),
      if bits (leNat entry) 70 2 = 0 then 0 else 8 * 2 ^ bits (leNat entry) 70 2, e, d⟩ := by
  obtain ⟨h1, h2⟩ := bits_split _ hz
  have hb : (if bits (leNat entry) 70 2 = 0 then 0 else 8 * 2 ^ bits (leNat entry) 70 2) = 0 ∨ fmtScalable e = true := by
    by_cases h : bits (leNat entry) 70 2 = 0
    · exact .inl (if_pos h)
    · exact .inr (hs h)
  unfold fmtEntry
  simp only [he, hd, soff_eq]
  rw [if_pos ⟨hl, h1, h2, hi, hb⟩]

theorem pageBase_eq (a : LaneAcc) : pageBase a = a.va - a.va % 2 ^ a.log := by
  have h := Nat.div_add_mod' a.va (2 ^ a.log)
  unfold pageBase
  omega

theorem wrapTo_of {va : Nat} {i : Int} (h : va < 2 ^ 64) (hz : ((va : Int) - i) % 2 ^ 64 = 0) : wrapTo 64 i = va := by
  unfold wrapTo
  omega

/-- What an `ld.fmt` reads in a lane is the model's plan (R91, R92, R249). -/
theorem fmtPlan_of {x : Cx} {f : FmtM} {n : Nat} {a : LaneAcc} {s t : State} {p : FmtPlan} (h : FmtReads x f n a s p t) :
    fmtPlan x f n s a = .ok (p, t) ∧ TlbOnly s t := by
  obtain ⟨ha, hnone, hsome⟩ := h
  unfold fmtPlan
  cases hf : a.fmt with
  | none =>
    obtain ⟨h1, h2, h3, rfl⟩ := hnone hf
    refine ⟨?_, .refl _⟩
    rw [← ha, ← h1, ← h2, ← h3]
  | some entry =>
    obtain ⟨e, d, ⟨hl, hz, he, hd, hi, hzero, hscale⟩, hn, hdf⟩ := hsome entry hf
    simp only [fmtEntry_of hl hz he hd hi (fun h => (hscale h).1)]
    by_cases hb : bits (leNat entry) 70 2 = 0
    · obtain ⟨hc, rfl⟩ := hzero hb
      simp only [hb, if_true]
      refine ⟨?_, .refl _⟩
      rw [← ha, ← hn, ← hc, ← hdf]
    · obtain ⟨-, va, hva, hvz, q, pte, lg, fm, hx, rfl, hc⟩ := hscale hb
      have hsv : scaleVa a ⟨asInt .i64 (bits (leNat entry) 0 64), 8 * 2 ^ bits (leNat entry) 70 2, e, d⟩ = va := by
        unfold scaleVa
        rw [pageBase_eq]
        exact wrapTo_of hva hvz
      simp only [hb, if_false, hsv, hx]
      refine ⟨?_, tlbOnly_tlbKeep _ _ _ _⟩
      have h0 : ¬ 8 * 2 ^ bits (leNat entry) 70 2 = 0 := by positivity
      rw [if_neg h0, ← ha, ← hn, ← hdf]
      rw [show LoadConv.fmt e d (some (Place.g q, pagePol s f (Place.g q) pte, va)) = p.conv from hc.symm]

/-- The lanes of an `ld.fmt` in order. -/
theorem fmtPlans_of {x : Cx} {f : FmtM} {n : Nat} {ls : List Nat} {s t : State} {ps : List FmtPlan} (h : FmtLanes x f n ls s ps t) :
    fmtPlans x f n (formAddr x f) ls s = .ok (ps, t) ∧ TlbOnly s t := by
  induction ls generalizing s ps with
  | nil =>
    obtain ⟨rfl, rfl⟩ := h
    exact ⟨rfl, .refl _⟩
  | cons l ls ih =>
    obtain ⟨a, s1, p, s2, rest, h1, h2, h3, rfl⟩ := h
    obtain ⟨hp, ht⟩ := fmtPlan_of h2
    obtain ⟨hr, ht'⟩ := ih h3
    exact ⟨by simp only [fmtPlans, h1, hp, hr], ((tlbOnly_xlatLane h1).trans ht).trans ht'⟩

theorem fmtTrap_none {n : Nat} {ps : List FmtPlan} (h : FmtFits n ps) : fmtTrap n ps = none := by
  have h1 : ps.find? (fun p => p.acc.va % p.n != 0) = none := List.find?_eq_none.2 fun p hp => by simp [(h p hp).1]
  have h2 : ps.find? (fun p => p.dfmt.any (fun d => fmtBits d / 8 != n)) = none := List.find?_eq_none.2 fun p hp => by
    have hd := (h p hp).2
    cases hp' : p.dfmt with
    | none => simp
    | some d => simp [hd d hp']
  simp [fmtTrap, h1, h2]

theorem fmtBits_le (e : Fmt) : fmtBits e ≤ 64 := by cases e <;> simp [fmtBits]

/-- No part of an `ld.fmt` has 16 bytes. -/
theorem fmtLanes_short {x : Cx} {f : FmtM} {n : Nat} (hn : n ≤ 8) {ls : List Nat} {s t : State} {ps : List FmtPlan}
    (h : FmtLanes x f n ls s ps t) : ∀ p ∈ ps, p.n ≤ 8 := by
  induction ls generalizing s ps with
  | nil =>
    obtain ⟨rfl, -⟩ := h
    exact fun p hp => nomatch hp
  | cons l ls ih =>
    obtain ⟨a, s1, p, s2, rest, -, ⟨-, hnone, hsome⟩, h3, rfl⟩ := h
    refine List.forall_mem_cons.2 ⟨?_, ih h3⟩
    cases hf : a.fmt with
    | none => exact ((hnone hf).1).trans_le hn
    | some entry =>
      obtain ⟨e, -, -, he, -⟩ := hsome entry hf
      have := fmtBits_le e
      omega

/-! ## Stores and atomics (R250–R253) -/

/-- A crew at its next sequence number with more in its Store Path. -/
def storing (cr : Crew) (es : List SpEntry) : Crew := { cr with seq := cr.seq + 1, storePath := cr.storePath ++ es }

theorem storeEntries_eq (x : Cx) (f : FmtM) (a : LaneAcc) :
    storeEntries (x.cr.seq + 1) a (widthBytes f.w) (memData x f f.b a.lane) = storeParts x f a := rfl

/-- The interlocks of an `atom`'s destination (R252). -/
theorem named_locks {f : FmtM} {cr : Crew} (hd : dataDst f = true) (seq : Nat) :
    (named cr f.d (widthRegs f.w.toNat)).map (fun r => Lock.mk r.1 r.2 seq) = (match f.d with
      | .v r => (List.range (widthRegs f.w.toNat)).map (fun i => Lock.mk 0 (cr.vName r.toNat + i) seq)
      | .s r => [⟨1, cr.sName r.toNat, seq⟩]
      | _ => []) := by
  rcases dataDst_cases hd with ⟨k, hk⟩ | ⟨k, hk⟩
  · simp only [hk, named, vNames_eq cr (widthRegs_dvd _) (dataDst_v hd hk), List.map_map]
    rfl
  · simp [hk, named]

/-- The entry of an `atom`'s lane (R251, R252). -/
def atomEntry (x : Cx) (f : FmtM) (a : LaneAcc) : SpEntry :=
  .atomic (x.cr.seq + 1) a.place (widthBytes f.w) f.aop.toNat (BitVec.ofNat 64 (memData x f f.b a.lane))
    (BitVec.ofNat 64 (memData x f f.c a.lane))
    (some (destOf { x.cr with seq := x.cr.seq + 1 } f.d (widthRegs f.w.toNat) a.lane 0)) a.va (threadsOf x f.d a.lane)

/-- An `atom`'s crew. -/
def atomCrew (x : Cx) (f : FmtM) (as : List LaneAcc) : Crew :=
  { x.cr with
    seq := x.cr.seq + 1
    locks := x.cr.locks ++ (named x.cr f.d (widthRegs f.w.toNat)).map (fun r => ⟨r.1, r.2, x.cr.seq + 1⟩)
    storePath := x.cr.storePath ++ relPart x f ++ as.map (atomEntry x f)
    acqs := x.cr.acqs ++ (if f.ord.getLsbD 0 then [⟨x.cr.seq + 1, true⟩] else []) }

theorem atomCrew_eq (x : Cx) {f : FmtM} (as : List LaneAcc) (hd : dataDst f = true) : atomCrew x f as =
    { x.cr with
      seq := x.cr.seq + 1
      locks := x.cr.locks ++ (match f.d with
        | .v r => (List.range (widthRegs f.w.toNat)).map (fun i => Lock.mk 0 (x.cr.vName r.toNat + i) (x.cr.seq + 1))
        | .s r => [⟨1, x.cr.sName r.toNat, x.cr.seq + 1⟩]
        | _ => [])
      storePath := x.cr.storePath ++ relPart x f ++ as.map (atomEntry x f)
      acqs := x.cr.acqs ++ (if f.ord.getLsbD 0 then [⟨x.cr.seq + 1, true⟩] else []) } := by
  rw [← named_locks hd]
  rfl

/-! ## Counts of a replay (R63) -/

theorem tallies_iff (cr : Crew) : cr.tallies = true ↔ ∀ h, cr.handler = some h → h.trap.resume ≠ 2 := by
  simp only [Crew.tallies, Option.all_eq_true, bne_iff_ne]

theorem redSkipped_iff (cr : Crew) (l : Nat) : redSkipped cr l = true ↔ (∀ h, cr.handler = some h → h.trap.resume ≠ 2) ∧
    ∃ t, cr.threads.find? l = some t ∧ 0 < t.skip.red := by
  simp only [redSkipped, Crew.skips, Bool.and_eq_true, tallies_iff, Option.any_eq_true, decide_eq_true_eq]

/-- Counting changes the crew's threads alone. -/
theorem redCounted_eq (x : Cx) (cr : Crew) : redCounted x cr = { cr with threads := (redCounted x cr).threads } := by
  unfold redCounted Crew.tally
  split <;> rfl

theorem handler_redCounted (x : Cx) (cr : Crew) : (redCounted x cr).handler = cr.handler := by rw [redCounted_eq]

theorem seq_redCounted_bump (x : Cx) (cr : Crew) : (redCounted x cr.bump).seq = cr.seq + 1 := by
  rw [redCounted_eq]
  rfl

theorem redCounted_bump (x : Cx) (cr : Crew) : redCounted x cr.bump = (redCounted x cr).bump := by
  have ht : cr.bump.tallies = cr.tallies := rfl
  unfold redCounted Crew.tally
  rw [ht]
  split <;> rfl

/-- A `red`'s crew, from which its threads go on. -/
theorem redCounted_push (x : Cx) (cr : Crew) (es : List SpEntry) :
    (redCounted x cr.bump).push es = storing (redCounted x cr) es := by
  rw [redCounted_bump]
  rfl

theorem kept_storing_redCounted (x : Cx) (es : List SpEntry) (m : Lanes) (n : Nat) (e : Bool) :
    Kept (storing x.cr es) ((storing (redCounted x x.cr) es).advance m n e) none2 none1 none1 := by
  refine Kept.advance ?_ m n e
  rw [redCounted_eq]
  exact ⟨fun _ _ _ _ => ⟨rfl, rfl⟩, fun _ _ => rfl, fun _ _ => rfl, rfl⟩

theorem advanced_storing_redCounted (x : Cx) (es : List SpEntry) (e : Bool) :
    Advanced { x with cr := redCounted x x.cr } ((storing (redCounted x x.cr) es).advance x.lanes x.nextPc e) e :=
  advanced_advance (x := { x with cr := redCounted x x.cr }) (cr := storing (redCounted x x.cr) es) rfl
    ⟨rfl, rfl, rfl, rfl, rfl⟩ e

/-- The thread of an active lane once a `red` is counted (R63). -/
theorem thread_redCounted {x : Cx} {l : Nat} {t : Thread} (hc : x.cr.tallies = true) (ht : x.cr.thread? l = some t)
    (ha : x.act.getLsbD l = true) :
    (redCounted x x.cr).thread? l = some (t.tally (·.red) (fun c n => { c with red := n })) := by
  unfold redCounted Crew.tally
  rw [if_pos hc, Crew.thread_updThreads, ht, Option.map_some, if_pos ha]

/-! ## The Serial Phase Buffer (R68) -/

/-- What a lane's operation puts into the buffer. -/
def SpbOf (x : Cx) (f : FmtM) (a : LaneAcc) (e : SpbEntry) : Prop :=
  e.ltid = laneLtid x.cr a.lane ∧ e.ofs = a.va ∧ e.operand = BitVec.ofNat 64 (memData x f f.b a.lane) ∧
    e.aop = f.aop.toNat ∧ e.w = f.w.toNat

theorem spbAdd_spec (x : Cx) (f : FmtM) (as : List LaneAcc) (k : Block) : (spbAdd x f as k).acc = k.acc ∧
    (spbAdd x f as k).crews = k.crews ∧ ∃ new, (spbAdd x f as k).spb = k.spb ++ new ∧ new.length = as.length ∧
      ∀ e ∈ new, ∃ a ∈ as, SpbOf x f a e := by
  induction as generalizing k with
  | nil => exact ⟨rfl, rfl, [], (List.append_nil _).symm, rfl, fun e he => nomatch he⟩
  | cons a as ih =>
    let n := k.spbCount.getD (32 * x.c + a.lane) 0
    let e : SpbEntry := ⟨laneLtid x.cr a.lane, n, a.va, BitVec.ofNat 64 (memData x f f.b a.lane), f.aop.toNat, f.w.toNat⟩
    obtain ⟨h1, h2, new, h3, h4, h5⟩ := ih { k with
      spb := k.spb ++ [e], spbCount := k.spbCount.set (32 * x.c + a.lane) (n + 1) }
    refine ⟨h1, h2, e :: new, h3.trans (by simp), by simp [h4], List.forall_mem_cons.2 ⟨⟨a, List.mem_cons_self, rfl, rfl, rfl, rfl, rfl⟩,
      fun o ho => ?_⟩⟩
    obtain ⟨b, hb, ho⟩ := h5 o ho
    exact ⟨b, List.mem_cons_of_mem _ hb, ho⟩

end Sys2Proof.Machine

open Sys2Proof Sys2Proof.Machine Sys2Proof.Claims

/-- Settles O22: each instruction translates, which leaves memory, and then changes its crew; a `red` of the serial phase
also fills the block's buffer. -/
theorem memoryIssue : Obligations.MemoryIssue := by
  intro f s s1 x as
  simp only
  refine ⟨fun h hf ha => ?_, fun s2 ps h hf ha hl hfit => ?_, fun h ha hs hr => ?_, fun h ha hs hl => ?_, fun h ha hs =>
    ⟨fun hl hr => ?_, fun h10 hlev hsp hroom => ?_, fun l => redSkipped_iff x.cr l, fun l t ht hact hhand => ?_⟩⟩
  · have hleg : legalLd f = true := h.encoding
    simp only [legalLd, legalM, Bool.and_eq_true, decide_eq_true_eq] at hleg
    obtain ⟨⟨⟨⟨⟨⟨⟨⟨⟨⟨⟨hw, -⟩, -⟩, -⟩, -⟩, -⟩, -⟩, -⟩, hd⟩, -⟩, -⟩, -⟩ := hleg
    have ht : TlbOnly s s1 := h.state ▸ tlbOnly_accessLanes ha
    have hn : widthBytes f.w = 16 ↔ 4 ≤ f.w.toNat := by
      unfold widthBytes
      interval_cases f.w.toNat <;> simp
    have hr := runs_issueLoads h (s := s) rfl ht (ps := as.map (fun a => (a, widthBytes f.w, LoadConv.raw)))
      (by rw [memLanes_eq] at ha; simp only [hf, ha, Bool.false_eq_true, if_false]) hd
      (fun p hp => by
        obtain ⟨a, -, rfl⟩ := List.mem_map.1 hp
        exact hn)
    rwa [List.flatMap_map] at hr
  · have hleg : legalLd f = true := h.encoding
    simp only [legalLd, hf, Bool.not_true, Bool.false_or, Bool.and_eq_true, decide_eq_true_eq] at hleg
    obtain ⟨⟨⟨⟨-, hd⟩, -⟩, -⟩, ⟨-, hw⟩, hw3⟩ := hleg
    have hn8 : widthBytes f.w ≤ 8 := Nat.pow_le_pow_right (by decide) hw3
    obtain ⟨hp, ht⟩ := fmtPlans_of hl
    rw [memLanes_eq] at ha hp
    have hr := runs_issueLoads h (s := s) rfl (h.state ▸ ht) (ps := ps.map (fun p => (p.acc, p.n, p.conv)))
      (by simp only [hf, if_true, ha, hp, fmtTrap_none hfit]) hd
      (fun p hp => by
        obtain ⟨q, hq, rfl⟩ := List.mem_map.1 hp
        have := fmtLanes_short hn8 hl q hq
        dsimp only
        omega)
    rwa [List.flatMap_map] at hr
  · have ht : TlbOnly s s1 := h.state ▸ tlbOnly_accessLanes ha
    have hc1 : s1.crew? x.b x.c = some x.cr := (ht.crew _ _).trans h.crew
    have hg : (as.any (fun a => isRemote s1 a.place) && x.cr.checksDue) = false := by
      rcases hr with hr | hr <;> simp [hr]
    obtain ⟨t, h1, h2, h3⟩ := exec_setCrew h (s := s) rfl ht (cr := storing x.cr (relPart x f ++ as.flatMap (storeParts x f)))
      (by simp only [ha, hs, hg, Bool.false_eq_true, if_false, State.updCrew_of hc1]; rfl) rfl
    rw [show endsRegion (.st f) = false from rfl, Bool.or_false] at h3
    refine ⟨t, _, h1, h3, h2, advanced_advance (cr := storing x.cr _) rfl ⟨rfl, rfl, rfl, rfl, rfl⟩ _, ?_⟩
    rw [List.append_assoc]
    exact (Kept.refl (storing x.cr _)).advance _ _ _
  · have hleg : legalAtom f = true := h.encoding
    simp only [legalAtom, Bool.and_eq_true, decide_eq_true_eq] at hleg
    obtain ⟨⟨⟨-, hd⟩, -⟩, -⟩ := hleg
    have ht : TlbOnly s s1 := h.state ▸ tlbOnly_accessLanes ha
    have hc1 : s1.crew? x.b x.c = some x.cr := (ht.crew _ _).trans h.crew
    have hg : (atomFloat f && decide (1 ≤ x.g.level)) = false := by
      rcases hl with hl | hl <;> simp [atomFloat, hl]
    obtain ⟨t, h1, h2, h3⟩ := exec_setCrew h (s := s) (s1 := s1) (ends := false) rfl ht (cr := atomCrew x f as)
      (by
        rw [memLanes_eq] at ha
        simp only [ha, hs, hg, Bool.false_eq_true, if_false, State.updCrew_of hc1]
        refine congrArg (fun c => Res.done (s1.setCrew x.b x.c c) false) ?_
        by_cases ho : f.ord.getLsbD 0 = true
        · simp only [ho, if_true, atomCrew, List.append_assoc]
          rfl
        · simp only [ho, Bool.false_eq_true, if_false, atomCrew, List.append_assoc, List.append_nil]
          rfl) rfl
    refine ⟨t, _, h1, h3, advanced_advance (cr := atomCrew x f as) rfl ⟨rfl, rfl, rfl, rfl, rfl⟩ _, h2, ?_⟩
    have hk := (Kept.refl (atomCrew x f as)).advance x.lanes x.nextPc (endsRegion (.atom f) && !x.cr.inHandler)
    nth_rewrite 1 [atomCrew_eq x as hd] at hk
    exact hk
  · have hleg : legalRed f = true := h.encoding
    simp only [legalRed, Bool.and_eq_true, beq_iff_eq] at hleg
    obtain ⟨⟨⟨-, hd⟩, -⟩, -⟩ := hleg
    have hth : ∀ l, threadsOf x f.d l = 1#32 <<< l := fun l => by
      rw [hd]
      rfl
    have ht : TlbOnly s s1 := h.state ▸ tlbOnly_accessLanes ha
    have hc1 : s1.crew? x.b x.c = some x.cr := (ht.crew _ _).trans h.crew
    have hser : (atomFloat f && decide (1 ≤ x.g.level)) = false := by
      rcases hl with hl | hl <;> simp [atomFloat, hl]
    have hg : (as.any (fun a => isRemote s1 a.place) && x.cr.checksDue) = false := by
      rcases hr with hr | hr <;> simp [hr]
    obtain ⟨t, h1, h2, h3⟩ := exec_setCrew h (s := s) rfl ht (cr := storing (redCounted x x.cr) (relPart x f ++
        (as.filter (fun a => !redSkipped x.cr a.lane)).map (fun a => SpEntry.atomic (x.cr.seq + 1) a.place (widthBytes f.w)
          f.aop.toNat (BitVec.ofNat 64 (memData x f f.b a.lane)) 0 none a.va (1#32 <<< a.lane))))
      (by
        simp only [ha, hs, hser, hg, Bool.false_and, Bool.false_eq_true, if_false, State.updCrew_of hc1, redCounted_push,
          seq_redCounted_bump]
        rfl)
      (handler_redCounted x x.cr)
    rw [show endsRegion (.red f) = false from rfl, Bool.or_false] at h3
    refine ⟨t, _, h1, h3, h2, advanced_storing_redCounted _ _ _, ?_⟩
    simp only [hth, List.append_assoc]
    exact kept_storing_redCounted _ _ _ _ _
  · have ht : TlbOnly s s1 := h.state ▸ tlbOnly_accessLanes ha
    have hc1 : s1.crew? x.b x.c = some x.cr := (ht.crew _ _).trans h.crew
    have hser : (atomFloat f && decide (1 ≤ x.g.level)) = true := by simp [atomFloat, h10, hlev]
    have hs1 : (f.sp != 1) = false := by simp [hsp]
    have hfull : ¬ 2048 < x.blk.spb.length + (as.filter (fun a => !redSkipped x.cr a.lane)).length := Nat.not_lt.2 hroom
    let live := as.filter (fun a => !redSkipped x.cr a.lane)
    let s2 := s1.updBlock x.b (spbAdd x f live)
    have hc2 : s2.crew? x.b x.c = some x.cr :=
      (State.crew_updBlock _ _ _ _ _ fun k => (spbAdd_spec x f live k).2.1).trans hc1
    have hk2 : s2.block? x.b = some (spbAdd x f live x.blk) := State.block_updBlock ((ht.block _).trans h.block) _
    have hb2 : SameBytes s s2 := ht.bytes.trans (sameBytes_updBlock _ _ _ fun k => (spbAdd_spec x f live k).1)
    let cr := storing (redCounted x x.cr) (relPart x f)
    have he : (s2.setCrew x.b x.c cr).crew? x.b x.c = some cr := State.crew_setCrew hc2 cr
    have hx := exec_done h (s := s) (ends := false) rfl (by
      simp only [ha, hs, hser, hs1, hfull, Bool.and_false, decide_false, Bool.false_eq_true, if_false, if_true]
      rw [State.updCrew_of hc2, redCounted_push, seq_redCounted_bump]
      rfl) he
    have hin : cr.inHandler = x.cr.inHandler := congrArg Option.isSome (handler_redCounted x x.cr)
    rw [hin, show endsRegion (.red f) = false from rfl, Bool.or_false] at hx
    obtain ⟨-, -, new, hnew, hlen, hof⟩ := spbAdd_spec x f live x.blk
    exact ⟨_, _, hx, State.crew_setCrew he _, (hb2.trans (sameBytes_setCrew _ _ _ _)).trans (sameBytes_setCrew _ _ _ _),
      advanced_storing_redCounted _ _ _, kept_storing_redCounted _ _ _ _ _, _,
      State.block_setCrew (State.block_setCrew hk2 _ _) _ _, new, hnew, hlen, hof⟩
  · have h1 := thread_redCounted ((tallies_iff _).2 hhand) ht hact
    refine ⟨_, h1, fun h0 => ?_, fun h0 => ?_⟩
    · simp [Thread.tally, h0]
    · simp [Thread.tally, h0]
end

section
/-! PROOFS. Pending loads and returned results as they are performed (R15, R55, R92, R246, R249): O24. -/

namespace Sys2Proof.Machine

open Sys2Proof Sys2Proof.Claims

/-! ## A result that is delivered (R15) -/

namespace Crew

/-- Does register `r` still wait for `d`'s producer? -/
def awaits (c : Crew) (d : Dest) (r : Nat) : Prop :=
  c.empty.find? (key r d.lane) = some d.tag ∨ c.locks.contains ⟨0, r, d.tag⟩ = true

/-- The checkpoint of a thread whose register `r` takes `x`. -/
def headTakes (c : Crew) (d : Dest) (r : Nat) (x : Word) (t : Thread) : Thread :=
  { t with head := if c.locks.contains ⟨0, r, d.tag⟩ then t.head.takes (key r d.lane) d.tag x
                   else t.head.filled (key r d.lane) d.tag x }

/-- One register of a delivery. -/
def deliverReg (d : Dest) (x : Nat) (c : Crew) (i : Nat) : Crew :=
  let r := d.reg + i
  let x := BitVec.ofNat 32 (x / 2 ^ (32 * i))
  let held := c.locks.contains ⟨0, r, d.tag⟩
  let c := c.updThread d.lane (headTakes c d r x)
  if c.empty.find? (key r d.lane) == some d.tag || held then c.setV r d.lane x else c

theorem deliver_vec {c : Crew} {d : Dest} {x : Nat} (hv : d.vec = true) : c.deliver d x =
    if (c.threads.find? d.lane).all (·.exited) then c else (List.range d.n).foldl (deliverReg d x) c := by
  unfold deliver
  rw [if_pos hv]
  rfl

theorem deliver_uniform {c : Crew} {d : Dest} {x : Nat} (hv : d.vec = false) : c.deliver d x =
    if c.locks.contains ⟨1, d.reg, d.tag⟩ then
      (if d.tag ≤ c.ckSeq then { c with ckS := c.ckS.set d.reg (BitVec.ofNat 64 x) } else c).setS d.reg (BitVec.ofNat 64 x)
    else c := by
  unfold deliver
  rw [if_neg (by simp [hv])]

/-- What a delivery leaves of a crew: what it is still to perform, and its interlocks. -/
def SameQueues (c c' : Crew) : Prop :=
  c'.loads = c.loads ∧ c'.storePath = c.storePath ∧ c'.returns = c.returns ∧ c'.locks = c.locks

theorem SameQueues.trans {a b c : Crew} (h : SameQueues a b) (h' : SameQueues b c) : SameQueues a c := by
  obtain ⟨h1, h2, h3, h4⟩ := h
  obtain ⟨k1, k2, k3, k4⟩ := h'
  exact ⟨k1.trans h1, k2.trans h2, k3.trans h3, k4.trans h4⟩

theorem updThread_rest (c : Crew) (l : Nat) (f : Thread → Thread) : ∃ ths, c.updThread l f = { c with threads := ths } := by
  unfold updThread
  split
  · exact ⟨_, rfl⟩
  · exact ⟨c.threads, rfl⟩

theorem deliverReg_eq (d : Dest) (x : Nat) (c : Crew) (i : Nat) : ∃ ths : NMap Thread, deliverReg d x c i =
    if c.empty.find? (key (d.reg + i) d.lane) == some d.tag || c.locks.contains ⟨0, d.reg + i, d.tag⟩ then
      ({ c with threads := ths } : Crew).setV (d.reg + i) d.lane (BitVec.ofNat 32 (x / 2 ^ (32 * i)))
    else { c with threads := ths } := by
  obtain ⟨ths, h⟩ := updThread_rest c d.lane (headTakes c d (d.reg + i) (BitVec.ofNat 32 (x / 2 ^ (32 * i))))
  refine ⟨ths, ?_⟩
  unfold deliverReg
  dsimp only
  rw [h]

theorem deliverReg_queues (d : Dest) (x : Nat) (c : Crew) (i : Nat) : SameQueues c (deliverReg d x c i) := by
  obtain ⟨ths, h⟩ := deliverReg_eq d x c i
  rw [h]
  split <;> exact ⟨rfl, rfl, rfl, rfl⟩

theorem foldl_deliverReg_queues (d : Dest) (x : Nat) (is : List Nat) (c : Crew) : SameQueues c (is.foldl (deliverReg d x) c) := by
  induction is generalizing c with
  | nil => exact ⟨rfl, rfl, rfl, rfl⟩
  | cons i is ih => exact (deliverReg_queues d x c i).trans (ih _)

theorem deliver_queues (c : Crew) (d : Dest) (x : Nat) : SameQueues c (c.deliver d x) := by
  cases hv : d.vec with
  | true =>
    rw [deliver_vec hv]
    split
    · exact ⟨rfl, rfl, rfl, rfl⟩
    · exact foldl_deliverReg_queues d x _ c
  | false =>
    rw [deliver_uniform hv]
    split
    · split <;> exact ⟨rfl, rfl, rfl, rfl⟩
    · exact ⟨rfl, rfl, rfl, rfl⟩

/-- A register of a lane is as before. -/
def SameReg (c c' : Crew) (k : Nat) : Prop := c'.v.find? k = c.v.find? k ∧ c'.vFill = c.vFill ∧ c'.empty.find? k = c.empty.find? k

theorem SameReg.trans {a b c : Crew} {k : Nat} (h : SameReg a b k) (h' : SameReg b c k) : SameReg a c k := by
  obtain ⟨h1, h2, h3⟩ := h
  obtain ⟨k1, k2, k3⟩ := h'
  exact ⟨k1.trans h1, k2.trans h2, k3.trans h3⟩

theorem SameReg.getV {c c' : Crew} {r l : Nat} (h : SameReg c c' (key r l)) : c'.getV r l = c.getV r l ∧ c'.isEmpty r l = c.isEmpty r l := by
  obtain ⟨h1, h2, h3⟩ := h
  exact ⟨by simp only [Crew.getV, h1, h2], by simp only [isEmpty, h3]⟩

theorem deliverReg_other {d : Dest} {x i k : Nat} (c : Crew) (h : k ≠ key (d.reg + i) d.lane) : SameReg c (deliverReg d x c i) k := by
  obtain ⟨ths, ht⟩ := deliverReg_eq d x c i
  rw [ht]
  split
  · exact ⟨NMap.find?_set_ne _ _ h, rfl, NMap.find?_erase_ne _ h⟩
  · exact ⟨rfl, rfl, rfl⟩

theorem deliverReg_self {d : Dest} {x i : Nat} {c : Crew} (h : c.awaits d (d.reg + i)) :
    (deliverReg d x c i).getV (d.reg + i) d.lane = BitVec.ofNat 32 (x / 2 ^ (32 * i)) ∧
      (deliverReg d x c i).isEmpty (d.reg + i) d.lane = false := by
  have hw : (c.empty.find? (key (d.reg + i) d.lane) == some d.tag || c.locks.contains ⟨0, d.reg + i, d.tag⟩) = true := by
    rw [Bool.or_eq_true, beq_iff_eq]
    exact h
  obtain ⟨ths, ht⟩ := deliverReg_eq d x c i
  rw [ht, if_pos hw]
  exact ⟨getV_setV _ _ _ _, isEmpty_setV _ _ _ _⟩

theorem foldl_deliverReg_other {d : Dest} {x k : Nat} {is : List Nat} (c : Crew) (h : ∀ i ∈ is, k ≠ key (d.reg + i) d.lane) :
    SameReg c (is.foldl (deliverReg d x) c) k := by
  induction is generalizing c with
  | nil => exact ⟨rfl, rfl, rfl⟩
  | cons i is ih =>
    obtain ⟨h0, h⟩ := List.forall_mem_cons.1 h
    exact (deliverReg_other c h0).trans (ih _ h)

theorem key_add_ne {d : Dest} {i j : Nat} (h : i ≠ j) : key (d.reg + i) d.lane ≠ key (d.reg + j) d.lane := by
  unfold key
  omega

theorem foldl_deliverReg_self {d : Dest} {x i : Nat} {is : List Nat} {c : Crew} (hn : is.Nodup) (hi : i ∈ is)
    (h : c.awaits d (d.reg + i)) :
    (is.foldl (deliverReg d x) c).getV (d.reg + i) d.lane = BitVec.ofNat 32 (x / 2 ^ (32 * i)) ∧
      (is.foldl (deliverReg d x) c).isEmpty (d.reg + i) d.lane = false := by
  induction is generalizing c with
  | nil => cases hi
  | cons j is ih =>
    obtain ⟨hj, hn⟩ := List.nodup_cons.1 hn
    rw [List.foldl_cons]
    by_cases hij : i = j
    · subst hij
      obtain ⟨h1, h2⟩ := (foldl_deliverReg_other (x := x) (deliverReg d x c i) fun m hm =>
        key_add_ne (d := d) (by rintro rfl; exact hj hm)).getV
      obtain ⟨h3, h4⟩ := deliverReg_self (x := x) h
      exact ⟨h1.trans h3, h2.trans h4⟩
    · refine ih hn ((List.mem_cons.1 hi).resolve_left hij) ?_
      obtain ⟨-, -, he⟩ := deliverReg_other (x := x) c (key_add_ne (d := d) hij)
      obtain ⟨-, -, -, hl⟩ := deliverReg_queues d x c j
      unfold awaits
      rw [he, hl]
      exact h

/-- A delivery is what R15 says. -/
theorem deliver_delivered (c : Crew) (d : Dest) (x : Nat) : Delivered c (c.deliver d x) d x := by
  cases hv : d.vec with
  | false =>
    refine ⟨fun _ hl => ?_, fun h => absurd h (by simp [hv]), fun _ r l _ _ => ?_⟩
    · rw [deliver_uniform hv, if_pos hl]
      exact getS_setS _ _ _
    · rw [deliver_uniform hv]
      split
      · split <;> exact ⟨rfl, rfl⟩
      · exact ⟨rfl, rfl⟩
  | true =>
    refine ⟨fun h => absurd h (by simp [hv]), fun _ _ ⟨th, hth, hex⟩ i hi hw => ?_, fun hd r l hl hno => ?_⟩
    · rw [deliver_vec hv, if_neg (by simp [hth, hex])]
      exact foldl_deliverReg_self List.nodup_range (List.mem_range.2 hi) hw
    · rw [deliver_vec hv]
      split
      · exact ⟨rfl, rfl⟩
      · refine (foldl_deliverReg_other c fun i hi he => ?_).getV
        obtain ⟨hr, hll⟩ := (key_inj hl hd).1 he
        have := List.mem_range.1 hi
        exact hno ⟨hv, hll, by omega, by omega⟩

end Crew

/-- Interlocks that end leave what was delivered. -/
theorem delivered_unlock {old new : Crew} {d : Dest} {v : Nat} (h : Delivered old new d v) (tag : Nat) :
    Delivered old (new.unlock tag) d v := h

/-! ## Read Copies that a load allocates (R55, R48; log 18) -/

theorem find_foldl_set {α : Type} (f : Nat → α) (ws : List Nat) (m : NMap α) (k : Nat) :
    (ws.foldl (fun m w => m.set w (f w)) m).find? k = if k ∈ ws then some (f k) else m.find? k := by
  induction ws generalizing m with
  | nil => simp
  | cons w ws ih =>
    rw [List.foldl_cons, ih, NMap.find?_set]
    by_cases h : k ∈ ws <;> by_cases hk : k = w <;> simp [h, hk]

/-- The words whose copies are taken anew. -/
def freshWords (s : State) (l1 : Nat) (ws : List Nat) (bytes : Nat) : List Nat :=
  ws.filter (fun w => tornLoad (fun w => ((s.copies.getD l1 []).find? w).getD (copyNow s.mem s.pairs w)) bytes ws ||
    ((s.copies.getD l1 []).find? w).isNone)

theorem allocCopies_eq (s : State) (l1 : Nat) (ws : List Nat) (bytes : Nat) :
    allocCopies s l1 ws bytes = { s with copies := (allocCopies s l1 ws bytes).copies } := by
  unfold allocCopies
  simp only
  split <;> rfl

theorem find_allocCopies (s : State) (l1 : Nat) (ws : List Nat) (bytes w : Nat) :
    ((allocCopies s l1 ws bytes).copies.getD l1 []).find? w =
      if w ∈ freshWords s l1 ws bytes then some (copyNow s.mem s.pairs w) else (s.copies.getD l1 []).find? w := by
  unfold allocCopies
  simp only
  split
  · rename_i h
    rw [if_neg (by rw [freshWords, h]; exact List.not_mem_nil)]
  · exact (congrArg (NMap.find? · w) (NMap.getD_set_self _ _ _ _)).trans (find_foldl_set _ _ _ _)

theorem find_allocCopies_other (s : State) {l l1 : Nat} (ws : List Nat) (bytes : Nat) (h : l ≠ l1) :
    (allocCopies s l1 ws bytes).copies.find? l = s.copies.find? l := by
  unfold allocCopies
  simp only
  split
  · rfl
  · exact NMap.find?_set_ne _ _ h

/-! ## The bytes of a pair that a load takes (R48) -/

/-- Byte `y` of global memory is one of the `n` from `a` that do not come from the crew's own stores. -/
def Took (a n : Nat) (own : Nat → Option Byte) (y : Nat) : Prop := ∃ i < n, own i = none ∧ y = a + i

/-- The words of the bytes taken. -/
def tookWords (a n : Nat) (own : Nat → Option Byte) : List Nat :=
  (wordsOf a n).filter (fun w => ((List.range n).filter (fun i => (own i).isNone)).any (fun i => (a + i) / 4 == w))

/-- The bytes taken, as bits of their pair. -/
def tookBits (a n : Nat) (own : Nat → Option Byte) : Nat := (((List.range n).filter (fun i => (own i).isNone)).map (fun i => 2 ^ ((a + i) % 8))).sum

theorem mem_wordsOf {a n w : Nat} : w ∈ wordsOf a n ↔ a / 4 ≤ w ∧ w < (a + n + 3) / 4 := by
  simp only [wordsOf, List.mem_map, List.mem_range]
  constructor
  · rintro ⟨i, hi, rfl⟩
    omega
  · rintro ⟨h1, h2⟩
    exact ⟨w - a / 4, by omega, by omega⟩

theorem mem_tookWords {a n w : Nat} {own : Nat → Option Byte} : w ∈ tookWords a n own ↔ ∃ y, Took a n own y ∧ y / 4 = w := by
  simp only [tookWords, List.mem_filter, mem_wordsOf, List.any_eq_true, List.mem_range, beq_iff_eq, Took, Option.isNone_iff_eq_none]
  constructor
  · rintro ⟨-, i, ⟨hi, hp⟩, hw⟩
    exact ⟨a + i, ⟨i, hi, hp, rfl⟩, hw⟩
  · rintro ⟨_, ⟨i, hi, hp, rfl⟩, rfl⟩
    exact ⟨by omega, i, ⟨hi, hp⟩, rfl⟩

/-- Naturally aligned bytes lie in one pair. -/
theorem aligned_pair {a n i : Nat} (hn : n ∣ 8) (ha : a % n = 0) (hi : i < n) : (a + i) / 8 = a / 8 ∧ (a + i) % 8 = a % 8 + i := by
  have h8 : n ≤ 8 := Nat.le_of_dvd (by decide) hn
  interval_cases n <;> omega

theorem testBit_tookBits {a n j : Nat} {own : Nat → Option Byte} (hn : n ∣ 8) (ha : a % n = 0) :
    (tookBits a n own).testBit j = true ↔ ∃ y, Took a n own y ∧ y % 8 = j := by
  have hL : ((List.range n).filter (fun i => (own i).isNone)).map (fun i => 2 ^ ((a + i) % 8)) = (((List.range n).filter (fun i => (own i).isNone)).map (a % 8 + ·)).map (2 ^ ·) := by
    rw [List.map_map]
    refine List.map_congr_left fun i hi => ?_
    rw [(aligned_pair hn ha (List.mem_range.1 (List.mem_filter.1 hi).1)).2]
    rfl
  have hs : (((List.range n).filter (fun i => (own i).isNone)).map (a % 8 + ·)).SortedLT :=
    (List.Pairwise.map (a % 8 + ·) (fun _ _ h => Nat.add_lt_add_left h _) (List.pairwise_lt_range.filter _)).sortedLT
  rw [tookBits, hL, ← Nat.mem_bitIndices, Nat.bitIndices_sum_map_two_pow hs]
  simp only [List.mem_map, List.mem_filter, List.mem_range, Took, Option.isNone_iff_eq_none]
  constructor
  · rintro ⟨i, ⟨hi, hp⟩, rfl⟩
    exact ⟨a + i, ⟨i, hi, hp, rfl⟩, (aligned_pair hn ha hi).2⟩
  · rintro ⟨_, ⟨i, hi, hp, rfl⟩, rfl⟩
    exact ⟨i, ⟨hi, hp⟩, (aligned_pair hn ha hi).2.symm⟩

theorem testBit_nibble {b j : Nat} (hb : b < 2) (hj : j < 8) : (15 * 16 ^ b).testBit j = decide (j / 4 = b) :=
  (by decide : ∀ b < 2, ∀ j < 8, (15 * 16 ^ b).testBit j = decide (j / 4 = b)) b hb j hj

theorem ne_zero_iff_testBit {n : Nat} : n ≠ 0 ↔ ∃ j, n.testBit j = true := by
  constructor
  · intro h
    by_contra hno
    exact h (Nat.zero_of_testBit_eq_false fun i => Bool.eq_false_iff.2 fun hi => hno ⟨i, hi⟩)
  · rintro ⟨j, hj⟩ rfl
    simp at hj

/-- The bytes taken of one word that its pair's last store has written. -/
theorem last_and_took {a n w last : Nat} {own : Nat → Option Byte} (hn : n ∣ 8) (ha : a % n = 0) (hw : w ∈ tookWords a n own) :
    last &&& tookBits a n own &&& (15 * 16 ^ (w % 2)) ≠ 0 ↔ ∃ y, Took a n own y ∧ y / 4 = w ∧ last.testBit (y % 8) = true := by
  obtain ⟨_, ⟨i', hi', -, rfl⟩, hw⟩ := mem_tookWords.1 hw
  have hp' := (aligned_pair hn ha hi').1
  have h2 : w % 2 < 2 := Nat.mod_lt _ (by decide)
  simp only [ne_zero_iff_testBit, Nat.testBit_and, Bool.and_eq_true, testBit_tookBits hn ha]
  constructor
  · rintro ⟨j, ⟨hl, y, hy, rfl⟩, hm⟩
    rw [testBit_nibble h2 (Nat.mod_lt _ (by decide)), decide_eq_true_eq] at hm
    refine ⟨y, hy, ?_, hl⟩
    obtain ⟨i, hi, -, rfl⟩ := hy
    have hp := (aligned_pair hn ha hi).1
    omega
  · rintro ⟨y, hy, hyw, hl⟩
    refine ⟨y % 8, ⟨hl, y, hy, rfl⟩, ?_⟩
    rw [testBit_nibble h2 (Nat.mod_lt _ (by decide)), decide_eq_true_eq]
    omega

/-- Would the words held tear an 8-byte store? -/
def Torn (a n : Nat) (own : Nat → Option Byte) (held : Nat → ReadCopy) : Prop :=
  ∃ y z, Took a n own y ∧ Took a n own z ∧ (held (y / 4)).pair.count < (held (z / 4)).pair.count ∧
    (held (z / 4)).pair.last.testBit (z % 8) = true

theorem tornLoad_iff {a n : Nat} {own : Nat → Option Byte} (held : Nat → ReadCopy) (hn : n ∣ 8) (ha : a % n = 0) :
    tornLoad held (tookBits a n own) (tookWords a n own) = true ↔ Torn a n own held := by
  simp only [tornLoad, List.any_eq_true, Bool.and_eq_true, decide_eq_true_eq, bne_iff_ne, Torn]
  constructor
  · rintro ⟨v, hv, w, hw, hc, hl⟩
    obtain ⟨y, hy, rfl⟩ := mem_tookWords.1 hv
    obtain ⟨z, hz, rfl, hzl⟩ := (last_and_took hn ha hw).1 hl
    exact ⟨y, z, hy, hz, hc, hzl⟩
  · rintro ⟨y, z, hy, hz, hc, hl⟩
    exact ⟨_, mem_tookWords.2 ⟨y, hy, rfl⟩, _, mem_tookWords.2 ⟨z, hz, rfl⟩, hc,
      (last_and_took hn ha (mem_tookWords.2 ⟨z, hz, rfl⟩)).2 ⟨z, hz, rfl, hl⟩⟩

/-! ## The bytes of a load (R55) -/

theorem loadBytes_local (u : State) (core : Nat) (cr : Crew) (seq n pol : Nat) {p : Place} (h : ∀ a, p ≠ .g a) :
    loadBytes u core cr seq p n pol =
      ((List.range n).map (fun i => (ownByte cr seq (p.add i)).getD ((readPlace u (p.add i) 1).headD 0)), u) := by
  cases p with
  | g a => exact absurd rfl (h a)
  | sp c a => rfl
  | acc b a => rfl

theorem loadBytes_uncached (u : State) (core : Nat) (cr : Crew) (seq a n : Nat) {pol : Nat} (h : pol ≠ 0) :
    loadBytes u core cr seq (.g a) n pol =
      ((List.range n).map (fun i => (ownByte cr seq (.g (a + i))).getD (u.mem.read1 (a + i))), u) := by
  unfold loadBytes
  simp only [h, ne_eq, not_false_eq_true, if_true]
  rfl

/-- What a load's bytes take from the crew's own stores. -/
def ownBytes (cr : Crew) (seq a i : Nat) : Option Byte := ownByte cr seq (.g (a + i))

theorem loadBytes_cached (u : State) (core : Nat) (cr : Crew) (seq a n : Nat) : loadBytes u core cr seq (.g a) n 0 =
    ((List.range n).map (fun i => (ownByte cr seq (.g (a + i))).getD
        (copyByte (allocCopies u (l1Of u core) (tookWords a n (ownBytes cr seq a)) (tookBits a n (ownBytes cr seq a)))
          (l1Of u core) (a + i))),
      allocCopies u (l1Of u core) (tookWords a n (ownBytes cr seq a)) (tookBits a n (ownBytes cr seq a))) := rfl

theorem readPlace_one (s : State) (p : Place) : readPlace s p 1 = [(readPlace s p 1).headD 0] := by
  cases p with
  | g a => rfl
  | sp c a => rfl
  | acc b a =>
    simp only [readPlace]
    split <;> rfl

theorem getElem_range_map {α : Type} {f : Nat → α} {n i : Nat} {v : α} (h : ((List.range n).map f)[i]? = some v) : i < n ∧ f i = v := by
  obtain ⟨hi, hv⟩ := List.getElem?_eq_some_iff.1 h
  rw [List.length_map, List.length_range] at hi
  exact ⟨hi, by simpa using hv⟩

/-- Bytes that come from a list over the crew's own stores. -/
theorem own_of_range {f : Nat → Byte} {own : Nat → Option Byte} {n : Nat} :
    ((List.range n).map (fun i => (own i).getD (f i))).length = n ∧
      (∀ i v, i < n → own i = some v → ((List.range n).map (fun i => (own i).getD (f i)))[i]? = some v) ∧
      (∀ i v, own i = none → ((List.range n).map (fun i => (own i).getD (f i)))[i]? = some v → i < n ∧ f i = v) := by
  refine ⟨by simp, fun i v hi ho => by simp [hi, ho], fun i v ho h => ?_⟩
  obtain ⟨hi, hv⟩ := getElem_range_map h
  exact ⟨hi, by rw [← hv, ho]; rfl⟩

/-- The Read Copy that an L1 holds of a word, or the home's. -/
def heldCopy (u : State) (l1 w : Nat) : ReadCopy := ((u.copies.getD l1 []).find? w).getD (copyNow u.mem u.pairs w)

/-- The copy from which a load takes a word's bytes (R48, R55; log 18). -/
def usedCopy (u : State) (l1 a n : Nat) (own : Nat → Option Byte) (w : Nat) : ReadCopy :=
  if tornLoad (heldCopy u l1) (tookBits a n own) (tookWords a n own) then copyNow u.mem u.pairs w else heldCopy u l1 w

theorem mem_freshWords {u : State} {l1 a n w : Nat} {own : Nat → Option Byte} (hn : n ∣ 8) (ha : a % n = 0) :
    w ∈ freshWords u l1 (tookWords a n own) (tookBits a n own) ↔
      w ∈ tookWords a n own ∧ (Torn a n own (heldCopy u l1) ∨ (u.copies.getD l1 []).find? w = none) := by
  rw [freshWords, List.mem_filter, Bool.or_eq_true, Option.isNone_iff_eq_none, ← tornLoad_iff _ hn ha]
  rfl

theorem usedCopy_spec {u : State} {l1 a n : Nat} {own : Nat → Option Byte} (hn : n ∣ 8) (ha : a % n = 0) (w : Nat) :
    (Torn a n own (heldCopy u l1) → usedCopy u l1 a n own w = copyNow u.mem u.pairs w) ∧
      (¬Torn a n own (heldCopy u l1) → usedCopy u l1 a n own w = heldCopy u l1 w) := by
  rw [← tornLoad_iff _ hn ha]
  exact ⟨fun h => if_pos h, fun h => if_neg h⟩

theorem copies_took (u : State) (l1 : Nat) {a n y : Nat} {own : Nat → Option Byte} (hn : n ∣ 8) (ha : a % n = 0) (hy : Took a n own y) :
    ((allocCopies u l1 (tookWords a n own) (tookBits a n own)).copies.getD l1 []).find? (y / 4) = some (usedCopy u l1 a n own (y / 4)) := by
  have hw : y / 4 ∈ tookWords a n own := mem_tookWords.2 ⟨y, hy, rfl⟩
  obtain ⟨h1, h2⟩ := usedCopy_spec (u := u) (l1 := l1) (own := own) hn ha (y / 4)
  have hm : y / 4 ∈ freshWords u l1 (tookWords a n own) (tookBits a n own) ↔
      Torn a n own (heldCopy u l1) ∨ (u.copies.getD l1 []).find? (y / 4) = none :=
    (mem_freshWords hn ha).trans (and_iff_right hw)
  rw [find_allocCopies]
  by_cases ht : Torn a n own (heldCopy u l1)
  · rw [if_pos (hm.2 (.inl ht)), h1 ht]
  · rw [h2 ht, heldCopy]
    cases hf : (u.copies.getD l1 []).find? (y / 4) with
    | none => rw [if_pos (hm.2 (.inr hf)), Option.getD_none]
    | some r => rw [if_neg (fun h => (hm.1 h).elim ht (by simp [hf])), Option.getD_some]

theorem copies_untook (u : State) (l1 : Nat) {a n w : Nat} {own : Nat → Option Byte} (h : ∀ y, Took a n own y → y / 4 ≠ w) :
    ((allocCopies u l1 (tookWords a n own) (tookBits a n own)).copies.getD l1 []).find? w = (u.copies.getD l1 []).find? w := by
  rw [find_allocCopies, if_neg]
  intro hm
  obtain ⟨y, hy, hw⟩ := mem_tookWords.1 (List.mem_filter.1 hm).1
  exact h y hy hw

/-- A load's bytes and the Read Copies that it leaves are what R55 says. -/
theorem bytesGot_loadBytes (s : State) (k : Block) (cr : Crew) (seq pol n : Nat) (p : Place) (ms : NMap (NMap ReadCopy))
    (hn : naturally n p) : ∃ data ms', loadBytes { s with copies := ms } k.core cr seq p n pol = (data, { s with copies := ms' }) ∧
      BytesGot s k cr seq pol p n ms ms' data := by
  obtain ⟨hn, ha⟩ := hn
  by_cases hp : ∀ a, p ≠ .g a
  · obtain ⟨h1, h2, h3⟩ := own_of_range (f := fun i => (readPlace s (p.add i) 1).headD 0) (own := fun i => ownByte cr seq (p.add i)) (n := n)
    refine ⟨_, ms, loadBytes_local _ _ _ _ _ _ hp, h1, h2, fun _ => ⟨rfl, fun i v ho hv => ?_⟩, fun a _ h => absurd h (hp a)⟩
    rw [readPlace_one, (h3 i v ho hv).2]
  · obtain ⟨a, rfl⟩ := not_forall_not.1 hp
    by_cases h0 : pol = 0
    · subst h0
      let t := allocCopies { s with copies := ms } (l1Of s k.core) (tookWords a n (ownBytes cr seq a)) (tookBits a n (ownBytes cr seq a))
      obtain ⟨h1, h2, h3⟩ := own_of_range (f := fun i => copyByte t (l1Of s k.core) (a + i)) (own := fun i => ownByte cr seq (.g (a + i)))
        (n := n)
      refine ⟨_, t.copies, (loadBytes_cached _ _ _ _ _ _).trans (Prod.ext rfl (allocCopies_eq _ _ _ _)), h1, h2,
        fun h => absurd h (by simp), fun b _ hb => ?_⟩
      obtain rfl : a = b := Place.g.inj hb
      have hc := fun y hy => copies_took { s with copies := ms } (l1Of s k.core) hn (ha a rfl) (own := ownBytes cr seq a) (y := y) hy
      refine ⟨usedCopy { s with copies := ms } (l1Of s k.core) a n (ownBytes cr seq a), usedCopy_spec (u := { s with copies := ms }) (l1 := l1Of s k.core)
        (own := ownBytes cr seq a) hn (ha a rfl),
        fun i v ho hv => ?_, hc, fun w hw => copies_untook _ _ hw, fun l hl => find_allocCopies_other _ _ _ hl⟩
      obtain ⟨hi, hv⟩ := h3 i v ho hv
      rw [← hv]
      unfold copyByte
      rw [hc _ ⟨i, hi, ho, rfl⟩]
    · obtain ⟨h1, h2, h3⟩ := own_of_range (f := fun i => s.mem.read1 (a + i)) (own := fun i => ownByte cr seq (.g (a + i))) (n := n)
      refine ⟨_, ms, loadBytes_uncached _ _ _ _ _ _ h0, h1, h2, fun _ => ⟨rfl, fun i v ho hv => ?_⟩, fun a h => absurd h h0⟩
      exact congrArg (fun b => [b]) (h3 i v ho hv).2

/-! ## What holds a load back (R55, R61, R246) -/

theorem rangesOf_eq (l : Load) : rangesOf l = l.ranges := by
  unfold rangesOf Load.ranges
  split <;> simp_all

theorem reads_iff {l : Load} {p : Place} {n : Nat} : l.reads p n = true ↔ ∃ r ∈ rangesOf l, r.1.meets r.2 p n = true := by
  rw [rangesOf_eq, Load.reads, List.any_eq_true]

theorem lowerHalf_iff {o l : Load} : o.lowerHalf l = true ↔ o.seq = l.seq ∧ o.dest.lane = l.dest.lane ∧ o.dest.reg < l.dest.reg := by
  simp only [Load.lowerHalf, Bool.and_eq_true, beq_iff_eq, decide_eq_true_eq, and_assoc]

/-- Does a load wait for this entry of the Store Path? -/
def entryHolds (l : Load) : SpEntry → Bool
  | .atomic seq p n _ _ _ _ _ lanes => decide (seq < l.seq) && l.lanes &&& lanes != 0 && l.reads p n
  | _ => false

theorem entryHolds_iff {l : Load} {sp : List SpEntry} : sp.any (entryHolds l) = true ↔
    ∃ seq p n aop vb vc d va ths, .atomic seq p n aop vb vc d va ths ∈ sp ∧ seq < l.seq ∧ l.lanes &&& ths ≠ 0 ∧
      ∃ r ∈ rangesOf l, r.1.meets r.2 p n = true := by
  rw [List.any_eq_true]
  constructor
  · rintro ⟨e, he, h⟩
    cases e with
    | atomic seq p n aop vb vc d va ths =>
      simp only [entryHolds, Bool.and_eq_true, decide_eq_true_eq, bne_iff_ne, reads_iff, and_assoc] at h
      exact ⟨seq, p, n, aop, vb, vc, d, va, ths, he, h⟩
    | store => cases h
    | marker => cases h
  · rintro ⟨seq, p, n, aop, vb, vc, d, va, ths, he, h⟩
    refine ⟨_, he, ?_⟩
    simp only [entryHolds, Bool.and_eq_true, decide_eq_true_eq, bne_iff_ne, reads_iff, and_assoc]
    exact h

theorem loadReady_eq (cr : Crew) (l : Load) : loadReady cr l =
    (!(cr.loads.any (fun o => (decide (o.seq < l.seq) && o.ranges.any (fun r => l.reads r.1 r.2)) || o.lowerHalf l)) &&
      !(cr.acqs.any (fun a => decide (a.seq < l.seq))) && !(cr.storePath.any (entryHolds l))) := by
  have hseq : ∀ m n : Nat, decide (m ≤ n) = !decide (n < m) := fun _ _ => (decide_eq_decide.2 Nat.not_lt.symm).trans decide_not
  rw [loadReady, List.not_any_eq_all_not, List.not_any_eq_all_not, List.not_any_eq_all_not]
  congr 1
  · simp only [hseq, Bool.not_or, Bool.not_and]
  · refine congrArg cr.storePath.all (funext fun e => ?_)
    cases e with
    | atomic seq p n aop vb vc d va ths => simp [entryHolds, hseq, bne]
    | store => rfl
    | marker => rfl

theorem loadHeld_iff {cr : Crew} {l : Load} : LoadHeld cr l ↔ loadReady cr l = false := by
  have h1 : cr.loads.any (fun o => (decide (o.seq < l.seq) && o.ranges.any (fun r => l.reads r.1 r.2)) || o.lowerHalf l) = true ↔
      (∃ o ∈ cr.loads, o.seq < l.seq ∧ ∃ r ∈ rangesOf o, ∃ q ∈ rangesOf l, q.1.meets q.2 r.1 r.2 = true) ∨
      ∃ o ∈ cr.loads, o.seq = l.seq ∧ o.dest.lane = l.dest.lane ∧ o.dest.reg < l.dest.reg := by
    simp only [List.any_eq_true, Bool.or_eq_true, Bool.and_eq_true, decide_eq_true_eq, lowerHalf_iff, reads_iff, ← rangesOf_eq]
    rw [← exists_or]
    simp only [← and_or_left]
  have h2 : cr.acqs.any (fun a => decide (a.seq < l.seq)) = true ↔ ∃ a ∈ cr.acqs, a.seq < l.seq := by
    simp only [List.any_eq_true, decide_eq_true_eq]
  rw [loadReady_eq, ← Bool.not_eq_true', Bool.not_and, Bool.not_and, Bool.not_not, Bool.not_not, Bool.not_not, Bool.or_eq_true,
    Bool.or_eq_true, h1, h2, entryHolds_iff]
  simp only [LoadHeld, or_assoc]

/-! ## Where a load is performed (R353; log 69) -/

theorem blockCtx_of {s : State} {k : Block} {g : Grid} (h : s.grid? k.grid = some g) : blockCtx s k = g.ctx := by
  rw [blockCtx, h]
  rfl

theorem standingPlace_of_stands {s : State} {k : Block} {p q : Place} {va : Nat} {acc : Acc} (h : Stands s k p va acc q) :
    standingPlace s (blockCtx s k) p va acc = some q := by
  unfold standingPlace
  rcases h with ⟨h, rfl⟩ | ⟨h, g, a, e, lg, fm, hg, ht, rfl⟩
  · rw [if_neg (by simp [h])]
  · rw [if_pos h, blockCtx_of hg, ht]

theorem standingPlace_of_astray {s : State} {k : Block} {p : Place} {va : Nat} {acc : Acc} (h : Astray s k p va acc) :
    standingPlace s (blockCtx s k) p va acc = none := by
  obtain ⟨h, g, hg, ht⟩ := h
  unfold standingPlace
  rw [if_pos h, blockCtx_of hg]
  rcases ht with ht | ht <;> rw [ht]

/-- A conversion whose scale byte is read elsewhere. -/
def scaledAt (q' : Place) : LoadConv → LoadConv
  | .fmt e d (some (_, pol, va)) => .fmt e d (some (q', pol, va))
  | c => c

theorem standing_of_stands {s : State} {k : Block} {l : Load} {p' q' : Place} (h : Stands s k l.place l.va .read p')
    (hq : ∀ e d q pol va, l.conv = .fmt e d (some (q, pol, va)) → Stands s k q va .read q') :
    l.standing s (blockCtx s k) = .ok { l with place := p', conv := scaledAt q' l.conv } := by
  unfold Load.standing
  rw [standingPlace_of_stands h]
  obtain ⟨seq, place, n, pol, conv, dest, va, lanes⟩ := l
  cases conv with
  | raw => rfl
  | fmt e d sc =>
    cases sc with
    | none => rfl
    | some r =>
      obtain ⟨q, pol', va'⟩ := r
      simp only [standingPlace_of_stands (hq e d q pol' va' rfl)]
      rfl

theorem standing_of_astray {s : State} {k : Block} {l : Load} (h : Astray s k l.place l.va .read) :
    l.standing s (blockCtx s k) = .error l.va := by
  unfold Load.standing
  rw [standingPlace_of_astray h]

/-- An access that waits for its page holds the fault and is otherwise as before. -/
theorem waits_awaitPage {i : Instr} {s : State} {b c va acc : Nat} {cr : Crew} (hc : s.crew? b c = some cr)
    (hx : exec i s = .next (awaitPage s b c va acc)) : Waits i s b c cr va acc := by
  rw [awaitPage, State.updCrew_of hc] at hx
  refine ⟨_, _, hx, State.crew_setCrew hc _, sameBytes_setCrew _ _ _ _, ?_⟩
  split
  · rename_i h
    refine ⟨rfl, rfl, fun _ _ => ⟨rfl, rfl⟩, fun h1 h2 _ => ?_⟩
    simp [h1, h2] at h
  · split
    · rename_i h
      refine ⟨rfl, rfl, fun _ _ => ⟨rfl, rfl⟩, fun _ _ h3 => ?_⟩
      simp [Crew.inHandler, h3] at h
    · exact ⟨rfl, rfl, fun _ _ => ⟨rfl, rfl⟩, fun _ _ _ => ⟨_, rfl, rfl⟩⟩

/-! ## What a load's conversion makes of its code (R92, R249) -/

theorem leNat_lt (bs : List Byte) : leNat bs < 2 ^ (8 * bs.length) := by
  induction bs with
  | nil => decide
  | cons b bs ih =>
    have h : 2 ^ (8 * (b :: bs).length) = 256 * 2 ^ (8 * bs.length) := by
      rw [List.length_cons, Nat.mul_succ, Nat.pow_add, Nat.mul_comm]
    have hb : b.toNat < 256 := b.isLt
    rw [leNat, h]
    omega

theorem ieee_kinds {d : Fmt} (h : fmtIsIeee d = true) : fmtIsInt d = false ∧ fmtIsB8 d = false ∧ fmtIsFloat d = true := by
  cases d <;> simp_all [fmtIsIeee, fmtIsInt, fmtIsB8, fmtIsFloat]

theorem roundTo_ieee {d : Fmt} (h : fmtIsIeee d = true) (v : Num) : roundTo d 0 0 v false 0 = match v with
    | .nan sig => (fmtNan d, Flags.when sig Flags.invalid)
    | .inf neg => (withSign d neg (fmtInfMag d), 0)
    | .fin neg m e => roundIeee d 0 neg ⟨m, e, false⟩ 0 := by
  obtain ⟨h1, h2, -⟩ := ieee_kinds h
  unfold roundTo
  rw [h1, h2]
  rfl

theorem convIs_convert {d e : Fmt} {code : Nat} (hd : fmtIsIeee d = true) (hc : code < 2 ^ fmtBits e) :
    ConvIs d e 0 0 false code 0 (convert d e 0 0 code 0) := by
  obtain ⟨hint, -, hfl⟩ := ieee_kinds hd
  refine ⟨fun h => ?_, fun _ hde hn => ?_, fun _ h => ?_⟩
  · simp [hint] at h
  · subst hde
    unfold convert
    rw [if_pos ⟨rfl, hfl⟩]
    cases hv : numOf d code with
    | nan sig => simp [hv, Num.isNan] at hn
    | inf neg => rw [Nat.mod_eq_of_lt hc]
    | fin neg m x => rw [Nat.mod_eq_of_lt hc]
  · unfold convert
    split
    · rename_i hde
      obtain ⟨sig, hv⟩ : ∃ sig, numOf e code = .nan sig := by
        cases hv : numOf e code <;> simp_all [Num.isNan]
      rw [hv]
    · rfl

theorem scaledNum_scaled {e : Fmt} {code sc : Nat} (hsc : sc < 256) (h : sc ≠ 255) :
    scaledNum e code sc = (numOf e code).scale ((sc : Int) - 128) := by
  rw [scaledNum, scaleExp, Nat.mod_eq_of_lt hsc, if_neg h]

/-- The conversion of a load is what R92 and R249 say. -/
theorem loadGives_loadValue {conv : LoadConv} {data : List Byte} {sc : Byte} {q' : Place}
    (h : ∀ e d x, conv = .fmt e d x → fmtIsIeee d = true ∧ 8 * data.length = fmtBits e) :
    LoadGives conv (leNat data) sc.toNat (loadValue (scaledAt q' conv) data sc.toNat) := by
  refine ⟨?_, ?_, ?_⟩
  · rintro rfl
    rfl
  · rintro e d rfl
    obtain ⟨hd, hn⟩ := h e d none rfl
    exact ⟨_, convIs_convert hd (hn ▸ leNat_lt data)⟩
  · rintro e d ⟨q, pol, va⟩ rfl
    obtain ⟨hd, -⟩ := h e d _ rfl
    have hv : loadValue (scaledAt q' (.fmt e d (some (q, pol, va)))) data sc.toNat =
      (roundTo d 0 0 (scaledNum e (leNat data) sc.toNat) false 0).1 := rfl
    have hsc : sc.toNat < 256 := sc.isLt
    rw [hv]
    refine ⟨fun hn => ?_, fun hne n hi => ?_, fun hne y hy => ?_⟩
    · obtain ⟨sig, hs⟩ : ∃ sig, scaledNum e (leNat data) sc.toNat = .nan sig := by
        by_cases h255 : sc.toNat = 255
        · exact ⟨false, by rw [scaledNum, scaleExp, h255]; rfl⟩
        · rw [scaledNum_scaled hsc h255]
          have hn := hn.resolve_left h255
          cases hx : numOf e (leNat data) with
          | nan sig => exact ⟨sig, rfl⟩
          | inf neg => simp [hx, Num.isNan] at hn
          | fin neg m x => simp [hx, Num.isNan] at hn
      rw [hs, roundTo_ieee hd]
    · rw [scaledNum_scaled hsc hne, hi, roundTo_ieee hd]
      rfl
    · refine ⟨(numOf e (leNat data)).scale ((sc.toNat : Int) - 128), (roundTo d 0 0 (scaledNum e (leNat data) sc.toNat) false 0).2, ?_, ?_⟩
      · cases hx : numOf e (leNat data) with
        | nan sig => simp [hx, ratOf] at hy
        | inf neg => simp [hx, ratOf] at hy
        | fin neg m x =>
          rw [hx, ratOf, Option.some.injEq] at hy
          rw [Num.scale, ratOf, ← hy, zpow_add₀ two_ne_zero, ← mul_assoc]
      · rw [scaledNum_scaled hsc hne]

/-! ## A load that is performed -/

theorem foldl_hbmDone (rs : List (Place × Nat)) (s : State) :
    ∃ hs, rs.foldl (fun s r => hbmDone s r.1) s = { s with hbmRetry := hs } := by
  induction rs generalizing s with
  | nil => exact ⟨s.hbmRetry, rfl⟩
  | cons r rs ih =>
    obtain ⟨hs, h⟩ := ih (hbmDone s r.1)
    refine ⟨hs, ?_⟩
    rw [List.foldl_cons, h]
    cases r.1 <;> rfl

/-- The scale byte of a load, and the machine once it is read. -/
def scaleBytes (u : State) (core : Nat) (cr : Crew) (seq : Nat) (conv : LoadConv) : List Byte × State :=
  match conv with
  | .fmt _ _ (some (q, pol, _)) => loadBytes u core cr seq q 1 pol
  | _ => ([], u)

theorem scaleBytes_none {u : State} {core : Nat} {cr : Crew} {seq : Nat} {conv : LoadConv} {q' : Place}
    (h : ∀ e d q pol va, conv ≠ .fmt e d (some (q, pol, va))) : scaleBytes u core cr seq (scaledAt q' conv) = ([], u) := by
  cases conv with
  | raw => rfl
  | fmt e d sc =>
    cases sc with
    | none => rfl
    | some r => exact absurd rfl (h e d r.1 r.2.1 r.2.2)

theorem tryUnlock_spec {s : State} {b c : Nat} {cr : Crew} (seq : Nat) (h : s.crew? b c = some cr) :
    ∃ cr', (tryUnlock s b c seq).crew? b c = some cr' ∧ (cr' = cr ∨ cr' = cr.unlock seq) ∧
      SameBytes s (tryUnlock s b c seq) ∧ (tryUnlock s b c seq).copies = s.copies := by
  rw [tryUnlock, State.updCrew_of h]
  refine ⟨_, State.crew_setCrew h _, ?_, sameBytes_setCrew _ _ _ _, State.setCrew_copies _ _ _ _⟩
  split
  · exact .inr rfl
  · exact .inl rfl

/-- What performing a ready load `l` leaves, once its bytes are read as those of `l'`. -/
theorem exec_loadPerform {b c idx : Nat} {s : State} {k : Block} {cr : Crew} {l l' : Load} {data scale : List Byte}
    {ms ms' : NMap (NMap ReadCopy)} (hb : s.block? b = some k) (hc : s.crew? b c = some cr) (hl : cr.loads[idx]? = some l)
    (hr : loadReady cr l = true) (hs : l.standing s (blockCtx s k) = .ok l')
    (h1 : loadBytes s k.core cr l'.seq l'.place l'.n l'.pol = (data, { s with copies := ms }))
    (h2 : scaleBytes { s with copies := ms } k.core cr l'.seq l'.conv = (scale, { s with copies := ms' })) :
    ∃ t cr', exec (.loadPerform b c idx) s = .next t ∧ t.crew? b c = some cr' ∧ cr'.loads = cr.loads.eraseIdx idx ∧
      cr'.storePath = cr.storePath ∧ SameBytes s t ∧ t.copies = ms' ∧
      Delivered cr cr' l'.dest (loadValue l'.conv data (leNat scale)) := by
  let cr1 := ({ cr with loads := cr.loads.eraseIdx idx } : Crew).deliver l'.dest (loadValue l'.conv data (leNat scale))
  let u := ({ s with copies := ms' } : State).setCrew b c cr1
  have hx : exec (.loadPerform b c idx) s = .next (tryUnlock (l'.ranges.foldl (fun s r => hbmDone s r.1) u) b c l'.seq) := by
    change execLoadPerform b c idx s = _
    unfold execLoadPerform
    simp only [hb, hc, hl, hr, Bool.not_true, Bool.false_eq_true, if_false, hs, h1]
    let r := scaleBytes { s with copies := ms } k.core cr l'.seq l'.conv
    change Host.Outcome.next (tryUnlock (l'.ranges.foldl (fun s r => hbmDone s r.1) (r.2.setCrew b c
      (({ cr with loads := cr.loads.eraseIdx idx } : Crew).deliver l'.dest (loadValue l'.conv data (leNat r.1))))) b c l'.seq) = _
    rw [show r = (scale, { s with copies := ms' }) from h2]
  obtain ⟨hs', hf⟩ := foldl_hbmDone l'.ranges u
  have hu : u.crew? b c = some cr1 := State.crew_setCrew (s := { s with copies := ms' }) hc cr1
  obtain ⟨cr', hc', hcr', hbytes, hcop⟩ := tryUnlock_spec l'.seq (s := { u with hbmRetry := hs' }) (b := b) (c := c) hu
  rw [hf] at hx
  obtain ⟨hq1, hq2, -, -⟩ := Crew.deliver_queues { cr with loads := cr.loads.eraseIdx idx } l'.dest (loadValue l'.conv data (leNat scale))
  have hd : Delivered cr cr1 l'.dest (loadValue l'.conv data (leNat scale)) := Crew.deliver_delivered { cr with loads := cr.loads.eraseIdx idx } _ _
  have hsame : SameBytes s { u with hbmRetry := hs' } :=
    (sameBytes_of rfl (fun _ => rfl) fun _ => rfl : SameBytes s { s with copies := ms' }).trans
      ((sameBytes_setCrew _ _ _ _).trans (sameBytes_of rfl (fun _ => rfl) fun _ => rfl))
  refine ⟨_, cr', hx, hc', ?_, ?_, hsame.trans hbytes, hcop.trans (State.setCrew_copies _ _ _ _), ?_⟩
  · rcases hcr' with rfl | rfl <;> exact hq1
  · rcases hcr' with rfl | rfl <;> exact hq2
  · rcases hcr' with rfl | rfl
    · exact hd
    · exact delivered_unlock hd _

/-- A returned result that is delivered (R15; log 92). -/
theorem exec_return {b c i : Nat} {s : State} {k : Block} {cr : Crew} {r : Return} (hb : s.block? b = some k)
    (hc : s.crew? b c = some cr) (hr : cr.returns[i]? = some r) : ∃ t cr', exec (.loadPerform b c (cr.loads.length + i)) s = .next t ∧
      t.crew? b c = some cr' ∧ cr'.returns = cr.returns.eraseIdx i ∧ cr'.loads = cr.loads ∧ cr'.storePath = cr.storePath ∧
      SameBytes s t ∧ Delivered cr cr' r.dest r.val := by
  have hn : cr.loads[cr.loads.length + i]? = none := List.getElem?_eq_none (Nat.le_add_right _ _)
  have hx : exec (.loadPerform b c (cr.loads.length + i)) s =
      .next (s.setCrew b c (({ cr with returns := cr.returns.eraseIdx i } : Crew).deliver r.dest r.val)) := by
    change execLoadPerform b c (cr.loads.length + i) s = _
    unfold execLoadPerform
    simp only [hb, hc, hn, performReturn, State.updCrew_of hc, Nat.add_sub_cancel_left, hr]
  obtain ⟨h1, h2, h3, -⟩ := Crew.deliver_queues { cr with returns := cr.returns.eraseIdx i } r.dest r.val
  exact ⟨_, _, hx, State.crew_setCrew hc _, h3, h1, h2, sameBytes_setCrew _ _ _ _,
    Crew.deliver_delivered { cr with returns := cr.returns.eraseIdx i } _ _⟩

end Sys2Proof.Machine
open Sys2Proof Sys2Proof.Machine Sys2Proof.Claims

/-- Settles O24: `loadReady` is what holds a load back, its bytes are those of R55, and a delivery is R15's. -/
theorem loadPerform : Obligations.LoadPerform := by
  intro b c idx s k cr hb hc
  refine ⟨fun l hl hfmt => ⟨fun hh => ?_, fun hh ha => ?_, fun hh p' hp q' hq hn => ?_⟩, ?_⟩
  · change execLoadPerform b c idx s = _
    unfold execLoadPerform
    simp only [hb, hc, hl, loadHeld_iff.1 hh, Bool.not_false, if_true]
  · refine waits_awaitPage hc ?_
    change execLoadPerform b c idx s = _
    unfold execLoadPerform
    have hr : loadReady cr l = true := by rwa [loadHeld_iff, Bool.not_eq_false] at hh
    simp only [hb, hc, hl, hr, standing_of_astray ha, Bool.not_true, Bool.false_eq_true, if_false]
  · have hr : loadReady cr l = true := by rwa [loadHeld_iff, Bool.not_eq_false] at hh
    have hs := standing_of_stands hp hq
    obtain ⟨data, ms, h1, hd⟩ := bytesGot_loadBytes s k cr l.seq l.pol l.n p' s.copies hn
    have hlen : data.length = l.n := hd.1
    have hgives := fun sc : Byte => loadGives_loadValue (conv := l.conv) (data := data) (sc := sc) (q' := q')
      (fun e d x he => by rw [hlen]; exact hfmt e d x he)
    by_cases hsc : ∃ e d q pol va, l.conv = .fmt e d (some (q, pol, va))
    · obtain ⟨e, d, q, pol, va, hconv⟩ := hsc
      obtain ⟨bs, ms', h2, hd2⟩ := bytesGot_loadBytes s k cr l.seq pol 1 q' ms ⟨one_dvd _, fun _ _ => Nat.mod_one _⟩
      obtain ⟨sc, rfl⟩ := List.length_eq_one_iff.1 hd2.1
      obtain ⟨t, cr', hx, hc', hlo, hsp, hby, hco, hde⟩ := exec_loadPerform hb hc hl hr hs h1 (by rw [hconv]; exact h2)
      refine ⟨t, cr', data, sc, _, ms, hx, hc', hlo, hsp, hby, hd, fun e' d' q1 pol1 va1 h => ?_, fun h => (h _ _ _ _ _ hconv).elim, hgives sc, hde⟩
      rw [hconv] at h
      cases h
      exact hco ▸ hd2
    · have hno : ∀ e d q pol va, l.conv ≠ .fmt e d (some (q, pol, va)) := fun e d q pol va h => hsc ⟨e, d, q, pol, va, h⟩
      obtain ⟨t, cr', hx, hc', hlo, hsp, hby, hco, hde⟩ := exec_loadPerform hb hc hl hr hs h1 (scaleBytes_none hno)
      exact ⟨t, cr', data, 0, _, ms, hx, hc', hlo, hsp, hby, hd, fun e d q pol va h => (hno _ _ _ _ _ h).elim, fun _ => hco, hgives 0, hde⟩
  · rintro i r rfl hr
    exact exec_return hb hc hr
end

section
/-! PROOFS. Refutation of O47. -/

namespace Sys2Proof.Machine

open Sys2Proof

/-- A ladder of one tile and one slot. -/
def oneLadder : Ladder := { hdr := 0x20000, base := 0x30000, tsize := 0, t := 1, s := 1, opn := false }

/-- A crew whose table of threads names lane 0 twice: the entry that lookups find has exited, the second waits at `seal`. -/
def sealingCrew : Crew :=
  { Crew.at_ 0x10000 1 0 0 1 0 none with
    threads := [(0, { standing 0 none with exited := true }), (0, standing 0 (some .seal))] }

/-- The crew's block has passed 0 and has arrived at its `seal` with quality 5. -/
def commitState : State :=
  { sealState with
    grids := [(0, { probeGrid ⟨[], []⟩ with ladder := some oneLadder })]
    blocks := [(0, { Block.at_ 0 0 0 0 [] [(0, sealingCrew)] ⟨[], []⟩ with pass := some 0, sealQ := some 5 })] }

/-- The ladder's header can be read, and the launch has not been cut. -/
theorem readLadder_commitState :
    ∃ h e s1, readLadder commitState 0 0x20000 0 = .ok (h, e, s1) ∧ h.cut = false := by
  have hr : (readLadder commitState 0 0x20000 0).toOption.map (·.1.cut) = some false := by decide +kernel
  cases h : readLadder commitState 0 0x20000 0 with
  | error _ => rw [h] at hr; cases hr
  | ok r => rw [h] at hr; exact ⟨_, _, _, rfl, Option.some.inj hr⟩

end Sys2Proof.Machine

open Sys2Proof Sys2Proof.Machine Sys2Proof.Claims

/-- Refutes O47. SEAL_COMMIT lets the threads of every lane go on that some entry of the crew's table shows waiting at `seal`. In a
crew whose table names a lane twice (a table that the model never builds, but that the statement admits), a thread that the lane's
first entry shows exited and not waiting goes on as well, where the statement keeps it. -/
theorem not_ladders : ¬ Obligations.Ladders := by
  unfold Obligations.Ladders
  rintro ⟨-, -, -, -, h, -⟩
  obtain ⟨hd, e, s1, hr, hcut⟩ := readLadder_commitState
  obtain ⟨-, -, hcommit⟩ := h 0 0 5 e commitState s1 _ _ oneLadder hd _ rfl rfl rfl rfl rfl rfl (by decide) rfl rfl
  obtain ⟨t, k', h', hx, -, -, -, -, -, -, hcrews⟩ := hcommit rfl (by decide) (by rintro o ⟨⟩) hr hcut
  obtain ⟨cr', hcr, -, hth⟩ := hcrews 0 sealingCrew rfl
  obtain ⟨th', ht, -, hstays⟩ := hth 0 { standing 0 none with exited := true } (by decide) rfl
  have hpc : th'.pc = 0x10000 := by rw [hstays (by decide)]; rfl
  have hgoes : seenAfter (exec (.sealCommit 0) commitState) (fun t => (t.threadAt 0).map (·.pc)) = some 0x1000C := by
    decide +kernel
  rw [seenAfter_of hx, State.threadAt_of hcr ht, Option.map_some, hpc] at hgoes
  exact absurd hgoes (by decide)
end

section
/-! PROOFS. Refutation of O53. -/

namespace Sys2Proof.Machine

open Sys2Proof

/-- A task of block 0 whose map has renamed a tile. -/
def cutTask : TaskEntry :=
  { gen := 0, tmap := 0x30000, ctx := 0, core := 0, blk := 0, entry := 0, args := [], reads := [], writes := [], key := 0,
    waits := [], posted := false, order := 0 }

/-- A cut grid with a task of its block outstanding, and a tile at 0x20000 that waits for the task to end. The map's pool,
which is pool 0, gives the object at 0x40 next. -/
def cutState : State :=
  { sealState with
    grids := [(0, { probeGrid ⟨[], []⟩ with st := .cut })]
    blocks := [(0, Block.at_ 0 0 0 0 [] [] ⟨[], []⟩)]
    pools := [(0, { head := 0x40, base := 0, limit := 0, osz := 4, ctx := some 0, free := 1 })]
    dies := [(0, { Die.reset with tasks := [(0, cutTask)], retiredTiles := [(0, 0x30000, 0x20000)] })] }

end Sys2Proof.Machine

open Sys2Proof Sys2Proof.Machine Sys2Proof.Claims

/-- Refutes O53. When the cut of a grid reaches a core, the grid's tasks leave the Dependence Table, and a renamed tile that waited
for them goes back to its pool: the pool's `HEAD` is written into the tile, where the statement has no byte change. -/
theorem not_cutsAndCompletion : ¬ Obligations.CutsAndCompletion := by
  unfold Obligations.CutsAndCompletion ConesAndCuts
  rintro ⟨⟨-, -, h, -⟩, -⟩
  obtain ⟨t, g', hx, hbytes, -⟩ := h 0 0 cutState _ rfl (.inl rfl) rfl
  have hold : readPlace cutState (.g 0x20000) 1 = [0] := by decide +kernel
  have hnew : seenAfter (exec (.cutArrival 0 0) cutState) (fun t => some (readPlace t (.g 0x20000) 1)) = some [0x40] := by
    decide +kernel
  rw [seenAfter_of hx, hbytes, hold] at hnew
  exact absurd hnew (by decide)
end

section
/-! PROOFS. What the writes of units, the ends of grids and the queues of a core leave unchanged. -/

namespace Sys2Proof.Machine

open Sys2Proof

/-! ## Writes of units (R54, R389) -/

/-- A change of memory and of what is noted with it, alone. -/
def MemOnly (s t : State) : Prop := t = { s with mem := t.mem, pairs := t.pairs, owners := t.owners, free := t.free }

namespace MemOnly

theorem refl (s : State) : MemOnly s s := rfl

theorem trans {s t u : State} (h : MemOnly s t) (h' : MemOnly t u) : MemOnly s u := by
  unfold MemOnly at *
  rw [h'.trans (by rw [h])]

theorem foldl {α : Type} {f : State → α → State} (hf : ∀ s a, MemOnly s (f s a)) (l : List α) (s : State) :
    MemOnly s (l.foldl f s) := by
  induction l generalizing s with
  | nil => exact refl s
  | cons a l ih => exact (hf s a).trans (ih _)

end MemOnly

theorem memOnly_unitWrite (s : State) (a : Nat) (data : List Byte) : MemOnly s (unitWrite s a data) := rfl

theorem memOnly_writeVirt (c : Ctx) (data : List Byte) (s : State) (va : Nat) : MemOnly s (writeVirt s c va data) := by
  induction data generalizing s va with
  | nil => exact .refl s
  | cons b bs ih =>
    refine MemOnly.trans ?_ (ih _ _)
    split
    · exact memOnly_unitWrite _ _ _
    · exact .refl s

theorem memOnly_spoil (s : State) (a n : Nat) : MemOnly s (spoil s a n) := by
  refine MemOnly.foldl (fun s h => ?_) _ _
  split
  · exact (memOnly_unitWrite _ _ _).trans rfl
  · exact .refl s

theorem memOnly_storeVirt (s : State) (c : Ctx) (va : Nat) (data : List Byte) : MemOnly s (storeVirt s c va data) :=
  (memOnly_writeVirt c data s va).trans (MemOnly.foldl (fun s (p : Nat × Nat) => memOnly_spoil s p.1 p.2) _ _)

theorem memOnly_setCtl (s : State) (c : Ctx) (l : Ladder) (m : Nat) : MemOnly s (setCtl s c l m) := by
  unfold setCtl
  split
  · exact memOnly_writeVirt _ _ _ _
  · exact .refl s

/-- The end of a grid changes memory and the grids alone (R41, R353). -/
theorem endGrid_frame (s : State) (g : Nat) (how : GridState) :
    (endGrid s g how).blocks = s.blocks ∧ (endGrid s g how).cores = s.cores := by
  unfold endGrid
  split
  · exact ⟨rfl, rfl⟩
  · split
    · exact ⟨rfl, rfl⟩
    · dsimp only
      split
      · have h := memOnly_setCtl s (by assumption) (by assumption) 8
        rw [h]
        exact ⟨rfl, rfl⟩
      · exact ⟨rfl, rfl⟩

/-! ## Queues of a core (R144) -/

/-- A change of the queues of cores, alone. -/
structure WqsOnly (s t : State) : Prop where
  rest : t = { s with cores := t.cores }
  core : ∀ c, t.core c = { s.core c with wqs := (t.core c).wqs }

namespace WqsOnly

theorem refl (s : State) : WqsOnly s s := ⟨rfl, fun _ => rfl⟩

theorem trans {s t u : State} (h : WqsOnly s t) (h' : WqsOnly t u) : WqsOnly s u :=
  ⟨h'.rest.trans (by rw [h.rest]), fun c => (h'.core c).trans (by rw [h.core c])⟩

theorem bytes {s t : State} (h : WqsOnly s t) : SameBytes s t := by
  refine sameBytes_of ?_ (fun c => by rw [h.core c]) (fun b => ?_)
  · rw [h.rest]
  · rw [h.rest]; rfl

theorem block {s t : State} (h : WqsOnly s t) (b : Nat) : t.block? b = s.block? b := by rw [h.rest]; rfl

theorem grids {s t : State} (h : WqsOnly s t) : t.grids = s.grids := by rw [h.rest]

end WqsOnly

theorem wqsOnly_setWq (s : State) (core q : Nat) (w : WQueue) : WqsOnly s (setWq s core q w) := by
  refine ⟨rfl, fun c => ?_⟩
  by_cases h : c = core
  · subst h
    simp only [setWq, State.core_setCore]
  · simp only [setWq, State.core_setCore_ne _ _ h]

theorem wqsOnly_foldl {f : State → Nat → State} (hf : ∀ s q, WqsOnly s (f s q)) (l : List Nat) (s : State) :
    WqsOnly s (l.foldl f s) := by
  induction l generalizing s with
  | nil => exact .refl s
  | cons a l ih => exact (hf s a).trans (ih _)

theorem wqOf_setWq (s : State) (core q r : Nat) (w : WQueue) :
    wqOf (setWq s core q w) core r = if r = q then w else wqOf s core r := by
  by_cases h : r = q
  · subst h; simp [wqOf, setWq]
  · simp [wqOf, setWq, h]

theorem wqsOnly_wqUnbind (s : State) (core g : Nat) : WqsOnly s (wqUnbind s core g) := by
  refine wqsOnly_foldl (fun s q => ?_) _ _
  dsimp only
  split
  · exact wqsOnly_setWq _ _ _ _
  · exact .refl s

/-- One queue without the lanes of a crew. -/
def wqDrop (core b c : Nat) (s : State) (q : Nat) : State :=
  if (wqOf s core q).pops.any (fun p => p.1 == b && p.2.1 == c) then
    setWq s core q { wqOf s core q with pops := (wqOf s core q).pops.filter (fun p => !(p.1 == b && p.2.1 == c)) }
  else s

theorem wqLeave_eq (s : State) (core b c : Nat) : wqLeave s core b c = (List.range 4).foldl (wqDrop core b c) s := rfl

theorem wqsOnly_wqDrop (core b c : Nat) (s : State) (q : Nat) : WqsOnly s (wqDrop core b c s q) := by
  unfold wqDrop
  split
  · exact wqsOnly_setWq _ _ _ _
  · exact .refl s

/-- No lane of a crew waits at a queue. -/
def WqFree (s : State) (core b c q : Nat) : Prop := ∀ p ∈ (wqOf s core q).pops, ¬(p.1 = b ∧ p.2.1 = c)

theorem wqFree_wqDrop (s : State) (core b c q : Nat) : WqFree (wqDrop core b c s q) core b c q := by
  intro p hp
  unfold wqDrop at hp
  split at hp
  · rw [wqOf_setWq, if_pos rfl] at hp
    simpa [imp_iff_not_or] using (List.mem_filter.1 hp).2
  · rename_i h
    simp only [List.any_eq_true, not_exists, not_and] at h
    simpa using h p hp

theorem WqFree.wqDrop {s : State} {core b c q : Nat} (h : WqFree s core b c q) (r : Nat) :
    WqFree (wqDrop core b c s r) core b c q := by
  by_cases hq : q = r
  · exact hq ▸ wqFree_wqDrop s core b c q
  · unfold Machine.wqDrop
    split
    · unfold WqFree
      rw [wqOf_setWq, if_neg hq]
      exact h
    · exact h

theorem wqFree_foldl {core b c q : Nat} (qs : List Nat) (s : State) (h : q ∈ qs ∨ WqFree s core b c q) :
    WqFree (qs.foldl (wqDrop core b c) s) core b c q := by
  induction qs generalizing s with
  | nil => exact h.resolve_left (by simp)
  | cons r qs ih =>
    refine ih _ ?_
    rcases h with h | h
    · rcases List.mem_cons.1 h with rfl | h
      · exact .inr (wqFree_wqDrop s core b c q)
      · exact .inl h
    · exact .inr (h.wqDrop r)

theorem wqFree_wqLeave (s : State) (core b c : Nat) {q : Nat} (hq : q < 4) : WqFree (wqLeave s core b c) core b c q :=
  wqFree_foldl _ _ (.inl (List.mem_range.2 hq))

/-! ## Channels that stop (R74) -/

theorem sameBytes_stopChannels (s : State) (b core : Nat) : SameBytes s (stopChannels s b core) :=
  sameBytes_setCore _ _ _ rfl

theorem wqOf_stopChannels (s : State) (b core q : Nat) : wqOf (stopChannels s b core) core q = wqOf s core q := by
  simp [wqOf, stopChannels]

theorem stopped_stopChannels (s : State) (b core dir : Nat) {ch : Channel}
    (h : chanOf ((stopChannels s b core).core core) dir = some ch) (hb : ch.blk = b) : ch.stopped = true := by
  have hstop : ∀ o : Option Channel,
      ((o.map (fun x => if x.blk = b then { x with stopped := true } else x)).filter (fun x => !x.done)) = some ch →
        ch.stopped = true := by
    intro o ho
    obtain ⟨hm, -⟩ := Option.filter_eq_some_iff.1 ho
    obtain ⟨x, -, rfl⟩ := Option.map_eq_some_iff.1 hm
    split
    · rfl
    · rename_i hx
      rw [if_neg hx] at hb
      exact absurd hb hx
  unfold chanOf lastChan at h
  simp only [stopChannels, State.core_setCore] at h
  split at h
  · exact hstop _ h
  · exact hstop _ h

end Sys2Proof.Machine
end

section
/-! PROOFS. Blocks and grids (R42, R50, R51, R74, R130, R275, R337, R344, R359): placement, hand-out, retirement and the end
of blocks and grids, and O43. -/

namespace Sys2Proof.Machine

open Sys2Proof

/-! ## Barriers of quads and dies (R339) -/

theorem State.die_setDie_ne (s : State) {d k : Nat} (x : Die) (h : k ≠ d) : (s.setDie d x).die k = s.die k := by
  simp [die, h]

/-- A change of what quads and dies provide, alone; the clocks run on. -/
structure BarsOnly (s t : State) : Prop where
  rest : t = { s with quads := t.quads, dies := t.dies }
  clk : ∀ d, (t.die d).clk = (s.die d).clk

namespace BarsOnly

theorem refl (s : State) : BarsOnly s s := ⟨rfl, fun _ => rfl⟩

theorem trans {s t u : State} (h : BarsOnly s t) (h' : BarsOnly t u) : BarsOnly s u :=
  ⟨h'.rest.trans (by rw [h.rest]), fun d => (h'.clk d).trans (h.clk d)⟩

theorem block {s t : State} (h : BarsOnly s t) (b : Nat) : t.block? b = s.block? b := by rw [h.rest]; rfl

theorem grid {s t : State} (h : BarsOnly s t) (g : Nat) : t.grid? g = s.grid? g := by rw [h.rest]; rfl

theorem core {s t : State} (h : BarsOnly s t) (c : Nat) : t.core c = s.core c := by rw [h.rest]; rfl

end BarsOnly

theorem barsOnly_setQuad (s : State) (q : Nat) (x : Quad) : BarsOnly s (s.setQuad q x) := ⟨rfl, fun _ => rfl⟩

theorem barsOnly_setDie (s : State) (d : Nat) {x : Die} (hx : x.clk = (s.die d).clk) : BarsOnly s (s.setDie d x) := by
  refine ⟨rfl, fun e => ?_⟩
  by_cases h : e = d
  · subst h; rw [State.die_setDie, hx]
  · rw [State.die_setDie_ne _ _ h]

theorem barsOnly_takeBars (s : State) (core gid : Nat) (g : Grid) : BarsOnly s (takeBars s core gid g) := by
  unfold takeBars
  dsimp only
  split <;> split
  · exact .refl s
  · exact barsOnly_setDie _ _ rfl
  · exact barsOnly_setQuad _ _ _
  · exact (barsOnly_setQuad _ _ _).trans (barsOnly_setDie _ _ rfl)

theorem barsOnly_returnBars (s : State) (core gid : Nat) : BarsOnly s (returnBars s core gid) := by
  unfold returnBars
  dsimp only
  split <;> split
  · exact .refl s
  · exact barsOnly_setQuad _ _ _
  · exact barsOnly_setDie _ _ rfl
  · exact (barsOnly_setQuad _ _ _).trans (barsOnly_setDie _ _ rfl)

/-! ## A block that is built (R130, R337) -/

/-- The threads of a new crew stand at their entry (R107, R129). -/
theorem thread_at {pc fold lin cn cpb slot l : Nat} {n : Option Nat} (hl : l < 32) :
    (Crew.at_ pc fold lin cn cpb slot n).thread? l = some (Thread.at_ pc l fold lin cn cpb) :=
  NMap.find?_map_key (k := id) Function.injective_id _ (List.mem_range.2 hl)

/-- A new crew: its arguments, its acquire at the entry, and its threads. -/
theorem newCrew_spec (g : Grid) (v : Variant) (lin cn slot fill : Nat) :
    let cr := newCrew g v lin cn slot fill
    cr.getS 0 = g.args ∧ cr.getS 1 = BitVec.ofNat 64 g.tcnt ∧ cr.fstat = 0 ∧ cr.xheld = 0 ∧ cr.acqs = [⟨1, false⟩] ∧
      cr.storePath = [] ∧ ∀ l, l < 32 → cr.thread? l = some (Thread.at_ v.entry l v.fold lin cn v.crews) :=
  ⟨by rfl, by rfl, rfl, rfl, rfl, rfl, fun _ hl => thread_at (slot := slot) (n := some fill) hl⟩

/-- The logical threads of a new thread (R107, R129). -/
theorem thread_at_folds {pc l fold lin cn cpb f : Nat} (hf : f < fold) :
    (Thread.at_ pc l fold lin cn cpb).ltid.getD f 0 = BitVec.ofNat 64 (lin * 65536 + 32 * cn + l + f * 32 * cpb) ∧
      (Thread.at_ pc l fold lin cn cpb).dctr.getD f 0 = 0 := by
  simp [Thread.at_, hf]

/-- The crews of a new block. -/
theorem crew_newBlock (s : State) (gid : Nat) (g : Grid) (lin : Nat) (v : Variant) (core : Nat) {c : Nat} (hc : c < v.crews) :
    ∃ slot, (newBlock s gid g lin v core).crews.find? c = some (newCrew g v lin c slot (s.free + c)) :=
  ⟨_, NMap.find?_map_key (k := id) Function.injective_id _ (List.mem_range.2 hc)⟩

/-- A block of a grid joins the machine and its grid's count (R344). -/
theorem launchBlock_spec {s : State} {gid : Nat} {g : Grid} (hg : s.grid? gid = some g) (lin : Nat) (v : Variant) (core : Nat) :
    let t := launchBlock s gid g lin v core
    t.mem = s.mem ∧ t.block? s.nextBlock = some (newBlock s gid g lin v core) ∧ t.nextBlock = s.nextBlock + 1 ∧
      ∃ g', t.grid? gid = some g' ∧ g'.launched = g.launched + 1 ∧ g'.handed = g.handed := by
  obtain ⟨hr, -⟩ := barsOnly_takeBars s core gid g
  have hu : launchBlock s gid g lin v core = { takeBars s core gid g with
      blocks := (takeBars s core gid g).blocks.set (takeBars s core gid g).nextBlock (newBlock s gid g lin v core)
      nextBlock := (takeBars s core gid g).nextBlock + 1
      free := (takeBars s core gid g).free + v.crews + 1 }.updGrid gid (fun g => { g with
        launched := g.launched + 1, vused := if g.vused.contains v.vid then g.vused else g.vused ++ [v.vid] }) := rfl
  have hg' : (takeBars s core gid g).grid? gid = some g := by rw [(barsOnly_takeBars s core gid g).grid, hg]
  rw [State.updGrid] at hu
  simp only [State.grid?] at hu hg'
  rw [hg'] at hu
  intro t
  rw [show t = _ from hu]
  refine ⟨?_, ?_, ?_, _, State.grid_setGrid _ _ _, rfl, rfl⟩
  · show (takeBars s core gid g).mem = _
    rw [hr]
  · show NMap.find? ((takeBars s core gid g).blocks.set (takeBars s core gid g).nextBlock _) s.nextBlock = _
    rw [show (takeBars s core gid g).nextBlock = s.nextBlock by rw [hr], NMap.find?_set_self]
  · show (takeBars s core gid g).nextBlock + 1 = _
    rw [hr]

/-! ## Hand-out (R344) -/

/-- The next blocks of a grid, if any, join the queue of a die. -/
theorem handOne_cases (s : State) (gid : Nat) : handOne s gid = s ∨ ∃ g d es n, s.grid? gid = some g ∧
    handOne s gid = (s.setDie d { s.die d with queue := liveQueue s d ++ es }).setGrid gid { g with handed := n } ∧
    ∀ o ∈ es, g.handed ≤ o.lin := by
  unfold handOne
  split
  · exact .inl rfl
  · rename_i g hg
    split
    · exact .inl rfl
    · refine .inr ⟨g, _, _, _, hg, rfl, fun o ho => ?_⟩
      obtain ⟨i, -, rfl⟩ := List.mem_map.1 ho
      exact Nat.le_add_right _ _

/-- The hand-out changes the queues and its grid's count alone; what it adds to a queue had not been handed out. -/
theorem handOne_spec {s : State} {gid : Nat} {g : Grid} (hg : s.grid? gid = some g) :
    let t := handOne s gid
    t.mem = s.mem ∧ t.blocks = s.blocks ∧ t.nextBlock = s.nextBlock ∧
      (∃ g', t.grid? gid = some g' ∧ g'.launched = g.launched) ∧
      ∀ d, ∀ o ∈ (t.die d).queue, o ∈ (s.die d).queue ∨ g.handed ≤ o.lin := by
  intro t
  rcases handOne_cases s gid with h | ⟨g', d, es, n, hg', h, hes⟩
  · rw [show t = s from h]
    exact ⟨rfl, rfl, rfl, ⟨g, hg, rfl⟩, fun d o ho => .inl ho⟩
  · obtain rfl : g = g' := Option.some.inj (hg.symm.trans hg')
    rw [show t = _ from h]
    refine ⟨rfl, rfl, rfl, ⟨_, State.grid_setGrid _ _ _, rfl⟩, fun k o ho => ?_⟩
    change o ∈ ((s.setDie d _).die k).queue at ho
    by_cases hk : k = d
    · subst hk
      rw [State.die_setDie] at ho
      rcases List.mem_append.1 ho with ho | ho
      · exact .inl (List.mem_of_mem_filter ho)
      · exact .inr (hes o ho)
    · rw [State.die_setDie_ne _ _ hk] at ho
      exact .inl ho

/-- The first block of a queue that has a place goes to a core that is set as its launch needs it (R344). -/
theorem exec_blockPlace {die core : Nat} {s : State} {e : Queued} {g : Grid} {v : Variant}
    (hf : (queueSort s (liveQueue s die)).findSome? (fun e => (placement s die e).map (fun ps => (e, ps))) =
      some (e, [(e.lin, core)])) (hg : s.grid? e.grid = some g) (hr : splitReady s core g.split g.fuse = true)
    (hv : chooseVariant s core g [] = some v) :
    exec (.blockPlace die) s = .next (handOne (unqueue (launchBlock s e.grid g e.lin v core) die
      (fun o => o.grid == e.grid && [(e.lin, core)].any (fun p => p.1 == o.lin))) e.grid) := by
  change execBlockPlace die s = _
  simp only [execBlockPlace, hf, placeOn, hg, List.all_cons, hr, List.all_nil, Bool.and_self, Bool.not_true,
    Bool.false_eq_true, if_false, List.foldl_cons, List.foldl_nil, hv]

/-! ## Carve-outs (R50, R51) -/

/-- Cores that take a split: no other core changes, and nothing but their scratchpads. -/
theorem foldl_reSplit_spec (split : Nat) (cs : List Nat) (s : State) :
    let t := cs.foldl (fun s c => if (s.core c).split = split then s else reSplit s c split) s
    t.mem = s.mem ∧ t.quads = s.quads ∧ ∀ c, c ∈ cs ∨ (s.core c).split = split → (t.core c).split = split := by
  induction cs generalizing s with
  | nil => exact ⟨rfl, rfl, fun c h => h.resolve_left (by simp)⟩
  | cons a cs ih =>
    intro t
    have hstep : ∀ c, c = a ∨ (s.core c).split = split →
        ((if (s.core a).split = split then s else reSplit s a split).core c).split = split := by
      intro c hc
      split
      · rename_i ha
        rcases hc with rfl | hc
        · exact ha
        · exact hc
      · by_cases h : c = a
        · subst h
          exact congrArg Core.split (State.core_setCore s c _)
        · exact (congrArg Core.split (State.core_setCore_ne s _ h)).trans (hc.resolve_left h)
    obtain ⟨h1, h2, h3⟩ := ih (if (s.core a).split = split then s else reSplit s a split)
    refine ⟨h1.trans ?_, h2.trans ?_, fun c hc => h3 c ?_⟩
    · split <;> rfl
    · split <;> rfl
    · rcases hc with hc | hc
      · rcases List.mem_cons.1 hc with hc | hc
        · exact .inr (hstep c (.inl hc))
        · exact .inl hc
      · exact .inr (hstep c (.inr hc))

/-! ## Blocks that end (R74, R275, R359) -/

/-- A core that a block has left: its deque, channels, requests and issue slots without the block. -/
def Core.without (c : Core) (b : Nat) : Core :=
  { c with
    dq := if c.dq.owner = some b then Core.reset.dq else c.dq
    fill := c.fill.filter (fun x => x.blk != b)
    drain := c.drain.filter (fun x => x.blk != b)
    acqWait := c.acqWait.filter (fun e => e.1 != b)
    slots := c.slots.mapVals (fun _ sl =>
      { sl with busy := sl.busy.filter (fun e => e.1 != b), waiting := sl.waiting.filter (fun e => e.1 != b) }) }

/-- A block that ends leaves its queues, its core and its barriers (R142, R144, R339, R359). -/
theorem leaveCore_eq {s : State} {b : Nat} {k : Block} (hb : s.block? b = some k) :
    ∃ u, WqsOnly (s.setBlock b { k with st := .ended }) u ∧
      leaveCore s b .ended = returnBars (u.setCore k.core ((u.core k.core).without b)) k.core k.grid := by
  refine ⟨if lastOfGrid s b k = true then wqUnbind (s.setBlock b { k with st := .ended }) k.core k.grid
    else s.setBlock b { k with st := .ended }, ?_, ?_⟩
  · split
    · exact wqsOnly_wqUnbind _ _ _
    · exact .refl _
  · simp only [leaveCore, hb, reduceCtorEq, if_false]
    rfl

/-- A block that ends gives its core's resources back (R142, R144, R359). -/
theorem leaveCore_ended {s : State} {b : Nat} {k : Block} (hb : s.block? b = some k) :
    let t := leaveCore s b .ended
    t.mem = s.mem ∧ t.grids = s.grids ∧ t.block? b = some { k with st := .ended } ∧ (∀ d, (t.die d).clk = (s.die d).clk) ∧
      ((s.core k.core).dq.owner = some b → (t.core k.core).dq.owner = none) ∧
      ∀ e ∈ (t.core k.core).acqWait, e.1 ≠ b := by
  obtain ⟨u, hu, ht⟩ := leaveCore_eq hb
  intro t
  rw [show t = _ from ht]
  have hr := barsOnly_returnBars (u.setCore k.core ((u.core k.core).without b)) k.core k.grid
  refine ⟨?_, ?_, ?_, fun d => ?_, fun ho => ?_, fun e he => ?_⟩
  · rw [hr.rest]
    show u.mem = _
    rw [hu.rest]
    rfl
  · rw [hr.rest]
    exact hu.grids
  · rw [hr.block, State.block_setCore, hu.block, State.block_setBlock]
  · rw [hr.clk]
    show (u.die d).clk = _
    rw [hu.rest]
    rfl
  · have hd : (u.core k.core).dq.owner = some b := by rw [hu.core]; exact ho
    rw [hr.core, State.core_setCore, Core.without, if_pos hd]
    rfl
  · rw [hr.core, State.core_setCore] at he
    simpa using (List.mem_filter.1 he).2

/-- What the clocks say of a running grid now (R345). -/
def stamped (s : State) (g : Grid) : Grid := if g.st = .running then { g with endCycle := (s.die g.clkDie).clk / 50 } else g

theorem stamped_stamped (s : State) (g : Grid) : stamped s (stamped s g) = stamped s g := by
  unfold stamped
  by_cases h : g.st = .running <;> simp [h]

theorem grid_stampEnd (s : State) (a i : Nat) :
    (s.stampEnd a).grid? i = if i = a then (s.grid? i).map (stamped s) else s.grid? i := by
  unfold State.stampEnd State.updGrid
  by_cases h : i = a
  · subst h
    rw [if_pos rfl]
    cases hg : s.grid? i with
    | none => exact hg
    | some g => exact State.grid_setGrid _ _ _
  · rw [if_neg h]
    split
    · exact State.grid_setGrid_ne _ _ h
    · rfl

/-- The end of a block is noted in grids alone. -/
theorem stampEnd_rest (s : State) (a : Nat) : s.stampEnd a = { s with grids := (s.stampEnd a).grids } := by
  unfold State.stampEnd State.updGrid
  split <;> rfl

/-- The end of a block stands in every running grid of a list (R42, R345). -/
theorem foldl_stampEnd (as : List Nat) (s : State) :
    as.foldl State.stampEnd s = { s with grids := (as.foldl State.stampEnd s).grids } ∧
      ∀ i, (as.foldl State.stampEnd s).grid? i = if i ∈ as then (s.grid? i).map (stamped s) else s.grid? i := by
  induction as generalizing s with
  | nil => exact ⟨rfl, fun i => by simp⟩
  | cons a as ih =>
    obtain ⟨h1, h2⟩ := ih (s.stampEnd a)
    have hs : stamped (s.stampEnd a) = stamped s := by rw [stampEnd_rest]; rfl
    refine ⟨?_, fun i => ?_⟩
    · rw [List.foldl_cons, h1, stampEnd_rest]
    · rw [List.foldl_cons, h2, grid_stampEnd, hs]
      by_cases ha : i = a
      · subst ha
        cases s.grid? i <;> simp [stamped_stamped]
      · by_cases hi : i ∈ as <;> simp [ha, hi]

/-- A grid and its parent are above it (R148). -/
theorem mem_ancestors (s : State) (gid : Nat) : gid ∈ ancestors s gid ∧
    ∀ g p, s.grid? gid = some g → g.parent = some p → p ∈ ancestors s gid := by
  refine ⟨List.mem_cons_self, fun g p hg hp => ?_⟩
  unfold ancestors ancestors.go
  rw [hg, Option.bind_some, hp]
  exact List.mem_cons_of_mem _ List.mem_cons_self

/-! ## Tasks that leave the table (R141) -/

/-- A change of memory, pools and dies, alone. -/
def PoolsOnly (s t : State) : Prop :=
  t = { s with mem := t.mem, pairs := t.pairs, owners := t.owners, free := t.free, pools := t.pools, dies := t.dies }

theorem PoolsOnly.refl (s : State) : PoolsOnly s s := rfl

theorem PoolsOnly.trans {s t u : State} (h : PoolsOnly s t) (h' : PoolsOnly t u) : PoolsOnly s u := by
  unfold PoolsOnly at *
  rw [h'.trans (by rw [h])]

theorem PoolsOnly.foldl {α : Type} {f : State → α → State} (hf : ∀ s a, PoolsOnly s (f s a)) (l : List α) (s : State) :
    PoolsOnly s (l.foldl f s) := by
  induction l generalizing s with
  | nil => exact refl s
  | cons a l ih => exact (hf s a).trans (ih _)

theorem poolsOnly_poolPut (s : State) (n addr : Nat) (c : Ctx) (va : Nat) :
    PoolsOnly s (poolPut s n addr (fun s bs => storeVirt s c va bs)) := by
  unfold poolPut
  split
  · exact .refl s
  · have h : PoolsOnly s (storeVirt s c va (leBytes 8 (by assumption : Pool).head)) := by
      unfold PoolsOnly
      rw [memOnly_storeVirt s c va]
    exact h.trans rfl

theorem poolsOnly_returnTiles (s : State) (die ctx : Nat) : PoolsOnly s (returnTiles s die ctx) := by
  unfold returnTiles
  split
  · exact .refl s
  · refine PoolsOnly.trans (t := s.setDie die _) rfl (PoolsOnly.foldl (fun s r => ?_) _ _)
    split
    · exact poolsOnly_poolPut _ _ _ _ _
    · exact .refl s

theorem poolsOnly_tidyTasks (s : State) (die : Nat) : PoolsOnly s (tidyTasks s die) := by
  refine PoolsOnly.foldl (fun s i => ?_) _ _
  unfold retireTask
  dsimp only
  split
  · exact .refl s
  · exact PoolsOnly.trans (t := s.setDie die _) rfl (poolsOnly_returnTiles _ _ _)

/-! ## The instructions of blocks and grids -/

/-- A split that a core may have (R49). -/
theorem carveOut_legal {core split : Nat} (hs : split = 256 ∨ split = 384 ∨ split = 448) (hc : core < 768) :
    ¬((split ≠ 384 ∧ split ≠ 448 ∧ split ≠ 256) ∨ coreCount ≤ core) := by
  unfold coreCount
  omega

/-- The split of a core in a quad that is not fused (R50). -/
theorem exec_carveOut {core split : Nat} {s : State} (hs : split = 256 ∨ split = 384 ∨ split = 448) (hc : core < 768)
    (hq : (s.quad (quadOf core)).fused = false) (hne : (s.core core).split ≠ split) :
    exec (.carveOutChange core split 0) s = .next (if (onCore s core []).isEmpty then
      clearL1 (reSplit s core split) (quadOf core) [core] else s.setCore core { s.core core with draining := some split }) := by
  change execCarveOutChange core split 0 s = _
  simp only [execCarveOutChange, carveOut_legal hs hc, hq, hne, ne_eq, not_true, decide_false, and_self, if_true, if_false]

/-- The cores of a quad. -/
def quadCores (q : Nat) : List Nat := (List.range 4).map (· + 4 * q)

/-- The fusion of a quad whose cores hold no block (R51). -/
theorem exec_fuse {core split : Nat} {s : State} (hs : split = 256 ∨ split = 384 ∨ split = 448) (hc : core < 768)
    (hq : (s.quad (quadOf core)).fused = false) (he : ∀ i, i < 4 → onCore s (4 * quadOf core + i) [] = []) :
    exec (.carveOutChange core split 1) s = .next ((quadCores (quadOf core)).foldl
      (fun s c => if (s.core c).split = split then s else reSplit s c split)
      ((clearL1 s (quadOf core) (quadCores (quadOf core))).setQuad (quadOf core)
        { s.quad (quadOf core) with fused := true })) := by
  have hall : ((List.range 4).map (· + 4 * quadOf core)).all (fun c => (onCore s c []).isEmpty) = true := by
    simp only [List.all_map, List.all_eq_true, List.mem_range, Function.comp]
    intro i hi
    rw [Nat.add_comm, he i hi]
    rfl
  change execCarveOutChange core split 1 s = _
  simp only [execCarveOutChange, carveOut_legal hs hc, hq, hall, ne_eq, one_ne_zero, not_false_eq_true, decide_true,
    Bool.true_eq_false, Bool.false_eq_true, and_self, if_true, if_false]
  rfl

/-- A crew whose threads have exited and whose Store Path is empty retires (R275). -/
theorem exec_crewRetire {b c : Nat} {s : State} {k : Block} {cr : Crew} (hb : s.block? b = some k) (hc : s.crew? b c = some cr)
    (hk : k.st = .resident) (he : cr.allExited = true) (hr : cr.retired = false) (hh : cr.handler = none)
    (hp : cr.storePath = []) :
    ∃ u, (cr.faults = [] → u = wqLeave (s.setCrew b c cr.retire) k.core b c) ∧
      (cr.faults ≠ [] → u = endGrid (wqLeave (s.setCrew b c cr.retire) k.core b c) k.grid .faulted) ∧
      exec (.crewRetire b c) s = .next (if (u.block? b).all (fun k => k.crews.vals.all (·.retired)) then stopChannels u b k.core
        else u) := by
  refine ⟨if cr.faults.isEmpty then wqLeave (s.setCrew b c cr.retire) k.core b c else
    endGrid (wqLeave (s.setCrew b c cr.retire) k.core b c) k.grid .faulted, fun h => if_pos (by simp [h]),
    fun h => if_neg (by simpa using h), ?_⟩
  change execCrewRetire b c s = _
  simp [execCrewRetire, hb, hc, hk, he, hr, hh, hp, Crew.inHandler]

/-- The last crew's retirement ends a resident block whose operations have completed (R275, R359). -/
theorem exec_blockEnd {b : Nat} {s : State} {k : Block} {g : Grid} (hb : s.block? b = some k) (hg : s.grid? k.grid = some g)
    (hk : k.st = .resident) (hr : ∀ e ∈ k.crews, e.2.retired = true) (ho : opsDone s b = true) :
    let u := (leaveCore s b .ended).updBlock b (fun k => { k with crews := [], convs := [], spb := [], acc := ⟨[], []⟩, frame := 0 })
    exec (.blockEnd b) s = .next ((ancestors u k.grid).foldl State.stampEnd
      (u.updGrid k.grid (fun g => { g with ended := g.ended + 1 }))) := by
  have hall : k.crews.vals.all (·.retired) = true := by
    simpa [NMap.vals] using fun n cr h => hr (n, cr) h
  change execBlockEnd b s = _
  simp [execBlockEnd, hb, hg, hk, hall, ho]

/-- A grid that is over completes: its barriers go, and no other grid changes (R42). -/
theorem exec_gridComplete {gid : Nat} {s : State} {g : Grid} (hg : s.grid? gid = some g) (hr : g.st = .running)
    (hf : familyOver s gid = true) (hc : childrenDone s gid = true) :
    ∃ (u : State) (g' : Grid), exec (.gridComplete gid) s = .next ((List.range 4).foldl tidyTasks (u.setGrid gid g')) ∧ g'.st = .done ∧
      u.bars = s.bars.filter (fun i => i.grid != gid) ∧ u.grids = s.grids ∧
      (g.ladder = none → g'.floor = g.floor ∧ g'.fq = g.fq) := by
  change ∃ (u : State) (g' : Grid), execGridComplete gid s = _ ∧ _
  simp only [execGridComplete, hg, hr, hf, hc, bne_self_eq_false, Bool.not_true, Bool.or_self, Bool.false_eq_true, if_false]
  split
  · rename_i l c hl hcx
    refine ⟨_, _, rfl, rfl, ?_, ?_, fun h => ?_⟩
    · rw [memOnly_setCtl _ c l 16]
    · rw [memOnly_setCtl _ c l 16]
    · rw [hl] at h
      cases h
  · exact ⟨_, _, rfl, rfl, rfl, rfl, fun _ => ⟨rfl, rfl⟩⟩

/-- A crew that retires leaves its queues; a protection fault that it holds ends its grid; the last one stops the block's
channels (R74, R275; log 148). -/
theorem crewRetire_spec {b c : Nat} {s : State} {k : Block} {cr : Crew} (hb : s.block? b = some k) (hc : s.crew? b c = some cr)
    (hk : k.st = .resident) (he : cr.allExited = true) (hr : cr.retired = false) (hh : cr.handler = none)
    (hp : cr.storePath = []) :
    ∃ t, exec (.crewRetire b c) s = .next t ∧ (cr.faults = [] → SameBytes s t ∧ t.grids = s.grids) ∧
      (cr.faults ≠ [] → ∀ g, s.grid? k.grid = some g → g.st = .running → (t.grid? k.grid).map (·.st) = some .faulted) ∧
      t.crew? b c = some cr.retire ∧ (∀ q, q < 4 → WqFree t k.core b c q) ∧
      ((∀ k', t.block? b = some k' → ∀ e ∈ k'.crews, e.2.retired = true) → ∀ dir ch,
        chanOf (t.core k.core) dir = some ch → ch.blk = b → ch.stopped = true) := by
  obtain ⟨u, hu1, hu2, hx⟩ := exec_crewRetire hb hc hk he hr hh hp
  have hw : WqsOnly (s.setCrew b c cr.retire) (wqLeave (s.setCrew b c cr.retire) k.core b c) :=
    wqsOnly_foldl (wqsOnly_wqDrop k.core b c) _ _
  have hfree := fun q (hq : q < 4) => wqFree_wqLeave (s.setCrew b c cr.retire) k.core b c hq
  generalize wqLeave (s.setCrew b c cr.retire) k.core b c = w at *
  have hgrids : w.grids = s.grids := by rw [hw.grids, State.setCrew_grids]
  have hu : u.blocks = w.blocks ∧ u.cores = w.cores := by
    by_cases h : cr.faults = []
    · rw [hu1 h]
      exact ⟨rfl, rfl⟩
    · rw [hu2 h]
      exact endGrid_frame _ _ _
  have hcrew : u.crew? b c = some cr.retire := by
    rw [State.crew?, State.block?, hu.1, hw.rest]
    exact State.crew_setCrew hc _
  have hfree' : ∀ q, q < 4 → WqFree u k.core b c q := fun q hq p hpop => by
    rw [wqOf, State.core, hu.2] at hpop
    exact hfree q hq p hpop
  have hok : ∀ t, SameBytes u t → t.grids = u.grids →
      (cr.faults = [] → SameBytes s t ∧ t.grids = s.grids) ∧
      (cr.faults ≠ [] → ∀ g, s.grid? k.grid = some g → g.st = .running →
        (t.grid? k.grid).map (·.st) = some .faulted) := by
    refine fun t ht hg => ⟨fun h => ?_, fun h g hgr hrun => ?_⟩
    · rw [hu1 h] at ht hg
      exact ⟨(sameBytes_setCrew _ _ _ _).trans (hw.bytes.trans ht), hg.trans hgrids⟩
    · rw [State.grid?, hg, hu2 h]
      exact (endGrid_spec (by rw [State.grid?, hgrids]; exact hgr) hrun .faulted).1
  by_cases hall : (u.block? b).all (fun k => k.crews.vals.all (·.retired)) = true
  · rw [if_pos hall] at hx
    obtain ⟨h1, h2⟩ := hok _ (sameBytes_stopChannels u b k.core) rfl
    refine ⟨_, hx, h1, h2, hcrew, fun q hq p hpop => ?_, fun _ dir ch hch hblk => stopped_stopChannels u b k.core dir hch hblk⟩
    rw [wqOf_stopChannels] at hpop
    exact hfree' q hq p hpop
  · rw [if_neg hall] at hx
    obtain ⟨h1, h2⟩ := hok u (.refl u) rfl
    refine ⟨u, hx, h1, h2, hcrew, hfree', fun h => absurd ?_ hall⟩
    cases hk' : u.block? b with
    | none => rfl
    | some k' => simpa [NMap.vals] using fun n cr hm => h k' hk' (n, cr) hm

/-- A block that ends is counted in its grid; its grid and those above it note the cycle (R42, R275, R345; log 106). -/
theorem blockEnd_spec {b : Nat} {s : State} {k : Block} {g : Grid} (hb : s.block? b = some k) (hg : s.grid? k.grid = some g)
    (hk : k.st = .resident) (hr : ∀ e ∈ k.crews, e.2.retired = true) (ho : opsDone s b = true) :
    ∃ t k', exec (.blockEnd b) s = .next t ∧ t.mem = s.mem ∧ t.block? b = some k' ∧ k'.st = .ended ∧
      t.grid? k.grid = some (stamped s { g with ended := g.ended + 1 }) ∧
      (∀ p gp, g.parent = some p → p ≠ k.grid → s.grid? p = some gp → t.grid? p = some (stamped s gp)) ∧
      ((s.core k.core).dq.owner = some b → (t.core k.core).dq.owner = none) ∧
      ∀ e ∈ (t.core k.core).acqWait, e.1 ≠ b := by
  obtain ⟨hm, hgr, hbl, hclk, hdq, hacq⟩ := leaveCore_ended hb
  have hx := exec_blockEnd hb hg hk hr ho
  dsimp only at hx
  generalize leaveCore s b .ended = w at *
  have hv : ∃ v, v = w.updBlock b (fun k => { k with crews := [], convs := [], spb := [], acc := ⟨[], []⟩, frame := 0 }) ∧
      (∃ k', v.block? b = some k' ∧ k'.st = .ended) ∧ v.mem = w.mem ∧ v.grids = w.grids ∧ v.cores = w.cores ∧
      v.dies = w.dies :=
    ⟨_, rfl, ⟨_, State.block_updBlock hbl _, rfl⟩, State.updBlock_mem .., State.updBlock_grids .., State.updBlock_cores ..,
      State.updBlock_dies ..⟩
  obtain ⟨v, hv, ⟨k', hk', hst⟩, hvm, hvg, hvc, hvd⟩ := hv
  rw [← hv] at hx
  have hvgrid : ∀ i, v.grid? i = s.grid? i := fun i => by rw [State.grid?, hvg, hgr]; rfl
  have hu : v.updGrid k.grid (fun g => { g with ended := g.ended + 1 }) =
      v.setGrid k.grid { g with ended := g.ended + 1 } := by
    rw [State.updGrid, hvgrid, hg]
  rw [hu] at hx
  obtain ⟨hrest, hend⟩ := foldl_stampEnd (ancestors v k.grid) (v.setGrid k.grid { g with ended := g.ended + 1 })
  have hstamp : stamped (v.setGrid k.grid { g with ended := g.ended + 1 }) = stamped s := by
    funext x
    have : ((v.setGrid k.grid { g with ended := g.ended + 1 }).die x.clkDie).clk = (s.die x.clkDie).clk := by
      rw [← hclk, State.die, State.setGrid_dies, hvd]
      rfl
    rw [stamped, stamped, this]
  obtain ⟨hself, hpar⟩ := mem_ancestors v k.grid
  generalize (ancestors v k.grid).foldl State.stampEnd _ = t at *
  have hcore : t.core k.core = w.core k.core := by rw [hrest]; show v.core _ = _; rw [State.core, hvc]; rfl
  refine ⟨t, k', hx, ?_, ?_, hst, ?_, fun p gp hp hne hgp => ?_, ?_, ?_⟩
  · rw [hrest]
    exact hvm.trans hm
  · rw [hrest]
    exact hk'
  · rw [hend, if_pos hself, State.grid_setGrid, hstamp]
    rfl
  · rw [hend, if_pos (hpar g p (by rw [hvgrid, hg]) hp), State.grid_setGrid_ne _ _ hne, hvgrid, hgp, hstamp]
    rfl
  · rw [hcore]
    exact hdq
  · rw [hcore]
    exact hacq

/-- A running grid that is over completes (R42): its state, its barriers, and every other grid. -/
theorem gridComplete_spec {gid : Nat} {s : State} {g : Grid} (hg : s.grid? gid = some g) (hr : g.st = .running)
    (hf : familyOver s gid = true) (hc : childrenDone s gid = true) :
    ∃ t g', exec (.gridComplete gid) s = .next t ∧ t.grid? gid = some g' ∧ g'.st = .done ∧ (∀ i ∈ t.bars, i.grid ≠ gid) ∧
      (Claims.noLadders s → g'.floor = g.floor ∧ g'.fq = g.fq) ∧ ∀ h, h ≠ gid → t.grid? h = s.grid? h := by
  obtain ⟨u, g', hx, hst, hbars, hgrids, hl⟩ := exec_gridComplete hg hr hf hc
  have ht : PoolsOnly (u.setGrid gid g') ((List.range 4).foldl tidyTasks (u.setGrid gid g')) :=
    PoolsOnly.foldl poolsOnly_tidyTasks _ _
  generalize (List.range 4).foldl tidyTasks (u.setGrid gid g') = t at *
  refine ⟨t, g', hx, ?_, hst, fun i hi => ?_, fun hn => hl (hn _ (NMap.mem_of_find? hg)), fun h hne => ?_⟩
  · rw [ht]
    exact State.grid_setGrid _ _ _
  · rw [ht] at hi
    change i ∈ u.bars at hi
    rw [hbars] at hi
    simpa using (List.mem_filter.1 hi).2
  · rw [ht]
    show (u.setGrid gid g').grid? h = _
    rw [State.grid_setGrid_ne _ _ hne, State.grid?, hgrids]
    rfl

/-- A grid that is not over, or has a child that is not, does not complete (R42, R148). -/
theorem exec_gridComplete_not {gid : Nat} {s : State} (h : familyOver s gid = false ∨ childrenDone s gid = false) :
    exec (.gridComplete gid) s = .next s := by
  change execGridComplete gid s = _
  unfold execGridComplete
  split
  · rfl
  · rw [if_pos (by rcases h with h | h <;> simp [h])]

/-- When a grid's children have completed (R148). -/
theorem childrenDone_iff (s : State) (gid : Nat) :
    childrenDone s gid = true ↔ ∀ e ∈ s.grids, e.2.parent = some gid → e.2.st ≠ .running := by
  simp [childrenDone, imp_iff_not_or]

/-- When a family is over (R42). -/
theorem familyOver_iff (s : State) (gid : Nat) : familyOver s gid = true ↔
    ∀ i ∈ family s gid, subsOver s i = true ∧ ∀ h, s.grid? i = some h → blocksOver s i h = true := by
  simp [familyOver, Option.all_eq_true]

/-- When the blocks of a running grid have all ended (R42). -/
theorem blocksOver_running {g : Grid} (s : State) (gid : Nat) (h : g.st = .running) :
    blocksOver s gid g = true ↔ g.total ≤ g.ended := by
  simp [blocksOver, h]

/-- When the blocks of a stopped grid have all ended (R41). -/
theorem blocksOver_stopped {g : Grid} (s : State) (gid : Nat) (h : g.st ≠ .running) :
    blocksOver s gid g = true ↔ ∀ e ∈ s.blocks, e.2.grid = gid → e.2.st = .ended := by
  simp [blocksOver, h, imp_iff_not_or]

end Sys2Proof.Machine

open Sys2Proof Sys2Proof.Machine Sys2Proof.Claims

/-- Settles O43, an event at a time: a block that is placed, a core that takes a split or a quad that fuses, a crew that retires, a
block that ends, a grid that completes, and what being over means. -/
theorem blocksAndGrids : Obligations.BlocksAndGrids := by
  refine ⟨fun die core s e g v hf hg hr hv => ?_, fun core split s hs hc hq hne => ⟨fun he => ?_, fun he => ?_⟩,
    fun core split s hs hc hq he => ?_, fun b c s k cr hb hc hst hall hret hh hsp => ?_,
    fun b s k g hb hg hst hret hops => ?_, fun gid s g hg hst => ⟨fun hf hc => ?_, fun h => ?_⟩,
    fun gid s g => ⟨?_, ?_, fun h => ?_, fun h => ?_⟩⟩
  · obtain ⟨hm1, hb1, hn1, g1, hg1, hl1, hd1⟩ := launchBlock_spec hg e.lin v core
    obtain ⟨hm2, hb2, hn2, ⟨g2, hg2, hl2⟩, hq2⟩ := handOne_spec (s := unqueue (launchBlock s e.grid g e.lin v core) die
      (fun o => o.grid == e.grid && [(e.lin, core)].any (fun p => p.1 == o.lin))) (gid := e.grid) hg1
    refine ⟨_, newBlock s e.grid g e.lin v core, exec_blockPlace hf hg hr hv, hm2.trans hm1, ?_, hn2.trans hn1, rfl, rfl, rfl,
      rfl, rfl, rfl, rfl, ?_, fun c hc => ?_, ⟨g2, hg2, by rw [hl2, hl1]⟩, fun o ho => ?_⟩
    · rw [State.block?, hb2]
      exact hb1
    · simp [newBlock, Block.at_]
    · obtain ⟨slot, hcr⟩ := crew_newBlock s e.grid g e.lin v core hc
      obtain ⟨h0, h1, h2, h3, h4, h5, h6⟩ := newCrew_spec g v e.lin c slot (s.free + c)
      exact ⟨_, hcr, h0, h1, h2, h3, h4, h5, fun l hl => ⟨_, h6 l hl, rfl, rfl, rfl, fun f hf => thread_at_folds hf⟩⟩
    · rcases hq2 die o ho with ho | ho
      · rw [unqueue, State.die_setDie] at ho
        have := (List.mem_filter.1 ho).2
        refine .inl fun h => ?_
        simp [h.1, h.2] at this
      · by_cases h : o.lin = e.lin
        · exact .inr (by omega)
        · exact .inl fun h' => h h'.2
  · refine ⟨_, exec_carveOut hs hc hq hne, ?_⟩
    rw [if_pos (by rw [he]; rfl)]
    refine ⟨rfl, congrArg Core.split (State.core_setCore s core _), ?_, fun d hd => State.core_setCore_ne s _ hd, rfl⟩
    simp [clearL1, NMap.find?_erase]
  · rw [exec_carveOut hs hc hq hne, if_neg (by simpa using he)]
  · obtain ⟨h1, h2, h3⟩ := foldl_reSplit_spec split (quadCores (quadOf core))
      ((clearL1 s (quadOf core) (quadCores (quadOf core))).setQuad (quadOf core) { s.quad (quadOf core) with fused := true })
    refine ⟨_, exec_fuse hs hc hq he, h1, ?_, fun i hi => h3 _ (.inl (List.mem_map.2 ⟨i, List.mem_range.2 hi, Nat.add_comm _ _⟩))⟩
    rw [State.quad, h2]
    exact congrArg Quad.fused (State.quad_setQuad _ _ _)
  · obtain ⟨t, hx, h1, h2, h3, h4, h5⟩ := crewRetire_spec hb hc hst hall hret hh hsp
    exact ⟨t, hx, h1, h2, h3, h4, fun h dir _ => h5 h dir⟩
  · obtain ⟨t, k', hx, hm, hk', hend, hg', hpar, hdq, hacq⟩ := blockEnd_spec hb hg hst hret hops
    refine ⟨t, k', _, hx, hm, hk', hend, hg', ?_, fun h => ?_, fun h => ?_, fun p gp hp hne hgp hrun => ?_, hdq, hacq⟩
    · rw [stamped]
      split <;> rfl
    · rw [stamped, if_pos h]
    · rw [stamped, if_neg h]
    · rw [hpar p gp hp hne hgp, stamped, if_pos hrun]
      rfl
  · exact gridComplete_spec hg hst hf hc
  · exact exec_gridComplete_not h
  · exact familyOver_iff s gid
  · exact childrenDone_iff s gid
  · exact blocksOver_running s gid h
  · exact blocksOver_stopped s gid h
end

section
/-! PROOFS. Device-side queues and collectives (R34, R148, R155, R268, R270, R271, R382): O36. -/

namespace Sys2Proof.Machine

open Sys2Proof Sys2Proof.Claims

/-! ## Reads of units (R243, R366, R383) -/

/-- A change of the translations kept, and of the HBM pages that are tried again, alone. -/
def FetchOnly (s t : State) : Prop := t = { s with tlb := t.tlb, free := t.free, hbmRetry := t.hbmRetry }

namespace FetchOnly

theorem refl (s : State) : FetchOnly s s := rfl

theorem trans {s t u : State} (h : FetchOnly s t) (h' : FetchOnly t u) : FetchOnly s u := by
  unfold FetchOnly at *
  rw [h'.trans (by rw [h])]

theorem of_tlbOnly {s t : State} (h : TlbOnly s t) : FetchOnly s t := by
  unfold FetchOnly
  rw [h]

theorem crew {s t : State} (h : FetchOnly s t) (b c : Nat) : t.crew? b c = s.crew? b c := by rw [h]; rfl

theorem bytes {s t : State} (h : FetchOnly s t) : SameBytes s t := by
  rw [h]
  exact sameBytes_of rfl (fun _ => rfl) (fun _ => rfl)

end FetchOnly

theorem fetchOnly_hbmDone (s : State) (p : Place) : FetchOnly s (hbmDone s p) := by cases p <;> rfl

theorem fetchOnly_piecesDone (s : State) (ps : List (Place × Nat)) : FetchOnly s (piecesDone s ps) := by
  obtain ⟨hs, h⟩ := foldl_hbmDone ps s
  rw [piecesDone, h]
  rfl

theorem fetchOnly_physOf {s t : State} {ctx va p : Nat} {acc : Acc} (h : physOf s ctx va acc = .ok (p, t)) : FetchOnly s t := by
  unfold physOf at h
  split at h
  · cases h
    exact .of_tlbOnly (tlbOnly_tlbKeep _ _ _ _)
  · cases h
  · cases h

/-- A range of at most 64 KiB lies in pieces that add up to it. -/
theorem piecesOf_spec {s t : State} {ctx va n : Nat} {acc : Acc} {ps : List (Nat × Nat)}
    (h : piecesOf s ctx va n acc = .ok (ps, t)) : FetchOnly s t ∧ (ps.map Prod.snd).sum = n := by
  unfold piecesOf at h
  dsimp only at h
  split at h
  · cases h
  · rename_i h1
    split at h
    · cases h
      exact ⟨fetchOnly_physOf h1, by simp⟩
    · split at h
      · cases h
      · rename_i h2
        cases h
        refine ⟨(fetchOnly_physOf h1).trans (fetchOnly_physOf h2), ?_⟩
        have : inPage va n ≤ n := Nat.min_le_left _ _
        simp
        omega

theorem fetchOnly_fetchVirt {s t : State} {ctx va n : Nat} {bs : List Byte} (h : fetchVirt s ctx va n = .ok (bs, t)) :
    FetchOnly s t := by
  unfold fetchVirt at h
  split at h
  · cases h
  · rename_i ps u hp
    cases h
    refine (piecesOf_spec hp).1.trans ?_
    have hd : ∀ (ps : List (Nat × Nat)) (u : State), FetchOnly u (ps.foldl (fun s p => hbmDone s (.g p.1)) u) := by
      intro ps
      induction ps with
      | nil => exact .refl
      | cons p ps ih => exact fun u => (fetchOnly_hbmDone u _).trans (ih _)
    exact hd ps u

/-- A range of any length lies in pieces that add up to it, given fuel for every 64 KiB of it. -/
theorem longPieces_spec {ctx : Nat} {acc : Acc} (fuel : Nat) {s t : State} {va n : Nat}
    {ps : List (Nat × Nat)} (hf : n ≤ fuel)
    (h : longPieces s ctx acc fuel va n = .ok (ps, t)) : FetchOnly s t ∧ (ps.map Prod.snd).sum = n := by
  induction fuel generalizing s va n ps with
  | zero =>
    cases h
    exact ⟨.refl _, by simp; omega⟩
  | succ fuel ih =>
    unfold longPieces at h
    split at h
    · rename_i h0
      cases h
      exact ⟨.refl _, by simp [h0]⟩
    · dsimp only at h
      split at h
      · cases h
      · rename_i qs u hq
        obtain ⟨h1, h2⟩ := piecesOf_spec hq
        cases hl : longPieces u ctx acc fuel (va + min n 65536) (n - min n 65536) with
        | error e =>
          rw [hl] at h
          cases h
        | ok r =>
          rw [hl] at h
          cases h
          obtain ⟨h3, h4⟩ := ih (by omega) hl
          refine ⟨h1.trans h3, ?_⟩
          rw [List.map_append, List.sum_append, h2, h4]
          omega

/-! ## `coll` issues (R34, R270; log 114) -/

/-- A crew that issues an operation. -/
def Crew.counts (cr : Crew) (cls id : Nat) : Crew := cr.bump.issuedOp cls id

theorem crew_issueOp {x : Cx} {s : State} {cr : Crew} (hc : s.crew? x.b x.c = some cr) (cls : Nat) (kind : EngKind)
    (ready started : Bool) : (issueOp x s cls kind ready started).crew? x.b x.c = some (cr.counts cls s.nextOp) := by
  unfold issueOp
  refine (State.crew_updCrew ?_ _).trans rfl
  exact hc

/-- An instruction whose only effect is to issue an operation, once translations have been kept. -/
theorem runs_issueOp {i : Instr} {s u : State} {x : Cx} {eff : Cx → Res} {cls : Nat} {kind : EngKind} {ready started : Bool}
    (h : Ready i s x) (hx : exec i s = issueWith i s eff) (hu : FetchOnly s u)
    (he : eff x = .done (issueOp x u cls kind ready started) false) :
    Runs i s x (OpIssued s x cls kind ready started) := by
  have hc : u.crew? x.b x.c = some x.cr := (hu.crew _ _).trans h.crew
  have hc' := crew_issueOp hc cls kind ready started
  refine ⟨_, _, exec_done h hx he hc', State.crew_setCrew hc' _, ?_, ?_⟩
  · exact advanced_advance (cr := x.cr.counts cls u.nextOp) rfl ⟨rfl, rfl, rfl, rfl, rfl⟩ _
  · have hseq : ((u.crew? x.b x.c).map (·.seq)).getD 0 = x.cr.seq := by rw [hc]; rfl
    have hid : u.nextOp = s.nextOp := by rw [hu]
    have hops : u.ops = s.ops := by rw [hu]
    refine ⟨⟨_, (State.setCrew_ops _ _ _ _).trans ((State.updCrew_ops _ _ _ _).trans (congrArg (· ++ _) hops)), hid, rfl, rfl,
      ?_, rfl, rfl, rfl, rfl, rfl, rfl, rfl, rfl, rfl⟩, ?_, ?_, ?_⟩
    · exact congrArg (fun n => [(x.c, n + 1)]) hseq
    · exact (State.setCrew_nextOp _ _ _ _).trans ((State.updCrew_nextOp _ _ _ _).trans (congrArg (· + 1) hid))
    · refine hu.bytes.trans (SameBytes.trans ?_ (sameBytes_setCrew _ _ _ _))
      unfold issueOp
      exact (sameBytes_of rfl (fun _ => rfl) (fun _ => rfl)).trans (sameBytes_updCrew _ _ _ _)
    · rw [hid]
      exact (Kept.refl _).advance _ _ _

/-- A crew whose destinations are left empty holds its late fault and its trap as before. -/
theorem hollow_faults (cr : Crew) (u : Uses) (ls : List Nat) :
    (cr.hollow u ls).late = cr.late ∧ (cr.hollow u ls).trap = cr.trap := by
  have hfold : ∀ {α : Type} (f : Crew → α → Crew), (∀ c a, (f c a).late = c.late ∧ (f c a).trap = c.trap) →
      ∀ (l : List α) (c : Crew), (l.foldl f c).late = c.late ∧ (l.foldl f c).trap = c.trap := by
    intro α f hf l
    induction l with
    | nil => exact fun c => ⟨rfl, rfl⟩
    | cons a l ih => exact fun c => ⟨(ih _).1.trans (hf c a).1, (ih _).2.trans (hf c a).2⟩
  exact hfold (fun c d => (vNames c d.o d.n).foldl (fun c r => ls.foldl (fun c l => c.markEmpty r l cr.bump.seq) c) c)
    (fun c d => hfold (fun c r => ls.foldl (fun c l => c.markEmpty r l cr.bump.seq) c)
      (fun c r => hfold (fun c l => c.markEmpty r l cr.bump.seq) (fun _ _ => ⟨rfl, rfl⟩) _ _) _ _) u.dst cr.bump

/-- The crew of a path whose instruction's fault is held. -/
def lateCrew (x : Cx) (i : Instr) (cause va acc : Nat) : Crew :=
  let cr := { x.cr with late := some (cause, va, acc, { trapOf x cause va 0 2 acc with late := true }) }
  if x.late then (cr.hollow (uses i) x.acts).advance x.lanes x.nextPc false else cr

theorem lateCrew_spec (x : Cx) (i : Instr) (cause va acc : Nat) :
    (lateCrew x i cause va acc).late = some (cause, va, acc, { trapOf x cause va 0 2 acc with late := true }) ∧
      (lateCrew x i cause va acc).trap = x.cr.trap ∧
      (x.late = false → lateCrew x i cause va acc = { x.cr with late := (lateCrew x i cause va acc).late }) := by
  unfold lateCrew
  cases x.late with
  | false => exact ⟨rfl, rfl, fun _ => rfl⟩
  | true => exact ⟨(hollow_faults _ _ _).1, (hollow_faults _ _ _).2, fun h => nomatch h⟩

/-- A page fault of a calm crew that holds no fault yet is held until the crew rolls back (R24, R352). -/
theorem faultHeld_xlatFault {i : Instr} {s : State} {x : Cx} {g : Guard} {va acc : Nat} (hp : Cx.of s g = some x)
    (ha : x.act ≠ 0) (hcalm : calm x) (hl : x.cr.late = none) (hx : exec i s = .next (x.xlatFault i cPf va acc)) :
    FaultHeld i s x cPf va acc := by
  obtain ⟨ht, hh⟩ := hcalm
  obtain ⟨hs, -, hc, -⟩ := Cx.of_spec hp
  have hne : (cPf = cProt) = False := eq_false (by decide)
  have hput : x.xlatFault i cPf va acc = s.setCrew x.b x.c (lateCrew x i cPf va acc) := by
    rw [Cx.xlatFault, if_neg (by simp [ht]), if_neg (by simp [Crew.inHandler, hh]), if_neg (by simp [hne]),
      if_neg (by simp [hl]), Cx.trapLanes_of_active ha, Cx.put, hs]
    rfl
  obtain ⟨h1, h2, h3⟩ := lateCrew_spec x i cPf va acc
  exact ⟨_, _, hx.trans (congrArg _ hput), sameBytes_setCrew _ _ _ _, State.crew_setCrew hc _, h1, h2.trans ht, h3⟩

/-- `coll` issues its command, raises `SEAL` or waits for its descriptor's page, by what its descriptor says (R34, log 114). -/
theorem collIssue_spec (f : FmtE) (s : State) (x : Cx) (h : Ready (.coll f) s x) (ha : x.uni f.a % 64 = 0)
    (hp : x.cr.storePath = []) :
    (∀ e, fetchVirt s x.g.ctx (x.uni f.a) 64 = .error e → e.cause ≠ cPf ∨ x.g.ladder = none →
      Runs (.coll f) s x (OpIssued s x 4 (.coll f.sub.toNat (x.uni f.a) 0 0 0 0) true false)) ∧
    (∀ e, fetchVirt s x.g.ctx (x.uni f.a) 64 = .error e → e.cause = cPf → x.g.ladder.isSome = true → calm x →
      x.cr.late = none → FaultHeld (.coll f) s x cPf e.va 0) ∧
    (∀ bs s1, fetchVirt s x.g.ctx (x.uni f.a) 64 = .ok (bs, s1) →
      (collForbids x.g x.blk (collRange f.sub.toNat (leNat bs)) = false →
        Runs (.coll f) s x (OpIssued s x 4 (.coll f.sub.toNat (x.uni f.a) 0 0 (collRange f.sub.toNat (leNat bs)).1
          (collRange f.sub.toNat (leNat bs)).2) true false)) ∧
      (collForbids x.g x.blk (collRange f.sub.toNat (leNat bs)) = true → calm x →
        Raised (.coll f) s x (trapOf x cSeal (collRange f.sub.toNat (leNat bs)).1 0 0 1))) := by
  refine ⟨fun e he hno => ?_, fun e he hpf hl hcalm hlate => ?_, fun bs s1 hf => ⟨fun hok => ?_, fun hno hcalm => ?_⟩⟩
  · refine runs_issueOp h rfl (.refl s) ?_
    have : ¬(e.cause = cPf ∧ x.g.ladder.isSome = true) := by
      rcases hno with h | h
      · exact fun h' => h h'.1
      · simp [h]
    simp only [ha, hp, h.state, he, this, ne_eq, not_true, if_false, List.isEmpty_nil, Bool.not_true, Bool.false_eq_true]
  · refine faultHeld_xlatFault h.path h.active hcalm hlate ?_
    change issueWith _ _ _ = _
    rw [issueWith, issueState_ready h]
    simp only [ha, hp, h.state, he, hpf, hl, ne_eq, not_true, if_false, List.isEmpty_nil, Bool.not_true, Bool.false_eq_true,
      and_self, if_true]
  · refine runs_issueOp h rfl (fetchOnly_fetchVirt hf) ?_
    simp only [ha, hp, h.state, hf, hok, ne_eq, not_true, if_false, List.isEmpty_nil, Bool.not_true, Bool.false_eq_true]
  · refine raised_raise h.path h.active hcalm ?_
    change issueWith _ _ _ = _
    rw [issueWith, issueState_ready h]
    simp only [ha, hp, h.state, hf, hno, ne_eq, not_true, if_false, List.isEmpty_nil, Bool.not_true, Bool.false_eq_true, if_true]
    rfl

/-! ## Device-side queues (R148, R268, R333) -/

/-- Two machines in which a walk finds the same: memory and what decides of a leaf and of a route (R363–R374). -/
structure SameWalk (s t : State) : Prop where
  mem : t.mem = s.mem
  ctl : t.ctl = s.ctl
  routes : t.routes = s.routes
  degraded : t.degraded = s.degraded
  ports : t.ports = s.ports

namespace SameWalk

variable {s t : State} (h : SameWalk s t)
include h

theorem gone : isDegraded t = isDegraded s ∧ pageGone t = pageGone s := by
  have hd : isDegraded t = isDegraded s := by
    funext kind i
    rw [isDegraded, isDegraded, h.degraded]
  refine ⟨hd, ?_⟩
  funext loc
  rw [pageGone, pageGone, hd, h.degraded]

theorem tier : tierOf t = tierOf s := by
  funext mine loc
  rw [tierOf, tierOf, h.gone.1, h.ctl]

theorem route : routeOk t = routeOk s := by
  funext pkg
  rw [routeOk, routeOk, h.gone.1, h.ctl, h.routes, h.ports]

theorem leaf (e : DWord) (log va : Nat) (acc : Acc) : leafCheck t e log va acc = leafCheck s e log va acc := by
  unfold leafCheck
  rw [h.tier, h.gone.2, h.ctl]

theorem walks (va : Nat) (acc : Acc) (fuel level table : Nat) : walk t va acc fuel level table = walk s va acc fuel level table := by
  induction fuel generalizing level table with
  | zero => rfl
  | succ fuel ih => simp only [walk, h.mem, h.leaf, ih]

theorem walkCtx (c : Ctx) (va : Nat) (acc : Acc) : Machine.walkCtx t c va acc = Machine.walkCtx s c va acc := by
  have hr : ∀ x, routed t x = routed s x := fun x => by unfold routed; rw [h.route]
  simp only [Machine.walkCtx, hr, h.walks]

theorem readVirt (c : Ctx) (va n : Nat) : Machine.readVirt t c va n = Machine.readVirt s c va n := by
  induction n generalizing va with
  | zero => rfl
  | succ n ih => simp only [Machine.readVirt, h.walkCtx, h.mem, ih]

theorem natVirt (c : Ctx) (va n : Nat) : Machine.natVirt t c va n = Machine.natVirt s c va n := by
  simp only [Machine.natVirt, h.readVirt]

/-- A queue's entry depends on its bytes and on whether it was found broken. -/
theorem queueEntry (hc : t.ctxs = s.ctxs) (hq : t.queues = s.queues) (ctx q : Nat) :
    Machine.queueEntry t ctx q = Machine.queueEntry s ctx q := by
  simp only [Machine.queueEntry, queueRun, hc, hq, h.natVirt]

end SameWalk

/-- An entry that is enabled is neither broken nor was found so. -/
theorem queueEntry_enabled {s : State} {ctx q : Nat} {e : QEntry} (he : queueEntry s ctx q = some e) (hen : e.enabled = true) :
    ∃ c n, s.ctxs.find? ctx = some c ∧ natVirt s c (queueVa c q) 32 = some n ∧
      (entryBroken n || ((queueRun s ctx q).bad && bits n 128 64 != bits n 192 64)) = false ∧
      ∀ t : State, t.ctxs = s.ctxs → natVirt t c (queueVa c q) 32 = some n → (queueRun t ctx q).bad = false →
        queueEntry t ctx q = some e := by
  unfold queueEntry at he
  split at he
  · cases he
  · rename_i c hc
    obtain ⟨n, hn, rfl⟩ := Option.map_eq_some_iff.1 he
    simp only [Bool.and_eq_true, Bool.not_eq_true'] at hen
    obtain ⟨⟨hbit, hb⟩, hw⟩ := hen
    refine ⟨c, n, hc, hn, by rw [hb, hw]; rfl, fun t ht hnt hbad => ?_⟩
    rw [queueEntry, ht, hc]
    simp only [hnt, Option.map_some, hbad, hbit, hb, hw, Bool.false_and]

/-- A look at an entry that is enabled leaves it so, and changes the queues' run states alone (R333). -/
theorem noteQueue_spec {s : State} {ctx q : Nat} {e : QEntry} (he : queueEntry s ctx q = some e) (hen : e.enabled = true) :
    ∃ qs, noteQueue s ctx q = { s with queues := qs } ∧ queueEntry (noteQueue s ctx q) ctx q = some e := by
  obtain ⟨c, n, hc, hn, hbad, hkeep⟩ := queueEntry_enabled he hen
  unfold noteQueue
  simp only [hc, Option.bind_some, hn, hbad]
  split
  · rename_i h
    exact ⟨s.queues, rfl, hkeep s rfl hn h.symm⟩
  · refine ⟨_, rfl, hkeep _ rfl ?_ ?_⟩
    · rw [SameWalk.natVirt ⟨rfl, rfl, rfl, rfl, rfl⟩]
      exact hn
    · rw [queueRun, NMap.getD_set_self]

/-- `qsubmit` puts its release into the Store Path when the queue has room (R268). -/
theorem runs_qsubmit {f : FmtE} {s : State} {x : Cx} {e : QEntry} (h : Ready (.qsubmit f) s x) (hq : x.uni f.a < 64)
    (he : queueEntry s x.g.ctx (x.uni f.a) = some e) (hd : e.device = true) (hen : e.enabled = true) (hn : 0 < x.uni f.b)
    (hn' : x.uni f.b ≤ 255) (hroom : e.widx + x.uni f.b ≤ e.ridx + 2 ^ e.log) :
    Runs (.qsubmit f) s x (fun t cr => SameBytes s t ∧ Kept { x.cr with
      seq := x.cr.seq + 1
      storePath := x.cr.storePath ++ [.marker (x.cr.seq + 1) (.qsubmit (x.uni f.a) (x.uni f.b))] } cr none2 none1 none1) := by
  obtain ⟨qs, hnote, hkeep⟩ := noteQueue_spec he hen
  rw [hnote] at hkeep
  have hc : ({ s with queues := qs } : State).crew? x.b x.c = some x.cr := h.crew
  have hr : e.room (x.uni f.b) = true := decide_eq_true hroom
  have hbad : (!e.device || !e.enabled || decide (x.uni f.b = 0) || decide (255 < x.uni f.b)) = false := by
    simp [hd, hen]
    omega
  have heff := exec_done (s' := ({ s with queues := qs } : State).setCrew x.b x.c (x.cr.bump.push
    [.marker x.cr.bump.seq (.qsubmit (x.uni f.a) (x.uni f.b))])) (ends := false) h rfl ?_ (State.crew_setCrew hc _)
  · refine ⟨_, _, heff, State.crew_setCrew (State.crew_setCrew hc _) _, ?_, ?_, ?_⟩
    · exact advanced_advance (cr := x.cr.bump.push [.marker x.cr.bump.seq (.qsubmit (x.uni f.a) (x.uni f.b))]) rfl
        ⟨rfl, rfl, rfl, rfl, rfl⟩ _
    · rw [State.setCrew_setCrew]
      exact (sameBytes_of rfl (fun _ => rfl) (fun _ => rfl)).trans (sameBytes_setCrew _ _ _ _)
    · exact (Kept.refl _).advance _ _ _
  · simp only [h.state, hq, if_true, hnote, hkeep, hbad, Bool.false_eq_true, if_false, hr, Bool.not_true]

/-- A `qsubmit` leaves: `WIDX` advances, and the packets are the submitting grid's (R148, R268). -/
theorem performQsubmit_spec {u : State} {b q n : Nat} {k : Block} {g : Grid} {x : Ctx} {e : QEntry} (hb : u.block? b = some k)
    (hg : u.grid? k.grid = some g) (hx : u.ctxs.find? g.ctx = some x) (he : queueEntry u g.ctx q = some e) :
    (performQsubmit u b q n).blocks = u.blocks ∧
      (performQsubmit u b q n).mem = (storeVirt u x (x.qtab + 32 * q + 24) (leBytes 8 ((e.widx + n) % 2 ^ 64))).mem ∧
      ∀ i, i < n → ((performQsubmit u b q n).queues.getD (64 * g.ctx + q) ⟨none, false, []⟩).subs.find? (e.widx + i) =
        some k.grid := by
  have hm := memOnly_storeVirt u x (x.qtab + 32 * q + 24) (leBytes 8 ((e.widx + n) % 2 ^ 64))
  have hp : performQsubmit u b q n = { storeVirt u x (x.qtab + 32 * q + 24) (leBytes 8 ((e.widx + n) % 2 ^ 64)) with
      queues := u.queues.set (64 * g.ctx + q) { queueRun u g.ctx q with
        subs := ((List.range n).map (e.widx + ·)).foldl (fun m w => m.set w k.grid) (queueRun u g.ctx q).subs } } := by
    simp only [performQsubmit, hb, hg, hx, he, List.foldl_map]
    rw [show queueVa x q + 24 = x.qtab + 32 * q + 24 from rfl, queueRun, queueRun, hm]
  rw [hp]
  refine ⟨by rw [hm], rfl, fun i hi => ?_⟩
  rw [NMap.getD_set_self]
  refine (find_foldl_set (fun _ => k.grid) _ _ _).trans (if_pos ?_)
  exact List.mem_map_of_mem (List.mem_range.2 hi)

/-- The release of a `qsubmit` leaves the Store Path once every older load is performed and the queue has room (R57, R268). -/
theorem exec_qsubmitLeaves {b c q n : Nat} {s : State} {k : Block} {cr : Crew} {rest : List SpEntry} {g : Grid} {e : QEntry}
    (h : MarkerAt s b c k cr (.qsubmit q n) rest) (hg : s.grid? k.grid = some g) (he : queueEntry s g.ctx q = some e)
    (hr : e.widx + n ≤ e.ridx + 2 ^ e.log) :
    exec (.storePathPerform b c) s = .next (performQsubmit (s.setCrew b c { cr with storePath := rest }) b q n) := by
  obtain ⟨seq, hhead, hloads⟩ := h.head
  have hready : markerReady s b k cr seq (.qsubmit q n) = true := by
    have hl : loadsDone cr seq = true := by simpa [loadsDone] using hloads
    have hq : qsubmitReady s b q n = true := by
      simp [qsubmitReady, h.block, hg, he, QEntry.room, hr]
    simp only [markerReady, hl, hq, Bool.and_self]
  change execStorePathPerform b c s = _
  simp only [execStorePathPerform, h.block, h.crew, hhead, hready, if_true]
  rfl

theorem qsubmitLeaves_spec {b c q n : Nat} {s : State} {k : Block} {cr : Crew} {rest : List SpEntry} {g : Grid} {x : Ctx}
    {e : QEntry} (h : MarkerAt s b c k cr (.qsubmit q n) rest) (hg : s.grid? k.grid = some g) (hx : s.ctxs.find? g.ctx = some x)
    (he : queueEntry s g.ctx q = some e) (hr : e.widx + n ≤ e.ridx + 2 ^ e.log) :
    ∃ t, exec (.storePathPerform b c) s = .next t ∧ t.crew? b c = some { cr with storePath := rest } ∧
      t.mem = (storeVirt (s.setCrew b c { cr with storePath := rest }) x (x.qtab + 32 * q + 24)
        (leBytes 8 ((e.widx + n) % 2 ^ 64))).mem ∧
      ∀ i, i < n → (t.queues.getD (64 * g.ctx + q) ⟨none, false, []⟩).subs.find? (e.widx + i) = some k.grid := by
  have hw : SameWalk s (s.setCrew b c { cr with storePath := rest }) :=
    ⟨State.setCrew_mem .., State.setCrew_ctl .., State.setCrew_routes .., State.setCrew_degraded .., State.setCrew_ports ..⟩
  obtain ⟨h1, h2, h3⟩ := performQsubmit_spec (u := s.setCrew b c { cr with storePath := rest }) (n := n)
    (State.block_setCrew h.block c _) ((State.setCrew_grid ..).trans hg) (by rw [State.setCrew_ctxs]; exact hx)
    ((hw.queueEntry (State.setCrew_ctxs ..) (State.setCrew_queues ..) g.ctx q).trans he)
  refine ⟨_, exec_qsubmitLeaves h hg he hr, ?_, h2, h3⟩
  rw [State.crew?, State.block?, h1]
  exact State.crew_setCrew h.crew _

/-! ## Operations (R64) -/

theorem op?_id {s : State} {id : Nat} {o : EngOp} (h : op? s id = some o) : o.id = id := by
  simpa using List.find?_some h

/-- A change of one operation that keeps its number. -/
theorem op?_updOp (s : State) (id i : Nat) {f : EngOp → EngOp} (hf : ∀ o, (f o).id = o.id) :
    op? (updOp s id f) i = if i = id then (op? s i).map f else op? s i := by
  unfold op? updOp
  simp only [List.find?_map]
  have hp : (fun o : EngOp => o.id == i) ∘ (fun o => if o.id = id then f o else o) = fun o => o.id == i := by
    funext o
    by_cases h : o.id = id <;> simp [h, hf]
  rw [hp]
  cases ho : s.ops.find? (fun o => o.id == i) with
  | none => simp
  | some o =>
    have : o.id = i := by simpa using List.find?_some ho
    by_cases h : i = id <;> simp [this, h]

theorem sameBytes_updOp (s : State) (id : Nat) (f : EngOp → EngOp) : SameBytes s (updOp s id f) :=
  sameBytes_of rfl (fun _ => rfl) (fun _ => rfl)

/-- One change of every operation that a list names, made again where a name comes again. -/
theorem op?_foldl_updOp {α : Type} {f : EngOp → EngOp} (key : α → Nat) (hf : ∀ o, (f o).id = o.id) (hff : ∀ o, f (f o) = f o)
    (l : List α) (s : State) (i : Nat) : op? (l.foldl (fun s e => updOp s (key e) f) s) i =
      if i ∈ l.map key then (op? s i).map f else op? s i := by
  induction l generalizing s with
  | nil => simp
  | cons e l ih =>
    rw [List.foldl_cons, ih, op?_updOp _ _ _ hf]
    by_cases he : i = key e
    · by_cases hm : key e ∈ l.map key
      · cases op? s i <;> simp [he, hm, hff]
      · simp [he, hm]
    · by_cases hm : i ∈ l.map key <;> simp [he, hm]

/-! ## Runs (R271) -/

theorem collRun?_setRun (s : State) (r : CollRun) : collRun? (setRun s r) r.group r.seq = some r := by
  simp [collRun?, setRun]

theorem collRun?_key {s : State} {group seq : Nat} {r : CollRun} (h : collRun? s group seq = some r) :
    r.group = group ∧ r.seq = seq := by simpa [collRun?] using List.find?_some h

theorem sameBytes_setRun (s : State) (r : CollRun) : SameBytes s (setRun s r) := sameBytes_of rfl (fun _ => rfl) (fun _ => rfl)

/-- A value that comes last is found where none was before, and no other place changes. -/
theorem collVal_append {r : CollRun} {level idx : Nat} (v : List Nat) (h : collVal r level idx = none) :
    collVal { r with vals := r.vals ++ [(level, idx, v)] } level idx = some v := by
  unfold collVal at *
  rw [Option.map_eq_none_iff] at h
  rw [List.find?_append, h]
  simp

theorem collVal_append_ne {r : CollRun} {level idx l i : Nat} (v : List Nat) (h : l ≠ level) :
    collVal { r with vals := r.vals ++ [(level, idx, v)] } l i = collVal r l i := by
  unfold collVal
  rw [List.find?_append]
  have : ([(level, idx, v)] : List (Nat × Nat × List Nat)).find? (fun v => v.1 == l && v.2.1 == i) = none := by
    simp [Ne.symm h]
  rw [this, Option.or_none]

/-! ## A reduction that stops (R382) -/

/-- An operation that its reduction stops, with its own descriptor's address. -/
def stopOp (o : EngOp) : EngOp :=
  match o.kind with
  | .coll _ desc _ _ _ _ => if o.done || o.stamped || o.fault.isSome then o else { o with fault := some (desc, 0), pf := none }
  | _ => o

theorem stopOp_id (o : EngOp) : (stopOp o).id = o.id := by
  unfold stopOp
  split
  · split <;> rfl
  · rfl

theorem stopOp_stopOp (o : EngOp) : stopOp (stopOp o) = stopOp o := by
  obtain ⟨id, cls, blk, issuers, pkt, lanes, kind, ready, started, moved, stamped, fault, pf, done, engine⟩ := o
  cases kind with
  | coll =>
    by_cases h : (done || stamped || fault.isSome) = true
    · simp [stopOp, h]
    · simp [stopOp, h]
  | _ => rfl

theorem stopOp_fault {o : EngOp} {c desc g n d l : Nat} (hk : o.kind = .coll c desc g n d l) (hd : o.done = false)
    (hs : o.stamped = false) (hf : o.fault = none) : (stopOp o).fault = some (desc, 0) := by
  simp [stopOp, hk, hd, hs, hf]

theorem stopRun_eq (s : State) (r : CollRun) : stopRun s r =
    r.slots.foldl (fun s e => updOp s e.2.1 stopOp) (setRun s { r with stopped := true, vals := [] }) := rfl

/-- A change of operations alone. -/
theorem foldl_updOp_rest {α : Type} (key : α → Nat) (f : EngOp → EngOp) (l : List α) (s : State) :
    l.foldl (fun s e => updOp s (key e) f) s = { s with ops := (l.foldl (fun s e => updOp s (key e) f) s).ops } := by
  induction l generalizing s with
  | nil => rfl
  | cons e l ih => rw [List.foldl_cons, ih]; rfl

/-- A reduction of which a contributor's grid faults before every slot is filled stops, with every contributor's command
(R382). -/
theorem stopRun_spec (s : State) (r : CollRun) :
    SameBytes s (stopRun s r) ∧ collRun? (stopRun s r) r.group r.seq = some { r with stopped := true, vals := [] } ∧
      ∀ e ∈ r.slots, op? (stopRun s r) e.2.1 = (op? s e.2.1).map stopOp := by
  have hrest := foldl_updOp_rest (fun e : Nat × Nat × Nat => e.2.1) stopOp r.slots
    (setRun s { r with stopped := true, vals := [] })
  rw [← stopRun_eq] at hrest
  refine ⟨?_, ?_, fun e he => ?_⟩
  · rw [hrest]
    exact sameBytes_of rfl (fun _ => rfl) (fun _ => rfl)
  · rw [hrest]
    exact collRun?_setRun s { r with stopped := true, vals := [] }
  · rw [stopRun_eq, op?_foldl_updOp _ stopOp_id stopOp_stopOp, if_pos (List.mem_map_of_mem he)]
    rfl

/-- COLL_COMBINE of a reduction of which a contributor's grid has faulted (R382). -/
theorem exec_collCombine_faulted {group seq level idx : Nat} {s : State} {r : CollRun} (hr : collRun? s group seq = some r)
    (hs : r.stopped = false) (hl : r.slots.length < 2 ^ r.logs)
    (hf : ∃ g ∈ r.grids, ∃ gr, s.grid? g = some gr ∧ gr.st = .faulted) :
    exec (.collCombine group seq level idx) s = .next (stopRun s r) := by
  have hfault : runFaulted s r = true := by
    obtain ⟨g, hg, gr, hgr, hst⟩ := hf
    simp only [runFaulted, decide_eq_true hl, Bool.true_and, List.any_eq_true]
    exact ⟨g, hg, by simp [hgr, hst]⟩
  change execCollCombine group seq level idx s = _
  simp only [execCollCombine, hr, hs, hfault, Bool.false_eq_true, if_false, if_true]

/-! ## Delivery (R155, R271) -/

/-- A change of memory, of what is noted with it and with an access, and of operations, alone. -/
def EngineOnly (s t : State) : Prop :=
  t = { s with mem := t.mem, pairs := t.pairs, owners := t.owners, free := t.free, tlb := t.tlb, hbmRetry := t.hbmRetry,
               ops := t.ops }

namespace EngineOnly

theorem refl (s : State) : EngineOnly s s := rfl

theorem trans {s t u : State} (h : EngineOnly s t) (h' : EngineOnly t u) : EngineOnly s u := by
  unfold EngineOnly at *
  rw [h'.trans (by rw [h])]

theorem of_memOnly {s t : State} (h : MemOnly s t) : EngineOnly s t := by
  unfold EngineOnly
  rw [h]

theorem of_fetchOnly {s t : State} (h : FetchOnly s t) : EngineOnly s t := by
  unfold EngineOnly
  rw [h]

theorem updOp (s : State) (id : Nat) (f : EngOp → EngOp) : EngineOnly s (updOp s id f) := rfl

theorem grids {s t : State} (h : EngineOnly s t) : t.grids = s.grids := by rw [h]

theorem colls {s t : State} (h : EngineOnly s t) : t.colls = s.colls := by rw [h]

end EngineOnly

/-- Pieces of global memory. -/
def globals (ps : List (Nat × Nat)) : List (Place × Nat) := ps.map (fun p => (.g p.1, p.2))

theorem memOnly_writePieces (ps : List (Nat × Nat)) (s : State) (data : List (Option Byte)) :
    MemOnly s (writePieces s (globals ps) data) := by
  induction ps generalizing s data with
  | nil => exact .refl s
  | cons p ps ih =>
    have hw : MemOnly s (writePiece s (.g p.1) (data.take p.2)) := by
      unfold writePiece
      split
      · exact memOnly_unitWrite _ _ _
      · refine MemOnly.foldl (fun s e => ?_) _ _
        split
        · exact memOnly_unitWrite _ _ _
        · exact .refl s
    refine MemOnly.trans ?_ (ih _ _)
    split
    · exact hw.trans (memOnly_spoil _ _ _)
    · exact hw

/-- Where no launch has a ladder, no header is spoiled (R31). -/
theorem spoil_noLadders {s : State} (h : noLadders s) (a n : Nat) : spoil s a n = s := by
  have hl : liveHeaders s = [] := by
    rw [liveHeaders, List.filterMap_eq_nil_iff]
    intro e he
    rw [h e he]
  rw [spoil, hl]
  rfl

/-- Bytes of memory read one by one. -/
theorem flatMap_read_one (m : Memory) (a n : Nat) : (List.range n).flatMap (fun i => m.read (a + i) 1) = m.read a n := by
  induction n generalizing a with
  | zero => rfl
  | succ n ih =>
    rw [List.range_succ_eq_map, List.flatMap_cons, List.flatMap_map]
    have := ih (a + 1)
    simp only [Nat.succ_eq_add_one, Nat.add_assoc, Nat.add_comm 1] at this ⊢
    rw [this]
    rfl

/-- Bytes written to pieces of global memory: each lands in its place, no other place changes. -/
theorem writePieces_globals (ps : List (Nat × Nat)) {s : State} {data : List Byte} (hn : noLadders s)
    (hl : (ps.map Prod.snd).sum = data.length) :
    let t := writePieces s (globals ps) (data.map some)
    (∀ q, q ∉ bytesOf (globals ps) → readPlace t q 1 = readPlace s q 1) ∧
      ((bytesOf (globals ps)).Nodup → (bytesOf (globals ps)).flatMap (fun p => readPlace t p 1) = data) := by
  induction ps generalizing s data with
  | nil =>
    refine ⟨fun _ _ => rfl, fun _ => ?_⟩
    exact (List.eq_nil_of_length_eq_zero hl.symm).symm
  | cons p ps ih =>
    obtain ⟨a, n⟩ := p
    have hlen : (data.take n).length = n := by
      rw [List.length_take]
      simp at hl
      omega
    have hs' : writePieces s (globals ((a, n) :: ps)) (data.map some) =
        writePieces (unitWrite s a (data.take n)) (globals ps) ((data.drop n).map some) := by
      have hall : ((data.map some).take n).all Option.isSome = true := by
        rw [← List.map_take, List.all_map]
        exact List.all_eq_true.2 fun _ _ => rfl
      have hget : ((data.map some).take n).map (·.getD 0) = data.take n := by
        rw [← List.map_take, List.map_map]
        exact List.map_id _
      have hsp : ∀ u : State, noLadders u → spoilPlace u (.g a) n = u := fun u hu => spoil_noLadders hu a n
      rw [globals, List.map_cons, writePieces]
      simp only [writePiece, hall, if_true, hget, writePlace, ← List.map_drop]
      rw [hsp (unitWrite s a (data.take n)) hn, ite_self]
      rfl
    obtain ⟨h1, h2⟩ := ih (s := unitWrite s a (data.take n)) (data := data.drop n) hn (by
      rw [List.length_drop, ← hl]
      simp)
    have hmem : ∀ q, q ∉ (List.range n).map (Place.add (.g a)) →
        readPlace (unitWrite s a (data.take n)) q 1 = readPlace s q 1 := by
      intro q hq
      cases q with
      | g k =>
        refine Memory.read_write_outside _ _ _ _ _ ?_
        by_contra hno
        refine hq (List.mem_map.2 ⟨k - a, List.mem_range.2 (by omega), ?_⟩)
        simp only [Place.add, Place.g.injEq]
        omega
      | sp => rfl
      | acc => rfl
    rw [hs']
    have hb : bytesOf (globals ((a, n) :: ps)) = (List.range n).map (Place.add (.g a)) ++ bytesOf (globals ps) := rfl
    rw [hb]
    refine ⟨fun q hq => ?_, fun hnd => ?_⟩
    · rw [List.mem_append, not_or] at hq
      rw [h1 q hq.2, hmem q hq.1]
    · obtain ⟨-, hnd2, hdis⟩ := List.nodup_append.1 hnd
      rw [List.flatMap_append, h2 hnd2]
      have hfirst : ((List.range n).map (Place.add (.g a))).flatMap (fun p => readPlace
          (writePieces (unitWrite s a (data.take n)) (globals ps) ((data.drop n).map some)) p 1) = data.take n := by
        rw [List.flatMap_congr (g := fun p => readPlace (unitWrite s a (data.take n)) p 1)
          (fun p hp => h1 p (fun hp' => hdis p hp p hp' rfl)), List.flatMap_map]
        refine (flatMap_read_one (s.mem.write a (data.take n)) a n).trans ?_
        have hself := Memory.read_write_self s.mem a (data.take n)
        rwa [hlen] at hself
      rw [hfirst, List.take_append_drop]

/-- The delivery of a result to one contributor. -/
def deliverTo (data : List Byte) (s : State) (e : Nat × Nat × Nat) : State :=
  match op? s e.2.1 with
  | none => s
  | some o =>
    if o.done || o.stamped || o.fault.isSome || o.pf.isSome then s
    else
      match longPieces s (opCtx s o) .write (data.length + 1) e.2.2 data.length with
      | .error err => opFault s o.id err .write
      | .ok (ps, s) =>
        updOp (piecesDone (writePieces s (globals ps) (data.map some)) (globals ps)) o.id (fun o => { o with stamped := true })

/-- Bytes of an element of a reduction's result. -/
def elemBytes (r : CollRun) : Nat := if r.sub = 6 then 8 else fmtBits ((Fmt.ofCode (BitVec.ofNat 6 r.fmt)).getD .f32) / 8

theorem deliverRun_none {s : State} {r : CollRun} (h : collVal r r.logs 0 = none) : deliverRun s r = s := by
  rw [deliverRun, h]

theorem deliverRun_some {s : State} {r : CollRun} {out : List Nat} (h : collVal r r.logs 0 = some out) : deliverRun s r =
    if r.stopped || r.grids.any (fun g => (s.grid? g).any (fun g => g.st == .cut)) then s
    else r.slots.foldl (deliverTo (out.flatMap (leBytes (elemBytes r)))) s := by
  rw [deliverRun, h]
  rfl

/-- An operation to whose range the result has been written. -/
def stampOp (o : EngOp) : EngOp := { o with stamped := true }

/-- An operation whose write of the result has failed (R78). -/
def failOp (err : AccFault) (o : EngOp) : EngOp :=
  if err.cause = cPf then { o with pf := some (err.va, 1, none) } else { o with fault := some (err.va, 1) }

theorem failOp_frame (err : AccFault) (o : EngOp) :
    (failOp err o).id = o.id ∧ (failOp err o).kind = o.kind ∧ (failOp err o).started = o.started := by
  unfold failOp
  split <;> exact ⟨rfl, rfl, rfl⟩

/-- A contributor's operation awaits the result. -/
def Awaiting (s : State) (id : Nat) (o : EngOp) : Prop :=
  op? s id = some o ∧ o.done = false ∧ o.stamped = false ∧ o.fault = none ∧ o.pf = none

/-- A result whose range may be written. -/
theorem deliverTo_ok {data : List Byte} {s s1 : State} {e : Nat × Nat × Nat} {o : EngOp} {ps : List (Nat × Nat)}
    (h : Awaiting s e.2.1 o) (hl : longPieces s (opCtx s o) .write (data.length + 1) e.2.2 data.length = .ok (ps, s1)) :
    deliverTo data s e =
      updOp (piecesDone (writePieces s1 (globals ps) (data.map some)) (globals ps)) e.2.1 stampOp := by
  obtain ⟨ho, hd, hs, hf, hp⟩ := h
  rw [deliverTo, ho]
  simp only [hd, hs, hf, hp, Option.isSome_none, Bool.or_self, Bool.false_eq_true, if_false, op?_id ho, hl]
  rfl

/-- A result whose range may not be written. -/
theorem deliverTo_error {data : List Byte} {s : State} {e : Nat × Nat × Nat} {o : EngOp} {err : AccFault}
    (h : Awaiting s e.2.1 o) (hl : longPieces s (opCtx s o) .write (data.length + 1) e.2.2 data.length = .error err) :
    deliverTo data s e = updOp s e.2.1 (failOp err) := by
  obtain ⟨ho, hd, hs, hf, hp⟩ := h
  rw [deliverTo, ho]
  simp only [hd, hs, hf, hp, Option.isSome_none, Bool.or_self, Bool.false_eq_true, if_false, op?_id ho, hl]
  rfl

theorem deliverTo_idle {data : List Byte} {s : State} {e : Nat × Nat × Nat} (h : ¬∃ o, Awaiting s e.2.1 o) :
    deliverTo data s e = s := by
  unfold deliverTo
  split
  · rfl
  · rename_i o ho
    refine if_pos ?_
    by_contra hno
    simp only [Bool.not_eq_true, Bool.or_eq_false_iff, Option.isSome_eq_false_iff, Option.isNone_iff_eq_none] at hno
    obtain ⟨⟨⟨hd, hs⟩, hf⟩, hp⟩ := hno
    exact h ⟨o, ho, hd, hs, hf, hp⟩

/-- The write of a result at a contributor's range: memory and the translations kept, alone. -/
theorem engineOnly_delivery {ctx fuel va n : Nat} {s s1 : State} {ps : List (Nat × Nat)} (data : List (Option Byte))
    (hn : n ≤ fuel) (h : longPieces s ctx .write fuel va n = .ok (ps, s1)) :
    EngineOnly s (piecesDone (writePieces s1 (globals ps) data) (globals ps)) ∧
      (piecesDone (writePieces s1 (globals ps) data) (globals ps)).ops = s.ops := by
  have h1 := (longPieces_spec fuel hn h).1
  have h2 := memOnly_writePieces ps s1 data
  have h3 := fetchOnly_piecesDone (writePieces s1 (globals ps) data) (globals ps)
  refine ⟨(EngineOnly.of_fetchOnly h1).trans ((EngineOnly.of_memOnly h2).trans (.of_fetchOnly h3)), ?_⟩
  rw [h3]
  show (writePieces s1 (globals ps) data).ops = _
  rw [h2]
  show s1.ops = _
  rw [h1]

/-- A delivery changes one operation, and of that neither its kind nor that it has started. -/
theorem deliverTo_frame (data : List Byte) (s : State) (e : Nat × Nat × Nat) : EngineOnly s (deliverTo data s e) ∧
    ∃ f : EngOp → EngOp, (∀ o, (f o).id = o.id ∧ (f o).kind = o.kind ∧ (f o).started = o.started) ∧
      ∀ i, op? (deliverTo data s e) i = if i = e.2.1 then (op? s i).map f else op? s i := by
  by_cases h : ∃ o, Awaiting s e.2.1 o
  · obtain ⟨o, ho⟩ := h
    cases hl : longPieces s (opCtx s o) .write (data.length + 1) e.2.2 data.length with
    | error err =>
      rw [deliverTo_error ho hl]
      exact ⟨.updOp _ _ _, failOp err, failOp_frame err, fun i => op?_updOp _ _ _ fun o => (failOp_frame err o).1⟩
    | ok r =>
      obtain ⟨ps, s1⟩ := r
      rw [deliverTo_ok ho hl]
      obtain ⟨h1, h2⟩ := engineOnly_delivery (data.map some) (Nat.le_succ _) hl
      refine ⟨h1.trans (.updOp _ _ _), stampOp, fun o => ⟨rfl, rfl, rfl⟩, fun i => ?_⟩
      rw [op?_updOp (f := stampOp) _ _ _ (fun _ => rfl), op?, h2]
      rfl
  · rw [deliverTo_idle h]
    exact ⟨.refl s, id, fun o => ⟨rfl, rfl, rfl⟩, fun i => by simp⟩

/-- Deliveries change memory and the contributors' operations alone; kinds and starts stay. -/
theorem foldl_deliverTo (data : List Byte) (l : List (Nat × Nat × Nat)) (s : State) :
    EngineOnly s (l.foldl (deliverTo data) s) ∧ ∀ i o, op? s i = some o →
      ∃ o', op? (l.foldl (deliverTo data) s) i = some o' ∧ o'.kind = o.kind ∧ o'.started = o.started := by
  induction l generalizing s with
  | nil => exact ⟨.refl s, fun i o h => ⟨o, h, rfl, rfl⟩⟩
  | cons e l ih =>
    obtain ⟨h1, f, hf, hop⟩ := deliverTo_frame data s e
    obtain ⟨h2, hkind⟩ := ih (deliverTo data s e)
    refine ⟨h1.trans h2, fun i o ho => ?_⟩
    have hi := hop i
    rw [ho] at hi
    split at hi
    · obtain ⟨o', ho', hk, hs⟩ := hkind i _ hi
      exact ⟨o', ho', hk.trans (hf o).2.1, hs.trans (hf o).2.2⟩
    · exact hkind i o hi

theorem deliverRun_frame (s : State) (r : CollRun) : EngineOnly s (deliverRun s r) ∧ ∀ i o, op? s i = some o →
    ∃ o', op? (deliverRun s r) i = some o' ∧ o'.kind = o.kind ∧ o'.started = o.started := by
  cases h : collVal r r.logs 0 with
  | none =>
    rw [deliverRun_none h]
    exact ⟨.refl s, fun i o ho => ⟨o, ho, rfl, rfl⟩⟩
  | some out =>
    rw [deliverRun_some h]
    split
    · exact ⟨.refl s, fun i o ho => ⟨o, ho, rfl, rfl⟩⟩
    · exact foldl_deliverTo _ _ _

/-- The delivery of a result goes from contributor to contributor (R155, R271). -/
theorem delivers_foldl (data : List Byte) (l : List (Nat × Nat × Nat)) {s : State} (hn : noLadders s) :
    Delivers data l s (l.foldl (deliverTo data) s) := by
  induction l generalizing s with
  | nil => rfl
  | cons e l ih =>
    obtain ⟨hu, f, hf, hop⟩ := deliverTo_frame data s e
    have hnu : noLadders (deliverTo data s e) := by
      rw [noLadders, hu.grids]
      exact hn
    refine ⟨deliverTo data s e, ih hnu, fun id hid => ?_, fun o ho hd hs hf hp => ⟨fun ps s1 hl => ?_, fun err hl => ?_⟩,
      fun h => deliverTo_idle h⟩
    · rw [hop, if_neg hid]
    · have hw := deliverTo_ok ⟨ho, hd, hs, hf, hp⟩ hl
      obtain ⟨h1, h2⟩ := longPieces_spec _ (Nat.le_succ _) hl
      obtain ⟨h3, h4⟩ := writePieces_globals ps (s := s1) (data := data) (by rw [noLadders, h1]; exact hn) h2
      have hbytes : ∀ q, readPlace (deliverTo data s e) q 1 = readPlace (writePieces s1 (globals ps) (data.map some)) q 1 := by
        rw [hw]
        exact fun q => (sameBytes_updOp _ _ _ q).trans ((fetchOnly_piecesDone _ _).bytes q)
      refine ⟨?_, fun q hq => ?_, fun hnd => ?_⟩
      · rw [hw, op?_updOp (f := stampOp) _ _ _ (fun _ => rfl), if_pos rfl, op?, (engineOnly_delivery (data.map some) (Nat.le_succ _) hl).2]
        exact congrArg (Option.map stampOp) ho
      · exact (hbytes q).trans ((h3 q hq).trans (h1.bytes q))
      · exact (List.flatMap_congr fun p _ => hbytes p).trans (h4 hnd)
    · rw [deliverTo_error ⟨ho, hd, hs, hf, hp⟩ hl]
      refine ⟨sameBytes_updOp _ _ _, ?_⟩
      rw [op?_updOp _ _ _ (fun o => (failOp_frame err o).1), if_pos rfl, ho]
      rfl

/-- COLL_COMBINE at the root: the result is delivered (R155). -/
theorem exec_collCombine_root {group seq idx : Nat} {s : State} {r : CollRun} {out : List Nat}
    (hr : collRun? s group seq = some r) (hs : r.stopped = false) (hl : 2 ^ r.logs ≤ r.slots.length)
    (ho : collVal r r.logs 0 = some out) (hc : ∀ g ∈ r.grids, ∀ gr, s.grid? g = some gr → gr.st ≠ .cut) :
    exec (.collCombine group seq r.logs idx) s = .next (r.slots.foldl (deliverTo (out.flatMap (leBytes (elemBytes r)))) s) := by
  have hfault : runFaulted s r = false := by simp [runFaulted, Nat.not_lt.2 hl]
  have hcut : (r.stopped || r.grids.any (fun g => (s.grid? g).any (fun g => g.st == .cut))) = false := by
    simp only [hs, Bool.false_or, List.any_eq_false, Bool.not_eq_true]
    intro g hg
    cases hgr : s.grid? g with
    | none => rfl
    | some gr => simpa using hc g hg gr hgr
  change execCollCombine group seq r.logs idx s = _
  simp only [execCollCombine, hr, hs, hfault, Bool.false_eq_true, if_false, if_true]
  rw [deliverRun_some ho, if_neg (by simp [hcut])]

/-! ## A contribution joins its reduction (R155, R270, R271) -/

/-- A command of a collective reaches its engine (R64). -/
theorem exec_collStart {op sub desc g n d l : Nat} {s : State} {o : EngOp} (ho : op? s op = some o)
    (hk : o.kind = .coll sub desc g n d l) (hm : opMayStart s o = true) (hf : o.fault = none) (hp : o.pf = none) :
    exec (.engineCommandStart op) s = .next (collStart s o sub desc) := by
  change execEngineCommandStart op s = _
  simp [execEngineCommandStart, ho, hm, hf, hp, hk]

/-- Where no launch has a ladder, no block is barred from a range (R34). -/
theorem collForbids_noLadders {s : State} (h : noLadders s) {i : Nat} {g : Grid} (hg : s.grid? i = some g) (k : Block)
    (r : Nat × Nat) : collForbids g k r = false := by
  have hl : g.ladder = none := h _ (NMap.mem_of_find? hg)
  simp [collForbids, sealForbids, hl]

/-- A command of a collective that has started. -/
def startOp (sub desc : Nat) (d : CollDesc) (range : Nat × Nat) (o : EngOp) : EngOp :=
  { o with started := true, kind := .coll sub desc d.group d.seq range.1 range.2 }

/-- A reduction with one contribution more, of the grids given. -/
def CollRun.joined (r : CollRun) (own : List Nat) (slot op dst : Nat) (data : List Nat) : CollRun :=
  { r with grids := r.grids ++ own, slots := r.slots ++ [(slot, op, dst)], vals := r.vals ++ [(0, slot, data)] }

/-- A contribution that its descriptor allows fills its slot (R270, R271). -/
theorem collStart_joins {sub desc : Nat} {s s1 s2 : State} {o : EngOp} {bs : List Byte} {ps : List (Nat × Nat)} {r : CollRun}
    (hb : fetchVirt s (opCtx s o) desc 64 = .ok (bs, s1)) (hd : collOk sub (leNat bs) (collDesc (leNat bs)) = true)
    (hr : joinRun s sub (collDesc (leNat bs)) = r) (hn : noLadders s)
    (hg : ∀ g ∈ r.grids ++ ((s.block? o.blk).map (·.grid)).toList, ∀ gr, s.grid? g = some gr → gr.st ≠ .faulted)
    (hst : r.stopped = false) (hslot : ∀ e ∈ r.slots, e.1 ≠ (collDesc (leNat bs)).slot) (hsub : r.sub = sub)
    (hfmt : r.fmt = (collDesc (leNat bs)).fmt) (hcount : r.count = (collDesc (leNat bs)).count)
    (hk : r.k = (collDesc (leNat bs)).k) (hlogs : r.logs = (collDesc (leNat bs)).logs)
    (hl : longPieces s1 (opCtx s o) .read (collElem sub (collDesc (leNat bs)) * collElems sub (collDesc (leNat bs)) + 1)
      (collDesc (leNat bs)).src (collElem sub (collDesc (leNat bs)) * collElems sub (collDesc (leNat bs))) = .ok (ps, s2)) :
    let d := collDesc (leNat bs)
    let r' := r.joined ((s.block? o.blk).map (·.grid)).toList d.slot o.id d.dst
      (chunk (collElem sub d) (collElems sub d) (ps.flatMap (fun p => s2.mem.read p.1 p.2)))
    collStart s o sub desc =
      deliverRun (setRun (piecesDone (updOp s2 o.id (startOp sub desc d (collRange sub (leNat bs)))) (globals ps)) r') r' := by
  have hs1 : FetchOnly s s1 := fetchOnly_fetchVirt hb
  have hblock : s1.block? o.blk = s.block? o.blk := by rw [hs1]; rfl
  have hgrid : ∀ i, s1.grid? i = s.grid? i := fun i => by rw [hs1]; rfl
  have hrun : joinRun s1 sub (collDesc (leNat bs)) = r := by rw [← hr, hs1]; rfl
  have hforbid : ∀ range, ((s.block? o.blk).any fun k => (s.grid? k.grid).any fun g => collForbids g k range) = false := by
    intro range
    cases s.block? o.blk with
    | none => rfl
    | some k =>
      cases hgr : s.grid? k.grid with
      | none => simp [hgr]
      | some g => simp [hgr, collForbids_noLadders hn hgr]
  have hfault : (r.grids ++ ((s.block? o.blk).map (·.grid)).toList).any (fun g => (s1.grid? g).any (fun g => g.st == .faulted)) =
      false := by
    rw [List.any_eq_false]
    intro g hg'
    rw [hgrid]
    cases hgr : s.grid? g with
    | none => simp
    | some gr => simpa using hg g hg' gr hgr
  have hfree : (r.slots.any fun e => e.1 == (collDesc (leNat bs)).slot) = false := by
    simpa [List.any_eq_false] using hslot
  intro d r'
  unfold collStart
  simp only [hb, hrun]
  rw [if_neg (by simp [hblock, hgrid, hforbid]), if_neg (by
    simp only [runFaulted, hblock, hfault, hd, hst, hfree, hsub, hfmt, hcount, hk, hlogs, bne_self_eq_false, Bool.and_false,
      Bool.not_true, Bool.or_self, Bool.false_eq_true, not_false_eq_true]), hl, hblock]
  rfl

/-- A contribution's command starts (R64, R155, R270, R271). -/
theorem collStart_spec {op sub desc g0 n0 d0 l0 : Nat} {s s1 s2 : State} {o : EngOp} {bs : List Byte} {ps : List (Nat × Nat)}
    {r : CollRun} (ho : op? s op = some o) (hkind : o.kind = .coll sub desc g0 n0 d0 l0) (hmay : opMayStart s o = true)
    (hfault : o.fault = none) (hpf : o.pf = none)
    (hb : fetchVirt s (opCtx s o) desc 64 = .ok (bs, s1)) (hd : collOk sub (leNat bs) (collDesc (leNat bs)) = true)
    (hr : joinRun s sub (collDesc (leNat bs)) = r) (hn : noLadders s)
    (hg : ∀ g ∈ r.grids ++ ((s.block? o.blk).map (·.grid)).toList, ∀ gr, s.grid? g = some gr → gr.st ≠ .faulted)
    (hst : r.stopped = false) (hslot : ∀ e ∈ r.slots, e.1 ≠ (collDesc (leNat bs)).slot) (hsub : r.sub = sub)
    (hfmt : r.fmt = (collDesc (leNat bs)).fmt) (hcount : r.count = (collDesc (leNat bs)).count)
    (hk : r.k = (collDesc (leNat bs)).k) (hlogs : r.logs = (collDesc (leNat bs)).logs)
    (hl : longPieces s1 (opCtx s o) .read (collElem sub (collDesc (leNat bs)) * collElems sub (collDesc (leNat bs)) + 1)
      (collDesc (leNat bs)).src (collElem sub (collDesc (leNat bs)) * collElems sub (collDesc (leNat bs))) = .ok (ps, s2))
    (hval : collVal r 0 (collDesc (leNat bs)).slot = none) :
    let d := collDesc (leNat bs)
    ∃ t r', exec (.engineCommandStart op) s = .next t ∧ (∃ o', op? t op = some o' ∧ o'.started = true ∧
        o'.kind = .coll sub desc d.group d.seq (collRange sub (leNat bs)).1 (collRange sub (leNat bs)).2) ∧
      collRun? t d.group d.seq = some r' ∧ r'.slots = r.slots ++ [(d.slot, op, d.dst)] ∧
      r'.grids = r.grids ++ ((s.block? o.blk).map (·.grid)).toList ∧
      collVal r' 0 d.slot = some (chunk (collElem sub d) (collElems sub d) (ps.flatMap (fun p => s.mem.read p.1 p.2))) ∧
      (collVal r' r'.logs 0 = none → SameBytes s t) := by
  have hs2 : FetchOnly s s2 := (fetchOnly_fetchVirt hb).trans (longPieces_spec _ (Nat.le_succ _) hl).1
  have hmem : s2.mem = s.mem := by rw [hs2]
  have hid : o.id = op := op?_id ho
  have hkey : r.group = (collDesc (leNat bs)).group ∧ r.seq = (collDesc (leNat bs)).seq := by
    rw [joinRun] at hr
    cases hrun : collRun? s (collDesc (leNat bs)).group (collDesc (leNat bs)).seq with
    | none =>
      rw [hrun] at hr
      subst hr
      exact ⟨rfl, rfl⟩
    | some r0 =>
      rw [hrun] at hr
      subst hr
      exact collRun?_key hrun
  have hx := exec_collStart ho hkind hmay hfault hpf
  rw [collStart_joins hb hd hr hn hg hst hslot hsub hfmt hcount hk hlogs hl, hmem, hid] at hx
  intro d
  have hu : FetchOnly (updOp s2 op (startOp sub desc d (collRange sub (leNat bs))))
      (piecesDone (updOp s2 op (startOp sub desc d (collRange sub (leNat bs)))) (globals ps)) := fetchOnly_piecesDone _ _
  generalize piecesDone (updOp s2 op (startOp sub desc d (collRange sub (leNat bs)))) (globals ps) = u at hx hu
  have hop : op? u op = some (startOp sub desc d (collRange sub (leNat bs)) o) := by
    rw [op?, hu]
    refine (op?_updOp (f := startOp sub desc d (collRange sub (leNat bs))) s2 op op (fun _ => rfl)).trans ?_
    rw [if_pos rfl, op?, hs2]
    exact congrArg (Option.map _) ho
  have hbytes : SameBytes s u := hs2.bytes.trans ((sameBytes_updOp _ _ _).trans hu.bytes)
  generalize hr' : r.joined ((s.block? o.blk).map (·.grid)).toList d.slot op d.dst
    (chunk (collElem sub d) (collElems sub d) (ps.flatMap (fun p => s.mem.read p.1 p.2))) = r' at hx
  have hrun' : collRun? (setRun u r') d.group d.seq = some r' := by
    rw [← hkey.1, ← hkey.2, ← show r'.group = r.group by rw [← hr']; rfl, ← show r'.seq = r.seq by rw [← hr']; rfl]
    exact collRun?_setRun u r'
  obtain ⟨hframe, hkept⟩ := deliverRun_frame (setRun u r') r'
  obtain ⟨o', ho', hk', hs'⟩ := hkept op _ hop
  refine ⟨_, r', hx, ⟨o', ho', hs', hk'⟩, ?_, ?_, ?_, ?_, fun hnone => ?_⟩
  · rw [collRun?, hframe.colls]
    exact hrun'
  · rw [← hr']
    rfl
  · rw [← hr']
    rfl
  · rw [← hr']
    exact collVal_append _ hval
  · rw [deliverRun_none hnone]
    exact hbytes.trans (sameBytes_setRun _ _)

/-! ## Combination (R155, R271) -/

/-- A reduction with one value more. -/
def CollRun.combined (r : CollRun) (level idx : Nat) (v : List Nat) : CollRun := { r with vals := r.vals ++ [(level, idx, v)] }

/-- COLL_COMBINE below the root: two values combine, and the result is delivered when it is the root's (R271). -/
theorem exec_collCombine {group seq level idx : Nat} {s : State} {r : CollRun} {a b : List Nat}
    (hr : collRun? s group seq = some r) (hs : r.stopped = false) (hn : r.slots.length = 2 ^ r.logs) (hl : level < r.logs)
    (ha : collVal r level (2 * idx) = some a) (hb : collVal r level (2 * idx + 1) = some b)
    (hnone : collVal r (level + 1) idx = none) :
    let r' := r.combined (level + 1) idx (combineRows r a b)
    exec (.collCombine group seq level idx) s = .next (deliverRun (setRun s r') r') := by
  have hfault : runFaulted s r = false := by simp [runFaulted, hn]
  change execCollCombine group seq level idx s = _
  unfold execCollCombine
  rw [hr]
  dsimp only
  rw [if_neg (by simp [hs]), if_neg (by simp [hfault]), if_neg (Nat.ne_of_lt hl), ha, hb]
  dsimp only
  rw [if_neg (by simp [hnone, hl])]
  rfl

theorem collCombine_spec {group seq level idx : Nat} {s : State} {r : CollRun} {a b : List Nat}
    (hr : collRun? s group seq = some r) (hs : r.stopped = false) (hn : r.slots.length = 2 ^ r.logs) (hl : level < r.logs)
    (ha : collVal r level (2 * idx) = some a) (hb : collVal r level (2 * idx + 1) = some b)
    (hnone : collVal r (level + 1) idx = none) :
    ∃ t r', exec (.collCombine group seq level idx) s = .next t ∧ collRun? t group seq = some r' ∧
      collVal r' (level + 1) idx = some (combineRows r a b) ∧
      (level + 1 < r.logs → collVal r r.logs 0 = none → SameBytes s t) := by
  refine ⟨_, r.combined (level + 1) idx (combineRows r a b), exec_collCombine hr hs hn hl ha hb hnone, ?_,
    collVal_append _ hnone, fun hlt hroot => ?_⟩
  · rw [collRun?, (deliverRun_frame _ _).1.colls, ← (collRun?_key hr).1, ← (collRun?_key hr).2]
    exact collRun?_setRun s (r.combined (level + 1) idx (combineRows r a b))
  · rw [deliverRun_none (r := r.combined (level + 1) idx (combineRows r a b))
      ((collVal_append_ne _ (Nat.ne_of_gt hlt)).trans hroot)]
    exact sameBytes_setRun _ _

/-- Elements combine one by one, the lower slot's on the left (R271). -/
theorem combineRows_elements {r : CollRun} (h : r.sub < 6) (a b : List Nat) :
    (combineRows r a b).length = min a.length b.length ∧ ∀ i p q : Nat, a[i]? = some p → b[i]? = some q →
      (combineRows r a b)[i]? =
        some (laneOp ((Fmt.ofCode (BitVec.ofNat 6 r.fmt)).getD .f32) (r.sub % 3) 0 p q).1 := by
  have hc : combineRows r a b =
      (a.zip b).map (fun e => (laneOp ((Fmt.ofCode (BitVec.ofNat 6 r.fmt)).getD .f32) (r.sub % 3) 0 e.1 e.2).1) := if_pos h
  rw [hc]
  refine ⟨by simp, fun i p q hp hq => ?_⟩
  rw [List.getElem?_map, (List.getElem?_zip_eq_some (z := (p, q))).2 ⟨hp, hq⟩]
  rfl

/-! ## The order of `topk` (R154) -/

theorem atScale_cast (n : Bool) (m : Nat) {e s : Int} (h : s ≤ e) :
    ((Num.atScale n m e s : Int) : ℚ) * 2 ^ s = (if n then -1 else 1) * m * 2 ^ e := by
  have hp : (2 : ℚ) ^ (e - s).toNat * 2 ^ s = 2 ^ e := by
    rw [← zpow_natCast, ← zpow_add₀ two_ne_zero]
    congr 1
    omega
  cases n <;> simp [Num.atScale, mul_assoc, hp]

/-- Where a value stands in the order of R154: NaN lowest, then −∞, the finite values, and +∞. -/
def Num.rank : Num → ℤ ×ₗ ℚ
  | .nan _ => toLex (-2, 0)
  | .inf true => toLex (-1, 0)
  | .inf false => toLex (1, 0)
  | .fin n m e => toLex (0, (if n then -1 else 1) * m * 2 ^ e)

theorem Num.lt_fin (n1 n2 : Bool) (m1 m2 : Nat) (e1 e2 : Int) :
    Num.lt (.fin n1 m1 e1) (.fin n2 m2 e2) = true ↔ (Num.fin n1 m1 e1).rank < (Num.fin n2 m2 e2).rank := by
  have hpos : (0 : ℚ) < 2 ^ min e1 e2 := by positivity
  rw [Num.rank, Num.rank, Prod.Lex.toLex_lt_toLex, ← atScale_cast n1 m1 (min_le_left e1 e2),
    ← atScale_cast n2 m2 (min_le_right e1 e2), mul_lt_mul_iff_left₀ hpos, Int.cast_lt]
  simp [Num.lt, Num.cmp, compare_lt_iff_lt]

/-- Of values that are no NaN, the lesser is the one of lower rank. -/
theorem Num.lt_iff {x y : Num} (hx : x.isNan = false) (hy : y.isNan = false) : x.lt y = true ↔ x.rank < y.rank := by
  cases x with
  | nan => cases hx
  | inf n1 =>
    cases y with
    | nan => cases hy
    | inf n2 => cases n1 <;> cases n2 <;> simp [Num.lt, Num.cmp, Num.rank, Prod.Lex.toLex_lt_toLex]
    | fin n2 m2 e2 => cases n1 <;> simp [Num.lt, Num.cmp, Num.rank, Prod.Lex.toLex_lt_toLex]
  | fin n1 m1 e1 =>
    cases y with
    | nan => cases hy
    | inf n2 => cases n2 <;> simp [Num.lt, Num.cmp, Num.rank, Prod.Lex.toLex_lt_toLex]
    | fin n2 m2 e2 => exact Num.lt_fin n1 n2 m1 m2 e1 e2

/-- A NaN ranks below every other value. -/
theorem Num.rank_nan_lt {x y : Num} (hx : x.isNan = true) : x.rank < y.rank ↔ y.isNan = false := by
  cases x with
  | nan =>
    rcases y with _ | (_ | _) | _ <;> simp [Num.rank, Num.isNan, Prod.Lex.toLex_lt_toLex]
  | inf => cases hx
  | fin => cases hx

theorem valBelow_iff (x y : Num) : valBelow x y ↔ x.rank < y.rank := by
  unfold valBelow
  cases hx : x.isNan with
  | true => simp [Num.rank_nan_lt hx]
  | false =>
    cases hy : y.isNan with
    | true =>
      have h : ¬x.rank < y.rank := fun h => absurd ((Num.rank_nan_lt hy).2 hx) (lt_asymm h)
      simp [h]
    | false =>
      rw [← Num.lt_iff hx hy]
      simp [Num.lt]

theorem valAbove_iff (a b : Nat) : valAbove a b = true ↔ (numOf .f32 b).rank < (numOf .f32 a).rank := by
  rw [← valBelow_iff]
  unfold valAbove valBelow
  cases numOf .f32 a <;> cases numOf .f32 b <;> simp [Num.isNan, Num.lt]

/-- Where a pair of a value, an index and a position stands: the greatest value first, then the least index, then the least
position (R154). -/
def pairRank (p : Nat × Nat × Nat) : (ℤ ×ₗ ℚ)ᵒᵈ ×ₗ ℕ ×ₗ ℕ :=
  toLex (OrderDual.toDual (numOf .f32 p.1).rank, toLex (p.2.1, p.2.2))

theorem pairRank_lt (p q : Nat × Nat × Nat) : pairRank p < pairRank q ↔
    (numOf .f32 q.1).rank < (numOf .f32 p.1).rank ∨
      ((numOf .f32 p.1).rank = (numOf .f32 q.1).rank ∧ (p.2.1 < q.2.1 ∨ (p.2.1 = q.2.1 ∧ p.2.2 < q.2.2))) := by
  rw [pairRank, pairRank, Prod.Lex.toLex_lt_toLex, Prod.Lex.toLex_lt_toLex]
  simp only [OrderDual.toDual_lt_toDual, EmbeddingLike.apply_eq_iff_eq]

theorem ranksAbove_iff (p q : Nat × Nat × Nat) : ranksAbove p q ↔ pairRank p < pairRank q := by
  rw [pairRank_lt, ranksAbove, valBelow_iff, valBelow_iff]
  rcases lt_trichotomy (numOf .f32 p.1).rank (numOf .f32 q.1).rank with h | h | h
  · simp [h, h.ne, lt_asymm h]
  · simp [h]
  · simp [h]

theorem pairAbove_iff (p q : Nat × Nat × Nat) : pairAbove p q = true ↔ pairRank p < pairRank q := by
  rw [pairRank_lt]
  simp only [pairAbove, valAbove_iff]
  rcases lt_trichotomy (numOf .f32 p.1).rank (numOf .f32 q.1).rank with h | h | h
  · simp [h, h.ne, lt_asymm h]
  · by_cases hi : p.2.1 = q.2.1 <;> simp [h, hi]
  · simp [h]

/-! ## Pairs in falling rank (R154) -/

/-- The positions, of those below `n`, whose pairs rank above that of `p`. -/
def ranksBefore (at_ : Nat → Nat × Nat × Nat) (n p : Nat) : List Nat := (List.range n).filter (fun q => pairAbove (at_ q) (at_ p))

/-- A pair that ranks above another has fewer pairs above it. -/
theorem length_ranksBefore_lt {at_ : Nat → Nat × Nat × Nat} {n p q : Nat} (hp : p < n) (h : pairRank (at_ p) < pairRank (at_ q)) :
    (ranksBefore at_ n p).length < (ranksBefore at_ n q).length := by
  have hsub : (ranksBefore at_ n p).Sublist (ranksBefore at_ n q) :=
    List.monotone_filter_right _ fun r hr => (pairAbove_iff _ _).2 (((pairAbove_iff _ _).1 hr).trans h)
  refine lt_of_le_of_ne hsub.length_le fun heq => ?_
  have hmem : p ∈ ranksBefore at_ n q := List.mem_filter.2 ⟨List.mem_range.2 hp, (pairAbove_iff _ _).2 h⟩
  rw [← hsub.eq_of_length heq] at hmem
  exact lt_irrefl _ ((pairAbove_iff _ _).1 (List.mem_filter.1 hmem).2)

/-- The pair of a list with `r` pairs above it. -/
def pairOfRank (ps : List (Nat × Nat × Nat)) (r : Nat) : Option (Nat × Nat × Nat) :=
  ps.find? (fun p => (ps.filter (fun q => pairAbove q p)).length == r)

section
variable {at_ : Nat → Nat × Nat × Nat} (hpos : ∀ j, (at_ j).2.2 = j) {n : Nat}
include hpos

theorem pairRank_injective : Function.Injective (fun j => pairRank (at_ j)) := fun i j h => by
  have := congrArg (fun x => (ofLex (ofLex x).2).2) h
  simpa [pairRank, hpos] using this

/-- For every rank below `n` there is a pair with as many above it. -/
theorem exists_ranksBefore {r : Nat} (hr : r < n) : ∃ p, p < n ∧ (ranksBefore at_ n p).length = r := by
  have hnd : ((List.range n).map (fun p => (ranksBefore at_ n p).length)).Nodup := by
    refine List.Nodup.map_on (fun p hp q hq h => ?_) List.nodup_range
    rcases lt_trichotomy (pairRank (at_ p)) (pairRank (at_ q)) with hlt | heq | hlt
    · exact absurd h (length_ranksBefore_lt (List.mem_range.1 hp) hlt).ne
    · exact pairRank_injective hpos heq
    · exact absurd h (length_ranksBefore_lt (List.mem_range.1 hq) hlt).ne'
  have hsub : (List.range n).map (fun p => (ranksBefore at_ n p).length) ⊆ List.range n := fun m hm => by
    obtain ⟨p, hp, rfl⟩ := List.mem_map.1 hm
    refine List.mem_range.2 (lt_of_le_of_ne ((List.length_filter_le _ _).trans List.length_range.le) fun heq => ?_)
    have hall := List.length_filter_eq_length_iff.1 (heq.trans List.length_range.symm) p hp
    exact lt_irrefl _ ((pairAbove_iff _ _).1 hall)
  have hperm := (hnd.subperm hsub).perm_of_length_le (by simp)
  obtain ⟨p, hp, h⟩ := List.mem_map.1 (hperm.mem_iff.2 (List.mem_range.2 hr))
  exact ⟨p, List.mem_range.1 hp, h⟩

theorem pairOfRank_spec {r : Nat} (hr : r < n) : ∃ p, p < n ∧ pairOfRank ((List.range n).map at_) r = some (at_ p) ∧
    (ranksBefore at_ n p).length = r := by
  obtain ⟨p0, hp0, h0⟩ := exists_ranksBefore hpos hr
  have hcount : ∀ p, (((List.range n).map at_).filter (fun q => pairAbove q (at_ p))).length = (ranksBefore at_ n p).length :=
    fun p => by rw [List.filter_map, List.length_map]; rfl
  cases hf : pairOfRank ((List.range n).map at_) r with
  | none =>
    have := List.find?_eq_none.1 hf (at_ p0) (List.mem_map_of_mem (List.mem_range.2 hp0))
    exact absurd (by rw [hcount, h0]; simp) this
  | some e =>
    obtain ⟨p, hp, rfl⟩ := List.mem_map.1 (List.mem_of_find?_eq_some hf)
    refine ⟨p, List.mem_range.1 hp, rfl, ?_⟩
    have := List.find?_some hf
    rw [hcount] at this
    simpa using this

/-- The pair of a rank is the one with as many pairs above it (R154). -/
theorem getElem?_rankPairs {r : Nat} (hr : r < n) : ∃ p, p < n ∧ (rankPairs ((List.range n).map at_))[r]? = some (at_ p) ∧
    (ranksBefore at_ n p).length = r := by
  have hmap : rankPairs ((List.range n).map at_) =
      (List.range n).map (fun r => (pairOfRank ((List.range n).map at_) r).getD (0, 0, 0)) := by
    rw [rankPairs, List.length_map, List.length_range]
    refine (List.filterMap_congr (g := some ∘ fun r => (pairOfRank ((List.range n).map at_) r).getD (0, 0, 0))
      fun r hr => ?_).trans (congrFun List.filterMap_eq_map _)
    obtain ⟨p, -, h, -⟩ := pairOfRank_spec hpos (List.mem_range.1 hr)
    refine h.trans ?_
    rw [Function.comp, h]
    rfl
  obtain ⟨p, hp, h, hl⟩ := pairOfRank_spec hpos hr
  refine ⟨p, hp, ?_, hl⟩
  rw [hmap, List.getElem?_map, List.getElem?_range hr, Option.map_some, h]
  rfl

theorem length_rankPairs_le : n ≤ (rankPairs ((List.range n).map at_)).length := by
  by_contra h
  obtain ⟨p, -, hp, -⟩ := getElem?_rankPairs hpos (not_le.1 h)
  rw [List.getElem?_eq_none (le_refl _)] at hp
  cases hp

end

/-! ## Rows that combine (R154, R271) -/

/-- An entry of lists of one length, joined. -/
theorem getElem?_flatMap_range {α : Type} {f : Nat → List α} {n k : Nat} (hf : ∀ i, i < n → (f i).length = k) {i j : Nat}
    (hi : i < n) (hj : j < k) : ((List.range n).flatMap f)[i * k + j]? = (f i)[j]? := by
  induction n with
  | zero => omega
  | succ n ih =>
    have hlen : ((List.range n).flatMap f).length = n * k := by
      rw [List.length_flatMap, List.map_congr_left (g := fun _ => k) fun i hi => hf i (by have := List.mem_range.1 hi; omega)]
      simp
    rw [List.range_succ, List.flatMap_append, List.flatMap_singleton]
    by_cases h : i < n
    · have hlt : i * k + j < n * k := calc
        i * k + j < i * k + k := by omega
        _ = (i + 1) * k := by ring
        _ ≤ n * k := Nat.mul_le_mul_right k h
      rw [List.getElem?_append_left (by rw [hlen]; exact hlt)]
      exact ih (fun i hi => hf i (by omega)) h
    · obtain rfl : i = n := by omega
      rw [List.getElem?_append_right (by rw [hlen]; omega), hlen, Nat.add_sub_cancel_left]

/-- A pair with its place. -/
def rowPair (pairs : List Nat) (j : Nat) : Nat × Nat × Nat := (pairs.getD j 0 % 2 ^ 32, pairs.getD j 0 / 2 ^ 32, j)

theorem zipIdx_pairs (pairs : List Nat) :
    pairs.zipIdx.map (fun e => (e.1 % 2 ^ 32, e.1 / 2 ^ 32, e.2)) = (List.range pairs.length).map (rowPair pairs) := by
  refine List.ext_getElem (by simp) fun i h1 h2 => ?_
  have hi : i < pairs.length := by simpa using h1
  simp [rowPair, hi]

/-- The row of a reduction's value. -/
def CollRun.row (r : CollRun) (l : List Nat) (i : Nat) : List Nat := (l.drop (i * r.k)).take r.k

theorem CollRun.length_row {r : CollRun} {l : List Nat} (hl : l.length = r.count * r.k) {i : Nat} (hi : i < r.count) :
    (r.row l i).length = r.k := by
  have hle : i * r.k + r.k ≤ r.count * r.k := calc
    i * r.k + r.k = (i + 1) * r.k := by ring
    _ ≤ r.count * r.k := Nat.mul_le_mul_right _ hi
  rw [row, List.length_take, List.length_drop, hl]
  omega

/-- Rows combine into the pairs that rank first (R154). -/
theorem combineRows_rows {r : CollRun} (h : 6 ≤ r.sub) {a b : List Nat} (ha : a.length = r.count * r.k)
    (hb : b.length = r.count * r.k) : RowsMerged r.count r.k a b (combineRows r a b) := by
  have hpairs : ∀ i, i < r.count → (r.row a i ++ r.row b i).length = 2 * r.k := fun i hi => by
    rw [List.length_append, CollRun.length_row ha hi, CollRun.length_row hb hi, two_mul]
  have hc : combineRows r a b = (List.range r.count).flatMap (fun i =>
      ((rankPairs ((List.range (r.row a i ++ r.row b i).length).map (rowPair (r.row a i ++ r.row b i)))).take r.k).map
        (fun p => p.1 + 2 ^ 32 * p.2.1)) := by
    rw [combineRows, if_neg (by omega)]
    simp only [zipIdx_pairs]
    rfl
  have hlen : ∀ i, i < r.count → (((rankPairs ((List.range (r.row a i ++ r.row b i).length).map
      (rowPair (r.row a i ++ r.row b i)))).take r.k).map (fun p => p.1 + 2 ^ 32 * p.2.1)).length = r.k := fun i hi => by
    have := length_rankPairs_le (at_ := rowPair (r.row a i ++ r.row b i)) (fun _ => rfl) (n := (r.row a i ++ r.row b i).length)
    rw [List.length_map, List.length_take]
    have := hpairs i hi
    omega
  refine ⟨?_, fun i hi j hj => ?_⟩
  · rw [hc, List.length_flatMap, List.map_congr_left (g := fun _ => r.k) fun i hi => hlen i (List.mem_range.1 hi)]
    simp
  · obtain ⟨p, hp, hget, hcount⟩ := getElem?_rankPairs (at_ := rowPair (r.row a i ++ r.row b i)) (fun _ => rfl)
      (n := (r.row a i ++ r.row b i).length) (r := j) (by rw [hpairs i hi]; omega)
    refine ⟨p, by rw [← hpairs i hi]; exact hp, ?_, ranksBefore (rowPair (r.row a i ++ r.row b i)) _ p, ?_, hcount, fun q => ?_⟩
    · rw [hc, getElem?_flatMap_range hlen hi hj, List.getElem?_map, List.getElem?_take, if_pos hj, hget]
      change some _ = (r.row a i ++ r.row b i)[p]?
      rw [List.getElem?_eq_getElem hp, ← List.getD_eq_getElem _ 0 hp]
      exact congrArg some (Nat.mod_add_div _ _)
    · exact List.nodup_range.filter _
    · rw [ranksBefore, List.mem_filter, List.mem_range, hpairs i hi, pairAbove_iff, ← ranksAbove_iff]
      rfl

end Sys2Proof.Machine

open Sys2Proof Sys2Proof.Machine Sys2Proof.Claims

/-- Settles O36, an event at a time: a `qsubmit` that issues and one that leaves, a `coll` that issues and one that starts, two
slots that combine, the root's value that is delivered, and a reduction that stops. -/
theorem queuesAndCollectives : Obligations.QueuesAndCollectives := by
  refine ⟨fun f s x e h hq he hd hen hn hn' hr => runs_qsubmit h hq he hd hen hn hn' hr,
    fun b c q n s k cr rest g x e h hg hx he hr => qsubmitLeaves_spec h hg hx he hr,
    fun f s x h ha hp => collIssue_spec f s x h ha hp,
    fun op sub desc g0 n0 d0 l0 s s1 s2 o bs ps r ho hk hm hf hp hb => ?_,
    fun group seq level idx s r a b hr hs hn hl ha hb hnone => ?_,
    fun group seq idx s r out hr hs hl ho hc hn => ⟨_, exec_collCombine_root hr hs hl ho hc, delivers_foldl _ _ hn⟩,
    fun group seq level idx s r hr hs hl hf => ?_⟩
  · intro d w len hd hjoin own hn hg hst hslot hsub hfmt hcount hkk hlogs hlong hval
    exact collStart_spec ho hk hm hf hp hb hd hjoin.symm hn hg hst hslot hsub hfmt hcount hkk hlogs hlong hval
  · obtain ⟨t, r', hx, hrun, hv, hbytes⟩ := collCombine_spec hr hs hn hl ha hb hnone
    exact ⟨t, r', _, hx, hrun, hv, hbytes, fun h => combineRows_elements h a b, fun h la lb => combineRows_rows h la lb⟩
  · obtain ⟨h1, h2, h3⟩ := stopRun_spec s r
    rw [(collRun?_key hr).1, (collRun?_key hr).2] at h2
    refine ⟨_, _, exec_collCombine_faulted hr hs hl hf, h1, h2, rfl, fun e he o c desc g n d l ho hk hd hst hft => ?_⟩
    rw [h3 e he, ho]
    exact congrArg some (stopOp_fault hk hd hst hft)
end

section
/-! PROOFS. Every step keeps global memory in its canonical form (O59). Each function of the model either leaves global
memory alone (`…_mem`) or writes it through `Memory.write` and its like, which keep the form (`…_wf`); what an effect answers
(`…_ok`) and what an instruction or event does (`…_keeps`) follow from the functions they are made of, in the order of the
model's files. -/

namespace Sys2Proof.Machine

open Sys2Proof

/-! ## Outcomes and effects with a canonical memory -/

/-- Each machine that an effect answers has its memory in canonical form. -/
def Res.memOk : Res → Prop
  | .done s _ | .raw s | .stall s => s.mem.wf = true
  | _ => True

@[simp] theorem Res.memOk_done (s : State) (e : Bool) : (Res.done s e).memOk ↔ s.mem.wf = true := Iff.rfl
@[simp] theorem Res.memOk_raw (s : State) : (Res.raw s).memOk ↔ s.mem.wf = true := Iff.rfl
@[simp] theorem Res.memOk_stall (s : State) : (Res.stall s).memOk ↔ s.mem.wf = true := Iff.rfl
@[simp] theorem Res.memOk_trap (c a : Nat) : (Res.trap c a).memOk := trivial
@[simp] theorem Res.memOk_trapAt (c a k : Nat) : (Res.trapAt c a k).memOk := trivial
@[simp] theorem Res.memOk_trapOpen (c : Nat) : (Res.trapOpen c).memOk := trivial
@[simp] theorem Res.memOk_trapImm (c i r : Nat) : (Res.trapImm c i r).memOk := trivial
@[simp] theorem Res.memOk_xfault (c a k : Nat) : (Res.xfault c a k).memOk := trivial

/-- A next state that an outcome answers has its memory in canonical form. -/
def MemKept (o : Host.Outcome State Fault Refusal) : Prop := ∀ t, o = .next t → t.mem.wf = true

@[simp] theorem memKept_next (t : State) : MemKept (.next t) ↔ t.mem.wf = true :=
  ⟨fun h => h t rfl, fun h u hu => by cases hu; exact h⟩

@[simp] theorem foldl_mem {α : Type} {f : State → α → State} {l : List α} {s : State}
    (h : ∀ s a, (f s a).mem = s.mem) : (l.foldl f s).mem = s.mem := by
  induction l generalizing s with
  | nil => rfl
  | cons a l ih => exact ih.trans (h s a)

@[simp] theorem foldl_wf {α : Type} {f : State → α → State} {l : List α} {s : State} (hw : s.mem.wf = true)
    (h : ∀ s a, s.mem.wf = true → (f s a).mem.wf = true) : (l.foldl f s).mem.wf = true := by
  induction l generalizing s with
  | nil => exact hw
  | cons a l ih => exact ih (h s a hw)

theorem TlbOnly.mem {s t : State} (h : TlbOnly s t) : t.mem = s.mem := by rw [h]

theorem FetchOnly.mem {s t : State} (h : FetchOnly s t) : t.mem = s.mem := by rw [h]

theorem Cx.s_of {s : State} {g : Guard} {x : Cx} (h : Cx.of s g = some x) : x.s = s := (Cx.of_spec h).1

@[simp] theorem Cx.on_s (x : Cx) (s : State) : (x.on s).s = s := rfl

/-! ## Ops -/

@[simp] theorem State.setSlot_mem (s : State) (c i : Nat) (x : Slot) : (State.setSlot s c i x).mem = s.mem := rfl

@[simp] theorem unitWrite_wf {s : State} (a : Nat) (data : List Byte) (hw : s.mem.wf = true) :
    (unitWrite s a data).mem.wf = true := Memory.wf_write _ _ hw

@[simp] theorem writePlace_wf {s : State} (p : Place) (data : List Byte) (hw : s.mem.wf = true) :
    (writePlace s p data).mem.wf = true := by
  cases p <;> simp [writePlace, hw]

@[simp] theorem performStore_wf {s : State} (core : Nat) (p : Place) (data : List Byte) (hw : s.mem.wf = true) :
    (performStore s core p data).mem.wf = true := by
  cases p with
  | g a => exact Memory.wf_write _ _ hw
  | sp c a => exact writePlace_wf _ _ hw
  | acc b a => exact writePlace_wf _ _ hw

@[simp] theorem tlbKeep_mem (s : State) (ctx va : Nat) (x : Xlat) : (tlbKeep s ctx va x).mem = s.mem := by
  unfold tlbKeep
  repeat' split
  all_goals simp [apply_ite State.mem]

@[simp] theorem writeVirt_wf {s : State} (c : Ctx) (va : Nat) (data : List Byte) (hw : s.mem.wf = true) :
    (writeVirt s c va data).mem.wf = true := by
  induction data generalizing s va with
  | nil => exact hw
  | cons b bs ih =>
    refine ih _ ?_
    split <;> simp [hw]

@[simp] theorem spoil_wf {s : State} (a n : Nat) (hw : s.mem.wf = true) : (spoil s a n).mem.wf = true := by
  refine foldl_wf hw (fun s h hw => ?_)
  split <;> simp [hw]

@[simp] theorem spoilPlace_wf (s : State) (p : Place) (n : Nat) (hw : s.mem.wf = true) :
    (spoilPlace s p n).mem.wf = true := by
  unfold spoilPlace
  split <;> simp [hw]

@[simp] theorem storePlace_wf (s : State) (p : Place) (data : List Byte) (hw : s.mem.wf = true) :
    (storePlace s p data).mem.wf = true := by
  simp [storePlace, hw]

@[simp] theorem storeVirt_wf (s : State) (c : Ctx) (va : Nat) (data : List Byte) (hw : s.mem.wf = true) :
    (storeVirt s c va data).mem.wf = true := by
  unfold storeVirt
  simp_all

@[simp] theorem setCtl_wf (s : State) (c : Ctx) (l : Ladder) (mask : Nat) (hw : s.mem.wf = true) :
    (setCtl s c l mask).mem.wf = true := by
  unfold setCtl
  split <;> simp [hw]

@[simp] theorem endGrid_wf (s : State) (g : Nat) (how : GridState) (hw : s.mem.wf = true) :
    (endGrid s g how).mem.wf = true := by
  unfold endGrid
  repeat' split
  all_goals simp [hw]

@[simp] theorem ringRecord_wf (s : State) (ctx va cause src acc unit grid : Nat) (hw : s.mem.wf = true) :
    (ringRecord s ctx va cause src acc unit grid).1.mem.wf = true := by
  unfold ringRecord
  repeat' split
  all_goals simp [hw]

@[simp] theorem doubleFault_wf (s : State) (g va cause acc : Nat) (hw : s.mem.wf = true) :
    (doubleFault s g va cause acc).mem.wf = true := by
  unfold doubleFault
  split <;> simp [hw]

@[simp] theorem raiseTrap_wf (s : State) (b c : Nat) (t : PendTrap) (hw : s.mem.wf = true) :
    (raiseTrap s b c t).mem.wf = true := by
  unfold raiseTrap
  repeat' split
  all_goals simp [hw]

@[simp] theorem enterHandler_mem (s : State) (b c : Nat) (cr : Crew) (t : PendTrap) (traph : Nat) :
    (enterHandler s b c cr t traph).mem = s.mem := by
  simp [enterHandler]

/-! ## Operands -/

@[simp] theorem Cx.put_mem (x : Cx) (cr : Crew) : (Cx.put x cr).mem = x.s.mem := by
  simp [Cx.put]

@[simp] theorem complete_mem (x : Cx) (s : State) (ends : Bool) : (complete x s ends).mem = s.mem := by
  simp [complete]

@[simp] theorem stalled_mem (x : Cx) (s : State) : (stalled x s).mem = s.mem := by
  simp [stalled]

@[simp] theorem Cx.raise_wf (x : Cx) (cause taddr imm resume : Nat) (late : Bool) (acc : Nat)
    (hw : x.s.mem.wf = true) : (Cx.raise x cause taddr imm resume late acc).mem.wf = true := by
  simp [Cx.raise, hw]

@[simp] theorem Cx.raiseOpen_wf (x : Cx) (cause acc : Nat) (hw : x.s.mem.wf = true) :
    (Cx.raiseOpen x cause acc).mem.wf = true := by
  simp [Cx.raiseOpen, hw]

@[simp] theorem Cx.xlatFault_wf (x : Cx) (i : Instr) (cause va acc : Nat) (hw : x.s.mem.wf = true) :
    (Cx.xlatFault x i cause va acc).mem.wf = true := by
  unfold Cx.xlatFault
  repeat' split
  all_goals simp [hw]

/-- The shared course of an issue keeps the canonical form where the instruction's own effect does. -/
theorem issueState_wf (i : Instr) {s : State} {eff : Cx → Res} (hw : s.mem.wf = true)
    (he : ∀ x, x.s.mem.wf = true → (eff x).memOk) : (issueState i s eff).mem.wf = true := by
  unfold issueState
  split
  · exact hw
  · next x hx =>
    have hs : x.s.mem.wf = true := by rw [Cx.s_of hx]; exact hw
    have hr := he x hs
    repeat' split
    all_goals simp_all

@[simp] theorem parkAt_mem (x : Cx) (s : State) (w : Wait) : (parkAt x s w).mem = s.mem := by
  simp [parkAt]

@[simp] theorem issueWith_keeps {i : Instr} {s : State} {eff : Cx → Res} (hw : s.mem.wf = true)
    (he : ∀ x, x.s.mem.wf = true → (eff x).memOk) : MemKept (issueWith i s eff) :=
  (memKept_next _).2 (issueState_wf i hw he)

@[simp] theorem crewRes_ok (x : Cx) (cr : Crew) (hw : x.s.mem.wf = true) : (crewRes x cr).memOk := by
  simp [crewRes, hw]

/-! ## Access -/

theorem physOf_mem {s t : State} {ctx va p : Nat} {acc : Acc} (h : physOf s ctx va acc = .ok (p, t)) : t.mem = s.mem :=
  (fetchOnly_physOf h).mem

theorem piecesOf_mem {s t : State} {ctx va n : Nat} {acc : Acc} {ps : List (Nat × Nat)}
    (h : piecesOf s ctx va n acc = .ok (ps, t)) : t.mem = s.mem := (piecesOf_spec h).1.mem

theorem fetchVirt_mem {s t : State} {ctx va n : Nat} {bs : List Byte} (h : fetchVirt s ctx va n = .ok (bs, t)) :
    t.mem = s.mem := (fetchOnly_fetchVirt h).mem

theorem fetchNat_mem {s t : State} {ctx va n v : Nat} (h : fetchNat s ctx va n = .ok (v, t)) : t.mem = s.mem := by
  unfold fetchNat at h
  cases hf : fetchVirt s ctx va n with
  | error e =>
    rw [hf] at h
    cases h
  | ok r =>
    rw [hf] at h
    cases h
    exact fetchVirt_mem hf

/-! ## WQueue -/

@[simp] theorem setWq_mem (s : State) (core q : Nat) (x : WQueue) : (setWq s core q x).mem = s.mem := rfl

@[simp] theorem wqFeed_mem (n : Nat) (s : State) (core q : Nat) : (wqFeed n s core q).mem = s.mem := by
  induction n generalizing s with
  | zero => rfl
  | succ n ih =>
    unfold wqFeed
    dsimp only
    split <;> simp [ih]

@[simp] theorem wqPopV_ok (x : Cx) (q : Nat) (r : BitVec 8) (hw : x.s.mem.wf = true) : (wqPopV x q r).memOk := by
  unfold wqPopV
  dsimp only
  repeat' split
  all_goals simp [hw]

@[simp] theorem wqPopS_ok (x : Cx) (q : Nat) (d : Opr) (f : Fmt) (hw : x.s.mem.wf = true) : (wqPopS x q d f).memOk := by
  unfold wqPopS
  dsimp only
  repeat' split
  all_goals simp [hw]

@[simp] theorem wqPush_ok (x : Cx) (q : Nat) (lanes : List Nat) (val : Nat → Nat) (hw : x.s.mem.wf = true) :
    (wqPush x q lanes val).memOk := by
  unfold wqPush
  dsimp only
  repeat' split
  all_goals simp [hw]

@[simp] theorem wqWithdraw_mem (s : State) (core b c reg lane tag : Nat) :
    (wqWithdraw s core b c reg lane tag).1.mem = s.mem := by
  unfold wqWithdraw
  generalize List.range 4 = qs
  suffices h : ∀ r : State × Option (Nat × Dest), r.1.mem = s.mem → (qs.foldl _ r).1.mem = s.mem from h (s, none) rfl
  induction qs with
  | nil => exact fun r hr => hr
  | cons q qs ih =>
    refine fun r hr => ih _ ?_
    dsimp only
    split <;> simp [hr]

@[simp] theorem wqRejoin_mem (s : State) (core b c : Nat) (p : Nat × Dest) : (wqRejoin s core b c p).mem = s.mem := by
  simp [wqRejoin]

@[simp] theorem wqUnbind_mem (s : State) (core g : Nat) : (wqUnbind s core g).mem = s.mem := by
  simp [wqUnbind, apply_ite State.mem]

/-! ## Integer -/

@[simp] theorem intRes_ok (f : FmtA) (op : ℤ → ℤ → ℤ → ℤ) (x : Cx) (hw : x.s.mem.wf = true) :
    (intRes f op x).memOk := by
  simp [intRes, hw]

@[simp] theorem bitRes_ok (f : FmtA) (op : Nat → Nat → Nat → Nat) (b : Cx → Nat → Nat) (x : Cx)
    (hw : x.s.mem.wf = true) : (bitRes f op b x).memOk := by
  simp [bitRes, hw]

@[simp] theorem execIadd_keeps (f : FmtA) (s : State) (hw : s.mem.wf = true) : MemKept (execIadd f s) := by
  unfold execIadd
  refine issueWith_keeps hw (fun x hw => ?_)
  simp [hw]

@[simp] theorem execIsub_keeps (f : FmtA) (s : State) (hw : s.mem.wf = true) : MemKept (execIsub f s) := by
  unfold execIsub
  refine issueWith_keeps hw (fun x hw => ?_)
  simp [hw]

@[simp] theorem execImul_keeps (f : FmtA) (s : State) (hw : s.mem.wf = true) : MemKept (execImul f s) := by
  unfold execImul
  refine issueWith_keeps hw (fun x hw => ?_)
  simp [hw]

@[simp] theorem execImulh_keeps (f : FmtA) (s : State) (hw : s.mem.wf = true) : MemKept (execImulh f s) := by
  unfold execImulh
  refine issueWith_keeps hw (fun x hw => ?_)
  simp [hw]

@[simp] theorem execImad_keeps (f : FmtA) (s : State) (hw : s.mem.wf = true) : MemKept (execImad f s) := by
  unfold execImad
  refine issueWith_keeps hw (fun x hw => ?_)
  simp [hw]

@[simp] theorem execIdiv_keeps (f : FmtA) (s : State) (hw : s.mem.wf = true) : MemKept (execIdiv f s) := by
  unfold execIdiv
  refine issueWith_keeps hw (fun x hw => ?_)
  simp [hw]

@[simp] theorem execIrem_keeps (f : FmtA) (s : State) (hw : s.mem.wf = true) : MemKept (execIrem f s) := by
  unfold execIrem
  refine issueWith_keeps hw (fun x hw => ?_)
  simp [hw]

@[simp] theorem execImin_keeps (f : FmtA) (s : State) (hw : s.mem.wf = true) : MemKept (execImin f s) := by
  unfold execImin
  refine issueWith_keeps hw (fun x hw => ?_)
  simp [hw]

@[simp] theorem execImax_keeps (f : FmtA) (s : State) (hw : s.mem.wf = true) : MemKept (execImax f s) := by
  unfold execImax
  refine issueWith_keeps hw (fun x hw => ?_)
  simp [hw]

@[simp] theorem execIabs_keeps (f : FmtA) (s : State) (hw : s.mem.wf = true) : MemKept (execIabs f s) := by
  unfold execIabs
  refine issueWith_keeps hw (fun x hw => ?_)
  simp [hw]

@[simp] theorem execIneg_keeps (f : FmtA) (s : State) (hw : s.mem.wf = true) : MemKept (execIneg f s) := by
  unfold execIneg
  refine issueWith_keeps hw (fun x hw => ?_)
  simp [hw]

@[simp] theorem execLand_keeps (f : FmtA) (s : State) (hw : s.mem.wf = true) : MemKept (execLand f s) := by
  unfold execLand
  refine issueWith_keeps hw (fun x hw => ?_)
  simp [hw]

@[simp] theorem execLor_keeps (f : FmtA) (s : State) (hw : s.mem.wf = true) : MemKept (execLor f s) := by
  unfold execLor
  refine issueWith_keeps hw (fun x hw => ?_)
  simp [hw]

@[simp] theorem execLxor_keeps (f : FmtA) (s : State) (hw : s.mem.wf = true) : MemKept (execLxor f s) := by
  unfold execLxor
  refine issueWith_keeps hw (fun x hw => ?_)
  simp [hw]

@[simp] theorem execLnot_keeps (f : FmtA) (s : State) (hw : s.mem.wf = true) : MemKept (execLnot f s) := by
  unfold execLnot
  refine issueWith_keeps hw (fun x hw => ?_)
  simp [hw]

@[simp] theorem execShl_keeps (f : FmtA) (s : State) (hw : s.mem.wf = true) : MemKept (execShl f s) := by
  unfold execShl
  refine issueWith_keeps hw (fun x hw => ?_)
  simp [hw]

@[simp] theorem execShr_keeps (f : FmtA) (s : State) (hw : s.mem.wf = true) : MemKept (execShr f s) := by
  unfold execShr
  refine issueWith_keeps hw (fun x hw => ?_)
  simp [hw]

@[simp] theorem execSra_keeps (f : FmtA) (s : State) (hw : s.mem.wf = true) : MemKept (execSra f s) := by
  unfold execSra
  refine issueWith_keeps hw (fun x hw => ?_)
  simp [hw]

@[simp] theorem execRotl_keeps (f : FmtA) (s : State) (hw : s.mem.wf = true) : MemKept (execRotl f s) := by
  unfold execRotl
  refine issueWith_keeps hw (fun x hw => ?_)
  simp [hw]

@[simp] theorem execBfx_keeps (f : FmtA) (s : State) (hw : s.mem.wf = true) : MemKept (execBfx f s) := by
  unfold execBfx
  refine issueWith_keeps hw (fun x hw => ?_)
  simp [hw]

@[simp] theorem execBfi_keeps (f : FmtA) (s : State) (hw : s.mem.wf = true) : MemKept (execBfi f s) := by
  unfold execBfi
  refine issueWith_keeps hw (fun x hw => ?_)
  simp [hw]

@[simp] theorem execPopc_keeps (f : FmtA) (s : State) (hw : s.mem.wf = true) : MemKept (execPopc f s) := by
  unfold execPopc
  refine issueWith_keeps hw (fun x hw => ?_)
  simp [hw]

@[simp] theorem execClz_keeps (f : FmtA) (s : State) (hw : s.mem.wf = true) : MemKept (execClz f s) := by
  unfold execClz
  refine issueWith_keeps hw (fun x hw => ?_)
  simp [hw]

@[simp] theorem execBrev_keeps (f : FmtA) (s : State) (hw : s.mem.wf = true) : MemKept (execBrev f s) := by
  unfold execBrev
  refine issueWith_keeps hw (fun x hw => ?_)
  simp [hw]

@[simp] theorem icmpRes_ok (pd : BitVec 4) (comb : Nat) (c : Opr) (cond : Cx → Nat → Bool) (x : Cx)
    (hw : x.s.mem.wf = true) : (icmpRes pd comb c cond x).memOk := by
  simp [icmpRes, hw]

@[simp] theorem execIcmp_keeps (f : FmtA) (s : State) (hw : s.mem.wf = true) : MemKept (execIcmp f s) := by
  unfold execIcmp
  refine issueWith_keeps hw (fun x hw => ?_)
  simp [hw]

@[simp] theorem execSel_keeps (f : FmtA) (s : State) (hw : s.mem.wf = true) : MemKept (execSel f s) := by
  unfold execSel
  refine issueWith_keeps hw (fun x hw => ?_)
  simp [hw]

@[simp] theorem execMov_keeps (f : FmtA) (s : State) (hw : s.mem.wf = true) : MemKept (execMov f s) := by
  unfold execMov
  refine issueWith_keeps hw (fun x hw => ?_)
  split <;> simp [hw]

@[simp] theorem execLea_keeps (f : FmtA) (s : State) (hw : s.mem.wf = true) : MemKept (execLea f s) := by
  unfold execLea
  refine issueWith_keeps hw (fun x hw => ?_)
  simp [hw]

@[simp] theorem execIaddi_keeps (f : FmtB) (s : State) (hw : s.mem.wf = true) : MemKept (execIaddi f s) := by
  unfold execIaddi
  refine issueWith_keeps hw (fun x hw => ?_)
  simp [hw]

@[simp] theorem execMovi_keeps (f : FmtB) (s : State) (hw : s.mem.wf = true) : MemKept (execMovi f s) := by
  unfold execMovi
  refine issueWith_keeps hw (fun x hw => ?_)
  split <;> simp [hw]

@[simp] theorem execIcmpi_keeps (f : FmtB) (s : State) (hw : s.mem.wf = true) : MemKept (execIcmpi f s) := by
  unfold execIcmpi
  refine issueWith_keeps hw (fun x hw => ?_)
  simp [hw]

@[simp] theorem execAndi_keeps (f : FmtB) (s : State) (hw : s.mem.wf = true) : MemKept (execAndi f s) := by
  unfold execAndi
  refine issueWith_keeps hw (fun x hw => ?_)
  simp [hw]

@[simp] theorem execOri_keeps (f : FmtB) (s : State) (hw : s.mem.wf = true) : MemKept (execOri f s) := by
  unfold execOri
  refine issueWith_keeps hw (fun x hw => ?_)
  simp [hw]

@[simp] theorem execXori_keeps (f : FmtB) (s : State) (hw : s.mem.wf = true) : MemKept (execXori f s) := by
  unfold execXori
  refine issueWith_keeps hw (fun x hw => ?_)
  simp [hw]

/-! ## Lane -/

@[simp] theorem predRes_ok (f : FmtA) (op : Lanes → Lanes → Lanes) (x : Cx) (hw : x.s.mem.wf = true) :
    (predRes f op x).memOk := by
  unfold predRes
  split <;> simp [hw]

@[simp] theorem execPand_keeps (f : FmtA) (s : State) (hw : s.mem.wf = true) : MemKept (execPand f s) := by
  unfold execPand
  refine issueWith_keeps hw (fun x hw => ?_)
  simp [hw]

@[simp] theorem execPor_keeps (f : FmtA) (s : State) (hw : s.mem.wf = true) : MemKept (execPor f s) := by
  unfold execPor
  refine issueWith_keeps hw (fun x hw => ?_)
  simp [hw]

@[simp] theorem execPxor_keeps (f : FmtA) (s : State) (hw : s.mem.wf = true) : MemKept (execPxor f s) := by
  unfold execPxor
  refine issueWith_keeps hw (fun x hw => ?_)
  simp [hw]

@[simp] theorem execPnot_keeps (f : FmtA) (s : State) (hw : s.mem.wf = true) : MemKept (execPnot f s) := by
  unfold execPnot
  refine issueWith_keeps hw (fun x hw => ?_)
  simp [hw]

@[simp] theorem execP2s_keeps (f : FmtA) (s : State) (hw : s.mem.wf = true) : MemKept (execP2s f s) := by
  unfold execP2s
  refine issueWith_keeps hw (fun x hw => ?_)
  simp [hw]

@[simp] theorem execS2p_keeps (f : FmtA) (s : State) (hw : s.mem.wf = true) : MemKept (execS2p f s) := by
  unfold execS2p
  refine issueWith_keeps hw (fun x hw => ?_)
  split <;> simp [hw]

@[simp] theorem execShfl_keeps (f : FmtA) (s : State) (hw : s.mem.wf = true) : MemKept (execShfl f s) := by
  unfold execShfl
  refine issueWith_keeps hw (fun x hw => ?_)
  simp [hw]

@[simp] theorem voteRes_ok (f : FmtA) (test : Lanes → Lanes → Bool) (x : Cx) (hw : x.s.mem.wf = true) :
    (voteRes f test x).memOk := by
  simp [voteRes, hw]

@[simp] theorem execVoteAll_keeps (f : FmtA) (s : State) (hw : s.mem.wf = true) : MemKept (execVoteAll f s) := by
  unfold execVoteAll
  refine issueWith_keeps hw (fun x hw => ?_)
  simp [hw]

@[simp] theorem execVoteAny_keeps (f : FmtA) (s : State) (hw : s.mem.wf = true) : MemKept (execVoteAny f s) := by
  unfold execVoteAny
  refine issueWith_keeps hw (fun x hw => ?_)
  simp [hw]

@[simp] theorem execVoteUni_keeps (f : FmtA) (s : State) (hw : s.mem.wf = true) : MemKept (execVoteUni f s) := by
  unfold execVoteUni
  refine issueWith_keeps hw (fun x hw => ?_)
  simp [hw]

@[simp] theorem execVoteBallot_keeps (f : FmtA) (s : State) (hw : s.mem.wf = true) : MemKept (execVoteBallot f s) := by
  unfold execVoteBallot
  refine issueWith_keeps hw (fun x hw => ?_)
  simp [hw]

@[simp] theorem execMatchAny_keeps (f : FmtA) (s : State) (hw : s.mem.wf = true) : MemKept (execMatchAny f s) := by
  unfold execMatchAny
  refine issueWith_keeps hw (fun x hw => ?_)
  simp [hw]

@[simp] theorem execMatchAll_keeps (f : FmtA) (s : State) (hw : s.mem.wf = true) : MemKept (execMatchAll f s) := by
  unfold execMatchAll
  refine issueWith_keeps hw (fun x hw => ?_)
  simp [hw]

@[simp] theorem execRedux_keeps (f : FmtA) (s : State) (hw : s.mem.wf = true) : MemKept (execRedux f s) := by
  unfold execRedux
  refine issueWith_keeps hw (fun x hw => ?_)
  simp [hw]

@[simp] theorem execScan_keeps (f : FmtA) (s : State) (hw : s.mem.wf = true) : MemKept (execScan f s) := by
  unfold execScan
  refine issueWith_keeps hw (fun x hw => ?_)
  split <;> simp [hw]

@[simp] theorem execElect_keeps (f : FmtA) (s : State) (hw : s.mem.wf = true) : MemKept (execElect f s) := by
  unfold execElect
  refine issueWith_keeps hw (fun x hw => ?_)
  simp [hw]

@[simp] theorem execRegacq_keeps (f : FmtA) (s : State) (hw : s.mem.wf = true) : MemKept (execRegacq f s) := by
  unfold execRegacq
  refine issueWith_keeps hw (fun x hw => ?_)
  dsimp only
  repeat' split
  all_goals simp [hw]

@[simp] theorem execRegacqGrant_keeps (core : Nat) (s : State) (hw : s.mem.wf = true) :
    MemKept (execRegacqGrant core s) := by
  unfold execRegacqGrant
  rw [memKept_next]
  dsimp only
  repeat' split
  all_goals simp [hw]

@[simp] theorem execRegrel_keeps (f : FmtA) (s : State) (hw : s.mem.wf = true) : MemKept (execRegrel f s) := by
  unfold execRegrel
  refine issueWith_keeps hw (fun x hw => ?_)
  simp [hw]

@[simp] theorem execFectlTest_keeps (f : FmtA) (s : State) (hw : s.mem.wf = true) : MemKept (execFectlTest f s) := by
  unfold execFectlTest
  refine issueWith_keeps hw (fun x hw => ?_)
  simp [hw]

@[simp] theorem goOrWait_mem (x : Cx) (s : State) (go : Lanes) (reg : Nat) : (goOrWait x s go reg).mem = s.mem := by
  simp [goOrWait]

@[simp] theorem execFectlWait_keeps (f : FmtA) (s : State) (hw : s.mem.wf = true) : MemKept (execFectlWait f s) := by
  simp [execFectlWait, hw]

@[simp] theorem withdrawLanes_mem (x : Cx) (reg : Nat) (ls : List Nat) : (withdrawLanes x reg ls).1.mem = x.s.mem := by
  induction ls with
  | nil => rfl
  | cons l ls ih =>
    have hq := wqWithdraw_mem (withdrawLanes x reg ls).1 x.blk.core x.b x.c reg l
      ((x.cr.empty.find? (Crew.key reg l)).getD 0)
    unfold withdrawLanes
    dsimp only
    split <;> simp_all

@[simp] theorem execFectlCancel_keeps (f : FmtA) (s : State) (hw : s.mem.wf = true) :
    MemKept (execFectlCancel f s) := by
  simp [execFectlCancel, hw]

/-! ## Float -/

@[simp] theorem fpRes_ok (f : FmtA) (op : Nat → Nat → Nat → Nat → Nat × Flags) (x : Cx) (hw : x.s.mem.wf = true)
    : (fpRes f op x).memOk := by
  simp [fpRes, hw]

@[simp] theorem execFadd_keeps (f : FmtA) (s : State) (hw : s.mem.wf = true) : MemKept (execFadd f s) := by
  unfold execFadd
  refine issueWith_keeps hw (fun x hw => ?_)
  simp [hw]

@[simp] theorem execFsub_keeps (f : FmtA) (s : State) (hw : s.mem.wf = true) : MemKept (execFsub f s) := by
  unfold execFsub
  refine issueWith_keeps hw (fun x hw => ?_)
  simp [hw]

@[simp] theorem execFmul_keeps (f : FmtA) (s : State) (hw : s.mem.wf = true) : MemKept (execFmul f s) := by
  unfold execFmul
  refine issueWith_keeps hw (fun x hw => ?_)
  simp [hw]

@[simp] theorem execFfma_keeps (f : FmtA) (s : State) (hw : s.mem.wf = true) : MemKept (execFfma f s) := by
  unfold execFfma
  refine issueWith_keeps hw (fun x hw => ?_)
  simp [hw]

@[simp] theorem execFmin_keeps (f : FmtA) (s : State) (hw : s.mem.wf = true) : MemKept (execFmin f s) := by
  unfold execFmin
  refine issueWith_keeps hw (fun x hw => ?_)
  simp [hw]

@[simp] theorem execFmax_keeps (f : FmtA) (s : State) (hw : s.mem.wf = true) : MemKept (execFmax f s) := by
  unfold execFmax
  refine issueWith_keeps hw (fun x hw => ?_)
  simp [hw]

@[simp] theorem execFsgn_keeps (f : FmtA) (s : State) (hw : s.mem.wf = true) : MemKept (execFsgn f s) := by
  unfold execFsgn
  refine issueWith_keeps hw (fun x hw => ?_)
  simp [hw]

@[simp] theorem execFcmp_keeps (f : FmtA) (s : State) (hw : s.mem.wf = true) : MemKept (execFcmp f s) := by
  unfold execFcmp
  refine issueWith_keeps hw (fun x hw => ?_)
  split <;> simp [hw]

@[simp] theorem execFclass_keeps (f : FmtA) (s : State) (hw : s.mem.wf = true) : MemKept (execFclass f s) := by
  unfold execFclass
  refine issueWith_keeps hw (fun x hw => ?_)
  simp [hw]

@[simp] theorem execFdiv_keeps (f : FmtA) (s : State) (hw : s.mem.wf = true) : MemKept (execFdiv f s) := by
  unfold execFdiv
  refine issueWith_keeps hw (fun x hw => ?_)
  simp [hw]

@[simp] theorem execFsqrt_keeps (f : FmtA) (s : State) (hw : s.mem.wf = true) : MemKept (execFsqrt f s) := by
  unfold execFsqrt
  refine issueWith_keeps hw (fun x hw => ?_)
  simp [hw]

@[simp] theorem execFex2_keeps (f : FmtA) (s : State) (hw : s.mem.wf = true) : MemKept (execFex2 f s) := by
  unfold execFex2
  refine issueWith_keeps hw (fun x hw => ?_)
  simp [hw]

@[simp] theorem execFlg2_keeps (f : FmtA) (s : State) (hw : s.mem.wf = true) : MemKept (execFlg2 f s) := by
  unfold execFlg2
  refine issueWith_keeps hw (fun x hw => ?_)
  simp [hw]

@[simp] theorem execFrcpa_keeps (f : FmtA) (s : State) (hw : s.mem.wf = true) : MemKept (execFrcpa f s) := by
  unfold execFrcpa
  refine issueWith_keeps hw (fun x hw => ?_)
  simp [hw]

@[simp] theorem execFrsqa_keeps (f : FmtA) (s : State) (hw : s.mem.wf = true) : MemKept (execFrsqa f s) := by
  unfold execFrsqa
  refine issueWith_keeps hw (fun x hw => ?_)
  simp [hw]

/-! ## Convert -/

@[simp] theorem execCvt_keeps (f : FmtA) (s : State) (hw : s.mem.wf = true) : MemKept (execCvt f s) := by
  unfold execCvt
  refine issueWith_keeps hw (fun x hw => ?_)
  simp [hw]

@[simp] theorem execPack_keeps (f : FmtA) (s : State) (hw : s.mem.wf = true) : MemKept (execPack f s) := by
  unfold execPack
  refine issueWith_keeps hw (fun x hw => ?_)
  simp [hw]

@[simp] theorem execUnpack_keeps (f : FmtA) (s : State) (hw : s.mem.wf = true) : MemKept (execUnpack f s) := by
  unfold execUnpack
  refine issueWith_keeps hw (fun x hw => ?_)
  split <;> simp [hw]

@[simp] theorem execBquant_keeps (f : FmtA) (s : State) (hw : s.mem.wf = true) : MemKept (execBquant f s) := by
  unfold execBquant
  refine issueWith_keeps hw (fun x hw => ?_)
  simp [hw]

/-! ## MemInstr -/

theorem xlatLane_mem {ctx : Nat} {acc : Acc} {va l : Nat} {s t : State} {a : LaneAcc}
    (h : xlatLane ctx acc va l s = .ok (a, t)) : t.mem = s.mem := (tlbOnly_xlatLane h).mem

theorem accessTrap_ok {x : Cx} {ls : List Nat} {sp qn : Nat} {addr : Nat → Int} {align : Nat} {r : Res}
    (h : accessTrap x ls sp qn addr align = some r) : r.memOk := by
  unfold accessTrap at h
  dsimp only at h
  split at h
  · cases h
    trivial
  · obtain ⟨l, -, rfl⟩ := Option.map_eq_some_iff.1 h
    trivial

theorem accessLanes_mem {x : Cx} {ls : List Nat} {sp qn : Nat} {addr : Nat → Int} {acc : Acc} {align : Nat}
    {as : List LaneAcc} {t : State} (h : accessLanes x ls sp qn addr acc align = .ok (as, t)) : t.mem = x.s.mem :=
  (tlbOnly_accessLanes h).mem

theorem accessLanes_trap_ok {x : Cx} {ls : List Nat} {sp qn : Nat} {addr : Nat → Int} {acc : Acc} {align : Nat}
    {r : Res} (h : accessLanes x ls sp qn addr acc align = .error r) : r.memOk := by
  unfold accessLanes at h
  split at h
  · next hr =>
    cases h
    exact accessTrap_ok hr
  · repeat' split at h
    all_goals cases h
    trivial

theorem fmtPlan_mem {x : Cx} {f : FmtM} {w : Nat} {s t : State} {a : LaneAcc} {p : FmtPlan}
    (h : fmtPlan x f w s a = .ok (p, t)) : t.mem = s.mem := by
  unfold fmtPlan at h
  repeat' split at h
  all_goals cases h
  all_goals simp

theorem fmtPlan_trap_ok {x : Cx} {f : FmtM} {w : Nat} {s : State} {a : LaneAcc} {r : Res}
    (h : fmtPlan x f w s a = .error r) : r.memOk := by
  unfold fmtPlan at h
  repeat' split at h
  all_goals cases h
  all_goals simp

theorem fmtPlans_mem {x : Cx} {f : FmtM} {w : Nat} {addr : Nat → Int} {ls : List Nat} {s t : State}
    {ps : List FmtPlan} (h : fmtPlans x f w addr ls s = .ok (ps, t)) : t.mem = s.mem := by
  induction ls generalizing s ps with
  | nil =>
    cases h
    rfl
  | cons l ls ih =>
    unfold fmtPlans at h
    split at h
    · cases h
    · next hl =>
      split at h
      · cases h
      · next hp =>
        split at h
        · cases h
        · next hs =>
          cases h
          rw [ih hs, fmtPlan_mem hp, xlatLane_mem hl]

theorem fmtPlans_trap_ok {x : Cx} {f : FmtM} {w : Nat} {addr : Nat → Int} {ls : List Nat} {s : State} {r : Res}
    (h : fmtPlans x f w addr ls s = .error r) : r.memOk := by
  induction ls generalizing s with
  | nil => cases h
  | cons l ls ih =>
    unfold fmtPlans at h
    split at h
    · cases h
      trivial
    · split at h
      · next hp =>
        cases h
        exact fmtPlan_trap_ok hp
      · split at h
        · next hs =>
          cases h
          exact ih hs
        · cases h

theorem fmtTrap_ok {w : Nat} {ps : List FmtPlan} {r : Res} (h : fmtTrap w ps = some r) : r.memOk := by
  unfold fmtTrap at h
  split at h
  · cases h
    trivial
  · obtain ⟨p, -, rfl⟩ := Option.map_eq_some_iff.1 h
    trivial

@[simp] theorem issueLoads_mem (x : Cx) (f : FmtM) (s : State) (ps : List (LaneAcc × Nat × LoadConv)) :
    (issueLoads x f s ps).mem = s.mem := by
  simp [issueLoads]

@[simp] theorem execLd_keeps (f : FmtM) (s : State) (hw : s.mem.wf = true) : MemKept (execLd f s) := by
  unfold execLd
  refine issueWith_keeps hw (fun x hw => ?_)
  repeat' split
  all_goals grind [Res.memOk, issueWith_keeps, accessTrap_ok, fmtPlans_mem, fmtPlans_trap_ok, fmtTrap_ok,
      issueLoads_mem, accessLanes_mem, accessLanes_trap_ok]

@[simp] theorem execSt_keeps (f : FmtM) {s : State} (hw : s.mem.wf = true) : MemKept (execSt f s) := by
  refine issueWith_keeps hw (fun x hw => ?_)
  dsimp only
  split
  · next h => exact accessLanes_trap_ok h
  · next h =>
    have hm := accessLanes_mem h
    repeat' split
    all_goals simp [hm, hw]

@[simp] theorem execAtom_keeps (f : FmtM) {s : State} (hw : s.mem.wf = true) : MemKept (execAtom f s) := by
  refine issueWith_keeps hw (fun x hw => ?_)
  dsimp only
  split
  · next h => exact accessLanes_trap_ok h
  · next h =>
    have hm := accessLanes_mem h
    repeat' split
    all_goals simp [hm, hw]

@[simp] theorem execRed_keeps (f : FmtM) {s : State} (hw : s.mem.wf = true) : MemKept (execRed f s) := by
  refine issueWith_keeps hw (fun x hw => ?_)
  dsimp only
  split
  · next h => exact accessLanes_trap_ok h
  · next h =>
    have hm := accessLanes_mem h
    repeat' split
    all_goals simp [hm, hw]

@[simp] theorem execFenceAcq_keeps (f : FmtM) (s : State) (hw : s.mem.wf = true) : MemKept (execFenceAcq f s) := by
  unfold execFenceAcq
  refine issueWith_keeps hw (fun x hw => ?_)
  simp [hw]

@[simp] theorem execFenceRel_keeps (f : FmtM) (s : State) (hw : s.mem.wf = true) : MemKept (execFenceRel f s) := by
  unfold execFenceRel
  refine issueWith_keeps hw (fun x hw => ?_)
  simp [hw]

@[simp] theorem execFenceAr_keeps (f : FmtM) (s : State) (hw : s.mem.wf = true) : MemKept (execFenceAr f s) := by
  unfold execFenceAr
  refine issueWith_keeps hw (fun x hw => ?_)
  simp [hw]

/-! ## EngineOps -/

@[simp] theorem tidyOps_mem (s : State) : (tidyOps s).mem = s.mem := rfl

@[simp] theorem updOp_mem (s : State) (id : Nat) (f : EngOp → EngOp) : (updOp s id f).mem = s.mem := rfl

@[simp] theorem issueOp_mem (x : Cx) (s : State) (cls : Nat) (kind : EngKind) (ready started : Bool) :
    (issueOp x s cls kind ready started).mem = s.mem := by
  simp [issueOp]

theorem engPlaces_mem {s t : State} {ctx : Nat} {k : Option Block} {sp a n : Nat} {acc : Acc}
    {ps : List (Place × Nat)} (h : engPlaces s ctx k sp a n acc = .ok (ps, t)) : t.mem = s.mem := by
  unfold engPlaces at h
  split at h
  · split at h
    · cases h
    · next hp =>
      cases h
      exact piecesOf_mem hp
  · split at h
    · cases h
    · next k =>
      cases hu : unitPlaces s k sp a n with
      | error e =>
        rw [hu] at h
        cases h
      | ok ps =>
        rw [hu] at h
        cases h
        rfl

@[simp] theorem piecesDone_mem (s : State) (ps : List (Place × Nat)) : (piecesDone s ps).mem = s.mem := by
  simp [piecesDone]

@[simp] theorem writePiece_wf {s : State} (p : Place) (data : List (Option Byte)) (hw : s.mem.wf = true) :
    (writePiece s p data).mem.wf = true := by
  unfold writePiece
  split
  · simp [hw]
  · refine foldl_wf hw (fun s e hw => ?_)
    split <;> simp [hw]

@[simp] theorem writePieces_wf {s : State} (ps : List (Place × Nat)) (data : List (Option Byte))
    (hw : s.mem.wf = true) : (writePieces s ps data).mem.wf = true := by
  induction ps generalizing s data with
  | nil => exact hw
  | cons p ps ih =>
    unfold writePieces
    refine ih _ ?_
    split <;> simp [hw]

@[simp] theorem opFault_mem (s : State) (id : Nat) (e : AccFault) (acc : Acc) : (opFault s id e acc).mem = s.mem := rfl

@[simp] theorem issueReady_mem (s : State) (id : Nat) (kind : EngKind) : (issueReady s id kind).mem = s.mem := by
  unfold issueReady
  split <;> simp

@[simp] theorem execChannelProtectionStop_keeps (op : Nat) {s : State} (hw : s.mem.wf = true) :
    MemKept (execChannelProtectionStop op s) := by
  unfold execChannelProtectionStop
  rw [memKept_next]
  split
  · exact hw
  · split
    · exact hw
    · split
      · exact hw
      · rw [tidyOps_mem]
        have hf : ∀ (o : EngOp) (va : Nat × Nat) {s : State}, s.mem.wf = true → (o.issuers.foldl (fun s i =>
            match s.block? o.blk, s.crew? o.blk i.1 with
            | some k, some cr =>
              if cr.retired then endGrid s k.grid .faulted
              else s.setCrew o.blk i.1 { cr with faults := cr.faults ++ [⟨op, i.2, o.cls, va.1, va.2⟩] }
            | _, _ => s) s).mem.wf = true := by
          intro o va s hw
          refine foldl_wf hw (fun s i hw => ?_)
          repeat' split
          all_goals simp [hw]
        split
        · exact hf _ _ (by simp [hw])
        · exact hf _ _ (by simp [hw])

@[simp] theorem execEngineOperationComplete_keeps (op : Nat) (s : State) (hw : s.mem.wf = true) :
    MemKept (execEngineOperationComplete op s) := by
  unfold execEngineOperationComplete
  rw [memKept_next]
  repeat' split
  all_goals simp [hw]

/-! ## Copy -/

theorem copyTrap_ok {x : Cx} {f : FmtE} {r : Res} (h : copyTrap x f = some r) : r.memOk := by
  unfold copyTrap at h
  dsimp only at h
  repeat' split at h
  all_goals cases h
  all_goals trivial

@[simp] theorem execCopy_keeps (f : FmtE) (s : State) (hw : s.mem.wf = true) : MemKept (execCopy f s) := by
  unfold execCopy
  refine issueWith_keeps hw (fun x hw => ?_)
  repeat' split
  all_goals grind [Res.memOk, issueWith_keeps, copyTrap_ok, issueOp_mem]

@[simp] theorem copycCheck_mem (s : State) (b cv : Nat) : (copycCheck s b cv).mem = s.mem := by
  unfold copycCheck
  dsimp only
  repeat' split
  all_goals simp

@[simp] theorem execCopyc_keeps (f : FmtE) {s : State} (hw : s.mem.wf = true) : MemKept (execCopyc f s) := by
  refine issueWith_keeps hw (fun x hw => ?_)
  have hi : (issueOp x x.s 0 (.copy [] none) false false).mem.wf = true := by simp [hw]
  dsimp only
  split
  · next h => exact copyTrap_ok h
  · repeat' split
    all_goals simp [hw]

@[simp] theorem movePart_wf {s : State} (o : EngOp) (i : Nat) (seg : Seg) (ofs len : Nat) (hw : s.mem.wf = true)
    : (movePart s o i seg ofs len).mem.wf = true := by
  unfold movePart
  dsimp only
  split
  · simp [hw]
  · next h1 =>
    split
    · simp [engPlaces_mem h1, hw]
    · next h2 => simp [engPlaces_mem h2, engPlaces_mem h1, hw]

@[simp] theorem moveLane_wf (s : State) (o : EngOp) (scat : Bool) (size sp : Nat) (addrs : List (Nat × Nat))
    (lane : Nat) (hw : s.mem.wf = true) : (moveLane s o scat size sp addrs lane).mem.wf = true := by
  unfold moveLane
  repeat' split
  all_goals grind [engPlaces_mem, opFault_mem, updOp_mem, piecesDone_mem, writePieces_wf]

@[simp] theorem execCopyOperation_keeps (op seg ofs len : Nat) (s : State) (hw : s.mem.wf = true) :
    MemKept (execCopyOperation op seg ofs len s) := by
  unfold execCopyOperation
  rw [memKept_next]
  repeat' split
  all_goals simp [hw]

@[simp] theorem execStampWrite_keeps (op : Nat) (s : State) (hw : s.mem.wf = true) : MemKept (execStampWrite op s) := by
  unfold execStampWrite
  rw [memKept_next]
  repeat' split
  all_goals grind [Res.memOk, engPlaces_mem, opFault_mem, updOp_mem, piecesDone_mem, writePieces_wf]

@[simp] theorem execGather_keeps (f : FmtE) (s : State) (hw : s.mem.wf = true) : MemKept (execGather f s) := by
  unfold execGather
  refine issueWith_keeps hw (fun x hw => ?_)
  dsimp only
  repeat' split
  all_goals simp [hw]

@[simp] theorem execWaitcnt_keeps (f : FmtE) (s : State) (hw : s.mem.wf = true) : MemKept (execWaitcnt f s) := by
  unfold execWaitcnt
  refine issueWith_keeps hw (fun x hw => ?_)
  dsimp only
  repeat' split
  all_goals simp [hw]

/-! ## Select -/

@[simp] theorem execRand_keeps (f : FmtA) (s : State) (hw : s.mem.wf = true) : MemKept (execRand f s) := by
  unfold execRand
  refine issueWith_keeps hw (fun x hw => ?_)
  simp [hw]

@[simp] theorem execSplit_keeps (f : FmtA) (s : State) (hw : s.mem.wf = true) : MemKept (execSplit f s) := by
  unfold execSplit
  refine issueWith_keeps hw (fun x hw => ?_)
  split <;> simp [hw]

@[simp] theorem execSample_keeps (f : FmtA) (s : State) (hw : s.mem.wf = true) : MemKept (execSample f s) := by
  unfold execSample
  refine issueWith_keeps hw (fun x hw => ?_)
  simp [hw]

@[simp] theorem execTopk_keeps (f : FmtA) (s : State) (hw : s.mem.wf = true) : MemKept (execTopk f s) := by
  unfold execTopk
  refine issueWith_keeps hw (fun x hw => ?_)
  simp [hw]

/-! ## Collective -/

@[simp] theorem execColl_keeps (f : FmtE) (s : State) (hw : s.mem.wf = true) : MemKept (execColl f s) := by
  unfold execColl
  refine issueWith_keeps hw (fun x hw => ?_)
  repeat' split
  all_goals grind [Res.memOk, issueWith_keeps, fetchVirt_mem, issueOp_mem]

theorem longPieces_mem {ctx : Nat} {acc : Acc} (fuel : Nat) {s t : State} {va n : Nat} {ps : List (Nat × Nat)}
    (h : longPieces s ctx acc fuel va n = .ok (ps, t)) : t.mem = s.mem := by
  induction fuel generalizing s va n ps with
  | zero =>
    cases h
    rfl
  | succ fuel ih =>
    unfold longPieces at h
    dsimp only at h
    split at h
    · cases h
      rfl
    · split at h
      · cases h
      · next u hp =>
        cases hl : longPieces u ctx acc fuel (va + min n 65536) (n - min n 65536) with
        | error e =>
          rw [hl] at h
          cases h
        | ok r =>
          rw [hl] at h
          cases h
          rw [ih hl, piecesOf_mem hp]

@[simp] theorem setRun_mem (s : State) (r : CollRun) : (setRun s r).mem = s.mem := rfl

@[simp] theorem stopRun_mem (s : State) (r : CollRun) : (stopRun s r).mem = s.mem :=
  foldl_mem (fun s _ => updOp_mem s _ _)

@[simp] theorem deliverRun_wf {s : State} (r : CollRun) (hw : s.mem.wf = true) : (deliverRun s r).mem.wf = true := by
  unfold deliverRun
  split
  · exact hw
  · split
    · exact hw
    · refine foldl_wf hw (fun s e hw => ?_)
      split
      · exact hw
      · split
        · exact hw
        · split
          · simp [hw]
          · next hp =>
            have hm := longPieces_mem _ hp
            simp [hm, hw]

@[simp] theorem collStart_wf {s : State} (o : EngOp) (op desc : Nat) (hw : s.mem.wf = true) :
    (collStart s o op desc).mem.wf = true := by
  unfold collStart
  extract_lets ctx
  split
  · simp [hw]
  · next u hf =>
    have hu : u.mem.wf = true := by rw [fetchVirt_mem hf, hw]
    extract_lets n d r range mine checked gid r beyond bad w len
    have hm : mine.mem.wf = true := by simp [mine, hu]
    split
    · simp [hm]
    · split
      · simp [hm]
      · split
        · rw [opFault_mem]
          split
          · exact hu
          · exact hm
        · next hp =>
          refine deliverRun_wf _ ?_
          rw [setRun_mem, piecesDone_mem, updOp_mem, longPieces_mem _ hp, hu]

@[simp] theorem execEngineCommandStart_keeps (op : Nat) (s : State) (hw : s.mem.wf = true) :
    MemKept (execEngineCommandStart op s) := by
  unfold execEngineCommandStart
  rw [memKept_next]
  repeat' split
  all_goals simp [hw]

@[simp] theorem execCollCombine_keeps (group seq level idx : Nat) (s : State) (hw : s.mem.wf = true) :
    MemKept (execCollCombine group seq level idx s) := by
  unfold execCollCombine
  rw [memKept_next]
  repeat' split
  all_goals simp [hw]

/-! ## Stream -/

theorem pageFormat_mem {s t : State} {ctx va : Nat} {b : Option (List Byte)}
    (h : pageFormat s ctx va = .ok (b, t)) : t.mem = s.mem := by
  unfold pageFormat at h
  split at h
  · cases h
    exact tlbKeep_mem _ _ _ _
  · split at h <;> cases h

theorem exists_of_map_ok {ε α β : Type} {f : α → β} {e : Except ε α} {b : β} (h : e.map f = .ok b) :
    ∃ a, e = .ok a ∧ f a = b := by
  cases e with
  | error e => cases h
  | ok a => exact ⟨a, rfl, by cases h; rfl⟩

theorem selectFormat_mem {s t : State} {ctx : Nat} {l : Layout} {b : Option (List Byte)}
    (h : selectFormat s ctx l = .ok (b, t)) : t.mem = s.mem := by
  unfold selectFormat at h
  repeat' split at h
  · cases h
    rfl
  · cases h
  · cases h
    rfl
  · obtain ⟨⟨bs, u⟩, hf, hr⟩ := exists_of_map_ok h
    cases hr
    exact fetchVirt_mem hf
  · exact pageFormat_mem h

theorem streamPage_mem {s t : State} {ctx va p base : Nat} {acc : Acc} {l : Layout} {f : InForce}
    {e : Option FmtEntry} (h : streamPage s ctx va acc l f = .ok (p, base, e, t)) : t.mem = s.mem := by
  have hk : ∀ r : Xlat, (tlbKeep s ctx va r).mem = s.mem := tlbKeep_mem s ctx va
  unfold streamPage at h
  grind

theorem boxByte_mem {s t : State} {ctx idx o : Nat} {acc : Acc} {l : Layout} {f : InForce}
    {p : Option (Nat × Nat)} (h : boxByte s ctx l f idx o acc = .ok (p, t)) : t.mem = s.mem := by
  unfold boxByte at h
  split at h
  · split at h
    · cases h
      rfl
    · dsimp only at h
      split at h
      · cases h
      · next hp =>
        cases h
        exact streamPage_mem hp
  · split at h
    · cases h
      rfl
    · split at h
      · cases h
        rfl
      · split at h
        · cases h
          rfl
        · dsimp only at h
          split at h
          · cases h
          · next hp =>
            split at h
            · cases h
            · next hq =>
              cases h
              exact (physOf_mem hq).trans (streamPage_mem hp)

theorem moveStage_wf {k : Block} {ctx : Nat} {ch : Channel} {f : InForce} {idx dir o n : Nat} {s t : State}
    (hw : s.mem.wf = true) (h : moveStage s k ctx ch f idx dir o n = .ok t) : t.mem.wf = true := by
  induction n generalizing s o with
  | zero =>
    cases h
    exact hw
  | succ n ih =>
    unfold moveStage at h
    split at h
    · cases h
      exact hw
    · split at h
      · cases h
      · next p u hb =>
        have hu : u.mem.wf = true := by rw [boxByte_mem hb, hw]
        refine ih ?_ h
        repeat' split
        all_goals simp [hu]

@[simp] theorem waitService_ok (x : Cx) (va : Nat) (hw : x.s.mem.wf = true) : (waitService x va).memOk := by
  simp [waitService, hw]

theorem streamFormat_mem {s t : State} {ctx : Nat} {l : Layout} {b : Option (List Byte)} {v : Option Nat}
    (h : streamFormat s ctx l = .ok (b, v, t)) : t.mem = s.mem := by
  unfold streamFormat at h
  split at h
  · next hf =>
    cases h
    exact selectFormat_mem hf
  · split at h <;> cases h
    rfl

theorem streamRes_ok (dir : Nat) (f : FmtE) {x : Cx} (hw : x.s.mem.wf = true) : (streamRes dir f x).memOk := by
  unfold streamRes
  dsimp only
  split
  · trivial
  · split
    · simp [hw]
    · split
      · exact hw
      · split
        · split <;> simp [hw]
        · next h1 =>
          split
          · trivial
          · split
            · split <;> simp [hw]
            · next h2 =>
              have hm := (streamFormat_mem h2).trans (fetchNat_mem h1)
              repeat' split
              all_goals simp [hm, hw]

@[simp] theorem execStreamF_keeps (f : FmtE) (s : State) (hw : s.mem.wf = true) : MemKept (execStreamF f s) := by
  unfold execStreamF
  refine issueWith_keeps hw (fun x hw => ?_)
  grind [Res.memOk, issueWith_keeps, streamRes_ok]

@[simp] theorem execStreamD_keeps (f : FmtE) (s : State) (hw : s.mem.wf = true) : MemKept (execStreamD f s) := by
  unfold execStreamD
  refine issueWith_keeps hw (fun x hw => ?_)
  grind [Res.memOk, issueWith_keeps, streamRes_ok]

@[simp] theorem performSrel_mem (s : State) (b dir : Nat) : (performSrel s b dir).mem = s.mem := by
  unfold performSrel
  dsimp only
  repeat' split
  all_goals simp

@[simp] theorem srelRes_ok (dir : Nat) (x : Cx) (hw : x.s.mem.wf = true) : (srelRes dir x).memOk := by
  unfold srelRes
  dsimp only
  repeat' split
  all_goals simp [hw]

@[simp] theorem execSrelF_keeps (f : FmtE) (s : State) (hw : s.mem.wf = true) : MemKept (execSrelF f s) := by
  unfold execSrelF
  refine issueWith_keeps hw (fun x hw => ?_)
  simp [hw]

@[simp] theorem execSrelD_keeps (f : FmtE) (s : State) (hw : s.mem.wf = true) : MemKept (execSrelD f s) := by
  unfold execSrelD
  refine issueWith_keeps hw (fun x hw => ?_)
  simp [hw]

@[simp] theorem chanStep_wf {s : State} (core dir len : Nat) (hw : s.mem.wf = true) :
    (chanStep s core dir len).mem.wf = true := by
  unfold chanStep
  dsimp only
  split
  · exact hw
  · split
    · split
      · exact hw
      · split
        · split
          · simp [hw]
          · next hm => simpa using moveStage_wf hw hm
        · simp [hw]
    · exact hw

@[simp] theorem execFillIteration_keeps (core len : Nat) (s : State) (hw : s.mem.wf = true) :
    MemKept (execFillIteration core len s) := by
  simp [execFillIteration, hw]

@[simp] theorem execDrainIteration_keeps (core len : Nat) (s : State) (hw : s.mem.wf = true) :
    MemKept (execDrainIteration core len s) := by
  simp [execDrainIteration, hw]

@[simp] theorem execChannelIdle_keeps (core dir : Nat) (s : State) (hw : s.mem.wf = true) :
    MemKept (execChannelIdle core dir s) := by
  unfold execChannelIdle
  rw [memKept_next]
  dsimp only
  repeat' split
  all_goals simp [hw]

/-! ## Sync -/

@[simp] theorem phaseBoundary_wf {s : State} (b : Nat) (hw : s.mem.wf = true) : (phaseBoundary s b).mem.wf = true := by
  unfold phaseBoundary
  split
  · exact hw
  · rw [State.updBlock_mem]
    refine foldl_wf hw (fun s e hw => ?_)
    split <;> simp [hw]

@[simp] theorem coreBarCheck_wf (s : State) (b cv : Nat) (hw : s.mem.wf = true) :
    (coreBarCheck s b cv).mem.wf = true := by
  unfold coreBarCheck
  repeat' split
  all_goals simp [apply_ite State.mem, apply_ite Memory.wf, hw]

@[simp] theorem setBar_mem (s : State) (i : BarInst) : (setBar s i).mem = s.mem := rfl

@[simp] theorem instCheck_mem (s : State) (grid scp unit cv : Nat) : (instCheck s grid scp unit cv).mem = s.mem := by
  unfold instCheck
  dsimp only
  repeat' split
  all_goals simp

@[simp] theorem blockBarCheck_wf (s : State) (b scp cv : Nat) (hw : s.mem.wf = true) :
    (blockBarCheck s b scp cv).mem.wf = true := by
  unfold blockBarCheck
  repeat' split
  all_goals simp [apply_ite State.mem, apply_ite Memory.wf, hw]

@[simp] theorem performBar_wf (s : State) (b c scp cv n seq : Nat) (hw : s.mem.wf = true) :
    (performBar s b c scp cv n seq).mem.wf = true := by
  unfold performBar
  repeat' split
  all_goals simp [apply_ite State.mem, hw]

theorem barTrap_ok (x : Cx) (f : FmtE) {r : Res} (h : barTrap x f = some r) : r.memOk := by
  unfold barTrap at h
  repeat' split at h
  all_goals grind [Res.memOk]

@[simp] theorem execBar_keeps (f : FmtE) (s : State) (hw : s.mem.wf = true) : MemKept (execBar f s) := by
  unfold execBar
  refine issueWith_keeps hw (fun x hw => ?_)
  split
  · next h => exact barTrap_ok x f h
  · dsimp only
    repeat' split
    all_goals simp [hw]

@[simp] theorem execCset_keeps (f : FmtE) (s : State) (hw : s.mem.wf = true) : MemKept (execCset f s) := by
  unfold execCset
  refine issueWith_keeps hw (fun x hw => ?_)
  dsimp only
  repeat' split
  all_goals simp [hw]

@[simp] theorem triggerCheck_mem (s : State) (b : Nat) : (triggerCheck s b).mem = s.mem := by
  simp [triggerCheck]

@[simp] theorem performExit_wf (s : State) (b : Nat) (hw : s.mem.wf = true) : (performExit s b).mem.wf = true := by
  unfold performExit
  split <;> simp [hw]

@[simp] theorem performTrigger_mem (s : State) (b c : Nat) : (performTrigger s b c).mem = s.mem := by
  simp [performTrigger]

@[simp] theorem execTrigger_keeps (f : FmtE) (s : State) (hw : s.mem.wf = true) : MemKept (execTrigger f s) := by
  unfold execTrigger
  refine issueWith_keeps hw (fun x hw => ?_)
  simp [hw]

@[simp] theorem execWaitDep_keeps (f : FmtE) (s : State) (hw : s.mem.wf = true) : MemKept (execWaitDep f s) := by
  unfold execWaitDep
  refine issueWith_keeps hw (fun x hw => ?_)
  split <;> simp [hw]

@[simp] theorem execWaitDepRelease_keeps (blk crew : Nat) (s : State) (hw : s.mem.wf = true) :
    MemKept (execWaitDepRelease blk crew s) := by
  unfold execWaitDepRelease
  rw [memKept_next]
  repeat' split
  all_goals simp [apply_ite State.mem, hw]

theorem monRead_mem {s t : State} {ctx : Nat} {k : Block} {sp a w : Nat} (h : monRead s ctx k sp a = .ok (w, t))
    : t.mem = s.mem := by
  unfold monRead at h
  split at h
  · cases h
  · next hp =>
    cases h
    simp [engPlaces_mem hp]

@[simp] theorem execMonarm_keeps (f : FmtE) {s : State} (hw : s.mem.wf = true) : MemKept (execMonarm f s) := by
  refine issueWith_keeps hw (fun x hw => ?_)
  dsimp only
  split
  · trivial
  · split
    · simp [hw]
    · split
      · split <;> trivial
      · next h => simp [monRead_mem h, hw]

@[simp] theorem execMonwait_keeps (f : FmtE) {s : State} (hw : s.mem.wf = true) : MemKept (execMonwait f s) := by
  refine issueWith_keeps hw (fun x hw => ?_)
  dsimp only
  split
  · trivial
  · split
    · simp [hw]
    · split
      · split <;> trivial
      · next h =>
        have hm := monRead_mem h
        repeat' split
        all_goals simp [hm, hw]

@[simp] theorem monLook_mem (s : State) (b c : Nat) (timeout : Bool) : (monLook s b c timeout).mem = s.mem := by
  unfold monLook
  split
  · split
    · split
      · split
        · rfl
        · dsimp only
          split
          · split <;> simp
          · next h => split <;> simp [monRead_mem h]
      · rfl
    · rfl
  · rfl

@[simp] theorem execMonitorWake_keeps (blk crew : Nat) (s : State) (hw : s.mem.wf = true) :
    MemKept (execMonitorWake blk crew s) := by
  simp [execMonitorWake, hw]

@[simp] theorem execMonwaitTimeout_keeps (blk crew : Nat) (s : State) (hw : s.mem.wf = true) :
    MemKept (execMonwaitTimeout blk crew s) := by
  simp [execMonwaitTimeout, hw]

/-! ## Matrix -/

@[simp] theorem execShape_keeps (f : FmtA) (s : State) (hw : s.mem.wf = true) : MemKept (execShape f s) := by
  unfold execShape
  refine issueWith_keeps hw (fun x hw => ?_)
  dsimp only
  repeat' split
  all_goals simp [hw]

@[simp] theorem execFmtwin_keeps (f : FmtA) (s : State) (hw : s.mem.wf = true) : MemKept (execFmtwin f s) := by
  unfold execFmtwin
  refine issueWith_keeps hw (fun x hw => ?_)
  dsimp only
  repeat' split
  all_goals simp [hw]

theorem tileTrap_ok (x : Cx) (g : Option Grant) (t : Nat) {r : Res} (h : tileTrap x g t = some r) : r.memOk := by
  unfold tileTrap at h
  grind [Res.memOk]

@[simp] theorem signatureCheck_mem (s : State) (b cv : Nat) : (signatureCheck s b cv).mem = s.mem := by
  unfold signatureCheck
  dsimp only
  repeat' split
  all_goals simp

@[simp] theorem signRes_ok (x : Cx) (i : Instr) (vals : List DWord) (cv : Nat) (hw : x.s.mem.wf = true) :
    (signRes x i vals cv).memOk := by
  unfold signRes
  dsimp only
  repeat' split
  all_goals simp [hw]

@[simp] theorem mxIssue_ok (x : Cx) (i : Instr) (f : FmtX) (hw : x.s.mem.wf = true) : (mxIssue x i f).memOk := by
  unfold mxIssue
  split <;> simp [hw]

theorem mmaTrap_ok (x : Cx) (f : FmtX) {r : Res} (h : mmaTrap x f = some r) : r.memOk := by
  unfold mmaTrap at h
  repeat' split at h
  all_goals grind [Res.memOk, tileTrap_ok]

@[simp] theorem execMma_keeps (f : FmtX) (s : State) (hw : s.mem.wf = true) : MemKept (execMma f s) := by
  unfold execMma
  refine issueWith_keeps hw (fun x hw => ?_)
  repeat' split
  all_goals grind [Res.memOk, issueWith_keeps, mmaTrap_ok, mxIssue_ok]

@[simp] theorem runMma_mem (s : State) (b : Nat) (k : Block) (g : Grant) (f : FmtX) (vals : List DWord)
    (wins : NMap Window) (kind : Fmt) (held : List (Nat × Nat × Nat)) :
    (runMma s b k g f vals wins kind held).mem = s.mem := by
  unfold runMma
  dsimp only
  repeat' split
  all_goals simp

@[simp] theorem execAclr_keeps (f : FmtX) (s : State) (hw : s.mem.wf = true) : MemKept (execAclr f s) := by
  unfold execAclr
  refine issueWith_keeps hw (fun x hw => ?_)
  repeat' split
  all_goals grind [Res.memOk, issueWith_keeps, tileTrap_ok, mxIssue_ok]

@[simp] theorem runAclr_mem (s : State) (b : Nat) (f : FmtX) (kind : Fmt) : (runAclr s b f kind).mem = s.mem := by
  simp [runAclr]

@[simp] theorem execAload_keeps (f : FmtX) (s : State) (hw : s.mem.wf = true) : MemKept (execAload f s) := by
  unfold execAload
  refine issueWith_keeps hw (fun x hw => ?_)
  repeat' split
  all_goals grind [Res.memOk, issueWith_keeps, tileTrap_ok, mxIssue_ok]

@[simp] theorem runAload_mem (s : State) (b : Nat) (k : Block) (g : Grant) (f : FmtX) (vals : List DWord) :
    (runAload s b k g f vals).mem = s.mem := by
  simp [runAload]

theorem drainTrap_ok (x : Cx) (g : Grant) (f : FmtX) {r : Res} (h : drainTrap x g f = some r) : r.memOk := by
  unfold drainTrap at h
  repeat' split at h
  all_goals grind [Res.memOk]

@[simp] theorem execAdrain_keeps (f : FmtX) {s : State} (hw : s.mem.wf = true) : MemKept (execAdrain f s) := by
  refine issueWith_keeps hw (fun x hw => ?_)
  have hi : (mxIssue x (.adrain f) f).memOk := by simp [hw]
  dsimp only
  split
  · next r h =>
    split at h
    · cases h
      trivial
    · exact tileTrap_ok _ _ _ h
  · trivial
  · split
    · next h => exact drainTrap_ok _ _ _ h
    · split
      · split
        · next h =>
          rw [h] at hi
          simpa using hi
        · exact hi
      · exact hi

@[simp] theorem runAdrain_wf {s : State} (o : EngOp) (k : Block) (g : Grant) (f : FmtX) (vals : List DWord)
    (kind : Fmt) (hw : s.mem.wf = true) : (runAdrain s o k g f vals kind).mem.wf = true := by
  unfold runAdrain
  dsimp only
  split
  · refine foldl_wf hw (fun s e hw => foldl_wf hw (fun s b hw => ?_))
    split <;> simp [hw]
  · repeat' split
    all_goals simp [hw]

@[simp] theorem execMxOperation_keeps (op : Nat) (s : State) (hw : s.mem.wf = true) :
    MemKept (execMxOperation op s) := by
  unfold execMxOperation
  rw [memKept_next]
  repeat' split
  all_goals simp [hw]

/-! ## Ladder -/

theorem readLadder_mem {s t : State} {ctx hdr tile e : Nat} {h0 : LHeader}
    (h : readLadder s ctx hdr tile = .ok (h0, e, t)) : t.mem = s.mem := by
  unfold readLadder at h
  split at h
  · cases h
  · next hf =>
    obtain ⟨⟨v, u⟩, hg, hr⟩ := exists_of_map_ok h
    cases hr
    rw [fetchNat_mem hg, fetchNat_mem hf]

@[simp] theorem writeEntry_wf (s : State) (ctx hdr tile e : Nat) (hw : s.mem.wf = true) :
    (writeEntry s ctx hdr tile e).mem.wf = true := by
  unfold writeEntry
  split <;> simp [hw]

@[simp] theorem writeHeader_wf (s : State) (ctx hdr : Nat) (h : LHeader) (hw : s.mem.wf = true) :
    (writeHeader s ctx hdr h).mem.wf = true := by
  unfold writeHeader
  split <;> simp [hw]

@[simp] theorem execPass_keeps (f : FmtE) (s : State) (hw : s.mem.wf = true) : MemKept (execPass f s) := by
  unfold execPass
  refine issueWith_keeps hw (fun x hw => ?_)
  repeat' split
  all_goals grind [Res.memOk, issueWith_keeps, fetchNat_mem, parkAt_mem]

@[simp] theorem execPassOpen_keeps (blk : Nat) (s : State) (hw : s.mem.wf = true) : MemKept (execPassOpen blk s) := by
  unfold execPassOpen
  rw [memKept_next]
  split
  · exact hw
  · split
    · split
      · exact hw
      · split
        · exact hw
        · split
          · exact hw
          · next h => split <;> simp [readLadder_mem h, hw]
    · exact hw

@[simp] theorem execSeal_keeps (f : FmtE) (s : State) (hw : s.mem.wf = true) : MemKept (execSeal f s) := by
  unfold execSeal
  refine issueWith_keeps hw (fun x hw => ?_)
  dsimp only
  repeat' split
  all_goals simp [hw]

@[simp] theorem execSealCommit_keeps (blk : Nat) (s : State) (hw : s.mem.wf = true) :
    MemKept (execSealCommit blk s) := by
  unfold execSealCommit
  rw [memKept_next]
  split
  · exact hw
  · split
    · split
      · split
        · exact hw
        · split
          · exact hw
          · next u h =>
            have hu : u.mem.wf = true := by rw [readLadder_mem h, hw]
            split
            · exact hu
            · rw [State.updBlock_mem]
              exact writeHeader_wf _ _ _ _ (writeEntry_wf _ _ _ _ _ (phaseBoundary_wf _ hu))
      · exact hw
    · exact hw

@[simp] theorem ladderAnswer_ok (x : Cx) (f : FmtE) (r : Nat × Nat × Bool) (acq : Bool) (s : State)
    (hw : s.mem.wf = true) : (ladderAnswer x f r acq s).memOk := by
  simp [ladderAnswer, hw]

theorem ladderOperand_mem {x : Cx} {f : FmtE} {acc : Acc} {r : Option (LHeader × Nat × Nat)} {t : State}
    (h : ladderOperand x f acc = .ok (r, t)) : t.mem = x.s.mem := by
  unfold ladderOperand at h
  dsimp only at h
  split at h
  · cases h
  · split at h
    · cases h
    · next hp =>
      split at h
      · cases h
      · split at h
        · cases h
          exact physOf_mem hp
        · split at h
          · cases h
          · next hn =>
            split at h
            · cases h
            · split at h
              · cases h
              · next hq =>
                split at h
                · cases h
                · next he =>
                  cases h
                  rw [fetchNat_mem he, physOf_mem hq, fetchNat_mem hn, physOf_mem hp]

theorem ladderOperand_trap_ok {x : Cx} {f : FmtE} {acc : Acc} {r : Res} (h : ladderOperand x f acc = .error r) :
    r.memOk := by
  unfold ladderOperand at h
  dsimp only at h
  repeat' split at h
  all_goals cases h
  all_goals trivial

@[simp] theorem openAnswer_ok (x : Cx) (f : FmtE) (s : State) (hw : s.mem.wf = true) : (openAnswer x f s).memOk := by
  simp [openAnswer, hw]

@[simp] theorem execLres_keeps (f : FmtE) (s : State) (hw : s.mem.wf = true) : MemKept (execLres f s) := by
  unfold execLres
  refine issueWith_keeps hw (fun x hw => ?_)
  repeat' split
  all_goals grind [Res.memOk, issueWith_keeps, ladderOperand_mem, ladderOperand_trap_ok, openAnswer_ok, ladderAnswer_ok]

@[simp] theorem execLhold_keeps (f : FmtE) (s : State) (hw : s.mem.wf = true) : MemKept (execLhold f s) := by
  unfold execLhold
  refine issueWith_keeps hw (fun x hw => ?_)
  repeat' split
  all_goals grind [Res.memOk, issueWith_keeps, ladderOperand_mem, ladderOperand_trap_ok, openAnswer_ok,
      ladderAnswer_ok, writeEntry_wf]

@[simp] theorem execLdrop_keeps (f : FmtE) (s : State) (hw : s.mem.wf = true) : MemKept (execLdrop f s) := by
  unfold execLdrop
  refine issueWith_keeps hw (fun x hw => ?_)
  repeat' split
  all_goals grind [Res.memOk, issueWith_keeps, ladderOperand_mem, ladderOperand_trap_ok, openAnswer_ok,
      ladderAnswer_ok, writeEntry_wf]

/-! ## Control -/

@[simp] theorem branchRes_ok (x : Cx) (i : Instr) (tgt : Nat → Nat) (bit always slotBits : Bool)
    (link : Option Opr) (hw : x.s.mem.wf = true) : (branchRes x i tgt bit always slotBits link).memOk := by
  unfold branchRes
  repeat' split
  all_goals simp [hw]

@[simp] theorem execBra_keeps (f : FmtC) (s : State) (hw : s.mem.wf = true) : MemKept (execBra f s) := by
  unfold execBra
  refine issueWith_keeps hw (fun x hw => ?_)
  simp [hw]

@[simp] theorem execBrx_keeps (f : FmtC) (s : State) (hw : s.mem.wf = true) : MemKept (execBrx f s) := by
  unfold execBrx
  refine issueWith_keeps hw (fun x hw => ?_)
  simp [hw]

@[simp] theorem execCall_keeps (f : FmtC) (s : State) (hw : s.mem.wf = true) : MemKept (execCall f s) := by
  unfold execCall
  refine issueWith_keeps hw (fun x hw => ?_)
  simp [hw]

@[simp] theorem execCallx_keeps (f : FmtC) (s : State) (hw : s.mem.wf = true) : MemKept (execCallx f s) := by
  unfold execCallx
  refine issueWith_keeps hw (fun x hw => ?_)
  simp [hw]

@[simp] theorem execRet_keeps (f : FmtC) (s : State) (hw : s.mem.wf = true) : MemKept (execRet f s) := by
  unfold execRet
  refine issueWith_keeps hw (fun x hw => ?_)
  simp [hw]

@[simp] theorem execNop_keeps (f : FmtC) (s : State) (hw : s.mem.wf = true) : MemKept (execNop f s) := by
  simp [execNop, hw]

@[simp] theorem execRegion_keeps (f : FmtG) (s : State) (hw : s.mem.wf = true) : MemKept (execRegion f s) := by
  unfold execRegion
  refine issueWith_keeps hw (fun x hw => ?_)
  repeat' split
  all_goals simp [hw]

@[simp] theorem execImplicitHead_keeps (blk crew : Nat) (s : State) (hw : s.mem.wf = true) :
    MemKept (execImplicitHead blk crew s) := by
  simp [execImplicitHead, hw]

@[simp] theorem dropRequests_mem (s : State) (core b c : Nat) : (dropRequests s core b c).mem = s.mem := rfl

@[simp] theorem waitAgain_mem (s : State) (b c : Nat) (lanes : Lanes) : (waitAgain s b c lanes).mem = s.mem := by
  unfold waitAgain
  split <;> simp

@[simp] theorem handlerEnd_mem (s : State) (b c : Nat) : (handlerEnd s b c).mem = s.mem := by
  unfold handlerEnd
  repeat' split
  all_goals simp

@[simp] theorem execTrapret_keeps (f : FmtS) (s : State) (hw : s.mem.wf = true) : MemKept (execTrapret f s) := by
  unfold execTrapret
  refine issueWith_keeps hw (fun x hw => ?_)
  dsimp only
  repeat' split
  all_goals simp [hw]

@[simp] theorem afterExit_wf {s : State} (b c : Nat) (hw : s.mem.wf = true) : (afterExit s b c).mem.wf = true := by
  unfold afterExit
  split
  · exact hw
  · rw [State.updBlock_mem, State.updBlock_mem]
    exact foldl_wf (foldl_wf hw (fun s cv hw => by simp [hw])) (fun s key hw => by simp [hw])

@[simp] theorem execExit_keeps (f : FmtC) (s : State) (hw : s.mem.wf = true) : MemKept (execExit f s) := by
  unfold execExit
  refine issueWith_keeps hw (fun x hw => ?_)
  dsimp only
  repeat' split
  all_goals simp [hw]

@[simp] theorem execTrap_keeps (f : FmtS) (s : State) (hw : s.mem.wf = true) : MemKept (execTrap f s) := by
  simp [execTrap, hw]

@[simp] theorem execBrk_keeps (f : FmtS) (s : State) (hw : s.mem.wf = true) : MemKept (execBrk f s) := by
  unfold execBrk
  refine issueWith_keeps hw (fun x hw => ?_)
  split <;> simp [hw]

/-! ## Fetch -/

@[simp] theorem undWord_wf {s : State} {x : Cx} (w : BitVec 96) (hx : x.s.mem.wf = true) (hw : s.mem.wf = true)
    : (undWord s x w).mem.wf = true := by
  unfold undWord
  cases h : Cx.of s (wordGuard w) with
  | none => simp [hx]
  | some y => simp [Cx.s_of h, hw]

/-! ## Placement -/

@[simp] theorem takeBars_mem (s : State) (core gid : Nat) (g : Grid) : (takeBars s core gid g).mem = s.mem := by
  simp [takeBars, apply_ite State.mem]

@[simp] theorem returnBars_mem (s : State) (core gid : Nat) : (returnBars s core gid).mem = s.mem := by
  simp [returnBars, apply_ite State.mem]

@[simp] theorem launchBlock_mem (s : State) (gid : Nat) (g : Grid) (lin : Nat) (v : Variant) (core : Nat) :
    (launchBlock s gid g lin v core).mem = s.mem := by
  simp [launchBlock]

@[simp] theorem leaveCore_mem (s : State) (b : Nat) (st : BlockState) : (leaveCore s b st).mem = s.mem := by
  unfold leaveCore
  repeat' split
  all_goals simp [apply_ite State.mem]

@[simp] theorem handOne_mem (s : State) (gid : Nat) : (handOne s gid).mem = s.mem := by
  unfold handOne
  repeat' split
  all_goals simp

@[simp] theorem handOut_mem (n : Nat) (s : State) (gid : Nat) : (handOut n s gid).mem = s.mem := by
  induction n generalizing s with
  | zero => rfl
  | succ n ih => simp [handOut, ih]

@[simp] theorem unqueue_mem (s : State) (die : Nat) (p : Queued → Bool) : (unqueue s die p).mem = s.mem := rfl

@[simp] theorem placeOn_mem (s : State) (die : Nat) (e : Queued) (ps : List (Nat × Nat)) :
    (placeOn s die e ps).mem = s.mem := by
  unfold placeOn
  split
  · rfl
  · split
    · rfl
    · rw [handOne_mem, unqueue_mem]
      refine foldl_mem (fun s p => ?_)
      split <;> simp

@[simp] theorem execBlockPlace_keeps (die : Nat) (s : State) (hw : s.mem.wf = true) :
    MemKept (execBlockPlace die s) := by
  unfold execBlockPlace
  rw [memKept_next]
  split <;> simp [hw]

@[simp] theorem clearL1_mem (s : State) (quad : Nat) (cores : List Nat) : (clearL1 s quad cores).mem = s.mem := rfl

@[simp] theorem reSplit_mem (s : State) (core split : Nat) : (reSplit s core split).mem = s.mem := rfl

@[simp] theorem execCarveOutChange_keeps (core split fuse : Nat) (s : State) (hw : s.mem.wf = true) :
    MemKept (execCarveOutChange core split fuse s) := by
  unfold execCarveOutChange
  rw [memKept_next]
  repeat' split
  all_goals simp [apply_ite State.mem, hw]

/-! ## Task -/

theorem poolPut_wf {s : State} {n addr : Nat} {write : State → List Byte → State} (hw : s.mem.wf = true)
    (h : ∀ bs, (write s bs).mem.wf = true) : (poolPut s n addr write).mem.wf = true := by
  unfold poolPut
  split
  · exact hw
  · exact h _

theorem poolNext_mem {s t : State} {ctx n a link : Nat} (h : poolNext s ctx n = some (a, .ok (link, t))) :
    t.mem = s.mem := by
  unfold poolNext at h
  obtain ⟨p, -, hp⟩ := Option.bind_eq_some_iff.1 h
  split at hp
  · cases hp
  · exact fetchNat_mem (Prod.ext_iff.1 (Option.some.inj hp)).2

@[simp] theorem poolPop_mem (s : State) (n link : Nat) : (poolPop s n link).mem = s.mem := by
  unfold poolPop
  split <;> simp

@[simp] theorem execPooltake_keeps (f : FmtE) (s : State) (hw : s.mem.wf = true) : MemKept (execPooltake f s) := by
  unfold execPooltake
  refine issueWith_keeps hw (fun x hw => ?_)
  split <;> simp [hw]

@[simp] theorem awaitLink_mem (s : State) (b c va lane : Nat) : (awaitLink s b c va lane).mem = s.mem := by
  simp [awaitLink]

@[simp] theorem giveTake_mem (s : State) (b c : Nat) (dest : Option Dest) (pd lane addr : Nat) (ok : Bool)
    (seq : Nat) : (giveTake s b c dest pd lane addr ok seq).mem = s.mem := by
  simp [giveTake]

@[simp] theorem takeDone_mem (s : State) (b c seq : Nat) : (takeDone s b c seq).mem = s.mem := by
  simp [takeDone]

@[simp] theorem takeFault_wf (s : State) (b c seq cause va lane : Nat) (hw : s.mem.wf = true) :
    (takeFault s b c seq cause va lane).mem.wf = true := by
  unfold takeFault
  repeat' split
  all_goals simp [hw]

@[simp] theorem performPooltake_wf {s : State} (b c n : Nat) (dest : Option Dest) (pd lane seq : Nat)
    (hw : s.mem.wf = true) : (performPooltake s b c n dest pd lane seq).mem.wf = true := by
  unfold performPooltake
  split
  · exact hw
  · split
    · simp [hw]
    · next h => simp [poolNext_mem h, hw]
    · split <;> simp [hw]

theorem poolPlaces_mem {ctx : Nat} {addr : Nat → Nat} {ls : List Nat} {s t : State} {ps : List (Nat × Place)}
    (h : poolPlaces ctx addr ls s = .ok (ps, t)) : t.mem = s.mem := by
  induction ls generalizing s ps with
  | nil =>
    cases h
    rfl
  | cons l ls ih =>
    unfold poolPlaces at h
    split at h
    · cases h
    · next hp =>
      obtain ⟨r, hl, hr⟩ := exists_of_map_ok h
      cases hr
      rw [ih hl, physOf_mem hp]

@[simp] theorem execPoolgive_keeps (f : FmtE) {s : State} (hw : s.mem.wf = true) : MemKept (execPoolgive f s) := by
  refine issueWith_keeps hw (fun x hw => ?_)
  dsimp only
  split
  · trivial
  · split
    · trivial
    · split
      · trivial
      · next h => simp [poolPlaces_mem h, hw]

@[simp] theorem performPoolgive_wf {s : State} (ctx n : Nat) (objs : List (Nat × Place)) (hw : s.mem.wf = true)
    : (performPoolgive s ctx n objs).mem.wf = true := by
  unfold performPoolgive
  split
  · exact hw
  · exact foldl_wf hw (fun s o hw => poolPut_wf hw (fun bs => by simp [hw]))

theorem readTask_mem {x : Cx} {sp addr : Nat} {s t : State} {d : TaskDesc}
    (h : readTask x sp addr s = .ok (d, t)) : t.mem = s.mem := by
  unfold readTask at h
  dsimp only at h
  repeat' split at h
  all_goals cases h
  all_goals simp [fetchNat_mem ‹_›, engPlaces_mem ‹_›]

theorem readTask_trap_ok {x : Cx} {sp addr : Nat} {s : State} {r : Res} (h : readTask x sp addr s = .error r) :
    r.memOk := by
  unfold readTask at h
  dsimp only at h
  repeat' split at h
  all_goals cases h
  all_goals trivial

theorem readTasks_mem {x : Cx} {sp : Nat} {addr : Nat → Nat} {ls : List Nat} {s t : State}
    {ds : List (Nat × TaskDesc)} (h : readTasks x sp addr ls s = .ok (ds, t)) : t.mem = s.mem := by
  induction ls generalizing s ds with
  | nil =>
    cases h
    rfl
  | cons l ls ih =>
    unfold readTasks at h
    split at h
    · cases h
    · next hd =>
      obtain ⟨r, hl, hr⟩ := exists_of_map_ok h
      cases hr
      rw [ih hl, readTask_mem hd]

theorem readTasks_trap_ok {x : Cx} {sp : Nat} {addr : Nat → Nat} {ls : List Nat} {s : State} {r : Res}
    (h : readTasks x sp addr ls s = .error r) : r.memOk := by
  induction ls generalizing s with
  | nil => cases h
  | cons l ls ih =>
    unfold readTasks at h
    split at h
    · next hd =>
      cases h
      exact readTask_trap_ok hd
    · next u _ =>
      cases hl : readTasks x sp addr ls u with
      | ok r =>
        rw [hl] at h
        cases h
      | error r =>
        rw [hl] at h
        cases h
        exact ih hl

@[simp] theorem returnTiles_wf {s : State} (die ctx : Nat) (hw : s.mem.wf = true) :
    (returnTiles s die ctx).mem.wf = true := by
  unfold returnTiles
  split
  · exact hw
  · refine foldl_wf hw (fun s r hw => ?_)
    split
    · exact poolPut_wf hw (fun bs => by simp [hw])
    · exact hw

@[simp] theorem retireTask_wf (s : State) (die idx : Nat) (hw : s.mem.wf = true) :
    (retireTask s die idx).mem.wf = true := by
  unfold retireTask
  dsimp only
  repeat' split
  all_goals simp [hw]

@[simp] theorem tidyTasks_wf (s : State) (die : Nat) (hw : s.mem.wf = true) : (tidyTasks s die).mem.wf = true := by
  unfold tidyTasks
  dsimp only
  simp_all

theorem takeHandle_wf {s : State} (c : Ctx) (die ctx : Nat) (d : TaskDesc) (h : Nat) (writes : Bool)
    (hw : s.mem.wf = true) : (takeHandle s c die ctx d h writes).2.2.mem.wf = true := by
  unfold takeHandle
  dsimp only
  repeat' split
  all_goals simp [hw]

theorem takeHandles_wf (c : Ctx) (die ctx : Nat) (d : TaskDesc) (writes : Bool) (hs : List Nat) {s : State}
    (hw : s.mem.wf = true) : (takeHandles c die ctx d writes hs s).2.2.mem.wf = true := by
  induction hs generalizing s with
  | nil => exact hw
  | cons h hs ih => exact ih (takeHandle_wf c die ctx d h writes hw)

@[simp] theorem submitTask_wf (x : Cx) {s : State} (lane : Nat) (d : TaskDesc) (fx : Nat) (hw : s.mem.wf = true)
    : (submitTask x s lane d fx).mem.wf = true := by
  unfold submitTask
  split
  · exact hw
  · exact takeHandles_wf _ _ _ _ _ _ (takeHandles_wf _ _ _ _ _ _ hw)

@[simp] theorem execTask_keeps (f : FmtE) {s : State} (hw : s.mem.wf = true) : MemKept (execTask f s) := by
  refine issueWith_keeps hw (fun x hw => ?_)
  dsimp only
  split
  · trivial
  · split
    · exact hw
    · split
      · next h => exact readTasks_trap_ok h
      · next h =>
        have ht := tidyTasks_wf _ (dieOf x.blk.core) (readTasks_mem h ▸ hw)
        split
        · exact ht
        · rw [Res.memOk_done, State.updCrew_mem]
          exact foldl_wf ht (fun s e hw => submitTask_wf x e.1 e.2 _ hw)

@[simp] theorem execTaskDone_keeps (f : FmtE) (s : State) (hw : s.mem.wf = true) : MemKept (execTaskDone f s) := by
  unfold execTaskDone
  refine issueWith_keeps hw (fun x hw => ?_)
  dsimp only
  repeat' split
  all_goals simp [hw]

@[simp] theorem performTaskDone_wf {s : State} (die : Nat) (tids : List Nat) (hw : s.mem.wf = true) :
    (performTaskDone s die tids).mem.wf = true := by
  refine foldl_wf hw (fun s tid hw => ?_)
  split <;> simp [hw]

@[simp] theorem setDeque_wf (s : State) (core : Nat) (k : Block) (d : Deque) (hw : s.mem.wf = true) :
    (setDeque s core k d).mem.wf = true := by
  unfold setDeque
  dsimp only
  repeat' split
  all_goals simp [hw]

theorem dequePush_wf {s t : State} {core : Nat} {rec : List Byte} (hw : s.mem.wf = true)
    (h : dequePush s core rec = some t) : t.mem.wf = true := by
  unfold dequePush at h
  repeat' split at h
  all_goals cases h
  simp [hw]

theorem dequePop_wf {s t : State} {core : Nat} {oldest : Bool} {r : List Byte} (hw : s.mem.wf = true)
    (h : dequePop s core oldest = some (r, t)) : t.mem.wf = true := by
  unfold dequePop at h
  repeat' split at h
  all_goals cases h
  all_goals simp [hw]

@[simp] theorem execTaskPost_keeps (die idx : Nat) {s : State} (hw : s.mem.wf = true) :
    MemKept (execTaskPost die idx s) := by
  have ht : (tidyTasks s die).mem.wf = true := tidyTasks_wf s die hw
  unfold execTaskPost
  rw [memKept_next]
  dsimp only
  split
  · exact ht
  · split
    · exact ht
    · split
      · exact ht
      · next h =>
        rw [State.setDie_mem]
        exact dequePush_wf ht h

@[simp] theorem execDqpost_keeps (f : FmtE) (s : State) (hw : s.mem.wf = true) : MemKept (execDqpost f s) := by
  unfold execDqpost
  refine issueWith_keeps hw (fun x hw => ?_)
  dsimp only
  repeat' split
  all_goals simp [hw]

@[simp] theorem performDqpost_wf (s : State) (b c : Nat) (a3 : List Byte) (pd : Nat) (lanes : Lanes) (seq : Nat)
    (hw : s.mem.wf = true) : (performDqpost s b c a3 pd lanes seq).mem.wf = true := by
  unfold performDqpost
  split
  · exact hw
  · split
    · next h => simp [dequePush_wf hw h]
    · simp [hw]

@[simp] theorem dqArrive_mem (x : Cx) (f : FmtE) (a2 : List Byte) (s : State) : (dqArrive x f a2 s).mem = s.mem := by
  simp [dqArrive]

@[simp] theorem dqMissed_ok (x : Cx) (f : FmtE) (hw : x.s.mem.wf = true) : (dqMissed x f).memOk := by
  simp [dqMissed, hw]

@[simp] theorem execDqtake_keeps (f : FmtE) {s : State} (hw : s.mem.wf = true) : MemKept (execDqtake f s) := by
  refine issueWith_keeps hw (fun x hw => ?_)
  split
  · trivial
  · split
    · next h => simp [dequePop_wf hw h]
    · simp [hw]

@[simp] theorem execDqsteal_keeps (f : FmtE) {s : State} (hw : s.mem.wf = true) : MemKept (execDqsteal f s) := by
  refine issueWith_keeps hw (fun x hw => ?_)
  dsimp only
  split
  · trivial
  · split
    · simp [hw]
    · split
      · next h => simp [dequePop_wf hw h]
      · simp [hw]

@[simp] theorem noteQueue_mem (s : State) (ctx q : Nat) : (noteQueue s ctx q).mem = s.mem := by
  unfold noteQueue
  repeat' split
  all_goals simp [apply_ite State.mem]

@[simp] theorem execQsubmit_keeps (f : FmtE) (s : State) (hw : s.mem.wf = true) : MemKept (execQsubmit f s) := by
  unfold execQsubmit
  refine issueWith_keeps hw (fun x hw => ?_)
  dsimp only
  repeat' split
  all_goals simp [hw]

@[simp] theorem performQsubmit_wf (s : State) (b q n : Nat) (hw : s.mem.wf = true) :
    (performQsubmit s b q n).mem.wf = true := by
  unfold performQsubmit
  repeat' split
  all_goals simp [hw]

/-! ## Cycle -/

@[simp] theorem issuePicked_mem (s : State) (core slot : Nat) (cs : List Cand) (p : Cand) :
    (issuePicked s core slot cs p).mem = s.mem := by
  unfold issuePicked
  split <;> simp

@[simp] theorem execIssueCycle_keeps (core slot : Nat) (s : State) (hw : s.mem.wf = true) :
    MemKept (execIssueCycle core slot s) := by
  unfold execIssueCycle
  rw [memKept_next]
  dsimp only
  repeat' split
  all_goals simp [hw]

@[simp] theorem tryUnlock_mem (s : State) (b c seq : Nat) : (tryUnlock s b c seq).mem = s.mem := by
  simp [tryUnlock]

@[simp] theorem awaitPage_mem (s : State) (b c va acc : Nat) : (awaitPage s b c va acc).mem = s.mem := by
  simp [awaitPage]

@[simp] theorem performAct_wf (s : State) (b c : Nat) (k : Block) (act : Act) (seq : Nat) (hw : s.mem.wf = true)
    : (performAct s b c k act seq).mem.wf = true := by
  unfold performAct
  repeat' split
  all_goals simp [hw]

@[simp] theorem markerWaits_mem (s : State) (b c : Nat) (k : Block) (cr : Crew) (seq : Nat) (act : Act) :
    (markerWaits s b c k cr seq act).mem = s.mem := by
  unfold markerWaits
  repeat' split
  all_goals simp

@[simp] theorem performAtomic_wf (s : State) (b c core : Nat) (place : Place) (n aop : Nat) (vb vc : DWord)
    (dest : Option Dest) (hw : s.mem.wf = true) : (performAtomic s b c core place n aop vb vc dest).mem.wf = true := by
  unfold performAtomic
  split <;> simp [hw]

@[simp] theorem execStorePathPerform_keeps (blk crew : Nat) (s : State) (hw : s.mem.wf = true) :
    MemKept (execStorePathPerform blk crew s) := by
  unfold execStorePathPerform
  rw [memKept_next]
  repeat' split
  all_goals simp [hw]

@[simp] theorem allocCopies_mem (s : State) (l1 : Nat) (ws : List Nat) (bytes : Nat) :
    (allocCopies s l1 ws bytes).mem = s.mem := by
  simp [allocCopies, apply_ite State.mem]

@[simp] theorem loadBytes_mem (s : State) (core : Nat) (cr : Crew) (seq : Nat) (p : Place) (n pol : Nat) :
    (loadBytes s core cr seq p n pol).2.mem = s.mem := by
  unfold loadBytes
  repeat' split
  all_goals simp

@[simp] theorem performReturn_mem (s : State) (blk crew idx : Nat) : (performReturn s blk crew idx).mem = s.mem := by
  simp [performReturn]

@[simp] theorem execLoadPerform_keeps (blk crew idx : Nat) (s : State) (hw : s.mem.wf = true) :
    MemKept (execLoadPerform blk crew idx s) := by
  unfold execLoadPerform
  rw [memKept_next]
  dsimp only
  repeat' split
  all_goals simp [hw]

@[simp] theorem execAcquireComplete_keeps (blk crew idx : Nat) (s : State) (hw : s.mem.wf = true) :
    MemKept (execAcquireComplete blk crew idx s) := by
  unfold execAcquireComplete
  rw [memKept_next]
  dsimp only
  repeat' split
  all_goals simp [hw]

@[simp] theorem execEvict_keeps (l1 word : Nat) (s : State) (hw : s.mem.wf = true) : MemKept (execEvict l1 word s) := by
  unfold execEvict
  rw [memKept_next]
  repeat' split
  all_goals simp [hw]

@[simp] theorem wqLeave_mem (s : State) (core b c : Nat) : (wqLeave s core b c).mem = s.mem := by
  rw [wqLeave_eq, (wqsOnly_foldl (wqsOnly_wqDrop core b c) _ _).rest]

@[simp] theorem stopChannels_mem (s : State) (b core : Nat) : (stopChannels s b core).mem = s.mem := rfl

@[simp] theorem execCrewRetire_keeps (blk crew : Nat) (s : State) (hw : s.mem.wf = true) :
    MemKept (execCrewRetire blk crew s) := by
  unfold execCrewRetire
  rw [memKept_next]
  repeat' split
  all_goals simp [apply_ite State.mem, hw]

@[simp] theorem frameBack_wf (s : State) (ctx pool frame : Nat) (hw : s.mem.wf = true) :
    (frameBack s ctx pool frame).mem.wf = true := by
  unfold frameBack
  repeat' split
  all_goals grind [poolPut_wf, storeVirt_wf]

@[simp] theorem abandonOps_mem (s : State) (blk : Nat) : (abandonOps s blk).mem = s.mem := rfl

@[simp] theorem State.stampEnd_mem (s : State) (gid : Nat) : (State.stampEnd s gid).mem = s.mem := by
  simp [State.stampEnd]

@[simp] theorem execBlockEnd_keeps (blk : Nat) (s : State) (hw : s.mem.wf = true) : MemKept (execBlockEnd blk s) := by
  unfold execBlockEnd
  rw [memKept_next]
  repeat' split
  all_goals simp [apply_ite State.mem, apply_ite Memory.wf, hw]

/-! ## Queue -/

@[simp] theorem State.setPkt_mem (s : State) (i : Nat) (p : Packet) : (State.setPkt s i p).mem = s.mem := rfl

@[simp] theorem State.updPkt_mem (s : State) (i : Nat) (f : Packet → Packet) : (State.updPkt s i f).mem = s.mem := by
  unfold State.updPkt
  split <;> simp

@[simp] theorem removeContext_mem (s : State) (ctx : Nat) : (removeContext s ctx).mem = s.mem := rfl

@[simp] theorem dropContext_mem (s : State) (ctx : Nat) : (dropContext s ctx).mem = s.mem := by
  simp [dropContext, apply_ite State.mem]

@[simp] theorem execPacketRead_keeps (ctx q : Nat) (s : State) (hw : s.mem.wf = true) :
    MemKept (execPacketRead ctx q s) := by
  unfold execPacketRead
  rw [memKept_next]
  dsimp only
  repeat' split
  all_goals simp [hw]

@[simp] theorem startPkt_mem (s : State) (i : Nat) (p : Packet) : (startPkt s i p).1.mem = s.mem := rfl

@[simp] theorem execPriorityAging_keeps (pkt : Nat) (s : State) (hw : s.mem.wf = true) :
    MemKept (execPriorityAging pkt s) := by
  unfold execPriorityAging
  rw [memKept_next]
  repeat' split
  all_goals simp [hw]

@[simp] theorem initLadder_wf (s : State) (c : Ctx) (l : Ladder) (hw : s.mem.wf = true) :
    (initLadder s c l).mem.wf = true := by
  unfold initLadder
  dsimp only
  repeat' split
  all_goals simp_all

@[simp] theorem startGrid_wf (s : State) (i : Nat) (p : Packet) (g : Grid) (hw : s.mem.wf = true) :
    (startGrid s i p g).mem.wf = true := by
  unfold startGrid
  repeat' split
  all_goals simp [apply_ite State.mem, apply_ite Memory.wf, hw]

@[simp] theorem launchPkt_wf (s : State) (i : Nat) (p : Packet) (kdesc : Nat) (producer : Option Nat)
    (early : Bool) (hw : s.mem.wf = true) : (launchPkt s i p kdesc producer early).mem.wf = true := by
  unfold launchPkt
  dsimp only
  repeat' split
  all_goals simp [hw]

@[simp] theorem execLaunch_keeps (pkt : Nat) (s : State) (hw : s.mem.wf = true) : MemKept (execLaunch pkt s) := by
  unfold execLaunch
  rw [memKept_next]
  dsimp only
  repeat' split
  all_goals simp [hw]

theorem startTyped_wf {s : State} {pkt type : Nat} {ok : Packet → Bool} {k : State → Packet → State}
    (hw : s.mem.wf = true) (h : ∀ u p, u.mem.wf = true → (k u p).mem.wf = true) :
    (startTyped s pkt type ok k).mem.wf = true := by
  unfold startTyped
  dsimp only
  repeat' split
  all_goals simp [hw, h]

@[simp] theorem copyOp_mem (s : State) (i : Nat) (p : Packet) : (copyOp s i p).mem = s.mem := rfl

@[simp] theorem execCopyPacket_keeps (pkt : Nat) (s : State) (hw : s.mem.wf = true) :
    MemKept (execCopyPacket pkt s) := by
  unfold execCopyPacket
  rw [memKept_next]
  grind [Res.memOk, startTyped_wf, copyOp_mem]

theorem signalWord_wf {s t : State} {c : Ctx} {va v : Nat} {add done : Bool} (hw : s.mem.wf = true)
    (h : signalWord s c va v add = some (t, done)) : t.mem.wf = true := by
  unfold signalWord at h
  split at h
  · cases h
    have hp := fun p n bs => spoil_wf p n (unitWrite_wf p bs hw)
    split
    · exact hp _ _ _
    · exact spoil_wf _ _ (unitWrite_wf _ _ (hp _ _ _))
  · cases h
    exact hw
  · cases h
    exact hw
  · cases h

@[simp] theorem signalGo_wf {s : State} (pkt : Nat) (p : Packet) (hw : s.mem.wf = true) :
    (signalGo s pkt p).mem.wf = true := by
  unfold signalGo
  split
  · next h =>
    obtain ⟨c, -, hc⟩ := Option.bind_eq_some_iff.1 h
    rw [State.setPkt_mem]
    exact signalWord_wf hw hc
  · exact hw

@[simp] theorem execSignal_keeps (pkt : Nat) (s : State) (hw : s.mem.wf = true) : MemKept (execSignal pkt s) := by
  unfold execSignal
  rw [memKept_next]
  repeat' split
  all_goals grind [Res.memOk, signalGo_wf, startTyped_wf]

@[simp] theorem waitLook_mem (s : State) (pkt : Nat) (p : Packet) : (waitLook s pkt p).mem = s.mem := by
  unfold waitLook
  repeat' split
  all_goals simp

@[simp] theorem execWaitPacket_keeps (pkt : Nat) (s : State) (hw : s.mem.wf = true) :
    MemKept (execWaitPacket pkt s) := by
  unfold execWaitPacket
  rw [memKept_next]
  repeat' split
  all_goals grind [Res.memOk, waitLook_mem, startTyped_wf]

@[simp] theorem execWaitPacketTimeout_keeps (pkt : Nat) (s : State) (hw : s.mem.wf = true) :
    MemKept (execWaitPacketTimeout pkt s) := by
  unfold execWaitPacketTimeout
  rw [memKept_next]
  repeat' split
  all_goals simp [hw]

@[simp] theorem execSetdet_keeps (pkt : Nat) (s : State) (hw : s.mem.wf = true) : MemKept (execSetdet pkt s) := by
  unfold execSetdet
  rw [memKept_next]
  grind [Res.memOk, startTyped_wf, State.setPkt_mem]

@[simp] theorem execPoolset_keeps (pkt : Nat) (s : State) (hw : s.mem.wf = true) : MemKept (execPoolset pkt s) := by
  unfold execPoolset
  rw [memKept_next]
  grind [Res.memOk, startTyped_wf, State.setPkt_mem]

/-! ## Graph -/

@[simp] theorem putGraph_mem (s : State) (run : Nat) (r : GraphRun) : (putGraph s run r).mem = s.mem := by
  simp [putGraph, apply_ite State.mem]

@[simp] theorem endNode_mem (s : State) (run i status : Nat) : (endNode s run i status).mem = s.mem := by
  unfold endNode
  split <;> simp

@[simp] theorem execGraph_keeps (pkt : Nat) (s : State) (hw : s.mem.wf = true) : MemKept (execGraph pkt s) := by
  unfold execGraph
  rw [memKept_next]
  grind [Res.memOk, startTyped_wf, State.setPkt_mem, putGraph_mem]

@[simp] theorem nodeStarted_mem (s : State) (run i : Nat) (r : GraphRun) (pkt : Option Nat) :
    (nodeStarted s run i r pkt).mem = s.mem := rfl

@[simp] theorem execKern_keeps (run node : Nat) (s : State) (hw : s.mem.wf = true) : MemKept (execKern run node s) := by
  unfold execKern
  rw [memKept_next]
  repeat' split
  all_goals simp [hw]

@[simp] theorem execCopyNode_keeps (run node : Nat) (s : State) (hw : s.mem.wf = true) :
    MemKept (execCopyNode run node s) := by
  unfold execCopyNode
  rw [memKept_next]
  repeat' split
  all_goals simp [apply_ite State.mem, hw]

@[simp] theorem execLoop_keeps (run node : Nat) (s : State) (hw : s.mem.wf = true) : MemKept (execLoop run node s) := by
  unfold execLoop
  rw [memKept_next]
  split <;> simp [hw]

@[simp] theorem execLoopRunEnd_keeps (run node : Nat) (s : State) (hw : s.mem.wf = true) :
    MemKept (execLoopRunEnd run node s) := by
  unfold execLoopRunEnd
  rw [memKept_next]
  repeat' split
  all_goals simp [apply_ite State.mem, hw]

@[simp] theorem execCond_keeps (run node : Nat) (s : State) (hw : s.mem.wf = true) : MemKept (execCond run node s) := by
  unfold execCond
  rw [memKept_next]
  repeat' split
  all_goals simp [hw]

@[simp] theorem execSignalNode_keeps (run node : Nat) {s : State} (hw : s.mem.wf = true) :
    MemKept (execSignalNode run node s) := by
  unfold execSignalNode
  rw [memKept_next]
  split
  · exact hw
  · split
    · exact hw
    · next h => simp [signalWord_wf hw h]

@[simp] theorem waitNodeLook_mem (s : State) (run i : Nat) (c : Ctx) (n : NodeRec) :
    (waitNodeLook s run i c n).mem = s.mem := by
  unfold waitNodeLook
  repeat' split
  all_goals simp

@[simp] theorem execWaitNode_keeps (run node : Nat) (s : State) (hw : s.mem.wf = true) :
    MemKept (execWaitNode run node s) := by
  unfold execWaitNode
  rw [memKept_next]
  repeat' split
  all_goals simp [hw]

@[simp] theorem execWaitNodeTimeout_keeps (run node : Nat) (s : State) (hw : s.mem.wf = true) :
    MemKept (execWaitNodeTimeout run node s) := by
  unfold execWaitNodeTimeout
  rw [memKept_next]
  repeat' split
  all_goals simp [apply_ite State.mem, hw]

/-! ## System -/

@[simp] theorem execSread_keeps (f : FmtS) (s : State) (hw : s.mem.wf = true) : MemKept (execSread f s) := by
  unfold execSread
  refine issueWith_keeps hw (fun x hw => ?_)
  dsimp only
  repeat' split
  all_goals simp [hw]

@[simp] theorem writeDqlim_ok (x : Cx) (v : Nat) (hw : x.s.mem.wf = true) : (writeDqlim x v).memOk := by
  unfold writeDqlim
  split <;> simp [hw]

@[simp] theorem writeDqbase_ok (x : Cx) (v : Nat) (hw : x.s.mem.wf = true) : (writeDqbase x v).memOk := by
  unfold writeDqbase
  dsimp only
  repeat' split
  all_goals simp [hw]

@[simp] theorem execSwrite_keeps (f : FmtS) (s : State) (hw : s.mem.wf = true) : MemKept (execSwrite f s) := by
  unfold execSwrite
  refine issueWith_keeps hw (fun x hw => ?_)
  split <;> simp [hw]

/-! ## Complete -/

@[simp] theorem execGridComplete_keeps (grid : Nat) (s : State) (hw : s.mem.wf = true) :
    MemKept (execGridComplete grid s) := by
  unfold execGridComplete
  rw [memKept_next]
  dsimp only
  repeat' split
  all_goals simp_all

@[simp] theorem expire_wf (s : State) (gid : Nat) (hw : s.mem.wf = true) : (expire s gid).mem.wf = true := by
  unfold expire
  simp_all

@[simp] theorem expireIf_wf (s : State) (gid : Nat) (reached : Grid → Bool) (hw : s.mem.wf = true) :
    (expireIf s gid reached).mem.wf = true := by
  unfold expireIf
  repeat' split
  all_goals simp [hw]

@[simp] theorem execConeCycleExpiry_keeps (grid : Nat) (s : State) (hw : s.mem.wf = true) :
    MemKept (execConeCycleExpiry grid s) := by
  simp [execConeCycleExpiry, hw]

@[simp] theorem execConeEnergyExpiry_keeps (grid : Nat) (s : State) (hw : s.mem.wf = true) :
    MemKept (execConeEnergyExpiry grid s) := by
  simp [execConeEnergyExpiry, hw]

@[simp] theorem execConeDeadlineExpiry_keeps (grid : Nat) (s : State) (hw : s.mem.wf = true) :
    MemKept (execConeDeadlineExpiry grid s) := by
  simp [execConeDeadlineExpiry, hw]

@[simp] theorem cutOps_mem (s : State) (blk : Nat) : (cutOps s blk).mem = s.mem := rfl

@[simp] theorem cutBlock_mem (s : State) (core b : Nat) : (cutBlock s core b).mem = s.mem := by
  unfold cutBlock
  rw [cutOps_mem, stopChannels_mem, State.setCore_mem]
  refine (foldl_mem (fun s q => ?_)).trans (State.updBlock_mem _ _ _)
  dsimp only
  split <;> simp

@[simp] theorem execCutArrival_keeps (grid core : Nat) (s : State) (hw : s.mem.wf = true) :
    MemKept (execCutArrival grid core s) := by
  unfold execCutArrival
  rw [memKept_next]
  repeat' split
  all_goals simp_all

@[simp] theorem writeManifest_wf (s : State) (c : Ctx) (p : Packet) (hw : s.mem.wf = true) :
    (writeManifest s c p).mem.wf = true := by
  unfold writeManifest
  grind [storeVirt_wf]

@[simp] theorem returnPools_mem (s : State) (p : Packet) : (returnPools s p).mem = s.mem := by
  unfold returnPools
  split <;> simp

@[simp] theorem nodeCompleted_mem (s : State) (p : Packet) : (nodeCompleted s p).mem = s.mem := by
  unfold nodeCompleted
  split <;> simp

@[simp] theorem execCompletionRecordWrite_keeps (pkt : Nat) (s : State) (hw : s.mem.wf = true) :
    MemKept (execCompletionRecordWrite pkt s) := by
  unfold execCompletionRecordWrite
  rw [memKept_next]
  repeat' split
  all_goals simp [apply_ite State.mem, apply_ite Memory.wf, hw]

/-! ## MaskUnit -/

@[simp] theorem gmWriteBack_wf (s : State) (q : Nat) (g : GmStream) (hw : s.mem.wf = true) :
    (gmWriteBack s q g).mem.wf = true := by
  simp [gmWriteBack, hw]

@[simp] theorem gmRoom_wf (s : State) (q : Nat) (hw : s.mem.wf = true) : (gmRoom s q).mem.wf = true := by
  unfold gmRoom
  dsimp only
  repeat' split
  all_goals simp [hw]

@[simp] theorem gmPut_mem (s : State) (q : Nat) (g : GmStream) : (gmPut s q g).mem = s.mem := rfl

@[simp] theorem gmEnter_wf (s : State) (q : Nat) (g : GmStream) (hw : s.mem.wf = true) :
    (gmEnter s q g).mem.wf = true := by
  simp [gmEnter, hw]

theorem gmResident_wf {s t : State} {q p ctx va : Nat} {r : GmRec} {g : GmStream} (hw : s.mem.wf = true)
    (h : gmResident s q p ctx va r = some (t, g)) : t.mem.wf = true := by
  unfold gmResident at h
  split at h
  · split at h
    · cases h
      exact hw
    · obtain ⟨g, -, hr⟩ := Option.map_eq_some_iff.1 h
      cases hr
      simp [hw]
  · obtain ⟨g, -, hr⟩ := Option.map_eq_some_iff.1 h
    cases hr
    simp [hw]

@[simp] theorem gmUsed_mem (s : State) (q grid : Nat) (g : GmStream) : (gmUsed s q grid g).1.mem = s.mem := by
  unfold gmUsed
  split <;> simp

@[simp] theorem gmFault_ok (x : Cx) (e : AccFault) (acc : Nat) (hw : x.s.mem.wf = true) : (gmFault x e acc).memOk := by
  unfold gmFault
  repeat' split
  all_goals simp [hw]

theorem gmWrites_ok {x : Cx} {va : Nat} {k : Cx → Res} (hw : x.s.mem.wf = true)
    (h : ∀ x : Cx, x.s.mem.wf = true → (k x).memOk) : (gmWrites x va k).memOk := by
  unfold gmWrites
  split
  · simp [hw]
  · next hp => exact h _ (by simp [physOf_mem hp, hw])

theorem gmWith_ok {f : FmtA} {x : Cx} {k : Cx → Nat → Nat → GmRec → Res} (hw : x.s.mem.wf = true)
    (h : ∀ (x : Cx) q p r, x.s.mem.wf = true → (k x q p r).memOk) : (gmWith f x k).memOk := by
  unfold gmWith
  dsimp only
  repeat' split
  · simp [hw]
  · trivial
  · simp [hw]
  · trivial
  · next hp _ _ _ => exact h _ _ _ _ (by simp [physOf_mem hp, hw])

theorem gmState_ok {f : FmtA} {x : Cx} {changes : Bool} {k : Cx → Nat → GmRec → GmStream → Res}
    (hw : x.s.mem.wf = true) (h : ∀ (x : Cx) q r g, x.s.mem.wf = true → (k x q r g).memOk) :
    (gmState f x changes k).memOk := by
  refine gmWith_ok hw (fun x q p r hw => ?_)
  have run : ∀ x : Cx, x.s.mem.wf = true → (match gmResident x.s q p x.g.ctx (x.uni f.a) r with
      | none => Res.trapOpen cProt
      | some (s, g) => k (x.on (gmUsed s q x.blk.grid g).1) q r (gmUsed s q x.blk.grid g).2).memOk := by
    intro x hw
    split
    · trivial
    · next hr => exact h _ _ _ _ (by simp [gmResident_wf hw hr])
  dsimp only
  split
  · exact gmWrites_ok hw run
  · exact run x hw

@[simp] theorem execGmbind_keeps (f : FmtA) {s : State} (hw : s.mem.wf = true) : MemKept (execGmbind f s) := by
  refine issueWith_keeps hw (fun x hw => ?_)
  refine gmWith_ok hw (fun x q p r hw => gmWrites_ok hw (fun x hw => ?_))
  dsimp only
  split <;> simp [hw]

@[simp] theorem execGmstep_keeps (f : FmtA) {s : State} (hw : s.mem.wf = true) : MemKept (execGmstep f s) := by
  refine issueWith_keeps hw (fun x hw => ?_)
  refine gmState_ok hw (fun x q r g hw => ?_)
  dsimp only
  split
  · trivial
  · split
    · simp [hw]
    · next h1 =>
      have hm := fetchNat_mem h1
      split
      · trivial
      · split
        · simp [hm, hw]
        · next h2 =>
          have hm2 := fetchNat_mem h2
          split
          · trivial
          · split
            · trivial
            · simp [hm2, hm, hw]

@[simp] theorem execGmfetch_keeps (f : FmtA) {s : State} (hw : s.mem.wf = true) : MemKept (execGmfetch f s) := by
  refine issueWith_keeps hw (fun x hw => ?_)
  refine gmState_ok hw (fun x q r g hw => ?_)
  dsimp only
  split
  · trivial
  · split
    · simp [hw]
    · next h1 =>
      have hm := fetchNat_mem h1
      split
      · trivial
      · split
        · simp [hm, hw]
        · next h2 => simp [fetchNat_mem h2, hm, hw]

@[simp] theorem execGmstkSpill_keeps (f : FmtA) {s : State} (hw : s.mem.wf = true) : MemKept (execGmstkSpill f s) := by
  refine issueWith_keeps hw (fun x hw => ?_)
  refine gmState_ok hw (fun x q r g hw => ?_)
  dsimp only
  split
  · trivial
  · simp [hw]

@[simp] theorem execGmstkFill_keeps (f : FmtA) (s : State) (hw : s.mem.wf = true) : MemKept (execGmstkFill f s) := by
  unfold execGmstkFill
  refine issueWith_keeps hw (fun x hw => ?_)
  grind [Res.memOk, issueWith_keeps, gmState_ok, gmPut_mem]

@[simp] theorem execGmstkRd_keeps (f : FmtA) {s : State} (hw : s.mem.wf = true) : MemKept (execGmstkRd f s) := by
  refine issueWith_keeps hw (fun x hw => ?_)
  exact gmState_ok hw (fun x q r g hw => by simp [hw])

@[simp] theorem execMaskUnitWriteback_keeps (quad a1 : Nat) (s : State) (hw : s.mem.wf = true) :
    MemKept (execMaskUnitWriteback quad a1 s) := by
  unfold execMaskUnitWriteback
  rw [memKept_next]
  split <;> simp [hw]

/-! ## Switch -/

@[simp] theorem passAlone_mem (x : Cx) (s : State) (id : Nat) : (passAlone x s id).mem = s.mem := by
  simp [passAlone]

@[simp] theorem passAgain_mem (x : Cx) (id : Nat) : (passAgain x id).mem = x.s.mem := by
  simp [passAgain]

@[simp] theorem switchAbandon_wf {s : State} (b va n : Nat) (hw : s.mem.wf = true) :
    (switchAbandon s b va n).mem.wf = true := by
  unfold switchAbandon
  split
  · exact hw
  · refine foldl_wf (by simp [hw]) (fun s e hw => ?_)
    dsimp only
    split <;> simp [hw]

@[simp] theorem switchLeave_ok (x : Cx) (p : SwPoint) (v : Variant) (map : List Nat) (n : Nat)
    (hw : x.s.mem.wf = true) : (switchLeave x p v map n).memOk := by
  unfold switchLeave
  extract_lets s k data
  have hs : s.mem.wf = true := phaseBoundary_wf x.b hw
  split
  · split
    · simp [hs]
    · simp [hs]
  · next u hp =>
    have hu : u.mem.wf = true := by rw [longPieces_mem _ hp, hs]
    simp [hu]

@[simp] theorem switchArrive_ok (x : Cx) (p : SwPoint) (hw : x.s.mem.wf = true) : (switchArrive x p).memOk := by
  unfold switchArrive
  dsimp only
  repeat' split
  all_goals simp [hw]

@[simp] theorem execSwitchpt_keeps (f : FmtS) (s : State) (hw : s.mem.wf = true) : MemKept (execSwitchpt f s) := by
  unfold execSwitchpt
  refine issueWith_keeps hw (fun x hw => ?_)
  dsimp only
  repeat' split
  all_goals simp [hw]

@[simp] theorem enterRanges_wf {s : State} (b : Nat) (rs : List (Nat × Nat)) (bs : List Byte)
    (hw : s.mem.wf = true) : (enterRanges s b rs bs).mem.wf = true := by
  induction rs generalizing s bs with
  | nil => exact hw
  | cons r rs ih =>
    refine ih _ ?_
    split
    · exact hw
    · refine foldl_wf hw (fun s i hw => ?_)
      split <;> simp [hw]

@[simp] theorem enterVariant_wf (s : State) (b core : Nat) (k : Block) (g : Grid) (v : Variant) (p : SwPoint)
    (resume : Nat) (map : List Nat) (bs : List Byte) (hw : s.mem.wf = true) :
    (enterVariant s b core k g v p resume map bs).mem.wf = true := by
  simp [enterVariant, hw]

@[simp] theorem execSwitchRelaunch_keeps (blk core : Nat) (s : State) (hw : s.mem.wf = true) :
    MemKept (execSwitchRelaunch blk core s) := by
  unfold execSwitchRelaunch
  rw [memKept_next]
  repeat' split
  all_goals grind [Res.memOk, longPieces_mem, enterVariant_wf]

@[simp] theorem setFlag_mem (s : State) (b r : Nat) : (setFlag s b r).mem = s.mem := by
  simp [setFlag]

@[simp] theorem setPressed_mem (s : State) (die n : Nat) : (setPressed s die n).mem = s.mem := by
  simp [setPressed, apply_ite State.mem]

@[simp] theorem execSwitchFlagPressure_keeps (waiting blk : Nat) (s : State) (hw : s.mem.wf = true) :
    MemKept (execSwitchFlagPressure waiting blk s) := by
  unfold execSwitchFlagPressure
  rw [memKept_next]
  repeat' split
  all_goals simp [hw]

@[simp] theorem execSwitchFlagIdle_keeps (blk : Nat) (s : State) (hw : s.mem.wf = true) :
    MemKept (execSwitchFlagIdle blk s) := by
  unfold execSwitchFlagIdle
  rw [memKept_next]
  repeat' split
  all_goals simp [hw]

@[simp] theorem execSwitchFlagRestore_keeps (blk : Nat) (s : State) (hw : s.mem.wf = true) :
    MemKept (execSwitchFlagRestore blk s) := by
  unfold execSwitchFlagRestore
  rw [memKept_next]
  repeat' split
  all_goals simp [hw]

/-! ## Faults -/

@[simp] theorem withdrawBar_mem (s : State) (b c : Nat) (a : Nat × Nat × Nat × Option Nat) :
    (withdrawBar s b c a).mem = s.mem := by
  unfold withdrawBar
  repeat' split
  all_goals simp [apply_ite State.mem]

@[simp] theorem rollCrew_mem (s : State) (b c : Nat) : (rollCrew s b c).mem = s.mem := by
  unfold rollCrew
  split
  · rw [State.draw_mem, State.updGrid_mem, State.setCore_mem, foldl_mem (fun s p => wqRejoin_mem _ _ _ _ _),
      State.updBlock_mem,
      State.setCrew_mem, foldl_mem (fun s a => withdrawBar_mem _ _ _ _)]
  · rfl

@[simp] theorem execLateFaultRollback_keeps (blk crew : Nat) (s : State) (hw : s.mem.wf = true) :
    MemKept (execLateFaultRollback blk crew s) := by
  unfold execLateFaultRollback
  rw [memKept_next]
  repeat' split
  all_goals simp [hw]

@[simp] theorem unqueueTrap_mem (s : State) (core slot b c : Nat) : (unqueueTrap s core slot b c).mem = s.mem := rfl

@[simp] theorem handlerFault_wf (s : State) (b c : Nat) (hw : s.mem.wf = true) :
    (handlerFault s b c).mem.wf = true := by
  unfold handlerFault
  repeat' split
  all_goals simp [hw]

@[simp] theorem execHandlerEntry_keeps (core slot : Nat) (s : State) (hw : s.mem.wf = true) :
    MemKept (execHandlerEntry core slot s) := by
  unfold execHandlerEntry
  rw [memKept_next]
  dsimp only
  repeat' split
  all_goals simp [hw]

@[simp] theorem execWaitCycleProbe_keeps (blk crew : Nat) (s : State) (hw : s.mem.wf = true) :
    MemKept (execWaitCycleProbe blk crew s) := by
  unfold execWaitCycleProbe
  rw [memKept_next]
  repeat' split
  all_goals simp [apply_ite State.mem, apply_ite Memory.wf, hw]

theorem faultRecord_wf {s t : State} {ctx va src acc grid n : Nat} (hw : s.mem.wf = true)
    (h : faultRecord s ctx va src acc grid = some (t, n)) : t.mem.wf = true := by
  have hr := ringRecord_wf s ctx va cPf src acc 0 grid hw
  unfold faultRecord at h
  split at h
  · cases h
    exact hw
  · split at h
    · next hq =>
      cases h
      rw [hq] at hr
      exact hr
    · cases h

@[simp] theorem execPageFaultRecord_keeps (src : FaultSrc) {s : State} (hw : s.mem.wf = true) :
    MemKept (execPageFaultRecord src s) := by
  unfold execPageFaultRecord
  rw [memKept_next]
  split
  · split
    · split
      · split
        · next h => simp [faultRecord_wf hw h]
        · exact hw
      · exact hw
    · exact hw
  · split
    · split
      · split
        · next h => simp [faultRecord_wf hw h]
        · exact hw
      · exact hw
    · exact hw

@[simp] theorem stopPacketCopies_mem (s : State) (die engine : Nat) : (stopPacketCopies s die engine).mem = s.mem := by
  simp [stopPacketCopies, apply_ite State.mem]

@[simp] theorem moveStreams_wf (s : State) (quad : Nat) (hw : s.mem.wf = true) :
    (moveStreams s quad).mem.wf = true := by
  unfold moveStreams
  dsimp only
  repeat' split
  all_goals simp_all

@[simp] theorem retirePort_mem (s : State) (port : Nat) : (retirePort s port).mem = s.mem := rfl

@[simp] theorem listUnit_wf (s : State) (kind idx : Nat) (hw : s.mem.wf = true) :
    (listUnit s kind idx).mem.wf = true := by
  unfold listUnit
  split <;> simp [hw]

@[simp] theorem mceRecord_wf (s : State) (ctx kind grid : Nat) (hw : s.mem.wf = true) :
    (mceRecord s ctx kind grid).mem.wf = true := by
  have hr := ringRecord_wf s ctx 0 cMce 5 0 kind grid hw
  unfold mceRecord
  split
  · next h =>
    rw [h] at hr
    exact hr
  · next h =>
    rw [h] at hr
    exact hr

@[simp] theorem retireUnit_wf {s : State} (kind idx : Nat) (own : Option Nat) (hw : s.mem.wf = true) :
    (retireUnit s kind idx own).mem.wf = true := by
  unfold retireUnit
  split
  · exact hw
  · split
    · simp [hw]
    · exact foldl_wf (foldl_wf (by simp [hw]) (fun s e hw => mceRecord_wf s _ _ _ hw)) (fun s g hw => endGrid_wf _ _ _ hw)

@[simp] theorem execMceRetire_keeps (kind idx : Nat) (s : State) (hw : s.mem.wf = true) :
    MemKept (execMceRetire kind idx s) := by
  unfold execMceRetire
  rw [memKept_next]
  split <;> simp [hw]

@[simp] theorem retryAt_mem (s : State) (b c pc n : Nat) (timing : Bool) : (retryAt s b c pc n timing).mem = s.mem := by
  simp [retryAt]

@[simp] theorem execTimingError_keeps (blk crew pc : Nat) (s : State) (hw : s.mem.wf = true) :
    MemKept (execTimingError blk crew pc s) := by
  unfold execTimingError
  rw [memKept_next]
  repeat' split
  all_goals simp [apply_ite State.mem, apply_ite Memory.wf, hw]

@[simp] theorem execParityError_keeps (blk crew pc kind idx : Nat) (s : State) (hw : s.mem.wf = true) :
    MemKept (execParityError blk crew pc kind idx s) := by
  unfold execParityError
  rw [memKept_next]
  repeat' split
  all_goals simp [hw]

@[simp] theorem execHbmUncorrectable_keeps (page : Nat) (s : State) (hw : s.mem.wf = true) :
    MemKept (execHbmUncorrectable page s) := by
  unfold execHbmUncorrectable
  rw [memKept_next]
  repeat' split
  all_goals simp [hw]

/-! ## Save -/

theorem takeFrame_mem {s t : State} {ctx a : Nat} (h : takeFrame s ctx = some (a, t)) : t.mem = s.mem := by
  unfold takeFrame at h
  dsimp only at h
  split at h
  · cases h
  · split at h
    · split at h
      · cases h
      · obtain ⟨l, -, hr⟩ := Option.map_eq_some_iff.1 h
        cases hr
        rfl
    · cases h

@[simp] theorem rollBlock_mem (s : State) (b : Nat) (k : Block) : (rollBlock s b k).mem = s.mem := by
  simp [rollBlock, apply_ite State.mem]

@[simp] theorem saveBlock_wf (s : State) (b why : Nat) (hw : s.mem.wf = true) : (saveBlock s b why).mem.wf = true := by
  unfold saveBlock
  split
  · exact hw
  · next k _ =>
    split
    · exact hw
    · split
      · exact hw
      · split
        · exact hw
        · next u h =>
          have hu : (rollBlock u b k).mem.wf = true := by rw [rollBlock_mem, takeFrame_mem h, hw]
          dsimp only
          rw [State.draw_mem, leaveCore_mem, State.setBlock_mem]
          split
          · exact storeVirt_wf _ _ _ _ hu
          · exact hu

@[simp] theorem execFaultServiceSave_keeps (blk : Nat) (s : State) (hw : s.mem.wf = true) :
    MemKept (execFaultServiceSave blk s) := by
  unfold execFaultServiceSave
  rw [memKept_next]
  split <;> simp [hw]

@[simp] theorem execPreemptionSave_keeps (blk : Nat) (s : State) (hw : s.mem.wf = true) :
    MemKept (execPreemptionSave blk s) := by
  unfold execPreemptionSave
  rw [memKept_next]
  split <;> simp [hw]

@[simp] theorem execParkedBlockEvict_keeps (blk : Nat) (s : State) (hw : s.mem.wf = true) :
    MemKept (execParkedBlockEvict blk s) := by
  unfold execParkedBlockEvict
  rw [memKept_next]
  repeat' split
  all_goals simp [apply_ite State.mem, apply_ite Memory.wf, hw]

@[simp] theorem restoreUnits_mem (s : State) (b core : Nat) (k : Block) : (restoreUnits s b core k).mem = s.mem :=
  foldl_mem (fun s _ => setWq_mem s _ _ _)

@[simp] theorem execBlockRestore_keeps (blk core : Nat) {s : State} (hw : s.mem.wf = true) :
    MemKept (execBlockRestore blk core s) := by
  unfold execBlockRestore
  rw [memKept_next]
  split
  · exact hw
  · split
    · dsimp only
      split
      · exact hw
      · rw [restoreUnits_mem]
        refine foldl_wf (by simp [hw]) (fun s e hw => ?_)
        split <;> simp [hw]
    · exact hw

/-! ## Platform -/

@[simp] theorem doorbell_wf (s : State) (ctx q val : Nat) (hw : s.mem.wf = true) :
    (doorbell s ctx q val).mem.wf = true := by
  unfold doorbell
  dsimp only
  repeat' split
  all_goals simp [hw]

@[simp] theorem execDoorbellWrite_keeps (ctx q val : Nat) (s : State) (hw : s.mem.wf = true) :
    MemKept (execDoorbellWrite ctx q val s) := by
  simp [execDoorbellWrite, hw]

@[simp] theorem contextSlot_mem (s : State) (ctx val : Nat) : (contextSlot s ctx val).mem = s.mem := by
  unfold contextSlot
  dsimp only
  repeat' split
  all_goals simp

@[simp] theorem execContextSlotWrite_keeps (ctx val : Nat) (s : State) (hw : s.mem.wf = true) :
    MemKept (execContextSlotWrite ctx val s) := by
  simp [execContextSlotWrite, hw]

@[simp] theorem serviced_wf (s : State) (ctx n : Nat) (hw : s.mem.wf = true) : (serviced s ctx n).mem.wf = true := by
  unfold serviced
  dsimp only
  simp_all

@[simp] theorem execFrridxWrite_keeps (ctx val : Nat) (s : State) (hw : s.mem.wf = true) :
    MemKept (execFrridxWrite ctx val s) := by
  unfold execFrridxWrite
  rw [memKept_next]
  split <;> simp [hw]

@[simp] theorem invalidate_mem (s : State) (ctx val : Nat) : (invalidate s ctx val).mem = s.mem := by
  simp [invalidate, apply_ite State.mem]

@[simp] theorem execInvctlInvalidate_keeps (ctx val : Nat) (s : State) (hw : s.mem.wf = true) :
    MemKept (execInvctlInvalidate ctx val s) := by
  simp [execInvctlInvalidate, hw]

@[simp] theorem execInvalidationDone_keeps (ctx : Nat) (s : State) (hw : s.mem.wf = true) :
    MemKept (execInvalidationDone ctx s) := by
  unfold execInvalidationDone
  rw [memKept_next]
  simp [apply_ite State.mem, hw]

@[simp] theorem startVerify_mem (s : State) (val : Nat) : (startVerify s val).mem = s.mem := by
  simp [startVerify, apply_ite State.mem]

@[simp] theorem execFwctlVerify_keeps (val : Nat) (s : State) (hw : s.mem.wf = true) :
    MemKept (execFwctlVerify val s) := by
  simp [execFwctlVerify, hw]

@[simp] theorem romBoot_wf {s : State} (hw : s.mem.wf = true) : (romBoot s).mem.wf = true := by
  refine foldl_wf (by simp [hw]) (fun s u hw => ?_)
  split <;> simp [hw]

@[simp] theorem execFirmwareVerifyDone_keeps (s : State) (hw : s.mem.wf = true) :
    MemKept (execFirmwareVerifyDone s) := by
  unfold execFirmwareVerifyDone
  rw [memKept_next]
  repeat' split
  all_goals simp [apply_ite State.mem, apply_ite Memory.wf, hw]

@[simp] theorem execFirmwareStagingWindowWrite_keeps (ofs : Nat) (data : List Byte) (s : State)
    (hw : s.mem.wf = true) : MemKept (execFirmwareStagingWindowWrite ofs data s) := by
  unfold execFirmwareStagingWindowWrite
  rw [memKept_next]
  split <;> simp [hw]

@[simp] theorem packageReset_wf (s : State) (link : Bool) :
    (packageReset s link).mem.wf = true := Memory.wf_swapPkg _ _ _

@[simp] theorem resetWrite_wf (s : State) (val : Nat) (hw : s.mem.wf = true) : (resetWrite s val).mem.wf = true := by
  unfold resetWrite
  split <;> simp [hw]

@[simp] theorem execRstctlReset_keeps (val : Nat) (s : State) (hw : s.mem.wf = true) :
    MemKept (execRstctlReset val s) := by
  simp [execRstctlReset, hw]

@[simp] theorem execFundamentalReset_keeps (s : State) : MemKept (execFundamentalReset s) := by
  simp [execFundamentalReset]

@[simp] theorem execHotReset_keeps (s : State) : MemKept (execHotReset s) := by
  simp [execHotReset]

@[simp] theorem execFunctionLevelReset_keeps (s : State) : MemKept (execFunctionLevelReset s) := by
  simp [execFunctionLevelReset]

@[simp] theorem execHostLinkUp_keeps (s : State) (hw : s.mem.wf = true) : MemKept (execHostLinkUp s) := by
  simp [execHostLinkUp, hw]

@[simp] theorem routeWrite_mem (s : State) (idx val : Nat) : (routeWrite s idx val).mem = s.mem := by
  simp [routeWrite, apply_ite State.mem]

@[simp] theorem execRouteEntryWrite_keeps (idx val : Nat) (s : State) (hw : s.mem.wf = true) :
    MemKept (execRouteEntryWrite idx val s) := by
  simp [execRouteEntryWrite, hw]

@[simp] theorem ringWrite_wf (s : State) (ctx n val : Nat) (hw : s.mem.wf = true) :
    (ringWrite s ctx n val).mem.wf = true := by
  unfold ringWrite
  split <;> simp [hw]

@[simp] theorem setPkgId_wf (s : State) (n : BitVec 10) : (setPkgId s n).mem.wf = true := Memory.wf_swapPkg _ _ _

@[simp] theorem controlWrite_wf (s : State) (ofs val : Nat) (hw : s.mem.wf = true) :
    (controlWrite s ofs val).mem.wf = true := by
  unfold controlWrite
  repeat' split
  all_goals simp [hw]

@[simp] theorem execControlRegisterWrite_keeps (ofs val : Nat) (s : State) (hw : s.mem.wf = true) :
    MemKept (execControlRegisterWrite ofs val s) := by
  simp [execControlRegisterWrite, hw]

@[simp] theorem hostWrite_wf {s : State} (addr : Nat) (data : List Byte) (hw : s.mem.wf = true) :
    (hostWrite s addr data).mem.wf = true := by
  induction data generalizing s addr with
  | nil => exact hw
  | cons b bs ih => exact ih _ (by simp [hw])

@[simp] theorem execHostCxlStore_keeps (addr : Nat) (data : List Byte) (s : State) (hw : s.mem.wf = true) :
    MemKept (execHostCxlStore addr data s) := by
  unfold execHostCxlStore
  rw [memKept_next]
  split <;> simp [hw]

@[simp] theorem execFlitCrcRetry_keeps (port lane : Nat) (s : State) (hw : s.mem.wf = true) :
    MemKept (execFlitCrcRetry port lane s) := by
  unfold execFlitCrcRetry
  rw [memKept_next]
  simp [apply_ite State.mem, hw]

@[simp] theorem execLaneDrop_keeps (port lane : Nat) (s : State) (hw : s.mem.wf = true) :
    MemKept (execLaneDrop port lane s) := by
  unfold execLaneDrop
  rw [memKept_next]
  simp [apply_ite State.mem, apply_ite Memory.wf, hw]

@[simp] theorem execClockThrottle_keeps (die : Nat) (s : State) (hw : s.mem.wf = true) :
    MemKept (execClockThrottle die s) := by
  unfold execClockThrottle
  rw [memKept_next]
  split <;> simp [hw]

@[simp] theorem execArithmeticClockRestore_keeps (die : Nat) (s : State) (hw : s.mem.wf = true) :
    MemKept (execArithmeticClockRestore die s) := by
  unfold execArithmeticClockRestore
  rw [memKept_next]
  split <;> simp [hw]

/-! ## Spdm -/

@[simp] theorem replyWith_mem (s : State) (data : List Byte) : (replyWith s data).mem = s.mem := rfl

@[simp] theorem errorReply_mem (s : State) (code : Nat) : (errorReply s code).mem = s.mem := rfl

theorem answer_mem {s : State} {phase : Nat} {k : State → State} (h : (k s).mem = s.mem) :
    (answer s phase k).mem = s.mem := by
  unfold answer
  repeat' split
  all_goals simp [h]

@[simp] theorem largeReply_mem (s : State) (code : Nat) (data : List Byte) : (largeReply s code data).mem = s.mem := rfl

@[simp] theorem onVersion_mem (s : State) : (onVersion s).mem = s.mem := by
  unfold onVersion
  grind [answer_mem, replyWith_mem]

@[simp] theorem onCapabilities_mem (s : State) : (onCapabilities s).mem = s.mem := by
  unfold onCapabilities
  grind [answer_mem, replyWith_mem]

@[simp] theorem onAlgorithms_mem (asym hash : Nat) (s : State) : (onAlgorithms asym hash s).mem = s.mem := by
  unfold onAlgorithms
  grind [answer_mem, replyWith_mem]

@[simp] theorem onDigests_mem (s : State) : (onDigests s).mem = s.mem := by
  unfold onDigests
  grind [answer_mem, replyWith_mem]

@[simp] theorem onCertificate_mem (slot ofs len : Nat) (s : State) : (onCertificate slot ofs len s).mem = s.mem := by
  unfold onCertificate
  repeat' split
  all_goals grind [answer_mem, errorReply_mem, replyWith_mem]

@[simp] theorem onChallenge_mem (slot : Nat) (nonce : List Byte) (s : State) :
    (onChallenge slot nonce s).mem = s.mem := by
  refine answer_mem ?_
  split <;> simp

@[simp] theorem onMeasurements_mem (idx : Nat) (sign : Bool) (nonce : List Byte) (s : State) :
    (onMeasurements idx sign nonce s).mem = s.mem := by
  refine answer_mem ?_
  dsimp only
  repeat' split
  all_goals simp

@[simp] theorem execGetVersion_keeps (s : State) (hw : s.mem.wf = true) : MemKept (execGetVersion s) := by
  simp [execGetVersion, hw]

@[simp] theorem execGetCapabilities_keeps (s : State) (hw : s.mem.wf = true) : MemKept (execGetCapabilities s) := by
  simp [execGetCapabilities, hw]

@[simp] theorem execNegotiateAlgorithms_keeps (asym hash : Nat) (s : State) (hw : s.mem.wf = true) :
    MemKept (execNegotiateAlgorithms asym hash s) := by
  simp [execNegotiateAlgorithms, hw]

@[simp] theorem execGetDigests_keeps (s : State) (hw : s.mem.wf = true) : MemKept (execGetDigests s) := by
  simp [execGetDigests, hw]

@[simp] theorem execGetCertificate_keeps (slot ofs len : Nat) (s : State) (hw : s.mem.wf = true) :
    MemKept (execGetCertificate slot ofs len s) := by
  simp [execGetCertificate, hw]

@[simp] theorem execChallenge_keeps (slot : Nat) (nonce : List Byte) (s : State) (hw : s.mem.wf = true) :
    MemKept (execChallenge slot nonce s) := by
  simp [execChallenge, hw]

@[simp] theorem execGetMeasurements_keeps (idx : Nat) (sign : Bool) (nonce : List Byte) (s : State)
    (hw : s.mem.wf = true) : MemKept (execGetMeasurements idx sign nonce s) := by
  simp [execGetMeasurements, hw]

@[simp] theorem onRequest_mem (r : Config.SpdmRequest) (s : State) : (onRequest r s).mem = s.mem := by
  unfold onRequest
  split <;> simp

@[simp] theorem execChunkSend_keeps (handle seq : Nat) (last : Bool) (data : List Byte) (s : State)
    (hw : s.mem.wf = true) : MemKept (execChunkSend handle seq last data s) := by
  unfold execChunkSend
  rw [memKept_next]
  repeat' split
  all_goals grind [Res.memOk, answer_mem, onRequest_mem, replyWith_mem]

@[simp] theorem execChunkGet_keeps (handle seq : Nat) (s : State) (hw : s.mem.wf = true) :
    MemKept (execChunkGet handle seq s) := by
  unfold execChunkGet
  rw [memKept_next]
  grind [Res.memOk, answer_mem, errorReply_mem, replyWith_mem]

/-! ## Step -/

@[simp] theorem tick_mem (s : State) (ns : Nat) : (tick s ns).mem = s.mem := rfl

/-! ## Dispatch -/

theorem exec_keeps (i : Instr) {s : State} (hw : s.mem.wf = true) : MemKept (exec i s) := by
  cases i <;> simp [exec, hw]

/-- A fetch that faults raises its cause, which leaves memory's form. -/
theorem fetch_fault_wf {s t : State} (hw : s.mem.wf = true) (h : fetch s = .fault t) : t.mem.wf = true := by
  unfold fetch at h
  split at h
  · cases h
  · next x hx =>
    have hs := Cx.s_of hx
    have hxw : x.s.mem.wf = true := by rw [hs, hw]
    dsimp only at h
    split at h
    · cases h
      exact Cx.xlatFault_wf _ _ _ _ _ hxw
    · cases h
      exact Cx.raise_wf _ _ _ _ _ _ _ hxw
    · split at h
      · cases h
        exact undWord_wf _ hxw hw
      · split at h
        · cases h
          exact undWord_wf _ hxw hw
        · repeat' split at h
          all_goals cases h
          all_goals exact Cx.raise_wf _ _ _ _ _ _ _ (by rw [State.updBlock_mem, hw])

end Sys2Proof.Machine

open Sys2Proof Sys2Proof.Machine

/-- Settles O59: each function of the model either leaves global memory alone or writes it through `Memory.write` and its like,
which keep the form; the instructions and events put them together. -/
theorem memoryCanonical : Obligations.MemoryCanonical := by
  unfold Obligations.MemoryCanonical State.memoryOk
  intro s t hw h
  unfold step at h
  split at h
  · dsimp only at h
    split at h
    · cases h
      exact hw
    · exact exec_keeps _ (by exact hw) t h
    · next hf =>
      cases h
      exact fetch_fault_wf (by exact hw) hf
  · split at h
    · cases h
      rw [tick_mem, hw]
    · dsimp only at h
      split at h
      · cases h
        rw [tick_mem, hw]
      · refine exec_keeps _ ?_ t h
        rw [tick_mem, hw]
end

section
/-! PROOFS. Fences, acquires and evictions (R56, R58, R59, R254): O25. -/

namespace Sys2Proof.Machine

open Sys2Proof Sys2Proof.Claims

/-- An instruction whose effect is a new crew, with its threads and its checkpoint as they were. -/
theorem completes_crewRes {i : Instr} {s : State} {x : Cx} {eff : Cx → Res} {y : Crew} (h : Ready i s x)
    (hx : exec i s = issueWith i s eff) (he : eff x = crewRes x y) (ht : y.threads = x.cr.threads) (hk : SameHeads x.cr y)
    (hh : y.handler = x.cr.handler) : Completes i s x (Kept y · none2 none1 none1) := by
  have hx' := exec_done h hx (he.trans (by rw [crewRes, h.put])) (State.crew_setCrew h.crew y)
  rw [State.setCrew_setCrew, Crew.inHandler, hh] at hx'
  exact ⟨_, hx', sameBytes_setCrew _ _ _ _, advanced_advance ht hk _, (Kept.refl y).advance _ _ _⟩

theorem fenceIssue : FenceIssue := fun _ _ _ =>
  ⟨fun h => completes_crewRes h rfl rfl rfl ⟨rfl, rfl, rfl, rfl, rfl⟩ rfl,
    fun h => completes_crewRes h rfl rfl rfl ⟨rfl, rfl, rfl, rfl, rfl⟩ rfl,
    fun h => completes_crewRes h rfl rfl rfl ⟨rfl, rfl, rfl, rfl, rfl⟩ rfl⟩

/-! ## What an acquire and an eviction leave (R58, R59) -/

/-- The machine after an L1's Read Copies are cut to the words of a test. -/
def State.keepCopies (s : State) (l1 : Nat) (p : Nat → Bool) : State :=
  match s.copies.find? l1 with
  | none => s
  | some m => { s with copies := s.copies.set l1 (m.keep p) }

theorem keepCopies_rest (s : State) (l1 : Nat) (p : Nat → Bool) :
    s.keepCopies l1 p = { s with copies := (s.keepCopies l1 p).copies } := by
  unfold State.keepCopies
  split <;> rfl

theorem find?_keepCopies (s : State) (l1 : Nat) (p : Nat → Bool) (w : Nat) :
    ((s.keepCopies l1 p).copies.getD l1 []).find? w = if p w then (s.copies.getD l1 []).find? w else none := by
  unfold State.keepCopies
  split
  · next h => simp [NMap.getD, h]
  · next m h => simp [NMap.getD, h, NMap.find?_keep]

theorem find?_keepCopies_ne (s : State) {l1 m : Nat} (p : Nat → Bool) (h : m ≠ l1) :
    (s.keepCopies l1 p).copies.find? m = s.copies.find? m := by
  unfold State.keepCopies
  split
  · rfl
  · exact NMap.find?_set_ne _ _ h

/-- The Invalidation Set: the listed words that none of the L1's cores owns (R58). -/
theorem mem_invalSet {s : State} {l1 w : Nat} : w ∈ invalSet s l1 ↔
    w ∈ (s.copies.getD l1 []).keys ∧ ¬∃ core ∈ l1Cores l1, s.owners.find? w = some (ownerId s core) := by
  rw [invalSet, List.mem_filter]
  refine and_congr_right fun _ => ?_
  cases s.owners.find? w with
  | none => simp
  | some o =>
    have hm : o ∈ (l1Cores l1).map (ownerId s) ↔ ∃ core ∈ l1Cores l1, some o = some (ownerId s core) := by
      simp only [List.mem_map, Option.some.injEq, eq_comm]
    simp only [← hm, List.contains_eq_mem, Bool.not_eq_true', decide_eq_false_iff_not]

theorem find?_of_not_mem_keys {α : Type} {m : NMap α} {n : Nat} (h : n ∉ m.keys) : m.find? n = none := by
  induction m with
  | nil => rfl
  | cons e m ih =>
    simp only [NMap.keys, List.map_cons, List.mem_cons, not_or] at h
    rw [NMap.find?_cons, if_neg (Ne.symm h.1)]
    exact ih h.2

theorem exec_acquireComplete {b c idx : Nat} {s : State} {k : Block} {cr : Crew} {a : Acq} (hb : s.block? b = some k)
    (hc : s.crew? b c = some cr) (ha : cr.acqs[idx]? = some a) (hr : acqReady cr a = true) :
    exec (.acquireComplete b c idx) s = .next ((s.setCrew b c { cr with acqs := cr.acqs.eraseIdx idx }).keepCopies
      (l1Of s k.core) (fun w => !(invalSet s (l1Of s k.core)).contains w)) := by
  simp only [exec, execAcquireComplete, hb, hc, ha, hr]
  rfl

/-- Of the L1 whose acquire completes, a word keeps its Read Copy exactly where one of the L1's cores owns it. -/
theorem find?_acquired (s : State) (b c l1 : Nat) (cr : Crew) (w : Nat) :
    (((s.setCrew b c cr).keepCopies l1 (fun w => !(invalSet s l1).contains w)).copies.getD l1 []).find? w =
      if w ∈ invalSet s l1 then none else (s.copies.getD l1 []).find? w := by
  rw [find?_keepCopies, State.setCrew_copies]
  by_cases h : w ∈ invalSet s l1 <;> simp [h]

theorem exec_evict {l1 : Nat} (w : Nat) (s : State) (h : l1 ≠ registryId) :
    exec (.evict l1 w) s = .next (s.keepCopies l1 (· != w)) := by
  have he : ∀ m : NMap ReadCopy, m.erase w = m.keep (· != w) := by
    intro m
    induction m with
    | nil => rfl
    | cons e m ih =>
      obtain ⟨k, v⟩ := e
      by_cases hk : k = w
      · simp [NMap.erase, NMap.keep, hk, ih]
      · simp [NMap.erase, NMap.keep, hk, ih]
  cases hc : s.copies.find? l1 with
  | none => simp only [exec, execEvict, if_neg h, State.keepCopies, hc]
  | some m => simp only [exec, execEvict, if_neg h, State.keepCopies, hc, he]

theorem acquireAndEvict : AcquireAndEvict := by
  refine ⟨fun b c idx s k cr a hb hc ha hr => ?_, fun l1 w s hl => ?_, fun w s => ?_⟩
  · refine ⟨_, exec_acquireComplete hb hc ha hr, ?_, ?_, ?_, fun w ho => ?_, fun w ho => ?_, fun m hm => ?_⟩
    · exact (sameBytes_setCrew _ _ _ _).trans (by rw [keepCopies_rest]; exact fun _ => rfl)
    · rw [keepCopies_rest, State.setCrew_owners]
    · rw [keepCopies_rest]
      exact State.crew_setCrew hc _
    · rw [find?_acquired, if_neg (fun h => (mem_invalSet.1 h).2 ho)]
    · rw [find?_acquired]
      split
      · rfl
      · next h => exact find?_of_not_mem_keys (fun hk => h (mem_invalSet.2 ⟨hk, ho⟩))
    · rw [find?_keepCopies_ne _ _ hm, State.setCrew_copies]
  · refine ⟨_, exec_evict w s hl, keepCopies_rest _ _ _, ?_, fun v hv => ?_, fun m hm => find?_keepCopies_ne _ _ hm⟩
    · rw [find?_keepCopies]
      simp
    · rw [find?_keepCopies]
      simp [hv]
  · exact ⟨{ s with owners := s.owners.erase w }, rfl, rfl, NMap.find?_erase_self _ _, fun v hv => NMap.find?_erase_ne _ hv⟩

end Sys2Proof.Machine

open Sys2Proof Sys2Proof.Machine Sys2Proof.Claims

/-- Settles O25: a fence's effect is a new crew, and an acquire or an eviction cuts one L1's Read Copies by a test of the word. -/
theorem fencesAndAcquires : Obligations.FencesAndAcquires := ⟨fenceIssue, acquireAndEvict⟩
end

section
/-! PROOFS. A step runs the instruction that its path's slot decodes to (R53, R167–R171): what a fetch gives, and O56. -/

namespace Sys2Proof.Machine

open Sys2Proof Sys2Proof.Claims

/-! ## What a fetch gives -/

theorem fetch_gone {s : State} (h : Cx.of s ⟨false, 15⟩ = none) : fetch s = .gone := by
  rw [fetch, h]

/-- The path of a machine whose block has issued its first instruction. -/
def Cx.begun (x : Cx) (s : State) : Cx := { x with s := s.updBlock x.b (fun k => { k with fresh := false }) }

theorem Cx.begun_crew (x : Cx) (s : State) (b c : Nat) : (x.begun s).s.crew? b c = s.crew? b c :=
  State.crew_updBlock s x.b b c (fun k => { k with fresh := false }) (fun _ => rfl)

theorem Cx.sameBytes_begun (x : Cx) (s : State) : SameBytes s (x.begun s).s :=
  sameBytes_updBlock s x.b (fun k => { k with fresh := false }) (fun _ => rfl)

section
variable {s : State} {x : Cx} {w : Xlat} {line : Nat} (hx : Cx.of s ⟨false, 15⟩ = some x)
  (hl : fetchLine s x.g x.pc = (w, line)) (hpf : w ≠ .pf) (hprot : w ≠ .prot)
include hx hl hpf hprot

/-- A slot that is none, or whose word is no instruction (R168, R173). -/
theorem fetch_undecoded (h : ¬(isSlot x.pc = true ∧ lineWordOk line = true ∧ slotOk line (x.pc % 64 / 12) = true) ∨
    ∀ i, decode (lineSlot line (x.pc % 64 / 12)) ≠ .ok i) :
    fetch s = .fault (undWord s x (lineSlot line (x.pc % 64 / 12))) := by
  rw [fetch, hx]
  dsimp only
  rw [hl]
  cases w with
  | pf => exact absurd rfl hpf
  | prot => exact absurd rfl hprot
  | ok p e log f =>
    dsimp only
    split
    · rfl
    · next hs =>
      cases hd : decode (lineSlot line (x.pc % 64 / 12)) with
      | error e => rfl
      | ok i =>
        refine h.elim (fun h => absurd ?_ hs) (fun h => absurd hd (h i))
        simp only [Bool.or_eq_true, Bool.not_eq_true']
        by_contra hn
        simp only [not_or, Bool.not_eq_false] at hn
        exact h ⟨hn.2, hn.1.1, hn.1.2⟩

section
variable {i : Instr} (hs : isSlot x.pc = true ∧ lineWordOk line = true ∧ slotOk line (x.pc % 64 / 12) = true)
  (hd : decode (lineSlot line (x.pc % 64 / 12)) = .ok i)
include hs hd

/-- A decoded instruction issues where its block is past its entry, or where it is a `region` that the entry's line marks as
a target (R168, R170). -/
theorem fetch_decoded (h : ¬(x.blk.fresh = true ∧ ∀ v, x.variant = some v → x.pc = v.entry) ∨
    (slotTarget line (x.pc % 64 / 12) = true ∧ ∃ r, i = .region r)) : fetch s = .instr i := by
  obtain ⟨h1, h2, h3⟩ := hs
  rw [fetch, hx]
  dsimp only
  rw [hl]
  cases w with
  | pf => exact absurd rfl hpf
  | prot => exact absurd rfl hprot
  | ok p e log f =>
    simp only [h1, h2, h3, hd, Bool.not_true, Bool.or_self, Bool.false_eq_true, if_false]
    rcases h with h | ⟨ht, r, rfl⟩
    · refine if_neg fun hc => h ?_
      simp only [Bool.and_eq_true, beq_iff_eq] at hc
      obtain ⟨⟨⟨hf, hp⟩, -⟩, -⟩ := hc
      refine ⟨hf, fun v hv => ?_⟩
      rw [hp, hv]
      rfl
    · simp [ht]

/-- At a fresh block's entry an instruction that no `region` marks is refused with BTGT (R170, R178). -/
theorem fetch_unmarked (hf : x.blk.fresh = true) (hp : ∀ v, x.variant = some v → x.pc = v.entry)
    (hr : ¬(slotTarget line (x.pc % 64 / 12) = true ∧ ∃ r, i = .region r)) (hi : reachesTarget x i = true) :
    fetch s = .fault ((x.begun s).raise cBtgt x.pc 0 0 false 2) := by
  obtain ⟨h1, h2, h3⟩ := hs
  have he : x.pc = (x.variant.map (·.entry)).getD x.pc := by
    cases hv : x.variant with
    | none => rfl
    | some v => exact hp v hv
  rw [fetch, hx]
  dsimp only
  rw [hl]
  cases w with
  | pf => exact absurd rfl hpf
  | prot => exact absurd rfl hprot
  | ok p e log f =>
    simp only [h1, h2, h3, hd, Bool.not_true, Bool.or_self, Bool.false_eq_true, if_false]
    refine if_pos ?_
    have hb : (x.pc == (x.variant.map (·.entry)).getD x.pc) = true := beq_iff_eq.2 he
    rw [hf, hb, hi]
    cases ht : slotTarget line (x.pc % 64 / 12) with
    | false => rfl
    | true =>
      split
      · next r => exact absurd ⟨ht, r, rfl⟩ hr
      · rfl
end
end

/-! ## A step -/

section
variable {s : State} {p : Path} {rest : List Path} (h : s.issue = p :: rest)
include h

theorem step_gone (hf : fetch { s with issue := rest, path := p } = .gone) :
    step s = .next { s with issue := rest, path := p } := by
  simp only [step, h, hf]

theorem step_instr {i : Instr} (hf : fetch { s with issue := rest, path := p } = .instr i) :
    step s = exec i { s with issue := rest, path := p } := by
  simp only [step, h, hf]

theorem step_fault {t : State} (hf : fetch { s with issue := rest, path := p } = .fault t) : step s = .next t := by
  simp only [step, h, hf]
end

theorem step_moves {s : State} {m : Move} {rest : List Move} (h : s.issue = []) (ha : s.agenda = m :: rest) :
    step s = if m.ev.issues then .next (tick { s with agenda := rest } m.ns)
      else exec m.ev (tick { s with agenda := rest } m.ns) := by
  simp only [step, h, ha]

theorem step_idle {s : State} (h : s.issue = []) (ha : s.agenda = []) : step s = .next (tick s 1) := by
  simp only [step, h, ha]

theorem tick_time (s : State) (ns : Nat) : (tick s ns).time = s.time + ns := rfl

theorem sameBytes_tick (s : State) (ns : Nat) : SameBytes s (tick s ns) :=
  sameBytes_of rfl (fun _ => rfl) (fun _ => rfl)

/-- At a path's own slot under the guard of all threads, the active lanes are the path's. -/
theorem Cx.act_of_all {s : State} {x : Cx} (h : Cx.of s ⟨false, 15⟩ = some x) : x.act = x.lanes := by
  obtain ⟨-, -, -, -, -, -, -, -, -, -, ha⟩ := Cx.of_spec h
  have hp : x.cr.getP (x.cr.pName 15) = BitVec.allOnes 32 := by simp [Crew.pName]
  rw [ha, activeLanes]
  exact (congrArg (x.lanes &&& ·) hp).trans BitVec.and_allOnes

/-- A trap that a path raises in a calm crew changes no byte, and the crew holds it for the path's active threads. -/
theorem crew_raise {x : Cx} {k : Block} {cause taddr imm resume acc : Nat} (hb : x.s.block? x.b = some k)
    (hc : x.s.crew? x.b x.c = some x.cr) (hcalm : calm x) :
    SameBytes x.s (x.raise cause taddr imm resume false acc) ∧
      (x.raise cause taddr imm resume false acc).crew? x.b x.c =
        some { x.cr with trap := some { trapOf x cause taddr imm resume acc with lanes := x.trapLanes } } := by
  obtain ⟨ht, hh⟩ := hcalm
  have hr : x.raise cause taddr imm resume false acc =
      raiseTrap x.s x.b x.c { trapOf x cause taddr imm resume acc with lanes := x.trapLanes } := rfl
  rw [hr, raiseTrap_calm _ hb hc ht hh]
  exact ⟨(sameBytes_setCrew _ _ _ _).trans (sameBytes_setSlot _ _ _ _), by rw [State.crew_setSlot, State.crew_setCrew hc]⟩

theorem reachesTarget_of {x : Cx} {i : Instr} (hl : legal i = true) (hu : handlerUnd x.cr i = false)
    (hh : (namedV x.cr i).all x.cr.holds = true) : reachesTarget x i = true := by
  simp [reachesTarget, hl, hu, hh]

/-- Two guards of one path find the same crew of the same block. -/
theorem Cx.of_same {s : State} {g g' : Guard} {x y : Cx} (hx : Cx.of s g = some x) (hy : Cx.of s g' = some y) :
    y.b = x.b ∧ y.c = x.c ∧ y.cr = x.cr ∧ y.pc = x.pc := by
  obtain ⟨-, -, hc, -, hb1, hc1, hp, -⟩ := Cx.of_spec hx
  obtain ⟨-, -, hc', -, hb2, hc2, hp', -⟩ := Cx.of_spec hy
  refine ⟨hb2.trans hb1.symm, hc2.trans hc1.symm, ?_, hp'.trans hp.symm⟩
  rw [hb2, hc2, ← hb1, ← hc1, hc] at hc'
  exact (Option.some.inj hc').symm

end Sys2Proof.Machine

open Sys2Proof Sys2Proof.Machine Sys2Proof.Claims

/-- Settles O56: what a fetch gives decides the step, and its two traps are raised in the path's crew. -/
theorem stepRunsDecoded : Obligations.StepRunsDecoded := by
  unfold Obligations.StepRunsDecoded
  refine ⟨fun s p rest h => ⟨fun x line w hx hl hpf hprot => ?_, fun hx => step_gone h (fetch_gone hx)⟩,
    fun s h => ⟨step_idle h, fun m rest ha hi => ?_, fun m rest ha hi => ?_⟩,
    fun s ns => ⟨tick_time s ns, sameBytes_tick s ns, rfl⟩⟩
  · obtain ⟨-, hb, hc, -, -, -, hp, -, -, hlanes, -⟩ := Cx.of_spec hx
    replace hp : x.pc = p.pc := hp
    rw [← hp] at hl ⊢
    refine ⟨fun i hs hd => ⟨fun hi => ?_, fun ⟨hf, he⟩ hn hleg hund hhold hcalm => ?_⟩, fun y hno hy hcalm hact => ?_⟩
    · exact step_instr h (fetch_decoded hx hl hpf hprot hs hd hi)
    · have hr := fetch_unmarked hx hl hpf hprot hs hd hf he hn (reachesTarget_of hleg hund hhold)
      obtain ⟨hbytes, hcr⟩ := crew_raise (x := x.begun _) (cause := cBtgt) (taddr := x.pc) (imm := 0) (resume := 0) (acc := 2)
        (State.block_updBlock hb _) ((x.begun_crew _ _ _).trans hc) hcalm
      refine ⟨_, _, step_fault h hr, fun q => (hbytes q).trans (x.sameBytes_begun { s with issue := rest, path := p } q), hcr, ?_⟩
      have hact := Cx.act_of_all hx
      have hall : (x.begun { s with issue := rest, path := p }).trapLanes = x.lanes :=
        (if_neg (fun h => hlanes (hact.symm.trans h))).trans hact
      rw [hall]
      rfl
    · have hr := fetch_undecoded hx hl hpf hprot hno
      obtain ⟨h1, h2, h3, h4⟩ := Cx.of_same hx hy
      obtain ⟨hys, hyb, hyc, -⟩ := Cx.of_spec hy
      rw [undWord, hy] at hr
      obtain ⟨hbytes, hcr⟩ := crew_raise (x := y) (cause := cUnd) (taddr := x.pc) (imm := 0) (resume := 0) (acc := 0)
        (by rw [hys]; exact hyb) (by rw [hys]; exact hyc) (by rw [calm, h3]; exact hcalm)
      refine ⟨_, _, step_fault h hr, ?_, by rw [← h1, ← h2]; exact hcr, ?_⟩
      · rw [hys] at hbytes
        exact hbytes
      · rw [Cx.trapLanes_of_active hact]
        rfl
  · rw [step_moves h ha, hi]
    rfl
  · rw [step_moves h ha, hi]
    rfl
end

section
/-! PROOFS. The head of a Store Path (R54, R57, R61, R353): what a store leaves of bytes, owners and Read Copies, and O23. -/

namespace Sys2Proof.Machine

open Sys2Proof Sys2Proof.Claims

/-! ## Bytes that a store writes and leaves -/

theorem readPlace_writePlace_self {s : State} {p : Place} (hp : placeHere s p) (data : List Byte) :
    readPlace (writePlace s p data) p data.length = data := by
  cases p with
  | g a => exact Memory.read_write_self _ _ _
  | sp c a =>
    rw [writePlace, readPlace, State.core_setCore]
    exact Memory.read_write_self _ _ _
  | acc b a =>
    obtain ⟨k, hk⟩ := Option.isSome_iff_exists.1 (hp b a rfl)
    rw [writePlace, readPlace, State.block_updBlock hk]
    exact Memory.read_write_self _ _ _

theorem readPlace_writePlace_outside (s : State) {p q : Place} {data : List Byte} (h : p.meets data.length q 1 = false) :
    readPlace (writePlace s p data) q 1 = readPlace s q 1 := by
  have hout : ∀ (m : Memory) (a b : Nat), (decide (a < b + 1) && decide (b < a + data.length)) = false →
      (m.write a data).read b 1 = m.read b 1 := by
    intro m a b h
    refine Memory.read_write_outside _ _ _ _ _ ?_
    simp only [Bool.and_eq_false_iff, decide_eq_false_iff_not] at h
    omega
  cases p with
  | g a =>
    cases q with
    | g b => exact hout _ _ _ h
    | sp => rfl
    | acc => rfl
  | sp c a =>
    cases q with
    | g b => rfl
    | sp d b =>
      simp only [writePlace, readPlace]
      by_cases hd : d = c
      · subst hd
        rw [State.core_setCore]
        exact hout _ _ _ (by simpa [Place.meets] using h)
      · rw [State.core_setCore_ne _ _ hd]
    | acc => rfl
  | acc k a =>
    cases q with
    | g b => rw [writePlace, readPlace, State.updBlock_mem]; rfl
    | sp d b => rw [writePlace, readPlace, State.core_updBlock]; rfl
    | acc l b =>
      simp only [writePlace, readPlace]
      by_cases hl : l = k
      · subst hl
        cases hk : s.block? l with
        | none => simp [State.updBlock, hk]
        | some x =>
          rw [State.block_updBlock hk]
          exact hout _ _ _ (by simpa [Place.meets] using h)
      · rw [State.block_updBlock_ne _ _ hl]

/-- A store's bytes are those of a write; it moves owners and Read Copies besides. -/
theorem readPlace_performStore (s : State) (core : Nat) (p : Place) (data : List Byte) (q : Place) (n : Nat) :
    readPlace (performStore s core p data) q n = readPlace (writePlace s p data) q n := by
  cases p with
  | g a => cases q <;> rfl
  | sp => rfl
  | acc => rfl

/-! ## Owners and Read Copies after a store (R54) -/

/-- What becomes of an L1's Read Copy of a word that one of its cores writes: `whole` where the write covers the word or the
core owned it. -/
def writtenCopy (whole : Nat → Bool) (now : Nat → ReadCopy) (m : NMap ReadCopy) (w : Nat) : NMap ReadCopy :=
  match m.find? w with
  | none => m
  | some _ => if whole w then m.set w (now w) else m.erase w

theorem find?_writtenCopy (whole : Nat → Bool) (now : Nat → ReadCopy) (m : NMap ReadCopy) (v w : Nat) :
    (writtenCopy whole now m v).find? w =
      if w = v then (m.find? w).bind (fun _ => if whole w then some (now w) else none) else m.find? w := by
  unfold writtenCopy
  by_cases hw : w = v
  · subst hw
    cases hm : m.find? w with
    | none => simp [hm]
    | some c => cases hc : whole w <;> simp
  · cases hm : m.find? v with
    | none => simp [hw]
    | some c => cases hc : whole v <;> simp [hw]

theorem find?_foldl_writtenCopy (whole : Nat → Bool) (now : Nat → ReadCopy) (ws : List Nat) (m : NMap ReadCopy) (w : Nat) :
    (ws.foldl (writtenCopy whole now) m).find? w =
      if w ∈ ws then (m.find? w).bind (fun _ => if whole w then some (now w) else none) else m.find? w := by
  induction ws generalizing m with
  | nil => simp
  | cons v ws ih =>
    rw [List.foldl_cons, ih, find?_writtenCopy]
    by_cases hv : w = v
    · subst hv
      cases m.find? w <;> cases whole w <;> simp
    · simp [hv]

/-- A write to `n` bytes at `a` covers the word, or the core owned it. -/
def coversOrOwned (s : State) (core a n w : Nat) : Bool :=
  decide (a ≤ 4 * w) && decide (4 * w + 4 ≤ a + n) || s.owners.find? w == some (ownerId s core)

theorem coversOrOwned_iff {s : State} {core a n w : Nat} : coversOrOwned s core a n w = true ↔
    (a ≤ 4 * w ∧ 4 * w + 4 ≤ a + n) ∨ s.owners.find? w = some (ownerId s core) := by
  simp [coversOrOwned]

/-- A store to global memory, its Read Copies written out. -/
theorem performStore_global (s : State) (core a : Nat) (data : List Byte) :
    performStore s core (.g a) data =
      { s with
        mem := s.mem.write a data
        pairs := pairsAfter s.pairs a data.length
        owners := (wordsOf a data.length).foldl (fun o w => o.set w (ownerId s core)) s.owners
        copies := if (s.copies.find? (l1Of s core)).isSome then
            s.copies.set (l1Of s core) ((wordsOf a data.length).foldl (writtenCopy (coversOrOwned s core a data.length)
              (copyNow (s.mem.write a data) (pairsAfter s.pairs a data.length))) (s.copies.getD (l1Of s core) []))
          else s.copies } := rfl

/-- The L1's Read Copy of a word after a store of one of its cores. -/
theorem find?_performStore (s : State) (core a : Nat) (data : List Byte) (w : Nat) :
    ((performStore s core (.g a) data).copies.getD (l1Of s core) []).find? w =
      if w ∈ wordsOf a data.length then
        ((s.copies.getD (l1Of s core) []).find? w).bind (fun _ => if coversOrOwned s core a data.length w then
          some (copyNow (s.mem.write a data) (pairsAfter s.pairs a data.length) w) else none)
      else (s.copies.getD (l1Of s core) []).find? w := by
  rw [performStore_global]
  dsimp only
  split
  · rw [NMap.getD_set_self, find?_foldl_writtenCopy]
  · next h =>
    rw [Option.not_isSome_iff_eq_none] at h
    simp [NMap.getD, h]

theorem wordsTaken_performStore (s : State) (core : Nat) (p : Place) (data : List Byte) :
    WordsTaken s (performStore s core p data) core p data.length := by
  dsimp only [WordsTaken]
  cases p with
  | sp c a => exact ⟨fun _ => ⟨rfl, rfl⟩, fun _ h => nomatch h⟩
  | acc b a => exact ⟨fun _ => ⟨State.updBlock_owners _ _ _, State.updBlock_copies _ _ _⟩, fun _ h => nomatch h⟩
  | g a =>
    refine ⟨fun h => absurd rfl (h a), fun a' ha => ?_⟩
    obtain rfl : a = a' := Place.g.inj ha
    refine ⟨fun w hw => ⟨(find_foldl_set _ _ _ _).trans (if_pos hw), fun hn => ?_, fun hc ho => ?_, fun _ ho => ?_⟩,
      fun w hw => ⟨(find_foldl_set _ _ _ _).trans (if_neg hw), ?_⟩, fun m hm => ?_⟩
    · rw [find?_performStore, if_pos hw, hn, Option.bind_none]
    · obtain ⟨r, hr⟩ := Option.ne_none_iff_exists'.1 hc
      rw [find?_performStore, if_pos hw, hr, Option.bind_some, if_pos (coversOrOwned_iff.2 ho)]
      rfl
    · rw [find?_performStore, if_pos hw, if_neg (fun h => ho (coversOrOwned_iff.1 h))]
      cases (s.copies.getD (l1Of s core) []).find? w <;> rfl
    · rw [find?_performStore, if_neg hw]
    · rw [performStore_global]
      dsimp only
      split
      · exact NMap.find?_set_ne _ _ hm
      · rfl

/-- `WordsTaken` names the owners, the Read Copies, the L1 and the memory of its machines alone. -/
theorem wordsTaken_congr {s s' t t' : State} {core n : Nat} {p : Place} (h : WordsTaken s t core p n)
    (hs : s'.owners = s.owners ∧ s'.copies = s.copies ∧ ownerId s' core = ownerId s core ∧ l1Of s' core = l1Of s core)
    (ht : t'.owners = t.owners ∧ t'.copies = t.copies ∧ t'.mem = t.mem) : WordsTaken s' t' core p n := by
  obtain ⟨h1, h2, h3, h4⟩ := hs
  obtain ⟨h5, h6, h7⟩ := ht
  dsimp only [WordsTaken] at h ⊢
  rw [h1, h2, h3, h4, h5, h6, h7]
  exact h

/-! ## Headers without a running launch (R31) -/

theorem spoil_noLadder {s : State} (h : noLadder s) (a n : Nat) : spoil s a n = s := by
  have hl : liveHeaders s = [] := by
    rw [liveHeaders, List.filterMap_eq_nil_iff]
    intro e he
    cases hl : e.2.ladder with
    | none => rfl
    | some l =>
      cases s.ctxs.find? e.2.ctx with
      | none => rfl
      | some c => exact if_pos (h e he (by rw [hl]; rfl))
  rw [spoil, hl]
  rfl

theorem spoilPlace_noLadder {s : State} (h : noLadder s) (p : Place) (n : Nat) : spoilPlace s p n = s := by
  cases p with
  | g a => exact spoil_noLadder h a n
  | sp => rfl
  | acc => rfl

/-! ## Sums of an atomic (R229, R251) -/

/-- The exact sum of two numbers, none of them a NaN or infinite, with the sign of a zero sum (R94). -/
theorem add_fin (n1 n2 : Bool) (m1 m2 : Nat) (e1 e2 : Int) : ∃ z, Num.add (.fin n1 m1 e1) (.fin n2 m2 e2) false = some z ∧
    ratOf z = some ((if n1 then -1 else 1) * m1 * 2 ^ e1 + (if n2 then -1 else 1) * m2 * 2 ^ e2 : ℚ) ∧
    (((if n1 then -1 else 1) * m1 * 2 ^ e1 + (if n2 then -1 else 1) * m2 * 2 ^ e2 : ℚ) = 0 →
      z.sign = if n1 = n2 then n1 else false) := by
  by_cases h0 : m1 = 0 ∧ m2 = 0
  · obtain ⟨rfl, rfl⟩ := h0
    exact ⟨_, rfl, by simp [ratOf], fun _ => rfl⟩
  · have hadd : Num.add (.fin n1 m1 e1) (.fin n2 m2 e2) false = some (Num.ofScaled
        (Num.atScale n1 m1 e1 (min e1 e2) + Num.atScale n2 m2 e2 (min e1 e2)) (min e1 e2) false) := if_neg h0
    have hsum : ((Num.atScale n1 m1 e1 (min e1 e2) + Num.atScale n2 m2 e2 (min e1 e2) : Int) : ℚ) * 2 ^ min e1 e2 =
        (if n1 then -1 else 1) * m1 * 2 ^ e1 + (if n2 then -1 else 1) * m2 * 2 ^ e2 := by
      rw [Int.cast_add, add_mul, atScale_cast n1 m1 (min_le_left e1 e2), atScale_cast n2 m2 (min_le_right e1 e2)]
    refine ⟨_, hadd, ?_, fun hz => ?_⟩
    · rw [← hsum, Num.ofScaled]
      generalize Num.atScale n1 m1 e1 (min e1 e2) + Num.atScale n2 m2 e2 (min e1 e2) = i
      split
      · next hi => simp [ratOf, hi]
      · rw [ratOf]
        congr 2
        rcases lt_or_ge i 0 with hi | hi
        · simp [hi, Nat.cast_natAbs, abs_of_neg hi]
        · simp [Int.not_lt.2 hi, Nat.cast_natAbs, abs_of_nonneg hi]
    · have hne : n1 ≠ n2 := by
        rintro rfl
        have h1 : (0 : ℚ) < 2 ^ e1 := zpow_pos two_pos e1
        have h2 : (0 : ℚ) < 2 ^ e2 := zpow_pos two_pos e2
        have hs : ((m1 : ℚ) * 2 ^ e1) + m2 * 2 ^ e2 = 0 := by
          cases n1 <;> simp at hz <;> linarith
        have hm1 : (0 : ℚ) ≤ m1 * 2 ^ e1 := by positivity
        have hm2 : (0 : ℚ) ≤ m2 * 2 ^ e2 := by positivity
        refine h0 ⟨?_, ?_⟩
        · have : (m1 : ℚ) * 2 ^ e1 = 0 := by linarith
          exact Nat.cast_eq_zero.1 ((mul_eq_zero.1 this).resolve_right h1.ne')
        · have : (m2 : ℚ) * 2 ^ e2 = 0 := by linarith
          exact Nat.cast_eq_zero.1 ((mul_eq_zero.1 this).resolve_right h2.ne')
      rw [if_neg hne, Num.ofScaled]
      rw [← hsum, mul_eq_zero] at hz
      rw [if_pos (Int.cast_eq_zero.1 (hz.resolve_right (zpow_pos two_pos _).ne'))]
      rfl

theorem finish_nan {f : Fmt} {a b : Num} (h : a.isNan = true ∨ b.isNan = true) :
    finish f 0 0 [a, b] (a.add b false) false = (fmtNan f, sigFlag [a, b]) := by
  have hadd : ∃ v, a.add b false = some v := by
    rcases h with h | h
    · obtain ⟨g, rfl⟩ : ∃ g, a = .nan g := by cases a <;> simp_all [Num.isNan]
      cases b <;> exact ⟨_, rfl⟩
    · obtain ⟨g, rfl⟩ : ∃ g, b = .nan g := by cases b <;> simp_all [Num.isNan]
      cases a <;> exact ⟨_, rfl⟩
  obtain ⟨v, hv⟩ := hadd
  have hn : [a, b].any Num.isNan = true := by simpa using h
  rw [hv, finish]
  exact if_pos hn

theorem finish_some {f : Fmt} {a b v : Num} (ha : a.isNan = false) (hb : b.isNan = false) :
    finish f 0 0 [a, b] (some v) false = roundTo f 0 0 v false 0 := by
  rw [finish]
  exact if_neg (by simp [ha, hb])

theorem add_inf_left {n : Bool} {b : Num} (hb : b.isNan = false) (h : b ≠ .inf (!n)) : (Num.inf n).add b false = some (.inf n) := by
  cases b with
  | nan g => cases hb
  | inf m => exact if_pos (by cases n <;> cases m <;> simp_all)
  | fin => rfl

theorem add_inf_right {n : Bool} {a : Num} (ha : a.isNan = false) (h : a ≠ .inf (!n)) : a.add (.inf n) false = some (.inf n) := by
  cases a with
  | nan g => cases ha
  | inf m =>
    obtain rfl : m = n := by cases n <;> cases m <;> simp_all
    exact if_pos rfl
  | fin => rfl

theorem sumIs_finish {f : Fmt} (hf : fmtIsIeee f = true) (a b : Num) :
    SumIs f 0 0 a b (finish f 0 0 [a, b] (a.add b false) false) := by
  refine ⟨finish_nan, ?_, ?_, ?_, fun p q hp hq => ?_⟩
  · rintro n rfl rfl
    cases n <;> rfl
  · rintro n rfl hb hne
    rw [add_inf_left hb hne, finish_some rfl hb, roundTo_ieee hf]
  · rintro n rfl ha hne
    rw [add_inf_right ha hne, finish_some ha rfl, roundTo_ieee hf]
  · cases a with
    | nan | inf => cases hp
    | fin n1 m1 e1 =>
      cases b with
      | nan | inf => cases hq
      | fin n2 m2 e2 =>
        cases hp
        cases hq
        obtain ⟨z, hz, hr, hs⟩ := add_fin n1 n2 m1 m2 e1 e2
        refine ⟨z, hr, hs, ?_⟩
        rw [hz, finish_some rfl rfl]

/-- An atomic writes the value that R251 gives. -/
theorem atomicIs_atomNew (aop n old b c : Nat) :
    AtomicIs aop (8 * n) old b c (atomNew aop (8 * n) old b c) := by
  have hsum : SumIs (if 8 * n = 64 then .f64 else .f32) 0 0 (numOf (if 8 * n = 64 then .f64 else .f32) old)
      (numOf (if 8 * n = 64 then .f64 else .f32) b) (fpAdd (if 8 * n = 64 then .f64 else .f32) 0 0 false old b) :=
    sumIs_finish (by split <;> rfl) _ _
  refine ⟨?_, ?_, ?_, ?_, ?_, ?_, ?_, ?_, ?_, ?_, ?_, ?_, ?_⟩
  · rintro rfl
    rfl
  · rintro rfl
    simp only [atomNew, ← not_le, ite_not]
  · rintro rfl
    simp only [atomNew, ← le_iff_lt_or_eq]
  · rintro rfl
    rfl
  · rintro rfl
    rfl
  · rintro rfl
    rfl
  · rintro rfl
    rfl
  · rintro rfl
    rfl
  · rintro rfl
    rfl
  · rintro rfl
    rfl
  · rintro rfl
    exact ⟨_, hsum⟩
  · rintro rfl
    rfl
  · rintro rfl
    rfl

/-! ## The head of a Store Path -/

theorem noLadder_performStore {s : State} (h : noLadder s) (core : Nat) (p : Place) (data : List Byte) :
    noLadder (performStore s core p data) := by
  have hg : (performStore s core p data).grids = s.grids := by
    cases p with
    | g a => rfl
    | sp c a => rfl
    | acc b a => exact State.updBlock_grids _ _ _
  rw [noLadder, hg]
  exact h

theorem crew_performStore (s : State) (core : Nat) (p : Place) (data : List Byte) (b c : Nat) :
    (performStore s core p data).crew? b c = s.crew? b c := by
  cases p with
  | g a => rfl
  | sp k a => rfl
  | acc l a => exact State.crew_updBlock s l b c (fun k => { k with acc := k.acc.write a data }) (fun _ => rfl)

theorem readsOlder_iff {cr : Crew} {seq n : Nat} {p : Place} {ths : Lanes} : cr.readsOlder seq p n ths = true ↔
    ∃ l ∈ cr.loads, l.seq < seq ∧ l.lanes &&& ths ≠ 0 ∧ ∃ r ∈ rangesOf l, r.1.meets r.2 p n = true := by
  simp only [Crew.readsOlder, List.any_eq_true, Bool.and_eq_true, decide_eq_true_eq, bne_iff_ne, reads_iff, and_assoc]

/-- The place where a crew's write lands, and the machine that it leaves, its header spoiled and its page's retry done. -/
def stored (s : State) (core : Nat) (p : Place) (data : List Byte) : State :=
  hbmDone (spoilPlace (performStore s core p data) p data.length) p

/-- What a crew's write leaves: its bytes and no others, the words' owners and Read Copies, and every crew. -/
theorem stored_spec {s : State} {core b c : Nat} {cr : Crew} {p : Place} (hl : noLadder s) (hp : placeHere s p) (data : List Byte) :
    (stored (s.setCrew b c cr) core p data).crew? b c = (s.setCrew b c cr).crew? b c ∧
    readPlace (stored (s.setCrew b c cr) core p data) p data.length = data ∧
    (∀ q, p.meets data.length q 1 = false → readPlace (stored (s.setCrew b c cr) core p data) q 1 = readPlace s q 1) ∧
    WordsTaken s (stored (s.setCrew b c cr) core p data) core p data.length := by
  have hl' : noLadder (performStore (s.setCrew b c cr) core p data) := noLadder_performStore (by
    rw [noLadder, State.setCrew_grids]
    exact hl) _ _ _
  have hu : stored (s.setCrew b c cr) core p data = hbmDone (performStore (s.setCrew b c cr) core p data) p := by
    rw [stored, spoilPlace_noLadder hl']
  have hread : ∀ q n, readPlace (hbmDone (performStore (s.setCrew b c cr) core p data) p) q n =
      readPlace (writePlace (s.setCrew b c cr) p data) q n := fun q n => by
    rw [← readPlace_performStore _ core]
    cases p <;> rfl
  rw [hu]
  refine ⟨?_, ?_, fun q hq => ?_, ?_⟩
  · rw [← crew_performStore (s.setCrew b c cr) core p data]
    cases p <;> rfl
  · rw [hread]
    refine readPlace_writePlace_self (fun k a h => ?_) _
    obtain ⟨y, hy⟩ := Option.isSome_iff_exists.1 (hp k a h)
    by_cases hk : k = b
    · subst hk
      rw [State.block_setCrew hy]
      rfl
    · rw [State.setCrew, State.block_updBlock_ne _ _ hk, hy]
      rfl
  · rw [hread, readPlace_writePlace_outside _ hq]
    exact sameBytes_setCrew _ _ _ _ q
  · refine wordsTaken_congr (wordsTaken_performStore (s.setCrew b c cr) core p data) ⟨?_, ?_, ?_, ?_⟩ ?_
    · exact (State.setCrew_owners _ _ _ _).symm
    · exact (State.setCrew_copies _ _ _ _).symm
    · rw [ownerId, ownerId, State.setCrew_ctl]
    · rw [l1Of, l1Of, State.quad, State.quad, State.setCrew_quads]
    · cases p <;> exact ⟨rfl, rfl, rfl⟩

/-- Two machines differ in a crew alone: no byte, owner or Read Copy has changed. -/
def CrewApart (s t : State) : Prop := SameBytes s t ∧ t.owners = s.owners ∧ t.copies = s.copies ∧ t.mem = s.mem

theorem CrewApart.refl (s : State) : CrewApart s s := ⟨SameBytes.refl s, rfl, rfl, rfl⟩

theorem CrewApart.trans {s t u : State} (h : CrewApart s t) (h' : CrewApart t u) : CrewApart s u :=
  ⟨h.1.trans h'.1, h'.2.1.trans h.2.1, h'.2.2.1.trans h.2.2.1, h'.2.2.2.trans h.2.2.2⟩

theorem crewApart_updCrew (s : State) (b c : Nat) (f : Crew → Crew) : CrewApart s (s.updCrew b c f) :=
  ⟨sameBytes_updCrew _ _ _ _, State.updCrew_owners _ _ _ _, State.updCrew_copies _ _ _ _, State.updCrew_mem _ _ _ _⟩

/-- The crew of an atomic once it has been performed: its destination takes the value read. -/
def Crew.takes (cr : Crew) (dest : Option Dest) (old : Nat) : Crew :=
  match dest with
  | none => cr
  | some d => cr.deliver d old

theorem readPlace_setCrew (s : State) (b c : Nat) (cr : Crew) (p : Place) (n : Nat) :
    readPlace (s.setCrew b c cr) p n = readPlace s p n := by
  cases p with
  | g a => rw [readPlace, State.setCrew_mem]; rfl
  | sp k a => simp [readPlace, State.core]
  | acc l a =>
    simp only [readPlace]
    by_cases hl : l = b
    · subst hl
      cases hk : s.block? l with
      | none => simp [State.setCrew, State.updBlock, hk]
      | some k => rw [State.block_setCrew hk]
    · rw [State.setCrew, State.block_updBlock_ne _ _ hl]

theorem crew_hbmDone (s : State) (p : Place) (b c : Nat) : (hbmDone s p).crew? b c = s.crew? b c := by
  cases p <;> rfl

theorem CrewApart.hbmDone {s t : State} (h : CrewApart s t) (p : Place) : CrewApart (hbmDone s p) (hbmDone t p) := by
  have hr : ∀ (u : State) (q : Place) (n : Nat), readPlace (Machine.hbmDone u p) q n = readPlace u q n := fun u q n => by
    cases p <;> rfl
  refine ⟨fun q => by rw [hr, hr, h.1 q], ?_⟩
  cases p <;> exact h.2

/-- A write of a crew changes no crew. -/
theorem crew_stored (s : State) (core : Nat) (p : Place) (data : List Byte) (b c : Nat) :
    (stored s core p data).crew? b c = s.crew? b c := by
  have hs : ∀ u : State, (spoilPlace u p data.length).crew? b c = u.crew? b c := fun u => by
    cases p with
    | g a => rw [spoilPlace, memOnly_spoil u a data.length]; rfl
    | sp => rfl
    | acc => rfl
  rw [stored, crew_hbmDone, hs, crew_performStore]

theorem length_leBytes (n x : Nat) : (leBytes n x).length = n := by
  induction n generalizing x with
  | zero => rfl
  | succ n ih => rw [leBytes, List.length_cons, ih]

/-- A range of bytes, read one by one. -/
theorem readPlace_bytes (s : State) (p : Place) (n : Nat) :
    readPlace s p n = (List.range n).flatMap (fun i => readPlace s (p.add i) 1) := by
  cases p with
  | g a => exact (flatMap_read_one _ _ _).symm
  | sp c a => exact (flatMap_read_one _ _ _).symm
  | acc b a =>
    simp only [readPlace, Place.add]
    cases s.block? b with
    | none => simp [List.flatMap_def, List.map_const', List.flatten_replicate_singleton]
    | some k => exact (flatMap_read_one _ _ _).symm

theorem SameBytes.readPlace {s t : State} (h : SameBytes s t) (p : Place) (n : Nat) :
    Machine.readPlace t p n = Machine.readPlace s p n := by
  rw [readPlace_bytes t, readPlace_bytes s]
  exact List.flatMap_congr fun i _ => h _

/-- An atomic's effect on memory is a store's, and its crew takes the value read. -/
theorem performAtomic_spec {s : State} {b c : Nat} {cr : Crew} (core n aop : Nat) (p : Place) (vb vc : DWord) (dest : Option Dest)
    (hc : s.crew? b c = some cr) :
    let old := leNat (readPlace s p n)
    let t := hbmDone (performAtomic s b c core p n aop vb vc dest) p
    t.crew? b c = some (cr.takes dest old) ∧ CrewApart (stored s core p (leBytes n (atomNew aop (8 * n) old vb.toNat vc.toNat))) t := by
  intro old t
  have hst : stored s core p (leBytes n (atomNew aop (8 * n) old vb.toNat vc.toNat)) = hbmDone
      (spoilPlace (performStore s core p (leBytes n (atomNew aop (8 * n) old vb.toNat vc.toNat))) p n) p := by
    rw [stored, length_leBytes]
  have hcrew := (crew_stored s core p (leBytes n (atomNew aop (8 * n) old vb.toNat vc.toNat)) b c).trans hc
  rw [hst] at hcrew ⊢
  cases dest with
  | none => exact ⟨hcrew, .refl _⟩
  | some d =>
    rw [crew_hbmDone] at hcrew
    exact ⟨(crew_hbmDone _ _ _ _).trans (State.crew_updCrew hcrew _), (crewApart_updCrew _ _ _ _).hbmDone p⟩

/-- The head of a crew's Store Path. -/
structure HeadOf (s : State) (b c : Nat) (k : Block) (cr : Crew) (e : SpEntry) (rest : List SpEntry) : Prop where
  block : s.block? b = some k
  crew : s.crew? b c = some cr
  path : cr.storePath = e :: rest

section
variable {s : State} {b c seq n va aop : Nat} {k : Block} {cr : Crew} {rest : List SpEntry} {p q : Place} {data : List Byte}
  {vb vc : DWord} {dest : Option Dest} {act : Act} {ths : Lanes}

theorem exec_store_held (h : HeadOf s b c k cr (.store seq p data va ths) rest) (ho : cr.readsOlder seq p data.length ths = true) :
    exec (.storePathPerform b c) s = .next s := by
  simp only [exec, execStorePathPerform, h.block, h.crew, h.path, ho, if_true]

theorem exec_store_astray (h : HeadOf s b c k cr (.store seq p data va ths) rest)
    (ho : cr.readsOlder seq p data.length ths = false) (ha : Astray s k p va .write) :
    exec (.storePathPerform b c) s = .next (awaitPage s b c va 1) := by
  simp only [exec, execStorePathPerform, h.block, h.crew, h.path, ho, Bool.false_eq_true, if_false, standingPlace_of_astray ha]

theorem exec_store_performed (h : HeadOf s b c k cr (.store seq p data va ths) rest)
    (ho : cr.readsOlder seq p data.length ths = false) (hq : Stands s k p va .write q) :
    exec (.storePathPerform b c) s = .next (stored (s.setCrew b c { cr with storePath := rest }) k.core q data) := by
  simp only [exec, execStorePathPerform, h.block, h.crew, h.path, ho, Bool.false_eq_true, if_false, standingPlace_of_stands hq, stored]

theorem exec_atomic_held (h : HeadOf s b c k cr (.atomic seq p n aop vb vc dest va ths) rest)
    (ho : cr.readsOlder seq p n ths = true) : exec (.storePathPerform b c) s = .next s := by
  simp only [exec, execStorePathPerform, h.block, h.crew, h.path, ho, if_true]

theorem exec_atomic_astray (h : HeadOf s b c k cr (.atomic seq p n aop vb vc dest va ths) rest)
    (ho : cr.readsOlder seq p n ths = false) (ha : Astray s k p va .write) :
    exec (.storePathPerform b c) s = .next (awaitPage s b c va 1) := by
  simp only [exec, execStorePathPerform, h.block, h.crew, h.path, ho, Bool.false_eq_true, if_false, standingPlace_of_astray ha]

theorem exec_atomic_performed (h : HeadOf s b c k cr (.atomic seq p n aop vb vc dest va ths) rest)
    (ho : cr.readsOlder seq p n ths = false) (hq : Stands s k p va .write q) : exec (.storePathPerform b c) s = .next
      (tryUnlock (hbmDone (performAtomic (s.setCrew b c { cr with storePath := rest }) b c k.core q n aop vb vc dest) q) b c seq) := by
  simp only [exec, execStorePathPerform, h.block, h.crew, h.path, ho, Bool.false_eq_true, if_false, standingPlace_of_stands hq]

/-- A marker leaves once it may, and does what its release says (R57). -/
theorem exec_marker_leaves (h : HeadOf s b c k cr (.marker seq act) rest) (hr : markerReady s b k cr seq act = true) :
    exec (.storePathPerform b c) s = .next (performAct (s.setCrew b c { cr with storePath := rest }) b c k act seq) := by
  simp only [exec, execStorePathPerform, h.block, h.crew, h.path, hr, if_true]

theorem exec_marker_waits (h : HeadOf s b c k cr (.marker seq act) rest) (hr : markerReady s b k cr seq act = false) :
    exec (.storePathPerform b c) s = .next (markerWaits s b c k cr seq act) := by
  simp only [exec, execStorePathPerform, h.block, h.crew, h.path, hr, Bool.false_eq_true, if_false]

end

theorem loadsDone_iff {cr : Crew} {seq : Nat} : loadsDone cr seq = true ↔ ∀ l ∈ cr.loads, seq ≤ l.seq := by
  simp [loadsDone]

/-- A release other than a `pooltake`'s waits for the older loads, and changes nothing meanwhile (R57). -/
theorem marker_held {s : State} {b c seq : Nat} {k : Block} {cr : Crew} {act : Act} (hact : ∀ n d pd l, act ≠ .pooltake n d pd l)
    (hl : loadsDone cr seq = false) : markerReady s b k cr seq act = false ∧ markerWaits s b c k cr seq act = s := by
  cases act with
  | pooltake n d pd l => exact absurd rfl (hact n d pd l)
  | poolgive pool objs =>
    refine ⟨by simp [markerReady, hl], ?_⟩
    simp only [markerWaits, hl]
    split <;> rfl
  | qsubmit q n => exact ⟨by simp [markerReady, hl], rfl⟩
  | none | bar | trigger | taskDone | dqpost | exit | srel => exact ⟨hl, rfl⟩

end Sys2Proof.Machine

open Sys2Proof Sys2Proof.Machine Sys2Proof.Claims

/-- Settles O23, a kind of entry at a time: a store, an atomic and a marker, each held back, astray, or performed. -/
theorem storePathPerform : Obligations.StorePathPerform := by
  intro b c s k cr rest hb hc
  have hno : ∀ {seq p n ths}, (¬∃ l ∈ cr.loads, l.seq < seq ∧ l.lanes &&& ths ≠ 0 ∧ ∃ r ∈ rangesOf l, r.1.meets r.2 p n = true) →
      cr.readsOlder seq p n ths = false := fun h => Bool.not_eq_true _ ▸ fun ht => h (readsOlder_iff.1 ht)
  refine ⟨fun seq p data va ths hp => ?_, fun seq p n aop vb vc dest va ths hp => ?_, fun seq hp hl => ?_,
    fun seq act hp hact ⟨l, hl, hlt⟩ => ?_⟩
  · have hh : HeadOf s b c k cr (.store seq p data va ths) rest := ⟨hb, hc, hp⟩
    refine ⟨fun ho => exec_store_held hh (readsOlder_iff.2 ho), fun ho ha => waits_awaitPage hc (exec_store_astray hh (hno ho) ha),
      fun ho hlad q hq hpl => ?_⟩
    obtain ⟨h1, h2, h3, h4⟩ := stored_spec (b := b) (c := c) (core := k.core) (cr := { cr with storePath := rest }) hlad hpl data
    exact ⟨_, _, exec_store_performed hh (hno ho) hq, h1.trans (State.crew_setCrew hc _), rfl, h2, h3, h4⟩
  · have hh : HeadOf s b c k cr (.atomic seq p n aop vb vc dest va ths) rest := ⟨hb, hc, hp⟩
    refine ⟨fun ho => exec_atomic_held hh (readsOlder_iff.2 ho), fun ho ha => waits_awaitPage hc (exec_atomic_astray hh (hno ho) ha),
      fun ho hlad haop hn q hq hpl => ?_⟩
    let cr' : Crew := { cr with storePath := rest }
    let old := leNat (readPlace s q n)
    let new := atomNew aop (8 * n) old vb.toNat vc.toNat
    obtain ⟨-, h2, h3, h4⟩ := stored_spec (b := b) (c := c) (core := k.core) (cr := cr') hlad hpl (leBytes n new)
    obtain ⟨hcrew, happ⟩ := performAtomic_spec k.core n aop q vb vc dest (State.crew_setCrew hc cr')
    rw [readPlace_setCrew] at hcrew happ
    obtain ⟨cr1, hc1, hcr1, -⟩ := tryUnlock_spec seq hcrew
    obtain ⟨hbytes, hown, hcop, hmem⟩ := happ.trans (crewApart_updCrew _ b c (fun cr => if producerDone cr seq then cr.unlock seq else cr))
    rw [length_leBytes] at h2 h3 h4
    have hreg : ∀ r l, cr1.getV r l = (cr'.takes dest old).getV r l ∧ cr1.isEmpty r l = (cr'.takes dest old).isEmpty r l := by
      rcases hcr1 with rfl | rfl <;> exact fun _ _ => ⟨rfl, rfl⟩
    refine ⟨_, cr1, new, exec_atomic_performed hh (hno ho) hq, hc1, ?_, atomicIs_atomNew _ _ _ _ _, ?_, fun q' hq' => ?_, ?_,
      fun d hd => ?_, fun hd r l _ => ?_⟩
    · have hsp : (cr'.takes dest old).storePath = rest := by
        cases dest with
        | none => rfl
        | some d => exact (Crew.deliver_queues cr' d old).2.1
      rcases hcr1 with rfl | rfl <;> exact hsp
    · exact (hbytes.readPlace q n).trans h2
    · exact (hbytes q').trans (h3 q' hq')
    · exact wordsTaken_congr h4 ⟨rfl, rfl, rfl, rfl⟩ ⟨hown, hcop, hmem⟩
    · subst hd
      have hdel : Delivered cr (cr'.takes (some d) old) d old := Crew.deliver_delivered cr' d old
      rcases hcr1 with rfl | rfl
      · exact hdel
      · exact delivered_unlock hdel seq
    · subst hd
      exact hreg r l
  · have hh : HeadOf s b c k cr (.marker seq .none) rest := ⟨hb, hc, hp⟩
    exact exec_marker_leaves hh (loadsDone_iff.2 hl)
  · have hh : HeadOf s b c k cr (.marker seq act) rest := ⟨hb, hc, hp⟩
    have hld : loadsDone cr seq = false := Bool.not_eq_true _ ▸ fun h => absurd (loadsDone_iff.1 h l hl) (Nat.not_le.2 hlt)
    obtain ⟨hr, hw⟩ := marker_held (s := s) (b := b) (c := c) (k := k) hact hld
    rw [exec_marker_waits hh hr, hw]
end

section
/-! PROOFS. Refutation of O31. -/

namespace Sys2Proof.Machine

open Sys2Proof

/-- A crew with its arrival at core barrier 0 at the head of its Store Path, whose table of threads names lane 0 twice: the entry
that lookups find waits for nothing, and the second for that arrival. -/
def barCrew : Crew :=
  { Crew.at_ 0x10000 1 0 0 1 0 none with
    seq := 1
    threads := [(0, standing 0 none), (0, standing 0 (some (.bar 1 0 1 none)))]
    storePath := [.marker 1 (.bar 1 0 1)] }

/-- Its block, whose one crew it is. -/
def barBlock : Block := Block.at_ 0 0 0 0 [] [(0, barCrew)] ⟨[], []⟩

def barState : State := State.withCrew barCrew Core.reset

/-- The crew is the barrier's last participant. -/
theorem barCrews_barBlock : barCrewsOf barBlock (barBlock.conv 0) = [0] := by decide +kernel

end Sys2Proof.Machine

open Sys2Proof Sys2Proof.Machine

/-- Refutes O31. A barrier's completion lets the threads of every lane go on that some entry of a crew's table shows waiting. In a
crew whose table names a lane twice (a table that the model never builds, but that the statement admits), a thread that the lane's
first entry shows not waiting goes on as well, where the statement keeps it. -/
theorem not_barrierCompletion : ¬ Obligations.BarrierCompletion := by
  unfold Obligations.BarrierCompletion
  intro h
  have hlast : ∀ j ∈ barCrewsOf barBlock (barBlock.conv 0), j = 0 ∨ j ∈ (barBlock.conv 0).barArrived := by
    rw [barCrews_barBlock]
    exact fun j hj => .inl (List.mem_singleton.1 hj)
  obtain ⟨t, -, hx, -, -, -, -, hgoes⟩ := ((h 0 0 1 0 1 1 barState barBlock barCrew [] rfl rfl rfl
    (fun _ hl => nomatch hl) (fun _ hg => nomatch hg) (fun _ he => nomatch he)).1 rfl).2 hlast
  obtain ⟨kb, cr', hb, hcr, hrel, -⟩ := hgoes 0 barCrew rfl
  obtain ⟨th', ht, -, -, -, hstays⟩ := hrel 0 (standing 0 none) (by decide) rfl
  have hpc : th'.pc = 0x10000 := (hstays fun _ hw => nomatch hw).1
  have hnew : seenAfter (exec (.storePathPerform 0 0) barState) (fun t => (t.threadAt 0).map (·.pc)) = some 0x1000C := by
    decide +kernel
  have hcrew : t.crew? 0 0 = some cr' := by rw [State.crew?, hb]; exact hcr
  rw [seenAfter_of hx, State.threadAt_of hcrew ht, Option.map_some, hpc] at hnew
  exact absurd hnew (by decide)
end

section
/-! PROOFS. A block's phase end (R68) and dependent kernels (R57, R265): O32. -/

namespace Sys2Proof.Machine

open Sys2Proof Sys2Proof.Claims

/-! ## The order of the Serial Phase Buffer (R68) -/

theorem spbBefore_iff {a b : SpbEntry} : spbBefore a b = true ↔ spbLe a b := by
  simp [spbBefore, spbLe]

theorem spbLe_total (a b : SpbEntry) : spbLe a b ∨ spbLe b a := by
  unfold spbLe
  rcases lt_trichotomy a.ltid.toNat b.ltid.toNat with h | h | h
  · exact .inl (.inl h)
  · have he : a.ltid = b.ltid := BitVec.eq_of_toNat_eq h
    rcases le_total a.count b.count with hc | hc
    · exact .inl (.inr ⟨he, hc⟩)
    · exact .inr (.inr ⟨he.symm, hc⟩)
  · exact .inr (.inl h)

theorem spbLe_trans {a b c : SpbEntry} (h : spbLe a b) (h' : spbLe b c) : spbLe a c := by
  unfold spbLe at *
  rcases h with h | ⟨h, hc⟩
  · rcases h' with h' | ⟨h', -⟩
    · exact .inl (h.trans h')
    · exact .inl (h' ▸ h)
  · rcases h' with h' | ⟨h', hc'⟩
    · exact .inl (h ▸ h')
    · exact .inr ⟨h.trans h', hc.trans hc'⟩

theorem perm_spbInsert (e : SpbEntry) (l : List SpbEntry) : (spbInsert e l).Perm (e :: l) := by
  induction l with
  | nil => exact .refl _
  | cons a l ih =>
    rw [spbInsert]
    split
    · exact .refl _
    · exact (ih.cons a).trans (.swap e a l)

theorem pairwise_spbInsert {e : SpbEntry} {l : List SpbEntry} (h : l.Pairwise spbLe) : (spbInsert e l).Pairwise spbLe := by
  induction l with
  | nil => exact List.pairwise_singleton _ _
  | cons a l ih =>
    obtain ⟨ha, hl⟩ := List.pairwise_cons.1 h
    rw [spbInsert]
    split
    · next he =>
      have hea := spbBefore_iff.1 he
      refine List.pairwise_cons.2 ⟨fun b hb => ?_, h⟩
      rcases List.mem_cons.1 hb with rfl | hb
      · exact hea
      · exact spbLe_trans hea (ha b hb)
    · next he =>
      have hae : spbLe a e := (spbLe_total a e).resolve_right (fun h => he (spbBefore_iff.2 h))
      refine List.pairwise_cons.2 ⟨fun b hb => ?_, ih hl⟩
      rcases List.mem_cons.1 ((perm_spbInsert e l).mem_iff.1 hb) with rfl | hb
      · exact hae
      · exact ha b hb

theorem spbSort_spec (l : List SpbEntry) : (spbSort l).Perm l ∧ (spbSort l).Pairwise spbLe := by
  induction l with
  | nil => exact ⟨.refl _, .nil⟩
  | cons e l ih => exact ⟨(perm_spbInsert e _).trans (ih.1.cons e), pairwise_spbInsert ih.2⟩

/-! ## A phase's end (R68) -/

/-- Only the cores' scratchpads have changed. -/
def PadsChanged (s t : State) : Prop := t = { s with cores := t.cores } ∧ ∀ k, (t.core k).split = (s.core k).split

theorem PadsChanged.refl (s : State) : PadsChanged s s := ⟨rfl, fun _ => rfl⟩

theorem PadsChanged.trans {s t u : State} (h : PadsChanged s t) (h' : PadsChanged t u) : PadsChanged s u := by
  refine ⟨?_, fun k => (h'.2 k).trans (h.2 k)⟩
  rw [h'.1, h.1]

theorem padsChanged_writePlace (s : State) (c a : Nat) (bs : List Byte) : PadsChanged s (writePlace s (.sp c a) bs) := by
  refine ⟨rfl, fun k => ?_⟩
  rw [writePlace]
  by_cases hk : k = c
  · subst hk
    rw [State.core_setCore]
  · rw [State.core_setCore_ne _ _ hk]

/-- An entry's place lies in a bay of its block, and depends on the split of the core alone. -/
theorem bayPlace_eq {s t : State} (k : Block) (h : ∀ c, (t.core c).split = (s.core c).split) (ofs : Nat) :
    bayPlace t k ofs = bayPlace s k ofs := by
  simp only [bayPlace, h]

theorem bayPlace_sp {s : State} {k : Block} {ofs : Nat} {p : Place} (h : bayPlace s k ofs = some p) : ∃ c a, p = .sp c a := by
  unfold bayPlace at h
  dsimp only at h
  split at h
  · exact ⟨_, _, (Option.some.inj h).symm⟩
  · cases h

/-- One entry of the buffer applied: the atomic that it names, at its place. -/
def spbStep (k : Block) (s : State) (e : SpbEntry) : State :=
  match bayPlace s k e.ofs with
  | none => s
  | some p => writePlace s p (leBytes (2 ^ e.w) (atomNew e.aop (8 * 2 ^ e.w) (leNat (readPlace s p (2 ^ e.w))) e.operand.toNat 0))

theorem spbStep_none {s : State} {k : Block} {e : SpbEntry} (h : bayPlace s k e.ofs = none) : spbStep k s e = s := by
  rw [spbStep, h]

theorem spbStep_some {s : State} {k : Block} {e : SpbEntry} {p : Place} (h : bayPlace s k e.ofs = some p) : spbStep k s e =
    writePlace s p (leBytes (2 ^ e.w) (atomNew e.aop (8 * 2 ^ e.w) (leNat (readPlace s p (2 ^ e.w))) e.operand.toNat 0)) := by
  rw [spbStep, h]

theorem phaseBoundary_eq {s : State} {b : Nat} {k : Block} (h : s.block? b = some k) :
    phaseBoundary s b = ((spbSort k.spb).foldl (spbStep k) s).updBlock b (fun k => { k with spb := [], spbCount := [] }) := by
  simp only [phaseBoundary, h]
  rfl

theorem padsChanged_spbStep (k : Block) (s : State) (e : SpbEntry) : PadsChanged s (spbStep k s e) := by
  cases h : bayPlace s k e.ofs with
  | none =>
    rw [spbStep_none h]
    exact .refl s
  | some p =>
    obtain ⟨c, a, rfl⟩ := bayPlace_sp h
    rw [spbStep_some h]
    exact padsChanged_writePlace _ _ _ _

theorem padsChanged_foldl (k : Block) (es : List SpbEntry) (s : State) : PadsChanged s (es.foldl (spbStep k) s) := by
  induction es generalizing s with
  | nil => exact .refl s
  | cons e es ih => exact (padsChanged_spbStep k s e).trans (ih _)

/-- `SpbApplied` reads its machines' bytes alone. -/
theorem spbApplied_congr {at_ : Nat → Option Place} {es : List SpbEntry} {s s' t t' : State} (h : SpbApplied at_ es s t)
    (hs : SameBytes s' s) (ht : SameBytes t t') : SpbApplied at_ es s' t' := by
  induction es generalizing s s' with
  | nil => exact (hs.trans h).trans ht
  | cons e es ih =>
    obtain ⟨u, hu, hnone, hsome⟩ := h
    refine ⟨u, ih hu (.refl u), fun h => hs.trans (hnone h), fun q hq => ?_⟩
    obtain ⟨new, h1, h2, h3⟩ := hsome q hq
    refine ⟨new, ?_, h2, fun r hr => (h3 r hr).trans (hs r)⟩
    rw [← hs.readPlace]
    exact h1

theorem spbApplied_foldl (k : Block) (es : List SpbEntry) (s : State) {at_ : Nat → Option Place}
    (h : ∀ ofs, at_ ofs = bayPlace s k ofs) : SpbApplied at_ es s (es.foldl (spbStep k) s) := by
  induction es generalizing s with
  | nil => exact .refl s
  | cons e es ih =>
    refine ⟨spbStep k s e, ih _ fun ofs => ?_, fun hn => ?_, fun q hq => ?_⟩
    · rw [h, bayPlace_eq k (padsChanged_spbStep k s e).2]
    · rw [h] at hn
      rw [spbStep_none hn]
      exact .refl s
    · rw [h] at hq
      obtain ⟨c, a, rfl⟩ := bayPlace_sp hq
      rw [spbStep_some hq]
      have hlen := length_leBytes (2 ^ e.w)
        (atomNew e.aop (8 * 2 ^ e.w) (leNat (readPlace s (.sp c a) (2 ^ e.w))) e.operand.toNat 0)
      refine ⟨_, atomicIs_atomNew _ _ _ _ _, ?_, fun r hr => readPlace_writePlace_outside s (by rw [hlen]; exact hr)⟩
      have hself := readPlace_writePlace_self (s := s) (p := .sp c a) nofun
        (leBytes (2 ^ e.w) (atomNew e.aop (8 * 2 ^ e.w) (leNat (readPlace s (.sp c a) (2 ^ e.w))) e.operand.toNat 0))
      rwa [hlen] at hself

/-- What the end of a block's phase leaves: its buffer applied and empty, every other field and block as before. -/
theorem phaseBoundary_spec {s : State} {b : Nat} {k : Block} (h : s.block? b = some k) :
    (∃ es : List SpbEntry, es.Perm k.spb ∧ es.Pairwise spbLe ∧ SpbApplied (bayPlace s k) es s (phaseBoundary s b)) ∧
      (phaseBoundary s b).block? b = some { k with spb := [], spbCount := [] } := by
  obtain ⟨hp, hs⟩ := spbSort_spec k.spb
  have hpads := padsChanged_foldl k (spbSort k.spb) s
  have hb : ((spbSort k.spb).foldl (spbStep k) s).block? b = some k := by
    rw [hpads.1]
    exact h
  rw [phaseBoundary_eq h]
  refine ⟨⟨_, hp, hs, spbApplied_congr (spbApplied_foldl k _ s fun _ => rfl) (.refl s) ?_⟩, State.block_updBlock hb _⟩
  exact sameBytes_updBlock _ _ _ (fun _ => rfl)

/-! ## Triggers and exits (R57, R265) -/

theorem exitDone_iff {cr : Crew} : cr.exitDone = true ↔ cr.allExited = true ∧ ∀ q, SpEntry.marker q .exit ∉ cr.storePath := by
  rw [Crew.exitDone, Bool.and_eq_true, List.all_eq_true]
  refine and_congr_right fun _ => ⟨fun h q hq => ?_, fun h e he => ?_⟩
  · exact absurd (h _ hq) (by simp)
  · split
    · next q => exact absurd he (h q)
    · rfl

theorem vals_all {α : Type} {m : NMap α} {p : α → Bool} : m.vals.all p = true ↔ ∀ e ∈ m, p e.2 = true := by
  simp [NMap.vals]

/-- A block's mark after the check: it stays, and it comes once every crew has triggered or exited. -/
theorem triggerCheck_block {s : State} {b : Nat} {k : Block} (h : s.block? b = some k) :
    (triggerCheck s b).block? b = some { k with triggered := k.triggered || k.crews.vals.all (fun cr => cr.triggered || cr.exitDone) } :=
  State.block_updBlock h _

theorem sameBytes_triggerCheck (s : State) (b : Nat) : SameBytes s (triggerCheck s b) :=
  sameBytes_updBlock s b (fun k => { k with triggered := k.triggered || k.crews.vals.all (fun cr => cr.triggered || cr.exitDone) })
    (fun _ => rfl)

theorem triggered_iff {k : Block} {crews : NMap Crew} :
    (k.triggered || crews.vals.all (fun cr => cr.triggered || cr.exitDone)) = true ↔ k.triggered = true ∨ ∀ e ∈ crews,
      e.2.triggered = true ∨ (e.2.allExited = true ∧ ∀ q, SpEntry.marker q .exit ∉ e.2.storePath) := by
  simp only [Bool.or_eq_true, vals_all, exitDone_iff]

/-- The release of a `trigger` has left: its crew has triggered, and the block is checked. -/
theorem performTrigger_spec {s : State} {b c : Nat} {k : Block} {cr : Crew} (hb : s.block? b = some k) (hc : s.crew? b c = some cr) :
    SameBytes s (performTrigger s b c) ∧ ∃ k', (performTrigger s b c).block? b = some k' ∧
      k'.crews = k.crews.set c { cr with triggered := true } ∧
      (k'.triggered = (k.triggered || k'.crews.vals.all (fun cr => cr.triggered || cr.exitDone))) := by
  have hb' : (s.updCrew b c (fun cr => { cr with triggered := true })).block? b =
      some { k with crews := k.crews.set c { cr with triggered := true } } := by
    rw [State.updCrew_of hc]
    exact State.block_setCrew hb _ _
  exact ⟨(sameBytes_updCrew _ _ _ _).trans (sameBytes_triggerCheck _ _), _, triggerCheck_block hb', rfl, rfl⟩

/-- The release of an `exit` has left: with the last crew's the block's phase has ended, and the block is checked. -/
theorem performExit_spec {s : State} {b : Nat} {k : Block} (hb : s.block? b = some k) :
    ∃ k', (performExit s b).block? b = some k' ∧ k'.crews = k.crews ∧
      (k'.triggered = (k.triggered || k.crews.vals.all (fun cr => cr.triggered || cr.exitDone))) ∧
      (k.crews.vals.all (·.exitDone) = true → PhaseEnds s (performExit s b) b k) ∧
      (k.crews.vals.all (·.exitDone) = false → SameBytes s (performExit s b)) := by
  unfold performExit
  rw [hb, Option.any_some]
  cases hl : k.crews.vals.all (·.exitDone) with
  | true =>
    obtain ⟨⟨es, hp, hs, happ⟩, hblk⟩ := phaseBoundary_spec hb
    rw [if_pos rfl]
    exact ⟨_, triggerCheck_block hblk, rfl, rfl, fun _ => ⟨⟨es, hp, hs, spbApplied_congr happ (.refl s) (sameBytes_triggerCheck _ _)⟩,
      by rw [triggerCheck_block hblk]; rfl⟩, nofun⟩
  | false =>
    rw [if_neg Bool.false_ne_true]
    exact ⟨_, triggerCheck_block hb, rfl, rfl, nofun, fun _ => sameBytes_triggerCheck _ _⟩

theorem exitDone_all_iff {crews : NMap Crew} : crews.vals.all (·.exitDone) = true ↔
    ∀ e ∈ crews, e.2.allExited = true ∧ ∀ q, SpEntry.marker q .exit ∉ e.2.storePath := by
  simp only [vals_all, exitDone_iff]

/-- A crew's own fields are no part of what the end of its block's phase reads. -/
theorem phaseEnds_setCrew {s t : State} {b c : Nat} {k : Block} {cr : Crew} {crews : NMap Crew}
    (h : PhaseEnds (s.setCrew b c cr) t b { k with crews := crews }) : PhaseEnds s t b k := by
  obtain ⟨⟨es, hp, hs, happ⟩, hspb⟩ := h
  have hat : bayPlace (s.setCrew b c cr) { k with crews := crews } = bayPlace s k :=
    funext (bayPlace_eq k fun _ => congrArg Core.split (State.core_updBlock _ _ _ _))
  rw [hat] at happ
  exact ⟨⟨es, hp, hs, spbApplied_congr happ (sameBytes_setCrew _ _ _ _) (.refl t)⟩, hspb⟩

/-! ## `wait.dep` (R265) -/

theorem producerReady_grid {s : State} {g pg : Grid} {p : Nat} (hp : g.producer = some p) (hg : s.grid? p = some pg) :
    producerReady s g = true ↔ (pg.st ≠ .running ∨ pg.x * pg.y * pg.z ≤ pg.launched) ∧
      ∀ e ∈ s.blocks, e.2.grid = p → e.2.triggered = true ∨ e.2.st = .ended := by
  simp only [producerReady, hp, hg, Bool.and_eq_true, Bool.or_eq_true, bne_iff_ne, decide_eq_true_eq, List.all_eq_true,
    beq_iff_eq, or_assoc, ne_eq, imp_iff_not_or]

theorem producerReady_iff (s : State) (g : Grid) : producerReady s g = true ↔
    ∀ p pg, g.producer = some p → s.grid? p = some pg → (pg.st ≠ .running ∨ pg.x * pg.y * pg.z ≤ pg.launched) ∧
      ∀ e ∈ s.blocks, e.2.grid = p → e.2.triggered = true ∨ e.2.st = .ended := by
  refine ⟨fun h p pg hp hg => (producerReady_grid hp hg).1 h, fun h => ?_⟩
  cases hp : g.producer with
  | none => simp only [producerReady, hp]
  | some p =>
    cases hg : s.grid? p with
    | none => simp only [producerReady, hp, hg]
    | some pg => exact (producerReady_grid hp hg).2 (h p pg hp hg)

/-- The crew of a path whose active threads wait at the instruction. -/
def Cx.parkedCrew (x : Cx) (w : Wait) : Crew :=
  (x.cr.advance (x.lanes &&& ~~~x.act) x.nextPc false).updThreads x.act (fun t => t.waits w true (x.s.clock x.blk.core))

theorem parked_parkedCrew (x : Cx) (w : Wait) : Parked x (x.parkedCrew w) w := by
  intro l th hth
  have hl : (x.parkedCrew w).thread? l = some (if x.act.getLsbD l then
      (if (x.lanes &&& ~~~x.act).getLsbD l then th.goTo x.nextPc x.cr.inHandler else th).waits w true (x.s.clock x.blk.core)
      else if (x.lanes &&& ~~~x.act).getLsbD l then th.goTo x.nextPc x.cr.inHandler else th) := by
    refine (Crew.thread_updThreads _ _ _ _).trans ?_
    have hadv : (x.cr.advance (x.lanes &&& ~~~x.act) x.nextPc false).thread? l =
        (x.cr.updThreads (x.lanes &&& ~~~x.act) (fun t => t.goTo x.nextPc x.cr.inHandler)).thread? l := rfl
    rw [hadv, Crew.thread_updThreads, hth]
    rfl
  refine ⟨fun ha => ⟨_, hl, ?_⟩, fun hla ha => ⟨_, hl, ?_⟩, fun hla ha => hl.trans ?_⟩
  · simp [ha, Thread.waits]
  · have h32 : l < 32 := BitVec.lt_of_getLsbD hla
    have hrest : (x.lanes &&& ~~~x.act).getLsbD l = true := by
      rw [BitVec.getLsbD_and, BitVec.getLsbD_not, hla, ha, decide_eq_true h32]
      rfl
    rw [if_neg (ne_true_of_eq_false ha), if_pos hrest]
    exact ⟨rfl, rfl⟩
  · simp [ha, hla]

theorem sameRegs_parkedCrew (x : Cx) (w : Wait) : SameRegs x.cr (x.parkedCrew w) :=
  ⟨fun _ _ _ => ⟨rfl, rfl⟩, fun _ => ⟨rfl, rfl⟩, rfl⟩

theorem exec_waitDep_parks {f : FmtE} {s : State} {x : Cx} (h : Ready (.waitDep f) s x) (hp : producerReady s x.g = false) :
    exec (.waitDep f) s = .next (s.setCrew x.b x.c (x.parkedCrew .waitDep)) := by
  refine exec_raw h rfl ?_
  simp only [h.state, hp, Bool.false_eq_true, if_false, parkAt, State.updCrew_of h.crew, Cx.parkedCrew]

/-- The crew whose threads `wait.dep` lets go on, with its acquire. -/
def Crew.depReleased (cr : Crew) : Crew :=
  let old := cr.lanesWhere (fun t => t.wait == some .waitDep)
  ((cr.resume old false).bump).acquire (cr.seq + 1) false

theorem resumed_depReleased (cr : Crew) : Resumed cr cr.depReleased .waitDep := by
  intro l th _ hth
  have hl : cr.depReleased.thread? l = some (if (cr.lanesWhere (fun t => t.wait == some .waitDep)).getLsbD l then
      th.goTo (slotAddr (slotIndex th.pc + 1)) cr.inHandler else th) := by
    refine (Crew.thread_updThreads cr (cr.lanesWhere (fun t => t.wait == some .waitDep))
      (fun t => t.goTo (slotAddr (slotIndex t.pc + 1)) cr.inHandler) l).trans ?_
    rw [hth]
    rfl
  refine ⟨_, hl, fun hw => ?_, fun hw => ?_⟩
  · rw [if_pos hw]
    exact ⟨rfl, rfl⟩
  · rw [if_neg (ne_true_of_eq_false hw)]

theorem waits_lanesWhere {cr : Crew} {l : Nat} {th : Thread} {p : Thread → Bool} (hl : l < 32) (ht : cr.thread? l = some th)
    (hp : p th = true) : cr.lanesWhere p ≠ 0 := by
  intro h0
  have hb := (cr.getLsbD_lanesWhere p l).2 ⟨hl, th, NMap.mem_of_find? ht, hp⟩
  rw [h0] at hb
  simp at hb

theorem exec_waitDepRelease {b c : Nat} {s : State} {k : Block} {cr : Crew} {g : Grid} (hb : s.block? b = some k)
    (hc : s.crew? b c = some cr) (hg : s.grid? k.grid = some g)
    (hw : cr.lanesWhere (fun t => t.wait == some .waitDep) ≠ 0) (hp : producerReady s g = true) :
    exec (.waitDepRelease b c) s = .next (s.setCrew b c cr.depReleased) := by
  simp only [exec, execWaitDepRelease, hb, hc, hg, Option.all_some, hp, hw, decide_false, Bool.not_true, Bool.or_self,
    Bool.false_eq_true, if_false]
  rfl

theorem exec_waitDepRelease_held {b c : Nat} {s : State} {k : Block} {cr : Crew} {g : Grid} (hb : s.block? b = some k)
    (hc : s.crew? b c = some cr) (hg : s.grid? k.grid = some g) (hp : producerReady s g = false) :
    exec (.waitDepRelease b c) s = .next s := by
  simp only [exec, execWaitDepRelease, hb, hc, hg, Option.all_some, hp, Bool.not_false, Bool.or_true, if_true]

end Sys2Proof.Machine

open Sys2Proof Sys2Proof.Machine Sys2Proof.Claims

/-- Settles O32, an instruction and an event at a time: the issues, the two releases, and the wait's end. -/
theorem dependentKernels : Obligations.DependentKernels := by
  unfold Obligations.DependentKernels
  refine ⟨fun f s x => ⟨fun h => ?_, fun h hp => ?_, fun h hp => ?_⟩, fun b c seq s k cr rest hb hc hsp hl => ?_,
    fun b c seq s k cr rest hb hc hsp hl _ => ?_, fun b c s k cr g hb hc hg ⟨l, th, hl, hth, hw⟩ => ⟨fun hp => ?_, fun hp => ?_⟩,
    producerReady_iff⟩
  · exact completes_crewRes h rfl rfl rfl ⟨rfl, rfl, rfl, rfl, rfl⟩ rfl
  · refine completes_crewRes h rfl ?_ rfl ⟨rfl, rfl, rfl, rfl, rfl⟩ rfl
    simp only [h.state, hp, if_true]
    rfl
  · exact ⟨_, _, exec_waitDep_parks h hp, State.crew_setCrew h.crew _, sameBytes_setCrew _ _ _ _, sameRegs_parkedCrew _ _,
      parked_parkedCrew _ _⟩
  · have hx := exec_marker_leaves ⟨hb, hc, hsp⟩ (s := s) (act := .trigger) (loadsDone_iff.2 hl)
    obtain ⟨hbytes, k', hk', hcrews, htr⟩ := performTrigger_spec
      (State.block_setCrew hb c { cr with storePath := rest }) (State.crew_setCrew hc { cr with storePath := rest })
    refine ⟨_, k', hx, (sameBytes_setCrew _ _ _ _).trans hbytes, hk', ?_, ?_⟩
    · rw [hcrews, NMap.find?_set_self]
      rfl
    · change k'.triggered = true ↔ _
      rw [htr]
      exact triggered_iff
  · have hx := exec_marker_leaves ⟨hb, hc, hsp⟩ (s := s) (act := .exit) (loadsDone_iff.2 hl)
    obtain ⟨k', hk', hcrews, htr, hlast, hrest⟩ := performExit_spec (State.block_setCrew hb c { cr with storePath := rest })
    refine ⟨_, k', hx, hk', ?_, ?_, fun h => ?_, fun h => ?_⟩
    · rw [hcrews]
      exact congrArg (Option.map _) (NMap.find?_set_self _ _ _)
    · change k'.triggered = true ↔ _
      rw [htr, hcrews]
      exact triggered_iff
    · exact phaseEnds_setCrew (hlast (exitDone_all_iff.2 (hcrews ▸ h)))
    · exact (sameBytes_setCrew _ _ _ _).trans (hrest (Bool.eq_false_iff.2 fun hd => h (hcrews ▸ exitDone_all_iff.1 hd)))
  · exact ⟨_, _, exec_waitDepRelease hb hc hg (waits_lanesWhere hl hth (by simp [hw])) hp, sameBytes_setCrew _ _ _ _,
      State.crew_setCrew hc _, resumed_depReleased cr, ⟨fun _ _ _ => ⟨rfl, rfl⟩, fun _ => ⟨rfl, rfl⟩, rfl⟩, rfl⟩
  · exact exec_waitDepRelease_held hb hc hg hp
end

section
/-! PROOFS. Engine operations (R64, R65, R78, R80, R82, R259): what an engine's write leaves of bytes and owners, how a
crew's counter falls, and O28. -/

namespace Sys2Proof.Machine

open Sys2Proof Sys2Proof.Claims

/-! ## Pieces of a range (R80) -/

/-- Pieces of memory or of scratchpads, none of them empty, that add up to `n` bytes. -/
structure Covers (ps : List (Place × Nat)) (n : Nat) : Prop where
  sum : (ps.map Prod.snd).sum = n
  pos : ∀ p ∈ ps, 0 < p.2
  here : ∀ p ∈ ps, ∀ b a, p.1 ≠ .acc b a

theorem Covers.tail {p : Place × Nat} {ps : List (Place × Nat)} {n : Nat} (h : Covers (p :: ps) n) : Covers ps (n - p.2) := by
  refine ⟨?_, fun q hq => h.pos q (List.mem_cons_of_mem _ hq), fun q hq => h.here q (List.mem_cons_of_mem _ hq)⟩
  have := h.sum
  rw [List.map_cons, List.sum_cons] at this
  omega

theorem Covers.head_le {p : Place × Nat} {ps : List (Place × Nat)} {n : Nat} (h : Covers (p :: ps) n) : p.2 ≤ n := by
  have := h.sum
  rw [List.map_cons, List.sum_cons] at this
  omega

theorem length_bytesOf (ps : List (Place × Nat)) : (bytesOf ps).length = (ps.map Prod.snd).sum := by
  simp [bytesOf, List.length_flatMap]

theorem piecesOf_pos {s t : State} {ctx va n : Nat} {acc : Acc} {ps : List (Nat × Nat)} (hn : 0 < n)
    (h : piecesOf s ctx va n acc = .ok (ps, t)) : ∀ p ∈ ps, 0 < p.2 := by
  have hin : inPage va n ≤ n ∧ 0 < inPage va n := by
    have : va % 65536 < 65536 := Nat.mod_lt _ (by decide)
    unfold inPage
    omega
  unfold piecesOf at h
  dsimp only at h
  split at h
  · cases h
  · split at h
    · cases h
      simpa using hn
    · split at h
      · cases h
      · cases h
        simp only [List.mem_cons, List.not_mem_nil, or_false, forall_eq_or_imp, forall_eq]
        omega

theorem unitPlace_here {s : State} {k : Block} {space ofs : Nat} {p : Place} (h : unitPlace s k space ofs = some p) :
    ∀ b a, p ≠ .acc b a := by
  unfold unitPlace at h
  split at h
  · unfold bayPlace at h
    dsimp only at h
    split at h <;> cases h
    exact fun _ _ => nofun
  · dsimp only at h
    split at h <;> cases h
    exact fun _ _ => nofun

theorem unitPlaces_covers {s : State} {k : Block} {space ofs n : Nat} {ps : List (Place × Nat)}
    (h : unitPlaces s k space ofs n = .ok ps) : Covers ps n := by
  induction n generalizing ofs ps with
  | zero =>
    cases h
    exact ⟨rfl, nofun, nofun⟩
  | succ n ih =>
    rw [unitPlaces] at h
    split at h
    · cases h
    · next p hp =>
      split at h
      · cases h
      · next qs hqs =>
        cases h
        obtain ⟨hsum, hpos, hhere⟩ := ih hqs
        refine ⟨by simp [hsum, Nat.add_comm], fun q hq => ?_, fun q hq => ?_⟩
        · rcases List.mem_cons.1 hq with rfl | hq
          · exact one_pos
          · exact hpos q hq
        · rcases List.mem_cons.1 hq with rfl | hq
          · exact unitPlace_here hp
          · exact hhere q hq

/-- The places of a range: they are found without any change but of translations kept. -/
theorem engPlaces_spec {s t : State} {ctx space addr n : Nat} {k : Option Block} {acc : Acc} {ps : List (Place × Nat)}
    (hn : 0 < n) (h : engPlaces s ctx k space addr n acc = .ok (ps, t)) : FetchOnly s t ∧ Covers ps n := by
  unfold engPlaces at h
  split at h
  · split at h
    · cases h
    · next qs u hq =>
      cases h
      obtain ⟨hf, hsum⟩ := piecesOf_spec hq
      refine ⟨hf, by simpa [Function.comp_def] using hsum, fun p hp => ?_, fun p hp => ?_⟩
      · obtain ⟨q, hq', rfl⟩ := List.mem_map.1 hp
        exact piecesOf_pos hn hq q hq'
      · obtain ⟨q, -, rfl⟩ := List.mem_map.1 hp
        exact fun _ _ => nofun
  · split at h
    · cases h
    · next b =>
      cases hu : unitPlaces s b space addr n with
      | error e =>
        rw [hu] at h
        cases h
      | ok qs =>
        rw [hu] at h
        cases h
        exact ⟨.refl s, unitPlaces_covers hu⟩

/-! ## Bytes of pieces -/

theorem readPieces_eq (s : State) (ps : List (Place × Nat)) : readPieces s ps = (bytesOf ps).flatMap (fun p => readPlace s p 1) := by
  simp only [readPieces, bytesOf, List.flatMap_assoc, List.flatMap_map]
  exact List.flatMap_congr fun p _ => readPlace_bytes s p.1 p.2

theorem length_readPlace (s : State) (p : Place) (n : Nat) : (readPlace s p n).length = n := by
  cases p with
  | acc b a =>
    simp only [readPlace]
    cases s.block? b <;> simp [Memory.read_length]
  | _ => simp [readPlace, Memory.read_length]

theorem length_readPieces (s : State) (ps : List (Place × Nat)) : (readPieces s ps).length = (ps.map Prod.snd).sum := by
  simp [readPieces, List.length_flatMap, length_readPlace]

/-- Places that hold the same bytes in a row hold them one by one. -/
theorem readPlace_eq_of_flatMap {s t : State} {src dst : List Place}
    (h : dst.flatMap (fun q => readPlace t q 1) = src.flatMap (fun p => readPlace s p 1)) {i : Nat} {p q : Place}
    (hp : src[i]? = some p) (hq : dst[i]? = some q) : readPlace t q 1 = readPlace s p 1 := by
  induction dst generalizing src i with
  | nil => cases hq
  | cons d dst ih =>
    cases src with
    | nil => cases hp
    | cons r src =>
      rw [List.flatMap_cons, List.flatMap_cons] at h
      obtain ⟨h1, h2⟩ := List.append_inj h (by rw [length_readPlace, length_readPlace])
      cases i with
      | zero =>
        cases hp
        cases hq
        exact h1
      | succ i => exact ih h2 hp hq

/-! ## What a write leaves (R64, R389) -/

/-- A change of memory and scratchpads, of what is noted with memory, of translations kept, and of operations, alone. -/
def TransferOnly (s t : State) : Prop :=
  t = { s with mem := t.mem, pairs := t.pairs, owners := t.owners, free := t.free, cores := t.cores, tlb := t.tlb,
               hbmRetry := t.hbmRetry, ops := t.ops }

namespace TransferOnly

theorem refl (s : State) : TransferOnly s s := rfl

theorem trans {s t u : State} (h : TransferOnly s t) (h' : TransferOnly t u) : TransferOnly s u := by
  unfold TransferOnly at *
  rw [h'.trans (by rw [h])]

theorem of_engineOnly {s t : State} (h : EngineOnly s t) : TransferOnly s t := by
  unfold TransferOnly
  rw [h]

theorem grids {s t : State} (h : TransferOnly s t) : t.grids = s.grids := by rw [h]

theorem copies {s t : State} (h : TransferOnly s t) : t.copies = s.copies := by rw [h]

end TransferOnly

theorem transferOnly_writePlace {p : Place} (hp : ∀ b a, p ≠ .acc b a) (s : State) (data : List Byte) :
    TransferOnly s (writePlace s p data) := by
  cases p with
  | g a => rfl
  | sp c a => rfl
  | acc b a => exact absurd rfl (hp b a)

theorem ops_writePlace (s : State) (p : Place) (data : List Byte) : (writePlace s p data).ops = s.ops := by
  cases p with
  | g a => rfl
  | sp c a => rfl
  | acc b a => exact State.updBlock_ops _ _ _

/-- The words of the global bytes of a list of places have no owner, and every other owner is as before. -/
def OwnersAfter (s t : State) (dst : List Place) : Prop :=
  ∀ w, ((∃ a, .g a ∈ dst ∧ a / 4 = w) → t.owners.find? w = none) ∧
    ((∀ a, .g a ∈ dst → a / 4 ≠ w) → t.owners.find? w = s.owners.find? w)

theorem OwnersAfter.append {s t u : State} {xs ys : List Place} (h : OwnersAfter s t xs) (h' : OwnersAfter t u ys) :
    OwnersAfter s u (xs ++ ys) := by
  refine fun w => ⟨fun ⟨a, ha, hw⟩ => ?_, fun hno => ?_⟩
  · by_cases hy : ∃ a, .g a ∈ ys ∧ a / 4 = w
    · exact (h' w).1 hy
    · rw [(h' w).2 fun b hb hbw => hy ⟨b, hb, hbw⟩]
      refine (h w).1 ⟨a, (List.mem_append.1 ha).resolve_right fun hy' => hy ⟨a, hy', hw⟩, hw⟩
  · rw [(h' w).2 fun a ha => hno a (List.mem_append_right _ ha), (h w).2 fun a ha => hno a (List.mem_append_left _ ha)]

/-- Words without an owner lie in the Invalidation Set of every L1 that holds a Read Copy (R52). -/
theorem OwnersAfter.disowned {s t : State} {dst : List Place} (h : OwnersAfter s t dst) (hc : t.copies = s.copies) :
    Disowned s t dst := by
  refine ⟨hc, fun a ha => (h _).1 ⟨a, ha, rfl⟩, fun w => (h w).2, fun a l1 c ha hf => ?_⟩
  refine List.mem_filter.2 ⟨List.mem_map_of_mem (NMap.mem_of_find? hf), ?_⟩
  rw [(h _).1 ⟨a, ha, rfl⟩]

theorem find_foldl_erase {α : Type} (ws : List Nat) (m : NMap α) (k : Nat) :
    (ws.foldl (fun m w => m.erase w) m).find? k = if k ∈ ws then none else m.find? k := by
  induction ws generalizing m with
  | nil => simp
  | cons w ws ih =>
    rw [List.foldl_cons, ih, NMap.find?_erase]
    by_cases h : k ∈ ws <;> by_cases hk : k = w <;> simp [h, hk]

/-- A write of bytes touches the words that hold one of them. -/
theorem mem_wordsOf_iff {a n w : Nat} (hn : 0 < n) : w ∈ wordsOf a n ↔ ∃ i < n, (a + i) / 4 = w := by
  rw [mem_wordsOf]
  refine ⟨fun ⟨h1, h2⟩ => ⟨4 * w - a, by omega, by omega⟩, ?_⟩
  rintro ⟨i, hi, rfl⟩
  omega

theorem ownersAfter_writePlace (s : State) {p : Place} (hp : ∀ b a, p ≠ .acc b a) {data : List Byte} (hd : 0 < data.length) :
    OwnersAfter s (writePlace s p data) ((List.range data.length).map p.add) := by
  intro w
  cases p with
  | acc b a => exact absurd rfl (hp b a)
  | sp c a =>
    refine ⟨fun ⟨a', ha', _⟩ => ?_, fun _ => rfl⟩
    obtain ⟨i, -, hi⟩ := List.mem_map.1 ha'
    cases hi
  | g a =>
    have hown : (writePlace s (.g a) data).owners.find? w = if w ∈ wordsOf a data.length then none else s.owners.find? w :=
      find_foldl_erase _ _ _
    rw [hown]
    refine ⟨fun ⟨a', ha', hw⟩ => if_pos ((mem_wordsOf_iff hd).2 ?_), fun hno => if_neg fun hw => ?_⟩
    · obtain ⟨i, hi, heq⟩ := List.mem_map.1 ha'
      obtain rfl : a + i = a' := Place.g.inj heq
      exact ⟨i, List.mem_range.1 hi, hw⟩
    · obtain ⟨i, hi, hw⟩ := (mem_wordsOf_iff hd).1 hw
      exact hno (a + i) (List.mem_map.2 ⟨i, List.mem_range.2 hi, rfl⟩) hw

theorem spoilPlace_noLadders {s : State} (h : noLadders s) (p : Place) (n : Nat) : spoilPlace s p n = s := by
  cases p with
  | g a => exact spoil_noLadders h a n
  | sp => rfl
  | acc => rfl

/-- A place that the written range does not name keeps its byte. -/
theorem meets_of_not_mem {p q : Place} {n : Nat} (h : q ∉ (List.range n).map p.add) : p.meets n q 1 = false := by
  have hout : ∀ a b : Nat, (∀ i < n, a + i ≠ b) → (decide (a < b + 1) && decide (b < a + n)) = false := by
    intro a b hne
    have := hne (b - a)
    simp only [Bool.and_eq_false_iff, decide_eq_false_iff_not]
    omega
  have hadd : ∀ i < n, p.add i ≠ q := fun i hi he => h (List.mem_map.2 ⟨i, List.mem_range.2 hi, he⟩)
  cases p <;> cases q <;> simp_all [Place.meets, Place.add]

theorem writePieces_cons {s : State} {p : Place} {n : Nat} (ps : List (Place × Nat)) (data : List Byte)
    (hl : noLadders (writePlace s p (data.take n))) :
    writePieces s ((p, n) :: ps) (data.map some) = writePieces (writePlace s p (data.take n)) ps ((data.drop n).map some) := by
  have hall : ((data.map some).take n).all Option.isSome = true := by
    rw [← List.map_take, List.all_map]
    exact List.all_eq_true.2 fun _ _ => rfl
  have hget : ((data.map some).take n).map (·.getD 0) = data.take n := by
    rw [← List.map_take, List.map_map]
    exact List.map_id _
  rw [writePieces]
  simp only [writePiece, hall, if_true, hget, ← List.map_drop, spoilPlace_noLadders hl, ite_self]

/-- Bytes written to pieces: each lands in its place, no other place changes, and the words written have no owner. -/
theorem writePieces_spec (ps : List (Place × Nat)) {s : State} {data : List Byte} (hn : noLadders s) (hc : Covers ps data.length) :
    let t := writePieces s ps (data.map some)
    TransferOnly s t ∧ t.ops = s.ops ∧ OwnersAfter s t (bytesOf ps) ∧
      (∀ q, q ∉ bytesOf ps → readPlace t q 1 = readPlace s q 1) ∧
      ((bytesOf ps).Nodup → (bytesOf ps).flatMap (fun p => readPlace t p 1) = data) := by
  induction ps generalizing s data with
  | nil =>
    refine ⟨.refl s, rfl, fun w => ⟨fun ⟨_, h, _⟩ => (nomatch h), fun _ => rfl⟩, fun _ _ => rfl, fun _ => ?_⟩
    exact (List.eq_nil_of_length_eq_zero hc.sum.symm).symm
  | cons p ps ih =>
    obtain ⟨p, n⟩ := p
    have hlen : (data.take n).length = n := by
      rw [List.length_take]
      exact Nat.min_eq_left hc.head_le
    have hhere := hc.here _ List.mem_cons_self
    have hpos : 0 < (data.take n).length := by
      rw [hlen]
      exact hc.pos _ List.mem_cons_self
    have hw := transferOnly_writePlace hhere s (data.take n)
    have hn' : noLadders (writePlace s p (data.take n)) := by
      rw [noLadders, hw.grids]
      exact hn
    obtain ⟨h1, h2, h3, h4, h5⟩ := ih (s := writePlace s p (data.take n)) (data := data.drop n) hn' (by
      rw [List.length_drop]
      exact hc.tail)
    have hown := ownersAfter_writePlace s hhere hpos
    have hout : ∀ q, q ∉ (List.range n).map p.add → readPlace (writePlace s p (data.take n)) q 1 = readPlace s q 1 :=
      fun q hq => readPlace_writePlace_outside s (by rw [hlen]; exact meets_of_not_mem hq)
    have hself := readPlace_writePlace_self (s := s) (p := p) (fun b a h => absurd h (hhere b a)) (data.take n)
    rw [hlen] at hown hself
    have hb : bytesOf ((p, n) :: ps) = (List.range n).map p.add ++ bytesOf ps := rfl
    rw [writePieces_cons ps data hn', hb]
    refine ⟨hw.trans h1, h2.trans (ops_writePlace _ _ _), hown.append h3, fun q hq => ?_, fun hnd => ?_⟩
    · rw [List.mem_append, not_or] at hq
      rw [h4 q hq.2, hout q hq.1]
    · obtain ⟨-, hnd2, hdis⟩ := List.nodup_append.1 hnd
      have hfirst : ((List.range n).map p.add).flatMap (fun q => readPlace
          (writePieces (writePlace s p (data.take n)) ps ((data.drop n).map some)) q 1) = data.take n := by
        rw [List.flatMap_congr (g := fun q => readPlace (writePlace s p (data.take n)) q 1)
          (fun q hq => h4 q (fun hq' => hdis q hq q hq' rfl)), List.flatMap_map]
        exact (readPlace_bytes _ _ _).symm.trans hself
      rw [List.flatMap_append, h5 hnd2, hfirst, List.take_append_drop]

/-! ## Transfers (R64, R80) -/

/-- Bytes written once their places are found, and what is noted after that. -/
theorem written_spec {s s1 t : State} {dst : List (Place × Nat)} {data : List Byte} (hn : noLadders s) (hf : FetchOnly s s1)
    (hc : Covers dst data.length) (hd : (bytesOf dst).Nodup) (ht : FetchOnly (writePieces s1 dst (data.map some)) t)
    (id : Nat) (f : EngOp → EngOp) :
    let u := updOp t id f
    (bytesOf dst).flatMap (fun p => readPlace u p 1) = data ∧ (∀ q, q ∉ bytesOf dst → readPlace u q 1 = readPlace s q 1) ∧
      Disowned s u (bytesOf dst) ∧ ∀ i, op? u i = op? (updOp s id f) i := by
  have hg : s1.grids = s.grids := by rw [hf]
  have ho : s1.owners = s.owners := by rw [hf]
  obtain ⟨hw, hops, hown, hout, hin⟩ := writePieces_spec dst (s := s1) (by rw [noLadders, hg]; exact hn) hc
  have hb := ht.bytes.trans (sameBytes_updOp t id f)
  refine ⟨?_, fun q hq => (hb q).trans ((hout q hq).trans (hf.bytes q)), OwnersAfter.disowned (fun w => ?_) ?_, fun i => ?_⟩
  · rw [← hin hd]
    exact List.flatMap_congr fun p _ => hb p
  · have hu : (updOp t id f).owners = (writePieces s1 dst (data.map some)).owners := by
      rw [ht]
      rfl
    rw [hu, ← ho]
    exact hown w
  · refine Eq.trans (b := (writePieces s1 dst (data.map some)).copies) ?_ (hw.copies.trans ?_)
    · rw [ht]
      rfl
    · rw [hf]
  · have hu : t.ops = s.ops := by
      refine Eq.trans (b := (writePieces s1 dst (data.map some)).ops) ?_ (hops.trans ?_)
      · rw [ht]
      · rw [hf]
    simp only [op?, updOp, hu]

/-- Bytes read from pieces and written to others. -/
theorem moved_spec {s s1 t : State} {src dst : List (Place × Nat)} {n : Nat} (hn : noLadders s) (hf : FetchOnly s s1)
    (hs : Covers src n) (hc : Covers dst n) (hd : (bytesOf dst).Nodup)
    (ht : FetchOnly (writePieces s1 dst ((readPieces s1 src).map some)) t) (id : Nat) (f : EngOp → EngOp) :
    Moved s (updOp t id f) (bytesOf src) (bytesOf dst) ∧ Disowned s (updOp t id f) (bytesOf dst) ∧
      ∀ i, op? (updOp t id f) i = op? (updOp s id f) i := by
  have hlen : Covers dst (readPieces s1 src).length := by
    rw [length_readPieces, hs.sum]
    exact hc
  obtain ⟨hin, hout, hdis, hop⟩ := written_spec hn hf hlen hd ht id f
  have hread : readPieces s1 src = (bytesOf src).flatMap (fun p => readPlace s p 1) := by
    rw [readPieces_eq]
    exact List.flatMap_congr fun p _ => hf.bytes p
  rw [hread] at hin
  exact ⟨⟨fun i p q hp hq => readPlace_eq_of_flatMap hin hp hq, hout⟩, hdis, hop⟩

/-- An operation's field that no search reads by is changed where the operation stands. -/
theorem op?_updOp_self {s : State} {id : Nat} {o : EngOp} (h : op? s id = some o) {f : EngOp → EngOp} (hf : ∀ o, (f o).id = o.id) :
    op? (updOp s id f) id = some (f o) := by
  rw [op?_updOp s id id hf, if_pos rfl, h]
  rfl

/-- A part that has been moved is noted in its operation. -/
def EngOp.addMoved (m : Nat × Nat × Nat) (o : EngOp) : EngOp := { o with moved := o.moved ++ [m] }

/-- Where no launch has a ladder, no cut cancels a write (R41). -/
theorem cutCancels_noLadders {s : State} (h : noLadders s) (k : Block) (va : Nat) : cutCancels s k va = false := by
  unfold cutCancels
  cases hg : s.grid? k.grid with
  | none => rfl
  | some g =>
    have hl := h _ (NMap.mem_of_find? hg)
    dsimp only at hl ⊢
    rw [hl]

/-- Bytes that nothing holds back. -/
theorem map_zipIdx_some {α : Type} (l : List α) {held : α × Nat → Bool} (h : ∀ e ∈ l.zipIdx, held e = false) :
    l.zipIdx.map (fun e => if held e then none else some e.1) = l.map some := by
  have hm : l.zipIdx.map (fun e => if held e then none else some e.1) = l.zipIdx.map (some ∘ Prod.fst) :=
    List.map_congr_left fun e he => by rw [h e he]; rfl
  rw [hm, ← List.map_map, List.zipIdx_map_fst]

/-- A part whose destination is none of its segment's source reaches it as it was read (R80). -/
theorem copyBytes_eq {s : State} {ctx ofs : Nat} {k : Option Block} {seg : Seg} {dst : List (Place × Nat)} {data : List Byte}
    (hn : noLadders s) (hl : (bytesOf dst).length = data.length) (h : ∀ p ∈ bytesOf dst, inSource s ctx k seg p = false) :
    copyBytes s ctx k seg ofs dst data = data.map some := by
  have hcut : ∀ va, (k.any fun k => cutCancels s k va) = false := fun va => by
    cases k with
    | none => rfl
    | some k => exact cutCancels_noLadders hn k va
  have hmap : copyBytes s ctx k seg ofs dst data = ((bytesOf dst).zip data).zipIdx.map ((some ∘ Prod.snd) ∘ Prod.fst) := by
    refine List.map_congr_left fun e he => ?_
    have hmem : e.1.1 ∈ bytesOf dst := (List.of_mem_zip (List.fst_mem_of_mem_zipIdx he)).1
    simp only [hcut, Bool.and_false, h _ hmem, Bool.false_eq_true, if_false, Function.comp_apply]
  rw [hmap, ← List.map_map, List.zipIdx_map_fst, ← List.map_map, List.map_snd_zip hl.ge]

theorem movePart_ok {s s1 s2 : State} {o : EngOp} {i ofs len : Nat} {seg : Seg} {src dst : List (Place × Nat)}
    (hs : engPlaces s (opCtx s o) (if o.pkt.isSome then none else s.block? o.blk) seg.ssp (seg.src + ofs) len .read = .ok (src, s1))
    (hd : engPlaces s1 (opCtx s o) (if o.pkt.isSome then none else s.block? o.blk) seg.dsp (seg.dst + ofs) len .write =
      .ok (dst, s2)) :
    movePart s o i seg ofs len = updOp (piecesDone (writePieces s2 dst (copyBytes s2 (opCtx s o)
      (if o.pkt.isSome then none else s.block? o.blk) seg ofs dst (readPieces s2 src))) (src ++ dst)).draw o.id
        (EngOp.addMoved (i, ofs, len)) := by
  simp only [movePart, hs, hd]
  rfl

/-! ## Gathers (R82, R259) -/

/-- The pieces that higher lanes of a scatter have written. -/
def higherPieces (s : State) (o : EngOp) (k : Block) (n : Nat) (addrs : List (Nat × Nat)) (lane : Nat) : List (List (Place × Nat)) :=
  (addrs.filter (fun e => decide (lane < e.1) && o.moved.any (fun m => m.1 == e.1))).filterMap (fun e =>
    (engPlaces s (opCtx s o) (some k) 0 e.2 n .write).toOption.map Prod.fst)

theorem mem_higherPieces {s : State} {o : EngOp} {k : Block} {n lane : Nat} {addrs : List (Nat × Nat)} {ps : List (Place × Nat)} :
    ps ∈ higherPieces s o k n addrs lane ↔ ∃ e ∈ addrs, lane < e.1 ∧ (∃ m ∈ o.moved, m.1 = e.1) ∧
      ∃ t, engPlaces s (opCtx s o) (some k) 0 e.2 n .write = .ok (ps, t) := by
  simp only [higherPieces, List.mem_filterMap, List.mem_filter, Bool.and_eq_true, decide_eq_true_eq, List.any_eq_true, beq_iff_eq,
    and_assoc]
  refine exists_congr fun e => and_congr_right fun _ => and_congr_right fun _ => and_congr_right fun _ => ?_
  cases engPlaces s (opCtx s o) (some k) 0 e.2 n .write with
  | error err => simp [Except.toOption]
  | ok r => simp [Except.toOption, Prod.ext_iff]

/-- A lane's element moved, bytes that a higher lane has written or a cut has cancelled left as they are. -/
theorem moveLane_ok {s s1 s2 : State} {o : EngOp} {scat : Bool} {size sp lane va : Nat} {addrs : List (Nat × Nat)} {b : Block}
    {gl lo : List (Place × Nat)} (ha : addrs.find? (fun e => e.1 == lane) = some (lane, va)) (hb : s.block? o.blk = some b)
    (hm : ∀ m ∈ o.moved, m.1 ≠ lane)
    (hg : engPlaces s (opCtx s o) (some b) 0 va (gatherBytes size) (if scat then .write else .read) = .ok (gl, s1))
    (hl : engPlaces s (opCtx s o) (some b) 1 (sp + lane * gatherBytes size) (gatherBytes size) (if scat then .read else .write) =
      .ok (lo, s2)) :
    moveLane s o scat size sp addrs lane = updOp (piecesDone (writePieces s1 (if scat then gl else lo)
      ((readPieces s1 (if scat then lo else gl)).zipIdx.map (fun e =>
        if scat && ((higherPieces s o b (gatherBytes size) addrs lane).contains (if scat then gl else lo) ||
          cutCancels s1 b (va + e.2)) then none else some e.1)))
      ((if scat then lo else gl) ++ (if scat then gl else lo))) o.id (EngOp.addMoved (lane, 0, gatherBytes size)) := by
  have hnot : o.moved.any (fun m => m.1 == lane) = false := by
    rw [List.any_eq_false]
    exact fun m h => by simpa using hm m h
  simp only [moveLane, ha, hb, hnot, hg, hl, Bool.false_eq_true, if_false]
  cases scat <;> rfl

/-- Bytes that are all held back change nothing. -/
theorem writePieces_none (s : State) (ps : List (Place × Nat)) (n : Nat) (h : ∀ p ∈ ps, 0 < p.2) (hn : (ps.map Prod.snd).sum = n) :
    writePieces s ps (List.replicate n none) = s := by
  induction ps generalizing n with
  | nil => rfl
  | cons p ps ih =>
    obtain ⟨p, m⟩ := p
    have hm : m ≤ n := by
      rw [List.map_cons, List.sum_cons] at hn
      omega
    have hpos : m ≠ 0 := (h _ List.mem_cons_self).ne'
    have hpiece : writePiece s p (List.replicate m none) = s := by
      rw [writePiece, if_neg (by simp [hpos])]
      refine List.foldlRecOn _ _ (motive := (· = s)) rfl fun u hu e he => ?_
      have hnone := List.eq_of_mem_replicate (List.fst_mem_of_mem_zipIdx he)
      rw [hnone]
      exact hu
    rw [writePieces, List.take_replicate, Nat.min_eq_left hm, List.drop_replicate, hpiece, if_neg (by simp)]
    refine ih (n - m) (fun q hq => h q (List.mem_cons_of_mem _ hq)) ?_
    rw [List.map_cons, List.sum_cons] at hn
    omega

/-! ## An operation that is going on -/

/-- An operation has started and nothing holds it up. -/
structure Going (s : State) (op : Nat) (o : EngOp) : Prop where
  is : op? s op = some o
  started : o.started = true
  undone : o.done = false
  fault : o.fault = none
  pf : o.pf = none

section
variable {s : State} {op : Nat} {o : EngOp}

theorem exec_copyOperation_copy {segs : List Seg} {st : Option (Nat × Nat × Nat)} {seg ofs len : Nat} {g : Seg} (h : Going s op o)
    (hk : o.kind = .copy segs st) (hg : segs[seg]? = some g) (h0 : 0 < len) (h1 : len ≤ 65536) (h2 : ofs + len ≤ g.len)
    (hm : ∀ m ∈ o.moved, partsMeet m seg ofs len = false) :
    exec (.copyOperation op seg ofs len) s = .next (movePart s o seg g ofs len) := by
  have hmeet : ¬(len = 0 ∨ 65536 < len ∨ g.len < ofs + len ∨ o.moved.any (fun m => partsMeet m seg ofs len) = true) := by
    rw [List.any_eq_true]
    rintro (h | h | h | ⟨m, hmem, h⟩)
    · omega
    · omega
    · omega
    · rw [hm m hmem] at h
      cases h
  simp only [exec, execCopyOperation, h.is, h.started, h.undone, h.fault, h.pf, hk, hg, if_neg hmeet, Bool.not_true,
    Option.isSome_none, Bool.or_self, Bool.false_eq_true, if_false]

theorem exec_copyOperation_gather {scat : Bool} {size sp : Nat} {addrs : List (Nat × Nat)} (lane ofs len : Nat) (h : Going s op o)
    (hk : o.kind = .gather scat size sp addrs) :
    exec (.copyOperation op lane ofs len) s = .next (moveLane s o scat size sp addrs lane) := by
  simp only [exec, execCopyOperation, h.is, h.started, h.undone, h.fault, h.pf, hk, Bool.not_true, Option.isSome_none,
    Bool.or_self, Bool.false_eq_true, if_false]

/-- The stamp of a copy, written after every payload byte (R82). -/
theorem exec_stampWrite {s1 : State} {segs : List Seg} {sp a v : Nat} {dst : List (Place × Nat)} (h : Going s op o)
    (hk : o.kind = .copy segs (some (sp, a, v))) (hs : o.stamped = false)
    (hm : (o.moved.map (fun m => m.2.2)).sum = (segs.map (·.len)).sum) (hn : noLadders s)
    (hd : engPlaces s (opCtx s o) (if o.pkt.isSome then none else s.block? o.blk) sp a 8 .write = .ok (dst, s1)) :
    exec (.stampWrite op) s = .next (updOp (piecesDone (writePieces s1 dst ((leBytes 8 v).map some)) dst) op stampOp) := by
  have hall : (movedTotal o != copyTotal segs) = false := bne_eq_false_iff_eq.2 hm
  have hcut : ∀ e ∈ (leBytes 8 v).zipIdx, (sp == 0 &&
      (if o.pkt.isSome then none else s.block? o.blk).any (fun k => cutCancels s1 k (a + e.2))) = false := fun e _ => by
    have hn1 : noLadders s1 := by
      rw [noLadders, (engPlaces_spec (by decide) hd).1]
      exact hn
    cases (if o.pkt.isSome then none else s.block? o.blk) with
    | none => exact Bool.and_false _
    | some k => rw [Option.any_some, cutCancels_noLadders hn1, Bool.and_false]
  rw [← map_zipIdx_some _ hcut]
  simp only [exec, execStampWrite, h.is, h.started, h.undone, h.fault, h.pf, hk, hs, hall, hd, Bool.not_true, Option.isSome_none,
    Bool.or_self, Bool.false_eq_true, if_false]
  rfl

/-- An operation that has started, at an engine of its die. -/
def EngOp.startedOn (e : Nat) (o : EngOp) : EngOp := { o with started := true, engine := e }

/-- A copy goes to the next Bulk Copy Engine of its die (R80). -/
theorem exec_engineCommandStart_copy {segs : List Seg} {st : Option (Nat × Nat × Nat)} {die : Nat} (h : op? s op = some o)
    (hm : opMayStart s o = true) (hf : o.fault = none) (hp : o.pf = none) (hk : o.kind = .copy segs st)
    (hd : ((s.block? o.blk).map (fun k => dieOf k.core)).getD 0 = die) : exec (.engineCommandStart op) s =
      .next (updOp (s.setDie die { s.die die with bce := (nextBce s die (s.die die).bce + 1) % 16 }) op
        (EngOp.startedOn (nextBce s die (s.die die).bce))) := by
  simp only [exec, execEngineCommandStart, h, hm, hf, hp, hk, hd, Bool.not_true, Option.isSome_none, Bool.or_self,
    Bool.false_eq_true, if_false]
  rfl

theorem sameBytes_setDie (s : State) (d : Nat) (x : Die) : SameBytes s (s.setDie d x) :=
  sameBytes_of rfl (fun _ => rfl) (fun _ => rfl)

/-- A command leaves its queue: no byte changes, and its operation has started (R64, R80). -/
theorem exec_engineCommandStart (h : op? s op = some o) (hm : opMayStart s o = true) (hf : o.fault = none) (hp : o.pf = none)
    (hk : ∀ c d g n p l, o.kind ≠ .coll c d g n p l) : ∃ (u : State) (f : EngOp → EngOp),
      exec (.engineCommandStart op) s = .next (updOp u op f) ∧ SameBytes s u ∧ u.ops = s.ops ∧
      ∀ q, (f q).id = q.id ∧ (f q).started = true ∧ (f q).kind = q.kind ∧ (f q).done = q.done ∧ (f q).moved = q.moved := by
  cases hkind : o.kind with
  | coll c d g n p l => exact absurd hkind (hk c d g n p l)
  | copy segs st =>
    exact ⟨_, _, exec_engineCommandStart_copy h hm hf hp hkind rfl, sameBytes_setDie _ _ _, rfl, fun q => ⟨rfl, rfl, rfl, rfl, rfl⟩⟩
  | _ =>
    refine ⟨s, fun q => { q with started := true }, ?_, .refl s, rfl, fun q => ⟨rfl, rfl, rfl, rfl, rfl⟩⟩
    simp only [exec, execEngineCommandStart, h, hm, hf, hp, hkind, Bool.not_true, Option.isSome_none, Bool.or_self,
      Bool.false_eq_true, if_false]

/-! ## Counters (R65) -/

theorem mem_opsOf {b c cls : Nat} {q : EngOp} : q ∈ opsOf s b c cls ↔
    q ∈ s.ops ∧ q.pkt = none ∧ q.blk = b ∧ q.cls = cls ∧ ∃ n, q.seqOf c = some n := by
  simp only [opsOf, List.mem_filter, Bool.and_eq_true, Option.isNone_iff_eq_none, beq_iff_eq, Option.isSome_iff_exists, and_assoc]

/-- An operation counts while one as old as it, or older, is not done. -/
theorem mem_outstanding {b c cls id : Nat} : id ∈ outstanding s b c cls ↔ ∃ e ∈ opsOf s b c cls, e.id = id ∧
    ∃ q ∈ opsOf s b c cls, q.done = false ∧ (q.seqOf c).getD 0 ≤ (e.seqOf c).getD 0 := by
  simp only [outstanding, List.mem_map, List.mem_filter, List.any_eq_true, Bool.and_eq_true, Bool.not_eq_true', decide_eq_true_eq]
  exact exists_congr fun e => ⟨fun ⟨⟨he, hq⟩, hid⟩ => ⟨he, hid, hq⟩, fun ⟨he, hid, hq⟩ => ⟨⟨he, hq⟩, hid⟩⟩

theorem mem_tidyOps {q : EngOp} : q ∈ (tidyOps s).ops ↔
    q ∈ s.ops ∧ (q.done = false ∨ ∃ i ∈ q.issuers, q.id ∈ outstanding s q.blk i.1 q.cls) := by
  simp only [tidyOps, List.mem_filter, Bool.or_eq_true, Bool.not_eq_true', List.any_eq_true, List.contains_iff_mem]

theorem seqOf_issuer {q : EngOp} {c n : Nat} (h : q.seqOf c = some n) : ∃ i ∈ q.issuers, i.1 = c := by
  obtain ⟨i, hi, -⟩ := Option.map_eq_some_iff.1 h
  exact ⟨i, List.mem_of_find?_eq_some hi, by simpa using List.find?_some hi⟩

/-- What is dropped from the list counted nowhere. -/
theorem outstanding_tidyOps {b c cls id : Nat} : id ∈ outstanding (tidyOps s) b c cls ↔ id ∈ outstanding s b c cls := by
  have hsub : ∀ q, q ∈ opsOf (tidyOps s) b c cls → q ∈ opsOf s b c cls := fun q hq => by
    obtain ⟨hmem, hrest⟩ := mem_opsOf.1 hq
    exact mem_opsOf.2 ⟨(mem_tidyOps.1 hmem).1, hrest⟩
  refine ⟨fun h => ?_, fun h => ?_⟩
  · obtain ⟨e, he, hid, q, hq, hd⟩ := mem_outstanding.1 h
    exact mem_outstanding.2 ⟨e, hsub e he, hid, q, hsub q hq, hd⟩
  · obtain ⟨e, he, rfl, q, hq, hd, hle⟩ := mem_outstanding.1 h
    obtain ⟨hq1, hq2⟩ := mem_opsOf.1 hq
    obtain ⟨he1, hpkt, rfl, rfl, n, hn⟩ := mem_opsOf.1 he
    obtain ⟨i, hi, rfl⟩ := seqOf_issuer hn
    exact mem_outstanding.2 ⟨e, mem_opsOf.2 ⟨mem_tidyOps.2 ⟨he1, .inr ⟨i, hi, h⟩⟩, hpkt, rfl, rfl, n, hn⟩, rfl,
      q, mem_opsOf.2 ⟨mem_tidyOps.2 ⟨hq1, .inl hd⟩, hq2⟩, hd, hle⟩

theorem sameBytes_tidyOps (s : State) : SameBytes s (tidyOps s) := sameBytes_of rfl (fun _ => rfl) (fun _ => rfl)

/-- An operation that is done. -/
def EngOp.finished (o : EngOp) : EngOp := { o with done := true }

theorem mem_updOp {id : Nat} {f : EngOp → EngOp} {q : EngOp} :
    q ∈ (updOp s id f).ops ↔ ∃ p ∈ s.ops, (if p.id = id then f p else p) = q := List.mem_map

/-- An operation that is done counts on while one as old as it, or older, is not. -/
theorem outstanding_finished (h : op? s op = some o) (hp : o.pkt = none) (hu : ∀ q ∈ s.ops, q.id = op → q = o) {c n : Nat}
    (hc : o.seqOf c = some n) : op ∈ outstanding (updOp s op EngOp.finished) o.blk c o.cls ↔
      ∃ q ∈ opsOf s o.blk c o.cls, q.id ≠ op ∧ q.done = false ∧ (q.seqOf c).getD 0 ≤ n := by
  have hid := op?_id h
  have hmem : o ∈ s.ops := List.mem_of_find?_eq_some h
  have hother : ∀ q, q.id ≠ op → (q ∈ opsOf (updOp s op EngOp.finished) o.blk c o.cls ↔ q ∈ opsOf s o.blk c o.cls) := by
    intro q hq
    rw [mem_opsOf, mem_opsOf, mem_updOp]
    refine and_congr_left fun _ => ⟨fun ⟨p, hp, heq⟩ => ?_, fun hq' => ⟨q, hq', if_neg hq⟩⟩
    split at heq
    · next hpid =>
      rw [← heq] at hq
      exact absurd hpid hq
    · exact heq ▸ hp
  have hself : ∀ q ∈ opsOf (updOp s op EngOp.finished) o.blk c o.cls, q.id = op → q = o.finished := by
    intro q hq hqid
    obtain ⟨p, hp, rfl⟩ := mem_updOp.1 (mem_opsOf.1 hq).1
    split at hqid
    · next hpid => rw [if_pos hpid, hu p hp hpid]
    · next hpid => exact absurd hqid hpid
  rw [mem_outstanding]
  refine ⟨fun ⟨e, he, heid, q, hq, hd, hle⟩ => ?_, fun ⟨q, hq, hqid, hd, hle⟩ => ?_⟩
  · rw [hself e he heid] at hle
    have hqid : q.id ≠ op := fun hqid => by
      rw [hself q hq hqid] at hd
      cases hd
    have hseq : o.finished.seqOf c = some n := hc
    rw [hseq] at hle
    exact ⟨q, (hother q hqid).1 hq, hqid, hd, hle⟩
  · refine ⟨o.finished, mem_opsOf.2 ⟨mem_updOp.2 ⟨o, hmem, if_pos hid⟩, hp, rfl, rfl, n, hc⟩, hid, q, (hother q hqid).2 hq, hd, ?_⟩
    have hseq : o.finished.seqOf c = some n := hc
    rw [hseq]
    exact hle

theorem exec_engineOperationComplete (h : Going s op o) (hf : opFinished s o = true) :
    exec (.engineOperationComplete op) s = .next (tidyOps (updOp s op EngOp.finished)) := by
  simp only [exec, execEngineOperationComplete, h.is, h.started, h.undone, h.fault, h.pf, hf, Bool.not_false, Option.isNone_none,
    Bool.and_self, if_true]
  rfl

end

/-! ## Protection stop (R78, R260) -/

/-- A commanding crew holds the fault of its operation; where it has retired the grid ends. -/
def holdFault (o : EngOp) (op : Nat) (va : Nat × Nat) (s : State) (i : Nat × Nat) : State :=
  match s.block? o.blk, s.crew? o.blk i.1 with
  | some k, some cr =>
    if cr.retired then endGrid s k.grid .faulted
    else s.setCrew o.blk i.1 { cr with faults := cr.faults ++ [⟨op, i.2, o.cls, va.1, va.2⟩] }
  | _, _ => s

theorem holdFault_live {o : EngOp} {op : Nat} {va i : Nat × Nat} {s : State} {cr : Crew} (h : s.crew? o.blk i.1 = some cr)
    (hr : cr.retired = false) :
    holdFault o op va s i = s.setCrew o.blk i.1 { cr with faults := cr.faults ++ [⟨op, i.2, o.cls, va.1, va.2⟩] } := by
  obtain ⟨k, hk, -⟩ := State.block_of_crew h
  simp only [holdFault, hk, h, hr, Bool.false_eq_true, if_false]

theorem exec_channelProtectionStop {op : Nat} {s : State} {o : EngOp} {va : Nat × Nat} (h : op? s op = some o)
    (hf : o.fault = some va) (hd : o.done = false) (hp : o.pkt = none) : exec (.channelProtectionStop op) s =
      .next (tidyOps (o.issuers.foldl (holdFault o op va) (updOp s op (fun o => { o with done := true, pf := none })))) := by
  simp only [exec, execChannelProtectionStop, h, hf, hd, hp, Bool.false_eq_true, if_false]
  rfl

/-- The faults that a crew of a list of issuers comes to hold. -/
def faultsFor (o : EngOp) (op : Nat) (va : Nat × Nat) (c : Nat) (is : List (Nat × Nat)) : List EngFault :=
  (is.filter (fun i => i.1 == c)).map (fun i => ⟨op, i.2, o.cls, va.1, va.2⟩)

theorem foldl_holdFault (o : EngOp) (op : Nat) (va : Nat × Nat) (is : List (Nat × Nat)) (s : State)
    (hl : ∀ i ∈ is, ∃ cr, s.crew? o.blk i.1 = some cr ∧ cr.retired = false) :
    let t := is.foldl (holdFault o op va) s
    SameBytes s t ∧ t.ops = s.ops ∧ ∀ c cr, s.crew? o.blk c = some cr →
      t.crew? o.blk c = some { cr with faults := cr.faults ++ faultsFor o op va c is } := by
  induction is generalizing s with
  | nil => exact ⟨.refl s, rfl, fun c cr h => by simpa [faultsFor] using h⟩
  | cons i is ih =>
    obtain ⟨cr, hc, hr⟩ := hl i List.mem_cons_self
    have hcrew : ∀ c y, s.crew? o.blk c = some y → (s.setCrew o.blk i.1
        { cr with faults := cr.faults ++ [⟨op, i.2, o.cls, va.1, va.2⟩] }).crew? o.blk c =
          some { y with faults := y.faults ++ faultsFor o op va c [i] } := by
      intro c y hy
      by_cases hci : i.1 = c
      · subst hci
        obtain rfl := Option.some.inj (hc.symm.trans hy)
        rw [State.crew_setCrew hc]
        simp [faultsFor]
      · rw [State.crew_setCrew_ne _ (fun h => hci (Prod.ext_iff.1 h).2.symm), hy]
        simp [faultsFor, hci]
    obtain ⟨h1, h2, h3⟩ := ih (s.setCrew o.blk i.1 { cr with faults := cr.faults ++ [⟨op, i.2, o.cls, va.1, va.2⟩] })
      (fun j hj => by
        obtain ⟨y, hy, hyr⟩ := hl j (List.mem_cons_of_mem _ hj)
        exact ⟨_, hcrew _ _ hy, hyr⟩)
    rw [List.foldl_cons, holdFault_live hc hr]
    refine ⟨(sameBytes_setCrew _ _ _ _).trans h1, h2.trans (State.setCrew_ops _ _ _ _), fun c y hy => ?_⟩
    rw [h3 c _ (hcrew c y hy)]
    have hsplit : faultsFor o op va c (i :: is) = faultsFor o op va c [i] ++ faultsFor o op va c is := by
      rw [faultsFor, faultsFor, faultsFor, ← List.map_append, ← List.filter_append, List.singleton_append]
    rw [hsplit, List.append_assoc]

/-- What a protection stop leaves of the operation and of the crews that commanded it. -/
theorem channelProtectionStop_spec {op : Nat} {s : State} {o : EngOp} {va : Nat × Nat} (h : op? s op = some o)
    (hf : o.fault = some va) (hd : o.done = false) (hp : o.pkt = none)
    (hl : ∀ i ∈ o.issuers, ∃ cr, s.crew? o.blk i.1 = some cr ∧ cr.retired = false) :
    ∃ t, exec (.channelProtectionStop op) s = .next t ∧ SameBytes s t ∧ (∀ q, op? t op = some q → q.done = true) ∧
      ∀ c cr, s.crew? o.blk c = some cr →
        t.crew? o.blk c = some { cr with faults := cr.faults ++ faultsFor o op va c o.issuers } := by
  obtain ⟨h1, h2, h3⟩ := foldl_holdFault o op va o.issuers (updOp s op (fun o => { o with done := true, pf := none })) hl
  refine ⟨_, exec_channelProtectionStop h hf hd hp, (sameBytes_updOp _ _ _).trans (h1.trans (sameBytes_tidyOps _)),
    fun q hq => ?_, h3⟩
  have hmem := (mem_tidyOps.1 (List.mem_of_find?_eq_some hq)).1
  rw [h2] at hmem
  obtain ⟨p, -, rfl⟩ := mem_updOp.1 hmem
  have hid := op?_id hq
  split at hid
  · next hpid => rw [if_pos hpid]
  · next hpid => exact absurd hid hpid

/-! ## A gather's lane (R82, R259) -/

section
variable {s s1 s2 : State} {op n lane va size sp : Nat} {o : EngOp} {addrs : List (Nat × Nat)} {b : Block}
  {gl lo : List (Place × Nat)}

/-- A lane's element that its instruction moves: bytes reach memory or the scratchpad, unless a higher lane's cover them. -/
theorem moveLane_spec {scat : Bool} (ho : op? s op = some o) (hn : noLadders s)
    (ha : addrs.find? (fun e => e.1 == lane) = some (lane, va)) (hb : s.block? o.blk = some b) (hm : ∀ m ∈ o.moved, m.1 ≠ lane)
    (hg : engPlaces s (opCtx s o) (some b) 0 va (gatherBytes size) (if scat then .write else .read) = .ok (gl, s1))
    (hl : engPlaces s (opCtx s o) (some b) 1 (sp + lane * gatherBytes size) (gatherBytes size) (if scat then .read else .write) =
      .ok (lo, s2)) (hgn : (bytesOf gl).Nodup) (hln : (bytesOf lo).Nodup) :
    let t := moveLane s o scat size sp addrs lane
    (scat = false ∨ gl ∉ higherPieces s o b (gatherBytes size) addrs lane →
      Moved s t (bytesOf (if scat then lo else gl)) (bytesOf (if scat then gl else lo)) ∧
        Disowned s t (bytesOf (if scat then gl else lo))) ∧
    (scat = true → gl ∈ higherPieces s o b (gatherBytes size) addrs lane → SameBytes s t) ∧
    op? t op = some (o.addMoved (lane, 0, gatherBytes size)) := by
  have hid := op?_id ho
  have hpos : 0 < gatherBytes size := Nat.two_pow_pos _
  obtain ⟨hf, hcg⟩ := engPlaces_spec hpos hg
  obtain ⟨-, hcl⟩ := engPlaces_spec hpos hl
  have hn1 : noLadders s1 := by
    rw [noLadders, hf]
    exact hn
  have hsrc : Covers (if scat then lo else gl) (gatherBytes size) := by cases scat <;> assumption
  have hdst : Covers (if scat then gl else lo) (gatherBytes size) := by cases scat <;> assumption
  have hnd : (bytesOf (if scat then gl else lo)).Nodup := by cases scat <;> assumption
  rw [moveLane_ok ha hb hm hg hl, hid]
  simp only [cutCancels_noLadders hn1, Bool.or_false]
  by_cases hh : scat = true ∧ gl ∈ higherPieces s o b (gatherBytes size) addrs lane
  · obtain ⟨rfl, hh⟩ := hh
    have hdata : (readPieces s1 lo).zipIdx.map (fun e => if true && (higherPieces s o b (gatherBytes size) addrs lane).contains gl
        then none else some e.1) = List.replicate (gatherBytes size) none := by
      rw [List.contains_iff_mem.2 hh, ← hcl.sum, ← length_readPieces s1]
      exact List.map_const'.trans (by rw [List.length_zipIdx])
    simp only [if_true] at hsrc hdst ⊢
    rw [hdata, writePieces_none _ _ _ hdst.pos hdst.sum]
    have hd := hf.trans (fetchOnly_piecesDone s1 (lo ++ gl))
    refine ⟨fun h => absurd hh (h.resolve_left Bool.noConfusion), fun _ _ => hd.bytes.trans (sameBytes_updOp _ _ _), ?_⟩
    have ho' : op? (piecesDone s1 (lo ++ gl)) op = some o := by
      rw [op?, hd]
      exact ho
    exact op?_updOp_self ho' fun _ => rfl
  · have hdata : (readPieces s1 (if scat then lo else gl)).zipIdx.map (fun e =>
        if scat && (higherPieces s o b (gatherBytes size) addrs lane).contains (if scat then gl else lo) then none else some e.1) =
          (readPieces s1 (if scat then lo else gl)).map some := map_zipIdx_some _ fun e _ => by
      cases scat with
      | false => rfl
      | true => simpa using hh
    obtain ⟨h1, h2, h3⟩ := moved_spec hn hf hsrc hdst hnd
      (fetchOnly_piecesDone (writePieces s1 _ _) ((if scat then lo else gl) ++ (if scat then gl else lo))) op
      (EngOp.addMoved (lane, 0, gatherBytes size))
    rw [hdata]
    exact ⟨fun _ => ⟨h1, h2⟩, fun hs hmem => absurd ⟨hs, hmem⟩ hh, (h3 op).trans (op?_updOp_self ho fun _ => rfl)⟩

end

end Sys2Proof.Machine

open Sys2Proof Sys2Proof.Machine Sys2Proof.Claims

/-- Settles O28, an engine's event at a time: the start, a copy's part, a gather's lane, the stamp, the end and the stop. -/
theorem engineProgress : Obligations.EngineProgress := by
  unfold Obligations.EngineProgress
  intro op s o ho k going
  have hgoing : going → Going s op o := fun ⟨h1, h2, h3, h4⟩ => ⟨ho, h1, h2, h3, h4⟩
  have hid := op?_id ho
  refine ⟨fun hm hf hp hk => ?_, fun segs st seg g ofs len s1 s2 src dst hg hk hseg h0 h1 h2 hm hn hs hd hnd hin => ?_, ?_,
    fun segs sp a v dst s1 hg hk hst hm hn hd hnd => ?_, fun hg hf hp hu => ?_, fun va acc hf hd hp hl => ?_⟩
  · obtain ⟨u, f, hx, hb, hops, hfs⟩ := exec_engineCommandStart ho hm hf hp hk
    have hu : op? u op = some o := by
      rw [op?, hops]
      exact ho
    obtain ⟨-, h1, h2, h3, h4⟩ := hfs o
    exact ⟨_, hx, hb.trans (sameBytes_updOp _ _ _), _, op?_updOp_self hu fun q => (hfs q).1, h1, h2, h3, h4⟩
  · obtain ⟨hf1, hsrc⟩ := engPlaces_spec h0 hs
    obtain ⟨hf2, hdst⟩ := engPlaces_spec h0 hd
    have hf := hf1.trans hf2
    have hn2 : noLadders s2 := by
      rw [noLadders, hf]
      exact hn
    have hlen : (bytesOf dst).length = (readPieces s2 src).length := by
      rw [length_bytesOf, length_readPieces, hdst.sum, hsrc.sum]
    have hx : exec (.copyOperation op seg ofs len) s = .next (updOp (piecesDone (writePieces s2 dst
        ((readPieces s2 src).map some)) (src ++ dst)).draw op (EngOp.addMoved (seg, ofs, len))) := by
      rw [exec_copyOperation_copy (hgoing hg) hk hseg h0 h1 h2 hm, movePart_ok hs hd, copyBytes_eq hn2 hlen hin, hid]
    obtain ⟨hmv, hdis, hop⟩ := moved_spec hn hf hsrc hdst hnd
      ((fetchOnly_piecesDone (writePieces s2 dst ((readPieces s2 src).map some)) (src ++ dst)).trans
        (show FetchOnly _ (State.draw _) from rfl)) op (EngOp.addMoved (seg, ofs, len))
    exact ⟨_, hx, hmv, hdis, _, (hop op).trans (op?_updOp_self ho fun _ => rfl), rfl⟩
  · intro scat size sp addrs lane va b s1 s2 gl lo ofs len hg hk ha hb hm hn n hgl hlo hgn hln higher
    obtain ⟨h1, h2, h3⟩ := moveLane_spec (size := size) ho hn ha hb hm hgl hlo hgn hln
    exact ⟨_, exec_copyOperation_gather _ _ _ (hgoing hg) hk, fun h => h1 (h.imp_right fun h hmem => h (mem_higherPieces.1 hmem)),
      fun h hh => h2 h (mem_higherPieces.2 hh), _, h3, rfl⟩
  · obtain ⟨hf, hdst⟩ := engPlaces_spec (by decide) hd
    obtain ⟨h1, h2, h3, h4⟩ := written_spec hn hf (by rw [length_leBytes]; exact hdst) hnd
      (fetchOnly_piecesDone (writePieces s1 dst ((leBytes 8 v).map some)) dst) op stampOp
    refine ⟨_, exec_stampWrite (hgoing hg) hk hst hm hn hd, h1, h2, h3, (h4 op).trans (op?_updOp_self ho fun _ => rfl)⟩
  · refine ⟨_, exec_engineOperationComplete (hgoing hg) hf, (sameBytes_updOp _ _ _).trans (sameBytes_tidyOps _), fun c n hc => ?_⟩
    exact outstanding_tidyOps.trans (outstanding_finished ho hp hu hc)
  · obtain ⟨t, hx, hb, hdone, hcrew⟩ := channelProtectionStop_spec ho hf hd hp hl
    refine ⟨t, hx, hb, hdone, fun i hi cr hc => ⟨_, hcrew _ _ hc, ?_, fun e he => ?_⟩⟩
    · exact List.mem_map.2 ⟨i, List.mem_filter.2 ⟨hi, beq_self_eq_true _⟩, rfl⟩
    · obtain ⟨j, -, rfl⟩ := List.mem_map.1 he
      exact ⟨rfl, rfl, rfl, rfl⟩
end

section
/-! PROOFS. Monitors (R83, R261): what reading the monitored word leaves, what the end of a `monwait` leaves of its crew, and O33. -/

namespace Sys2Proof.Machine

open Sys2Proof Sys2Proof.Claims

/-! ## The monitored word (R83) -/

/-- The conditions `ge`, `eq` and `ne` of R261 as decisions. -/
theorem monCond_eq (cond w b : Nat) : monCond cond w b =
    if cond = 0 then decide (b ≤ w) else if cond = 1 then decide (w = b) else decide (w ≠ b) := by
  match cond with
  | 0 => rfl
  | 1 => rfl
  | n + 2 => by_cases h : w = b <;> simp [monCond, h]

theorem fetchOnly_monRead {s t : State} {ctx sp a w : Nat} {k : Block} (h : monRead s ctx k sp a = .ok (w, t)) : FetchOnly s t := by
  unfold monRead at h
  split at h
  · cases h
  · next hp =>
    cases h
    exact (engPlaces_spec (by decide) hp).1.trans (fetchOnly_piecesDone _ _)

/-- As `exec_done`, for an effect that has read and changes its crew's frame, but not its threads. -/
theorem runs_updCrew {i : Instr} {s s1 : State} {x : Cx} {eff : Cx → Res} {f : Crew → Crew} (h : Ready i s x)
    (hx : exec i s = issueWith i s eff) (hf : FetchOnly s s1) (he : eff x = .done (s1.updCrew x.b x.c f) false)
    (ht : (f x.cr).threads = x.cr.threads) (hk : SameHeads x.cr (f x.cr)) (hh : (f x.cr).handler = x.cr.handler) :
    Runs i s x (fun t cr => SameBytes s t ∧ cr = (f x.cr).advance x.lanes x.nextPc (endsRegion i && !x.cr.inHandler)) := by
  have hc := (hf.crew x.b x.c).trans h.crew
  have hx' := exec_done h hx (he.trans (by rw [State.updCrew_of hc])) (State.crew_setCrew hc _)
  rw [State.setCrew_setCrew, Crew.inHandler, hh] at hx'
  exact ⟨_, _, hx', State.crew_setCrew hc _, advanced_advance ht hk _, hf.bytes.trans (sameBytes_setCrew _ _ _ _), rfl⟩

/-! ## The end of a `monwait` (R261) -/

section
variable (cr : Crew) (lanes : Lanes) (pd : Nat) (hit : Bool)

@[simp] theorem threads_monDone : (monDone cr lanes pd hit).threads = cr.threads := Crew.threads_setP _ _ _ _

@[simp] theorem handler_monDone : (monDone cr lanes pd hit).handler = cr.handler := Crew.handler_setP _ _ _ _

theorem sameHeads_monDone : SameHeads cr (monDone cr lanes pd hit) := by
  unfold monDone Crew.setP
  split <;> exact ⟨rfl, rfl, rfl, rfl, rfl⟩

/-- A `monwait` that ends changes its predicate and acquires. -/
theorem kept_monDone : Kept { cr with seq := cr.seq + 1, acqs := cr.acqs ++ [⟨cr.seq + 1, false⟩] } (monDone cr lanes pd hit)
    none2 none1 (fun r => pd ≠ 15 ∧ r = pd) := by
  obtain ⟨hv, hs, hp, -⟩ := kept_setP cr pd lanes (if hit then BitVec.allOnes 32 else 0)
  refine ⟨hv, hs, hp, ?_⟩
  unfold monDone Crew.setP
  split <;> rfl

variable {pd} in
theorem getP_monDone (h : pd ≠ 15) {l : Nat} (hl : l < 32) : ((monDone cr lanes pd hit).getP pd).getLsbD l =
    if lanes.getLsbD l then hit else (cr.getP pd).getLsbD l := by
  have hset : (monDone cr lanes pd hit).getP pd = (cr.setP pd lanes (if hit then BitVec.allOnes 32 else 0)).getP pd := rfl
  rw [hset, Crew.getP_setP _ _ _ _ h]
  simp only [BitVec.getLsbD_or, BitVec.getLsbD_and, BitVec.getLsbD_not, hl, decide_true, Bool.true_and]
  cases lanes.getLsbD l with
  | false => simp only [Bool.not_false, Bool.and_true, Bool.and_false, Bool.or_false, Bool.false_eq_true, if_false]
  | true => cases hit <;> simp [hl, -BitVec.ofNat_eq_ofNat, -BitVec.reduceAllOnes]

end

theorem pdNum_eq_15 (cr : Crew) : pdNum cr 15 = 15 := rfl

theorem pdNum_of_ne {pd : BitVec 4} (h : pd ≠ 15) (cr : Crew) : pdNum cr pd = cr.pName pd.toNat ∧ pdNum cr pd ≠ 15 := by
  have hlt : pd.toNat < 15 := by bv_omega
  refine ⟨if_neg h, ?_⟩
  rw [pdNum, if_neg h, Crew.pName]
  split <;> omega

section
variable {x : Cx} {f : FmtE} (mon : Option Monitor)

/-- The predicate of a `monwait` that has met its condition. -/
theorem pathPred_monDone {m : Lanes} {n : Nat} {e : Bool} : PathPred x f.pd true
    ((monDone { x.cr with monitor := mon } x.lanes (pdNum x.cr f.pd) true).advance m n e) := by
  intro hpd l hl
  obtain ⟨hn, h15⟩ := pdNum_of_ne hpd x.cr
  rw [advance_getP, ← hn, getP_monDone _ _ _ h15 hl]
  rfl

/-- What else it leaves. -/
theorem kept_monDone_destP : Kept
    { x.cr with monitor := mon, seq := x.cr.seq + 1, acqs := x.cr.acqs ++ [⟨x.cr.seq + 1, false⟩] }
    (monDone { x.cr with monitor := mon } x.lanes (pdNum x.cr f.pd) true) none2 none1 (destP x f.pd) := by
  refine (kept_monDone { x.cr with monitor := mon } _ _ _).mono (fun _ _ => id) (fun _ => id) fun r hk => ?_
  obtain ⟨h15, rfl⟩ := hk
  have hpd : f.pd ≠ 15 := fun hpd => h15 (by rw [hpd, pdNum_eq_15])
  exact ⟨hpd, (pdNum_of_ne hpd x.cr).1⟩

end

/-! ## `monarm` and `monwait` issue (R261) -/

section
variable {f : FmtE} {s s1 : State} {x : Cx} {w : Nat}

theorem monitor_free (h : ∀ m, x.cr.monitor = some m → m.parked = none) : x.cr.monitor.any (fun m => m.parked.isSome) = false := by
  cases hm : x.cr.monitor with
  | none => rfl
  | some m => simp [h m hm]

/-- The word that the instruction names, as `monarm` and `monwait` form it. -/
def monAddr (x : Cx) (f : FmtE) : Nat := spaceAddr (f.imm8.toNat % 8) (x.uni f.a)

/-- How a crew is parked that waits for its word. -/
def monPark (x : Cx) (f : FmtE) : Park :=
  { cond := f.sub.toNat, operand := x.uni f.b
    deadline := if x.uni f.c = 0 then none else some (x.s.clock x.blk.core + x.uni f.c)
    pd := pdNum x.cr f.pd, lanes := x.lanes, act := x.act, since := x.s.clock x.blk.core }

/-- The crew of a path that parks: every thread of it waits. -/
def monParked (x : Cx) (f : FmtE) : Crew :=
  Crew.updThreads { x.cr with monitor := some ⟨monAddr x f, f.imm8.toNat % 8, some (monPark x f)⟩ } x.lanes
    (fun t => t.waits .monwait true (x.s.clock x.blk.core))

variable (ha : monAddr x f % 8 = 0) (hr : monRead s x.g.ctx x.blk (f.imm8.toNat % 8) (monAddr x f) = .ok (w, s1))
  (hm : ∀ m, x.cr.monitor = some m → m.parked = none)
include ha hr hm

theorem runs_monarm (h : Ready (.monarm f) s x) : Runs (.monarm f) s x (fun t cr => SameBytes s t ∧
    cr = Crew.advance { x.cr with monitor := some ⟨monAddr x f, f.imm8.toNat % 8, none⟩ } x.lanes x.nextPc
      (endsRegion (.monarm f) && !x.cr.inHandler)) := by
  refine runs_updCrew h rfl (fetchOnly_monRead hr)
    (f := fun cr => { cr with monitor := some ⟨monAddr x f, f.imm8.toNat % 8, none⟩ }) ?_ rfl ⟨rfl, rfl, rfl, rfl, rfl⟩ rfl
  rw [monAddr] at ha hr
  simp only [ha, hr, h.state, monitor_free hm, ne_eq, not_true_eq_false, Bool.false_eq_true, if_false, monAddr]

theorem runs_monwait (h : Ready (.monwait f) s x) (hc : monCond f.sub.toNat w (x.uni f.b) = true) :
    Runs (.monwait f) s x (fun t cr => SameBytes s t ∧
      cr = (monDone { x.cr with monitor := some ⟨monAddr x f, f.imm8.toNat % 8, none⟩ } x.lanes (pdNum x.cr f.pd) true).advance
        x.lanes x.nextPc (endsRegion (.monwait f) && !x.cr.inHandler)) := by
  refine runs_updCrew h rfl (fetchOnly_monRead hr) (f := fun cr => monDone
    { cr with monitor := some ⟨monAddr x f, f.imm8.toNat % 8, none⟩ } x.lanes (pdNum x.cr f.pd) true) ?_
    (threads_monDone _ _ _ _) (sameHeads_monDone _ _ _ _) (handler_monDone _ _ _ _)
  rw [monAddr] at ha hr
  simp only [ha, hr, hc, h.state, monitor_free hm, ne_eq, not_true_eq_false, Bool.false_eq_true, if_false, if_true, monAddr]

theorem exec_monwait_parks (h : Ready (.monwait f) s x) (hc : monCond f.sub.toNat w (x.uni f.b) = false) :
    exec (.monwait f) s = .next (s1.setCrew x.b x.c (monParked x f)) := by
  have hcrew := ((fetchOnly_monRead hr).crew x.b x.c).trans h.crew
  refine exec_raw h rfl ?_
  rw [monAddr] at ha hr
  simp only [ha, hr, hc, h.state, monitor_free hm, ne_eq, not_true_eq_false, Bool.false_eq_true, if_false,
    State.updCrew_of hcrew, State.updCrew_setCrew hcrew]
  rw [monParked, monPark, h.state, monAddr]

end

theorem thread_monParked {x : Cx} {f : FmtE} {l : Nat} {th : Thread} (hl : x.lanes.getLsbD l = true) (ht : x.cr.thread? l = some th) :
    (monParked x f).thread? l = some (th.waits .monwait true (x.s.clock x.blk.core)) := by
  refine (Crew.thread_updThreads _ _ _ _).trans ?_
  have hl' : (x.cr.thread? l).map _ = _ := congrArg (Option.map fun t : Thread =>
    if x.lanes.getLsbD l then t.waits .monwait true (x.s.clock x.blk.core) else t) ht
  rw [Option.map_some, if_pos hl] at hl'
  exact hl'

/-! ## A parked crew reads its word again (R83) -/

/-- The crew that a parked `monwait` lets go on. -/
def Crew.monReleased (cr : Crew) (m : Monitor) (p : Park) (hit : Bool) : Crew :=
  (monDone { cr with monitor := some { m with parked := none } } p.lanes p.pd hit).resume
    (cr.lanesWhere (fun t => t.wait == some .monwait)) false

theorem Crew.thread_resume (cr : Crew) (lanes : Lanes) (l : Nat) : (cr.resume lanes false).thread? l =
    (cr.thread? l).map (fun t => if lanes.getLsbD l then t.goTo (slotAddr (slotIndex t.pc + 1)) cr.inHandler else t) :=
  Crew.thread_updThreads cr lanes (fun t => t.goTo (slotAddr (slotIndex t.pc + 1)) cr.inHandler) l

theorem resumed_monReleased (cr : Crew) (m : Monitor) (p : Park) (hit : Bool) : Resumed cr (cr.monReleased m p hit) .monwait := by
  intro l th _ hth
  have hl : (cr.monReleased m p hit).thread? l = some (if (cr.lanesWhere (fun t => t.wait == some .monwait)).getLsbD l then
      th.goTo (slotAddr (slotIndex th.pc + 1)) (monDone { cr with monitor := some { m with parked := none } } p.lanes p.pd hit).inHandler
      else th) := by
    rw [Crew.monReleased, Crew.thread_resume, Crew.thread?, threads_monDone]
    exact congrArg (Option.map _) hth
  refine ⟨_, hl, fun hw => ?_, fun hw => ?_⟩
  · rw [if_pos hw]
    exact ⟨rfl, rfl⟩
  · rw [if_neg (ne_true_of_eq_false hw)]

/-- A look at the word is due, unless it is a timeout's that has not expired. -/
theorem monLook_due {p : Park} {now : Nat} {timeout : Bool} (h : timeout = true → ∃ d, p.deadline = some d ∧ d ≤ now) :
    (timeout && !p.deadline.any (fun d => decide (d ≤ now))) = false := by
  cases timeout with
  | false => rfl
  | true =>
    obtain ⟨d, hp, hle⟩ := h rfl
    simp [hp, hle]

section
variable {b c w : Nat} {s s1 : State} {k : Block} {cr : Crew} {g : Grid} {m : Monitor} {p : Park}

/-- The crew `cr` of a block stands parked on its monitor `m`. -/
structure MonParkedAt (s : State) (b c : Nat) (k : Block) (cr : Crew) (g : Grid) (m : Monitor) (p : Park) : Prop where
  block : s.block? b = some k
  crew : s.crew? b c = some cr
  grid : s.grid? k.grid = some g
  monitor : cr.monitor = some m
  parked : m.parked = some p

variable (h : MonParkedAt s b c k cr g m p)
include h

theorem monLook_early (hd : ¬∃ d, p.deadline = some d ∧ d ≤ s.clock k.core) : monLook s b c true = s := by
  have hany : p.deadline.any (fun d => decide (d ≤ s.clock k.core)) = false := by
    cases hp : p.deadline with
    | none => rfl
    | some d => simpa using fun hle => hd ⟨d, hp, hle⟩
  simp only [monLook, h.block, h.crew, h.grid, h.monitor, h.parked, hany, Bool.not_false, Bool.and_self, if_true]

variable {timeout : Bool} (ht : timeout = true → ∃ d, p.deadline = some d ∧ d ≤ s.clock k.core)
include ht

/-- A look at the word, at its time: it lets the crew go on, or changes nothing but what the read does. -/
theorem monLook_ok (hr : monRead s g.ctx k m.space m.addr = .ok (w, s1)) : monLook s b c timeout =
    if (monCond p.cond w p.operand || timeout) = true then s1.setCrew b c (cr.monReleased m p (monCond p.cond w p.operand))
    else s1 := by
  simp only [monLook, h.block, h.crew, h.grid, h.monitor, h.parked, monLook_due ht, hr, Bool.false_eq_true, if_false]
  rfl

theorem monLook_error {e : AccFault} (hr : monRead s g.ctx k m.space m.addr = .error e) : monLook s b c timeout =
    if timeout = true then s.setCrew b c (cr.monReleased m p false) else s := by
  simp only [monLook, h.block, h.crew, h.grid, h.monitor, h.parked, monLook_due ht, hr, Bool.false_eq_true, if_false, Bool.false_or]
  rfl

end

/-- What the parked crew is when it goes on. -/
theorem monReleased_spec {i : Instr} {hit : Bool} {b c : Nat} {s s1 : State} {cr : Crew} (m : Monitor) (p : Park)
    (hc : s.crew? b c = some cr) (hf : FetchOnly s s1) (hx : exec i s = .next (s1.setCrew b c (cr.monReleased m p hit))) :
    ∃ t cr', exec i s = .next t ∧ t.crew? b c = some cr' ∧ SameBytes s t ∧ Resumed cr cr' .monwait ∧
      cr'.monitor = some { m with parked := none } ∧ cr'.acqs = cr.acqs ++ [⟨cr.seq + 1, false⟩] ∧
      (p.pd ≠ 15 → ∀ l, l < 32 → (cr'.getP p.pd).getLsbD l = if p.lanes.getLsbD l then hit else (cr.getP p.pd).getLsbD l) := by
  have hrest := (kept_monDone { cr with monitor := some { m with parked := none } } p.lanes p.pd hit).rest
  exact ⟨_, _, hx, State.crew_setCrew ((hf.crew b c).trans hc) _, hf.bytes.trans (sameBytes_setCrew _ _ _ _),
    resumed_monReleased cr m p hit, congrArg Crew.monitor hrest, congrArg Crew.acqs hrest,
    fun h15 l hl => getP_monDone _ _ _ h15 hl⟩

end Sys2Proof.Machine

open Sys2Proof Sys2Proof.Machine Sys2Proof.Claims

/-- Settles O33, an instruction and an event at a time: `monarm`, `monwait` that goes on and that parks, the wake and the timeout. -/
theorem monitors : Obligations.Monitors := by
  unfold Obligations.Monitors
  intro met
  have hmet : met = monCond := funext fun cond => funext fun w => funext fun b => (monCond_eq cond w b).symm
  clear_value met
  subst hmet
  refine ⟨?_, ?_⟩
  · intro f s s1 x w sp a seq ha hr
    refine ⟨fun h hm => ?_, fun h hm hc => ?_, fun h hm hc => ?_⟩
    · obtain ⟨t, cr, hx, hcr, hadv, hb, rfl⟩ := runs_monarm ha hr hm h
      exact ⟨t, _, hx, hcr, hadv, hb, (Kept.refl _).advance _ _ _⟩
    · obtain ⟨t, cr, hx, hcr, hadv, hb, rfl⟩ := runs_monwait ha hr hm h hc
      exact ⟨t, _, hx, hcr, hadv, hb, pathPred_monDone _, (kept_monDone_destP _).advance _ _ _⟩
    · have hf := fetchOnly_monRead hr
      refine ⟨_, monParked x f, monPark x f, exec_monwait_parks ha hr hm h hc, State.crew_setCrew ((hf.crew _ _).trans h.crew) _,
        hf.bytes.trans (sameBytes_setCrew _ _ _ _), ⟨fun _ _ _ => ⟨rfl, rfl⟩, fun _ => ⟨rfl, rfl⟩, rfl⟩, rfl, rfl, rfl, ?_,
        fun l th hl hth => ⟨_, thread_monParked hl hth, rfl, rfl⟩⟩
      rw [monPark, h.state]
  · intro b c s s1 k cr g m p w hb hcr hg hm hp released stays expired
    have h : MonParkedAt s b c k cr g m p := ⟨hb, hcr, hg, hm, hp⟩
    refine ⟨fun hr => ⟨fun hc => ?_, fun hc => ?_, fun he => ?_⟩, fun e hr => ⟨?_, fun he => ?_⟩, fun he => ?_⟩
    · refine monReleased_spec m p hcr (fetchOnly_monRead hr) (hit := true) (congrArg Host.Outcome.next ?_)
      rw [monLook_ok h (timeout := false) nofun hr, hc]
      rfl
    · have hf := fetchOnly_monRead hr
      refine ⟨s1, congrArg Host.Outcome.next ?_, hf.bytes, (hf.crew b c).trans hcr⟩
      rw [monLook_ok h (timeout := false) nofun hr, hc]
      rfl
    · refine monReleased_spec m p hcr (fetchOnly_monRead hr) (congrArg Host.Outcome.next ?_)
      rw [monLook_ok h (fun _ => he) hr, Bool.or_true, if_pos rfl]
    · exact ⟨s, congrArg Host.Outcome.next (monLook_error h (timeout := false) nofun hr), .refl s, hcr⟩
    · exact monReleased_spec m p hcr (.refl s) (congrArg Host.Outcome.next
        (monLook_error h (fun _ => he) hr))
    · exact ⟨s, congrArg Host.Outcome.next (monLook_early h he), .refl s, hcr⟩
end

section
/-! PROOFS. Steps of stream channels (R71, R72, R74–R77): what looking up a box's byte leaves, what one byte's move leaves, and
O29. -/

namespace Sys2Proof.Machine

open Sys2Proof Sys2Proof.Claims

/-! ## Where the bytes of a box lie (R71, R72) -/

theorem fetchOnly_streamPage {s t : State} {ctx va p base : Nat} {acc : Acc} {l : Layout} {f : InForce} {e : Option FmtEntry}
    (h : streamPage s ctx va acc l f = .ok (p, base, e, t)) : FetchOnly s t := by
  unfold streamPage at h
  split at h
  · cases h
  · cases h
  · next p' e' log b _ =>
    have hk : FetchOnly s (tlbKeep s ctx va (.ok p' e' log b)) := .of_tlbOnly (tlbOnly_tlbKeep _ _ _ _)
    dsimp only at h
    split at h
    · cases h
      exact hk
    · split at h
      · cases h
        exact hk
      · split at h
        · cases h
          exact hk
        · cases h
      · cases h

theorem fetchOnly_boxByte {s t : State} {ctx idx o : Nat} {acc : Acc} {l : Layout} {f : InForce} {r : Option (Nat × Nat)}
    (h : boxByte s ctx l f idx o acc = .ok (r, t)) : FetchOnly s t := by
  unfold boxByte at h
  split at h
  · split at h
    · cases h
      exact .refl _
    · dsimp only at h
      split at h
      · cases h
      · next hp =>
        cases h
        exact fetchOnly_streamPage hp
  · split at h
    · cases h
      exact .refl _
    · split at h
      · cases h
        exact .refl _
      · split at h
        · cases h
          exact .refl _
        · dsimp only at h
          split at h
          · cases h
          · next hp =>
            split at h
            · cases h
            · next hq =>
              cases h
              exact (fetchOnly_streamPage hp).trans (fetchOnly_physOf hq)

/-! ## One byte moves (R75, R76, R389) -/

theorem bayPlace_here {s : State} {k : Block} {ofs : Nat} {p : Place} (h : bayPlace s k ofs = some p) : ∀ b a, p ≠ .acc b a := by
  unfold bayPlace at h
  dsimp only at h
  split at h <;> cases h
  exact fun _ _ => nofun

/-- A byte of memory or of a scratchpad written after a look-up: its place reads it, no other place changes, and a word of
memory has no owner then. -/
theorem writeByte_spec {s s1 t : State} {p : Place} {v : Byte} (hf : FetchOnly s s1) (hp : ∀ b a, p ≠ .acc b a)
    (ht : FetchOnly (writePlace s1 p [v]) t) :
    readPlace t p 1 = [v] ∧ (∀ q, q ≠ p → readPlace t q 1 = readPlace s q 1) ∧ Disowned s t [p] := by
  have hrange : (List.range [v].length).map p.add = [p] := by cases p <;> rfl
  have hcopies : t.copies = s.copies := calc
    t.copies = (writePlace s1 p [v]).copies := by rw [ht]
    _ = s1.copies := (transferOnly_writePlace hp s1 [v]).copies
    _ = s.copies := by rw [hf]
  refine ⟨?_, fun q hq => ?_, OwnersAfter.disowned (fun w => ?_) ?_⟩
  · exact (ht.bytes p).trans (readPlace_writePlace_self (fun b a h => absurd h (hp b a)) [v])
  · rw [ht.bytes q, readPlace_writePlace_outside s1 (meets_of_not_mem (by rwa [hrange, List.mem_singleton])), hf.bytes q]
  · have howners : t.owners = (writePlace s1 p [v]).owners := by rw [ht]
    have hold : s1.owners = s.owners := by rw [hf]
    rw [howners, ← hold, ← hrange]
    exact ownersAfter_writePlace s1 hp one_pos w
  · exact hcopies

section
variable {s s1 : State} {k : Block} {ctx idx o pa va : Nat} {ch : Channel} {f : InForce} {q : Place}
  (ho : o < f.total) (hq : bayPlace s1 k (ch.lay.stage ch.moved + o) = some q)
include ho hq

theorem moveStage_fill (hb : boxByte s ctx ch.lay f idx o .read = .ok (some (pa, va), s1)) :
    moveStage s k ctx ch f idx 0 o 1 = .ok (hbmDone (writePlace s1 q [s1.mem.read1 pa]) (.g pa)) := by
  simp only [moveStage, if_neg (Nat.not_le.2 ho), if_true, hb, hq]

theorem moveStage_drain (hn : noLadders s1) (hb : boxByte s ctx ch.lay f idx o .write = .ok (some (pa, va), s1)) :
    moveStage s k ctx ch f idx 1 o 1 = .ok (hbmDone (writePlace s1 (.g pa) (readPlace s1 q 1)) (.g pa)) := by
  have hspoil : spoil (writePlace s1 (.g pa) (readPlace s1 q 1)) pa 1 = writePlace s1 (.g pa) (readPlace s1 q 1) :=
    spoil_noLadders (show noLadders (writePlace s1 (.g pa) (readPlace s1 q 1)) from hn) pa 1
  simp only [moveStage, if_neg (Nat.not_le.2 ho), if_neg one_ne_zero, hb, hq, cutCancels_noLadders hn, Bool.false_eq_true,
    if_false, hspoil]

end

/-! ## A channel's step (R75–R77) and its end (R74) -/

theorem lastChan_setChan (k : Core) (dir : Nat) (c : Option Channel) : lastChan (setChan k dir c) dir = c := by
  by_cases h : dir = 0 <;> simp [lastChan, setChan, h]

theorem chanOf_setChan (k : Core) (dir : Nat) (ch : Channel) :
    chanOf (setChan k dir (some ch)) dir = if ch.done then none else some ch := by
  rw [chanOf, lastChan_setChan]
  cases h : ch.done <;> simp [h]

theorem sp_setChan (k : Core) (dir : Nat) (c : Option Channel) : (setChan k dir c).sp = k.sp := by
  by_cases h : dir = 0 <;> simp [setChan, h]

theorem undone_of_chanOf {k : Core} {dir : Nat} {ch : Channel} (h : chanOf k dir = some ch) : ch.done = false := by
  simpa using (Option.filter_eq_some_iff.1 h).2

theorem sameBytes_setChan (s : State) (core dir : Nat) (c : Option Channel) :
    SameBytes s (s.setCore core (setChan (s.core core) dir c)) := sameBytes_setCore _ _ _ (sp_setChan _ _ _)

theorem chanMoves_iff {ch : Channel} {dir : Nat} : chanMoves ch dir = true ↔ ch.moved < ch.lay.iter ∧
    (if dir = 0 then ch.moved < ch.released + ch.lay.nstg else ch.moved < ch.handed) ∧ (ch.stopped = false ∨ ch.ptr ≠ 0) := by
  unfold chanMoves
  by_cases h : dir = 0 <;> simp [h, and_assoc]

/-- A channel that may move bytes: its operation goes on, and a stage of it is free, or handed over. -/
structure Moving (s : State) (core dir : Nat) (ch : Channel) (o : EngOp) (b : Block) : Prop where
  chan : chanOf (s.core core) dir = some ch
  op : op? s ch.op = some o
  block : s.block? ch.blk = some b
  undone : o.done = false
  fault : o.fault = none
  pf : o.pf = none
  moves : chanMoves ch dir = true

section
variable {s s1 : State} {core dir len : Nat} {ch : Channel} {o : EngOp} {b : Block} (h : Moving s core dir ch o b)
include h

/-- An iteration past the last box is passed over (R71). -/
theorem chanStep_empty (he : ch.lay.boxCount ≤ ch.start + ch.moved * ch.lay.nstep) : chanStep s core dir len =
    s.setCore core (setChan (s.core core) dir (some { ch with moved := ch.moved + 1, ptr := 0 })) := by
  have hbox : ch.boxOf ch.moved = none := if_neg (Nat.not_lt.2 he)
  simp only [chanStep, h.chan, h.op, h.block, h.undone, h.fault, h.pf, h.moves, hbox, Option.isSome_none, Bool.not_true,
    Bool.or_self, Bool.false_eq_true, if_false]

/-- The channel after bytes up to `p` of its iteration have moved (R77). -/
def Channel.movedTo (ch : Channel) (f : InForce) (p : Nat) : Channel :=
  if f.total ≤ p then { ch with moved := ch.moved + 1, ptr := 0 } else { ch with ptr := p }

/-- Bytes of a box move, from where the iteration stands on. -/
theorem chanStep_moves {f : InForce} (hbox : ch.start + ch.moved * ch.lay.nstep < ch.lay.boxCount) (hf : inForce ch.lay ch.fmt = some f)
    (hm : moveStage s b (opCtx s o) ch f (ch.start + ch.moved * ch.lay.nstep) dir ch.ptr (min (len + 1) (f.total - ch.ptr)) =
      .ok s1) : chanStep s core dir len = s1.setCore core (setChan (s1.core core) dir
        (some (ch.movedTo f (ptrAfter ch.lay f (ch.ptr + min (len + 1) (f.total - ch.ptr)))))) := by
  have hbox' : ch.boxOf ch.moved = some (ch.start + ch.moved * ch.lay.nstep) := if_pos hbox
  simp only [chanStep, h.chan, h.op, h.block, h.undone, h.fault, h.pf, h.moves, hbox', hf, hm, Option.isSome_none, Bool.not_true,
    Bool.or_self, Bool.false_eq_true, if_false]
  rfl

end

theorem done_movedTo (ch : Channel) (f : InForce) (p : Nat) : (ch.movedTo f p).done = ch.done := by
  unfold Channel.movedTo
  split <;> rfl

theorem exec_iteration {core dir len : Nat} {s : State} (h : dir < 2) :
    exec (if dir = 0 then .fillIteration core len else .drainIteration core len) s = .next (chanStep s core dir len) := by
  obtain rfl | rfl : dir = 0 ∨ dir = 1 := by omega
  · rfl
  · rfl

theorem exec_channelIdle {s : State} {core dir : Nat} {ch : Channel} (hc : chanOf (s.core core) dir = some ch)
    (ho : ∀ o, op? s ch.op = some o → o.done = true) (hr : dir = 0 → ch.stopped = true ∨ ch.moved ≤ ch.released) :
    exec (.channelIdle core dir) s = .next (s.setCore core (setChan (s.core core) dir (some { ch with done := true }))) := by
  have hop : (op? s ch.op).all (·.done) = true := by
    cases h : op? s ch.op with
    | none => rfl
    | some o => exact ho o h
  have hrel : (ch.stopped || dir != 0 || decide (ch.moved ≤ ch.released)) = true := by
    simp only [Bool.or_eq_true, bne_iff_ne, decide_eq_true_eq]
    by_cases h0 : dir = 0
    · exact (hr h0).elim (fun h => .inl (.inl h)) .inr
    · exact .inl (.inr h0)
  simp only [exec, execChannelIdle, hc, hop, hrel, Bool.and_self, if_true]

end Sys2Proof.Machine

open Sys2Proof Sys2Proof.Machine Sys2Proof.Claims

/-- Settles O29: an iteration that is empty, one that moves; a byte of a fill and of a drain; the channel's end. -/
theorem channelSteps : Obligations.ChannelSteps := by
  unfold Obligations.ChannelSteps
  refine ⟨?_,
    fun s s1 k ctx idx o pa va ch f q ho hq hn => ⟨fun hb => ?_, fun hb => ?_⟩, fun core dir s ch _ hc ho hr => ?_⟩
  · intro core dir len s ch o b hd i hc ho hb h1 h2 h3 h4 h5 h6
    have h : Moving s core dir ch o b := ⟨hc, ho, hb, h1, h2, h3, chanMoves_iff.2 ⟨h4, h5, h6⟩⟩
    refine ⟨fun he => ⟨_, exec_iteration hd, ?_, ?_⟩, fun f s1 hbox hf hm => ⟨_, exec_iteration hd, ?_, ?_⟩⟩
    · rw [chanStep_empty h he]
      exact sameBytes_setChan _ _ _ _
    · rw [chanStep_empty h he, State.core_setCore, chanOf_setChan, if_neg (ne_true_of_eq_false (undone_of_chanOf hc))]
    · rw [chanStep_moves h hbox hf hm]
      exact sameBytes_setChan _ _ _ _
    · have hdone := (done_movedTo ch f (ptrAfter ch.lay f (ch.ptr + min (len + 1) (f.total - ch.ptr)))).trans (undone_of_chanOf hc)
      rw [chanStep_moves h hbox hf hm, State.core_setCore, chanOf_setChan, if_neg (ne_true_of_eq_false hdone)]
      rfl
  · have hf := fetchOnly_boxByte hb
    obtain ⟨hin, hout, -⟩ := writeByte_spec hf (bayPlace_here hq) (fetchOnly_hbmDone _ (.g pa))
    have hmem : s1.mem = s.mem := by rw [hf]
    exact ⟨_, moveStage_fill ho hq hb, by rw [hin, hmem], hout⟩
  · have hf := fetchOnly_boxByte hb
    obtain ⟨v, hv⟩ := List.length_eq_one_iff.1 (length_readPlace s1 q 1)
    have hx := moveStage_drain ho hq hn hb
    rw [hv] at hx
    obtain ⟨hin, hout, hown⟩ := writeByte_spec (p := .g pa) hf (fun _ _ => nofun) (fetchOnly_hbmDone _ (.g pa))
    exact ⟨_, hx, hin.trans (hv.symm.trans (hf.bytes q)), hown, hout⟩
  · have hstep := exec_channelIdle hc ho hr
    refine ⟨_, hstep, sameBytes_setChan _ _ _ _, ?_, ?_⟩
    · rw [State.core_setCore, chanOf_setChan, if_pos rfl]
    · rw [State.core_setCore, lastChan_setChan]
end

section
/-! PROOFS. Refutation of O27. -/

namespace Sys2Proof.Machine

open Sys2Proof

/-- `stream.f s2, 0`. -/
def twinStream : FmtE := ⟨⟨false, 15⟩, 0, 0, 15, 0, 0, 0, 0, .v 0, false, .const 0, false, .s 2, false, .v 0⟩

/-- The layout record at 0x8000, word by word: one element at 0x9000, in raw format by override, in two stages of 256 bytes. -/
def twinRecord : List (Nat × Nat) :=
  [(0x8000, 0x9000), (0x8008, 0x1_0000_0001), (0x8010, 0x1_0000_0001), (0x8018, 1), (0x8028, 0x0101_0101_0000_0000),
    (0x8030, 0x0001_0000_0204_8001), (0x8038, 0x100_0000_0001)]

/-- A crew of one thread with the record's address in `s2`. -/
def twinCrew : Crew := { Crew.at_ 0x10000 1 0 0 1 0 none with s := [(2, 0x8000)], threads := [(0, standing 0 none)] }

def twinBlock : Block := Block.at_ 0 0 0 0 [0] [(0, twinCrew)] ⟨[], []⟩

/-- A faulted operation with the number that the next operation takes. -/
def twinOp : EngOp :=
  { id := 0, cls := 0, blk := 0, issuers := [], pkt := none, lanes := 1, kind := .copy [] none, ready := true, started := true,
    moved := [], stamped := false, fault := some (0x9000, 0), pf := none, done := false, engine := 0 }

def twinState : State :=
  { State.reset with
    mem := (probeTables ++ twinRecord).foldl (fun m e => m.write e.1 (leBytes 8 e.2)) ⟨[], []⟩
    ctxs := [(0, { desc := 64, ptroot := 0x1000, ftab := 0, qtab := 0, traph := 0, level := 0, debug := false, ovs := false,
                   leaving := false })]
    grids := [(0, probeGrid ⟨[], []⟩)]
    blocks := [(0, twinBlock)]
    ops := [twinOp]
    path := ⟨0, 0, 1, 0x10000, false, false⟩ }

def twinCx : Cx :=
  { s := twinState, b := 0, blk := twinBlock, g := probeGrid ⟨[], []⟩, c := 0, cr := twinCrew, pc := 0x10000, late := false,
    lanes := 1, act := 1 }

theorem ready_twinStream : Ready (.streamF twinStream) twinState twinCx where
  path := by rfl
  encoding := by decide +kernel
  place := rfl
  active := by decide
  blocks := by decide +kernel
  older := by decide
  full := by decide +kernel
  operands := by decide +kernel
  fold := by decide +kernel

/-- Does the record at an address keep the limits of R70, R72 and R73 for a path's block? -/
def recordStarts (s : State) (x : Cx) (a : Nat) : Bool :=
  ((fetchNat s x.g.ctx a 64).toOption.bind fun r => (layoutOf r.1).bind fun l => (selectFormat r.2 x.g.ctx l).toOption.bind fun q =>
    (inForce l q.1).filter (layoutFits q.2 x.blk l)).isSome

theorem toOption_eq_some {ε α : Type} {e : Except ε α} {a : α} : e.toOption = some a ↔ e = .ok a := by
  cases e <;> simp [Except.toOption]

theorem recordStarts_spec {s : State} {x : Cx} {a : Nat} (h : recordStarts s x a = true) : ∃ n s1 l b s2 inf,
    fetchNat s x.g.ctx a 64 = .ok (n, s1) ∧ layoutOf n = some l ∧ selectFormat s1 x.g.ctx l = .ok (b, s2) ∧
      inForce l b = some inf ∧ layoutFits s2 x.blk l inf = true := by
  obtain ⟨inf, h⟩ := Option.isSome_iff_exists.1 h
  simp only [Option.bind_eq_some_iff, toOption_eq_some, Option.filter_eq_some_iff] at h
  obtain ⟨⟨n, s1⟩, h1, l, h2, ⟨b, s2⟩, h3, h4, h5⟩ := h
  exact ⟨n, s1, l, b, s2, inf, h1, h2, h3, h4, h5⟩

end Sys2Proof.Machine

open Sys2Proof Sys2Proof.Machine Sys2Proof.Claims

/-- Refutes O27. A `stream` that starts notes in its operation whether the page of its base may be accessed (log 141), and finds
that operation by its number. Where an older operation has the same number (a list that the model never leaves so, but that the
statement admits), the older one's fault is lost, where the statement keeps every older operation as it was. -/
theorem not_streamIssue : ¬ Obligations.StreamIssue := by
  unfold Obligations.StreamIssue
  rintro ⟨h, -⟩
  obtain ⟨n, s1, l, b, s2, inf, h1, h2, h3, h4, h5⟩ :=
    recordStarts_spec (s := twinState) (x := twinCx) (a := twinCx.uni twinStream.a) (by decide +kernel)
  obtain ⟨t, cr, hx, -, -, ⟨⟨o, hops, -⟩, -⟩, -⟩ := h twinStream twinState s1 s2 twinCx (.streamF twinStream) 0 n l b inf
    (.inl ⟨rfl, rfl⟩) ready_twinStream (by decide +kernel) rfl rfl h1 h2 h3 h4 h5
  have hlost : seenAfter (exec (.streamF twinStream) twinState) (fun t => t.ops.head?.map (·.fault)) = some none := by
    decide +kernel
  have hkept : (twinState.ops ++ [o]).head?.map (·.fault) = some (some (0x9000, 0)) := rfl
  rw [seenAfter_of hx, hops, hkept] at hlost
  cases hlost
end

section
/-! PROOFS. Refutation of O48. -/

namespace Sys2Proof.Machine

open Sys2Proof

/-- `adrain.f32 acc0, s2, 0, sig=c0`: a signed drain of a tile to the scratchpad. -/
def signedDrain : FmtX :=
  { g := ⟨false, 15⟩, sat := 0, rnd := 0, ty := .f32, dst := 0, act := 0, kc := 0, spa := 0, spb := 0, skp := false, sg := true, cv := 0,
    a := .s 2, fa := false, b := .v 0, fb := false, c := .const 0, fc := false, d := .acc 0 }

/-- The least `f32` grant. -/
def drainGrant : Grant := ⟨0, 16, 16, 16, .f32, .f32⟩

/-- A crew of one thread. -/
def drainCrew : Crew := { Crew.at_ 0x10000 1 0 0 1 0 none with threads := [(0, standing 0 none)] }

/-- A block under the grant, none of whose convergence registers has a set of crews. -/
def drainBlock : Block := { Block.at_ 0 0 0 0 [0] [(0, drainCrew)] ⟨[], []⟩ with grant := some drainGrant }

def drainState : State :=
  { State.reset with
    grids := [(0, probeGrid ⟨[], []⟩)]
    blocks := [(0, drainBlock)]
    path := ⟨0, 0, 1, 0x10000, false, false⟩ }

def drainCx : Cx :=
  { s := drainState, b := 0, blk := drainBlock, g := probeGrid ⟨[], []⟩, c := 0, cr := drainCrew, pc := 0x10000, late := false,
    lanes := 1, act := 1 }

theorem ready_signedDrain : Ready (.adrain signedDrain) drainState drainCx where
  path := by rfl
  encoding := by decide +kernel
  place := rfl
  active := by decide
  blocks := by decide +kernel
  older := by decide
  full := by decide +kernel
  operands := by decide +kernel
  fold := by decide +kernel

end Sys2Proof.Machine

open Sys2Proof Sys2Proof.Machine Sys2Proof.Claims

/-- Refutes O48. A signature without a set raises `PROT` as every trap of its instruction does: with the access that `trapAcc` gives, which
for a drain to the scratchpad is a write (R351). The statement asks for a read of it, as of an `mma`. -/
theorem not_matrixIssue : ¬ Obligations.MatrixIssue := by
  unfold Obligations.MatrixIssue
  rintro ⟨-, -, -, -, -, h, -⟩
  obtain ⟨⟨va, t, hx, -, hcr, -⟩, -⟩ := h signedDrain (.adrain signedDrain) drainState drainCx ready_signedDrain rfl
    (.inr ⟨rfl, drainGrant, rfl, by decide +kernel, by decide +kernel, by decide +kernel⟩) ⟨rfl, rfl⟩ (.inr (.inl rfl))
  have hwrite : seenAfter (exec (.adrain signedDrain) drainState) (fun t => (t.crew? 0 0).map (fun cr => cr.trap.map (·.acc))) =
      some (some 1) := by decide +kernel
  have hread : (t.crew? 0 0).map (fun cr => cr.trap.map (·.acc)) = some (some 0) := congrArg (Option.map _) hcr
  rw [seenAfter_of hx, hread] at hwrite
  cases hwrite
end

section
/-! PROOFS. One rounding (R94, R95): the real number that a magnitude stands for, the multiple of a spacing that it rounds to,
and when it is tiny (R97). -/

namespace Sys2Proof.Machine

open Sys2Proof Sys2Proof.Claims

/-! ## Powers of two -/

theorem two_zpow_pos (e : ℤ) : (0 : ℝ) < 2 ^ e := zpow_pos two_pos e

theorem two_zpow_toNat {a b : ℤ} (h : a ≤ b) : (2 : ℝ) ^ b = 2 ^ (b - a).toNat * 2 ^ a := by
  rw [← zpow_natCast, ← zpow_add₀ two_ne_zero, Int.toNat_of_nonneg (by omega)]
  congr 1
  omega

/-- The exponent of the leading bit of a scaled number. -/
theorem mul_zpow_lt_iff {m : ℕ} (hm : m ≠ 0) (e n : ℤ) : (m : ℝ) * 2 ^ e < 2 ^ n ↔ e + Nat.log2 m < n := by
  have hlo : (2 : ℝ) ^ (e + Nat.log2 m) ≤ m * 2 ^ e := by
    rw [add_comm, zpow_add₀ two_ne_zero, zpow_natCast]
    exact mul_le_mul_of_nonneg_right (by exact_mod_cast Nat.log2_self_le hm) (two_zpow_pos e).le
  have hhi : (m : ℝ) * 2 ^ e < 2 ^ (e + Nat.log2 m + 1) := by
    rw [add_assoc, add_comm, zpow_add₀ two_ne_zero]
    refine mul_lt_mul_of_pos_right ?_ (two_zpow_pos e)
    exact_mod_cast Nat.lt_log2_self
  constructor
  · exact fun h => (zpow_lt_zpow_iff_right₀ one_lt_two).1 (hlo.trans_lt h)
  · exact fun h => hhi.trans_le (zpow_le_zpow_right₀ one_le_two (by omega))

/-! ## The real number of a magnitude -/

/-- A magnitude stands for `m * 2^e`, or with its sticky part for a number above it and below `(m + 1) * 2^e`. -/
def Mag.Is (x : Mag) (a : ℝ) : Prop :=
  ∃ t : ℝ, 0 ≤ t ∧ t < 1 ∧ (t = 0 ↔ x.st = false) ∧ a = (x.m + t) * 2 ^ x.e

theorem Mag.is_exact (m : ℕ) (e : ℤ) : (⟨m, e, false⟩ : Mag).Is (m * 2 ^ e) := ⟨0, le_rfl, zero_lt_one, by simp, by simp⟩

/-- A sticky part lies at least 32 bits below the spacing of a number of `p` significant bits. -/
def Mag.Fine (x : Mag) (p : ℕ) : Prop := x.st = true → p + 31 ≤ Nat.log2 x.m

theorem Mag.fine_exact (m : ℕ) (e : ℤ) (p : ℕ) : (⟨m, e, false⟩ : Mag).Fine p := fun h => nomatch h

theorem Mag.Is.top_le {x : Mag} {a : ℝ} (h : x.Is a) (hm : x.m ≠ 0) : 2 ^ x.top ≤ a := by
  obtain ⟨t, ht, -, -, rfl⟩ := h
  refine (not_lt.1 fun h => ?_ : (2 : ℝ) ^ x.top ≤ x.m * 2 ^ x.e).trans
    (mul_le_mul_of_nonneg_right (by linarith) (two_zpow_pos _).le)
  exact lt_irrefl x.top ((mul_zpow_lt_iff hm _ _).1 h)

theorem Mag.Is.lt_top {x : Mag} {a : ℝ} (h : x.Is a) : a < 2 ^ (x.top + 1) := by
  obtain ⟨t, -, ht, -, rfl⟩ := h
  have h1 : (x.m : ℝ) + 1 ≤ 2 ^ ((Nat.log2 x.m : ℤ) + 1) := by exact_mod_cast Nat.lt_log2_self
  rw [Mag.top, add_assoc, add_comm x.e, zpow_add₀ two_ne_zero]
  exact mul_lt_mul_of_pos_right (by linarith) (two_zpow_pos _)

/-! ## The direction of a rounding (R94, R95) -/

section Direction

variable {r sh : ℕ} {st : Bool} {t : ℝ} (h0 : 0 ≤ t) (h1 : t < 1) (ht : t = 0 ↔ st = false) (hsh : 0 < sh)

theorem pow_even_of_pos {sh : ℕ} (hsh : 0 < sh) : ∃ c, 2 ^ sh = 2 * c := ⟨2 ^ (sh - 1), by rw [← pow_succ']; congr 1; omega⟩

include h1 hsh in
theorem part_lt_half (h : 2 * r < 2 ^ sh) : (r + t) / 2 ^ sh < 1 / 2 := by
  obtain ⟨c, hc⟩ := pow_even_of_pos hsh
  have hr : (r : ℝ) + 1 ≤ c := by exact_mod_cast (by omega : r + 1 ≤ c)
  have hc' : (2 : ℝ) ^ sh = 2 * c := by exact_mod_cast hc
  rw [div_lt_div_iff₀ (by positivity) two_pos, hc']
  linarith

include h0 in
theorem half_lt_part (h : 2 ^ sh < 2 * r) : 1 / 2 < (r + t) / 2 ^ sh := by
  have hr : (2 : ℝ) ^ sh < 2 * r := by exact_mod_cast h
  rw [div_lt_div_iff₀ two_pos (by positivity)]
  linarith

theorem part_eq_half (h : 2 * r = 2 ^ sh) : (r + t) / 2 ^ sh = 1 / 2 + t / 2 ^ sh := by
  have hr : (2 : ℝ) ^ sh = 2 * r := by exact_mod_cast h.symm
  have hpos : (0 : ℝ) < 2 ^ sh := by positivity
  rw [add_div, add_left_inj, div_eq_div_iff hpos.ne' two_ne_zero, hr]
  ring

include h0 ht in
theorem part_pos_iff : 0 < (r + t) / 2 ^ sh ↔ (r != 0 || st) = true := by
  have hr : (0 : ℝ) ≤ r := r.cast_nonneg
  have hz : (r : ℝ) + t = 0 ↔ r = 0 ∧ st = false := by
    rw [← ht]
    constructor
    · intro h
      exact ⟨by exact_mod_cast (by linarith : (r : ℝ) = 0), by linarith⟩
    · rintro ⟨rfl, rfl⟩
      simp
  rw [div_pos_iff_of_pos_right (by positivity), lt_iff_le_and_ne]
  simp only [add_nonneg hr h0, true_and, ne_comm, ne_eq, hz]
  cases st <;> simp

include h0 h1 ht in
/-- The word's comparand of R95, of a part of a spacing whose sticky part lies below the 32 bits. -/
theorem floor_part (hs : st = true → 32 ≤ sh) : ⌊(2 : ℝ) ^ 32 * ((r + t) / 2 ^ sh)⌋ = (r * 2 ^ 32 / 2 ^ sh : ℕ) := by
  have hpos : (0 : ℝ) < 2 ^ sh := by positivity
  rw [Int.floor_eq_iff, ← mul_div_assoc, le_div_iff₀ hpos, div_lt_iff₀ hpos]
  have hlo : r * 2 ^ 32 / 2 ^ sh * 2 ^ sh ≤ r * 2 ^ 32 := Nat.div_mul_le_self _ _
  have hhi : r * 2 ^ 32 < (r * 2 ^ 32 / 2 ^ sh + 1) * 2 ^ sh := by
    rw [add_one_mul]; exact Nat.lt_div_mul_add (by positivity)
  generalize r * 2 ^ 32 / 2 ^ sh = n at hlo hhi ⊢
  have hlo' : (n : ℝ) * 2 ^ sh ≤ r * 2 ^ 32 := by exact_mod_cast hlo
  refine ⟨by push_cast; nlinarith, ?_⟩
  cases hst : st with
  | false =>
    have hhi' : (r : ℝ) * 2 ^ 32 < (n + 1) * 2 ^ sh := by exact_mod_cast hhi
    rw [ht.2 hst]
    push_cast
    linarith
  | true =>
    obtain ⟨c, rfl⟩ := Nat.exists_eq_add_of_le (hs hst)
    rw [pow_add, ← mul_assoc, mul_right_comm] at hhi
    have hr : (r : ℝ) + 1 ≤ (n + 1) * 2 ^ c := by
      exact_mod_cast Nat.lt_of_mul_lt_mul_right hhi
    rw [pow_add]
    push_cast
    nlinarith

include h0 h1 ht hsh in
/-- The model's direction of a rounding is R94's and R95's. -/
theorem roundsUp_iff (mode : ℕ) (neg odd : Bool) (word : ℕ) (hs : st = true → 32 ≤ sh) :
    roundsUp mode neg odd r sh st word = true ↔ MovesAway mode word neg odd ((r + t) / 2 ^ sh) := by
  have hpos : (0 : ℝ) < 2 ^ sh := by positivity
  have htie : t / 2 ^ sh = 0 ↔ st = false := by rw [div_eq_zero_iff, or_iff_left hpos.ne', ht]
  have hsplit : 0 ≤ t / 2 ^ sh := div_nonneg h0 hpos.le
  have hinex := part_pos_iff (r := r) (sh := sh) h0 ht
  match mode with
  | 0 =>
    rcases lt_trichotomy (2 * r) (2 ^ sh) with h | h | h
    · have hr := part_lt_half h1 hsh h
      simp [-one_div, roundsUp, MovesAway, Nat.compare_eq_lt.2 h, hr.not_gt, hr.ne]
    · rw [MovesAway, part_eq_half h]
      simp only [roundsUp, Nat.compare_eq_eq.2 h, lt_add_iff_pos_right, add_eq_left, htie]
      cases hst : st with
      | false => simp [htie.2 hst]
      | true =>
        have : t / 2 ^ sh ≠ 0 := fun h => by simp [htie.1 h] at hst
        simp [lt_of_le_of_ne hsplit this.symm]
    · simp [-one_div, roundsUp, MovesAway, Nat.compare_eq_gt.2 h, half_lt_part h0 h]
  | 1 => simp [roundsUp, MovesAway]
  | 2 => simp only [roundsUp, MovesAway, hinex, Bool.and_eq_true, Bool.not_eq_true']
  | 3 => simp only [roundsUp, MovesAway, hinex, Bool.and_eq_true]
  | 4 =>
    rcases lt_trichotomy (2 * r) (2 ^ sh) with h | h | h
    · simp [-one_div, roundsUp, MovesAway, Nat.compare_eq_lt.2 h, part_lt_half h1 hsh h]
    · rw [MovesAway, part_eq_half h]
      simp [roundsUp, Nat.compare_eq_eq.2 h, hsplit]
    · simp [-one_div, roundsUp, MovesAway, Nat.compare_eq_gt.2 h, (half_lt_part h0 h).le]
  | _ + 5 => simp only [roundsUp, MovesAway, floor_part h0 h1 ht hs, decide_eq_true_eq, Nat.cast_lt]

end Direction

/-- A number on the grid does not move. -/
theorem not_movesAway_zero (mode word : ℕ) (neg odd : Bool) : ¬MovesAway mode word neg odd 0 := by
  match mode with
  | 0 => simp [MovesAway]
  | 1 => simp [MovesAway]
  | 2 => simp [MovesAway]
  | 3 => simp [MovesAway]
  | 4 => simp [MovesAway]
  | _ + 5 => simp [MovesAway]

/-! ## The multiple of a spacing (R94) -/

/-- A number of the grid rounds to itself. -/
theorem steps_self (mode word base : ℕ) (neg : Bool) (q : ℤ) (k : ℕ) : Steps mode word base neg (k * 2 ^ q) q k k := by
  have hq := two_zpow_pos q
  refine ⟨le_rfl, mul_lt_mul_of_pos_right (by linarith) hq, fun h => absurd h ?_, fun _ => rfl⟩
  rw [mul_div_cancel_right₀ _ hq.ne', sub_self]
  exact not_movesAway_zero _ _ _ _

/-- The model's rounding at a spacing is the one of R94. -/
theorem roundAt_spec (mode : ℕ) (neg : Bool) {x : Mag} {a : ℝ} (h : x.Is a) {q : ℤ} (hs : x.st = true → x.e + 32 ≤ q)
    (base word : ℕ) : ∃ k, Steps mode word base neg a q k (roundAt mode neg x q base word).1 ∧
      ((roundAt mode neg x q base word).2 = true ↔ ((roundAt mode neg x q base word).1 : ℝ) * 2 ^ q ≠ a) := by
  obtain ⟨t, h0, h1, ht, rfl⟩ := h
  by_cases hq : q ≤ x.e
  · have hst : x.st = false := by
      by_contra hc
      have := hs (by simpa using hc)
      omega
    have hr : roundAt mode neg x q base word = (x.m * 2 ^ (x.e - q).toNat, false) := by rw [roundAt, if_pos hq, hst]
    have ha : ((x.m : ℝ) + t) * 2 ^ x.e = ((x.m * 2 ^ (x.e - q).toNat : ℕ) : ℝ) * 2 ^ q := by
      rw [ht.2 hst, two_zpow_toNat hq]
      push_cast
      ring
    rw [hr, ha]
    exact ⟨_, steps_self _ _ _ _ _ _, by simp⟩
  · set sh := (q - x.e).toNat with hshd
    have hsh : 0 < sh := by omega
    have hpos : (0 : ℝ) < 2 ^ sh := by positivity
    have hq2 := two_zpow_pos q
    set k := x.m / 2 ^ sh with hk
    set r := x.m % 2 ^ sh with hr
    have hm : (x.m : ℝ) = k * 2 ^ sh + r := by exact_mod_cast (Nat.div_add_mod' x.m (2 ^ sh)).symm
    have hra : (r : ℝ) + 1 ≤ 2 ^ sh := by exact_mod_cast Nat.mod_lt x.m (by positivity : 0 < 2 ^ sh)
    have hr0 : (0 : ℝ) ≤ r := r.cast_nonneg
    have ha : ((x.m : ℝ) + t) * 2 ^ x.e = (k + (r + t) / 2 ^ sh) * 2 ^ q := by
      rw [two_zpow_toNat (by omega : x.e ≤ q), ← hshd, hm]
      field_simp
      ring
    have hpart : ((x.m : ℝ) + t) * 2 ^ x.e / 2 ^ q - k = (r + t) / 2 ^ sh := by
      rw [ha, mul_div_cancel_right₀ _ hq2.ne', add_sub_cancel_left]
    have hp0 : 0 ≤ (r + t) / 2 ^ sh := div_nonneg (by linarith) hpos.le
    have hp1 : (r + t) / 2 ^ sh < 1 := by rw [div_lt_one hpos]; linarith
    have hup := roundsUp_iff (r := r) h0 h1 ht hsh mode neg (decide ((base + k) % 2 = 1)) word (fun h => by have := hs h; omega)
    have hres : roundAt mode neg x q base word =
        (if roundsUp mode neg (decide ((base + k) % 2 = 1)) r sh x.st word then k + 1 else k, r != 0 || x.st) := by
      rw [roundAt, if_neg hq, Nat.add_comm base]
      rfl
    have hinex := part_pos_iff (r := r) (sh := sh) h0 ht
    rw [hres]
    refine ⟨k, ⟨?_, ?_, fun h => ?_, fun h => ?_⟩, ?_⟩
    · rw [ha]; exact mul_le_mul_of_nonneg_right (by linarith) hq2.le
    · rw [ha]; exact mul_lt_mul_of_pos_right (by linarith) hq2
    · rw [hpart] at h
      exact if_pos (hup.2 h)
    · rw [hpart] at h
      exact if_neg (mt hup.1 h)
    · rw [ha, ← hinex]
      simp only [ne_eq, mul_eq_mul_right_iff, hq2.ne', or_false]
      by_cases hu : roundsUp mode neg (decide ((base + k) % 2 = 1)) r sh x.st word = true
      · have : 0 < (r + t) / 2 ^ sh := lt_of_le_of_ne hp0 (fun h0 => not_movesAway_zero _ _ _ _ (h0 ▸ hup.1 hu))
        simp only [hu, if_true, this, true_iff]
        push_cast
        intro hc
        linarith
      · simp only [hu, Bool.false_eq_true, if_false, left_eq_add]
        exact ⟨fun h => h.ne', fun h => lt_of_le_of_ne hp0 (Ne.symm h)⟩

end Sys2Proof.Machine
end

section
namespace Sys2Proof.Machine

open Sys2Proof Sys2Proof.Claims

/-! ## Rounding to the precision of a format (R94) -/

/-- The spacing of a format at a magnitude: `p` significant bits, or the spacing of the subnormal values. -/
def spacing (f : Fmt) (x : Mag) : ℤ := max (x.top - ((fmtPrec f : ℤ) - 1)) (fmtQmin f)

theorem zpow_add_nat (q : ℤ) (p : ℕ) : (2 : ℝ) ^ (q + (p : ℤ)) = (2 ^ p : ℕ) * 2 ^ q := by
  rw [add_comm, zpow_add₀ two_ne_zero, zpow_natCast, Nat.cast_pow, Nat.cast_two]

theorem zpow_add_pred {p : ℕ} (hp : 0 < p) (q : ℤ) : (2 : ℝ) ^ (q + ((p : ℤ) - 1)) = (2 ^ (p - 1) : ℕ) * 2 ^ q := by
  rw [← zpow_add_nat, Nat.cast_sub hp, Nat.cast_one]

/-- Number of significant bits of the multiple below a number of a given size. -/
theorem lt_prec {p : ℕ} {a : ℝ} {q : ℤ} {k : ℕ} (hk : (k : ℝ) * 2 ^ q ≤ a) (ha : a < 2 ^ (q + (p : ℤ))) : k < 2 ^ p := by
  rw [zpow_add_nat] at ha
  exact_mod_cast lt_of_mul_lt_mul_right (hk.trans_lt ha) (two_zpow_pos q).le

theorem prec_le {p : ℕ} (hp : 0 < p) {a : ℝ} {q : ℤ} {k : ℕ} (hk : a < ((k : ℝ) + 1) * 2 ^ q)
    (ha : 2 ^ (q + ((p : ℤ) - 1)) ≤ a) : 2 ^ (p - 1) ≤ k := by
  rw [zpow_add_pred hp] at ha
  have := lt_of_mul_lt_mul_right (ha.trans_lt hk) (two_zpow_pos q).le
  exact Nat.lt_succ_iff.1 (by exact_mod_cast this)

/-- The sticky part of a fine magnitude lies below the spacing. -/
theorem Mag.Fine.spacing {x : Mag} {p : ℕ} (h : x.Fine p) {q : ℤ} (hq : x.top - ((p : ℤ) - 1) ≤ q) :
    x.st = true → x.e + 32 ≤ q := fun hs => by
  have := h hs
  simp only [Mag.top] at hq
  omega

theorem Mag.m_ne_zero {x : Mag} {p : ℕ} (h : x.Fine p) (h0 : ¬(x.m = 0 ∧ x.st = false)) : x.m ≠ 0 := by
  intro hm
  have := h (by simpa [hm] using h0)
  rw [hm, Nat.log2_zero] at this
  omega

/-- The model's code magnitude is the one of a rounding of R94, and its flag says whether that is exact. -/
theorem roundMag_spec {f : Fmt} (hp : 0 < fmtPrec f) (mode word : ℕ) (neg : Bool) {x : Mag} {a : ℝ} (h : x.Is a)
    (hx : x.Fine (fmtPrec f)) : ∃ q k' inex, Rounds f mode word neg a q k' ∧
      roundMag f mode neg x word = (codeBase f q + k', inex) ∧ (inex = true ↔ (k' : ℝ) * 2 ^ q ≠ a) := by
  by_cases h0 : x.m = 0 ∧ x.st = false
  · have ha : a = ((0 : ℕ) : ℝ) * 2 ^ fmtQmin f := by
      obtain ⟨t, -, -, ht, rfl⟩ := h
      simp [h0.1, ht.2 h0.2]
    rw [ha]
    exact ⟨fmtQmin f, 0, false, ⟨0, le_rfl, by positivity, fun h => absurd h (lt_irrefl _), steps_self _ _ _ _ _ _⟩,
      by simp [roundMag, h0, codeBase], by simp⟩
  · have hm := Mag.m_ne_zero hx h0
    obtain ⟨k, hk, hi⟩ := roundAt_spec mode neg h (hx.spacing (le_max_left _ (fmtQmin f))) (codeBase f (spacing f x)) word
    have hb : (spacing f x - fmtQmin f).toNat * 2 ^ (fmtPrec f - 1) = codeBase f (spacing f x) := by
      have : fmtQmin f ≤ spacing f x := le_max_right _ _
      rw [codeBase, ← Int.toNat_of_nonneg (sub_nonneg.2 this), Int.natAbs_natCast, Int.toNat_natCast]
    have hr : roundMag f mode neg x word = (codeBase f (spacing f x) +
        (roundAt mode neg x (spacing f x) (codeBase f (spacing f x)) word).1,
        (roundAt mode neg x (spacing f x) (codeBase f (spacing f x)) word).2) := by
      rw [← hb, roundMag, if_neg h0]
      rfl
    refine ⟨spacing f x, _, _, ⟨k, le_max_right _ _, ?_, fun hq => ?_, hk⟩, hr, hi⟩
    · refine lt_prec hk.1 (h.lt_top.trans_le (zpow_le_zpow_right₀ one_le_two ?_))
      have : x.top - ((fmtPrec f : ℤ) - 1) ≤ spacing f x := le_max_left _ _
      omega
    · refine prec_le hp hk.2.1 ((zpow_le_zpow_right₀ one_le_two ?_).trans (h.top_le hm))
      have : x.top - ((fmtPrec f : ℤ) - 1) = spacing f x := by
        unfold spacing at hq ⊢
        omega
      omega

/-! ## Tiny numbers (R97) -/

/-- A number has one spacing at which it has `p` significant bits. -/
theorem spacing_unique {p : ℕ} (hp : 0 < p) {a : ℝ} {q r : ℤ} {k l : ℕ} (hk : 2 ^ (p - 1) ≤ k)
    (hk' : (k : ℝ) * 2 ^ q ≤ a) (hl : l < 2 ^ p) (hl' : a < ((l : ℝ) + 1) * 2 ^ r) : q ≤ r := by
  have h1 : (2 : ℝ) ^ (q + ((p : ℤ) - 1)) ≤ a := by
    rw [zpow_add_pred hp]
    exact (mul_le_mul_of_nonneg_right (by exact_mod_cast hk) (two_zpow_pos q).le).trans hk'
  have h2 : a < (2 : ℝ) ^ (r + (p : ℤ)) := by
    rw [zpow_add_nat]
    exact hl'.trans_le (mul_le_mul_of_nonneg_right (by exact_mod_cast hl) (two_zpow_pos r).le)
  have := (zpow_lt_zpow_iff_right₀ (one_lt_two (α := ℝ))).1 (h1.trans_lt h2)
  omega

/-- A rounding at a spacing has one result. -/
theorem steps_unique {mode word base : ℕ} {neg : Bool} {a : ℝ} {q : ℤ} {k k' l l' : ℕ} (h : Steps mode word base neg a q k k')
    (h' : Steps mode word base neg a q l l') : k = l ∧ k' = l' := by
  have hq := two_zpow_pos q
  obtain ⟨h1, h2, h3, h4⟩ := h
  obtain ⟨h1', h2', h3', h4'⟩ := h'
  have hkl : k < l + 1 := by exact_mod_cast lt_of_mul_lt_mul_right (h1.trans_lt h2') hq.le
  have hlk : l < k + 1 := by exact_mod_cast lt_of_mul_lt_mul_right (h1'.trans_lt h2) hq.le
  obtain rfl : k = l := by omega
  refine ⟨rfl, ?_⟩
  by_cases hm : MovesAway mode word neg (decide ((base + k) % 2 = 1)) (a / 2 ^ q - k)
  · rw [h3 hm, h3' hm]
  · rw [h4 hm, h4' hm]

theorem steps_le {mode word base : ℕ} {neg : Bool} {a : ℝ} {q : ℤ} {k k' : ℕ} (h : Steps mode word base neg a q k k') :
    k ≤ k' ∧ k' ≤ k + 1 := by
  by_cases hm : MovesAway mode word neg (decide ((base + k) % 2 = 1)) (a / 2 ^ q - k)
  · rw [h.2.2.1 hm]; omega
  · rw [h.2.2.2 hm]; omega

/-- A nonzero magnitude rounded to `p` significant bits, the exponent unbounded. -/
theorem roundAt_prec {p : ℕ} (hp : 0 < p) (mode : ℕ) (neg : Bool) {x : Mag} {a : ℝ} (h : x.Is a) (hx : x.Fine p) (hm : x.m ≠ 0)
    (base word : ℕ) : ∃ k, 2 ^ (p - 1) ≤ k ∧ k < 2 ^ p ∧
      Steps mode word base neg a (x.top - ((p : ℤ) - 1)) k (roundAt mode neg x (x.top - ((p : ℤ) - 1)) base word).1 ∧
      ((roundAt mode neg x (x.top - ((p : ℤ) - 1)) base word).2 = true ↔
        ((roundAt mode neg x (x.top - ((p : ℤ) - 1)) base word).1 : ℝ) * 2 ^ (x.top - ((p : ℤ) - 1)) ≠ a) := by
  obtain ⟨k, hk, hi⟩ := roundAt_spec mode neg h (hx.spacing le_rfl) base word
  refine ⟨k, prec_le hp hk.2.1 ?_, lt_prec hk.1 (h.lt_top.trans_le ?_), hk, hi⟩
  · exact (zpow_le_zpow_right₀ one_le_two (by omega)).trans (h.top_le hm)
  · exact zpow_le_zpow_right₀ one_le_two (by omega)

theorem isTiny_iff {f : Fmt} (hp : 0 < fmtPrec f) (mode word : ℕ) (neg : Bool) {x : Mag} {a : ℝ} (h : x.Is a)
    (hx : x.Fine (fmtPrec f)) : isTiny f mode neg x word = true ↔ Tiny f mode word neg a := by
  by_cases h0 : x.m = 0 ∧ x.st = false
  · have ha : a = 0 := by
      obtain ⟨t, -, -, ht, rfl⟩ := h
      simp [h0.1, ht.2 h0.2]
    simp only [isTiny, h0.1, h0.2, if_true, Bool.false_eq_true, false_iff]
    rintro ⟨q, k, k', hk, -, ⟨hk', -⟩, -⟩
    have hk0 : (0 : ℝ) < k := by exact_mod_cast (by positivity : 0 < 2 ^ (fmtPrec f - 1)).trans_le hk
    have := mul_pos hk0 (two_zpow_pos q)
    linarith
  · have hm := Mag.m_ne_zero hx h0
    set q := x.top - ((fmtPrec f : ℤ) - 1) with hq
    obtain ⟨k, hkl, hkp, hk, -⟩ := roundAt_prec hp mode neg h hx hm (codeBase f q) word
    set k' := (roundAt mode neg x q (codeBase f q) word).1 with hk'
    have hk0 : k' ≠ 0 := by
      have := (steps_le hk).1
      have : 0 < 2 ^ (fmtPrec f - 1) := by positivity
      omega
    have ht : isTiny f mode neg x word = true ↔ (k' : ℝ) * 2 ^ q < 2 ^ (1 - (fmtBias f : ℤ)) := by
      rw [mul_zpow_lt_iff hk0, isTiny, if_neg hm]
      exact decide_eq_true_iff
    rw [ht]
    refine ⟨fun hlt => ⟨q, k, k', hkl, hkp, hk, hlt⟩, ?_⟩
    rintro ⟨r, l, l', hl, hl2, hs, hlt⟩
    obtain rfl : r = q := le_antisymm (spacing_unique hp hl hs.1 hkp hk.2.1) (spacing_unique hp hkl hk.1 hl2 hs.2.1)
    rw [(steps_unique hk hs).2]
    exact hlt

/-! ## The values of codes (R85, R88) -/

/-- The value of a code magnitude. -/
def magRat (f : Fmt) (mag : ℕ) : ℚ := (ratOf (magValue f false mag)).getD 0

theorem ratOf_magValue (f : Fmt) (neg : Bool) (mag : ℕ) :
    ratOf (magValue f neg mag) = some ((if neg then -1 else 1) * magRat f mag) := by
  unfold magRat magValue
  simp only
  split <;> simp only [ratOf, Bool.false_eq_true, if_false, one_mul, Option.getD_some, mul_assoc]

theorem sign_magValue (f : Fmt) (neg : Bool) (mag : ℕ) : (magValue f neg mag).sign = neg := by
  unfold magValue
  simp only
  split <;> rfl

/-- The codes in the order of their values: those of one spacing follow each other, and the next spacing follows them. -/
theorem magRat_codeBase (f : Fmt) (hp : 0 < fmtPrec f) {q : ℤ} {k : ℕ} (hq : fmtQmin f ≤ q) (hk : k ≤ 2 ^ fmtPrec f)
    (hk' : fmtQmin f < q → 2 ^ (fmtPrec f - 1) ≤ k) : magRat f (codeBase f q + k) = k * 2 ^ q := by
  obtain ⟨d, rfl⟩ : ∃ d : ℕ, q = fmtQmin f + d := ⟨(q - fmtQmin f).toNat, by omega⟩
  have hpow : 2 ^ fmtPrec f = 2 * 2 ^ (fmtPrec f - 1) := by rw [← pow_succ']; congr 1; omega
  have hb : codeBase f (fmtQmin f + d) = 2 ^ (fmtPrec f - 1) * d := by simp [codeBase, mul_comm]
  have hT : 0 < 2 ^ (fmtPrec f - 1) := by positivity
  rw [hpow] at hk
  rw [hb]
  unfold magRat magValue
  simp only
  generalize 2 ^ (fmtPrec f - 1) = T at *
  rcases lt_trichotomy k T with h | rfl | h
  · obtain rfl : d = 0 := by
      by_contra hd
      have := hk' (by omega)
      omega
    rw [mul_zero, zero_add, Nat.div_eq_of_lt h, Nat.mod_eq_of_lt h]
    simp [ratOf]
  · have h1 : (k * d + k) / k = d + 1 := by rw [← Nat.mul_succ]; exact Nat.mul_div_cancel_left _ hT
    have h2 : (k * d + k) % k = 0 := by rw [← Nat.mul_succ]; exact Nat.mul_mod_right _ _
    rw [h1, h2, if_neg (by omega)]
    simp only [ratOf, Bool.false_eq_true, if_false, one_mul, Option.getD_some, add_zero]
    congr 2
    push_cast
    ring
  · rcases hk.lt_or_eq with hlt | rfl
    · obtain ⟨j, rfl⟩ := Nat.exists_eq_add_of_le h.le
      have h1 : (T * d + (T + j)) / T = d + 1 := by
        rw [← add_assoc, ← Nat.mul_succ, Nat.mul_add_div hT, Nat.div_eq_of_lt (by omega)]
      have h2 : (T * d + (T + j)) % T = j := by
        rw [← add_assoc, ← Nat.mul_succ, Nat.mul_add_mod, Nat.mod_eq_of_lt (by omega)]
      rw [h1, h2, if_neg (by omega)]
      simp only [ratOf, Bool.false_eq_true, if_false, one_mul, Option.getD_some]
      congr 2
      push_cast
      ring
    · have h1 : (T * d + 2 * T) / T = d + 2 := by
        rw [mul_comm 2 T, ← Nat.mul_add]; exact Nat.mul_div_cancel_left _ hT
      have h2 : (T * d + 2 * T) % T = 0 := by
        rw [mul_comm 2 T, ← Nat.mul_add]; exact Nat.mul_mod_right _ _
      rw [h1, h2, if_neg (by omega)]
      simp only [ratOf, Bool.false_eq_true, if_false, one_mul, Option.getD_some, add_zero]
      rw [show fmtQmin f + ((d + 2 : ℕ) : ℤ) - 1 = (fmtQmin f + d) + 1 by push_cast; ring, zpow_add_one₀ two_ne_zero]
      push_cast
      ring

/-- Every code magnitude is a multiple of its spacing, with all significant bits above the subnormal values. -/
theorem exists_codeBase (f : Fmt) (hp : 0 < fmtPrec f) (mag : ℕ) : ∃ q k, fmtQmin f ≤ q ∧ k < 2 ^ fmtPrec f ∧
    (fmtQmin f < q → 2 ^ (fmtPrec f - 1) ≤ k) ∧ mag = codeBase f q + k := by
  have hpow : 2 ^ fmtPrec f = 2 * 2 ^ (fmtPrec f - 1) := by rw [← pow_succ']; congr 1; omega
  have hT : 0 < 2 ^ (fmtPrec f - 1) := by positivity
  have hmod := Nat.mod_lt mag hT
  have hdm := Nat.div_add_mod mag (2 ^ (fmtPrec f - 1))
  by_cases hE : mag / 2 ^ (fmtPrec f - 1) = 0
  · refine ⟨fmtQmin f, mag, le_rfl, ?_, fun h => absurd h (lt_irrefl _), by simp [codeBase]⟩
    have := (Nat.div_eq_zero_iff_lt hT).1 hE
    omega
  · obtain ⟨d, hd⟩ := Nat.exists_eq_add_of_le' (Nat.one_le_iff_ne_zero.2 hE)
    refine ⟨fmtQmin f + d, 2 ^ (fmtPrec f - 1) + mag % 2 ^ (fmtPrec f - 1), by omega, by omega, fun _ => by omega, ?_⟩
    rw [hd] at hdm
    simp only [codeBase, add_sub_cancel_left, Int.natAbs_natCast]
    rw [mul_add_one, mul_comm] at hdm
    omega

theorem magRat_strictMono (f : Fmt) (hp : 0 < fmtPrec f) : StrictMono (magRat f) := by
  refine strictMono_nat_of_lt_succ (fun mag => ?_)
  obtain ⟨q, k, hq, hk, hk', rfl⟩ := exists_codeBase f hp mag
  rw [add_assoc, magRat_codeBase f hp hq hk.le hk', magRat_codeBase f hp hq hk (fun h => (hk' h).trans (by omega))]
  push_cast
  exact mul_lt_mul_of_pos_right (by linarith) (zpow_pos two_pos q)

@[simp] theorem magRat_zero (f : Fmt) (hp : 0 < fmtPrec f) : magRat f 0 = 0 := by
  have := magRat_codeBase f hp (le_refl (fmtQmin f)) (Nat.zero_le _) (fun h => absurd h (lt_irrefl _))
  simpa [codeBase] using this

end Sys2Proof.Machine
end

section
namespace Sys2Proof.Machine

open Sys2Proof Sys2Proof.Claims

/-! ## Codes of the formats with an exponent (R85, R88, R89) -/

theorem ieee_bounds {f : Fmt} (hf : fmtIsIeee f = true) : 0 < fmtPrec f ∧ fmtMaxMag f < fmtInfMag f ∧
    fmtInfMag f < 2 ^ (fmtBits f - 1) ∧ fmtIsB8 f = false ∧ fmtHasSign f = true ∧ fmtIsInt f = false := by
  cases f with
  | f64 | f32 | f16 | bf16 => decide
  | _ => exact absurd hf Bool.false_ne_true

/-- The bound of a format's code magnitudes. -/
def magBound (f : Fmt) : ℕ := 2 ^ (fmtBits f - if fmtHasSign f then 1 else 0)

theorem withSign_lt {f : Fmt} {neg : Bool} {mag : ℕ} (h : mag < magBound f) : withSign f neg mag < 2 ^ fmtBits f := by
  have hpow : 2 ^ fmtBits f = 2 * 2 ^ (fmtBits f - 1) := by
    rw [← pow_succ']; congr 1; have := fmtBits_pos f; omega
  unfold magBound at h
  unfold withSign
  cases hs : fmtHasSign f <;> simp only [hs, Bool.false_eq_true, if_true, if_false, Nat.sub_zero] at h
  · simpa using h
  · split <;> omega

theorem float_magBound {f : Fmt} (hf : fmtIsFloat f = true) :
    fmtMaxMag f < magBound f ∧ fmtInfMag f < magBound f ∧ fmtNan f < 2 ^ fmtBits f := by
  cases f with
  | b8 uns ext p => cases uns <;> cases ext <;> simp [fmtMaxMag, magBound, fmtInfMag, fmtNan, fmtBits, fmtHasSign]
  | f64 | f32 | f16 | bf16 => decide
  | _ => exact absurd hf Bool.false_ne_true

theorem numOf_ieee {f : Fmt} (hf : fmtIsIeee f = true) (code : ℕ) : numOf f code =
    if fmtInfMag f < code % 2 ^ fmtBits f % 2 ^ (fmtBits f - 1) then
      .nan (!((code % 2 ^ fmtBits f % 2 ^ (fmtBits f - 1)).testBit (fmtPrec f - 2)))
    else if code % 2 ^ fmtBits f % 2 ^ (fmtBits f - 1) = fmtInfMag f then
      .inf (decide (2 ^ (fmtBits f - 1) ≤ code % 2 ^ fmtBits f))
    else magValue f (decide (2 ^ (fmtBits f - 1) ≤ code % 2 ^ fmtBits f)) (code % 2 ^ fmtBits f % 2 ^ (fmtBits f - 1)) := by
  cases f with
  | f64 | f32 | f16 | bf16 => rfl
  | _ => exact absurd hf Bool.false_ne_true

/-- A code of an IEEE format, by its magnitude and its sign. -/
theorem numOf_withSign_ieee {f : Fmt} (hf : fmtIsIeee f = true) (neg : Bool) {mag : ℕ} (hm : mag < fmtInfMag f) :
    numOf f (withSign f neg mag) = magValue f neg mag := by
  obtain ⟨-, -, hinf, hb8, hsg, -⟩ := ieee_bounds hf
  have hw : withSign f neg mag = mag + (if neg then 2 ^ (fmtBits f - 1) else 0) := by
    cases neg <;> simp [withSign, hb8, hsg]
  have hlt : withSign f neg mag < 2 ^ fmtBits f := withSign_lt (by
    rw [magBound, hsg]
    exact hm.trans hinf)
  rw [numOf_ieee hf, Nat.mod_eq_of_lt hlt, hw]
  have hmod : (mag + (if neg then 2 ^ (fmtBits f - 1) else 0)) % 2 ^ (fmtBits f - 1) = mag := by
    cases neg <;> simp [Nat.mod_eq_of_lt (hm.trans hinf)]
  have hdec : decide (2 ^ (fmtBits f - 1) ≤ mag + (if neg then 2 ^ (fmtBits f - 1) else 0)) = neg := by
    cases neg <;> simp [hm.trans hinf]
  rw [hmod, hdec, if_neg hm.not_gt, if_neg hm.ne]

/-- A code of a binary8 format: zero has no sign, and an unsigned format has none (R88). -/
theorem numOf_withSign_b8 {uns ext : Bool} {p : BitVec 3} {neg : Bool} {mag : ℕ} (hm : mag ≤ fmtMaxMag (.b8 uns ext p))
    (hn : neg = true → mag ≠ 0 ∧ uns = false) : numOf (.b8 uns ext p) (withSign (.b8 uns ext p) neg mag) =
      magValue (.b8 uns ext p) neg mag := by
  cases uns with
  | true =>
    obtain rfl : neg = false := by
      cases neg with
      | true => simp at hn
      | false => rfl
    have hle : mag ≤ 0xFE := hm.trans (by cases ext <;> simp [fmtMaxMag])
    have hx : mag % 256 = mag := Nat.mod_eq_of_lt (by omega)
    have hff : mag ≠ 0xFF := by omega
    have hfe : (ext && mag == 0xFE) = false := by
      cases ext with
      | false => rfl
      | true => have : mag ≤ 0xFD := hm
                simp; omega
    simp [numOf, withSign, fmtBits, hx, hff, hfe]
  | false =>
    have hlt : mag ≤ 0x7F := hm.trans (by cases ext <;> simp [fmtMaxMag])
    have hext : (ext && mag == 0x7F) = false := by
      cases ext with
      | false => rfl
      | true => have : mag ≤ 0x7E := hm
                simp; omega
    have hw : withSign (.b8 false ext p) neg mag = mag + (if neg then 128 else 0) := by
      cases neg with
      | false => simp [withSign]
      | true => simp [withSign, fmtHasSign, fmtIsB8, fmtBits, (hn rfl).1]
    have hx : (mag + (if neg then 128 else 0)) % 256 = mag + (if neg then 128 else 0) := Nat.mod_eq_of_lt (by split <;> omega)
    have hmod : (mag + (if neg then 128 else 0)) % 128 = mag := by cases neg <;> simp <;> omega
    have hdec : decide (128 ≤ mag + (if neg then 128 else 0)) = neg := by cases neg <;> simp; omega
    have hnan : mag + (if neg then 128 else 0) ≠ 128 := by
      cases neg with
      | false => simp; omega
      | true => have := (hn rfl).1; simpa using this
    rw [hw]
    simp only [numOf, fmtBits, Nat.reducePow, hx, hmod, hdec, hnan, hext, Bool.false_eq_true, if_false]

theorem isFloat_cases {f : Fmt} (hf : fmtIsFloat f = true) : fmtIsIeee f = true ∨ ∃ uns ext p, f = .b8 uns ext p := by
  cases f with
  | b8 uns ext p => exact .inr ⟨uns, ext, p, rfl⟩
  | f64 | f32 | f16 | bf16 => exact .inl rfl
  | _ => exact absurd hf Bool.false_ne_true

/-- A code of a format with an exponent, by its magnitude and its sign. -/
theorem numOf_withSign {f : Fmt} (hf : fmtIsFloat f = true) {neg : Bool} {mag : ℕ} (hm : mag ≤ fmtMaxMag f)
    (hn : fmtIsB8 f = true → neg = true → mag ≠ 0 ∧ fmtHasSign f = true) :
    numOf f (withSign f neg mag) = magValue f neg mag := by
  rcases isFloat_cases hf with h | ⟨uns, ext, p, rfl⟩
  · exact numOf_withSign_ieee h neg (hm.trans_lt (ieee_bounds h).2.1)
  · exact numOf_withSign_b8 hm (fun h => ⟨(hn rfl h).1, by simpa [fmtHasSign] using (hn rfl h).2⟩)

/-- The greatest finite value is the greatest code's. -/
theorem maxOf_eq {f : Fmt} (hf : fmtIsFloat f = true) : maxOf f = magRat f (fmtMaxMag f) := by
  have h := numOf_withSign hf (neg := false) (le_refl _) (fun _ h => nomatch h)
  simp only [withSign, Bool.false_and, Bool.false_eq_true, if_false] at h
  rw [maxOf, h]
  rfl

/-- A code stands for its sign and its magnitude. -/
theorem codeIs_withSign {f : Fmt} (hf : fmtIsFloat f = true) {neg : Bool} {mag : ℕ} (hm : mag ≤ fmtMaxMag f)
    (hn : fmtIsB8 f = true → neg = true → mag ≠ 0 ∧ fmtHasSign f = true) :
    CodeIs f neg (magRat f mag) (withSign f neg mag) := by
  have h := numOf_withSign hf hm hn
  refine ⟨_, ⟨withSign_lt (hm.trans_lt (float_magBound hf).1), by rw [h]; exact ratOf_magValue f neg mag⟩, ?_, fun _ => ?_⟩
  · cases neg <;> simp
  · rw [h, sign_magValue]

/-! ## What a rounding delivers (R96, R97) -/

/-- The multiple of a rounding is at most what the next spacing begins with. -/
theorem rounds_le {f : Fmt} {mode word : ℕ} {neg : Bool} {a : ℝ} {q : ℤ} {k' : ℕ} (h : Rounds f mode word neg a q k') :
    fmtQmin f ≤ q ∧ k' ≤ 2 ^ fmtPrec f ∧ (fmtQmin f < q → 2 ^ (fmtPrec f - 1) ≤ k') := by
  obtain ⟨k, hq, hk, hk', hs⟩ := h
  have := steps_le hs
  exact ⟨hq, by omega, fun h => (hk' h).trans this.1⟩

/-- A rounding's result is the value of the code that it gives. -/
theorem magRat_rounds {f : Fmt} (hp : 0 < fmtPrec f) {mode word : ℕ} {neg : Bool} {a : ℝ} {q : ℤ} {k' : ℕ}
    (h : Rounds f mode word neg a q k') : (magRat f (codeBase f q + k') : ℝ) = k' * 2 ^ q := by
  obtain ⟨hq, hk, hk'⟩ := rounds_le h
  rw [magRat_codeBase f hp hq hk hk']
  push_cast
  rfl

theorem max_lt_iff {f : Fmt} (hf : fmtIsFloat f = true) (hp : 0 < fmtPrec f) {y : ℝ} {mag : ℕ} (h : (magRat f mag : ℝ) = y) :
    maxOf f < y ↔ fmtMaxMag f < mag := by
  rw [maxOf_eq hf, ← h, Rat.cast_lt, (magRat_strictMono f hp).lt_iff_lt]

theorem keepsMax_eq (mode : ℕ) (neg : Bool) : keepsMax mode neg = overflowToMax mode neg := by
  match mode with
  | 0 | 1 | 2 | 3 | _ + 4 => cases neg <;> rfl

theorem roundFlags_of {f : Fmt} (hp : 0 < fmtPrec f) {mode word : ℕ} {neg : Bool} {x : Mag} {a y : ℝ} (h : x.Is a)
    (hx : x.Fine (fmtPrec f)) {inex : Bool} (hi : inex = true ↔ y ≠ a) : RoundFlags f mode word neg a y
      (Flags.when inex Flags.inexact ||| Flags.when (inex && isTiny f mode neg x word) Flags.underflow) :=
  ⟨inex, isTiny f mode neg x word, hi, isTiny_iff hp mode word neg h hx, rfl⟩

/-- One rounding to an IEEE format. -/
theorem roundIeee_spec {f : Fmt} (hf : fmtIsIeee f = true) (mode word : ℕ) (neg : Bool) {x : Mag} {a : ℝ} (h : x.Is a)
    (hx : x.Fine (fmtPrec f)) : RoundedIeee f mode word neg a (roundIeee f mode neg x word) := by
  obtain ⟨hp, -, -, hb8, -, -⟩ := ieee_bounds hf
  have hfl : fmtIsFloat f = true := by rw [fmtIsFloat, hf, Bool.true_or]
  obtain ⟨q, k', inex, hr, hm, hi⟩ := roundMag_spec hp mode word neg h hx
  have hv := magRat_rounds hp hr
  have hmax := max_lt_iff hfl hp hv
  simp only [roundIeee, hm]
  refine ⟨q, k', hr, fun hle => ?_, fun hlt => ?_⟩
  · have hle' := mt hmax.2 hle.not_gt
    rw [if_neg hle']
    refine ⟨?_, roundFlags_of hp h hx hi⟩
    rw [← hv]
    exact codeIs_withSign hfl (not_lt.1 hle') (fun h => by rw [hb8] at h; cases h)
  · rw [if_pos (hmax.1 hlt), keepsMax_eq]

theorem rounds_code_eq_zero {f : Fmt} {mode word : ℕ} {neg : Bool} {a : ℝ} {q : ℤ} {k' : ℕ}
    (h : Rounds f mode word neg a q k') : codeBase f q + k' = 0 ↔ k' = 0 := by
  obtain ⟨hq, -, hk⟩ := rounds_le h
  refine ⟨by omega, fun h0 => ?_⟩
  have hT : 0 < 2 ^ (fmtPrec f - 1) := by positivity
  have : q = fmtQmin f := by
    by_contra hc
    have := hk (by omega)
    omega
  simp [this, h0, codeBase]

theorem rounds_zero {f : Fmt} {mode word : ℕ} {neg : Bool} {q : ℤ} {k' : ℕ} (h : Rounds f mode word neg 0 q k') : k' = 0 := by
  obtain ⟨k, -, -, -, hs⟩ := h
  have h0 := steps_self mode word (codeBase f q) neg q 0
  rw [Nat.cast_zero, zero_mul] at h0
  exact (steps_unique hs h0).2

/-- One rounding of a number to a binary8 format, the rows of R96 in their order. -/
theorem roundB8_spec (uns ext : Bool) {p : BitVec 3} (hp0 : p ≠ 0) (mode sat word : ℕ) (neg : Bool) (m : ℕ) (e : ℤ) :
    RoundedB8 (.b8 uns ext p) uns ext mode sat word neg (m * 2 ^ e)
      (roundB8 (.b8 uns ext p) mode sat (.fin neg m e) false word) := by
  have hp : 0 < fmtPrec (.b8 uns ext p) := Nat.pos_of_ne_zero (fun h => hp0 (BitVec.eq_of_toNat_eq h))
  have h := Mag.is_exact m e
  have hx := Mag.fine_exact m e (fmtPrec (.b8 uns ext p))
  obtain ⟨q, k', inex, hr, hm, hi⟩ := roundMag_spec hp mode word neg h hx
  have hv := magRat_rounds hp hr
  have h0 := rounds_code_eq_zero hr
  have hmax := max_lt_iff (f := .b8 uns ext p) rfl hp hv
  have ha : (m : ℝ) * 2 ^ e = 0 ↔ m = 0 := by simp [(two_zpow_pos e).ne']
  have hrow : (uns && neg && (codeBase (.b8 uns ext p) q + k' != 0)) = true ↔ uns = true ∧ neg = true ∧ k' ≠ 0 := by
    rw [Bool.and_eq_true, Bool.and_eq_true, bne_iff_ne, and_assoc, ne_eq, h0]
  simp only [roundB8, hm, fmtHasSign, Bool.not_not, ← keepsMax_eq]
  refine ⟨q, k', hr, fun hc => if_pos (hrow.2 hc), fun hc => ?_⟩
  rw [if_neg (mt hrow.1 hc)]
  refine ⟨fun hlt => ?_, fun hle => ?_⟩
  · rw [if_pos (hmax.1 hlt)]
    refine ⟨fun hs => if_neg ?_, fun hs hk => if_pos ?_⟩
    · rcases hs with hs | hs <;> simp [hs]
    · simp [hs, hk]
  · rw [if_neg (mt hmax.2 hle.not_gt)]
    refine ⟨fun hz => if_pos ⟨ha.1 hz, trivial⟩, fun hz hk => ?_, fun hk => ?_⟩
    · rw [if_neg (fun h => hz (ha.2 h.1)), if_pos (h0.2 hk)]
    · rw [if_neg (fun h => hk (rounds_zero (ha.2 h.1 ▸ hr))), if_neg (mt h0.1 hk)]
      refine ⟨?_, roundFlags_of hp h hx hi⟩
      rw [← hv]
      refine codeIs_withSign rfl (not_lt.1 (mt hmax.2 hle.not_gt)) (fun _ hn => ⟨mt h0.1 hk, ?_⟩)
      cases uns with
      | false => rfl
      | true => exact absurd ⟨rfl, hn, hk⟩ hc

/-- One rounding of a number to an integer format. -/
theorem roundInt_spec (f : Fmt) (mode word : ℕ) (neg : Bool) (m : ℕ) (e : ℤ) :
    RoundedInt f mode word neg (m * 2 ^ e) (roundInt f mode (.fin neg m e) false word) := by
  obtain ⟨k, hs, hi⟩ := roundAt_spec mode neg (Mag.is_exact m e) (q := 0) (fun h => nomatch h) 0 word
  refine ⟨k, _, hs, ?_⟩
  rw [zpow_zero, mul_one] at hi
  simp only [roundInt]
  generalize roundAt mode neg ⟨m, e, false⟩ 0 0 word = r at hi ⊢
  obtain ⟨k', inex⟩ := r
  simp only at hi ⊢
  set i : ℤ := if neg then -(k' : ℤ) else k'
  have hlh := intLo_le_intHi f
  by_cases ho : i < intLo f ∨ intHi f < i
  · rw [if_pos ho]
    refine ⟨wrapTo_lt _ _, fun _ => ⟨?_, rfl⟩, fun h1 h2 => by omega⟩
    cases neg
    · exact asInt_wrapTo hlh le_rfl
    · exact asInt_wrapTo le_rfl hlh
  · rw [if_neg ho]
    refine ⟨wrapTo_lt _ _, fun h => absurd h ho, fun h1 h2 => ⟨asInt_wrapTo h1 h2, ?_⟩⟩
    cases inex with
    | false => rw [if_pos (not_not.1 (mt hi.2 Bool.false_ne_true))]; rfl
    | true => rw [if_neg (hi.1 rfl)]; rfl

/-! ## What `roundTo` does in each kind of format -/

theorem roundTo_ieee_nan {f : Fmt} (hf : fmtIsIeee f = true) (mode sat word : ℕ) (sig st : Bool) :
    roundTo f mode sat (.nan sig) st word = (fmtNan f, Flags.when sig Flags.invalid) := by
  obtain ⟨-, -, -, hb8, -, hint⟩ := ieee_bounds hf
  rw [roundTo, hint, hb8]; rfl

theorem roundTo_ieee_inf {f : Fmt} (hf : fmtIsIeee f = true) (mode sat word : ℕ) (neg st : Bool) :
    roundTo f mode sat (.inf neg) st word = (withSign f neg (fmtInfMag f), 0) := by
  obtain ⟨-, -, -, hb8, -, hint⟩ := ieee_bounds hf
  rw [roundTo, hint, hb8]; rfl

theorem roundTo_ieee_fin {f : Fmt} (hf : fmtIsIeee f = true) (mode sat word : ℕ) (neg st : Bool) (m : ℕ) (e : ℤ) :
    roundTo f mode sat (.fin neg m e) st word = roundIeee f mode neg ⟨m, e, st⟩ word := by
  obtain ⟨-, -, -, hb8, -, hint⟩ := ieee_bounds hf
  rw [roundTo, hint, hb8]; rfl

theorem roundTo_b8 {f : Fmt} (hf : fmtIsB8 f = true) (mode sat word : ℕ) (v : Num) (st : Bool) :
    roundTo f mode sat v st word = roundB8 f mode sat v st word := by
  cases f with
  | b8 => rfl
  | _ => exact absurd hf Bool.false_ne_true

theorem roundTo_int {f : Fmt} (hf : fmtIsInt f = true) (mode sat word : ℕ) (v : Num) (st : Bool) :
    roundTo f mode sat v st word = roundInt f mode v st word := if_pos hf

end Sys2Proof.Machine

open Sys2Proof Sys2Proof.Machine Sys2Proof.Claims

/-- Settles O17, a kind of format at a time: `roundAt_spec` is the one rounding that all three share. -/
theorem roundingIsCorrect : Obligations.RoundingIsCorrect := by
  unfold Obligations.RoundingIsCorrect
  refine fun f mode word _ => ⟨fun hf => ?_, fun uns ext p sat hb hp _ _ => ?_, fun hf => ?_⟩
  · refine ⟨fun sig => roundTo_ieee_nan hf mode 0 word sig false, fun neg => roundTo_ieee_inf hf mode 0 word neg false, fun neg m e => ?_⟩
    rw [roundTo_ieee_fin hf]
    exact roundIeee_spec hf mode word neg (Mag.is_exact m e) (Mag.fine_exact m e _)
  · subst hb
    simp only [roundTo_b8 (f := .b8 uns ext p) rfl]
    refine ⟨fun sig => rfl, fun neg => ?_, roundB8_spec uns ext hp mode sat word⟩
    rw [roundB8, fmtHasSign, Bool.not_not]
  · simp only [roundTo_int hf]
    refine ⟨fun sig => rfl, fun neg => ⟨rfl, ?_⟩, roundInt_spec f mode word⟩
    have hlh := intLo_le_intHi f
    cases neg
    · exact asInt_wrapTo hlh le_rfl
    · exact asInt_wrapTo le_rfl hlh
end

section
/-! PROOFS. Exact values and quotients (R98, R234): roundings of numbers that a format holds, the approximations' two roundings,
integer square roots, quotients, and the special results of division, root, power and logarithm. -/

namespace Sys2Proof.Machine

open Sys2Proof Sys2Proof.Claims

/-! ## Numbers on the grid of a spacing -/

/-- A number on the grid of a spacing, or on a coarser one, rounds to itself there. -/
theorem steps_grid {mode word base : ℕ} {neg : Bool} {a : ℝ} {q r : ℤ} {k k' n : ℕ} (h : Steps mode word base neg a q k k')
    (ha : a = n * 2 ^ r) (hq : q ≤ r) : k = k' ∧ (k' : ℝ) * 2 ^ q = a := by
  have hg : a = ((n * 2 ^ (r - q).toNat : ℕ) : ℝ) * 2 ^ q := by
    rw [ha, two_zpow_toNat hq]
    push_cast
    ring
  rw [hg] at h ⊢
  obtain ⟨h1, h2⟩ := steps_unique h (steps_self _ _ _ _ _ _)
  exact ⟨h1.trans h2.symm, by rw [h2]⟩

/-- A number has one rounding of R94. -/
theorem rounds_unique {f : Fmt} (hp : 0 < fmtPrec f) {mode word : ℕ} {neg : Bool} {a : ℝ} {q r : ℤ} {k l : ℕ}
    (h : Rounds f mode word neg a q k) (h' : Rounds f mode word neg a r l) : q = r ∧ k = l := by
  have hle : ∀ {q r : ℤ} {k l : ℕ}, Rounds f mode word neg a q k → Rounds f mode word neg a r l → q ≤ r := by
    rintro q r _ _ ⟨k, -, -, hk, hs⟩ ⟨l, hr, hl, -, hs'⟩
    by_contra hc
    have := spacing_unique hp (hk (by omega)) hs.1 hl hs'.2.1
    omega
  obtain rfl : q = r := le_antisymm (hle h h') (hle h' h)
  obtain ⟨_, -, -, -, hs⟩ := h
  obtain ⟨_, -, -, -, hs'⟩ := h'
  exact ⟨rfl, (steps_unique hs hs').2⟩

/-- The value of a code rounds to that code, exactly. -/
theorem roundMag_code {f : Fmt} (hp : 0 < fmtPrec f) (mode word : ℕ) (neg : Bool) {x : Mag} {mag : ℕ}
    (h : x.Is (magRat f mag)) (hx : x.Fine (fmtPrec f)) : roundMag f mode neg x word = (mag, false) := by
  obtain ⟨q, k', inex, hr, hm, hi⟩ := roundMag_spec hp mode word neg h hx
  obtain ⟨r, l, hq, hl, hl', hmag⟩ := exists_codeBase f hp mag
  have hv : (magRat f mag : ℝ) = l * 2 ^ r := by
    rw [hmag, magRat_codeBase f hp hq hl.le hl']
    push_cast
    rfl
  have hr' : Rounds f mode word neg (magRat f mag) r l := ⟨l, hq, hl, hl', by rw [hv]; exact steps_self _ _ _ _ _ _⟩
  obtain ⟨rfl, rfl⟩ := rounds_unique hp hr hr'
  rw [hm, ← hmag, Prod.mk.injEq]
  exact ⟨rfl, Bool.eq_false_iff.2 (fun h => hi.1 h hv.symm)⟩

theorem roundIeee_code {f : Fmt} (hf : fmtIsIeee f = true) (mode word : ℕ) (neg : Bool) {x : Mag} {mag : ℕ}
    (h : x.Is (magRat f mag)) (hx : x.Fine (fmtPrec f)) (hm : mag ≤ fmtMaxMag f) :
    roundIeee f mode neg x word = (withSign f neg mag, 0) := by
  simp only [roundIeee, roundMag_code (ieee_bounds hf).1 mode word neg h hx, if_neg hm.not_gt]
  simp [Flags.when]

theorem ieee_maxMag {f : Fmt} (hf : fmtIsIeee f = true) : fmtInfMag f = fmtMaxMag f + 1 ∧
    fmtInfMag f = (2 * fmtBias f + 1) * 2 ^ (fmtPrec f - 1) ∧ 2 ^ fmtPrec f ≤ fmtMaxMag f ∧ fmtPrec f ≤ fmtBias f + 1 ∧
    fmtPrec f ≤ 53 ∧ fmtBias f ≤ 1023 ∧ 0 < fmtBias f ∧ fmtPrec f + fmtBias f < 2 ^ fmtPrec f + 2 := by
  cases f with
  | f64 | f32 | f16 | bf16 => decide
  | _ => exact absurd hf Bool.false_ne_true

/-- A finite code of an IEEE format, by its sign and magnitude. -/
theorem ieee_code_cases {f : Fmt} (hf : fmtIsIeee f = true) {c : ℕ} {z : ℚ} (h : ratOf (numOf f c) = some z) :
    ∃ neg mag, mag ≤ fmtMaxMag f ∧ numOf f c = magValue f neg mag ∧ z = (if neg then -1 else 1) * magRat f mag ∧
      (c < 2 ^ fmtBits f → c = withSign f neg mag) := by
  rw [numOf_ieee hf] at h ⊢
  obtain ⟨-, -, -, hb8, hsg, -⟩ := ieee_bounds hf
  have hmax := (ieee_maxMag hf).1
  split at h
  · cases h
  · rename_i h1
    split at h
    · cases h
    · rename_i h2
      rw [if_neg h1, if_neg h2]
      rw [ratOf_magValue] at h
      refine ⟨_, _, by omega, rfl, (Option.some.inj h).symm, fun hc => ?_⟩
      have hpow : 2 ^ fmtBits f = 2 * 2 ^ (fmtBits f - 1) := by
        rw [← pow_succ']; congr 1; have := fmtBits_pos f; omega
      rw [Nat.mod_eq_of_lt hc]
      by_cases ht : 2 ^ (fmtBits f - 1) ≤ c
      · have : c % 2 ^ (fmtBits f - 1) = c - 2 ^ (fmtBits f - 1) := by
          rw [Nat.mod_eq_sub_mod ht, Nat.mod_eq_of_lt (by omega)]
        simp only [withSign, ht, decide_true, hsg, hb8, Bool.and_self, Bool.false_and, Bool.not_false, if_true]
        omega
      · simp only [withSign, ht, decide_false, Bool.false_and, Bool.false_eq_true, if_false]
        rw [Nat.mod_eq_of_lt (by omega)]

theorem magRat_nonneg {f : Fmt} (hp : 0 < fmtPrec f) (mag : ℕ) : 0 ≤ magRat f mag := by
  rw [← magRat_zero f hp]
  exact (magRat_strictMono f hp).monotone (Nat.zero_le _)

/-- The first number past the greatest finite one. -/
theorem magRat_infMag {f : Fmt} (hf : fmtIsIeee f = true) : magRat f (fmtInfMag f) = 2 ^ (fmtBias f + 1) := by
  have hp := (ieee_bounds hf).1
  obtain ⟨-, hinf, -⟩ := ieee_maxMag hf
  have h := magRat_codeBase f hp (q := fmtQmin f + (2 * fmtBias f : ℕ)) (k := 2 ^ (fmtPrec f - 1)) (by omega)
    (Nat.pow_le_pow_right two_pos (by omega)) (fun _ => le_rfl)
  rw [codeBase, add_sub_cancel_left, Int.natAbs_natCast, ← add_one_mul, ← hinf] at h
  rw [h, Nat.cast_pow, Nat.cast_two, ← zpow_natCast, ← zpow_natCast, ← zpow_add₀ two_ne_zero]
  congr 1
  unfold fmtQmin
  push_cast [Nat.cast_sub hp]
  ring

/-- A small integer is a number of the format. -/
theorem exists_magRat_nat {f : Fmt} (hf : fmtIsIeee f = true) {n : ℕ} (hn : n < 2 ^ fmtPrec f) :
    ∃ mag, mag ≤ fmtMaxMag f ∧ magRat f mag = n := by
  have hp := (ieee_bounds hf).1
  obtain ⟨hmax, -, -, hpb, -, -, hb, -⟩ := ieee_maxMag hf
  obtain ⟨q, k', -, hr, -⟩ := roundMag_spec (f := f) hp 1 0 false (Mag.is_exact n 0) (Mag.fine_exact n 0 _)
  have hq : q ≤ 0 := by
    obtain ⟨k, -, -, hk, hs⟩ := hr
    by_contra hc
    have hqm : fmtQmin f < q := by unfold fmtQmin; omega
    have := spacing_unique (r := 0) hp (hk hqm) hs.1 hn (by rw [zpow_zero]; linarith)
    omega
  have hv : (magRat f (codeBase f q + k') : ℝ) = n := by
    rw [magRat_rounds hp hr]
    obtain ⟨k, -, -, -, hs⟩ := hr
    rw [(steps_grid hs rfl hq).2, zpow_zero, mul_one]
  have hvq : magRat f (codeBase f q + k') = n := by exact_mod_cast hv
  refine ⟨_, ?_, hvq⟩
  have hlt : magRat f (codeBase f q + k') < magRat f (fmtInfMag f) := by
    rw [hvq, magRat_infMag hf]
    exact_mod_cast hn.trans_le (Nat.pow_le_pow_right two_pos hpb)
  have := (magRat_strictMono f hp).lt_iff_lt.1 hlt
  omega

/-! ## Approximations (R98, R234) -/

/-- A number of few significant bits is exact in the format, or it is rounded to the spacing of the subnormal values, coarser
than its own. -/
theorem rounds_few {f : Fmt} (hp : 0 < fmtPrec f) {mode word : ℕ} {neg : Bool} {n k n' : ℕ} {q q' : ℤ} (hn : n ≤ fmtPrec f)
    (hk : k ≤ 2 ^ n) (h : Rounds f mode word neg (k * 2 ^ q) q' n') :
    (n' : ℝ) * 2 ^ q' = k * 2 ^ q ∨ (q' = fmtQmin f ∧ q < q') := by
  obtain ⟨l, hq', hl, hl', hs⟩ := h
  by_cases hq : q' ≤ q
  · exact .inl (steps_grid hs rfl hq).2
  by_cases hmin : q' = fmtQmin f
  · exact .inr ⟨hmin, by omega⟩
  left
  have hlow := hl' (by omega)
  rcases hk.lt_or_eq with hk | rfl
  · have hkp : k < 2 ^ fmtPrec f := hk.trans_le (Nat.pow_le_pow_right two_pos hn)
    have := spacing_unique (r := q) hp hlow hs.1 hkp (by
      have := two_zpow_pos q
      nlinarith)
    omega
  · have hle : q' + ((fmtPrec f : ℤ) - 1) ≤ q + n := by
      refine (zpow_le_zpow_iff_right₀ (one_lt_two (α := ℝ))).1 ?_
      rw [zpow_add_pred hp, zpow_add_nat]
      exact (mul_le_mul_of_nonneg_right (by exact_mod_cast hlow) (two_zpow_pos _).le).trans hs.1
    obtain rfl : q' = q + 1 := by omega
    refine (steps_grid (n := 2 ^ (n - 1)) (r := q + 1) hs ?_ le_rfl).2
    rw [zpow_add_one₀ two_ne_zero]
    obtain ⟨j, rfl⟩ := Nat.exists_eq_add_of_le' (show 1 ≤ n by omega)
    push_cast
    simp only [pow_succ]
    ring

/-- The rounding of `frcpa` and `frsqa`: to 12 significant bits, then to the range of the format. -/
theorem roundApprox_spec {f : Fmt} (hf : fmtIsIeee f = true) (neg : Bool) {x : Mag} {a : ℝ} (h : x.Is a)
    (hx : x.Fine (min 12 (fmtPrec f))) (hm : x.m ≠ 0) : ApproxIs f neg a (roundApprox f neg x) := by
  obtain ⟨hp, -, -, hb8, -, -⟩ := ieee_bounds hf
  obtain ⟨-, -, hmax, -⟩ := ieee_maxMag hf
  have hfl : fmtIsFloat f = true := by rw [fmtIsFloat, hf, Bool.true_or]
  have hn : 0 < min 12 (fmtPrec f) := by omega
  obtain ⟨k, hk, hk', hs, hi⟩ := roundAt_prec hn 0 neg h hx hm 0 0
  set q := x.top - (((min 12 (fmtPrec f) : ℕ) : ℤ) - 1) with hq
  obtain ⟨k', inex, hr⟩ : ∃ k' inex, roundAt 0 neg x q 0 0 = (k', inex) := ⟨_, _, rfl⟩
  rw [hr] at hs hi
  obtain ⟨q', n', inex2, hr2, hm2, hi2⟩ := roundMag_spec hp 0 0 neg (Mag.is_exact k' q) (Mag.fine_exact k' q _)
  have hv := magRat_rounds hp hr2
  have hfew := rounds_few hp (min_le_right _ _) (by have := (steps_le hs).2; omega : k' ≤ 2 ^ min 12 (fmtPrec f)) hr2
  have hover : maxOf f < (k' : ℝ) * 2 ^ q ↔ fmtMaxMag f < codeBase f q' + n' := by
    rw [← max_lt_iff hfl hp hv]
    rcases hfew with he | ⟨hqm, -⟩
    · rw [he]
    · rw [hqm] at hr2 ⊢
      have htop : (2 : ℝ) ^ (fmtQmin f + (fmtPrec f : ℤ)) ≤ maxOf f := by
        have h1 := magRat_codeBase f hp le_rfl le_rfl (fun h => absurd h (lt_irrefl (fmtQmin f)))
        rw [codeBase, sub_self, Int.natAbs_zero, zero_mul, zero_add] at h1
        rw [maxOf_eq hfl, zpow_add_nat]
        have := (magRat_strictMono f hp).monotone hmax
        rw [h1] at this
        have := (Rat.cast_le (K := ℝ)).2 this
        push_cast at this ⊢
        exact this
      have hn' := (rounds_le hr2).2.1
      obtain ⟨l, -, hl, -, hs2⟩ := hr2
      rw [zpow_add_nat] at htop
      have h1 : (l : ℝ) + 1 ≤ (2 ^ fmtPrec f : ℕ) := by exact_mod_cast hl
      have h2 : (n' : ℝ) ≤ (2 ^ fmtPrec f : ℕ) := by exact_mod_cast hn'
      have hpos := (two_zpow_pos (fmtQmin f)).le
      have hy := hs2.2.1.le.trans (mul_le_mul_of_nonneg_right h1 hpos)
      have hy' := mul_le_mul_of_nonneg_right h2 hpos
      exact ⟨fun h => absurd h (hy.trans htop).not_gt, fun h => absurd h (hy'.trans htop).not_gt⟩
  have hflag : (inex || inex2) = true ↔ (n' : ℝ) * 2 ^ q' ≠ a := by
    rw [Bool.or_eq_true, hi, hi2]
    by_cases he : (n' : ℝ) * 2 ^ q' = k' * 2 ^ q
    · simp [he]
    · obtain ⟨-, hlt⟩ := hfew.resolve_left he
      refine ⟨fun _ hc => ?_, fun _ => .inr he⟩
      exact he (hc.trans (steps_grid hs hc.symm hlt.le).2.symm)
  have hres : roundApprox f neg x = if fmtMaxMag f < codeBase f q' + n' then
      (withSign f neg (fmtInfMag f), Flags.overflow ||| Flags.inexact)
      else (withSign f neg (codeBase f q' + n'), Flags.when (inex || inex2) Flags.inexact ||| Flags.when inex2 Flags.underflow) := by
    have : (x.top - (((min 12 (fmtPrec f) : ℕ) : ℤ) - 1)) = q := rfl
    simp only [roundApprox, this, hr, hm2]
  rw [hres]
  refine ⟨q, k, k', hk, hk', hs, fun hlt => if_pos (hover.1 hlt), fun hle => ?_⟩
  have hle' := mt hover.2 hle.not_gt
  rw [if_neg hle']
  refine ⟨q', n', hr2, ?_, inex || inex2, inex2, hflag, hi2, rfl⟩
  rw [← hv]
  exact codeIs_withSign hfl (not_lt.1 hle') (fun h => by rw [hb8] at h; cases h)

/-! ## Integer square roots and quotients -/

theorem isqrtFrom_spec (x n : ℕ) : ∀ r, r * r ≤ x → x < (r + 2 ^ n) * (r + 2 ^ n) →
    isqrtFrom x n r * isqrtFrom x n r ≤ x ∧ x < (isqrtFrom x n r + 1) * (isqrtFrom x n r + 1) := by
  induction n with
  | zero => exact fun r h h' => ⟨h, h'⟩
  | succ n ih =>
    intro r h h'
    rw [isqrtFrom]
    have hsplit : r + 2 ^ (n + 1) = r + 2 ^ n + 2 ^ n := by rw [pow_succ]; omega
    by_cases ht : (r + 2 ^ n) * (r + 2 ^ n) ≤ x
    · simp only [ht, if_true]
      exact ih _ ht (by rwa [← hsplit])
    · simp only [ht, if_false]
      exact ih _ h (not_le.1 ht)

/-- The integer square root. -/
theorem isqrt_spec (x : ℕ) : isqrt x * isqrt x ≤ x ∧ x < (isqrt x + 1) * (isqrt x + 1) := by
  refine isqrtFrom_spec x _ 0 (Nat.zero_le _) (Nat.lt_log2_self.trans_le ?_)
  rw [zero_add, ← pow_add]
  exact Nat.pow_le_pow_right two_pos (by omega)

/-- A square root is at least a power of two whose square its number reaches. -/
theorem le_log2_isqrt {x n : ℕ} (h : 2 ^ (2 * n) ≤ x) : n ≤ Nat.log2 (isqrt x) ∧ isqrt x ≠ 0 := by
  have hlt : 2 ^ n < isqrt x + 1 := by
    refine lt_of_mul_self_lt_mul_self₀ (Nat.zero_le _) ?_
    rw [← pow_add, ← two_mul]
    exact h.trans_lt (isqrt_spec x).2
  have hne : isqrt x ≠ 0 := by have : 0 < 2 ^ n := by positivity
                               omega
  exact ⟨(Nat.le_log2 hne).2 (by omega), hne⟩

theorem le_log2_isqrt_shift {m s n : ℕ} (hm : m ≠ 0) (hs : 2 * n ≤ s) :
    n ≤ Nat.log2 (isqrt (m * 2 ^ s)) ∧ isqrt (m * 2 ^ s) ≠ 0 :=
  le_log2_isqrt ((Nat.pow_le_pow_right two_pos hs).trans (Nat.le_mul_of_pos_left _ (Nat.pos_of_ne_zero hm)))

/-- A magnitude is exact or has a sticky part by what it stands for, in units of its last place. -/
theorem Mag.is_of {m : ℕ} {e : ℤ} {st : Bool} {v : ℝ} (hlo : (m : ℝ) ≤ v) (hhi : v < m + 1) (hst : st = false ↔ v = m) :
    (⟨m, e, st⟩ : Mag).Is (v * 2 ^ e) :=
  ⟨v - m, by linarith, by linarith, by rw [sub_eq_zero]; exact hst.symm, by rw [add_sub_cancel]⟩

theorem log2_lt_pow (m : ℕ) : m < 2 ^ (Nat.log2 m + 1) := Nat.lt_log2_self

/-- The quotient of two magnitudes. -/
theorem magDiv_is {m1 m2 : ℕ} (e1 e2 : ℤ) (h2 : m2 ≠ 0) :
    (magDiv m1 e1 m2 e2).Is ((m1 * 2 ^ e1) / (m2 * 2 ^ e2)) := by
  set s := 160 + Nat.log2 m2 with hs
  have hpos : (0 : ℝ) < m2 := by exact_mod_cast Nat.pos_of_ne_zero h2
  have hv : (m1 * 2 ^ e1) / (m2 * 2 ^ e2) = ((m1 * 2 ^ s : ℕ) : ℝ) / m2 * 2 ^ (e1 - e2 - s) := by
    rw [zpow_sub₀ two_ne_zero, zpow_sub₀ two_ne_zero, zpow_natCast]
    have := two_zpow_pos e2
    push_cast
    field_simp
  rw [hv]
  refine Mag.is_of ?_ ?_ ?_
  · exact Nat.cast_div_le
  · rw [div_lt_iff₀ hpos]
    exact_mod_cast Nat.lt_mul_of_div_lt (Nat.lt_succ_self _) (Nat.pos_of_ne_zero h2)
  · have hdm := Nat.div_add_mod (m1 * 2 ^ s) m2
    rw [bne_eq_false_iff_eq, div_eq_iff hpos.ne']
    constructor
    · intro h0
      rw [h0, add_zero] at hdm
      exact_mod_cast (by rw [← hdm]; simp [mul_comm, h2] : m1 * 2 ^ s = m1 * 2 ^ s / m2 * m2)
    · intro h0
      have : m1 * 2 ^ s = m1 * 2 ^ s / m2 * m2 := by exact_mod_cast h0
      change m1 * 2 ^ s % m2 = 0
      rw [Nat.mul_comm m2] at hdm
      omega

theorem magDiv_fine {m1 m2 : ℕ} (e1 e2 : ℤ) (h1 : m1 ≠ 0) (h2 : m2 ≠ 0) : 159 ≤ Nat.log2 (magDiv m1 e1 m2 e2).m ∧
    (magDiv m1 e1 m2 e2).m ≠ 0 := by
  have hle : 2 ^ 159 ≤ m1 * 2 ^ (160 + Nat.log2 m2) / m2 := by
    rw [Nat.le_div_iff_mul_le (Nat.pos_of_ne_zero h2)]
    calc 2 ^ 159 * m2 ≤ 2 ^ 159 * 2 ^ (Nat.log2 m2 + 1) := Nat.mul_le_mul_left _ (log2_lt_pow m2).le
      _ = 2 ^ (160 + Nat.log2 m2) := by rw [← pow_add]; congr 1; omega
      _ ≤ m1 * 2 ^ (160 + Nat.log2 m2) := Nat.le_mul_of_pos_left _ (Nat.pos_of_ne_zero h1)
  have hne : m1 * 2 ^ (160 + Nat.log2 m2) / m2 ≠ 0 := (lt_of_lt_of_le (by positivity) hle).ne'
  exact ⟨(Nat.le_log2 hne).2 hle, hne⟩

/-- The square root of a magnitude. -/
theorem magSqrt_is (m : ℕ) (e : ℤ) : (magSqrt m e).Is (Real.sqrt (m * 2 ^ e)) := by
  obtain ⟨s, hs, c, hc⟩ : ∃ s : ℕ, s = (if e % 2 = 0 then 320 else 321) ∧ ∃ c, e - s = 2 * c := by
    by_cases he : e % 2 = 0
    · exact ⟨320, (if_pos he).symm, (e - 320) / 2, by omega⟩
    · exact ⟨321, (if_neg he).symm, (e - 321) / 2, by omega⟩
  have hm : magSqrt m e = ⟨isqrt (m * 2 ^ s), c, isqrt (m * 2 ^ s) * isqrt (m * 2 ^ s) != m * 2 ^ s⟩ := by
    rw [magSqrt, ← hs, hc, Int.mul_ediv_cancel_left _ two_ne_zero]
  have hv : Real.sqrt (m * 2 ^ e) = Real.sqrt ((m * 2 ^ s : ℕ) : ℝ) * 2 ^ c := by
    rw [← Real.sqrt_sq (two_zpow_pos c).le, ← Real.sqrt_mul (Nat.cast_nonneg _), ← zpow_natCast, ← zpow_mul, Nat.cast_two,
      mul_comm c, ← hc, zpow_sub₀ two_ne_zero, zpow_natCast]
    congr 1
    push_cast
    field_simp
  obtain ⟨h1, h2⟩ := isqrt_spec (m * 2 ^ s)
  rw [hm, hv]
  refine Mag.is_of (Real.le_sqrt_of_sq_le (by exact_mod_cast (sq _).trans_le h1)) ?_ ?_
  · rw [Real.sqrt_lt' (by positivity)]
    exact_mod_cast h2.trans_eq (sq _).symm
  · rw [bne_eq_false_iff_eq, Real.sqrt_eq_iff_mul_self_eq (Nat.cast_nonneg _) (Nat.cast_nonneg _)]
    rw [eq_comm]
    norm_cast

theorem magSqrt_fine {m : ℕ} (e : ℤ) (hm : m ≠ 0) : 160 ≤ Nat.log2 (magSqrt m e).m :=
  (le_log2_isqrt_shift hm (by split <;> omega)).1

end Sys2Proof.Machine
end

section
namespace Sys2Proof.Machine

open Sys2Proof Sys2Proof.Claims

/-! ## Finite numbers -/

/-- A finite number, by its parts. -/
theorem ratOf_eq_some {v : Num} {q : ℚ} (h : ratOf v = some q) : ∃ n m e, v = .fin n m e ∧ q = (if n then -1 else 1) * m * 2 ^ e := by
  cases v with
  | fin n m e => exact ⟨n, m, e, rfl, (Option.some.inj h).symm⟩
  | nan | inf => cases h

section Parts

variable {n : Bool} {m : ℕ} {e : ℤ} {q : ℚ} (h : q = (if n then -1 else 1) * m * 2 ^ e)
include h

theorem parts_eq_zero : q = 0 ↔ m = 0 := by
  have : ((2 : ℚ) ^ e) ≠ 0 := (zpow_pos two_pos e).ne'
  rw [h]
  cases n <;> simp [this]

theorem abs_parts : |(q : ℝ)| = m * 2 ^ e := by
  have := two_zpow_pos e
  rw [h]
  push_cast
  cases n <;> simp [abs_mul, abs_of_pos this]

theorem parts_of_pos (hq : 0 < q) : n = false ∧ m ≠ 0 := by
  have h2 : (0 : ℚ) < 2 ^ e := zpow_pos two_pos e
  refine ⟨?_, fun h0 => hq.ne' ((parts_eq_zero h).2 h0)⟩
  cases n with
  | false => rfl
  | true =>
    rw [h, if_pos rfl, mul_assoc, neg_one_mul] at hq
    have := mul_nonneg (Nat.cast_nonneg (α := ℚ) m) h2.le
    linarith

theorem parts_of_neg (hq : q < 0) : n = true ∧ m ≠ 0 := by
  have h2 : (0 : ℚ) < 2 ^ e := zpow_pos two_pos e
  refine ⟨?_, fun h0 => hq.ne ((parts_eq_zero h).2 h0)⟩
  cases n with
  | true => rfl
  | false =>
    rw [h, if_neg Bool.false_ne_true, one_mul] at hq
    have := mul_nonneg (Nat.cast_nonneg (α := ℚ) m) h2.le
    linarith

end Parts

theorem sigFlag_one (v : Num) : sigFlag [v] = Flags.when v.isSig Flags.invalid := by simp [sigFlag, Flags.when]

theorem sigFlag_two (v w : Num) : sigFlag [v, w] = Flags.when (v.isSig || w.isSig) Flags.invalid := by simp [sigFlag, Flags.when]

theorem isNan_iff {v : Num} : v.isNan = true ↔ ∃ s, v = .nan s := by cases v <;> simp [Num.isNan]

/-! ## `fdiv` (R234) -/

section Division

variable {f : Fmt} {mode word a b : ℕ}

theorem fpDiv_nan (h : (numOf f a).isNan = true ∨ (numOf f b).isNan = true) :
    fpDiv f mode word a b = (fmtNan f, sigFlag [numOf f a, numOf f b]) := by
  rw [sigFlag_two]
  unfold fpDiv
  rcases h with h | h
  · obtain ⟨s, h⟩ := isNan_iff.1 h
    rw [h]
  · obtain ⟨s, h⟩ := isNan_iff.1 h
    rw [h]
    cases numOf f a <;> rfl

theorem fpDiv_fin {n1 n2 : Bool} {m1 m2 : ℕ} {e1 e2 : ℤ} (ha : numOf f a = .fin n1 m1 e1) (hb : numOf f b = .fin n2 m2 e2) :
    fpDiv f mode word a b =
      if m2 = 0 then
        if m1 = 0 then (fmtNan f, Flags.invalid) else (withSign f (xor n1 n2) (fmtInfMag f), Flags.divZero)
      else if m1 = 0 then (withSign f (xor n1 n2) 0, 0)
      else roundIeee f mode (xor n1 n2) (magDiv m1 e1 m2 e2) word := by
  simp only [fpDiv, ha, hb, Num.sign]

theorem fpDiv_inf_inf {n1 n2 : Bool} (ha : numOf f a = .inf n1) (hb : numOf f b = .inf n2) :
    fpDiv f mode word a b = (fmtNan f, Flags.invalid) := by simp only [fpDiv, ha, hb]

theorem fpDiv_fin_inf {n1 n2 : Bool} {m : ℕ} {e : ℤ} (ha : numOf f a = .fin n1 m e) (hb : numOf f b = .inf n2) :
    fpDiv f mode word a b = (withSign f (xor n1 n2) 0, 0) := by simp only [fpDiv, ha, hb, Num.sign]

theorem fpDiv_inf_fin {n1 n2 : Bool} {m : ℕ} {e : ℤ} (ha : numOf f a = .inf n1) (hb : numOf f b = .fin n2 m e) :
    fpDiv f mode word a b = (withSign f (xor n1 n2) (fmtInfMag f), 0) := by simp only [fpDiv, ha, hb, Num.sign]

/-- The quotient of two nonzero numbers is rounded once. -/
theorem fpDiv_rounded (hf : fmtIsIeee f = true) {p q : ℚ} (ha : ratOf (numOf f a) = some p) (hb : ratOf (numOf f b) = some q)
    (hp : p ≠ 0) (hq : q ≠ 0) :
    RoundedIeee f mode word (xor (numOf f a).sign (numOf f b).sign) |(p : ℝ) / q| (fpDiv f mode word a b) := by
  obtain ⟨n1, m1, e1, ha, hp'⟩ := ratOf_eq_some ha
  obtain ⟨n2, m2, e2, hb, hq'⟩ := ratOf_eq_some hb
  have h1 := mt (parts_eq_zero hp').2 hp
  have h2 := mt (parts_eq_zero hq').2 hq
  rw [fpDiv_fin ha hb, if_neg h2, if_neg h1, ha, hb, abs_div, abs_parts hp', abs_parts hq']
  refine roundIeee_spec hf mode word _ (magDiv_is e1 e2 h2) (fun _ => ?_)
  have := (magDiv_fine e1 e2 h1 h2).1
  have := (ieee_maxMag hf).2.2.2.2.1
  omega

end Division

/-! ## The functions of one operand -/

section Functions

variable {f : Fmt} {mode word a : ℕ}

theorem fpSqrt_fin {n : Bool} {m : ℕ} {e : ℤ} (ha : numOf f a = .fin n m e) : fpSqrt f mode word a =
    if m = 0 then (withSign f n 0, 0) else if n then (fmtNan f, Flags.invalid) else roundIeee f mode false (magSqrt m e) word := by
  simp only [fpSqrt, ha]

/-- The root of a positive number is rounded once. -/
theorem fpSqrt_rounded (hf : fmtIsIeee f = true) {q : ℚ} (ha : ratOf (numOf f a) = some q) (hq : 0 < q) :
    RoundedIeee f mode word false (Real.sqrt q) (fpSqrt f mode word a) := by
  obtain ⟨n, m, e, ha, hq'⟩ := ratOf_eq_some ha
  obtain ⟨rfl, hm⟩ := parts_of_pos hq' hq
  have hv : (q : ℝ) = m * 2 ^ e := by rw [← abs_parts hq', abs_of_pos (by exact_mod_cast hq)]
  rw [fpSqrt_fin ha, if_neg hm, if_neg Bool.false_ne_true, hv]
  refine roundIeee_spec hf mode word _ (magSqrt_is m e) (fun _ => ?_)
  have := magSqrt_fine e hm
  have := (ieee_maxMag hf).2.2.2.2.1
  omega

theorem fpRcpA_fin {n : Bool} {m : ℕ} {e : ℤ} (ha : numOf f a = .fin n m e) : fpRcpA f a =
    if m = 0 then (withSign f n (fmtInfMag f), Flags.divZero) else roundApprox f n (magDiv 1 0 m e) := by
  simp only [fpRcpA, ha]

/-- The reciprocal of a nonzero number. -/
theorem fpRcpA_rounded (hf : fmtIsIeee f = true) {q : ℚ} (ha : ratOf (numOf f a) = some q) (hq : q ≠ 0) :
    ApproxIs f (numOf f a).sign |1 / (q : ℝ)| (fpRcpA f a) := by
  obtain ⟨n, m, e, ha, hq'⟩ := ratOf_eq_some ha
  have hm := mt (parts_eq_zero hq').2 hq
  obtain ⟨hl, hd⟩ := magDiv_fine 0 e one_ne_zero hm
  have hv : |1 / (q : ℝ)| = ((1 : ℕ) * 2 ^ (0 : ℤ)) / (m * 2 ^ e) := by rw [abs_div, abs_parts hq']; simp
  rw [fpRcpA_fin ha, if_neg hm, ha, hv]
  exact roundApprox_spec hf _ (magDiv_is 0 e hm) (fun _ => by omega) hd

/-- The magnitude of a reciprocal square root: 1/√v = √(2^2k / v) / 2^k, with the even part `2 * c` of the exponent of `v`. -/
def magRsq (m : ℕ) (c : ℤ) : Mag :=
  let h := Nat.log2 m / 2
  let r := isqrt (2 ^ (640 + 2 * h) / m)
  ⟨r, -c - (320 + (h : ℕ) : ℤ), !(r * r * m == 2 ^ (640 + 2 * h))⟩

theorem magRsq_is {m : ℕ} (hm : m ≠ 0) (c : ℤ) : (magRsq m c).Is (1 / Real.sqrt (m * 2 ^ (2 * c))) := by
  set h := Nat.log2 m / 2 with hh
  set N := 2 ^ (640 + 2 * h) with hN
  set r := isqrt (N / m) with hr
  have hpos : (0 : ℝ) < m := by exact_mod_cast Nat.pos_of_ne_zero hm
  have hv : 1 / Real.sqrt (m * 2 ^ (2 * c)) = Real.sqrt ((N : ℝ) / m) * 2 ^ (-c - (320 + (h : ℕ) : ℤ)) := by
    have h2 : Real.sqrt ((2 : ℝ) ^ (2 * c)) = 2 ^ c := by
      rw [mul_comm, zpow_mul, zpow_two, ← sq, Real.sqrt_sq (two_zpow_pos c).le]
    have h3 : Real.sqrt (N : ℝ) = 2 ^ (320 + (h : ℤ)) := by
      rw [Real.sqrt_eq_iff_mul_self_eq (Nat.cast_nonneg _) (two_zpow_pos _).le, ← zpow_add₀ two_ne_zero, hN]
      push_cast
      rw [← zpow_natCast]
      congr 1
      push_cast
      ring
    rw [Real.sqrt_mul hpos.le, h2, Real.sqrt_div (Nat.cast_nonneg _), h3, zpow_sub₀ two_ne_zero, zpow_neg]
    have := two_zpow_pos c
    have := two_zpow_pos (320 + (h : ℤ))
    field_simp
  obtain ⟨h1, h2⟩ := isqrt_spec (N / m)
  rw [hv, magRsq]
  refine Mag.is_of ?_ ?_ ?_
  · refine Real.le_sqrt_of_sq_le ?_
    rw [le_div_iff₀ hpos, sq]
    exact_mod_cast (Nat.le_div_iff_mul_le (Nat.pos_of_ne_zero hm)).1 h1
  · rw [Real.sqrt_lt' (by positivity), div_lt_iff₀ hpos, sq]
    exact_mod_cast (Nat.div_lt_iff_lt_mul (Nat.pos_of_ne_zero hm)).1 h2
  · rw [Bool.not_eq_false', beq_iff_eq, Real.sqrt_eq_iff_mul_self_eq (by positivity) (Nat.cast_nonneg _), div_eq_iff hpos.ne', eq_comm]
    norm_cast

theorem magRsq_fine {m : ℕ} (hm : m ≠ 0) (c : ℤ) : 319 ≤ Nat.log2 (magRsq m c).m ∧ (magRsq m c).m ≠ 0 := by
  refine le_log2_isqrt ?_
  rw [Nat.le_div_iff_mul_le (Nat.pos_of_ne_zero hm)]
  calc 2 ^ (2 * 319) * m ≤ 2 ^ (2 * 319) * 2 ^ (Nat.log2 m + 1) := Nat.mul_le_mul_left _ (log2_lt_pow m).le
    _ = 2 ^ (2 * 319 + (Nat.log2 m + 1)) := (pow_add _ _ _).symm
    _ ≤ 2 ^ (640 + 2 * (Nat.log2 m / 2)) := Nat.pow_le_pow_right two_pos (by omega)

theorem fpRsqA_fin {n : Bool} {m : ℕ} {e : ℤ} (ha : numOf f a = .fin n m e) : fpRsqA f a =
    if m = 0 then (withSign f n (fmtInfMag f), Flags.divZero) else if n then (fmtNan f, Flags.invalid)
    else roundApprox f false (if e % 2 = 0 then magRsq m (e / 2) else magRsq (2 * m) ((e - 1) / 2)) := by
  simp only [fpRsqA, ha]
  split
  · rfl
  split
  · rfl
  split <;> rfl

/-- The reciprocal square root of a positive number. -/
theorem fpRsqA_rounded (hf : fmtIsIeee f = true) {q : ℚ} (ha : ratOf (numOf f a) = some q) (hq : 0 < q) :
    ApproxIs f false (1 / Real.sqrt q) (fpRsqA f a) := by
  obtain ⟨n, m, e, ha, hq'⟩ := ratOf_eq_some ha
  obtain ⟨rfl, hm⟩ := parts_of_pos hq' hq
  have hv : (q : ℝ) = m * 2 ^ e := by rw [← abs_parts hq', abs_of_pos (by exact_mod_cast hq)]
  obtain ⟨m', c, hm', hx, hv'⟩ : ∃ m' c, m' ≠ 0 ∧
      (if e % 2 = 0 then magRsq m (e / 2) else magRsq (2 * m) ((e - 1) / 2)) = magRsq m' c ∧
      (m : ℝ) * 2 ^ e = m' * 2 ^ (2 * c) := by
    by_cases he : e % 2 = 0
    · exact ⟨m, e / 2, hm, if_pos he, by rw [Int.mul_ediv_cancel' (by omega)]⟩
    · refine ⟨2 * m, (e - 1) / 2, by omega, if_neg he, ?_⟩
      rw [Int.mul_ediv_cancel' (by omega), zpow_sub_one₀ two_ne_zero]
      push_cast
      field_simp
  obtain ⟨hl, hne⟩ := magRsq_fine hm' c
  rw [fpRsqA_fin ha, if_neg hm, if_neg Bool.false_ne_true, hx, hv, hv']
  exact roundApprox_spec hf _ (magRsq_is hm' c) (fun _ => by omega) hne

/-! ## `fex2` at its exact points (R98, R234) -/

theorem log2_one : Nat.log2 1 = 0 := by decide

/-- A power of two far past the format's range overflows. -/
theorem roundIeee_pow_over (hf : fmtIsIeee f = true) (mode word : ℕ) {n : ℤ} (h : 20000 ≤ n) :
    roundIeee f mode false ⟨1, n, false⟩ word =
      (withSign f false (if overflowToMax mode false then fmtMaxMag f else fmtInfMag f), Flags.overflow ||| Flags.inexact) := by
  obtain ⟨hmax, hinf, -, hpb, hp53, hb, -, -⟩ := ieee_maxMag hf
  have hp := (ieee_bounds hf).1
  have hq : max (n + (Nat.log2 1 : ℕ) - ((fmtPrec f : ℤ) - 1)) (fmtQmin f) = n - ((fmtPrec f : ℤ) - 1) := by
    rw [log2_one, fmtQmin]
    omega
  have hmag : (roundMag f mode false ⟨1, n, false⟩ word).1 =
      (n - ((fmtPrec f : ℤ) - 1) - fmtQmin f).toNat * 2 ^ (fmtPrec f - 1) + 1 * 2 ^ (n - (n - ((fmtPrec f : ℤ) - 1))).toNat := by
    simp only [roundMag, Mag.top, hq, one_ne_zero, false_and, if_false, roundAt]
    rw [if_pos (by omega)]
  have hlt : fmtMaxMag f < (roundMag f mode false ⟨1, n, false⟩ word).1 := by
    have hle : 2 * fmtBias f + 1 ≤ (n - ((fmtPrec f : ℤ) - 1) - fmtQmin f).toNat := by
      rw [fmtQmin]
      omega
    have := Nat.mul_le_mul_right (2 ^ (fmtPrec f - 1)) hle
    omega
  simp only [roundIeee, if_pos hlt]

/-- A power of two far below the format's range is rounded to zero or to the least magnitude. -/
theorem roundIeee_pow_under (hf : fmtIsIeee f = true) (mode word : ℕ) {n : ℤ} (h : n ≤ -20000) :
    roundIeee f mode false ⟨1, n, false⟩ word =
      (withSign f false (if mode = 2 then 1 else 0), Flags.inexact ||| Flags.underflow) := by
  obtain ⟨hmax, hinf, hmax2, hpb, hp53, hb, -, -⟩ := ieee_maxMag hf
  have hp := (ieee_bounds hf).1
  have hq : max (n + (Nat.log2 1 : ℕ) - ((fmtPrec f : ℤ) - 1)) (fmtQmin f) = fmtQmin f := by
    rw [log2_one, fmtQmin]
    omega
  have hsh : 33 ≤ (fmtQmin f - n).toNat := by
    rw [fmtQmin]
    omega
  have hlt : n < fmtQmin f := by omega
  have h33 : 2 ^ 33 ≤ 2 ^ (fmtQmin f - n).toNat := Nat.pow_le_pow_right two_pos hsh
  have h1 : 1 < 2 ^ (fmtQmin f - n).toNat := by omega
  have hup : ∀ odd, roundsUp mode false odd 1 (fmtQmin f - n).toNat false word = decide (mode = 2) := by
    intro odd
    have hlt : compare (2 * 1) (2 ^ (fmtQmin f - n).toNat) = .lt := Nat.compare_eq_lt.2 (by omega)
    have hdiv : 1 * 2 ^ 32 / 2 ^ (fmtQmin f - n).toNat = 0 := Nat.div_eq_of_lt (by omega)
    unfold roundsUp
    rw [hlt, hdiv]
    match mode with
    | 0 | 1 | 2 | 3 | 4 => simp
    | k + 5 => simp
  have hmag : roundMag f mode false ⟨1, n, false⟩ word = (if mode = 2 then 1 else 0, true) := by
    simp only [roundMag, Mag.top, hq, one_ne_zero, false_and, if_false, roundAt]
    rw [if_neg hlt.not_ge, Nat.div_eq_of_lt h1, Nat.mod_eq_of_lt h1, hup]
    simp
  have htiny : isTiny f mode false ⟨1, n, false⟩ word = true := by
    simp only [isTiny, one_ne_zero, if_false, Mag.top, log2_one, roundAt]
    rw [if_pos (by omega)]
    simp only [one_mul, Nat.log2_two_pow, decide_eq_true_eq]
    omega
  have hle : ¬fmtMaxMag f < if mode = 2 then 1 else 0 := by
    have := Nat.one_le_two_pow (n := fmtPrec f)
    split <;> omega
  simp only [roundIeee, hmag, if_neg hle, htiny, Bool.and_self, Flags.when, if_true]

/-- The bounds that `fpExp2` puts on an exponent change no result. -/
theorem roundIeee_pow_clamp (hf : fmtIsIeee f = true) (mode word : ℕ) (n : ℤ) :
    roundIeee f mode false ⟨1, min (max n (-20000)) 20000, false⟩ word = roundIeee f mode false ⟨1, n, false⟩ word := by
  rcases le_total 20000 n with h | h
  · rw [max_eq_left (by omega), min_eq_right h, roundIeee_pow_over hf mode word h, roundIeee_pow_over hf mode word le_rfl]
  rcases le_total n (-20000) with h' | h'
  · rw [max_eq_right h', min_eq_left (by omega), roundIeee_pow_under hf mode word h', roundIeee_pow_under hf mode word le_rfl]
  · rw [max_eq_left h', min_eq_left h]

/-- An integer in parts is found. -/
theorem asInteger_of {neg : Bool} {m : ℕ} {e n : ℤ} (h : (n : ℚ) = (if neg then -1 else 1) * m * 2 ^ e) :
    Num.asInteger neg m e = some n := by
  unfold Num.asInteger
  split
  · rename_i he
    obtain ⟨k, rfl⟩ := Int.eq_ofNat_of_zero_le he
    have : n = (if neg then -1 else 1) * m * 2 ^ k := by exact_mod_cast h
    rw [this]
    cases neg <;> simp [Num.atScale]
  · rename_i he
    obtain ⟨k, rfl⟩ : ∃ k : ℕ, e = -(k : ℤ) := ⟨e.natAbs, by omega⟩
    have hk : n * 2 ^ k = (if neg then -1 else 1) * (m : ℤ) := by
      have : (n : ℚ) * 2 ^ k = (if neg then -1 else 1) * m := by
        rw [h, zpow_neg, zpow_natCast]
        field_simp
      exact_mod_cast this
    have hm : m = n.natAbs * 2 ^ k := by
      have := congrArg Int.natAbs hk
      rw [Int.natAbs_mul, Int.natAbs_mul] at this
      cases neg <;> simpa [Int.natAbs_pow] using this.symm
    have h2 : (0 : ℤ) < 2 ^ k := by positivity
    rw [Int.natAbs_neg, Int.natAbs_natCast, hm, Nat.mul_mod_left, if_pos rfl, Nat.mul_div_cancel _ (by positivity)]
    congr 1
    cases neg with
    | true =>
      have : n ≤ 0 := by
        by_contra hc
        have := mul_pos (not_le.1 hc) h2
        simp only [if_true] at hk
        omega
      rw [if_pos rfl]
      omega
    | false =>
      have : 0 ≤ n := by
        by_contra hc
        have := mul_neg_of_neg_of_pos (not_le.1 hc) h2
        simp only [Bool.false_eq_true, if_false] at hk
        omega
      rw [if_neg Bool.false_ne_true]
      omega

/-- `fex2` of an integer is its power of two, rounded. -/
theorem fpExp2_int (hf : fmtIsIeee f = true) {n : ℤ} (h : ratOf (numOf f a) = some (n : ℚ)) :
    fpExp2 f mode word a = roundIeee f mode false ⟨1, n, false⟩ word := by
  obtain ⟨neg, m, e, ha, hn⟩ := ratOf_eq_some h
  simp only [fpExp2, ha, asInteger_of hn, roundIeee_pow_clamp hf]

theorem fpExp2_rounded (hf : fmtIsIeee f = true) {n : ℤ} (h : ratOf (numOf f a) = some (n : ℚ)) :
    RoundedIeee f mode word false ((2 : ℝ) ^ n) (fpExp2 f mode word a) := by
  rw [fpExp2_int hf h]
  have := roundIeee_spec hf mode word false (Mag.is_exact 1 n) (Mag.fine_exact 1 n _)
  rwa [Nat.cast_one, one_mul] at this

/-- A power of two that is a number of the format is delivered exactly. -/
theorem fpExp2_code (hf : fmtIsIeee f = true) {n : ℤ} {c : ℕ} (h : ratOf (numOf f a) = some (n : ℚ)) (hc : codeOf f c (2 ^ n)) :
    fpExp2 f mode word a = (c, 0) := by
  obtain ⟨hlt, hv⟩ := hc
  obtain ⟨neg, mag, hm, -, hz, hcode⟩ := ieee_code_cases hf hv
  have hpos : (0 : ℚ) < 2 ^ n := zpow_pos two_pos n
  have hneg : neg = false := by
    have := magRat_nonneg (ieee_bounds hf).1 mag
    cases neg with
    | false => rfl
    | true => rw [if_pos rfl] at hz; linarith
  subst hneg
  rw [if_neg Bool.false_ne_true, one_mul] at hz
  have hx : (⟨1, n, false⟩ : Mag).Is (magRat f mag) := by
    rw [← hz, Rat.cast_zpow, Rat.cast_ofNat]
    have := Mag.is_exact 1 n
    rwa [Nat.cast_one, one_mul] at this
  rw [fpExp2_int hf h, roundIeee_code hf mode word false hx (Mag.fine_exact 1 n _) hm, hcode hlt]

/-! ## `flg2` at its exact points (R98, R234) -/

theorem fpLog2_fin {n : Bool} {m : ℕ} {e : ℤ} (ha : numOf f a = .fin n m e) (hm : m ≠ 0) (hn : n = false) (h2 : m = 2 ^ Nat.log2 m) :
    fpLog2 f mode word a = roundTo f mode 0 (.fin (decide (e + Nat.log2 m < 0)) (e + Nat.log2 m).natAbs 0) false word := by
  subst hn
  simp only [fpLog2, ha, if_neg hm, Bool.false_eq_true, if_false, if_pos h2]

theorem two_le_prec (hf : fmtIsIeee f = true) : 2 ≤ fmtPrec f := by
  cases f with
  | f64 | f32 | f16 | bf16 => decide
  | _ => exact absurd hf Bool.false_ne_true

/-- A finite number that is a power of two lies within the exponents of the format. -/
theorem pow_bounds (hf : fmtIsIeee f = true) {n : ℤ} (h : ratOf (numOf f a) = some (2 ^ n)) : fmtQmin f ≤ n ∧ n ≤ fmtBias f := by
  have hp := (ieee_bounds hf).1
  obtain ⟨neg, mag, hm, -, hz, -⟩ := ieee_code_cases hf h
  have hpos : (0 : ℚ) < 2 ^ n := zpow_pos two_pos n
  have h0 := magRat_nonneg hp mag
  have hz' : (2 : ℚ) ^ n = magRat f mag := by
    cases neg with
    | false => rw [hz, if_neg Bool.false_ne_true, one_mul]
    | true => rw [if_pos rfl] at hz; linarith
  constructor
  · have hmag : 0 < mag := by
      rw [← (magRat_strictMono f hp).lt_iff_lt, magRat_zero f hp, ← hz']
      exact hpos
    have h1 := magRat_codeBase f hp (q := fmtQmin f) (k := 1) le_rfl Nat.one_le_two_pow (by omega)
    have hle := (magRat_strictMono f hp).monotone hmag
    rw [codeBase, sub_self, Int.natAbs_zero, zero_mul, zero_add] at h1
    rw [Nat.succ_eq_add_one, zero_add, h1, ← hz', Nat.cast_one, one_mul] at hle
    exact (zpow_le_zpow_iff_right₀ one_lt_two).1 hle
  · have hlt := magRat_strictMono f hp (show mag < fmtInfMag f by have := (ieee_maxMag hf).1; omega)
    rw [magRat_infMag hf, ← hz', ← zpow_natCast] at hlt
    have := (zpow_lt_zpow_iff_right₀ (one_lt_two (α := ℚ))).1 hlt
    push_cast at this
    omega

/-- An integer whose magnitude has no more bits than the format is delivered exactly. -/
theorem roundTo_int_exact (hf : fmtIsIeee f = true) (mode word : ℕ) {n : ℤ} (hn : n.natAbs < 2 ^ fmtPrec f) :
    ∃ c, roundTo f mode 0 (.fin (decide (n < 0)) n.natAbs 0) false word = (c, 0) ∧ codeOf f c n := by
  obtain ⟨mag, hm, hv⟩ := exists_magRat_nat hf hn
  have hfl : fmtIsFloat f = true := by rw [fmtIsFloat, hf, Bool.true_or]
  have hx : (⟨n.natAbs, 0, false⟩ : Mag).Is (magRat f mag) := by
    have := Mag.is_exact n.natAbs 0
    rw [zpow_zero, mul_one] at this
    rw [hv]
    exact_mod_cast this
  rw [roundTo_ieee_fin hf, roundIeee_code hf mode word _ hx (Mag.fine_exact _ 0 _) hm]
  have hs : numOf f (withSign f (decide (n < 0)) mag) = magValue f (decide (n < 0)) mag :=
    numOf_withSign hfl hm (fun h => absurd h (by rw [(ieee_bounds hf).2.2.2.1]; exact Bool.false_ne_true))
  refine ⟨_, rfl, withSign_lt (hm.trans_lt (float_magBound hfl).1), ?_⟩
  rw [hs, ratOf_magValue, hv]
  congr 1
  by_cases h0 : n < 0
  · rw [if_pos (decide_eq_true h0), Nat.cast_natAbs, abs_of_neg h0]
    push_cast
    ring
  · rw [if_neg (by simpa using h0), Nat.cast_natAbs, abs_of_nonneg (not_lt.1 h0), one_mul]

/-- The logarithm of a power of two is its exponent. -/
theorem fpLog2_pow {n : ℤ} (h : ratOf (numOf f a) = some (2 ^ n)) :
    fpLog2 f mode word a = roundTo f mode 0 (.fin (decide (n < 0)) n.natAbs 0) false word := by
  obtain ⟨neg, m, e, ha, hq⟩ := ratOf_eq_some h
  obtain ⟨rfl, hm⟩ := parts_of_pos hq (zpow_pos two_pos n)
  rw [if_neg Bool.false_ne_true, one_mul] at hq
  have hmq : (m : ℚ) = 2 ^ (n - e) := by
    rw [zpow_sub₀ two_ne_zero, hq]
    field_simp
  have hle : 0 ≤ n - e := by
    by_contra hc
    have h1 : (2 : ℚ) ^ (n - e) < 2 ^ (0 : ℤ) := zpow_lt_zpow_right₀ one_lt_two (not_le.1 hc)
    rw [← hmq, zpow_zero] at h1
    have : m < 1 := by exact_mod_cast h1
    omega
  obtain ⟨k, hk⟩ := Int.eq_ofNat_of_zero_le hle
  have hm2 : m = 2 ^ k := by
    rw [hk] at hmq
    exact_mod_cast hmq
  have hl : Nat.log2 m = k := by rw [hm2, Nat.log2_two_pow]
  rw [fpLog2_fin ha hm rfl (by rw [hl, hm2]), hl, show e + (k : ℤ) = n by omega]

theorem fpLog2_one (hf : fmtIsIeee f = true) (h : ratOf (numOf f a) = some 1) : fpLog2 f mode word a = (0, 0) := by
  have hx : (⟨0, 0, false⟩ : Mag).Is (magRat f 0) := by
    have := Mag.is_exact 0 0
    rw [magRat_zero f (ieee_bounds hf).1]
    simpa using this
  rw [fpLog2_pow (n := 0) (by rw [h, zpow_zero]), roundTo_ieee_fin hf]
  exact roundIeee_code hf mode word false hx (Mag.fine_exact 0 0 _) (Nat.zero_le _)

theorem fpLog2_exact (hf : fmtIsIeee f = true) {n : ℤ} (h : ratOf (numOf f a) = some (2 ^ n)) :
    (fpLog2 f mode word a).2 = 0 ∧ codeOf f (fpLog2 f mode word a).1 n := by
  obtain ⟨hlo, hhi⟩ := pow_bounds hf h
  obtain ⟨-, -, -, -, -, -, -, hpb⟩ := ieee_maxMag hf
  have hn : n.natAbs < 2 ^ fmtPrec f := by
    have := two_le_prec hf
    rw [fmtQmin] at hlo
    omega
  obtain ⟨c, hr, hc⟩ := roundTo_int_exact hf mode word hn
  rw [fpLog2_pow h, hr]
  exact ⟨rfl, hc⟩

end Functions

end Sys2Proof.Machine
end

section
/-! PROOFS. Results of lanes with flags and draws (R97, R110, R203): what `flaggedLanes` and `fpRes` write. -/

namespace Sys2Proof.Machine

open Sys2Proof Sys2Proof.Claims

/-! ## `FSTAT` -/

section OrFlags

variable (c : Crew) (fl : Flags)

@[simp] theorem orFlags_getV (r l : ℕ) : (c.orFlags fl).getV r l = c.getV r l := by
  unfold Crew.orFlags
  split <;> rfl
@[simp] theorem orFlags_isEmpty (r l : ℕ) : (c.orFlags fl).isEmpty r l = c.isEmpty r l := by
  unfold Crew.orFlags
  split <;> rfl
@[simp] theorem orFlags_getVs (r l n : ℕ) : (c.orFlags fl).getVs r l n = c.getVs r l n :=
  Crew.getVs_congr (fun _ _ => orFlags_getV c fl _ _)
@[simp] theorem orFlags_getS (r : ℕ) : (c.orFlags fl).getS r = c.getS r := by
  unfold Crew.orFlags
  split <;> rfl
@[simp] theorem orFlags_getP (r : ℕ) : (c.orFlags fl).getP r = c.getP r := by
  unfold Crew.orFlags
  split <;> rfl
@[simp] theorem orFlags_threads : (c.orFlags fl).threads = c.threads := by
  unfold Crew.orFlags
  split <;> rfl
@[simp] theorem orFlags_handler_isSome : (c.orFlags fl).handler.isSome = c.handler.isSome := by
  unfold Crew.orFlags
  split
  · rename_i h
    rw [h]
    rfl
  · rfl
theorem orFlags_heads : SameHeads c (c.orFlags fl) := by
  unfold Crew.orFlags
  split <;> exact ⟨rfl, rfl, rfl, rfl, rfl⟩

end OrFlags

/-- What a frame says of the crew's other fields. -/
theorem Kept.eq_with {a b : Crew} {v : ℕ → ℕ → Prop} {s p : ℕ → Prop} (h : Kept a b v s p) :
    b = { a with s := b.s, p := b.p, v := b.v, empty := b.empty, held := b.held, threads := b.threads, probes := b.probes,
                 ckS := b.ckS, ckFstat := b.ckFstat, ckSeq := b.ckSeq, ckMark := b.ckMark, retry := b.retry } :=
  congrArg (fun c : Crew => { c with s := b.s, p := b.p, v := b.v, empty := b.empty, held := b.held, threads := b.threads,
                                     probes := b.probes, ckS := b.ckS, ckFstat := b.ckFstat, ckSeq := b.ckSeq,
                                     ckMark := b.ckMark, retry := b.retry }) h.rest

/-- A frame holds under the same flags. -/
theorem Kept.orFlags {a b : Crew} {v : ℕ → ℕ → Prop} {s p : ℕ → Prop} (h : Kept a b v s p) (fl : Flags) :
    Kept (a.orFlags fl) (b.orFlags fl) v s p where
  vector r l hl hn := by simpa using h.vector r l hl hn
  uniform r hn := by simpa using h.uniform r hn
  predicate r hn := by simpa using h.predicate r hn
  rest := by
    rw [h.eq_with]
    cases a
    unfold Crew.orFlags
    dsimp only
    split <;> rfl

/-! ## Draws (R110) -/

theorem Kept.srDrawn {a b : Crew} {v : ℕ → ℕ → Prop} {s p : ℕ → Prop} (h : Kept a b v s p) (x : Cx) (rnd fx : ℕ) :
    Kept a (srDrawn x rnd fx b) v s p := by
  unfold Machine.srDrawn
  split
  · exact ⟨h.vector, h.uniform, h.predicate, h.rest⟩
  · exact h

section Drawn

variable (x : Cx) (rnd fx : ℕ) (c : Crew)

@[simp] theorem srDrawn_handler : (srDrawn x rnd fx c).handler = c.handler := by
  unfold srDrawn
  split <;> rfl
@[simp] theorem srDrawn_getV (r l : ℕ) : (srDrawn x rnd fx c).getV r l = c.getV r l := by
  unfold srDrawn
  split <;> rfl
@[simp] theorem srDrawn_getVs (r l n : ℕ) : (srDrawn x rnd fx c).getVs r l n = c.getVs r l n :=
  Crew.getVs_congr (fun _ _ => srDrawn_getV x rnd fx c _ _)
@[simp] theorem srDrawn_getS (r : ℕ) : (srDrawn x rnd fx c).getS r = c.getS r := by
  unfold srDrawn
  split <;> rfl
theorem srDrawn_threads {c d : Crew} (h : c.threads = d.threads) : (srDrawn x rnd fx c).threads = (srDrawn x rnd fx d).threads := by
  unfold srDrawn drawn Crew.updThreads
  rw [h]
  split
  · rfl
  · exact h
theorem srDrawn_heads {c d : Crew} (h : SameHeads c d) : SameHeads (srDrawn x rnd fx c) (srDrawn x rnd fx d) := by
  unfold srDrawn
  split
  · exact h
  · exact h

end Drawn

/-! ## The results of lanes -/

/-- A format of `n` registers whose values a uniform register receives as they are. -/
def plainFmt (n : ℕ) : Fmt := if n = 1 then .f32 else .f64

theorem plainFmt_regs {n : ℕ} (hn : n = 1 ∨ n = 2) : fmtRegs (plainFmt n) = n := by rcases hn with rfl | rfl <;> rfl

theorem toUniform_plainFmt (n v : ℕ) : toUniform (plainFmt n) v = v := by
  unfold plainFmt
  split <;> rfl

/-- Results with their flags are written as results without them, and the flags of all lanes join `FSTAT`. -/
theorem flaggedLanes_eq (x : Cx) (d : Opr) {n : ℕ} (hn : n = 1 ∨ n = 2) (res : ℕ → ℕ × Flags) :
    flaggedLanes x d n res =
      (writeLanes x d (plainFmt n) (fun l => (res l).1)).orFlags (allFlags (dstLanes x d) (fun l => (res l).2)) := by
  simp only [flaggedLanes, writeLanes, allFlags, List.foldl_map, plainFmt_regs hn, toUniform_plainFmt, ite_self]

theorem regs_cases (f : Fmt) : fmtRegs f = 1 ∨ fmtRegs f = 2 := by
  unfold fmtRegs
  split <;> simp

theorem oprIsV_not_S {d : Opr} (h : oprIsV d = true) : oprIsS d = false := by
  cases d with
  | s k => cases h
  | _ => rfl

theorem destVal_congr {x : Cx} {d : Opr} {n l : ℕ} {c e : Crew} (hv : ∀ r l, c.getVs r l n = e.getVs r l n)
    (hs : ∀ r, c.getS r = e.getS r) : destVal x c d n l = destVal x e d n l := by
  cases d <;> simp only [destVal, hv, hs]

/-- An instruction whose effect is one result a lane, with its flags, completes. -/
theorem laneCompletes_of {i : Instr} {s : State} {x : Cx} {f : FmtA} {n : ℕ} {eff : Cx → Res} {res : ℕ → ℕ × Flags}
    (h : Ready i s x) (hx : exec i s = issueWith i s eff)
    (he : eff x = crewRes x (srDrawn x f.rnd.toNat f.fx.toNat (flaggedLanes x f.d n res)))
    (hn : n = 1 ∨ n = 2) (hd : oprIsV f.d = true ∨ oprIsS f.d = true) (hb : ∀ l ∈ dstLanes x f.d, (res l).1 < 2 ^ (32 * n)) :
    LaneCompletes i s x f n res := by
  obtain ⟨hval, hkept⟩ := writeLanes_spec x f.d (plainFmt n) (fun l => (res l).1)
  have hth := writeLanes_threads x f.d (plainFmt n) (fun l => (res l).1)
  have hhd := writeLanes_handler x f.d (plainFmt n) (fun l => (res l).1)
  have hck := writeLanes_heads x f.d (plainFmt n) (fun l => (res l).1)
  rw [plainFmt_regs hn] at hval hkept
  rw [flaggedLanes_eq x f.d hn] at he
  generalize writeLanes x f.d (plainFmt n) (fun l => (res l).1) = w at *
  generalize hfl : allFlags (dstLanes x f.d) (fun l => (res l).2) = fl at he
  refine ⟨(srDrawn x f.rnd.toNat f.fx.toNat (w.orFlags fl)).advance x.lanes x.nextPc (endsRegion i && !x.cr.inHandler), ?_,
    sameBytes_setCrew _ _ _ _, ?_, fun l hl => ?_, ?_⟩
  · rw [hx, issueWith, issueState_ready h, he]
    simp only [crewRes, Bool.false_or]
    rw [complete_put h, Crew.inHandler, srDrawn_handler, orFlags_handler_isSome, hhd, Crew.inHandler]
  · refine advanced_advance (x := { x with cr := srDrawn x f.rnd.toNat f.fx.toNat x.cr })
      (srDrawn_threads x _ _ ?_) (srDrawn_heads x _ _ ?_) _
    · rw [orFlags_threads, hth]
    · have := orFlags_heads w fl
      exact ⟨this.1.trans hck.1, this.2.1.trans hck.2.1, this.2.2.1.trans hck.2.2.1, this.2.2.2.1.trans hck.2.2.2.1,
        this.2.2.2.2.trans hck.2.2.2.2⟩
  · rw [destVal_congr (e := w) (fun _ _ => by simp) (fun _ => by simp)]
    obtain ⟨hv, hs⟩ := hval l hl
    rcases hd with hd | hd
    · rw [hv (oprIsV_not_S hd), if_pos hd, Nat.mod_eq_of_lt (hb l hl)]
    · rw [hs hd, toUniform_plainFmt, Nat.mod_eq_of_lt]
      exact (hb l hl).trans_le (Nat.pow_le_pow_right two_pos (by omega))
  · rw [orFlags_zero] at hkept
    rw [hfl]
    exact ((hkept.orFlags fl).srDrawn x _ _).advance _ _ _

/-! ## The elements of a result -/

theorem packFlagged_range (f : Fmt) (n : ℕ) (r : ℕ → ℕ × Flags) :
    packFlagged f ((List.range n).map r) = (packElems f ((List.range n).map (fun j => (r j).1)), elemFlags n r) := by
  simp only [packFlagged, List.map_map, List.foldl_map, elemFlags, allFlags, Function.comp_def]

theorem elem_packElems_range (f : Fmt) {n j : ℕ} (hj : j < n) (r : ℕ → ℕ) :
    elem f (packElems f ((List.range n).map r)) j = r j % 2 ^ fmtBits f := by
  rw [elem_packElems _ _ _ (by simpa using hj), List.getElem_map, List.getElem_range]

theorem packElems_range_lt (f : Fmt) {n w : ℕ} (h : fmtBits f * n ≤ w) (r : ℕ → ℕ) :
    packElems f ((List.range n).map r) < 2 ^ w := by
  refine (packElems_lt _ _).trans_le (Nat.pow_le_pow_right two_pos ?_)
  rwa [List.length_map, List.length_range]

theorem elemCount_bits (f : Fmt) : fmtBits f * elemCount f ≤ 32 * fmtRegs f := by
  unfold elemCount fmtRegs
  cases f <;> simp [fmtBits]

/-- The result of an element: `op` of the word and the elements of the sources. -/
def fpElem (f : FmtA) (x : Cx) (op : ℕ → ℕ → ℕ → ℕ → ℕ × Flags) (l j : ℕ) : ℕ × Flags :=
  op (srWord x f.rnd.toNat f.fx.toNat l j) (fpCode x f.ty f.a l j) (fpCode x f.ty f.b l j) (fpCode x f.ty f.c l j)

/-- A floating-point instruction completes with the results of its elements. -/
theorem fpCompletes_of {i : Instr} {s : State} {x : Cx} {f : FmtA} {op : ℕ → ℕ → ℕ → ℕ → ℕ × Flags}
    (h : Ready i s x) (hx : exec i s = issueWith i s (fpRes f op)) (hd : oprIsV f.d = true ∨ oprIsS f.d = true)
    (hb : ∀ w a b c, (op w a b c).1 < 2 ^ fmtBits f.ty) : FpCompletes i s x f f.ty (fpElem f x op) := by
  have hlt : ∀ l, packElems f.ty ((List.range (elemCount f.ty)).map (fun j => (fpElem f x op l j).1)) < 2 ^ (32 * fmtRegs f.ty) :=
    fun l => packElems_range_lt _ (elemCount_bits f.ty) _
  obtain ⟨cr, hex, hsame, hadv, hval, hkept⟩ := laneCompletes_of (n := fmtRegs f.ty)
    (res := fun l => packFlagged f.ty ((List.range (elemCount f.ty)).map (fpElem f x op l))) h hx rfl (regs_cases f.ty) hd
    (fun l _ => by rw [packFlagged_range]; exact hlt l)
  simp only [packFlagged_range] at hval hkept
  refine ⟨cr, hex, hsame, hadv, fun l hl => ?_, hkept⟩
  rw [hval l hl]
  refine ⟨fun j hj => ?_, hlt l⟩
  exact (elem_packElems_range _ hj _).trans (Nat.mod_eq_of_lt (hb _ _ _ _))

/-! ## Bounds of the codes -/

section Bounds

variable {f : Fmt} (mode sat word : ℕ) (neg : Bool) (x : Mag) (v : Num) (st : Bool)

theorem roundIeee_lt (hf : fmtIsIeee f = true) : (roundIeee f mode neg x word).1 < 2 ^ fmtBits f := by
  obtain ⟨hmax, hinf, -⟩ := float_magBound (f := f) (by rw [fmtIsFloat, hf, Bool.true_or])
  simp only [roundIeee]
  split
  · exact withSign_lt (by split <;> assumption)
  · exact withSign_lt (by omega)

theorem roundB8_lt (hf : fmtIsB8 f = true) : (roundB8 f mode sat v st word).1 < 2 ^ fmtBits f := by
  obtain ⟨hmax, hinf, hnan⟩ := float_magBound (f := f) (by rw [fmtIsFloat, hf, Bool.or_true])
  have hm := fun neg => withSign_lt (neg := neg) hmax
  have hi := fun neg => withSign_lt (neg := neg) hinf
  have hz : 0 < 2 ^ fmtBits f := by positivity
  cases v with
  | nan sig => simp only [roundB8, apply_ite Prod.fst]; split <;> assumption
  | inf n => simp only [roundB8, apply_ite Prod.fst, apply_ite (· < 2 ^ fmtBits f), hnan, hz, hi n, hm n, ite_self]
  | fin n m e =>
    simp only [roundB8]
    generalize hr : (roundMag f mode n ⟨m, e, st⟩ word).1 = mag
    by_cases hmag : fmtMaxMag f < mag
    · simp only [if_pos hmag, apply_ite Prod.fst, apply_ite (· < 2 ^ fmtBits f), hnan, hz, hi n, hm n, ite_self]
    · have hs : withSign f n mag < 2 ^ fmtBits f := withSign_lt (by omega)
      simp only [if_neg hmag, apply_ite Prod.fst, apply_ite (· < 2 ^ fmtBits f), hnan, hz, hs, ite_self]

theorem roundInt_lt : (roundInt f mode v st word).1 < 2 ^ fmtBits f := by
  have hz : 0 < 2 ^ fmtBits f := by positivity
  cases v <;> simp only [roundInt, apply_ite Prod.fst, apply_ite (· < 2 ^ fmtBits f), hz, wrapTo_lt, ite_self]

/-- A rounding delivers a code of its format. -/
theorem roundTo_lt : (roundTo f mode sat v st word).1 < 2 ^ fmtBits f := by
  by_cases hi : fmtIsInt f = true
  · rw [roundTo_int hi]
    exact roundInt_lt mode word v st
  by_cases hb : fmtIsB8 f = true
  · rw [roundTo_b8 hb]
    exact roundB8_lt mode sat word v st hb
  have hf : fmtIsIeee f = true := by cases f <;> simp_all [fmtIsInt, fmtIsB8, fmtIsIeee]
  obtain ⟨-, hinf, hnan⟩ := float_magBound (f := f) (by rw [fmtIsFloat, hf, Bool.true_or])
  cases v with
  | nan sig => rw [roundTo_ieee_nan hf]; exact hnan
  | inf n => rw [roundTo_ieee_inf hf]; exact withSign_lt hinf
  | fin n m e => rw [roundTo_ieee_fin hf]; exact roundIeee_lt mode word n _ hf

end Bounds

end Sys2Proof.Machine
end

section
/-! PROOFS. O11, sums and products rounded once (R229). -/

namespace Sys2Proof.Machine

open Sys2Proof Sys2Proof.Claims

/-! ## Exact sums under any rounding mode (R94, R229) -/

/-- Two numbers of one sign have a zero sum when both are zero. -/
theorem parts_sum_zero {n : Bool} {m1 m2 : ℕ} {e1 e2 : ℤ}
    (h : ((if n then -1 else 1) * m1 * 2 ^ e1 + (if n then -1 else 1) * m2 * 2 ^ e2 : ℚ) = 0) : m1 = 0 ∧ m2 = 0 := by
  have h1 : (0 : ℚ) < 2 ^ e1 := zpow_pos two_pos e1
  have h2 : (0 : ℚ) < 2 ^ e2 := zpow_pos two_pos e2
  have hm1 : (0 : ℚ) ≤ m1 * 2 ^ e1 := by positivity
  have hm2 : (0 : ℚ) ≤ m2 * 2 ^ e2 := by positivity
  have hs : (m1 : ℚ) * 2 ^ e1 + m2 * 2 ^ e2 = 0 := by
    cases n <;> simp at h <;> linarith
  have z1 : (m1 : ℚ) * 2 ^ e1 = 0 := by linarith
  have z2 : (m2 : ℚ) * 2 ^ e2 = 0 := by linarith
  exact ⟨Nat.cast_eq_zero.1 ((mul_eq_zero.1 z1).resolve_right h1.ne'), Nat.cast_eq_zero.1 ((mul_eq_zero.1 z2).resolve_right h2.ne')⟩

/-- A number that comes of a scaled integer differs with the mode in the sign of a zero alone. -/
theorem ratOf_ofScaled (i s : ℤ) (r r' : Bool) : ratOf (Num.ofScaled i s r) = ratOf (Num.ofScaled i s r') := by
  unfold Num.ofScaled
  split <;> simp [ratOf]

/-- The exact sum of two finite numbers; where it is zero and the signs differ, the mode gives its sign. -/
theorem add_fin_rdn (n1 n2 : Bool) (m1 m2 : ℕ) (e1 e2 : ℤ) (rdn : Bool) : ∃ z, Num.add (.fin n1 m1 e1) (.fin n2 m2 e2) rdn = some z ∧
    ratOf z = some ((if n1 then -1 else 1) * m1 * 2 ^ e1 + (if n2 then -1 else 1) * m2 * 2 ^ e2 : ℚ) ∧
    (((if n1 then -1 else 1) * m1 * 2 ^ e1 + (if n2 then -1 else 1) * m2 * 2 ^ e2 : ℚ) = 0 →
      z.sign = if n1 = n2 then n1 else rdn) := by
  obtain ⟨z, hz, hr, -⟩ := add_fin n1 n2 m1 m2 e1 e2
  by_cases h0 : m1 = 0 ∧ m2 = 0
  · exact ⟨_, if_pos h0, by simp [ratOf, h0], fun _ => rfl⟩
  · rw [show Num.add (.fin n1 m1 e1) (.fin n2 m2 e2) false = _ from if_neg h0, Option.some.injEq] at hz
    refine ⟨_, if_neg h0, ?_, fun hs => ?_⟩
    · rw [← hr, ← hz]
      exact ratOf_ofScaled _ _ _ _
    · have hne : n1 ≠ n2 := by
        rintro rfl
        exact h0 (parts_sum_zero hs)
      rw [← hz, hs] at hr
      rw [if_neg hne]
      unfold Num.ofScaled at hr ⊢
      split at hr
      · rename_i hi
        rw [if_pos hi]
        rfl
      · rename_i hi
        have := (parts_eq_zero rfl).1 (Option.some.inj hr)
        omega

theorem add_inf_left_rdn {n : Bool} {b : Num} (hb : b.isNan = false) (h : b ≠ .inf (!n)) (rdn : Bool) :
    (Num.inf n).add b rdn = some (.inf n) := by
  rw [← add_inf_left hb h]
  cases b with
  | nan | inf => rfl
  | fin => rfl

theorem add_inf_right_rdn {n : Bool} {a : Num} (ha : a.isNan = false) (h : a ≠ .inf (!n)) (rdn : Bool) :
    a.add (.inf n) rdn = some (.inf n) := by
  rw [← add_inf_right ha h]
  cases a with
  | nan | inf => rfl
  | fin => rfl

theorem add_nan {a b : Num} (h : a.isNan = true ∨ b.isNan = true) (rdn : Bool) : ∃ v, a.add b rdn = some v := by
  rcases h with h | h <;> obtain ⟨g, rfl⟩ := isNan_iff.1 h
  · cases b <;> exact ⟨_, rfl⟩
  · cases a <;> exact ⟨_, rfl⟩

/-! ## Results (R86, R97) -/

section Finish

variable {f : Fmt} {mode word : ℕ} {ops : List Num} {v : Num}

theorem finish_any_nan (h : ops.any Num.isNan = true) : finish f mode word ops (some v) false = (fmtNan f, sigFlag ops) := if_pos h

theorem finish_no_nan (h : ops.any Num.isNan = false) : finish f mode word ops (some v) false = roundTo f mode 0 v false word :=
  if_neg (by rw [h]; exact Bool.false_ne_true)

theorem finish_lt (hf : fmtIsIeee f = true) (x : Option Num) (st : Bool) : (finish f mode word ops x st).1 < 2 ^ fmtBits f := by
  have hnan := (float_magBound (f := f) (by rw [fmtIsFloat, hf, Bool.true_or])).2.2
  cases x with
  | none => exact hnan
  | some v =>
    simp only [finish, apply_ite Prod.fst, apply_ite (· < 2 ^ fmtBits f), hnan, roundTo_lt, ite_self]

theorem sigFlag_of_no_nan (h : ops.any Num.isNan = false) : sigFlag ops = 0 := by
  refine if_neg fun hs => ?_
  obtain ⟨v, hv, hs⟩ := List.any_eq_true.1 hs
  have := List.any_eq_false.1 h v hv
  cases v <;> simp_all [Num.isNan, Num.isSig]

/-- The sum of two of an instruction's numbers, or of one and of a product. -/
theorem sumIs_add (hf : fmtIsIeee f = true) {a b : Num} (hn : ops.any Num.isNan = (a.isNan || b.isNan))
    (hs : sigFlag ops = sigFlag [a, b]) : SumIs f mode word a b (finish f mode word ops (a.add b (mode == 3)) false) := by
  refine ⟨fun h => ?_, ?_, ?_, ?_, fun p q hp hq => ?_⟩
  · obtain ⟨v, hv⟩ := add_nan h (mode == 3)
    rw [hv, finish_any_nan (by rw [hn]; simpa using h), hs]
  · rintro n rfl rfl
    cases n <;> rfl
  · rintro n rfl hb hne
    rw [add_inf_left_rdn hb hne, finish_no_nan (by rw [hn, hb]; rfl), roundTo_ieee_inf hf]
  · rintro n rfl ha hne
    rw [add_inf_right_rdn ha hne, finish_no_nan (by rw [hn, ha]; rfl), roundTo_ieee_inf hf]
  · obtain ⟨n1, m1, e1, rfl, rfl⟩ := ratOf_eq_some hp
    obtain ⟨n2, m2, e2, rfl, rfl⟩ := ratOf_eq_some hq
    obtain ⟨z, hz, hr, hsg⟩ := add_fin_rdn n1 n2 m1 m2 e1 e2 (mode == 3)
    refine ⟨z, hr, hsg, ?_⟩
    rw [hz, finish_no_nan (by rw [hn]; rfl)]

end Finish

/-! ## Exact products (R229) -/

theorem isNan_neg (a : Num) : a.neg.isNan = a.isNan := by cases a <;> rfl

theorem isSig_neg (a : Num) : a.neg.isSig = a.isSig := by cases a <;> rfl

theorem isZero_iff (a : Num) : a.isZero = true ↔ ratOf a = some 0 := by
  cases a with
  | nan | inf => simp [Num.isZero, ratOf]
  | fin n m e =>
    have h := (parts_eq_zero (n := n) (m := m) (e := e) rfl)
    simp only [ratOf, Option.some.injEq, h]
    cases m <;> simp [Num.isZero]

theorem mul_zeroTimesInf {a b : Num} (h : zeroTimesInf a b) : a.mul b = none := by
  rcases h with ⟨n, rfl, h⟩ | ⟨n, rfl, h⟩
  · obtain ⟨n, m, e, rfl, -⟩ := ratOf_eq_some h
    exact if_pos ((isZero_iff _).2 h)
  · obtain ⟨n, m, e, rfl, -⟩ := ratOf_eq_some h
    exact if_pos ((isZero_iff _).2 h)

theorem mul_nan {a b : Num} (h : a.isNan = true ∨ b.isNan = true) : a.mul b = some (.nan false) := by
  rcases h with h | h <;> obtain ⟨g, rfl⟩ := isNan_iff.1 h
  · cases b <;> rfl
  · cases a <;> rfl

theorem mul_exact {a b : Num} (ha : a.isNan = false) (hb : b.isNan = false) (h : ¬zeroTimesInf a b) :
    ∃ z, a.mul b = some z ∧ ProductIs a b z := by
  cases a with
  | nan => cases ha
  | inf n =>
    have hz : b.isZero ≠ true := fun hz => h (.inl ⟨n, rfl, (isZero_iff b).1 hz⟩)
    refine ⟨.inf (xor n b.sign), ?_, rfl, rfl, fun _ _ hp => (nomatch hp), fun _ => rfl⟩
    cases b with
    | nan => cases hb
    | inf => rfl
    | fin => exact if_neg hz
  | fin n m e =>
    cases b with
    | nan => cases hb
    | inf k =>
      have hz : (Num.fin n m e).isZero ≠ true := fun hz => h (.inr ⟨k, rfl, (isZero_iff _).1 hz⟩)
      exact ⟨.inf (xor n k), if_neg hz, rfl, rfl, fun _ _ _ hq => (nomatch hq), fun _ => rfl⟩
    | fin n' m' e' =>
      refine ⟨.fin (xor n n') (m * m') (e + e'), rfl, rfl, rfl, fun p q hp hq => ?_, fun h => by rcases h with h | h <;> cases h⟩
      cases hp
      cases hq
      rw [ratOf, zpow_add₀ two_ne_zero]
      congr 1
      cases n <;> cases n' <;> simp <;> ring

section Products

variable {f : Fmt} {mode word a b c : ℕ}

theorem mulIs_fpMul : MulIs f mode word (numOf f a) (numOf f b) (fpMul f mode word a b) := by
  unfold fpMul
  generalize numOf f a = x
  generalize numOf f b = y
  dsimp only
  refine ⟨fun h => ?_, fun h => ?_, fun ha hb h => ?_⟩
  · rw [mul_nan h]
    exact finish_any_nan (by simpa using h)
  · rw [mul_zeroTimesInf h]
    rfl
  · obtain ⟨z, hz, hp⟩ := mul_exact ha hb h
    exact ⟨z, hp, by rw [hz]; exact finish_no_nan (by simp [ha, hb])⟩

theorem fmaIs_fpFma (hf : fmtIsIeee f = true) (na nc : Bool) :
    FmaIs f mode word na nc (numOf f a) (numOf f b) (numOf f c) (fpFma f mode word na nc a b c) := by
  unfold fpFma
  generalize numOf f a = x
  generalize numOf f b = y
  generalize numOf f c = w
  refine ⟨fun h => ?_, fun h hn => ?_, fun h hx hy hw => ?_⟩
  · simp only [mul_zeroTimesInf h]
  · have hany : [x, y, w].any Num.isNan = true := by simpa [or_assoc] using hn
    have hsum : ∃ p v, x.mul y = some p ∧ (if na then p.neg else p).add (if nc then w.neg else w) (mode == 3) = some v := by
      by_cases hxy : x.isNan = true ∨ y.isNan = true
      · rw [mul_nan hxy]
        obtain ⟨v, hv⟩ := add_nan (a := if na then (Num.nan false).neg else .nan false) (b := if nc then w.neg else w)
          (.inl (by cases na <;> rfl)) (mode == 3)
        exact ⟨_, v, rfl, hv⟩
      · obtain ⟨hx, hy⟩ := not_or.1 hxy
        obtain ⟨z, hz, -⟩ := mul_exact (Bool.eq_false_iff.2 hx) (Bool.eq_false_iff.2 hy) h
        have hw : w.isNan = true := by tauto
        obtain ⟨v, hv⟩ := add_nan (a := if na then z.neg else z) (b := if nc then w.neg else w)
          (.inr (by cases nc <;> simp [isNan_neg, hw])) (mode == 3)
        exact ⟨z, v, hz, hv⟩
    obtain ⟨p, v, hp, hv⟩ := hsum
    simp only [hp, hv]
    exact finish_any_nan hany
  · obtain ⟨z, hz, hp⟩ := mul_exact hx hy h
    have hzn := hp.2.1
    refine ⟨z, hp, ?_⟩
    simp only [hz]
    refine sumIs_add hf ?_ ?_
    · cases na <;> cases nc <;> simp [isNan_neg, hx, hy, hw, hzn]
    · rw [sigFlag_of_no_nan (by simp [hx, hy, hw]), sigFlag_of_no_nan]
      cases na <;> cases nc <;> simp [isNan_neg, hw, hzn]

theorem fpMul_lt (hf : fmtIsIeee f = true) : (fpMul f mode word a b).1 < 2 ^ fmtBits f := finish_lt hf _ _

theorem fpFma_lt (hf : fmtIsIeee f = true) (na nc : Bool) : (fpFma f mode word na nc a b c).1 < 2 ^ fmtBits f := by
  unfold fpFma
  dsimp only
  split
  · exact (float_magBound (f := f) (by rw [fmtIsFloat, hf, Bool.true_or])).2.2
  · exact finish_lt hf _ _

theorem fpAdd_lt (hf : fmtIsIeee f = true) (sub : Bool) : (fpAdd f mode word sub a b).1 < 2 ^ fmtBits f := finish_lt hf _ _

theorem sumIs_fpAdd (hf : fmtIsIeee f = true) (sub : Bool) : SumIs f mode word (numOf f a)
    (if sub then (numOf f b).neg else numOf f b) (fpAdd f mode word sub a b) := by
  refine sumIs_add hf ?_ ?_
  · cases sub <;> simp [isNan_neg]
  · cases sub <;> simp [sigFlag, isSig_neg]

end Products

/-! ## What the encoding says (R201, R226, R228) -/

theorem dstVS_reg {n : ℕ} {d : Opr} {srcs : List Opr} (h : dstVS n d srcs = true) : oprIsV d = true ∨ oprIsS d = true := by
  simp only [dstVS, Bool.or_eq_true, Bool.and_eq_true] at h
  exact h.imp And.left And.left

theorem legalF2_spec {f : FmtA} {rounds : Bool} {n : ℕ} (h : legalF2 f rounds n = true) :
    fmtIsIeee f.ty = true ∧ (oprIsV f.d = true ∨ oprIsS f.d = true) := by
  simp only [legalF2, Bool.and_eq_true] at h
  exact ⟨h.1.1.1.1.1.1.1.1.1.1, dstVS_reg h.2⟩

theorem legalF1_spec {f : FmtA} {rounds : Bool} (h : legalF1 f rounds = true) :
    fmtIsIeee f.ty = true ∧ (oprIsV f.d = true ∨ oprIsS f.d = true) := by
  simp only [legalF1, Bool.and_eq_true] at h
  exact ⟨h.1.1.1.1.1.1.1.1.1.1, dstVS_reg h.2⟩

theorem legalFfma_spec {f : FmtA} (h : legalFfma f = true) :
    fmtIsIeee f.ty = true ∧ (oprIsV f.d = true ∨ oprIsS f.d = true) := by
  simp only [legalFfma, Bool.and_eq_true] at h
  exact ⟨h.1.1.1.1.1.1.1.1.1.1, dstVS_reg h.2⟩

end Sys2Proof.Machine

open Sys2Proof Sys2Proof.Machine Sys2Proof.Claims

/-- Settles O11: each element is one rounding of the exact sum, product or fused form. -/
theorem floatArithmetic : Obligations.FloatArithmetic := by
  intro f s x
  refine ⟨fun h => ?_, fun h => ?_, fun h => ?_, fun h => ?_⟩
  · obtain ⟨hf, hd⟩ := legalF2_spec h.encoding
    exact ⟨_, fpCompletes_of h rfl hd (fun _ _ _ _ => fpAdd_lt hf _), fun l j _ => sumIs_fpAdd hf false⟩
  · obtain ⟨hf, hd⟩ := legalF2_spec h.encoding
    exact ⟨_, fpCompletes_of h rfl hd (fun _ _ _ _ => fpAdd_lt hf _), fun l j _ => sumIs_fpAdd hf true⟩
  · obtain ⟨hf, hd⟩ := legalF2_spec h.encoding
    exact ⟨_, fpCompletes_of h rfl hd (fun _ _ _ _ => fpMul_lt hf), fun l j _ => mulIs_fpMul⟩
  · obtain ⟨hf, hd⟩ := legalFfma_spec h.encoding
    exact ⟨_, fpCompletes_of h rfl hd (fun _ _ _ _ => fpFma_lt hf _ _), fun l j _ => fmaIs_fpFma hf _ _⟩

end

section
/-! PROOFS. O14, division, root, power, logarithm and approximations (R234). -/

namespace Sys2Proof.Machine

open Sys2Proof Sys2Proof.Claims

theorem withSign_false (f : Fmt) (mag : ℕ) : withSign f false mag = mag := if_neg (by simp)

/-- A finite number below zero, by its parts. -/
theorem ratOf_eq_neg {v : Num} {q : ℚ} (h : ratOf v = some q) (hq : q < 0) : ∃ m e, v = .fin true m e ∧ m ≠ 0 := by
  obtain ⟨n, m, e, rfl, he⟩ := ratOf_eq_some h
  obtain ⟨rfl, hm⟩ := parts_of_neg he hq
  exact ⟨m, e, rfl, hm⟩

/-- A zero, by its parts. -/
theorem ratOf_eq_zero {v : Num} (h : ratOf v = some 0) : ∃ e, v = .fin v.sign 0 e := by
  obtain ⟨n, m, e, rfl, he⟩ := ratOf_eq_some h
  obtain rfl := (parts_eq_zero he).1 rfl
  exact ⟨e, rfl⟩

/-! ## The results that the rule's table gives (R234) -/

section Special

variable {f : Fmt} {mode word a b : ℕ}

/-! ### `fdiv` -/

theorem fpDiv_zero_left {q : ℚ} (ha : ratOf (numOf f a) = some 0) (hb : ratOf (numOf f b) = some q) (hq : q ≠ 0) :
    fpDiv f mode word a b = (withSign f (xor (numOf f a).sign (numOf f b).sign) 0, 0) := by
  obtain ⟨e1, ha⟩ := ratOf_eq_zero ha
  obtain ⟨n, m, e, hb, hm⟩ := ratOf_eq_some hb
  rw [fpDiv_fin ha hb, if_neg (mt (parts_eq_zero hm).2 hq), if_pos rfl, hb]
  rfl

theorem fpDiv_zero_right {p : ℚ} (ha : ratOf (numOf f a) = some p) (hp : p ≠ 0) (hb : ratOf (numOf f b) = some 0) :
    fpDiv f mode word a b = (withSign f (xor (numOf f a).sign (numOf f b).sign) (fmtInfMag f), Flags.divZero) := by
  obtain ⟨n, m, e, ha, hm⟩ := ratOf_eq_some ha
  obtain ⟨e2, hb⟩ := ratOf_eq_zero hb
  rw [fpDiv_fin ha hb, if_pos rfl, if_neg (mt (parts_eq_zero hm).2 hp), ha]
  rfl

theorem fpDiv_zero_zero (ha : ratOf (numOf f a) = some 0) (hb : ratOf (numOf f b) = some 0) :
    fpDiv f mode word a b = (fmtNan f, Flags.invalid) := by
  obtain ⟨e1, ha⟩ := ratOf_eq_zero ha
  obtain ⟨e2, hb⟩ := ratOf_eq_zero hb
  rw [fpDiv_fin ha hb, if_pos rfl, if_pos rfl]

theorem fpDiv_inf_right {p : ℚ} {n : Bool} (ha : ratOf (numOf f a) = some p) (hb : numOf f b = .inf n) :
    fpDiv f mode word a b = (withSign f (xor (numOf f a).sign (numOf f b).sign) 0, 0) := by
  obtain ⟨n, m, e, ha, -⟩ := ratOf_eq_some ha
  rw [fpDiv_fin_inf ha hb, ha, hb]
  rfl

theorem fpDiv_inf_left {n : Bool} {q : ℚ} (ha : numOf f a = .inf n) (hb : ratOf (numOf f b) = some q) :
    fpDiv f mode word a b = (withSign f (xor (numOf f a).sign (numOf f b).sign) (fmtInfMag f), 0) := by
  obtain ⟨n, m, e, hb, -⟩ := ratOf_eq_some hb
  rw [fpDiv_inf_fin ha hb, ha, hb]
  rfl

/-! ### `fsqrt` -/

theorem fpSqrt_nan (h : (numOf f a).isNan = true) : fpSqrt f mode word a = (fmtNan f, sigFlag [numOf f a]) := by
  obtain ⟨s, h⟩ := isNan_iff.1 h
  simp only [fpSqrt, sigFlag_one, h, Num.isSig]

theorem fpSqrt_inf {n : Bool} (h : numOf f a = .inf n) :
    fpSqrt f mode word a = if n then (fmtNan f, Flags.invalid) else (fmtInfMag f, 0) := by
  simp only [fpSqrt, h]

theorem fpSqrt_zero (h : ratOf (numOf f a) = some 0) : fpSqrt f mode word a = (withSign f (numOf f a).sign 0, 0) := by
  obtain ⟨e, h⟩ := ratOf_eq_zero h
  rw [fpSqrt_fin h, if_pos rfl]

theorem fpSqrt_neg {q : ℚ} (h : ratOf (numOf f a) = some q) (hq : q < 0) : fpSqrt f mode word a = (fmtNan f, Flags.invalid) := by
  obtain ⟨m, e, h, hm⟩ := ratOf_eq_neg h hq
  rw [fpSqrt_fin h, if_neg hm, if_pos rfl]

/-! ### `fex2` -/

theorem fpExp2_nan (h : (numOf f a).isNan = true) : fpExp2 f mode word a = (fmtNan f, sigFlag [numOf f a]) := by
  obtain ⟨s, h⟩ := isNan_iff.1 h
  simp only [fpExp2, sigFlag_one, h, Num.isSig]

theorem fpExp2_inf {n : Bool} (h : numOf f a = .inf n) : fpExp2 f mode word a = if n then (0, 0) else (fmtInfMag f, 0) := by
  simp only [fpExp2, h]

/-! ### `flg2` -/

theorem fpLog2_nan (h : (numOf f a).isNan = true) : fpLog2 f mode word a = (fmtNan f, sigFlag [numOf f a]) := by
  obtain ⟨s, h⟩ := isNan_iff.1 h
  simp only [fpLog2, sigFlag_one, h, Num.isSig]

theorem fpLog2_inf {n : Bool} (h : numOf f a = .inf n) :
    fpLog2 f mode word a = if n then (fmtNan f, Flags.invalid) else (fmtInfMag f, 0) := by
  unfold fpLog2
  rw [h]

theorem fpLog2_zero (h : ratOf (numOf f a) = some 0) : fpLog2 f mode word a = (withSign f true (fmtInfMag f), Flags.divZero) := by
  obtain ⟨e, h⟩ := ratOf_eq_zero h
  unfold fpLog2
  rw [h]
  exact if_pos rfl

theorem fpLog2_neg {q : ℚ} (h : ratOf (numOf f a) = some q) (hq : q < 0) : fpLog2 f mode word a = (fmtNan f, Flags.invalid) := by
  obtain ⟨m, e, h, hm⟩ := ratOf_eq_neg h hq
  unfold fpLog2
  rw [h]
  exact (if_neg hm).trans (if_pos rfl)

/-! ### `frcpa` and `frsqa` -/

theorem fpRcpA_nan (h : (numOf f a).isNan = true) : fpRcpA f a = (fmtNan f, sigFlag [numOf f a]) := by
  obtain ⟨s, h⟩ := isNan_iff.1 h
  simp only [fpRcpA, sigFlag_one, h, Num.isSig]

theorem fpRcpA_inf {n : Bool} (h : numOf f a = .inf n) : fpRcpA f a = (withSign f n 0, 0) := by
  simp only [fpRcpA, h]

theorem fpRcpA_zero (h : ratOf (numOf f a) = some 0) :
    fpRcpA f a = (withSign f (numOf f a).sign (fmtInfMag f), Flags.divZero) := by
  obtain ⟨e, h⟩ := ratOf_eq_zero h
  rw [fpRcpA_fin h, if_pos rfl]

theorem fpRsqA_nan (h : (numOf f a).isNan = true) : fpRsqA f a = (fmtNan f, sigFlag [numOf f a]) := by
  obtain ⟨s, h⟩ := isNan_iff.1 h
  simp only [fpRsqA, sigFlag_one, h, Num.isSig]

theorem fpRsqA_inf {n : Bool} (h : numOf f a = .inf n) : fpRsqA f a = if n then (fmtNan f, Flags.invalid) else (0, 0) := by
  simp only [fpRsqA, h]

theorem fpRsqA_zero (h : ratOf (numOf f a) = some 0) :
    fpRsqA f a = (withSign f (numOf f a).sign (fmtInfMag f), Flags.divZero) := by
  obtain ⟨e, h⟩ := ratOf_eq_zero h
  rw [fpRsqA_fin h, if_pos rfl]

theorem fpRsqA_neg {q : ℚ} (h : ratOf (numOf f a) = some q) (hq : q < 0) : fpRsqA f a = (fmtNan f, Flags.invalid) := by
  obtain ⟨m, e, h, hm⟩ := ratOf_eq_neg h hq
  rw [fpRsqA_fin h, if_neg hm, if_pos rfl]

/-! ## Bounds of the codes -/

section Bounds

variable (hf : fmtIsIeee f = true)
include hf

theorem ieee_codes_lt : (∀ n, withSign f n (fmtInfMag f) < 2 ^ fmtBits f) ∧ (∀ n, withSign f n 0 < 2 ^ fmtBits f) ∧
    fmtInfMag f < 2 ^ fmtBits f ∧ fmtNan f < 2 ^ fmtBits f ∧ 0 < 2 ^ fmtBits f := by
  obtain ⟨-, hinf, hnan⟩ := float_magBound (f := f) (by rw [fmtIsFloat, hf, Bool.true_or])
  refine ⟨fun _ => withSign_lt hinf, fun _ => withSign_lt (Nat.zero_lt_of_lt hinf), ?_, hnan, by positivity⟩
  have := withSign_lt (neg := false) hinf
  rwa [withSign_false] at this

theorem fpDiv_lt : (fpDiv f mode word a b).1 < 2 ^ fmtBits f := by
  obtain ⟨hi, hz, -, hnan, -⟩ := ieee_codes_lt hf
  unfold fpDiv
  cases numOf f a <;> cases numOf f b <;>
    simp only [apply_ite Prod.fst, apply_ite (· < 2 ^ fmtBits f), hnan, hi, hz, roundIeee_lt _ _ _ _ hf, ite_self]

theorem fpSqrt_lt : (fpSqrt f mode word a).1 < 2 ^ fmtBits f := by
  obtain ⟨-, hz, hi, hnan, -⟩ := ieee_codes_lt hf
  unfold fpSqrt
  cases numOf f a <;>
    simp only [apply_ite Prod.fst, apply_ite (· < 2 ^ fmtBits f), hnan, hi, hz, roundIeee_lt _ _ _ _ hf, ite_self]

theorem fpExp2_lt : (fpExp2 f mode word a).1 < 2 ^ fmtBits f := by
  obtain ⟨-, -, hi, hnan, hz⟩ := ieee_codes_lt hf
  unfold fpExp2
  cases numOf f a with
  | nan => exact hnan
  | inf n => simp only [apply_ite Prod.fst, apply_ite (· < 2 ^ fmtBits f), hi, hz, ite_self]
  | fin n m e => dsimp only; split <;> exact roundIeee_lt _ _ _ _ hf

theorem fpLog2_lt : (fpLog2 f mode word a).1 < 2 ^ fmtBits f := by
  obtain ⟨hs, -, hi, hnan, -⟩ := ieee_codes_lt hf
  unfold fpLog2
  cases numOf f a <;>
    simp only [apply_ite Prod.fst, apply_ite (· < 2 ^ fmtBits f), hnan, hi, hs, roundIeee_lt _ _ _ _ hf, roundTo_lt, ite_self]

theorem roundApprox_lt (n : Bool) (x : Mag) : (roundApprox f n x).1 < 2 ^ fmtBits f := by
  obtain ⟨hs, -⟩ := ieee_codes_lt hf
  obtain ⟨hmax, -⟩ := float_magBound (f := f) (by rw [fmtIsFloat, hf, Bool.true_or])
  simp only [roundApprox]
  split
  · exact hs n
  · exact withSign_lt (by omega)

theorem fpRcpA_lt : (fpRcpA f a).1 < 2 ^ fmtBits f := by
  obtain ⟨hs, hz, -, hnan, -⟩ := ieee_codes_lt hf
  unfold fpRcpA
  cases numOf f a <;>
    simp only [apply_ite Prod.fst, apply_ite (· < 2 ^ fmtBits f), hnan, hs, hz, roundApprox_lt hf, ite_self]

theorem fpRsqA_lt : (fpRsqA f a).1 < 2 ^ fmtBits f := by
  obtain ⟨hs, -, -, hnan, hz⟩ := ieee_codes_lt hf
  unfold fpRsqA
  cases numOf f a <;>
    simp only [apply_ite Prod.fst, apply_ite (· < 2 ^ fmtBits f), hnan, hs, hz, roundApprox_lt hf, ite_self]

end Bounds

end Special

theorem legalF1_and {f : FmtA} {rounds : Bool} {p : Bool} (h : (legalF1 f rounds && p) = true) : legalF1 f rounds = true :=
  (Bool.and_eq_true_iff.1 h).1

end Sys2Proof.Machine

open Sys2Proof Sys2Proof.Machine Sys2Proof.Claims

/-- Settles O14: the quotient, the root and the two approximations from their real values, `fex2` and `flg2` at their exact
points, and the special results of each function. -/
theorem floatFunctions : Obligations.FloatFunctions := by
  intro f s x
  refine ⟨fun h => ?_, fun h => ?_, fun h => ?_, fun h => ?_, fun h => ?_, fun h => ?_⟩
  · obtain ⟨hf, hd⟩ := legalF2_spec h.encoding
    exact ⟨_, fpCompletes_of h rfl hd (fun _ _ _ _ => fpDiv_lt hf), fun l j _ => ⟨fpDiv_nan, fun p q => fpDiv_rounded hf,
      fun q => fpDiv_zero_left, fun p => fpDiv_zero_right, fpDiv_zero_zero, fun m n => fpDiv_inf_inf, fun p n => fpDiv_inf_right,
      fun n q => fpDiv_inf_left⟩⟩
  · obtain ⟨hf, hd⟩ := legalF1_spec h.encoding
    exact ⟨_, fpCompletes_of h rfl hd (fun _ _ _ _ => fpSqrt_lt hf), fun l j _ => ⟨fpSqrt_nan, fun q => fpSqrt_rounded hf,
      fpSqrt_zero, fpSqrt_inf, fpSqrt_inf, fun q => fpSqrt_neg⟩⟩
  · obtain ⟨hf, hd⟩ := legalF1_spec (legalF1_and h.encoding)
    exact ⟨_, fpCompletes_of h rfl hd (fun _ _ _ _ => fpExp2_lt hf), fun l j _ => ⟨fpExp2_nan, rfl, fpExp2_inf, fpExp2_inf,
      fun n => fpExp2_rounded hf, fun n c => fpExp2_code hf⟩⟩
  · obtain ⟨hf, hd⟩ := legalF1_spec (legalF1_and h.encoding)
    exact ⟨_, fpCompletes_of h rfl hd (fun _ _ _ _ => fpLog2_lt hf), fun l j _ => ⟨fpLog2_nan, rfl, fpLog2_zero, fpLog2_one hf,
      fun n hn _ => fpLog2_exact hf hn, fpLog2_inf, fpLog2_inf, fun q => fpLog2_neg⟩⟩
  · obtain ⟨hf, hd⟩ := legalF1_spec h.encoding
    exact ⟨_, fpCompletes_of h rfl hd (fun _ _ _ _ => fpRcpA_lt hf), fun l j _ => ⟨fpRcpA_nan, fun q => fpRcpA_rounded hf,
      fpRcpA_zero, fun n => fpRcpA_inf⟩⟩
  · obtain ⟨hf, hd⟩ := legalF1_spec h.encoding
    exact ⟨_, fpCompletes_of h rfl hd (fun _ _ _ _ => fpRsqA_lt hf), fun l j _ => ⟨fpRsqA_nan, fun q => fpRsqA_rounded hf,
      fpRsqA_zero, fpRsqA_inf, fpRsqA_inf, fun q => fpRsqA_neg⟩⟩

end

section
/-! PROOFS. O15, conversions, packing and widening (R235–R237). -/

namespace Sys2Proof.Machine

open Sys2Proof Sys2Proof.Claims

/-! ## One conversion (R235) -/

theorem elem_lt (f : Fmt) (x i : ℕ) : elem f x i < 2 ^ fmtBits f := Nat.mod_lt _ (by positivity)

theorem convInt_eq (ty ty2 : Fmt) (clip : Bool) (code : ℕ) : convInt ty ty2 clip code = clipWrap ty clip (asInt ty2 code) := by
  cases clip <;> rfl

theorem convert_code {ty : Fmt} (hf : fmtIsFloat ty = true) {mode sat code word : ℕ} (hn : (numOf ty code).isNan = false)
    (hc : code < 2 ^ fmtBits ty) : convert ty ty mode sat code word = (code, 0) := by
  simp only [convert, hf, and_self, if_true]
  split
  · rename_i h
    rw [h] at hn
    cases hn
  · rw [Nat.mod_eq_of_lt hc]

theorem convert_round {ty ty2 : Fmt} {mode sat code word : ℕ} (h : ty ≠ ty2 ∨ (numOf ty2 code).isNan = true) :
    convert ty ty2 mode sat code word = roundTo ty mode sat (numOf ty2 code) false word := by
  simp only [convert]
  split
  · rename_i hf
    obtain ⟨s, hs⟩ := isNan_iff.1 (h.resolve_left (fun hne => hne hf.1))
    simp only [hs]
  · rfl

/-- A format is an integer's or has an exponent. -/
theorem isFloat_of_not_int {f : Fmt} (h : fmtIsInt f = false) : fmtIsFloat f = true := by
  cases f with
  | b8 | f64 | f32 | f16 | bf16 => rfl
  | _ => cases h

theorem convIs_cvtCode {ty ty2 : Fmt} {mode sat : ℕ} {clip : Bool} {code word : ℕ} (hc : code < 2 ^ fmtBits ty2) :
    ConvIs ty ty2 mode sat clip code word (cvtCode ty ty2 mode sat clip code word) := by
  refine ⟨fun hi => ?_, fun hi he hn => ?_, fun hi h => ?_⟩
  · obtain ⟨h1, h2⟩ := asInt_clipWrap ty (asInt ty2 code)
    rw [cvtCode, if_pos hi, convInt_eq]
    exact ⟨rfl, wrapTo_lt _ _, fun hcl => hcl ▸ h1, fun hcl => hcl ▸ h2⟩
  · subst he
    rw [cvtCode, if_neg (by rw [hi]; exact Bool.false_ne_true)]
    exact convert_code (isFloat_of_not_int (by simpa using hi)) hn hc
  · rw [cvtCode, if_neg (by rw [hi]; exact Bool.false_ne_true)]
    exact convert_round h

theorem cvtCode_lt (ty ty2 : Fmt) (mode sat : ℕ) (clip : Bool) (code word : ℕ) :
    (cvtCode ty ty2 mode sat clip code word).1 < 2 ^ fmtBits ty := by
  unfold cvtCode
  split
  · exact wrapTo_lt _ _
  · simp only [convert]
    split
    · split
      · exact roundTo_lt _ _ _ _ _
      · exact Nat.mod_lt _ (by positivity)
    · exact roundTo_lt _ _ _ _ _

/-! ## `cvt` -/

theorem widenCode_eq (f : Fmt) (v : ℕ) : widenCode f v = if f = .i8 ∨ f = .i16 then wrapTo 32 (asInt f v) else v := by
  cases f <;> rfl

theorem widenCode_lt {f : Fmt} {v : ℕ} (h : v < 2 ^ fmtBits f) : widenCode f v < 2 ^ (32 * fmtRegs f) := by
  have hle : fmtBits f ≤ 32 * fmtRegs f := by
    unfold fmtRegs
    cases f <;> simp [fmtBits]
  rw [widenCode_eq]
  split
  · refine (wrapTo_lt 32 _).trans_le (Nat.pow_le_pow_right two_pos ?_)
    rcases regs_cases f with h | h <;> omega
  · exact h.trans_le (Nat.pow_le_pow_right two_pos hle)

theorem legalCvt_reg {f : FmtA} (h : legalCvt f = true) : oprIsV f.d = true ∨ oprIsS f.d = true := by
  simp only [legalCvt, Bool.and_eq_true] at h
  exact dstVS_reg h.2

/-! ## Lists of elements -/

/-- Elements of a list with their places, by place. -/
theorem map_zipIdx (xs : List ℕ) (g : ℕ → ℕ → ℕ × Flags) :
    xs.zipIdx.map (fun e => g e.1 e.2) = (List.range xs.length).map (fun j => g (xs.getD j 0) j) := by
  refine List.ext_getElem (by simp) (fun j h _ => ?_)
  have hj : j < xs.length := by simpa using h
  simp [hj]

/-- Packed results of the elements of a list. -/
theorem packFlagged_zipIdx (f : Fmt) (xs : List ℕ) (g : ℕ → ℕ → ℕ × Flags) :
    packFlagged f (xs.zipIdx.map (fun e => g e.1 e.2)) =
      (packElems f ((List.range xs.length).map (fun j => (g (xs.getD j 0) j).1)), elemFlags xs.length (fun j => g (xs.getD j 0) j)) := by
  rw [map_zipIdx, packFlagged_range]

/-! ## `pack` (R236) -/

theorem getVs_one (c : Crew) (r l : ℕ) : c.getVs r l 1 = (c.getV r l).toNat := by simp [Crew.getVs]

theorem getVs_two (c : Crew) (r l : ℕ) : c.getVs r l 2 = (c.getV r l).toNat + 2 ^ 32 * (c.getV (r + 1) l).toNat := by
  simp [Crew.getVs]

/-- The two registers of a pair, from its value. -/
theorem getVs_two_mod (c : Crew) (r l : ℕ) : c.getVs r l 2 % 2 ^ 32 = (c.getV r l).toNat ∧
    c.getVs r l 2 / 2 ^ 32 = (c.getV (r + 1) l).toNat := by
  have := (c.getV r l).isLt
  rw [getVs_two]
  omega

/-- The halves of a register. -/
theorem elem_half {f : Fmt} (hf : fmtBits f = 16) (w : Word) : elem f w.toNat 0 = w.toNat % 2 ^ 16 ∧
    elem f w.toNat 1 = w.toNat / 2 ^ 16 := by
  have := w.isLt
  unfold elem
  rw [hf]
  omega

/-- The sources of a `pack`, element 0 first. -/
def packOrder (x : Cx) (f : FmtA) (ra rb : BitVec 8) (l : ℕ) : List ℕ :=
  let reg := fun (r : BitVec 8) i => (x.cr.getV (x.cr.vName r.toNat + i) l).toNat
  if fmtBits f.ty = 16 then [reg ra 0, reg rb 0]
  else if fmtBits f.ty2 = 32 then [reg ra 0, reg ra 1, reg rb 0, reg rb 1]
  else [reg ra 0 % 2 ^ 16, reg ra 0 / 2 ^ 16, reg rb 0 % 2 ^ 16, reg rb 0 / 2 ^ 16]

theorem fmtBits_b8 {f : Fmt} (h : fmtIsB8 f = true) : fmtBits f = 8 := by
  cases f with
  | b8 => rfl
  | _ => cases h

theorem fmtBits_tyP {f : Fmt} (h : tyP f = true) : fmtBits f = 16 ∨ fmtBits f = 8 := by
  cases f with
  | i16 | n16 => exact .inl rfl
  | i8 | n8 => exact .inr rfl
  | _ => cases h

/-- The widths of a `pack`'s formats. -/
def packWidths (f : FmtA) : Prop :=
  (fmtBits f.ty = 16 ∧ fmtBits f.ty2 = 32) ∨ (fmtBits f.ty = 8 ∧ (fmtBits f.ty2 = 32 ∨ fmtBits f.ty2 = 16))

theorem legalPack_spec {f : FmtA} (h : legalPack f = true) : oprIsV f.d = true ∧ packWidths f := by
  simp only [legalPack, dstV, Bool.and_eq_true, Bool.or_eq_true, beq_iff_eq] at h
  obtain ⟨⟨⟨⟨⟨⟨⟨⟨⟨hrows, -⟩, -⟩, -⟩, -⟩, -⟩, -⟩, hd, -⟩, -⟩, -⟩ := h
  refine ⟨hd, ?_⟩
  unfold packWidths
  rcases hrows with (⟨h2, ((((h | h) | h) | h) | h)⟩ | ⟨h2 | h2, h⟩) | ⟨⟨h2 | h2, h⟩, -⟩
  · rw [h2, h]
    exact .inl ⟨rfl, rfl⟩
  · rw [h2, h]
    exact .inl ⟨rfl, rfl⟩
  · rw [h2, fmtBits_b8 h]
    exact .inr ⟨rfl, .inl rfl⟩
  · rw [h2, h]
    exact .inr ⟨rfl, .inl rfl⟩
  · rw [h2, h]
    exact .inr ⟨rfl, .inl rfl⟩
  · rw [h2, fmtBits_b8 h]
    exact .inr ⟨rfl, .inr rfl⟩
  · rw [h2, fmtBits_b8 h]
    exact .inr ⟨rfl, .inr rfl⟩
  · rw [h2]
    exact (fmtBits_tyP h).imp (fun h => ⟨h, rfl⟩) (fun h => ⟨h, .inl rfl⟩)
  · rw [h2]
    exact (fmtBits_tyP h).imp (fun h => ⟨h, rfl⟩) (fun h => ⟨h, .inl rfl⟩)

theorem packSources_eq {x : Cx} {f : FmtA} {ra rb : BitVec 8} (h : packWidths f) (ha : f.a = .v ra) (hb : f.b = .v rb) (l : ℕ) :
    packSources x f l = packOrder x f ra rb l := by
  unfold packSources packOrder
  rcases h with ⟨h1, h2⟩ | ⟨h1, h2 | h2⟩
  · simp [h1, ha, hb, Cx.val, getVs_one]
  · have hm := fun r => (getVs_two_mod x.cr r l).1
    have hd := fun r => (getVs_two_mod x.cr r l).2
    norm_num at hm hd
    simp [h1, h2, ha, hb, Cx.val, hm, hd]
  · simp [h1, h2, ha, hb, Cx.val, getVs_one, (elem_half h2 _).1, (elem_half h2 _).2]

theorem packOrder_length {x : Cx} {f : FmtA} (h : packWidths f) (ra rb : BitVec 8) (l : ℕ) :
    fmtBits f.ty * (packOrder x f ra rb l).length = 32 := by
  unfold packOrder
  rcases h with ⟨h1, h2⟩ | ⟨h1, h2 | h2⟩ <;> simp [h1, h2]

theorem packOrder_lt {x : Cx} {f : FmtA} (h : packWidths f) (ra rb : BitVec 8) {l c : ℕ} (hc : c ∈ packOrder x f ra rb l) :
    c < 2 ^ fmtBits f.ty2 := by
  have hreg := fun (r : ℕ) => (x.cr.getV r l).isLt
  unfold packOrder at hc
  rcases h with ⟨h1, h2⟩ | ⟨h1, h2 | h2⟩
  · simp only [h1, if_true, List.mem_cons, List.not_mem_nil, or_false] at hc
    rw [h2]
    rcases hc with rfl | rfl <;> exact hreg _
  · simp only [h1, h2, if_true, Nat.reduceEqDiff, if_false, List.mem_cons, List.not_mem_nil, or_false] at hc
    rw [h2]
    rcases hc with rfl | rfl | rfl | rfl <;> exact hreg _
  · simp only [h1, h2, Nat.reduceEqDiff, if_false, List.mem_cons, List.not_mem_nil, or_false] at hc
    have ha := hreg (x.cr.vName ra.toNat + 0)
    have hb := hreg (x.cr.vName rb.toNat + 0)
    rw [h2]
    omega

/-! ## `unpack` (R237, R90) -/

/-- The formats of an `unpack`. -/
theorem legalUnpack_spec {f : FmtA} (h : legalUnpack f = true) : oprIsV f.d = true ∧
    (fmtBits f.ty = 16 ∨ fmtBits f.ty = 32) ∧
    (f.sub.getLsbD 2 = true → fmtIsIeee f.ty = true ∧ (fmtIsB8 f.ty2 = true ∨ f.ty2 = .i8)) := by
  simp only [legalUnpack, dstV, Bool.and_eq_true] at h
  obtain ⟨⟨⟨⟨⟨⟨⟨⟨⟨⟨hrows, -⟩, -⟩, -⟩, -⟩, -⟩, -⟩, -⟩, hd, -⟩, -⟩, -⟩ := h
  refine ⟨hd, ?_⟩
  by_cases hs : f.sub.getLsbD 2 = true
  · simp only [hs, if_true, Bool.and_eq_true, Bool.or_eq_true, beq_iff_eq] at hrows
    obtain ⟨h2, h | h | h⟩ := hrows
    · rw [h]
      exact ⟨.inr rfl, fun _ => ⟨rfl, h2⟩⟩
    · rw [h]
      exact ⟨.inl rfl, fun _ => ⟨rfl, h2⟩⟩
    · rw [h]
      exact ⟨.inl rfl, fun _ => ⟨rfl, h2⟩⟩
  · simp only [hs, Bool.false_eq_true, if_false, Bool.and_eq_true, Bool.or_eq_true, beq_iff_eq] at hrows
    refine ⟨?_, fun h => absurd h hs⟩
    rcases hrows with ((⟨h, -⟩ | ⟨h, -⟩) | ⟨h, -⟩) | ⟨h | h, -⟩
    · rw [h]
      exact .inr rfl
    · rw [h]
      exact .inr rfl
    · rw [h]
      exact .inr rfl
    · rw [h]
      exact .inl rfl
    · rw [h]
      exact .inl rfl

theorem magValue_isSig (f : Fmt) (neg : Bool) (mag : ℕ) : (magValue f neg mag).isSig = false := by
  simp only [magValue]
  split <;> rfl

/-- A NaN of a binary8 or an integer format does not signal. -/
theorem numOf_quiet {f : Fmt} (hf : fmtIsB8 f = true ∨ f = .i8) {code : ℕ} (h : (numOf f code).isNan = true) :
    numOf f code = .nan false := by
  have hs : (numOf f code).isSig = false := by
    rcases hf with hf | rfl
    · cases f with
      | b8 uns ext p =>
        have hn : (Num.nan false).isSig = false := rfl
        have hi : ∀ n, (Num.inf n).isSig = false := fun _ => rfl
        simp only [numOf, apply_ite Num.isSig, magValue_isSig, hn, hi, ite_self]
      | _ => cases hf
    · rfl
  obtain ⟨s, hn⟩ := isNan_iff.1 h
  rw [hn] at hs ⊢
  exact congrArg _ hs

/-- The product of a number and a power of two is exact (R90). -/
theorem ratOf_scale {v : Num} {q : ℚ} (h : ratOf v = some q) (k : ℤ) : ratOf (v.scale k) = some (q * 2 ^ k) := by
  obtain ⟨n, m, e, rfl, rfl⟩ := ratOf_eq_some h
  rw [Num.scale, ratOf, zpow_add₀ two_ne_zero]
  congr 1
  ring

/-- A scaled element that is a NaN, or whose scale is, becomes the default NaN (R90). -/
theorem scaledNum_nan {f : Fmt} (hf : fmtIsB8 f = true ∨ f = .i8) {code sc : ℕ} (hsc : sc < 256)
    (h : sc = 255 ∨ (numOf f code).isNan = true) : scaledNum f code sc = .nan false := by
  unfold scaledNum scaleExp
  rw [Nat.mod_eq_of_lt hsc]
  by_cases h255 : sc = 255
  · rw [if_pos h255]
  · rw [if_neg h255]
    dsimp only
    rw [numOf_quiet hf (h.resolve_left h255)]
    rfl

theorem scaledNum_fin {f : Fmt} {code sc : ℕ} {q : ℚ} (hsc : sc < 256) (h255 : sc ≠ 255) (h : ratOf (numOf f code) = some q) :
    ratOf (scaledNum f code sc) = some (q * 2 ^ ((sc : ℤ) - 128)) := by
  unfold scaledNum scaleExp
  rw [Nat.mod_eq_of_lt hsc, if_neg h255]
  exact ratOf_scale h _

/-- Where in its register the source of an element of an `unpack` stands. -/
def unpackPlace (f : FmtA) (j : ℕ) : ℕ :=
  if (if fmtBits f.ty = 16 then 2 else 1) = 2 then 2 * (f.sub.toNat % 4) + j else f.sub.toNat % 4

/-- The places of an `unpack`'s elements. -/
def unpackPlaces (f : FmtA) : List ℕ :=
  if fmtBits f.ty = 16 then [2 * (f.sub.toNat % 4), 2 * (f.sub.toNat % 4) + 1] else [f.sub.toNat % 4]

theorem unpackPlaces_length (f : FmtA) : (unpackPlaces f).length = if fmtBits f.ty = 16 then 2 else 1 := by
  unfold unpackPlaces
  split <;> rfl

theorem unpackPlaces_getD (f : FmtA) {j : ℕ} (hj : j < if fmtBits f.ty = 16 then 2 else 1) :
    (unpackPlaces f).getD j 0 = unpackPlace f j := by
  unfold unpackPlaces unpackPlace
  split at hj
  · rename_i h
    simp only [h, if_true]
    match j, hj with
    | 0, _ => rfl
    | 1, _ => rfl
  · rename_i h
    obtain rfl : j = 0 := by omega
    simp [h]

theorem unpackCode_lt (f : FmtA) (code word : ℕ) (sc : Option ℕ) : (unpackCode f code word sc).1 < 2 ^ fmtBits f.ty := by
  cases sc with
  | none => exact cvtCode_lt _ _ _ _ _ _ _
  | some k => exact roundTo_lt _ _ _ _ _

/-- An instruction that packs its elements into one register completes. -/
theorem packCompletes_of {i : Instr} {s : State} {x : Cx} {f : FmtA} {eff : Cx → Res} {xs : ℕ → List ℕ} {g : ℕ → ℕ → ℕ → ℕ × Flags}
    (h : Ready i s x) (hx : exec i s = issueWith i s eff)
    (he : eff x = crewRes x (srDrawn x f.rnd.toNat f.fx.toNat
      (flaggedLanes x f.d 1 (fun l => packFlagged f.ty ((xs l).zipIdx.map (fun e => g l e.1 e.2))))))
    (hd : oprIsV f.d = true) (hlen : ∀ l, fmtBits f.ty * (xs l).length ≤ 32) (hg : ∀ l c j, (g l c j).1 < 2 ^ fmtBits f.ty) :
    ∃ v : ℕ → ℕ, LaneCompletes i s x f 1 (fun l => (v l, elemFlags (xs l).length (fun j => g l ((xs l).getD j 0) j))) ∧
      (∀ l, v l < 2 ^ 32) ∧ ∀ l j, j < (xs l).length → elem f.ty (v l) j = (g l ((xs l).getD j 0) j).1 := by
  simp only [packFlagged_zipIdx] at he
  have hlt := fun l => packElems_range_lt f.ty (hlen l) (fun j => (g l ((xs l).getD j 0) j).1)
  exact ⟨_, laneCompletes_of h hx he (.inl rfl) (.inl hd) (fun l _ => hlt l), hlt,
    fun l j hj => (elem_packElems_range f.ty hj _).trans (Nat.mod_eq_of_lt (hg _ _ _))⟩

section Instructions

variable (f : FmtA) (x : Cx)

/-- The conversion of element `j` of a lane. -/
def cvtElem (sat : ℕ) (clip : Bool) (l c j : ℕ) : ℕ × Flags :=
  cvtCode f.ty f.ty2 f.rnd.toNat sat clip c (srWord x f.rnd.toNat f.fx.toNat l j)

/-- The widening of element `j` of a lane, under the scale of the lane where there is one. -/
def unpackElem (l c j : ℕ) : ℕ × Flags :=
  unpackCode f (elem f.ty2 (x.val f.a 1 l (constElems f.ty2)) c) (srWord x f.rnd.toNat f.fx.toNat l j)
    (if f.sub.getLsbD 2 then some (x.val f.b 1 l (fun c => wrapTo 32 c.toInt) % 256) else none)

variable {f x} {s : State}

theorem cvt_completes (h : Ready (.cvt f) s x) :
    LaneCompletes (.cvt f) s x f (fmtRegs f.ty) (fun l =>
      let r := cvtElem f x f.sat.toNat (f.sub.getLsbD 2) l (elem f.ty2 (fpSrc x f.ty2 f.a l) (f.sub.toNat % 4)) 0
      (widenCode f.ty r.1, r.2)) :=
  laneCompletes_of h rfl rfl (regs_cases f.ty) (legalCvt_reg h.encoding) (fun _ _ => widenCode_lt (cvtCode_lt _ _ _ _ _ _ _))

theorem pack_completes (h : Ready (.pack f) s x) {ra rb : BitVec 8} (ha : f.a = .v ra) (hb : f.b = .v rb) :
    ∃ v : ℕ → ℕ, LaneCompletes (.pack f) s x f 1 (fun l => (v l, elemFlags (packOrder x f ra rb l).length
        (fun j => cvtElem f x f.sat.toNat true l ((packOrder x f ra rb l).getD j 0) j))) ∧
      (∀ l, v l < 2 ^ 32) ∧ ∀ l j c, (packOrder x f ra rb l)[j]? = some c →
        elem f.ty (v l) j = (cvtElem f x f.sat.toNat true l ((packOrder x f ra rb l).getD j 0) j).1 ∧
        ConvIs f.ty f.ty2 f.rnd.toNat f.sat.toNat true c (srWord x f.rnd.toNat f.fx.toNat l j)
          (cvtElem f x f.sat.toNat true l ((packOrder x f ra rb l).getD j 0) j) := by
  obtain ⟨hd, hw⟩ := legalPack_spec h.encoding
  have hs := fun l => packSources_eq (x := x) hw ha hb l
  obtain ⟨v, hc, hv, he⟩ := packCompletes_of (xs := packSources x f) (g := cvtElem f x f.sat.toNat true) h rfl rfl hd
    (fun l => by rw [hs, packOrder_length hw]) (fun _ _ _ => cvtCode_lt _ _ _ _ _ _ _)
  simp only [hs] at hc he
  refine ⟨v, hc, hv, fun l j c hj => ?_⟩
  obtain ⟨hlt, rfl⟩ := List.getElem?_eq_some_iff.1 hj
  have hg : (packOrder x f ra rb l).getD j 0 = (packOrder x f ra rb l)[j] := by simp [hlt]
  refine ⟨he l j hlt, ?_⟩
  rw [hg]
  exact convIs_cvtCode (packOrder_lt hw ra rb (List.getElem_mem hlt))

theorem unpack_completes (h : Ready (.unpack f) s x) :
    ∃ v : ℕ → ℕ, LaneCompletes (.unpack f) s x f 1 (fun l => (v l, elemFlags (unpackPlaces f).length
        (fun j => unpackElem f x l ((unpackPlaces f).getD j 0) j))) ∧
      (∀ l, v l < 2 ^ 32) ∧ ∀ l j, j < (unpackPlaces f).length →
        elem f.ty (v l) j = (unpackElem f x l ((unpackPlaces f).getD j 0) j).1 := by
  obtain ⟨hd, hw, -⟩ := legalUnpack_spec h.encoding
  refine packCompletes_of (xs := fun _ => unpackPlaces f) (g := unpackElem f x) h rfl rfl hd (fun l => ?_)
    (fun _ _ _ => unpackCode_lt _ _ _ _)
  rw [unpackPlaces_length]
  split <;> omega

theorem unpackElem_unscaled (h : f.sub.getLsbD 2 = false) (l c j : ℕ) :
    ConvIs f.ty f.ty2 f.rnd.toNat 0 false (elem f.ty2 (x.val f.a 1 l (constElems f.ty2)) c) (srWord x f.rnd.toNat f.fx.toNat l j)
      (unpackElem f x l c j) := by
  rw [unpackElem, h]
  exact convIs_cvtCode (elem_lt _ _ _)

theorem scale_lt (l : ℕ) : x.val f.b 1 l (fun c => wrapTo 32 c.toInt) % 256 < 256 := Nat.mod_lt _ (by norm_num)

theorem unpackElem_nan (hl : legalUnpack f = true) (h : f.sub.getLsbD 2 = true) {l c j : ℕ}
    (hn : x.val f.b 1 l (fun c => wrapTo 32 c.toInt) % 256 = 255 ∨
      (numOf f.ty2 (elem f.ty2 (x.val f.a 1 l (constElems f.ty2)) c)).isNan = true) :
    unpackElem f x l c j = (fmtNan f.ty, 0) := by
  obtain ⟨hf, hq⟩ := (legalUnpack_spec hl).2.2 h
  rw [unpackElem, h, if_pos rfl, unpackCode, scaledNum_nan hq (scale_lt l) hn, roundTo_ieee_nan hf]
  rfl

theorem unpackElem_scaled (h : f.sub.getLsbD 2 = true) {l c j : ℕ} {q : ℚ}
    (hs : x.val f.b 1 l (fun c => wrapTo 32 c.toInt) % 256 ≠ 255)
    (hq : ratOf (numOf f.ty2 (elem f.ty2 (x.val f.a 1 l (constElems f.ty2)) c)) = some q) :
    ∃ z, ratOf z = some (q * 2 ^ (((x.val f.b 1 l (fun c => wrapTo 32 c.toInt) % 256 : ℕ) : ℤ) - 128)) ∧
      unpackElem f x l c j = roundTo f.ty f.rnd.toNat 0 z false (srWord x f.rnd.toNat f.fx.toNat l j) := by
  rw [unpackElem, h]
  exact ⟨_, scaledNum_fin (scale_lt l) hs hq, rfl⟩

end Instructions

end Sys2Proof.Machine

open Sys2Proof Sys2Proof.Machine Sys2Proof.Claims

/-- Settles O15: every element is one conversion, and the packed register holds the elements in their order. -/
theorem conversions : Obligations.Conversions := by
  intro f s x
  refine ⟨fun h => ?_, fun h ra rb ha hb => ?_, fun h => ?_⟩
  · refine ⟨_, ?_, fun l => convIs_cvtCode (elem_lt _ _ _)⟩
    simp only [← widenCode_eq]
    exact cvt_completes h
  · obtain ⟨v, hpack⟩ := pack_completes h ha hb
    exact ⟨_, v, hpack⟩
  · obtain ⟨v, hc, hv, he⟩ := unpack_completes h
    rw [unpackPlaces_length] at hc he
    refine ⟨_, v, hc, hv, fun l j hj => ⟨he l j hj, ?_⟩⟩
    rw [unpackPlaces_getD f hj]
    exact ⟨fun h2 => unpackElem_unscaled h2 _ _ _, fun h2 => unpackElem_nan h.encoding h2, fun h2 _ => unpackElem_scaled h2⟩

end

section
/-! PROOFS. O8, reductions and scans (R99, R100, R219): the tree and the steps over lanes, and what they fold. -/

namespace Sys2Proof.Machine

open Sys2Proof Sys2Proof.Claims

/-! ## The balanced tree (R99) -/

section Tree

variable (op : ℕ → ℕ → ℕ × Flags)

theorem combineOpt_eq (a b : Option ℕ) : combineOpt op a b = joined op a b := by
  cases a <;> cases b <;> rfl

theorem treeLevel_cons (a b : Option ℕ) (l : List (Option ℕ)) : treeLevel op (a :: b :: l) =
    ((joined op a b).1 :: (treeLevel op l).1, (joined op a b).2 ||| (treeLevel op l).2) := by
  rw [← combineOpt_eq]
  rfl

/-- A level of a list that begins with whole pairs. -/
theorem treeLevel_append : ∀ (n : ℕ) (l l' : List (Option ℕ)), l.length = 2 * n → treeLevel op (l ++ l') =
      ((treeLevel op l).1 ++ (treeLevel op l').1, (treeLevel op l).2 ||| (treeLevel op l').2) ∧ (treeLevel op l).1.length = n
  | 0, l, l', h => by
    obtain rfl := List.length_eq_zero_iff.1 h
    simp [treeLevel]
  | n + 1, a :: b :: l, l', h => by
    obtain ⟨h1, h2⟩ := treeLevel_append n l l' (by simp only [List.length_cons] at h; omega)
    simp only [List.cons_append, treeLevel_cons, h1, List.length_cons, h2, BitVec.or_assoc, and_self]
  | n + 1, [a], l', h => by simp only [List.length_cons, List.length_nil] at h; omega
  | n + 1, [], l', h => by simp only [List.length_nil] at h; omega

theorem treeReduce_succ (n : ℕ) (l : List (Option ℕ)) : treeReduce op (n + 1) l =
    ((treeReduce op n (treeLevel op l).1).1, (treeLevel op l).2 ||| (treeReduce op n (treeLevel op l).1).2) := rfl

/-- The last level may be split off. -/
theorem treeReduce_last : ∀ (n : ℕ) (l : List (Option ℕ)), treeReduce op (n + 1) l =
    ((treeLevel op (treeReduce op n l).1).1, (treeReduce op n l).2 ||| (treeLevel op (treeReduce op n l).1).2)
  | 0, l => by simp [treeReduce]
  | n + 1, l => by
    rw [treeReduce_succ, treeReduce_last n, treeReduce_succ op n, BitVec.or_assoc]

/-- Two lists of whole trees are reduced side by side. -/
theorem treeReduce_append : ∀ (n m : ℕ) (l l' : List (Option ℕ)), l.length = 2 ^ n * m → treeReduce op n (l ++ l') =
    ((treeReduce op n l).1 ++ (treeReduce op n l').1, (treeReduce op n l).2 ||| (treeReduce op n l').2)
  | 0, m, l, l', h => by simp [treeReduce]
  | n + 1, m, l, l', h => by
    obtain ⟨h1, h2⟩ := treeLevel_append op (2 ^ n * m) l l' (by rw [h]; ring)
    rw [treeReduce_succ, treeReduce_succ, treeReduce_succ, h1, treeReduce_append n m _ _ h2]
    simp only [Prod.mk.injEq, true_and]
    ac_rfl

/-- The values of the lanes of block `i` of `2^k` lanes. -/
def blockOf (v : ℕ → Option ℕ) (k i : ℕ) : List (Option ℕ) := (List.range' (2 ^ k * i) (2 ^ k)).map v

theorem range'_block (k i : ℕ) : List.range' (2 ^ (k + 1) * i) (2 ^ (k + 1)) =
    List.range' (2 ^ k * (2 * i)) (2 ^ k) ++ List.range' (2 ^ k * (2 * i + 1)) (2 ^ k) := by
  rw [show 2 ^ k * (2 * i + 1) = 2 ^ k * (2 * i) + 1 * 2 ^ k by ring, List.range'_append]
  congr 1 <;> ring

/-- The tree over a block is its node. -/
theorem treeReduce_block (v : ℕ → Option ℕ) : ∀ k i, treeReduce op k (blockOf v k i) = ([(treeAt op v k i).1], (treeAt op v k i).2)
  | 0, i => by simp [treeReduce, blockOf, treeAt]
  | k + 1, i => by
    have hb : blockOf v (k + 1) i = blockOf v k (2 * i) ++ blockOf v k (2 * i + 1) := by
      rw [blockOf, range'_block, List.map_append]
      rfl
    rw [treeReduce_last, hb, treeReduce_append op k 1 _ _ (by simp [blockOf]), treeReduce_block v k, treeReduce_block v k]
    simp [treeLevel_cons, treeAt, treeLevel]

/-- What the nodes of the tree have, when the lanes have it and combinations keep it. -/
theorem treeAt_induct {v : ℕ → Option ℕ} {act : ℕ → Bool} {Q : List ℕ → Option ℕ → Prop} (h0 : ∀ i, Q ([i].filter act) (v i))
    (hj : ∀ xs ys p q, Q xs p → Q ys q → Q (xs ++ ys) (joined op p q).1) :
    ∀ k i, Q ((List.range' (2 ^ k * i) (2 ^ k)).filter act) (treeAt op v k i).1
  | 0, i => by simpa [treeAt] using h0 i
  | k + 1, i => by
    rw [range'_block, List.filter_append]
    exact hj _ _ _ _ (treeAt_induct h0 hj k _) (treeAt_induct h0 hj k _)

theorem treeAt_flags {v : ℕ → Option ℕ} (h : ∀ a b, (joined op a b).2 = 0) : ∀ k i, (treeAt op v k i).2 = 0
  | 0, _ => rfl
  | k + 1, i => by simp [treeAt, treeAt_flags h k, h]

end Tree

/-! ## The steps of rising distance (R100) -/

section Steps

variable (op : ℕ → ℕ → ℕ × Flags)

theorem foldl_flags (ls : List ℕ) (fl : ℕ → Flags) (c : Flags) : ls.foldl (fun f l => f ||| fl l) c = c ||| allFlags ls fl := by
  induction ls generalizing c with
  | nil => simp [allFlags]
  | cons a ls ih =>
    rw [allFlags, List.foldl_cons, List.foldl_cons, ih, ih (0 ||| fl a)]
    simp [BitVec.or_assoc]

theorem allFlags_range_succ (n : ℕ) (fl : ℕ → Flags) :
    allFlags (List.range (n + 1)) fl = fl 0 ||| allFlags (List.range n) (fun k => fl (k + 1)) := by
  rw [List.range_succ_eq_map, allFlags, List.foldl_cons, foldl_flags, allFlags, List.foldl_map]
  simp [allFlags]

/-- One step over all lanes. -/
theorem scanStep_eq (v : ℕ → Option ℕ) (k : ℕ) :
    (List.range ((List.range 32).map (fun i => (prefixAt op v k i).1)).length).map (fun i =>
      if 2 ^ k ≤ i then combineOpt op (((List.range 32).map (fun i => (prefixAt op v k i).1)).getD (i - 2 ^ k) none)
        (((List.range 32).map (fun i => (prefixAt op v k i).1)).getD i none)
      else (((List.range 32).map (fun i => (prefixAt op v k i).1)).getD i none, (0 : Flags))) =
    (List.range 32).map (prefixAt op v (k + 1)) := by
  rw [List.length_map, List.length_range]
  refine List.map_congr_left (fun i hi => ?_)
  have hi := List.mem_range.1 hi
  have hget : ∀ j, j < 32 → ((List.range 32).map (fun i => (prefixAt op v k i).1)).getD j none = (prefixAt op v k j).1 :=
    fun j hj => by simp [List.getD_eq_getElem?_getD, hj]
  rw [prefixAt, hget i hi, hget (i - 2 ^ k) ((Nat.sub_le _ _).trans_lt hi), combineOpt_eq]

/-- The lanes after the steps that are still to come, from those after `k` steps. -/
theorem scanSteps_prefix (v : ℕ → Option ℕ) : ∀ n k, scanSteps op n (2 ^ k) ((List.range 32).map (fun i => (prefixAt op v k i).1)) =
    ((List.range 32).map (fun i => (prefixAt op v (k + n) i).1),
      allFlags (List.range n) (fun j => allFlags (List.range 32) (fun l => (prefixAt op v (k + j + 1) l).2)))
  | 0, k => rfl
  | n + 1, k => by
    rw [scanSteps]
    simp only [scanStep_eq]
    rw [List.map_map, ← pow_succ', List.foldl_map, foldl_flags]
    have ih := scanSteps_prefix v n (k + 1)
    simp only [Function.comp_def]
    rw [ih, allFlags_range_succ n, BitVec.or_comm]
    simp only [Nat.add_right_comm k 1, Nat.add_assoc k]

/-- The lanes whose values lane `i` has after `k` steps. -/
def windowOf (k i : ℕ) : List ℕ := List.range' (i + 1 - 2 ^ k) (min (i + 1) (2 ^ k))

theorem windowOf_succ {k i : ℕ} (h : 2 ^ k ≤ i) : windowOf (k + 1) i = windowOf k (i - 2 ^ k) ++ windowOf k i := by
  have hp : 2 ^ (k + 1) = 2 * 2 ^ k := by ring
  have h1 : i + 1 - 2 ^ k = i - 2 ^ k + 1 - 2 ^ k + 1 * min (i - 2 ^ k + 1) (2 ^ k) := by omega
  rw [windowOf, windowOf, windowOf, h1, List.range'_append]
  congr 1 <;> omega

theorem windowOf_succ_low {k i : ℕ} (h : ¬2 ^ k ≤ i) : windowOf (k + 1) i = windowOf k i := by
  have hp : 2 ^ (k + 1) = 2 * 2 ^ k := by ring
  rw [windowOf, windowOf]
  congr 1 <;> omega

/-- What the lanes have after each step, when they have it before and combinations keep it. -/
theorem prefixAt_induct {v : ℕ → Option ℕ} {act : ℕ → Bool} {Q : List ℕ → Option ℕ → Prop} (h0 : ∀ i, Q ([i].filter act) (v i))
    (hj : ∀ xs ys p q, Q xs p → Q ys q → Q (xs ++ ys) (joined op p q).1) :
    ∀ k i, Q ((windowOf k i).filter act) (prefixAt op v k i).1
  | 0, i => by simpa [prefixAt, windowOf] using h0 i
  | k + 1, i => by
    rw [prefixAt]
    split
    · rename_i h
      rw [windowOf_succ h, List.filter_append]
      exact hj _ _ _ _ (prefixAt_induct h0 hj k _) (prefixAt_induct h0 hj k _)
    · rename_i h
      rw [windowOf_succ_low h]
      exact prefixAt_induct h0 hj k i

end Steps

end Sys2Proof.Machine
end

section
/-! PROOFS. O8, what reductions and scans combine (R219), and the instructions. -/

namespace Sys2Proof.Machine

open Sys2Proof Sys2Proof.Claims

/-! ## Combinations of integers (R219) -/

section Fold

variable {f : Fmt} {op rnd : ℕ}

/-- A fold is seen in the format's bits alone. -/
theorem folded_congr {xs : List ℕ} {v w : ℕ} (h : v % 2 ^ fmtBits f = w % 2 ^ fmtBits f) (hv : Folded f op xs v) : Folded f op xs w := by
  have hi : asInt f w = asInt f v := by rw [← asInt_mod f w, ← h, asInt_mod]
  have hb : ∀ j, j < fmtBits f → w.testBit j = v.testBit j := fun j hj => by
    have := congrArg (fun n => n.testBit j) h
    simpa [Nat.testBit_mod_two_pow, hj] using this.symm
  match op with
  | 0 =>
    have : (w : ℤ) % 2 ^ fmtBits f = (v : ℤ) % 2 ^ fmtBits f := by exact_mod_cast h.symm
    simp only [Folded] at hv ⊢
    rw [Int.sub_emod, this, ← Int.sub_emod, hv]
  | 1 => simpa only [Folded, hi] using hv
  | 2 => simpa only [Folded, hi] using hv
  | 3 => exact fun j hj => (hb j hj).trans (hv j hj)
  | 4 => exact fun j hj => (hb j hj).trans (hv j hj)
  | _ + 5 => exact fun j hj => (hb j hj).trans (hv j hj)

/-- One value. -/
theorem folded_one (y : ℕ) : Folded f op [y] (y % 2 ^ fmtBits f) := by
  refine folded_congr (v := y) (Nat.mod_mod _ _).symm ?_
  match op with
  | 0 =>
    have := asInt_emod f y
    simp only [Folded, List.map_cons, List.map_nil, List.sum_cons, List.sum_nil, add_zero]
    rw [Int.sub_emod, this, sub_self, Int.zero_emod]
  | 1 => exact ⟨by simp, by simp, by simp⟩
  | 2 => exact ⟨by simp, by simp, by simp⟩
  | 3 => exact fun j _ => by simp
  | 4 => exact fun j _ => by simp
  | _ + 5 => exact fun j _ => by simp

/-- The exclusive or of a list from any bit on. -/
theorem foldl_xor (ys : List ℕ) (j : ℕ) (c : Bool) :
    ys.foldl (fun t y => xor t (y.testBit j)) c = xor c (ys.foldl (fun t y => xor t (y.testBit j)) false) := by
  induction ys generalizing c with
  | nil => simp
  | cons y ys ih => rw [List.foldl_cons, List.foldl_cons, ih, ih (xor false _)]; simp

/-- The combination of two values of an integer format. -/
theorem laneOp_int (hf : fmtIsFloat f = false) (a b : ℕ) : laneOp f op rnd a b =
    (match op with
      | 0 => (a % 2 ^ fmtBits f + b % 2 ^ fmtBits f) % 2 ^ fmtBits f
      | 1 => if asInt f (a % 2 ^ fmtBits f) ≤ asInt f (b % 2 ^ fmtBits f) then a % 2 ^ fmtBits f else b % 2 ^ fmtBits f
      | 2 => if asInt f (a % 2 ^ fmtBits f) ≤ asInt f (b % 2 ^ fmtBits f) then b % 2 ^ fmtBits f else a % 2 ^ fmtBits f
      | 3 => a % 2 ^ fmtBits f &&& b % 2 ^ fmtBits f
      | 4 => a % 2 ^ fmtBits f ||| b % 2 ^ fmtBits f
      | _ => a % 2 ^ fmtBits f ^^^ b % 2 ^ fmtBits f, 0) := if_neg (by rw [hf]; exact Bool.false_ne_true)

/-- The least of two lists is the lesser of the least of each. -/
theorem folded_least_append {xs ys : List ℕ} {a b v : ℕ} (hx : xs ≠ []) (hys : ys ≠ []) (ha : Folded f 1 xs a) (hb : Folded f 1 ys b)
    (hv : asInt f v = min (asInt f a) (asInt f b)) : Folded f 1 (xs ++ ys) v := by
  obtain ⟨ha1, -, ha2⟩ := ha
  obtain ⟨hb1, -, hb2⟩ := hb
  refine ⟨fun z hz => ?_, fun h => absurd h (by simp [hx]), fun _ => ?_⟩
  · rw [hv]
    exact (List.mem_append.1 hz).elim (fun hz => (min_le_left _ _).trans (ha1 z hz)) (fun hz => (min_le_right _ _).trans (hb1 z hz))
  · obtain ⟨y, hy, hay⟩ := ha2 hx
    obtain ⟨z, hz, hbz⟩ := hb2 hys
    rcases min_choice (asInt f a) (asInt f b) with h | h
    · exact ⟨y, List.mem_append_left _ hy, by rw [hv, h, hay]⟩
    · exact ⟨z, List.mem_append_right _ hz, by rw [hv, h, hbz]⟩

/-- The greatest of two lists is the greater of the greatest of each. -/
theorem folded_greatest_append {xs ys : List ℕ} {a b v : ℕ} (hx : xs ≠ []) (hys : ys ≠ []) (ha : Folded f 2 xs a) (hb : Folded f 2 ys b)
    (hv : asInt f v = max (asInt f a) (asInt f b)) : Folded f 2 (xs ++ ys) v := by
  obtain ⟨ha1, -, ha2⟩ := ha
  obtain ⟨hb1, -, hb2⟩ := hb
  refine ⟨fun z hz => ?_, fun h => absurd h (by simp [hx]), fun _ => ?_⟩
  · rw [hv]
    exact (List.mem_append.1 hz).elim (fun hz => (ha1 z hz).trans (le_max_left _ _)) (fun hz => (hb1 z hz).trans (le_max_right _ _))
  · obtain ⟨y, hy, hay⟩ := ha2 hx
    obtain ⟨z, hz, hbz⟩ := hb2 hys
    rcases max_choice (asInt f a) (asInt f b) with h | h
    · exact ⟨y, List.mem_append_left _ hy, by rw [hv, h, hay]⟩
    · exact ⟨z, List.mem_append_right _ hz, by rw [hv, h, hbz]⟩

/-- The fold of two lists, from the folds of each. -/
theorem folded_append (hf : fmtIsFloat f = false) {xs ys : List ℕ} {a b : ℕ} (hx : xs ≠ []) (hy : ys ≠ [])
    (ha : Folded f op xs a) (hb : Folded f op ys b) : Folded f op (xs ++ ys) (laneOp f op rnd a b).1 := by
  rw [laneOp_int hf]
  match op with
  | 0 =>
    refine folded_congr (v := a + b) (by simp [Nat.add_mod]) ?_
    simp only [Folded] at ha hb ⊢
    rw [List.map_append, List.sum_append]
    have := Int.dvd_of_emod_eq_zero ha
    have := Int.dvd_of_emod_eq_zero hb
    push_cast
    refine Int.emod_eq_zero_of_dvd ?_
    have h : (a : ℤ) + b - ((xs.map (asInt f)).sum + (ys.map (asInt f)).sum) =
      (a - (xs.map (asInt f)).sum) + (b - (ys.map (asInt f)).sum) := by ring
    rw [h]
    exact dvd_add ‹_› ‹_›
  | 1 =>
    refine folded_least_append hx hy ha hb ?_
    change asInt f (if asInt f (a % 2 ^ fmtBits f) ≤ asInt f (b % 2 ^ fmtBits f) then a % 2 ^ fmtBits f else b % 2 ^ fmtBits f) = _
    rw [apply_ite (asInt f), asInt_mod, asInt_mod, min_def]
  | 2 =>
    refine folded_greatest_append hx hy ha hb ?_
    change asInt f (if asInt f (a % 2 ^ fmtBits f) ≤ asInt f (b % 2 ^ fmtBits f) then b % 2 ^ fmtBits f else a % 2 ^ fmtBits f) = _
    rw [apply_ite (asInt f), asInt_mod, asInt_mod, max_def]
  | 3 =>
    intro j hj
    dsimp only
    simp [Nat.testBit_mod_two_pow, hj, ha j hj, hb j hj]
  | 4 =>
    intro j hj
    dsimp only
    simp [Nat.testBit_mod_two_pow, hj, ha j hj, hb j hj]
  | _ + 5 =>
    intro j hj
    have ha := ha j hj
    have hb := hb j hj
    dsimp only
    rw [List.foldl_append, foldl_xor ys, ← ha, ← hb]
    simp [Nat.testBit_mod_two_pow, hj]

/-- The identity of an integer combination. -/
theorem folded_identity (hf : fmtIsFloat f = false) : Folded f op [] (laneIdentity f op) := by
  unfold laneIdentity
  rw [if_neg (by rw [hf]; exact Bool.false_ne_true)]
  match op with
  | 0 => simp [Folded]
  | 1 => exact ⟨by simp, fun _ => asInt_wrapTo (intLo_le_intHi f) le_rfl, fun h => absurd rfl h⟩
  | 2 => exact ⟨by simp, fun _ => asInt_wrapTo le_rfl (intLo_le_intHi f), fun h => absurd rfl h⟩
  | 3 => exact fun j hj => by simp [hj]
  | 4 => exact fun j _ => by simp
  | _ + 5 => exact fun j _ => by simp

/-! ## Combinations of floating-point values (R219, R229, R230) -/

theorem minMaxIs_fpMinMax {less nanForm : Bool} {a b : ℕ} (ha : a < 2 ^ fmtBits f) (hb : b < 2 ^ fmtBits f) :
    MinMaxIs f less nanForm a b (fpMinMax f (!less) nanForm a b) := by
  unfold fpMinMax MinMaxIs
  rw [Nat.mod_eq_of_lt ha, Nat.mod_eq_of_lt hb]
  generalize numOf f a = x
  generalize numOf f b = y
  simp only [← sigFlag_two]
  refine ⟨fun hx hy => ?_, fun hx hy => ?_, fun hx hy => ?_, fun hx hy => ?_⟩
  · simp [hx, hy]
  · simp [hx, hy]
  · simp [hx, hy]
  · simp only [hx, hy, Bool.false_and, Bool.false_eq_true, if_false]
    refine ⟨trivial, (em _).imp (fun h => if_pos h) (fun h => if_neg h), fun hc => ?_, fun hc => ?_, fun hc h1 h2 => ?_, fun hc h1 h2 => ?_⟩
    · cases less <;> simp [hc]
    · cases less <;> simp [hc]
    · cases less <;> simp [hc, h1]
    · cases less <;> simp [hc, h1, h2]

theorem fpMinMax_lt (hf : fmtIsIeee f = true) (isMax nanForm : Bool) (a b : ℕ) : (fpMinMax f isMax nanForm a b).1 < 2 ^ fmtBits f := by
  obtain ⟨-, -, -, hnan, hz⟩ := ieee_codes_lt hf
  have hm := fun n => Nat.mod_lt n hz
  unfold fpMinMax
  simp only [apply_ite Prod.fst, apply_ite (· < 2 ^ fmtBits f), hnan, hm, ite_self]

theorem laneOp_float (hf : fmtIsFloat f = true) (a b : ℕ) : laneOp f op rnd a b =
    match op with
    | 0 => fpAdd f rnd 0 false (a % 2 ^ fmtBits f) (b % 2 ^ fmtBits f)
    | 1 => fpMinMax f false false (a % 2 ^ fmtBits f) (b % 2 ^ fmtBits f)
    | _ => fpMinMax f true false (a % 2 ^ fmtBits f) (b % 2 ^ fmtBits f) := if_pos hf

theorem laneComb_laneOp (hf : fmtIsIeee f = true) : LaneComb f op rnd (laneOp f op rnd) := by
  intro a b ha hb
  have h := laneOp_float (op := op) (rnd := rnd) (show fmtIsFloat f = true by rw [fmtIsFloat, hf, Bool.true_or]) a b
  rw [Nat.mod_eq_of_lt ha, Nat.mod_eq_of_lt hb] at h
  match op with
  | 0 =>
    change SumIs _ _ _ _ _ (laneOp f 0 rnd a b)
    exact h ▸ sumIs_fpAdd hf false
  | 1 =>
    change MinMaxIs _ _ _ _ _ (laneOp f 1 rnd a b)
    exact h ▸ minMaxIs_fpMinMax ha hb
  | n + 2 =>
    change MinMaxIs _ _ _ _ _ (laneOp f (n + 2) rnd a b)
    exact h ▸ minMaxIs_fpMinMax ha hb

/-! ## Codes -/

theorem laneOp_lt (hf : fmtIsFloat f = true → fmtIsIeee f = true) (a b : ℕ) : (laneOp f op rnd a b).1 < 2 ^ fmtBits f := by
  have hm := fun n => Nat.mod_lt n (show 0 < 2 ^ fmtBits f by positivity)
  by_cases hfl : fmtIsFloat f = true
  · rw [laneOp_float hfl]
    match op with
    | 0 => exact fpAdd_lt (hf hfl) false
    | 1 => exact fpMinMax_lt (hf hfl) _ _ _ _
    | _ + 2 => exact fpMinMax_lt (hf hfl) _ _ _ _
  · rw [laneOp_int (by simpa using hfl)]
    match op with
    | 0 => exact hm _
    | 1 =>
      change (if asInt f (a % 2 ^ fmtBits f) ≤ asInt f (b % 2 ^ fmtBits f) then a % 2 ^ fmtBits f else b % 2 ^ fmtBits f) < _
      split <;> exact hm _
    | 2 =>
      change (if asInt f (a % 2 ^ fmtBits f) ≤ asInt f (b % 2 ^ fmtBits f) then b % 2 ^ fmtBits f else a % 2 ^ fmtBits f) < _
      split <;> exact hm _
    | 3 => exact Nat.and_lt_two_pow _ (hm b)
    | 4 => exact Nat.or_lt_two_pow (hm a) (hm b)
    | _ + 5 => exact Nat.xor_lt_two_pow (hm a) (hm b)

theorem laneIdentity_float (hf : fmtIsFloat f = true) : laneIdentity f op = fpIdentity f op := by
  unfold laneIdentity fpIdentity
  rw [if_pos hf]
  match op with
  | 0 => rfl
  | 1 => exact (withSign_false f _).symm
  | _ + 2 => rfl

theorem laneIdentity_lt (hf : fmtIsFloat f = true → fmtIsIeee f = true) : laneIdentity f op < 2 ^ fmtBits f := by
  have hz : 0 < 2 ^ fmtBits f := by positivity
  by_cases hfl : fmtIsFloat f = true
  · obtain ⟨hs, -⟩ := ieee_codes_lt (hf hfl)
    rw [laneIdentity_float hfl]
    match op with
    | 0 => exact hz
    | 1 => exact hs _
    | _ + 2 => exact hs _
  · unfold laneIdentity
    rw [if_neg hfl]
    match op with
    | 0 => exact hz
    | 1 => exact wrapTo_lt _ _
    | 2 => exact wrapTo_lt _ _
    | 3 => exact Nat.sub_lt hz Nat.one_pos
    | _ + 4 => exact hz

/-! ## What lanes' values fold to -/

/-- A value that lanes `xs` have been folded to; none where there is no lane. -/
def FoldOf (f : Fmt) (op : ℕ) (a : ℕ → ℕ) (xs : List ℕ) : Option ℕ → Prop
  | none => xs = []
  | some v => xs ≠ [] ∧ v < 2 ^ fmtBits f ∧ (fmtIsFloat f = false → Folded f op (xs.map a) v)

theorem foldOf_joined (hf : fmtIsFloat f = true → fmtIsIeee f = true) {a : ℕ → ℕ} (xs ys : List ℕ) (p q : Option ℕ)
    (hp : FoldOf f op a xs p) (hq : FoldOf f op a ys q) : FoldOf f op a (xs ++ ys) (joined (laneOp f op rnd) p q).1 := by
  match p, q with
  | none, q =>
    obtain rfl : xs = [] := hp
    exact hq
  | some v, none =>
    obtain rfl : ys = [] := hq
    rw [List.append_nil]
    exact hp
  | some v, some w =>
    obtain ⟨hx, -, hv⟩ := hp
    obtain ⟨hy, -, hw⟩ := hq
    refine ⟨by simp [hx], laneOp_lt hf _ _, fun h => ?_⟩
    rw [List.map_append]
    exact folded_append h (by simpa using hx) (by simpa using hy) (hv h) (hw h)

theorem joined_int_flags (hf : fmtIsFloat f = false) (p q : Option ℕ) : (joined (laneOp f op rnd) p q).2 = 0 := by
  match p, q with
  | none, _ => rfl
  | some _, none => rfl
  | some v, some w => exact congrArg Prod.snd (laneOp_int hf v w)

end Fold

/-! ## Lanes -/

section Lanes

variable (x : Cx) (f : FmtA)

/-- A lane's value, absent where it is inactive. -/
def laneValue (l : ℕ) : Option ℕ := if x.act.getLsbD l then some (intSrc x f.ty f.a l % 2 ^ fmtBits f.ty) else none

theorem foldOf_lane (i : ℕ) : FoldOf f.ty (f.sub.toNat % 8) (intSrc x f.ty f.a) ([i].filter (fun l => x.act.getLsbD l)) (laneValue x f i) := by
  unfold laneValue
  cases h : x.act.getLsbD i with
  | true =>
    rw [if_pos rfl, List.filter_cons_of_pos h]
    exact ⟨by simp, Nat.mod_lt _ (by positivity), fun _ => folded_one _⟩
  | false =>
    rw [if_neg Bool.false_ne_true, List.filter_cons_of_neg (by simp [h])]
    rfl

/-- The combination of an instruction's values. -/
def laneComb : ℕ → ℕ → ℕ × Flags := laneOp f.ty (f.sub.toNat % 8) f.rnd.toNat

theorem foldOf_tree (hf : fmtIsFloat f.ty = true → fmtIsIeee f.ty = true) :
    FoldOf f.ty (f.sub.toNat % 8) (intSrc x f.ty f.a) x.acts (treeAt (laneComb f) (laneValue x f) 5 0).1 := by
  have := treeAt_induct (laneComb f) (foldOf_lane x f) (fun xs ys p q => foldOf_joined hf xs ys p q) 5 0
  rwa [Nat.mul_zero, ← List.range_eq_range'] at this

/-- The lanes before a lane, among those of a list in order. -/
theorem filter_range_le {l n : ℕ} (hl : l < n) : (List.range n).filter (fun j => decide (j ≤ l)) = List.range (l + 1) := by
  obtain ⟨m, rfl⟩ := Nat.exists_eq_add_of_le (Nat.succ_le_of_lt hl)
  rw [List.range_add, List.filter_append, List.filter_eq_self.2, List.filter_eq_nil_iff.2, List.append_nil]
  · intro a ha
    obtain ⟨k, -, rfl⟩ := List.mem_map.1 ha
    simp
    omega
  · intro a ha
    have := List.mem_range.1 ha
    simp
    omega

theorem acts_upTo {l : ℕ} (hl : l < 32) : (windowOf 5 l).filter (fun j => x.act.getLsbD j) = x.acts.filter (fun j => decide (j ≤ l)) := by
  have hw : windowOf 5 l = List.range (l + 1) := by
    rw [windowOf, List.range_eq_range']
    congr 1 <;> omega
  rw [hw, ← filter_range_le hl, Cx.acts, lanesOf, List.filter_comm]

theorem foldOf_prefix (hf : fmtIsFloat f.ty = true → fmtIsIeee f.ty = true) {l : ℕ} (hl : l < 32) :
    FoldOf f.ty (f.sub.toNat % 8) (intSrc x f.ty f.a) (x.acts.filter (fun j => decide (j ≤ l)))
      (prefixAt (laneComb f) (laneValue x f) 5 l).1 := by
  rw [← acts_upTo x hl]
  exact prefixAt_induct (laneComb f) (foldOf_lane x f) (fun xs ys p q => foldOf_joined hf xs ys p q) 5 l

theorem acts_sorted : x.acts.Pairwise (· < ·) := List.pairwise_lt_range.filter _

/-- The nearest active lane below a lane is the last of them. -/
theorem acts_below {l j : ℕ} (h : (x.acts.filter (fun k => decide (k < l))).getLast? = some j) :
    j ∈ x.acts ∧ x.acts.filter (fun k => decide (k ≤ j)) = x.acts.filter (fun k => decide (k < l)) := by
  obtain ⟨ys, hys⟩ := List.getLast?_eq_some_iff.1 h
  have hmem : ∀ k, k ∈ x.acts ∧ k < l ↔ k ∈ ys ++ [j] := fun k => by rw [← hys]; simp
  obtain ⟨hj, hjl⟩ := (hmem j).2 (by simp)
  have hs : (ys ++ [j]).Pairwise (· < ·) := hys ▸ (acts_sorted x).filter _
  refine ⟨hj, List.filter_congr (fun k hk => decide_eq_decide.2 ⟨fun h => h.trans_lt hjl, fun h => ?_⟩)⟩
  have hk := (hmem k).1 ⟨hk, h⟩
  rcases List.mem_append.1 hk with hk | hk
  · exact ((List.pairwise_append.1 hs).2.2 k hk j (by simp)).le
  · exact (List.mem_singleton.1 hk).le

end Lanes

/-! ## The instructions -/

theorem tyW_not_float {f : Fmt} (h : tyW f = true) : fmtIsFloat f = false := by
  cases f with
  | i32 | n32 | i64 | n64 => rfl
  | _ => cases h

theorem legalFold_spec {f : FmtA} (h : legalFold f = true) : (fmtIsFloat f.ty = true → fmtIsIeee f.ty = true) ∧
    (fmtIsFloat f.ty = false → tyW f.ty = true) := by
  simp only [legalFold, Bool.and_eq_true, Bool.or_eq_true] at h
  obtain ⟨⟨⟨⟨⟨⟨⟨-, -⟩, h⟩, -⟩, -⟩, -⟩, -⟩, -⟩ := h
  rcases h with h | ⟨h, -⟩
  · exact ⟨fun hf => absurd hf (by rw [tyW_not_float h]; exact Bool.false_ne_true), fun _ => h⟩
  · exact ⟨fun _ => h, fun hn => absurd hn (by rw [fmtIsFloat, h]; simp)⟩

theorem legalRedux_spec {f : FmtA} (h : legalRedux f = true) : legalFold f = true ∧ oprIsS f.d = true := by
  simp only [legalRedux, Bool.and_eq_true] at h
  exact ⟨h.1.1, h.2⟩

theorem legalScan_spec {f : FmtA} (h : legalScan f = true) : legalFold f = true ∧ oprIsV f.d = true := by
  simp only [legalScan, dstV, Bool.and_eq_true] at h
  exact ⟨h.1.1, h.2.1⟩

/-- An instruction whose effect is on its crew alone completes, whether or not one of its lanes is active. -/
theorem completes_crew {i : Instr} {s : State} {x : Cx} {g : Guard} {eff : Cx → Res} {cr : Crew} {E : Crew → Prop}
    (hp : Cx.of s g = some x) (hx : exec i s = issueWith i s eff)
    (hi : issueState i s eff = complete x (x.put cr) (endsRegion i))
    (hh : cr.handler.isSome = x.cr.handler.isSome) (ht : cr.threads = x.cr.threads) (hk : SameHeads x.cr cr)
    (hE : ∀ m k e, E (cr.advance m k e)) : Completes i s x E := by
  obtain ⟨hs, -, hcr, -⟩ := Cx.of_spec hp
  refine ⟨cr.advance x.lanes x.nextPc (endsRegion i && !x.cr.inHandler), ?_, sameBytes_setCrew _ _ _ _,
    advanced_advance ht hk _, hE _ _ _⟩
  rw [hx, issueWith, hi, complete, Cx.put, hs, State.updCrew_setCrew hcr, show cr.inHandler = x.cr.inHandler from hh]

theorem Completes.mono {i : Instr} {s : State} {x : Cx} {E E' : Crew → Prop} (h : Completes i s x E) (hE : ∀ cr, E cr → E' cr) :
    Completes i s x E' := by
  obtain ⟨cr, hex, hs, ha, he⟩ := h
  exact ⟨cr, hex, hs, ha, hE cr he⟩

theorem WritesReg.mono {x : Cx} {d : Opr} {n : ℕ} {fl : Flags} {val val' : ℕ → ℕ → Prop} {cr : Crew}
    (h : WritesReg x d n fl val cr) (hv : ∀ l ∈ dstLanes x d, ∀ v, val l v → val' l v) : WritesReg x d n fl val' cr :=
  ⟨fun l hl => hv l hl _ (h.1 l hl), h.2⟩

theorem WritesReg.orFlags {x : Cx} {d : Opr} {n : ℕ} {val : ℕ → ℕ → Prop} {cr : Crew} (h : WritesReg x d n 0 val cr) (fl : Flags) :
    WritesReg x d n fl val (cr.orFlags fl) := by
  obtain ⟨hv, hk⟩ := h
  rw [orFlags_zero] at hk
  refine ⟨fun l hl => ?_, hk.orFlags fl⟩
  rw [destVal_congr (e := cr) (fun _ _ => by simp) (fun _ => by simp)]
  exact hv l hl

/-- An instruction that writes one result a lane and sets flags completes. -/
theorem completes_writeLanes_orFlags {i : Instr} {s : State} {x : Cx} {g : Guard} {eff : Cx → Res} {d : Opr} {f : Fmt} {res : ℕ → ℕ}
    {fl : Flags} (hp : Cx.of s g = some x) (hx : exec i s = issueWith i s eff)
    (hi : issueState i s eff = complete x (x.put ((writeLanes x d f res).orFlags fl)) (endsRegion i)) :
    Completes i s x (WritesReg x d (fmtRegs f) fl
      (fun l v => (oprIsS d = false → v = if oprIsV d then res l % 2 ^ (32 * fmtRegs f) else 0) ∧
        (oprIsS d = true → v = toUniform f (res l) % 2 ^ 64))) := by
  have hh := orFlags_heads (writeLanes x d f res) fl
  have hw := writeLanes_heads x d f res
  exact completes_crew hp hx hi (by simp) (by simp)
    ⟨hh.1.trans hw.1, hh.2.1.trans hw.2.1, hh.2.2.1.trans hw.2.2.1, hh.2.2.2.1.trans hw.2.2.2.1, hh.2.2.2.2.trans hw.2.2.2.2⟩
    (fun m k e => ((writeLanes_spec x d f res).orFlags fl).advance m k e)

/-! ### `redux` -/

/-- An instruction that acts with no thread active does what its effect answers (R99, R219). -/
theorem issueState_vacant {i : Instr} {s : State} {x : Cx} (h : Vacant i s x) (ha : actsEmpty i = true) {eff : Cx → Res} {cr : Crew}
    (he : eff x = crewRes x cr) : issueState i s eff = complete x (x.put cr) (endsRegion i) := by
  have ho : (waitsForOlder i && x.cr.checksDue) = false := by
    cases hw : waitsForOlder i with
    | false => rfl
    | true => simp [h.older hw]
  have hacts : x.acts = [] := by simp [Cx.acts, lanesOf, h.idle]
  have hfe : feTraps x.cr i [] = false := by simp [feTraps, emptyIn]
  have hf : ¬x.fold ≤ foldIndex i := Nat.not_le.2 h.fold
  unfold issueState
  rw [h.path]
  simp only [h.encoding, h.place, h.idle, ha, h.blocks, ho, hacts, hfe, h.operands, hf, if_false, Bool.not_true, Bool.or_self,
    Bool.and_false, Bool.false_eq_true, he, crewRes, Bool.false_or]

/-- The value that a `redux` delivers. -/
def reduxValue (x : Cx) (f : FmtA) : ℕ := ((treeAt (laneComb f) (laneValue x f) 5 0).1).getD (laneIdentity f.ty (f.sub.toNat % 8))

/-- The effect of `redux`. -/
def reduxEff (f : FmtA) (x : Cx) : Res :=
  let r := treeReduce (laneComb f) 5 (laneValues x f)
  crewRes x ((x.cr.putOpr f.d 2 0 (toUniform f.ty ((r.1.getD 0 none).getD (laneIdentity f.ty (f.sub.toNat % 8))))).orFlags r.2)

theorem reduxEff_eq {f : FmtA} {x : Cx} (hd : oprIsS f.d = true) : reduxEff f x =
    crewRes x ((writeLanes x f.d .f64 (fun _ => toUniform f.ty (reduxValue x f))).orFlags (treeAt (laneComb f) (laneValue x f) 5 0).2) := by
  have hb : laneValues x f = blockOf (laneValue x f) 5 0 := by
    rw [blockOf, Nat.mul_zero, ← List.range_eq_range']
    rfl
  have hw : ∀ v, x.cr.putOpr f.d 2 0 v = writeLanes x f.d .f64 (fun _ => v) := by
    intro v
    cases hf : f.d with
    | s k => rfl
    | _ => rw [hf] at hd; cases hd
  rw [reduxEff, hb, treeReduce_block, hw]
  rfl

/-- A `redux` completes, with an active lane or without one. -/
theorem redux_completes {f : FmtA} {s : State} {x : Cx} (h : Ready (.redux f) s x ∨ Vacant (.redux f) s x) :
    Completes (.redux f) s x (WritesReg x f.d 2 (treeAt (laneComb f) (laneValue x f) 5 0).2
      (fun _ v => v = toUniform f.ty (reduxValue x f) % 2 ^ 64)) := by
  have hl : legalRedux f = true := h.elim (fun h => h.encoding) (fun h => h.encoding)
  obtain ⟨-, hd⟩ := legalRedux_spec hl
  have hp : Cx.of s f.g = some x := h.elim (fun h => h.path) (fun h => h.path)
  have hi : issueState (.redux f) s (reduxEff f) = _ := h.elim
    (fun h => by rw [issueState_ready h, reduxEff_eq hd]; rfl) (fun h => issueState_vacant h rfl (reduxEff_eq hd))
  refine (completes_writeLanes_orFlags (d := f.d) (f := .f64) hp rfl hi).mono (fun cr hw => hw.mono (fun l _ v hv => hv.2 hd))

/-- An integer as a uniform register receives it (R202). -/
theorem toUniform_int {f : Fmt} (hf : tyW f = true) {v : ℕ} (hv : v < 2 ^ fmtBits f) :
    v % 2 ^ fmtBits f = toUniform f v % 2 ^ 64 % 2 ^ fmtBits f ∧
      (fmtBits f = 32 → toUniform f v % 2 ^ 64 = wrapTo 64 (asInt f (toUniform f v % 2 ^ 64))) := by
  cases f with
  | i32 =>
    have hlo : -(2 ^ 31) ≤ asInt .i32 v := (asInt_bounds .i32 v).1
    have hhi : asInt .i32 v ≤ 2 ^ 31 - 1 := (asInt_bounds .i32 v).2
    have hmod : asInt .i32 v % 2 ^ 32 = (v : ℤ) % 2 ^ 32 := asInt_emod .i32 v
    have hu : toUniform .i32 v % 2 ^ 64 = wrapTo 64 (asInt .i32 v) := Nat.mod_eq_of_lt (wrapTo_lt 64 _)
    have hc := wrapTo_cast 64 (asInt .i32 v)
    have hi : wrapTo 64 (asInt .i32 v) % 2 ^ 32 = v % 2 ^ 32 := by omega
    refine ⟨by rw [hu]; exact hi.symm, fun _ => ?_⟩
    have ha : asInt .i32 (wrapTo 64 (asInt .i32 v)) = asInt .i32 v :=
      (asInt_mod .i32 _).symm.trans ((congrArg (asInt .i32) hi).trans (asInt_mod .i32 v))
    rw [hu, ha]
  | n32 =>
    have hu : toUniform .n32 v % 2 ^ 64 = v := Nat.mod_eq_of_lt (hv.trans_le (by norm_num [fmtBits]))
    refine ⟨by rw [hu], fun _ => ?_⟩
    have ha : asInt .n32 v = v := by rw [← Nat.mod_eq_of_lt hv]; simp [asInt, fmtSigned]
    have hc := wrapTo_cast 64 v
    have hv : v < 2 ^ 32 := hv
    rw [hu, ha]
    omega
  | i64 | n64 => exact ⟨(Nat.mod_mod _ _).symm, fun h => absurd h (by decide)⟩
  | _ => cases hf

theorem toUniform_float {f : Fmt} (hf : fmtIsFloat f = true) {v : ℕ} (hv : v < 2 ^ fmtBits f) : toUniform f v % 2 ^ 64 = v := by
  have hne : f ≠ .i32 := by rintro rfl; cases hf
  rw [toUniform, if_neg hne, Nat.mod_eq_of_lt]
  refine hv.trans_le (Nat.pow_le_pow_right two_pos ?_)
  cases f <;> simp [fmtBits]

/-- With an active lane a `redux` delivers the tree's value, a fold of the active lanes. -/
theorem reduxValue_active {x : Cx} {f : FmtA} (hl : legalFold f = true) (h : x.act ≠ 0) :
    some (reduxValue x f) = (treeAt (laneComb f) (laneValue x f) 5 0).1 ∧ reduxValue x f < 2 ^ fmtBits f.ty ∧
      (fmtIsFloat f.ty = false → Folded f.ty (f.sub.toNat % 8) (x.acts.map (intSrc x f.ty f.a)) (reduxValue x f)) := by
  have hf := foldOf_tree x f (legalFold_spec hl).1
  unfold reduxValue
  cases hp : (treeAt (laneComb f) (laneValue x f) 5 0).1 with
  | none =>
    rw [hp] at hf
    exact absurd hf (acts_ne_nil h)
  | some v =>
    rw [hp] at hf
    exact ⟨rfl, hf.2⟩

theorem treeAt_none (op : ℕ → ℕ → ℕ × Flags) {v : ℕ → Option ℕ} (hv : ∀ i, v i = none) : ∀ k i, treeAt op v k i = (none, 0)
  | 0, i => by rw [treeAt, hv]
  | k + 1, i => by simp [treeAt, treeAt_none op hv k, joined]

/-- With no active lane it delivers the identity (R99, R219). -/
theorem reduxValue_idle {x : Cx} {f : FmtA} (h : x.act = 0) :
    reduxValue x f = laneIdentity f.ty (f.sub.toNat % 8) ∧ (treeAt (laneComb f) (laneValue x f) 5 0).2 = 0 := by
  have ht := treeAt_none (laneComb f) (v := laneValue x f) (fun i => by simp [laneValue, h]) 5 0
  rw [reduxValue, ht]
  exact ⟨rfl, rfl⟩

/-! ### `scan` -/

/-- The nearest active lane below a lane. -/
def laneBelow (x : Cx) (l : ℕ) : Option ℕ := (x.acts.filter (fun j => decide (j < l))).getLast?

/-- What a lane has after the last step, or the identity. -/
def scanIncl (x : Cx) (f : FmtA) (l : ℕ) : ℕ :=
  ((scanSteps (laneComb f) 5 1 (laneValues x f)).1.getD l none).getD (laneIdentity f.ty (f.sub.toNat % 8))

/-- The value that a `scan` delivers to a lane. -/
def scanValue (x : Cx) (f : FmtA) (l : ℕ) : ℕ :=
  if f.sub.getLsbD 3 then
    match laneBelow x l with
    | some j => scanIncl x f j
    | none => laneIdentity f.ty (f.sub.toNat % 8)
  else scanIncl x f l

/-- The flags of all the combinations of a `scan`. -/
def scanFlags (x : Cx) (f : FmtA) : Flags :=
  allFlags (List.range 5) (fun k => allFlags (List.range 32) (fun l => (prefixAt (laneComb f) (laneValue x f) (k + 1) l).2))

theorem scanSteps_eq (x : Cx) (f : FmtA) : scanSteps (laneComb f) 5 1 (laneValues x f) =
    ((List.range 32).map (fun l => (prefixAt (laneComb f) (laneValue x f) 5 l).1), scanFlags x f) := by
  have h := scanSteps_prefix (laneComb f) (laneValue x f) 5 0
  simp only [Nat.zero_add] at h
  exact h

/-- The effect of `scan`. -/
def scanEff (f : FmtA) (x : Cx) : Res :=
  crewRes x ((writeLanes x f.d f.ty (scanValue x f)).orFlags (scanSteps (laneComb f) 5 1 (laneValues x f)).2)

/-- What an active lane has after the last step: a fold of the active lanes up to it. -/
theorem scanIncl_spec {x : Cx} {f : FmtA} (hl : legalFold f = true) {l : ℕ} (h : l ∈ x.acts) :
    some (scanIncl x f l) = (prefixAt (laneComb f) (laneValue x f) 5 l).1 ∧ scanIncl x f l < 2 ^ fmtBits f.ty ∧
      (fmtIsFloat f.ty = false → Folded f.ty (f.sub.toNat % 8)
        ((x.acts.filter (fun j => decide (j ≤ l))).map (intSrc x f.ty f.a)) (scanIncl x f l)) := by
  have hlt := acts_lt h
  have hf := foldOf_prefix x f (legalFold_spec hl).1 hlt
  have hs : scanIncl x f l = ((prefixAt (laneComb f) (laneValue x f) 5 l).1).getD (laneIdentity f.ty (f.sub.toNat % 8)) := by
    rw [scanIncl, scanSteps_eq]
    simp [List.getD_eq_getElem?_getD, hlt]
  cases hp : (prefixAt (laneComb f) (laneValue x f) 5 l).1 with
  | none =>
    rw [hp] at hf
    exact absurd (List.mem_filter.2 ⟨h, decide_eq_true le_rfl⟩) (by rw [hf]; exact List.not_mem_nil)
  | some v =>
    rw [hp] at hf hs
    rw [hs]
    exact ⟨rfl, hf.2⟩

theorem scanValue_lt {x : Cx} {f : FmtA} (hl : legalFold f = true) {l : ℕ} (h : l ∈ x.acts) : scanValue x f l < 2 ^ fmtBits f.ty := by
  unfold scanValue
  split
  · cases hb : laneBelow x l with
    | none => exact laneIdentity_lt (legalFold_spec hl).1
    | some j => exact (scanIncl_spec hl (acts_below x hb).1).2.1
  · exact (scanIncl_spec hl h).2.1

theorem exec_scan (f : FmtA) (s : State) : exec (.scan f) s = issueWith (.scan f) s (scanEff f) := by
  refine congrArg (issueWith (.scan f) s) (funext fun x => ?_)
  have hv : scanValue x f = fun l => if f.sub.getLsbD 3 then
      match (x.acts.filter (fun j => decide (j < l))).getLast? with
      | some j => scanIncl x f j
      | none => laneIdentity f.ty (f.sub.toNat % 8)
    else scanIncl x f l := rfl
  rw [scanEff, hv]
  unfold scanIncl
  dsimp only [laneComb] <;> (generalize scanSteps (laneOp f.ty (f.sub.toNat % 8) f.rnd.toNat) 5 1 (laneValues x f) = r; rfl)

theorem scan_completes {f : FmtA} {s : State} {x : Cx} (h : Ready (.scan f) s x) :
    Completes (.scan f) s x (WritesReg x f.d (fmtRegs f.ty) (scanFlags x f) (fun l v => l ∈ x.acts ∧ v = scanValue x f l)) := by
  obtain ⟨hl, hd⟩ := legalScan_spec h.encoding
  have hns := oprIsV_not_S hd
  have hi : issueState (.scan f) s (scanEff f) =
      complete x (x.put ((writeLanes x f.d f.ty (scanValue x f)).orFlags (scanFlags x f))) (endsRegion (.scan f)) := by
    rw [issueState_ready h, scanEff, scanSteps_eq]
    rfl
  refine (completes_writeLanes_orFlags (d := f.d) (f := f.ty) h.path (exec_scan f s) hi).mono (fun cr hw => hw.mono (fun l hm v hv => ?_))
  have hm : l ∈ x.acts := by rwa [dstLanes, hns] at hm
  refine ⟨hm, ?_⟩
  rw [hv.1 hns, if_pos hd, Nat.mod_eq_of_lt]
  refine (scanValue_lt hl hm).trans_le (Nat.pow_le_pow_right two_pos ?_)
  cases f.ty <;> simp [fmtBits, fmtRegs]

theorem allFlags_zero (ls : List ℕ) {fl : ℕ → Flags} (h : ∀ l, fl l = 0) : allFlags ls fl = 0 := by
  induction ls with
  | nil => rfl
  | cons a ls ih =>
    rw [allFlags, List.foldl_cons, foldl_flags, ih, h]
    simp

theorem scanFlags_int {x : Cx} {f : FmtA} (hf : fmtIsFloat f.ty = false) : scanFlags x f = 0 := by
  refine allFlags_zero _ (fun k => allFlags_zero _ (fun l => ?_))
  rw [prefixAt]
  split
  · exact joined_int_flags hf _ _
  · rfl

theorem scanValue_own {x : Cx} {f : FmtA} (hs : f.sub.getLsbD 3 = false) (l : ℕ) : scanValue x f l = scanIncl x f l := by
  rw [scanValue, hs, if_neg Bool.false_ne_true]

theorem scanValue_excl {x : Cx} {f : FmtA} (hs : f.sub.getLsbD 3 = true) (l : ℕ) : scanValue x f l =
    match laneBelow x l with
    | some j => scanIncl x f j
    | none => laneIdentity f.ty (f.sub.toNat % 8) := by
  rw [scanValue, if_pos hs]

/-- An integer `scan` folds the active lanes up to its own, or below it. -/
theorem scanValue_folded {x : Cx} {f : FmtA} (hl : legalFold f = true) (hf : fmtIsFloat f.ty = false) {l : ℕ} (h : l ∈ x.acts) :
    Folded f.ty (f.sub.toNat % 8)
      ((x.acts.filter (fun j => if f.sub.getLsbD 3 then decide (j < l) else decide (j ≤ l))).map (intSrc x f.ty f.a))
      (scanValue x f l) := by
  cases hs : f.sub.getLsbD 3 with
  | false =>
    rw [scanValue_own hs]
    exact (scanIncl_spec hl h).2.2 hf
  | true =>
    rw [scanValue_excl hs]
    simp only [if_true]
    cases hb : laneBelow x l with
    | none =>
      rw [List.getLast?_eq_none_iff.1 hb]
      exact folded_identity hf
    | some j =>
      obtain ⟨hj, he⟩ := acts_below x hb
      rw [← he]
      exact (scanIncl_spec hl hj).2.2 hf

end Sys2Proof.Machine

open Sys2Proof Sys2Proof.Machine Sys2Proof.Claims

/-- Settles O8: the tree and the steps are those of R99 and R100 over the active lanes, and for integers they fold them. -/
theorem reduceAndScan : Obligations.ReduceAndScan := by
  intro f s x
  refine ⟨fun h hf => ?_, fun h hf => ?_, fun h => ?_, fun h hf => ?_, fun h hf => ?_⟩
  · have hl := (legalRedux_spec h.encoding).1
    obtain ⟨-, hlt, hfold⟩ := reduxValue_active hl h.active
    obtain ⟨hmod, hext⟩ := toUniform_int ((legalFold_spec hl).2 hf) hlt
    have hc := redux_completes (.inl h)
    rw [laneComb, treeAt_flags _ (joined_int_flags hf)] at hc
    refine hc.mono (fun cr hw => hw.mono (fun l _ v hv => ?_))
    rw [hv]
    exact ⟨folded_congr hmod (hfold hf), hext⟩
  · have hl := (legalRedux_spec h.encoding).1
    obtain ⟨htree, hlt, -⟩ := reduxValue_active hl h.active
    refine ⟨laneComb f, laneComb_laneOp ((legalFold_spec hl).1 hf), (redux_completes (.inl h)).mono (fun cr hw => hw.mono (fun l _ v hv => ?_))⟩
    rw [hv, toUniform_float hf hlt]
    exact htree
  · have hl := (legalRedux_spec h.encoding).1
    obtain ⟨hid, hflags⟩ := reduxValue_idle (f := f) h.idle
    have hlt := laneIdentity_lt (op := f.sub.toNat % 8) (legalFold_spec hl).1
    have hc := redux_completes (.inr h)
    rw [hflags, hid] at hc
    refine hc.mono (fun cr hw => hw.mono (fun l _ v hv => ⟨fun hf => ?_, fun hf => ?_⟩))
    · obtain ⟨hmod, hext⟩ := toUniform_int ((legalFold_spec hl).2 hf) hlt
      rw [hv]
      exact ⟨folded_congr hmod (folded_identity hf), hext⟩
    · rw [hv, toUniform_float hf hlt]
      exact laneIdentity_float hf
  · have hl := (legalScan_spec h.encoding).1
    have hc := scan_completes h
    rw [scanFlags_int hf] at hc
    refine hc.mono (fun cr hw => hw.mono (fun l _ v hv => ?_))
    obtain ⟨hm, rfl⟩ := hv
    exact scanValue_folded hl hf hm
  · have hl := (legalScan_spec h.encoding).1
    refine ⟨laneComb f, laneComb_laneOp ((legalFold_spec hl).1 hf), (scan_completes h).mono (fun cr hw => hw.mono (fun l _ v hv => ?_))⟩
    obtain ⟨hm, rfl⟩ := hv
    refine ⟨fun hs => ?_, fun hs hb => ?_, fun hs j hb => ?_⟩
    · rw [scanValue_own hs]
      exact (scanIncl_spec hl hm).1
    · rw [scanValue_excl hs, show laneBelow x l = none from hb]
      exact laneIdentity_float hf
    · rw [scanValue_excl hs, show laneBelow x l = some j from hb]
      exact (scanIncl_spec hl (acts_below x hb).1).1

end
